-- ==== Sys2Proof/Word.lean ====
section
/-! DEFINITION. The word types of the block and their plainest arithmetic (little-endian words of bytes under R6, the
constants of R4). Everything that a test could show wrong stands in Sys2Proof/Machine. -/
namespace Sys2Proof

/-- One byte of a structure, a message or a beat (R6). -/
abbrev Byte := BitVec 8

/-- A 64-bit register of the control port (R415), a customer key (R62) or a beat tag (R119). -/
abbrev Word64 := BitVec 64

/-- The bit pattern of an FP32 value. -/
abbrev F32 := BitVec 32

/-- A gauger sequence (R312). 0 is never stamped and means "none". The field is 64 bits wide; R313 says sequences
never repeat over the life of a block. -/
abbrev Seq := Nat

/-- A 24-bit adapter ID (R17): 0 is the zero adapter, 0xFF_FFFF means "none". -/
abbrev AdapterId := Nat

/-- 2^20 bytes (R4). -/
def mib : Nat := 1048576

/-- 2^30 bytes (R4). -/
def gib : Nat := 1073741824

/-- The value of a list of bytes, the first the least significant (R6). -/
def leNat : List Byte → Nat
  | [] => 0
  | b :: bs => b.toNat + 256 * leNat bs

/-- The `n` low bytes of a number, the least significant first (R6). -/
def leBytes : Nat → Nat → List Byte
  | 0, _ => []
  | n + 1, v => BitVec.ofNat 8 v :: leBytes n (v / 256)

/-- `n` divided by `m`, rounded up. -/
def ceilDiv (n m : Nat) : Nat := (n + m - 1) / m

/-- `n` rounded up to a multiple of `m`. -/
def roundUp (n m : Nat) : Nat := ceilDiv n m * m

/-- A count that stops at the largest value of its width (the "stops at" of the register tables). -/
def sat (width n : Nat) : Nat := min n (2 ^ width - 1)

/-- A sparse table from numbers (register addresses, indices, adapter IDs) to values, ascending, listing no default value:
the operations that keep this form stand in Sys2Proof/Machine/Tab.lean. -/
abbrev Tab (α : Type) := List (Nat × α)

end Sys2Proof
end

