-- ==== Sys2Proof/Syntax.lean ====
section
/-! DEFINITION. The commands and events of the block: one constructor of Instr per row of spec/opcode_table.json, with the
row's operands, and the structures that the operands carry. A command that a driver gives by a descriptor names only the
context: its fields come from the descriptor that the block took (R269, R279). Events of the block's own units name the
unit; what the surroundings or the physics decide (a check that fails, a measured value) is an operand. -/
namespace Sys2Proof

/-- The role tag of a control-port access (R417). -/
inductive Role where
  | ordinary | fabric | maint | bad
  deriving DecidableEq, Repr

/-- The form of a stored adapter (`FORM`[3:0], Table 2.4). -/
inductive Form where
  | direct | member | basis
  deriving DecidableEq, Repr

/-- The adapter header of Table 2.4. -/
structure AdapterHdr where
  id : AdapterId := 0
  form : Form := .direct
  bucketMember : Bool := false
  shared : Bool := false
  tenant : Nat := 0
  slotCount : Nat := 0
  fp : Word64 := 0
  version : Nat := 0
  vecFmt : Nat := 0
  scale : F32 := 0
  tensorBytes : Nat := 0
  basisId : AdapterId := 0
  bucketLog2 : Nat := 0
  bucketBase : AdapterId := 0
  deriving DecidableEq, Repr

/-- A slot entry of an adapter (Table 2.5). -/
structure SlotEntry where
  layer : Nat := 0
  proj : Nat := 0
  inW : Nat := 0
  outW : Nat := 0
  rank : Nat := 0
  aFmt : Nat := 0
  bFmt : Nat := 0
  shrinkOff : Nat := 0
  expandOff : Nat := 0
  rankVecOff : Nat := 0
  outVecOff : Nat := 0
  deriving DecidableEq, Repr

/-- The kind of a directory target (Table 4.3). -/
inductive DirKind where
  | none | adapter | handle | set
  deriving DecidableEq, Repr

/-- A key-directory entry (Table 4.3). -/
structure DirEntry where
  key : Word64 := 0
  tenant : Nat := 0
  kind : DirKind := .none
  prevKind : DirKind := .none
  target : Nat := 0
  log2 : Nat := 0
  prevTarget : Nat := 0
  prevLog2 : Nat := 0
  changeSeq : Seq := 0
  deriving DecidableEq, Repr

/-- The segment header of tensor data between blocks (R228). -/
structure SegHdr where
  adapter : AdapterId := 0
  version : Nat := 0
  index : Nat := 0
  total : Nat := 0
  offset : Nat := 0
  length : Nat := 0
  crc : Word64 := 0
  deriving DecidableEq, Repr

/-- One component of a class of `M_FAR_OPEN` (R220): 0xFF_FFFF when not used. -/
structure FarComp where
  adapter : AdapterId := 0xFFFFFF
  version : Nat := 0
  weight : F32 := 0
  deriving DecidableEq, Repr

/-- The slot header of `M_FAR_ROWS` and `M_FAR_SUM` (Table 10.1). -/
structure FarSlot where
  layer : Nat := 0
  proj : Nat := 0
  inW : Nat := 0
  outW : Nat := 0
  actFmt : Nat := 0
  deriving DecidableEq, Repr

/-- A row record of `M_FAR_ROWS` (the activation part) or of `M_FAR_SUM` (FP32 values) (Table 10.1). -/
structure FarRec where
  row : Nat := 0
  cls : Nat := 0
  data : List Byte := []
  deriving DecidableEq, Repr

/-- An answer of `M_LOOKUP_ANS` for one adapter ID: header, slot table, version and lease, or the code of a refusal (R213). -/
structure LookupAns where
  adapter : AdapterId := 0
  status : Nat := 0
  hdr : AdapterHdr := {}
  slots : List SlotEntry := []
  version : Nat := 0
  leaseUs : Nat := 0
  deriving DecidableEq, Repr

/-- What a link check finds in what a port brings in: it passes, it fails (R121, R229, R439), or the synchroniser discards an entry
by its parity, which acts as a failed check and counts on its own (R433). -/
inductive LinkCheck where
  | ok | failed | parity
  deriving DecidableEq, Repr

/-- The header of a block-to-block message (Table 10.3), with the fabric port that it arrived on and whether its AES-256-GCM
tag verifies (R227, R229, R441). `wellFormed` says that type, reserved bytes and payload encodings are legal. -/
structure MsgHdr where
  port : Nat := 0
  src : Nat := 0
  dst : Nat := 0
  seq : Nat := 0
  corr : Seq := 0
  epoch : Nat := 0
  ctxEpoch : Nat := 0
  submitter : Nat := 0
  status : Nat := 0
  more : Bool := false
  /-- `MSG_FMT` byte and `PAYLOAD_BYTES` -/
  fmt : Nat := 1
  bytes : Nat := 0
  tag : LinkCheck := .ok
  wellFormed : Bool := true
  deriving DecidableEq, Repr

/-- The beat tag of Table 6.4. -/
structure BeatTag where
  gyle : Nat := 0
  submitter : Nat := 0
  slot : Nat := 0
  row : Nat := 0
  kind : Nat := 0
  last : Bool := false
  nan : Bool := false
  sat : Bool := false
  /-- bits [63:59] -/
  reserved : BitVec 5 := 0
  deriving DecidableEq, Repr

/-- A fault that leaves a wrong value in an accumulator before the swap (R327): the logical lane (0 to 31, or 34 for the checksum
lane), the accumulator's index in the set, and the value that stands there. -/
structure Upset where
  lane : Nat := 0
  index : Nat := 0
  value : F32 := 0
  deriving DecidableEq, Repr

/-- What a tun's BIST found (R332, R355): the failing physical lanes 0 to 34, and whether anything else failed. -/
structure BistResult where
  lanes : List Nat := []
  other : Bool := false
  deriving DecidableEq, Repr

/-- What one read of the cellar's symbol code finds (R164 to R166). -/
inductive ScrubResult where
  | clean
  | corrected
  | uncorrectable
  deriving DecidableEq, Repr

/-- A codeword in error that a tile's read meets (R164): its number in the cellar, the part of the tile that it belongs to, and whether
the code corrects it. -/
structure ReadError where
  address : BitVec 28 := 0
  part : Nat := 0
  corrected : Bool := true
  deriving DecidableEq, Repr

/-- What a tile's read meets: the bits in which the tag that arrives with it differs from the tag array's, and the codewords in error
(R96, R164, R326). -/
structure TileRead where
  upset : BitVec 16 := 0
  errors : List ReadError := []
  deriving DecidableEq, Repr

/-- What a step of a remap finds in its region: tensors of casks, by (cask, tensor), and scratch slices by their place (R356). -/
structure RegionFinds where
  items : List (Fin 4096 × Nat) := []
  scratch : List Nat := []
  deriving DecidableEq, Repr

/-- How far the feeder of a lane has come since an event last met it: the handshakes that have run, and the operand chunks that then
stand in its queue, 0 to 16 (R100). -/
structure Feeder where
  ran : Nat := 0
  ahead : Fin 17 := 0
  deriving DecidableEq, Repr

/-- What stands at a codeword of the cellar (R163, R164): the spec leaves the addresses of its parts to the block. -/
inductive CellarPlace where
  | unused
  | tensor (cask : Fin 4096) (index : Nat)
  | directory
  | scratch (partials : List Nat)
  deriving DecidableEq, Repr

/-- A codeword in error that a read of the cellar meets, and what stands there (R164). -/
structure CellarError where
  address : BitVec 28 := 0
  place : CellarPlace := .unused
  corrected : Bool := true
  deriving DecidableEq, Repr

/-- An operand of an event that reads the cellar, with the codewords in error that these reads meet (R164). -/
structure Met (α : Type) where
  it : α
  errors : List CellarError := []
  deriving DecidableEq, Repr

/-- How a codeword of a kiln page read ends (R243, R253). -/
inductive CodewordResult where
  /-- no bit in error; corrected by hard decision; corrected at a soft retry, from 1; not corrected -/
  | clean | hard | soft (retry : Nat) | fail
  deriving DecidableEq, Repr

/-- What a kiln page read meets beside its own codewords (R253, R258): the other columns of the stripe whose page fails, and the bits that
come out wrong though the decoder took its codeword for whole. -/
structure StripeRead where
  failing : List (Fin 32) := []
  upset : List (BitVec 8) := []
  deriving DecidableEq, Repr

/-- What a kiln page read meets (R253): with it, how each codeword ends, and whether the reconstruction is ready before the soft retries. -/
structure PageRead extends StripeRead where
  codewords : List CodewordResult := [.clean, .clean, .clean, .clean]
  reconFirst : Bool := false
  deriving DecidableEq, Repr

/-- The division of a kiln's superblocks into areas that it was formatted with (R246): superblocks of a checkpoint area and of the journal,
and the pages of an erase block in SLC mode, a part of its native ones that is the devices' own. -/
structure KilnLayout where
  ckptBlocks : Nat := 1
  journalBlocks : Nat := 2
  slcPages : Nat := 1024
  deriving DecidableEq, Repr

/-- What the mount reads of the device on a channel (R241): its parameter page, and the data rate and chip enables that interface
training found (Table 11.11). -/
structure DevicePage where
  channel : Nat := 0
  nvLpddr4 : Bool := true
  mainBytes : Nat := 16384
  spareBytes : Nat := 2048
  pagesPerBlock : Nat := 1024
  blocks : Nat := 0
  busWidth : Nat := 8
  mts : Nat := 3600
  ces : Nat := 1
  deriving DecidableEq, Repr

/-- How a start-up step or a reset step ends (R396): complete, or failed with a code of Table 20.5; a step that measures the
parts it initialises carries what it found: tuns that fail their BIST, cellar rows (die, bank, row) and regions (die, region)
that fail the march test, flash devices accepted and those that fail R241, bytes of one device, and the epoch and checkpoint
that a kiln holds which this model has not written itself. -/
structure StepResult where
  failCode : Nat := 0
  badTuns : List Nat := []
  badRows : List (Nat × Nat × Nat) := []
  badRegions : List (Nat × Nat) := []
  /-- the record indices of copy A and of copy B of the repair map whose CRC failed as the map was read -/
  mapBadA : List Nat := []
  mapBadB : List Nat := []
  /-- the devices that answered at device acceptance -/
  devices : List DevicePage := []
  /-- the epoch and the layout of a kiln that this model has not written itself -/
  kilnEpoch : Nat := 0
  kilnLayout : KilnLayout := {}
  /-- a checkpoint, of area A or of area B, that cannot be read back whole, and the journal records whose CRC-32C fails, by their
  number after the checkpoint -/
  ckptBad : List Bool := []
  journalBad : List Nat := []
  deriving DecidableEq, Repr

/-- A telemetry sample of the power port (Table 23.8), with the hottest sensor (R372) and the block's three estimates of R370 at that
sample, in units of 0.1 W: leakage, the parts that gating does not touch, interior power at full issue. -/
structure Telemetry where
  mv : Nat := 0
  deciAmp : Nat := 0
  leakDw : Nat := 0
  restDw : Nat := 0
  interiorDw : Nat := 0
  tjMax : Nat := 0
  tjSensor : Nat := 0
  paceMhz : Nat := 0
  deriving DecidableEq, Repr

/-- The firmware image header of Table 17.8, the image's length as staged, and the body. -/
structure FwImage where
  version : Nat := 0
  minCompat : Nat := 0
  bytes : Nat := 0
  crc : Word64 := 0
  body : List Byte := []
  signature : List Byte := []
  reservedClear : Bool := true
  deriving DecidableEq, Repr

/-- A watched stage group of Table 16.3; for a tun, whether its lane SRAM can still be read (R341). The table of commands has no row for
what a comparator or the code of an on-block SRAM word finds, so these are further groups of the row: a lockstep comparator (R330), the
gauger's (R315), and a word that its code corrects, or cannot correct in a tun, in a splice port for a gyle, in grist SRAM or in a core
pair (R329). -/
inductive StageGroup where
  | tun (t : Fin 68) (readable : Bool)
  | splicePort (p : Fin 128)
  | memPort (p : Fin 32)
  | channel (d : Fin 32)
  | cellarPath (die : Fin 4) (regions : List (Fin 1024))
  | grist | gauger | updateEngine
  | pair (p : Fin 4)
  | lockstep (p : Fin 4)
  | gaugerCompare
  | sramCorrected
  | tunSram (t : Fin 68) (readable : Bool)
  | portSram (p : Fin 128) (c : Fin 64) (gyle : BitVec 16)
  | gristSram
  | pairSram (p : Fin 4)
  deriving DecidableEq, Repr

/-- The commands and events of spec/opcode_table.json, one constructor a row, in the table's order. -/
inductive Instr where
  -- descriptor commands (Table 13.2), each on the descriptor that context c has taken
  | gyleOpen (c : Fin 64)
  | gyleRows (c : Fin 64)
  | gyleClose (c : Fin 64)
  | planLoad (c : Fin 64)
  | planSwap (c : Fin 64)
  | mixBind (c : Fin 64)
  | mixUnbind (c : Fin 64)
  | pin (c : Fin 64)
  | unpin (c : Fin 64)
  | prefetch (c : Fin 64)
  | trainOpen (c : Fin 64)
  | trainCommit (c : Fin 64)
  | trainAbort (c : Fin 64)
  | publishAdapter (c : Fin 64)
  | publishDirectory (c : Fin 64)
  | purge (c : Fin 64)
  | epochStage (c : Fin 64)
  | epochSwitch (c : Fin 64)
  | rack (c : Fin 64)
  | lendGrant (c : Fin 64)
  | lendRecall (c : Fin 64)
  | mark (c : Fin 64)
  | quiesce (c : Fin 64)
  | resume (c : Fin 64)
  | nop (c : Fin 64)
  -- control-port writes (R415 to R419)
  | doorbell (c : Fin 64) (value : Word64) (role : Role)
  | cqHeadWrite (c : Fin 64) (value : Word64) (role : Role)
  | ctxEnable (c : Fin 64) (role : Role)
  | ctxReset (c : Fin 64) (role : Role)
  | ringConfigWrite (c : Fin 64) (offset : BitVec 12) (value : Word64) (role : Role)
  | tenantBindChange (c : Fin 64) (value : Word64) (role : Role)
  | eventAckWrite (page : BitVec 12) (value : Word64) (role : Role)
  | eventMaskWrite (page : BitVec 12) (value : Word64) (role : Role)
  | countSnapWrite (page : BitVec 12) (value : Word64) (role : Role)
  | registerWrite (page : BitVec 12) (offset : BitVec 12) (value : Word64) (role : Role)
  | tunFenceCmd (t : Fin 68) (role : Role)
  | tunReadmit (t : Fin 68) (role : Role)
  | tunBistDone (t : Fin 68) (found : BistResult)
  | kilnCheckpointCmd (role : Role)
  | kilnRetireCmd (device : Fin 32) (role : Role)
  | keyLoadSlot (peer : BitVec 8) (receive : Bool) (role : Role)
  | keyRotate (tenant : Fin 4096) (role : Role)
  | keyRenewLoadPair (role : Role)
  | keyDone
  | saltHiWrite (value : Word64) (role : Role)
  | tenantLoad (tenant : Fin 4096) (word : Fin 4) (role : Role)
  | tenantStore (tenant : Fin 4096) (word : Fin 4) (role : Role)
  | hpStore (tenant : Fin 4096) (role : Role)
  | hpLoad (tenant : Fin 4096) (role : Role)
  | caskSelWrite (value : Word64) (role : Role)
  | cellarPartRaise (page : BitVec 12) (offset : BitVec 12) (value : Word64) (role : Role)
  | logSelWrite (value : Word64) (role : Role)
  | ffClear (value : Word64) (role : Role)
  | ffClearDone
  | blockWarmResetCmd (role : Role)
  | blockColdResetCmd (role : Role)
  | configDoneWrite (value : Word64) (role : Role)
  | testHoldWrite (value : Word64) (role : Role)
  | winRead (window : Fin 2) (bytes : BitVec 32) (role : Role)
  | winWrite (window : Fin 2) (bytes : BitVec 32) (role : Role)
  | winMove (window : Fin 2) (bytes : BitVec 32) (role : Role)
  | winTransferDone (window : Fin 2) (status : Nat) (data : Met (List Byte))
  | repairRemap (die : Fin 4) (region : Fin 1024) (role : Role)
  | regionRemapStepDone (found : RegionFinds)
  | fwStage (bytes : BitVec 32) (role : Role)
  | fwStageDone (image : FwImage)
  | fwActivate (bytes : BitVec 32) (role : Role)
  | pairRestartDone (pair : Fin 4) (passed : Bool)
  | powerCapWrite (value : Word64) (role : Role)
  | logbookRead (index : Fin 262144) (bank : Fin 2)
  -- the serving path
  | rowResolve (c : Fin 64) (gyle : BitVec 16)
  | sortPass2Done (c : Fin 64) (gyle : BitVec 16)
  | activationCreditGrant (port : Fin 128)
  | creditPortionGrant (port : Fin 128)
  | baseCreditGrant (port : Fin 128)
  | inboundBeat (port : Fin 128) (tag : BeatTag) (data : List Byte) (check : LinkCheck)
  | scatterWrite (port : Fin 128) (feeder : Feeder)
  | tileRequest (t : Fin 68)
  | tileReady (t : Fin 68) (half : Fin 2) (read : TileRead)
  | opIssue (t : Fin 68)
  | fillSwap (t : Fin 68) (upsets : List Upset)
  | partSendStart (port : Fin 128)
  | outboundNak (port : Fin 128) (tag : BeatTag)
  | partLeft (port : Fin 128)
  | batchWindowExpiry (hold : Nat)
  | cutoffExpiry (c : Fin 64) (gyle : BitVec 16)
  | lateGraceExpiry (c : Fin 64) (gyle : BitVec 16) (slot row : Nat)
  | fetchStreamStart (stream : Nat)
  | tensorPresent (stream : Nat) (upset : List Byte)
  | lazyWriteback (toKiln : Met Bool)
  | evictionWritebackDone (cask : Met (Fin 4096))
  | commitRun (c : Fin 64) (gyle : Met (BitVec 16))
  | commitPublish (c : Fin 64) (gyle : BitVec 16)
  | publishPublication (adapter : BitVec 24)
  | epochStaged
  | purgeComplete (adapter : BitVec 24)
  | rotationStart (tenant : Fin 4096)
  | rotationComplete (tenant : Fin 4096)
  | quiesceComplete (c : Fin 64)
  | ctxResetDone (c : Fin 64)
  | readData (port : Fin 32) (id : Fin 1024) (data : List Byte) (check : LinkCheck)
  | writeResponse (port : Fin 32) (id : Fin 1024) (check : LinkCheck)
  -- block-to-block messages (Table 10.4)
  | mLookup (h : MsgHdr) (ids : List AdapterId)
  | mLookupAns (h : MsgHdr) (answers : List LookupAns)
  | mLeaseRenew (h : MsgHdr) (ids : List (AdapterId × Nat))
  | mLeaseAns (h : MsgHdr) (grants : List (AdapterId × Nat × Bool))
  | mRevoke (h : MsgHdr) (ids : List (AdapterId × Nat)) (purge : Bool)
  | mRevokeAck (h : MsgHdr)
  | mHoldRelease (h : MsgHdr) (ids : List (AdapterId × Nat))
  | mFetchReq (h : MsgHdr) (adapter : AdapterId) (version : Nat) (tierFlags : BitVec 8)
  | mFetchData (h : MsgHdr) (seg : SegHdr) (data : List Byte)
  | mFetchEnd (h : MsgHdr)
  | mFarOpen (h : MsgHdr) (fp : Word64) (gyle : Nat) (classes : List (List FarComp))
  | mFarOpenAns (h : MsgHdr)
  | mFarRows (h : MsgHdr) (gyle : Nat) (slot : FarSlot) (rows : List FarRec)
  | mFarSum (h : MsgHdr) (slot : FarSlot) (rows : List FarRec)
  | mFarLate (h : MsgHdr) (slot : FarSlot) (rows : List Nat)
  | mFarClose (h : MsgHdr) (gyle : Nat)
  | mFarCancel (h : MsgHdr) (gyle : Nat)
  | mRackOpen (h : MsgHdr) (hdr : AdapterHdr) (slots : List SlotEntry) (bytes : Nat)
  | mRackOpenAns (h : MsgHdr)
  | mRackData (h : MsgHdr) (seg : SegHdr) (data : List Byte)
  | rackRoundDone
  | mRackPrepare (h : MsgHdr) (version : Nat) (leases : List Nat) (holds : List Nat)
  | mRackReady (h : MsgHdr) (leaseUs : Nat)
  | rackFreezeTimeout
  | mRackAbort (h : MsgHdr)
  | mHomeChange (h : MsgHdr) (adapter : AdapterId) (home : Nat)
  | mHomeAck (h : MsgHdr)
  | mDirUpdate (h : MsgHdr) (entries : List DirEntry)
  | mDirAck (h : MsgHdr)
  | mPublishFwd (h : MsgHdr) (desc : List Byte) (image : List Byte)
  | mPublishAns (h : MsgHdr) (result : List Byte)
  | mEpochRelease (h : MsgHdr)
  | mLend (h : MsgHdr) (grant sizeGib : Nat)
  | mLendAck (h : MsgHdr) (grant : Nat)
  | mRecall (h : MsgHdr) (grant : Nat)
  | recallReadsDrained (lender : BitVec 8) (grant : Fin 8)
  | mRecallAns (h : MsgHdr) (grant : Nat)
  | recallTimeout (borrower : BitVec 8) (grant : Fin 8)
  | mT3Read (h : MsgHdr) (grant offset length : Nat)
  | mT3Data (h : MsgHdr) (seg : SegHdr) (data : List Byte)
  | mT3Write (h : MsgHdr) (grant : Nat) (seg : SegHdr) (data : List Byte)
  | t3ReadTimeout (corr : Nat)
  | linkUp (port : Fin 16) (peer : BitVec 7)
  | linkDown (port : Fin 16) (peer : BitVec 7)
  | peerRequestRetry (corr : Nat)
  | requestGiveUp (corr : Nat)
  | answerExpiry (peer : BitVec 7) (corr : Nat)
  | leaseRenewDue (adapter : BitVec 24)
  | leaseWaitExpiry (adapter : BitVec 24) (version : Nat) (peer : BitVec 7)
  | peerHoldsTimeout (peer : BitVec 7)
  | loadHalving
  | freqHalving
  -- memory tiers, integrity and time
  | scrubRead (place : CellarPlace) (result : ScrubResult)
  | kilnPageRead (stream : Nat) (codewords : List CodewordResult) (reconFirst : Bool) (stripe : StripeRead)
  | kilnJournalHeld
  | checkpointValid
  | kilnFold
  | wearLevelling
  | disturbRelocate (superblock : Nat)
  | kilnDeviceTimeout (device : Fin 32)
  | kilnRebuildDone
  | zqShortCalibration
  | logAppend (ok0 ok1 : Bool)
  | watchdogFire (group : StageGroup) (again : Bool)
  | budgetExpiry (fault : Seq)
  | tunFaultCountExpiry (t : Fin 68)
  | selftestSlot
  | ageMonitorMeasure (group : Fin 255) (margin : BitVec 32)
  | timerRecal
  | calLost
  | irqHoldoffExpiry (c : Fin 64)
  | globalHoldoffExpiry
  | domainLost (d : Fin 211)
  | domainRegained (d : Fin 211)
  -- power and heat
  | telemetrySample (sample : Telemetry)
  | portCapChange (watts : BitVec 8)
  | derateChange (asserted : Bool)
  | capWindowEnd (averageDw : Nat) (settled : Bool)
  | thermalCapStart (tj : Nat) (chipWarn : Bool)
  | thermalCapStep (tj : Nat) (chipWarn : Bool)
  | thermHalt (sensor : Fin 72) (tj : Nat)
  | thermResumed (tj : Nat)
  | sagRise (sensor : Fin 72) (tenthPercent : Nat)
  | sagStepDown (sensor : Fin 72)
  | sagPersist (sensor : Fin 72)
  | pfwAssert
  | pfwSettleExpiry
  | pfwWritebackDone
  | pfwCleared
  -- start and reset
  | pwrGoodRise
  | pwrGoodFall
  | rstColdRelease
  | rstWarmRequest
  | coldStart
  | startStepComplete (result : StepResult)
  | startupTimeout
  | warmReset
  | warmStepComplete (result : StepResult)
  | leaseLapsed (adapter : BitVec 24)
  | programEraseFailure (block : Fin 32 × Nat)
  | rstColdAssert
  deriving DecidableEq, Repr

end Sys2Proof
end

