-- ==== Sys2Proof/Decode.lean ====
section
/-! DEFINITION. The command that a word spells by the table's bits. The table gives no row any bits (the block takes register
writes, descriptors, messages and events of its ports and units, not words), so no word spells a command. -/
namespace Sys2Proof

/-- The command of a word of `nbits` bits, for the rows of spec/opcode_table.json that give bits: there is none. -/
def decodeTableWord (_nbits _w : Nat) : Option Instr := none

end Sys2Proof
end

