-- ==== Sys2Proof/Machine/Hash.lean ====
section
/-! DEFINITION. The hashes and checks that the spec names: SipHash-2-4 (R26, R70), the CRC-64 of NVM Express (R248), the
CRC-32C of log records (R384), and the CRC-16 of page tags and beats (R325, R435). -/
namespace Sys2Proof.Machine

/-- The four words of SipHash's state. -/
structure Sip where
  v0 : Word64
  v1 : Word64
  v2 : Word64
  v3 : Word64
  deriving DecidableEq, Repr

/-- One SipRound. -/
def sipRound (s : Sip) : Sip :=
  let v0 := s.v0 + s.v1
  let v1 := s.v1.rotateLeft 13 ^^^ v0
  let v0 := v0.rotateLeft 32
  let v2 := s.v2 + s.v3
  let v3 := s.v3.rotateLeft 16 ^^^ v2
  let v0 := v0 + v3
  let v3 := v3.rotateLeft 21 ^^^ v0
  let v2 := v2 + v1
  let v1 := v1.rotateLeft 17 ^^^ v2
  let v2 := v2.rotateLeft 32
  ⟨v0, v1, v2, v3⟩

/-- Compress one message word: two rounds. -/
def sipWord (s : Sip) (m : Word64) : Sip :=
  let s := sipRound (sipRound { s with v3 := s.v3 ^^^ m })
  { s with v0 := s.v0 ^^^ m }

/-- The message words: eight bytes each, the last with the length in its top byte. -/
def sipWords (len : Nat) : (fuel : Nat) → List Byte → List Word64
  | 0, bs => [BitVec.ofNat 64 (leNat bs + len % 256 * 2 ^ 56)]
  | n + 1, bs => BitVec.ofNat 64 (leNat (bs.take 8)) :: sipWords len n (bs.drop 8)

/-- SipHash-2-4 of a message under a 128-bit key, low word first. -/
def sipHash (k0 k1 : Word64) (msg : List Byte) : Word64 :=
  let s : Sip := ⟨k0 ^^^ 0x736F6D6570736575, k1 ^^^ 0x646F72616E646F6D, k0 ^^^ 0x6C7967656E657261, k1 ^^^ 0x7465646279746573⟩
  let s := (sipWords msg.length (msg.length / 8) msg).foldl sipWord s
  let s := { s with v2 := s.v2 ^^^ 0xFF }
  let s := sipRound (sipRound (sipRound (sipRound s)))
  s.v0 ^^^ s.v1 ^^^ s.v2 ^^^ s.v3

/-- One bit of a reflected CRC. -/
def crcBitR (poly c : Nat) : Nat := if c % 2 = 1 then c / 2 ^^^ poly else c / 2

/-- One byte of a reflected CRC. -/
def crcByteR (poly c : Nat) (b : Byte) : Nat :=
  (List.range 8).foldl (fun c _ => crcBitR poly c) (c ^^^ b.toNat)

/-- CRC-64 of NVM Express (R248): polynomial 0xAD93_D235_94C9_35A9 reflected, initial value and final XOR all ones. -/
def crc64 (bs : List Byte) : Word64 :=
  BitVec.ofNat 64 (bs.foldl (crcByteR 0x9A6C9329AC4BC9B5) 0xFFFFFFFFFFFFFFFF ^^^ 0xFFFFFFFFFFFFFFFF)

/-- CRC-32C (R384): polynomial 0x1EDC_6F41 reflected, initial value and final XOR 0xFFFF_FFFF. -/
def crc32c (bs : List Byte) : Nat := bs.foldl (crcByteR 0x82F63B78) 0xFFFFFFFF ^^^ 0xFFFFFFFF

/-- One bit of a 16-bit CRC without reflection. -/
def crcBit16 (poly c : Nat) : Nat := if c / 2 ^ 15 % 2 = 1 then c * 2 % 2 ^ 16 ^^^ poly else c * 2 % 2 ^ 16

/-- One byte of a 16-bit CRC without reflection. -/
def crcByte16 (poly c : Nat) (b : Byte) : Nat :=
  (List.range 8).foldl (fun c _ => crcBit16 poly c) (c ^^^ b.toNat * 2 ^ 8)

/-- The page tag's CRC-16 (R325): polynomial 0x1021, initial value 0xFFFF. -/
def crcPage (bs : List Byte) : Nat := bs.foldl (crcByte16 0x1021) 0xFFFF

/-- The beat check's CRC-16 (R435): polynomial 0x8BB7, initial value 0. -/
def crcBeat (bs : List Byte) : Nat := bs.foldl (crcByte16 0x8BB7) 0

end Sys2Proof.Machine
end

