-- ==== Sys2Proof/Config.lean ====
section
/-! DEFINITION. What an implementation fixes and what the spec leaves open: opaque constants without a body, so that no
proof can evaluate them. A claim about the model holds for every value of each of them. -/
namespace Sys2Proof.Config

/-- The block's random source: the draw numbered by the state's free counter (R70, R72, R406). Log entry 3. -/
opaque freeWord : Nat → BitVec 64

/-- The choice the block makes where R51 and R55 leave the order of additions open: which of the block-dots or partial
sums still to be added comes next, as an index taken modulo their number. Log entry 4. -/
opaque freePick : Nat → Nat

/-- The bits of a block-dot's fixed-point window beyond the 50 that R47 promises. Log entry 5. -/
opaque windowExtra : Nat

/-- A byte that is read or recorded where the spec states no value for it (a log book copy that reads back wrong, the opcode of a
descriptor whose read failed). Log entries 6 and 19. -/
opaque freeByte : Nat → BitVec 8

/-- The ECC CDH, KDF and KW unwrap of R407 of the wrapped key under the load key pair (numbered by its generation), for a
peer and a direction: none when the KW integrity check fails. Log entry 7. -/
opaque unwrapSlotKey : (loadPair : Nat) → (publicKey wrapped : List (BitVec 8)) → (peer : Nat) → (dir : Bool) →
  Option (BitVec 256)

/-- The first three bytes of AES-256 of a zero block under a key (`KEY_KCV`, Table 21.8). Log entry 7. -/
opaque keyCheckValue : BitVec 256 → BitVec 24

/-- The 96 bytes of the load public key of a generation of the load key pair (`KEY_PUB`, Table 21.5). Log entry 7. -/
opaque loadPublicKey : Nat → List (BitVec 8)

/-- Whether the firmware image's ECDSA P-384 signature verifies under the fused key (Table 17.8). Log entry 7. -/
opaque firmwareSignatureOk : List (BitVec 8) → Bool

/-- The block cipher AES-256 on a block, both blocks as little-endian numbers (R259). Log entry 7. -/
opaque aes256 : (key : BitVec 256) → BitVec 128 → BitVec 128

/-- HMAC-SHA-256, and the fixed input data that follows the counter in the KDF of NIST SP 800-108, whose label and context R259 does not
give. Log entry 7. -/
opaque hmacSha256 : (key : BitVec 256) → List (BitVec 8) → BitVec 256
opaque kdfInfo : List (BitVec 8)

/-- AES key wrap (NIST SP 800-38F, KW) of a data seed under a wrap key (R259). Log entry 7. -/
opaque keyWrap : (wrapKey seed : BitVec 256) → BitVec 320

/-- The wrap key of a tenant, by its generation (R260, R409), and the data seed drawn at the block's free counter (R259). Log entries 3
and 7. -/
opaque wrapKey : (tenant generation : Nat) → BitVec 256
opaque dataSeed : Nat → BitVec 256

/-- The stored form of a data unit too short for ciphertext stealing, by its number in the tensor (R259 gives units under 16 bytes
none), and what deciphering yields of bytes that are not a tensor's stored form. Log entry 61. -/
opaque shortUnit : (seed : BitVec 256) → (tensor unit : Nat) → List (BitVec 8) → List (BitVec 8)
opaque decipher : (seed : BitVec 256) → (tensor : Nat) → List (BitVec 8) → List (BitVec 8)

/-- The bytes of a record of the journal or of a checkpoint, over which its CRC is formed, by the numbers that it holds (R247 and R251 give
the records' sizes and no layout). Log entry 61. -/
opaque recordBytes : List Nat → List (BitVec 8)

/-- The four hashes that index the rows of the admission sketch (R172 names no function). Log entry 8. -/
opaque sketchHash : (row : Nat) → (adapter : Nat) → Nat

/-- The row of its bank in which a codeword of the cellar stands, and the region of its die in which a row stands: the spec gives
regions of 1 MiB and banks, and no numbering of rows or regions within them (Table 8.1). Log entry 24. -/
opaque cellarRow : (codeword : Nat) → Nat
opaque cellarRegion : (bank row : Nat) → Nat

/-- The place of a row's activation in its lane's activation area, in bytes: R98 stores it whole and does not say where. By tun,
lane, slot and row. Log entry 48. -/
opaque lanePlace : (tun lane slot row : Nat) → Nat

/-- The offset of the cask descriptors in the cellar, and of a gyle's grist area in the T2 region, by context and gyle (R77 and R168 give
no place). Log entry 40. -/
opaque descPlace : Nat
opaque areaPlace : (gyle : Nat) → Nat

/-- The place of a tensor or state array in T1 (by the version that wrote it) and in T2 (by the version whose copy it is): R205 gives the
tiers' extents and no placing in them. Log entry 60. -/
opaque tensorPlace : (tier adapter version tensor : Nat) → Nat

/-- Where a row-slot's reservation stands in the spill area of chip HBM, by slot and row (R127 gives no address). Log entry 49. -/
opaque spillPlace : (slot row : Nat) → Nat

/-- Whether an adapter homed on another block has a state area there, as far as this block cannot tell: a look-up answer carries header
and slot table only (R213). By adapter and version. Log entry 50. -/
opaque remoteTrainable : (adapter version : Nat) → Bool

/-- The payload, or the entry of a payload, of a block-to-block message that the spec does not lay out, by its type and what it
carries. Log entry 20. -/
opaque openPayload : (type : Nat) → (args : List Nat) → (data : List (BitVec 8)) → List (BitVec 8)

/-- AES-256-GCM (R227): the ciphertext of a payload under a key and a nonce, and the tag over it and the additional authenticated data.
Log entry 7. -/
opaque gcmCipher : (key : BitVec 256) → (nonce plain : List (BitVec 8)) → List (BitVec 8)
opaque gcmTag : (key : BitVec 256) → (nonce aad cipher : List (BitVec 8)) → BitVec 128

/-- A choice or an amount that the spec leaves to the block: the spare timer, the length of a freeze, torn copies found at power-on, the sort key of a segment without a cask. Log entries 10 and 18. -/
opaque freeChoice : Nat → Nat

end Sys2Proof.Config
end

