-- ==== Sys2Proof/Machine/State.lean ====
section
/-! DEFINITION. The state of the block as plain data: everything the spec gives it. Every field's default value is its reset
value, so State.reset is the state with every default. The writable register fields live in `regs` (their reset values
are the tables' of each chapter, Machine/Registers.lean); live state that read-only registers show has fields of its own. -/
namespace Sys2Proof.Machine

/-- A decoded value: NaN, an infinity, or (-1)^neg · m · 2^e exactly (`m` 0 is a signed zero). -/
inductive Num where
  | nan
  | inf (neg : Bool)
  | fin (neg : Bool) (m : Nat) (e : Int)
  deriving DecidableEq, Repr

/-! ### Orders, log book and pages -/

/-- The gauger and the steep timers' calibration (R312 to R321, Tables 15.3 to 15.6). -/
structure Gauger where
  /-- the highest sequence stamped -/
  seq : Seq := 0
  compareFaults : Nat := 0
  /-- bit n: timer n is calibrated -/
  calibrated : Word64 := 0
  recalTimer : Nat := 0
  standinTimer : Nat := 0x3C
  refClockOk : Bool := false
  /-- `CAL_LOST` stands: the timers are being regained in turn -/
  calLost : Bool := false
  /-- the present absence of the reference clock has been reported -/
  lossSeen : Bool := false
  deriving DecidableEq, Repr

/-- A log book record (Table 19.1). -/
structure LogRec where
  seq : Seq := 0
  powerOn : Nat := 0
  page : Nat := 0
  code : Nat := 0
  tenant : Option Nat := none
  submitter : Option Nat := none
  faultId : Seq := 0
  payload : List Byte := []
  deriving DecidableEq, Repr

/-- The log book: two MRAM banks, the queue and the `LOGBOOK` page's live state (R381 to R391). -/
structure LogBook where
  queue : List LogRec := []
  bank0 : Tab (List Byte) := []
  bank1 : Tab (List Byte) := []
  ringNext : Nat := 0
  ffUsed : Nat := 0
  ffFullRaised : Bool := false
  /-- `LOG_SEQ` of the newest first-fault record; 0 when none -/
  ffNewest : Seq := 0
  bank0Ok : Bool := true
  bank1Ok : Bool := true
  clearing : Bool := false
  appends : Nat := 0
  powerOnCount : Nat := 0
  drops : Nat := 0
  crcFails : Nat := 0
  dropCount : Nat := 0
  dropFirst : Seq := 0
  dropLast : Seq := 0
  /-- `LOG_SEL_STATUS`: 0 bank 0 copy, 1 bank 1 copy, 2 empty -/
  selCopy : Nat := 2
  selData : List Byte := []
  /-- newest durable record's sequence and the newest durable reservation (R389) -/
  newestSeq : Seq := 0
  reservedBlock : Nat := 0
  /-- what the last update of the test port's LOGBOOK_READ selected (R390) -/
  captureBank : Nat := 0
  captureIndex : Nat := 0
  deriving DecidableEq, Repr

/-- The header state of one register page (Tables 22.5 to 22.8). -/
structure PageHdr where
  /-- sequence of each class's latest event (R316) -/
  classSeq : Tab Seq := []
  ack : Seq := 0
  mask : Word64 := 0
  errCode : Word64 := 0
  errSeq : Seq := 0
  faultCount : Nat := 0
  ctxRole : Nat := 0
  /-- the page's interrupt output and a holdoff that runs: output n on `SUBMITTER` page n (R271), the global output on
  `GLOBAL` (R424) -/
  irq : Bool := false
  holdoff : Bool := false
  /-- the counter registers as a held snapshot shows them (R425): offset and value -/
  snap : Option (List (Nat × Word64)) := none
  deriving DecidableEq, Repr

/-! ### Submitter contexts -/

/-- Context states (Table 12.6). -/
inductive CtxState where
  | down | ready | running | quiesced | faulted | resetting
  deriving DecidableEq, Repr

/-- A component of a mixture as `MIX_BIND` gives it (Table 13.3). -/
structure MixComp where
  id : AdapterId := 0
  isSet : Bool := false
  weight : F32 := 0
  deriving DecidableEq, Repr

/-- A decoded descriptor: header of Table 13.1 and the body fields of Table 13.3 that its opcode uses. -/
structure Desc where
  opcode : Nat := 0
  tenant : Nat := 0
  gyle : Nat := 0
  alloc : BitVec 8 := 0
  addr : Nat := 0
  planId : Word64 := 0
  rowCount : Nat := 0
  cutoffUs : Nat := 0
  accountAddr : Nat := 0
  trainBasis : Bool := false
  trainSeed : Word64 := 0
  trainSeq : Nat := 0
  comps : List MixComp := []
  handle : Nat := 0
  adapter : AdapterId := 0
  pubKind : Nat := 0
  stateHdr : Bool := false
  baseVersion : Nat := 0
  length : Nat := 0
  epoch : Nat := 0
  peer : Nat := 0
  grant : Nat := 0
  grantGib : Nat := 0
  markData : List Byte := []
  raw : List Byte := []
  deriving DecidableEq, Repr

/-- The descriptor that a context has taken and not yet accepted or refused: its ring index, its fields once read, and the
structure it points to once read (R269, R279). -/
structure Front where
  sqIndex : Nat := 0
  desc : Option Desc := none
  /-- bytes of the pointed-to structure; none while its read is outstanding -/
  image : Option (List Byte) := none
  /-- bytes of that structure read so far, part by part -/
  got : List Byte := []
  /-- look-ups of adapters homed elsewhere that it names and that this block does not know: 1 sent, 2 answered -/
  asked : Tab Nat := []
  deriving DecidableEq, Repr

/-- An accepted command that holds a completion reservation until its completion (R269). -/
structure Cmd where
  opcode : Nat := 0
  sqIndex : Nat := 0
  gyle : Nat := 0
  adapter : AdapterId := 0
  version : Nat := 0
  /-- tier of a PREFETCH; grant number and peer of a lend command -/
  arg : Nat := 0
  peer : Nat := 0
  seq : Seq := 0
  /-- the catalogue epoch that a PREFETCH bound -/
  epoch : Nat := 0
  deriving DecidableEq, Repr

/-- A completion record that has been formed and whose write is outstanding: its `CMP_SEQ`, its gyle when it completes one,
and whether its write response has arrived. `CQ_TAIL` passes records in their order (R270, R440). -/
structure Posted where
  xfer : Nat := 0
  cmpSeq : Seq := 0
  gyle : Option Nat := none
  done : Bool := false
  deriving DecidableEq, Repr

/-- One submitter context (Tables 12.6 to 12.15). Ring bases and sizes, quotas and LATE_POLICY are registers in `regs`. -/
structure Ctx where
  st : CtxState := .down
  epoch : Nat := 0
  faultCause : Nat := 0
  teardownDone : Bool := false
  sqHead : Nat := 0
  sqTail : Nat := 0
  cqHead : Nat := 0
  cqTail : Nat := 0
  cqResv : Nat := 0
  /-- tenant binding words: bit b of word w binds tenant 64w + b (R264) -/
  tenants : Tab Word64 := []
  front : Option Front := none
  inflight : List Cmd := []
  posted : List Posted := []
  faultSeq : Seq := 0
  deriving DecidableEq, Repr

/-! ### Plans -/

/-- A slot entry of a splice plan (Table 6.3). -/
structure PlanSlot where
  layer : Nat := 0
  proj : Nat := 0
  model : Nat := 0
  inW : Nat := 0
  outW : Nat := 0
  actFmt : Nat := 0
  baseFmt : Nat := 0
  deltaFmt : Nat := 0
  side : Bool := false
  grad : Bool := false
  issueRank : Nat := 0
  gradFmt : Nat := 0
  ports : BitVec 128 := 0
  deriving DecidableEq, Repr

/-- A splice plan (R113). -/
structure Plan where
  id : Word64 := 0
  ports : BitVec 128 := 0
  models : List Word64 := []
  slots : List PlanSlot := []
  deriving DecidableEq, Repr

/-! ### Catalogue -/

/-- A hyperparameter record (Table 7.5), at its tenant reset values. -/
structure HpRec where
  lr : F32 := 0x00000000
  wd : F32 := 0x00000000
  beta1 : F32 := 0x3F666666
  omb1 : F32 := 0x3DCCCCCD
  beta2 : F32 := 0x3F7FBE77
  omb2 : F32 := 0x3A83126F
  eps : F32 := 0x322BCC77
  clip : F32 := 0x00000000
  deriving DecidableEq, Repr

/-- A state area: the header of Table 7.4 and the state arrays in the order of R149. -/
structure StateArea where
  lastTrainSeq : Nat := 0
  stepCount : Nat := 0
  optKind : Nat := 1
  stateFmt : Nat := 0
  inherit : Bool := false
  b1t : F32 := 0x3F800000
  b2t : F32 := 0x3F800000
  hp : HpRec := {}
  arrays : List (List Byte) := []
  /-- the CRC-64 of each array (R248) -/
  crcs : List Word64 := []
  deriving DecidableEq, Repr

/-- A stored tensor or vector (index of R247): its bytes, its CRC-64 (R248) and the version that wrote it (R325). -/
structure Tensor where
  index : Nat := 0
  bytes : List Byte := []
  crc : Word64 := 0
  writer : Nat := 0
  /-- the catalogue epoch that it was carried from with that writer (R235); none when its own -/
  epoch : Option Nat := none
  deriving DecidableEq, Repr

/-- What names a version in the kiln's map: its catalogue epoch, its adapter, its number (R247). -/
structure RecKey where
  epoch : Nat := 0
  adapter : AdapterId := 0
  version : Nat := 0
  deriving DecidableEq, Repr

/-- An extent of a tensor record (R247): a superblock, its first stripe and column, and a count of 4 KiB units. -/
structure Extent where
  block : Nat := 0
  stripe : Nat := 0
  column : Nat := 0
  units : Nat := 0
  deriving DecidableEq, Repr

/-- A tensor record of the map (R247): the version that wrote the tensor, its index, length and CRC-64, and its extents. -/
structure TenRec where
  key : RecKey := {}
  index : Nat := 0
  length : Nat := 0
  crc : Word64 := 0
  extents : List Extent := []
  deriving DecidableEq, Repr

/-- One stored version of an adapter. -/
structure Ver where
  version : Nat := 0
  hdr : AdapterHdr := {}
  slots : List SlotEntry := []
  tensors : List Tensor := []
  state : Option StateArea := none
  /-- publication sequence: current for gyles opened after it, until the next one (R10) -/
  pubSeq : Seq := 0
  /-- made by a PUBLISH and not by a step (R154) -/
  byPublish : Bool := false
  /-- T4 holds it in full (R249); T2 holds it (R160) -/
  inT4 : Bool := false
  inT2 : Bool := false
  lost : List Nat := []
  /-- the state area of a version that was trainable has been freed at the next publication (R155) -/
  stateFreed : Bool := false
  /-- this block stores it as its home, or as the home it was when a gyle or a peer came to hold it (R184, R233) -/
  home : Bool := false
  /-- the epoch and version under which its state arrays were written, where it shares them: a version carried into another epoch (R235),
  or a restore point published anew (R344) -/
  origin : Option (Nat × Nat) := none
  /-- tensors whose home a fetch of the single-home regime moved out of T4 (R202) -/
  t4Gone : List Nat := []
  deriving DecidableEq, Repr

/-- An adapter of a catalogue: its stored versions newest first, its current version, and its retirement (R18, R20). -/
structure Adapter where
  current : Nat := 0
  retired : Bool := false
  retiredSeq : Seq := 0
  /-- the greatest version that a PUBLISH made (R154) -/
  lastPublish : Nat := 0
  versions : List Ver := []
  deriving DecidableEq, Repr

/-- A catalogue under one epoch: adapters homed here or fetched, shard table and exception table (R20, R208, R209, R235);
an exception entry is kept as peer + 1. -/
structure Catalogue where
  epoch : Nat := 0
  adapters : Tab Adapter := []
  shard : Tab Nat := []
  exceptions : Tab Nat := []
  /-- adapters in force that a staged catalogue keeps (record kind 0x04 of Table 10.7) -/
  carries : List AdapterId := []
  /-- adapters that its image lists and homes on other blocks (R235, R311) -/
  listed : List AdapterId := []
  deriving DecidableEq, Repr

/-- A bound mixture (R28, R32). -/
structure Mixture where
  ctx : Nat := 0
  tenant : Nat := 0
  fp : Word64 := 0
  comps : List MixComp := []
  /-- false once unbound: the number is held out of the pool under R33 -/
  bound : Bool := false
  deriving DecidableEq, Repr

/-- A tenant record (Table 21.1), at its reset values. -/
structure TenantRec where
  dflt : AdapterId := 0
  fallback : AdapterId := 0
  qT1Mib : Nat := 256
  qPinMib : Nat := 64
  qT2Gib : Nat := 64
  qT3Gib : Nat := 16
  qT4Gib : Nat := 128
  deriving DecidableEq, Repr

/-- The key directory: buckets of up to four places, the side table, the directory key (R68 to R72). -/
structure Directory where
  buckets : Tab (List DirEntry) := []
  side : List DirEntry := []
  key0 : Word64 := 0
  key1 : Word64 := 0
  refusals : Nat := 0
  deriving DecidableEq, Repr

/-! ### Gyles -/

/-- The name of a gyle: of a context of this block, or a far gyle served for a peer (R220). -/
structure GyleKey where
  far : Bool := false
  owner : Nat := 0
  num : Nat := 0
  deriving DecidableEq, Repr

/-- Gyle states (Table 1.3). -/
inductive GyleState where
  | filling | sorted | running | drained | complete
  deriving DecidableEq, Repr

/-- The gyle kinds. -/
inductive GyleKind where
  | serving | training | far
  deriving DecidableEq, Repr

/-- How a component of a row is served (R218). -/
inductive CompPath where
  | here | farAt (home : Nat)
  deriving DecidableEq, Repr

/-- A component of a resolved row: the adapter and version bound, its weight, the bucket member chosen, and the basis of a
member with its bound version. -/
structure Comp where
  adapter : AdapterId := 0
  version : Nat := 0
  /-- the row-map tenant of the row that it was resolved for (R326); none at a home that computes for another block, to which R220 sends
  no tenant -/
  tenant : Option Nat := none
  weight : F32 := 0x3F800000
  isSet : Bool := false
  member : Nat := 0
  basis : Option (AdapterId × Nat) := none
  path : CompPath := .here
  frozen : Bool := false
  deriving DecidableEq, Repr

/-- A resolved row of a gyle (R65). -/
structure Row where
  tenant : Nat := 0
  model : Nat := 0
  key : Word64 := 0
  passes : Bool := true
  /-- default-row cause of Table 4.2, 0 when none -/
  cause : Nat := 0
  /-- the mix handle that the row names, which its gyle binds even when the row turns a default row (R33) -/
  names : Option Nat := none
  handle : Option Nat := none
  comps : List Comp := []
  /-- the adapters whose look-up answer the row waits for (R213) -/
  parked : List AdapterId := []
  /-- frozen-row cause of Table 7.2, 0 when none -/
  frozen : Nat := 0
  /-- class number of M_FAR_OPEN when some component is far-applied -/
  farClass : Nat := 0
  deriving DecidableEq, Repr

/-- A segment of the grist (Table 4.4) and its runs (Table 4.5). -/
structure Run where
  firstPos : Nat := 0
  rowCount : Nat := 0
  comps : List Comp := []
  handle : Option Nat := none
  deriving DecidableEq, Repr

structure Segment where
  firstPos : Nat := 0
  rowCount : Nat := 0
  zero : Bool := false
  sortKey : Nat := 0
  firstRun : Nat := 0
  runs : List Run := []
  deriving DecidableEq, Repr

/-- What serves a row-slot (R195). -/
inductive Served where
  | own | fallback | baseOnly
  deriving DecidableEq, Repr

/-- Where a row-slot's outbound part stands. -/
inductive OutState where
  | waiting | sending | sent | left
  deriving DecidableEq, Repr

/-- A row at a slot: its parts as they arrive, its intermediate and final values, and its outcome. -/
structure RowSlot where
  port : Nat := 0
  /-- credit for its activation has been used; its activation (and gradient) bytes as received -/
  credited : Bool := false
  act : List Byte := []
  grad : List Byte := []
  base : List Byte := []
  actDone : Bool := false
  gradDone : Bool := false
  baseCredited : Nat := 0
  baseDone : Bool := false
  /-- beats written to lane SRAM; the row is present when all are (R81, R101) -/
  written : Nat := 0
  present : Bool := false
  tun : Nat := 0
  /-- its bytes of its lane's activation area are taken, or reserved by the load of R104 (R98) -/
  laneHeld : Bool := false
  /-- values reserved in its lane's rank area, and in the 4,096 bytes kept for h (R98, R101, R143) -/
  rankRoom : Nat := 0
  backRoom : Nat := 0
  /-- rank vector r' after step 4 of Table 3.3 (forward rank quantities of a training gyle) -/
  rank : Tab F32 := []
  /-- z = B0 q of a member, backward rank quantity (h or p), by component and index (R138) -/
  z : Tab F32 := []
  back : Tab F32 := []
  /-- the delta accumulators t_o, or the activation gradient's, by output index (step 5) -/
  delta : Tab F32 := []
  /-- local work done -/
  localDone : Bool := false
  reserved : Bool := false
  inSpill : Bool := false
  farPending : List Nat := []
  /-- homes to which the row's activation part has not been sent yet, for want of departure space (R221) -/
  farUnsent : List Nat := []
  farLate : Bool := false
  late : Bool := false
  served : Served := .own
  /-- its delta is zero by rule (R49) -/
  zero : Bool := false
  out : OutState := .waiting
  /-- beats of its outbound part that have been sent -/
  outBeats : Nat := 0
  nan : Bool := false
  naks : Nat := 0
  deriving DecidableEq, Repr

/-- Late-row counts of one (model, layer) pair: the rows counted (R197). -/
structure LayerCount where
  late : List Nat := []
  fallback : List Nat := []
  baseOnly : List Nat := []
  deriving DecidableEq, Repr

/-- A block-to-block message as this block sends it: type, destination, the header fields it sets, and its payload as
numbers (adapter IDs, versions, rows) and bytes. -/
structure Msg where
  type : Nat := 0
  dst : Nat := 0
  corr : Seq := 0
  epoch : Nat := 0
  ctxEpoch : Nat := 0
  submitter : Nat := 0
  status : Nat := 0
  args : List Nat := []
  data : List Byte := []
  deriving DecidableEq, Repr

/-- The rows of one `M_FAR_ROWS` message at the home (R222): the slot and rows, and the request that the sums answer. -/
structure FarWork where
  slot : Nat := 0
  rows : List Nat := []
  ask : Msg := {}
  deriving DecidableEq, Repr

/-- A gyle: what it bound at its opening sequence, its rows, its grist and its accounts. -/
structure Gyle where
  key : GyleKey := {}
  kind : GyleKind := .serving
  st : GyleState := .filling
  closed : Bool := false
  openSeq : Seq := 0
  plan : Plan := {}
  epoch : Nat := 0
  tenants : Tab Word64 := []
  handles : Tab Mixture := []
  tenantRecs : Tab TenantRec := []
  salts : Tab (Word64 × Word64) := []
  /-- version bound of each adapter homed on another block: of a lease held at the opening, or of a look-up answer (R213) -/
  remoteBound : Tab Nat := []
  /-- look-ups of adapters homed on another block: 1 sent, 2 unknown, 3 purged; 0 none or answered with a version -/
  lookups : Tab Nat := []
  /-- entries of rows parked until their look-up is answered, by row -/
  parkedEntries : Tab (List Byte) := []
  lateFirst : Nat := 0
  lateSecond : Nat := 1
  cutoffUs : Nat := 0
  cutoffPassed : Bool := false
  accountAddr : Nat := 0
  alloc : BitVec 8 := 0
  /-- the commands that gave rows: first row and sequence, in their order (R61, R80) -/
  chunks : List (Nat × Seq) := []
  /-- rows given, their 16-byte entries read and not yet resolved, reads outstanding -/
  rowsGiven : Nat := 0
  entries : List (List Byte) := []
  /-- row-map data that arrived before the data of earlier rows, by first row; rows whose entries have been read in order -/
  maps : Tab (List Byte) := []
  entriesRead : Nat := 0
  rows : Tab Row := []
  resolved : Nat := 0
  /-- look-ups sent and unanswered; the fetch-or-far-apply decision of R218 has been made -/
  decided : Bool := false
  farHomes : List Nat := []
  segments : List Segment := []
  posOfRow : Tab Nat := []
  rowOfPos : Tab Nat := []
  areaBytes : Nat := 0
  slots : Tab RowSlot := []
  /-- (segment, slot) pairs placed on tuns -/
  placed : List (Nat × Nat) := []
  freqCounted : List Nat := []
  defaultByCause : Tab Nat := []
  frozenByCause : Tab Nat := []
  layers : Tab LayerCount := []
  noSpaceRows : List Nat := []
  nanRows : List Nat := []
  satDeltas : Nat := 0
  replays : Nat := 0
  replayed : Bool := false
  farRowSlots : Nat := 0
  /-- versions superseded since the opening: adapter, version (R214) -/
  supersededBy : List (AdapterId × Nat) := []
  /-- `QUIESCE` has cancelled the far apply of the gyle while it went on sorting (R296) -/
  farCut : Bool := false
  degraded : Bool := false
  drainedSeq : Seq := 0
  /-- ring index of the accepted GYLE_CLOSE -/
  closeSq : Option Nat := none
  closeSeq : Seq := 0
  /-- the completion record's write is outstanding -/
  completing : Bool := false
  trainSeq : Nat := 0
  trainSeed : Word64 := 0
  trainBasis : Bool := false
  touched : List AdapterId := []
  /-- adapters whose gradient hold found no quota or no room: frozen for the gyle (R146) -/
  noHold : List AdapterId := []
  held : Bool := false
  commitAccepted : Bool := false
  stopped : Bool := false
  /-- adapters of fetched copies whose lease has lapsed (R413) -/
  lapsed : List AdapterId := []
  /-- requests for pooled sums not yet answered, of a far gyle -/
  farWork : List FarWork := []
  /-- its requester has cancelled a far gyle, whose issued work runs out (R224) -/
  cancelled : Bool := false
  deriving DecidableEq, Repr

/-! ### Tuns -/

/-- Tun states (Table 5.5). -/
inductive TunState where
  | down | active | spare | bist | fenced | resetting | retired
  deriving DecidableEq, Repr

/-- The operations of a lane group (R93, Table 7.3). -/
inductive OpKind where
  | shrink | expand | fwdExpand | backShrink | actGrad | gradA | gradB
  deriving DecidableEq, Repr

/-- The bytes of one tensor that a tile reads. -/
structure TilePart where
  adapter : AdapterId := 0
  version : Nat := 0
  tenant : Nat := 0
  tensor : Nat := 0
  layer : Nat := 0
  proj : Nat := 0
  side : Nat := 0
  fromByte : Nat := 0
  toByte : Nat := 0
  deriving DecidableEq, Repr

/-- One operation: a lane group's handshakes against one factor tile (R93). `comps` are the components that it computes, each
with the rows whose lanes it activates (R84); `lo` and `hi` the rank rows, outputs or gradient elements that it covers, `iLo` and
`iHi` the width range, `base` the place of its component in the sequence of rank rows. -/
structure Op where
  gk : GyleKey := {}
  slot : Nat := 0
  segment : Nat := 0
  group : Nat := 0
  kind : OpKind := .shrink
  /-- its place in the order of R93 or of Table 7.3 -/
  order : Nat := 0
  comps : List (Nat × List Nat) := []
  base : Nat := 0
  lo : Nat := 0
  hi : Nat := 0
  iLo : Nat := 0
  iHi : Nat := 0
  rows : List Nat := []
  tile : List TilePart := []
  transposed : Bool := false
  handshakes : Nat := 0
  /-- the accumulator set that it fills: its pass of rank rows, or itself; fills of its own that have swapped -/
  fill : List Nat := []
  fills : Nat := 0
  endsPass : Bool := false
  /-- it does the positions that a partial operation left out (R103) -/
  rest : Bool := false
  /-- fault under which the operation is a replay, 0 when none (R338) -/
  replayOf : Seq := 0
  waited : Bool := false
  /-- its results are discarded when it ends (R296) -/
  discard : Bool := false
  /-- it computes the fallback of substituted rows (R195) -/
  sub : Bool := false
  /-- the batch window whose joined lane group it is of, plus 1 (R85); it has been counted in `TILE_WAITS` (Table 5.9) -/
  joined : Nat := 0
  counted : Bool := false
  deriving DecidableEq, Repr

/-- An accumulator set in use (R91, R92): the lane group and fill that it belongs to, the FP32 accumulators of each lane that the
fill activates, by logical lane and index, with the magnitude accumulators of R327; lane 34 is the checksum lane, and `dots` the
block-dots added into each of its accumulators. -/
structure AccSet where
  gk : GyleKey := {}
  slot : Nat := 0
  segment : Nat := 0
  group : Nat := 0
  fill : List Nat := []
  lanes : Tab (Tab F32) := []
  mags : Tab (Tab F32) := []
  dots : Tab Nat := []
  deriving DecidableEq, Repr

/-- One half of a tun's factor buffer (R96, R107). -/
structure TileBuf where
  tile : List TilePart := []
  ready : Bool := false
  transposed : Bool := false
  retries : Nat := 0
  deriving DecidableEq, Repr

/-- A lane's feeder queue (R91, R100): the operand chunks that it has read ahead, 16 at most, oldest first, and how many chunks of the
tun's issued work handshakes have taken from it. -/
structure FeederQueue where
  chunks : List (List Num) := []
  used : Nat := 0
  deriving DecidableEq, Repr

/-- Drained rank values whose write to the lane waits (R100): of a row-slot, r or the backward quantity. -/
structure RankWait where
  gk : GyleKey := {}
  slot : Nat := 0
  row : Nat := 0
  back : Bool := false
  deriving DecidableEq, Repr

/-- One physical tun (R90 to R112) with its fused spares, test state and sag region. -/
structure Tun where
  st : TunState := .down
  logical : Option Nat := none
  queue : List Op := []
  issued : List Op := []
  half0 : Option TileBuf := none
  half1 : Option TileBuf := none
  /-- the accumulator sets in use, at most two, oldest fill first -/
  sets : List AccSet := []
  /-- each lane's feeder queue, by logical lane, and the drained rank values that wait for a bank (R100) -/
  feeders : Tab FeederQueue := []
  rankWaits : List RankWait := []
  handshakesRun : Nat := 0
  partialIssues : Nat := 0
  tileWaits : Nat := 0
  tagMismatches : Nat := 0
  checksumMismatches : Nat := 0
  /-- mismatches counted toward FENCE_THRESHOLD (R328) -/
  faultCount : Nat := 0
  spare0 : Option Nat := none
  spare0Src : Nat := 0
  spare1 : Option Nat := none
  spare1Src : Nat := 0
  failedLanes : List Nat := []
  /-- step of the readmission of Table 17.4 that runs, 0 when none; true when BIST is a self-test slot -/
  readmitStep : Nat := 0
  selfTest : Bool := false
  untested : Nat := 0
  deriving DecidableEq, Repr

/-- A lane group held in a batch window (R85): the joined member operations, first the one that began the hold. -/
structure HeldGroup where
  id : Nat := 0
  ctx : Nat := 0
  slot : Nat := 0
  comps : List Comp := []
  epoch : Nat := 0
  members : List (Nat × Op) := []
  deriving DecidableEq, Repr

/-! ### Splice ports -/

/-- A credit granted and not yet used up (R123, R125). -/
structure Credit where
  gk : GyleKey := {}
  slot : Nat := 0
  row : Option Nat := none
  kind : Nat := 0
  beats : Nat := 0
  deriving DecidableEq, Repr

/-- A beat in the activation staging area. -/
structure Staged where
  gk : GyleKey := {}
  slot : Nat := 0
  row : Nat := 0
  /-- its number in the row's inbound data; the last of it -/
  index : Nat := 0
  last : Bool := false
  /-- it is still to be written to lane SRAM (R81), and still to be sent to a home (R221) -/
  lane : Bool := true
  far : Bool := false
  /-- its write has been held back, and counted in `CREDIT_HOLDS` -/
  held : Bool := false
  deriving DecidableEq, Repr

/-- An inbound part that is under way; `drop` while the beats of a part that must be sent again still arrive (R436). -/
structure PartIn where
  gk : GyleKey := {}
  slot : Nat := 0
  row : Nat := 0
  kind : Nat := 0
  beatsLeft : Nat := 0
  drop : Bool := false
  deriving DecidableEq, Repr

/-- An outbound part that is being sent, or has been sent and may yet be rejected (R438). -/
structure PartOut where
  gk : GyleKey := {}
  slot : Nat := 0
  row : Nat := 0
  kind : Nat := 0
  beats : Nat := 0
  naks : Nat := 0
  deriving DecidableEq, Repr

/-- A splice port (R119 to R132). -/
structure Port where
  credits : List Credit := []
  /-- credit that QUIESCE or a teardown withdrew: beats that still arrive on it are discarded (R296) -/
  withdrawn : List Credit := []
  staged : List Staged := []
  partIn : Option PartIn := none
  /-- gyle, slot, row and beats credited of the part in portions of a stream -/
  portions : List (GyleKey × Nat × Nat × Nat) := []
  /-- the outbound part of which only some beats have been sent (R125, R128) -/
  openOut : Option (GyleKey × Nat × Nat) := none
  /-- outbound parts sent and not yet left, oldest first (R438) -/
  sending : List PartOut := []
  departureUsed : Nat := 0
  beatsIn : Nat := 0
  beatsOut : Nat := 0
  tagErrors : Nat := 0
  creditHolds : Nat := 0
  spillRows : Nat := 0
  deriving DecidableEq, Repr

/-! ### Cellar and tiers -/

/-- Cask states (Table 8.4). -/
inductive CaskState where
  | free | filling | resident | stale | evicting
  deriving DecidableEq, Repr

/-- A cask descriptor (Table 8.5), with the gyles that bind it and what it holds. -/
structure Cask where
  st : CaskState := .free
  adapter : AdapterId := 0
  version : Nat := 0
  tenant : Nat := 0
  epoch : Nat := 0
  basis : Bool := false
  fallbackHold : Bool := false
  memberHold : Bool := false
  stateArea : Bool := false
  fetchedCopy : Bool := false
  probation : Bool := false
  form : Form := .direct
  slotCount : Nat := 0
  bytes : Nat := 0
  freq : Nat := 0
  pins : Nat := 0
  binds : List GyleKey := []
  trainHolds : List GyleKey := []
  fp : Word64 := 0
  loadedSeq : Seq := 0
  dirtySeq : Seq := 0
  present : List Nat := []
  dirty : List Nat := []
  /-- bytes of the cask that ullage holds and the pool does not (R176, R177) -/
  ullage : Nat := 0
  noDemote : Bool := false
  /-- `NO_BORROW` of the request that admitted it -/
  noBorrow : Bool := false
  /-- a gyle has resolved a row to the cask (R173) -/
  gyleSeen : Bool := false
  /-- a purge frees it once its issued operations end (R411) -/
  purged : Bool := false
  /-- the tag array: the page tags of each tensor, and the version that each tensor is recorded under (R325) -/
  tags : Tab (List Nat) := []
  writers : Tab Nat := []
  /-- tensors fetched again after their tiles' tags mismatched, not yet read with a tag that matches (R326) -/
  refetched : List Nat := []
  /-- tensors whose only home is this cask (R202) -/
  moved : List Nat := []
  /-- a region that holds some of its tensors is being remapped: it is in the single-home regime (R203) -/
  single : Bool := false
  deriving DecidableEq, Repr

/-- One cask that an admission places: an adapter version, its tenant and its bytes. -/
structure AdmitPart where
  adapter : AdapterId := 0
  version : Nat := 0
  tenant : Nat := 0
  bytes : Nat := 0
  deriving DecidableEq, Repr

/-- An admission (R173, R179, R180): a cask with the basis that it needs (R171), the basis first; a part whose cask is there asks
for nothing. `seq` is the sequence of the gyle's opening or of the command, `promised` says that it has found space and waits for
it, `counted` that it has been counted in `NO_SPACE_ADMITS`, `lost` that it has been counted in `FILTER_LOSSES`. -/
structure Admit where
  parts : List AdmitPart := []
  explicit : Bool := false
  alloc : BitVec 8 := 0
  seq : Seq := 0
  gyle : Option GyleKey := none
  /-- context whose request it is, and the contexts that have asked for the same since (Table 12.4, step 3) -/
  ctx : Option Nat := none
  users : List Nat := []
  epoch : Nat := 0
  promised : Bool := false
  counted : Bool := false
  lost : Bool := false
  /-- its tenant's T1 quota stands against it (R173, step 1) -/
  quota : Bool := false
  /-- free pool bytes that releases have given it (R178) -/
  got : Nat := 0
  /-- releasing casks that are promised to it, each with the gyles whose end will release it (R179) -/
  promise : List (Nat × List GyleKey) := []
  /-- victims of its own that are being written back (R174) -/
  evicting : List Nat := []
  /-- the step that found its space, to place it once that is free: on probation or as a main cask -/
  place : Option Bool := none
  deriving DecidableEq, Repr

/-- A pin record (R170). -/
structure PinRec where
  ctx : Nat := 0
  adapter : AdapterId := 0
  count : Nat := 0
  deriving DecidableEq, Repr

/-- A slot of the broadcast buffer (R181): the tile, and the tuns still to be delivered to. -/
structure BroadSlot where
  buf : TileBuf := {}
  /-- the gyle and segment that the tile is read for -/
  gk : GyleKey := {}
  segment : Nat := 0
  tuns : List Nat := []
  deriving DecidableEq, Repr

/-- The cellar (R163 to R183). -/
structure Cellar where
  casks : Tab Cask := []
  waiting : List Admit := []
  broadcast : List BroadSlot := []
  /-- raises of the cellar's parts, oldest first: 0 directory copy, 1 gradient scratch, 2 ullage, and the bytes that the pool did not
  have free (R163) -/
  growth : List (Nat × Nat) := []
  pins : List PinRec := []
  /-- admission sketch: row × 65,536 + counter (R172) -/
  sketch : Tab Nat := []
  evictions : Nat := 0
  filterLosses : Nat := 0
  noSpaceAdmits : Nat := 0
  corrected : Nat := 0
  uncorrectable : Nat := 0
  scrubAddr : Nat := 0
  /-- codewords corrected in the present scrub period: their addresses -/
  scrubHits : List Nat := []
  uncorrRows : List (Nat × Nat × Nat) := []
  regionsRemapped : Nat := 0
  descCopy : List Byte := []
  memory : List Host.Cell := []
  deriving DecidableEq, Repr

/-- A fetch stream (R190). -/
structure Stream where
  id : Nat := 0
  adapter : AdapterId := 0
  version : Nat := 0
  cask : Nat := 0
  place : Seq := 0
  started : Bool := false
  /-- tier it reads: 2, 3, 4, or 5 for the home on another block -/
  tier : Nat := 4
  left : List Nat := []
  home : Nat := 0
  noBorrow : Bool := false
  /-- a PREFETCH to T2 only: it fills no cask (R285) -/
  toT2 : Bool := false
  retried : Bool := false
  /-- the lowest tier that has failed for what is left, and the tiers that failed for the tensor it brings next (R191) -/
  below : Nat := 0
  failed : List Nat := []
  /-- the kiln reads the tensor again after its CRC-64 failed (R253) -/
  reread : Bool := false
  /-- from T4: the record that the read began under, the pages not yet read, and the bytes read so far (R253, R254) -/
  source : Option TenRec := none
  toRead : List Nat := []
  got : List Byte := []
  epoch : Nat := 0
  /-- context whose request started it, and the contexts that have asked for the same since -/
  ctx : Option Nat := none
  users : List Nat := []
  /-- `CORR` of its `M_T3_READ` in flight -/
  corr : Seq := 0
  deriving DecidableEq, Repr

/-- A warm copy in T2 or T3 (R184). -/
structure Warm where
  adapter : AdapterId := 0
  version : Nat := 0
  tenant : Nat := 0
  bytes : Nat := 0
  lastUse : Seq := 0
  grant : Option Nat := none
  /-- place of the copy in its grant -/
  place : Nat := 0
  noBorrow : Bool := false
  epoch : Nat := 0
  /-- tensors that the copy does not have: dirty ones (R160), and those whose bytes a fetch of the single-home regime released (R202) -/
  gone : List Nat := []
  deriving DecidableEq, Repr

/-- A grant of T2 that this block lends (R199). -/
structure Lent where
  borrower : Nat := 0
  grant : Nat := 0
  gibs : Nat := 0
  ctx : Option Nat := none
  sqIndex : Nat := 0
  active : Bool := false
  recalled : Bool := false
  recallSq : Option (Nat × Nat) := none
  /-- copies that the borrower wrote: place in the grant, segment header, bytes -/
  store : List (Nat × SegHdr × List Byte) := []
  deriving DecidableEq, Repr

/-- A grant that this block holds from a lender. -/
structure Borrowed where
  grant : Nat := 0
  lender : Nat := 0
  gibs : Nat := 0
  /-- reads of the grant in flight: CORR -/
  reads : List Seq := []
  /-- where the next copy is placed -/
  next : Nat := 0
  recalling : Option Msg := none
  /-- bytes that a window wrote into the grant (R205) -/
  cells : List Host.Cell := []
  deriving DecidableEq, Repr

/-- A window of the `TIERS` page (R205). -/
structure Window where
  busy : Bool := false
  op : Nat := 0
  /-- what the transfer that runs was started with: tier, grant, offset, chip-memory address, bytes -/
  tier : Nat := 0
  grant : Nat := 0
  offset : Nat := 0
  chip : Nat := 0
  bytes : Nat := 0
  status : Nat := 0
  deriving DecidableEq, Repr

/-- The tiers (R184 to R206). -/
structure Tiers where
  /-- true: single-home (the reset value of TIER_REGIME is 1) -/
  singleHome : Bool := true
  testHold : Bool := false
  testHoldLeaving : Bool := false
  warm : List Warm := []
  streams : List Stream := []
  nextStream : Nat := 0
  lent : List Lent := []
  borrowed : List Borrowed := []
  win0 : Window := {}
  win1 : Window := {}
  fetchT2 : Nat := 0
  fetchT3 : Nat := 0
  fetchT4 : Nat := 0
  /-- bytes of chip memory that a window has written (R205) -/
  chip : List Host.Cell := []
  deriving DecidableEq, Repr

/-! ### Training -/

/-- A gradient hold: one FP32 per trainable element, by tensor index (R146). -/
structure GradHold where
  gk : GyleKey := {}
  adapter : AdapterId := 0
  version : Nat := 0
  bytes : Nat := 0
  grads : Tab (List F32) := []
  deriving DecidableEq, Repr

/-- A tun partial in the gradient scratch (R145): the slice's tun, its segment-slot and the partial gradient. -/
structure Partial where
  gk : GyleKey := {}
  tun : Nat := 0
  segment : Nat := 0
  slot : Nat := 0
  adapter : AdapterId := 0
  tensor : Nat := 0
  values : List F32 := []
  deriving DecidableEq, Repr

/-- An accepted commit (Table 7.7) with the versions its run has prepared. -/
structure Commit where
  gk : GyleKey := {}
  sqIndex : Nat := 0
  report : Nat := 0
  seq : Seq := 0
  ran : Bool := false
  published : Bool := false
  outcomes : List (AdapterId × Nat × Nat) := []
  prepared : List (AdapterId × Ver) := []
  ullage : Nat := 0
  dirtyReserved : Nat := 0
  /-- cask indices that it holds for its new versions (R155) -/
  indices : Nat := 0
  /-- it writes through (R161); T2 then holds what it wrote -/
  through : Bool := false
  t2Held : Bool := false
  deriving DecidableEq, Repr

/-- Dirty data of a publication that the newest version still has: its tensors and state arrays, not yet in both T2 and T4
(R160). -/
structure Dirty where
  adapter : AdapterId := 0
  version : Nat := 0
  seq : Seq := 0
  tensors : List Nat := []
  bytes : Nat := 0
  /-- T2 holds them; whether T4 does, the kiln's map says (R160, R249) -/
  t2 : Bool := false
  deriving DecidableEq, Repr

/-- Training state of the block (R133 to R162). -/
structure Train where
  hp : Tab HpRec := []
  hold : List GradHold := []
  scratch : List Partial := []
  commits : List Commit := []
  dirty : List Dirty := []
  applied : Nat := 0
  dropped : Nat := 0
  deriving DecidableEq, Repr

/-! ### Homes and peers -/

/-- A lease that this block holds (R214). -/
structure Lease where
  adapter : AdapterId := 0
  version : Nat := 0
  home : Nat := 0
  epoch : Nat := 0
  /-- M_LEASE_RENEW is outstanding -/
  renewing : Bool := false
  deriving DecidableEq, Repr

/-- A lease that this block, as home, has granted to a peer. -/
structure Granted where
  epoch : Nat := 0
  adapter : AdapterId := 0
  version : Nat := 0
  peer : Nat := 0
  deriving DecidableEq, Repr

/-- A peer's hold on a version homed here (R216). -/
structure Hold where
  epoch : Nat := 0
  adapter : AdapterId := 0
  version : Nat := 0
  peer : Nat := 0
  deriving DecidableEq, Repr

/-- The home that a version had before a cutover, where it is still stored for what holds it (R216, R233). -/
structure PastHome where
  epoch : Nat := 0
  adapter : AdapterId := 0
  version : Nat := 0
  home : Nat := 0
  deriving DecidableEq, Repr

/-- A request that waits for its answer (R217). -/
structure Req where
  msg : Msg := {}
  tries : Nat := 1
  /-- `M_FAR_LATE` has announced that the answer comes later (R222) -/
  late : Bool := false
  gk : Option GyleKey := none
  deriving DecidableEq, Repr

/-- An answer that this block remembers for a peer (R225, R226). -/
structure Answered where
  peer : Nat := 0
  corr : Seq := 0
  body : Option Msg := none
  deriving DecidableEq, Repr

/-- A command that waits for the lease holders of the versions that it superseded (R215): the holders still awaited as
(epoch, adapter, version, peer), and the completion or the answer of a forwarded command that it then posts. `ready` is false while
a commit's report is being written. -/
structure Supersede where
  waiting : List (Nat × AdapterId × Nat × Nat) := []
  ready : Bool := true
  ctx : Option Nat := none
  sqIndex : Nat := 0
  fwd : Option Msg := none
  status : Nat := 0
  /-- opcode of the completion: 0x30 PUBLISH, 0x21 TRAIN_COMMIT -/
  opcode : Nat := 0x30
  cflags : Nat := 0
  gyle : Nat := 0
  result : List Byte := []
  deriving DecidableEq, Repr

/-- A directory change that waits for its peers' acknowledgements and its own journal record (R211, R212). -/
structure DirPending where
  ctx : Option Nat := none
  sqIndex : Nat := 0
  entries : List DirEntry := []
  applied : Nat := 0
  waiting : List Nat := []
  own : Bool := false
  /-- 0 while every change has been applied; else the status that ends the command (R283) -/
  status : Nat := 0
  /-- the entries that have not been taken up yet -/
  rest : List DirEntry := []
  /-- CORR of the M_DIR_UPDATE run, or of the forwarded request -/
  corr : Seq := 0
  fwd : Option Msg := none
  deriving DecidableEq, Repr

/-- Racking at the old home (Table 10.5). -/
structure Rack where
  adapter : AdapterId := 0
  dest : Nat := 0
  ctx : Option Nat := none
  sqIndex : Nat := 0
  /-- 1 allocating, 2 streaming, 3 frozen, 4 after cutover (`RACK_PHASE`) -/
  phase : Nat := 1
  round : Nat := 0
  version : Nat := 0
  delta : List Nat := []
  deltaBytes : Nat := 0
  corr : Seq := 0
  deriving DecidableEq, Repr

/-- Racking at the new home: an adapter that arrives. -/
structure RackIn where
  adapter : AdapterId := 0
  src : Nat := 0
  hdr : AdapterHdr := {}
  slots : List SlotEntry := []
  bytes : Nat := 0
  tensors : List Tensor := []
  version : Nat := 0
  leases : List Nat := []
  holds : List Nat := []
  ready : Bool := false
  queued : List Instr := []
  deriving DecidableEq, Repr

/-- An inbound run of tensor segments that is under way (R228): source peer, type, CORR, adapter, version, index, bytes. -/
structure Assembly where
  src : Nat := 0
  type : Nat := 0
  corr : Seq := 0
  adapter : AdapterId := 0
  version : Nat := 0
  index : Nat := 0
  /-- the length of its tensor, by the segment header -/
  total : Nat := 0
  bytes : List Byte := []
  /-- entries of a look-up's or a renewal's answer that have arrived -/
  answers : List LookupAns := []
  grants : List (AdapterId × Nat × Bool) := []
  deriving DecidableEq, Repr

/-- A request of a peer about adapters of several homes (R233): the reissued parts not yet answered, and what the answer holds so far. -/
structure Gather where
  ask : Msg := {}
  ans : Nat := 0
  left : List Seq := []
  status : Nat := 0
  args : List Nat := []
  data : List Byte := []
  deriving DecidableEq, Repr

/-- An adapter `PUBLISH` accepted and not yet at its publication (R284). -/
structure PubPending where
  adapter : AdapterId := 0
  base : Nat := 0
  ver : Ver := {}
  ctx : Option Nat := none
  sqIndex : Nat := 0
  fwd : Option Msg := none
  /-- descriptor and image, by which the command can be forwarded once more (R234) -/
  raw : List Byte := []
  image : List Byte := []
  held : Bool := false
  /-- a cask index is held for it while the victim that gives it is written back (R168) -/
  index : Bool := false
  /-- look-ups of adapters homed elsewhere that its joins need: 1 sent, 2 answered -/
  asked : Tab Nat := []
  deriving DecidableEq, Repr

/-- A forwarded command that waits for look-ups which its checks need (R213, R234): the message that brought it, the request that its
answer names, and the look-ups: 1 sent, 2 answered. -/
structure FwdWait where
  instr : Instr
  ask : Msg := {}
  asked : Tab Nat := []
  deriving DecidableEq, Repr

/-- An entry of a look-up answer that waits for look-ups which its joins need (R42): the epoch, the home that answered, the gyle that
asked, and the look-ups: 1 sent, 2 answered. -/
structure Learning where
  epoch : Nat := 0
  src : Nat := 0
  gk : Option GyleKey := none
  ans : LookupAns
  asked : Tab Nat := []
  deriving DecidableEq, Repr

/-- A store of a tenant record that waits for look-ups of the adapters that it names (R213, R403). -/
structure TenantWait where
  tenant : Nat := 0
  word : Word64 := 0
  role : Role
  bytes : List Byte := []
  asked : Tab Nat := []
  deriving DecidableEq, Repr

/-- A purge that has been ordered and not completed (R413). -/
structure PurgePending where
  adapter : AdapterId := 0
  version : Nat := 0
  tenant : Nat := 0
  seq : Seq := 0
  step1Held : Bool := false
  kilnDone : Bool := false
  /-- the lease holders still awaited: version and peer; `epoch` is the purge's -/
  epoch : Nat := 0
  waiting : List (Nat × Nat) := []
  ctx : Option Nat := none
  sqIndex : Nat := 0
  fwd : Option Msg := none
  deriving DecidableEq, Repr

/-- Homes, leases, far apply and racking (R207 to R240). -/
structure Homes where
  peersUp : List Nat := []
  leases : List Lease := []
  granted : List Granted := []
  holds : List Hold := []
  pastHomes : List PastHome := []
  requests : List Req := []
  answered : List Answered := []
  supersedes : List Supersede := []
  dirPending : List DirPending := []
  publishes : List PubPending := []
  /-- forwarded commands, look-up answers and tenant records that wait for further look-ups -/
  fwdWaiting : List FwdWait := []
  learning : List Learning := []
  tenantWaits : List TenantWait := []
  /-- `M_REVOKE` messages of purges not yet answered: their adapters, and the request to answer (R413) -/
  acksDue : List (List AdapterId × Msg) := []
  purges : List PurgePending := []
  forwards : List (Seq × Nat × Nat × Nat) := []
  rack : Option Rack := none
  rackIn : List RackIn := []
  /-- directory changes that peers whose link is down receive on reconnection (R211) -/
  dirOwed : List (Nat × List DirEntry) := []
  /-- requests reissued at a new home: `CORR` of the reissue, and the request it answers (R233) -/
  redirected : List (Seq × Msg) := []
  gathers : List Gather := []
  assembly : List Assembly := []
  freezeLast : Nat := 0
  /-- the last cutover at which an adapter's home left this block (R154) -/
  departed : Tab Seq := []
  loads : Tab Nat := []
  /-- `M_EPOCH_RELEASE` received, and this block's own: epoch and peer (R238) -/
  released : List (Nat × Nat) := []
  /-- far gyles of peers whose opening was reissued at a new home: peer, number, new home (R233) -/
  farRouted : List (Nat × Nat × Nat) := []
  /-- handshakes of far work and bytes of fetches, by shard, that do not make a whole load unit yet (R230) -/
  loadHs : Tab Nat := []
  loadBytes : Tab Nat := []
  farRowsServed : Nat := 0
  redirects : Nat := 0
  farRowsSent : Nat := 0
  msgDrops : Nat := 0
  msgsQueued : List Instr := []
  txSeq : Tab Nat := []
  rxSeq : Tab Nat := []
  deriving DecidableEq, Repr

/-! ### Kiln -/

/-- The kiln's phases (Table 11.3). -/
inductive KilnPhase where
  | unmounted | mounting | inService | degraded | closed | failed
  deriving DecidableEq, Repr

/-- Flash channel states (Table 11.11). -/
inductive ChanState where
  | none | inService | retired | training
  deriving DecidableEq, Repr

/-- The ONFI commands that the block issues (Table 11.1); a `Set Features` with its address and value, a read, a program or an erase with
the page. -/
inductive OnfiCmd where
  | reset | resetLun | readId | readParameterPage | getFeatures | setFeatures (address value : Nat) | getFeaturesByLun | setFeaturesByLun
  | readStatusEnhanced | read (page : Nat) | multiPlaneRead | cacheReadSequential | readCacheEnd | changeReadColumnEnhanced
  | pageProgram (page : Nat) | multiPlaneProgram | blockErase (superblock : Nat) | multiPlaneErase | zqLong | zqShort | volumeSelect
  | odtConfigure | readDqTraining | writeTrainingTx | writeTrainingRx
  deriving DecidableEq, Repr

/-- One flash channel and its device (Tables 11.11 to 11.13). -/
structure Channel where
  st : ChanState := .none
  mts : Nat := 0
  ces : Nat := 0
  ldpcSoft : Nat := 0
  ldpcHard : Nat := 0
  ldpcFails : Nat := 0
  peFails : Nat := 0
  /-- successive operations that gave no status (R257) -/
  timeouts : Nat := 0
  deriving DecidableEq, Repr

/-- What a journal record is for (R249, R212, R254, R260, R261): the tensors of a version or of the staged catalogue, a directory change,
an epoch switch, a purge's step 1, a rotation's rewrapped version records, records removed, a tensor moved, the close. -/
inductive JournalKind where
  | publish (adapter : AdapterId) (version : Nat)
  | dirty (adapter : AdapterId) (version : Nat)
  | racked (adapter : AdapterId) (version : Nat)
  | staged (epoch : Nat)
  | version (adapter : AdapterId) (version : Nat)
  | directory (corr : Seq) (src : Nat) (entries : List DirEntry)
  | epochSwitch (epoch : Nat) (directory : List DirEntry)
  | purgeStep1 (adapter : AdapterId) (tenant : Nat)
  | rewrap (tenant : Nat)
  | remove
  | move (superblock : Nat)
  | moveHome
  | close
  deriving DecidableEq, Repr

/-- A version record of the map (R247, R259). `seed` is what unwrapping its wrapped seed yields: the record itself stores that alone. -/
structure VerRec where
  key : RecKey := {}
  tenant : Nat := 0
  tensors : Nat := 0
  wrapped : BitVec 320 := 0
  seed : BitVec 256 := 0
  deriving DecidableEq, Repr

/-- A journal record: its gauger sequence, its CRC-32C (R251), the journal superblock that it stands in, and what it enters into the map
or removes from it. -/
structure Journal where
  seq : Seq := 0
  kind : JournalKind := .remove
  versions : List VerRec := []
  tensors : List TenRec := []
  goneVersions : List RecKey := []
  goneTensors : List (RecKey × Nat) := []
  block : Nat := 0
  crc : Nat := 0
  deriving DecidableEq, Repr

/-- The map: its version records and its tensor records (R247). -/
structure KilnMap where
  versions : List VerRec := []
  tensors : List TenRec := []
  deriving DecidableEq, Repr

/-- A data or parity page as it is programmed (R243, R244): its stored bytes but for the zeros at the end, the tensor key and the
page's sequence in its metadata, and the CRC-32C of each of its four codewords. -/
structure FlashPage where
  data : List Byte := []
  key : RecKey := {}
  index : Nat := 0
  seq : Seq := 0
  crcs : List Nat := []
  deriving DecidableEq, Repr

/-- The areas of the kiln (R246). -/
inductive KilnArea where
  | data | ckptA | ckptB | journal | slc | spare | test
  deriving DecidableEq, Repr

/-- A superblock of the kiln (R244, R255, R256). -/
structure Superblock where
  erases : Nat := 0
  reads : Nat := 0
  /-- data pages programmed since its erase, and the devices that its stripes have their columns on since then -/
  fill : Nat := 0
  columns : List Nat := []
  /-- devices whose block of it failed program or erase: one such retires it whole (R244) -/
  failedOn : List Nat := []
  /-- an erase of it is in flight, or was aborted (R261) -/
  erasing : Bool := false
  /-- of a spare superblock, the area of the one that it replaces -/
  area : Option KilnArea := none
  deriving DecidableEq, Repr

/-- A wrap-key rotation of a tenant (R260, R409). -/
structure Rotation where
  tenant : Nat := 0
  /-- the rotation start -/
  start : Seq := 0
  purges : List AdapterId := []
  byKeyOp : Bool := false
  deriving DecidableEq, Repr

/-- A checkpoint that is being written, and what a valid one records (R251, R212, R256): the map, the directory, the read counters, and
the CRC-64 of its closing record. It is written into area A or into area B. -/
structure Checkpoint where
  seq : Seq := 0
  map : KilnMap := {}
  directory : List DirEntry := []
  epoch : Nat := 0
  reads : Tab Nat := []
  readBase : Nat := 0
  inB : Bool := false
  crc : Word64 := 0
  deriving DecidableEq, Repr

/-- The kiln (R241 to R263). -/
structure Kiln where
  phase : KilnPhase := .unmounted
  channels : Tab Channel := []
  usableGib : Nat := 0
  /-- data capacity before any retirement, in GiB (R257) -/
  dataGib : Nat := 0
  /-- superblocks, and pages of an erase block (R241, R244) -/
  blocks : Nat := 0
  pagesPerBlock : Nat := 1024
  /-- the division into areas (R246) -/
  layout : KilnLayout := {}
  /-- pages by stripe × 32 + device -/
  pages : Tab FlashPage := []
  /-- the superblocks that are being filled -/
  openData : Option Nat := none
  openSlc : Option Nat := none
  openJournal : Option Nat := none
  reconstructs : Nat := 0
  crcFails : Nat := 0
  /-- the map in force (R247) -/
  map : KilnMap := {}
  /-- the last checkpoint of area A and of area B; a new kiln holds an empty one -/
  ckptA : Option Checkpoint := some {}
  ckptB : Option Checkpoint := none
  ckptRunning : Option Checkpoint := none
  /-- what waits for its journal records, oldest first -/
  pending : List JournalKind := []
  journal : List Journal := []
  superblocks : Tab Superblock := []
  /-- the read counter of every superblock that has no entry (R256) -/
  readBase : Nat := 0
  rebuilding : Bool := false
  /-- mounted, and no close record programmed since (R261) -/
  opened : Bool := false
  rotations : List Rotation := []
  zqShorts : Nat := 0
  memory : List Host.Cell := []
  deriving DecidableEq, Repr

/-! ### Integrity, repair, pace -/

/-- What a recovery level acts on (Table 16.5). -/
inductive FaultObject where
  | tun (t : Nat) | ctx (c : Nat) | region (r : Nat) | pair (p : Nat) | port (page : Nat) | block
  deriving DecidableEq, Repr

/-- An open fault (R339). -/
structure FaultRec where
  id : Seq := 0
  object : FaultObject := .block
  source : Nat := 0
  first : Nat := 0
  level : Nat := 0
  epoch : Nat := 0
  deriving DecidableEq, Repr

/-- Integrity state (R324 to R347). -/
structure Integrity where
  faults : List FaultRec := []
  countL2 : Nat := 0
  countL3 : Nat := 0
  countL4 : Nat := 0
  countL5 : Nat := 0
  countL6 : Nat := 0
  countL7 : Nat := 0
  tensorsLost : Nat := 0
  updatesLost : Nat := 0
  sramCorrected : Nat := 0
  sramUncorrectable : Nat := 0
  lastId : Seq := 0
  lastObject : Nat := 0
  lastSource : Nat := 0
  lastLevel : Nat := 0
  lastFirst : Nat := 0
  /-- physical tun in its self-test slot, none when the test is off -/
  selftestTun : Option Nat := none
  selftestCycles : Nat := 0
  /-- recovery epoch of each object, by page index or 0x1000 + region (R338) -/
  epochs : Tab Nat := []
  /-- the block has stopped after level 7 (R336) -/
  stopped : Bool := false
  deriving DecidableEq, Repr

/-- Repair map record kinds (Table 17.2). -/
inductive MapKind where
  | laneSpare | laneFailed | tunRetired | cellarRow | cellarRegion | kilnRetired | ageTrim | fwSlot
  deriving DecidableEq, Repr

/-- A repair map record (Table 17.1). -/
structure MapRec where
  seq : Seq := 0
  kind : MapKind := .laneSpare
  object : Nat := 0
  data : List Nat := []
  deriving DecidableEq, Repr

/-- A region remap that runs (Table 17.6). -/
structure Remap where
  die : Nat := 0
  region : Nat := 0
  step : Nat := 1
  reserve : Nat := 0
  /-- casks and tensors in the region -/
  items : List (Nat × Nat) := []
  /-- the fault that the remap serves, 0 for one of maintenance -/
  fault : Seq := 0
  deriving DecidableEq, Repr

/-- A cellar core pair's state (Table 22.13). -/
inductive PairState where
  | down | serving | restarting | activating | stopped
  deriving DecidableEq, Repr

/-- A firmware staging or activation (R359, R360). -/
structure Firmware where
  activeSlot : Nat := 0
  running : Nat := 0
  /-- the images in slots 0 and 1 -/
  slots : Tab FwImage := []
  /-- the version staged in the inactive slot, and whether it passed staging -/
  staged : Nat := 0
  stagedOk : Bool := false
  status : Nat := 0
  busy : Bool := false
  activating : Bool := false
  /-- pairs still to restart on the new image; pairs already restarted; rolling back -/
  todo : List Nat := []
  done : List Nat := []
  rollback : Bool := false
  pairNow : Option Nat := none
  deriving DecidableEq, Repr

/-- Repair, ageing and live update (R348 to R361), and the cellar core pairs (Table 22.13). -/
structure Repair where
  /-- the records of copy A and of copy B (R348) -/
  mapA : List MapRec := []
  mapB : List MapRec := []
  /-- repairs in force without a durable record (R350) -/
  volatile : List MapRec := []
  /-- the indices of each copy at which the record's CRC does not pass -/
  badA : List Nat := []
  badB : List Nat := []
  trims : Tab Nat := []
  margins : Tab Nat := []
  retunes : Nat := 0
  limitGroups : List Nat := []
  remap : Option Remap := none
  remapWaiting : List (Nat × Nat × Seq) := []
  fw : Firmware := {}
  pairs : Tab PairState := []
  pairRestarts : Tab Nat := []
  deriving DecidableEq, Repr

/-- A sag region (R365, R366). -/
structure Sag where
  steps : Nat := 0
  events : Nat := 0
  persisted : Bool := false
  deriving DecidableEq, Repr

/-- Pace, power and heat (R362 to R380). -/
structure Pace where
  vddReq : Nat := 0x2EE
  vddMeas : Nat := 0
  paceMhz : Nat := 0
  capSource : Nat := 0
  gate : Nat := 0x10
  capEff : Nat := 0xB4
  portCap : Nat := 0xB4
  portCapRaw : Nat := 0xB4
  avgDw : Nat := 0
  instDw : Nat := 0
  /-- the estimates of the last telemetry sample, in units of 0.1 W: L, P_rest and D of R370 -/
  leakDw : Nat := 0
  restDw : Nat := 0
  interiorDw : Nat := 0
  capUnmet : Nat := 0
  tjMax : Nat := 0
  tjSensor : Nat := 0
  thermCap : Nat := 0xB4
  thermActive : Bool := false
  chipWarn : Bool := false
  thermHalted : Bool := false
  derate : Bool := false
  sags : Tab Sag := []
  /-- power-failure warning: level now, warning taken since the last reset, settling, closed -/
  pfwLevel : Bool := false
  pfw : Bool := false
  settling : Bool := false
  closed : Bool := false
  deriving DecidableEq, Repr

/-! ### Keys and boundary -/

/-- A connection slot (Table 21.2). -/
structure KeySlot where
  key : BitVec 256 := 0
  salt : BitVec 32 := 0
  deriving DecidableEq, Repr

/-- Key state (R405 to R414). -/
structure Keys where
  slots : Tab (Option KeySlot) := []
  /-- the key and salt of each live connection: peer × 2 + direction -/
  connections : Tab (Option KeySlot) := []
  loadPair : Nat := 0
  pubValid : Bool := false
  keyIn : Tab Word64 := []
  /-- the KEY_OP that runs -/
  busy : Option Nat := none
  busyTenant : Nat := 0
  saltLo : Word64 := 0
  salts : Tab (Word64 × Word64) := []
  /-- generation of each tenant's wrap key (R406) -/
  wrapGen : Tab Nat := []
  rotations : Nat := 0
  unwrapFails : Nat := 0
  deriving DecidableEq, Repr

/-- What a chip-memory transfer is for: a context's descriptor, the structure it points to or a part of it, row-map entries
of a gyle, a completion record, a gyle account, an outcome report. -/
inductive MemUse where
  | descriptor (c : Nat)
  | image (c : Nat)
  | rowMap (c gyle : Nat) (first : Nat)
  | completion (c : Nat)
  | account (c gyle : Nat)
  | report (c gyle : Nat)
  | spill (c : Nat)
  deriving DecidableEq, Repr

/-- A chip-memory transfer: requests still outstanding, and the data of a read that have arrived, by chunk. -/
structure Xfer where
  id : Nat := 0
  use : MemUse := .descriptor 0
  write : Bool := false
  left : Nat := 0
  got : Tab (List Byte) := []
  deriving DecidableEq, Repr

/-- A request of a transfer, on a memory port or waiting for one (Table 23.5): at most 4 KiB within one page. -/
structure MemReq where
  id : Nat := 0
  xfer : Nat := 0
  chunk : Nat := 0
  addr : Nat := 0
  bytes : Nat := 0
  write : Bool := false
  data : List Byte := []
  retries : Nat := 0
  deriving DecidableEq, Repr

/-- A memory port (Table 23.14). -/
structure MemPort where
  outstanding : List MemReq := []
  readBytes : Nat := 0
  writeBytes : Nat := 0
  retries : Nat := 0
  errors : Nat := 0
  deriving DecidableEq, Repr

/-- A fabric port (Table 23.15). -/
structure FabPort where
  txBytes : Nat := 0
  rxBytes : Nat := 0
  checkFails : Nat := 0
  wrongPort : Nat := 0
  deriving DecidableEq, Repr

/-- The clock domains and ports (R432 to R450). -/
structure Boundary where
  domainOk : Tab Bool := []
  clockLosses : Nat := 0
  syncParity : Nat := 0
  warmResets : Nat := 0
  lastCause : Nat := 0
  mem : Tab MemPort := []
  xfers : List Xfer := []
  nextXfer : Nat := 0
  /-- requests that no port has taken yet (R440) -/
  memWaiting : List MemReq := []
  fab : Tab FabPort := []
  deriving DecidableEq, Repr

/-- What the fuses hold (R109, Table 8.14, Table 21.4, Table 22.11). Reset values: log entry 11. -/
structure Fuses where
  serial : Word64 := 0
  retired : List Nat := []
  spare0 : Tab Nat := []
  spare1 : Tab Nat := []
  /-- spare rows used at test, by die × 128 + bank -/
  spareRows : Tab Nat := []
  spareCols : Nat := 0
  rootOk : Bool := true
  deriving DecidableEq, Repr

/-- Start and reset state of the `GLOBAL` page (Table 22.11) and its tenant staging buffer (R429). -/
structure Global where
  startStep : Nat := 1
  startFail : Nat := 0
  warmStep : Nat := 0
  ready : Bool := false
  /-- step 7 waits for CONFIG_DONE (R394) -/
  waitConfig : Bool := false
  /-- the kiln mount step has begun: R206, R240 and R262 close their registers -/
  mountBegun : Bool := false
  powered : Bool := false
  heldInReset : Bool := false
  everReady : Bool := false
  tenantBuf : Tab Word64 := []
  /-- an accepted request of a warm or a cold reset that has not begun: its cause code of Table 23.13 -/
  resetPending : Option Nat := none
  deriving DecidableEq, Repr

/-- What leaves the block at its ports, newest first in `outs`. A message is given as its fields and as the bytes of the messages of
its run: header and, where the spec lays it out, payload, before encryption. -/
inductive Output where
  | creditWord (port : Nat) (word : Word64)
  | beat (port : Nat) (tag : Word64) (data : List Byte)
  | message (m : Msg) (wire : List (List Byte))
  | linkEvent (peer code : Nat)
  | response (data : Word64) (status : Nat)
  | capture (bits : BitVec 531)
  | voltageRequest (mv : Nat)
  | flash (channel : Nat) (cmd : OnfiCmd)
  deriving DecidableEq, Repr

/-! ### The whole block -/

/-- The state of the block. -/
@[ext]
structure State where
  gauger : Gauger := {}
  log : LogBook := {}
  pages : Tab PageHdr := []
  /-- writable register fields, by window address; an unlisted register holds its table's reset value -/
  regs : Tab Word64 := []
  ctxs : Tab Ctx := []
  planInForce : Option Plan := none
  planStaged : Option Plan := none
  cat : Catalogue := {}
  catStaged : Option Catalogue := none
  /-- context and ring index of the EPOCH_STAGE that is staging -/
  staging : Option (Nat × Nat) := none
  catRetiring : Option Catalogue := none
  dir : Directory := {}
  dirStaged : Directory := {}
  dirOld : Option Directory := none
  handles : Tab Mixture := []
  tenantRecs : Tab TenantRec := []
  gyles : List Gyle := []
  tuns : Tab Tun := []
  heldGroups : List HeldGroup := []
  /-- operations that no active tun can take, T being 0 (R110, R308) -/
  orphans : List Op := []
  nextHold : Nat := 0
  sortRows : Nat := 0
  ports : Tab Port := []
  spillUsed : Nat := 0
  cellar : Cellar := {}
  tiers : Tiers := {}
  train : Train := {}
  homes : Homes := {}
  kiln : Kiln := {}
  integrity : Integrity := {}
  repair : Repair := {}
  pace : Pace := {}
  keys : Keys := {}
  boundary : Boundary := {}
  fuses : Fuses := {}
  glob : Global := {}
  outs : List Output := []
  /-- the model's own: the number of free values drawn so far (Config.freeWord and its kin); log entry 3 -/
  freeCtr : Nat := 0
  /-- the commands that wait, first in, first out -/
  pending : List Instr := []
  deriving DecidableEq, Repr

/-- The ways a step can stop with a fault. The block's commands always have an effect of the spec's or none, so no command
of this model faults; the constructor stands for the interface. Never raised; safe. -/
inductive Fault where
  | none
  deriving DecidableEq, Repr

/-- The ways a step can be refused. `notModelled` names a command that has no meaning yet; no arm of `exec` raises it once
every row has its meaning. Safe: no claim can be proved from it. -/
inductive Refusal where
  | notModelled (mnemonic : String)
  deriving DecidableEq, Repr

/-- The state right after reset, before power-good: every register at the reset value of its table, every store empty,
`START_STEP` at 1, no command waiting (R393, R399). -/
def State.reset : State := {}

end Sys2Proof.Machine
end

