-- ==== Sys2Proof/Machine/Tab.lean ====
section
/-! DEFINITION. Sparse tables: a list of (key, value) pairs, ascending by key, that lists no entry equal to the default. The
byte memories are lists of cells of the same order; a byte that no cell lists has no value in the state (log entry 12). -/
namespace Sys2Proof.Machine

/-- The value at key `k`, `d` where none is listed. -/
def tget {α : Type} (d : α) : Tab α → Nat → α
  | [], _ => d
  | (k', v) :: t, k => if k' = k then v else tget d t k

/-- Insert in key order, replacing an entry of the same key. -/
def tput {α : Type} (k : Nat) (v : α) : Tab α → Tab α
  | [] => [(k, v)]
  | (k', v') :: t => if k < k' then (k, v) :: (k', v') :: t else if k = k' then (k, v) :: t else (k', v') :: tput k v t

/-- Remove every entry of key `k`. -/
def tdel {α : Type} (k : Nat) : Tab α → Tab α
  | [] => []
  | (k', v) :: t => if k' = k then tdel k t else (k', v) :: tdel k t

/-- Write `v` at key `k`; writing the default removes the entry, so equal tables are equal lists. -/
def tset {α : Type} [DecidableEq α] (d : α) (t : Tab α) (k : Nat) (v : α) : Tab α :=
  if v = d then tdel k t else tput k v t

/-- Change the value at key `k` by `f`. -/
def tmod {α : Type} [DecidableEq α] (d : α) (t : Tab α) (k : Nat) (f : α → α) : Tab α :=
  tset d t k (f (tget d t k))

/-- Keys in strictly rising order, no entry equal to the default: the canonical form. -/
def twf {α : Type} [DecidableEq α] (d : α) : Tab α → Bool
  | [] => true
  | [(_, v)] => v != d
  | (k, v) :: (k', v') :: t => v != d && k < k' && twf d ((k', v') :: t)

/-- The lowest key at or above `n` that a table in canonical form does not list. -/
def firstFree {α : Type} : Nat → Tab α → Nat
  | n, [] => n
  | n, (k, _) :: t => if k = n then firstFree (n + 1) t else if k < n then firstFree n t else n

/-- The keys of a table rise strictly: it names each key once. -/
def keysRise {α : Type} : Tab α → Bool
  | [] => true
  | [_] => true
  | a :: b :: t => a.1 < b.1 && keysRise (b :: t)

/-! ### Sorting -/

/-- Insert by an order. -/
def insertBy {α : Type} (lt : α → α → Bool) (x : α) : List α → List α
  | [] => [x]
  | y :: ys => if lt x y then x :: y :: ys else y :: insertBy lt x ys

/-- Insertion sort: stable, structural. -/
def sortBy {α : Type} (lt : α → α → Bool) (xs : List α) : List α := xs.foldr (insertBy lt) []

/-- Lexicographic comparison. -/
def lexLt : List Nat → List Nat → Bool
  | a :: as, b :: bs => a < b || (a = b && lexLt as bs)
  | _, _ => false

/-! ### Byte memories -/

/-- A byte memory: cells of strictly rising addresses. -/
abbrev Memory := List Host.Cell

/-- The canonical form of a memory. -/
def Memory.wf (m : Memory) : Bool := keysRise m

/-- Read one byte; none where no cell lists the address (log entry 12). -/
def memGet : Memory → Nat → Option Byte
  | [], _ => none
  | (k, b) :: t, a => if k = a then some b else memGet t a

/-- Write one byte. -/
def memSet (m : Memory) (a : Nat) (b : Byte) : Memory := tput a b m

/-- Write bytes at rising addresses. -/
def memWrite : Memory → Nat → List Byte → Memory
  | m, _, [] => m
  | m, a, b :: bs => memWrite (memSet m a b) (a + 1) bs

/-- Read bytes from address `a`: those that `get` has, and `fill` elsewhere. -/
def overlay (get : Nat → Option Byte) : Nat → List Byte → List Byte
  | _, [] => []
  | a, b :: fill => (get a).getD b :: overlay get (a + 1) fill

/-- Bytes with some of their bits changed; the shorter list counts as ending in zeros, and nothing is added to the first. -/
def xorBytes : List Byte → List Byte → List Byte
  | [], _ => []
  | bs, [] => bs
  | b :: bs, x :: xs => (b ^^^ x) :: xorBytes bs xs

/-- Forget the `n` bytes from address `a`. -/
def memDrop (m : Memory) (a n : Nat) : Memory := m.filter fun c => c.1 < a || a + n ≤ c.1

end Sys2Proof.Machine
end

