-- ==== Sys2Proof/Machine/Arith.lean ====
section
/-! DEFINITION. The arithmetic of *Arithmetic* (R43 to R60): exact decoding of every element format, FP32 operations rounded
to nearest even, the block-dot with its window, conversions and saturation, optimizer steps and stochastic write-back. -/
namespace Sys2Proof.Machine

/-- +0. -/
def Num.zero : Num := .fin false 0 0

/-- The opposite value. -/
def Num.neg : Num → Num
  | .nan => .nan
  | .inf s => .inf !s
  | .fin s m e => .fin (!s) m e

/-- The absolute value. -/
def Num.abs : Num → Num
  | .nan => .nan
  | .inf _ => .inf false
  | .fin _ m e => .fin false m e

/-- 2^n as a number, for a natural exponent of an integer that is not negative. -/
def pow2 (i : Int) : Nat := 2 ^ i.toNat

/-- Exact product. -/
def Num.mul : Num → Num → Num
  | .nan, _ => .nan
  | _, .nan => .nan
  | .inf s, .inf t => .inf (s != t)
  | .inf s, .fin t m _ => if m = 0 then .nan else .inf (s != t)
  | .fin s m _, .inf t => if m = 0 then .nan else .inf (s != t)
  | .fin s m e, .fin t n f => .fin (s != t) (m * n) (e + f)

/-- The signed integer of a finite value in units of 2^q, for q at most its exponent. -/
def unitsAt (s : Bool) (m : Nat) (e q : Int) : Int :=
  let v : Int := Int.ofNat (m * pow2 (e - q))
  if s then -v else v

/-- Exact sum, with the zero signs of round-to-nearest-even addition. -/
def Num.add : Num → Num → Num
  | .nan, _ => .nan
  | _, .nan => .nan
  | .inf s, .inf t => if s = t then .inf s else .nan
  | .inf s, .fin .. => .inf s
  | .fin .., .inf t => .inf t
  | .fin s m e, .fin t n f =>
    let q := min e f
    let v := unitsAt s m e q + unitsAt t n f q
    if v = 0 then .fin (s && t) 0 q else .fin (v < 0) v.natAbs q

/-- m divided by 2^k, rounded to nearest, ties to even. -/
def rne (m k : Nat) : Nat :=
  let q := m / 2 ^ k
  let r := m % 2 ^ k
  if 2 * r > 2 ^ k || (2 * r = 2 ^ k && q % 2 = 1) then q + 1 else q

/-- m · 2^e as a multiple of 2^q, to nearest even. -/
def toUnits (m : Nat) (e q : Int) : Nat :=
  if q ≤ e then m * pow2 (e - q) else rne m (q - e).toNat

/-- Canonical quiet NaN in FP32 (R52). -/
def nan32 : F32 := 0x7FC00000

/-- Round a value to FP32, to nearest even, subnormals kept (R47, R48). -/
def toF32 : Num → F32
  | .nan => nan32
  | .inf s => if s then 0xFF800000 else 0x7F800000
  | .fin s m e =>
    let sign := if s then 2 ^ 31 else 0
    if m = 0 then BitVec.ofNat 32 sign
    else
      let q := max ((Nat.log2 m : Int) + e - 23) (-149)
      let bits := (q + 149).toNat * 2 ^ 23 + toUnits m e q
      BitVec.ofNat 32 (sign + min bits 0x7F800000)

/-- The value of an FP32 pattern. -/
def ofF32 (w : F32) : Num :=
  let n : Nat := w.toNat
  let s := n / 2 ^ 31 == 1
  let ex : Nat := n / 2 ^ 23 % 256
  let fr : Nat := n % 2 ^ 23
  if ex = 255 then (if fr = 0 then .inf s else .nan)
  else if ex = 0 then .fin s fr (-149)
  else .fin s (fr + 2 ^ 23) ((ex : Int) - 150)

/-- FP32 operations, each rounded once (fl of R48). -/
def fadd (a b : F32) : F32 := toF32 ((ofF32 a).add (ofF32 b))
def fmul (a b : F32) : F32 := toF32 ((ofF32 a).mul (ofF32 b))
def fneg (a : F32) : F32 := a ^^^ 0x80000000
def fsub (a b : F32) : F32 := toF32 ((ofF32 a).add (ofF32 b).neg)

/-- A quotient of finite values with 40 more bits than FP32 keeps and a sticky bit: rounding it once gives the correctly
rounded quotient (R57). -/
def fdiv (a b : F32) : F32 :=
  match ofF32 a, ofF32 b with
  | .nan, _ => nan32
  | _, .nan => nan32
  | .inf _, .inf _ => nan32
  | .inf s, .fin t _ _ => toF32 (.inf (s != t))
  | .fin s _ _, .inf t => toF32 (.fin (s != t) 0 0)
  | .fin s m e, .fin t n f =>
    if n = 0 then (if m = 0 then nan32 else toF32 (.inf (s != t)))
    else
      let k := 80 + Nat.log2 n
      let q := m * 2 ^ k / n
      let sticky := if m * 2 ^ k % n = 0 then 0 else 1
      toF32 (.fin (s != t) (2 * q + sticky) (e - f - k - 1))

/-- Integer square root by bisection on `bits` result bits. -/
def isqrt (n : Nat) : Nat → Nat → Nat
  | 0, r => r
  | b + 1, r => let c := r + 2 ^ b; isqrt n b (if c * c ≤ n then c else r)

/-- Correctly rounded FP32 square root (R56, R57). -/
def fsqrt (a : F32) : F32 :=
  match ofF32 a with
  | .nan => nan32
  | .inf s => if s then nan32 else a
  | .fin s m e =>
    if m = 0 then a
    else if s then nan32
    else
      let m' := if e % 2 = 0 then m * 2 ^ 60 else m * 2 ^ 61
      let e' := if e % 2 = 0 then e - 60 else e - 61
      let r := isqrt m' 48 0
      toF32 (.fin false (2 * r + (if r * r = m' then 0 else 1)) (e' / 2 - 1))

/-- The pattern is a NaN. -/
def isNan32 (w : F32) : Bool := ofF32 w = .nan

/-- The pattern is finite. -/
def isFin32 (w : F32) : Bool :=
  match ofF32 w with
  | .fin .. => true
  | _ => false

/-- a > b for values that are not NaN. -/
def Num.gt (a b : Num) : Bool :=
  match a.add b.neg with
  | .fin s m _ => !s && m ≠ 0
  | .inf s => !s
  | .nan => match a, b with
    | .inf false, .inf true => true
    | _, _ => false

/-! ### Stream formats -/

/-- The value of a bfloat16 pattern. -/
def ofBf16 (n : Nat) : Num := ofF32 (BitVec.ofNat 32 (n % 2 ^ 16 * 2 ^ 16))

/-- FP32 to bfloat16 by round-to-nearest-even; a finite value whose rounded result would be infinite becomes the largest
finite one and counts as saturated (R53). -/
def toBf16 (w : F32) : Nat × Bool :=
  let n := w.toNat
  let sign := n / 2 ^ 31 * 2 ^ 15
  if isNan32 w then (0x7FC0, false)
  else if n % 2 ^ 31 = 0x7F800000 then (sign + 0x7F80, false)
  else
    let r := rne (n % 2 ^ 31) 16
    if r ≥ 0x7F80 then (sign + 0x7F7F, true) else (sign + r, false)

/-- Bytes of an element of a dense stream: 0 bfloat16, 1 FP32 (Table 6.3). -/
def streamBytes (fmt : Nat) : Nat := if fmt = 0 then 2 else 4

/-- Convert FP32 values to a stream; whether some element saturated (R53, R54). -/
def encodeStream (fmt : Nat) : List F32 → List Byte × Bool
  | [] => ([], false)
  | w :: ws =>
    let r := encodeStream fmt ws
    if fmt = 0 then (leBytes 2 (toBf16 w).1 ++ r.1, (toBf16 w).2 || r.2) else (leBytes 4 w.toNat ++ r.1, r.2)

/-- The element `i` of a dense stream, widened to FP32 exactly. -/
def streamAt (fmt : Nat) (bs : List Byte) (i : Nat) : F32 :=
  if fmt = 0 then BitVec.ofNat 32 (leNat ((bs.drop (2 * i)).take 2) * 2 ^ 16)
  else BitVec.ofNat 32 (leNat ((bs.drop (4 * i)).take 4))

/-! ### Element formats (Tables 2.6, 3.1) -/

/-- Bytes per 32 elements (Table 2.6). -/
def blockBytes : Nat → Nat
  | 0 => 64 | 1 => 32 | 2 => 32 | 3 => 33 | 4 => 33 | 5 => 25 | 6 => 25 | 7 => 17 | 8 => 33 | _ => 0

/-- Bits of an element. -/
def elemBits : Nat → Nat
  | 0 => 16 | 5 => 6 | 6 => 6 | 7 => 4 | _ => 8

/-- The format carries block scales (codes 0x03 to 0x08). -/
def hasScale (fmt : Nat) : Bool := 3 ≤ fmt && fmt ≤ 8

/-- Elements per block-dot, set by the shared operand's format (Table 3.2). -/
def dotElems : Nat → Nat
  | 0 => 16 | 5 => 64 | 6 => 64 | 7 => 64 | _ => 32

/-- A small float of `eb` exponent and `mb` fraction bits, with subnormals and no special values. -/
def miniFloat (eb mb bias : Nat) (n : Nat) : Num :=
  let s := n / 2 ^ (eb + mb) % 2 = 1
  let ex : Nat := n / 2 ^ mb % 2 ^ eb
  let fr : Nat := n % 2 ^ mb
  if ex = 0 then .fin s fr (1 - (bias : Int) - mb) else .fin s (fr + 2 ^ mb) ((ex : Int) - bias - mb)

/-- The value of an element's encoding before the block scale (R43, R44, Table 3.1). -/
def elemVal (fmt n : Nat) : Num :=
  match fmt with
  | 0 => ofBf16 n
  | 1 | 3 => if n % 128 = 127 then .nan else miniFloat 4 3 7 n
  | 2 | 4 => if n / 4 % 32 = 31 then (if n % 4 = 0 then .inf (n / 128 % 2 = 1) else .nan) else miniFloat 5 2 15 n
  | 5 => miniFloat 3 2 3 n
  | 6 => miniFloat 2 3 1 n
  | 7 => miniFloat 2 1 1 n
  | 8 => if n % 256 < 128 then .fin false (n % 256) (-6) else .fin true (256 - n % 256) (-6)
  | _ => .nan

/-- An E8M0 block scale (R44). -/
def scaleVal (b : Nat) : Num := if b = 255 then .nan else .fin false 1 ((b : Int) - 127)

/-- Bytes that the packed elements of a row of `n` elements take (R45). -/
def packedBytes (fmt n : Nat) : Nat := n * elemBits fmt / 8

/-- Bytes of a row of `n` elements, block scales included (R40). -/
def rowBytes (fmt n : Nat) : Nat := n / 32 * blockBytes fmt

/-- The raw encoding of element `i` of a packed row: elements of 6 and 4 bits form one continuous stream, lowest bits
first (R45). -/
def rawElem (fmt : Nat) (row : List Byte) (i : Nat) : Nat :=
  let b := elemBits fmt
  let bit := i * b
  leNat ((row.drop (bit / 8)).take 3) / 2 ^ (bit % 8) % 2 ^ b

/-- The value of element `i` of a row of `n` elements, with its block's scale. -/
def rowElem (fmt n : Nat) (row : List Byte) (i : Nat) : Num :=
  let v := elemVal fmt (rawElem fmt row i)
  if hasScale fmt then
    match scaleVal (row.getD (packedBytes fmt n + i / 32) 0).toNat with
    | .nan => .nan
    | sc => v.mul sc
  else v

/-- The values of a row. -/
def decodeRow (fmt n : Nat) (row : List Byte) : List Num := (List.range n).map (rowElem fmt n row)

/-- Element `i` of a vector in `VEC_FMT`: 0 bfloat16, 1 FP32 (Table 2.4). -/
def vecElem (fmt : Nat) (bs : List Byte) (i : Nat) : F32 := streamAt fmt bs i

/-! ### Block-dots and accumulators -/

/-- The exponent of a non-zero finite value. -/
def topExp : Num → Option Int
  | .fin _ m e => if m = 0 then none else some ((Nat.log2 m : Int) + e)
  | _ => none

/-- The largest exponent of a list of products. -/
def maxExp : List Num → Option Int
  | [] => none
  | p :: ps => match topExp p, maxExp ps with
    | none, r => r
    | some a, none => some a
    | some a, some b => some (max a b)

/-- A finite product in units of 2^q, the bits below discarded. -/
def truncUnits (q : Int) : Num → Int
  | .fin s m e =>
    let v : Int := ((if q ≤ e then m * pow2 (e - q) else m / pow2 (q - e) : Nat) : Int)
    if s then -v else v
  | _ => 0

/-- The exact sum's NaN and infinity cases, none when every product is finite. -/
def specialSum (ps : List Num) : Option Num :=
  if ps.any (· = .nan) then some .nan
  else match ps.any (· = .inf false), ps.any (· = .inf true) with
    | true, true => some .nan
    | true, false => some (.inf false)
    | false, true => some (.inf true)
    | false, false => none

/-- The sum of finite products in units of 2^q, each without its bits below. -/
def sumUnits (q : Int) (ps : List Num) : Int := ps.foldl (fun (a : Int) p => a + truncUnits q p) 0

/-- The least exponent of some products, at or below `q`: in its units their sum is exact. -/
def minExp (q : Int) (ps : List Num) : Int :=
  ps.foldl (fun q p => match p with
    | .fin _ _ e => min q e
    | _ => q) q

/-- The block-dot of exact products (R47): a window of 50 bits and `Config.windowExtra` more below the largest product's
exponent, one rounding; an exact sum of zero is −0 only when every product is −0. Log entry 5. -/
def blockDot (ps : List Num) : F32 :=
  match specialSum ps with
  | some v => toF32 v
  | none =>
    match maxExp ps with
    | none => if ps.all fun p => match p with | .fin s _ _ => s | _ => false then 0x80000000 else 0x00000000
    | some top =>
      let q := top - 49 - (Config.windowExtra : Int)
      let v := if sumUnits (minExp top ps) ps = 0 then 0 else sumUnits q ps
      if v = 0 then 0x00000000 else toF32 (.fin (v < 0) v.natAbs q)

/-- The value at which an accumulator starts a fill (R47). -/
def accZero : F32 := 0x80000000

/-- Take element `i` out of a list. -/
def pickAt {α : Type} : List α → Nat → Option (α × List α)
  | [], _ => none
  | a :: as, 0 => some (a, as)
  | a :: as, n + 1 => (pickAt as n).map fun r => (r.1, a :: r.2)

/-- Add values into an accumulator in an order that R51 leaves open: `Config.freePick` chooses each next one (log entry 4).
`fuel` is their number. -/
def addAny (ctr : Nat) : (fuel : Nat) → F32 → List F32 → F32
  | 0, acc, _ => acc
  | n + 1, acc, vs =>
    match pickAt vs (if vs.length ≤ 1 then 0 else Config.freePick (ctr + n) % vs.length) with
    | some (v, rest) => addAny ctr n (fadd acc v) rest
    | none => acc

/-- All of a list's values added into an accumulator. -/
def addAll (ctr : Nat) (acc : F32) (vs : List F32) : F32 := addAny ctr vs.length acc vs

/-- Products of two operand chunks. -/
def products (xs ys : List Num) : List Num := List.zipWith Num.mul xs ys

/-- Cut a list into chunks of `k` elements. -/
def chunksOf {α : Type} (k : Nat) : (fuel : Nat) → List α → List (List α)
  | 0, _ => []
  | n + 1, xs => if xs.isEmpty then [] else xs.take k :: chunksOf k n (xs.drop k)

/-- The block-dots of two operands whose chunks hold `k` elements (R46). -/
def blockDots (k : Nat) (xs ys : List Num) : List F32 :=
  List.zipWith (fun a b => blockDot (products a b)) (chunksOf k xs.length xs) (chunksOf k xs.length ys)

/-! ### Reduction trees (R55, R106) -/

/-- One level of a pairwise tree. -/
def pairUp : List F32 → List F32
  | a :: b :: t => fadd a b :: pairUp t
  | t => t

/-- A pairwise tree over a list, `fuel` levels at most. -/
def treeFold : (fuel : Nat) → List F32 → F32
  | 0, vs => vs.headD accZero
  | n + 1, vs => if vs.length ≤ 1 then vs.headD accZero else treeFold n (pairUp vs)

/-- A list in an order that R51 leaves open (log entry 4). `fuel` is its length. -/
def anyOrder {α : Type} (ctr : Nat) : (fuel : Nat) → List α → List α
  | 0, _ => []
  | n + 1, vs =>
    match pickAt vs (if vs.length ≤ 1 then 0 else Config.freePick (ctr + n) % vs.length) with
    | some (v, rest) => v :: anyOrder ctr n rest
    | none => []

/-- The sum of some partial sums in a pairwise tree (R55): of 32 lanes depth 5, of 68 tuns at most 7. -/
def treeSum (ctr : Nat) (vs : List F32) : F32 := treeFold vs.length (anyOrder ctr vs.length vs)

/-! ### Checksum comparison (R106, R327) -/

/-- The accumulators that the comparison of one accumulator index reads: the checksum lane's, the sum of the active lanes', the sum
of the magnitude accumulators, and the block-dots added. -/
structure FillCheck where
  c : F32
  s : F32
  m : F32
  n : Nat

/-- Round a value that is not negative to FP32, upward (R327). -/
def toF32Up (v : Num) : F32 :=
  match v with
  | .fin _ m e =>
    if m = 0 then 0
    else
      let q := max ((Nat.log2 m : Int) + e - 23) (-149)
      let u := if q ≤ e then m * pow2 (e - q) else ceilDiv m (pow2 (q - e))
      BitVec.ofNat 32 (min ((q + 149).toNat * 2 ^ 23 + u) 0x7F800000)
  | w => toF32 w

/-- The magnitude accumulator after one more handshake: the sum of the products' magnitudes is added, rounded upward (R327). -/
def addMag (acc : F32) (ps : List Num) : F32 :=
  toF32Up ((ofF32 acc).add (ofF32 (toF32Up (ps.foldl (fun a p => a.add p.abs) Num.zero))))

/-- The element-wise FP32 sum of some lanes' operands, as the checksum lane takes it (R106). -/
def laneSum (ctr : Nat) (n : Nat) (xss : List (List Num)) : List Num :=
  (List.range n).map fun i => ofF32 (addAll ctr accZero (xss.map fun xs => toF32 (xs.getD i .zero)))

/-- The comparison of one accumulator index fails. -/
def checkFails (c : FillCheck) : Bool :=
  let cf := isFin32 c.c
  let sf := isFin32 c.s
  if cf != sf then true
  else if !cf then false
  else
    let diff := ((ofF32 c.c).add (ofF32 c.s).neg).abs
    let tau := ((ofF32 c.m).abs.mul (.fin false (2 * c.n + 10) (-24))).add (.fin false 1 (-126))
    match ofF32 c.m with
    | .fin .. => diff.gt tau
    | _ => false

/-! ### Stochastic write-back (R58 to R60) -/

/-- SplitMix64: the next state and its output. -/
def splitMix (x : Word64) : Word64 × Word64 :=
  let s := x + 0x9E3779B97F4A7C15
  let z := (s ^^^ (s >>> 30)) * 0xBF58476D1CE4E5B9
  let z := (z ^^^ (z >>> 27)) * 0x94D049BB133111EB
  (s, z ^^^ (z >>> 31))

/-- The state of a xoshiro256** generator, with the draws of 16 bits left of its last output. -/
structure Rng where
  s0 : Word64
  s1 : Word64
  s2 : Word64
  s3 : Word64
  buf : List Nat
  deriving DecidableEq, Repr

/-- The generator of a commit: four SplitMix64 outputs from the training seed XOR (0xFFFF << 48) (R60). -/
def Rng.seed (seed : Word64) : Rng :=
  let a := splitMix (seed ^^^ 0xFFFF000000000000)
  let b := splitMix a.1
  let c := splitMix b.1
  let d := splitMix c.1
  ⟨a.2, b.2, c.2, d.2, []⟩

/-- One 64-bit output of xoshiro256**. -/
def Rng.next (g : Rng) : Word64 × Rng :=
  let out := (g.s1 * 5).rotateLeft 7 * 9
  let t := g.s1 <<< 17
  let s2 := g.s2 ^^^ g.s0
  let s3 := g.s3 ^^^ g.s1
  (out, ⟨g.s0 ^^^ s3, g.s1 ^^^ s2, s2 ^^^ t, s3.rotateLeft 45, g.buf⟩)

/-- The next draw of 16 bits, lowest bits of an output first (R60). -/
def Rng.draw (g : Rng) : Nat × Rng :=
  match g.buf with
  | d :: ds => (d, { g with buf := ds })
  | [] =>
    let r := g.next
    let w := r.1.toNat
    (w % 2 ^ 16, { r.2 with buf := [w / 2 ^ 16 % 2 ^ 16, w / 2 ^ 32 % 2 ^ 16, w / 2 ^ 48 % 2 ^ 16] })

/-- A magnitude m · 2^e rounded to a multiple of 2^q with draw ρ (R59): up when ρ < ⌊f · 2^16⌋. -/
def stoch (m : Nat) (e q : Int) (rho : Nat) : Nat :=
  if q ≤ e then m * pow2 (e - q)
  else
    let k := (q - e).toNat
    let f := m % 2 ^ k * 2 ^ 16 / 2 ^ k
    m / 2 ^ k + (if rho < f then 1 else 0)

/-- The largest finite FP32 magnitude. -/
def maxF32 : Num := .fin false (2 ^ 24 - 1) 104

/-- A value as R58 writes it: an infinity is taken as the largest finite FP32 value of its sign. -/
def clampInf : Num → Num
  | .inf s => if s then maxF32.neg else maxF32
  | v => v

/-- Stochastically round a value to a small float of `eb` exponent and `mb` fraction bits with largest encoding `top`
(sign bit apart): its encoding. -/
def stochMini (eb mb bias top : Nat) (v : Num) (rho : Nat) : Nat :=
  match clampInf v with
  | .fin s m e =>
    let sign := if s then 2 ^ (eb + mb) else 0
    if m = 0 then sign
    else
      let emin : Int := 1 - (bias : Int) - mb
      let q := max ((Nat.log2 m : Int) + e - mb) emin
      let bits := (q - emin).toNat * 2 ^ mb + stoch m e q rho
      sign + min bits top
  | _ => 0

/-- An FP32 value written to bfloat16 by stochastic rounding (R58): its encoding. -/
def stochBf16 (v : F32) (rho : Nat) : Nat :=
  if isNan32 v then 0x7FC0
  else stochMini 8 7 127 0x7F7F (ofF32 v) rho

/-- An element's encoding for a value already divided by its block's scale, with its draw (R58, R59). A NaN takes the
element's NaN code where the format has one, and encodes zero elsewhere. -/
def stochElem (fmt : Nat) (v : Num) (rho : Nat) : Nat :=
  match fmt with
  | 1 | 3 => if v = .nan then 0x7F else stochMini 4 3 7 0x7E v rho
  | 2 | 4 => if v = .nan then 0x7E else stochMini 5 2 15 0x7B v rho
  | 5 => stochMini 3 2 3 0x1F v rho
  | 6 => stochMini 2 3 1 0x1F v rho
  | 7 => stochMini 2 1 1 0x07 v rho
  | 8 => match clampInf v with
    | .fin s m e =>
      let n := min (stoch m e (-6) rho) 127
      if s && n ≠ 0 then 256 - n else n
    | _ => 0
  | _ => 0

/-- e_max of a Microscaling format (R58). -/
def eMax : Nat → Int
  | 3 => 8 | 4 => 15 | 5 => 4 | 6 => 2 | 7 => 2 | _ => 0

/-- The element format has no NaN code (R58). -/
def noNanCode (fmt : Nat) : Bool := 5 ≤ fmt && fmt ≤ 8

/-- The scale byte and the scaled values of a block of theta_new (R58): a NaN in a format without a NaN code makes the scale
byte 0xFF and every element zero. That the elements of an all-zero block are +0 is the model's choice (log entry 47). -/
def chooseScale (fmt : Nat) (vs : List Num) : Nat × List Num :=
  if noNanCode fmt && vs.any (· = .nan) then (0xFF, vs.map fun _ => Num.zero)
  else
    match maxExp (vs.map clampInf) with
    | none => (0x00, vs.map fun v => if v = .nan then .nan else Num.zero)
    | some top =>
      let ex := max (-127) (min 127 (top - eMax fmt))
      ((ex + 127).toNat, vs.map fun v => match clampInf v with
        | .fin s m e => .fin s m (e - ex)
        | w => w)

/-- Encode elements, each with one draw. -/
def stochList (fmt : Nat) : List Num → Rng → List Nat × Rng
  | [], g => ([], g)
  | v :: vs, g =>
    let d := g.draw
    let r := stochList fmt vs d.2
    (stochElem fmt v d.1 :: r.1, r.2)

/-- Pack element encodings as one stream, lowest bits first (R45). -/
def packElems (fmt : Nat) (ns : List Nat) : List Byte :=
  leBytes (ns.length * elemBits fmt / 8) (ns.foldr (fun n acc => n + acc * 2 ^ elemBits fmt) 0)

/-- bfloat16 elements, each with one draw. -/
def stochBfList : List F32 → Rng → List Byte × Rng
  | [], g => ([], g)
  | v :: vs, g =>
    let d := g.draw
    let r := stochBfList vs d.2
    (leBytes 2 (stochBf16 v d.1) ++ r.1, r.2)

/-- Encodings and scale bytes of the 32-element blocks of a row, the real elements first drawn; `real` counts them. -/
def stochBlocks (fmt : Nat) : (fuel : Nat) → List Num → Rng → List Nat × List Byte × Rng
  | 0, _, g => ([], [], g)
  | n + 1, vs, g =>
    if vs.isEmpty then ([], [], g)
    else
      let sc := chooseScale fmt (vs.take 32)
      let es := stochList fmt sc.2 g
      let r := stochBlocks fmt n (vs.drop 32) es.2
      (es.1 ++ List.replicate (32 - (vs.take 32).length) 0 ++ r.1, BitVec.ofNat 8 sc.1 :: r.2.1, r.2.2)

/-- Write one row of theta_new values in a factor format (R58): the row's real elements, padded with encoded zeros to a
multiple of 32 (R40). The padding draws nothing (R60). -/
def writeRow (fmt : Nat) (vs : List F32) (g : Rng) : List Byte × Rng :=
  let pad := roundUp vs.length 32 - vs.length
  if fmt = 0 then
    let r := stochBfList vs g
    (r.1 ++ List.replicate (2 * pad) 0, r.2)
  else if hasScale fmt then
    let r := stochBlocks fmt vs.length (vs.map ofF32) g
    (packElems fmt r.1 ++ r.2.1, r.2.2)
  else
    let r := stochList fmt (vs.map ofF32) g
    (packElems fmt (r.1 ++ List.replicate pad 0), r.2)

/-- Write rows in turn. -/
def writeRows (fmt : Nat) : List (List F32) → Rng → List Byte × Rng
  | [], g => ([], g)
  | row :: rows, g =>
    let r := writeRow fmt row g
    let rs := writeRows fmt rows r.2
    (r.1 ++ rs.1, rs.2)

/-- FP32 as R58 writes it: a NaN is the canonical one, an infinity the largest finite value of its sign. -/
def writeF32 (v : F32) : F32 := if isNan32 v then nan32 else toF32 (clampInf (ofF32 v))

/-- Write a vector or a state array densely: 0 bfloat16 by stochastic rounding, 1 FP32 (R58, R149). -/
def writeVec (fmt : Nat) (vs : List F32) (g : Rng) : List Byte × Rng :=
  if fmt = 0 then stochBfList vs g else (vs.flatMap fun v => leBytes 4 (writeF32 v).toNat, g)

/-! ### Optimizer steps (R56, R57) -/

/-- The hyperparameters and running products of one adapter's step. -/
structure StepHp where
  hp : HpRec
  b1t : F32
  b2t : F32

/-- FP32 1.0. -/
def one32 : F32 := 0x3F800000

/-- SGD with momentum: the new buffer and theta. -/
def sgdStep (h : HpRec) (g theta buf : F32) : F32 × F32 :=
  let buf := fadd (fmul h.beta1 buf) g
  (buf, fsub theta (fmul h.lr (fadd buf (fmul h.wd theta))))

/-- AdamW: the new m, v and theta; `b1t` and `b2t` are the products after this step. -/
def adamStep (h : HpRec) (b1t b2t : F32) (g theta m v : F32) : F32 × F32 × F32 :=
  let m := fadd (fmul h.beta1 m) (fmul h.omb1 g)
  let v := fadd (fmul h.beta2 v) (fmul h.omb2 (fmul g g))
  let mHat := fdiv m (fsub one32 b1t)
  let vHat := fdiv v (fsub one32 b2t)
  let step := fdiv mHat (fadd (fsqrt vHat) h.eps)
  (m, v, fsub theta (fmul h.lr (fadd step (fmul h.wd theta))))

/-- The norm over all gradient elements of an adapter: the sum of squares in FP32, in any order, then its square root (R56). -/
def gradNorm (ctr : Nat) (gs : List F32) : F32 := fsqrt (addAll ctr 0 (gs.map fun g => fmul g g))

/-- The clipped gradient: multiplied by fl(clip ÷ norm) only when the norm exceeds the threshold; `CLIP` 0 is off (R56, R150). -/
def clipGrad (clip norm g : F32) : F32 :=
  if clip &&& 0x7FFFFFFF ≠ 0 && (ofF32 norm).gt (ofF32 clip) then fmul (fdiv clip norm) g else g

end Sys2Proof.Machine
end

