-- ==== Sys2Proof/Machine/Registers.lean ====
section
/-! DEFINITION. The register window: page map (Table 22.10), the writable registers of every page with their fields, ranges,
owners and reset values (the tables of each chapter), the read-only offsets (Table 22.14), and the checks of R419 that
need no state. -/
namespace Sys2Proof.Machine

/-- The unit of a page (Table 22.10). -/
inductive PageUnit where
  | global | gauger | pace | integrity | repair | logbook | keys | grist | splice | cellar | tiers | homes | kiln | train
  | service | boundary | submitter | tun | splicePort | kilnChannel | memport | fabric
  deriving DecidableEq, Repr

/-- Page indices (Table 22.10). -/
def pgGlobal : Nat := 0x000
def pgGauger : Nat := 0x001
def pgPace : Nat := 0x002
def pgIntegrity : Nat := 0x003
def pgRepair : Nat := 0x004
def pgLogbook : Nat := 0x005
def pgKeys : Nat := 0x006
def pgGrist : Nat := 0x007
def pgSplice : Nat := 0x008
def pgCellar : Nat := 0x009
def pgTiers : Nat := 0x00A
def pgHomes : Nat := 0x00B
def pgKiln : Nat := 0x00C
def pgTrain : Nat := 0x00D
def pgService : Nat := 0x00E
def pgBoundary : Nat := 0x00F
def pgCtx (c : Nat) : Nat := 0x040 + c
def pgTun (t : Nat) : Nat := 0x080 + t
def pgPort (p : Nat) : Nat := 0x100 + p
def pgChan (d : Nat) : Nat := 0x180 + d
def pgMem (p : Nat) : Nat := 0x1A0 + p
def pgFab (p : Nat) : Nat := 0x1C0 + p

/-- The single pages 0x000 to 0x00F in order. -/
def singleUnit : Nat → Option PageUnit
  | 0 => some .global | 1 => some .gauger | 2 => some .pace | 3 => some .integrity | 4 => some .repair
  | 5 => some .logbook | 6 => some .keys | 7 => some .grist | 8 => some .splice | 9 => some .cellar
  | 10 => some .tiers | 11 => some .homes | 12 => some .kiln | 13 => some .train | 14 => some .service
  | 15 => some .boundary | _ => none

/-- Unit and instance of a page index; none when unmapped (R415, R427). -/
def pageUnit (page : Nat) : Option (PageUnit × Nat) :=
  if page < 0x10 then (singleUnit page).map (·, 0)
  else if 0x040 ≤ page ∧ page ≤ 0x07F then some (.submitter, page - 0x040)
  else if 0x080 ≤ page ∧ page ≤ 0x0C3 then some (.tun, page - 0x080)
  else if 0x100 ≤ page ∧ page ≤ 0x17F then some (.splicePort, page - 0x100)
  else if 0x180 ≤ page ∧ page ≤ 0x19F then some (.kilnChannel, page - 0x180)
  else if 0x1A0 ≤ page ∧ page ≤ 0x1BF then some (.memport, page - 0x1A0)
  else if 0x1C0 ≤ page ∧ page ≤ 0x1CF then some (.fabric, page - 0x1C0)
  else none

/-- `UNIT_CLASS` (Table 22.10). -/
def unitClass : PageUnit → Nat
  | .global => 0x00 | .gauger => 0x01 | .pace => 0x02 | .integrity => 0x03 | .repair => 0x04 | .logbook => 0x05
  | .keys => 0x06 | .grist => 0x07 | .splice => 0x08 | .cellar => 0x09 | .tiers => 0x0A | .homes => 0x0B
  | .kiln => 0x0C | .train => 0x0D | .service => 0x0E | .boundary => 0x0F | .submitter => 0x10 | .tun => 0x11
  | .splicePort => 0x12 | .kilnChannel => 0x13 | .memport => 0x14 | .fabric => 0x15

/-- `RWL_OWNER` (Table 22.10): 0 none, 1 fabric manager, 2 maintenance role, 3 split. -/
def rwlOwner : PageUnit → Nat
  | .global | .tiers | .submitter => 3
  | .pace | .integrity | .repair | .logbook | .keys | .kiln | .boundary | .tun => 2
  | .grist | .splice | .cellar | .homes | .train => 1
  | .gauger | .service | .splicePort | .kilnChannel | .memport | .fabric => 0

/-- `CLASS_COUNT`: the event classes of a page (R271, R323, R347, R361, R380, R391, R414, R448, R449, R450, Table 22.9). -/
def classCount : PageUnit → Nat
  | .global => 3 | .gauger => 2 | .pace => 7 | .integrity => 7 | .repair => 4 | .logbook => 4 | .keys => 2
  | .grist => 1 | .splice => 1 | .cellar => 1 | .tiers => 3 | .homes => 2 | .kiln => 2 | .train => 1 | .service => 2
  | .boundary => 3 | .submitter => 4 | .tun => 2 | .splicePort => 1 | .kilnChannel => 1 | .memport => 2 | .fabric => 2

/-- The class number of `WRITE_REFUSED` on a page; the `GAUGER` page has none (R323). -/
def refusedClass : PageUnit → Option Nat
  | .gauger => none
  | .global => some 2 | .pace => some 6 | .integrity => some 6 | .repair => some 3 | .logbook => some 3 | .keys => some 1
  | .submitter => some 3
  | _ => some 0

/-- Who may write a register's fields: any tag (`RW`, `WO`), or one role (`RWL`, and the `WO` fields of `KEYS`). -/
inductive Owner where
  | any | only (r : Role)
  deriving DecidableEq, Repr

/-- A field of a writable register: its place, its reset value, its range (values from `lo` to `hi`, multiples of `step`).
A read-only field beside writable ones has `ro`; a command field reads zero once taken (`cmd`). -/
structure RegField where
  bit : Nat
  width : Nat
  reset : Nat := 0
  lo : Nat := 0
  hi : Nat := 2 ^ width - 1
  step : Nat := 1
  ro : Bool := false
  cmd : Bool := false
  deriving DecidableEq, Repr

/-- A writable register. -/
structure RegSpec where
  off : Nat
  owner : Owner
  fields : List RegField
  deriving DecidableEq, Repr

/-- Owners of the chapters. -/
def fab : Owner := .only .fabric
def mnt : Owner := .only .maint

/-- Writable registers of the `GLOBAL` page (Table 22.11). -/
def regsGlobal : List RegSpec :=
  [⟨0x090, mnt, [⟨0, 2, 0, 0, 2, 1, false, true⟩]⟩,
   ⟨0x098, fab, [⟨0, 1, 0, 0, 1, 1, false, false⟩]⟩,
   ⟨0x0B8, .any, [⟨0, 16, 0, 0, 65535, 1, false, false⟩]⟩,
   ⟨0x0C0, fab, [⟨24, 2, 0, 0, 2, 1, false, true⟩, ⟨16, 2, 0, 0, 3, 1, false, false⟩, ⟨0, 12, 0, 0, 4095, 1, false, false⟩]⟩,
   ⟨0x0C8, fab, [⟨0, 64, 0, 0, 2 ^ 64 - 1, 1, false, true⟩]⟩]

/-- Writable registers of the `PACE` page (Tables 18.6 to 18.13). -/
def regsPace : List RegSpec :=
  [⟨0x080, mnt, [⟨32, 8, 0x0A, 1, 100, 1, false, false⟩, ⟨0, 10, 0x2EE, 550, 850, 5, false, false⟩]⟩,
   ⟨0x088, mnt, [⟨16, 16, 0x64, 10, 10000, 1, false, false⟩, ⟨8, 8, 0x5A, 40, 180, 1, false, false⟩,
     ⟨0, 8, 0xB4, 40, 180, 1, false, false⟩]⟩,
   ⟨0x090, mnt, [⟨32, 16, 0, 0, 1000, 1, false, false⟩, ⟨0, 32, 0x61A8, 2000, 1000000, 1, false, false⟩]⟩,
   ⟨0x098, mnt, [⟨0, 8, 0x5F, 70, 104, 1, false, false⟩]⟩,
   ⟨0x0B8, mnt, [⟨32, 32, 0, 0, 0, 1, true, false⟩, ⟨8, 3, 0, 0, 0, 1, true, false⟩, ⟨0, 7, 0, 0, 71, 1, false, false⟩]⟩]

/-- Writable registers of the `INTEGRITY` page (Tables 16.7 to 16.11). -/
def regsIntegrity : List RegSpec :=
  [⟨0x080, mnt, [⟨32, 32, 0x7D0, 100, 100000, 1, false, false⟩, ⟨0, 32, 0x96, 10, 10000, 1, false, false⟩]⟩,
   ⟨0x088, mnt, [⟨32, 32, 0x61A80, 10000, 4000000, 1, false, false⟩, ⟨0, 32, 0x4E20, 1000, 1000000, 1, false, false⟩]⟩,
   ⟨0x090, mnt, [⟨32, 32, 0xDBBA0, 100000, 10000000, 1, false, false⟩, ⟨0, 32, 0x3D090, 10000, 4000000, 1, false, false⟩]⟩,
   ⟨0x098, mnt, [⟨16, 16, 0x14, 5, 1000, 1, false, false⟩, ⟨8, 8, 2, 1, 15, 1, false, false⟩, ⟨0, 8, 3, 1, 15, 1, false, false⟩]⟩,
   ⟨0x0A0, mnt, [⟨32, 16, 0, 0, 0, 1, true, false⟩, ⟨16, 1, 0, 0, 0, 1, true, false⟩, ⟨8, 8, 0, 0, 0, 1, true, false⟩,
     ⟨0, 1, 1, 0, 1, 1, false, false⟩]⟩]

/-- Writable registers of the `REPAIR` page (Tables 17.11 to 17.16). -/
def regsRepair : List RegSpec :=
  [⟨0x088, mnt, [⟨32, 2, 0, 0, 1, 1, false, true⟩, ⟨10, 2, 0, 0, 3, 1, false, false⟩, ⟨0, 10, 0, 0, 1023, 1, false, false⟩]⟩,
   ⟨0x090, mnt, [⟨0, 6, 4, 2, 16, 1, false, false⟩]⟩,
   ⟨0x0A0, mnt, [⟨32, 32, 0, 0, 0, 1, true, false⟩, ⟨8, 5, 0, 0, 0, 1, true, false⟩, ⟨0, 8, 0, 0, 0xFE, 1, false, false⟩]⟩,
   ⟨0x0A8, mnt, [⟨0, 64, 0, 0, 2 ^ 64 - 1, 64, false, false⟩]⟩,
   ⟨0x0B0, mnt, [⟨48, 3, 0, 0, 0, 1, true, false⟩, ⟨40, 8, 0, 0, 0, 1, true, false⟩, ⟨39, 1, 0, 0, 0, 1, true, false⟩,
     ⟨32, 2, 0, 0, 2, 1, false, true⟩, ⟨0, 32, 0, 4096, 2097152, 64, false, false⟩]⟩]

/-- Writable registers of the `LOGBOOK` page (Tables 19.7 and 19.10). -/
def regsLogbook : List RegSpec :=
  [⟨0x098, mnt, [⟨19, 1, 0, 0, 1, 1, false, false⟩, ⟨0, 18, 0, 0, 258047, 1, false, false⟩]⟩,
   ⟨0x0E8, mnt, [⟨0, 64, 0, 0, 2 ^ 64 - 1, 1, false, false⟩]⟩]

/-- `KEY_IN0` to `KEY_IN17` (Table 21.6): they read zero. -/
def keyInRegs : List RegSpec :=
  (List.range 18).map fun n => ⟨0x0E8 + 8 * n, mnt, [⟨0, 64, 0, 0, 2 ^ 64 - 1, 1, false, true⟩]⟩

/-- Writable registers of the `KEYS` page (Tables 21.6 to 21.9). -/
def regsKeys : List RegSpec :=
  keyInRegs ++
  [⟨0x178, mnt, [⟨24, 8, 0, 0, 95, 1, false, false⟩, ⟨23, 1, 0, 0, 1, 1, false, false⟩, ⟨8, 12, 0, 0, 4095, 1, false, false⟩,
     ⟨0, 2, 0, 0, 3, 1, false, true⟩]⟩,
   ⟨0x180, mnt, [⟨8, 1, 0, 0, 1, 1, false, false⟩, ⟨0, 8, 0, 0, 95, 1, false, false⟩]⟩,
   ⟨0x190, mnt, [⟨0, 12, 0, 0, 4095, 1, false, false⟩]⟩,
   ⟨0x198, mnt, [⟨0, 64, 0, 0, 2 ^ 64 - 1, 1, false, true⟩]⟩,
   ⟨0x1A0, mnt, [⟨0, 64, 0, 0, 2 ^ 64 - 1, 1, false, true⟩]⟩]

/-- Writable registers of the `GRIST` page (Tables 4.7 to 4.9). -/
def regsGrist : List RegSpec :=
  [⟨0x080, fab, [⟨0, 16, 0, 0, 65535, 1, false, false⟩]⟩,
   ⟨0x088, fab, [⟨0, 21, 0x4000, 1024, 1048576, 1, false, false⟩]⟩,
   ⟨0x090, fab, [⟨0, 10, 0x40, 0, 512, 1, false, false⟩]⟩]

/-- Writable registers of the `SPLICE` page (Tables 6.9 and 6.12). -/
def regsSplice : List RegSpec :=
  [⟨0x080, fab, [⟨6, 1, 0, 0, 1, 1, false, false⟩, ⟨0, 6, 0, 0, 63, 1, false, false⟩]⟩,
   ⟨0x098, fab, [⟨0, 13, 0x200, 64, 4096, 1, false, false⟩]⟩]

/-- Writable registers of the `CELLAR` page (Tables 8.7, 8.8, 8.15, 8.16). -/
def regsCellar : List RegSpec :=
  [⟨0x080, fab, [⟨32, 12, 0x800, 0, 4095, 1, false, false⟩, ⟨16, 12, 0x100, 0, 1024, 1, false, false⟩,
     ⟨0, 12, 0x200, 0, 2048, 1, false, false⟩]⟩,
   ⟨0x088, fab, [⟨16, 1, 1, 0, 1, 1, false, false⟩, ⟨0, 16, 0x64, 1, 65535, 1, false, false⟩]⟩,
   ⟨0x0C0, fab, [⟨0, 16, 0xE10, 60, 65535, 1, false, false⟩]⟩,
   ⟨0x0C8, fab, [⟨0, 12, 0, 0, 4095, 1, false, false⟩]⟩]

/-- The tier address, chip address and control registers of one window (Tables 9.13 to 9.15). -/
def regsWindow (off : Nat) (o : Owner) : List RegSpec :=
  [⟨off, o, [⟨60, 4, 0, 1, 4, 1, false, false⟩, ⟨52, 3, 0, 0, 7, 1, false, false⟩, ⟨0, 48, 0, 0, 2 ^ 48 - 1, 64, false, false⟩]⟩,
   ⟨off + 8, o, [⟨0, 64, 0, 0, 2 ^ 64 - 1, 64, false, false⟩]⟩,
   ⟨off + 16, o, [⟨40, 8, 0, 0, 0, 1, true, false⟩, ⟨39, 1, 0, 0, 0, 1, true, false⟩, ⟨32, 2, 0, 0, 3, 1, false, true⟩,
     ⟨0, 32, 0, 64, 2147483648, 64, false, false⟩]⟩]

/-- Writable registers of the `TIERS` page (Tables 9.9 to 9.15). -/
def regsTiers : List RegSpec :=
  [⟨0x080, fab, [⟨12, 52, 0, 0, 2 ^ 52 - 1, 1, false, false⟩]⟩,
   ⟨0x088, fab, [⟨0, 11, 0, 2, 1024, 1, false, false⟩]⟩,
   ⟨0x098, mnt, [⟨48, 16, 0, 0, 0, 1, true, false⟩, ⟨32, 16, 0, 0, 0, 1, true, false⟩, ⟨24, 8, 0, 0, 0, 1, true, false⟩,
     ⟨8, 1, 0, 0, 1, 1, false, false⟩, ⟨0, 1, 0, 0, 0, 1, true, false⟩]⟩] ++
  regsWindow 0x0A0 fab ++ regsWindow 0x0B8 mnt

/-- Writable registers of the `HOMES` page (Tables 10.9 to 10.12). -/
def regsHomes : List RegSpec :=
  [⟨0x080, fab, [⟨8, 7, 1, 1, 96, 1, false, false⟩, ⟨0, 7, 0, 0, 127, 1, false, false⟩]⟩,
   ⟨0x088, fab, [⟨0, 12, 0, 0, 4095, 1, false, false⟩]⟩,
   ⟨0x090, fab, [⟨32, 32, 0, 0, 0, 1, true, false⟩, ⟨0, 7, 0, 0, 127, 1, false, false⟩]⟩,
   ⟨0x098, fab, [⟨32, 1, 1, 0, 1, 1, false, false⟩, ⟨16, 16, 0x3E8, 1, 65535, 1, false, false⟩,
     ⟨0, 16, 0x7D0, 100, 65535, 1, false, false⟩]⟩]

/-- Writable registers of the `KILN` page (Tables 11.5, 11.6, 11.9, 11.10). -/
def regsKiln : List RegSpec :=
  [⟨0x090, mnt, [⟨48, 16, 0x100, 64, 4096, 1, false, false⟩, ⟨32, 8, 0x14, 1, 45, 1, false, false⟩,
     ⟨16, 16, 0xC8, 16, 4000, 1, false, false⟩, ⟨0, 16, 0x100, 0, 4096, 1, false, false⟩]⟩,
   ⟨0x098, mnt, [⟨0, 32, 0x186A0, 10000, 1000000, 1, false, false⟩]⟩,
   ⟨0x0B8, mnt, [⟨8, 5, 0, 0, 31, 1, false, false⟩, ⟨0, 2, 0, 0, 2, 1, false, true⟩]⟩,
   ⟨0x0C0, mnt, [⟨32, 8, 3, 1, 3, 1, false, false⟩, ⟨24, 8, 0, 0, 255, 1, false, false⟩, ⟨16, 8, 0, 0, 255, 1, false, false⟩,
     ⟨8, 8, 0, 0, 255, 1, false, false⟩, ⟨0, 8, 0, 0, 255, 1, false, false⟩]⟩]

/-- Writable registers of the `TRAIN` page (Tables 7.8, 7.9, 7.11 to 7.13). -/
def regsTrain : List RegSpec :=
  [⟨0x080, fab, [⟨0, 8, 4, 0, 255, 1, false, false⟩]⟩,
   ⟨0x088, fab, [⟨0, 13, 0x400, 0, 4096, 1, false, false⟩]⟩,
   ⟨0x098, fab, [⟨0, 12, 0x100, 128, 2048, 1, false, false⟩]⟩,
   ⟨0x0A0, fab, [⟨12, 2, 0, 0, 2, 1, false, true⟩, ⟨0, 12, 0, 0, 4095, 1, false, false⟩]⟩,
   ⟨0x0A8, fab, [⟨0, 64, 0, 0, 2 ^ 64 - 1, 1, false, false⟩]⟩,
   ⟨0x0B0, fab, [⟨0, 64, 0, 0, 2 ^ 64 - 1, 1, false, false⟩]⟩,
   ⟨0x0B8, fab, [⟨0, 64, 0, 0, 2 ^ 64 - 1, 1, false, false⟩]⟩,
   ⟨0x0C0, fab, [⟨0, 64, 0, 0, 2 ^ 64 - 1, 1, false, false⟩]⟩]

/-- Writable registers of a `SUBMITTER` page (Tables 12.6 to 12.14, 9.6). -/
def regsSubmitter : List RegSpec :=
  [⟨0x080, .any, [⟨0, 2, 0, 0, 2, 1, false, true⟩]⟩,
   ⟨0x090, .any, [⟨12, 52, 0, 0, 2 ^ 52 - 1, 1, false, false⟩]⟩,
   ⟨0x098, .any, [⟨12, 52, 0, 0, 2 ^ 52 - 1, 1, false, false⟩]⟩,
   ⟨0x0A0, .any, [⟨16, 16, 0, 0, 65535, 1, false, false⟩, ⟨8, 5, 6, 6, 16, 1, false, false⟩, ⟨0, 5, 6, 6, 16, 1, false, false⟩]⟩,
   ⟨0x0A8, .any, [⟨0, 32, 0, 0, 2 ^ 32 - 1, 1, false, false⟩]⟩,
   ⟨0x0C0, .any, [⟨0, 32, 0, 0, 2 ^ 32 - 1, 1, false, false⟩]⟩,
   ⟨0x0C8, fab, [⟨0, 6, 0, 0, 63, 1, false, false⟩]⟩,
   ⟨0x0D0, fab, [⟨0, 64, 0, 0, 2 ^ 64 - 1, 1, false, false⟩]⟩,
   ⟨0x0D8, fab, [⟨32, 32, 0, 0, 0, 1, true, false⟩, ⟨0, 32, 0x1000, 0, 1048576, 1, false, false⟩]⟩,
   ⟨0x0E0, fab, [⟨40, 7, 8, 0, 64, 1, false, false⟩, ⟨24, 9, 0x20, 0, 256, 1, false, false⟩,
     ⟨0, 17, 0x400, 0, 65536, 1, false, false⟩]⟩,
   ⟨0x100, .any, [⟨16, 16, 0x14, 0, 65535, 1, false, false⟩, ⟨2, 2, 1, 0, 2, 1, false, false⟩, ⟨0, 2, 0, 0, 2, 1, false, false⟩]⟩]

/-- Writable registers of a `TUN` page (Table 5.6). -/
def regsTun : List RegSpec := [⟨0x088, mnt, [⟨0, 2, 0, 0, 2, 1, false, true⟩]⟩]

/-- The writable unit registers of a page. -/
def unitRegs : PageUnit → List RegSpec
  | .global => regsGlobal | .pace => regsPace | .integrity => regsIntegrity | .repair => regsRepair
  | .logbook => regsLogbook | .keys => regsKeys | .grist => regsGrist | .splice => regsSplice | .cellar => regsCellar
  | .tiers => regsTiers | .homes => regsHomes | .kiln => regsKiln | .train => regsTrain | .submitter => regsSubmitter
  | .tun => regsTun
  | .gauger | .service | .boundary | .splicePort | .kilnChannel | .memport | .fabric => []

/-- The writable header registers of a page (Tables 22.2, 22.5, 22.7, 22.8): `PAGE_CTRL`, `EVENT_ACK`, `EVENT_MASK` up to its
`CLASS_COUNT` (R422), and `PAGE_LOCK` on `SUBMITTER` pages (R423, whose tag rule is `lockPermission`). -/
def headerRegs (u : PageUnit) : List RegSpec :=
  [⟨0x010, .any, [⟨0, 1, 0, 0, 1, 1, false, false⟩]⟩,
   ⟨0x028, .any, [⟨0, 64, 0, 0, 2 ^ 64 - 1, 1, false, false⟩]⟩,
   ⟨0x038, .any, [⟨0, classCount u, 0, 0, 2 ^ classCount u - 1, 1, false, false⟩]⟩] ++
  if u = .submitter then [⟨0x058, .any, [⟨4, 2, 0, 0, 0, 1, true, false⟩, ⟨0, 2, 0, 0, 2, 1, false, false⟩]⟩] else []

/-- The writable register at an offset of a unit's pages. -/
def regSpec (u : PageUnit) (off : Nat) : Option RegSpec :=
  (headerRegs u ++ unitRegs u).find? fun r => r.off = off

/-- A field of a register's value. -/
def fld (w : Word64) (bit width : Nat) : Nat := w.toNat / 2 ^ bit % 2 ^ width

/-- Place a number in a field. -/
def atBit (bit v : Nat) : Nat := v * 2 ^ bit

/-- The value that the fields give together; places outside are zero. -/
def packFields (fs : List RegField) (f : RegField → Nat) : Word64 :=
  BitVec.ofNat 64 (fs.foldl (fun n x => n + atBit x.bit (f x)) 0)

/-- The reset value of a writable register: its fields' reset values. -/
def RegSpec.resetValue (r : RegSpec) : Word64 := packFields r.fields (·.reset)

/-- Bits that some field of the register covers, read-only fields included. -/
def RegSpec.mask (r : RegSpec) : Word64 := packFields r.fields fun x => 2 ^ x.width - 1

/-- What a write stores: writable fields take the written value, command fields and read-only fields hold zero. -/
def RegSpec.stored (r : RegSpec) (v : Word64) : Word64 :=
  packFields r.fields fun x => if x.ro || x.cmd then 0 else fld v x.bit x.width

/-- Every writable field lies in its range. -/
def RegSpec.inRange (r : RegSpec) (v : Word64) : Bool :=
  r.fields.all fun x =>
    x.ro || (x.lo ≤ fld v x.bit x.width && fld v x.bit x.width ≤ x.hi && fld v x.bit x.width % x.step = 0)

/-- The window address of a register, by which `regs` keys it. -/
def regAddr (page off : Nat) : Nat := page * 0x1000 + off

/-- The reset value of the register at a window address. -/
def regReset (addr : Nat) : Word64 :=
  match pageUnit (addr / 0x1000) with
  | none => 0
  | some (u, _) => match regSpec u (addr % 0x1000) with
    | none => 0
    | some r => r.resetValue

/-- The stored value of a writable register. -/
def reg (s : State) (page off : Nat) : Word64 := tget (regReset (regAddr page off)) s.regs (regAddr page off)

/-- A field of a writable register. -/
def regFld (s : State) (page off bit width : Nat) : Nat := fld (reg s page off) bit width

/-- Store a register's value. -/
def setReg (s : State) (page off : Nat) (v : Word64) : State :=
  { s with regs := tset (regReset (regAddr page off)) s.regs (regAddr page off) v }

/-- Status codes (Table 13.6). -/
def stDone : Nat := 0x00
def stBadOpcode : Nat := 0x01
def stBadField : Nat := 0x02
def stBadState : Nat := 0x03
def stNoPermission : Nat := 0x04
def stQuota : Nat := 0x05
def stNoSpace : Nat := 0x06
def stUnknownAdapter : Nat := 0x07
def stBaseMismatch : Nat := 0x08
def stStaleVersion : Nat := 0x09
def stCancelled : Nat := 0x0A
def stTooLarge : Nat := 0x0B
def stOrder : Nat := 0x0C
def stPurged : Nat := 0x0D

/-- The 2-bit role tag (R417). -/
def roleCode : Role → Nat
  | .ordinary => 0 | .fabric => 1 | .maint => 2 | .bad => 3

/-- A role may write the fields of an owner. -/
def Owner.allows : Owner → Role → Bool
  | .any, r => r != .bad
  | .only o, r => r = o && r != .bad

/-- Tags that may write a value of `CTX_ROLE` (R423). -/
def lockPermission (role : Role) (v : Word64) : Bool :=
  match role with
  | .fabric => fld v 0 2 = 0 || fld v 0 2 = 1
  | .maint => fld v 0 2 = 0 || fld v 0 2 = 2
  | _ => false

/-- The ranges of fields that depend on another field of the same register: `SELF_PEER` below `RACK_SIZE` (Table 10.9), and
`LOG_INDEX` by area (R391). -/
def crossRange (u : PageUnit) (off : Nat) (v : Word64) : Bool :=
  match u with
  | .homes => off != 0x080 || fld v 0 7 < fld v 8 7
  | .logbook => off != 0x098 || fld v 19 1 = 0 || fld v 0 18 < 4096
  | _ => true

/-- Steps 1 and 2 of R419, which need no state: none when both pass. -/
def staticRefusal (page off : Nat) (v : Word64) (role : Role) : Option Nat :=
  match pageUnit page with
  | none => some stBadField
  | some (u, _) =>
    match regSpec u off with
    | none => some stBadField
    | some r =>
      if v &&& ~~~ r.mask ≠ 0 then some stBadField
      else if !r.inRange v || !crossRange u off v then some stBadField
      else if !r.owner.allows role then some stNoPermission
      else if u = .submitter && off = 0x058 && !lockPermission role v then some stNoPermission
      else none

/-- Offsets of the read-only unit registers of a page (Table 22.14). -/
def readOnlyOffs : PageUnit → List Nat
  | .global => [0x080, 0x088, 0x0A0, 0x0A8, 0x0B0]
  | .gauger => [0x080, 0x088, 0x090, 0x098]
  | .pace => [0x0A0, 0x0A8, 0x0B0]
  | .integrity => [0x0A8, 0x0B0, 0x0B8, 0x0C0, 0x0C8]
  | .repair => [0x080, 0x098, 0x0B8]
  | .logbook => [0x080, 0x088, 0x090, 0x0A0, 0x0A8, 0x0B0, 0x0B8, 0x0C0, 0x0C8, 0x0D0, 0x0D8, 0x0E0, 0x0F0]
  | .keys => [0x080, 0x088, 0x090, 0x098, 0x0A0, 0x0A8, 0x0B0, 0x0B8, 0x0C0, 0x0C8, 0x0D0, 0x0D8, 0x0E0, 0x188, 0x1A8]
  | .grist => [0x098, 0x0A0, 0x0A8, 0x0B0]
  | .splice => [0x088, 0x090, 0x0A0]
  | .cellar => [0x090, 0x098, 0x0A0, 0x0A8, 0x0B0, 0x0B8, 0x0D0, 0x0D8, 0x0E0, 0x0E8, 0x0F0, 0x0F8, 0x100, 0x108]
  | .tiers => [0x090, 0x0D0, 0x0D8, 0x0E0]
  | .homes => [0x0A0, 0x0A8, 0x0B0, 0x0B8, 0x0C0, 0x0C8, 0x0D0]
  | .kiln => [0x080, 0x088, 0x0A0, 0x0A8, 0x0B0]
  | .train => [0x090, 0x0C8, 0x0D0]
  | .service => [0x080, 0x088, 0x090]
  | .boundary => [0x080, 0x088, 0x090, 0x098, 0x0A0, 0x0A8]
  | .submitter => [0x088, 0x0B0, 0x0B8, 0x0E8, 0x0F0]
  | .tun => [0x080, 0x090, 0x098, 0x0A0, 0x0A8]
  | .splicePort => [0x080, 0x088, 0x090, 0x098, 0x0A0]
  | .kilnChannel => [0x080, 0x088, 0x090]
  | .memport | .fabric => [0x080, 0x088, 0x090, 0x098]

/-- `UNIT_END`: the offset just past a page's last register (Table 22.4, R431). -/
def unitEnd (u : PageUnit) : Nat :=
  (readOnlyOffs u ++ (unitRegs u).map (·.off)).foldl (fun m o => max m (o + 8)) 0x080

end Sys2Proof.Machine
end

