-- ==== Sys2Proof/Machine/Ops.lean ====
section
/-! DEFINITION. The named operations that the meanings share: the gauger's stamp, event classes and interrupt outputs, log book
records, refused and accepted register writes, faults and recovery levels, chip-memory transfers, completion records, and
the outcome of a command. -/
namespace Sys2Proof.Machine

/-! ### Parts of the state -/

/-- The context `c`. -/
def State.ctx (s : State) (c : Nat) : Ctx := tget {} s.ctxs c

/-- Replace the context `c`. -/
def setCtx (s : State) (c : Nat) (x : Ctx) : State := { s with ctxs := tset {} s.ctxs c x }

/-- Change the context `c`. -/
def modCtx (s : State) (c : Nat) (f : Ctx → Ctx) : State := setCtx s c (f (s.ctx c))

/-- The header of a page. -/
def State.page (s : State) (p : Nat) : PageHdr := tget {} s.pages p

/-- The physical tun `t`. -/
def State.tun (s : State) (t : Nat) : Tun := tget {} s.tuns t

/-- Replace the physical tun `t`. -/
def setTun (s : State) (t : Nat) (x : Tun) : State := { s with tuns := tset {} s.tuns t x }

/-- Change the physical tun `t`. -/
def modTun (s : State) (t : Nat) (f : Tun → Tun) : State := setTun s t (f (s.tun t))

/-- The splice port `p`. -/
def State.port (s : State) (p : Nat) : Port := tget {} s.ports p

/-- Change the splice port `p`. -/
def modPort (s : State) (p : Nat) (f : Port → Port) : State := { s with ports := tmod {} s.ports p f }

/-- The cask at index `i`. -/
def State.cask (s : State) (i : Nat) : Cask := tget {} s.cellar.casks i

/-- Change the cask at index `i`. -/
def modCask (s : State) (i : Nat) (f : Cask → Cask) : State :=
  { s with cellar := { s.cellar with casks := tmod {} s.cellar.casks i f } }

/-- The gyle of a name. -/
def State.gyle (s : State) (k : GyleKey) : Option Gyle := s.gyles.find? fun g => g.key = k

/-- Replace the gyle that has the name of `g`, or add it. -/
def putGyle : List Gyle → Gyle → List Gyle
  | [], g => [g]
  | h :: t, g => if h.key = g.key then g :: t else h :: putGyle t g

/-- Store a gyle. -/
def setGyle (s : State) (g : Gyle) : State := { s with gyles := putGyle s.gyles g }

/-- Change the gyle of a name, where it exists. -/
def modGyle (s : State) (k : GyleKey) (f : Gyle → Gyle) : State :=
  match s.gyle k with
  | some g => setGyle s { f g with key := g.key }
  | none => s

/-- Remove a gyle. -/
def dropGyle (s : State) (k : GyleKey) : State := { s with gyles := s.gyles.filter fun g => g.key ≠ k }

/-- The name of gyle `n` of context `c`. -/
def ownGyle (c n : Nat) : GyleKey := { far := false, owner := c, num := n }

/-- Is the domain of Table 23.1 present? -/
def domainPresent (s : State) (d : Nat) : Bool := tget false s.boundary.domainOk d

/-- A cellar core pair restarts or takes new firmware: its services wait (Table 16.2, R360). -/
def pairAway (s : State) (p : Nat) : Bool :=
  tget .down s.repair.pairs p = .restarting || tget .down s.repair.pairs p = .activating

/-! ### Free values -/

/-- A word of the block's random source (log entry 3). -/
def drawWord (s : State) : Word64 := Config.freeWord s.freeCtr

/-- A choice that the spec leaves open (log entry 10). -/
def drawChoice (s : State) : Nat := Config.freeChoice s.freeCtr

/-- The draw is used up. -/
def bumpFree (s : State) : State := { s with freeCtr := s.freeCtr + 1 }

/-! ### Log book queue -/

/-- Event codes (Table 19.2). -/
def evSeqReserve : Nat := 0x0001
def evStart : Nat := 0x0002
def evCalLost : Nat := 0x0003
def evCalRegained : Nat := 0x0004
def evMark : Nat := 0x0010
def evFaultDetect : Nat := 0x0100
def evFaultLevel : Nat := 0x0101
def evCtxFaulted : Nat := 0x0102
def evFaultRepeat : Nat := 0x0103
def evBeatDiscard : Nat := 0x0200
def evMsgDrop : Nat := 0x0201
def evCellarUncorr : Nat := 0x0300
def evSpareRowNone : Nat := 0x0301
def evTensorLost : Nat := 0x0302
def evUpdateLost : Nat := 0x0303
def evPinDeleted : Nat := 0x0400
def evSagPersist : Nat := 0x0500
def evMapRecordBad : Nat := 0x0600
def evFwRestart : Nat := 0x0601
def evRecordsDropped : Nat := 0x0700
def evFfCleared : Nat := 0x0701

/-- The record's code is marked for the first-fault area (Table 19.2); `EV_FAULT_LEVEL` only for level 7. -/
def LogRec.firstFault (r : LogRec) : Bool :=
  r.code = evFaultDetect || (r.code = evFaultLevel && r.payload.head? = some 7) || r.code = evTensorLost ||
    r.code = evUpdateLost

/-- The part of the queue open to a record: 256 of its 4,096 entries are kept for first-fault codes (R388). -/
def LogRec.queueLimit (r : LogRec) : Nat := if r.firstFault then 4096 else 3840

/-- Queue a record, or count it dropped (R388). -/
def LogBook.push (lb : LogBook) (r : LogRec) : LogBook :=
  if lb.queue.length < r.queueLimit then { lb with queue := lb.queue ++ [r] }
  else { lb with
    drops := sat 32 (lb.drops + 1), dropCount := lb.dropCount + 1,
    dropFirst := if lb.dropCount = 0 then r.seq else lb.dropFirst, dropLast := r.seq }

/-! ### Event classes and interrupt outputs -/

/-- Bit n set: class n of a page is pending (R316). -/
def PageHdr.pend (h : PageHdr) : Word64 :=
  BitVec.ofNat 64 (h.classSeq.foldl (fun n e => if h.ack < e.2 then n ||| 2 ^ e.1 else n) 0)

/-- `EVENT_SEQ`: the greatest sequence of any class (R316). -/
def PageHdr.eventSeq (h : PageHdr) : Seq := h.classSeq.foldl (fun n e => max n e.2) 0

/-- Some class of the page is pending and not masked. -/
def PageHdr.active (h : PageHdr) : Bool := h.pend &&& ~~~ h.mask ≠ 0

/-- The interrupt output and its holdoff after a change of what drives it: once the output deasserts, it stays off while a
holdoff runs (R271, R424). -/
def PageHdr.drive (h : PageHdr) (level : Bool) (hold : Nat) : PageHdr :=
  let on := level && !h.holdoff
  { h with irq := on, holdoff := h.holdoff || (h.irq && !on && hold ≠ 0) }

/-- Is the page a `SUBMITTER` page? -/
def isCtxPage (page : Nat) : Bool := 0x040 ≤ page && page ≤ 0x07F

/-- Some page other than a `SUBMITTER` page has a class that is pending and not masked (R424). -/
def globalLevel (pages : Tab PageHdr) : Bool := pages.any fun e => !isCtxPage e.1 && e.2.active

/-- The pages after the classes, `EVENT_ACK` or `EVENT_MASK` of a page changed: its interrupt output follows. -/
def drivePage (s : State) (pages : Tab PageHdr) (page : Nat) : Tab PageHdr :=
  if isCtxPage page then
    tmod {} pages page fun h => h.drive h.active (regFld s page 0x0A0 16 16)
  else
    tmod {} pages pgGlobal fun h => h.drive (globalLevel pages) (regFld s pgGlobal 0x0B8 0 16)

/-- Raise a class of a page at a sequence: the class keeps the sequence of its latest event (R316). -/
def raiseAt (s : State) (page cls : Nat) (seq : Seq) : State :=
  { s with pages := drivePage s (tmod {} s.pages page fun h => { h with classSeq := tset 0 h.classSeq cls (max seq (tget 0 h.classSeq cls)) }) page }

/-- Raise a class of a page at the present event's sequence. -/
def raise (s : State) (page cls : Nat) : State := raiseAt s page cls s.gauger.seq

/-- Append a record to the log writer's queue under a sequence; a drop raises `LOG_DROPPED` (R388, R391). -/
def logAt (s : State) (seq : Seq) (page code : Nat) (tenant submitter : Option Nat) (fid : Seq) (payload : List Byte) : State :=
  let r : LogRec := { seq, powerOn := s.log.powerOnCount, page, code, tenant, submitter, faultId := fid, payload }
  let s' := { s with log := s.log.push r }
  if s.log.queue.length < r.queueLimit then s' else raiseAt s' pgLogbook 1 seq

/-- Append a record of the present event. -/
def logNow (s : State) (page code : Nat) (tenant submitter : Option Nat) (fid : Seq) (payload : List Byte) : State :=
  logAt s s.gauger.seq page code tenant submitter fid payload

/-! ### Records in MRAM -/

/-- Exactly `n` bytes: cut, or padded with zeros. -/
def padTo (n : Nat) (bs : List Byte) : List Byte := (bs ++ List.replicate n 0).take n

/-- First 60 bytes of a record (Table 19.1). -/
def recordBody (r : LogRec) : List Byte :=
  leBytes 8 r.seq ++ leBytes 4 r.powerOn ++ leBytes 2 r.page ++ leBytes 2 r.code ++
    leBytes 2 (match r.tenant with
      | some t => t % 4096 + 2 ^ 15
      | none => 0) ++
    leBytes 1 (match r.submitter with
      | some c => c % 64 + 2 ^ 7
      | none => 0) ++ [0] ++ leBytes 8 r.faultId ++ padTo 32 r.payload

/-- A record as MRAM holds it (Table 19.1). -/
def recordBytes (r : LogRec) : List Byte := recordBody r ++ leBytes 4 (crc32c (recordBody r))

/-- Records of the first-fault area and of the ring (R381). -/
def ffSize : Nat := 4096
def ringSize : Nat := 258048

/-- Both copies of an index are written, in the banks in use (R383). -/
def LogBook.store (lb : LogBook) (index : Nat) (bs : List Byte) : LogBook :=
  { lb with
    bank0 := if lb.bank0Ok then tset [] lb.bank0 index bs else lb.bank0
    bank1 := if lb.bank1Ok then tset [] lb.bank1 index bs else lb.bank1 }

/-- A record takes its place in the ring and, while the first-fault area has room, a marked one in that area (R382). -/
def LogBook.append (lb : LogBook) (r : LogRec) : LogBook :=
  let n := lb.ringNext
  let lb := { lb with ringNext := (n + 1) % ringSize, appends := lb.appends + 1, newestSeq := r.seq }
  let lb := lb.store (ffSize + n) (recordBytes r)
  if !r.firstFault then lb
  else if lb.ffUsed < ffSize then
    let i := lb.ffUsed
    { lb with ffUsed := i + 1, ffNewest := r.seq }.store i (recordBytes r)
  else { lb with ffFullRaised := true }

/-- What the queue must keep while a clear of the first-fault area runs (R387). -/
def LogBook.mustWait (lb : LogBook) (r : LogRec) : Bool := r.firstFault && lb.clearing

/-- The reservation of a block of sequences is appended before anything is stamped in the block (R313): the records that wait go before
it, since `LOG_SEQ` rises in the ring (R382; log entry 13). -/
def reserveBlock (s : State) (b : Nat) : State :=
  let r : LogRec := { seq := b * 2 ^ 32, powerOn := s.log.powerOnCount, page := pgGauger, code := evSeqReserve, payload := leBytes 4 b }
  let lb := (s.log.queue.filter fun q => !s.log.mustWait q).foldl LogBook.append s.log
  let lb := { lb.append r with queue := s.log.queue.filter s.log.mustWait, reservedBlock := b }
  let t := { s with log := lb, gauger := { s.gauger with seq := b * 2 ^ 32 } }
  if lb.ffFullRaised && !s.log.ffFullRaised then raiseAt t pgLogbook 0 (b * 2 ^ 32) else t

/-- The gauger stamps the next event (R312). On entering a block of 2^32 sequences it first appends the reservation record,
which takes the block's first sequence (R313; log entry 13). -/
def stamp (s : State) : State :=
  let n := s.gauger.seq + 1
  if n % 2 ^ 32 = 0 then
    let s := reserveBlock s (n / 2 ^ 32)
    { s with gauger := { s.gauger with seq := n + 1 } }
  else { s with gauger := { s.gauger with seq := n } }

/-- Stamp an event and raise a class for it. -/
def stampRaise (s : State) (page cls : Nat) : State := raise (stamp s) page cls

/-! ### Register writes -/

/-- Emit something at a port of the block. -/
def emit (s : State) (o : Output) : State := { s with outs := o :: s.outs }

/-- Emit several things, in their order. -/
def emitAll (s : State) (os : List Output) : State := { s with outs := os.reverse ++ s.outs }

/-- The refused write of R419: `ERR_CODE` and `ERR_SEQ` of the page (of `GLOBAL` for an unmapped page, R415), the page's
`WRITE_REFUSED` class, and the response status of R443. The write's event is already stamped. -/
def refuseWrite (s : State) (page off : Nat) (role : Role) (status : Nat) : State :=
  let home := if (pageUnit page).isSome then page else pgGlobal
  let code := BitVec.ofNat 64 (roleCode role * 2 ^ 32 + page * 2 ^ 20 + off * 2 ^ 8 + status)
  let s := { s with pages := tmod {} s.pages home fun h => { h with errCode := code, errSeq := s.gauger.seq } }
  let s := match pageUnit home with
    | some (u, _) => match refusedClass u with
      | some c => raise s home c
      | none => s
    | none => s
  emit s (.response 0 status)

/-- The registers of R394, which serve from step 1 of a cold start. -/
def configRegister (page off : Nat) : Bool :=
  (page = pgTiers && (off = 0x080 || off = 0x088)) || (page = pgHomes && (off = 0x080 || off = 0x088 || off = 0x090)) ||
    (page = pgKiln && off = 0x0C0)

/-- The control port takes an access: the block has power and is not held in reset, the port's clock is present (Table 23.2), and
the page serves: `GLOBAL`, `LOGBOOK` and the registers of R394 from step 1 of a cold start, the others from step 3 (R397). -/
def pageServes (s : State) (page off : Nat) : Bool :=
  s.glob.powered && !s.glob.heldInReset && domainPresent s 208 &&
    (3 ≤ s.glob.startStep || page = pgGlobal || page = pgLogbook || configRegister page off)

/-- A register write: one gauger event, checked in the order of R419 and then accepted or refused whole. `check` gives the
first of the state rules and other codes of the register's chapter; `effect` is what an accepted write does. -/
def busWrite (page off : Nat) (v : Word64) (role : Role) (check : State → Option Nat) (effect : State → State) (s : State) :
    State :=
  if !pageServes s page off then s else
  let s := stamp s
  match staticRefusal page off v role with
  | some st => refuseWrite s page off role st
  | none => match check s with
    | some st => refuseWrite s page off role st
    | none => emit (effect s) (.response 0 stDone)

/-- The register at (page, offset) takes the written fields. -/
def storeReg (page off : Nat) (v : Word64) (s : State) : State :=
  match pageUnit page with
  | some (u, _) => match regSpec u off with
    | some r => setReg s page off (r.stored v)
    | none => s
  | none => s

/-! ### Faults and recovery levels -/

/-- The page of a fault's object (R339, R423). -/
def FaultObject.page : FaultObject → Nat
  | .tun t => pgTun t
  | .ctx c => pgCtx c
  | .region _ => pgCellar
  | .pair _ => pgService
  | .port p => p
  | .block => pgGlobal

/-- `FAULT_OBJECT` (Table 16.15). -/
def FaultObject.code : FaultObject → Nat
  | .tun t => t | .ctx c => c | .region r => r | .pair p => p | .port p => p | .block => 0

/-- The key of an object's recovery epoch (R338). -/
def FaultObject.key : FaultObject → Nat
  | .tun t => pgTun t | .ctx c => pgCtx c | .region r => 0x1000 + r | .pair p => 0x2000 + p | .port p => p | .block => 0

/-- The budget of a recovery level in µs; levels 0 and 1 have none (Table 16.5). -/
def budgetUs (s : State) : Nat → Nat
  | 2 => regFld s pgIntegrity 0x080 0 32
  | 3 => regFld s pgIntegrity 0x080 32 32
  | 4 => regFld s pgIntegrity 0x088 0 32
  | 5 => regFld s pgIntegrity 0x088 32 32
  | 6 => regFld s pgIntegrity 0x090 0 32
  | 7 => regFld s pgIntegrity 0x090 32 32
  | _ => 0

/-- `RETRY_LIMIT` (Table 16.10). -/
def retryLimit (s : State) : Nat := regFld s pgIntegrity 0x098 0 8

/-- The open fault on an object. -/
def openFault (s : State) (o : FaultObject) : Option FaultRec := s.integrity.faults.find? fun f => f.object = o

/-- Create a fault at the present event: its ID is the sequence of the detection; one detection record, one count on the
object's page (R339). -/
def newFaultNow (s : State) (o : FaultObject) (source first : Nat) (detail : List Byte) : State :=
  let id := s.gauger.seq
  let s := { s with
    integrity := { s.integrity with
      faults := s.integrity.faults ++ [{ id, object := o, source, first, level := 0 }]
      lastId := id, lastObject := o.code, lastSource := source, lastLevel := 0, lastFirst := first }
    pages := tmod {} s.pages o.page fun h => { h with faultCount := sat 32 (h.faultCount + 1) } }
  let s := logNow s o.page evFaultDetect none none id
    (padTo 32 ([BitVec.ofNat 8 source, BitVec.ofNat 8 first] ++ leBytes 2 o.code ++ detail))
  raise s pgIntegrity 0

/-- Create a fault at an event of its own. -/
def newFault (s : State) (o : FaultObject) (source first : Nat) (detail : List Byte) : State :=
  newFaultNow (stamp s) o source first detail

/-- Count a fault's entry to a level (Tables 16.12, 16.13). -/
def countLevel (i : Integrity) : Nat → Integrity
  | 2 => { i with countL2 := sat 16 (i.countL2 + 1) }
  | 3 => { i with countL3 := sat 16 (i.countL3 + 1) }
  | 4 => { i with countL4 := sat 16 (i.countL4 + 1) }
  | 5 => { i with countL5 := sat 16 (i.countL5 + 1) }
  | 6 => { i with countL6 := sat 16 (i.countL6 + 1) }
  | 7 => { i with countL7 := sat 16 (i.countL7 + 1) }
  | _ => i

/-- A fault enters a level on an object: one level record, the counts, the object's epoch advances (R338, R339), and
`ESCALATION` from level 4 upwards (R347). -/
def enterLevel (s : State) (id : Seq) (o : FaultObject) (source first level : Nat) : State :=
  let prev := match s.integrity.faults.find? fun f => f.id = id with
    | some f => f.level
    | none => 0
  let s := stamp s
  let epoch := tget 0 s.integrity.epochs o.key + 1
  let i := countLevel s.integrity level
  let s := { s with integrity := { i with
    faults := (i.faults.filter fun f => ¬ (f.id = id ∧ f.object = o)) ++ [{ id, object := o, source, first, level, epoch }]
    epochs := tset 0 i.epochs o.key epoch
    lastId := id, lastObject := o.code, lastSource := source, lastLevel := level, lastFirst := first } }
  let s := logNow s o.page evFaultLevel none none id
    (padTo 32 ([BitVec.ofNat 8 level, BitVec.ofNat 8 prev] ++ leBytes 2 o.code ++ leBytes 4 (budgetUs s level)))
  if 4 ≤ level then raise s pgIntegrity 1 else s

/-- A detection on an object that starts a recovery level: an open fault of the object keeps its ID (R339). -/
def startFault (s : State) (o : FaultObject) (source level : Nat) (detail : List Byte) : State :=
  match openFault s o with
  | some f => if f.level < level then enterLevel s f.id o f.source f.first level else s
  | none =>
    let s := newFault s o source level detail
    enterLevel s s.integrity.lastId o source level level

/-- A fault ends for an object; `FAULT_LEVEL_NOW` reads 0 once no object carries the newest fault (Table 16.15). -/
def endFault (s : State) (o : FaultObject) : State :=
  let fs := s.integrity.faults.filter fun f => f.object ≠ o
  { s with integrity := { s.integrity with
    faults := fs
    lastLevel := if fs.any fun f => f.id = s.integrity.lastId then s.integrity.lastLevel else 0 } }

/-- An entry that a synchroniser discards by its parity is counted (R433). -/
def noteParity (s : State) : LinkCheck → State
  | .parity => { s with boundary := { s.boundary with syncParity := sat 32 (s.boundary.syncParity + 1) } }
  | .ok | .failed => s

/-! ### Chip-memory transfers -/

/-- The memory port of an address: a[16:12] XOR a[21:17], or the next port upward whose domain is present (R440). -/
def memPortOf (s : State) (addr : Nat) : Option Nat :=
  let p := (addr / 2 ^ 12 % 32) ^^^ (addr / 2 ^ 17 % 32)
  ((List.range 32).map fun i => (p + i) % 32).find? fun q => domainPresent s (128 + q)

/-- The lowest `MQ_ID` that no outstanding request of a port holds; none when all 1,024 are in use (R439). -/
def freeMemId (p : MemPort) : Option Nat :=
  let ids := p.outstanding.foldl (fun (t : Tab Unit) r => tput r.id () t) []
  if firstFree 0 ids < 1024 then some (firstFree 0 ids) else none

/-- Send a request to its port, or let it wait. -/
def issueReq (s : State) (r : MemReq) : State :=
  let wait := { s with boundary := { s.boundary with memWaiting := s.boundary.memWaiting ++ [r] } }
  match memPortOf s r.addr with
  | none => wait
  | some p => match freeMemId (tget {} s.boundary.mem p) with
    | none => wait
    | some i => { s with boundary := { s.boundary with
        mem := tmod {} s.boundary.mem p fun m => { m with outstanding := m.outstanding ++ [{ r with id := i }] } } }

/-- The requests of a transfer: cut at pages of 4 KiB (R439). `fuel` bounds their number. -/
def chunks (fuel chunk addr bytes : Nat) : List (Nat × Nat × Nat) :=
  match fuel with
  | 0 => []
  | fuel + 1 =>
    if bytes = 0 then [] else
      let n := min bytes (4096 - addr % 4096)
      (chunk, addr, n) :: chunks fuel (chunk + 1) (addr + n) (bytes - n)

/-- Start a transfer of `bytes` at `addr`; a write carries its data. -/
def startXfer (s : State) (use : MemUse) (write : Bool) (addr bytes : Nat) (data : List Byte) : State :=
  let cs := chunks (bytes / 4096 + 2) 0 addr bytes
  let id := s.boundary.nextXfer
  let s := { s with boundary := { s.boundary with
    nextXfer := id + 1, xfers := s.boundary.xfers ++ [{ id, use, write, left := cs.length }] } }
  cs.foldl (fun s c => issueReq s
    { xfer := id, chunk := c.1, addr := c.2.1, bytes := c.2.2, write,
      data := (data.drop (c.2.1 - addr)).take c.2.2 }) s

/-- Requests that wait go to their ports again, oldest first (after a response or a regained domain). -/
def retryWaiting (s : State) : State :=
  let w := s.boundary.memWaiting
  w.foldl issueReq { s with boundary := { s.boundary with memWaiting := [] } }

/-- Forget every transfer of a use; responses that arrive later find no transfer. -/
def dropXfers (s : State) (p : MemUse → Bool) : State :=
  { s with boundary := { s.boundary with xfers := s.boundary.xfers.filter fun x => !p x.use } }

/-! ### Contexts and their rings -/

/-- 32-bit wrapping difference of ring counters (R266). -/
def ringDiff (a b : Nat) : Nat := (a + 2 ^ 32 - b % 2 ^ 32) % 2 ^ 32

/-- 2^`SQ_LOG2` and 2^`CQ_LOG2` of a context. -/
def sqSize (s : State) (c : Nat) : Nat := 2 ^ regFld s (pgCtx c) 0x0A0 0 5
def cqSize (s : State) (c : Nat) : Nat := 2 ^ regFld s (pgCtx c) 0x0A0 8 5

/-- Free entries of the completion ring (R269). -/
def cqFree (s : State) (c : Nat) : Nat :=
  cqSize s c - ringDiff (s.ctx c).cqTail (s.ctx c).cqHead - (s.ctx c).cqResv

/-- The context changes state at the present event. -/
def setCtxNow (s : State) (c : Nat) (st : CtxState) : State := raise (modCtx s c fun x => { x with st }) (pgCtx c) 1

/-- The context changes state: one event, which raises `CTX_STATE` (R272, Table 12.2). -/
def setCtxState (s : State) (c : Nat) (st : CtxState) : State :=
  if (s.ctx c).st = st then s
  else stampRaise (modCtx s c fun x => { x with st }) (pgCtx c) 1

/-- A gyle of the context has not completed and is not held (its work is in flight). -/
def gyleInFlight (s : State) (c : Nat) : Bool :=
  s.gyles.any fun g => !g.key.far && g.key.owner = c && !g.held

/-- A command of the context is in flight (R272): taken and not decided, or holding a reservation, or a gyle at work. -/
def ctxBusy (s : State) (c : Nat) : Bool :=
  (s.ctx c).front.isSome || 0 < (s.ctx c).cqResv || gyleInFlight s c

/-- `RUNNING` to `READY` when the last command in flight has completed and no descriptor waits (Table 12.3). -/
def settle (s : State) (c : Nat) : State :=
  if (s.ctx c).st = .running ∧ ctxBusy s c = false ∧ (s.ctx c).sqHead = (s.ctx c).sqTail then setCtxState s c .ready else s

/-- The conditions of R269 to take a descriptor, one at a time. -/
def mayTake (s : State) (c : Nat) : Bool :=
  let x := s.ctx c
  x.front.isNone && x.sqHead ≠ x.sqTail && (x.st = .ready || x.st = .running || x.st = .quiesced) && 1 ≤ cqFree s c

/-- Take the descriptor at `SQ_HEAD` when R269 allows: `SQ_HEAD` and `CQ_RESV` advance and its read starts; a `READY`
context enters `RUNNING` (Table 12.3). -/
def pump (s : State) (c : Nat) : State :=
  if mayTake s c then
    let x := s.ctx c
    let addr := regFld s (pgCtx c) 0x090 12 52 * 4096 + x.sqHead % sqSize s c * 64
    let s := setCtx s c { x with
      sqHead := (x.sqHead + 1) % 2 ^ 32, cqResv := x.cqResv + 1, front := some { sqIndex := x.sqHead } }
    let s := if x.st = .ready then setCtxState s c .running else s
    startXfer s (.descriptor c) false addr 64 []
  else s

/-- After a command has been decided or a reservation given back: settle, then take the next descriptor. -/
def afterCmd (s : State) (c : Nat) : State := pump (settle s c) c

/-- The completion record of Table 13.4. -/
def completionRecord (opcode status cflags sqIndex gyle : Nat) (seq : Seq) (result : List Byte) : List Byte :=
  [BitVec.ofNat 8 opcode, BitVec.ofNat 8 status] ++ leBytes 2 cflags ++ leBytes 2 sqIndex ++ leBytes 2 gyle ++
    leBytes 8 seq ++ padTo 16 result

/-- Post a completion record under the present event's sequence (R270, R287): its write starts; `CQ_TAIL` advances with its
response. After a completion write error no record is written (R273): only the reservation is given back. -/
def postRecord (s : State) (c opcode status cflags sqIndex gyle : Nat) (result : List Byte) (done : Option Nat) : State :=
  let x := s.ctx c
  if x.faultCause = 0x03 then setCtx s c { x with cqResv := x.cqResv - 1 }
  else
    let k := x.cqTail + x.posted.length
    let addr := regFld s (pgCtx c) 0x098 12 52 * 4096 + k % cqSize s c * 32
    let s := setCtx s c { x with
      posted := x.posted ++ [{ xfer := s.boundary.nextXfer, cmpSeq := s.gauger.seq, gyle := done }] }
    startXfer s (.completion c) true addr 32
      (completionRecord opcode status cflags sqIndex gyle s.gauger.seq result)

/-- Does the opcode name a gyle (`CMP_GYLE`, Table 13.4)? -/
def namesGyle (opcode : Nat) : Bool := [0x01, 0x02, 0x03, 0x20, 0x21, 0x22].contains opcode

/-- The context's front command ends without holding its place any longer. -/
def clearFront (s : State) (c : Nat) : State := modCtx s c fun x => { x with front := none }

/-- The reservation of a command that posts no completion on acceptance is released (R269). -/
def releaseResv (s : State) (c : Nat) : State := modCtx s c fun x => { x with cqResv := x.cqResv - 1 }

/-- A refusal: status, `BAD_OFFSET`, `BAD_IMAGE_OFFSET`. -/
structure Bad where
  status : Nat
  off : Nat := 0xFF
  imageOff : Nat := 0xFFFFFFFF
  deriving DecidableEq, Repr

/-- The result area of a refusal (Table 13.7). -/
def Bad.result (b : Bad) : List Byte :=
  [BitVec.ofNat 8 b.off] ++ List.replicate 3 0 ++ leBytes 4 b.imageOff

/-- The front command of a context is refused at one sequence: nothing changes but its completion (R292). -/
def refuseCmd (s : State) (c : Nat) (fr : Front) (opcode gyle : Nat) (b : Bad) : State :=
  let s := stamp s
  let s := postRecord s c opcode b.status 0 fr.sqIndex (if namesGyle opcode then gyle else 0) b.result none
  afterCmd (clearFront s c) c

/-- The front command is accepted and completes at its acceptance, at the event already stamped (R292). -/
def doneCmd (s : State) (c : Nat) (fr : Front) (d : Desc) (result : List Byte) : State :=
  let s := postRecord s c d.opcode stDone 0 fr.sqIndex (if namesGyle d.opcode then d.gyle else 0) result none
  afterCmd (clearFront s c) c

/-- The front command is accepted and posts no completion on acceptance (R11, R269). -/
def acceptSilent (s : State) (c : Nat) : State := afterCmd (releaseResv (clearFront s c) c) c

/-- The front command is accepted and completes later: it waits among the commands in flight. -/
def acceptLater (s : State) (c : Nat) (cmd : Cmd) : State :=
  afterCmd (modCtx (clearFront s c) c fun x => { x with inflight := x.inflight ++ [cmd] }) c

/-- A command in flight completes at the event already stamped. -/
def completeLater (s : State) (c : Nat) (cmd : Cmd) (status cflags : Nat) (result : List Byte) : State :=
  let s := modCtx s c fun x => { x with inflight := x.inflight.filter fun y => y.sqIndex ≠ cmd.sqIndex }
  let s := postRecord s c cmd.opcode status cflags cmd.sqIndex (if namesGyle cmd.opcode then cmd.gyle else 0) result none
  afterCmd s c

/-- The meaning of a descriptor command: `f` on the descriptor that the context has taken and read whole, when it bears this
opcode; otherwise the event is not due and nothing happens (log entry 1). -/
def onFront (c : Nat) (opcode : Nat) (s : State) (f : Front → Desc → List Byte → State) : State :=
  match (s.ctx c).front with
  | some fr => match fr.desc, fr.image with
    | some d, some img => if d.opcode = opcode then f fr d img else s
    | _, _ => s
  | none => s

/-- Decide the front command: refused with the first failing check, or accepted at one stamped event. -/
def decideCmd (s : State) (c : Nat) (fr : Front) (d : Desc) (bad : Option Bad) (accept : State → State) : State :=
  match bad with
  | some b => refuseCmd s c fr d.opcode d.gyle b
  | none => accept (stamp s)

/-- The first failure of a list of checks. -/
def firstBad : List (Option Bad) → Option Bad
  | [] => none
  | some b :: _ => some b
  | none :: t => firstBad t

/-- A check with a plain status. -/
def need (ok : Bool) (status : Nat) : Option Bad := if ok then none else some { status }

/-- The tenant is bound to the context (R264). -/
def tenantBound (words : Tab Word64) (t : Nat) : Bool := (tget 0 words (t / 64)).getLsbD (t % 64)

/-- The role that a context acts for (R265): 0 ordinary, 1 fabric manager, 2 maintenance role. -/
def ctxRole (s : State) (c : Nat) : Nat := (s.page (pgCtx c)).ctxRole

/-- The context acts for the fabric manager. -/
def ctxFabric (s : State) (c : Nat) : Bool := ctxRole s c = 1

end Sys2Proof.Machine
end

