-- ==== Sys2Proof/Machine/Caps.lean ====
section
/-! DEFINITION. The effective cap, the gate and the voltage target (R362, R367 to R371). -/
namespace Sys2Proof.Machine

/-! ### Table 18.1 -/

/-- A column of Table 18.1 at a voltage in mV, interpolated linearly between the rows of 50 mV, times 50. Voltages outside the table
are taken at its ends. -/
def tableAt (col : List Nat) (mv : Nat) : Nat :=
  let v := min 850 (max 550 mv)
  let i := (v - 550) / 50
  let f := (v - 550) % 50
  col.getD i 0 * (50 - f) + col.getD (i + 1) 0 * f

/-- Pace in units of 1/5,000 G handshakes/s, and typical leakage in units of 1/500 W. -/
def tablePace (mv : Nat) : Nat := tableAt [90, 117, 144, 170, 195, 214, 230] mv
def tableLeak (mv : Nat) : Nat := tableAt [80, 100, 110, 125, 140, 165, 190] mv

/-! ### The cap -/

/-- The four values of R368, each with its code of `CAP_SOURCE`, in the order of the rule; a port cap below 40 W was clamped. -/
def capInputs (s : State) : List (Nat × Nat) :=
  [(regFld s pgPace 0x088 0 8, 0), (s.pace.portCap, if s.pace.portCapRaw < 40 then 4 else 1)] ++
    (if s.pace.derate then [(regFld s pgPace 0x088 8 8, 2)] else []) ++
    if s.pace.thermActive then [(s.pace.thermCap, 3)] else []

/-- The least of some caps, the earlier one of two equals. -/
def leastCap : List (Nat × Nat) → Nat × Nat
  | [] => (180, 0)
  | [x] => x
  | x :: t => if x.1 ≤ (leastCap t).1 then x else leastCap t

/-- `CAP_EFF_W` and `CAP_SOURCE` follow the inputs (R368). -/
def holdCap (s : State) : State :=
  { s with pace := { s.pace with capEff := (leastCap (capInputs s)).1, capSource := (leastCap (capInputs s)).2 } }

/-! ### Gate and voltage -/

/-- G of R370. Before any sample has given an estimate the gate is open. -/
def gateFor (capW leak rest interior : Nat) : Nat :=
  if 10 * capW ≤ leak + rest then 0
  else if interior = 0 then 16
  else min 16 (16 * (10 * capW - leak - rest) / interior)

/-- L + P_rest + D would fit C at full issue at voltage `v` (R371): the estimates taken at the measured voltage scale by Table 18.1 and R367. -/
def fitsAt (capW leak rest interior measured v : Nat) : Bool :=
  let m := min 850 (max 550 measured)
  let base := tableLeak m * (m * m * tablePace m)
  rest * base + leak * tableLeak v * (m * m * tablePace m) + interior * (v * v * tablePace v) * tableLeak m ≤ 10 * capW * base

/-- The first of the voltages `v`, `v − 5`, … that fits, and 550 mV where none does. -/
def searchTarget (fits : Nat → Bool) : Nat → Nat → Nat
  | 0, _ => 550
  | n + 1, v => if v ≤ 550 then 550 else if fits v then v else searchTarget fits n (v - 5)

/-- The voltage target of R371. -/
def voltageTarget (s : State) : Nat :=
  let p := s.pace
  searchTarget (fitsAt p.capEff p.leakDw p.restDw p.interiorDw p.vddMeas) 61 (regFld s pgPace 0x080 0 10)

/-- The block asks for the target (R364, R371); once closed it goes on asking for 550 mV (R377, R378). -/
def askVoltage (s : State) : State :=
  let v := if s.pace.closed then 550 else voltageTarget s
  if v = s.pace.vddReq then s else emit { s with pace := { s.pace with vddReq := v } } (.voltageRequest v)

/-- The gate and the voltage follow C and the last sample (R370, R371). -/
def setGate (s : State) : State :=
  askVoltage { s with pace := { s.pace with gate := gateFor s.pace.capEff s.pace.leakDw s.pace.restDw s.pace.interiorDw } }

/-- A cap event: C, the gate and the voltage target follow its inputs (R368). -/
def capEvent (s : State) : State := setGate (holdCap s)

/-- A tun's gate level: G, and at most 16 − 4s under a sag stretch s (R365, R370). -/
def tunGate (s : State) (t : Nat) : Nat := min s.pace.gate (16 - 4 * (tget {} s.pace.sags t : Sag).steps)

/-- The grist unit and the update engine start no handshake: a thermal halt, or G = 0 (R370, R373). -/
def interiorHeld (s : State) : Bool := s.pace.thermHalted || s.pace.gate = 0

end Sys2Proof.Machine
end

