-- ==== Sys2Proof/Machine/Operands.lean ====
section
/-! DEFINITION. The operand forms: descriptors (Tables 13.1 and 13.3), splice plans (Tables 6.1 to 6.3), adapter images
(Tables 2.4 and 2.5), state headers (Tables 7.4 and 7.5), directory entries (Table 4.3), row-map entries (Table 4.1), each
with the field checks that name an offset (R279, R293 step 2). -/
namespace Sys2Proof.Machine

/-- A little-endian field of a structure (R6); bytes past the end read zero. -/
def le (bs : List Byte) (off n : Nat) : Nat := leNat ((bs.drop off).take n)

/-- A field check: byte offset, whether it holds, the status when it does not. -/
abbrev Check := Nat × Bool × Nat

/-- Bytes `a` up to `b` are reserved: each must be zero. -/
def zeros (bs : List Byte) (a b : Nat) : List Check :=
  (List.range (b - a)).map fun i => (a + i, bs.getD (a + i) 0 = 0, stBadField)

/-- The field check fails with `BAD_FIELD`. -/
def chk (off : Nat) (ok : Bool) : Check := (off, ok, stBadField)

/-- The failing check of the lowest offset; of two at one offset the one that stands first (R279). -/
def lowestFail : List Check → Option Check
  | [] => none
  | c :: t => match lowestFail t with
    | some x => if c.2.1 || x.1 < c.1 then some x else some c
    | none => if c.2.1 then none else some c

/-- The first failing check, in the descriptor itself. -/
def firstCheck (cs : List Check) : Option Bad := (lowestFail cs).map fun x => { status := x.2.2, off := x.1 }

/-- The first failing check, in a structure that the descriptor points to: `BAD_OFFSET` 8 (R279). -/
def firstImageCheck (base : Nat) (cs : List Check) : Option Bad :=
  (lowestFail cs).map fun x => { status := x.2.2, off := 8, imageOff := base + x.1 }

/-! ### Descriptors -/

/-- The opcodes of Table 13.2. -/
def opcodes : List Nat :=
  [0x01, 0x02, 0x03, 0x04, 0x05, 0x10, 0x11, 0x12, 0x13, 0x14, 0x20, 0x21, 0x22, 0x30, 0x31, 0x32, 0x33, 0x40, 0x41, 0x42,
   0x50, 0x51, 0x52, 0x5F]

/-- `ALLOC_FLAGS` of a command (Table 9.3): `PREFETCH_TIER` only on `PREFETCH`, `TRANSIENT` refused on `PIN`. -/
def allocOk (opcode a : Nat) : Bool :=
  if opcode = 0x14 then a % 4 ≤ 1 && a / 32 = 0
  else if opcode = 0x12 then a % 4 = 0 && a / 8 % 2 = 0 && a / 32 = 0
  else if opcode = 0x01 || opcode = 0x20 then a % 4 = 0 && a / 32 = 0
  else a = 0

/-- The tenant field is in use: `MIX_BIND` and directory `PUBLISH` (Table 13.1). -/
def usesTenant (bs : List Byte) : Bool := le bs 0 1 = 0x10 || (le bs 0 1 = 0x30 && le bs 16 1 = 2)

/-- `DESC_ADDR` of a command (Table 13.3). -/
def addrOk (bs : List Byte) : Bool :=
  let a := le bs 8 8
  match le bs 0 1 with
  | 0x01 | 0x20 => a % 16 = 0 && (a ≠ 0 || le bs 24 4 = 0)
  | 0x02 => a % 16 = 0
  | 0x21 => a % 16 = 0
  | 0x04 | 0x30 | 0x32 => a % 64 = 0
  | _ => a = 0

/-- The header's checks (Table 13.1), in ascending offset. -/
def headerChecks (bs : List Byte) : List Check :=
  zeros bs 1 2 ++
  [chk 2 (le bs 2 2 < 4096 && (usesTenant bs || le bs 2 2 = 0)),
   chk 4 (namesGyle (le bs 0 1) || le bs 4 2 = 0),
   chk 6 (allocOk (le bs 0 1) (le bs 6 1))] ++ zeros bs 7 8 ++ [chk 8 (addrOk bs)]

/-- `ROW_COUNT` at most 1,048,576, else `TOO_LARGE`. -/
def rowCountCheck (bs : List Byte) : Check := (24, le bs 24 4 ≤ 1048576, stTooLarge)

/-- `COMP_ID` of component j. -/
def compId (bs : List Byte) (j : Nat) : Nat := le bs (24 + 8 * j) 3

/-- The checks of component j of `MIX_BIND` (R29, R30): IDs, flags, weights; all zero past `MIX_COUNT`. A set and the adapter of its
base ID are two things, so that an ID repeats only with the same set flag. -/
def compChecks (bs : List Byte) (j : Nat) : List Check :=
  let o := 24 + 8 * j
  let w : F32 := BitVec.ofNat 32 (le bs (o + 4) 4)
  if j < le bs 16 1 then
    [chk o (compId bs j ≠ 0 && compId bs j ≠ 0xFFFFFF && (List.range j).all fun i => compId bs i ≠ compId bs j || le bs (27 + 8 * i) 1 ≠ le bs (o + 3) 1),
     chk (o + 3) (le bs (o + 3) 1 ≤ 1),
     chk (o + 4) (isFin32 w && (j ≠ 0 || w &&& 0x7FFFFFFF ≠ 0))]
  else zeros bs o (o + 8)

/-- The body's checks by opcode (Table 13.3), in ascending offset; `rack` is `RACK_SIZE`. -/
def bodyChecks (rack : Nat) (bs : List Byte) : List Check :=
  match le bs 0 1 with
  | 0x01 => [rowCountCheck bs, chk 28 (le bs 28 4 ≤ 10000000), chk 32 (le bs 32 8 % 64 = 0)] ++ zeros bs 40 64
  | 0x02 => zeros bs 16 24 ++ [chk 24 (le bs 24 4 ≠ 0), rowCountCheck bs] ++ zeros bs 28 64
  | 0x20 => [rowCountCheck bs, chk 28 (le bs 28 1 ≤ 1)] ++ zeros bs 29 32 ++
      [chk 32 (le bs 32 8 % 64 = 0), chk 48 (le bs 48 8 ≠ 0)] ++ zeros bs 56 64
  | 0x05 => zeros bs 24 64
  | 0x10 => [chk 16 (1 ≤ le bs 16 1 && le bs 16 1 ≤ 4)] ++ zeros bs 17 24 ++ compChecks bs 0 ++ compChecks bs 1 ++
      compChecks bs 2 ++ compChecks bs 3 ++ zeros bs 56 64
  | 0x11 => zeros bs 18 64
  | 0x12 | 0x31 => [chk 16 (le bs 16 3 ≠ 0)] ++ zeros bs 19 64
  | 0x13 | 0x14 => zeros bs 19 64
  | 0x30 =>
    [chk 16 (le bs 16 1 = 1 || le bs 16 1 = 2), chk 17 (le bs 17 1 ≤ 1 && (le bs 16 1 = 1 || le bs 17 1 = 0))] ++
      zeros bs 18 20 ++ [chk 20 (le bs 16 1 = 1 || le bs 20 6 = 0)] ++ zeros bs 26 28 ++
      [chk 28 (le bs 16 1 = 1 || (1 ≤ le bs 28 4 && le bs 28 4 ≤ 4096))] ++ zeros bs 32 64
  | 0x32 | 0x33 => [chk 16 (le bs 16 2 ≠ 0)] ++ zeros bs 18 64
  | 0x40 => [chk 19 (le bs 19 1 < rack)] ++ zeros bs 20 64
  | 0x41 => [chk 16 (le bs 16 1 < rack), chk 17 (le bs 17 1 ≤ 7), chk 18 (1 ≤ le bs 18 2 && le bs 18 2 ≤ 256)] ++ zeros bs 20 64
  | 0x42 => [chk 16 (le bs 16 1 < rack), chk 17 (le bs 17 1 ≤ 7)] ++ zeros bs 18 64
  | 0x50 => zeros bs 48 64
  | _ => zeros bs 16 64

/-- Component j of `MIX_BIND`. -/
def compOf (bs : List Byte) (j : Nat) : MixComp :=
  { id := compId bs j, isSet := le bs (27 + 8 * j) 1 = 1, weight := BitVec.ofNat 32 (le bs (28 + 8 * j) 4) }

/-- The fields of a descriptor. -/
def descFields (bs : List Byte) : Desc :=
  let op := le bs 0 1
  { opcode := op
    tenant := le bs 2 2
    gyle := le bs 4 2
    alloc := BitVec.ofNat 8 (le bs 6 1)
    addr := le bs 8 8
    planId := BitVec.ofNat 64 (le bs 16 8)
    rowCount := le bs 24 4
    cutoffUs := if op = 0x01 then le bs 28 4 else 0
    accountAddr := le bs 32 8
    trainBasis := op = 0x20 && le bs 28 1 % 2 = 1
    trainSeed := BitVec.ofNat 64 (le bs 40 8)
    trainSeq := le bs 48 8
    comps := if op = 0x10 then (List.range (le bs 16 1)).map (compOf bs) else []
    handle := le bs 16 2
    adapter := le bs 16 3
    pubKind := le bs 16 1
    stateHdr := le bs 17 1 % 2 = 1
    baseVersion := le bs 20 6
    length := le bs 28 4
    epoch := le bs 16 2
    peer := if op = 0x40 then le bs 19 1 else le bs 16 1
    grant := le bs 17 1
    grantGib := le bs 18 2
    markData := (bs.drop 16).take 32
    raw := bs }

/-- Decode a descriptor (R278 to R281): the fields, or the first failure. -/
def decodeDesc (rack : Nat) (bs : List Byte) : Except Bad Desc :=
  if opcodes.contains (le bs 0 1) then
    match firstCheck (headerChecks bs ++ bodyChecks rack bs) with
    | some b => .error b
    | none => .ok (descFields bs)
  else .error { status := stBadOpcode }

/-! ### Adapter images -/

/-- Padded ranks of an expand row (R40). -/
def padRank (rank : Nat) : Nat := ceilDiv rank 32 * 32

/-- Bytes of a slot's tensors and vectors (R41), in the order shrink side, expand side. -/
def shrinkBytes (e : SlotEntry) : Nat := e.rank * (e.inW / 32) * blockBytes e.aFmt
def expandBytes (e : SlotEntry) : Nat := e.outW * (padRank e.rank / 32) * blockBytes e.bFmt
def rankVecBytes (vecFmt : Nat) (e : SlotEntry) : Nat := e.rank * streamBytes vecFmt
def outVecBytes (vecFmt : Nat) (e : SlotEntry) : Nat := e.outW * streamBytes vecFmt

/-- The two tensors of a slot entry, as offset and bytes: factors for a direct adapter or a basis, vectors for a member. -/
def slotExtents (h : AdapterHdr) (e : SlotEntry) : List (Nat × Nat) :=
  if h.form = .member then [(e.rankVecOff, rankVecBytes h.vecFmt e), (e.outVecOff, outVecBytes h.vecFmt e)]
  else [(e.shrinkOff, shrinkBytes e), (e.expandOff, expandBytes e)]

/-- The size of an adapter (R41): each tensor and vector rounded up to a multiple of 64 bytes. -/
def adapterBytes (h : AdapterHdr) (es : List SlotEntry) : Nat :=
  es.foldl (fun n e => n + (slotExtents h e).foldl (fun m x => m + roundUp x.2 64) 0) 0

/-- The fields of an adapter header (Table 2.4). -/
def hdrFields (bs : List Byte) : AdapterHdr :=
  { id := le bs 0 3
    form := if le bs 3 1 % 16 = 1 then .member else if le bs 3 1 % 16 = 2 then .basis else .direct
    bucketMember := le bs 3 1 / 16 % 2 = 1
    shared := le bs 3 1 / 32 % 2 = 1
    tenant := le bs 4 2
    slotCount := le bs 6 2
    fp := BitVec.ofNat 64 (le bs 8 8)
    version := le bs 16 6
    vecFmt := le bs 22 1
    scale := BitVec.ofNat 32 (le bs 24 4)
    tensorBytes := le bs 28 4
    basisId := le bs 32 3
    bucketLog2 := le bs 35 1
    bucketBase := le bs 36 3 }

/-- The checks of an adapter header taken in itself (R14, R15, R17, R18, R25, R37). Table 2.1 gives a code for `TENSOR_BYTES` only past
256 MiB: that 0 is refused `BAD_FIELD` is the model's choice (log entry 45). -/
def hdrChecks (bs : List Byte) : List Check :=
  let f := le bs 3 1
  let form := f % 16
  let bm := f / 16 % 2 = 1
  let base := le bs 36 3
  let n := 2 ^ le bs 35 1
  [chk 0 (le bs 0 3 ≠ 0 && le bs 0 3 ≠ 0xFFFFFF),
   chk 3 (form ≤ 2 && f / 64 = 0 && (f / 32 % 2 = 0 || form = 2) && (!bm || form ≠ 2)),
   chk 4 (le bs 4 2 < 4096),
   chk 6 (1 ≤ le bs 6 2 && le bs 6 2 ≤ 1024),
   chk 16 (le bs 16 6 ≠ 0),
   (16, le bs 16 6 ≠ 0xFFFFFFFFFFFF, stTooLarge),
   chk 22 (if form = 1 then le bs 22 1 ≤ 1 else le bs 22 1 = 0)] ++ zeros bs 23 24 ++
  [chk 24 (isFin32 (BitVec.ofNat 32 (le bs 24 4))),
   chk 28 (1 ≤ le bs 28 4),
   (28, le bs 28 4 ≤ 268435456, stTooLarge),
   chk 32 (form = 1 || le bs 32 3 = 0),
   chk 35 (if bm then 1 ≤ le bs 35 1 && le bs 35 1 ≤ 12 else le bs 35 1 = 0),
   chk 36 (if bm then base ≠ 0 && base % n = 0 && base ≤ le bs 0 3 && le bs 0 3 < base + n else base = 0)] ++ zeros bs 39 64

/-- A width that Table 2.1 allows. -/
def widthOk (w : Nat) : Bool := 32 ≤ w && w ≤ 32768 && w % 32 = 0

/-- The fields of a slot entry at byte `o` (Table 2.5). -/
def slotFields (bs : List Byte) (o : Nat) : SlotEntry :=
  { layer := le bs o 2, proj := le bs (o + 2) 1, inW := le bs (o + 4) 2, outW := le bs (o + 6) 2, rank := le bs (o + 8) 2
    aFmt := le bs (o + 10) 1, bFmt := le bs (o + 11) 1, shrinkOff := le bs (o + 16) 4, expandOff := le bs (o + 20) 4
    rankVecOff := le bs (o + 24) 4, outVecOff := le bs (o + 28) 4 }

/-- The slot table of an image. -/
def slotTable (bs : List Byte) : List SlotEntry := (List.range (le bs 6 2)).map fun k => slotFields bs (64 + 32 * k)

/-- An extent overlaps one of a list. -/
def overlaps (x : Nat × Nat) (ys : List (Nat × Nat)) : Bool :=
  ys.any fun y => x.1 < y.1 + y.2 && y.1 < x.1 + x.2

/-- An offset of a tensor: a multiple of 64, inside `TENSOR_BYTES`, overlapping no earlier one (R38). -/
def offsetOk (h : AdapterHdr) (earlier : List (Nat × Nat)) (x : Nat × Nat) : Bool :=
  x.1 % 64 = 0 && x.1 + x.2 ≤ h.tensorBytes && !overlaps x earlier

/-- The checks of slot entry k (R14, R38, R39). -/
def slotChecks (bs : List Byte) (h : AdapterHdr) (es : List SlotEntry) (k : Nat) : List Check :=
  let o := 64 + 32 * k
  let e := slotFields bs o
  let before := es.take k
  let earlier := before.flatMap (slotExtents h)
  let ext := slotExtents h e
  let x0 := ext.headD (0, 0)
  let x1 := (ext.drop 1).headD (0, 0)
  let mem := h.form = .member
  [chk o (e.layer ≤ 4095 && before.all fun b => ¬ (b.layer = e.layer ∧ b.proj = e.proj))] ++ zeros bs (o + 3) (o + 4) ++
  [chk (o + 4) (widthOk e.inW), chk (o + 6) (widthOk e.outW), chk (o + 8) (1 ≤ e.rank && e.rank ≤ 256),
   chk (o + 10) (e.aFmt ≤ 8), chk (o + 11) (e.bFmt ≤ 8)] ++ zeros bs (o + 12) (o + 16) ++
  (if mem then
    [chk (o + 16) (e.shrinkOff = 0), chk (o + 20) (e.expandOff = 0), chk (o + 24) (offsetOk h earlier x0),
     chk (o + 28) (offsetOk h (earlier ++ [x0]) x1)]
  else
    [chk (o + 16) (offsetOk h earlier x0), chk (o + 20) (offsetOk h (earlier ++ [x0]) x1),
     chk (o + 24) (e.rankVecOff = 0), chk (o + 28) (e.outVecOff = 0)])

/-- The checks of an adapter's header and slot table taken in themselves, the size of R41 among them. -/
def adapterChecks (bs : List Byte) : List Check :=
  let h := hdrFields bs
  let es := slotTable bs
  hdrChecks bs ++ (List.range es.length).flatMap (slotChecks bs h es) ++ [chk 28 (h.tensorBytes = adapterBytes h es)]

/-- Where the tensor area of an image begins. -/
def areaStart (slots : Nat) : Nat := roundUp (64 + 32 * slots) 64

/-- Where the state header of an image begins (R282). -/
def stateStart (h : AdapterHdr) : Nat := roundUp (areaStart h.slotCount + h.tensorBytes) 64

/-! ### State headers and hyperparameter records -/

/-- The fields of a hyperparameter record at byte `o` (Table 7.5). -/
def hpFields (bs : List Byte) (o : Nat) : HpRec :=
  let f := fun i => BitVec.ofNat 32 (le bs (o + 4 * i) 4)
  { lr := f 0, wd := f 1, beta1 := f 2, omb1 := f 3, beta2 := f 4, omb2 := f 5, eps := f 6, clip := f 7 }

/-- A record's bytes. -/
def HpRec.bytes (h : HpRec) : List Byte :=
  [h.lr, h.wd, h.beta1, h.omb1, h.beta2, h.omb2, h.eps, h.clip].flatMap fun w => leBytes 4 w.toNat

/-- The value is negative. -/
def isNegative (w : F32) : Bool := (Num.zero).gt (ofF32 w)

/-- The value lies in 0 to 1. -/
def inUnit (w : F32) : Bool := isFin32 w && !isNegative w && !(ofF32 w).gt (ofF32 one32)

/-- The checks of a hyperparameter record at byte `o` (R150): every field finite; `LR`, `WD`, `CLIP` not negative; the β fields
in 0 to 1 with sums that round to 1.0; `EPS` positive. -/
def hpChecks (h : HpRec) (o : Nat) : List Check :=
  [chk o (isFin32 h.lr && !isNegative h.lr), chk (o + 4) (isFin32 h.wd && !isNegative h.wd), chk (o + 8) (inUnit h.beta1),
   chk (o + 12) (inUnit h.omb1 && fadd h.beta1 h.omb1 = one32), chk (o + 16) (inUnit h.beta2),
   chk (o + 20) (inUnit h.omb2 && fadd h.beta2 h.omb2 = one32), chk (o + 24) (isFin32 h.eps && (ofF32 h.eps).gt Num.zero),
   chk (o + 28) (isFin32 h.clip && !isNegative h.clip)]

/-- The record satisfies R150. -/
def HpRec.ok (h : HpRec) : Bool := (firstCheck (hpChecks h 0)).isNone

/-- The fields of a state header at byte `o` (Table 7.4); its arrays come with it elsewhere. -/
def stateFields (bs : List Byte) (o : Nat) : StateArea :=
  { lastTrainSeq := le bs o 8, stepCount := le bs (o + 8) 8, optKind := le bs (o + 16) 1, stateFmt := le bs (o + 17) 1
    inherit := le bs (o + 18) 1 % 2 = 1, b1t := BitVec.ofNat 32 (le bs (o + 20) 4), b2t := BitVec.ofNat 32 (le bs (o + 24) 4)
    hp := hpFields bs (o + 32) }

/-- The checks of a state header at byte `o` (Table 7.4, R150). -/
def stateChecks (bs : List Byte) (o : Nat) : List Check :=
  [chk (o + 16) (le bs (o + 16) 1 = 1 || le bs (o + 16) 1 = 2), chk (o + 17) (le bs (o + 17) 1 ≤ 1),
   chk (o + 18) (le bs (o + 18) 1 ≤ 1)] ++ zeros bs (o + 19) (o + 20) ++ zeros bs (o + 28) (o + 32) ++
  (if le bs (o + 18) 1 % 2 = 1 then [] else hpChecks (hpFields bs (o + 32)) (o + 32))

/-- The 64 bytes of a state header (Table 7.4). -/
def stateHdrBytes (st : StateArea) : List Byte :=
  leBytes 8 st.lastTrainSeq ++ leBytes 8 st.stepCount ++ leBytes 1 st.optKind ++ leBytes 1 st.stateFmt ++
    leBytes 1 (if st.inherit then 1 else 0) ++ [0] ++ leBytes 4 st.b1t.toNat ++ leBytes 4 st.b2t.toNat ++ List.replicate 4 0 ++
    st.hp.bytes

/-- Arrays that the optimizer keeps per tensor: buf, or m and v (R149). -/
def arraysPer (optKind : Nat) : Nat := if optKind = 2 then 2 else 1

/-- Real elements of the two trainable tensors of a slot: A and B, or u and v (R149). -/
def slotElems (h : AdapterHdr) (e : SlotEntry) : List Nat :=
  if h.form = .member then [e.rank, e.outW] else [e.rank * e.inW, e.outW * e.rank]

/-- Bytes of a state area (R148, R149). -/
def stateBytes (h : AdapterHdr) (es : List SlotEntry) (st : StateArea) : Nat :=
  64 + es.foldl (fun n e => n + (slotElems h e).foldl (fun m k => m + arraysPer st.optKind * roundUp (k * streamBytes st.stateFmt) 64) 0) 0

/-- Zeroed state arrays (R151). -/
def zeroArrays (h : AdapterHdr) (es : List SlotEntry) (st : StateArea) : List (List Byte) :=
  es.flatMap fun e => (slotElems h e).flatMap fun k =>
    List.replicate (arraysPer st.optKind) (List.replicate (k * streamBytes st.stateFmt) 0)

/-- A state area with new arrays and the CRC-64 of each, which is formed where they come into being (R248). -/
def StateArea.withArrays (st : StateArea) (arrays : List (List Byte)) : StateArea := { st with arrays, crcs := arrays.map crc64 }

/-! ### Splice plans -/

/-- Bytes of a plan (R113). -/
def planBytes (models slots : Nat) : Nat := 64 + 16 * models + 64 * slots

/-- A 128-bit mask field. -/
def mask128 (bs : List Byte) (o : Nat) : BitVec 128 := BitVec.ofNat 128 (le bs o 16)

/-- The fields of a plan's slot entry at byte `o` (Table 6.3). -/
def planSlotFields (bs : List Byte) (o : Nat) : PlanSlot :=
  { layer := le bs o 2, proj := le bs (o + 2) 1, model := le bs (o + 3) 1, inW := le bs (o + 4) 2, outW := le bs (o + 6) 2
    actFmt := le bs (o + 8) 1, baseFmt := le bs (o + 9) 1, deltaFmt := le bs (o + 10) 1
    side := le bs (o + 11) 1 % 4 = 1, grad := le bs (o + 11) 1 / 4 % 2 = 1, issueRank := le bs (o + 12) 2
    gradFmt := le bs (o + 14) 1, ports := mask128 bs (o + 16) }

/-- The fields of a plan. -/
def planFields (bs : List Byte) : Plan :=
  let ns := le bs 8 2
  let nm := le bs 10 1
  { id := BitVec.ofNat 64 (le bs 0 8)
    ports := mask128 bs 16
    models := (List.range nm).map fun i => BitVec.ofNat 64 (le bs (64 + 16 * i) 8)
    slots := (List.range ns).map fun k => planSlotFields bs (64 + 16 * nm + 64 * k) }

/-- The checks of a plan's slot entry k (Table 6.3, R43, R99, R114, R143). -/
def planSlotChecks (bs : List Byte) (p : Plan) (k : Nat) : List Check :=
  let o := 64 + 16 * p.models.length + 64 * k
  let e := planSlotFields bs o
  let before := p.slots.take k
  [chk o (e.layer ≤ 4095 && before.all fun b => ¬ (b.layer = e.layer ∧ b.proj = e.proj ∧ b.model = e.model)),
   chk (o + 3) (e.model < p.models.length),
   chk (o + 4) (widthOk e.inW), chk (o + 6) (widthOk e.outW),
   chk (o + 8) (e.actFmt ≤ 4 && rowBytes e.actFmt e.inW ≤ 36864 &&
     (!e.grad || rowBytes e.actFmt e.inW + e.outW * streamBytes e.gradFmt ≤ 32768)),
   chk (o + 9) (e.baseFmt ≤ 1), chk (o + 10) (e.deltaFmt ≤ 1), chk (o + 11) (le bs (o + 11) 1 % 4 ≤ 1 && le bs (o + 11) 1 < 8),
   chk (o + 12) (e.issueRank ≤ 1023 && before.all fun b => b.issueRank ≠ e.issueRank), chk (o + 14) (e.gradFmt ≤ 1)] ++
  zeros bs (o + 15) (o + 16) ++ [chk (o + 16) (e.ports ≠ 0 && e.ports &&& ~~~ p.ports = 0)] ++ zeros bs (o + 32) (o + 64)

/-- The checks of a base-model entry i (Table 6.2, R114). -/
def planModelChecks (bs : List Byte) (p : Plan) (i : Nat) : List Check :=
  let o := 64 + 16 * i
  [chk o ((p.models.take i).all fun m => some m ≠ p.models[i]?)] ++ zeros bs (o + 8) (o + 16)

/-- The checks of a plan (R114); `inForce` is the plan in force's ID. -/
def planChecks (inForce : Option Word64) (bs : List Byte) : List Check :=
  let p := planFields bs
  [chk 0 (p.id ≠ 0 && inForce ≠ some p.id), chk 8 (1 ≤ le bs 8 2 && le bs 8 2 ≤ 1024),
   chk 10 (1 ≤ le bs 10 1 && le bs 10 1 ≤ 16)] ++ zeros bs 11 16 ++ zeros bs 32 64 ++
  (List.range p.models.length).flatMap (planModelChecks bs p) ++ (List.range p.slots.length).flatMap (planSlotChecks bs p)

/-! ### Directory entries -/

/-- A directory target kind (Table 4.3). -/
def dirKind : Nat → DirKind
  | 1 => .adapter | 2 => .handle | 3 => .set | _ => .none

/-- The fields of a directory entry at byte `o`; the fields that R283 ignores are left at none. -/
def dirFields (bs : List Byte) (o : Nat) : DirEntry :=
  let k := dirKind (le bs (o + 8) 2 / 2 ^ 12 % 4)
  { key := BitVec.ofNat 64 (le bs o 8), tenant := le bs (o + 8) 2 % 4096, kind := k
    target := if k = .none then 0 else le bs (o + 10) 3, log2 := if k = .none then 0 else le bs (o + 13) 1 }

/-- The checks of directory entry n of a `PUBLISH` by a tenant (R283). -/
def dirChecks (tenant : Nat) (bs : List Byte) (n : Nat) : List Check :=
  let o := 32 * n
  let k := le bs (o + 8) 2 / 2 ^ 12 % 4
  let target := le bs (o + 10) 3
  let l := le bs (o + 13) 1
  [chk o (le bs o 8 ≠ 0), chk (o + 8) (le bs (o + 8) 2 % 4096 = tenant)] ++
  (if k = 0 then [] else
    [chk (o + 10) (if k = 2 then target < 65536 else if k = 3 then target ≠ 0 && target % 2 ^ l = 0 else true),
     chk (o + 13) (if k = 3 then 1 ≤ l && l ≤ 12 else l = 0)]) ++ zeros bs (o + 18) (o + 24)

/-- The code of a target kind. -/
def kindCode : DirKind → Nat
  | .none => 0 | .adapter => 1 | .handle => 2 | .set => 3

/-- The 32 bytes of a directory entry (Table 4.3). -/
def dirBytesOf (e : DirEntry) : List Byte :=
  leBytes 8 e.key.toNat ++ leBytes 2 (e.tenant + 2 ^ 12 * kindCode e.kind + 2 ^ 14 * kindCode e.prevKind) ++ leBytes 3 e.target ++
    leBytes 1 e.log2 ++ leBytes 3 e.prevTarget ++ leBytes 1 e.prevLog2 ++ List.replicate 6 0 ++ leBytes 8 e.changeSeq

/-- The 64 bytes of an adapter header (Table 2.4). -/
def hdrBytes (h : AdapterHdr) : List Byte :=
  leBytes 3 h.id ++
    leBytes 1 ((match h.form with
      | .direct => 0
      | .member => 1
      | .basis => 2) + (if h.bucketMember then 16 else 0) + (if h.shared then 32 else 0)) ++
    leBytes 2 h.tenant ++ leBytes 2 h.slotCount ++ leBytes 8 h.fp.toNat ++ leBytes 6 h.version ++ leBytes 1 h.vecFmt ++ [0] ++
    leBytes 4 h.scale.toNat ++ leBytes 4 h.tensorBytes ++ leBytes 3 h.basisId ++ leBytes 1 h.bucketLog2 ++ leBytes 3 h.bucketBase ++
    List.replicate 25 0

/-- The 32 bytes of a slot entry (Table 2.5). -/
def slotBytes (e : SlotEntry) : List Byte :=
  leBytes 2 e.layer ++ leBytes 1 e.proj ++ [0] ++ leBytes 2 e.inW ++ leBytes 2 e.outW ++ leBytes 2 e.rank ++ leBytes 1 e.aFmt ++
    leBytes 1 e.bFmt ++ List.replicate 4 0 ++ leBytes 4 e.shrinkOff ++ leBytes 4 e.expandOff ++ leBytes 4 e.rankVecOff ++
    leBytes 4 e.outVecOff

/-! ### Row-map entries -/

/-- A row-map entry (Table 4.1). -/
structure RowEntry where
  key : Word64
  target : Nat
  mode : Nat
  tenant : Nat
  model : Nat
  /-- a reserved bit is set, or `TARGET` does not fit its mode (R63) -/
  bad : Bool
  deriving DecidableEq, Repr

/-- Decode a row-map entry. `MODE` 0b01 needs `TARGET`[23:16] zero and `MODE` 0b10 needs it zero (Table 4.1). -/
def rowEntry (bs : List Byte) : RowEntry :=
  let mode := le bs 11 1 % 4
  let target := le bs 8 3
  { key := BitVec.ofNat 64 (le bs 0 8), target, mode, tenant := le bs 12 2 % 4096, model := le bs 14 1
    bad := mode = 3 || le bs 11 1 / 4 ≠ 0 || le bs 12 2 / 4096 ≠ 0 || le bs 14 1 / 16 ≠ 0 || le bs 15 1 ≠ 0 ||
      (mode = 1 && target / 65536 ≠ 0) || (mode = 2 && target ≠ 0) }

end Sys2Proof.Machine
end

