-- ==== Sys2Proof/Machine/Wire.lean ====
section
/-! DEFINITION. Block-to-block messages as bytes (R227, R228, Tables 10.1 and 10.3): the header, the payloads that the spec lays
out, and the runs of messages that a large payload takes. -/
namespace Sys2Proof.Machine

/-- The header of a message in its byte order (Table 10.3). -/
def headerBytes (type : Nat) (h : MsgHdr) : List Byte :=
  [BitVec.ofNat 8 type, BitVec.ofNat 8 h.fmt, BitVec.ofNat 8 h.src, BitVec.ofNat 8 h.dst] ++ leBytes 4 h.bytes ++ leBytes 8 h.seq ++
    leBytes 8 h.corr ++ leBytes 2 h.epoch ++ leBytes 2 h.ctxEpoch ++
    [BitVec.ofNat 8 h.submitter, BitVec.ofNat 8 h.status, if h.more then 1 else 0, 0]

/-- One message of a run: its payload's length, the payload where the spec lays it out, and `MSG_MORE`. -/
structure WirePart where
  bytes : Nat := 0
  payload : List Byte := []
  more : Bool := false
  deriving DecidableEq, Repr

/-- A message whose payload is laid out. -/
def laidOut (more : Bool) (payload : List Byte) : WirePart := { bytes := payload.length, payload, more }

/-- Data in pieces of at most `n` bytes, one piece at the least. -/
def piecesOf (n : Nat) (d : List Byte) : List (List Byte) :=
  (List.range (max 1 (ceilDiv d.length n))).map fun i => (d.drop (n * i)).take n

/-- A run of pieces: every message but the last has a further one behind it (R228). -/
def runOf (ps : List (List Byte)) : List WirePart :=
  (List.zip (List.range ps.length) ps).map fun x => laidOut (x.1 + 1 < ps.length) x.2

/-- Data bytes of one segment at most, and payload bytes of one message (R228). -/
def segmentMax : Nat := 1048544
def payloadMax : Nat := 1048576

/-- The segment header of R228. -/
def segHdrBytes (g : SegHdr) : List Byte :=
  leBytes 3 g.adapter ++ [0] ++ leBytes 6 g.version ++ leBytes 2 g.index ++ leBytes 4 g.total ++ leBytes 4 g.offset ++
    leBytes 4 g.length ++ leBytes 8 g.crc.toNat

/-- The segment header that a message's arguments end with: adapter, version, index, length of the tensor, offset, length, CRC-64. -/
def segHdrOf (args : List Nat) : SegHdr :=
  let t := args.drop (args.length - 7)
  { adapter := t.getD 0 0, version := t.getD 1 0, index := t.getD 2 0, total := t.getD 3 0, offset := t.getD 4 0
    length := t.getD 5 0, crc := BitVec.ofNat 64 (t.getD 6 0) }

/-- The run of one tensor's segments (R228): ascending offsets, the CRC-64 on the last segment of the tensor alone. -/
def segmentRun (g : SegHdr) (d : List Byte) : List WirePart :=
  let ps := piecesOf segmentMax d
  (List.zip (List.range ps.length) ps).map fun x =>
    let at_ := g.offset + segmentMax * x.1
    let last : Bool := at_ + x.2.length = g.total
    laidOut (!last) (segHdrBytes { g with offset := at_, length := x.2.length, crc := if last then g.crc else 0 } ++ x.2)

/-- The 64-byte class entry of `M_FAR_OPEN` (R220): 16 bytes a component, adapter 0xFF_FFFF where it is not used. -/
def farClassBytes (cs : List FarComp) : List Byte :=
  ((cs ++ List.replicate 4 ({} : FarComp)).take 4).flatMap fun (c : FarComp) =>
    leBytes 3 c.adapter ++ [(0 : Byte)] ++ leBytes 6 c.version ++ [0, 0] ++ leBytes 4 c.weight.toNat

/-- The payload header of Table 10.1 of a slot, given as layer, projection, widths and activation format, and a count of rows. -/
def farHeadBytes (slot : List Nat) (rows : Nat) : List Byte :=
  leBytes 2 (slot.getD 0 0) ++ leBytes 1 (slot.getD 1 0) ++ [0] ++ leBytes 2 (slot.getD 2 0) ++ leBytes 2 (slot.getD 3 0) ++
    leBytes 1 (slot.getD 4 0) ++ [0, 0, 0] ++ leBytes 4 rows

/-- A row record of Table 10.1, its data padded to a multiple of 16 bytes. -/
def farRowBytes (row class_ : Nat) (d : List Byte) : List Byte :=
  leBytes 4 row ++ leBytes 2 class_ ++ List.replicate 10 0 ++ d ++ List.replicate (roundUp d.length 16 - d.length) 0

/-- The messages of a slot's row records: as many as their payloads need, each alone with a header of its own (R228). `per` is the
bytes of one record. -/
def farMessages (slot : List Nat) (per : Nat) (records : List Byte) : List WirePart :=
  let fit := min 65536 ((payloadMax - 16) / max 1 per)
  (piecesOf (max 1 fit * max 1 per) records).map fun d => laidOut false (farHeadBytes slot (d.length / max 1 per) ++ d)

/-- The records of far rows or of their sums: the rows and classes of a message's arguments, each with its `n` bytes of data, in order. -/
def farRecords (n : Nat) : List Nat → List Byte → List Byte
  | r :: c :: t, d => farRowBytes r c (d.take n) ++ farRecords n t (d.drop n)
  | _, _ => []

/-- The bytes of the header and slot table that an entry of a look-up answer begins with. -/
def answerLength (d : List Byte) : Nat := 64 + 32 * (hdrFields d).slotCount

/-- The entries of an answer whose entries take `n` arguments each (R228). What an entry is beyond what it carries is open (log entry
20). -/
def entriesOf (type n : Nat) : Nat → List Nat → List Byte → List (List Byte)
  | 0, _, _ => []
  | fuel + 1, args, d =>
    if args.isEmpty then []
    else
      let k := if type = 0x02 && args.getD 1 1 = 0 then answerLength d else 0
      Config.openPayload type (args.take n) (d.take k) :: entriesOf type n fuel (args.drop n) (d.drop k)

/-- Whole entries in as few payloads as their order allows (R228). -/
def packEntries (entries : List (List Byte)) : List (List Byte) :=
  (entries.foldl (fun acc e =>
    match acc with
    | [] => [e]
    | p :: t => if p.length + e.length ≤ payloadMax then (p ++ e) :: t else e :: p :: t) []).reverse

/-- The messages of the rows of one slot: `head` are the arguments before the slot, `rows` those behind it, with data of equal length. -/
def farRun (slot rows : List Nat) (data : List Byte) : List WirePart :=
  let n := data.length / max 1 (rows.length / 2)
  farMessages slot (farRowBytes 0 0 (data.take n)).length (farRecords n rows data)

/-- The messages that a message of the block travels as (R228): tensor segments, far rows and pooled sums, directory entries, a
forwarded command, answers of whole entries, the class entries of a far opening behind a head that the spec does not lay out. A payload
that it does not lay out is free (log entry 20). -/
def messagesOf (m : Msg) : List WirePart :=
  match m.type with
  | 0x11 | 0x32 | 0x65 | 0x66 => segmentRun (segHdrOf m.args) m.data
  | 0x22 => farRun ((m.args.drop 1).take 5) (m.args.drop 6) m.data
  | 0x23 => farRun (m.args.take 5) (m.args.drop 5) m.data
  | 0x20 => [laidOut false (Config.openPayload 0x20 (m.args.take 3) [] ++ m.data)]
  | 0x40 | 0x42 => runOf (piecesOf payloadMax m.data)
  | 0x02 => runOf (packEntries (entriesOf 0x02 4 m.args.length m.args m.data))
  | 0x04 => runOf (packEntries (entriesOf 0x04 3 m.args.length m.args m.data))
  | 0x25 | 0x26 | 0x35 => [{}]
  | t => [laidOut false (Config.openPayload t m.args m.data)]

/-- The types whose messages may travel in a run (R228). -/
def runs (type : Nat) : Bool := [0x02, 0x04, 0x11, 0x32, 0x40, 0x42, 0x65, 0x66].contains type

/-- One message of a connection (R227): the header in the clear, the payload encrypted under the connection's key with its salt and
`MSG_SEQ` as the nonce, and the tag, which the header enters as additional authenticated data. -/
def sealed (key : KeySlot) (seq : Nat) (head payload : List Byte) : List Byte :=
  let nonce := leBytes 4 key.salt.toNat ++ leBytes 8 seq
  let cipher := (List.range payload.length).map fun i => (Config.gcmCipher key.key nonce payload).getD i 0
  head ++ cipher ++ leBytes 16 (Config.gcmTag key.key nonce head cipher).toNat

/-- The messages of a run as they leave, `seq` being the last `MSG_SEQ` of their connection: each header with its own `MSG_SEQ`,
`PAYLOAD_BYTES` and `MSG_MORE`. -/
def wireOf (key : KeySlot) (src seq : Nat) (m : Msg) : List (List Byte) :=
  let run := messagesOf m
  (List.zip (List.range run.length) run).map fun x =>
    sealed key (seq + 1 + x.1) (headerBytes m.type {
      src, dst := m.dst, seq := seq + 1 + x.1, corr := m.corr, epoch := m.epoch, ctxEpoch := m.ctxEpoch
      submitter := m.submitter, status := m.status, more := x.2.more, bytes := x.2.bytes }) x.2.payload

end Sys2Proof.Machine
end

