-- ==== Sys2Proof/Machine/Catalogue.lean ====
section
/-! DEFINITION. The catalogue: homes (R208, R211), versions current at a sequence (R10, R18), retirement (R20), the joins of
R16, R23 and R25, bucket sets and their members (R25, R26), the mixtures of R29, and the catalogue image's records. -/
namespace Sys2Proof.Machine

/-! ### Homes -/

/-- `SELF_PEER` and `RACK_SIZE` (Table 10.9). -/
def selfPeer (s : State) : Nat := regFld s pgHomes 0x080 0 7
def rackSize (s : State) : Nat := regFld s pgHomes 0x080 8 7

/-- The shard of an adapter ID (R208). -/
def shardOf (a : AdapterId) : Nat := a * 0x9E3779B1 % 2 ^ 32 / 2 ^ 20

/-- The shard of a (tenant, key) pair of the directory (R211). -/
def dirShardOf (tenant : Nat) (key : Word64) : Nat :=
  ((key.toNat % 2 ^ 32) ^^^ (key.toNat / 2 ^ 32) ^^^ tenant) * 0x9E3779B1 % 2 ^ 32 / 2 ^ 20

/-- The home of an adapter (R208): its exception entry (kept as peer + 1), or its shard's home. -/
def homeOf (cat : Catalogue) (a : AdapterId) : Nat :=
  if tget 0 cat.exceptions a = 0 then tget 0 cat.shard (shardOf a) else tget 0 cat.exceptions a - 1

/-- The key home of a (tenant, key) pair (R211). -/
def keyHomeOf (cat : Catalogue) (tenant : Nat) (key : Word64) : Nat := tget 0 cat.shard (dirShardOf tenant key)

/-- The adapter is homed on this block. -/
def homedHere (s : State) (a : AdapterId) : Bool := homeOf s.cat a = selfPeer s

/-- Where a version is stored: at the home that it had before a cutover, where gyles of this block bind it from before, else at its
adapter's home (R216, R233). -/
def homeFor (s : State) (cat : Catalogue) (a : AdapterId) (v : Nat) : Nat :=
  match s.homes.pastHomes.find? fun x => x.epoch = cat.epoch && x.adapter = a && x.version = v with
  | some x => x.home
  | none => homeOf cat a

/-- The context epoch that a request for a context carries (R224); 0 for one that no context makes. -/
def ctxEpochOf (s : State) (c : Option Nat) : Nat := (c.map fun c => (s.ctx c).epoch).getD 0

/-- The peer is up (`PEER_LINK`). -/
def peerUp (s : State) (p : Nat) : Bool := s.homes.peersUp.contains p

/-! ### Messages -/

/-- Send a message (Table 10.3): `MSG_SEQ` of its connection rises by one for each message of the run (R227), and the fabric
port of its peer counts the bytes sent, headers and tags included (R441, Table 23.15). Nothing leaves to a peer whose link is down. -/
def sendMsg (s : State) (m : Msg) : State :=
  if !peerUp s m.dst then s else
  let run := messagesOf m
  let wire := wireOf ((tget none s.keys.connections (2 * m.dst)).getD {}) (selfPeer s) (tget 0 s.homes.txSeq m.dst) m
  let s := { s with
    homes := { s.homes with txSeq := tmod 0 s.homes.txSeq m.dst (· + run.length) }
    boundary := { s.boundary with
      fab := tmod {} s.boundary.fab (m.dst % 16) fun p =>
        { p with txBytes := sat 64 (p.txBytes + 48 * run.length + (run.map (·.bytes)).sum) } } }
  emit s (.message m wire)

/-- Send a request and wait for its answer (R217); its `CORR` is the sequence of the sending event (R226). -/
def sendReq (s : State) (m : Msg) (gk : Option GyleKey) : State :=
  let m := { m with corr := s.gauger.seq }
  let s := sendMsg s m
  { s with homes := { s.homes with requests := s.homes.requests ++ [{ msg := m, gk }] } }

/-- Ask an adapter's home what it is (R213), at an event of its own. -/
def askHome (s : State) (epoch home submitter : Nat) (a : AdapterId) : State :=
  sendReq (stamp s) { type := 0x01, dst := home, epoch, submitter, args := [a] } none

/-! ### Adapters and versions -/

/-- The catalogue's record of an adapter. -/
def Catalogue.adapter (c : Catalogue) (a : AdapterId) : Adapter := tget {} c.adapters a

/-- Change the record of an adapter in the catalogue in force. -/
def modAdapter (s : State) (a : AdapterId) (f : Adapter → Adapter) : State :=
  { s with cat := { s.cat with adapters := tmod {} s.cat.adapters a f } }

/-- A stored version. -/
def Adapter.ver (x : Adapter) (v : Nat) : Option Ver := x.versions.find? fun y => y.version = v

/-- The current version; none where the adapter is unknown. -/
def Adapter.cur (x : Adapter) : Option Ver := if x.current = 0 then none else x.ver x.current

/-- The version current at a sequence (R10): the newest one published before it. -/
def Adapter.verAt (x : Adapter) (seq : Seq) : Option Ver := x.versions.find? fun y => y.pubSeq < seq

/-- The adapter was retired before a sequence (R20). -/
def Adapter.retiredAt (x : Adapter) (seq : Seq) : Bool := x.retired && x.retiredSeq < seq

/-- The catalogue of an epoch that this block still holds; the one in force otherwise (R21, R237). -/
def catOf (s : State) (epoch : Nat) : Catalogue :=
  match s.catRetiring with
  | some c => if s.cat.epoch ≠ epoch ∧ c.epoch = epoch then c else s.cat
  | none => s.cat

/-- A version of an adapter in the catalogue of an epoch. -/
def verOf (s : State) (epoch : Nat) (a : AdapterId) (v : Nat) : Option Ver := ((catOf s epoch).adapter a).ver v

/-- This block knows what an adapter of a catalogue is: it is homed here, retired, or a version of it stands under a lease (R213). -/
def knownIn (s : State) (cat : Catalogue) (a : AdapterId) : Bool :=
  homeOf cat a = selfPeer s || (cat.adapter a).retired ||
    s.homes.leases.any fun l => l.adapter = a && l.epoch = cat.epoch && l.version = (cat.adapter a).current

/-- A catalogue without the copies of headers that stand under no lease any more: their homes may have changed or purged them. -/
def knownCat (s : State) (cat : Catalogue) : Catalogue :=
  { cat with adapters := cat.adapters.filter fun e => knownIn s cat e.1 }

/-- Of some adapters, those that a look-up must tell of first: `asked` are the look-ups of them, 1 sent, 2 answered. -/
def unseenIn (s : State) (cat : Catalogue) (asked : Tab Nat) (ids : List AdapterId) : List AdapterId :=
  (ids.filter fun a => a ≠ 0 && a ≠ 0xFFFFFF && !knownIn s cat a && tget 0 asked a ≠ 2).eraseDups

/-- Of the adapters that a command names, those that a look-up must tell of first (R20, R213). -/
def unseen (s : State) (asked : Tab Nat) (ids : List AdapterId) : List AdapterId := unseenIn s s.cat asked ids

/-- One look-up for each of some adapters that has not been asked for; and the look-ups with these (R213). -/
def askAll (s : State) (cat : Catalogue) (submitter : Nat) (asked : Tab Nat) (ids : List AdapterId) : State × Tab Nat :=
  (ids.filter fun a => tget 0 asked a = 0).foldl (fun acc a =>
    (askHome acc.1 cat.epoch (homeOf cat a) submitter a, tput a 1 acc.2)) (s, asked)

/-- Change a stored version in the catalogue in force. -/
def modVer (s : State) (a : AdapterId) (v : Nat) (f : Ver → Ver) : State :=
  modAdapter s a fun x => { x with versions := x.versions.map fun y => if y.version = v then f y else y }

/-- The version a gyle binds of an adapter (R10, R213): the one current at its opening when the adapter is homed here, or the
one of its lease or look-up answer. -/
def boundVer (s : State) (g : Gyle) (a : AdapterId) : Option Ver :=
  let cat := catOf s g.epoch
  let x := cat.adapter a
  match tget 0 g.remoteBound a with
  | 0 => if homeOf cat a ≠ selfPeer s then none else x.verAt g.openSeq
  | v => x.ver v

/-- Tensor index and bytes of each tensor and vector of an adapter (R41, R247), each rounded up to a multiple of 64. -/
def tensorSizes (h : AdapterHdr) (es : List SlotEntry) : List (Nat × Nat) :=
  (List.zip (List.range es.length) es).flatMap fun e =>
    (List.zip [2 * e.1, 2 * e.1 + 1] (slotExtents h e.2)).map fun x => (x.1, roundUp x.2.2 64)

/-- The indices of a version's state arrays, which follow those of its slots (R247). -/
def stateIndices (v : Ver) : List Nat :=
  match v.state with
  | none => []
  | some st => (List.range (2 * v.slots.length * arraysPer st.optKind)).map (2 * v.slots.length + ·)

/-- Every tensor and state array of a version. -/
def verIndices (v : Ver) : List Nat := List.range (2 * v.slots.length) ++ stateIndices v

/-- Bytes of a version's state area; 0 where the adapter is not trainable. -/
def verStateBytes (v : Ver) : Nat :=
  match v.state with
  | none => 0
  | some st => stateBytes v.hdr v.slots st

/-- `CASK_BYTES`: `TENSOR_BYTES` plus the state area (Table 8.5). -/
def verBytes (v : Ver) : Nat := v.hdr.tensorBytes + verStateBytes v

/-- The version is, or was until a step took its state area, trainable (R148, R155). -/
def Ver.trainable (v : Ver) : Bool := v.state.isSome || v.stateFreed

/-- The bytes of the tensor of an index, as the version holds them. -/
def Ver.tensor (v : Ver) (i : Nat) : Option Tensor := v.tensors.find? fun t => t.index = i

/-- The bytes of a tensor or state array as the version holds them. -/
def storedBytes (v : Ver) (i : Nat) : List Byte :=
  match v.tensor i with
  | some t => t.bytes
  | none => ((v.state.bind fun st => st.arrays[i - 2 * v.slots.length]?).getD [])

/-- A version of an epoch shares its storage with the version of another epoch that it was carried from (R235). -/
def Ver.carried (epoch : Nat) (v : Ver) : Bool := v.origin.any (·.1 ≠ epoch)

/-- A version that takes over all that another holds, which stands under its epoch (R235, R344): where its tensors and state arrays were
written stays on record. -/
def Ver.shared (epoch : Nat) (v : Ver) : Ver :=
  { v with
    tensors := v.tensors.map fun t => { t with epoch := some (t.epoch.getD epoch) }
    origin := some (v.origin.getD (epoch, v.version)) }

/-- The version that an arriving adapter brings (R232): its tensors, its state arrays, each with its CRC-64, and the state header behind
them. -/
def RackIn.ver (r : RackIn) : Ver :=
  let n := 2 * r.slots.length
  let more := sortBy (fun (x y : Tensor) => x.index < y.index) (r.tensors.filter fun t => n ≤ t.index)
  { version := r.version, hdr := { r.hdr with version := r.version }, slots := r.slots
    tensors := r.tensors.filter fun t => t.index < n
    state := more.getLast?.map fun t =>
      { stateFields t.bytes 0 with arrays := (more.dropLast).map (·.bytes), crcs := (more.dropLast).map (·.crc) } }

/-- The CRC-64 that a tensor or state array has carried since it came into being (R248). -/
def crcOf (v : Ver) (i : Nat) : Word64 :=
  match v.tensor i with
  | some t => t.crc
  | none => ((v.state.bind fun st => st.crcs[i - 2 * v.slots.length]?).getD 0)

/-- The catalogue epoch under which a tensor of a version was written: that of the version, unless it was carried (R235). -/
def epochOf (v : Ver) (epoch i : Nat) : Nat :=
  match v.tensor i with
  | some t => t.epoch.getD epoch
  | none => (v.origin.map (·.1)).getD epoch

/-- The version that wrote a tensor of a version (R325): its own, unless it shares an older one. -/
def writerOf (v : Ver) (i : Nat) : Nat :=
  match v.tensor i with
  | some t => t.writer
  | none => v.version

/-! ### Joins -/

/-- The entry of a slot table at a slot. -/
def slotAt (es : List SlotEntry) (layer proj : Nat) : Option SlotEntry := es.find? fun e => e.layer = layer && e.proj = proj

/-- The adapter matches the base model of a plan: fingerprint, and widths at every slot that both list (R16). -/
def matchesPlan (p : Plan) (model : Nat) (v : Ver) : Bool :=
  p.models[model]? = some v.hdr.fp &&
    p.slots.all fun ps => ps.model ≠ model || match slotAt v.slots ps.layer ps.proj with
      | some e => e.inW = ps.inW && e.outW = ps.outW
      | none => true

/-- Member slot `e` agrees with its basis (R23, R38). -/
def memberSlotOk (basis : Ver) (e : SlotEntry) : Bool :=
  match slotAt basis.slots e.layer e.proj with
  | some b => b.rank = e.rank && b.inW = e.inW && b.outW = e.outW && b.aFmt = e.aFmt && b.bFmt = e.bFmt
  | none => false

/-- The join of a member and a basis (R23), in the order of its list: none when it holds. The zero adapter exists in every catalogue
(R17) and is no basis. -/
def memberJoin (h : AdapterHdr) (es : List SlotEntry) (b : Adapter) : Option Nat :=
  if h.basisId = 0 then some stBadField else
  match b.cur with
  | none => some (if b.retired then stPurged else stUnknownAdapter)
  | some basis =>
    if b.retired then some stPurged
    else if basis.hdr.form ≠ .basis then some stBadField
    else if basis.hdr.fp ≠ h.fp then some stBaseMismatch
    else if !es.all (memberSlotOk basis) then some stBadField
    else if basis.hdr.tenant ≠ h.tenant && !basis.hdr.shared then some stNoPermission
    else none

/-- The current members of a basis in a catalogue. -/
def membersOf (cat : Catalogue) (b : AdapterId) : List Ver :=
  cat.adapters.filterMap fun e => match e.2.cur with
    | some v => if v.hdr.form = .member && v.hdr.basisId = b && !e.2.retired then some v else none
    | none => none

/-- The set that covers an ID at 2^k members, when its base member is current (R25): the base member's header. -/
def setAt (cat : Catalogue) (base k : Nat) : Option AdapterHdr :=
  if base = 0 || base % 2 ^ k ≠ 0 then none
  else match (cat.adapter base).cur with
    | some v => if v.hdr.bucketMember && v.hdr.bucketBase = base && v.hdr.bucketLog2 = k && !(cat.adapter base).retired
        then some v.hdr else none
    | none => none

/-- The bucket set based at an ID, if it exists in the catalogue (R25): its base member's header. -/
def setOf (cat : Catalogue) (base : AdapterId) : Option AdapterHdr :=
  match (cat.adapter base).cur with
  | some v => setAt cat base v.hdr.bucketLog2
  | none => none

/-- A header agrees with another member of its bucket set (R25). -/
def sameSet (h o : AdapterHdr) : Option Nat :=
  if !o.bucketMember || o.bucketBase ≠ h.bucketBase || o.bucketLog2 ≠ h.bucketLog2 || o.tenant ≠ h.tenant then some stBadField
  else if o.fp ≠ h.fp then some stBaseMismatch
  else none

/-- The bucket-set join of an adapter (R25): against every set that covers its ID, and against the current adapters of the
range that its own header claims. What a member is held against while its set has no base member is the model's choice (log entry 45). -/
def bucketJoin (cat : Catalogue) (h : AdapterHdr) : Option Nat :=
  let covering := (List.range 12).filterMap fun j =>
    let base := h.id - h.id % 2 ^ (j + 1)
    if base = h.id then none else setAt cat base (j + 1)
  let others := if h.bucketMember then
      cat.adapters.filterMap fun e =>
        if h.bucketBase ≤ e.1 && e.1 < h.bucketBase + 2 ^ h.bucketLog2 && e.1 ≠ h.id && !e.2.retired
        then e.2.cur.map (·.hdr) else none
    else []
  (covering.findSome? fun o => if !h.bucketMember then some stBadField else sameSet h o).or
    (others.findSome? fun o => sameSet h o)

/-- The join of an adapter with the members of a catalogue that name it as their basis: a new version of a basis is held against
them by the list of R23 (log entry 16). -/
def basisJoin (cat : Catalogue) (h : AdapterHdr) (es : List SlotEntry) : Option Nat :=
  if h.form = .basis then
    (membersOf cat h.id).findSome? fun m =>
      memberJoin m.hdr m.slots { current := 1, versions := [{ version := 1, hdr := h, slots := es }] }
  else if (membersOf cat h.id).isEmpty then none else some stBadField

/-- The join of a member with its basis in a catalogue (R23). -/
def ownJoin (cat : Catalogue) (h : AdapterHdr) (es : List SlotEntry) : Option Nat :=
  if h.form = .member then memberJoin h es (cat.adapter h.basisId) else none

/-- The joins of R16, R23 and R25 of an adapter against a catalogue: none when all hold. -/
def joinStatus (cat : Catalogue) (h : AdapterHdr) (es : List SlotEntry) : Option Nat :=
  (ownJoin cat h es).or ((basisJoin cat h es).or (bucketJoin cat h))

/-- The adapters against which an image's adapter is held: the basis of a member, and each base whose set could cover its ID
(R23, R25). -/
def joinNeeds (h : AdapterHdr) : List AdapterId :=
  (if h.form = .member then [h.basisId] else []) ++
    ((List.range 12).map fun j => h.id - h.id % 2 ^ (j + 1)).filter (· ≠ h.id)

/-- The first field of a member's slot entries that its basis does not bear out (R23). -/
def slotOffset (basis : Ver) (es : List SlotEntry) : Nat :=
  let i := (es.findIdx? fun e => !memberSlotOk basis e).getD 0
  64 + 32 * i + match es[i]? with
    | none => 0
    | some e => match slotAt basis.slots e.layer e.proj with
      | none => 0
      | some b => if b.inW ≠ e.inW then 4 else if b.outW ≠ e.outW then 6 else if b.rank ≠ e.rank then 8 else if b.aFmt ≠ e.aFmt then 10 else 11

/-- The byte of an image by which its adapter fails a join with `BAD_FIELD` (R279): of a member `BASIS_ID` or a slot entry's field;
of what members name as their basis the form, or `SLOT_COUNT` where their slots do not fit; of a bucket set the attribute, `TENANT`,
`BUCKET_LOG2` or `BUCKET_BASE`. That these are the offending fields is the model's choice (log entry 16). -/
def joinOffset (cat : Catalogue) (h : AdapterHdr) (es : List SlotEntry) : Nat :=
  if (ownJoin cat h es).isSome then
    match (cat.adapter h.basisId).cur with
    | some b => if h.basisId = 0 || b.hdr.form ≠ .basis then 32 else slotOffset b es
    | none => 32
  else if (basisJoin cat h es).isSome then (if h.form = .basis then 6 else 3)
  else if !h.bucketMember then 3
  else match setOf cat h.bucketBase with
    | some o => if o.tenant ≠ h.tenant then 4 else if o.bucketLog2 ≠ h.bucketLog2 then 35 else 36
    | none => 36

/-- The refusal of an adapter image by a join (R23, R25, R290). -/
def joinBad (cat : Catalogue) (h : AdapterHdr) (es : List SlotEntry) : Option Bad :=
  (joinStatus cat h es).map fun st =>
    if st = stBadField then { status := st, off := 8, imageOff := joinOffset cat h es } else { status := st }

/-! ### Bucket members and mixtures -/

/-- The bucket index of a key under a tenant's salt (R26). -/
def bucketIndex (salt : Word64 × Word64) (key : Word64) (k : Nat) : Nat :=
  (sipHash salt.1 salt.2 (leBytes 8 key.toNat)).toNat % 2 ^ k

/-- The checks of R29 on the components of a mixture that need the catalogue, in R29's order; its weights and repetitions are
checked with the descriptor. `tenant` is the tenant that the descriptor names. -/
def mixStatus (cat : Catalogue) (tenant : Nat) (bound : Bool) (cs : List MixComp) : Option Nat :=
  let hdrs := cs.filterMap fun c => (cat.adapter c.id).cur.map (·.hdr)
  if !bound || hdrs.any fun h => h.tenant ≠ tenant then some stNoPermission
  else (cs.findSome? fun c =>
      let x := cat.adapter c.id
      if x.retired then some stPurged
      else if x.current = 0 then some stUnknownAdapter
      else if c.isSet && (setOf cat c.id).isNone then some stBadField
      else none).or
    (if hdrs.any fun h => hdrs.any fun o => h.fp ≠ o.fp then some stBaseMismatch
     else if hdrs.any fun h => h.form = .basis then some stBadField
     else none)

/-- The fingerprint of a mixture: its components' own. -/
def mixFp (cat : Catalogue) (cs : List MixComp) : Word64 :=
  ((cs.head?.bind fun c => (cat.adapter c.id).cur).map (·.hdr.fp)).getD 0

/-! ### Images -/

/-- The tensors of an image: for a factor or a vector, the bytes at its offset in the tensor area, with its CRC-64 (R248). -/
def imageTensors (h : AdapterHdr) (es : List SlotEntry) (area : List Byte) : List Tensor :=
  (List.zip (List.range es.length) es).flatMap fun e =>
    (List.zip [2 * e.1, 2 * e.1 + 1] (slotExtents h e.2)).map fun x =>
      let bs := (area.drop x.2.1).take x.2.2
      { index := x.1, bytes := bs, crc := crc64 bs, writer := h.version }

/-- The new version that an adapter image makes (R37, R282): its state area from its state header (arrays zeroed, `STEP_COUNT`
0, `B1T` and `B2T` 1.0), or carried over from the version before with zeroed arrays (R151). -/
def imageVer (bs : List Byte) (stateHdr : Bool) (old : Option Ver) : Ver :=
  let h := hdrFields bs
  let es := slotTable bs
  let st : Option StateArea :=
    if stateHdr then some (stateFields bs (stateStart h))
    else (old.bind (·.state))
  let fresh := st.map fun x =>
    ({ x with stepCount := 0, b1t := one32, b2t := one32 } : StateArea).withArrays (zeroArrays h es x)
  { version := h.version, hdr := h, slots := es, tensors := imageTensors h es (bs.drop (areaStart h.slotCount)), state := fresh }

end Sys2Proof.Machine
end

