-- ==== Sys2Proof/Machine/Cipher.lean ====
section
/-! DEFINITION. How the kiln enciphers a tensor (R259): the XTS key of a data seed by the counter-mode KDF, AES-256-XTS over units of
4,096 bytes with ciphertext stealing, and the wrapped seed. AES, HMAC and KW themselves are opaque (log entry 7). -/
namespace Sys2Proof.Machine

/-- A cipher block as the number that its bytes spell, the first lowest. -/
def cipherBlock (bs : List Byte) : BitVec 128 := BitVec.ofNat 128 (leNat bs)
def cipherBytes (b : BitVec 128) : List Byte := leBytes 16 b.toNat

/-- The two halves of the XTS key: iterations 1 and 2 of the KDF in counter mode, the counter of 32 bits with its high byte first. -/
def xtsKey (seed : BitVec 256) : BitVec 256 × BitVec 256 :=
  let k := fun (i : Nat) => Config.hmacSha256 seed ((leBytes 4 i).reverse ++ Config.kdfInfo)
  (k 1, k 2)

/-- Times the primitive element of GF(2^128): the next block's mask. -/
def xtsNext (t : BitVec 128) : BitVec 128 := (t <<< 1) ^^^ (if t.msb then 0x87 else 0)

/-- The tweak of a unit: its index in the tensor in [31:0], the tensor index in [47:32]. -/
def unitTweak (tensor unit : Nat) : BitVec 128 := BitVec.ofNat 128 (tensor % 2 ^ 16 * 2 ^ 32 + unit % 2 ^ 32)

/-- One block under its mask. -/
def xtsBlock (k t : BitVec 128 → BitVec 128) (mask : BitVec 128) (bs : List Byte) : List Byte :=
  cipherBytes (t (k (t (cipherBlock bs) ^^^ mask)) ^^^ mask)

/-- The blocks of a unit: whole ones in turn; a last one that is short takes the end of the one before it (ciphertext stealing). `fuel` is
their number. -/
def xtsBlocks (k : BitVec 256) : (fuel : Nat) → BitVec 128 → List Byte → List Byte
  | 0, _, _ => []
  | n + 1, mask, bs =>
    let block := fun (m : BitVec 128) (b : List Byte) => xtsBlock (Config.aes256 k) id m b
    if bs.length ≤ 16 then block mask bs
    else if bs.length < 32 then
      let c := block mask (bs.take 16)
      let rest := bs.drop 16
      block (xtsNext mask) (rest ++ c.drop rest.length) ++ c.take rest.length
    else block mask (bs.take 16) ++ xtsBlocks k n (xtsNext mask) (bs.drop 16)

/-- A data unit, enciphered. One shorter than a cipher block has no XTS form (log entry 61). -/
def xtsUnit (seed : BitVec 256) (tensor unit : Nat) (bs : List Byte) : List Byte :=
  if bs.length < 16 then Config.shortUnit seed tensor unit bs
  else
    let k := xtsKey seed
    xtsBlocks k.1 bs.length (Config.aes256 k.2 (unitTweak tensor unit)) bs

/-- Units from number `u` on. `fuel` is at least their number. -/
def xtsUnits (seed : BitVec 256) (tensor : Nat) : (fuel u : Nat) → List Byte → List Byte
  | 0, _, _ => []
  | n + 1, u, bs => if bs.isEmpty then [] else xtsUnit seed tensor u (bs.take 4096) ++ xtsUnits seed tensor n (u + 1) (bs.drop 4096)

/-- A tensor as the kiln stores it. -/
def encryptTensor (seed : BitVec 256) (tensor : Nat) (bs : List Byte) : List Byte := xtsUnits seed tensor bs.length 0 bs

/-- What deciphering stored bytes yields, of a tensor whose content is known to be `plain`: that content where they are its stored
form; of any others the model knows nothing (log entry 61). -/
def decryptTensor (seed : BitVec 256) (tensor : Nat) (plain stored : List Byte) : List Byte :=
  if stored = encryptTensor seed tensor plain then plain else Config.decipher seed tensor stored

/-- Deciphering undoes enciphering. -/
theorem decryptTensor_encryptTensor (seed : BitVec 256) (tensor : Nat) (bs : List Byte) :
    decryptTensor seed tensor bs (encryptTensor seed tensor bs) = bs := by simp [decryptTensor]

end Sys2Proof.Machine
end

