-- ==== Sys2Proof/Machine/Parity.lean ====
section
/-! DEFINITION. The parity of the kiln's stripes (R244): P and Q over GF(2^8), and the byte of a column that cannot be read from the
bytes of the others. -/
namespace Sys2Proof.Machine

/-! ### GF(2^8) -/

/-- Times the generator 0x02, under the polynomial 0x11D. -/
def gfDouble (b : Byte) : Byte := (b <<< 1) ^^^ (if b.msb then 0x1D else 0)

/-- The product: Horner over the bits of `a`, the highest first. -/
def gfMul (a b : Byte) : Byte :=
  (List.range 8).foldl (fun acc k => gfDouble acc ^^^ (if a.getLsbD (7 - k) then b else 0)) 0

/-- The generator to the power `k`. -/
def gfPow (k : Nat) : Byte := (List.range k).foldl (fun b _ => gfDouble b) 1

/-- The inverse of a nonzero byte, its power 254. -/
def gfInv (a : Byte) : Byte := (List.range 253).foldl (fun x _ => gfMul x a) a

/-! ### A stripe -/

/-- The devices of a stripe's parity pages: s mod 32 and (s + 1) mod 32, and of a stripe that leaves columns out, the first that it has
from there on (log entry 61). -/
def pColumn (cols : List Nat) (stripe : Nat) : Nat := (cols.find? (stripe % 32 ≤ ·)).getD (cols.headD 0)
def qColumn (cols : List Nat) (stripe : Nat) : Nat := (cols.find? (pColumn cols stripe < ·)).getD (cols.headD 0)

/-- The data columns, in ascending device order. -/
def dataColumns (cols : List Nat) (stripe : Nat) : List Nat :=
  cols.filter fun d => d ≠ pColumn cols stripe && d ≠ qColumn cols stripe

/-- P: the XOR of the data columns. -/
def parityP (data : List Byte) : Byte := data.foldl (· ^^^ ·) 0

/-- Q: the Reed-Solomon syndrome of the data columns, in ascending device order. -/
def parityQ (data : List Byte) : Byte := (data.foldl (fun (acc : Byte × Byte) b => (acc.1 ^^^ gfMul acc.2 b, gfDouble acc.2)) (0, 1)).1

/-- The data bytes of a stripe at one place, from the columns that can be read: up to two of its columns may be missing (R244, R258). -/
def solveStripe (cols : List Nat) (stripe : Nat) (col : Nat → Option Byte) : Option (List Byte) :=
  let ds := dataColumns cols stripe
  let known := ds.map fun d => (col d).getD 0
  let gone := (List.range ds.length).filter fun k => (col (ds.getD k 0)).isNone
  let p := (col (pColumn cols stripe)).map (· ^^^ parityP known)
  let q := (col (qColumn cols stripe)).map (· ^^^ parityQ known)
  match gone, p, q with
  | [], _, _ => some known
  | [x], some dp, _ => some (known.set x dp)
  | [x], none, some dq => some (known.set x (gfMul dq (gfInv (gfPow x))))
  | [x, y], some dp, some dq =>
    let bx := gfMul (dq ^^^ gfMul (gfPow y) dp) (gfInv (gfPow x ^^^ gfPow y))
    some ((known.set x bx).set y (dp ^^^ bx))
  | _, _, _ => none

/-- The byte of a column after reconstruction (R245, R253). -/
def reconstruct (cols : List Nat) (stripe : Nat) (col : Nat → Option Byte) (d : Nat) : Option Byte :=
  (solveStripe cols stripe col).bind fun data =>
    if d = pColumn cols stripe then some (parityP data)
    else if d = qColumn cols stripe then some (parityQ data)
    else ((dataColumns cols stripe).zip data).find? (fun x => x.1 = d) |>.map (·.2)

end Sys2Proof.Machine
end

