-- ==== Sys2Proof/Machine/Flash.lean ====
section
/-! DEFINITION. The kiln's medium (R242 to R252, R254, R259): areas and superblocks, pages with their parity, the tensor map and its journal,
checkpoints, and how a tensor is written, moved, removed and read back. What begins and ends these stands in Machine/Kiln.lean. -/
namespace Sys2Proof.Machine

/-! ### Phase, channels and commands -/

/-- The kiln changes phase: one `KILN_PHASE` event (R316). -/
def setKilnPhase (s : State) (ph : KilnPhase) : State :=
  if s.kiln.phase = ph then s else raise { s with kiln := { s.kiln with phase := ph } } pgKiln 1

/-- The kiln serves reads and writes (Table 11.3). One that has lost a stripe shows failed, and all other data is served (R258). -/
def kilnServes (s : State) : Bool := s.kiln.phase = .inService || s.kiln.phase = .degraded || s.kiln.phase = .failed

/-- The kiln does its work: it serves, core pair 1 is there, and no power-failure warning has stopped it (R261, Table 16.2). -/
def kilnWorks (s : State) : Bool := kilnServes s && !pairAway s 1 && !s.pace.pfw

/-- A channel. -/
def State.chan (s : State) (d : Nat) : Channel := tget {} s.kiln.channels d

/-- Change a channel. -/
def modChan (s : State) (d : Nat) (f : Channel → Channel) : State :=
  { s with kiln := { s.kiln with channels := tmod {} s.kiln.channels d f } }

/-- The devices in service, and their number. -/
def serviceColumns (s : State) : List Nat := (List.range 32).filter fun d => (s.chan d).st = .inService
def devicesInService (s : State) : Nat := (serviceColumns s).length

/-- Devices retired (`RETIRED_MASK`). -/
def devicesRetired (s : State) : List Nat := (s.kiln.channels.filter fun e => e.2.st = .retired).map (·.1)

/-- The opcode bytes of a command (Table 11.1). -/
def OnfiCmd.bytes : OnfiCmd → List Byte
  | .reset => [0xFF] | .resetLun => [0xFA] | .readId => [0x90] | .readParameterPage => [0xEC]
  | .getFeatures => [0xEE] | .setFeatures .. => [0xEF] | .getFeaturesByLun => [0xD4] | .setFeaturesByLun => [0xD5]
  | .readStatusEnhanced => [0x78] | .read _ => [0x00, 0x30] | .multiPlaneRead => [0x00, 0x32]
  | .cacheReadSequential => [0x31] | .readCacheEnd => [0x3F] | .changeReadColumnEnhanced => [0x06, 0xE0]
  | .pageProgram _ => [0x80, 0x10] | .multiPlaneProgram => [0x80, 0x11] | .blockErase _ => [0x60, 0xD0] | .multiPlaneErase => [0x60, 0xD1]
  | .zqLong => [0xF9] | .zqShort => [0xD9] | .volumeSelect => [0xE1] | .odtConfigure => [0xE2]
  | .readDqTraining => [0x62] | .writeTrainingTx => [0x63] | .writeTrainingRx => [0x64]

/-- Commands leave on a channel. -/
def issueFlash (s : State) (d : Nat) (cs : List OnfiCmd) : State := emitAll s (cs.map (Output.flash d))

/-- `Set Features` for SLC or native mode, and for a read-retry level (R242, Table 11.10). -/
def slcMode (s : State) (on : Bool) : OnfiCmd :=
  .setFeatures (regFld s pgKiln 0x0C0 0 8) (if on then regFld s pgKiln 0x0C0 8 8 else regFld s pgKiln 0x0C0 16 8)
def retryLevel (s : State) (n : Nat) : OnfiCmd := .setFeatures (regFld s pgKiln 0x0C0 24 8) n

/-! ### Areas and superblocks (R246) -/

/-- Superblocks of the SLC region: as many as its 64 GiB take. -/
def slcBlocks (k : Kiln) : Nat := ceilDiv (64 * gib) (max 1 (k.layout.slcPages * 491520))

/-- The superblocks of an area, from the first up to the one before the second: nine tenths are the data area, the last is the test
area. -/
def areaRange (k : Kiln) : KilnArea → Nat × Nat :=
  let d := k.blocks * 9 / 10
  let c := k.layout.ckptBlocks
  let j := d + 2 * c
  let n := j + k.layout.journalBlocks
  fun
  | .data => (0, d)
  | .ckptA => (d, d + c)
  | .ckptB => (d + c, d + 2 * c)
  | .journal => (j, n)
  | .slc => (n, n + slcBlocks k)
  | .spare => (n + slcBlocks k, k.blocks - 1)
  | .test => (k.blocks - 1, k.blocks)

/-- A superblock; one that no event has touched is erased, and its read counter is the one of all such (R256). -/
def sblock (s : State) (b : Nat) : Superblock := tget { reads := s.kiln.readBase } s.kiln.superblocks b

/-- Change a superblock. -/
def modBlock (s : State) (b : Nat) (f : Superblock → Superblock) : State :=
  { s with kiln := { s.kiln with superblocks := tset { reads := s.kiln.readBase } s.kiln.superblocks b (f (sblock s b)) } }

/-- The superblock belongs to an area: by its place, or as the spare of one that was retired. -/
def inArea (s : State) (a : KilnArea) (b : Nat) : Bool :=
  match (sblock s b).area with
  | some x => x = a
  | none => (areaRange s.kiln a).1 ≤ b && b < (areaRange s.kiln a).2

/-- The area of a superblock. -/
def areaOf (s : State) (b : Nat) : KilnArea :=
  ([KilnArea.ckptA, .ckptB, .journal, .slc, .spare, .test].find? fun a => inArea s a b).getD .data

/-- Pages of one erase block of an area: in SLC mode outside the data area and the spares (R246, R251). -/
def areaPages (k : Kiln) : KilnArea → Nat
  | .data | .spare | .test => k.pagesPerBlock
  | _ => k.layout.slcPages

/-- Data pages of a superblock on some columns, two of each stripe being parity (R244, R257). -/
def dataPages (s : State) (a : KilnArea) (cols : List Nat) : Nat := (cols.length - 2) * areaPages s.kiln a

/-- The superblock is erased and may be opened. -/
def Superblock.free (x : Superblock) : Bool := x.fill = 0 && x.failedOn.isEmpty && !x.erasing

/-- The free superblock of an area with the lowest erase count (R255), of several the lowest-numbered (log entry 39). -/
def lowestFree (s : State) (a : KilnArea) : Option Nat :=
  let fresh := firstFree (areaRange s.kiln a).1 s.kiln.superblocks
  let used := (s.kiln.superblocks.filter fun e => inArea s a e.1 && e.2.free).map fun e => (e.2.erases, e.1)
  let all := (if inArea s a fresh then [(0, fresh)] else []) ++ used
  (sortBy (fun (x y : Nat × Nat) => lexLt [x.1, x.2] [y.1, y.2]) all).head?.map (·.2)

/-- The superblock of an area that is being filled. -/
def openOf (k : Kiln) : KilnArea → Option Nat
  | .data => k.openData
  | .slc => k.openSlc
  | .journal => k.openJournal
  | _ => none

/-- A superblock is opened: its stripes leave out the columns that are not in service (R257). -/
def openBlock (s : State) (a : KilnArea) (b : Nat) : State :=
  let s := modBlock s b fun x => { x with columns := serviceColumns s }
  match a with
  | .data => { s with kiln := { s.kiln with openData := some b } }
  | .slc => { s with kiln := { s.kiln with openSlc := some b } }
  | .journal => { s with kiln := { s.kiln with openJournal := some b } }
  | _ => s

/-- Data pages that the superblock being filled still has. -/
def areaRoom (s : State) (a : KilnArea) : Nat :=
  match openOf s.kiln a with
  | some b => if (sblock s b).failedOn.isEmpty then dataPages s a (sblock s b).columns - (sblock s b).fill else 0
  | none => 0

/-- A run of data pages: superblock, first page, number. -/
abbrev PageRun := Nat × Nat × Nat

/-- Take `n` data pages of an area as one run in write order (R247): the rest of the superblock being filled, then the next one. -/
def takePages (s : State) (a : KilnArea) (n : Nat) : Option (State × List PageRun) :=
  let room := areaRoom s a
  let use := fun (t : State) (b m : Nat) => modBlock t b fun x => { x with fill := x.fill + m }
  let cur := (openOf s.kiln a).getD 0
  if n ≤ room then some (use s cur n, [(cur, (sblock s cur).fill, n)])
  else match lowestFree s a with
    | none => none
    | some b =>
      let first := if room = 0 then [] else [(cur, (sblock s cur).fill, room)]
      let t := openBlock (if room = 0 then s else use s cur room) a b
      if dataPages t a (sblock t b).columns < n - room then none
      else some (use t b (n - room), first ++ [(b, 0, n - room)])

/-! ### Pages -/

/-- The columns of the stripes of a superblock: those that it was opened on, and of one that was never opened, the devices in service. -/
def blockColumns (s : State) (b : Nat) : List Nat := if (sblock s b).columns.isEmpty then serviceColumns s else (sblock s b).columns

/-- The superblock of a page, its stripe and its device. -/
def pageStripe (p : Nat) : Nat := p / 32
def pageDevice (p : Nat) : Nat := p % 32
def pageBlock (s : State) (p : Nat) : Nat := pageStripe p / max 1 s.kiln.pagesPerBlock

/-- The place of the `k`th data page of a superblock, as stripe × 32 + device. -/
def dataPage (s : State) (b k : Nat) : Nat :=
  let cols := blockColumns s b
  let stripe := b * s.kiln.pagesPerBlock + k / (cols.length - 2)
  stripe * 32 + (dataColumns cols stripe).getD (k % (cols.length - 2)) 0

/-- The stored page. -/
def State.flashPage (s : State) (p : Nat) : FlashPage := tget {} s.kiln.pages p

/-- The CRC-32C of each codeword of a page: over its 4,096 data bytes, the tensor key and the page's sequence (R243). -/
def pageCrcs (p : FlashPage) : List Nat :=
  (List.range 4).map fun k => crc32c (padTo 4096 (p.data.drop (4096 * k)) ++
    Config.recordBytes [p.key.epoch, p.key.adapter, p.key.version, p.index, p.seq])

/-- The commands that program a page, in SLC or in native mode (R242). -/
def issueProgram (s : State) (slc : Bool) (p : Nat) : State := issueFlash s (pageDevice p) [slcMode s slc, .pageProgram p, .readStatusEnhanced]

/-- Program a page in the mode of its area. -/
def programPage (s : State) (slc : Bool) (p : Nat) (page : FlashPage) : State :=
  issueProgram { s with kiln := { s.kiln with pages := tset {} s.kiln.pages p { page with crcs := pageCrcs page } } } slc p

/-- Bytes at one place of a stripe's data columns. -/
def stripeBytes (s : State) (cols : List Nat) (stripe k : Nat) : List Byte :=
  (dataColumns cols stripe).map fun d => (s.flashPage (stripe * 32 + d)).data.getD k 0

/-- The longest page of a stripe: beyond it all are zero. -/
def stripeLength (s : State) (cols : List Nat) (stripe : Nat) : Nat :=
  (cols.map fun d => (s.flashPage (stripe * 32 + d)).data.length).foldl max 0

/-- The parity pages of a stripe, of its data pages as they stand: a column that is not programmed counts as zeros (log entry 61). -/
def programParity (s : State) (slc : Bool) (stripe : Nat) : State :=
  let cols := blockColumns s (stripe / max 1 s.kiln.pagesPerBlock)
  let n := ((dataColumns cols stripe).map fun d => (s.flashPage (stripe * 32 + d)).data.length).foldl max 0
  let page := fun (f : List Byte → Byte) => ({ data := (List.range n).map fun k => f (stripeBytes s cols stripe k), seq := s.gauger.seq } : FlashPage)
  let t := programPage s slc (stripe * 32 + pColumn cols stripe) (page parityP)
  programPage t slc (stripe * 32 + qColumn cols stripe) (page parityQ)

/-- Cut stored bytes into pages of 16,384; `fuel` is at least their number. -/
def pageChunks : (fuel : Nat) → List Byte → List (List Byte)
  | 0, bs => [bs]
  | n + 1, bs => if bs.length ≤ 16384 then [bs] else bs.take 16384 :: pageChunks n (bs.drop 16384)

/-- Program bytes into the pages of some runs, with the parity of their stripes. -/
def programRuns (s : State) (slc : Bool) (key : RecKey) (index : Nat) (runs : List PageRun) (chunks : List (List Byte)) : State :=
  let places := runs.flatMap fun r => (List.range r.2.2).map fun i => dataPage s r.1 (r.2.1 + i)
  let t := (List.zip places chunks).foldl (fun t x =>
    programPage t slc x.1 { data := x.2, key, index, seq := s.gauger.seq }) s
  ((places.map pageStripe).eraseDups).foldl (fun t x => programParity t slc x) t

/-- The extent of a run of pages that holds `units` units of 4 KiB. -/
def runExtent (s : State) (r : PageRun) (units : Nat) : Extent :=
  let p := dataPage s r.1 r.2.1
  { block := r.1, stripe := pageStripe p, column := pageDevice p, units }

/-- The extents of one run or of two: all but the last page are whole, four units each. -/
def runExtents (s : State) (units : Nat) : List PageRun → List Extent
  | [] => []
  | r :: t => runExtent s r (min units (4 * r.2.2)) :: runExtents s (units - 4 * r.2.2) t

/-- Write stored bytes into an area: its pages and the extents that they take; none where the area lacks room. -/
def writePages (s : State) (a : KilnArea) (key : RecKey) (index : Nat) (ct : List Byte) : Option (State × List Extent) :=
  let chunks := pageChunks ct.length ct
  (takePages s a chunks.length).map fun x =>
    (programRuns x.1 (a ≠ .data) key index x.2 chunks, runExtents x.1 (max 1 (ceilDiv ct.length 4096)) x.2)

/-- The place of a data page within its superblock. -/
def dataIndex (s : State) (b stripe column : Nat) : Nat :=
  let cols := blockColumns s b
  (stripe - b * s.kiln.pagesPerBlock) * (cols.length - 2) + (dataColumns cols stripe).findIdx (· = column)

/-- The pages of an extent, in write order. -/
def Extent.pages (s : State) (x : Extent) : List Nat :=
  (List.range (ceilDiv x.units 4)).map fun i => dataPage s x.block (dataIndex s x.block x.stripe x.column + i)

/-- The pages of a tensor record. -/
def TenRec.pages (s : State) (r : TenRec) : List Nat := r.extents.flatMap (Extent.pages s)

/-- A byte of a stripe's column that can be read: its device is in service, and it is not among those that fail. -/
def columnByte (s : State) (failing : List Nat) (stripe k d : Nat) : Option Byte :=
  if (s.chan d).st = .inService && !failing.contains d && domainPresent s (160 + d) then some ((s.flashPage (stripe * 32 + d)).data.getD k 0) else none

/-- A page rebuilt from the others of its stripe, with P, or with P and Q (R253); none where more than two columns are missing or
failing. -/
def rebuildPage (s : State) (failing : List Nat) (p : Nat) : Option (List Byte) :=
  let cols := blockColumns s (pageBlock s p)
  let bad := pageDevice p :: failing
  (List.range (stripeLength s cols (pageStripe p))).mapM fun k =>
    reconstruct cols (pageStripe p) (columnByte s bad (pageStripe p) k) (pageDevice p)

/-- The columns of a stripe that cannot be read are at most two. -/
def stripeWhole (s : State) (failing : List Nat) (p : Nat) : Bool :=
  ((blockColumns s (pageBlock s p)).filter fun d => (columnByte s failing (pageStripe p) 0 d).isNone).length ≤ 2

/-- The bytes of a page as the kiln reads it for itself: its own, or rebuilt. -/
def pageBytes (s : State) (p : Nat) : Option (List Byte) :=
  if (columnByte s [] (pageStripe p) 0 (pageDevice p)).isSome then some (s.flashPage p).data
  else if stripeWhole s [] p then rebuildPage s [] p
  else none

/-! ### Erasing (R254, R255, R261) -/

/-- A superblock after its erase: its count rises, its read counter is cleared, it is free (R255, R256). -/
def erased (b : Superblock) : Superblock := { erases := b.erases + 1, failedOn := b.failedOn, area := b.area }

/-- The erases in flight end: an erase that the kiln has begun is over by its next event (log entry 61). -/
def finishErases (s : State) : State :=
  { s with kiln := { s.kiln with superblocks := s.kiln.superblocks.map fun e => (e.1, if e.2.erasing then erased e.2 else e.2) } }

/-- An erase of a superblock begins on each of its devices: what its pages held is gone. -/
def startErase (s : State) (b : Nat) : State :=
  let cols := blockColumns s b
  let k := max 1 s.kiln.pagesPerBlock
  let s := modBlock s b fun x => { x with erasing := true }
  let s := { s with kiln := { s.kiln with pages := s.kiln.pages.filter fun e => e.1 / 32 / k ≠ b } }
  cols.foldl (fun t d => issueFlash t d [.blockErase b, .readStatusEnhanced]) s

/-- The tensor records with an extent in a superblock. -/
def liveIn (m : KilnMap) (b : Nat) : List TenRec := m.tensors.filter fun r => r.extents.any (·.block = b)

/-- A read that began under an older record still reads from a superblock (R254). -/
def readInBlock (s : State) (b : Nat) : Bool :=
  s.tiers.streams.any fun st => st.started && (st.source.any fun r => r.extents.any (·.block = b))

/-- A superblock of tensors that holds none any longer, and from which no read that began before still reads (R254). -/
def dead (s : State) (e : Nat × Superblock) : Bool :=
  0 < e.2.fill && !e.2.erasing && e.2.failedOn.isEmpty && [KilnArea.data, .slc].contains (areaOf s e.1) &&
    s.kiln.openData ≠ some e.1 && s.kiln.openSlc ≠ some e.1 && (liveIn s.kiln.map e.1).isEmpty && !readInBlock s e.1

/-- Superblocks that hold nothing any longer are erased. -/
def reclaim (s : State) : State := ((s.kiln.superblocks.filter (dead s)).map (·.1)).foldl startErase s

/-- Journal superblocks without a record that still counts are erased (R251). -/
def reclaimJournal (s : State) : State :=
  let done := s.kiln.superblocks.filter fun e => 0 < e.2.fill && !e.2.erasing && e.2.failedOn.isEmpty && areaOf s e.1 = .journal &&
    s.kiln.openJournal ≠ some e.1 && s.kiln.journal.all fun j => j.block ≠ e.1
  (done.map (·.1)).foldl startErase s

/-! ### The map (R247) -/

/-- What names the record of a tensor or state array of a version: the version that wrote it, under the epoch in which it did; a
version shares the records of what it did not write itself (R168, R235). -/
def recKeyOf (epoch : Nat) (v : Ver) (i : Nat) : RecKey :=
  match v.tensor i with
  | some t => { epoch := t.epoch.getD epoch, adapter := v.hdr.id, version := t.writer }
  | none => match v.origin with
    | some o => { epoch := o.1, adapter := v.hdr.id, version := o.2 }
    | none => { epoch, adapter := v.hdr.id, version := v.version }

/-- A version record and a tensor record of a map. -/
def KilnMap.ver (m : KilnMap) (k : RecKey) : Option VerRec := m.versions.find? fun r => r.key = k
def KilnMap.ten (m : KilnMap) (k : RecKey) (i : Nat) : Option TenRec := m.tensors.find? fun r => r.key = k && r.index = i

/-- T4 holds a tensor or state array of a version (R249): the map has its record. -/
def KilnMap.holds (m : KilnMap) (epoch : Nat) (v : Ver) (i : Nat) : Bool := (m.ten (recKeyOf epoch v i) i).isSome

/-- The map has a version with everything that it holds (R252). -/
def KilnMap.whole (m : KilnMap) (epoch : Nat) (v : Ver) : Bool :=
  (m.ver { epoch, adapter := v.hdr.id, version := v.version }).isSome && (verIndices v).all (m.holds epoch v)

/-- Bytes of the map: 64 for a version record, 32 for a tensor record. -/
def KilnMap.bytes (m : KilnMap) : Nat := 64 * m.versions.length + 32 * m.tensors.length

/-- The map after a journal record. -/
def KilnMap.apply (m : KilnMap) (j : Journal) : KilnMap :=
  { versions := (m.versions.filter fun r => !j.goneVersions.contains r.key && !(j.versions.any fun x => x.key = r.key)) ++ j.versions
    tensors := (m.tensors.filter fun r => !j.goneTensors.contains (r.key, r.index) &&
      !(j.tensors.any fun x => x.key = r.key && x.index = r.index)) ++ j.tensors }

/-- The map without some adapters. -/
def KilnMap.without (m : KilnMap) (gone : AdapterId → Bool) : KilnMap :=
  { versions := m.versions.filter fun r => !gone r.key.adapter, tensors := m.tensors.filter fun r => !gone r.key.adapter }

/-! ### Checkpoints and journal (R251, R252) -/

/-- The numbers that records hold, over which their CRCs are formed. -/
def RecKey.nums (k : RecKey) : List Nat := [k.epoch, k.adapter, k.version]
def VerRec.nums (r : VerRec) : List Nat := r.key.nums ++ [r.tenant, r.tensors, r.wrapped.toNat]
def Extent.nums (x : Extent) : List Nat := [x.block, x.stripe, x.column, x.units]
def TenRec.nums (r : TenRec) : List Nat := r.key.nums ++ [r.index, r.length, r.crc.toNat] ++ r.extents.flatMap Extent.nums
def entryNums (e : DirEntry) : List Nat := [e.tenant, e.key.toNat, kindCode e.kind, e.target, e.log2]

/-- The numbers of a record's kind. -/
def JournalKind.nums : JournalKind → List Nat
  | .publish a v => [1, a, v]
  | .dirty a v => [2, a, v]
  | .racked a v => [3, a, v]
  | .staged e => [4, e]
  | .version a v => [5, a, v]
  | .directory c p es => [6, c, p] ++ es.flatMap entryNums
  | .epochSwitch e es => [7, e] ++ es.flatMap entryNums
  | .purgeStep1 a t => [8, a, t]
  | .rewrap t => [9, t]
  | .remove => [10]
  | .move b => [11, b]
  | .moveHome => [12]
  | .close => [13]

/-- The CRC-32C of a journal record. -/
def Journal.sum (j : Journal) : Nat :=
  crc32c (Config.recordBytes (j.seq :: j.kind.nums ++ j.versions.flatMap VerRec.nums ++ j.tensors.flatMap TenRec.nums ++
    j.goneVersions.flatMap RecKey.nums ++ j.goneTensors.flatMap fun x => x.1.nums ++ [x.2]))

/-- The CRC-64 of a checkpoint, which its closing record carries. -/
def Checkpoint.sum (c : Checkpoint) : Word64 :=
  crc64 (Config.recordBytes ([c.seq, c.epoch, c.readBase] ++ c.map.versions.flatMap VerRec.nums ++ c.map.tensors.flatMap TenRec.nums ++
    c.directory.flatMap entryNums ++ c.reads.flatMap fun e => [e.1, e.2]))

/-- The newer valid checkpoint (`KILN_CKPT`). -/
def Kiln.newest (k : Kiln) : Option Checkpoint :=
  match k.ckptA, k.ckptB with
  | some a, some b => some (if a.seq < b.seq then b else a)
  | some a, none => some a
  | none, b => b

/-- The newer valid checkpoint, an empty one where there is none. -/
def Kiln.ckpt (k : Kiln) : Checkpoint := k.newest.getD {}

/-- A checkpoint begins at the present event, in the area that does not hold the newer valid one, which is erased for it (R251): the
map, the directory in force, the epoch, the read counters (R212, R256). A purge ordered before it has taken its adapter out of that map,
whether or not its own record is held yet (R260, step 1). -/
def startCheckpoint (s : State) : State :=
  if s.kiln.ckptRunning.isSome then s
  else
    let inB := !s.kiln.ckpt.inB
    let a := if inB then KilnArea.ckptB else .ckptA
    let s := ((s.kiln.superblocks.filter fun e => inArea s a e.1 && 0 < e.2.fill && !e.2.erasing).map (·.1)).foldl startErase s
    let c : Checkpoint := {
      seq := s.gauger.seq, map := s.kiln.map.without fun a => s.homes.purges.any fun p => p.adapter = a && !p.step1Held, directory := s.dir.buckets.flatMap (·.2), epoch := s.cat.epoch, inB
      reads := s.kiln.superblocks.map fun e => (e.1, e.2.reads), readBase := s.kiln.readBase }
    { s with kiln := { s.kiln with
      ckptRunning := some { c with crc := c.sum }
      ckptA := if inB then s.kiln.ckptA else none, ckptB := if inB then none else s.kiln.ckptB } }

/-- The kiln as a mount reads it: of the two checkpoints, those that are not damaged (false for area A, true for area B). -/
def Kiln.readable (k : Kiln) (bad : List Bool) : Kiln :=
  { k with ckptA := if bad.contains false then none else k.ckptA, ckptB := if bad.contains true then none else k.ckptB }

/-- The journal records after a checkpoint, up to the first that is damaged or whose sequence does not follow the one before (R252). `n` is
the number of the next one. -/
def cutReplay (bad : List Nat) : (n last : Nat) → List Journal → List Journal
  | _, _, [] => []
  | n, last, j :: js => if bad.contains n || j.seq < last then [] else j :: cutReplay bad (n + 1) j.seq js

/-- The records that a mount replays. -/
def replayRecords (k : Kiln) (bad : List Nat) : List Journal := cutReplay bad 0 k.ckpt.seq (k.journal.filter fun j => k.ckpt.seq < j.seq)

/-- The map as the newer valid checkpoint and the journal after it give it (R252). -/
def replayMap (k : Kiln) (bad : List Nat) : KilnMap := (replayRecords k bad).foldl KilnMap.apply k.ckpt.map

/-- A record's place in the journal is that of its sequence: only a purge's step 1 carries one that has passed (R260). -/
def insertRecord (j : Journal) (js : List Journal) : List Journal :=
  js.filter (·.seq ≤ j.seq) ++ [j] ++ js.filter (j.seq < ·.seq)

/-- Program a journal record (R249, R251): it takes a page of the journal and enters the map; beyond `CKPT_JOURNAL_MIB` a checkpoint
begins. That a record takes one page is the model's choice (log entry 39). -/
def journalPut (s : State) (j : Journal) : State :=
  let s := match takePages s .journal 1 with
    | some x => x.2.foldl (fun t (r : PageRun) => issueProgram t true (dataPage t r.1 r.2.1)) x.1
    | none => s
  let j := { j with block := (s.kiln.openJournal).getD 0 }
  let j := { j with crc := j.sum }
  let s := { s with kiln := { s.kiln with journal := insertRecord j s.kiln.journal, map := s.kiln.map.apply j } }
  if regFld s pgKiln 0x090 48 16 * mib < s.kiln.journal.length * 16384 then startCheckpoint s else s

/-! ### Version records and data seeds (R259, R260) -/

/-- The generation of a tenant's wrap key under which records are wrapped: while a rotation runs, the new one (R260, step 2). -/
def wrapGeneration (s : State) (t : Nat) : Nat :=
  tget 0 s.keys.wrapGen t + (if s.kiln.rotations.any fun r => r.tenant = t then 1 else 0)

/-- A version record with its seed wrapped under the tenant's key in force. -/
def wrapRec (s : State) (r : VerRec) : VerRec := { r with wrapped := Config.keyWrap (Config.wrapKey r.tenant (wrapGeneration s r.tenant)) r.seed }

/-- The data seed that a record's wrapped seed yields: under a wrap key that has not been destroyed. -/
def unwrapSeed (s : State) (r : VerRec) : Option (BitVec 256) :=
  let opens := fun (gen : Nat) => decide (r.wrapped = Config.keyWrap (Config.wrapKey r.tenant gen) r.seed)
  if opens (tget 0 s.keys.wrapGen r.tenant) || opens (wrapGeneration s r.tenant) then some r.seed else none

/-- A new version record, under a data seed of the block's random source. -/
def newVerRec (s : State) (key : RecKey) (tenant tensors : Nat) : VerRec :=
  wrapRec s { key, tenant, tensors, seed := Config.dataSeed s.freeCtr }

/-- A version that shares all that it holds gets its record, under the seed of what it shares (R235, R344). -/
def sharedVerRec (s : State) (epoch : Nat) (v : Ver) : Option VerRec :=
  let key : RecKey := { epoch, adapter := v.hdr.id, version := v.version }
  if (s.kiln.map.ver key).isSome then none
  else
    let seed := (((verIndices v).findSome? fun i => s.kiln.map.ver (recKeyOf epoch v i)).map (·.seed)).getD (Config.dataSeed s.freeCtr)
    some (wrapRec s { key, tenant := v.hdr.tenant, tensors := (verIndices v).length, seed })

/-- Such a version's record is journalled, at an event of its own. -/
def enterShared (s : State) (epoch : Nat) (v : Ver) : State :=
  match sharedVerRec s epoch v with
  | some r => journalPut (stamp s) { seq := (stamp s).gauger.seq, kind := .version v.hdr.id v.version, versions := [r] }
  | none => s

/-! ### Tensors in T4 -/

/-- T4 holds what a dirty record still lists (R160). -/
def dirtyInT4 (s : State) (d : Dirty) : Bool :=
  (verOf s s.cat.epoch d.adapter d.version).any fun v => d.tensors.all (s.kiln.map.holds s.cat.epoch v)

/-- A tensor or state array of a version is written into the SLC-mode region and entered in the map, with the version's record where it
has none (R249, R259). Unchanged where the region lacks the pages. -/
def writeTensor (s : State) (k : JournalKind) (epoch : Nat) (v : Ver) (i : Nat) : State :=
  let key := recKeyOf epoch v i
  let own : RecKey := { epoch, adapter := v.hdr.id, version := v.version }
  let rec_ := (s.kiln.map.ver key).getD (newVerRec s key v.hdr.tenant (verIndices v).length)
  let bs := storedBytes v i
  match writePages s .slc key i (encryptTensor rec_.seed i bs) with
  | none => s
  | some x =>
    let more := if key = own || (s.kiln.map.ver own).isSome then [] else [wrapRec s { rec_ with key := own, tensors := (verIndices v).length }]
    journalPut (bumpFree x.1) {
      seq := s.gauger.seq, kind := k, versions := (if (s.kiln.map.ver key).isSome then [] else [rec_]) ++ more
      tensors := [{ key, index := i, length := bs.length, crc := crcOf v i, extents := x.2 }] }

/-- The record of a tensor goes to new extents in an area by one journal record (R254). None where a stripe of it is lost, or the area
lacks room. -/
def moveTensor (s : State) (a : KilnArea) (b : Nat) (r : TenRec) : Option State :=
  match (r.pages s).mapM (pageBytes s) with
  | none => none
  | some ps =>
    let ct := padTo r.length ((ps.map (padTo 16384)).flatten)
    (writePages (stamp s) a r.key r.index ct).map fun x =>
      journalPut x.1 { seq := (stamp s).gauger.seq, kind := .move b, tensors := [{ r with extents := x.2 }] }

/-- Everything in a superblock moves to an area, tensor by tensor; what finds no room stays. -/
def moveBlock (s : State) (a : KilnArea) (b : Nat) : State :=
  (liveIn s.kiln.map b).foldl (fun t r => (moveTensor t a b r).getD t) s

/-- Tensor records leave the map by a journal record at the present event. -/
def removeTensors (s : State) (k : JournalKind) (ts : List (RecKey × Nat)) : State :=
  if ts.isEmpty then s else journalPut s { seq := s.gauger.seq, kind := k, goneTensors := ts }

/-- Free bytes of the SLC-mode region. -/
def slcFree (s : State) : Nat :=
  64 * gib - ((s.kiln.superblocks.filter fun e => areaOf s e.1 = .slc).map fun e => e.2.fill * 16384).sum

/-- The bytes that a read of a tensor in T4 delivers: the pages read, deciphered under the record's seed (R253, R259). -/
def deliverT4 (s : State) (r : TenRec) (plain got : List Byte) : List Byte :=
  let seed := ((s.kiln.map.ver r.key).bind (unwrapSeed s)).getD 0
  decryptTensor seed r.index plain (got.take r.length)

/-! ### The logical space (R245) -/

/-- The offset of a byte: (stripe × 32 + device) × 16,384 + byte within the page. -/
def columnOffset (stripe device byte : Nat) : Nat := (stripe * 32 + device) * 16384 + byte

/-- Bytes of the logical space, and the start of the test area, the last superblock. -/
def logicalBytes (s : State) : Nat := columnOffset (s.kiln.blocks * s.kiln.pagesPerBlock) 0 0
def testArea (s : State) : Nat := columnOffset ((s.kiln.blocks - 1) * s.kiln.pagesPerBlock) 0 0

/-- A byte that a device holds: what a window wrote into the test area, or of a programmed page. -/
def mediumByte (s : State) (off : Nat) : Option Byte :=
  match memGet s.kiln.memory off with
  | some b => some b
  | none => if tget {} s.kiln.pages (off / 16384) = ({} : FlashPage) then none else some ((s.flashPage (off / 16384)).data.getD (off % 16384) 0)

/-- A byte of the logical space as far as the state holds it: of a retired column, reconstructed. -/
def kilnByte (s : State) (off : Nat) : Option Byte :=
  let stripe := off / 524288
  let d := off / 16384 % 32
  let b := stripe / max 1 s.kiln.pagesPerBlock
  let col := fun k =>
    let x := mediumByte s (columnOffset stripe k (off % 16384))
    if (s.chan k).st = .retired then none else if (sblock s b).fill = 0 then x else some (x.getD 0)
  if (s.chan d).st = .retired then reconstruct (blockColumns s b) stripe col d else mediumByte s off

end Sys2Proof.Machine
end

