-- ==== Sys2Proof/Machine/Casks.lean ====
section
/-! DEFINITION. The cellar's operations: its division (R163), cask holds (R169 to R171), the charges of each tier (R175, R186),
victims (R174), ullage (R176, R177), admissions (R173, R178 to R180), and the streams that an admission starts (R190). -/
namespace Sys2Proof.Machine

/-! ### Division and use of the cellar -/

/-- The parts that registers set: `DIR_CELLAR_MIB`, `TRAIN_SCRATCH_MIB`, `ULLAGE_MIB`. -/
def dirCellarMib (s : State) : Nat := regFld s pgGrist 0x090 0 10
def scratchMib (s : State) : Nat := regFld s pgTrain 0x098 0 12
def ullageMib (s : State) : Nat := regFld s pgCellar 0x080 0 12

/-- Bytes of the cask pool: 4,096 MiB less 160 MiB of fixed parts and the three parts (Table 8.3). -/
def poolTotal (s : State) : Nat := (3936 - (dirCellarMib s + scratchMib s + ullageMib s)) * mib

/-- What a cask keeps in the cellar: (epoch of its writer, adapter, tensor index, version that wrote it, bytes). Casks of one adapter share
the tensors that no change has rewritten (R155, R168); a state area belongs to its version alone. -/
abbrev CaskItem := Nat × Nat × Nat × Nat × Nat

/-- The items of a cask. -/
def caskItems (s : State) (c : Cask) : List CaskItem :=
  match verOf s c.epoch c.adapter c.version with
  | some v =>
    (tensorSizes v.hdr v.slots).map (fun x => (epochOf v c.epoch x.1, c.adapter, x.1, writerOf v x.1, x.2)) ++
      (if c.stateArea then [(c.epoch, c.adapter, 2 ^ 16, c.version, verStateBytes v)] else [])
  | none => [(c.epoch, c.adapter, 2 ^ 17, c.version, c.bytes)]

/-- The casks that are not free, with their indices. -/
def caskList (s : State) : List (Nat × Cask) := s.cellar.casks

/-- Bytes of the distinct items of a list of casks. -/
def itemBytes (s : State) (cs : List (Nat × Cask)) : Nat :=
  ((cs.flatMap fun e => caskItems s e.2).eraseDups.map fun (x : CaskItem) => x.2.2.2.2).sum

/-- Ullage in use: by casks and by commits' reservations (R163). -/
def ullageUsed (s : State) : Nat :=
  ((caskList s).map fun e => e.2.ullage).sum + (s.train.commits.map (·.ullage)).sum

/-- Pool bytes that a list of casks takes: their items, less what they hold in ullage. -/
def poolOf (s : State) (cs : List (Nat × Cask)) : Nat := itemBytes s cs - (cs.map fun e => e.2.ullage).sum

/-- Pool bytes in use. -/
def poolUsed (s : State) : Nat := poolOf s (caskList s)

/-- Free pool bytes. -/
def poolFree (s : State) : Nat := poolTotal s - poolUsed s

/-- Bytes by which the raised parts reach into casks that victims have yet to free (R163). -/
def deficit (s : State) : Nat := poolUsed s - poolTotal s

/-- What `d` bytes leave uncovered of a list of raises, newest first. -/
def uncovered : Nat → List (Nat × Nat) → List (Nat × Nat)
  | _, [] => []
  | d, (p, n) :: t => (p, min n d) :: uncovered (d - min n d) t

/-- The raises not covered yet: freed bytes go to the oldest first. -/
def growthLeft (s : State) : List (Nat × Nat) :=
  ((uncovered (deficit s) s.cellar.growth.reverse).reverse).filter fun x => x.2 ≠ 0

/-- Bytes that a part has not grown into yet: 0 directory copy, 1 gradient scratch, 2 ullage. -/
def growthOf (s : State) (part : Nat) : Nat := ((growthLeft s).map fun x => if x.1 = part then x.2 else 0).sum

/-- Free pool bytes that no waiting admission has been given (R178). -/
def freeNow (s : State) : Nat := poolFree s - (s.cellar.waiting.map (·.got)).sum

/-- Pool bytes that freeing some casks gives back: those of the items that no other cask shares, but for what stands in ullage. -/
def casksFree (s : State) (is : List Nat) : Nat := poolUsed s - poolOf s ((caskList s).filter fun e => !is.contains e.1)

/-! ### Holds -/

/-- A cask is held (R169). -/
def Cask.held (c : Cask) : Bool :=
  c.pins ≠ 0 || c.fallbackHold || c.memberHold || !c.binds.isEmpty || !c.trainHolds.isEmpty || c.st = .filling

/-- Pins of an adapter summed over its pin records (R170). -/
def pinCount (s : State) (a : AdapterId) : Nat :=
  ((s.cellar.pins.filter fun p => p.adapter = a).map (·.count)).sum

/-- The version that a cask holds is the adapter's current one in the catalogue in force. -/
def caskCurrent (s : State) (c : Cask) : Bool :=
  c.epoch = s.cat.epoch && (s.cat.adapter c.adapter).current = c.version && c.version ≠ 0

/-- Some member cask that is `FILLING` or `RESIDENT` needs the basis (R171). -/
def memberNeeds (s : State) (basis : AdapterId) : Bool :=
  (caskList s).any fun e => (e.2.st = .filling || e.2.st = .resident) && match verOf s e.2.epoch e.2.adapter e.2.version with
    | some v => v.hdr.form = .member && v.hdr.basisId = basis
    | none => false

/-- A tenant record names the adapter as its fallback (R171). -/
def isFallback (s : State) (a : AdapterId) : Bool := a ≠ 0 && s.tenantRecs.any fun e => e.2.fallback = a

/-- A victim that comes to be held is no victim any longer (R167, R169): `EVICTING` returns to `RESIDENT`. -/
def Cask.returned (c : Cask) : Cask := if c.st = .evicting && c.held then { c with st := .resident } else c

/-- Set `PIN_COUNT`, `FALLBACK_HOLD` and `MEMBER_HOLD` of every cask from the pin records, the tenant table and the member
casks (R170, R171): the version current now is the one pinned. -/
def refreshHolds (s : State) : State :=
  (caskList s).foldl (fun t e => modCask t e.1 fun c => Cask.returned { c with
    pins := if caskCurrent s c then pinCount s c.adapter else 0
    fallbackHold := caskCurrent s c && isFallback s c.adapter
    memberHold := c.basis && c.st ≠ .stale && memberNeeds s c.adapter }) s

/-! ### Page tags (R325) -/

/-- The page tag of a page: the CRC-16 over its 18-byte record. -/
def pageTag (a : AdapterId) (writer tenant layer proj side page : Nat) : Nat :=
  crcPage (leBytes 3 a ++ leBytes 6 writer ++ leBytes 2 tenant ++ leBytes 2 layer ++ leBytes 1 proj ++ leBytes 1 side ++ leBytes 2 page ++ [0])

/-- The slot of a tensor or state array, and its side: 0 shrink, 1 expand, 2 a state array. -/
def tagPlace (v : Ver) (i : Nat) : Nat × Nat × Nat :=
  let n := 2 * v.slots.length
  let t := if i < n then i else (i - n) / arraysPer ((v.state.map (·.optKind)).getD 1)
  let e := v.slots.getD (t / 2) {}
  (e.layer, e.proj, if i < n then i % 2 else 2)

/-- The page tags of a tensor, one for each 4 KiB. -/
def pageTags (v : Ver) (i : Nat) : List Nat :=
  let p := tagPlace v i
  (List.range (ceilDiv (storedBytes v i).length 4096)).map (pageTag v.hdr.id (writerOf v i) v.hdr.tenant p.1 p.2.1 p.2.2)

/-- A cask's tag array and its records of tensor versions once some tensors are written into it. -/
def Cask.tag (c : Cask) (v : Ver) (idx : List Nat) : Cask :=
  { c with tags := idx.foldl (fun t i => tput i (pageTags v i) t) c.tags, writers := idx.foldl (fun t i => tput i (writerOf v i) t) c.writers }

/-- The index of the cask of a version, if it has one. -/
def caskOf (s : State) (epoch : Nat) (a : AdapterId) (v : Nat) : Option Nat :=
  ((caskList s).find? fun e => e.2.epoch = epoch && e.2.adapter = a && e.2.version = v && !e.2.purged).map (·.1)

/-! ### Charges -/

/-- The record of a tenant. -/
def tenantRec (s : State) (t : Nat) : TenantRec := tget {} s.tenantRecs t

/-- The cask is charged to its tenant (R175): it holds its adapter's current version. -/
def caskCharged (s : State) (c : Cask) : Bool := c.st ≠ .stale && caskCurrent s c

/-- A tenant's T1 charge (R175). -/
def t1Charge (s : State) (t : Nat) : Nat :=
  ((caskList s).map fun e => if e.2.tenant = t && caskCharged s e.2 then e.2.bytes else 0).sum

/-- The pinned adapters with their bytes: each counts once (R170). -/
def pinnedBytes (s : State) (p : Ver → Bool) : Nat :=
  (((s.cellar.pins.map (·.adapter)).eraseDups).map fun a => match (s.cat.adapter a).cur with
    | some v => if p v then verBytes v else 0
    | none => 0).sum

/-- Bytes that some tensors of a version take in a tier, each in 64-byte granules. -/
def storedSize (v : Ver) (idx : List Nat) : Nat := (idx.map fun i => roundUp (storedBytes v i).length 64).sum

/-- The tensors and state arrays of a stored version. -/
def indicesOf (s : State) (epoch : Nat) (a : AdapterId) (v : Nat) : List Nat := ((verOf s epoch a v).map verIndices).getD []

/-- The tensors that a warm copy has. -/
def warmHas (s : State) (w : Warm) : List Nat := (indicesOf s w.epoch w.adapter w.version).filter fun i => !w.gone.contains i

/-- The bytes that a warm copy takes. -/
def warmSize (s : State) (w : Warm) : Nat := w.bytes - storedSize ((verOf s w.epoch w.adapter w.version).getD {}) w.gone

/-- Bytes of T2 in warm copies that are this block's own. -/
def warmBytes (s : State) : Nat := ((s.tiers.warm.filter fun w => w.grant.isNone).map (warmSize s)).sum

/-- Dirty data that T2 holds: T4 does not yet hold it. -/
def dirtyT2 (s : State) : Nat := ((s.train.dirty.filter (·.t2)).map (·.bytes)).sum

/-- The versions that T2 holds, in a warm copy or as dirty data, each once: epoch, adapter, version, tenant, charge. -/
def versionsIn2 (s : State) : List (Nat × AdapterId × Nat × Nat × Nat) :=
  let warm := (s.tiers.warm.filter (·.grant.isNone)).map fun w => (w.epoch, w.adapter, w.version, w.tenant, w.bytes)
  let dirty := (s.train.dirty.filter (·.t2)).filterMap fun d =>
    (verOf s s.cat.epoch d.adapter d.version).map fun v => (s.cat.epoch, d.adapter, d.version, v.hdr.tenant, verBytes v)
  (warm ++ dirty).eraseDups

/-- Bytes of the directory in T2 (R68), a second one while a staged or an old directory is kept. -/
def dirBytes (s : State) : Nat :=
  512 * mib * (1 + (if s.catStaged.isSome then 1 else 0) + (if s.dirOld.isSome then 1 else 0))

/-- `SPILL_MIB` (Table 6.12). -/
def spillMib (s : State) : Nat := regFld s pgSplice 0x098 0 13

/-- T2 bytes that no warm copy can displace (R187), the kiln's map among them, whose home is T2 (R247). -/
def t2Fixed (s : State) : Nat :=
  dirBytes s + s.kiln.map.bytes + spillMib s * mib + (s.gyles.map (·.areaBytes)).sum + (s.train.hold.map (·.bytes)).sum + dirtyT2 s +
    ((s.tiers.lent.map (·.gibs)).sum) * gib

/-- The size of the T2 region. -/
def t2Size (s : State) : Nat := regFld s pgTiers 0x088 0 11 * gib

/-- Free bytes of the T2 region. -/
def t2Free (s : State) : Nat := t2Size s - t2Fixed s - warmBytes s

/-- Room in T2 for a grist area or a gradient hold: every clean warm copy may give way (R187). -/
def t2Room (s : State) : Nat := t2Size s - t2Fixed s

/-- A tenant's T2 charge (Table 9.2): warm copies and dirty data of its adapters, each at `TENSOR_BYTES` plus state area. -/
def t2Charge (s : State) (t : Nat) : Nat := ((versionsIn2 s).map fun x => if x.2.2.2.1 = t then x.2.2.2.2 else 0).sum

/-- A tenant's T3 charge. -/
def t3Charge (s : State) (t : Nat) : Nat :=
  (s.tiers.warm.map fun w => if w.tenant = t && w.grant.isSome then w.bytes else 0).sum

/-- The versions that a catalogue stores in this block's T4, with their adapters: none of one that a purge has retired (Table 21.3). -/
def Catalogue.stored (c : Catalogue) : List (AdapterId × Ver) :=
  (c.adapters.filter (!·.2.retired)).flatMap fun e => (e.2.versions.filter (·.home)).map fun v => (e.1, v)

/-- Every version that this block's T4 stores, of the catalogue in force, a retiring and a staged one: versions current, superseded and
kept, restore points (Table 9.2). A carried version shares its storage with the one that it was carried from and counts once. -/
def storedVersions (s : State) : List Ver :=
  let moved := fun (a : AdapterId) (v : Nat) (old : Catalogue) =>
    (s.cat.adapter a).versions.any (·.carried s.cat.epoch) && (old.adapter a).current = v
  (s.cat.stored.map (·.2)) ++
    (match s.catRetiring with
      | some c => (c.stored.filter fun x => !moved x.1 x.2.version c).map (·.2)
      | none => []) ++
    (match s.catStaged with
      | some c => (c.stored.filter fun x => !x.2.carried c.epoch).map (·.2)
      | none => [])

/-- A tenant's T4 charge (Table 9.2): every stored version of its adapters, publishes and rackings under way included. -/
def t4Charge (s : State) (t : Nat) : Nat :=
  ((storedVersions s).map fun v => if v.hdr.tenant = t then verBytes v else 0).sum +
  (s.homes.publishes.map fun p => if p.ver.hdr.tenant = t then verBytes p.ver else 0).sum +
  (s.homes.rackIn.map fun r => if r.hdr.tenant = t then r.bytes else 0).sum

/-! ### The admission sketch -/

/-- The counter of a sketch row for an adapter. -/
def sketchAt (row : Nat) (a : AdapterId) : Nat := row * 65536 + Config.sketchHash row a % 65536

/-- An adapter's estimate: the least of its four counters (R172). -/
def estimate (s : State) (a : AdapterId) : Nat :=
  [0, 1, 2, 3].foldl (fun m r => min m (tget 0 s.cellar.sketch (sketchAt r a))) 255

/-- An event of R172 for an adapter: one to its four counters, each stopping at 255, and one to the `FREQ` of its cask. -/
def countUse (s : State) (epoch : Nat) (a : AdapterId) (v : Nat) : State :=
  let sk := [0, 1, 2, 3].foldl (fun t r => tmod 0 t (sketchAt r a) fun n => min 255 (n + 1)) s.cellar.sketch
  let s := { s with cellar := { s.cellar with sketch := sk } }
  match caskOf s epoch a v with
  | some i => modCask s i fun c => { c with freq := sat 16 (c.freq + 1) }
  | none => s

/-! ### Victims -/

/-- The order of R174: lowest `FREQ`, clean before dirty, oldest `LOADED_SEQ`, lowest index. -/
def victimKey (e : Nat × Cask) : List Nat := [e.2.freq, if e.2.dirty.isEmpty then 0 else 1, e.2.loadedSeq, e.1]

/-- Resident casks that are not held. -/
def unheld (s : State) : List (Nat × Cask) := (caskList s).filter fun e => e.2.st = .resident && !e.2.held

/-- Main victims in order (R174). -/
def mainVictims (s : State) : List (Nat × Cask) :=
  sortBy (fun a b => lexLt (victimKey a) (victimKey b)) ((unheld s).filter fun e => !e.2.probation)

/-- Unheld probation casks, oldest first (R173 step 5). -/
def probVictims (s : State) : List (Nat × Cask) :=
  sortBy (fun a b => lexLt [a.2.loadedSeq, a.1] [b.2.loadedSeq, b.1]) ((unheld s).filter fun e => e.2.probation)

/-- The shortest run of victims, in order, that frees `need` pool bytes; none when all together do not. -/
def freeUntil (s : State) (need : Nat) : List Nat → List Nat → Option (List Nat)
  | vs, [] => if need ≤ casksFree s vs then some vs else none
  | vs, i :: is => if need ≤ casksFree s vs then some vs else freeUntil s need (vs ++ [i]) is

/-- The shortest prefix whose weights reach `need`; none when all together do not. -/
def takeUntil (need : Nat) : List (Nat × Nat) → Option (List Nat)
  | [] => if need = 0 then some [] else none
  | (i, w) :: t => if need = 0 then some [] else (takeUntil (need - w) t).map (i :: ·)

/-! ### Warm copies in T2 and T3 -/

/-- Estimate order for T2 replacement (R185). -/
def warmKey (s : State) (w : Warm) : List Nat := [estimate s w.adapter, w.lastUse]

/-- The grant with room for a clean copy that T2 drops (R200): within the tenant's T3 quota, never of a grant that is being
recalled, and not in the single-home regime (R202). -/
def grantFor (s : State) (w : Warm) : Option Borrowed :=
  if w.noBorrow || s.tiers.singleHome || (tenantRec s w.tenant).qT3Gib * gib < t3Charge s w.tenant + w.bytes then none
  else s.tiers.borrowed.find? fun b => b.recalling.isNone && b.next + warmSize s w ≤ b.gibs * gib

/-- Header and bytes of a tensor as one run of segments carries them between blocks (R228): a message's arguments. -/
def segArgs (v : Ver) (i : Nat) : List Nat :=
  let bs := storedBytes v i
  [v.hdr.id, v.version, i, bs.length, 0, bs.length, (crcOf v i).toNat]

/-- The messages of one run (R228) that carries a tensor: its segments stand in one message here, as the receiver joins them. -/
def sendTensor (s : State) (m : Msg) (v : Ver) (i : Nat) : State :=
  sendMsg s { m with args := m.args ++ segArgs v i, data := storedBytes v i }

/-- A clean copy goes to a grant in T3 (R200): one run for each tensor that it has, at the next place of the grant. -/
def writeT3 (s : State) (b : Borrowed) (w : Warm) : State :=
  let v := (verOf s w.epoch w.adapter w.version).getD {}
  let s := (warmHas s w).foldl (fun s i => sendTensor s { type := 0x66, dst := b.lender, epoch := w.epoch, args := [b.grant] } v i) s
  let n := ((warmHas s w).map fun i => (storedBytes v i).length).sum
  { s with tiers := { s.tiers with
    warm := s.tiers.warm ++ [{ w with grant := some b.grant, place := b.next }]
    borrowed := s.tiers.borrowed.map fun x => if x.grant = b.grant then { x with next := x.next + n } else x } }

/-- Change a stored version of the catalogue of an epoch. -/
def modVerOf (s : State) (epoch : Nat) (a : AdapterId) (v : Nat) (f : Ver → Ver) : State :=
  let chg := fun (c : Catalogue) => { c with adapters := tmod {} c.adapters a fun x =>
    { x with versions := x.versions.map fun y => if y.version = v then f y else y } }
  if s.cat.epoch = epoch then { s with cat := chg s.cat }
  else { s with catRetiring := s.catRetiring.map fun c => if c.epoch = epoch then chg c else c }

/-- Tensors of a version go back to T4, which had released them (R202): they are written there and entered in the map. -/
def backToT4 (s : State) (epoch : Nat) (a : AdapterId) (v : Nat) (idx : List Nat) : State :=
  match verOf s epoch a v with
  | none => s
  | some ver =>
    let back := ver.t4Gone.filter idx.contains
    let t := back.foldl (fun t i => writeTensor (stamp t) .moveHome epoch ver i) s
    modVerOf t epoch a v fun y => { y with t4Gone := y.t4Gone.filter fun i => !(idx.contains i && t.kiln.map.holds epoch ver i) }

/-- T4 releases a tensor whose home moves elsewhere (R202): its record leaves the map. -/
def leaveT4Tensor (s : State) (epoch : Nat) (a : AdapterId) (v i : Nat) : State :=
  match verOf s epoch a v with
  | none => s
  | some ver =>
    let s := if s.kiln.map.holds epoch ver i then removeTensors (stamp s) .moveHome [(recKeyOf epoch ver i, i)] else s
    modVerOf s epoch a v fun y => { y with t4Gone := if y.t4Gone.contains i then y.t4Gone else y.t4Gone ++ [i] }

/-- Replace a warm copy: to a grant in T3, or dropped; tensors whose only home it is go down to T4 (R202). -/
def dropWarm (s : State) (w : Warm) : State :=
  let rest := s.tiers.warm.filter fun x => x ≠ w
  let s := { s with tiers := { s.tiers with warm := rest } }
  let s := backToT4 s w.epoch w.adapter w.version (warmHas s w)
  match grantFor s w with
  | some b => writeT3 s b w
  | none => s

/-- T2 copies replaced in order, lowest estimate first, for `need` bytes; `below` bounds their estimates. -/
def makeT2 (s : State) (need below : Nat) : State :=
  if need ≤ t2Free s then s
  else
    let cands := sortBy (fun a b => lexLt (warmKey s a) (warmKey s b))
      (s.tiers.warm.filter fun w => w.grant.isNone && estimate s w.adapter < below)
    if (cands.map (warmSize s)).sum + t2Free s < need then s
    else cands.foldl (fun t w => if need ≤ t2Free t then t else dropWarm t w) s

/-- The warm copy of a version in T2, or in a grant. -/
def warmOf (s : State) (epoch : Nat) (a : AdapterId) (v : Nat) (inT3 : Bool) : Option Warm :=
  s.tiers.warm.find? fun w => w.epoch = epoch && w.adapter = a && w.version = v && w.grant.isSome = inT3

/-- T2 holds dirty data of a version's tensor (R160). -/
def t2Dirty (s : State) (epoch : Nat) (a : AdapterId) (v i : Nat) : Bool :=
  epoch = s.cat.epoch && s.train.dirty.any fun d => d.adapter = a && d.version = v && d.t2 && d.tensors.contains i

/-- T2 holds a tensor of a version, in a warm copy or as dirty data. -/
def t2Holds (s : State) (epoch : Nat) (a : AdapterId) (v i : Nat) : Bool :=
  (warmOf s epoch a v false).any (fun w => !w.gone.contains i) || t2Dirty s epoch a v i

/-- The start of the T2 region in chip memory (Table 9.9). -/
def t2Base (s : State) : Nat := regFld s pgTiers 0x080 12 52 * 4096

/-- The place of a tensor of a cask in T1. The items that casks share stand once (Table 8.5). -/
def t1Place (s : State) (c : Cask) (i : Nat) : Nat :=
  Config.tensorPlace 1 c.adapter (writerOf ((verOf s c.epoch c.adapter c.version).getD {}) i) i

/-- A tensor is written into T1: what a window had written at its place is no more. -/
def clearT1 (s : State) (c : Cask) (i : Nat) : State :=
  if s.cellar.memory.isEmpty then s
  else
    let n := (storedBytes ((verOf s c.epoch c.adapter c.version).getD {}) i).length
    { s with cellar := { s.cellar with memory := memDrop s.cellar.memory (t1Place s c i) n } }

/-- Tensors of a version stand in T2: in its warm copy, or in a new one. -/
def addWarm (s : State) (w : Warm) (idx : List Nat) : State :=
  let v := (verOf s w.epoch w.adapter w.version).getD {}
  let s := if s.tiers.chip.isEmpty then s
    else
      let clear := fun (m : Memory) (i : Nat) =>
        memDrop m (t2Base s + Config.tensorPlace 2 w.adapter w.version i) (storedBytes v i).length
      { s with tiers := { s.tiers with chip := idx.foldl clear s.tiers.chip } }
  let same := fun (x : Warm) => x.grant.isNone && x.epoch = w.epoch && x.adapter = w.adapter && x.version = w.version
  let warm := if s.tiers.warm.any same then
      s.tiers.warm.map fun x => if same x then { x with gone := x.gone.filter fun i => !idx.contains i } else x
    else s.tiers.warm ++ [{ w with gone := (indicesOf s w.epoch w.adapter w.version).filter fun i => !idx.contains i }]
  { s with tiers := { s.tiers with warm } }

/-- Tensors of a version leave its warm copy in T2, which ends with its last. -/
def cutWarm (s : State) (epoch : Nat) (a : AdapterId) (v : Nat) (idx : List Nat) : State :=
  let cut := fun (x : Warm) =>
    if x.grant.isSome || x.epoch ≠ epoch || x.adapter ≠ a || x.version ≠ v then some x
    else
      let y := { x with gone := x.gone ++ idx.filter fun i => !x.gone.contains i }
      if (warmHas s y).isEmpty then none else some y
  { s with tiers := { s.tiers with warm := s.tiers.warm.filterMap cut } }

/-- Keep clean tensors of a version in T2 (R185, R187): after replacing copies of lower estimate, within the tenant's quota, which counts
the version once. -/
def placeWarm (s : State) (w : Warm) (idx : List Nat) : State :=
  let n := storedSize ((verOf s w.epoch w.adapter w.version).getD {}) idx
  let t := makeT2 s n (estimate s w.adapter)
  let u := addWarm t w idx
  if n ≤ t2Free t && (t2Charge u w.tenant ≤ t2Charge t w.tenant || t2Charge u w.tenant ≤ (tenantRec s w.tenant).qT2Gib * gib) then u else s

/-- The single-home regime holds for a cask (R203): for the whole block, or while its region is being remapped. -/
def oneHome (s : State) (c : Cask) : Bool := s.tiers.singleHome || c.single

/-- A warm copy of what a cask holds, used at the present event. -/
def warmCopy (s : State) (c : Cask) : Warm :=
  { adapter := c.adapter, version := c.version, tenant := c.tenant, bytes := c.bytes, noBorrow := c.noBorrow,
    lastUse := s.gauger.seq, epoch := c.epoch }

/-- In the single-home regime an eviction moves the tensors whose home is the cask down to T2, or to T4 when T2 has no room (R202). -/
def moveDownCask (s : State) (c : Cask) : State :=
  let n := storedSize ((verOf s c.epoch c.adapter c.version).getD {}) c.moved
  let t := makeT2 s n (estimate s c.adapter)
  if n ≤ t2Free t then addWarm t (warmCopy s c) c.moved else backToT4 s c.epoch c.adapter c.version c.moved

/-- The clean tensors of a cask that leaves T1 (R185): kept in T2 unless `NO_DEMOTE`, or a fetched copy (R174). -/
def demote (s : State) (c : Cask) : State :=
  if oneHome s c then (if c.moved.isEmpty then s else moveDownCask s c)
  else if c.noDemote || c.fetchedCopy || c.purged then s
  else placeWarm s (warmCopy s c) (c.present.filter fun i => !c.dirty.contains i)

/-! ### Freeing and evicting -/

/-- The streams that `keep` does not hold end. -/
def keepStreams (s : State) (keep : Stream → Bool) : State :=
  { s with tiers := { s.tiers with streams := s.tiers.streams.filter keep } }

/-- A cask's index is given back, with the bytes that only it holds; the stream that fills it ends. -/
def dropCask (s : State) (i : Nat) : State :=
  keepStreams { s with cellar := { s.cellar with casks := tdel i s.cellar.casks } } fun st => st.toT2 || st.cask ≠ i

/-- A victim leaves (R174): a clean one is freed at once, a dirty one enters `EVICTING` until it is written back. -/
def evictRaw (s : State) (i : Nat) : State :=
  let c := s.cask i
  let s := { s with cellar := { s.cellar with evictions := sat 32 (s.cellar.evictions + 1) } }
  if c.dirty.isEmpty then dropCask (demote s c) i else modCask s i fun c => { c with st := .evicting }

/-- Bytes that an admission asks for of one cask: none where the cask is there, a victim that is still written back among them. -/
def partBytes (s : State) (r : Admit) (p : AdmitPart) : Nat :=
  if (caskOf s r.epoch p.adapter p.version).isSome then 0 else p.bytes

/-- Bytes that an admission asks for. -/
def Admit.need (s : State) (r : Admit) : Nat := (r.parts.map (partBytes s r)).sum

/-- Victims in `EVICTING` that no admission awaits. -/
def loneEvicting (s : State) : List Nat :=
  let awaited := s.cellar.waiting.flatMap (·.evicting)
  ((caskList s).filter fun e => e.2.st = .evicting && !awaited.contains e.1).map (·.1)

/-- Bytes on their way from victims in `EVICTING` that neither an admission nor a raised part awaits. -/
def comingFree (s : State) : Nat := casksFree s (loneEvicting s) - deficit s

/-- A version's ullage moves to the pool once the cask of the version before it no longer exists and the pool can take it, evicting main
victims if need be (R177). -/
def moveUllage (s : State) (i : Nat) : State :=
  let c := s.cask i
  let older := (caskList s).any fun e => e.2.adapter = c.adapter && e.2.epoch = c.epoch && e.2.version + 1 = c.version
  let move := fun (t : State) => if c.ullage ≤ freeNow t then modCask t i fun c => { c with ullage := 0 } else t
  if c.ullage = 0 || older then s
  else match freeUntil s (c.ullage - freeNow s - comingFree s) [] (((mainVictims s).map (·.1)).filter (· ≠ i)) with
    | some vs => move (vs.foldl evictRaw s)
    | none => s

/-- Every cask that still holds ullage tries to move it. -/
def moveAllUllage (s : State) : State := (caskList s).foldl (fun t e => moveUllage t e.1) s

/-- A cask becomes `FREE`: its index and its unshared bytes are given back, and ullage moves (R167, R177). -/
def freeCask (s : State) (i : Nat) : State := moveAllUllage (refreshHolds (dropCask s i))

/-- Evict some casks (R174). -/
def evictAll (s : State) (is : List Nat) : State := refreshHolds (is.foldl evictRaw s)

/-- `STALE` casks that no gyle binds become `FREE` (R167). -/
def freeStale (s : State) : State :=
  (caskList s).foldl (fun t e => if e.2.st = .stale && e.2.binds.isEmpty && e.2.trainHolds.isEmpty then freeCask t e.1 else t) s

/-- Every unheld cask that a raised part may have, in order: those on their way out that no admission awaits, the main victims of R174,
then the probation casks, oldest first. R174 orders main victims only: that the probation casks come last is the model's choice (log
entry 54). -/
def growthVictims (s : State) : List Nat := loneEvicting s ++ (mainVictims s ++ probVictims s).map (·.1)

/-- The victims that cover what the raised parts still lack (R163): a cask that a gyle took back is replaced by the next. -/
def coverGrowth (s : State) : State :=
  let vs := (freeUntil s (deficit s) [] (growthVictims s)).getD (growthVictims s)
  evictAll s (vs.filter fun i => (s.cask i).st ≠ .evicting)

/-! ### Admissions -/

/-- A cask is releasing for an admission (R179): held only by gyles opened before it. -/
def releasingFor (s : State) (r : Admit) (i : Nat) : Bool :=
  let c := s.cask i
  (c.st = .resident || c.st = .stale) && c.pins = 0 && !c.fallbackHold && !c.memberHold && c.trainHolds.isEmpty &&
    !c.binds.isEmpty && c.binds.all fun k => match s.gyle k with
      | some g => g.openSeq < r.seq
      | none => true

/-- Of a list of casks, those that an admission may take: never one that it places itself, such as the basis of its member (R171). -/
def Admit.others (r : Admit) (l : List (Nat × Cask)) : List (Nat × Cask) :=
  l.filter fun e => !r.parts.any fun p => p.adapter = e.2.adapter && p.version = e.2.version && r.epoch = e.2.epoch

/-- The releasing casks that no admission has been promised yet, in the order of R174. -/
def unpromised (s : State) (r : Admit) : List Nat :=
  let taken := (s.cellar.waiting.flatMap (·.promise)).map (·.1)
  (sortBy (fun a b => lexLt (victimKey a) (victimKey b)) ((r.others (caskList s)).filter fun e =>
    releasingFor s r e.1 && !taken.contains e.1)).map (·.1)

/-- A promised cask is still to come: a gyle that bound it when it was promised binds it yet (R179). -/
def stillReleasing (s : State) (p : Nat × List GyleKey) : Bool :=
  ((s.cask p.1).st = .resident || (s.cask p.1).st = .stale) && (s.cask p.1).binds.any p.2.contains

/-- The tensors of a version in the order in which a stream delivers them (R190). -/
def streamOrder (s : State) (v : Ver) : List Nat :=
  let ranked := match s.planInForce with
    | none => []
    | some p =>
      let at_ := (List.zip (List.range v.slots.length) v.slots).filterMap fun e =>
        (p.slots.find? fun ps => ps.layer = e.2.layer && ps.proj = e.2.proj && p.models[ps.model]? = some v.hdr.fp).map
          fun ps => (ps.issueRank, e.1)
      (sortBy (fun (a b : Nat × Nat) => a.1 < b.1) at_).map (·.2)
  let rest := (List.range v.slots.length).filter fun n => !ranked.contains n
  (ranked ++ rest).flatMap (fun n => [2 * n, 2 * n + 1]) ++ stateIndices v

/-- The gyle binds the adapter as the default or the fallback of a tenant that its rows name (R404). -/
def tenantBinds (g : Gyle) (a : AdapterId) : Bool :=
  a ≠ 0 && g.rows.any fun r => let t : TenantRec := tget {} g.tenantRecs r.2.tenant; t.dflt = a || t.fallback = a

/-- The gyles that bind a version: some row of theirs names it, itself or as a basis, or has it from its tenant (R404). -/
def bindersOf (s : State) (epoch : Nat) (a : AdapterId) (v : Nat) : List GyleKey :=
  (s.gyles.filter fun g => g.epoch = epoch && ((g.rows.any fun r => r.2.comps.any fun c =>
    (c.path = .here) && ((c.adapter = a && c.version = v) || c.basis = some (a, v))) ||
      (tenantBinds g a && (boundVer s g a).any (·.version = v)))).map (·.key)

/-- Cask indices that are held for new versions (R155, R168). -/
def indicesHeld (s : State) : Nat :=
  (s.train.commits.map (·.indices)).sum + (s.homes.publishes.filter (·.index)).length

/-- Cask indices that are free (R167). -/
def freeCount (s : State) : Nat := 4096 - s.cellar.casks.length - indicesHeld s

/-- Start the stream that fills a cask (R190). -/
def addStream (s : State) (i : Nat) (r : Admit) : State :=
  let c := s.cask i
  match verOf s c.epoch c.adapter c.version with
  | none => s
  | some v =>
    let st : Stream := { id := s.tiers.nextStream, adapter := c.adapter, version := c.version, cask := i, place := r.seq, ctx := r.ctx,
                         users := (r.ctx.toList ++ r.users).eraseDups,
                         left := streamOrder s v, home := homeFor s (catOf s c.epoch) c.adapter c.version, noBorrow := r.alloc.getLsbD 2,
                         epoch := c.epoch }
    { s with tiers := { s.tiers with streams := s.tiers.streams ++ [st], nextStream := s.tiers.nextStream + 1 } }

/-- The cask of a version at an admission's event (R67, R167): `FILLING`, bound by the gyles that need it. -/
def fillingCask (s : State) (r : Admit) (p : AdmitPart) (probation : Bool) : Cask :=
  let v := (verOf s r.epoch p.adapter p.version).getD {}
  let binds := bindersOf s r.epoch p.adapter p.version
  { st := .filling, adapter := p.adapter, version := p.version, tenant := p.tenant, epoch := r.epoch
    basis := v.hdr.form = .basis, stateArea := v.state.isSome
    fetchedCopy := homeOf (catOf s r.epoch) p.adapter ≠ selfPeer s
    probation, form := v.hdr.form, slotCount := v.hdr.slotCount, bytes := p.bytes, fp := v.hdr.fp
    loadedSeq := s.gauger.seq, binds, gyleSeen := !binds.isEmpty, noDemote := r.alloc.getLsbD 4, noBorrow := r.alloc.getLsbD 2
    trainHolds := (s.train.hold.filter fun h => h.adapter = p.adapter && h.version = p.version).map (·.gk) }

/-- One cask of an admission: it takes an index and its stream is requested (R67, R167); a victim that is still there returns to
`RESIDENT`. -/
def placePart (r : Admit) (probation : Bool) (s : State) (p : AdmitPart) : State :=
  match caskOf s r.epoch p.adapter p.version with
  | some i => modCask s i fun c => if c.st = .evicting
      then { c with st := .resident, binds := (c.binds ++ bindersOf s r.epoch p.adapter p.version).eraseDups } else c
  | none =>
    if freeCount s = 0 then s
    else
      let i := firstFree 0 s.cellar.casks
      addStream (modCask s i fun _ => fillingCask s r p probation) i r

/-- Place every part of an admission, the basis first (R171). -/
def placeParts (s : State) (r : Admit) (probation : Bool) : State := refreshHolds (r.parts.foldl (placePart r probation) s)

/-- What an attempt to place an admission gives: the state, and whether it was placed; if not, how it now waits. -/
structure Attempt where
  s : State
  placed : Bool
  r : Admit

/-- The admission finds no space (R180). -/
def noSpace (s : State) (r : Admit) : Attempt := ⟨s, false, { r with promised := false, promise := [], evicting := [], place := none }⟩

/-- The admission has found its space and waits for victims that are being written back; the bytes that are free are its own. -/
def awaitVictims (s : State) (r : Admit) (vs : List Nat) (place : Option Bool) : Attempt :=
  ⟨s, false, { r with promised := true, quota := false, promise := [], evicting := vs, place, got := min (r.need s) (freeNow s) }⟩

/-- Of a list of casks, those that are being written back. -/
def evictingOf (s : State) (is : List Nat) : List Nat := is.filter fun i => (s.cask i).st = .evicting

/-- The admission has its bytes; it takes its indices, evicting for them if need be: the oldest unheld probation casks, then main
victims (R173). -/
def takeIndices (s : State) (r : Admit) (probation : Bool) : Attempt :=
  let n := (r.parts.filter fun p => (caskOf s r.epoch p.adapter p.version).isNone).length
  let lack := n - freeCount s
  let vs := ((r.others (probVictims s ++ mainVictims s)).map (·.1)).take lack
  if vs.length < lack then noSpace s r
  else
    let s := evictAll s vs
    if n ≤ freeCount s then ⟨placeParts s r probation, true, r⟩ else awaitVictims s r (evictingOf s vs) (some probation)

/-- Victims of a tenant's own that bring its charge within quota with `bytes` more (R173, step 1); none when they cannot. What is being
written back already counts. -/
def quotaVictims (s : State) (r : Admit) (t bytes : Nat) : Option (List Nat) :=
  let own := sortBy (fun a b => lexLt (victimKey a) (victimKey b)) ((r.others (unheld s)).filter fun e => e.2.tenant = t && caskCharged s e.2)
  let coming := ((caskList s).map fun e => if e.2.tenant = t && e.2.st = .evicting && caskCharged s e.2 then e.2.bytes else 0).sum
  takeUntil (t1Charge s t + bytes - (tenantRec s t).qT1Mib * mib - coming) (own.map fun e => (e.1, e.2.bytes))

/-- The bytes that an admission asks for of a tenant. -/
def Admit.needOf (s : State) (r : Admit) (t : Nat) : Nat := (r.parts.map fun p => if p.tenant = t then partBytes s r p else 0).sum

/-- The tenants of an admission. -/
def Admit.tenants (r : Admit) : List Nat := (r.parts.map (·.tenant)).eraseDups

/-- Every tenant of the admission is within its T1 quota with it. -/
def quotaFits (s : State) (r : Admit) : Bool :=
  r.tenants.all fun t => r.needOf s t = 0 || t1Charge s t + r.needOf s t ≤ (tenantRec s t).qT1Mib * mib

/-- Step 1 of R173 over the admission's tenants: the victims, or none where some tenant's cannot make it fit. -/
def quotaStep (s : State) (r : Admit) : Option (List Nat) :=
  r.tenants.foldl (fun o t => match o with
    | none => none
    | some vs => if r.needOf s t = 0 then some vs else (quotaVictims s r t (r.needOf s t)).map (vs ++ ·)) (some [])

/-- Main victims that free `need` bytes. -/
def mainFor (s : State) (r : Admit) (need : Nat) : Option (List Nat) := freeUntil s need [] ((r.others (mainVictims s)).map (·.1))

/-- Evict victims for an admission: it is placed when their bytes are free at once, and waits for them otherwise (R174). -/
def evictAndPlace (s : State) (r : Admit) (vs : List Nat) (probation : Bool) : Attempt :=
  let s := evictAll s vs
  if !(evictingOf s vs).isEmpty then awaitVictims s r (evictingOf s vs) (some probation)
  else if r.need s ≤ freeNow s then takeIndices s r probation
  else noSpace s r

/-- Main victims are evicted until the admission fits (R173, step 4). One that meets step 4's condition and that they cannot make fit
finds no space: that step 5 is not tried for it is the model's choice (log entry 54). -/
def mainStep (s : State) (r : Admit) : Attempt :=
  match mainFor s r (r.need s - freeNow s) with
  | some vs => evictAndPlace s r vs false
  | none => noSpace s r

/-- The smaller of 255 and the `FREQ` of the first main victim (R173 step 4). -/
def filterBar (s : State) (r : Admit) : Nat :=
  match r.others (mainVictims s) with
  | e :: _ => min 255 e.2.freq
  | [] => 255

/-- The estimate that an admission shows the filter: the adapter it was asked for, the last of its parts. -/
def Admit.estimate (s : State) (r : Admit) : Nat :=
  match r.parts.getLast? with
  | some p => Sys2Proof.Machine.estimate s p.adapter
  | none => 0

/-- The admission is explicit (R173): of a command or a fallback, or it places a basis. -/
def Admit.isExplicit (s : State) (r : Admit) : Bool :=
  r.explicit || r.parts.dropLast.any fun p => (caskOf s r.epoch p.adapter p.version).isNone

/-- Bytes of the casks on probation. -/
def probationBytes (s : State) : Nat := ((caskList s).map fun e => if e.2.probation then e.2.bytes else 0).sum

/-- `PROBATION_MIB` in bytes. -/
def probationCap (s : State) : Nat := regFld s pgCellar 0x080 16 12 * mib

/-- Step 5 of R173: probation, within its cap; where that cannot make room, main victims as in step 4. -/
def probationStep (s : State) (r : Admit) : Attempt :=
  let s := if r.lost then s else { s with cellar := { s.cellar with filterLosses := sat 32 (s.cellar.filterLosses + 1) } }
  let r := { r with lost := true }
  let n := r.need s
  let old := r.others (probVictims s)
  if probationCap s < n then mainStep s r
  else match takeUntil (probationBytes s + n - probationCap s) (old.map fun e => (e.1, e.2.bytes)),
      freeUntil s (n - freeNow s) [] (old.map (·.1)) with
    | some vs, some ws => evictAndPlace s r (if vs.length < ws.length then ws else vs) true
    | _, _ => mainStep s r

/-- Steps 2 to 6 of R173. A `TRANSIENT` admission takes free bytes as a probation cask within the cap (R188). -/
def spaceSteps (s : State) (r : Admit) : Attempt :=
  let n := r.need s
  let transient := r.alloc.getLsbD 3
  if n ≤ freeNow s && (!transient || probationBytes s + n ≤ probationCap s) then takeIndices s r transient
  else match (if n ≤ freeNow s then none else freeUntil s (n - freeNow s) [] (unpromised s r)) with
    | some is => ⟨s, false, { r with promised := true, promise := is.map (fun i => (i, (s.cask i).binds)), evicting := [], place := none,
                                     got := freeNow s }⟩
    | none =>
      if !transient && (r.isExplicit s || regFld s pgCellar 0x088 16 1 = 0 || filterBar s r < r.estimate s) then mainStep s r
      else probationStep s r

/-- R173 for an admission, its steps in order. -/
def tryAdmit (s : State) (r : Admit) : Attempt :=
  match quotaStep s r with
  | none => noSpace s { r with quota := true, got := 0 }
  | some vs =>
    let s := evictAll s vs
    let r := { r with quota := false }
    if quotaFits s r then spaceSteps s r
    else awaitVictims s r ((caskList s).filterMap fun e =>
      if e.2.st = .evicting && r.tenants.contains e.2.tenant then some e.1 else none) none

/-- A waiting admission is tried again (R178 to R180): it goes on waiting for its victims, or for casks promised to it that are still
releasing; once its space is there it is placed; and where a promise is broken it repeats R173 from step 1. -/
def retryOne (s : State) (r : Admit) : Attempt :=
  if !(evictingOf s r.evicting).isEmpty then ⟨s, false, { r with evicting := evictingOf s r.evicting }⟩
  else match r.place with
    | some p => if r.need s ≤ freeNow s && quotaFits s r then takeIndices s { r with evicting := [] } p
        else tryAdmit s { r with evicting := [], place := none }
    | none =>
      if !r.promise.isEmpty && r.promise.all (stillReleasing s) && freeNow s < r.need s then ⟨s, false, r⟩
      else tryAdmit s { r with evicting := [], promise := [] }

/-- An admission that finds no space is counted once, and the rows that need it are no-space rows (R180). -/
def noteNoSpace (s : State) (r : Admit) : State × Admit :=
  if r.promised || r.counted then (s, r)
  else ({ s with cellar := { s.cellar with noSpaceAdmits := sat 32 (s.cellar.noSpaceAdmits + 1) } }, { r with counted := true })

/-- Waiting admissions in gauger order. -/
def queueAdmit (rs : List Admit) (r : Admit) : List Admit := insertBy (fun a b => a.seq < b.seq) r rs

/-- The end of an attempt: an admission that was not placed waits (R180). -/
def endAttempt (a : Attempt) : State :=
  if a.placed then moveAllUllage a.s
  else
    let n := noteNoSpace (moveAllUllage a.s) a.r
    { n.1 with cellar := { n.1.cellar with waiting := queueAdmit n.1.cellar.waiting n.2 } }

/-- Run an admission, and let it wait when it is not placed (R180). -/
def takeIn (s : State) (r : Admit) : State := endAttempt (tryAdmit s r)

/-- The waiting admission `r` leaves the queue. -/
def unqueue (s : State) (r : Admit) : State :=
  { s with cellar := { s.cellar with waiting := s.cellar.waiting.filter (· ≠ r) } }

/-- The admissions of a list tried again in order (R178, R180). -/
def retryAdmits : List Admit → State → State
  | [], s => s
  | r :: rs, s =>
    -- the queue may have changed `r` since the list was made: its promises and what it was given stand there
    match s.cellar.waiting.find? fun x => x.parts = r.parts && x.seq = r.seq && x.epoch = r.epoch with
    | some x => retryAdmits rs (endAttempt (retryOne (unqueue s x) x))
    | none => retryAdmits rs s

/-- Change every waiting admission. -/
def modWaiting (s : State) (f : Admit → Admit) : State := { s with cellar := { s.cellar with waiting := s.cellar.waiting.map f } }

/-- The promised casks that nothing holds any longer leave for the admissions that count on them (R179). -/
def takePromises (s : State) : State :=
  let free := fun (t : State) (i : Nat) => (t.cask i).st = .resident && !(t.cask i).held
  let due := ((s.cellar.waiting.flatMap (·.promise)).map (·.1)).filter (free s)
  let s := evictAll s due
  modWaiting s fun r => { r with
    promise := r.promise.filter fun p => !due.contains p.1 && (s.cask p.1).st ≠ .free
    evicting := r.evicting ++ evictingOf s ((r.promise.map (·.1)).filter due.contains) }

/-- Freed bytes go to the queued admissions in gauger order, each as far as it lacks; an admission that its quota stops takes none
(R178). -/
def allot (s : State) : Nat → List Admit → List Admit
  | _, [] => []
  | n, r :: rs =>
    let x := if r.quota then 0 else min n (r.need s - r.got)
    { r with got := r.got + x } :: allot s (n - x) rs

/-- What a release does (R178): it frees what nothing keeps, `free0` being the free bytes before it; the queued admissions take the
freed bytes, in gauger order, and what they leave goes to the pool. -/
def releaseFrom (free0 : Nat) (s : State) : State :=
  let s := takePromises (coverGrowth (moveAllUllage (freeStale (refreshHolds s))))
  let s := { s with cellar := { s.cellar with waiting := allot s (freeNow s - free0) s.cellar.waiting } }
  retryAdmits s.cellar.waiting s

/-- The release that a change makes (R178). -/
def releaseBy (s : State) (f : State → State) : State := releaseFrom (freeNow s) (f s)

/-- The release of what nothing keeps any longer. -/
def release (s : State) : State := releaseFrom (freeNow s) s

/-- An admission of this version is waiting. -/
def admitWaits (s : State) (epoch : Nat) (a : AdapterId) (v : Nat) : Bool :=
  s.cellar.waiting.any fun r => r.epoch = epoch && r.parts.any fun p => p.adapter = a && p.version = v

/-- The version has a cask or an admission under way. -/
def caskComing (s : State) (epoch : Nat) (a : AdapterId) (v : Nat) : Bool :=
  (caskOf s epoch a v).isSome || admitWaits s epoch a v

/-- The version's cask is `FILLING`, `RESIDENT` or `STALE`. -/
def caskHere (s : State) (epoch : Nat) (a : AdapterId) (v : Nat) : Bool :=
  match caskOf s epoch a v with
  | some i => (s.cask i).st ≠ .evicting
  | none => false

/-- The part of an admission for a version. -/
def partOf (v : Ver) : AdmitPart := { adapter := v.hdr.id, version := v.version, tenant := v.hdr.tenant, bytes := verBytes v }

/-- The waiting admissions of a version become explicit by a command, and are tried again at once (R173, R180). -/
def raiseAdmits (s : State) (epoch : Nat) (a : AdapterId) (v : Nat) : State :=
  (s.cellar.waiting.filter fun r => !r.explicit && r.epoch = epoch && (r.parts.getLast?.any fun p => p.adapter = a && p.version = v)).foldl
    (fun s r => endAttempt (retryOne (unqueue s r) { r with explicit := true })) s

/-- A context asks for what streams or waiting admissions of some versions bring already (Table 12.4, step 3). -/
def noteUser (s : State) (c : Option Nat) (epoch : Nat) (vs : List Ver) : State :=
  match c with
  | none => s
  | some c =>
    let add := fun (us : List Nat) => if us.contains c then us else us ++ [c]
    let isOf := fun (a : AdapterId) (v : Nat) => vs.any fun y => y.hdr.id = a && y.version = v
    let mark := fun (st : Stream) => if st.epoch = epoch && isOf st.adapter st.version then { st with users := add st.users } else st
    let s := { s with tiers := { s.tiers with streams := s.tiers.streams.map mark } }
    modWaiting s fun r =>
      if r.epoch = epoch && r.parts.any (fun p => isOf p.adapter p.version) then { r with users := add r.users } else r

/-- The casks of a version and of the basis it needs, admitted where one is missing: together when both are, the basis first (R67,
R171). One whose admission waits already is not asked for again; a command makes it explicit. -/
def needCasks (s : State) (r : Admit) (v : Ver) (basis : Option Ver) : State :=
  let all := basis.toList ++ [v]
  let s := noteUser s r.ctx r.epoch all
  let missing := all.filter fun x => !caskHere s r.epoch x.hdr.id x.version
  if missing.isEmpty then s
  else if admitWaits s r.epoch v.hdr.id v.version then
    (if r.explicit then raiseAdmits s r.epoch v.hdr.id v.version else s)
  else if caskHere s r.epoch v.hdr.id v.version && missing.all (fun x => admitWaits s r.epoch x.hdr.id x.version) then s
  else takeIn s { r with parts := all.map partOf }

/-- The cask is `RESIDENT` (or `STALE`, kept whole for the gyles that bind it). -/
def caskWhole (s : State) (epoch : Nat) (a : AdapterId) (v : Nat) : Bool :=
  match caskOf s epoch a v with
  | some i => (s.cask i).st = .resident || (s.cask i).st = .stale
  | none => false

/-- A gyle binds a version's cask (R167, R173): `EVICTING` returns to `RESIDENT`; a second gyle on a probation cask makes it a
main cask. -/
def bindCask (s : State) (k : GyleKey) (epoch : Nat) (a : AdapterId) (v : Nat) : State :=
  match caskOf s epoch a v with
  | none => s
  | some i => modCask s i fun c =>
    if c.binds.contains k then c
    else { c with
      binds := c.binds ++ [k]
      st := if c.st = .evicting then .resident else c.st
      probation := c.probation && !c.gyleSeen
      gyleSeen := true }

/-- A gyle binds the casks of a tenant's default and fallback (R404): it resolves nothing to them. -/
def bindTenant (s : State) (k : GyleKey) (tenant : Nat) : State :=
  match s.gyle k with
  | none => s
  | some g =>
    let t : TenantRec := tget {} g.tenantRecs tenant
    ([t.dflt, t.fallback].filter (· ≠ 0)).foldl (fun s a => match (boundVer s g a).bind (fun v => caskOf s g.epoch a v.version) with
      | some i => modCask s i fun c => if c.binds.contains k then c
          else { c with binds := c.binds ++ [k], st := if c.st = .evicting then .resident else c.st }
      | none => s) s

/-- A gyle releases every bind (R178). -/
def unbindGyle (s : State) (k : GyleKey) : State :=
  releaseBy s fun s => (caskList s).foldl (fun t e => modCask t e.1 fun c =>
    { c with binds := c.binds.filter (· ≠ k), trainHolds := c.trainHolds.filter (· ≠ k) }) s

/-- A new version makes the cask of the one before it `STALE` when gyles still bind it, and frees it otherwise (R167, R176). -/
def staleCask (s : State) (epoch : Nat) (a : AdapterId) (v : Nat) : State :=
  match caskOf s epoch a v with
  | none => s
  | some i =>
    if (s.cask i).binds.isEmpty && (s.cask i).trainHolds.isEmpty then freeCask s i
    else modCask s i fun c => { c with st := .stale, pins := 0, fallbackHold := false, memberHold := false,
                                       dirty := [], stateArea := false }

end Sys2Proof.Machine
end

