-- ==== Sys2Proof/Machine/Release.lean ====
section
/-! DEFINITION. What a gyle holds and how it gives it back: credits, staging and departure space (R126, R296), operations in
the tuns, mix handles (R33), stored versions (R184, R216), retiring epochs (R238), the side table (R71), and the messages a
gyle's end sends (R216, R224). -/
namespace Sys2Proof.Machine

/-! ### Messages out -/

/-- The up peers other than this block. -/
def otherPeers (s : State) : List Nat := s.homes.peersUp.filter (· ≠ selfPeer s)

/-! ### Work of a gyle in the ports and tuns -/

/-- Bytes of the departure-store reservation of one row at a slot of a gyle (R126). -/
def resvBytes (g : Gyle) (slot : Nat) : Nat :=
  match g.plan.slots[slot]? with
  | some p => if g.kind = .training then 4 * p.inW else 4 * p.outW
  | none => 0

/-- The key of a row at a slot of a gyle's table. -/
def slotKey (slot row : Nat) : Nat := slot * 2 ^ 20 + row

/-- A row at a slot of a gyle. -/
def Gyle.rowSlot (g : Gyle) (slot row : Nat) : RowSlot := tget {} g.slots (slotKey slot row)

/-- Change a row at a slot. -/
def Gyle.modSlot (g : Gyle) (slot row : Nat) (f : RowSlot → RowSlot) : Gyle :=
  { g with slots := tmod {} g.slots (slotKey slot row) f }

/-- Release a row-slot's departure reservation (R126, R127). -/
def freeResv (s : State) (k : GyleKey) (slot row : Nat) : State :=
  match s.gyle k with
  | none => s
  | some g =>
    let x := g.rowSlot slot row
    if !x.reserved then s
    else
      let n := resvBytes g slot
      let s := if x.inSpill then { s with spillUsed := s.spillUsed - n }
        else modPort s x.port fun p => { p with departureUsed := p.departureUsed - n }
      modGyle s k fun g => g.modSlot slot row fun x => { x with reserved := false, inSpill := false }

/-- Every reservation of a gyle is released. -/
def freeAllResv (s : State) (k : GyleKey) : State :=
  match s.gyle k with
  | none => s
  | some g => g.slots.foldl (fun t e => freeResv t k (e.1 / 2 ^ 20) (e.1 % 2 ^ 20)) s

/-- A gyle's traffic leaves a splice port: credits are withdrawn, staged beats and parts under way are dropped (R296). -/
def clearPort (k : GyleKey) (p : Port) : Port :=
  { p with
    credits := p.credits.filter (·.gk ≠ k)
    withdrawn := p.withdrawn ++ p.credits.filter (·.gk = k)
    staged := p.staged.filter (·.gk ≠ k)
    partIn := p.partIn.filter (·.gk ≠ k)
    portions := p.portions.filter (·.1 ≠ k)
    openOut := p.openOut.filter (·.1 ≠ k)
    sending := p.sending.filter (·.gk ≠ k) }

/-- An operation fills an accumulator set. -/
def fillsSet (o : Op) (a : AccSet) : Bool :=
  a.gk = o.gk && a.slot = o.slot && a.segment = o.segment && a.group = o.group && a.fill = o.fill ++ [o.fills]

/-- A gyle's unissued operations leave the tuns; issued ones run out and their results are discarded (R296), with the accumulator sets
that they fill. -/
def clearTun (k : GyleKey) (t : Tun) : Tun :=
  { t with
    sets := t.sets.filter fun a => a.gk ≠ k || t.issued.any fun o => fillsSet o a
    queue := t.queue.filter (·.gk ≠ k)
    issued := t.issued.map fun o => if o.gk = k then { o with discard := true } else o
    rankWaits := t.rankWaits.filter (·.gk ≠ k) }

/-- A gyle leaves the batch windows (R86, R296). -/
def clearHeld (s : State) (k : GyleKey) : State :=
  let hs := s.heldGroups.map fun h => { h with members := h.members.filter fun m => m.2.gk ≠ k }
  { s with heldGroups := hs.filter (fun h => !h.members.isEmpty), orphans := s.orphans.filter fun o => o.gk ≠ k }

/-- All of a gyle's work under way ends (R296): ports, tuns, windows and reservations; its tun partials are dropped, and what those of
the abandoned run have added to its gradient holds (R147). -/
def clearWork (s : State) (k : GyleKey) : State :=
  let s := freeAllResv s k
  let s := s.ports.foldl (fun t e => modPort t e.1 (clearPort k)) s
  let s := s.tuns.foldl (fun t e => modTun t e.1 (clearTun k)) s
  let s := clearHeld s k
  { s with
    train := { s.train with
      scratch := s.train.scratch.filter (·.gk ≠ k)
      hold := s.train.hold.map fun h => if h.gk = k then { h with grads := [] } else h }
    homes := { s.homes with requests := s.homes.requests.filter (·.gk ≠ some k) } }

/-- The gyle as a stop leaves it: back in `SORTED`, with its grist, binds and holds; the counts of the abandoned run are
dropped, `REPLAYS` apart (R291, R296). -/
def Gyle.stopped1 (g : Gyle) : Gyle :=
  { g with st := .sorted, slots := [], placed := [], layers := [], noSpaceRows := [], nanRows := [], satDeltas := 0,
           farRowSlots := 0, stopped := true }

/-- `M_FAR_CANCEL` to every home of the gyle's far apply (R224); how many were sent. -/
def farCancel (s : State) (g : Gyle) : State :=
  g.farHomes.foldl (fun t h => sendMsg t
    { type := 0x26, dst := h, corr := t.gauger.seq, epoch := g.epoch, ctxEpoch := (t.ctx g.key.owner).epoch,
      submitter := g.key.owner, args := [g.key.num] }) s

/-- `M_FAR_CLOSE` to every home of the gyle's far apply (R224). -/
def farClose (s : State) (g : Gyle) : State :=
  g.farHomes.foldl (fun t h => sendMsg t
    { type := 0x25, dst := h, corr := t.gauger.seq, epoch := g.epoch, ctxEpoch := (t.ctx g.key.owner).epoch,
      submitter := g.key.owner, args := [g.key.num] }) s

/-- The credit words that withdraw a context's credit, one on each port that had granted it any (R296, R437). -/
def withdrawWords (s : State) (c : Nat) : State :=
  s.ports.foldl (fun t e =>
    if e.2.credits.any fun x => !x.gk.far && x.gk.owner = c
    then emit t (.creditWord e.1 (BitVec.ofNat 64 (c * 2 ^ 16 + 2 * 2 ^ 52))) else t) s

/-! ### What a gyle binds -/

/-- Some row of the gyle names the version, itself or as a basis. -/
def gyleBinds (g : Gyle) (a : AdapterId) (v : Nat) : Bool :=
  g.rows.any fun r => r.2.comps.any fun c => (c.adapter = a && c.version = v) || c.basis = some (a, v)

/-- A gyle that may still come to bind the version: it resolves rows, and the version is the one current at its opening. -/
def gyleMayBind (g : Gyle) (x : Adapter) (v : Nat) : Bool :=
  g.st = .filling && match x.verAt g.openSeq with
    | some y => y.version = v
    | none => false

/-- The gyle binds a version: some row of it names it, or a tenant of some row does (R214, R239, R404). -/
def bindsVersion (s : State) (g : Gyle) (a : AdapterId) (v : Nat) : Bool :=
  gyleBinds g a v || (tenantBinds g a && (boundVer s g a).any (·.version = v))

/-- A version is the restore point of a newer one that T4 does not hold (R343). -/
def isRestorePoint (x : Adapter) (v : Ver) : Bool :=
  v.inT4 && x.versions.any (fun y => v.version < y.version && !y.inT4) && x.versions.all fun y => !y.inT4 || y.version ≤ v.version

/-- A gyle binds a version or may come to, or a peer holds it (R216). -/
def verHeld (s : State) (epoch : Nat) (a : AdapterId) (x : Adapter) (v : Nat) : Bool :=
  s.gyles.any (fun g => g.epoch = epoch && (bindsVersion s g a v || gyleMayBind g x v || (g.st = .filling && tget 0 g.remoteBound a = v))) ||
    s.homes.holds.any (fun h => h.epoch = epoch && h.adapter = a && h.version = v)

/-- A stored version is still needed (R184, R216, R343): it is current, a gyle binds it or may, a peer holds it, or it is the
restore point of a newer version that the kiln does not hold. -/
def verNeeded (s : State) (epoch : Nat) (a : AdapterId) (x : Adapter) (v : Ver) : Bool :=
  v.version = x.current || verHeld s epoch a x v.version ||
    isRestorePoint x v ||
    s.train.commits.any (fun c => c.outcomes.any fun o => o.1 = a)

/-- A version whose state area has been freed keeps it only as a restore point (R155, R343). -/
def dropOldState (x : Adapter) (v : Ver) : Ver := if v.stateFreed && !isRestorePoint x v then { v with state := none } else v

/-- An old home frees its T4 copy of a version once no local bind and no hold remains (R233). -/
def leaveT4 (s : State) (c : Catalogue) (a : AdapterId) (x : Adapter) (v : Ver) : Ver :=
  if v.home && homeOf c a ≠ selfPeer s && !verHeld s c.epoch a x v.version then { v with home := false, inT4 := false, inT2 := false } else v

/-- Stored versions that nothing needs are freed, with their T4 charge (Table 9.2); so are their warm copies in T2 and T3, which T4 no
longer backs (R184). -/
def pruneVersions (s : State) : State :=
  let kept := fun (c : Catalogue) (e : AdapterId × Adapter) => (e.2.versions.filter (verNeeded s c.epoch e.1 e.2)).map fun v =>
    leaveT4 s c e.1 e.2 (dropOldState e.2 v)
  let prune := fun (c : Catalogue) => { c with adapters := c.adapters.map fun e => (e.1, { e.2 with versions := kept c e }) }
  let s := { s with cat := prune s.cat, catRetiring := s.catRetiring.map prune }
  { s with tiers := { s.tiers with warm := s.tiers.warm.filter fun w => (verOf s w.epoch w.adapter w.version).any (·.home) } }

/-- The gyle binds a handle (R33): it has not reached `COMPLETE`, the handle was bound at its opening, and some row of it names the
handle, or may yet be given or read. -/
def bindsHandle (g : Gyle) (n : Nat) : Bool :=
  (tget {} g.handles n).bound && !g.held && g.st ≠ .complete &&
    (!g.closed || g.resolved < g.rowsGiven || g.rows.any fun r => r.2.names = some n)

/-- Mix handles that are unbound and that no gyle binds any longer return to the pool (R33). -/
def freeHandles (s : State) : State :=
  { s with handles := s.handles.filter fun e => e.2.bound || s.gyles.any fun g => bindsHandle g e.1 }

/-- Previous directory targets that no gyle in `FILLING` needs any longer are cleared, and the places of removed keys become
free (R71); so are side-table entries. -/
def settleDirectory (s : State) : State :=
  let needed := fun (seq : Seq) => s.gyles.any fun g =>
    g.st = .filling && g.openSeq ≤ seq && !g.key.far && g.epoch = s.cat.epoch
  let clear := fun (e : DirEntry) =>
    if needed e.changeSeq then e else { e with prevKind := .none, prevTarget := 0, prevLog2 := 0 }
  let live := fun (e : DirEntry) => e.kind ≠ .none || e.prevKind ≠ .none
  let buckets := s.dir.buckets.filterMap fun b =>
    match (b.2.map clear).filter live with
    | [] => none
    | es => some (b.1, es)
  { s with
    dir := { s.dir with buckets, side := s.dir.side.filter fun e => needed e.changeSeq }
    dirOld := if s.gyles.any fun g => g.st = .filling && !g.key.far && g.epoch ≠ s.cat.epoch then s.dirOld else none }

/-- The waiting `PREFETCH`es of an epoch that is freed end `CANCELLED` (log entry 50). -/
def endOldPrefetches (s : State) (epoch : Nat) : State :=
  s.ctxs.foldl (fun t e => e.2.inflight.foldl (fun t cmd =>
    if cmd.opcode = 0x14 && cmd.epoch = epoch then completeLater (stamp t) e.1 cmd stCancelled 0 (leBytes 6 cmd.version) else t) t) s

/-- Nothing of a retiring epoch is left: its catalogue, casks, copies, streams, admissions, leases and holds (R238, R311). -/
def dropEpoch (s : State) (epoch : Nat) : State :=
  releaseBy s fun s => endOldPrefetches (keepStreams { s with
    catRetiring := none
    homes := { s.homes with
      released := s.homes.released.filter (·.1 ≠ epoch), leases := s.homes.leases.filter (·.epoch ≠ epoch)
      granted := s.homes.granted.filter (·.epoch ≠ epoch), holds := s.homes.holds.filter (·.epoch ≠ epoch) }
    tiers := { s.tiers with warm := s.tiers.warm.filter (·.epoch ≠ epoch) }
    cellar := { s.cellar with casks := s.cellar.casks.filter (·.2.epoch ≠ epoch), waiting := s.cellar.waiting.filter (·.epoch ≠ epoch) } }
    fun st => st.epoch ≠ epoch) epoch

/-- A gyle of this block that binds an epoch has not reached `COMPLETE`. -/
def ownBinds (s : State) (epoch : Nat) : Bool := s.gyles.any fun g => !g.key.far && g.epoch = epoch && g.st ≠ .complete

/-- `M_EPOCH_RELEASE` to every peer for the retiring epoch, once the block's own last gyle bound to it has reached `COMPLETE`; it is
freed once no gyle here binds it any longer and every peer whose link is up has released it (R238). Epoch 0 names none: no peer is told
of it or awaited for it (log entry 55). -/
def releaseEpoch (s : State) : State :=
  match s.catRetiring with
  | none => s
  | some c =>
    if ownBinds s c.epoch then s
    else
      let s := if c.epoch = 0 || s.homes.released.contains (c.epoch, selfPeer s) then s
        else (otherPeers s).foldl (fun t p => sendMsg t
            { type := 0x50, dst := p, corr := t.gauger.seq, epoch := c.epoch, args := [c.epoch] })
          { s with homes := { s.homes with released := s.homes.released ++ [(c.epoch, selfPeer s)] } }
      if !(s.gyles.any fun g => g.epoch = c.epoch) &&
          (c.epoch = 0 || (otherPeers s).all fun p => s.homes.released.contains (c.epoch, p)) then
        dropEpoch s c.epoch
      else s

/-- Some gyle has bound a version of another home. -/
def holdsRemote (gs : List Gyle) (epoch : Nat) (a : AdapterId) (v : Nat) : Bool :=
  gs.any fun o => o.epoch = epoch && tget 0 o.remoteBound a = v

/-- `M_HOLD_RELEASE` for the versions of other homes that the gyle bound and no other gyle binds, each at the home that holds it
(R216, R233). -/
def releaseHolds (s : State) (g : Gyle) : State :=
  let cat := catOf s g.epoch
  let rest := s.gyles.filter fun o => o.key ≠ g.key
  let mine := (g.remoteBound.filter fun e => !holdsRemote rest g.epoch e.1 e.2)
  let homes := ((mine.map fun e => homeFor s cat e.1 e.2).eraseDups).filter (· ≠ selfPeer s)
  let s := homes.foldl (fun t h => sendMsg t
    { type := 0x07, dst := h, corr := t.gauger.seq, epoch := g.epoch
      args := (mine.filter fun e => homeFor s cat e.1 e.2 = h).flatMap fun e => [e.1, e.2] }) s
  { s with homes := { s.homes with pastHomes := s.homes.pastHomes.filter fun x => holdsRemote rest x.epoch x.adapter x.version } }

/-- The gyle is gone: its binds, grist area and gradient hold are released (R9, R77, R146), and what it alone kept is freed;
queued admissions take the space (R178). -/
def releaseGyle (s : State) (k : GyleKey) : State :=
  match s.gyle k with
  | none => s
  | some g =>
    let s := releaseHolds s g
    let s := dropGyle s k
    let s := { s with train := { s.train with hold := s.train.hold.filter (·.gk ≠ k) } }
    let s := unbindGyle s k
    releaseEpoch (settleDirectory (freeHandles (pruneVersions s)))

/-- T2 bytes charged to a context: grist areas and gradient holds (R275). -/
def ctxT2 (s : State) (c : Nat) : Nat :=
  (s.gyles.map fun g => if !g.key.far && g.key.owner = c then g.areaBytes else 0).sum +
    (s.train.hold.map fun h => if !h.gk.far && h.gk.owner = c then h.bytes else 0).sum

/-- `Q_T2_MIB` of a context in bytes. -/
def ctxT2Quota (s : State) (c : Nat) : Nat := regFld s (pgCtx c) 0x0D8 0 32 * mib

/-- Gyles of the block between `FILLING` and `DRAINED`, far gyles among them (R78, R220); a gyle stays `DRAINED` until its
completion record has been written (Table 1.3). -/
def openGyles (s : State) : Nat := (s.gyles.filter fun g => !g.held && g.st ≠ .complete).length

/-- Gyles of a context between `FILLING` and `DRAINED` (Table 12.5). -/
def ctxGyles (s : State) (c : Nat) : Nat :=
  (s.gyles.filter fun g => !g.key.far && g.key.owner = c && !g.held && g.st ≠ .complete).length

/-- Training gyles of a context, open or held (Table 12.5). -/
def ctxTrainGyles (s : State) (c : Nat) : Nat :=
  (s.gyles.filter fun g => !g.key.far && g.key.owner = c && g.kind = .training).length

/-- Mix handles that a context has bound. -/
def ctxHandles (s : State) (c : Nat) : Nat := (s.handles.filter fun e => e.2.bound && e.2.ctx = c).length

end Sys2Proof.Machine
end

