-- ==== Sys2Proof/Machine/Flags.lean ====
section
/-! DEFINITION. The flags and counts of a gyle's completion: `CFLAGS` (Table 13.5), the result area of Table 13.7, and the gyle
account of Table 13.8. -/
namespace Sys2Proof.Machine

/-- Counts of every record stop at 0xFFFF_FFFF (R291). -/
def c32 (n : Nat) : Nat := sat 32 n

/-- Sum of a count over the layers (R197). -/
def layerSum (g : Gyle) (f : LayerCount → List Nat) : Nat := (g.layers.map fun e => (f e.2).length).sum

/-- Late, fallback and base-only rows summed over the layers (R197). -/
def lateRows (g : Gyle) : Nat := layerSum g (·.late)
def fallbackRows (g : Gyle) : Nat := layerSum g (·.fallback)
def baseOnlyRows (g : Gyle) : Nat := layerSum g (·.baseOnly)

/-- Default rows: each under one cause (R66). -/
def defaultRows (g : Gyle) : Nat := (g.defaultByCause.map (·.2)).sum

/-- Frozen rows: each under one cause (R136). -/
def frozenRows (g : Gyle) : Nat := (g.frozenByCause.map (·.2)).sum

/-- A version that the gyle bound, a basis's, a default's or a fallback's among them, has been superseded since its opening (R214, R239,
R404). A component of weight zero binds none (R30). -/
def supersededNow (s : State) (g : Gyle) : Bool := g.supersededBy.any fun x => bindsVersion s g x.1 x.2

/-- Some row of the gyle has been far-applied in the run that completes (R223). -/
def farApplied (g : Gyle) : Bool := g.farRowSlots ≠ 0 && g.rows.any fun e => e.2.comps.any fun c => c.path ≠ .here

/-- A flag at its bit. -/
def flag (b : Bool) (n : Nat) : Nat := if b then 2 ^ n else 0

/-- `CFLAGS` of a `GYLE_CLOSE` completion (Table 13.5). -/
def gyleFlags (s : State) (g : Gyle) : Nat :=
  flag (fallbackRows g ≠ 0) 0 + flag (baseOnlyRows g ≠ 0) 1 + flag (defaultRows g ≠ 0) 2 + flag (lateRows g ≠ 0) 3 +
    flag g.replayed 4 + flag (farApplied g) 5 + flag (supersededNow s g) 6 + flag (g.satDeltas ≠ 0) 7 +
    flag (!g.nanRows.isEmpty) 8 + flag g.degraded 9

/-- The result area of a `GYLE_CLOSE` completion (Table 13.7). -/
def gyleResult (g : Gyle) : List Byte :=
  leBytes 8 (g.rowsGiven + defaultRows g * 2 ^ 21 + min g.nanRows.length g.rowsGiven * 2 ^ 42) ++
    leBytes 4 (if g.kind = .training then c32 (frozenRows g) else c32 (lateRows g)) ++ leBytes 4 (c32 g.satDeltas)

/-- The distinct (`MODEL`, `LAYER`) pairs of a plan, in ascending model, then layer (R291). -/
def planLayers (p : Plan) : List (Nat × Nat) :=
  sortBy (fun a b => lexLt [a.1, a.2] [b.1, b.2]) (p.slots.map fun e => (e.model, e.layer)).eraseDups

/-- The key of a (model, layer) pair in a gyle's counts. -/
def layerKey (model layer : Nat) : Nat := model * 4096 + layer

/-- The record of one layer in the account (Table 13.8). -/
def layerRecord (g : Gyle) (ml : Nat × Nat) : List Byte :=
  let c := tget {} g.layers (layerKey ml.1 ml.2)
  leBytes 1 ml.1 ++ leBytes 1 0 ++ leBytes 2 ml.2 ++ leBytes 4 (c32 c.late.length) ++ leBytes 4 (c32 c.fallback.length) ++
    leBytes 4 (c32 c.baseOnly.length)

/-- The gyle account (Table 13.8). -/
def accountBytes (g : Gyle) : List Byte :=
  let ls := planLayers g.plan
  leBytes 2 g.key.num ++ leBytes 2 ls.length ++ leBytes 4 g.rowsGiven ++
    ((List.range 9).flatMap fun c => leBytes 4 (c32 (tget 0 g.defaultByCause (c + 1)))) ++
    leBytes 4 (c32 g.noSpaceRows.length) ++ leBytes 4 (c32 (lateRows g)) ++ leBytes 4 (c32 (fallbackRows g)) ++
    leBytes 4 (c32 (baseOnlyRows g)) ++ leBytes 4 (c32 g.replays) ++
    ((List.range 5).flatMap fun c => leBytes 4 (c32 (tget 0 g.frozenByCause (c + 1)))) ++
    leBytes 4 (c32 g.farRowSlots) ++ leBytes 8 g.drainedSeq ++ List.replicate 32 0 ++ ls.flatMap (layerRecord g)

/-- The gyle's completion record is formed at the present event; the gyle is complete once it is written (R11, R270). -/
def postGyle (s : State) (k : GyleKey) : State :=
  match s.gyle k with
  | none => s
  | some g => match g.closeSq with
    | none => s
    | some sq =>
      let s := setGyle s { g with completing := true }
      postRecord s k.owner 0x03 stDone (gyleFlags s g) sq k.num (gyleResult g) (some k.num)

/-- The gyle enters `DRAINED` (R9, R129): its far apply closes (R224); then its account is written, if it asked for one, and
its completion record after it (R291). -/
def drainGyle (s : State) (k : GyleKey) : State :=
  match s.gyle k with
  | none => s
  | some g =>
    let s := stamp s
    let g := { g with st := .drained, drainedSeq := s.gauger.seq }
    let s := farClose (setGyle s g) g
    if g.accountAddr = 0 then postGyle (stamp s) k
    else startXfer s (.account k.owner k.num) true g.accountAddr (128 + 16 * (planLayers g.plan).length) (accountBytes g)

/-- The gyle is `COMPLETE` once its record is written (R9): a serving gyle gives back all it holds and its number is free; a
training gyle is held until its commit or abort (R153), with its binds (Table 8.5) and its gradient hold; its grist area is
released (R77). -/
def completeGyle (s : State) (k : GyleKey) : State :=
  match s.gyle k with
  | none => s
  | some g =>
    if g.kind = .training then
      releaseEpoch (setGyle s { g with st := .complete, completing := false, held := true, areaBytes := 0 })
    else releaseGyle (setGyle s { g with st := .complete }) k

end Sys2Proof.Machine
end

