-- ==== Sys2Proof/Machine/Grist.lean ====
section
/-! DEFINITION. The grist unit (R61 to R89): resolution of a row (R65, R66), look-ups of adapters homed elsewhere (R213), the
fetch-or-far-apply decision (R218), gradient holds and frozen rows (R136, R146), and the sort (R73 to R76, R79). -/
namespace Sys2Proof.Machine

/-! ### The key directory -/

/-- The buckets of a (tenant, key) pair (R70). -/
def bucketsOf (d : Directory) (tenant : Nat) (key : Word64) : Nat × Nat :=
  let h := (sipHash d.key0 d.key1 (leBytes 2 tenant ++ leBytes 8 key.toNat)).toNat
  let b1 := h % 2 ^ 22
  let b2 := h / 2 ^ 22 % 2 ^ 22
  (b1, if b1 = b2 then b1 ^^^ 1 else b2)

/-- The entry of a pair, in its two candidate buckets. -/
def dirEntry (d : Directory) (tenant : Nat) (key : Word64) : Option DirEntry :=
  let b := bucketsOf d tenant key
  (tget [] d.buckets b.1 ++ tget [] d.buckets b.2).find? fun e => e.key = key && e.tenant = tenant

/-- What a look-up returns for a gyle opened at `seq` (R71): kind, target and set size in force at that sequence. -/
def dirLookup (d : Directory) (tenant : Nat) (key : Word64) (seq : Seq) : DirKind × Nat × Nat :=
  match dirEntry d tenant key with
  | none => (.none, 0, 0)
  | some e =>
    if e.changeSeq < seq then (e.kind, e.target, e.log2)
    else
      -- the newest side-table value that a change at or after the opening replaced comes before the previous target
      match (d.side.filter fun x => x.key = key && x.tenant = tenant && seq ≤ x.changeSeq).head? with
      | some x => (x.kind, x.target, x.log2)
      | none => (e.prevKind, e.prevTarget, e.prevLog2)

/-- The directory that a gyle bound (R10, R311): the one of its epoch. -/
def dirOf (s : State) (g : Gyle) : Directory :=
  if g.epoch = s.cat.epoch then s.dir else s.dirOld.getD s.dir

/-! ### Resolution of one row -/

/-- What the checks of one adapter say. -/
inductive Check1 where
  | ok (v : Ver) (basis : Option Ver)
  | wait (ids : List AdapterId)
  | bad (cause : Nat)
  deriving DecidableEq, Repr

/-- An adapter as a gyle sees it: known in the bound catalogue, retired, or waiting for a look-up (R213). -/
def seeAdapter (s : State) (g : Gyle) (a : AdapterId) : Check1 :=
  let cat := catOf s g.epoch
  if a = 0xFFFFFF then .bad 0x2
  else if homeOf cat a = selfPeer s then
    match boundVer s g a with
    | none => .bad (if (cat.adapter a).retiredAt g.openSeq then 0x3 else 0x2)
    | some v => if (cat.adapter a).retired then .bad 0x3 else .ok v none
  else if (cat.adapter a).retired then .bad 0x3
  else match tget 0 g.lookups a with
    | 2 => .bad 0x2
    | 3 => .bad 0x3
    | _ => match boundVer s g a with
      | some v => .ok v none
      | none => .wait [a]

/-- The adapter of a row, default or named, checked in the order of R65: unknown, retired, foreign tenant, basis, fingerprint
and widths (R16), the basis of a member among them. -/
def checkAdapter (s : State) (g : Gyle) (tenant model : Nat) (a : AdapterId) : Check1 :=
  match seeAdapter s g a with
  | .ok v _ =>
    if v.hdr.tenant ≠ tenant then .bad 0x4
    else if v.hdr.form = .basis then .bad 0x5
    else if !matchesPlan g.plan model v then .bad 0x8
    else if v.hdr.form ≠ .member then .ok v none
    else match seeAdapter s g v.hdr.basisId with
      | .ok b _ => if matchesPlan g.plan model b then .ok v (some b) else .bad 0x8
      | .wait ids => .wait ids
      | .bad c => .bad c
  | r => r

/-- A component before its checks: the adapter named, its weight, and the bucket index chosen when it is a set. -/
structure Want where
  adapter : AdapterId
  weight : F32
  isSet : Bool
  log2 : Nat
  member : Nat := 0
  deriving DecidableEq, Repr

/-- The target of a row (R64): its components, and the handle that named them. A handle of another tenant fails at its
components (cause 0x4), after their earlier checks (R65). -/
def rowTarget (s : State) (g : Gyle) (e : RowEntry) : Except Nat (List Want × Option Nat) :=
  let mix := fun (n : Nat) =>
    let m := tget {} g.handles n
    if m.bound then .ok (m.comps.map fun c => ⟨c.id, c.weight, c.isSet, 0, 0⟩, some n) else .error 0x6
  if e.mode = 0 then .ok ([⟨e.target, one32, false, 0, 0⟩], none)
  else if e.mode = 1 then mix (e.target % 2 ^ 16)
  else if e.key = 0 then .error 0x7
  else match dirLookup (dirOf s g) e.tenant e.key g.openSeq with
    | (.none, _, _) => .error 0x7
    | (.adapter, t, _) => .ok ([⟨t, one32, false, 0, 0⟩], none)
    | (.handle, t, _) => mix (t % 2 ^ 16)
    | (.set, t, k) => .ok ([⟨t, one32, true, k, 0⟩], none)

/-- A bucket-set component becomes the member that the row's key selects (R26): `k` from the base member's header, which must
name the set; a directory target whose `DIR_LOG2` differs from it names no set (log entry 17). -/
def chooseMember (s : State) (g : Gyle) (e : RowEntry) (w : Want) : Except Check1 Want :=
  if !w.isSet then .ok w
  else if e.key = 0 then .error (.bad 0x7)
  else match seeAdapter s g w.adapter with
    | .ok v _ =>
      if v.hdr.bucketMember && v.hdr.bucketBase = w.adapter && (w.log2 = 0 || w.log2 = v.hdr.bucketLog2) then
        let i := bucketIndex (tget (0, 0) g.salts e.tenant) e.key v.hdr.bucketLog2
        .ok { w with adapter := w.adapter + i, member := i }
      else .error (.bad 0x2)
    | r => .error r

/-- The components of a row, in order: the first failing check, the adapters that a look-up must answer first, or the resolved
components. A component of weight zero is not checked (R30). -/
def resolveComps (s : State) (g : Gyle) (e : RowEntry) : List Want → Except Check1 (List Comp)
  | [] => .ok []
  | w :: ws =>
    if w.weight &&& 0x7FFFFFFF = 0 then
      match resolveComps s g e ws with
      | .error r => .error r
      | .ok cs => .ok ({ adapter := w.adapter, weight := w.weight, isSet := w.isSet } :: cs)
    else match chooseMember s g e w with
      | .error r => .error r
      | .ok w =>
        if w.adapter = 0 then
          match resolveComps s g e ws with
          | .error r => .error r
          | .ok cs => .ok ({ adapter := 0, weight := w.weight } :: cs)
        else match checkAdapter s g e.tenant e.model w.adapter with
          | .ok v b =>
            match resolveComps s g e ws with
            | .error (.wait ids) => .error (.wait ids)
            | .error r => .error r
            | .ok cs => .ok ({ adapter := w.adapter, version := v.version, tenant := some e.tenant, weight := w.weight, isSet := w.isSet,
                               member := w.member, basis := b.map fun x => (x.hdr.id, x.version) } :: cs)
          | r => .error r

/-- The default adapter of a row's tenant, checked by the same causes except the tenant binding; the zero adapter when it fails
(R36). -/
def defaultComps (s : State) (g : Gyle) (e : RowEntry) : Except (List AdapterId) (List Comp) :=
  let a := (tget {} g.tenantRecs e.tenant).dflt
  if a = 0 then .ok [{}]
  else match checkAdapter s g e.tenant e.model a with
    | .ok v b => .ok [{ adapter := a, version := v.version, tenant := some e.tenant, basis := b.map fun x => (x.hdr.id, x.version) }]
    | .wait ids => .error ids
    | .bad _ => .ok [{}]

/-- The outcome of resolving an entry: a row, or the adapters whose look-up it waits for. -/
inductive Resolved where
  | row (r : Row)
  | wait (r : Row)
  deriving DecidableEq, Repr

/-- The mix handle that an entry names, itself or by its key (R33). -/
def namedHandle (s : State) (g : Gyle) (e : RowEntry) : Option Nat :=
  if e.bad then none
  else if e.mode = 1 then some (e.target % 2 ^ 16)
  else if e.mode = 2 && e.key ≠ 0 then match dirLookup (dirOf s g) e.tenant e.key g.openSeq with
    | (.handle, t, _) => some (t % 2 ^ 16)
    | _ => none
  else none

/-- R65 for one entry. -/
def resolveEntry (s : State) (g : Gyle) (e : RowEntry) : Resolved :=
  let base : Row := { tenant := e.tenant, model := e.model, key := e.key, passes := e.model < g.plan.models.length
                      names := namedHandle s g e }
  let dflt := fun (cause : Nat) => match defaultComps s g e with
    | .ok cs => Resolved.row { base with cause, comps := cs }
    | .error ids => .wait { base with cause, parked := ids }
  if e.bad || !base.passes then dflt 0x9
  else if !tenantBound g.tenants e.tenant && !g.key.far then dflt 0x1
  else match rowTarget s g e with
    | .error c => dflt c
    | .ok (ws, h) => match resolveComps s g e ws with
      | .ok cs => .row { base with comps := cs, handle := h }
      | .error (.wait ids) => .wait { base with parked := ids, handle := h }
      | .error (.bad c) => dflt c
      | .error (.ok ..) => dflt 0x2

/-! ### Casks of a resolved row -/

/-- The request that a gyle's row makes of the cellar. -/
def rowAdmit (g : Gyle) : Admit := { alloc := g.alloc, seq := g.openSeq, gyle := some g.key, epoch := g.epoch, ctx := if g.key.far then none else some g.key.owner }

/-- The casks of one component served here: admitted where missing, bound, and counted once per gyle (R67, R172). A row that resolves to a
member counts for the member's cask alone, not for its basis's: the model's choice (log entry 54). -/
def needComp (k : GyleKey) (s : State) (c : Comp) : State :=
  match s.gyle k with
  | none => s
  | some g =>
    match verOf s g.epoch c.adapter c.version with
    | none => s
    | some v =>
      let b := c.basis.bind fun x => verOf s g.epoch x.1 x.2
      let s := needCasks s (rowAdmit g) v b
      let s := bindCask s k g.epoch c.adapter c.version
      let s := match c.basis with
        | some x => bindCask s k g.epoch x.1 x.2
        | none => s
      if g.freqCounted.contains c.adapter then s
      else modGyle (countUse s g.epoch c.adapter c.version) k fun g => { g with freqCounted := g.freqCounted ++ [c.adapter] }

/-- Components that resolution serves at once: of non-zero weight, not the zero adapter, homed here or already in the cellar
from a lease (R67, R218 rule 3). -/
def servedNow (s : State) (g : Gyle) (c : Comp) : Bool :=
  c.weight &&& 0x7FFFFFFF ≠ 0 && c.adapter ≠ 0 &&
    (homeOf (catOf s g.epoch) c.adapter = selfPeer s || caskComing s g.epoch c.adapter c.version)

/-! ### Training -/

/-- Trainable elements of a version's factors or vectors. -/
def trainElems (v : Ver) : Nat := (v.slots.map fun e => (slotElems v.hdr e).sum).sum

/-- The version lists a slot of the row's model that the plan marks `GRAD`. -/
def listsGrad (g : Gyle) (model : Nat) (v : Ver) : Bool :=
  g.plan.slots.any fun p => p.grad && p.model = model && (slotAt v.slots p.layer p.proj).isSome

/-- The adapter is homed on another block under the gyle's catalogue. -/
def away (s : State) (g : Gyle) (a : AdapterId) : Bool := homeOf (catOf s g.epoch) a ≠ selfPeer s

/-- A version is trainable (R148); of one homed elsewhere that is known from a look-up alone, this block cannot tell (log entry 50). -/
def canTrain (s : State) (g : Gyle) (a : AdapterId) (v : Nat) : Bool :=
  match verOf s g.epoch a v with
  | some y => y.trainable || (away s g a && Config.remoteTrainable a v)
  | none => false

/-- Which adapter a component trains, or why it is frozen (R136, R140): the adapter's own ID, its basis's, or the first
cause of Table 7.2. -/
def trainTarget (s : State) (g : Gyle) (c : Comp) : Except Nat (Option (AdapterId × Nat)) :=
  match verOf s g.epoch c.adapter c.version with
  | none => .ok none
  | some v =>
    let basis := if v.hdr.form = .member then c.basis.filter fun x => canTrain s g x.1 x.2 else none
    let target := if g.trainBasis then basis.or (some (c.adapter, c.version)) else some (c.adapter, c.version)
    if !canTrain s g c.adapter c.version && basis.isNone then .error 0x2
    else match target.filter fun x => canTrain s g x.1 x.2 with
      | none => .error (if away s g c.adapter then 0x3 else 0x5)
      | some x => if away s g c.adapter || away s g x.1 then .error 0x3 else .ok (some x)

/-- A gradient hold for an adapter, if the submitter's quota and the T2 region have room (R146). -/
def placeHold (s : State) (g : Gyle) (a : AdapterId) (v : Nat) : Option State :=
  if s.train.hold.any fun h => h.gk = g.key && h.adapter = a then some s
  else if g.noHold.contains a then none
  else match verOf s g.epoch a v with
    | none => none
    | some ver =>
      let bytes := 4 * trainElems ver
      if ctxT2Quota s g.key.owner < ctxT2 s g.key.owner + bytes then none
      else if t2Room s < bytes then none
      else
        let s := makeT2 s bytes 256
        let s := { s with train := { s.train with
          hold := s.train.hold ++ [{ gk := g.key, adapter := a, version := v, bytes }] } }
        some (match caskOf s g.epoch a v with
          | some i => modCask s i fun c => { c with trainHolds := c.trainHolds ++ [g.key] }
          | none => s)

/-- One component of a training row: trained, frozen with its cause, or without any slot to train (R136, R137). -/
def trainComp (k : GyleKey) (model : Nat) (acc : State × List (Comp × Nat)) (c : Comp) : State × List (Comp × Nat) :=
  match acc.1.gyle k with
  | none => acc
  | some g =>
    match verOf acc.1 g.epoch c.adapter c.version with
    | none => (acc.1, acc.2 ++ [(c, 0)])
    | some v =>
      if c.weight &&& 0x7FFFFFFF = 0 || !listsGrad g model v then (acc.1, acc.2 ++ [(c, 0)])
      else match trainTarget acc.1 g c with
        | .error e => (acc.1, acc.2 ++ [({ c with frozen := true }, e)])
        | .ok none => (acc.1, acc.2 ++ [(c, 0)])
        | .ok (some t) => match placeHold acc.1 g t.1 t.2 with
          | none => (modGyle acc.1 k fun g => { g with
              noHold := if g.noHold.contains t.1 then g.noHold else g.noHold ++ [t.1] }, acc.2 ++ [({ c with frozen := true }, 0x4)])
          | some s =>
            (modGyle s k fun g => { g with
              touched := if g.touched.contains t.1 then g.touched else g.touched ++ [t.1] }, acc.2 ++ [(c, 0)])

/-- The cause under which a row is counted whose components are frozen for some causes (Table 7.2): 0x2 only when every one is frozen
for it, else the first of the others. -/
def firstCause (causes : List Nat) : Nat :=
  let rest := causes.filter (· ≠ 2)
  if rest.isEmpty then causes.headD 0 else rest.foldl min (rest.headD 0)

/-- The training side of a resolved row (R136): its components marked, and its frozen cause when every one that has a slot to train is
frozen. -/
def trainRow (s : State) (k : GyleKey) (r : Row) : State × Row :=
  if r.cause ≠ 0 then (s, { r with comps := r.comps.map fun c => { c with frozen := true }, frozen := 0x1 })
  else
    let t := r.comps.foldl (trainComp k r.model) (s, [])
    let causes := t.2.filterMap fun x => if x.1.frozen then some x.2 else none
    let live := match s.gyle k with
      | none => false
      | some g => t.2.any fun x => !x.1.frozen && x.1.weight &&& 0x7FFFFFFF ≠ 0 &&
          match verOf s g.epoch x.1.adapter x.1.version with
          | some v => listsGrad g r.model v
          | none => false
    (t.1, { r with comps := t.2.map (·.1), frozen := if live then 0 else firstCause causes })

/-! ### Look-ups -/

/-- `M_LOOKUP` for the adapters that a row waits for and that have not been asked for yet (R213). -/
def askLookups (s : State) (k : GyleKey) (ids : List AdapterId) : State :=
  match s.gyle k with
  | none => s
  | some g =>
    (ids.filter fun a => tget 0 g.lookups a = 0).foldl (fun t a =>
      let t := sendReq (stamp t) { type := 0x01, dst := homeOf (catOf t g.epoch) a, epoch := g.epoch,
                                   ctxEpoch := (t.ctx k.owner).epoch, submitter := k.owner, args := [a] } (some k)
      modGyle t k fun g => { g with lookups := tset 0 g.lookups a 1 }) s

/-! ### The fetch-or-far-apply decision (R218) -/

/-- Components of non-zero weight homed on block `h` whose adapter is not in the cellar. -/
def remoteComps (s : State) (g : Gyle) (h : Nat) (r : Row) : List Comp :=
  r.comps.filter fun c => c.weight &&& 0x7FFFFFFF ≠ 0 && c.adapter ≠ 0 && c.path = .here &&
    homeFor s (catOf s g.epoch) c.adapter c.version = h && !caskComing s g.epoch c.adapter c.version

/-- The bytes A of R218 for a home: activation bytes of the rows that need its adapters, at the slots where one is listed. -/
def actBytes (s : State) (g : Gyle) (h : Nat) : Nat :=
  (g.rows.map fun e =>
    let cs := remoteComps s g h e.2
    (g.plan.slots.map fun p =>
      if p.model = e.2.model && cs.any fun c => match verOf s g.epoch c.adapter c.version with
        | some v => (slotAt v.slots p.layer p.proj).isSome
        | none => false
      then rowBytes p.actFmt p.inW else 0).sum).sum

/-- The adapters of a home that the gyle needs, with versions. -/
def homeAdapters (s : State) (g : Gyle) (h : Nat) : List (AdapterId × Nat) :=
  (g.rows.flatMap fun e => (remoteComps s g h e.2).map fun c => (c.adapter, c.version)).eraseDups

/-- The bytes F of R218: `TENSOR_BYTES` of those adapters and of the bases they need that are not resident here. -/
def factorBytes (s : State) (g : Gyle) (h : Nat) : Nat :=
  let size := fun (x : AdapterId × Nat) => ((verOf s g.epoch x.1 x.2).map (·.hdr.tensorBytes)).getD 0
  let bases := (g.rows.flatMap fun e => (remoteComps s g h e.2).filterMap (·.basis)).eraseDups
  ((homeAdapters s g h).map size).sum +
    ((bases.filter fun x => !caskWhole s g.epoch x.1 x.2).map size).sum

/-- The class entry of M_FAR_OPEN that a row takes at home `h` (R220). -/
def farClassOf (h : Nat) (cs : List Comp) : List FarComp :=
  cs.map fun c => if c.weight &&& 0x7FFFFFFF ≠ 0 && c.adapter ≠ 0 && c.path = .farAt h
    then { adapter := c.adapter, version := c.version, weight := c.weight } else {}

/-- Decide for one home: far apply when R218's rules 1 to 4 say so. -/
def farWanted (s : State) (g : Gyle) (h : Nat) : Bool :=
  g.kind ≠ .training && regFld s pgHomes 0x098 32 1 = 1 && !(homeAdapters s g h).isEmpty &&
    actBytes s g h < factorBytes s g h

/-- Primaries far-applied so far: the remote keys in use (R73), in the order of the first row that takes each. That secondary
components take none, since only a primary keys a segment, and the numbering are the model's choice (log entry 46). -/
def remoteKeys (g : Gyle) : List (AdapterId × Nat) :=
  (g.rows.filterMap fun e => match (e.2.comps.filter fun c => c.weight &&& 0x7FFFFFFF ≠ 0).head? with
    | some c => match c.path with
      | .farAt _ => some (c.adapter, c.version)
      | .here => none
    | none => none).eraseDups

/-- Mark a home's components far-applied, row by row while remote keys last (R73, R218 rule 5). -/
def markFar (s : State) (h : Nat) (g : Gyle) : Gyle :=
  g.rows.foldl (fun g e =>
    let cs := remoteComps s g h e.2
    let prim := e.2.comps.head?.filter fun c => cs.contains c
    let full := match prim with
      | some c => 4095 ≤ (remoteKeys g).length && !(remoteKeys g).contains (c.adapter, c.version)
      | none => false
    let comps := e.2.comps.map fun c => if cs.contains c then { c with path := .farAt h } else c
    if full then g else { g with rows := tput e.1 { e.2 with comps } g.rows }) g

/-- Some component of the row is far-applied. -/
def Row.isFar (r : Row) : Bool := r.comps.any fun c => c.path ≠ .here

/-- Number the distinct classes of a gyle's far-applied rows, in row order. `M_FAR_OPEN` has room for 4,095 (R220): the components of the
rows of further classes are fetched (log entry 46). -/
def numberClasses (g : Gyle) : Gyle :=
  let classes := ((g.rows.filterMap fun e => if e.2.isFar then some e.2.comps else none).eraseDups).take 4095
  let numbered := fun (r : Row) => if !r.isFar then r else match classes.idxOf? r.comps with
    | some i => { r with farClass := i }
    | none => { r with comps := r.comps.map fun c => { c with path := .here } }
  { g with rows := g.rows.map fun e => (e.1, numbered e.2) }

/-- `M_FAR_OPEN` to a home (R220). -/
def openFar (s : State) (k : GyleKey) (h : Nat) : State :=
  match s.gyle k with
  | none => s
  | some g =>
    let classes := ((g.rows.filter (·.2.isFar)).map fun e => (e.2.farClass, farClassOf h e.2.comps)).eraseDups
    let fp := ((g.rows.find? fun e => e.2.comps.any fun c => c.path = .farAt h).bind fun e =>
      g.plan.models[e.2.model]?).getD 0
    let args := [fp.toNat, k.num, classes.length] ++ classes.flatMap fun c =>
      c.1 :: c.2.flatMap fun x => [x.adapter, x.version, x.weight.toNat]
    let data := classes.flatMap fun c => farClassBytes c.2
    sendReq (stamp s) { type := 0x20, dst := h, epoch := g.epoch, ctxEpoch := (s.ctx k.owner).epoch, submitter := k.owner, args, data }
      (some k)

/-- The components left to fetch: every remote component that is not far-applied is admitted as a fetched copy. -/
def fetchRest (s : State) (k : GyleKey) : State :=
  match s.gyle k with
  | none => s
  | some g => (g.rows.flatMap fun e => e.2.comps.filter fun c =>
      c.path = .here && c.weight &&& 0x7FFFFFFF ≠ 0 && c.adapter ≠ 0).eraseDups.foldl (needComp k) s

/-- Every row of the gyle is resolved and none is parked. -/
def passOneDone (g : Gyle) : Bool :=
  g.closed && g.resolved = g.rowsGiven && g.rows.all fun e => e.2.parked.isEmpty

/-- The other homes that the gyle's rows need. -/
def otherHomes (s : State) (g : Gyle) : List Nat :=
  (g.rows.flatMap fun e => e.2.comps.filterMap fun c =>
    let h := homeFor s (catOf s g.epoch) c.adapter c.version
    if c.weight &&& 0x7FFFFFFF ≠ 0 && c.adapter ≠ 0 && h ≠ selfPeer s then some h else none).eraseDups

/-- The end of pass 1 (R218): one decision for each home, never revisited. -/
def decideFar (s : State) (k : GyleKey) : State :=
  match s.gyle k with
  | none => s
  | some g =>
    if g.decided || !passOneDone g then s
    else
      let homes := (otherHomes s g).filter fun h => farWanted s g h
      let g := numberClasses (homes.foldl (fun g h => markFar s h g) g)
      let used := homes.filter fun h => g.rows.any fun e => e.2.comps.any fun c => c.path = .farAt h
      let s := setGyle s { g with decided := true, farHomes := used }
      fetchRest (used.foldl (fun t h => openFar t k h) s) k

/-! ### Row resolution -/

/-- Count a row (R66, R136) and store it; its casks are admitted and bound (R67). -/
def placeRow (s : State) (k : GyleKey) (n : Nat) (r : Row) : State :=
  match s.gyle k with
  | none => s
  | some g =>
    let s := modGyle s k fun g => { g with
      rows := tput n r g.rows
      defaultByCause := if r.cause = 0 then g.defaultByCause else tmod 0 g.defaultByCause r.cause (· + 1) }
    let s := bindTenant ((r.comps.filter fun c => servedNow s g c).foldl (needComp k) s) k r.tenant
    if g.kind = .training then
      let t := trainRow s k r
      modGyle t.1 k fun g => { g with
        rows := tput n t.2 g.rows
        frozenByCause := if t.2.frozen = 0 then g.frozenByCause else tmod 0 g.frozenByCause t.2.frozen (· + 1) }
    else s

/-- Resolve a row's entry: placed, or parked until its look-up is answered (R65, R213). -/
def resolveRow (s : State) (k : GyleKey) (n : Nat) (e : RowEntry) : State :=
  match s.gyle k with
  | none => s
  | some g => match resolveEntry s g e with
    | .row r => placeRow s k n r
    | .wait r => askLookups (modGyle s k fun g => { g with rows := tput n r g.rows }) k r.parked

/-- The sequence of the command that gave row `n` of a gyle (R61). -/
def givenSeq (g : Gyle) (n : Nat) : Seq := ((g.chunks.filter fun x => x.1 ≤ n).getLast?.map (·.2)).getD g.openSeq

/-- The place of a gyle's pass work that can run now (R80): for pass 1 the command that gave the next row, for pass 2 the last
command that gave rows; none where no work of it can run. -/
def passPlace (g : Gyle) : Option Seq :=
  if g.st ≠ .filling || g.key.far then none
  else if !g.entries.isEmpty then some (givenSeq g g.resolved)
  else if passOneDone g && g.decided then some (givenSeq g g.rowsGiven)
  else none

/-- The grist unit serves the gyle next: of the pass work that can run, its own comes first in the order of the commands that gave
the rows (R80). That work which waits for row-map data does not hold up other gyles' is the model's reading (log entry 46). -/
def gristTurn (s : State) (g : Gyle) : Bool :=
  s.gyles.all fun o => match passPlace g, passPlace o with
    | some m, some n => m ≤ n
    | _, _ => true

/-- Pass 1 on the next entry (R65, R80); not due while none has been read, while earlier pass work can run, or while a thermal halt
stops the grist unit (R373). -/
def rowResolve (c num : Nat) (s : State) : State :=
  let k := ownGyle c num
  match s.gyle k with
  | none => s
  | some g => match g.entries with
    | [] => s
    | bs :: rest =>
      if interiorHeld s || !gristTurn s g then s else
      let n := g.resolved
      let s := setGyle (stamp s) { g with entries := rest, resolved := n + 1,
                                          parkedEntries := tput n bs g.parkedEntries }
      let s := resolveRow s k n (rowEntry bs)
      let s := modGyle s k fun g => { g with parkedEntries :=
        if (tget {} g.rows n).parked.isEmpty then tdel n g.parkedEntries else g.parkedEntries }
      decideFar s k

/-- `ROW_RESOLVE` (R65). -/
def execRowResolve (c : Fin 64) (gyle : BitVec 16) (s : State) : Host.Outcome State Fault Refusal :=
  .next (rowResolve c gyle.toNat s)

/-- Parked rows of a gyle are resolved again after a look-up has been answered; those that still wait stay parked. -/
def resolveParked (s : State) (k : GyleKey) : State :=
  match s.gyle k with
  | none => s
  | some g =>
    let s := g.parkedEntries.foldl (fun t e => resolveRow t k e.1 (rowEntry e.2)) s
    let s := modGyle s k fun g => { g with parkedEntries := g.parkedEntries.filter fun e =>
      !(tget {} g.rows e.1).parked.isEmpty }
    decideFar s k

/-! ### The sort -/

/-- What keys a row's segment (R73, R74): its primary component's adapter, version and path; none for the zero key. -/
def primary (r : Row) : Option (AdapterId × Nat × CompPath) :=
  if r.comps.all fun c => c.adapter = 0 || c.weight &&& 0x7FFFFFFF = 0 then none
  else r.comps.head?.map fun c => (c.adapter, c.version, c.path)

/-- The class of a row: its components with weights, versions and chosen members (R65); whether they train is no part of it. -/
def Row.cls (r : Row) : List Comp := r.comps.map fun c => { c with frozen := false }

/-- The rows have one class. -/
def sameClass (a b : Row) : Bool := a.cls = b.cls

/-- Group rows into runs, one per distinct class, in the order of their first row; rows keep their order (R74). -/
def groupRuns : (fuel : Nat) → List (Nat × Row) → List (List (Nat × Row))
  | 0, _ => []
  | _, [] => []
  | n + 1, x :: xs =>
    (x :: xs.filter fun y => sameClass x.2 y.2) :: groupRuns n (xs.filter fun y => !sameClass x.2 y.2)

/-- Rows by segment, in the order in which each key first appears; the zero key last (R74). -/
def groupSegments : (fuel : Nat) → List (Nat × Row) → List (List (Nat × Row))
  | 0, _ => []
  | _, [] => []
  | n + 1, x :: xs =>
    (x :: xs.filter fun y => primary y.2 = primary x.2) :: groupSegments n (xs.filter fun y => primary y.2 ≠ primary x.2)

/-- The sort key of a segment (R73): its primary cask's index, a remote key, or the zero key. Where the primary has no cask
yet because its admission waits for space, the spec gives the key no value and it is free (log entry 18). -/
def segmentKey (s : State) (g : Gyle) (r : Row) : Nat :=
  match primary r with
  | none => 0x1FFF
  | some (a, v, .farAt _) => 0x1000 + ((remoteKeys g).idxOf? (a, v)).getD 0
  | some (a, v, .here) => match caskOf s g.epoch a v with
    | some i => i
    | none => Config.freeChoice s.freeCtr % 4096

/-- Descriptors of the runs of a segment from position `pos` (Table 4.5). -/
def runList : Nat → List (List (Nat × Row)) → List Run
  | _, [] => []
  | pos, rs :: t =>
    { firstPos := pos, rowCount := rs.length
      comps := (rs.head?.map fun x => x.2.comps).getD []
      handle := (rs.head?.bind fun x => x.2.handle) } :: runList (pos + rs.length) t

/-- Descriptors of the segments (Table 4.4). -/
def segmentList (s : State) (g : Gyle) : Nat → Nat → List (List (Nat × Row)) → List Segment
  | _, _, [] => []
  | pos, run, rs :: t =>
    let runs := runList pos (groupRuns rs.length rs)
    let r := (rs.head?.map (·.2)).getD {}
    { firstPos := pos, rowCount := rs.length, zero := (primary r).isNone, sortKey := segmentKey s g r, firstRun := run, runs } ::
      segmentList s g (pos + rs.length) (run + runs.length) t

/-- The grist: segments, and the row-to-position map with its inverse (R74 to R76). -/
def sortGyle (s : State) (g : Gyle) : Gyle :=
  let segs := groupSegments g.rows.length g.rows
  let zeroLast := (segs.filter fun x => ((x.head?.map (·.2)).bind primary).isSome) ++
    segs.filter fun x => ((x.head?.map (·.2)).bind primary).isNone
  let order := (zeroLast.flatMap fun rs => (groupRuns rs.length rs).flatten).map (·.1)
  let pos := List.zip (List.range order.length) order
  { g with
    st := .sorted
    segments := segmentList s g 0 0 zeroLast
    posOfRow := pos.foldl (fun t e => tput e.2 e.1 t) []
    rowOfPos := pos.foldl (fun t e => tput e.1 e.2 t) [] }

/-- Does the row pass slot `i` of the plan (R451)? -/
def rowPasses (g : Gyle) (r : Row) (i : Nat) : Bool :=
  r.passes && match g.plan.slots[i]? with
    | some p => p.model = r.model && (g.kind ≠ .training || p.grad)
    | none => false

/-- No row of the gyle passes a slot (R79). -/
def passesNothing (g : Gyle) : Bool :=
  g.rows.all fun e => (List.range g.plan.slots.length).all fun i => !rowPasses g e.2 i

/-- A gyle's state changes: one event (R9). -/
def enterGyle (s : State) (k : GyleKey) (st : GyleState) : State := modGyle (stamp s) k fun g => { g with st }

/-- Pass 2 ends (R74, R79, R80): the gyle is `SORTED`; one that has no traffic goes through `RUNNING` and `DRAINED` at once, unless its
context is quiesced (R296).
Not due before pass 1 has ended and the row list is closed, nor while earlier pass work can run. -/
def sortDone (c num : Nat) (s : State) : State :=
  let k := ownGyle c num
  match s.gyle k with
  | none => s
  | some g =>
    if g.st ≠ .filling || !passOneDone g || !g.decided || interiorHeld s || !gristTurn s g then s
    else
      let s := stamp s
      let s := setGyle s (sortGyle s g)
      let s := { s with sortRows := (s.sortRows + g.rows.length) % 2 ^ 64 }
      let s := settleDirectory (freeHandles (pruneVersions (bumpFree s)))
      if passesNothing g && (s.ctx c).st ≠ .quiesced then drainGyle (enterGyle s k .running) k else s

/-- `SORT_PASS2_DONE` (R74). -/
def execSortPass2Done (c : Fin 64) (gyle : BitVec 16) (s : State) : Host.Outcome State Fault Refusal :=
  .next (sortDone c gyle.toNat s)

end Sys2Proof.Machine
end

