-- ==== Sys2Proof/Machine/Commands.lean ====
section
/-! DEFINITION. Descriptor commands that complete at acceptance or wait for a gyle: `GYLE_OPEN`, `GYLE_ROWS`, `GYLE_CLOSE`,
`TRAIN_OPEN`, `PLAN_LOAD`, `PLAN_SWAP`, `MIX_BIND`, `MIX_UNBIND`, `PIN`, `UNPIN`, `PREFETCH`, `MARK` and `NOP`. The order of
refusals is R293's. -/
namespace Sys2Proof.Machine

/-- Opcodes that a block accepts after a power-failure warning (R375). -/
def pfwAllowed (opcode : Nat) : Bool := [0x50, 0x5F, 0x51, 0x52, 0x13, 0x11, 0x22].contains opcode

/-- Step 4 of R293 that every opcode shares: the context's state (Table 13.9) and the power-failure warning (R375). -/
def stateStatus (s : State) (c opcode : Nat) : Option Bad :=
  if s.pace.pfw && !pfwAllowed opcode then some { status := stBadState }
  else if (s.ctx c).st = .quiesced && [0x01, 0x20, 0x21, 0x51].contains opcode then some { status := stBadState }
  else if (s.ctx c).st ≠ .quiesced && opcode = 0x52 then some { status := stBadState }
  else none

/-- `BAD_STATE` unless a condition holds. -/
def needState (ok : Bool) : Option Bad := need ok stBadState

/-- Bytes of the grist area of `n` rows (R77). -/
def areaFor (n : Nat) : Nat := roundUp (20 * n + 131072) 4096

/-! ### Opening gyles -/

/-- State checks of an opening (R116, R203, R294, R295). -/
def openState (s : State) (c : Nat) (d : Desc) : Option Bad :=
  firstBad [stateStatus s c d.opcode, needState (s.gyle (ownGyle c d.gyle)).isNone, needState (!s.tiers.testHold),
    needState (s.planInForce.map (·.id) = some d.planId)]

/-- Quotas and space of an opening: `Q_GYLES`, `Q_T2_MIB` (R275), then R78 and the T2 region (R77, R186). -/
def openRoom (s : State) (c : Nat) (d : Desc) : List (Option Bad) :=
  let area := areaFor d.rowCount
  [need (ctxGyles s c < regFld s (pgCtx c) 0x0E0 24 9) stQuota,
   need (ctxT2 s c + area ≤ ctxT2Quota s c) stQuota]
  ++ [need (openGyles s < 256) stNoSpace, need (area ≤ t2Room s) stNoSpace]

/-- The gyle that an opening makes: it binds the plan, the epoch, and with its opening sequence every version, salt, handle,
tenant record and lease current there (R10, R27, R33, R404). -/
def newGyle (s : State) (c : Nat) (d : Desc) (kind : GyleKind) : Gyle :=
  { key := ownGyle c d.gyle, kind, st := .filling, openSeq := s.gauger.seq, plan := s.planInForce.getD {}
    epoch := s.cat.epoch, tenants := (s.ctx c).tenants, handles := s.handles, tenantRecs := s.tenantRecs, salts := s.keys.salts
    remoteBound := (s.homes.leases.filter fun l => l.epoch = s.cat.epoch).foldl (fun t l => tput l.adapter l.version t) []
    lateFirst := regFld s (pgCtx c) 0x100 0 2, lateSecond := regFld s (pgCtx c) 0x100 2 2
    cutoffUs := d.cutoffUs, accountAddr := d.accountAddr, alloc := d.alloc
    rowsGiven := d.rowCount, chunks := [(0, s.gauger.seq)], areaBytes := areaFor d.rowCount
    trainSeq := d.trainSeq, trainSeed := d.trainSeed, trainBasis := d.trainBasis }

/-- The read of row-map entries for rows from `first` (R61). -/
def readRowMap (s : State) (c num first addr n : Nat) : State :=
  if n = 0 then s else startXfer s (.rowMap c num first) false addr (16 * n) []

/-- The acceptance of an opening at the present event (R9, R11, R77): releases ordered before it are applied first (R178). -/
def openGyle (c : Nat) (d : Desc) (kind : GyleKind) (s : State) : State :=
  let s := makeT2 s (areaFor d.rowCount) 256
  let s := setGyle s (newGyle s c d kind)
  acceptSilent (readRowMap s c d.gyle 0 d.addr d.rowCount) c

/-- `GYLE_OPEN` (R9, R10, R77, R78, R116). -/
def gyleOpen (c : Nat) (s : State) : State :=
  onFront c 0x01 s fun fr d _ =>
    decideCmd s c fr d (firstBad ([openState s c d] ++ openRoom s c d)) (openGyle c d .serving)

def execGyleOpen (c : Fin 64) (s : State) : Host.Outcome State Fault Refusal := .next (gyleOpen c s)

/-- Training gyles of the block, open or held. -/
def trainGyles (s : State) : Nat := (s.gyles.filter fun g => g.kind = .training).length

/-- `TRAIN_OPEN` (R133): the fabric manager's role for `TRAIN_BASIS`, a plan with a `GRAD` slot, and the quotas and limits of
training gyles beside those of any gyle. -/
def trainOpen (c : Nat) (s : State) : State :=
  onFront c 0x20 s fun fr d _ =>
    decideCmd s c fr d
      (firstBad ([need (!d.trainBasis || ctxFabric s c) stNoPermission, openState s c d,
        (if (s.planInForce.getD {}).slots.any (·.grad) then none else some { status := stBadField, off := 16 }),
        need (ctxTrainGyles s c < regFld s (pgCtx c) 0x0E0 40 7) stQuota] ++
        (openRoom s c d).take 2 ++ [need (trainGyles s < 64) stNoSpace] ++ (openRoom s c d).drop 2))
      (openGyle c d .training)

def execTrainOpen (c : Fin 64) (s : State) : Host.Outcome State Fault Refusal := .next (trainOpen c s)

/-- The gyle is in the part of `FILLING` before its close (Table 13.10). -/
def fillingOpen (s : State) (k : GyleKey) : Bool :=
  match s.gyle k with
  | some g => g.st = .filling && !g.closed
  | none => false

/-- More rows for a gyle at the present event (R61, R77). -/
def addRows (c : Nat) (d : Desc) (s : State) : State :=
  let k := ownGyle c d.gyle
  match s.gyle k with
  | none => s
  | some g =>
    let n := g.rowsGiven + d.rowCount
    let s := makeT2 s (areaFor n - g.areaBytes) 256
    let s := setGyle s { g with rowsGiven := n, chunks := g.chunks ++ [(g.rowsGiven, s.gauger.seq)], areaBytes := areaFor n }
    acceptSilent (readRowMap s c d.gyle g.rowsGiven d.addr d.rowCount) c

/-- `GYLE_ROWS` (R61, R77, R295). -/
def gyleRows (c : Nat) (s : State) : State :=
  onFront c 0x02 s fun fr d _ =>
    let g := (s.gyle (ownGyle c d.gyle)).getD {}
    let more := areaFor (g.rowsGiven + d.rowCount) - g.areaBytes
    decideCmd s c fr d
      (firstBad [(if g.rowsGiven + d.rowCount ≤ 1048576 then none else some { status := stTooLarge, off := 24 }),
        stateStatus s c d.opcode, needState (fillingOpen s (ownGyle c d.gyle)),
        need (ctxT2 s c + more ≤ ctxT2Quota s c) stQuota, need (more ≤ t2Room s) stNoSpace])
      (addRows c d)

def execGyleRows (c : Fin 64) (s : State) : Host.Outcome State Fault Refusal := .next (gyleRows c s)

/-- The row list is complete (R11): the gyle's completion will answer this command, so its reservation stays held; pass 1 may
have ended already (R218). -/
def closeGyle (c : Nat) (fr : Front) (d : Desc) (s : State) : State :=
  let k := ownGyle c d.gyle
  let s := modGyle s k fun g => { g with closed := true, closeSq := some fr.sqIndex, closeSeq := s.gauger.seq }
  afterCmd (clearFront (decideFar s k) c) c

/-- `GYLE_CLOSE` (R11, R295). -/
def gyleClose (c : Nat) (s : State) : State :=
  onFront c 0x03 s fun fr d _ =>
    decideCmd s c fr d (firstBad [stateStatus s c d.opcode, needState (fillingOpen s (ownGyle c d.gyle))]) (closeGyle c fr d)

def execGyleClose (c : Fin 64) (s : State) : Host.Outcome State Fault Refusal := .next (gyleClose c s)

/-! ### Plans -/

/-- The submitter may load and swap plans (R115). -/
def planOwner (s : State) (c : Nat) : Bool :=
  regFld s pgSplice 0x080 6 1 = 1 && regFld s pgSplice 0x080 0 6 = c

/-- `PLAN_LOAD` (R114, R115): the plan is copied and staged. -/
def planLoad (c : Nat) (s : State) : State :=
  onFront c 0x04 s fun fr d img =>
    decideCmd s c fr d
      (firstBad [firstImageCheck 0 (planChecks (s.planInForce.map (·.id)) img), need (planOwner s c) stNoPermission,
        stateStatus s c d.opcode])
      fun s => doneCmd { s with planStaged := some (planFields img) } c fr d (leBytes 8 (planFields img).id.toNat)

def execPlanLoad (c : Fin 64) (s : State) : Host.Outcome State Fault Refusal := .next (planLoad c s)

/-- A gyle bound to the plan in force is in `FILLING`, `SORTED` or `RUNNING` (R116). -/
def planInUse (s : State) : Bool :=
  s.gyles.any fun g => !g.key.far && some g.plan.id = s.planInForce.map (·.id) &&
    (g.st = .filling || g.st = .sorted || g.st = .running)

/-- The staged plan comes into force; casks of base models that it does not keep lose their frequency estimates (R116, R117). -/
def swapPlan (s : State) : State :=
  match s.planStaged with
  | none => s
  | some p =>
    let s := { s with planInForce := some p, planStaged := none }
    (caskList s).foldl (fun t e => if p.models.contains e.2.fp then t else modCask t e.1 fun c => { c with freq := 0 }) s

/-- `PLAN_SWAP` (R115 to R117). -/
def planSwap (c : Nat) (s : State) : State :=
  onFront c 0x05 s fun fr d _ =>
    decideCmd s c fr d
      (firstBad [need (planOwner s c) stNoPermission, stateStatus s c d.opcode,
        needState (s.planStaged.map (·.id) = some d.planId), needState (!planInUse s)])
      fun s => doneCmd (swapPlan s) c fr d (leBytes 8 d.planId.toNat)

def execPlanSwap (c : Fin 64) (s : State) : Host.Outcome State Fault Refusal := .next (planSwap c s)

/-! ### Adapters homed elsewhere -/

/-- A command that names adapters homed elsewhere waits at the front until their homes have told what they are (R213): one look-up for
each that has not been asked for. -/
def lookFirst (c : Nat) (fr : Front) (ids : List AdapterId) (body : State → State) (s : State) : State :=
  let us := unseen s fr.asked ids
  if us.isEmpty then body s
  else
    let r := askAll s s.cat c fr.asked us
    modCtx r.1 c fun x => { x with front := x.front.map fun f => { f with asked := r.2 } }

/-! ### Mix handles -/

/-- The lowest handle number that is free: neither bound nor held under R33. -/
def freeHandle (s : State) : Option Nat :=
  let n := firstFree 0 (freeHandles s).handles
  if n < 65536 then some n else none

/-- The offset that a catalogue `BAD_FIELD` of `MIX_BIND` names: the first component that breaks R29. -/
def mixOffset (cat : Catalogue) (d : Desc) : Nat :=
  let ok := fun (c : MixComp) =>
    (!c.isSet || (setOf cat c.id).isSome) && (((cat.adapter c.id).cur.map (·.hdr.form)) ≠ some .basis)
  24 + 8 * ((d.comps.findIdx? fun c => !ok c).getD 0)

/-- `MIX_BIND`'s checks against the catalogue (R29). -/
def mixBad (s : State) (c : Nat) (d : Desc) : Option Bad :=
  (mixStatus s.cat d.tenant (tenantBound (s.ctx c).tenants d.tenant) d.comps).map fun st =>
    if st = stBadField then { status := st, off := mixOffset s.cat d } else { status := st }

/-- Bind a mixture to the lowest free handle (R32). -/
def bindMix (c : Nat) (fr : Front) (d : Desc) (s : State) : State :=
  match freeHandle s with
  | none => s
  | some n =>
    let s := { s with handles := tput n { ctx := c, tenant := d.tenant, fp := mixFp s.cat d.comps, comps := d.comps, bound := true }
                        s.handles }
    doneCmd s c fr d (leBytes 2 n)

/-- `MIX_BIND` (R29, R30, R32): `NO_PERMISSION` stands before the state, the other catalogue checks after it (R293). -/
def mixBind (c : Nat) (s : State) : State :=
  onFront c 0x10 s fun fr d _ =>
    lookFirst c fr (d.comps.map (·.id)) (s := s) fun s => decideCmd s c fr d
      (firstBad [(mixBad s c d).filter fun b => b.status = stNoPermission, stateStatus s c d.opcode, mixBad s c d,
        need (ctxHandles s c < regFld s (pgCtx c) 0x0E0 0 17) stQuota, need (freeHandle s).isSome stNoSpace])
      (bindMix c fr d)

def execMixBind (c : Fin 64) (s : State) : Host.Outcome State Fault Refusal := .next (mixBind c s)

/-- Unbind a handle: its number stays held while a gyle binds it (R33). -/
def unbindMix (s : State) (n : Nat) : State :=
  freeHandles { s with handles := tput n { tget {} s.handles n with bound := false } s.handles }

/-- `MIX_UNBIND` (R32, R33): a handle that is not bound gives `BAD_STATE` whoever asks. -/
def mixUnbind (c : Nat) (s : State) : State :=
  onFront c 0x11 s fun fr d _ =>
    let m : Mixture := tget {} s.handles d.handle
    decideCmd s c fr d
      (firstBad [need (!m.bound || m.ctx = c || ctxFabric s c) stNoPermission, stateStatus s c d.opcode, needState m.bound])
      fun s => doneCmd (release (unbindMix s d.handle)) c fr d []

def execMixUnbind (c : Fin 64) (s : State) : Host.Outcome State Fault Refusal := .next (mixUnbind c s)

/-! ### Pins and prefetches -/

/-- The count of a (submitter, adapter) pin record. -/
def pinRecord (s : State) (c : Nat) (a : AdapterId) : Nat :=
  ((s.cellar.pins.find? fun p => p.ctx = c && p.adapter = a).map (·.count)).getD 0

/-- Write a pin record; a count of 0 deletes it. -/
def setPin (s : State) (c : Nat) (a : AdapterId) (n : Nat) : State :=
  let rest := s.cellar.pins.filter fun p => !(p.ctx = c && p.adapter = a)
  { s with cellar := { s.cellar with pins := if n = 0 then rest else rest ++ [{ ctx := c, adapter := a, count := n }] } }

/-- `UNKNOWN_ADAPTER` or `PURGED` for an adapter that a command names. -/
def adapterStatus (s : State) (a : AdapterId) : Option Bad :=
  let x := s.cat.adapter a
  if x.retired then some { status := stPurged } else if x.cur.isNone then some { status := stUnknownAdapter } else none

/-- The command's adapter as its header stands; the default when it is unknown. -/
def headerOf (s : State) (a : AdapterId) : Ver := (s.cat.adapter a).cur.getD {}

/-- The adapter's tenant is bound to the context, where the adapter is known. -/
def tenantOk (s : State) (c : Nat) (a : AdapterId) : Bool :=
  (s.cat.adapter a).cur.isNone || tenantBound (s.ctx c).tenants (headerOf s a).hdr.tenant

/-- Bytes that a further pin adds: none for an adapter that is pinned already (R170). -/
def pinAdds (s : State) (a : AdapterId) : Nat := if pinCount s a = 0 then verBytes (headerOf s a) else 0

/-- The tenant T1 condition of R170 for an adapter. -/
def t1Fits (s : State) (a : AdapterId) : Bool :=
  let t := (headerOf s a).hdr.tenant
  pinnedBytes s (fun v => v.hdr.tenant = t) + pinAdds s a ≤ (tenantRec s t).qT1Mib * mib

/-- The quotas of R170. -/
def pinQuota (s : State) (c : Nat) (a : AdapterId) : Bool :=
  let t := (headerOf s a).hdr.tenant
  pinnedBytes s (fun v => v.hdr.tenant = t) + pinAdds s a ≤ (tenantRec s t).qPinMib * mib &&
    pinnedBytes s (fun _ => true) + pinAdds s a ≤ regFld s pgCellar 0x080 32 12 * mib &&
    pinRecord s c a < 65535 && t1Fits s a

/-- The basis version current for a member. -/
def basisOf (s : State) (v : Ver) : Option Ver :=
  if v.hdr.form = .member then (s.cat.adapter v.hdr.basisId).cur else none

/-- The pin at the present event (R170): its record, its admission when the adapter is not resident, and its event of R172. That the
event counts in the sketch after step 4 of R173 has compared the estimates is the model's choice (log entry 54). -/
def pinAdapter (c : Nat) (fr : Front) (d : Desc) (s : State) : State :=
  let v := headerOf s d.adapter
  let n := pinRecord s c d.adapter + 1
  let s := setPin s c d.adapter n
  let s := needCasks s { explicit := true, alloc := d.alloc, seq := s.gauger.seq, ctx := some c, epoch := s.cat.epoch } v (basisOf s v)
  let s := refreshHolds (countUse s s.cat.epoch d.adapter v.version)
  doneCmd s c fr d (leBytes 6 v.version ++ leBytes 2 n)

/-- `PIN` (R170). -/
def pin (c : Nat) (s : State) : State :=
  onFront c 0x12 s fun fr d _ =>
    lookFirst c fr [d.adapter] (s := s) fun s => decideCmd s c fr d
      (firstBad [need (tenantOk s c d.adapter && ((headerOf s d.adapter).hdr.form ≠ .basis || ctxFabric s c)) stNoPermission,
        stateStatus s c d.opcode, adapterStatus s d.adapter, need (pinQuota s c d.adapter) stQuota,
        need (0 < pinRecord s c d.adapter || s.cellar.pins.length < 16384) stNoSpace])
      (pinAdapter c fr d)

def execPin (c : Fin 64) (s : State) : Host.Outcome State Fault Refusal := .next (pin c s)

/-- `UNPIN` (R170, R178): the space it releases goes to queued admissions first. -/
def unpin (c : Nat) (s : State) : State :=
  onFront c 0x13 s fun fr d _ =>
    decideCmd s c fr d (firstBad [stateStatus s c d.opcode, needState (0 < pinRecord s c d.adapter)])
      fun s =>
        let n := pinRecord s c d.adapter - 1
        doneCmd (release (setPin s c d.adapter n)) c fr d (leBytes 6 (s.cat.adapter d.adapter).current ++ leBytes 2 n)

def execUnpin (c : Fin 64) (s : State) : Host.Outcome State Fault Refusal := .next (unpin c s)

/-- The version is present in the tier that a `PREFETCH` names (R285): its cask is `RESIDENT`, or T2 holds it. -/
def prefetched (s : State) (epoch tier : Nat) (a : AdapterId) (v : Nat) : Bool :=
  a = 0 || if tier = 1 then !(indicesOf s epoch a v).isEmpty && (indicesOf s epoch a v).all (t2Holds s epoch a v)
  else caskWhole s epoch a v

/-- The stream of a `PREFETCH` to T2 has ended and what it left to write-back is in T2. A copy for which T2 has no room all the same ends
the command with its stream: what becomes of it the spec does not say (log entry 59). -/
def t2Settled (s : State) (epoch : Nat) (a : AdapterId) (v : Nat) : Bool :=
  !(s.tiers.streams.any fun st => st.toT2 && st.epoch = epoch && st.adapter = a && st.version = v) &&
    !(s.train.dirty.any fun d => epoch = s.cat.epoch && d.adapter = a && d.version = v && !d.t2)

/-- Start a `PREFETCH`'s work: an explicit admission for T1, a stream that fills T2 for T2. -/
def startPrefetch (s : State) (c : Nat) (d : Desc) (v : Ver) : State :=
  if d.alloc.toNat % 4 = 1 then
    let st : Stream := { id := s.tiers.nextStream, adapter := d.adapter, version := v.version, cask := 4096,
                         place := s.gauger.seq, left := streamOrder s v, home := homeOf s.cat d.adapter,
                         noBorrow := d.alloc.getLsbD 2, toT2 := true, epoch := s.cat.epoch, ctx := some c, users := [c] }
    { s with tiers := { s.tiers with streams := s.tiers.streams ++ [st], nextStream := s.tiers.nextStream + 1 } }
  else needCasks s { explicit := true, alloc := d.alloc, seq := s.gauger.seq, ctx := some c, epoch := s.cat.epoch } v (basisOf s v)

/-- The prefetch at the present event: complete when the adapter is there already, in flight otherwise (R285). -/
def prefetchAdapter (c : Nat) (fr : Front) (d : Desc) (s : State) : State :=
  let v := headerOf s d.adapter
  let tier := d.alloc.toNat % 4
  if d.adapter = 0 then doneCmd s c fr d (leBytes 6 0)
  else
    if prefetched s s.cat.epoch tier d.adapter v.version then doneCmd (countUse s s.cat.epoch d.adapter v.version) c fr d (leBytes 6 v.version)
    else
      let s := countUse (startPrefetch s c d v) s.cat.epoch d.adapter v.version
      acceptLater s c { opcode := d.opcode, sqIndex := fr.sqIndex, adapter := d.adapter, version := v.version, arg := tier,
                        seq := s.gauger.seq, epoch := s.cat.epoch }

/-- Quotas of a `PREFETCH`: the T1 condition of R180, or the tenant's T2 quota (Table 9.2). -/
def prefetchQuota (s : State) (d : Desc) : Bool :=
  let v := headerOf s d.adapter
  if d.alloc.toNat % 4 = 1 then
    (warmOf s s.cat.epoch d.adapter v.version false).isSome ||
      t2Charge s v.hdr.tenant + verBytes v ≤ (tenantRec s v.hdr.tenant).qT2Gib * gib
  else t1Fits s d.adapter

/-- `PREFETCH` (R20, R180, R285); the zero adapter is always resident (R17). -/
def prefetch (c : Nat) (s : State) : State :=
  onFront c 0x14 s fun fr d _ =>
    let zero := d.adapter = 0
    lookFirst c fr [d.adapter] (s := s) fun s => decideCmd s c fr d
      (firstBad [need (zero || tenantOk s c d.adapter) stNoPermission, stateStatus s c d.opcode,
        if zero then none else adapterStatus s d.adapter, need (zero || prefetchQuota s d) stQuota])
      (prefetchAdapter c fr d)

def execPrefetch (c : Fin 64) (s : State) : Host.Outcome State Fault Refusal := .next (prefetch c s)

/-- Every `PREFETCH` that waits and whose version is now there completes, each at one event (R285). -/
def finishPrefetches (s : State) : State :=
  s.ctxs.foldl (fun t e => e.2.inflight.foldl (fun t cmd =>
    if cmd.opcode = 0x14 && (prefetched t cmd.epoch cmd.arg cmd.adapter cmd.version ||
      (cmd.arg = 1 && t2Settled t cmd.epoch cmd.adapter cmd.version))
    then completeLater (stamp t) e.1 cmd stDone 0 (leBytes 6 cmd.version) else t) t) s

/-! ### Marks -/

/-- `MARK` (R286): one log book record with the descriptor's bytes, at the completion's sequence. -/
def mark (c : Nat) (s : State) : State :=
  onFront c 0x50 s fun fr d _ =>
    decideCmd s c fr d (stateStatus s c d.opcode)
      fun s => doneCmd (logNow s (pgCtx c) evMark none (some c) 0 d.markData) c fr d []

def execMark (c : Fin 64) (s : State) : Host.Outcome State Fault Refusal := .next (mark c s)

/-- `NOP` (R280): it completes and does nothing else. -/
def nop (c : Nat) (s : State) : State :=
  onFront c 0x5F s fun fr d _ => decideCmd s c fr d (stateStatus s c d.opcode) fun s => doneCmd s c fr d []

def execNop (c : Fin 64) (s : State) : Host.Outcome State Fault Refusal := .next (nop c s)

end Sys2Proof.Machine
end

