-- ==== Sys2Proof/Machine/Teardown.lean ====
section
/-! DEFINITION. How the work of a context ends: `QUIESCE` and `RESUME` (R296 to R299), the teardown of a fault (R273) and the
context reset of Table 12.4. -/
namespace Sys2Proof.Machine

/-! ### Streams and admissions of a context -/

/-- Something still asks for a version in the cellar: a gyle that binds it, a pin, a fallback hold, a member, or a `PREFETCH`. -/
def wanted (s : State) (epoch : Nat) (a : AdapterId) (v : Nat) : Bool :=
  !(bindersOf s epoch a v).isEmpty || pinCount s a ≠ 0 || isFallback s a || memberNeeds s a ||
    s.ctxs.any fun e => e.2.inflight.any fun m => m.opcode = 0x14 && m.adapter = a && m.version = v

/-- A stream ends before its last tensor: the cask that it was filling becomes `FREE` (R191). -/
def endStream (s : State) (st : Stream) : State :=
  let s := keepStreams s fun x => x.id ≠ st.id
  if !st.toT2 && (s.cask st.cask).st = .filling then freeCask s st.cask else s

/-- Streams and waiting admissions of a context that no other request shares are cancelled (Table 12.4, step 3). -/
def cancelStreams (s : State) (c : Nat) : State :=
  let gone := s.tiers.streams.filter fun st => st.users.contains c && !wanted s st.epoch st.adapter st.version
  let s := gone.foldl endStream s
  let stays := fun (r : Admit) => !(r.ctx = some c || r.users.contains c) || r.parts.any fun p => wanted s r.epoch p.adapter p.version
  { s with cellar := { s.cellar with waiting := s.cellar.waiting.filter stays } }

/-! ### A racking that ends -/

/-- The freeze of a racking ends: its length in units of 10 ns, at most 40 µs, is the block's to measure (R240, log entry 10). -/
def measureFreeze (s : State) (r : Rack) : State :=
  if r.phase = 3 then bumpFree { s with homes := { s.homes with freezeLast := drawChoice s % 4001 } } else s

/-- The racking ends: its requests are not repeated; `tell` sends `M_RACK_ABORT`. -/
def dropRack (s : State) (r : Rack) (tell : Bool) : State :=
  let s := { s with homes := { s.homes with
    rack := none
    requests := s.homes.requests.filter fun x => ¬ ((x.msg.type = 0x30 ∨ x.msg.type = 0x33) ∧ x.msg.dst = r.dest) } }
  if tell then sendMsg s { type := 0x35, dst := r.dest, corr := r.corr, epoch := s.cat.epoch, args := [r.adapter] } else s

/-- The result area of a `RACK` (Table 13.7): adapter, new home, rounds, and the length of the freeze where there has been one. -/
def rackResult (s : State) (r : Rack) : List Byte :=
  leBytes 3 r.adapter ++ leBytes 1 r.dest ++ leBytes 1 r.round ++ [0] ++ leBytes 2 (if 3 ≤ r.phase then s.homes.freezeLast else 0)

/-! ### Commands in flight -/

/-- The result area of a command that ends without having taken effect (Table 13.7). -/
def Cmd.result (m : Cmd) : List Byte :=
  match m.opcode with
  | 0x31 => leBytes 6 m.version
  | 0x32 => leBytes 2 m.arg
  | 0x51 => leBytes 2 m.arg ++ leBytes 2 m.peer
  | _ => []

/-- A completion record that a teardown owes: its place in gauger order and what it carries. -/
structure Ending where
  seq : Seq
  opcode : Nat
  sqIndex : Nat
  gyle : Nat := 0
  cflags : Nat := 0
  result : List Byte := []
  deriving DecidableEq, Repr

/-- A gyle of the context whose completion record has not been formed and which is not held (R273). -/
def inWork (c : Nat) (g : Gyle) : Bool := !g.key.far && g.key.owner = c && !g.held && !g.completing

/-- The opcode byte of a record for a descriptor whose read failed: the spec gives it no value (log entry 19). -/
def frontOpcode (s : State) (fr : Front) : Nat :=
  match fr.desc with
  | some d => d.opcode
  | none => (Config.freeByte s.freeCtr).toNat

/-- The records that a teardown posts, in gauger order of the commands' acceptance; the descriptor not yet decided comes
last (R273). -/
def endings (s : State) (c : Nat) : List Ending :=
  let x := s.ctx c
  let cmds := x.inflight.map fun m => ({
    seq := m.seq, opcode := m.opcode, sqIndex := m.sqIndex
    result := if m.opcode = 0x40 then (s.homes.rack.map (rackResult s)).getD [] else m.result
    gyle := if namesGyle m.opcode then m.gyle else 0 } : Ending)
  let closes := s.gyles.filterMap fun g =>
    if inWork c g then g.closeSq.map fun sq => ({
      seq := g.closeSeq, opcode := 0x03, sqIndex := sq, gyle := g.key.num, cflags := gyleFlags s g
      result := gyleResult g } : Ending)
    else none
  sortBy (fun a b => a.seq < b.seq) (cmds ++ closes) ++
    (x.front.toList.map fun fr => {
      seq := 0, opcode := frontOpcode s fr, sqIndex := fr.sqIndex
      gyle := ((fr.desc.map fun d => if namesGyle d.opcode then d.gyle else 0).getD 0) })

/-- Post one such record, at a sequence of its own. -/
def postEnding (c : Nat) (s : State) (e : Ending) : State :=
  postRecord (stamp s) c e.opcode stCancelled e.cflags e.sqIndex e.gyle e.result none

/-- What a command that ends `CANCELLED` leaves behind: work that can still be undone is undone; a publication, a purge, a
directory change, a lend or a racking past its cutover goes on without a completion. -/
def dropCmd (c : Nat) (s : State) (m : Cmd) : State :=
  match m.opcode with
  | 0x21 =>
    let k := ownGyle c m.gyle
    let done := s.train.commits.any fun x => x.gk = k && x.published
    let s := { s with train := { s.train with commits := s.train.commits.filter fun x => x.gk ≠ k } }
    if done then releaseGyle s k else modGyle s k fun g => { g with commitAccepted := false }
  | 0x30 =>
    { s with homes := { s.homes with
      publishes := s.homes.publishes.filter fun p => ¬ (p.ctx = some c ∧ p.sqIndex = m.sqIndex)
      supersedes := s.homes.supersedes.map fun p => if p.ctx = some c ∧ p.sqIndex = m.sqIndex then { p with ctx := none } else p
      dirPending := s.homes.dirPending.map fun p => if p.ctx = some c ∧ p.sqIndex = m.sqIndex then { p with ctx := none } else p
      forwards := s.homes.forwards.filter fun f => ¬ (f.2.1 = c ∧ f.2.2.1 = m.sqIndex) } }
  | 0x31 =>
    { s with homes := { s.homes with
      purges := s.homes.purges.map fun p => if p.ctx = some c ∧ p.sqIndex = m.sqIndex then { p with ctx := none } else p
      forwards := s.homes.forwards.filter fun f => ¬ (f.2.1 = c ∧ f.2.2.1 = m.sqIndex) } }
  | 0x32 => if s.staging = some (c, m.sqIndex) then { s with staging := none, catStaged := none } else s
  | 0x40 =>
    match s.homes.rack with
    | some r =>
      if r.ctx = some c then
        if r.phase < 4 then dropRack s r true
        else { s with homes := { s.homes with rack := some { r with ctx := none } } }
      else s
    | none => s
  | 0x41 | 0x42 =>
    { s with tiers := { s.tiers with lent := s.tiers.lent.map fun l =>
      { l with ctx := if l.ctx = some c ∧ l.sqIndex = m.sqIndex then none else l.ctx
               recallSq := if l.recallSq = some (c, m.sqIndex) then none else l.recallSq } } }
  | _ => s

/-- A gyle that is gone has no withdrawn credit: its late beats are those of no gyle (the first row of Table 6.6; R121, R273). -/
def forgetCredit (s : State) (k : GyleKey) : State :=
  s.ports.foldl (fun t e => modPort t e.1 fun p => { p with withdrawn := p.withdrawn.filter (·.gk ≠ k) }) s

/-- A gyle is torn down: its far apply is cancelled, its work ends, and it is released (R224, R273). -/
def tearGyle (s : State) (g : Gyle) : State := forgetCredit (releaseGyle (clearWork (farCancel s g) g.key) g.key) g.key

/-- Transfers of a context other than the completion records already formed. -/
def ctxXfer (c : Nat) : MemUse → Bool
  | .descriptor d | .image d | .rowMap d _ _ | .account d _ | .report d _ => d = c
  | _ => false

/-- The teardown of R273 from the present event on: `CTX_EPOCH` advances, every command in flight ends `CANCELLED`, the gyles
at work are released. -/
def teardown (s : State) (c : Nat) : State :=
  let s := modCtx s c fun x => { x with epoch := (x.epoch + 1) % 2 ^ 16 }
  let s := match s.homes.rack with
    | some r => if r.ctx = some c then measureFreeze s r else s
    | none => s
  let ends := endings s c
  let cmds := (s.ctx c).inflight
  let work := s.gyles.filter fun g => inWork c g || ((s.ctx c).faultCause = 0x03 && !g.key.far && g.key.owner = c && !g.held)
  let s := withdrawWords s c
  let s := work.foldl tearGyle s
  let s := cmds.foldl (dropCmd c) s
  let s := dropXfers s (ctxXfer c)
  let s := modCtx s c fun x => { x with front := none, inflight := [] }
  let s := ends.foldl (postEnding c) s
  modCtx s c fun x => { x with
    posted := if x.faultCause = 0x03 then [] else x.posted
    teardownDone := x.faultCause = 0x03 || x.posted.isEmpty }

/-! ### Context faults -/

/-- `EV_FAULT_REPEAT` (R272): a further fault, or a fault cause in `DOWN`. -/
def repeatFault (s : State) (c cause : Nat) (fid : Seq) : State :=
  logNow s (pgCtx c) evFaultRepeat none (some c) fid ([0, 0] ++ leBytes 2 c ++ leBytes 1 cause)

/-- The fault of a context: an open one keeps its ID, one that escalates from another object takes that object's (`esc`), and
otherwise the present event begins it (R339). -/
def openCtxFault (s : State) (c source : Nat) (esc : Option Seq) : State :=
  match openFault s (.ctx c), esc with
  | some _, _ => s
  | none, some id =>
    let f : FaultRec := { id, object := .ctx c, source, first := 1, level := 0 }
    { s with
      integrity := { s.integrity with faults := s.integrity.faults ++ [f] }
      pages := tmod {} s.pages (pgCtx c) fun h => { h with faultCount := sat 32 (h.faultCount + 1) } }
  | none, none => newFaultNow s (.ctx c) source 0 []

/-- The ID under which a further fault of a context is recorded (R272): its first fault's. -/
def firstFaultId (s : State) (c : Nat) : Seq := ((openFault s (.ctx c)).map (·.id)).getD 0

/-- A fault of a context at the present event (R272, R273): the entry to `FAULTED`, its records, and the teardown. -/
def faultCtx (s : State) (c cause source : Nat) (esc : Option Seq) : State :=
  match (s.ctx c).st with
  | .down => repeatFault s c cause 0
  | .faulted | .resetting => repeatFault s c cause (firstFaultId s c)
  | _ =>
    let s := openCtxFault s c source esc
    let fid := ((openFault s (.ctx c)).map (·.id)).getD s.gauger.seq
    let s := modCtx s c fun x => { x with faultCause := cause, faultSeq := s.gauger.seq, teardownDone := false }
    let s := logNow s (pgCtx c) evCtxFaulted none (some c) fid [BitVec.ofNat 8 cause]
    teardown (raise (setCtxNow s c .faulted) (pgCtx c) 2) c

/-! ### Context reset -/

/-- A block reset or the start is in progress (R400). -/
def inBlockReset (s : State) : Bool := !s.glob.ready || s.glob.warmStep ≠ 0

/-- `CTX_CMD` 0b10 is allowed in any state but `DOWN` and `RESETTING` (Table 12.3), and not during a block reset (R400). -/
def ctxResetCheck (c : Nat) (s : State) : Option Nat :=
  if (s.ctx c).st = .down || (s.ctx c).st = .resetting || inBlockReset s then some stBadState else none

/-- Steps 1 to 3 of Table 12.4, from the present event on: the teardown, then training gyles, pins, handles and streams are released. -/
def resetCtx (s : State) (c : Nat) : State :=
  let s := teardown (setCtxNow s c .resetting) c
  let held := s.gyles.filter fun g => !g.key.far && g.key.owner = c && (g.held || (g.kind = .training && g.completing))
  let s := held.foldl (fun t g => forgetCredit (releaseGyle t g.key) g.key) s
  let s := { s with
    cellar := { s.cellar with pins := s.cellar.pins.filter fun p => p.ctx ≠ c }
    handles := s.handles.map fun e => if e.2.ctx = c then (e.1, { e.2 with bound := false }) else e }
  release (cancelStreams (freeHandles s) c)

/-- `CTX_RESET` (R274): the write of `CTX_CMD` 0b10. -/
def execCtxReset (c : Fin 64) (role : Role) (s : State) : Host.Outcome State Fault Refusal :=
  .next (busWrite (pgCtx c) 0x080 2 role (ctxResetCheck c) (fun s => resetCtx s c) s)

/-- Step 4 of Table 12.4: the rings are settled, `LATE_POLICY` and `FAULT_CAUSE` return, the context is `DOWN`, and its open
fault ends. -/
def finishReset (s : State) (c : Nat) : State :=
  let s := modCtx s c fun x => { x with
    sqHead := x.sqTail, cqResv := 0, posted := [], faultCause := 0, teardownDone := false }
  let s := setReg s (pgCtx c) 0x100 (regReset (regAddr (pgCtx c) 0x100))
  endFault (setCtxState s c .down) (.ctx c)

/-- The reset of a context ends; not due outside `RESETTING` or while the teardown's records are being written. -/
def ctxResetDone (c : Nat) (s : State) : State :=
  if (s.ctx c).st = .resetting ∧ (s.ctx c).teardownDone then finishReset s c else s

/-- `CTX_RESET_DONE` (Table 12.4, step 4). -/
def execCtxResetDone (c : Fin 64) (s : State) : Host.Outcome State Fault Refusal := .next (ctxResetDone c s)

/-- Recovery level 4 for a context (Table 16.5): the context reset with `FAULT_CAUSE` 0x05, under the given fault, each transition an event
of its own (R272); a context in `DOWN` or `RESETTING` only records it. -/
def levelFour (s : State) (c : Nat) (id : Seq) (source first : Nat) : State :=
  match (s.ctx c).st with
  | .down => repeatFault s c 0x05 0
  | .resetting => repeatFault s c 0x05 (firstFaultId s c)
  | _ =>
    let s := stamp (enterLevel s id (.ctx c) source first 4)
    if (s.ctx c).st = .faulted then resetCtx s c
    else
      let s := modCtx s c fun x => { x with faultCause := 0x05, faultSeq := s.gauger.seq, teardownDone := false }
      let s := logNow s (pgCtx c) evCtxFaulted none (some c) id [5]
      resetCtx (stamp (raise (setCtxNow s c .faulted) (pgCtx c) 2)) c

/-! ### Quiesce and resume -/

/-- The gyles that a `QUIESCE` stops. -/
def stoppable (s : State) (c : Nat) : List Gyle :=
  s.gyles.filter fun g => !g.key.far && g.key.owner = c && (g.st = .sorted || g.st = .running) && !g.held

/-- Stop one gyle (R296). -/
def stopGyle (s : State) (g : Gyle) : State := modGyle (clearWork (farCancel s g) g.key) g.key Gyle.stopped1

/-- Gyles that a `QUIESCE` lets go on sorting and whose far apply is open: it is cancelled, and opened afresh at the `RESUME` (R296, R298). -/
def farFilling (s : State) (c : Nat) : List Gyle :=
  s.gyles.filter fun g => !g.key.far && g.key.owner = c && g.st = .filling && !g.farHomes.isEmpty && !g.farCut

/-- The far apply of such a gyle is cancelled: no answer of it is awaited. -/
def cutFar (s : State) (g : Gyle) : State :=
  let s := modGyle (farCancel s g) g.key fun g => { g with farCut := true }
  { s with homes := { s.homes with requests := s.homes.requests.filter fun r => ¬ (r.gk = some g.key ∧ r.msg.type = 0x20) } }

/-- The lane groups of a context held in batch windows issue at its `QUIESCE`, their results discarded (R86, R309). -/
def issueHeld (s : State) (c : Nat) : State :=
  let mine := fun (h : HeldGroup) => h.ctx = c
  let s := (s.heldGroups.filter mine).foldl (fun t h => h.members.foldl (fun t m =>
    modTun t m.1 fun x => { x with issued := x.issued ++ [{ m.2 with discard := true }] }) t) s
  { s with heldGroups := s.heldGroups.filter fun h => !mine h }

/-- The acceptance of `QUIESCE` (R296): its completion waits until issued operations have run out. -/
def quiesceNow (c : Nat) (fr : Front) (d : Desc) (s : State) : State :=
  let seq := s.gauger.seq
  let gs := stoppable s c
  let cut := farFilling s c
  let s := modCtx s c fun x => { x with epoch := (x.epoch + 1) % 2 ^ 16 }
  let s := issueHeld (setCtxNow (withdrawWords s c) c .quiesced) c
  let s := cut.foldl cutFar (gs.foldl stopGyle s)
  acceptLater s c { opcode := d.opcode, sqIndex := fr.sqIndex, arg := gs.length,
                    peer := ((gs ++ cut).map fun g => g.farHomes.length).sum, seq }

/-- `QUIESCE` (R296, R299). -/
def quiesce (c : Nat) (s : State) : State :=
  onFront c 0x51 s fun fr d _ => decideCmd s c fr d (stateStatus s c d.opcode) (quiesceNow c fr d)

def execQuiesce (c : Fin 64) (s : State) : Host.Outcome State Fault Refusal := .next (quiesce c s)

/-- Operations of the context's gyles still run out in some tun. -/
def runningOut (s : State) (c : Nat) : Bool :=
  s.tuns.any fun e => e.2.issued.any fun o => o.discard && !o.gk.far && o.gk.owner = c

/-- `QUIESCE` completes (R297); not due while operations run out, or without a `QUIESCE` in flight. -/
def quiesceComplete (c : Nat) (s : State) : State :=
  match (s.ctx c).inflight.find? fun m => m.opcode = 0x51 with
  | some m => if runningOut s c then s else completeLater (stamp s) c m stDone 0 m.result
  | none => s

/-- `QUIESCE_COMPLETE` (R297). -/
def execQuiesceComplete (c : Fin 64) (s : State) : Host.Outcome State Fault Refusal := .next (quiesceComplete c s)

/-- Far apply is opened afresh at every home of a gyle (R224). -/
def reopenFar (s : State) (g : Gyle) : State :=
  g.farHomes.foldl (fun t h => openFar t g.key h) (modGyle s g.key fun g => { g with farCut := false })

/-- A stopped gyle reruns from its sort: `REPLAYED`, one more in `REPLAYS`, its far apply opened afresh (R224, R298). -/
def rerunGyle (s : State) (g : Gyle) : State :=
  reopenFar (modGyle s g.key fun g => { g with stopped := false, replayed := true, replays := g.replays + 1 }) g

/-- The acceptance of `RESUME` (R298): stopped gyles rerun; one that sorted under the `QUIESCE` opens its far apply, and ends where it has
no traffic. -/
def resumeNow (c : Nat) (fr : Front) (d : Desc) (s : State) : State :=
  let stopped := s.gyles.filter fun g => !g.key.far && g.key.owner = c && g.stopped
  let empty := s.gyles.filter fun g => !g.key.far && g.key.owner = c && !g.stopped && g.st = .sorted && passesNothing g
  let busy := gyleInFlight s c || !(s.ctx c).inflight.isEmpty
  let s := setCtxNow s c (if busy then .running else .ready)
  let s := doneCmd s c fr d []
  let cut := s.gyles.filter fun g => !g.key.far && g.key.owner = c && !g.stopped && g.farCut
  let s := cut.foldl reopenFar (stopped.foldl rerunGyle s)
  empty.foldl (fun t g => drainGyle (enterGyle t g.key .running) g.key) s

/-- `RESUME` (R298). -/
def resume (c : Nat) (s : State) : State :=
  onFront c 0x52 s fun fr d _ => decideCmd s c fr d (stateStatus s c d.opcode) (resumeNow c fr d)

def execResume (c : Fin 64) (s : State) : Host.Outcome State Fault Refusal := .next (resume c s)

/-- A gyle reruns without a `QUIESCE` (R341): its work ends and its credit is granted again from the first row. -/
def rerunNow (s : State) (k : GyleKey) : State :=
  match s.gyle k with
  | none => s
  | some g =>
    if g.st ≠ .running && g.st ≠ .sorted then s
    else
      let s := stopGyle s g
      rerunGyle s g

end Sys2Proof.Machine
end

