-- ==== Sys2Proof/Machine/Publish.lean ====
section
/-! DEFINITION. How a new version becomes current: its place in the catalogue (R10, R18), its cask and ullage (R168, R176,
R177), its dirty data (R160, R161), the revocation of leases on the version before it (R214) and the wait for their holders
(R215); and the answers that a receiver remembers (R225, R226). -/
namespace Sys2Proof.Machine

/-! ### Answers -/

/-- An answer is remembered for its peer: the last 65,536 of each (R226). -/
def remember (s : State) (peer : Nat) (corr : Seq) (m : Msg) : State :=
  let mine := s.homes.answered.filter fun a => a.peer = peer
  let rest := s.homes.answered.filter fun a => a.peer ≠ peer
  let mine := if 65536 ≤ mine.length then mine.drop 1 else mine
  { s with homes := { s.homes with answered := rest ++ mine ++ [{ peer, corr, body := some m }] } }

/-- Answer a request: `to_` carries the requester and what its header sets, which the answer echoes (R224, R226). -/
def reply (s : State) (to_ : Msg) (type status : Nat) (args : List Nat) (data : List Byte) : State :=
  let m := { to_ with type, status, args, data }
  remember (sendMsg s m) to_.dst to_.corr m

/-! ### Leases on a superseded version -/

/-- `M_REVOKE` to every holder of a lease on a version (R214); the holders awaited. `purge` marks the revocation of a purge. -/
def revoke (s : State) (a : AdapterId) (v : Nat) (purge : Bool) : State × List (Nat × AdapterId × Nat × Nat) :=
  let holders := ((s.homes.granted.filter fun g => g.epoch = s.cat.epoch && g.adapter = a && g.version = v).map (·.peer)).eraseDups
  (holders.foldl (fun t p => sendReq (stamp t)
      { type := 0x05, dst := p, epoch := t.cat.epoch, args := [if purge then 1 else 0, a, v] } none) s,
   holders.map fun p => (s.cat.epoch, a, v, p))

/-- The completion of a command that waited under R215, or the answer of a forwarded one. -/
def endSupersede (s : State) (w : Supersede) : State :=
  let s := stamp s
  let s := match w.fwd with
    | some m => reply s m 0x43 w.status [] w.result
    | none => s
  match w.ctx with
  | none => s
  | some c =>
    let s := match (s.ctx c).inflight.find? fun m => m.sqIndex = w.sqIndex && m.opcode = w.opcode with
      | some m => completeLater s c m w.status w.cflags w.result
      | none => s
    if w.opcode = 0x21 then
      let k := ownGyle c w.gyle
      releaseGyle { s with train := { s.train with commits := s.train.commits.filter fun x => x.gk ≠ k } } k
    else s

/-- Commands whose wait is over complete, in their order (R215). -/
def endSupersedes (s : State) : State :=
  let ended := s.homes.supersedes.filter fun w => w.waiting.isEmpty && w.ready
  let left := s.homes.supersedes.filter fun w => !(w.waiting.isEmpty && w.ready)
  ended.foldl endSupersede { s with homes := { s.homes with supersedes := left } }

/-- A holder of a lease on a version of an epoch has answered, or its lease has run out (R215). -/
def holderDone (s : State) (epoch : Nat) (a : AdapterId) (v p : Nat) : State :=
  let s := { s with homes := { s.homes with
    granted := s.homes.granted.filter fun g => ¬ (g.epoch = epoch ∧ g.adapter = a ∧ g.version = v ∧ g.peer = p)
    supersedes := s.homes.supersedes.map fun w => { w with waiting := w.waiting.filter (· ≠ (epoch, a, v, p)) }
    purges := s.homes.purges.map fun w =>
      if w.adapter = a ∧ w.epoch = epoch then { w with waiting := w.waiting.filter (· ≠ (v, p)) } else w } }
  endSupersedes s

/-! ### Version writes in the cellar -/

/-- Free ullage bytes: of a raise, those that victims have freed (R163). -/
def ullageFree (s : State) : Nat := ullageMib s * mib - growthOf s 2 - ullageUsed s

/-- Bytes that a version write of some tensors takes: those tensors, and the state area where `st` says so. -/
def writeBytes (v : Ver) (idx : List Nat) (st : Bool) : Nat :=
  ((tensorSizes v.hdr v.slots).map fun x => if idx.contains x.1 then x.2 else 0).sum + (if st then verStateBytes v else 0)

/-- Victims that give cask indices to new versions, as an admission finds them (R168, R173): the oldest unheld probation casks, then
main victims, dirty ones among them. The casks of the adapters that change give none (log entry 50). -/
def indexVictims (s : State) (keep : List AdapterId) : List Nat :=
  (probVictims s ++ mainVictims s).filterMap fun e => if keep.contains e.2.adapter then none else some e.1

/-- Victims in `EVICTING` that no admission awaits: indices on their way. -/
def comingIndices (s : State) : Nat := (loneEvicting s).length

/-- Evict until `n` new versions find an index besides those held already, counting what victims being written back will give. -/
def makeIndices (s : State) (n : Nat) (keep : List AdapterId) : State :=
  evictAll s ((indexVictims s keep).take (s.cellar.casks.length + indicesHeld s + n - 4096 - comingIndices s))

/-- The cask of a new version (R168): the `FREQ` of the cask it replaces, the tensors shared with it and those written; it keeps the old
cask's `PROBATION` and the record of a gyle that has resolved it, which is the model's choice (log entry 54). Its
ullage is the bytes that only it holds (R176), but for state arrays that take the place of the old cask's (R177). Tensors that are
neither written nor shared are fetched. -/
def newCask (s : State) (v : Ver) (old : Cask) (written : List Nat) : Cask :=
  let there := fun (i : Nat) => written.contains i || (i < 2 * v.slots.length && old.present.contains i)
  let cask : Cask := {
    st := if (verIndices v).all there then .resident else .filling
    adapter := v.hdr.id, version := v.version, tenant := v.hdr.tenant, epoch := s.cat.epoch, basis := v.hdr.form = .basis
    stateArea := v.state.isSome, form := v.hdr.form, slotCount := v.hdr.slotCount, bytes := verBytes v, freq := old.freq
    fp := v.hdr.fp, loadedSeq := s.gauger.seq, present := (verIndices v).filter there
    ullage := writeBytes v written (v.state.isSome && !old.stateArea)
    probation := old.probation, gyleSeen := old.gyleSeen, noDemote := old.noDemote, noBorrow := old.noBorrow
    single := old.single, moved := old.moved.filter fun i => there i && !written.contains i
    tags := old.tags, writers := old.writers }
  cask.tag v written

/-- Install the cask of a new version beside the one it replaces, then retire that one (R167, R176). A commit holds an index and its
ullage (R155); a `PUBLISH` whose adapter has no resident cask, or that lacks ullage or an index, goes without a cask. -/
def installCask (s : State) (v : Ver) (old : Nat) (written : List Nat) (commit : Bool) : State :=
  let a := v.hdr.id
  let oldCask : Cask := ((caskOf s s.cat.epoch a old).map s.cask).getD {}
  let lacks := oldCask.st ≠ .resident || ullageFree s < writeBytes v written v.state.isSome || freeCount s = 0
  let s := if 4096 ≤ s.cellar.casks.length || (!commit && lacks) then s
    else
      let i := firstFree 0 s.cellar.casks
      let c := newCask s v oldCask written
      let t := modCask s i fun _ => c
      if c.st = .filling then addStream t i { seq := t.gauger.seq, epoch := t.cat.epoch } else t
  releaseBy s fun s => staleCask s s.cat.epoch a old

/-! ### Dirty data -/

/-- `DIRTY_CAP_MIB` in bytes. -/
def dirtyCap (s : State) : Nat := regFld s pgTrain 0x088 0 13 * mib

/-- The dirty bytes of R161: data not yet in both T2 and T4, and what accepted commits have reserved. -/
def dirtyBytes (s : State) : Nat := (s.train.dirty.map (·.bytes)).sum + (s.train.commits.map (·.dirtyReserved)).sum

/-- Bytes of tensors and state arrays of a version; the state area counts whole. -/
def indexBytes (v : Ver) (idx : List Nat) : Nat := writeBytes v idx (idx.any fun i => 2 * v.slots.length ≤ i)

/-- A version's dirty records, in the mask and the `DIRTY_SEQ` of its cask: the oldest publication of its unwritten data (R160,
Table 8.5). -/
def syncDirty (s : State) (a : AdapterId) : State :=
  let v := (s.cat.adapter a).current
  let ds := s.train.dirty.filter fun d => d.adapter = a && d.version = v
  match caskOf s s.cat.epoch a v with
  | none => s
  | some i => modCask s i fun c => { c with
    dirty := (ds.flatMap (·.tensors)).eraseDups
    dirtySeq := ds.foldl (fun m d => if m = 0 then d.seq else min m d.seq) 0 }

/-- Tensors of the current version that are dirty from here on, of the present event's publication. -/
def markDirty (s : State) (a : AdapterId) (v : Ver) (idx : List Nat) : State :=
  if idx.isEmpty then s
  else syncDirty { s with train := { s.train with
    dirty := s.train.dirty ++ [{ adapter := a, version := v.version, seq := s.gauger.seq, tensors := idx, bytes := indexBytes v idx }] } } a

/-- What is left of an older version's dirty record once a newer version has rewritten tensors: those that they share stay dirty
(R155, R160). -/
def Dirty.carried (v : Ver) (written : List Nat) (d : Dirty) : Option Dirty :=
  let ts := d.tensors.filter fun i => !written.contains i && i < 2 * v.slots.length
  if ts.isEmpty then none else some { d with version := v.version, tensors := ts, bytes := indexBytes v ts }

/-- The dirty records once a new version is published: the write-back of an older version is not run any more (R160). -/
def addDirty (s : State) (v : Ver) (written : List Nat) (dirty : Bool) : State :=
  let a := v.hdr.id
  let s := { s with
    train := { s.train with dirty := s.train.dirty.filterMap fun d => if d.adapter = a then d.carried v written else some d }
    kiln := { s.kiln with pending := s.kiln.pending.filter fun k => match k with
      | .dirty b w => b ≠ a || w = v.version
      | _ => true } }
  if dirty then markDirty s a v written else syncDirty s a

/-! ### Publication -/

/-- A version becomes current at the present event (R10, R18). -/
def makeCurrent (s : State) (a : AdapterId) (v : Ver) : State :=
  modAdapter s a fun x => { x with
    current := v.version, versions := { v with pubSeq := s.gauger.seq, home := true } :: x.versions
    lastPublish := if v.byPublish then v.version else x.lastPublish }

/-- Tensors that a new version rewrites join the delta of a racking that streams the adapter (Table 10.5, step 4). -/
def noteDelta (s : State) (v : Ver) (idx : List Nat) : State :=
  match s.homes.rack with
  | some r =>
    let delta := (r.delta ++ idx).eraseDups
    if r.adapter = v.hdr.id && r.phase = 2 then
      { s with homes := { s.homes with rack := some { r with
        delta, deltaBytes := writeBytes v delta (delta.any (2 * v.slots.length ≤ ·)) } } }
    else s
  | none => s

/-- Gyles that have not reached `COMPLETE` keep in mind a version that is superseded at the present event (R214). -/
def noteSuperseded (s : State) (epoch : Nat) (a : AdapterId) (v : Nat) : State :=
  let note := fun (g : Gyle) => if v ≠ 0 && g.epoch = epoch && g.st ≠ .complete then { g with supersededBy := g.supersededBy ++ [(a, v)] } else g
  { s with gyles := s.gyles.map note }

/-- One new version at the present event: current, its cask, its dirty data. `written` are the tensors and state arrays that it does not
share, `commit` says that a commit makes it. -/
def installVersion (s : State) (v : Ver) (written : List Nat) (commit dirty : Bool) : State :=
  let a := v.hdr.id
  let old := (s.cat.adapter a).current
  let s := makeCurrent s a v
  let s := addDirty (installCask s v old written commit) v written dirty
  noteSuperseded (noteDelta s v written) s.cat.epoch a old

/-- The leases on the versions before new ones are revoked, adapter by adapter, once every new version stands. -/
def revokeAll (s : State) (olds : List (AdapterId × Nat)) : State × List (Nat × AdapterId × Nat × Nat) :=
  let r := olds.foldl (fun acc p => let x := revoke acc.1 p.1 p.2 false; (x.1, acc.2 ++ x.2)) (s, [])
  (pruneVersions (refreshHolds r.1), r.2)

/-- The publication of one new version: it stands, and the leases on the version before it are revoked. -/
def publishVersion (s : State) (v : Ver) (written : List Nat) (commit dirty : Bool) : State × List (Nat × AdapterId × Nat × Nat) :=
  revokeAll (installVersion s v written commit dirty) [(v.hdr.id, (s.cat.adapter v.hdr.id).current)]

end Sys2Proof.Machine
end

