-- ==== Sys2Proof/Machine/Train.lean ====
section
/-! DEFINITION. Commit and abort of training gyles (R152 to R159): acceptance, the run of the update engine (R56 to R60), and
the publication; and the hyperparameter registers (R150, R162). -/
namespace Sys2Proof.Machine

/-! ### What a commit steps -/

/-- Slots that a step covers (R152): listed by the adapter and marked `GRAD` by the gyle's plan for its base model. -/
def stepSlots (g : Gyle) (v : Ver) : List (Nat × SlotEntry) :=
  (List.zip (List.range v.slots.length) v.slots).filter fun e => g.plan.slots.any fun p =>
    p.grad && p.layer = e.2.layer && p.proj = e.2.proj && g.plan.models[p.model]? = some v.hdr.fp

/-- Tensor indices that a step writes: the covered slots' tensors, and the state area whole. -/
def stepIndices (g : Gyle) (v : Ver) : List Nat := ((stepSlots g v).flatMap fun e => [2 * e.1, 2 * e.1 + 1]) ++ stateIndices v

/-- Bytes that a commit of the gyle may write: every touched adapter's stepped tensors and its state area (R155). -/
def commitBytes (s : State) (g : Gyle) : Nat :=
  (g.touched.map fun a => match (s.cat.adapter a).cur with
    | some v => writeBytes v (stepIndices g v) true
    | none => 0).sum

/-! ### The optimizer step -/

/-- The FP32 values of a row of a stored factor, padding left out. A value beyond the FP32 range counts as an infinity: the model's
choice (log entry 47). -/
def rowValues (fmt n real : Nat) (row : List Byte) : List F32 := (List.range real).map fun i => toF32 (rowElem fmt n row i)

/-- The rows of values of tensor `j` (0 shrink side, 1 expand side) of a slot: factor rows in stored order, or a vector as
one row (R40). -/
def tensorRows (v : Ver) (e : SlotEntry) (n j : Nat) : List (List F32) :=
  let bs := ((v.tensor (2 * n + j)).map (·.bytes)).getD []
  if v.hdr.form = .member then
    let len := if j = 0 then e.rank else e.outW
    [(List.range len).map (vecElem v.hdr.vecFmt bs)]
  else if j = 0 then
    (List.range e.rank).map fun r => rowValues e.aFmt e.inW e.inW ((bs.drop (r * rowBytes e.aFmt e.inW)).take (rowBytes e.aFmt e.inW))
  else
    let p := padRank e.rank
    (List.range e.outW).map fun r => rowValues e.bFmt p e.rank ((bs.drop (r * rowBytes e.bFmt p)).take (rowBytes e.bFmt p))

/-- The stored bytes of new rows of values (R58). -/
def encodeRows (v : Ver) (e : SlotEntry) (j : Nat) (rows : List (List F32)) (g : Rng) : List Byte × Rng :=
  if v.hdr.form = .member then writeVec v.hdr.vecFmt rows.flatten g
  else writeRows (if j = 0 then e.aFmt else e.bFmt) rows g

/-- Elements of a state array. -/
def stateValues (fmt : Nat) (bs : List Byte) (n : Nat) : List F32 := (List.range n).map (streamAt fmt bs)

/-- One step over a tensor's elements (R57): new values and new state arrays. -/
def stepElems (opt : Nat) (h : HpRec) (b1t b2t : F32) (gs thetas : List F32) (arrs : List (List F32)) : List F32 × List (List F32) :=
  let n := thetas.length
  let at_ := fun (xs : List F32) (i : Nat) => xs.getD i 0
  let a0 := arrs.getD 0 []
  let a1 := arrs.getD 1 []
  if opt = 2 then
    let rs := (List.range n).map fun i => adamStep h b1t b2t (at_ gs i) (at_ thetas i) (at_ a0 i) (at_ a1 i)
    (rs.map (·.2.2), [rs.map (·.1), rs.map (·.2.1)])
  else
    let rs := (List.range n).map fun i => sgdStep h (at_ gs i) (at_ thetas i) (at_ a0 i)
    (rs.map (·.2), [rs.map (·.1)])

/-- Cut values back into rows of a length. -/
def cutRows (k : Nat) (xs : List F32) : List (List F32) := chunksOf k xs.length xs

/-- The step's running state: tensors written so far, state arrays to write, the generator. -/
structure StepAcc where
  tensors : List Tensor
  arrays : List (Nat × List F32)
  rng : Rng

/-- Step one tensor of a slot: its new bytes, with its CRC-64 (R248), and its new state values. -/
def stepTensor (v : Ver) (st : StateArea) (h : HpRec) (b1t b2t clip norm : F32) (hold : GradHold) (n : Nat) (e : SlotEntry)
    (acc : StepAcc) (j : Nat) : StepAcc :=
  let idx := 2 * n + j
  let rows := tensorRows v e n j
  let thetas := rows.flatten
  let per := arraysPer st.optKind
  let arrs := (List.range per).map fun k => stateValues st.stateFmt (st.arrays.getD (idx * per + k) []) thetas.length
  let gs := ((tget [] hold.grads idx) ++ List.replicate thetas.length 0).take thetas.length
  let r := stepElems st.optKind h b1t b2t (gs.map (clipGrad clip norm)) thetas arrs
  let w := encodeRows v e j (cutRows ((rows.headD []).length) r.1) acc.rng
  { tensors := acc.tensors ++ [{ index := idx, bytes := w.1, crc := crc64 w.1, writer := v.version + 1 }]
    arrays := acc.arrays ++ (List.zip (List.range per) r.2).map fun x => (idx * per + x.1, x.2), rng := w.2 }

/-- The state arrays of the stepped tensors, in the order of R149, after every tensor (R60). -/
def writeArrays (fmt : Nat) : List (Nat × List F32) → List (List Byte) → Rng → List (List Byte) × Rng
  | [], bs, g => (bs, g)
  | (i, xs) :: t, bs, g =>
    let w := writeVec fmt xs g
    writeArrays fmt t (bs.set i w.1) w.2

/-- Every gradient element of an adapter's hold (R56). -/
def holdElems (h : GradHold) : List F32 := h.grads.flatMap (·.2)

/-- The hyperparameters that a version's step uses: its own record, or its tenant's (R150, R162). -/
def stepHp (s : State) (v : Ver) (st : StateArea) : HpRec := if st.inherit then tget {} s.train.hp v.hdr.tenant else st.hp

/-- The version that a step makes of `v` (R57, R155), and the generator after its draws. -/
def stepVersion (s : State) (g : Gyle) (v : Ver) (st : StateArea) (hold : GradHold) (rng : Rng) : Ver × Rng :=
  let h := stepHp s v st
  let b1t := if st.optKind = 2 then fmul st.b1t h.beta1 else st.b1t
  let b2t := if st.optKind = 2 then fmul st.b2t h.beta2 else st.b2t
  let norm := gradNorm s.freeCtr (holdElems hold)
  let acc := (stepSlots g v).foldl (fun acc e =>
    [0, 1].foldl (stepTensor v st h b1t b2t h.clip norm hold e.1 e.2) acc) ⟨[], [], rng⟩
  let arrs := writeArrays st.stateFmt acc.arrays st.arrays acc.rng
  let st := ({ st with lastTrainSeq := g.trainSeq, stepCount := sat 64 (st.stepCount + 1), b1t, b2t } : StateArea).withArrays arrs.1
  let kept := v.tensors.filter fun t => !(acc.tensors.any fun x => x.index = t.index)
  ({ v with version := v.version + 1, hdr := { v.hdr with version := v.version + 1 }, tensors := kept ++ acc.tensors
            state := some st, pubSeq := 0, byPublish := false, inT4 := false, inT2 := false, lost := [], stateFreed := false
            origin := none, t4Gone := [] }, arrs.2)

/-! ### Outcomes (R154) -/

/-- The adapter's home left this block at a cutover after the gyle's opening (Table 7.6), whether or not it came back. -/
def leftHome (s : State) (g : Gyle) (a : AdapterId) : Bool := !homedHere s a || g.openSeq < tget 0 s.homes.departed a

/-- The outcome of one adapter, in the order of Table 7.6. -/
def commitOutcome (s : State) (g : Gyle) (hold : GradHold) : Nat :=
  let x := s.cat.adapter hold.adapter
  let v : Ver := x.cur.getD {}
  let st : StateArea := v.state.getD {}
  if s.cat.epoch ≠ g.epoch then 0x6
  else if x.retired then 0x4
  else if leftHome s g hold.adapter then 0x5
  else if g.trainSeq ≤ st.lastTrainSeq then 0x1
  else if hold.version < x.lastPublish then 0x2
  else if regFld s pgTrain 0x080 0 8 < v.version - hold.version then 0x3
  else if !isFin32 (gradNorm s.freeCtr (holdElems hold)) then 0x7
  else if v.version = 0xFFFFFFFFFFFE then 0x8
  else 0x0

/-- What a run gathers: outcomes with the version made or current, the prepared versions, the generator. -/
structure RunAcc where
  outcomes : List (AdapterId × Nat × Nat)
  prepared : List (AdapterId × Ver)
  rng : Rng

/-- One adapter of a run. -/
def runAdapter (s : State) (g : Gyle) (acc : RunAcc) (hold : GradHold) : RunAcc :=
  let v : Ver := (s.cat.adapter hold.adapter).cur.getD {}
  let code := commitOutcome s g hold
  match code, v.state with
  | 0, some st =>
    let r := stepVersion s g v st hold acc.rng
    { outcomes := acc.outcomes ++ [(hold.adapter, 0, r.1.version)], prepared := acc.prepared ++ [(hold.adapter, r.1)], rng := r.2 }
  | _, _ => { acc with outcomes := acc.outcomes ++ [(hold.adapter, code, v.version)] }

/-- The gradient holds of a gyle's touched adapters, in ascending adapter ID; that of an adapter purged since is gone (R411). -/
def holdsOf (s : State) (g : Gyle) : List GradHold :=
  (sortBy (fun (a b : Nat) => a < b) g.touched).map fun a =>
    (s.train.hold.find? fun h => h.gk = g.key && h.adapter = a).getD { gk := g.key, adapter := a }

/-! ### `TRAIN_COMMIT` and `TRAIN_ABORT` -/

/-- The gyle is a held training gyle whose commit has not been accepted (R153, Table 13.10). -/
def committable (s : State) (k : GyleKey) : Bool :=
  match s.gyle k with
  | some g => g.kind = .training && g.held && !g.commitAccepted
  | none => false

/-- The cellar and the dirty cap can take the commit (R155). -/
def commitFits (s : State) (k : GyleKey) : Bool :=
  match s.gyle k with
  | some g =>
    let n := commitBytes s g
    n ≤ ullageFree s && g.touched.length ≤ freeCount s + comingIndices s + (indexVictims s g.touched).length &&
      (dirtyCap s = 0 || dirtyBytes s + n ≤ dirtyCap s)
  | none => false

/-- The acceptance of a commit: ullage, dirty space and cask indices are reserved (R155, R163); victims leave for the indices. -/
def acceptCommit (c : Nat) (fr : Front) (d : Desc) (s : State) : State :=
  let k := ownGyle c d.gyle
  match s.gyle k with
  | none => s
  | some g =>
    let n := commitBytes s g
    let s := makeIndices (setGyle s { g with commitAccepted := true }) g.touched.length g.touched
    let s := { s with train := { s.train with commits := s.train.commits ++
      [{ gk := k, sqIndex := fr.sqIndex, report := d.addr, seq := s.gauger.seq, ullage := n, through := dirtyCap s = 0
         indices := g.touched.length, dirtyReserved := if dirtyCap s = 0 then 0 else n }] } }
    acceptLater s c { opcode := d.opcode, sqIndex := fr.sqIndex, gyle := d.gyle, seq := s.gauger.seq }

/-- `TRAIN_COMMIT` (R153, R155). -/
def trainCommit (c : Nat) (s : State) : State :=
  onFront c 0x21 s fun fr d _ =>
    decideCmd s c fr d
      (firstBad [stateStatus s c d.opcode, needState (committable s (ownGyle c d.gyle)),
        need (commitFits s (ownGyle c d.gyle)) stNoSpace])
      (acceptCommit c fr d)

def execTrainCommit (c : Fin 64) (s : State) : Host.Outcome State Fault Refusal := .next (trainCommit c s)

/-- The gyle is a training gyle whose commit has not been accepted (R158). -/
def abortable (s : State) (k : GyleKey) : Bool :=
  match s.gyle k with
  | some g => g.kind = .training && !g.commitAccepted
  | none => false

/-- A training gyle ends before its completion: its work is dropped, its number freed, and its accepted `GYLE_CLOSE` completes
`CANCELLED` at a sequence of its own (R158). -/
def endTraining (s : State) (g : Gyle) : State :=
  let c := g.key.owner
  let s := dropXfers s fun u => u = .account c g.key.num || match u with
    | .rowMap d n _ => d = c && n = g.key.num
    | _ => false
  let s := tearGyle s g
  match g.closeSq with
  | some sq =>
    if g.held || g.completing then s
    else afterCmd (postRecord (stamp s) c 0x03 stCancelled (gyleFlags s g) sq g.key.num (gyleResult g) none) c
  | none => s

/-- The abort at the present event: its own completion first (R158). -/
def acceptAbort (c : Nat) (fr : Front) (d : Desc) (s : State) : State :=
  match s.gyle (ownGyle c d.gyle) with
  | none => s
  | some g => endTraining (doneCmd s c fr d []) g

/-- `TRAIN_ABORT` (R158). -/
def trainAbort (c : Nat) (s : State) : State :=
  onFront c 0x22 s fun fr d _ =>
    decideCmd s c fr d (firstBad [stateStatus s c d.opcode, needState (abortable s (ownGyle c d.gyle))]) (acceptAbort c fr d)

def execTrainAbort (c : Fin 64) (s : State) : Host.Outcome State Fault Refusal := .next (trainAbort c s)

/-! ### The run and the publication -/

/-- An accepted commit of a gyle. -/
def commitOf (s : State) (k : GyleKey) : Option Commit := s.train.commits.find? fun x => x.gk = k

/-- Change the commit of a gyle. -/
def modCommit (s : State) (k : GyleKey) (f : Commit → Commit) : State :=
  { s with train := { s.train with commits := s.train.commits.map fun x => if x.gk = k then f x else x } }

/-- An adapter of the gyle is in its racking freeze (Table 10.5, step 6). -/
def touchesFrozen (s : State) (g : Gyle) : Bool :=
  match s.homes.rack with
  | some r => r.phase = 3 && g.touched.contains r.adapter
  | none => false

/-- The commit must wait (R156): an earlier one that shares an adapter is not yet published, or an adapter is in its racking
freeze. -/
def commitWaits (s : State) (g : Gyle) (x : Commit) : Bool :=
  (s.train.commits.any fun y => y.seq < x.seq && !y.published && match s.gyle y.gk with
    | some o => o.touched.any g.touched.contains
    | none => false) || touchesFrozen s g

/-- A commit writes through from here on (R161): the journal records of its prepared versions wait at the kiln. -/
def startThrough (s : State) (k : GyleKey) (prepared : List (AdapterId × Ver)) : State :=
  let s := modCommit s k fun x => { x with through := true }
  { s with kiln := { s.kiln with pending := s.kiln.pending ++ prepared.map fun p => .dirty p.1 p.2.version } }

/-- T2 and T4 hold all that a write-through commit wrote (R161); what a purge has dropped is not awaited. -/
def throughHeld (s : State) (x : Commit) : Bool :=
  x.prepared.isEmpty || (x.t2Held && !x.prepared.any fun p => s.kiln.pending.any (· = .dirty p.1 p.2.version))

/-- The run of a commit (R56 to R60, R154): every outcome is decided and every new version prepared. A write-through commit
then waits for T2 and the kiln (R161). -/
def commitRun (c num : Nat) (s : State) : State :=
  let k := ownGyle c num
  match s.gyle k, commitOf s k with
  | some g, some x =>
    if x.ran || commitWaits s g x || interiorHeld s || pairAway s 3 then s
    else
      let s := stamp s
      let r := (holdsOf s g).foldl (runAdapter s g) ⟨[], [], Rng.seed g.trainSeed⟩
      let s := modCommit (bumpFree s) k fun x => { x with ran := true, outcomes := r.outcomes, prepared := r.prepared }
      if x.through || dirtyCap s = 0 then startThrough s k r.prepared else s
  | _, _ => s

/-- What became of a prepared version between the run and the publication (R156): 0 when it stands. -/
def latePublish (s : State) (g : Gyle) (p : AdapterId × Ver) : Nat :=
  let x := s.cat.adapter p.1
  if s.cat.epoch ≠ g.epoch then 0x6
  else if x.retired then 0x4
  else if leftHome s g p.1 then 0x5
  else if x.current + 1 ≠ p.2.version then 0x2
  else 0x0

/-- The outcomes as the publication leaves them (R156): a `PUBLISH` since the run supersedes a step that made no version too, where Table
7.6 tests for it before the outcome that the run decided. -/
def finalOutcomes (s : State) (g : Gyle) (x : Commit) : List (AdapterId × Nat × Nat) :=
  x.outcomes.map fun o => match x.prepared.find? fun p => p.1 = o.1 with
    | some p =>
      let code := latePublish s g p
      if code = 0 then o else (o.1, code, (s.cat.adapter o.1).current)
    | none =>
      if [0x3, 0x7, 0x8].contains o.2.1 && o.2.2 < (s.cat.adapter o.1).lastPublish then (o.1, 0x2, (s.cat.adapter o.1).current) else o

/-- Adapters with an outcome of a list. -/
def countOutcomes (os : List (AdapterId × Nat × Nat)) (codes : List Nat) : Nat := (os.filter fun o => codes.contains o.2.1).length

/-- `CFLAGS` of a commit's completion (R157). -/
def commitFlags (os : List (AdapterId × Nat × Nat)) : Nat :=
  flag (countOutcomes os [0x2, 0x3, 0x6] ≠ 0) 6 + flag (countOutcomes os [0x7] ≠ 0) 8

/-- The result area of a commit's completion (Table 13.7). -/
def commitResult (os : List (AdapterId × Nat × Nat)) : List Byte :=
  leBytes 4 (countOutcomes os [0x0]) ++ leBytes 4 (countOutcomes os [0x1]) ++
    leBytes 4 (countOutcomes os [0x2, 0x3, 0x4, 0x5, 0x6, 0x7, 0x8])

/-- The outcome report (R157). -/
def reportBytes (os : List (AdapterId × Nat × Nat)) : List Byte :=
  os.flatMap fun o => leBytes 3 o.1 ++ leBytes 1 o.2.1 ++ leBytes 6 o.2.2 ++ List.replicate 6 0

/-- A prepared version is published (R155); with write-through it is clean at once (R161). -/
def publishStep (g : Gyle) (through : Bool) (s : State) (p : AdapterId × Ver) : State :=
  let v := if through then { p.2 with inT4 := true, inT2 := true } else p.2
  -- the old version's state is freed at publication; T4 keeps that of a restore point (R343)
  let old := (s.cat.adapter p.1).current
  modVer (installVersion s v (stepIndices g v) true (!through)) p.1 old fun y => { y with
    state := if y.inT4 && !through then y.state else none, stateFreed := y.trainable }

/-- `NONFINITE_NORM` counts the training sequence as applied (R56). -/
def noteNonfinite (g : Gyle) (s : State) (o : AdapterId × Nat × Nat) : State :=
  if o.2.1 = 0x7 then
    modVer s o.1 (s.cat.adapter o.1).current fun v => { v with state := v.state.map fun st => { st with lastTrainSeq := max st.lastTrainSeq g.trainSeq } }
  else s

/-- The publication of a commit (R155 to R157): every new version at one sequence; the report, then the completion once the
lease holders have answered (R215); reservations are given back. Whether a commit writes through is decided at the latest here, by the
cap in force (log entry 50). It waits for the indices that its victims give. -/
def commitPublish (c num : Nat) (s : State) : State :=
  let k := ownGyle c num
  match s.gyle k, commitOf s k with
  | some g, some x =>
    let n := (x.prepared.filter fun p => latePublish s g p = 0).length
    if !x.ran || x.published || touchesFrozen s g then s
    else if !x.through && dirtyCap s = 0 && !x.prepared.isEmpty then startThrough s k x.prepared
    else if x.through && !throughHeld s x then s
    else if 4096 < s.cellar.casks.length + n then makeIndices s 0 g.touched
    else
      let s := stamp s
      let os := finalOutcomes s g x
      let ok := x.prepared.filter fun p => latePublish s g p = 0
      let s := modCommit s k fun x => { x with published := true, ullage := 0, dirtyReserved := 0, indices := 0,
                                                  outcomes := os, prepared := [] }
      let olds := ok.map fun p => (p.1, (s.cat.adapter p.1).current)
      let r := revokeAll (ok.foldl (publishStep g x.through) s) olds
      let s := os.foldl (noteNonfinite g) r.1
      let s := { s with train := { s.train with
        hold := s.train.hold.filter (·.gk ≠ k)
        applied := sat 32 (s.train.applied + countOutcomes os [0x0])
        dropped := sat 32 (s.train.dropped + countOutcomes os [0x2, 0x3, 0x4, 0x5, 0x6, 0x7, 0x8]) } }
      let s := { s with homes := { s.homes with supersedes := s.homes.supersedes ++
        [{ waiting := r.2, ready := x.report = 0 || os.isEmpty, ctx := some c, sqIndex := x.sqIndex, status := stDone, opcode := 0x21
           cflags := commitFlags os, gyle := num, result := commitResult os }] } }
      let s := if x.report = 0 || os.isEmpty then s
        else startXfer s (.report c num) true x.report (16 * os.length) (reportBytes os)
      endSupersedes s
  | _, _ => s

/-- `COMMIT_PUBLISH` (R155, R157). -/
def execCommitPublish (c : Fin 64) (gyle : BitVec 16) (s : State) : Host.Outcome State Fault Refusal :=
  .next (commitPublish c gyle.toNat s)

/-- The report of a commit has been written: its completion may follow (R157). -/
def reportWritten (s : State) (c num : Nat) : State :=
  let mine := fun (w : Supersede) => w.ctx = some c && w.gyle = num && w.opcode = 0x21
  let ws := s.homes.supersedes.map fun w => if mine w then { w with ready := true } else w
  endSupersedes { s with homes := { s.homes with supersedes := ws } }

/-! ### Hyperparameter records -/

/-- The record that the staging registers `TRAIN_HP_DATA0` to `TRAIN_HP_DATA3` hold (Table 7.13). -/
def stagedHp (s : State) : HpRec :=
  hpFields ([0x0A8, 0x0B0, 0x0B8, 0x0C0].flatMap fun off => leBytes 8 (reg s pgTrain off).toNat) 0

/-- The value of a write of `TRAIN_HP_INDEX` with an operation and a tenant (Table 7.12). -/
def hpWord (op tenant : Nat) : Word64 := BitVec.ofNat 64 (op * 2 ^ 12 + tenant)

/-- A store is refused whole unless the staged record satisfies R150. -/
def hpStoreCheck (s : State) : Option Nat := if (stagedHp s).ok then none else some stBadField

/-- The staged record becomes the tenant's (R162). -/
def hpStoreEffect (tenant : Nat) (s : State) : State :=
  { s with train := { s.train with hp := tset {} s.train.hp tenant (stagedHp s) } }

/-- The tenant's record goes to the staging registers. -/
def hpLoadEffect (tenant : Nat) (s : State) : State :=
  let bs := (tget {} s.train.hp tenant : HpRec).bytes
  (List.zip [0x0A8, 0x0B0, 0x0B8, 0x0C0] [0, 8, 16, 24]).foldl (fun t x =>
    setReg t pgTrain x.1 (BitVec.ofNat 64 (le bs x.2 8))) s

/-- The accepted write of `TRAIN_HP_INDEX`: `HP_TENANT` is stored, then the operation runs. -/
def hpWrite (v : Word64) (s : State) : State :=
  let s := storeReg pgTrain 0x0A0 v s
  match fld v 12 2 with
  | 1 => hpStoreEffect (fld v 0 12) s
  | 2 => hpLoadEffect (fld v 0 12) s
  | _ => s

/-- The check of that write. -/
def hpCheck (v : Word64) (s : State) : Option Nat := if fld v 12 2 = 1 then hpStoreCheck s else none

/-- `HP_STORE` (R150, R162): the write of `HP_OP` 0b01. -/
def execHpStore (tenant : Fin 4096) (role : Role) (s : State) : Host.Outcome State Fault Refusal :=
  .next (busWrite pgTrain 0x0A0 (hpWord 1 tenant) role (hpCheck (hpWord 1 tenant)) (hpWrite (hpWord 1 tenant)) s)

/-- `HP_LOAD` (R162): the write of `HP_OP` 0b10. -/
def execHpLoad (tenant : Fin 4096) (role : Role) (s : State) : Host.Outcome State Fault Refusal :=
  .next (busWrite pgTrain 0x0A0 (hpWord 2 tenant) role (hpCheck (hpWord 2 tenant)) (hpWrite (hpWord 2 tenant)) s)

end Sys2Proof.Machine
end

