-- ==== Sys2Proof/Machine/Memory.lean ====
section
/-! DEFINITION. What arrives at the memory ports (R439, R440): read data of descriptors, of the structures they point to and of
row maps (R61, R269, R279); write responses of completion records, accounts and reports (R157, R270, R291); and error
responses (recovery level 1). -/
namespace Sys2Proof.Machine

/-! ### Reading what a descriptor points to -/

/-- The next part of a catalogue image to read after `img` (R235): the header, the records, then each record's data. -/
def epochNext (addr : Nat) (img : List Byte) : Option (Nat × Nat) :=
  let rc := le img 4 4
  if img.length < 64 then some (addr, 64)
  else if img.length < 64 + 16 * rc then some (addr + 64, 16 * rc)
  else
    let step := fun (acc : Nat × Option (Nat × Nat)) (i : Nat) =>
      let n := le img (64 + 16 * i + 4) 4
      (acc.1 + n, if acc.2.isNone && acc.1 = img.length && n ≠ 0 then some (le img (64 + 16 * i + 8) 8, n) else acc.2)
    ((List.range rc).foldl step (64 + 16 * rc, none)).2

/-- The next part of the structure that a descriptor points to: address and bytes; none once it is whole. -/
def nextPart (d : Desc) (img : List Byte) : Option (Nat × Nat) :=
  match d.opcode with
  | 0x04 =>
    if img.length < 64 then some (d.addr, 64)
    else if img.length < planBytes (le img 10 1) (le img 8 2) then
      some (d.addr + 64, planBytes (le img 10 1) (le img 8 2) - 64)
    else none
  | 0x30 =>
    let n := if d.pubKind = 1 then d.length else 32 * d.length
    if img.length < n then some (d.addr, n) else none
  | 0x32 => epochNext d.addr img
  | _ => none

/-- Read on, or hold the structure whole for the command's decision. -/
def readOn (s : State) (c : Nat) (fr : Front) (d : Desc) : State :=
  match nextPart d fr.got with
  | some (addr, n) => startXfer (modCtx s c fun x => { x with front := some fr }) (.image c) false addr n []
  | none => modCtx s c fun x => { x with front := some { fr with image := some fr.got } }

/-- A descriptor has arrived (R269, R278 to R281): refused when its own fields are bad, or the structure that it points to is
read. -/
def descArrived (s : State) (c : Nat) (bs : List Byte) : State :=
  match (s.ctx c).front with
  | none => s
  | some fr =>
    match decodeDesc (rackSize s) bs with
    | .error b => refuseCmd s c fr (le bs 0 1) (le bs 4 2) b
    | .ok d => readOn s c { fr with desc := some d } d

/-- A part of the structure has arrived. -/
def imageArrived (s : State) (c : Nat) (bs : List Byte) : State :=
  match (s.ctx c).front with
  | none => s
  | some fr => match fr.desc with
    | none => s
    | some d => readOn s c { fr with got := fr.got ++ bs } d

/-- Row-map entries join the gyle's in row order: data of later rows waits for that of earlier ones (R61). -/
def takeMaps (g : Gyle) : Gyle :=
  g.maps.foldl (fun g e =>
    if e.1 = g.entriesRead then
      let es := chunksOf 16 e.2.length e.2
      { g with entries := g.entries ++ es, entriesRead := g.entriesRead + es.length, maps := tdel e.1 g.maps }
    else g) g

/-- Row-map data has arrived. -/
def rowMapArrived (s : State) (c num first : Nat) (bs : List Byte) : State :=
  modGyle s (ownGyle c num) fun g => takeMaps { g with maps := tput first bs g.maps }

/-- A read of a use is complete. -/
def readDone (s : State) (use : MemUse) (bs : List Byte) : State :=
  match use with
  | .descriptor c => descArrived s c bs
  | .image c => imageArrived s c bs
  | .rowMap c num first => rowMapArrived s c num first bs
  | .completion _ | .account _ _ | .report _ _ | .spill _ => s

/-! ### Writing completions -/

/-- Records written at the head of the context's posted ones: `CQ_TAIL` passes each, its reservation is consumed, and
`COMPLETION` is raised at its `CMP_SEQ` (R270), or at this event where the driver has acknowledged that sequence already
(log entry 14); the gyle that it completes is complete (R9). -/
def passRecords (c : Nat) : List Posted → State → State
  | [], s => s
  | p :: ps, s =>
    if p.done then
      let s := modCtx s c fun x => { x with
        cqTail := (x.cqTail + 1) % 2 ^ 32, cqResv := x.cqResv - 1, posted := ps }
      let s := raiseAt s (pgCtx c) 0 (if (s.page (pgCtx c)).ack < p.cmpSeq then p.cmpSeq else s.gauger.seq)
      let s := match p.gyle with
        | some n => completeGyle s (ownGyle c n)
        | none => s
      passRecords c ps s
    else s

/-- The teardown of a context is done once every record that it posted has been written (R273). -/
def noteTeardown (s : State) (c : Nat) : State :=
  modCtx s c fun x => { x with
    teardownDone := x.teardownDone || ((x.st = .faulted || x.st = .resetting) && x.posted.isEmpty) }

/-- The write of a completion record has been answered. -/
def recordWritten (s : State) (c xfer : Nat) : State :=
  let s := modCtx s c fun x => { x with posted := x.posted.map fun p => if p.xfer = xfer then { p with done := true } else p }
  afterCmd (noteTeardown (passRecords c (s.ctx c).posted s) c) c

/-- A write of a use is complete. -/
def writeDone (s : State) (xfer : Nat) (use : MemUse) : State :=
  match use with
  | .completion c => recordWritten s c xfer
  | .account c num =>
    postGyle (stamp s) (ownGyle c num)
  | .report c num => reportWritten s c num
  | .descriptor _ | .image _ | .rowMap .. | .spill _ => s

/-! ### Responses -/

/-- A request of a port by its `MQ_ID`. -/
def findReq (s : State) (port id : Nat) (write : Bool) : Option MemReq :=
  (tget {} s.boundary.mem port : MemPort).outstanding.find? fun r => r.id = id && r.write = write

/-- A request leaves its port's table. -/
def dropReq (s : State) (port id : Nat) : State :=
  { s with boundary := { s.boundary with mem := tmod {} s.boundary.mem port fun m =>
    { m with outstanding := m.outstanding.filter fun r => r.id ≠ id } } }

/-- The fault of level 1 on a port ends once none of its requests is being repeated (R336). -/
def endPortFault (s : State) (port : Nat) : State :=
  if (tget {} s.boundary.mem port : MemPort).outstanding.any fun r => 0 < r.retries then s
  else endFault s (.port (pgMem port))

/-- Count bytes moved on a port. -/
def countBytes (s : State) (port : Nat) (r : MemReq) : State :=
  { s with boundary := { s.boundary with mem := tmod {} s.boundary.mem port fun m =>
    if r.write then { m with writeBytes := sat 64 (m.writeBytes + r.bytes) } else { m with readBytes := sat 64 (m.readBytes + r.bytes) } } }

/-- The chunk of a request joins its transfer; a transfer with no chunk left is complete. -/
def chunkDone (s : State) (r : MemReq) (data : List Byte) : State :=
  match s.boundary.xfers.find? fun x => x.id = r.xfer with
  | none => s
  | some x =>
    let x := { x with left := x.left - 1, got := if x.write then x.got else tput r.chunk (padTo r.bytes data) x.got }
    if x.left = 0 then
      let s := { s with boundary := { s.boundary with xfers := s.boundary.xfers.filter fun y => y.id ≠ r.xfer } }
      if x.write then writeDone s x.id x.use else readDone s x.use (x.got.flatMap (·.2))
    else { s with boundary := { s.boundary with xfers := s.boundary.xfers.map fun y => if y.id = r.xfer then x else y } }

/-- The `FAULT_CAUSE` of a transfer that failed for good, and its context (Table 12.6). -/
def xferCause : MemUse → Nat × Nat
  | .descriptor c => (c, 0x02)
  | .image c | .rowMap c _ _ => (c, 0x04)
  | .completion c | .account c _ | .report c _ => (c, 0x03)
  | .spill c => (c, 0x05)

/-- A transfer is given up. -/
def dropXfer (s : State) (id : Nat) : State :=
  { s with boundary := { s.boundary with xfers := s.boundary.xfers.filter fun y => y.id ≠ id } }

/-- The request writes a completion record. -/
def writesRecord (s : State) (r : MemReq) : Bool :=
  s.boundary.xfers.any fun x => x.id = r.xfer && match x.use with
    | .completion _ => true
    | _ => false

/-- Level 1 is exhausted: the transfer is given up and its context faults (R273, R336). -/
def xferFailed (s : State) (r : MemReq) (esc : Option Seq) : State :=
  match s.boundary.xfers.find? fun x => x.id = r.xfer with
  | none => s
  | some x =>
    let s := dropXfer s r.xfer
    faultCtx s (xferCause x.use).1 (xferCause x.use).2 0x0A esc

/-- An error response (R439, R449): level 1 repeats the request up to `RETRY_LIMIT` times. While a power-failure warning is handled, a
completion write that chip memory cannot take is dropped and raises no fault: neither its record nor a later one passes `CQ_TAIL`
(R376; log entry 51). -/
def memError (s : State) (port : Nat) (r : MemReq) : State :=
  let s := raise s (pgMem port) 1
  let s := { s with boundary := { s.boundary with mem := tmod {} s.boundary.mem port fun m => { m with errors := sat 32 (m.errors + 1) } } }
  if s.pace.pfw && writesRecord s r then retryWaiting (dropXfer (endPortFault (dropReq s port r.id) port) r.xfer)
  else
  let s := startFault s (.port (pgMem port)) 0x0A 1 []
  let id := (openFault s (.port (pgMem port))).map (·.id)
  if r.retries < retryLimit s then
    { s with boundary := { s.boundary with mem := tmod {} s.boundary.mem port fun m => { m with
      retries := sat 32 (m.retries + 1)
      outstanding := m.outstanding.map fun x => if x.id = r.id then { x with retries := x.retries + 1 } else x } } }
  else
    let s := endPortFault (dropReq s port r.id) port
    retryWaiting (xferFailed s r id)

/-- A response of a memory port: not due without such a request. -/
def memResponse (port id : Nat) (write : Bool) (data : List Byte) (check : LinkCheck) (s : State) : State :=
  match findReq s port id write with
  | none => s
  | some r =>
    if !domainPresent s (128 + port) then s else
    let s := noteParity (stamp s) check
    if check ≠ .ok then memError s port r
    else
      let s := dropReq s port id
      let s := if 0 < r.retries then endPortFault s port else s
      retryWaiting (chunkDone (countBytes s port r) r data)

/-- `READ_DATA` (R439). -/
def execReadData (port : Fin 32) (id : Fin 1024) (data : List Byte) (check : LinkCheck) (s : State) :
    Host.Outcome State Fault Refusal :=
  .next (memResponse port id false data check s)

/-- `WRITE_RESPONSE` (R440). -/
def execWriteResponse (port : Fin 32) (id : Fin 1024) (check : LinkCheck) (s : State) : Host.Outcome State Fault Refusal :=
  .next (memResponse port id true [] check s)

end Sys2Proof.Machine
end

