-- ==== Sys2Proof/Machine/Lanes.lean ====
section
/-! DEFINITION. The work of lane groups: components at a slot, the operations of R93, R95 and Table 7.3, fan-out and placement
(R83, R104), the deltas of Table 3.3 and the gradients of Table 7.1, and the substitution of late row-slots (R195). -/
namespace Sys2Proof.Machine

/-! ### Tuns -/

/-- Active tuns by logical index: (logical, physical), ascending. -/
def activeTuns (s : State) : List (Nat × Nat) :=
  sortBy (fun a b => a.1 < b.1) (s.tuns.filterMap fun e => match e.2.st, e.2.logical with
    | .active, some l => some (l, e.1)
    | _, _ => none)

/-- T of R83. -/
def tunCount (s : State) : Nat := (activeTuns s).length

/-- The handshakes queued on a tun (R104). -/
def backlog (s : State) (t : Nat) : Nat := ((s.tun t).queue.map (·.handshakes)).sum

/-- Active tuns by ascending backlog, ties by the lowest logical index: physical numbers (R104). -/
def tunsByBacklog (s : State) : List Nat :=
  (sortBy (fun (a b : Nat × Nat) => lexLt [backlog s a.2, a.1] [backlog s b.2, b.1]) (activeTuns s)).map (·.2)

/-- Issue is halted: a thermal halt, or a power-failure warning whose settling time is over (R308, R373, R376). -/
def issueHalted (s : State) : Bool := !s.glob.ready || s.pace.thermHalted || (s.pace.pfw && !s.pace.settling)

/-! ### Components at a slot -/

/-- A component as a lane group computes it at a slot: its index in the row's components, its version, the version that holds
its factors (its basis for a member), the slot numbers in both slot tables, and the factors' entry. -/
structure CompAt where
  idx : Nat
  c : Comp
  v : Ver
  fac : Ver
  own : Nat
  num : Nat
  e : SlotEntry

/-- The number and entry of a slot in a slot table. -/
def slotNum (es : List SlotEntry) (layer proj : Nat) : Option (Nat × SlotEntry) :=
  (List.zip (List.range es.length) es).find? fun x => x.2.layer = layer && x.2.proj = proj

/-- A component at a plan slot; none when its adapter does not list the slot (R13). -/
def compAt (s : State) (g : Gyle) (p : PlanSlot) (x : Nat × Comp) : Option CompAt :=
  match verOf s g.epoch x.2.adapter x.2.version with
  | none => none
  | some v =>
    let fac := (x.2.basis.bind fun b => verOf s g.epoch b.1 b.2).getD v
    match slotNum v.slots p.layer p.proj, slotNum fac.slots p.layer p.proj with
    | some o, some f => some ⟨x.1, x.2, v, fac, o.1, f.1, f.2⟩
    | _, _ => none

/-- A component has a non-zero weight and is not the zero adapter (R30). -/
def Comp.live (c : Comp) : Bool := c.weight &&& 0x7FFFFFFF ≠ 0 && c.adapter ≠ 0

/-- The indexed components of a list. -/
def indexed (cs : List Comp) : List (Nat × Comp) := List.zip (List.range cs.length) cs

/-- Components of a row's mixture that this block computes at a slot. -/
def localAt (s : State) (g : Gyle) (p : PlanSlot) (cs : List Comp) : List CompAt :=
  ((indexed cs).filter fun x => x.2.live && x.2.path = .here).filterMap (compAt s g p)

/-- Homes that compute part of a row's delta at a slot. -/
def farAtSlot (s : State) (g : Gyle) (p : PlanSlot) (cs : List Comp) : List Nat :=
  (cs.filterMap fun c => match c.path with
    | .farAt h => if c.live && (match verOf s g.epoch c.adapter c.version with
        | some v => (slotAt v.slots p.layer p.proj).isSome
        | none => false) then some h else none
    | .here => none).eraseDups

/-- The cask of a version is `RESIDENT`. -/
def caskResident (s : State) (epoch : Nat) (a : AdapterId) (v : Nat) : Bool :=
  match caskOf s epoch a v with
  | some i => (s.cask i).st = .resident
  | none => false

/-- The fallback adapter of a row as one component, when it passes R36 and its cask is `RESIDENT` (R195). The zero adapter passes
every check and is always resident (R17). -/
def fallbackComp (s : State) (g : Gyle) (r : Row) : Option Comp :=
  let a := (tget {} g.tenantRecs r.tenant).fallback
  if a = 0 then some { adapter := 0 }
  else match checkAdapter s g r.tenant r.model a with
    | .ok v b =>
      let whole := caskResident s g.epoch a v.version && match b with
        | some x => caskResident s g.epoch x.hdr.id x.version
        | none => true
      if whole then some { adapter := a, version := v.version, tenant := some r.tenant, basis := b.map fun x => (x.hdr.id, x.version) } else none
    | _ => none

/-- The components that serve a row at a slot as it stands: its own, or its fallback. -/
def servingComps (s : State) (g : Gyle) (r : Row) (x : RowSlot) : List Comp :=
  match x.served with
  | .own => r.comps
  | .fallback => (fallbackComp s g r).toList
  | .baseOnly => []

/-! ### Operations (R93 to R95, R142, R144) -/

/-- Ranges of `n` items, at most `k` at a time. -/
def ranges (n k : Nat) : List (Nat × Nat) :=
  (List.range (ceilDiv n (max k 1))).map fun i => (i * max k 1, min n ((i + 1) * max k 1))

/-- Handshakes of an operand row of `n` elements in a format. -/
def dots (fmt n : Nat) : Nat := ceilDiv n (dotElems fmt)

/-- The tenant under which the run of a component reads its factors (R326): that of its rows; a basis with the shared attribute is read
under its own, whatever tenant's members name it (log entry 62). -/
def CompAt.tenant (c : CompAt) : Nat := if c.fac.hdr.shared then c.fac.hdr.tenant else c.c.tenant.getD c.fac.hdr.tenant

/-- H of R94 for some components at a slot. -/
def handshakes (p : PlanSlot) (cs : List CompAt) : Nat :=
  (cs.map fun c => c.e.rank * dots c.e.aFmt p.inW + p.outW * dots c.e.bFmt (padRank c.e.rank)).sum

/-- The bytes that a tile reads of rows `lo` up to `hi` of a factor, elements `iLo` up to `iHi`: packed elements and scales. -/
def tileParts (c : CompAt) (side fmt n lo hi iLo iHi : Nat) : List TilePart :=
  let base : TilePart := { adapter := c.fac.hdr.id, version := c.fac.version, tenant := c.tenant,
                           tensor := 2 * c.num + side, layer := c.e.layer, proj := c.e.proj, side }
  if iLo = 0 && n ≤ iHi then [{ base with fromByte := lo * rowBytes fmt n, toByte := hi * rowBytes fmt n }]
  else (List.range (hi - lo)).flatMap fun i =>
    let o := (lo + i) * rowBytes fmt n
    [{ base with fromByte := o + packedBytes fmt iLo, toByte := o + packedBytes fmt iHi }] ++
      (if hasScale fmt then [{ base with fromByte := o + packedBytes fmt n + iLo / 32, toByte := o + packedBytes fmt n + ceilDiv iHi 32 }]
       else [])

/-- What every operation of a lane group at a slot carries. -/
structure OpCtx where
  gk : GyleKey
  slot : Nat
  segment : Nat
  group : Nat
  sub : Bool := false

/-- An operation of the group. -/
def OpCtx.op (x : OpCtx) (kind : OpKind) (order : Nat) (comps : List (Nat × List Nat)) (fill : List Nat) : Op :=
  { gk := x.gk, slot := x.slot, segment := x.segment, group := x.group, kind, order, comps, fill
    rows := (comps.flatMap (·.2)).eraseDups, sub := x.sub }

/-- Bytes per element of a transposed tile as it is delivered (R182). -/
def delivBytes (fmt : Nat) : Nat := if fmt = 1 || fmt = 2 then 1 else 2

/-- The bytes that one tile may take: half of the factor buffer (R95). -/
def tileMax : Nat := 262144

/-- Cut `[lo, total)` into tiles: the whole rest where it fits, else `k` items and so on. -/
def cutFrom (fits : Nat → Nat → Bool) (k total : Nat) : (fuel : Nat) → (lo : Nat) → List (Nat × Nat)
  | 0, _ => []
  | n + 1, lo =>
    if total ≤ lo then []
    else if fits lo total then [(lo, total)]
    else (lo, min total (lo + max k 1)) :: cutFrom fits k total n (lo + max k 1)

/-- Bytes of `w` elements of one rank row of a shrink tile. -/
def widthBytes (transposed : Bool) (fmt w : Nat) : Nat := if transposed then w * delivBytes fmt else rowBytes fmt w

/-- The width ranges of a shrink tile of `n` rank rows: the whole width when it fits, else whole block-dots, as many as fit (R95,
R182). -/
def widthRanges (transposed : Bool) (fmt n w : Nat) : List (Nat × Nat) :=
  let k := dotElems fmt * max 1 (tileMax / max 1 (n * widthBytes transposed fmt (dotElems fmt)))
  cutFrom (fun lo hi => n * widthBytes transposed fmt (hi - lo) ≤ tileMax) k w (w + 1) 0

/-- The ranges of a tile of whole 64-output groups, `per` bytes an output; the last group may have 32 outputs (R95). -/
def groupRanges (per w : Nat) : List (Nat × Nat) :=
  cutFrom (fun lo hi => (hi - lo) * per ≤ tileMax) (64 * max 1 (tileMax / max 1 (64 * per))) w (w + 1) 0

/-- A component that a lane group computes, with the rows whose lanes it activates and the number of its run (R84). -/
structure Item where
  c : CompAt
  rows : List Nat
  run : Nat

/-- Rows of a lane group that share one list of components. -/
structure RunRows where
  rows : List Nat
  cs : List CompAt

/-- What a lane group computes, in the order of R93 and R142: component 0 once with all its rows, then components 1 to 3, each
once for each run (R84). -/
def groupItems (runs : List RunRows) : List Item :=
  let has := runs.filter fun r => r.cs.any (·.idx = 0)
  let prim := match (has.flatMap (·.cs)).find? (·.idx = 0) with
    | some c => [{ c, rows := has.flatMap (·.rows), run := 0 : Item }]
    | none => []
  prim ++ [1, 2, 3].flatMap fun j => (List.zip (List.range runs.length) runs).filterMap fun r =>
    (r.2.cs.find? (·.idx = j)).map fun c => { c, rows := r.2.rows, run := r.1 }

/-- Shrink operations of one item, `base` being the place of its rank rows in the sequence that cuts passes of 64, and `total` the
end of that sequence: one operation a tile. `transposed` gives the backward shrink against Bᵀ. -/
def shrinkOps (x : OpCtx) (order base total : Nat) (transposed : Bool) (i : Item) (w fmt : Nat) : List Op :=
  let k := i.c.e.rank
  let cuts := (List.range (k + 1)).filter fun n => n = 0 || n = k || (base + n) % 64 = 0
  (List.zip cuts (cuts.drop 1)).flatMap fun r =>
    (widthRanges transposed fmt (r.2 - r.1) w).map fun v =>
      { x.op (if transposed then .backShrink else .shrink) order [(i.c.idx, i.rows)]
          (if transposed then [order, i.c.idx, i.run, (base + r.1) / 64] else [order, (base + r.1) / 64]) with
        base, lo := r.1, hi := r.2, iLo := v.1, iHi := v.2, transposed
        endsPass := v.2 = w && ((base + r.2) % 64 = 0 || base + r.2 = total)
        handshakes := (r.2 - r.1) * dots fmt (v.2 - v.1)
        tile := if transposed then tileParts i.c 1 i.c.e.bFmt (padRank k) v.1 v.2 r.1 r.2
                else tileParts i.c 0 fmt w r.1 r.2 v.1 v.2 }

/-- The forward shrink side of a group: the rank rows of every item in a single sequence (R93). -/
def groupShrinks (x : OpCtx) (p : PlanSlot) (items : List Item) : List Op :=
  let total := (items.map (·.c.e.rank)).sum
  let step := fun (acc : Nat × List Op) (i : Item) =>
    (acc.1 + i.c.e.rank, acc.2 ++ shrinkOps x 1 acc.1 total false i p.inW i.c.e.aFmt)
  (items.foldl step (0, [])).2

/-- Bytes of the expand rows of some items for one output. -/
def outputBytes (is : List Item) : Nat := (is.map fun i => rowBytes i.c.e.bFmt (padRank i.c.e.rank)).sum

/-- Expand operations of some items that share tiles: whole 64-output groups, as many as fit (R95). -/
def expandOps (x : OpCtx) (order tag : Nat) (kind : OpKind) (is : List Item) (outW : Nat) : List Op :=
  (groupRanges (outputBytes is) outW).map fun r =>
    { x.op kind order (is.map fun i => (i.c.idx, i.rows)) [order, tag, r.1] with
      lo := r.1, hi := r.2, endsPass := true
      handshakes := (r.2 - r.1) * (is.map fun i => dots i.c.e.bFmt (padRank i.c.e.rank)).sum
      tile := is.flatMap fun i => tileParts i.c 1 i.c.e.bFmt (padRank i.c.e.rank) r.1 r.2 0 (padRank i.c.e.rank) }

/-- Items whose expand rows share a tile: every computed component of the group's runs, as long as one 64-output group of them
fits a tile. -/
def batchItems : List Item → List Item → List (List Item)
  | cur, [] => if cur.isEmpty then [] else [cur]
  | cur, i :: is =>
    if cur.isEmpty || 64 * outputBytes (cur ++ [i]) ≤ tileMax then batchItems (cur ++ [i]) is
    else cur :: batchItems [i] is

/-- The operations of a serving lane group (R93). -/
def servingOps (x : OpCtx) (p : PlanSlot) (runs : List RunRows) : List Op :=
  let items := groupItems runs
  let bs := batchItems [] items
  groupShrinks x p items ++ (List.zip (List.range bs.length) bs).flatMap fun b => expandOps x 2 b.1 .expand b.2 p.outW

/-- Which tensors a component trains in a gyle: its own, its basis's, or none (R136, R139, R140). -/
inductive Trains where
  | none | own | basis
  deriving DecidableEq, Repr

/-- What the rows of a component train. -/
def trains (g : Gyle) (c : CompAt) : Trains :=
  if c.c.frozen then .none
  else if c.v.hdr.form = .member then
    (if g.trainBasis && g.touched.contains c.fac.hdr.id then .basis else if c.v.trainable then .own else .none)
  else if c.v.trainable then .own else .none

/-- What one row trains through a component of its lane group: a row of the group may be frozen where others are not (R136). -/
def rowTrains (g : Gyle) (c : CompAt) (row : Nat) : Trains :=
  match (tget {} g.rows row : Row).comps[c.idx]? with
  | some k => trains g { c with c := k }
  | none => .none

/-- The rows of an item that train its factors: a direct adapter's own, or a basis. -/
def factorRows (g : Gyle) (i : Item) : List Nat :=
  i.rows.filter fun r => match rowTrains g i.c r with
    | .none => false
    | .own => i.c.v.hdr.form ≠ Form.member
    | .basis => true

/-- The factor-gradient operations of an item (orders 5 and 6): at most 8,192 handshakes each, whole 64-element tiles (R144). -/
def gradOps (x : OpCtx) (g : Gyle) (p : PlanSlot) (side : Nat) (i : Item) : List Op :=
  let rows := factorRows g i
  let n := if side = 0 then i.c.e.rank * p.inW else p.outW * padRank i.c.e.rank
  if rows.isEmpty then []
  else (ranges n (32 * 8192)).map fun r =>
    { x.op (if side = 0 then .gradA else .gradB) (5 + side) [(i.c.idx, rows)] [5 + side, i.c.idx, i.run, r.1] with
      lo := r.1, hi := r.2, handshakes := ceilDiv (r.2 - r.1) 32, endsPass := true }

/-- The activation-gradient operations of an item (order 4): tiles of Aᵀ for whole groups of 64 inputs. -/
def actGradOps (x : OpCtx) (p : PlanSlot) (i : Item) : List Op :=
  let c := i.c
  (groupRanges (c.e.rank * delivBytes c.e.aFmt) p.inW).map fun r =>
    { x.op .actGrad 4 [(c.idx, i.rows)] [4, c.idx, i.run, r.1] with
      lo := r.1, hi := r.2, endsPass := true, transposed := true
      handshakes := (r.2 - r.1) * dots c.e.aFmt (padRank c.e.rank), tile := tileParts c 0 c.e.aFmt p.inW 0 c.e.rank r.1 r.2 }

/-- The operations of a training lane group, in the order of Table 7.3 and, within an operation, of R142. -/
def trainingOps (x : OpCtx) (g : Gyle) (p : PlanSlot) (runs : List RunRows) : List Op :=
  let items := groupItems runs
  groupShrinks x p items ++
    items.flatMap (fun i => if i.c.v.hdr.form = Form.member then expandOps x 2 (4 * i.run + i.c.idx) .fwdExpand [i] p.outW else []) ++
    items.flatMap (fun i => shrinkOps x 3 0 i.c.e.rank true i p.outW i.c.e.bFmt) ++
    items.flatMap (actGradOps x p) ++ items.flatMap (gradOps x g p 0) ++ items.flatMap (gradOps x g p 1)

/-! ### Placement (R83, R84, R104, R105) -/

/-- The run that holds a position of a segment. -/
def runAt (seg : Segment) (pos : Nat) : Option Run :=
  seg.runs.find? fun r => r.firstPos ≤ pos && pos < r.firstPos + r.rowCount

/-- The rows of a lane group of a segment that pass the slot, by run. -/
def groupRunRows (s : State) (g : Gyle) (seg : Segment) (slot group : Nat) (p : PlanSlot) : List RunRows :=
  let lo := seg.firstPos + 32 * group
  let hi := min (seg.firstPos + seg.rowCount) (lo + 32)
  (seg.runs.filterMap fun r =>
    let ps := (List.range (hi - lo)).map (lo + ·)
    let rows := (ps.filter fun q => r.firstPos ≤ q && q < r.firstPos + r.rowCount).map fun q => tget 0 g.rowOfPos q
    let rows := rows.filter fun n => rowPasses g (tget {} g.rows n) slot
    if rows.isEmpty then none else some { rows, cs := localAt s g p r.comps })

/-- The operations of one lane group. -/
def groupOps (s : State) (g : Gyle) (segIdx : Nat) (seg : Segment) (slot group : Nat) (p : PlanSlot) : List Op :=
  let runs := groupRunRows s g seg slot group p
  let x : OpCtx := { gk := g.key, slot, segment := segIdx, group }
  if g.kind = .training then trainingOps x g p runs else servingOps x p runs

/-- Lane groups of a segment. -/
def groupCount (seg : Segment) : Nat := ceilDiv seg.rowCount 32

/-- w of R83. -/
def groupWork (s : State) (g : Gyle) (seg : Segment) (p : PlanSlot) : Nat :=
  (seg.runs.map fun r => handshakes p (localAt s g p r.comps)).foldl max 0

/-- What a component of a segment trains at a slot: adapter, first tensor index and elements of its two tensors. -/
def trainedAt (g : Gyle) (rows : List Nat) (c : CompAt) : Option (AdapterId × Nat × Nat) :=
  let kinds := rows.map (rowTrains g c)
  if kinds.contains .basis then some (c.fac.hdr.id, 2 * c.num, (slotElems c.fac.hdr c.e).sum)
  else if kinds.contains .own then some (c.v.hdr.id, 2 * c.own, (slotElems c.v.hdr c.e).sum)
  else none

/-- Bytes of one tun partial of a training segment-slot in the gradient scratch: one FP32 per trainable element (R145). -/
def partialBytes (s : State) (g : Gyle) (seg : Segment) (p : PlanSlot) : Nat :=
  let items := seg.runs.flatMap fun r =>
    let rows := (List.range r.rowCount).map fun i => tget 0 g.rowOfPos (r.firstPos + i)
    (localAt s g p r.comps).filterMap (trainedAt g rows)
  4 * (items.eraseDups.map fun x => x.2.2).sum

/-- Free gradient scratch. -/
def scratchFree (s : State) : Nat := scratchMib s * mib - growthOf s 1 - (s.train.scratch.map fun x => 4 * x.values.length).sum

/-- The fan-out F (R83), lowered for the gradient scratch of a training segment (R145). -/
def fanOut (s : State) (g : Gyle) (seg : Segment) (p : PlanSlot) : Nat :=
  let n := groupCount seg
  let f := min (min (tunCount s) n) (max 1 (n * groupWork s g seg p / max 1 (regFld s pgGrist 0x088 0 21)))
  let pb := partialBytes s g seg p
  if g.kind = .training && pb ≠ 0 then max 1 (min f (scratchFree s / pb)) else f

/-- Groups `[lo, hi)` of slice `i` of `f` (R83). -/
def sliceGroups (n f i : Nat) : List Nat :=
  let q := n / max f 1
  let m := n % max f 1
  let lo := i * q + min i m
  (List.range (q + (if i < m then 1 else 0))).map (lo + ·)

/-- Enter operations in a tun's queue, and note the tun of their rows. -/
def enqueue (s : State) (k : GyleKey) (slot t : Nat) (ops : List Op) (rows : List Nat) : State :=
  let s := modTun s t fun x => { x with queue := x.queue ++ ops }
  modGyle s k fun g => rows.foldl (fun g r => g.modSlot slot r fun x => { x with tun := t }) g

/-- The index of the segment that holds a row. -/
def segmentOf (g : Gyle) (row : Nat) : Option (Nat × Segment) :=
  let pos := tget 0 g.posOfRow row
  (List.zip (List.range g.segments.length) g.segments).find? fun e =>
    e.2.firstPos ≤ pos && pos < e.2.firstPos + e.2.rowCount

/-! ### Lane SRAM (R98, R104, R143) -/

/-- Bytes of a slot's inbound parts: activation and upstream gradient. -/
def actPart (p : PlanSlot) : Nat := rowBytes p.actFmt p.inW
def gradPart (p : PlanSlot) : Nat := p.outW * streamBytes p.gradFmt

/-- The lane of a row in its lane group. -/
def laneOf (g : Gyle) (row : Nat) : Nat :=
  match segmentOf g row with
  | some (_, seg) => (tget 0 g.posOfRow row - seg.firstPos) % 32
  | none => 0

/-- Bytes of a row-slot in its lane's activation area. -/
def laneBytes (g : Gyle) (p : PlanSlot) : Nat := actPart p + (if g.kind = .training then gradPart p else 0)

/-- The row-slots that hold something in a lane of a tun, with their gyles. -/
def laneRows (s : State) (tun lane : Nat) : List (Gyle × Nat × RowSlot) :=
  s.gyles.flatMap fun g => g.slots.filterMap fun e =>
    if e.2.tun = tun && (e.2.laneHeld || e.2.rankRoom ≠ 0 || e.2.backRoom ≠ 0) && laneOf g (e.1 % 2 ^ 20) = lane then
      some (g, e.1 / 2 ^ 20, e.2) else none

/-- Bytes held in the activation area of a lane, banks 0 to 8. -/
def laneUsed (s : State) (tun lane : Nat) : Nat :=
  ((laneRows s tun lane).map fun x =>
    if x.2.2.laneHeld then ((x.1.plan.slots[x.2.1]?).map (laneBytes x.1)).getD 0 else 0).sum

/-- The room of a lane's activation area for one more row-slot: 36,864 bytes, of which 4,096 are kept for h while the lane holds a
row of a training gyle (R98, R143). -/
def laneArea (s : State) (g : Gyle) (tun lane : Nat) : Nat :=
  if g.kind = .training || (laneRows s tun lane).any (fun x => x.1.kind = .training) then 32768 else 36864

/-- The lane has room for a row's activation part. -/
def laneFits (s : State) (g : Gyle) (p : PlanSlot) (tun lane : Nat) : Bool :=
  laneUsed s tun lane + laneBytes g p ≤ laneArea s g tun lane

/-- Values held in the rank area of a lane, bank 9, or in its bytes kept for h: 1,024 at most (R98, R143). -/
def rankUsed (s : State) (back : Bool) (tun lane : Nat) : Nat :=
  ((laneRows s tun lane).map fun x => if back then x.2.2.backRoom else x.2.2.rankRoom).sum

/-- Space of the lanes is reserved for rows where there is room; a row that finds none takes its own as it is written. -/
def holdLanes (s : State) (k : GyleKey) (slot : Nat) (p : PlanSlot) (rows : List Nat) : State :=
  rows.foldl (fun s r => match s.gyle k with
    | none => s
    | some g =>
      let x := g.rowSlot slot r
      if laneFits s g p x.tun (laneOf g r) then modGyle s k fun g => g.modSlot slot r fun x => { x with laneHeld := true }
      else s) s

/-- A placement while T is below 64 degrades the gyle (R105). -/
def notePlaced (s : State) (k : GyleKey) : State := modGyle s k fun g => { g with degraded := g.degraded || tunCount s < 64 }

/-- Place a segment at a slot when its first row reaches it (R104): slices in ascending number to tuns in ascending backlog, and
the load of its first lane group. With T at 0 nothing is placed and the rows wait (R308); a segment without local work takes no lane
(R221). -/
def placeSegment (s : State) (k : GyleKey) (row slot : Nat) : State :=
  match s.gyle k with
  | none => s
  | some g => match segmentOf g row, g.plan.slots[slot]? with
    | some (i, seg), some p =>
      if g.placed.contains (i, slot) || tunCount s = 0 || seg.zero then s
      else
        let f := fanOut s g seg p
        let ts := (tunsByBacklog s).take f
        let s := modGyle s k fun g => { g with placed := g.placed ++ [(i, slot)] }
        if (List.range (groupCount seg)).all fun grp => (groupOps s g i seg slot grp p).isEmpty then s
        else
          let s := (List.zip (List.range f) ts).foldl (fun t x =>
            (sliceGroups (groupCount seg) f x.1).foldl (fun t grp =>
              let ops := groupOps t g i seg slot grp p
              enqueue t k slot x.2 ops (ops.flatMap (·.rows)).eraseDups) t) (notePlaced s k)
          holdLanes s k slot p ((groupOps s g i seg slot 0 p).flatMap (·.rows)).eraseDups
    | _, _ => s

/-! ### What a row-slot still needs -/

/-- Operations of a row-slot that are queued, issued or held. -/
def opsOfRow (s : State) (k : GyleKey) (slot row : Nat) : List Op :=
  let mine := fun (o : Op) => o.gk = k && o.slot = slot && o.rows.contains row && !o.discard
  (s.tuns.flatMap fun e => (e.2.queue ++ e.2.issued).filter mine) ++
    (s.heldGroups.flatMap fun h => (h.members.map (·.2)).filter mine) ++ s.orphans.filter mine

/-- The departure store of a port: 48 KiB of its SRAM. -/
def departureBytes : Nat := 49152

/-- Spill bytes open to a reservation: the head reserve of 4 MiB only for the earliest pending row (R127). -/
def spillFree (s : State) (head : Bool) : Nat :=
  let all := spillMib s * mib
  (if head then all else all - 4 * mib) - s.spillUsed

/-- The earliest pending row of the block in the order of R127: (open sequence, issue rank, row). -/
def pendingKey (g : Gyle) (slot row : Nat) : List Nat :=
  [g.openSeq, ((g.plan.slots[slot]?).map (·.issueRank)).getD 0, row]

/-- Pending row-slots, by their keys of R127: those of the gyles that take traffic whose outbound part has not left, whether or not
they have come in or hold a reservation. -/
def pendingKeys (s : State) : List (List Nat) :=
  (s.gyles.filter fun g => !g.key.far && (g.st = .sorted || g.st = .running) && (s.ctx g.key.owner).st ≠ .quiesced).flatMap fun g =>
    (List.range g.plan.slots.length).flatMap fun i => (List.range g.rowsGiven).filterMap fun r =>
      if rowPasses g (tget {} g.rows r) i && (g.rowSlot i r).out ≠ .left then some (pendingKey g i r) else none

/-- A row-slot is the earliest pending one. -/
def isHead (s : State) (g : Gyle) (slot row : Nat) : Bool :=
  (pendingKeys s).all fun k => !lexLt k (pendingKey g slot row)

/-- Reserve departure space for a row-slot (R126, R127); none when it finds no room. -/
def reserve (s : State) (k : GyleKey) (slot row : Nat) (head : Bool) : Option State :=
  match s.gyle k with
  | none => none
  | some g =>
    let x := g.rowSlot slot row
    let n := resvBytes g slot
    if x.reserved then some s
    else if (s.port x.port).departureUsed + n ≤ departureBytes then
      some (modGyle (modPort s x.port fun p => { p with departureUsed := p.departureUsed + n }) k fun g =>
        g.modSlot slot row fun x => { x with reserved := true })
    else if n ≤ spillFree s head then
      let s := modPort { s with spillUsed := s.spillUsed + n } x.port fun p => { p with spillRows := sat 32 (p.spillRows + 1) }
      some (modGyle s k fun g => g.modSlot slot row fun x => { x with reserved := true, inSpill := true })
    else none

/-! ### Values (Tables 3.3 and 7.1) -/

/-- c_j = fl(w · s). -/
def coeff (c : CompAt) : F32 := fmul c.c.weight c.v.hdr.scale

/-- u_k and v_o of a component; 1 for a direct one. -/
def uAt (c : CompAt) (k : Nat) : F32 :=
  if c.v.hdr.form = .member then vecElem c.v.hdr.vecFmt (((c.v.tensor (2 * c.own)).map (·.bytes)).getD []) k else one32
def vAt (c : CompAt) (o : Nat) : F32 :=
  if c.v.hdr.form = .member then vecElem c.v.hdr.vecFmt (((c.v.tensor (2 * c.own + 1)).map (·.bytes)).getD []) o else one32

/-- Row `r` of a factor, elements `lo` up to `hi` of `n`. -/
def factorRow (c : CompAt) (side fmt n r lo hi : Nat) : List Num :=
  let bs := ((c.fac.tensor (2 * c.num + side)).map (·.bytes)).getD []
  let row := (bs.drop (r * rowBytes fmt n)).take (rowBytes fmt n)
  (List.range (hi - lo)).map fun i => rowElem fmt n row (lo + i)

/-- Column `k` of a factor, rows `lo` up to `hi`: a row of its transpose as the cellar delivers it (R97). -/
def factorCol (c : CompAt) (side fmt n k lo hi : Nat) : List Num :=
  (List.range (hi - lo)).map fun i => (factorRow c side fmt n (lo + i) k (k + 1)).headD .zero

/-- The activation values of a row at a slot. -/
def actValues (p : PlanSlot) (x : RowSlot) (lo hi : Nat) : List Num :=
  (List.range (hi - lo)).map fun i => rowElem p.actFmt p.inW x.act (lo + i)

/-- An element of the upstream gradient. -/
def gradAt (p : PlanSlot) (x : RowSlot) (o : Nat) : F32 := streamAt p.gradFmt x.grad o

/-- A slot-local key of a per-component value. -/
def compKey (idx k : Nat) : Nat := idx * 2 ^ 17 + k

/-- g_jk of step 2 of Table 3.3. -/
def rankScale (c : CompAt) (k : Nat) : F32 := if c.v.hdr.form = .member then fmul (coeff c) (uAt c k) else coeff c

/-- A rank value of a component of a row: r' of step 4 in a serving gyle, r in training. -/
def rankAt (c : CompAt) (x : RowSlot) (k : Nat) : F32 := tget 0 x.rank (compKey c.idx k)

/-- FP32 rank values of a component as a lane operand, padded with zeros. -/
def rankOperand (c : CompAt) (f : Nat → F32) : List Num :=
  (List.range (padRank c.e.rank)).map fun k => if k < c.e.rank then ofF32 (f k) else .zero

/-- The upstream gradient as the backward shrink and ∇B₀ take it: g, or c v ⊙ g, rounded as fl(fl(c · v) · g) (log entry 47). -/
def scaledGrad (p : PlanSlot) (c : CompAt) (x : RowSlot) (o : Nat) : F32 :=
  if c.v.hdr.form = .member then fmul (fmul (coeff c) (vAt c o)) (gradAt p x o) else gradAt p x o

/-- The backward rank quantity as the activation gradient and ∇A use it: h = c · Bᵀg, or u ⊙ p. -/
def backRank (c : CompAt) (x : RowSlot) (k : Nat) : F32 :=
  let p := tget 0 x.back (compKey c.idx k)
  if c.v.hdr.form = .member then fmul (uAt c k) p else fmul (coeff c) p

/-- A row's contribution to ∇v: fl(fl(c · g) · z), and to ∇u: p ⊙ r (log entry 47). -/
def gradVElem (p : PlanSlot) (c : CompAt) (x : RowSlot) (o : Nat) : F32 :=
  fmul (fmul (coeff c) (gradAt p x o)) (tget 0 x.z (compKey c.idx o))
def gradUElem (c : CompAt) (x : RowSlot) (k : Nat) : F32 :=
  fmul (tget 0 x.back (compKey c.idx k)) (rankAt c x k)

/-- The scalar and the element that a lane multiplies for element `n` of a factor gradient (R144): h_k and x_i of ∇A, laid out
rank row by rank row, or g_o and r_k of ∇B, laid out output by output over the padded rank. -/
def gradTerm (p : PlanSlot) (c : CompAt) (kind : OpKind) (x : RowSlot) (n : Nat) : F32 × Num :=
  if kind = .gradA then (backRank c x (n / p.inW), (actValues p x (n % p.inW) (n % p.inW + 1)).headD .zero)
  else
    let o := n / padRank c.e.rank
    let k := n % padRank c.e.rank
    let r := if k < c.e.rank then rankAt c x k else 0
    if c.v.hdr.form = .member then (scaledGrad p c x o, ofF32 (fmul (uAt c k) r)) else (fmul (coeff c) (gradAt p x o), ofF32 r)

/-! ### Late row-slots (R193 to R197) -/

/-- Count a row once in a layer's list. -/
def countRow (xs : List Nat) (row : Nat) : List Nat := if xs.contains row then xs else xs ++ [row]

/-- Count a late row-slot in its layer, with the substitution it took (R197). -/
def countLate (g : Gyle) (slot row : Nat) (sv : Served) : Gyle :=
  match g.plan.slots[slot]? with
  | none => g
  | some p => { g with layers := tmod {} g.layers (layerKey p.model p.layer) fun c => { c with
      late := countRow c.late row
      fallback := if sv = .fallback then countRow c.fallback row else c.fallback
      baseOnly := if sv = .baseOnly then countRow c.baseOnly row else c.baseOnly } }

/-- An operation over fewer rows. -/
def Op.keepRows (o : Op) (f : Nat → Bool) : Op :=
  { o with rows := o.rows.filter f, comps := (o.comps.map fun c => (c.1, c.2.filter f)).filter fun c => !c.2.isEmpty }

/-- A row leaves every operation of its row-slot that has not ended. -/
def dropRow (s : State) (k : GyleKey) (slot row : Nat) : State :=
  let cut := fun (o : Op) => if o.gk = k && o.slot = slot then o.keepRows (· ≠ row) else o
  let s := s.tuns.foldl (fun t e => modTun t e.1 fun x =>
    { x with queue := (x.queue.map cut).filter fun o => !o.rows.isEmpty, issued := x.issued.map cut }) s
  { s with orphans := (s.orphans.map cut).filter (fun o => !o.rows.isEmpty), heldGroups := (s.heldGroups.map fun h =>
      { h with members := (h.members.map fun m => (m.1, cut m.2)).filter fun m => !m.2.rows.isEmpty }).filter fun h =>
        !h.members.isEmpty }

/-- The row-slot as a substitution leaves it: earlier work dropped (R195). -/
def RowSlot.substituted (x : RowSlot) (sv : Served) : RowSlot :=
  { x with served := sv, late := true, rank := [], delta := [], rankRoom := 0, localDone := sv = .baseOnly, zero := sv = .baseOnly
           farPending := [], farUnsent := [], farLate := false, present := x.present || x.actDone }

/-- Substitute a whole row-slot (R195, R306): the fallback where the cask is `RESIDENT`, a tun can be had (R308) and the slot is
listed; base-only otherwise. -/
def substitute (s : State) (k : GyleKey) (slot row : Nat) (wantFallback : Bool) : State :=
  match s.gyle k with
  | none => s
  | some g => match g.plan.slots[slot]? with
    | none => s
    | some p =>
      let r : Row := tget {} g.rows row
      let fb := if wantFallback && tunCount s ≠ 0 && !issueHalted s then fallbackComp s g r else none
      let sv : Served := if fb.isSome then .fallback else .baseOnly
      let s := dropRow s k slot row
      let s := modGyle s k fun g => (countLate g slot row sv).modSlot slot row fun x => x.substituted sv
      match fb with
      | none => s
      | some c =>
        let cs := localAt s g p [c]
        if cs.isEmpty then modGyle s k fun g => g.modSlot slot row fun x => { x with localDone := true, zero := true }
        else
          let seg := ((segmentOf g row).map (·.1)).getD 0
          let ops := servingOps { gk := k, slot, segment := seg, group := 2 ^ 20 + row, sub := true } p [{ rows := [row], cs }]
          match tunsByBacklog s with
          | t :: _ => notePlaced (enqueue s k slot t ops [row]) k
          | [] => s

/-- The cut-off, or lateness after it, takes the second choice (Table 9.5); `WAIT` goes on waiting, but is taken as `BASE_ONLY`
after a power-failure warning (R375). -/
def secondChoice (s : State) (k : GyleKey) (slot row : Nat) : State :=
  match s.gyle k with
  | none => s
  | some g =>
    if g.lateSecond = 0 && !s.pace.pfw then modGyle s k fun g => (countLate g slot row .own).modSlot slot row fun x => { x with late := true }
    else substitute s k slot row (g.lateSecond = 1)

/-- The row waits for a cask whose admission has found no space (R180). -/
def noSpaceRow (s : State) (g : Gyle) (row : Nat) : Bool :=
  (tget {} g.rows row : Row).comps.any fun c => c.path = .here && s.cellar.waiting.any fun r =>
    !r.promised && r.epoch = g.epoch && r.parts.any fun p =>
      (p.adapter = c.adapter && p.version = c.version) || c.basis = some (p.adapter, p.version)

/-- A row-slot becomes late (R193): counted, and substituted at once after the cut-off; training gyles are never late (R135). -/
def markLate (s : State) (k : GyleKey) (slot row : Nat) : State :=
  match s.gyle k with
  | none => s
  | some g =>
    let x := g.rowSlot slot row
    if g.kind ≠ .serving || x.late || x.localDone && x.farPending.isEmpty || x.served ≠ .own then s
    else
    let s := if noSpaceRow s g row then modGyle s k fun g => { g with noSpaceRows := countRow g.noSpaceRows row } else s
    if g.cutoffPassed || g.cutoffUs = 0 || s.pace.pfw then secondChoice s k slot row
    else modGyle s k fun g => (countLate g slot row .own).modSlot slot row fun x => { x with late := true }

/-! ### Row-slots that no tun serves (R308) -/

/-- Operations of a row-slot that have not issued. -/
def unissuedOfRow (s : State) (k : GyleKey) (slot row : Nat) : List Op :=
  let mine := fun (o : Op) => o.gk = k && o.slot = slot && o.rows.contains row && !o.discard
  (s.tuns.flatMap fun e => e.2.queue.filter mine) ++ (s.heldGroups.flatMap fun h => (h.members.map (·.2)).filter mine) ++
    s.orphans.filter mine

/-- The row-slot waits because no tun has its operations, or because issue is halted. -/
def waitsForTun (s : State) (g : Gyle) (slot row : Nat) : Bool :=
  let x := g.rowSlot slot row
  x.served = .own && x.out = .waiting && x.credited && !x.localDone && (tunCount s = 0 || issueHalted s) &&
    ((opsOfRow s g.key slot row).isEmpty || !(unissuedOfRow s g.key slot row).isEmpty)

/-- Row-slots that no tun serves take the second choice at once where their gyle has no cut-off to come. -/
def settleBlocked (s : State) : State :=
  if tunCount s ≠ 0 && !issueHalted s then s
  else (s.gyles.filter fun g => g.kind = .serving && (g.cutoffPassed || g.cutoffUs = 0)).foldl (fun s g =>
    (g.slots.map (·.1)).foldl (fun s key => match s.gyle g.key with
      | none => s
      | some g => if waitsForTun s g (key / 2 ^ 20) (key % 2 ^ 20) && !(g.rowSlot (key / 2 ^ 20) (key % 2 ^ 20)).late then
          secondChoice s g.key (key / 2 ^ 20) (key % 2 ^ 20) else s) s) s

end Sys2Proof.Machine
end

