-- ==== Sys2Proof/Machine/Fills.lean ====
section
/-! DEFINITION. The accumulator sets of a tun: what the handshakes of an operation add into the lanes' and the checksum lane's
accumulators (R46, R47, R92, R106, R144, R327), the comparison at the swap, and what drains (Tables 3.3 and 7.1, R145). -/
namespace Sys2Proof.Machine

/-! ### The fills of an operation -/

/-- The components that an operation computes for a row: of its fallback for a substituted row, of its own mixture otherwise. -/
def opComps (s : State) (g : Gyle) (p : PlanSlot) (sub : Bool) (row : Nat) : List CompAt :=
  let r : Row := tget {} g.rows row
  if sub then
    match checkAdapter s g r.tenant r.model (tget {} g.tenantRecs r.tenant).fallback with
    | .ok v b => localAt s g p [{ adapter := v.hdr.id, version := v.version, tenant := some r.tenant, basis := b.map fun x => (x.hdr.id, x.version) }]
    | _ => []
  else localAt s g p r.comps

/-- One component of an operation for one of its rows. -/
def rowComp (s : State) (g : Gyle) (p : PlanSlot) (o : Op) (idx row : Nat) : Option CompAt :=
  (opComps s g p o.sub row).find? (·.idx = idx)

/-- The operation fills one set per 64 outputs or elements, not one per pass of rank rows (R93, R144). -/
def Op.manyFills (o : Op) : Bool := o.kind ≠ .shrink && o.kind ≠ .backShrink

/-- Fills of an operation. -/
def Op.fillCount (o : Op) : Nat := if o.manyFills then max 1 (ceilDiv (o.hi - o.lo) 64) else 1

/-- The rank rows, outputs or elements that the present fill covers. -/
def Op.fillLo (o : Op) : Nat := if o.manyFills then o.lo + 64 * o.fills else o.lo
def Op.fillHi (o : Op) : Nat := if o.manyFills then min o.hi (o.lo + 64 * (o.fills + 1)) else o.hi

/-- Handshakes of the present fill. -/
def Op.fillHandshakes (o : Op) : Nat := if o.manyFills then o.handshakes * (o.fillHi - o.fillLo) / (o.hi - o.lo) else o.handshakes

/-- The accumulator of the set that takes rank row, output or element `n`. -/
def Op.accOf (o : Op) (n : Nat) : Nat := if o.manyFills then n - o.fillLo else (o.base + n) % 64

/-- The name of the set that the present fill takes, within its lane group. -/
def Op.fillKey (o : Op) : List Nat := o.fill ++ [o.fills]

/-- The lane group of an operation (R93). -/
def groupOf (o : Op) : GyleKey × Nat × Nat × Nat := (o.gk, o.slot, o.segment, o.group)

/-- The operation forms factor gradients (R144). -/
def Op.grads (o : Op) : Bool := o.kind = .gradA || o.kind = .gradB

/-! ### Operands -/

/-- The lane operand of a row (Tables 3.3, 7.3). -/
def laneOperand (p : PlanSlot) (o : Op) (c : CompAt) (x : RowSlot) : List Num :=
  match o.kind with
  | .shrink => actValues p x o.iLo o.iHi
  | .expand => rankOperand c (rankAt c x)
  | .fwdExpand => rankOperand c fun k => fmul (uAt c k) (rankAt c x k)
  | .backShrink => (List.range (o.iHi - o.iLo)).map fun i => ofF32 (scaledGrad p c x (o.iLo + i))
  | .actGrad => rankOperand c (backRank c x)
  | .gradA | .gradB => []

/-- The shared operand for rank row, output or input `n`, and the factor v_o that scales its block-dots (step 5). -/
def sharedOperand (p : PlanSlot) (o : Op) (c : CompAt) (n : Nat) : List Num × Option F32 :=
  let pad := padRank c.e.rank
  match o.kind with
  | .shrink => (factorRow c 0 c.e.aFmt p.inW n o.iLo o.iHi, none)
  | .expand => (factorRow c 1 c.e.bFmt pad n 0 pad, if c.v.hdr.form = .member then some (vAt c n) else none)
  | .fwdExpand => (factorRow c 1 c.e.bFmt pad n 0 pad, none)
  | .backShrink => (factorCol c 1 c.e.bFmt pad n o.iLo o.iHi, none)
  | .actGrad => (factorCol c 0 c.e.aFmt p.inW n 0 c.e.rank ++ List.replicate (pad - c.e.rank) .zero, none)
  | .gradA | .gradB => ([], none)

/-- Elements per block-dot: the shared operand's format sets them (R46). -/
def opDot (o : Op) (c : CompAt) : Nat :=
  if o.kind = .shrink || o.kind = .actGrad then dotElems c.e.aFmt else dotElems c.e.bFmt

/-! ### Feeder queues (R91, R98, R100) -/

/-- The bank of a lane that holds byte `n` of a row-slot's inbound parts, laid out from the place that the block gives them: 4 KiB each,
banks 0 to 8. -/
def laneBank (tun lane slot row n : Nat) : Nat := (Config.lanePlace tun lane slot row + n) / 4096 % 9

/-- The bank of the rank values r, bank 9, or of the backward ones, which the 4,096 bytes kept for h take: the model takes bank 8 for
them, which the spec leaves open (log entry 48). -/
def rankBank (back : Bool) : Nat := if back then 8 else 9

/-- The bank of the lane that the operand chunk from element `n` of a row-slot is read from. -/
def chunkBank (p : PlanSlot) (o : Op) (tun lane row n : Nat) : Nat :=
  match o.kind with
  | .shrink => laneBank tun lane o.slot row (packedBytes p.actFmt (o.iLo + n))
  | .backShrink => laneBank tun lane o.slot row (actPart p + (o.iLo + n) * streamBytes p.gradFmt)
  | .expand | .fwdExpand | .gradB => rankBank false
  | .actGrad => rankBank true
  | .gradA => laneBank tun lane o.slot row (packedBytes p.actFmt (n % p.inW))

/-- The operand chunks that a row's lane takes in the present fill of an operation, with their banks, in the order of the handshakes. -/
def rowReads (p : PlanSlot) (o : Op) (c : CompAt) (tun lane row : Nat) (x : RowSlot) : List (Nat × List Num) :=
  if o.grads then
    (List.range (ceilDiv (o.fillHi - o.fillLo) 32)).map fun i =>
      let n := o.fillLo + 32 * i
      (chunkBank p o tun lane row n, (List.range 32).map fun k => (gradTerm p c o.kind x (n + k)).2)
  else
    let e := opDot o c
    let xs := laneOperand p o c x
    let cs := chunksOf e xs.length xs
    let one := (List.zip (List.range cs.length) cs).map fun y => (chunkBank p o tun lane row (y.1 * e), y.2)
    (List.range (o.fillHi - o.fillLo)).flatMap fun _ => one

/-- The operand chunks that a lane takes in the present fill of an operation. -/
def opReads (s : State) (tun lane : Nat) (o : Op) : List (Nat × List Num) :=
  match s.gyle o.gk with
  | none => []
  | some g => match g.plan.slots[o.slot]? with
    | none => []
    | some p => o.comps.flatMap fun x => match x.2.find? fun r => laneOf g r = lane with
      | none => []
      | some r => match rowComp s g p o x.1 r with
        | none => []
        | some c => rowReads p o c tun lane r (g.rowSlot o.slot r)

/-- Issued operations whose handshakes run one after the other: up to the first that goes on with another fill. -/
def straight : List Op → List Op
  | [] => []
  | o :: os => if o.fills + 1 < o.fillCount then [o] else o :: straight os

/-- The operand chunks that a lane of a tun takes in its issued work, in order. -/
def laneReads (s : State) (tun lane : Nat) : List (Nat × List Num) := (straight (s.tun tun).issued).flatMap (opReads s tun lane)

/-- The feeder of a lane goes on: `ran` handshakes take a chunk each, and chunks are read until `ahead` stand in the queue, 16 at most;
what it has read stays. -/
def runFeeder (s : State) (tun lane ran ahead : Nat) : State :=
  let rs := laneReads s tun lane
  let f := tget {} (s.tun tun).feeders lane
  let used := min rs.length (f.used + ran)
  let read := min (used + 16) (max (f.used + f.chunks.length) (used + ahead))
  let chunks := ((rs.drop used).take (read - used)).map (·.2)
  modTun s tun fun x => { x with feeders := tput lane { chunks, used } x.feeders }

/-- The lanes that issued operations of a tun activate. -/
def activeLanes (s : State) (tun : Nat) : List Nat :=
  ((s.tun tun).issued.flatMap fun o => match s.gyle o.gk with
    | some g => o.rows.map (laneOf g)
    | none => []).eraseDups

/-- The feeders of a tun read ahead as far as their queues hold. -/
def feedTun (s : State) (tun : Nat) : State := (activeLanes s tun).foldl (fun s l => runFeeder s tun l 0 16) s

/-- A write to a bank of a lane waits while the lane's feeder holds fewer than 4 entries and its next read is to that bank (R100). -/
def bankBusy (s : State) (tun lane bank : Nat) : Bool :=
  let f := tget {} (s.tun tun).feeders lane
  f.chunks.length < 4 && match (laneReads s tun lane)[f.used + f.chunks.length]? with
    | some r => r.1 = bank
    | none => false

/-- Drained rank values whose bank has come free are written. -/
def settleRanks (s : State) (tun : Nat) : State :=
  let waits := fun (w : RankWait) => match s.gyle w.gk with
    | some g => bankBusy s tun (laneOf g w.row) (rankBank w.back)
    | none => false
  modTun s tun fun x => { x with rankWaits := x.rankWaits.filter waits }

/-- The swap of a fill: every lane has taken its chunks, and what its feeder has read beyond them stays. -/
def passFeeders (s : State) (tun : Nat) (fill : List Op) : State :=
  let upTo := ((s.tun tun).issued.takeWhile fun o => !o.endsPass || !fill.contains o) ++ (fill.getLast?).toList
  let pass := fun (lane : Nat) (f : FeederQueue) =>
    let len := fun (os : List Op) => (os.map fun o => (opReads s tun lane o).length).sum
    ({ chunks := f.chunks.drop (len upTo - f.used), used := max f.used (len upTo) - len fill } : FeederQueue)
  modTun s tun fun x => { x with feeders := x.feeders.map fun e => (e.1, pass e.1 e.2) }

/-- The rank values that a fill drains wait where their bank is the next that the lane's feeder reads (R100). -/
def writeRanks (s : State) (tun : Nat) (fill : List Op) : State :=
  let ws := (fill.filter fun o => (o.kind = .shrink || o.kind = .backShrink) && !o.discard).flatMap fun o => o.rows.map fun r =>
    ({ gk := o.gk, slot := o.slot, row := r, back := o.kind = .backShrink } : RankWait)
  settleRanks (modTun s tun fun x => { x with rankWaits := (x.rankWaits ++ ws).eraseDups }) tun

/-! ### Accumulation -/

/-- The checksum lane. -/
def checkLane : Nat := 34

/-- The block-dots of two operands are added into one accumulator of a lane, and their magnitudes beside it; the checksum lane
counts them. -/
def AccSet.add (ctr e : Nat) (a : AccSet) (lane j : Nat) (xs ys : List Num) (v : Option F32) : AccSet :=
  let scale := fun (d : F32) => match v with
    | some w => fmul w d
    | none => d
  let ds := (blockDots e xs ys).map scale
  let ps := (List.zipWith products (chunksOf e xs.length xs) (chunksOf e xs.length ys)).map fun c =>
    c.map fun q => match v with
      | some w => q.mul (ofF32 w)
      | none => q
  { a with
    lanes := tmod [] a.lanes lane fun t => tput j (addAll ctr (tget accZero t j) ds) t
    mags := tmod [] a.mags lane fun t => tput j (ps.foldl addMag (tget 0 t j)) t
    dots := if lane = checkLane then tset 0 a.dots j (tget 0 a.dots j + ds.length) else a.dots }

/-- One component's handshakes of a fill: each active lane with its own operand, the checksum lane with their sum (R92, R106). -/
def runComp (s : State) (g : Gyle) (p : PlanSlot) (o : Op) (a : AccSet) (x : Nat × List Nat) : AccSet :=
  match x.2.head?.bind (rowComp s g p o x.1) with
  | none => a
  | some c =>
    let xs := x.2.filterMap fun r => (rowComp s g p o x.1 r).map fun y => (laneOf g r, laneOperand p o y (g.rowSlot o.slot r))
    let sum := laneSum s.freeCtr ((xs.head?.map (·.2.length)).getD 0) (xs.map (·.2))
    ((List.range (o.fillHi - o.fillLo)).map (o.fillLo + ·)).foldl (fun a n =>
      let sh := sharedOperand p o c n
      (xs ++ [(checkLane, sum)]).foldl (fun a l => a.add s.freeCtr (opDot o c) l.1 (o.accOf n) l.2 sh.1 sh.2) a) a

/-- One lane's products of a factor-gradient fill, each added into its element's accumulator (R144). -/
def gradLane (p : PlanSlot) (o : Op) (a : AccSet) (l : Nat × CompAt × RowSlot) : AccSet :=
  ((List.range (o.fillHi - o.fillLo)).map (o.fillLo + ·)).foldl (fun a n =>
    let t := gradTerm p l.2.1 o.kind l.2.2 n
    let q := (ofF32 t.1).mul t.2
    { a with
      lanes := tmod [] a.lanes l.1 fun y => tput (o.accOf n) (toF32 ((ofF32 (tget accZero y (o.accOf n))).add q)) y
      mags := tmod [] a.mags l.1 fun y => tput (o.accOf n) (addMag (tget 0 y (o.accOf n)) [q]) y }) a

/-- One component's handshakes of a factor-gradient fill; in each, the checksum lane takes one block-dot of the lanes' scalars with
the sums of their chunks of 32 elements (R144). -/
def runGrads (s : State) (g : Gyle) (p : PlanSlot) (o : Op) (a : AccSet) (x : Nat × List Nat) : AccSet :=
  let ls := x.2.filterMap fun r => (rowComp s g p o x.1 r).map fun c => (laneOf g r, c, g.rowSlot o.slot r)
  let a := ls.foldl (gradLane p o) a
  (List.range (ceilDiv (o.fillHi - o.fillLo) 32)).foldl (fun a i =>
    let n := o.fillLo + 32 * i
    let term := fun (l : Nat × CompAt × RowSlot) (k : Nat) => gradTerm p l.2.1 o.kind l.2.2 (n + k)
    let xs := ls.map fun l => ofF32 (term l 0).1
    let ys := ls.map fun l => ofF32 (addAll s.freeCtr accZero ((List.range 32).map fun k => toF32 (term l k).2))
    a.add s.freeCtr 32 checkLane 0 xs ys none) a

/-- The accumulator set of the present fill of an operation. -/
def accSetOf (t : Tun) (o : Op) : Option AccSet := t.sets.find? fun a => (a.gk, a.slot, a.segment, a.group) = groupOf o && a.fill = o.fillKey

/-- The set that the operation goes on to fill: that of its pass, unless another operation has ended the pass's fill. -/
def openSet (t : Tun) (o : Op) : Option AccSet :=
  if t.issued.any fun q => q ≠ o && q.endsPass && groupOf q = groupOf o && q.fill = o.fill then none else accSetOf t o

/-- The handshakes of the present fill run into its accumulator set. An operation whose results are discarded runs with no lane. -/
def runFill (s : State) (t : Nat) (o : Op) : State :=
  let fresh : AccSet := { gk := o.gk, slot := o.slot, segment := o.segment, group := o.group, fill := o.fillKey }
  let old := openSet (s.tun t) o
  let new := match s.gyle o.gk with
    | none => old.getD fresh
    | some g => match g.plan.slots[o.slot]? with
      | none => old.getD fresh
      | some p => if o.discard then old.getD fresh
          else o.comps.foldl (if o.grads then runGrads s g p o else runComp s g p o) (old.getD fresh)
  bumpFree (modTun s t fun x => { x with
    sets := match old with
      | some a => x.sets.map fun y => if y = a then new else y
      | none => x.sets ++ [new] })

/-! ### The comparison -/

/-- What faults left in a set's accumulators. -/
def AccSet.upset (a : AccSet) (us : List Upset) : AccSet :=
  us.foldl (fun a u => if a.lanes.any fun e => e.1 = u.lane then
    { a with lanes := tmod [] a.lanes u.lane fun t => tput u.index u.value t } else a) a

/-- The comparisons of a swap (R106, R327): for each accumulator of the checksum lane the matching ones of the active lanes; for a
factor-gradient set its one accumulator against them all (R144). -/
def AccSet.checks (ctr : Nat) (grads : Bool) (a : AccSet) : List FillCheck :=
  let picked := fun (t : Tab (Tab F32)) (j : Nat) => (t.filter fun e => e.1 ≠ checkLane).flatMap fun e =>
    (e.2.filter fun x => grads || x.1 = j).map (·.2)
  (tget [] a.lanes checkLane).map fun e =>
    { c := e.2, s := treeSum ctr (picked a.lanes e.1)
      m := (picked a.mags e.1).foldl (fun m v => toF32Up ((ofF32 m).add (ofF32 v))) (tget 0 (tget [] a.mags checkLane) e.1)
      n := tget 0 a.dots e.1 }

/-! ### Drain -/

/-- The row still takes the results of an operation: a fallback's only while it serves it. -/
def takes (o : Op) (x : RowSlot) : Bool := o.sub = (x.served = .fallback) && x.served ≠ .baseOnly

/-- The drained values of a row's lane: rank values, scaled by g_jk in a serving gyle (step 4), z, the backward rank quantity, or
sums that join those that wait in the departure store (R126). -/
def drainRow (train : Bool) (o : Op) (c : CompAt) (vals : Tab F32) (x : RowSlot) : RowSlot :=
  ((List.range (o.fillHi - o.fillLo)).map (o.fillLo + ·)).foldl (fun x n =>
    let v := tget accZero vals (o.accOf n)
    let key := compKey c.idx n
    match o.kind with
    | .shrink => { x with rank := tput key (if train then v else fmul (rankScale c n) v) x.rank }
    | .backShrink => { x with back := tput key v x.back }
    | .fwdExpand => { x with z := tput key v x.z }
    | .expand | .actGrad => { x with delta := tput n (fadd (tget accZero x.delta n) v) x.delta }
    | .gradA | .gradB => x) x

/-- Tun partials are the same one. -/
def samePartial (a b : Partial) : Bool :=
  a.gk = b.gk && a.tun = b.tun && a.segment = b.segment && a.slot = b.slot && a.adapter = b.adapter && a.tensor = b.tensor

/-- Store a tun partial. -/
def putPartial (s : State) (x : Partial) : State :=
  { s with train := { s.train with scratch := s.train.scratch.filter (fun y => !samePartial y x) ++ [x] } }

/-- What an operation adds to tun partials for a component: the adapter, the tensor, its elements, and the rows that add to it: a
factor's gradient, or a member's ∇v at the drain of operation 2 and ∇u at that of operation 3 (R142). -/
def gradTarget (g : Gyle) (p : PlanSlot) (o : Op) (c : CompAt) (rows : List Nat) : Option (AdapterId × Nat × Nat × List Nat) :=
  let size := fun (h : AdapterHdr) (side : Nat) => ((slotElems h c.e)[side]?).getD 0
  let own := rows.filter fun r => g.kind = .training && c.v.hdr.form = Form.member && rowTrains g c r = .own
  let r := match o.kind with
    | .gradA => (c.fac.hdr.id, 2 * c.num, size c.fac.hdr 0, rows)
    | .gradB => (c.fac.hdr.id, 2 * c.num + 1, size c.fac.hdr 1, rows)
    | .fwdExpand => (c.v.hdr.id, 2 * c.own + 1, p.outW, own)
    | .backShrink => (c.v.hdr.id, 2 * c.own, c.e.rank, own)
    | _ => (0, 0, 0, [])
  if r.2.2.2.isEmpty then none else some r

/-- The gradient terms of the rows at place `n` of a fill, one per lane. -/
def gradTerms (s : State) (g : Gyle) (p : PlanSlot) (o : Op) (a : AccSet) (idx : Nat) (rows : List Nat) (n : Nat) : List F32 :=
  rows.filterMap fun r => (rowComp s g p o idx r).map fun c =>
    match o.kind with
    | .fwdExpand => gradVElem p c (g.rowSlot o.slot r) n
    | .backShrink => gradUElem c (g.rowSlot o.slot r) n
    | _ => tget accZero (tget [] a.lanes (laneOf g r)) (o.accOf n)

/-- The element of its tensor that place `n` is; none for the padding of B. -/
def gradPlace (o : Op) (c : CompAt) (n : Nat) : Option Nat :=
  if o.kind = .gradB then
    let k := n % padRank c.e.rank
    if k < c.e.rank then some (n / padRank c.e.rank * c.e.rank + k) else none
  else some n

/-- At a swap, the lane partials combine in the reduction tree and are added into the tun partial (R145). -/
def drainGrads (s : State) (t : Nat) (o : Op) (a : AccSet) (x : Nat × List Nat) : State :=
  match s.gyle o.gk with
  | none => s
  | some g => match g.plan.slots[o.slot]? with
    | none => s
    | some p => match x.2.head?.bind (rowComp s g p o x.1) with
      | none => s
      | some c => match gradTarget g p o c x.2 with
        | none => s
        | some (ad, ten, size, rows) =>
          let key : Partial := { gk := o.gk, tun := t, segment := o.segment, slot := o.slot, adapter := ad, tensor := ten }
          let old := match s.train.scratch.find? (samePartial · key) with
            | some y => y.values
            | none => List.replicate size 0
          let new := (List.range (o.fillHi - o.fillLo)).foldl (fun (vs : List F32) i =>
            let n := o.fillLo + i
            match gradPlace o c n with
            | some j => vs.set j (fadd (vs.getD j 0) (treeSum s.freeCtr (gradTerms s g p o a x.1 rows n)))
            | none => vs) old
          putPartial s { key with values := new }

/-- One operation of a fill drains into its rows. -/
def drainOp (s : State) (o : Op) (a : AccSet) : State :=
  match s.gyle o.gk with
  | none => s
  | some g => match g.plan.slots[o.slot]? with
    | none => s
    | some p => o.comps.foldl (fun s x => x.2.foldl (fun s r =>
        match rowComp s g p o x.1 r with
        | none => s
        | some c => modGyle s o.gk fun g => g.modSlot o.slot r fun y =>
            if takes o y then drainRow (g.kind = .training) o c (tget [] a.lanes (laneOf g r)) y else y) s) s

end Sys2Proof.Machine
end

