-- ==== Sys2Proof/Machine/Ports.lean ====
section
/-! DEFINITION. The splice ports (R119 to R132, R435 to R438): credit, inbound beats and their errors, the scatter into lane
SRAM, departure in row-map order, and the rejection of a part. -/
namespace Sys2Proof.Machine

/-! ### Parts (Table 6.5) -/

/-- Beats of a part of `n` bytes (R120). -/
def beatsOf (n : Nat) : Nat := ceilDiv n 128

/-- Bytes of a row's base part. -/
def basePart (g : Gyle) (p : PlanSlot) : Nat :=
  if g.kind = .training then p.inW * streamBytes p.gradFmt else p.outW * streamBytes p.baseFmt

/-- Kind, width and format of the outbound part. -/
def outKind (g : Gyle) (p : PlanSlot) : Nat := if g.kind = .training then 6 else if p.side then 2 else 3
def outWidth (g : Gyle) (p : PlanSlot) : Nat := if g.kind = .training then p.inW else p.outW
def outFmt (g : Gyle) (p : PlanSlot) : Nat := if g.kind = .training then p.gradFmt else if p.side then p.deltaFmt else p.baseFmt

/-- The kind of the base part. -/
def baseKind (g : Gyle) : Nat := if g.kind = .training then 5 else 1

/-- Beats that one activation credit covers: the activation part, and the upstream gradient after it in a training gyle. -/
def creditBeats (g : Gyle) (p : PlanSlot) : Nat :=
  beatsOf (actPart p) + (if g.kind = .training then beatsOf (gradPart p) else 0)

/-- The staging areas, in beats. -/
def actStage : Nat := 96
def baseStage : Nat := 32

/-- The kind is allowed inbound for the slot's mode and the gyle's kind (Table 6.5). -/
def kindAllowed (g : Gyle) (p : PlanSlot) (kind : Nat) : Bool :=
  kind = 0 || (kind = 4 && g.kind = .training) || (kind = baseKind g && !p.side)

/-! ### Streams and credit (R12, R123) -/

/-- The rows of a gyle. -/
def rowList (g : Gyle) : List Nat := List.range g.rowsGiven

/-- The rows that pass a slot (R451). -/
def passingRows (g : Gyle) (slot : Nat) : List Nat := (rowList g).filter fun r => rowPasses g (tget {} g.rows r) slot

/-- One stream on a port. -/
structure StreamAt where
  g : Gyle
  slot : Nat
  p : PlanSlot

/-- A gyle takes traffic: it is in `SORTED` or `RUNNING` and its context is not quiesced (R12, R296). -/
def takesTraffic (s : State) (g : Gyle) : Bool :=
  !g.key.far && (g.st = .sorted || g.st = .running) && (s.ctx g.key.owner).st ≠ .quiesced

/-- The streams of a port in the order of R123: by opening sequence, then `ISSUE_RANK`. -/
def streamsOn (s : State) (port : Nat) : List StreamAt :=
  sortBy (fun (a b : StreamAt) => lexLt [a.g.openSeq, a.p.issueRank] [b.g.openSeq, b.p.issueRank])
    ((s.gyles.filter (takesTraffic s)).flatMap fun g =>
      ((List.zip (List.range g.plan.slots.length) g.plan.slots).filter fun e => e.2.ports.getLsbD port).map fun e =>
        ⟨g, e.1, e.2⟩)

/-- A credit for an activation part whose row the sender has not named yet. -/
def Credit.unnamed (c : Credit) (k : GyleKey) (slot : Nat) : Bool := c.gk = k && c.slot = slot && c.row.isNone && c.kind ≠ 1

/-- Rows of a stream without credit: not sent, and not covered by a credit outstanding on any port. -/
def uncredited (s : State) (x : StreamAt) : Nat :=
  ((passingRows x.g x.slot).filter fun r => !(x.g.rowSlot x.slot r).credited).length -
    (s.ports.map fun e => (e.2.credits.filter fun c => c.unnamed x.g.key x.slot).length).sum

/-- The streams that hold a port's credit places (R123). -/
def creditPlaces (s : State) (port : Nat) : List StreamAt :=
  ((streamsOn s port).filter fun x => 0 < uncredited s x).take 4

/-- Free beats of the activation staging area: neither full nor promised to a credit. -/
def freeStage (p : Port) : Nat :=
  actStage - p.staged.length - ((p.credits.filter fun c => c.kind ≠ 1).map (·.beats)).sum

/-- Base beats that have arrived on a port and whose sums have not left (R125). -/
def baseHeld (s : State) (port : Nat) : Nat :=
  (s.gyles.map fun g => (g.slots.map fun e => if e.2.port = port then beatsOf e.2.base.length - e.2.outBeats else 0).sum).sum

/-- Free beats of the base staging area: neither promised to a credit nor held. -/
def freeBase (s : State) (port : Nat) : Nat :=
  baseStage - ((((s.port port).credits.filter fun c => c.kind = 1).map (·.beats)).sum + baseHeld s port)

/-- A credit word (Table 23.4). -/
def creditWord (k : GyleKey) (slot row kind beats : Nat) : Word64 :=
  BitVec.ofNat 64 (k.num + k.owner * 2 ^ 16 + slot * 2 ^ 22 + row * 2 ^ 32 + kind * 2 ^ 52 + beats * 2 ^ 56)

/-- Grant a credit on a port, with the word that says so. -/
def grant (s : State) (port : Nat) (c : Credit) (row kind beats : Nat) : State :=
  emit (modPort s port fun p => { p with credits := p.credits ++ [c] }) (.creditWord port (creditWord c.gk c.slot row kind beats))

/-- A stream can be granted activation credit now: the whole part fits, or a first portion of a part larger than the staging
area when the stream has no part in portions. -/
def canGrant (s : State) (port : Nat) (x : StreamAt) : Bool :=
  let p := s.port port
  let n := creditBeats x.g x.p
  if n ≤ actStage then n ≤ freeStage p
  else 0 < freeStage p && !(p.portions.any fun e => e.1 = x.g.key && e.2.1 = x.slot) &&
    !(p.credits.any fun c => c.unnamed x.g.key x.slot)

/-- One activation grant (R123): to the earliest stream with a credit place that fits. -/
def activationGrant (port : Nat) (s : State) : State :=
  if !domainPresent s port then s
  else match (creditPlaces s port).find? (canGrant s port) with
    | none => s
    | some x =>
      let s := stamp s
      let n := creditBeats x.g x.p
      if n ≤ actStage then grant s port { gk := x.g.key, slot := x.slot, kind := 0, beats := n } 0 0 0
      else
        let b := freeStage (s.port port)
        grant s port { gk := x.g.key, slot := x.slot, kind := 4, beats := b } 0 0 b

/-- `ACTIVATION_CREDIT_GRANT` (R123); not due when no stream can be granted credit. -/
def execActivationCreditGrant (port : Fin 128) (s : State) : Host.Outcome State Fault Refusal := .next (activationGrant port s)

/-- The beats of a part in portions. -/
def portionTotal (s : State) (e : GyleKey × Nat × Nat × Nat) : Nat :=
  match s.gyle e.1 with
  | none => 0
  | some g => match g.plan.slots[e.2.1]? with
    | some p => creditBeats g p
    | none => 0

/-- A further portion for the part in portions of a stream (R123). -/
def portionGrant (port : Nat) (s : State) : State :=
  let free := freeStage (s.port port)
  if !domainPresent s port || free = 0 then s
  else match (s.port port).portions.find? fun e => e.2.2.2 < portionTotal s e with
    | none => s
    | some e =>
      let s := stamp s
      let n := min free (portionTotal s e - e.2.2.2)
      let s := modPort s port fun p => { p with portions := p.portions.map fun x =>
        if x = e then (e.1, e.2.1, e.2.2.1, e.2.2.2 + n) else x }
      grant s port { gk := e.1, slot := e.2.1, row := some e.2.2.1, kind := 4, beats := n } e.2.2.1 4 n

/-- `CREDIT_PORTION_GRANT` (R123). -/
def execCreditPortionGrant (port : Fin 128) (s : State) : Host.Outcome State Fault Refusal := .next (portionGrant port s)

/-! ### Row-slots that are complete -/

/-- The row-slot's inbound activation (and gradient) has arrived and its delta is complete. -/
def deltaDone (g : Gyle) (x : RowSlot) : Bool :=
  x.actDone && (g.kind ≠ .training || x.gradDone) && x.localDone && x.farPending.isEmpty && x.farUnsent.isEmpty

/-- The rows of a stream that may leave by a port, in row order: those that came in on it, and those that have not come in yet and
may come in on it (R12, R128). A row waits for every earlier one of these. -/
def departRows (g : Gyle) (slot port : Nat) : List Nat :=
  (passingRows g slot).filter fun r => !(g.rowSlot slot r).credited || (g.rowSlot slot r).port = port

/-- The row that leaves next in a stream on a port. -/
def nextOut (g : Gyle) (slot port : Nat) : Option Nat :=
  (departRows g slot port).find? fun r => (g.rowSlot slot r).out = .waiting || (g.rowSlot slot r).out = .sending

/-! ### Base credit (R125) -/

/-- The row of a stream that base credit is due for: every earlier row has all of its own, and its delta is complete. -/
def baseDue (x : StreamAt) (port : Nat) : Option Nat :=
  if x.p.side then none
  else match (departRows x.g x.slot port).find? fun r =>
      (x.g.rowSlot x.slot r).baseCredited < beatsOf (basePart x.g x.p) with
    | some r => if deltaDone x.g (x.g.rowSlot x.slot r) then some r else none
    | none => none

/-- The row's base part has begun to be credited and is not all credited yet. -/
def basePartial (x : StreamAt) (port : Nat) : Bool :=
  match baseDue x port with
  | some r => 0 < (x.g.rowSlot x.slot r).baseCredited
  | none => false

/-- One base grant: the row that is part credited first, else the earliest stream with a row due. -/
def baseGrant (port : Nat) (s : State) : State :=
  let free := freeBase s port
  let xs := streamsOn s port
  if !domainPresent s port || free = 0 then s
  else match (xs.find? fun x => basePartial x port).or (xs.find? fun x => (baseDue x port).isSome) with
    | none => s
    | some x => match baseDue x port with
      | none => s
      | some r =>
        let n := min free (beatsOf (basePart x.g x.p) - (x.g.rowSlot x.slot r).baseCredited)
        let s := modGyle (stamp s) x.g.key fun g => g.modSlot x.slot r fun y => { y with baseCredited := y.baseCredited + n }
        grant s port { gk := x.g.key, slot := x.slot, row := some r, kind := 1, beats := n } r 1 n

/-- `BASE_CREDIT_GRANT` (R125). -/
def execBaseCreditGrant (port : Fin 128) (s : State) : Host.Outcome State Fault Refusal := .next (baseGrant port s)

/-! ### Inbound beats -/

/-- The bits of a beat tag (Table 6.4). -/
def tagWord (t : BeatTag) : Nat :=
  t.gyle + t.submitter * 2 ^ 16 + t.slot * 2 ^ 22 + t.row * 2 ^ 32 + t.kind * 2 ^ 52 + flag t.last 56 + flag t.nan 57 +
    flag t.sat 58 + t.reserved.toNat * 2 ^ 59

/-- The gyle that a tag names. -/
def tagKey (t : BeatTag) : GyleKey := ownGyle t.submitter t.gyle

/-- A beat of this tag rests on a credit. -/
def Credit.covers (c : Credit) (t : BeatTag) : Bool :=
  c.gk = tagKey t && c.slot = t.slot && 0 < c.beats &&
    (if t.kind = 1 || t.kind = 5 then c.kind = 1 && c.row = some t.row
     else c.kind ≠ 1 && (c.row = some t.row || (c.row.isNone && t.kind = 0)))

/-- Take one beat off the first credit of a list that covers the tag, which is bound to the tag's row. -/
def useCredit (t : BeatTag) : List Credit → List Credit
  | [] => []
  | c :: cs =>
    if c.covers t then (if c.beats ≤ 1 then cs else { c with beats := c.beats - 1, row := some t.row } :: cs)
    else c :: useCredit t cs

/-- The credit of a row comes before one for any row. -/
def creditFor (t : BeatTag) (cs : List Credit) : Option Credit :=
  (cs.find? fun c => c.covers t && c.row.isSome).or (cs.find? (·.covers t))

/-- Use up one beat of credit: of the row's own credit where it has some. -/
def takeCredit (t : BeatTag) (cs : List Credit) : List Credit :=
  if cs.any fun c => c.covers t && c.row.isSome then
    let own := cs.filter fun c => c.row.isSome
    useCredit t own ++ cs.filter fun c => c.row.isNone
  else useCredit t cs

/-- A discarded beat of Table 6.6 (R121): counted, recorded, and for its rows 2 and 3 a fault of the context. -/
def badBeat (s : State) (port : Nat) (t : BeatTag) (row : Nat) (tenant : Option Nat) : State :=
  let s := modPort s port fun p => { p with tagErrors := sat 32 (p.tagErrors + 1) }
  let s := logNow s (pgPort port) evBeatDiscard tenant (if row = 1 then none else some t.submitter) 0
    (leBytes 8 (tagWord t) ++ [BitVec.ofNat 8 row])
  if row = 1 then s else faultCtx s t.submitter 0x01 0x00 none

/-- The gyle of a tag takes beats (Table 6.6, its first row). -/
def beatGyle (s : State) (t : BeatTag) : Option Gyle :=
  match s.gyle (tagKey t) with
  | some g => if (g.st = .sorted || g.st = .running) && t.reserved = 0 && some g.plan.id = s.planInForce.map (·.id) then some g
      else none
  | none => none

/-- The second row of Table 6.6 holds: the slot, kind or row is not one that the gyle takes on this port. -/
def beatMisplaced (g : Gyle) (port : Nat) (t : BeatTag) : Bool :=
  match g.plan.slots[t.slot]? with
  | none => true
  | some p => !p.ports.getLsbD port || !kindAllowed g p t.kind || g.rowsGiven ≤ t.row ||
      !rowPasses g (tget {} g.rows t.row) t.slot

/-- Bytes received so far of the part that a tag names, and the part's size. -/
def partGot (x : RowSlot) (kind : Nat) : Nat :=
  if kind = 0 then x.act.length else if kind = 4 then x.grad.length else x.base.length
def partSize (g : Gyle) (p : PlanSlot) (kind : Nat) : Nat :=
  if kind = 0 then actPart p else if kind = 4 then gradPart p else basePart g p

/-- The third row of Table 6.6 holds: no credit, a second copy, `TAG_LAST` on the wrong beat, or a beat of another part inside
a part. A part that has begun on one port goes on there. -/
def beatOutOfTurn (s : State) (g : Gyle) (p : PlanSlot) (port : Nat) (t : BeatTag) : Bool :=
  let x := g.rowSlot t.slot t.row
  let size := partSize g p t.kind
  let got := partGot x t.kind
  let inside := match (s.port port).partIn with
    | some q => !(q.gk = tagKey t && q.slot = t.slot && q.row = t.row && q.kind = t.kind)
    | none => false
  let own := (s.port port).credits.any fun c => c.covers t && c.row.isSome
  inside || (x.credited && !own) || (creditFor t (s.port port).credits).isNone || size ≤ got || (t.kind = 4 && !x.actDone) ||
    (x.credited && x.port ≠ port) || t.last ≠ (size ≤ got + 128)

/-- The part that must come next on the port after this beat, `left` beats being left of the credit that it used: the rest of its
part, or the upstream gradient directly after the activation. Between the portions of an activation other parts may come (R120,
R123). -/
def partNext (g : Gyle) (p : PlanSlot) (t : BeatTag) (left got : Nat) : Option PartIn :=
  let part : PartIn := { gk := tagKey t, slot := t.slot, row := t.row, kind := t.kind, beatsLeft := left }
  let base := t.kind = baseKind g
  if got < partSize g p t.kind then (if left = 0 && !base then none else some part)
  else if t.kind = 0 && g.kind = .training && left ≠ 0 then some { part with kind := 4 }
  else none

/-- The row-slot takes the bytes of an accepted beat (R120). -/
def RowSlot.takeBeat (x : RowSlot) (port size kind : Nat) (data : List Byte) : RowSlot :=
  let n := min 128 (size - partGot x kind)
  let bs := padTo n data
  let done := size ≤ partGot x kind + n
  let x := { x with naks := if done then 0 else x.naks }
  if kind = 0 then { x with credited := true, port, act := x.act ++ bs, actDone := done }
  else if kind = 4 then { x with grad := x.grad ++ bs, gradDone := done }
  else { x with base := x.base ++ bs, baseDone := done }

/-- The gyle's first beat is accepted (R9). -/
def startRunning (s : State) (g : Gyle) : State := if g.st = .sorted then modGyle s g.key fun g => { g with st := .running } else s

/-! ### Far-applied rows (R221) -/

/-- `M_FAR_ROWS` for one row to a home. -/
def farRowsTo (s : State) (g : Gyle) (p : PlanSlot) (row home : Nat) (x : RowSlot) : State :=
  let r : Row := tget {} g.rows row
  sendReq s { type := 0x22, dst := home, epoch := g.epoch, ctxEpoch := (s.ctx g.key.owner).epoch, submitter := g.key.owner
              args := [g.key.num, p.layer, p.proj, p.inW, p.outW, p.actFmt, row, r.farClass]
              data := x.act } (some g.key)

/-- The staging beats of a row whose `M_FAR_ROWS` messages have been sent are free, but for those still to be scattered (R221). -/
def freeFar (s : State) (k : GyleKey) (slot row : Nat) : State :=
  { s with ports := s.ports.map fun e => (e.1, { e.2 with
    staged := (e.2.staged.map fun b => if b.gk = k && b.slot = slot && b.row = row then { b with far := false } else b).filter fun b =>
      b.lane || b.far }) }

/-- The row is sent to every home that computes part of its delta there, once its activation part is complete and its
departure space is reserved. `FAR_ROWS_SENT` counts it once for each home, which is the model's choice (log entry 58). -/
def sendFarRow (s : State) (k : GyleKey) (slot row : Nat) : State :=
  match s.gyle k with
  | none => s
  | some g => match g.plan.slots[slot]? with
    | none => s
    | some p =>
      let x := g.rowSlot slot row
      if x.farUnsent.isEmpty || !x.actDone then s
      else match reserve s k slot row (isHead s g slot row) with
        | none => s
        | some s =>
          let n := x.farUnsent.length
          let s := x.farUnsent.foldl (fun t h => farRowsTo (stamp t) g p row h x) s
          let s := { s with homes := { s.homes with farRowsSent := sat 32 (s.homes.farRowsSent + n) } }
          let s := freeFar s k slot row
          modGyle s k fun g =>
            let g := if (g.rowSlot slot row).farPending.isEmpty then { g with farRowSlots := g.farRowSlots + 1 } else g
            g.modSlot slot row fun y => { y with farPending := y.farPending ++ y.farUnsent, farUnsent := [] }

/-- Every far row that waits for departure space tries again. -/
def sendFarRows (s : State) : State :=
  s.gyles.foldl (fun t g => g.slots.foldl (fun t e =>
    if e.2.farUnsent.isEmpty then t else sendFarRow t g.key (e.1 / 2 ^ 20) (e.1 % 2 ^ 20)) t) s

/-- A component of a row at a slot has been purged, itself or its basis (R411, R412). -/
def compPurged (s : State) (g : Gyle) (p : PlanSlot) (c : Comp) : Bool :=
  let cat := catOf s g.epoch
  let gone := g.lapsed.contains c.adapter || (cat.adapter c.adapter).retired || c.basis.any fun b => (cat.adapter b.1).retired
  c.live && gone && match verOf s g.epoch c.adapter c.version with
    | some v => (slotAt v.slots p.layer p.proj).isSome
    | none => true

/-- A row-slot needs a tensor that is lost (R342), or an adapter that a purge has retired (R412). -/
def needsLost (s : State) (g : Gyle) (p : PlanSlot) (r : Row) : Bool :=
  r.comps.any (compPurged s g p) ||
  (localAt s g p r.comps).any fun c =>
    c.fac.lost.contains (2 * c.num) || c.fac.lost.contains (2 * c.num + 1) || c.v.lost.contains (2 * c.own) ||
      c.v.lost.contains (2 * c.own + 1)

/-- What a row-slot needs is settled as its first beat arrives: the homes that compute for it, and whether its local work is
nothing; its segment is placed (R104, R221). -/
def beginRow (s : State) (g : Gyle) (p : PlanSlot) (slot row : Nat) : State :=
  let r : Row := tget {} g.rows row
  let s := modGyle s g.key fun g => g.modSlot slot row fun x =>
    let own := x.served = .own
    let far := if own then farAtSlot s g p r.comps else []
    let none := own && (localAt s g p r.comps).isEmpty
    { x with farUnsent := far, localDone := x.localDone || none, zero := x.zero || (none && far.isEmpty) }
  let s := placeSegment s g.key row slot
  settleBlocked <|
    if g.kind = .serving && needsLost s g p r && (g.rowSlot slot row).served = .own then substitute s g.key slot row true else s

/-- The beats of a row go to lane SRAM: it has a local component there (R81, R124, R221). -/
def scatters (s : State) (g : Gyle) (p : PlanSlot) (slot row : Nat) : Bool :=
  let x := g.rowSlot slot row
  !(localAt s g p (servingComps s g (tget {} g.rows row) x)).isEmpty

/-- A beat of an activation part takes a staging beat while it waits for its lane, or for its row to be sent to a home (R124, R221).
The beats of a part in portions are not held for the home: their staging beats must come free before the part is whole (log entry
49). -/
def stageBeat (s : State) (g : Gyle) (p : PlanSlot) (port : Nat) (t : BeatTag) (index : Nat) : State :=
  let far := creditBeats g p ≤ actStage && match s.gyle g.key with
    | some g => !(g.rowSlot t.slot t.row).farUnsent.isEmpty
    | none => false
  let lane := scatters s g p t.slot t.row
  if t.kind = baseKind g || !(lane || far) then s
  else modPort s port fun q => { q with
    staged := q.staged ++ [{ gk := tagKey t, slot := t.slot, row := t.row, index, lane, far
                             last := t.last && (t.kind = 4 || g.kind ≠ .training) }] }

/-! ### Outbound beats (R119, R120, R125, R128) -/

/-- The accumulators of the row-slot, one per output. -/
def deltaValues (g : Gyle) (p : PlanSlot) (x : RowSlot) : List F32 :=
  (List.range (outWidth g p)).map fun o => tget accZero x.delta o

/-- What leaves: the bytes of the part, the NaN flag and the saturation flag (R48 steps 7, R49, R53, R54). -/
def outPart (g : Gyle) (p : PlanSlot) (x : RowSlot) : List Byte × Bool × Bool :=
  let n := outWidth g p
  if x.zero then ((if p.side then List.replicate (n * streamBytes (outFmt g p)) 0 else x.base), false, false)
  else
    let ts := deltaValues g p x
    let base := if g.kind = .training then p.gradFmt else p.baseFmt
    let ys := if p.side then ts
      else (List.zip (List.range ts.length) ts).map fun e => fadd (streamAt base x.base e.1) e.2
    let enc := encodeStream (outFmt g p) ys
    (enc.1, ts.any isNan32, enc.2)

/-- Beats of a row's outbound part, and those of them that can be sent: all in side mode, in splice mode one for each base beat. -/
def outTotal (g : Gyle) (p : PlanSlot) : Nat := beatsOf (outWidth g p * streamBytes (outFmt g p))
def outReady (g : Gyle) (p : PlanSlot) (x : RowSlot) : Nat := if p.side then outTotal g p else beatsOf x.base.length

/-- One outbound beat with its tag (Table 6.4): the flags stand on the last beat, and zeros fill it (R120). -/
def outBeat (port : Nat) (g : Gyle) (p : PlanSlot) (slot row : Nat) (d : List Byte × Bool × Bool) (i : Nat) : Output :=
  let last := i + 1 = outTotal g p
  .beat port (BitVec.ofNat 64 (tagWord { gyle := g.key.num, submitter := g.key.owner, slot, row, kind := outKind g p
                                         last, nan := last && d.2.1, sat := last && d.2.2 }))
    (padTo 128 ((d.1.drop (128 * i)).take 128))

/-- Beats `lo` up to `hi` of a row's outbound part. -/
def outBeats (port : Nat) (g : Gyle) (p : PlanSlot) (slot row lo hi : Nat) (x : RowSlot) : List Output :=
  (List.range (hi - lo)).map fun i => outBeat port g p slot row (outPart g p x) (lo + i)

/-- A row-slot whose last beat is sent is counted by its flags (R54). -/
def countSent (g : Gyle) (p : PlanSlot) (slot row : Nat) : Gyle :=
  let d := outPart g p (g.rowSlot slot row)
  { g with nanRows := if d.2.1 then countRow g.nanRows row else g.nanRows
           satDeltas := if d.2.2 then g.satDeltas + 1 else g.satDeltas }.modSlot slot row fun z => { z with out := .sent, nan := d.2.1 }

/-- The beats of a row's outbound part that can be sent are sent; the port stays with the part until its last beat (R128). -/
def sendBeats (s : State) (port : Nat) (g : Gyle) (p : PlanSlot) (slot row : Nat) : State :=
  let x := g.rowSlot slot row
  let hi := outReady g p x
  let n := outTotal g p
  let s := emitAll s (outBeats port g p slot row x.outBeats hi x)
  let s := modPort s port fun q => { q with
    beatsOut := sat 64 (q.beatsOut + (hi - x.outBeats))
    openOut := if hi < n then some (g.key, slot, row) else none
    sending := if hi < n then q.sending else q.sending ++ [{ gk := g.key, slot, row, kind := outKind g p, beats := n }] }
  modGyle s g.key fun g =>
    let g := g.modSlot slot row fun z => { z with out := .sending, outBeats := hi }
    if hi < n then g else countSent g p slot row

/-- A base beat of the part that the port is sending leaves at once as its sum (R125). -/
def sumBeat (s : State) (port : Nat) (k : GyleKey) (slot row : Nat) : State :=
  if (s.port port).openOut ≠ some (k, slot, row) then s
  else match s.gyle k with
    | none => s
    | some g => match g.plan.slots[slot]? with
      | none => s
      | some p => sendBeats s port g p slot row

/-- An accepted beat. -/
def acceptBeat (s : State) (g : Gyle) (p : PlanSlot) (port : Nat) (t : BeatTag) (data : List Byte) : State :=
  let size := partSize g p t.kind
  let x := g.rowSlot t.slot t.row
  let first := t.kind = 0 && x.act.isEmpty
  let index := beatsOf x.act.length + beatsOf x.grad.length
  let cr := creditFor t (s.port port).credits
  let s := startRunning s g
  let s := modGyle s g.key fun g => g.modSlot t.slot t.row fun x => x.takeBeat port size t.kind data
  let got := partGot x t.kind + min 128 (size - partGot x t.kind)
  let s := modPort s port fun q =>
    let portions := match cr with
      | some c => if c.kind = 4 && c.row.isNone then q.portions ++ [(tagKey t, t.slot, t.row, c.beats)] else q.portions
      | none => q.portions
    { q with credits := takeCredit t q.credits, portions, partIn := partNext g p t (((cr.map (·.beats)).getD 1) - 1) got }
  let s := if first then beginRow s g p t.slot t.row else s
  let s := stageBeat s g p port t index
  let whole := t.last && (t.kind = 4 || (t.kind = 0 && g.kind ≠ .training))
  let s := if whole then modPort s port fun q => { q with
      portions := q.portions.filter fun e => !(e.1 = tagKey t && e.2.1 = t.slot && e.2.2.1 = t.row) } else s
  if t.kind = baseKind g then sumBeat s port g.key t.slot t.row
  else if t.kind = 0 && t.last then sendFarRow s g.key t.slot t.row else s

/-- The row-slot without the parts that must be sent again. -/
def RowSlot.resend (x : RowSlot) (kind : Nat) : RowSlot :=
  if kind = 1 || kind = 5 then { x with naks := x.naks + 1 }
  else { x with act := [], grad := [], actDone := false, gradDone := false, written := 0, present := false, naks := x.naks + 1 }

/-- The credit for the part as it is sent again (R436, R437): the whole part under its old credit, the base beats not yet
accepted, or none for a part in portions, which is granted afresh. -/
def resendCredit (g : Gyle) (p : PlanSlot) (t : BeatTag) (q : Port) : Port :=
  let mine := fun (c : Credit) => c.gk = tagKey t && c.slot = t.slot && c.row = some t.row && c.kind ≠ 1
  if t.kind = 1 || t.kind = 5 then q
  else
    let q := { q with
      staged := q.staged.filter fun b => !(b.gk = tagKey t && b.slot = t.slot && b.row = t.row)
      credits := (takeCredit t q.credits).filter fun c => !mine c }
    if creditBeats g p ≤ actStage then { q with
      credits := q.credits ++ [{ gk := tagKey t, slot := t.slot, row := some t.row, kind := 0, beats := creditBeats g p }] }
    else { q with
      portions := q.portions.filter (fun e => !(e.1 = tagKey t && e.2.1 = t.slot && e.2.2.1 = t.row)) ++
        [(tagKey t, t.slot, t.row, 0)] }

/-- The tag by which a failed beat is known: that of the part under way on the port, or its own. -/
def failedTag (q : Port) (t : BeatTag) : BeatTag :=
  match q.partIn with
  | some x => { t with gyle := x.gk.num, submitter := x.gk.owner, slot := x.slot, row := x.row, kind := x.kind }
  | none => t

/-- A beat whose `SI_CHK` fails, or whose parity does (R433, R436): it is discarded and its part is asked for again; level 4 for
the context once `RETRY_LIMIT` resends have failed. What still arrives of the part as first sent is discarded. -/
def checkFailed (s : State) (port : Nat) (t0 : BeatTag) : State :=
  let t := failedTag (s.port port) t0
  match beatGyle s t with
  | none => s
  | some g => match g.plan.slots[t.slot]? with
    | none => s
    | some p =>
      if beatMisplaced g port t || (creditFor t (s.port port).credits).isNone then s
      else
        let s := startFault s (.port (pgPort port)) 0x0A 1 []
        let fid := ((openFault s (.port (pgPort port))).map (·.id)).getD 0
        if retryLimit s ≤ (g.rowSlot t.slot t.row).naks then
          levelFour (endFault s (.port (pgPort port))) t.submitter fid 0x0A 1
        else
          let left := (beatsOf (partSize g p t.kind)) - partGot (g.rowSlot t.slot t.row) t.kind / 128 - 1
          let run := min left (((creditFor t (s.port port).credits).map (·.beats)).getD 1 - 1)
          let s := modGyle s g.key fun g => g.modSlot t.slot t.row fun x =>
            { x.resend t.kind with credited := x.credited || t.kind = 0, port := if x.credited then x.port else port }
          let s := modPort s port fun q =>
            { resendCredit g p t q with
              partIn := if run = 0 then none
                else some { gk := tagKey t, slot := t.slot, row := t.row, kind := t.kind, beatsLeft := run, drop := true } }
          emit s (.creditWord port (creditWord (tagKey t) t.slot t.row 3 0))

/-- Discard one beat of a part as first sent. -/
def dropBeat (q : Port) : Port :=
  { q with partIn := match q.partIn with
    | some x => if x.beatsLeft ≤ 1 then none else some { x with beatsLeft := x.beatsLeft - 1 }
    | none => none }

/-- The port is discarding the rest of a part that must be sent again. -/
def dropping (q : Port) : Bool :=
  match q.partIn with
  | some x => x.drop
  | none => false

/-- The fault of level 1 on a splice port ends once no part on it awaits a resend. -/
def endSpliceFault (s : State) (port : Nat) : State :=
  let waits := s.gyles.any fun g => g.slots.any fun e => e.2.port = port && 0 < e.2.naks &&
    ((e.2.credited && !e.2.actDone) || (0 < e.2.baseCredited && !e.2.baseDone))
  if (openFault s (.port (pgPort port))).isSome && !waits && !((s.port port).sending.any fun x => 0 < x.naks)
  then endFault s (.port (pgPort port)) else s

/-- A beat whose check passes: on withdrawn credit it is discarded (R296); else Table 6.6 decides. -/
def goodBeat (s : State) (port : Nat) (t : BeatTag) (data : List Byte) : State :=
  let q := s.port port
  if (creditFor t q.credits).isNone && (creditFor t q.withdrawn).isSome then
    modPort s port fun q => { q with withdrawn := takeCredit t q.withdrawn }
  else match beatGyle s t with
    | none => badBeat s port t 1 none
    | some g =>
      let tenant := (g.rows.find? fun e => e.1 = t.row).map (·.2.tenant)
      if beatMisplaced g port t then badBeat s port t 2 tenant
      else match g.plan.slots[t.slot]? with
        | none => badBeat s port t 2 tenant
        | some p =>
          if beatOutOfTurn s g p port t then badBeat s port t 3 tenant
          else endSpliceFault (acceptBeat s g p port t data) port

/-- An inbound beat: one gauger event (R121). A lost domain passes no beats (Table 23.2). -/
def inboundBeat (port : Nat) (t : BeatTag) (data : List Byte) (check : LinkCheck) (s : State) : State :=
  if !domainPresent s port then s
  else
    let s := modPort (noteParity (stamp s) check) port fun p => { p with beatsIn := sat 64 (p.beatsIn + 1) }
    if dropping (s.port port) then modPort s port dropBeat
    else if check = .ok then goodBeat s port t data
    else checkFailed s port t

/-- `INBOUND_BEAT` (R121). -/
def execInboundBeat (port : Fin 128) (tag : BeatTag) (data : List Byte) (check : LinkCheck) (s : State) :
    Host.Outcome State Fault Refusal := .next (inboundBeat port tag data check s)

/-! ### Scatter (R81, R98, R100, R143) -/

/-- The row has been placed on a tun whose lane has room for it, or its space is taken already. -/
def laneRoom (s : State) (g : Gyle) (p : PlanSlot) (slot row : Nat) : Bool :=
  let x := g.rowSlot slot row
  !(opsOfRow s g.key slot row).isEmpty && (x.laneHeld || laneFits s g p x.tun (laneOf g row))

/-- The oldest staged beat that is still to be written to its lane. -/
def scatterHead (q : Port) : Option Staged := q.staged.find? (·.lane)

/-- The staged beat needs its lane no longer: its staging beat is free unless its row is still to be sent to a home. -/
def unstage (s : State) (port : Nat) (b : Staged) : State :=
  modPort s port fun q => { q with staged := (q.staged.map fun x => if x = b then { x with lane := false } else x).filter fun x =>
    x.lane || x.far }

/-- Write a staged beat to lane SRAM. -/
def writeBeat (s : State) (port : Nat) (b : Staged) : State :=
  modGyle (unstage s port b) b.gk fun g => g.modSlot b.slot b.row fun x =>
    { x with written := x.written + 1, present := x.present || b.last, laneHeld := x.laneHeld || !x.localDone }

/-- The bank of the activation area that a beat is written to. -/
def beatBank (tun lane : Nat) (b : Staged) : Nat := laneBank tun lane b.slot b.row (128 * b.index)

/-- A staged beat is held back: its staging beat is counted once (R124). -/
def holdBeat (s : State) (port : Nat) (b : Staged) : State :=
  if b.held then s
  else modPort s port fun q => { q with
    creditHolds := sat 32 (q.creditHolds + 1), staged := q.staged.map fun x => if x = b then { x with held := true } else x }

/-- The scatter of the oldest staged beat of a port, `f` saying how far the feeder of its row's lane has come: it waits while the feeder
is to read its bank or the lane has no room; a beat whose row needs no lane any longer is dropped. -/
def scatterWrite (port : Nat) (f : Feeder) (s : State) : State :=
  match scatterHead (s.port port) with
  | none => s
  | some b =>
    let s := placeSegment (stamp s) b.gk b.row b.slot
    match s.gyle b.gk with
    | none => unstage s port b
    | some g => match g.plan.slots[b.slot]? with
      | none => unstage s port b
      | some p =>
        let x := g.rowSlot b.slot b.row
        if x.localDone then writeBeat s port b
        else
          let lane := laneOf g b.row
          let s := settleRanks (runFeeder s x.tun lane f.ran f.ahead.val) x.tun
          if bankBusy s x.tun lane (beatBank x.tun lane b) || !laneRoom s g p b.slot b.row then holdBeat s port b
          else writeBeat s port b

/-- `SCATTER_WRITE` (R81, R100, R124). -/
def execScatterWrite (port : Fin 128) (feeder : Feeder) (s : State) : Host.Outcome State Fault Refusal :=
  .next (scatterWrite port feeder s)

/-! ### Departure (R126 to R129, R438) -/

/-- The part of a stream that is ready to leave on a port: the next row in order, its delta complete, and a base beat there in
splice mode. -/
def readyPart (x : StreamAt) (port : Nat) : Option Nat :=
  match nextOut x.g x.slot port with
  | none => none
  | some r =>
    let y := x.g.rowSlot x.slot r
    if deltaDone x.g y && 0 < outReady x.g x.p y then some r else none

/-- Start to send a part; what the spill area holds of it is read through the memory ports (R127). -/
def sendPart (s : State) (port : Nat) (x : StreamAt) (row : Nat) : State :=
  let s := if (x.g.rowSlot x.slot row).inSpill then
    startXfer s (.spill x.g.key.owner) false (Config.spillPlace x.slot row) (resvBytes x.g x.slot) [] else s
  sendBeats s port x.g x.p x.slot row

/-- The first stream in order with a part ready sends it, unless the port is in the midst of a part (R128). -/
def partSend (port : Nat) (s : State) : State :=
  if !domainPresent s port || (s.port port).openOut.isSome then s
  else match (streamsOn s port).find? fun x => (readyPart x port).isSome with
    | none => s
    | some x => match readyPart x port with
      | none => s
      | some r => sendPart (stamp s) port x r

/-- `PART_SEND_START` (R128). -/
def execPartSendStart (port : Fin 128) (s : State) : Host.Outcome State Fault Refusal := .next (partSend port s)

/-- The rejection names an outbound part that may still be rejected. -/
def PartOut.named (x : PartOut) (t : BeatTag) : Bool := x.gk = tagKey t && x.slot = t.slot && x.row = t.row && x.kind = t.kind

/-- The whole part is sent again, up to `RETRY_LIMIT` times; then level 4 for the context (R438). -/
def outboundNak (port : Nat) (t : BeatTag) (s : State) : State :=
  match (s.port port).sending.find? (·.named t) with
  | none => s
  | some x => match s.gyle x.gk with
    | none => s
    | some g => match g.plan.slots[x.slot]? with
      | none => s
      | some p =>
        let s := startFault (stamp s) (.port (pgPort port)) 0x0A 1 []
        let fid := ((openFault s (.port (pgPort port))).map (·.id)).getD 0
        if retryLimit s ≤ x.naks then levelFour (endFault s (.port (pgPort port))) x.gk.owner fid 0x0A 1
        else
          let y := g.rowSlot x.slot x.row
          let s := modPort s port fun q => { q with
            beatsOut := sat 64 (q.beatsOut + x.beats)
            sending := (q.sending.filter fun z => !z.named t) ++ [{ x with naks := x.naks + 1 }] }
          emitAll s (outBeats port g p x.slot x.row 0 x.beats y)

/-- `OUTBOUND_NAK` (R438). -/
def execOutboundNak (port : Fin 128) (tag : BeatTag) (s : State) : Host.Outcome State Fault Refusal :=
  .next (outboundNak port tag s)

/-- Every part of every stream of the gyle has left (R129). -/
def allLeft (g : Gyle) : Bool :=
  (List.range g.plan.slots.length).all fun i => (passingRows g i).all fun r => (g.rowSlot i r).out = .left

/-- The oldest sent part has left: its reservation is released, and the gyle drains with its last one (R126, R129, R438). -/
def partLeft (port : Nat) (s : State) : State :=
  match (s.port port).sending with
  | [] => s
  | x :: rest =>
    let s := modPort (stamp s) port fun q => { q with sending := rest }
    let s := freeResv s x.gk x.slot x.row
    let s := modGyle s x.gk fun g => g.modSlot x.slot x.row fun y => { y with out := .left, laneHeld := false, rankRoom := 0, backRoom := 0 }
    let s := sendFarRows (endSpliceFault s port)
    match s.gyle x.gk with
    | none => s
    | some g => if g.st = .running && allLeft g then drainGyle s x.gk else s

/-- `PART_LEFT` (R438). -/
def execPartLeft (port : Fin 128) (s : State) : Host.Outcome State Fault Refusal := .next (partLeft port s)

end Sys2Proof.Machine
end

