-- ==== Sys2Proof/Machine/Lost.lean ====
section
/-! DEFINITION. Lost tensors and lost updates (R342 to R345). -/
namespace Sys2Proof.Machine

/-- The slot that a tensor index belongs to; none for a state array. -/
def tensorSlot (v : Ver) (idx : Nat) : Option (Nat × Nat) := (v.slots[idx / 2]?).map fun e => (e.layer, e.proj)

/-- The row uses a version, itself or as a basis, served here. -/
def rowUses (r : Row) (a : AdapterId) (v : Nat) : Bool :=
  r.comps.any fun c => c.path = .here && c.live && ((c.adapter = a && c.version = v) || c.basis = some (a, v))

/-- Row-slots of a serving gyle that wait and need the tensor: begun, their delta not complete. -/
def slotsNeeding (g : Gyle) (a : AdapterId) (v layer proj : Nat) : List (Nat × Nat) :=
  g.slots.filterMap fun e =>
    let slot := e.1 / 2 ^ 20
    let row := e.1 % 2 ^ 20
    match g.plan.slots[slot]? with
    | some p => if p.layer = layer && p.proj = proj && e.2.credited && !e.2.localDone && rowUses (tget {} g.rows row) a v
        then some (slot, row) else none
    | none => none

/-- A gyle's row-slots that need a lost tensor are substituted at once; a training gyle that needs it ends (R342). -/
def loseInGyle (a : AdapterId) (v : Nat) (at_ : Option (Nat × Nat)) (s : State) (g : Gyle) : State :=
  if g.kind = .training then
    if !g.held && g.rows.any fun e => rowUses e.2 a v then endTraining s g else s
  else match at_ with
    | some (layer, proj) => (slotsNeeding g a v layer proj).foldl (fun t x => substitute t g.key x.1 x.2 true) s
    | none => s

/-- The restore point of an adapter (R343): its newest version that T4 holds. -/
def restorePoint (x : Adapter) : Option Ver := x.versions.find? (·.inT4)

/-- `LAST_TRAIN_SEQ` of a version; 0 where it has no state area. -/
def lastTrain (v : Ver) : Nat := (v.state.map (·.lastTrainSeq)).getD 0

/-- A lost update (R344): the restore point is published as the next version at the present event. That the version number goes on past
0xFFFF_FFFF_FFFE is the model's choice (log entry 45). -/
def updateLost (s : State) (a : AdapterId) : State :=
  let x := s.cat.adapter a
  match x.cur, restorePoint x with
  | some v, some r =>
    let s := { s with integrity := { s.integrity with updatesLost := sat 16 (s.integrity.updatesLost + 1) } }
    let s := logNow s pgIntegrity evUpdateLost (some v.hdr.tenant) none 0
      (leBytes 3 a ++ [0] ++ leBytes 6 r.version ++ leBytes 6 v.version ++ leBytes 8 (lastTrain r) ++ leBytes 8 (lastTrain v))
    let s := raise s pgIntegrity 4
    let n : Ver := { r.shared s.cat.epoch with version := v.version + 1, hdr := { r.hdr with version := v.version + 1 }, byPublish := false
                                               lost := [], stateFreed := false }
    -- the lost version's cask shares nothing with the restored one
    let s := (publishVersion (releaseBy s fun s => staleCask s s.cat.epoch a v.version) n (verIndices n) false false).1
    enterShared s s.cat.epoch n
  | _, _ => s

/-- A tensor of a version is lost at the present event (R342); when T4 does not hold the version, its update is lost (R344). -/
def tensorLost (s : State) (epoch : Nat) (a : AdapterId) (v idx : Nat) : State :=
  match verOf s epoch a v with
  | none => s
  | some ver =>
    if ver.lost.contains idx then s
    else
      let s := modVerOf s epoch a v fun y => { y with lost := y.lost ++ [idx] }
      let s := { s with integrity := { s.integrity with tensorsLost := sat 16 (s.integrity.tensorsLost + 1) } }
      let s := logNow s pgIntegrity evTensorLost (some ver.hdr.tenant) none 0
        (leBytes 3 a ++ [0] ++ leBytes 6 v ++ leBytes 2 idx)
      let s := raise s pgIntegrity 3
      let s := (s.gyles.filter fun g => g.epoch = epoch && !g.key.far).foldl (loseInGyle a v (tensorSlot ver idx)) s
      if epoch = s.cat.epoch && !ver.inT4 && (s.cat.adapter a).current = v && homedHere s a then updateLost s a else s

end Sys2Proof.Machine
end

