-- ==== Sys2Proof/Machine/Purging.lean ====
section
/-! DEFINITION. What a purge does on a block at the sequence that orders it (R411, R412), on the home or on a lease holder, and
what ends with the last issued operation on the adapter (R413). -/
namespace Sys2Proof.Machine

/-- A component names an adapter, itself or as its basis. -/
def compNames (a : AdapterId) (c : Comp) : Bool :=
  c.live && (c.adapter = a || match c.basis with
    | some b => b.1 = a
    | none => false)

/-- An operation computes with an adapter for one of its rows. -/
def opUses (s : State) (a : AdapterId) (o : Op) : Bool :=
  o.tile.any (fun t => t.adapter = a) || match s.gyle o.gk with
    | none => false
    | some g => !o.sub && o.comps.any fun x => x.2.any fun r => match (tget {} g.rows r : Row).comps[x.1]? with
        | some c => compNames a c
        | none => false

/-- Operations on an adapter that have issued and whose checks have not passed. -/
def issuedOn (s : State) (a : AdapterId) : Bool := s.tuns.any fun e => e.2.issued.any (opUses s a)

/-- Operations that have not issued. -/
def unissued (s : State) : List Op :=
  s.tuns.flatMap (fun e => e.2.queue) ++ (s.heldGroups.flatMap fun h => h.members.map (·.2)) ++ s.orphans

/-- Row-slots of a gyle that have begun and still need the adapter: an operation on it has not issued, or its pooled sum has not
come (R412). -/
def slotsOwing (s : State) (g : Gyle) (a : AdapterId) : List (Nat × Nat) :=
  let ops := (unissued s).filter fun o => o.gk = g.key && opUses s a o
  g.slots.filterMap fun e =>
    let slot := e.1 / 2 ^ 20
    let row := e.1 % 2 ^ 20
    let far := (tget {} g.rows row : Row).comps.any fun c => compNames a c && match c.path with
      | .farAt h => (e.2.farPending ++ e.2.farUnsent).contains h
      | .here => false
    if e.2.credited && e.2.served = .own && (far || ops.any fun o => o.slot = slot && o.rows.contains row) then some (slot, row) else none

/-- A row of a gyle has still to begin at a slot where the adapter has tensors. -/
def slotsToCome (s : State) (g : Gyle) (a : AdapterId) : Bool :=
  (List.zip (List.range g.plan.slots.length) g.plan.slots).any fun p => (rowList g).any fun r =>
    let row : Row := tget {} g.rows r
    rowPasses g row p.1 && !(g.rowSlot p.1 r).credited && row.comps.any fun c => compNames a c && match verOf s g.epoch c.adapter c.version with
      | some v => (slotAt v.slots p.2.layer p.2.proj).isSome
      | none => true

/-- A purge against one gyle that bound the adapter (R412): its row-slots that still need the adapter are substituted at once; a
training gyle that needs it ends. A far gyle keeps only what has issued. -/
def purgeInGyle (a : AdapterId) (s : State) (g : Gyle) : State :=
  if !g.rows.any fun e => e.2.comps.any (compNames a) then s
  else if g.kind = .training then (if !g.held && (slotsToCome s g a || !(slotsOwing s g a).isEmpty) then endTraining s g else s)
  else if g.kind = .far then
    (slotsOwing s g a).foldl (fun s x => modGyle (dropRow s g.key x.1 x.2) g.key fun g =>
      { g with farWork := g.farWork.filter fun w => ¬ (w.slot = x.1 ∧ w.rows.contains x.2 = true) }) s
  else (slotsOwing s g a).foldl (fun s x => substitute s g.key x.1 x.2 true) s

/-- A copy in T3 is zeroed through `M_T3_WRITE` before it is dropped (Table 21.3). -/
def zeroT3 (s : State) (w : Warm) : State :=
  match s.tiers.borrowed.find? fun b => some b.grant = w.grant with
  | none => s
  | some b =>
    let v := ((s.cat.adapter w.adapter).ver w.version).getD {}
    (verIndices v).foldl (fun s i =>
      let n := (storedBytes v i).length
      sendMsg s { type := 0x66, dst := b.lender, epoch := s.cat.epoch
                  args := [b.grant, v.hdr.id, v.version, i, n, 0, n, (crc64 (List.replicate n 0)).toNat], data := List.replicate n 0 }) s

/-- Casks of purged adapters whose issued operations have ended are freed (R411). -/
def freePurged (s : State) : State :=
  (caskList s).foldl (fun s e => if e.2.purged && !issuedOn s e.2.adapter then freeCask s e.1 else s) s

/-- A holder answers the revocation of a purge once its issued operations on the adapters have ended (R413). -/
def answerPurges (s : State) : State :=
  let due := s.homes.acksDue.filter fun x => x.1.all fun a => !issuedOn s a
  let s := { s with homes := { s.homes with acksDue := s.homes.acksDue.filter fun x => !due.contains x } }
  due.foldl (fun s x => reply s x.2 0x06 0 [] []) s

/-- What waits for operations to run out after a purge. -/
def purgeTick (s : State) : State :=
  if s.homes.acksDue.isEmpty && !(caskList s).any (fun e => e.2.purged) then s
  else
    let t := freePurged s
    answerPurges (if t.cellar.casks.length < s.cellar.casks.length then release t else t)

/-- The waiting `PREFETCH`es of a purged adapter complete `PURGED` (R285). -/
def endPrefetches (s : State) (a : AdapterId) : State :=
  s.ctxs.foldl (fun t e => e.2.inflight.foldl (fun t cmd =>
    if cmd.opcode = 0x14 && cmd.adapter = a then completeLater (stamp t) e.1 cmd stPurged 0 (leBytes 6 cmd.version) else t) t) s

/-- Table 21.3 at the present event. -/
def applyPurge (s : State) (a : AdapterId) : State :=
  let s := noteSuperseded s s.cat.epoch a (s.cat.adapter a).current
  let s := modAdapter s a fun x => { x with retired := true, retiredSeq := s.gauger.seq }
  let other := fun (k : JournalKind) => match k with
    | .dirty b _ => decide (b ≠ a)
    | _ => true
  let s := { s with catStaged := s.catStaged.map fun (c : Catalogue) => { c with adapters := tdel a c.adapters, listed := c.listed.filter (· ≠ a), carries := c.carries.filter (· ≠ a) } }
  let s := { s with train := { s.train with dirty := s.train.dirty.filter fun d => d.adapter ≠ a } }
  let s := { s with kiln := { s.kiln with pending := s.kiln.pending.filter other } }
  let s := { s with cellar := { s.cellar with
    pins := (s.cellar.pins.filter fun p => p.adapter ≠ a)
    waiting := (s.cellar.waiting.filter fun r => !r.parts.any fun p => p.adapter = a) } }
  let s := (s.tiers.streams.filter fun st => st.adapter = a).foldl endStream s
  let s := (s.tiers.warm.filter fun w => w.adapter = a && w.grant.isSome).foldl zeroT3 s
  let s := { s with tiers := { s.tiers with warm := s.tiers.warm.filter fun w => w.adapter ≠ a } }
  let s := (caskList s).foldl (fun s e =>
    if e.2.adapter = a && e.2.epoch = s.cat.epoch then
      modCask s e.1 fun c => { c with purged := true, pins := 0, fallbackHold := false, memberHold := false, dirty := [], moved := [] }
    else s) s
  let s := (s.gyles.filter fun g => g.epoch = s.cat.epoch).foldl (purgeInGyle a) s
  purgeTick (refreshHolds (endPrefetches s a))

end Sys2Proof.Machine
end

