-- ==== Sys2Proof/Machine/Fence.lean ====
section
/-! DEFINITION. Fencing a tun, moving its work, and tuns that join the fabric (R105, R110, R111, R339, R340, R346). -/
namespace Sys2Proof.Machine

/-- Operations of every kind that have not ended, wherever they stand. -/
def allOps (s : State) : List Op :=
  (s.tuns.flatMap fun e => e.2.queue ++ e.2.issued) ++ (s.heldGroups.flatMap fun h => h.members.map (·.2)) ++ s.orphans

/-- The level that acts on a fault now (Table 16.15). -/
def setFaultLevel (s : State) (id : Seq) (level : Nat) : State :=
  { s with integrity := { s.integrity with
    faults := s.integrity.faults.map fun f => if f.id = id then { f with level } else f
    lastLevel := if s.integrity.lastId = id then level else s.integrity.lastLevel } }

/-- A tun's fault ends once no level acts and its count of mismatches is 0 (R339). -/
def endTunFault (s : State) (t : Nat) : State :=
  match openFault s (.tun t) with
  | some f => if f.level = 0 && (s.tun t).faultCount = 0 then endFault s (.tun t) else s
  | none => s

/-- The replays of a fault are over: its level has completed (R336). -/
def replayDone (s : State) (id : Seq) : State :=
  if id = 0 || (allOps s).any (fun o => o.replayOf = id && !o.discard) then s
  else
    let s := setFaultLevel s id 0
    (s.integrity.faults.filter fun f => f.id = id).foldl (fun s f => match f.object with
      | .tun t => endTunFault s t
      | _ => s) s

/-- A tun changes state at the present event: `TUN_STATE_CHANGE` (Table 22.9). -/
def setTunState (s : State) (t : Nat) (st : TunState) (logical : Option Nat) : State :=
  let x := s.tun t
  let s := setTun s t { x with st, logical }
  if x.st = st then s else raise s (pgTun t) 1

/-- The rows of some operations are kept in the lane SRAM of a tun (R340). -/
def moveRows (s : State) (t : Nat) (ops : List Op) : State :=
  ops.foldl (fun s o => modGyle s o.gk fun g => o.rows.foldl (fun g r => g.modSlot o.slot r fun x => { x with tun := t }) g) s

/-- Operations enter a tun's queue, at its head or its tail. -/
def giveOps (s : State) (t : Nat) (head : Bool) (ops : List Op) : State :=
  moveRows (modTun s t fun x => { x with queue := if head then ops ++ x.queue else x.queue ++ ops }) t ops

/-- The least-backlog active tun other than one; that one again where no other is active. -/
def otherTun (s : State) (t : Nat) : Nat := ((tunsByBacklog s).find? (· ≠ t)).getD t

/-- The slices of a fenced tun go to the tuns with the least backlog, slice by slice (R110); with T at 0 they wait. Where a slice enters
its new queue is the model's choice: at the head when any of its operations is a replay, else at the tail (log entry 48). -/
def rePlace (s : State) (ops : List Op) : State :=
  let slices := (ops.map fun o => (o.gk, o.slot, o.segment)).eraseDups
  slices.foldl (fun s k =>
    let mine := ops.filter fun o => (o.gk, o.slot, o.segment) = k
    match tunsByBacklog s with
    | t :: _ => giveOps s t (mine.any (·.replayOf ≠ 0)) mine
    | [] => { s with orphans := s.orphans ++ mine }) s

/-- A gyle whose issued operations must run again (R340). -/
def noteReplay (s : State) (k : GyleKey) : State :=
  modGyle s k fun g => { g with replayed := true, replays := g.replays + 1 }

/-- The gyles of some operations. -/
def gylesOf (ops : List Op) : List GyleKey := (ops.map (·.gk)).eraseDups

/-- The free spare that takes over: the lowest-numbered one, where R110 leaves open which (log entry 48). -/
def freeSpare (s : State) : Option Nat := (s.tuns.find? fun e => e.2.st = .spare).map (·.1)

/-- The rank values that the swap writes for a row. -/
def passValues (ops : List Op) (row : Nat) : Nat :=
  ((ops.flatMap fun q => q.comps.flatMap fun x => if x.2.contains row then [(x.1, q.lo, q.hi)] else []).eraseDups.map fun y =>
    y.2.2 - y.2.1).sum

/-- Rank areas reserved for passes that have not swapped are free again: the replay reserves its own. -/
def freeRanks (s : State) (ops : List Op) : State :=
  (ops.filter fun o => o.endsPass && !o.manyFills).foldl (fun s o => modGyle s o.gk fun g =>
    o.rows.foldl (fun g r => g.modSlot o.slot r fun x =>
      let n := passValues (ops.filter fun q => groupOf q = groupOf o && q.fill = o.fill) r
      if o.kind = .backShrink then { x with backRoom := x.backRoom - n } else { x with rankRoom := x.rankRoom - n }) g) s

/-- Recovery level 3: the tun is fenced at the present event; a spare takes its logical index and its queue, or its slices are
placed again; operations that had issued and not passed their checks are replayed (R110, R340). -/
def fenceTun (s : State) (t source : Nat) : State :=
  let s := startFault s (.tun t) source 3 []
  let x := s.tun t
  let id := ((openFault s (.tun t)).map (·.id)).getD 0
  let live := (x.issued.filter fun o => !o.discard && !o.rows.isEmpty).map fun o => { o with replayOf := id }
  let ops := live ++ x.queue
  let s := setTun s t { x with
    queue := [], issued := [], sets := [], feeders := [], rankWaits := [], half0 := none, half1 := none, readmitStep := 0, selfTest := false }
  let s := setTunState s t .fenced none
  let s := (gylesOf live).foldl noteReplay (freeRanks s live)
  let s := (gylesOf ops).foldl (fun s k => modGyle s k fun g => { g with degraded := g.degraded || g.kind ≠ .far }) s
  let s := match x.logical with
    | none => rePlace s ops
    | some l =>
      let s := match freeSpare s with
        | some p => giveOps (setTunState s p .active (some l)) p true ops
        | none => rePlace s ops
      raise s pgIntegrity 2
  settleBlocked (replayDone s id)

/-- Segments whose rows reached a slot while T was 0 are placed (R308). -/
def placeWaiting (s : State) : State :=
  s.gyles.foldl (fun s g => if g.key.far then s else g.slots.foldl (fun s e =>
    if e.2.credited && !e.2.localDone && e.2.served = .own then placeSegment s g.key (e.1 % 2 ^ 20) (e.1 / 2 ^ 20) else s) s) s

/-- The lowest logical index that no active tun serves. -/
def vacantIndex (s : State) : Nat := firstFree 0 ((activeTuns s).map fun e => (e.1, ()))

/-- A tun enters `SPARE`; while T is below 64 it takes the lowest vacant index at once, with the work that waits for a tun
(R111, R346). -/
def enterSpare (s : State) (t : Nat) : State :=
  if tunCount s < 64 then
    let ops := s.orphans
    let s := setTunState s t .active (some (vacantIndex s))
    let s := raise (giveOps { s with orphans := [] } t false ops) pgIntegrity 2
    placeWaiting s
  else setTunState s t .spare none

/-- `TUN_CMD` 0b01 is refused for a tun in `FENCED`, `RETIRED` or `DOWN` (Table 5.6), and during a block reset (R400). -/
def fenceCheck (t : Nat) (s : State) : Option Nat :=
  if (s.tun t).st = .fenced || (s.tun t).st = .retired || (s.tun t).st = .down || inBlockReset s then some stBadState else none

/-- `TUN_FENCE_CMD` (R110). -/
def execTunFenceCmd (t : Fin 68) (role : Role) (s : State) : Host.Outcome State Fault Refusal :=
  .next (busWrite (pgTun t) 0x088 1 role (fenceCheck t) (fun s => fenceTun s t 0x0B) s)

/-- A tun's count of mismatches older than 1 s stops counting (R328); its fault ends when none is left and no level acts. -/
def faultCountExpiry (t : Nat) (s : State) : State :=
  if (s.tun t).faultCount = 0 then s
  else endTunFault (modTun (stamp s) t fun x => { x with faultCount := x.faultCount - 1 }) t

/-- `TUN_FAULT_COUNT_EXPIRY` (R328). -/
def execTunFaultCountExpiry (t : Fin 68) (s : State) : Host.Outcome State Fault Refusal := .next (faultCountExpiry t s)

end Sys2Proof.Machine
end

