-- ==== Sys2Proof/Machine/Tuns.lean ====
section
/-! DEFINITION. What a tun does: tile requests and tags (R96, R107, R325, R326), the issue rule (R101 to R103), batch windows
(R85, R86), the swap with its checksum comparison (R106, R328), gradients (R144, R145), and the policy of late row-slots at
its cut-off and its grace (R194). -/
namespace Sys2Proof.Machine

/-! ### Components and tensors of an operation -/

/-- A tensor of a bound version is present in its cask (R189); a purged cask still serves what issued before the purge (R411). -/
def tensorHere (s : State) (epoch : Nat) (a : AdapterId) (v idx : Nat) : Bool :=
  (caskList s).any fun e => e.2.epoch = epoch && e.2.adapter = a && e.2.version = v && e.2.present.contains idx

/-- The vectors that an operation reads of a member: u for a shrink, v for an expand, both for a training operation. -/
def vecIndices (o : Op) (c : CompAt) : List Nat :=
  if c.v.hdr.form ≠ .member then []
  else match o.kind with
    | .shrink => [2 * c.own]
    | .expand => [2 * c.own + 1]
    | _ => [2 * c.own, 2 * c.own + 1]

/-- The tensors of an operation's tile are present in the cellar: the tile may be requested (R107, R189). -/
def tileHere (s : State) (o : Op) : Bool :=
  match s.gyle o.gk with
  | none => true
  | some g => o.tile.all fun x => tensorHere s g.epoch x.adapter x.version x.tensor

/-- Every tensor that an operation reads is present: its tile's, and its members' vectors. -/
def tensorsHere (s : State) (o : Op) : Bool :=
  tileHere s o && match s.gyle o.gk with
  | none => true
  | some g => match g.plan.slots[o.slot]? with
    | none => true
    | some p => o.comps.all fun x => x.2.all fun r => match rowComp s g p o x.1 r with
      | some c => (vecIndices o c).all fun i => tensorHere s g.epoch c.c.adapter c.c.version i
      | none => true

/-- The rows of an operation that are present in lane SRAM. -/
def presentRows (s : State) (o : Op) : List Nat :=
  match s.gyle o.gk with
  | none => []
  | some g => o.rows.filter fun r => (g.rowSlot o.slot r).present

/-- Every row of an operation is present in lane SRAM. -/
def rowsPresent (s : State) (o : Op) : Bool := (s.gyle o.gk).isSome && (presentRows s o).length = o.rows.length

/-! ### Tiles -/

/-- One half of the factor buffer. -/
def Tun.half (t : Tun) (h : Nat) : Option TileBuf := if h = 0 then t.half0 else t.half1

/-- Replace one half. -/
def Tun.setHalf (t : Tun) (h : Nat) (b : Option TileBuf) : Tun := if h = 0 then { t with half0 := b } else { t with half1 := b }

/-- The half holds, or is filled with, the tile of an operation. -/
def reads (o : Op) (b : TileBuf) : Bool := !o.tile.isEmpty && o.tile = b.tile && o.transposed = b.transposed

/-- The tile of an operation is complete in a half and has passed its tag check; an operation without a tile needs none. -/
def tileReady (t : Tun) (o : Op) : Bool :=
  o.tile.isEmpty || (t.half0.toList ++ t.half1.toList).any fun b => b.ready && reads o b

/-- The tile of an operation as a buffer would hold it. -/
def tileOf (o : Op) : TileBuf := { tile := o.tile, transposed := o.transposed }

/-- The first two distinct tiles in queue order that may be requested (R96, R107). -/
def wantedTiles (s : State) (t : Tun) : List TileBuf :=
  ((t.queue.filter fun o => !o.tile.isEmpty && tileHere s o).map tileOf).eraseDups.take 2

/-- The issued operations whose handshakes may still have to run: those that end a fill, and those behind one. Handshakes run in
issue order, so an operation before the first that ends a fill may have run out already, and its half is free again (R92, R96,
Table 5.3). -/
def running (t : Tun) : List Op := t.issued.dropWhile fun o => !o.endsPass

/-- The two buffers stand for one tile. -/
def TileBuf.same (a b : TileBuf) : Bool := a.tile = b.tile && a.transposed = b.transposed

/-- The half is free: empty, or its tile is neither read by a running operation, nor by the next queued operation that reads a tile,
nor wanted (R96). -/
def halfFree (t : Tun) (want : List TileBuf) (h : Nat) : Bool :=
  match t.half h with
  | none => true
  | some b => b.ready && !(running t).any (reads · b) && !want.any (·.same b) &&
      !((t.queue.find? fun o => !o.tile.isEmpty).any (reads · b))

/-! ### The broadcast buffer (R181) -/

/-- The operations read the tile for one segment at one slot: the cellar reads it once for their tuns (R83, R96). -/
def sharesTile (o q : Op) : Bool := q.gk = o.gk && q.slot = o.slot && q.segment = o.segment && reads q (tileOf o)

/-- Active tuns that a tile goes to: those with an operation in their queue that reads it for the segment that `o` reads it for. -/
def readers (s : State) (o : Op) : List Nat :=
  (s.tuns.filter fun e => e.2.st = .active && e.2.queue.any (sharesTile o)).map (·.1)

/-- The slot holds the tile of an operation, read for its segment. -/
def BroadSlot.serves (x : BroadSlot) (o : Op) : Bool := x.gk = o.gk && x.segment = o.segment && x.buf.same (tileOf o)

/-- The slots of the broadcast buffer that are in use: those of which a tun is still to be delivered to. -/
def liveSlots (s : State) : List BroadSlot :=
  let waits := fun (x : BroadSlot) (t : Nat) =>
    (s.tun t).queue.any x.serves || ((s.tun t).half0.toList ++ (s.tun t).half1.toList).any fun b => !b.ready && b.same x.buf
  (s.cellar.broadcast.map fun x => ({ x with tuns := x.tuns.filter (waits x) } : BroadSlot)).filter fun x => !x.tuns.isEmpty

/-- The place of a tile in the order in which slots are given: the opening sequence of its gyle, `ISSUE_RANK`, segment position. -/
def slotOrder (s : State) (o : Op) : List Nat :=
  match s.gyle o.gk with
  | none => []
  | some g =>
    [g.openSeq, ((g.plan.slots[o.slot]?).map (·.issueRank)).getD 0, ((g.segments[o.segment]?).map (·.firstPos)).getD 0]

/-- The operation whose tile a tun would request next, when a half of it is free. -/
def nextTile (s : State) (t : Nat) : Option (Op × Nat) :=
  let x := s.tun t
  let want := wantedTiles s x
  let next := (want.find? fun w => !(x.half0.toList ++ x.half1.toList).any (·.same w)).bind fun w =>
    x.queue.find? fun o => tileHere s o && reads o w
  if x.st ≠ .active then none
  else match next, [0, 1].find? (halfFree x want) with
    | some o, some h => some (o, h)
    | _, _ => none

/-- A tile that goes to two or more tuns may be requested: it stands in a slot, or one of the 8 is free and no tile that comes
earlier in order waits for it. -/
def slotFor (s : State) (t : Nat) (o : Op) : Bool :=
  let live := liveSlots s
  (readers s o).all (· = t) || live.any (·.serves o) ||
    (live.length < 8 && !s.tuns.any fun e => match nextTile s e.1 with
      | some (w, _) => !sharesTile o w && 2 ≤ (readers s w).length && !live.any (·.serves w) && lexLt (slotOrder s w) (slotOrder s o)
      | none => false)

/-- The tile is read once into a slot for every tun that it goes to. -/
def takeSlot (s : State) (t : Nat) (o : Op) : State :=
  let live := liveSlots s
  let new := if (readers s o).all (· = t) || live.any (·.serves o) then live
    else live ++ [{ buf := tileOf o, gk := o.gk, segment := o.segment, tuns := readers s o }]
  { s with cellar := { s.cellar with broadcast := new } }

/-- A tile has been delivered to a tun; its slot is freed after the last delivery. -/
def slotDelivered (s : State) (t : Nat) (b : TileBuf) : State :=
  { s with cellar := { s.cellar with broadcast := (s.cellar.broadcast.map fun x =>
    if x.buf.same b then { x with tuns := x.tuns.filter (· ≠ t) } else x).filter fun x => !x.tuns.isEmpty } }

/-- The tun requests the first wanted tile that it does not hold, when a half is free (R107); of two free halves it fills half 0
first (log entry 48). -/
def tileRequest (t : Nat) (s : State) : State :=
  match nextTile s t with
  | some (o, h) => if slotFor s t o then modTun (takeSlot (stamp s) t o) t fun x => x.setHalf h (some (tileOf o)) else s
  | none => s

/-- `TILE_REQUEST` (R107). -/
def execTileRequest (t : Fin 68) (s : State) : Host.Outcome State Fault Refusal := .next (tileRequest t s)

/-- The pages that a part of a tile reads. -/
def pagesOf (p : TilePart) : List (TilePart × Nat) :=
  if p.toByte ≤ p.fromByte then []
  else (List.range ((p.toByte - 1) / 4096 - p.fromByte / 4096 + 1)).map fun i =>
    ({ p with fromByte := 0, toByte := 0 }, p.fromByte / 4096 + i)

/-- The cask that a part of a tile is read from. -/
def partCask (s : State) (epoch : Nat) (p : TilePart) : Cask := ((caskOf s epoch p.adapter p.version).map s.cask).getD {}

/-- The XOR of something over every page that a tile reads. -/
def overPages (tile : List TilePart) (f : TilePart → Nat → Nat) : Nat :=
  ((tile.flatMap pagesOf).eraseDups).foldl (fun n x => n ^^^ f x.1 x.2) 0

/-- The tag that an operation expects of a tile, from the run that it serves and from the tensor versions that the cask records (R326). -/
def expectedTag (s : State) (epoch : Nat) (tile : List TilePart) : Nat :=
  overPages tile fun p page =>
    pageTag p.adapter (tget p.version (partCask s epoch p).writers p.tensor) p.tenant p.layer p.proj p.side page

/-- The tag that the read path gives with a tile, from the tag array of each cask (R325). -/
def storedTag (s : State) (epoch : Nat) (tile : List TilePart) : Nat :=
  overPages tile fun p page => (tget [] (partCask s epoch p).tags p.tensor).getD page 0

/-- The epoch of the gyle that asked for the tile that a half is filled with. -/
def tileEpoch (s : State) (t : Tun) (b : TileBuf) : Nat :=
  match (t.queue ++ t.issued).find? (reads · b) with
  | some o => ((s.gyle o.gk).map (·.epoch)).getD s.cat.epoch
  | none => s.cat.epoch

/-- A tile whose tag matches: it is ready; the operations whose rows waited for it are counted (Table 5.9), and a fault of
level 1 on the tun ends. -/
def tileMatches (s : State) (t h : Nat) (b : TileBuf) : State :=
  let x := s.tun t
  let late := fun (o : Op) => reads o b && rowsPresent s o && !o.counted
  let waited := (x.queue.filter late).length
  let epoch := tileEpoch s x b
  let s := slotDelivered s t b
  let s := setTun s t ({ x with
    tileWaits := sat 32 (x.tileWaits + waited)
    queue := x.queue.map fun o => if late o then { o with counted := true } else o }.setHalf h (some { b with ready := true, retries := 0 }))
  let s := b.tile.foldl (fun s p => match caskOf s epoch p.adapter p.version with
    | some i => modCask s i fun c => { c with refetched := c.refetched.filter (· ≠ p.tensor) }
    | none => s) s
  match openFault s (.tun t) with
  | some f => if f.level ≤ 1 && x.faultCount = 0 then endFault s (.tun t) else
      if f.level = 1 then setFaultLevel s f.id 0 else s
  | none => s

/-- A tensor whose tiles mismatched `RETRY_LIMIT` times is dropped from its cask and fetched again; a copy fetched for that
reason is lost (R326). -/
def refetchTensor (s : State) (epoch : Nat) (p : TilePart) : State :=
  match caskOf s epoch p.adapter p.version with
  | none => s
  | some i =>
    if (s.cask i).refetched.contains p.tensor then
      tensorLost (modCask s i fun c => { c with refetched := c.refetched.filter (· ≠ p.tensor)
                                                present := c.present.filter (· ≠ p.tensor) }) epoch p.adapter p.version p.tensor
    else
      let s := modCask s i fun c => { c with
        present := c.present.filter (· ≠ p.tensor), refetched := c.refetched ++ [p.tensor]
        st := if c.st = .resident then .filling else c.st }
      let st : Stream := {
        id := s.tiers.nextStream, adapter := p.adapter, version := p.version, cask := i, place := s.gauger.seq, left := [p.tensor]
        home := homeFor s (catOf s epoch) p.adapter p.version, noBorrow := (s.cask i).noBorrow, epoch }
      { s with tiers := { s.tiers with streams := s.tiers.streams ++ [st], nextStream := s.tiers.nextStream + 1 } }

/-- A tile whose tag mismatches: refused and counted, read again at level 1 up to `RETRY_LIMIT` times (R326). -/
def tileMismatch (s : State) (t h : Nat) (b : TileBuf) : State :=
  let epoch := tileEpoch s (s.tun t) b
  let s := modTun s t fun x => { x with tagMismatches := sat 16 (x.tagMismatches + 1) }
  let s := startFault s (.tun t) 0x01 1 []
  if b.retries + 1 < retryLimit s then modTun s t fun x => x.setHalf h (some { b with retries := b.retries + 1 })
  else
    let s := modTun s t fun x => x.setHalf h none
    let ts := (b.tile.map fun p => ({ p with fromByte := 0, toByte := 0 } : TilePart)).eraseDups
    ts.foldl (fun s p => refetchTensor s epoch p) s

/-- A tile has arrived in a half: its tag, with the bits that came out wrong on the way, is checked (R96, R326). -/
def tileArrived (s : State) (t h upset : Nat) (b : TileBuf) : State :=
  let epoch := tileEpoch s (s.tun t) b
  if storedTag s epoch b.tile ^^^ upset = expectedTag s epoch b.tile then tileMatches s t h b else tileMismatch s t h b

/-! ### Late rows at the issue -/

/-- The home tells the requester that rows of its slot wait for a tensor (R222). -/
def markFarLate (s : State) (k : GyleKey) (slot : Nat) (rows : List Nat) : State :=
  match s.gyle k with
  | none => s
  | some g =>
    let late := rows.filter fun r => !(g.rowSlot slot r).late
    g.farWork.foldl (fun s w =>
      let rs := late.filter fun r => w.slot = slot && w.rows.contains r
      if rs.isEmpty then s
      else
        let p : PlanSlot := (g.plan.slots[slot]?).getD {}
        let s := sendMsg s { w.ask with type := 0x24, status := 0, data := []
                                        args := [p.layer, p.proj, p.inW, p.outW, p.actFmt] ++ rs }
        modGyle s k fun g => rs.foldl (fun g r => g.modSlot slot r fun x => { x with late := true }) g) s

/-- The row-slots of a tun's queue that are present and wait for a tensor become late (R193). -/
def lateOps (s : State) (t : Nat) : State :=
  ((s.tun t).queue.filter fun o => !tensorsHere s o && !o.sub).foldl (fun s o =>
    let rows := presentRows s o
    if o.gk.far then markFarLate s o.gk o.slot rows
    else rows.foldl (fun s r => markLate s o.gk o.slot r) s) s

/-! ### The issue rule -/

/-- An earlier operation of the sequence of the same lane group must issue first (R102); what a partial operation left out holds
back only the operations on its own rows (R103). -/
def blockedBy (q o : Op) : Bool := groupOf q = groupOf o && (!q.rest || q.rows.any o.rows.contains)

/-- Condition 3 of R101: the operation goes on with a set in use, or one of the two is free. -/
def setFree (t : Tun) (o : Op) : Bool := (openSet t o).isSome || t.sets.length < 2

/-- The lane operand of an operation reads what another one drains (R93, Table 7.3). -/
def feeds (q o : Op) : Bool :=
  match o.kind with
  | .expand | .fwdExpand | .gradB => q.kind = .shrink
  | .actGrad | .gradA => q.kind = .backShrink
  | .shrink | .backShrink => false

/-- What an operation reads of its rows has drained, on whichever tun its pass runs, and has been written to their lanes (R100, R101). -/
def drained (s : State) (o : Op) : Bool :=
  !s.tuns.any fun e =>
    (e.2.issued.any fun q => groupOf q = groupOf o && q.rows.any o.rows.contains && feeds q o) ||
    (e.2.queue.any fun q => q ≠ o && groupOf q = groupOf o && q.rows.any o.rows.contains && feeds q o) ||
    (e.2.rankWaits.any fun w => w.gk = o.gk && w.slot = o.slot && o.rows.contains w.row &&
      feeds { kind := if w.back then .backShrink else .shrink } o)

/-- Conditions 1 to 3 of R101, and R102, for an operation behind others in the queue. -/
def mayIssue (s : State) (t : Tun) (before : List Op) (o : Op) : Bool :=
  rowsPresent s o && tensorsHere s o && tileReady t o && setFree t o && !before.any (blockedBy · o) && drained s o

/-- The tun partials that an operation adds to, empty (R145). -/
def opPartials (s : State) (t : Nat) (o : Op) : List Partial :=
  match s.gyle o.gk with
  | none => []
  | some g => match g.plan.slots[o.slot]? with
    | none => []
    | some p => o.comps.filterMap fun x => match x.2.head?.bind (rowComp s g p o x.1) with
      | none => none
      | some c => (gradTarget g p o c x.2).map fun y =>
        { gk := o.gk, tun := t, segment := o.segment, slot := o.slot, adapter := y.1, tensor := y.2.1, values := List.replicate y.2.2.1 0 }

/-- Gradient scratch for an operation that adds to tun partials (R145, condition 4 of R101): its tun takes the whole of its partial of the
segment-slot, every tensor that the slice's operations add to, or none of it and the operation waits. -/
def takeScratch (s : State) (t : Nat) (o : Op) : Option State :=
  if (opPartials s t o).isEmpty then some s
  else
    let slice := ((s.tun t).issued ++ (s.tun t).queue).filter fun q => q.gk = o.gk && q.slot = o.slot && q.segment = o.segment && !q.discard
    let new := ((o :: slice).flatMap (opPartials s t)).foldl (fun (ys : List Partial) y =>
      if (s.train.scratch ++ ys).any (samePartial · y) then ys else ys ++ [y]) []
    if 4 * (new.map (·.values.length)).sum ≤ scratchFree s then some (new.foldl putPartial s) else none

/-- The operations whose values the swap of a pass-ending operation drains: the issued ones of its fill, and itself. -/
def passOps (t : Tun) (o : Op) : List Op := (t.issued.filter fun q => groupOf q = groupOf o && q.fill = o.fill) ++ [o]

/-- Room for a pass's rank values in the lane of each of its rows: in the rank area, or in the bytes kept for h (R98, R143). -/
def takeRank (s : State) (t : Nat) (o : Op) : Option State :=
  if !o.endsPass then some s
  else
    let ops := passOps (s.tun t) o
    let back := o.kind = .backShrink
    let held := fun (r : Nat) => (s.tun t).issued.any fun q => q.endsPass && groupOf q = groupOf o && q.fill = o.fill && q.rows.contains r
    (((ops.flatMap (·.rows)).eraseDups).filter (!held ·)).foldl (fun so r => so.bind fun s => match s.gyle o.gk with
      | none => some s
      | some g =>
        let n := passValues ops r
        if rankUsed s back t (laneOf g r) + n ≤ 1024 then
          some (modGyle s o.gk fun g => g.modSlot o.slot r fun x =>
            if back then { x with backRoom := x.backRoom + n } else { x with rankRoom := x.rankRoom + n })
        else none) (some s)

/-- The rows of the lane group of an operation, by gyle: of the group that a batch window joined, if it is of one (R85). -/
def laneGroupRows (s : State) (o : Op) : List (GyleKey × Nat) :=
  let whole := fun (q : Op) => match s.gyle q.gk with
    | none => []
    | some g => match g.segments[q.segment]?, g.plan.slots[q.slot]? with
      | some seg, some p =>
        if 2 ^ 20 ≤ q.group then q.rows.map fun r => (q.gk, r)
        else ((groupRunRows s g seg q.slot q.group p).flatMap (·.rows)).map fun r => (q.gk, r)
      | _, _ => q.rows.map fun r => (q.gk, r)
  if o.joined = 0 then whole o else ((allOps s).filter fun q => q.joined = o.joined).flatMap whole ++ whole o

/-- Condition 4 of R101: room for the drain of an operation. The head reserve of the spill area is open to every row of the
operation once one of its lane group's rows is the earliest pending one (R127). -/
def takeRoom (s : State) (t : Nat) (o : Op) : Option State :=
  match o.kind with
  | .expand | .actGrad =>
    if o.gk.far then some s
    else match s.gyle o.gk with
      | none => none
      | some _ =>
        let head := (laneGroupRows s o).any fun x => ((s.gyle x.1).map fun y => isHead s y o.slot x.2).getD false
        o.rows.foldl (fun so r => so.bind fun s => reserve s o.gk o.slot r head) (some s)
  | .gradA | .gradB | .fwdExpand => takeScratch s t o
  | .backShrink => (takeScratch s t o).bind fun s => takeRank s t o
  | .shrink => takeRank s t o

/-- An operation issues: it leaves the queue, and its handshakes run into its accumulator set (R92, R101). -/
def issueOp (s : State) (t : Nat) (before after : List Op) (o : Op) : State :=
  feedTun (runFill (modTun s t fun x => { x with queue := before ++ after, issued := x.issued ++ [o] }) t o) t

/-- The first operation of a queue that may issue and finds room: the queue before it, it, the queue behind it, and the state
with its room taken. -/
def firstIssue (s : State) (t : Nat) : List Op → List Op → Option (List Op × Op × List Op × State)
  | _, [] => none
  | before, o :: after =>
    if mayIssue s (s.tun t) before o then
      match takeRoom s t o with
      | some s' => some (before, o, after, s')
      | none => firstIssue s t (before ++ [o]) after
    else firstIssue s t (before ++ [o]) after

/-! ### Batch windows (R85, R86) -/

/-- The operations of a lane group in a tun's queue. -/
def queuedGroup (t : Tun) (o : Op) : List Op := t.queue.filter fun q => groupOf q = groupOf o

/-- The run of a segment that R85 may hold: fewer than 32 rows, a single run, of a serving gyle, whose sort key is no remote key
(R304). -/
def holdRun (g : Gyle) (o : Op) : Option Run :=
  match g.segments[o.segment]? with
  | some seg => match seg.runs with
    | [r] => if seg.rowCount < 32 && g.kind = .serving && seg.sortKey < 0x1000 then some r else none
    | _ => none
  | none => none

/-- `BATCH_WINDOW` (Table 4.7). -/
def batchWindow (s : State) : Nat := regFld s pgGrist 0x080 0 16

/-- The operation begins a lane group that R85 holds. -/
def holds (s : State) (t : Tun) (o : Op) : Option (Gyle × Run) :=
  match s.gyle o.gk with
  | none => none
  | some g =>
    if batchWindow s = 0 || o.waited || o.sub || o.kind ≠ .shrink || o.replayOf ≠ 0 || g.cutoffPassed || t.issued.any (fun q => groupOf q = groupOf o)
    then none else (holdRun g o).map fun r => (g, r)

/-- The rows that a held group has joined. -/
def HeldGroup.rows (h : HeldGroup) : Nat := ((h.members.flatMap fun m => m.2.rows.map fun r => (m.2.gk, r)).eraseDups).length

/-- A held group issues: its members enter the queue of the tun with the least backlog as one lane group, whose handshakes the
first member takes (R86, R104). -/
def releaseHold (s : State) (h : HeldGroup) : State :=
  let s := { s with heldGroups := s.heldGroups.filter fun x => x.id ≠ h.id }
  let s := ((h.members.map fun m => m.2.gk).eraseDups).foldl notePlaced s
  let first := (h.members.head?.map fun m => m.2.gk).getD {}
  let ops := h.members.map fun m => { m.2 with waited := true, joined := h.id + 1, handshakes := if m.2.gk = first then m.2.handshakes else 0 }
  match tunsByBacklog s with
  | t :: _ => giveOps s t false ops
  | [] => { s with orphans := s.orphans ++ ops }

/-- The lane group of an operation is held, or joins the hold of its class that earlier gyles of the submitter began (R85). -/
def holdGroup (s : State) (t : Nat) (g : Gyle) (r : Run) (o : Op) : State :=
  let ops := (queuedGroup (s.tun t) o).map fun q => (t, q)
  let n := o.rows.length
  let s := modTun s t fun x => { x with queue := x.queue.filter fun q => groupOf q ≠ groupOf o }
  let fresh : HeldGroup := {
    id := s.nextHold, ctx := g.key.owner, slot := o.slot, comps := r.comps, epoch := g.epoch, members := ops }
  let begin_ := fun (s : State) => { s with heldGroups := s.heldGroups ++ [fresh], nextHold := s.nextHold + 1 }
  let later := fun (h : HeldGroup) => h.members.all fun m => match s.gyle m.2.gk with
    | some y => y.openSeq < g.openSeq
    | none => true
  match s.heldGroups.find? fun h => h.ctx = g.key.owner && h.slot = o.slot && h.comps = r.comps && h.epoch = g.epoch && later h with
  | none => begin_ s
  | some h =>
    if h.rows + n < 32 then
      { s with heldGroups := s.heldGroups.map fun x =>
          if x.id = h.id then { x with members := x.members ++ ops } else x }
    else if h.rows + n = 32 then releaseHold s { h with members := h.members ++ ops }
    else begin_ (releaseHold s h)

/-- The window of a held group passes (R86); not due for a group that no longer holds. -/
def batchExpiry (hold : Nat) (s : State) : State :=
  match s.heldGroups.find? fun h => h.id = hold with
  | some h => releaseHold (stamp s) h
  | none => s

/-- `BATCH_WINDOW_EXPIRY` (R86). -/
def execBatchWindowExpiry (hold : Nat) (s : State) : Host.Outcome State Fault Refusal := .next (batchExpiry hold s)

/-! ### Partial operations (R103) -/

/-- A port holds a row that a lane of the tun has no room for. -/
def rowHeldBack (s : State) (t : Nat) : Bool :=
  s.ports.any fun e => match scatterHead e.2 with
    | some b => (match s.gyle b.gk with
        | some g => match g.plan.slots[b.slot]? with
          | some p =>
            let x := g.rowSlot b.slot b.row
            x.tun = t && !x.localDone && !(opsOfRow s b.gk b.slot b.row).isEmpty && !laneRoom s g p b.slot b.row
          | none => false
        | none => false)
    | none => false

/-- The oldest shrink operation whose tile is ready, over some but not all of its rows: its two parts. -/
def splitOp (s : State) (t : Tun) : List Op → List Op → Option (List Op × Op × Op × List Op)
  | _, [] => none
  | before, o :: after =>
    let here := presentRows s o
    let p := o.keepRows here.contains
    if (o.kind = .shrink || o.kind = .backShrink) && tileReady t o && tensorsHere s o && !here.isEmpty && here.length < o.rows.length &&
        setFree t o && !before.any (blockedBy · p) then
      some (before, p, { o.keepRows (fun r => !here.contains r) with rest := true }, after)
    else splitOp s t (before ++ [o]) after

/-- A partial operation issues when a row waits for lane room (R103). -/
def partialIssue (s : State) (t : Nat) : State :=
  if !rowHeldBack s t then s
  else match splitOp s (s.tun t) [] (s.tun t).queue with
    | some (before, p, rest, after) => match takeRoom s t p with
      | some s => modTun (issueOp (stamp s) t before (rest :: after) p) t fun x => { x with partialIssues := sat 32 (x.partialIssues + 1) }
      | none => s
    | none => s

/-! ### Issue -/

/-- The tun issues the first queued operation that may (R101, R102), holds it under R85, or, when no whole operation may issue, a
partial one (R103; log entry 48); late row-slots are found first (R193). -/
def opIssue (t : Nat) (s : State) : State :=
  if issueHalted s || tunGate s t = 0 || (s.tun t).st ≠ .active then s
  else
    let s := settleRanks (feedTun (lateOps s t) t) t
    match firstIssue s t [] (s.tun t).queue with
    | some (before, o, after, s') => match holds s (s.tun t) o with
      | some (g, r) => holdGroup (stamp s) t g r o
      | none => issueOp (stamp s') t before after o
    | none => partialIssue s t

/-- `OP_ISSUE` (R101). -/
def execOpIssue (t : Fin 68) (s : State) : Host.Outcome State Fault Refusal := .next (opIssue t s)

/-! ### The swap -/

/-- The fill that ends next: the first issued operation that ends one, with the issued operations of its pass before it. -/
def fillOf (t : Tun) : List Op :=
  match t.issued.find? (·.endsPass) with
  | none => []
  | some e => (t.issued.takeWhile fun o => !o.endsPass).filter (fun o => groupOf o = groupOf e && o.fill = e.fill) ++ [e]

/-- The accumulator set of a fill. -/
def fillSetOf (t : Tun) (fill : List Op) : AccSet := ((fill.getLast?).bind (accSetOf t)).getD {}

/-- The comparisons of a fill at its swap, with what faults left in its accumulators (R106, R327). -/
def fillChecks (s : State) (t : Tun) (us : List Upset) : List FillCheck :=
  ((fillSetOf t (fillOf t)).upset us).checks s.freeCtr ((fillOf t).any (·.grads))

/-- Handshakes of a fill. -/
def fillWork (fill : List Op) : Nat := (fill.map (·.fillHandshakes)).sum

/-- The tun partials of a segment-slot that has no operation left enter the gradient hold, once (R145, R147). -/
def combinePartials (s : State) (k : GyleKey) (segment slot : Nat) : State :=
  if (allOps s).any fun o => o.gk = k && o.segment = segment && o.slot = slot && !o.discard then s
  else
    let mine := s.train.scratch.filter fun x => x.gk = k && x.segment = segment && x.slot = slot
    if mine.isEmpty then s
    else
      let into := fun (h : GradHold) =>
        let xs := mine.filter fun x => h.gk = k && x.adapter = h.adapter
        (xs.map (·.tensor)).eraseDups.foldl (fun (h : GradHold) i =>
          let vs := (xs.filter fun x => x.tensor = i).map (·.values)
          let n := (vs.head?.map (·.length)).getD 0
          let old := tget (List.replicate n 0) h.grads i
          { h with grads := tput i ((List.range n).map fun j =>
              fadd (old.getD j 0) (treeSum s.freeCtr (vs.map fun v => v.getD j 0))) h.grads }) h
      bumpFree { s with train := { s.train with
        hold := s.train.hold.map into
        scratch := s.train.scratch.filter fun x => ¬ (x.gk = k ∧ x.segment = segment ∧ x.slot = slot) } }

/-- A far gyle that its requester has cancelled is released once what had issued has been answered (R224). -/
def endCancelled (s : State) (k : GyleKey) : State :=
  match s.gyle k with
  | some g => if g.cancelled && g.farWork.isEmpty then tearGyle s g else s
  | none => s

/-- The home answers an `M_FAR_ROWS` message whose rows are done: their pooled sums, unconverted (R222). -/
def answerFar (s : State) (k : GyleKey) : State :=
  match s.gyle k with
  | none => s
  | some g =>
    let done := g.farWork.filter fun w => w.rows.all fun r => (g.rowSlot w.slot r).localDone
    let s := modGyle s k fun g => { g with farWork := g.farWork.filter fun w => !done.contains w }
    endCancelled (k := k) <| done.foldl (fun s w =>
      let p : PlanSlot := (g.plan.slots[w.slot]?).getD {}
      let sums := w.rows.flatMap fun r =>
        (List.range p.outW).flatMap fun i => leBytes 4 (tget accZero (g.rowSlot w.slot r).delta i).toNat
      reply s w.ask 0x23 0 ([p.layer, p.proj, p.inW, p.outW, p.actFmt] ++
        w.rows.flatMap fun r => [r, (tget {} g.rows r : Row).farClass]) sums) s

/-- What ends with an operation for one of its rows: its activation area (R98), its local work, and what waits on that. -/
def endRow (s : State) (o : Op) (row : Nat) : State :=
  match s.gyle o.gk with
  | none => s
  | some g =>
    let left := opsOfRow s o.gk o.slot row
    let done := left.isEmpty && takes o (g.rowSlot o.slot row)
    let acts := left.any fun q => g.kind = .training || q.kind = .shrink
    let s := modGyle s o.gk fun g => g.modSlot o.slot row fun x => { x with
      localDone := x.localDone || done, laneHeld := x.laneHeld && acts
      rankRoom := if done then 0 else x.rankRoom, backRoom := if done then 0 else x.backRoom }
    let x := g.rowSlot o.slot row
    if done && x.farLate && !x.farPending.isEmpty then markLate s o.gk o.slot row else s

/-- Sums that drain into the spill area are written there through the memory ports (R127). -/
def spillDrain (s : State) (o : Op) : State :=
  if o.kind ≠ .expand && o.kind ≠ .actGrad then s
  else match s.gyle o.gk with
    | none => s
    | some g => (o.rows.filter fun r => (g.rowSlot o.slot r).inSpill).foldl (fun s r =>
        let vs := (List.range (o.fillHi - o.fillLo)).map fun i => tget accZero (g.rowSlot o.slot r).delta (o.fillLo + i)
        startXfer s (.spill g.key.owner) true (Config.spillPlace o.slot r + 4 * o.fillLo) (4 * vs.length) (vs.flatMap fun v => leBytes 4 v.toNat)) s

/-- The operation is the last of its rank rows' width ranges: with it, what a backward shrink drains is whole (R97, R145). -/
def endsRows (s : State) (o : Op) : Bool :=
  o.kind ≠ .backShrink || match (s.gyle o.gk).bind fun g => g.plan.slots[o.slot]? with
    | some p => o.iHi = p.outW
    | none => true

/-- One operation of a fill whose comparison passed: its results leave the set. -/
def passOp (t : Nat) (a : AccSet) (s : State) (o : Op) : State :=
  if o.discard then s
  else
    let s := spillDrain (drainOp s o a) o
    let s := if endsRows s o then bumpFree (o.comps.foldl (fun s x => drainGrads s t o a x) s) else s
    let s := o.rows.foldl (fun s r => endRow s o r) s
    let s := combinePartials s o.gk o.segment o.slot
    if o.gk.far then answerFar s o.gk else s

/-- The swap of a fill: its operations leave the tun, but for one that has more fills: its next fill takes a set. -/
def endFill (s : State) (t : Nat) (fill : List Op) : State :=
  let more := fill.filter fun o => o.fills + 1 < o.fillCount
  let next := fun (o : Op) => { o with fills := o.fills + 1 }
  let a := fillSetOf (s.tun t) fill
  let s := modTun (passFeeders s t fill) t fun x => { x with
    sets := x.sets.filter (· ≠ a)
    issued := (x.issued.filter fun o => !fill.contains o || more.contains o).map fun o => if more.contains o then next o else o
    handshakesRun := sat 64 (x.handshakesRun + fillWork fill) }
  more.foldl (fun s o => runFill s t (next o)) s

/-- A fill whose comparison passed: its values leave the tun; a replay may end a recovery level. -/
def passFill (s : State) (t : Nat) (a : AccSet) (fill : List Op) : State :=
  let s := writeRanks (endFill s t fill) t fill
  let s := fill.foldl (passOp t a) s
  let s := ((fill.map (·.replayOf)).eraseDups).foldl replayDone s
  purgeTick (sendFarRows s)

/-- Level 2 (R328): the lane group's operations that have not passed go to the head of another tun's queue. -/
def replayGroup (s : State) (t : Nat) (o : Op) : State :=
  let s := startFault s (.tun t) 0x02 2 []
  let id := ((openFault s (.tun t)).map (·.id)).getD 0
  let x := s.tun t
  let mine := (x.issued ++ x.queue).filter fun q => groupOf q = groupOf o && !q.discard
  let s := setTun s t { x with
    issued := x.issued.filter fun q => groupOf q ≠ groupOf o, queue := x.queue.filter fun q => groupOf q ≠ groupOf o
    sets := x.sets.filter fun a => (a.gk, a.slot, a.segment, a.group) ≠ groupOf o }
  let s := freeRanks s mine
  let s := { s with train := { s.train with scratch := s.train.scratch.filter fun y =>
    ¬ (y.gk = o.gk ∧ y.tun = t ∧ y.segment = o.segment ∧ y.slot = o.slot ∧ mine.any (fun q => q.kind = .gradA || q.kind = .gradB) = true ∧
       y.values.all (· = 0) = true) } }
  giveOps (noteReplay s o.gk) (otherTun s t) true (mine.map fun q => { q with replayOf := id })

/-- A fill whose comparison failed (R328): counted; the tun is fenced at `FENCE_THRESHOLD` mismatches, and its lane group is
replayed on another tun below that. A fill of which nothing is used any more is only counted. -/
def failFill (s : State) (t : Nat) (fill : List Op) : State :=
  let ran := if fill.any (!·.discard) then fillWork fill else 0
  let s := modTun s t fun x => { x with
    checksumMismatches := sat 32 (x.checksumMismatches + 1), faultCount := x.faultCount + 1
    handshakesRun := sat 64 (x.handshakesRun + ran) }
  if regFld s pgIntegrity 0x098 8 8 ≤ (s.tun t).faultCount then fenceTun s t 0x02
  else match fill.find? fun o => !o.discard with
    | some o => replayGroup s t o
    | none =>
      let s := startFault (endFill s t fill) (.tun t) 0x02 2 []
      replayDone s (((openFault s (.tun t)).map (·.id)).getD 0)

/-- An active tun that has handed over for its self-test slot enters `BIST` once its issued operations have ended (R332). -/
def testWhenIdle (s : State) (t : Nat) : State :=
  let x := s.tun t
  if x.st = .active && x.selfTest && x.logical.isNone && x.issued.isEmpty && x.queue.isEmpty then
    setTunState (modTun s t fun x => { x with half0 := none, half1 := none }) t .bist none
  else s

/-- The end of a fill (R92, R106): the sets swap, the accumulators are compared, and what follows; not due while no fill ends. -/
def fillSwap (t : Nat) (upsets : List Upset) (s : State) : State :=
  let fill := fillOf (s.tun t)
  if fill.isEmpty || s.pace.thermHalted || tunGate s t = 0 then s
  else
    let bad := (fillChecks s (s.tun t) upsets).any checkFails
    let a := (fillSetOf (s.tun t) fill).upset upsets
    let s := stamp s
    testWhenIdle (if bad then failFill s t fill else passFill s t a fill) t

/-- `FILL_SWAP` (R106). -/
def execFillSwap (t : Fin 68) (upsets : List Upset) (s : State) : Host.Outcome State Fault Refusal :=
  .next (fillSwap t upsets s)

/-! ### Cut-off and grace (R194) -/

/-- The late row-slot still waits: for a tensor, or for a pooled sum. -/
def stillWaits (s : State) (g : Gyle) (slot row : Nat) : Bool :=
  let x := g.rowSlot slot row
  x.served = .own && x.out = .waiting &&
    ((opsOfRow s g.key slot row).any (fun o => !tensorsHere s o) || (x.localDone && !x.farPending.isEmpty))

/-- What the cut-off does to one row-slot: the second choice (Table 9.5, R308). -/
def cutRow (k : GyleKey) (s : State) (key : Nat) : State :=
  match s.gyle k with
  | none => s
  | some g =>
    let slot := key / 2 ^ 20
    let row := key % 2 ^ 20
    if ((g.rowSlot slot row).late && stillWaits s g slot row) || waitsForTun s g slot row then secondChoice s k slot row else s

/-- The held groups that a gyle has joined issue (R86). -/
def releaseGyleHolds (s : State) (k : GyleKey) : State :=
  (s.heldGroups.filter fun h => h.members.any fun m => m.2.gk = k).foldl releaseHold s

/-- The cut-off of a gyle passes at the present event. -/
def passCutoff (s : State) (g : Gyle) : State :=
  let s := releaseGyleHolds (modGyle s g.key fun g => { g with cutoffPassed := true }) g.key
  (g.slots.map (·.1)).foldl (cutRow g.key) s

/-- The cut-off of a gyle passes (R194); not due for a gyle that has none, or whose cut-off has passed. -/
def cutoffExpiry (c num : Nat) (s : State) : State :=
  match s.gyle (ownGyle c num) with
  | none => s
  | some g =>
    if g.kind ≠ .serving || g.cutoffPassed || g.cutoffUs = 0 || g.st = .drained || g.st = .complete then s
    else passCutoff (stamp s) g

/-- `CUTOFF_EXPIRY` (R194). -/
def execCutoffExpiry (c : Fin 64) (gyle : BitVec 16) (s : State) : Host.Outcome State Fault Refusal :=
  .next (cutoffExpiry c gyle.toNat s)

/-- The grace of a late row-slot ends before its cut-off (R194): the first choice, unless it is `WAIT`; not due for a row-slot
that does not wait. -/
def graceExpiry (c num slot row : Nat) (s : State) : State :=
  match s.gyle (ownGyle c num) with
  | none => s
  | some g =>
    if (g.rowSlot slot row).late && g.lateFirst ≠ 0 && !g.cutoffPassed && g.cutoffUs ≠ 0 && stillWaits s g slot row then
      substitute (stamp s) g.key slot row (g.lateFirst = 1)
    else s

/-- `LATE_GRACE_EXPIRY` (R194). -/
def execLateGraceExpiry (c : Fin 64) (gyle : BitVec 16) (slot row : Nat) (s : State) : Host.Outcome State Fault Refusal :=
  .next (graceExpiry c gyle.toNat slot row s)

end Sys2Proof.Machine
end

