-- ==== Sys2Proof/Machine/Tiers.lean ====
section
/-! DEFINITION. The tiers: fetch streams and present tensors (R185, R189 to R191), write-back of dirty data (R160, R174), the
single-home regime (R202 to R204), the address windows (R205), and lending (R199 to R201). -/
namespace Sys2Proof.Machine

/-! ### Fetch streams -/

/-- A warm copy of a stream's version, in T2 or in a grant. -/
def warmFor (s : State) (st : Stream) (inT3 : Bool) : Option Warm := warmOf s st.epoch st.adapter st.version inT3

/-- T3 holds a tensor of a stream's version, in a grant that is not being recalled; a stream with `NO_BORROW`, and one of the single-home
regime, does not read it (R200, R202). -/
def t3Holds (s : State) (st : Stream) (i : Nat) : Bool :=
  !st.noBorrow && !s.tiers.singleHome && (st.toT2 || !(s.cask st.cask).single) && (warmFor s st true).any fun w =>
    !w.gone.contains i && s.tiers.borrowed.any fun b => some b.grant = w.grant && b.recalling.isNone

/-- A tier holds a tensor of a stream's version. -/
def tierHolds (s : State) (st : Stream) (i tier : Nat) : Bool :=
  match tier with
  | 2 => t2Holds s st.epoch st.adapter st.version i
  | 3 => t3Holds s st i
  | _ => s.kiln.map.holds st.epoch ((verOf s st.epoch st.adapter st.version).getD {}) i

/-- The fastest tier that holds a valid copy of the next tensor of the bound version (R185, R191): 5 for the home on another block, 2, 3 or
4. The tiers below one that has failed come first; a tier that has failed for this tensor supplies it no more. -/
def sourceTier (s : State) (st : Stream) : Option Nat :=
  if st.home ≠ selfPeer s then some 5
  else
    let from_ := [2, 3, 4].filter fun t => !st.failed.contains t && tierHolds s st (st.left.headD 0) t
    match from_.find? (st.below < ·) with
    | some t => some t
    | none => from_.head?

/-- A stream to T2 brings no tensor that T2 holds, that write-back brings there, or whose one home is a cask (R160, R202). -/
def Stream.skips (s : State) (st : Stream) (i : Nat) : Bool :=
  st.toT2 && st.home = selfPeer s && (t2Holds s st.epoch st.adapter st.version i ||
    (caskList s).any fun e => e.2.epoch = st.epoch && e.2.adapter = st.adapter && e.2.version = st.version &&
      (e.2.dirty.contains i || e.2.moved.contains i))

/-- Change a stream. -/
def modStream (s : State) (id : Nat) (f : Stream → Stream) : State :=
  { s with tiers := { s.tiers with streams := s.tiers.streams.map fun x => if x.id = id then f x else x } }

/-- `M_T3_READ` for the first tensor that a stream still lacks (Table 10.4): grant, offset, length. -/
def readT3 (s : State) (st : Stream) : State :=
  match warmFor s st true, st.left.head? with
  | some w, some i => match s.tiers.borrowed.find? fun b => some b.grant = w.grant with
    | some b =>
      let v := (verOf s st.epoch st.adapter st.version).getD {}
      let before := ((warmHas s w).takeWhile (· ≠ i)).map fun j => (storedBytes v j).length
      let s := sendReq s { type := 0x64, dst := b.lender, epoch := st.epoch,
                           args := [b.grant, w.place + before.sum, (storedBytes v i).length] } none
      modStream { s with tiers := { s.tiers with borrowed := s.tiers.borrowed.map fun x =>
        if x.grant = b.grant then { x with reads := x.reads ++ [s.gauger.seq] } else x } } st.id fun x => { x with corr := s.gauger.seq }
    | none => s
  | _, _ => s

/-- A stream starts reading from a tier at the present event. -/
def readFrom (s : State) (st : Stream) (tier : Nat) : State :=
  let s := modStream s st.id fun x => { x with started := true, tier, source := none, toRead := [], got := [] }
  if tier = 5 then
    sendReq s { type := 0x10, dst := st.home, epoch := st.epoch, ctxEpoch := ctxEpochOf s st.ctx, submitter := st.ctx.getD 0,
                args := [st.adapter, st.version, if st.noBorrow then 4 else 0] } none
  else if tier = 3 then readT3 s { st with started := true, tier }
  else s

/-- The streams that run. -/
def runningStreams (s : State) : Nat := (s.tiers.streams.filter (·.started)).length

/-- No stream with an earlier place waits to start (R190). -/
def firstWaiting (s : State) (st : Stream) : Bool :=
  s.tiers.streams.all fun x => x.started || x.id = st.id || !lexLt [x.place, x.id] [st.place, st.id]

/-- A stream has delivered its last tensor. -/
def endStreamDone (s : State) (id : Nat) : State :=
  match s.tiers.streams.find? fun x => x.id = id with
  | none => s
  | some st =>
    if !st.left.isEmpty then s
    else finishPrefetches (keepStreams s fun x => x.id ≠ id)

/-- The counters of tensors made present, by tier (Table 9.16). -/
def countFetch (t : Tiers) : Nat → Tiers
  | 2 => { t with fetchT2 := sat 64 (t.fetchT2 + 1) }
  | 3 => { t with fetchT3 := sat 64 (t.fetchT3 + 1) }
  | 4 => { t with fetchT4 := sat 64 (t.fetchT4 + 1) }
  | _ => t

/-- A fetch of the single-home regime moves a tensor: the tier that it came from releases its bytes (R202). -/
def releaseSource (s : State) (st : Stream) (idx : Nat) : State :=
  match st.tier with
  | 2 => cutWarm s st.epoch st.adapter st.version [idx]
  | 4 => leaveT4Tensor s st.epoch st.adapter st.version idx
  | _ => s

/-- A stream passes over what it need not bring, and ends where nothing is left. -/
def trimStream (s : State) (id : Nat) : State :=
  endStreamDone (modStream s id fun x => { x with left := x.left.filter fun i => !x.skips s i }) id

/-- The next tensor of a stream comes from the fastest tier that holds it (R185); where none does, the stream starts anew. -/
def nextTensor (s : State) (id : Nat) : State :=
  let s := trimStream (modStream s id fun x => { x with failed := [] }) id
  match s.tiers.streams.find? fun x => x.id = id with
  | none => s
  | some st =>
    if !st.started || st.tier = 5 || st.left.isEmpty then s
    else match sourceTier s st with
      | some 5 => s
      | some t => if t = st.tier && t ≠ 3 then s else readFrom s st t
      | none => modStream s id fun x => { x with started := false }

/-- A tensor that a stream to T2 has brought (R185, R187): T2 keeps it where it has room, and in the single-home regime its home moves with
it (R202). -/
def warmTensor (s : State) (st : Stream) (idx : Nat) : State :=
  let v := (verOf s st.epoch st.adapter st.version).getD {}
  let s := placeWarm s { adapter := st.adapter, version := st.version, tenant := v.hdr.tenant, bytes := verBytes v,
                         lastUse := s.gauger.seq, noBorrow := st.noBorrow, epoch := st.epoch } [idx]
  if s.tiers.singleHome && t2Holds s st.epoch st.adapter st.version idx then releaseSource s { st with tier := 4 } idx else s

/-- A tensor of a stream is present from the present event (R189): in its cask, which is `RESIDENT` once it holds every tensor;
in the single-home regime its home moves with it (R202). -/
def makePresent (s : State) (id idx : Nat) : State :=
  match s.tiers.streams.find? fun x => x.id = id with
  | none => s
  | some st =>
    let s := { s with tiers := countFetch s.tiers st.tier }
    let s := modStream s id fun x => { x with left := x.left.filter (· ≠ idx), source := none, toRead := [], got := [] }
    let s := if st.toT2 then warmTensor s st idx
      else
        let all := indicesOf s st.epoch st.adapter st.version
        let one := oneHome s (s.cask st.cask)
        let s := clearT1 s (s.cask st.cask) idx
        let v := (verOf s st.epoch st.adapter st.version).getD {}
        let s := modCask s st.cask fun c =>
          let present := if c.present.contains idx then c.present else c.present ++ [idx]
          { c.tag v [idx] with
            present
            moved := if one && !c.moved.contains idx then c.moved ++ [idx] else c.moved
            st := if c.st = .filling && all.all present.contains then .resident else c.st }
        if one then releaseSource s st idx
        else
          let used := fun (x : Warm) => if some x = warmFor s st false then { x with lastUse := s.gauger.seq } else x
          { s with tiers := { s.tiers with warm := s.tiers.warm.map used } }
    nextTensor (refreshHolds s) id

/-- No tier holds a tensor of a stream: it is lost (R342). -/
def loseTensor (s : State) (st : Stream) (idx : Nat) : State :=
  let s := modStream s st.id fun x => { x with left := x.left.filter (· ≠ idx) }
  nextTensor (tensorLost s st.epoch st.adapter st.version idx) st.id

/-- A stream after its tier has failed for the tensor that it brings (R191). A tensor that T4 cannot supply says nothing of the others. -/
def Stream.fails (st : Stream) : Stream :=
  if st.tier = 5 then st else { st with below := if st.tier = 4 then st.below else st.tier, failed := st.failed ++ [st.tier] }

/-- A source has failed or is withdrawn (R191): the stream goes on from the next tier for what is not present; where no tier is
left, the tensor is lost (R342). -/
def failSource (s : State) (st : Stream) (idx : Nat) : State :=
  let s := modStream s st.id fun _ => st.fails
  match sourceTier s st.fails with
  | some 5 =>
    if st.retried then loseTensor s st idx
    else readFrom (modStream s st.id fun x => { x with retried := true }) st 5
  | some t => readFrom s st t
  | none => loseTensor s st idx

/-- A queued stream takes its place (R190): at most 256 run; none starts after a power-failure warning (R375); new streams wait for
core pair 0 (Table 16.2), and no tensor is fetched between a reset and the regime event of start-up (R395). A tensor that no tier holds is
lost (R342). -/
def streamStart (id : Nat) (s : State) : State :=
  match s.tiers.streams.find? fun x => x.id = id with
  | none => s
  | some st =>
    if st.started || s.pace.pfw || 256 ≤ runningStreams s || !firstWaiting s st || pairAway s 0 || (s.tiers.singleHome && !s.glob.ready) then s
    else if st.left.any (st.skips s) then trimStream (stamp s) id
    else match sourceTier s st with
      | some t => if t = 4 && !kilnServes s then s else readFrom (stamp s) st t
      | none => match st.left with
        | i :: _ => loseTensor (stamp s) st i
        | [] => s

/-- `FETCH_STREAM_START` (R190). -/
def execFetchStreamStart (stream : Nat) (s : State) : Host.Outcome State Fault Refusal := .next (streamStart stream s)

/-- The bytes that a stream delivers of a tensor (R189): of T4, those of the pages read (R253), else the tier's copy. `upset` are the bits
that come out wrong on the way. -/
def delivered (s : State) (st : Stream) (v : Ver) (idx : Nat) (upset : List Byte) : List Byte :=
  let bs := match st.source with
    | some r => deliverT4 s r (storedBytes v idx) st.got
    | none => storedBytes v idx
  xorBytes bs upset

/-- The CRC-64 that travels with the tensor: T4 has it in its record (R247, R248). -/
def carriedCrc (st : Stream) (v : Ver) (idx : Nat) : Word64 := (st.source.map (·.crc)).getD (crcOf v idx)

/-- The last byte of the next tensor of a stream from T2 or T4 has been written, and its check is made (R189) by the CRC-64 that the
tensor carries. From T4 it comes once every page is read, and not after a power-failure warning (R253, R375); where the check fails, the
kiln reads the whole tensor once more, rebuilding every page. -/
def tensorArrives (id : Nat) (upset : List Byte) (s : State) : State :=
  match s.tiers.streams.find? fun x => x.id = id with
  | none => s
  | some st => match st.left with
    | [] => s
    | idx :: _ =>
      if !st.started || st.tier = 3 || st.tier = 5 || (st.tier = 4 && (s.pace.pfw || st.source.isNone || !st.toRead.isEmpty)) then s
      else
        let s := stamp s
        let v := (verOf s st.epoch st.adapter st.version).getD {}
        if crc64 (delivered s st v idx upset) = carriedCrc st v idx && !v.lost.contains idx then
          makePresent (modStream s id fun x => { x with reread := false }) id idx
        else if st.tier = 4 then
          let s := { s with kiln := { s.kiln with crcFails := sat 32 (s.kiln.crcFails + 1) } }
          if st.reread then failSource (modStream s id fun x => { x with reread := false }) { st with reread := false } idx
          else modStream s id fun x => { x with reread := true, toRead := (st.source.map (TenRec.pages s)).getD [], got := [] }
        else failSource s st idx

/-- `TENSOR_PRESENT` (R189). -/
def execTensorPresent (stream : Nat) (upset : List Byte) (s : State) : Host.Outcome State Fault Refusal :=
  .next (tensorArrives stream upset s)

/-! ### Write-back of dirty data -/

/-- The oldest publication whose data is dirty and not yet in a tier (R160). -/
def oldestDirty (s : State) (kiln : Bool) : Option Dirty :=
  let waits := fun (d : Dirty) => if kiln then !dirtyInT4 s d && !s.kiln.pending.any (· = .dirty d.adapter d.version) else !d.t2
  (sortBy (fun (a b : Dirty) => a.seq < b.seq) (s.train.dirty.filter waits)).head?

/-- The bytes of tensors whose home a fetch has moved out of T4 (R202). -/
def movedBytes (s : State) : Nat :=
  (s.cat.stored.map fun x => storedSize x.2 x.2.t4Gone).sum

/-- The tensors of one version that left T4 become dirty in their cask's mask (R204): those that T2 has already, which are its clean copy
no longer, and the rest. Of a version that is not current, whose data has no mask, they go to T4. -/
def leaveVersion (s : State) (a : AdapterId) (v : Ver) : State :=
  if v.t4Gone.isEmpty then s
  else if (s.cat.adapter a).current ≠ v.version then backToT4 s s.cat.epoch a v.version v.t4Gone
  else
    let in2 := v.t4Gone.filter fun i => (warmOf s s.cat.epoch a v.version false).any fun w => !w.gone.contains i
    let in1 := v.t4Gone.filter fun i => !in2.contains i
    let s := cutWarm s s.cat.epoch a v.version in2
    let s := modVer s a v.version fun y => { y with inT4 := false, t4Gone := [] }
    let s := markDirty (markDirty s a v in2) a v in1
    { s with train := { s.train with dirty := s.train.dirty.map fun d =>
      if d.adapter = a && d.version = v.version && d.tensors = in2 && d.seq = s.gauger.seq then { d with t2 := true } else d } }

/-- The block leaves the single-home regime at the present event (R204): what T4 does not hold is dirty. Not before those bytes fit
under `DIRTY_CAP_MIB`. -/
def leaveSingleHome (s : State) : State :=
  if !s.tiers.testHoldLeaving || dirtyCap s < dirtyBytes s + movedBytes s then s
  else
    let s := s.cat.stored.foldl (fun s x => leaveVersion s x.1 x.2) s
    let s := (caskList s).foldl (fun s e => if e.2.single then s else modCask s e.1 fun c => { c with moved := [] }) s
    { s with tiers := { s.tiers with singleHome := false, testHold := false, testHoldLeaving := false } }

/-- In the single-home regime, a version whose moved tensors are written to T4 before the regime ends (R204). -/
def moveDown (s : State) : State :=
  match s.cat.stored.find? fun x => !x.2.t4Gone.isEmpty with
  | some x => leaveSingleHome (backToT4 (stamp s) s.cat.epoch x.1 x.2.version x.2.t4Gone)
  | none => s

/-- The tensors of a dirty record that T2 and T4 both hold: they are clean (R160). -/
def cleanOf (s : State) (d : Dirty) : List Nat :=
  match verOf s s.cat.epoch d.adapter d.version with
  | some v => if d.t2 then d.tensors.filter (s.kiln.map.holds s.cat.epoch v) else []
  | none => []

/-- What a dirty record still lists without some tensors; none where nothing is left. -/
def Dirty.without (s : State) (d : Dirty) (clean : List Nat) : Option Dirty :=
  let left := d.tensors.filter fun i => !clean.contains i
  if left.isEmpty then none
  else if clean.isEmpty then some d
  else some { d with tensors := left, bytes := indexBytes ((verOf s s.cat.epoch d.adapter d.version).getD {}) left }

/-- T2 keeps what was dirty as a clean copy, where the tenant's quota has room (Table 9.2). -/
def keepClean (s : State) (d : Dirty) (idx : List Nat) : State :=
  match verOf s s.cat.epoch d.adapter d.version with
  | some v => placeWarm s { adapter := d.adapter, version := d.version, tenant := v.hdr.tenant, bytes := verBytes v, lastUse := s.gauger.seq,
                            epoch := s.cat.epoch } idx
  | none => s

/-- Dirty data is clean once T2 and T4 both hold it, tensor by tensor (R160, R184): its cask's mask clears, T2's bytes are a clean copy,
older restore points are freed (R343), and the single-home regime may end (R204). -/
def settleDirty (s : State) : State :=
  let clean := (s.train.dirty.map fun d => (d, cleanOf s d)).filter fun x => !x.2.isEmpty
  let s := { s with train := { s.train with dirty := s.train.dirty.filterMap fun d => d.without s (cleanOf s d) } }
  let s := clean.foldl (fun s x => keepClean (syncDirty s x.1.adapter) x.1 x.2) s
  if clean.isEmpty then s else leaveSingleHome (pruneVersions s)

/-- The dirty data of a version reaches T2. -/
def dirtyInT2 (s : State) (a : AdapterId) (v : Nat) : State :=
  let s := { s with train := { s.train with dirty := s.train.dirty.map fun d =>
    if d.adapter = a ∧ d.version = v then { d with t2 := true } else d } }
  finishPrefetches (settleDirty (modVer s a v fun y => { y with inT2 := true }))

/-- The write-through commit whose T2 write is due, the earliest first (R161). -/
def throughDue (s : State) : Option Commit := s.train.commits.find? fun x => x.ran && x.through && !x.published && !x.t2Held

/-- One step of write-back (R160): what a write-through commit wrote goes to T2 first (R161), then the oldest dirty data to T2, or to
the kiln, where its journal record follows. The single-home regime ends as soon as the moved tensors fit under the dirty cap; until then
they go to T4 first (R204). -/
def lazyWriteback (toKiln : Bool) (s : State) : State :=
  if s.tiers.testHoldLeaving && dirtyBytes s + movedBytes s ≤ dirtyCap s then leaveSingleHome (stamp s)
  else if toKiln && (!kilnServes s || pairAway s 1) then s
  else if toKiln && s.tiers.testHoldLeaving && movedBytes s ≠ 0 then moveDown s
  else match (if toKiln then none else throughDue s) with
    | some x => modCommit (stamp s) x.gk fun y => { y with t2Held := true }
    | none => match oldestDirty s toKiln with
      | none => s
      | some d =>
        let s := stamp s
        if toKiln then { s with kiln := { s.kiln with pending := s.kiln.pending ++ [.dirty d.adapter d.version] } }
        else dirtyInT2 s d.adapter d.version

/-- The bytes that a victim frees go first to the admission that evicted it (R174, R178). -/
def giveBytes (s : State) (i n : Nat) : State :=
  modWaiting s fun r => if r.evicting.contains i then { r with got := min (r.need s) (r.got + n) } else r

/-- An evicting cask's dirty data reaches T2, and T2 keeps its clean tensors as R185 says (R174): its bytes are freed, for the admission that it leaves for and then for the others
that wait. -/
def evictionDone (i : Nat) (s : State) : State :=
  let c := s.cask i
  if c.st ≠ .evicting then s
  else
    let s := dirtyInT2 (stamp s) c.adapter c.version
    let s := demote s (s.cask i)
    let n := freeNow s
    let t := freeCask s i
    releaseFrom n (giveBytes t i (freeNow t - n))

/-! ### The test hold (R203, R204) -/

/-- A write of 1 to `TEST_HOLD` while any gyle is open is refused (R203). -/
def testHoldCheck (v : Word64) (s : State) : Option Nat :=
  if fld v 8 1 = 1 && s.gyles.any (fun g => !g.held && g.st ≠ .complete) then some stBadState else none

/-- Every grant that this block holds is treated as recalled (R202): its copies leave the tier map, and reads of it restart from
the next tier (R191). -/
def forgetGrant (s : State) (lender grant : Nat) : State :=
  let gone := s.tiers.streams.filter fun st => st.started && st.tier = 3 &&
    (warmFor s st true).any fun w => w.grant = some grant
  let s := { s with tiers := { s.tiers with
    warm := s.tiers.warm.filter fun w => w.grant ≠ some grant
    borrowed := s.tiers.borrowed.filter fun b => ¬ (b.grant = grant ∧ b.lender = lender) } }
  gone.foldl (fun s st => match st.left.head? with
    | some i => failSource s st i
    | none => s) s

/-- The effect of a write of `TEST_HOLD`. -/
def testHoldSet (v : Word64) (s : State) : State :=
  if fld v 8 1 = 1 then
    let s := { s with tiers := { s.tiers with testHold := true, testHoldLeaving := false, singleHome := true } }
    s.tiers.borrowed.foldl (fun s b => forgetGrant s b.lender b.grant) s
  else if s.tiers.testHold then leaveSingleHome { s with tiers := { s.tiers with testHoldLeaving := true } }
  else s

/-- `TEST_HOLD_WRITE` (R203, R204). -/
def execTestHoldWrite (value : Word64) (role : Role) (s : State) : Host.Outcome State Fault Refusal :=
  .next (busWrite pgTiers 0x098 value role (testHoldCheck value) (testHoldSet value) s)

/-! ### Address windows (R205) -/

/-- The offset of a window's first register. -/
def winOff (w : Nat) : Nat := if w = 0 then 0x0A0 else 0x0B8

/-- One window. -/
def winOf (s : State) (w : Nat) : Window := if w = 0 then s.tiers.win0 else s.tiers.win1

/-! ### Lending (R199 to R201) -/

/-- A grant that this block lends. -/
def lentOf (s : State) (peer grant : Nat) : Option Lent :=
  s.tiers.lent.find? fun l => l.borrower = peer && l.grant = grant

/-- A lend at the present event: the space is carved and the borrower is told (R199). -/
def lendNow (c : Nat) (fr : Front) (d : Desc) (s : State) : State :=
  let s := { s with tiers := { s.tiers with lent := s.tiers.lent ++
    [{ borrower := d.peer, grant := d.grant, gibs := d.grantGib, ctx := some c, sqIndex := fr.sqIndex }] } }
  let s := sendReq s { type := 0x60, dst := d.peer, ctxEpoch := (s.ctx c).epoch, submitter := c, args := [d.grant, d.grantGib] } none
  acceptLater s c { opcode := d.opcode, sqIndex := fr.sqIndex, arg := d.grant, peer := d.peer, seq := s.gauger.seq }

/-- `LEND_GRANT` (R199). -/
def lendGrant (c : Nat) (s : State) : State :=
  onFront c 0x41 s fun fr d _ => decideCmd s c fr d
    (firstBad [need (ctxFabric s c) stNoPermission, stateStatus s c d.opcode, needState (lentOf s d.peer d.grant).isNone,
      need (d.grantGib * gib ≤ t2Free s) stNoSpace]) (lendNow c fr d)

def execLendGrant (c : Fin 64) (s : State) : Host.Outcome State Fault Refusal := .next (lendGrant c s)

/-- A recall at the present event (Table 9.8, steps 1 and 2). -/
def recallNow (c : Nat) (fr : Front) (d : Desc) (s : State) : State :=
  let s := { s with tiers := { s.tiers with lent := s.tiers.lent.map fun l =>
    if l.borrower = d.peer ∧ l.grant = d.grant then { l with recalled := true, recallSq := some (c, fr.sqIndex) } else l } }
  let s := sendReq s { type := 0x62, dst := d.peer, ctxEpoch := (s.ctx c).epoch, submitter := c, args := [d.grant] } none
  acceptLater s c { opcode := d.opcode, sqIndex := fr.sqIndex, arg := d.grant, peer := d.peer, seq := s.gauger.seq }

/-- The grant is lent, in effect, and not being recalled. -/
def recallable (s : State) (peer grant : Nat) : Bool := (lentOf s peer grant).any fun l => l.active && !l.recalled

/-- `LEND_RECALL` (R201). -/
def lendRecall (c : Nat) (s : State) : State :=
  onFront c 0x42 s fun fr d _ => decideCmd s c fr d
    (firstBad [need (ctxFabric s c) stNoPermission, stateStatus s c d.opcode, needState (recallable s d.peer d.grant)])
    (recallNow c fr d)

def execLendRecall (c : Fin 64) (s : State) : Host.Outcome State Fault Refusal := .next (lendRecall c s)

/-- Step 5 of Table 9.8 at the present event: the space returns and `LEND_RECALL` completes `DONE`. -/
def endRecall (s : State) (l : Lent) : State :=
  let s := { s with
    tiers := { s.tiers with lent := s.tiers.lent.filter fun x => ¬ (x.borrower = l.borrower ∧ x.grant = l.grant) }
    homes := { s.homes with requests := s.homes.requests.filter fun r =>
      ¬ (r.msg.type = 0x62 ∧ r.msg.dst = l.borrower ∧ r.msg.args = [l.grant]) } }
  match l.recallSq with
  | some (c, sq) => match (s.ctx c).inflight.find? fun m => m.sqIndex = sq && m.opcode = 0x42 with
    | some m => completeLater s c m stDone 0 []
    | none => s
  | none => s

/-- The borrower has not answered for 2 ms: the recall completes all the same (R201). -/
def recallExpiry (peer grant : Nat) (s : State) : State :=
  match lentOf s peer grant with
  | some l => if l.recalled then endRecall (stamp s) l else s
  | none => s

/-- `RECALL_TIMEOUT` (R201). -/
def execRecallTimeout (borrower : BitVec 8) (grant : Fin 8) (s : State) : Host.Outcome State Fault Refusal :=
  .next (recallExpiry borrower.toNat grant s)

end Sys2Proof.Machine
end

