-- ==== Sys2Proof/Machine/Refetch.lean ====
section
/-! DEFINITION. What the cellar cannot deliver (R164): tensors fetched again, slices of the gradient scratch replayed, and the casks of a
region that is being remapped (R203, R204, Table 17.6). -/
namespace Sys2Proof.Machine

/-- A stream that fetches some tensors of a cask again, as an ordinary fetch of the request that admitted it. -/
def streamAgain (s : State) (i : Nat) (idx : List Nat) : State :=
  let c := s.cask i
  let st : Stream := {
    id := s.tiers.nextStream, adapter := c.adapter, version := c.version, cask := i, place := s.gauger.seq, left := idx
    home := homeFor s (catOf s c.epoch) c.adapter c.version, noBorrow := c.noBorrow, epoch := c.epoch }
  { s with tiers := { s.tiers with streams := s.tiers.streams ++ [st], nextStream := s.tiers.nextStream + 1 } }

/-- A tensor is no longer present in its cask, which is `FILLING` until it is again. -/
def absent (idx : Nat) (c : Cask) : Cask :=
  { c with present := c.present.filter (· ≠ idx), st := if c.st = .resident then .filling else c.st }

/-- A tensor that the cellar cannot deliver is fetched again from a lower tier that holds it clean (R164); a dirty one, or one whose only
home is the cask, is lost. -/
def fetchAgain (s : State) (i idx : Nat) : State :=
  let c := s.cask i
  if c.st = .free || !c.present.contains idx then s
  else
    let s := modCask s i (absent idx)
    if c.dirty.contains idx || c.moved.contains idx then
      tensorLost (modCask s i fun c => { c with dirty := c.dirty.filter (· ≠ idx), moved := c.moved.filter (· ≠ idx) })
        c.epoch c.adapter c.version idx
    else streamAgain s i [idx]

/-- The operations of a slice that add to its tun partials, of factors and of members' vectors: the groups of a segment at a slot whose
rows are on one tun. -/
def sliceGrads (s : State) (g : Gyle) (x : Partial) : List Op :=
  match g.segments[x.segment]?, g.plan.slots[x.slot]? with
  | some seg, some p =>
    ((List.range (groupCount seg)).flatMap fun n => groupOps s g x.segment seg x.slot n p).filter fun o =>
      !(opPartials s x.tun o).isEmpty && o.rows.all fun r => (g.rowSlot x.slot r).tun = x.tun
  | _, _ => []

/-- A slice whose tun partials are lost is replayed (R147, R164): its partials are dropped, and every operation that adds to them runs
again; what its rows have drained stays (R305). Where its rows are no longer in lane SRAM, its gyle reruns (R341). -/
def replaySlice (s : State) (x : Partial) : State :=
  match s.gyle x.gk with
  | none => s
  | some g =>
    let ops := sliceGrads s g x
    let t := s.tun x.tun
    if t.st ≠ .active || ops.isEmpty || !ops.all (fun o => o.rows.all fun r => (g.rowSlot x.slot r).laneHeld) then rerunNow s x.gk
    else
      let mine := fun (gk : GyleKey) (slot segment : Nat) => gk = x.gk && slot = x.slot && segment = x.segment
      let keep := fun (o : Op) => !(mine o.gk o.slot o.segment && !(opPartials s x.tun o).isEmpty)
      let cut := fun (o : Op) => if keep o then o else { o with discard := true }
      let waiting := fun (q : Op) => (t.queue.filter (!keep ·)).any fun o => groupOf o = groupOf q && o.fill = q.fill
      -- a backward shrink that has run, or has issued, takes the room of its rank values afresh
      let s := freeRanks s (ops.filter fun o => !waiting o)
      let s := { s with train := { s.train with scratch := s.train.scratch.filter fun y =>
        !(mine y.gk y.slot y.segment && y.tun = x.tun) } }
      setTun (noteReplay s x.gk) x.tun { t with issued := t.issued.map cut, queue := t.queue.filter keep ++ ops }

/-- Two tun partials are of one slice. -/
def sameSlice (a b : Partial) : Bool := a.gk = b.gk && a.tun = b.tun && a.segment = b.segment && a.slot = b.slot

/-- The slices of some tun partials are replayed, each once. -/
def replaySlices (s : State) (ps : List Partial) : State :=
  (ps.foldl (fun (qs : List Partial) p => if qs.any (sameSlice p) then qs else qs ++ [p]) []).foldl replaySlice s

/-- The data at a codeword that cannot be corrected is lost at its place (R164): a tensor is fetched again, a directory bucket is read
again from its home, the slices that a page of the gradient scratch held partials of are computed again. -/
def losePlace (s : State) : CellarPlace → State
  | .tensor i idx => fetchAgain s i idx
  | .scratch ns => replaySlices s (ns.filterMap fun n => s.train.scratch[n]?)
  | .unused | .directory => s

/-! ### Casks of a region that is being remapped -/

/-- Step 1 of Table 17.6: the casks with tensors in the region enter the single-home regime (R203). -/
def enterRegion (s : State) (items : List (Nat × Nat)) : State :=
  ((items.map (·.1)).eraseDups).foldl (fun s i =>
    if (s.cask i).st = .free then s else modCask s i fun c => { c with single := true }) s

/-- Step 2: tiles that read the region stop being ready. -/
def quietRegion (s : State) (items : List (Nat × Nat)) : State :=
  let hit := fun (b : TileBuf) => b.tile.any fun p => items.any fun x =>
    let c := s.cask x.1
    c.adapter = p.adapter && c.version = p.version && x.2 = p.tensor
  let cut := fun (t : Tun) (h : Option TileBuf) => h.filter fun b => !hit b || t.issued.any (reads · b)
  let s := { s with tuns := s.tuns.map fun e => (e.1, { e.2 with half0 := cut e.2 e.2.half0, half1 := cut e.2 e.2.half1 }) }
  items.foldl (fun s x => if (s.cask x.1).present.contains x.2 then modCask s x.1 (absent x.2) else s) s

/-- Step 3: the dirty data that cannot be read is lost (R342); the rest is copied and present again. -/
def copyRegion (s : State) (items lost : List (Nat × Nat)) : State :=
  let bad := fun (s : State) (x : Nat × Nat) => tensorLost (modCask s x.1 fun c => { c with
    dirty := c.dirty.filter (· ≠ x.2), moved := c.moved.filter (· ≠ x.2) }) (s.cask x.1).epoch (s.cask x.1).adapter (s.cask x.1).version x.2
  let here := fun (x : Nat × Nat) => (s.cask x.1).st ≠ .free && ((s.cask x.1).dirty.contains x.2 || (s.cask x.1).moved.contains x.2)
  items.foldl (fun s x =>
    if !here x then s
    else if lost.contains x then bad s x
    else modCask s x.1 fun c => { c with present := if c.present.contains x.2 then c.present else c.present ++ [x.2] }) s

/-- An item of the region is not present again and not lost: its refill goes on. -/
def refilling (s : State) (x : Nat × Nat) : Bool :=
  let c := s.cask x.1
  c.single && c.st ≠ .free && !c.present.contains x.2 && !((verOf s c.epoch c.adapter c.version).any fun v => v.lost.contains x.2)

/-- Step 5 begins: the clean tensors are refilled from lower tiers, the slices of lost scratch pages replay (R164). -/
def refillRegion (s : State) (items : List (Nat × Nat)) : State :=
  ((items.map (·.1)).eraseDups).foldl (fun s i =>
    let idx := (items.filter fun x => x.1 = i && refilling s x).map (·.2)
    if idx.isEmpty then s else streamAgain s i idx) s

/-- Step 6: the casks leave the single-home regime (R204): what T4 does not hold is dirty, or goes to T4 where the dirty cap has no room
for it. -/
def leaveRegion (s : State) : State :=
  (caskList s).foldl (fun s e =>
    if !e.2.single then s
    else
      let v := (verOf s e.2.epoch e.2.adapter e.2.version).getD {}
      let n := storedSize v v.t4Gone
      let s := if s.tiers.singleHome then s
        else if e.2.epoch ≠ s.cat.epoch || dirtyCap s < dirtyBytes s + n then backToT4 s e.2.epoch e.2.adapter e.2.version v.t4Gone
        else leaveVersion s e.2.adapter v
      modCask s e.1 fun c => { c with single := false, moved := if s.tiers.singleHome then c.moved else [] }) s

end Sys2Proof.Machine
end

