-- ==== Sys2Proof/Machine/Directory.lean ====
section
/-! DEFINITION. Changes of the key directory (R71, R72), their order across the rack (R211, R212), and the directory `PUBLISH`
(R283). -/
namespace Sys2Proof.Machine

/-! ### One change -/

/-- Some gyle in `FILLING` was opened at or before a sequence (R71). -/
def fillingBefore (s : State) (seq : Seq) : Bool :=
  s.gyles.any fun g => g.st = .filling && !g.key.far && g.epoch = s.cat.epoch && g.openSeq ≤ seq

/-- Entries of the directory, removed keys that still take a place among them. -/
def dirCount (d : Directory) : Nat := (d.buckets.map fun b => b.2.length).sum

/-- The other candidate bucket of an entry that stands in bucket `b`. -/
def otherBucket (d : Directory) (e : DirEntry) (b : Nat) : Nat :=
  let x := bucketsOf d e.tenant e.key
  if x.1 = b then x.2 else x.1

/-- Place an entry in bucket `b`, which is full: an entry chosen at random by the block's random source gives it its place and
goes to its own other bucket (R72). Up to `fuel` displacements; none where they do not suffice. -/
def displace (d : Directory) (ctr : Nat) : (fuel : Nat) → (b : Nat) → DirEntry → Option (Directory × Nat)
  | 0, _, _ => none
  | fuel + 1, b, e =>
    let es := tget [] d.buckets b
    let i := (Config.freeWord ctr).toNat % 4
    match es[i]? with
    | none => none
    | some v =>
      let d := { d with buckets := tset [] d.buckets b (es.set i e) }
      let o := otherBucket d v b
      let os := tget [] d.buckets o
      if os.length < 4 then some ({ d with buckets := tset [] d.buckets o (os ++ [v]) }, ctr + 1)
      else displace d (ctr + 1) fuel o v

/-- Insert an entry (R72): the directory and the draws used; none when it is refused. That b1 comes first, where both buckets have
a free place and where a displacement starts, is the model's choice (log entry 46). -/
def dirInsert (d : Directory) (ctr : Nat) (e : DirEntry) : Option (Directory × Nat) :=
  let x := bucketsOf d e.tenant e.key
  let put := fun (b : Nat) => some ({ d with buckets := tset [] d.buckets b (tget [] d.buckets b ++ [e]) }, ctr)
  if 16777216 ≤ dirCount d then none
  else if (tget [] d.buckets x.1).length < 4 then put x.1
  else if (tget [] d.buckets x.2).length < 4 then put x.2
  else displace d ctr 128 x.1 e

/-- Replace the entry of a pair in its bucket; drop it where nothing is left to see. -/
def dirReplace (d : Directory) (e : DirEntry) : Directory :=
  let x := bucketsOf d e.tenant e.key
  let mine := fun (y : DirEntry) => y.key = e.key && y.tenant = e.tenant
  let swap := fun (es : List DirEntry) =>
    if e.kind = .none && e.prevKind = .none then es.filter fun y => !mine y else es.map fun y => if mine y then e else y
  { d with buckets := tmod [] (tmod [] d.buckets x.1 swap) x.2 swap }

/-- The entry that a change leaves in place of `old` at a sequence: the target before it stands as the previous one while a
gyle opened before it is in `FILLING` (R71). -/
def changedEntry (s : State) (old e : DirEntry) (seq : Seq) : DirEntry :=
  let keep := fillingBefore s seq
  { e with
    changeSeq := seq
    prevKind := if keep then old.kind else .none
    prevTarget := if keep then old.target else 0
    prevLog2 := if keep then old.log2 else 0 }

/-- One change at the present event: none when it is refused `NO_SPACE` (R71, R72). A removal of a key that is not there, or that
has been removed and is only still visible to some gyle, removes nothing (R283). -/
def dirChange (s : State) (e : DirEntry) : Option State :=
  let seq := s.gauger.seq
  let d := s.dir
  match dirEntry d e.tenant e.key with
  | some old =>
    if old.kind = .none && e.kind = .none then some s else
    let new := changedEntry s old e seq
    if fillingBefore s old.changeSeq then
      if 8192 ≤ d.side.length then none
      else
        let moved : DirEntry := { old with kind := old.prevKind, target := old.prevTarget, log2 := old.prevLog2 }
        some { s with dir := { dirReplace d new with side := d.side ++ [moved] } }
    else some { s with dir := dirReplace d new }
  | none =>
    if e.kind = .none then some s
    else
      let new : DirEntry := { e with changeSeq := seq, prevKind := .none, prevTarget := 0, prevLog2 := 0 }
      match dirInsert d s.freeCtr new with
      | some r => some { s with dir := r.1, freeCtr := r.2 }
      | none => none

/-- A refused change is counted (`DIR_REFUSALS`). -/
def countDirRefusal (s : State) : State := { s with dir := { s.dir with refusals := sat 32 (s.dir.refusals + 1) } }

/-- Apply entries in order, each as one change at an event of its own, until one is refused: how many were applied, and whether
all were. -/
def applyEntries (s : State) : List DirEntry → Nat → State × Nat × Bool
  | [], n => (s, n, true)
  | e :: es, n =>
    match dirChange (stamp s) e with
    | some t => applyEntries t es (n + 1)
    | none => (countDirRefusal (stamp s), n, false)

/-! ### Across the rack -/

/-- The entries from the front that have one key home. -/
def sameHome (s : State) (h : Nat) (es : List DirEntry) : List DirEntry :=
  es.takeWhile fun e => keyHomeOf s.cat e.tenant e.key = h

/-- The peers of the rack whose link is down. -/
def downPeers (s : State) : List Nat :=
  (List.range (rackSize s)).filter fun p => p ≠ selfPeer s && !peerUp s p

/-- A directory command ends at an event of its own (R283). -/
def endDirPublish (s : State) (p : DirPending) : State :=
  let s := stamp s
  let res := leBytes 4 p.applied
  let s := match p.fwd with
    | some m => reply s m 0x43 p.status [] res
    | none => s
  match p.ctx with
  | some c => match (s.ctx c).inflight.find? fun m => m.sqIndex = p.sqIndex && m.opcode = 0x30 with
    | some m => completeLater s c m p.status 0 res
    | none => s
  | none => s

/-- The descriptor of a forwarded directory `PUBLISH` (Tables 13.1 and 13.3): the part of it that one key home orders. -/
def dirDescBytes (tenant n : Nat) : List Byte :=
  [0x30, 0] ++ leBytes 2 tenant ++ List.replicate 12 0 ++ [2] ++ List.replicate 11 0 ++ leBytes 4 n ++ List.replicate 32 0

/-- Take up the next entries of a directory command: those of one key home. Here, they are applied and sent to every peer
(R211); elsewhere they are forwarded. The command ends when none is left. -/
def nextDirChunk (s : State) (p : DirPending) : State :=
  match p.rest with
  | [] => endDirPublish s p
  | e :: _ =>
    if p.status ≠ 0 then endDirPublish s p
    else
      let h := keyHomeOf s.cat e.tenant e.key
      let es := sameHome s h p.rest
      let rest := p.rest.drop es.length
      if h = selfPeer s then
        let r := applyEntries s es 0
        let s := r.1
        let done := es.take r.2.1
        let status := if r.2.2 then 0 else stNoSpace
        let p := { p with applied := p.applied + r.2.1, status, rest }
        if done.isEmpty then endDirPublish s p
        else
          let s := stamp s
          let body := done.flatMap dirBytesOf
          let s := (otherPeers s).foldl (fun t q => sendReq t { type := 0x40, dst := q, data := body } none) s
          { s with
            homes := { s.homes with
              dirPending := s.homes.dirPending ++
                [{ p with entries := done, waiting := otherPeers s, own := false, corr := s.gauger.seq }]
              dirOwed := s.homes.dirOwed ++ (downPeers s).map fun q => (q, done) }
            kiln := { s.kiln with pending := s.kiln.pending ++ [.directory s.gauger.seq (selfPeer s) done] } }
      else
        let s := stamp s
        let s := sendReq s { type := 0x42, dst := h, epoch := s.cat.epoch, submitter := p.ctx.getD 0
                             data := dirDescBytes e.tenant es.length ++ es.flatMap dirBytesOf } none
        { s with homes := { s.homes with
          dirPending := s.homes.dirPending ++ [{ p with entries := es, waiting := [h], own := true, corr := s.gauger.seq, rest }] } }

/-- Directory commands whose changes are acknowledged and held go on (R211, R212). -/
def settleDirPending (s : State) : State :=
  let ended := s.homes.dirPending.filter fun p => p.waiting.isEmpty && p.own
  let left := s.homes.dirPending.filter fun p => !(p.waiting.isEmpty && p.own)
  ended.foldl nextDirChunk { s with homes := { s.homes with dirPending := left } }

/-- A peer has acknowledged a change, or its link is down (R211). -/
def dirPeerDone (s : State) (corr : Seq) (peer : Nat) : State :=
  settleDirPending { s with homes := { s.homes with dirPending := s.homes.dirPending.map fun p =>
    if p.corr = corr then { p with waiting := p.waiting.filter (· ≠ peer) } else p } }

/-- This block's kiln holds its own record of a change (R212). -/
def dirOwnHeld (s : State) (corr : Seq) : State :=
  settleDirPending { s with homes := { s.homes with dirPending := s.homes.dirPending.map fun p =>
    if p.corr = corr then { p with own := true } else p } }

/-! ### The command -/

/-- The entries of a directory `PUBLISH`. -/
def dirEntriesOf (img : List Byte) (n : Nat) : List DirEntry := (List.range n).map fun i => dirFields img (32 * i)

/-- The field checks of every entry (R283). -/
def dirImageBad (d : Desc) (img : List Byte) : Option Bad :=
  firstImageCheck 0 ((List.range d.length).flatMap (dirChecks d.tenant img))

/-- The acceptance of a directory `PUBLISH`. -/
def acceptDirectory (c : Nat) (fr : Front) (d : Desc) (img : List Byte) (s : State) : State :=
  let s := acceptLater s c { opcode := d.opcode, sqIndex := fr.sqIndex, seq := s.gauger.seq }
  nextDirChunk s { ctx := some c, sqIndex := fr.sqIndex, rest := dirEntriesOf img d.length }

/-- `PUBLISH` of directory entries (R283). -/
def publishDirectory (c : Nat) (s : State) : State :=
  onFront c 0x30 s fun fr d img =>
    if d.pubKind ≠ 2 then s
    else decideCmd s c fr d
      (firstBad [dirImageBad d img, need (tenantBound (s.ctx c).tenants d.tenant) stNoPermission, stateStatus s c d.opcode])
      (acceptDirectory c fr d img)

/-- `PUBLISH_DIRECTORY` (R283). -/
def execPublishDirectory (c : Fin 64) (s : State) : Host.Outcome State Fault Refusal := .next (publishDirectory c s)

end Sys2Proof.Machine
end

