-- ==== Sys2Proof/Machine/Publishing.lean ====
section
/-! DEFINITION. The adapter `PUBLISH` (R19, R151, R234, R282, R284), the `PURGE` (R410 to R413) and the wrap-key rotations that a
purge or a `KEY_OP` takes part in (R260, R409). -/
namespace Sys2Proof.Machine

/-! ### Space in the kiln -/

/-- Stored versions of a catalogue's adapters homed here. -/
def storedIn (s : State) (cat : Catalogue) : List Ver :=
  cat.adapters.flatMap fun e => if homeOf cat e.1 = selfPeer s && !e.2.retired then e.2.versions else []

/-- Versions that the kiln has taken in and may not hold yet: of the catalogue that is staged, and publishes under way, with their epochs. -/
def comingVersions (s : State) : List (Nat × Ver) :=
  ((s.catStaged.map fun c => (storedIn s c).map fun v => (c.epoch, v)).getD []) ++ s.homes.publishes.map fun p => (s.cat.epoch, p.ver)

/-- The tensors and state arrays of a version that the map has no record of. -/
def unheldIndices (s : State) (x : Nat × Ver) : List Nat := (verIndices x.2).filter fun i => !s.kiln.map.holds x.1 x.2 i

/-- Bytes that the kiln's data takes: what the map records, and what is on its way. -/
def kilnUsed (s : State) : Nat :=
  (s.kiln.map.tensors.map (·.length)).sum + ((comingVersions s).map fun x => ((unheldIndices s x).map fun i => (storedBytes x.2 i).length).sum).sum +
    (s.homes.rackIn.map (·.bytes)).sum

/-- Usable space free in the kiln, in bytes (`KILN_FREE_GIB`). -/
def kilnFree (s : State) : Nat := s.kiln.usableGib * gib - kilnUsed s

/-- Version records and tensor records of the map once it has all that is on its way (R247). -/
def versionRecords (s : State) : Nat :=
  s.kiln.map.versions.length + ((comingVersions s).filter fun x => (s.kiln.map.ver { epoch := x.1, adapter := x.2.hdr.id, version := x.2.version }).isNone).length
def tensorRecords (s : State) : Nat := s.kiln.map.tensors.length + ((comingVersions s).map fun x => (unheldIndices s x).length).sum

/-- The kiln takes new versions by a `PUBLISH` or an `EPOCH_STAGE`: the reserve of R250 and the part of the map that R247 keeps
for commits stay free, and the T2 region has room for the map. -/
def kilnTakes (s : State) (vs : List Ver) : Bool :=
  let n := (vs.map fun v => (verIndices v).length).sum
  regFld s pgKiln 0x090 0 16 * gib ≤ kilnFree s && (vs.map verBytes).sum ≤ kilnFree s &&
    versionRecords s + vs.length ≤ 16777216 - 65536 && tensorRecords s + n ≤ 134217728 - 524288 &&
    64 * vs.length + 32 * n ≤ t2Room s

/-! ### The adapter `PUBLISH` -/

/-- The checks of an image taken in itself (R37, R38, R282): its header with its version, its slot table, its length, its state header. -/
def imageBad (d : Desc) (img : List Byte) : Option Bad :=
  let h := hdrFields img
  let n := if d.stateHdr then stateStart h + 64 else areaStart h.slotCount + h.tensorBytes
  firstBad
    [firstImageCheck 0 (adapterChecks img ++ [chk 16 (h.version = d.baseVersion + 1)]),
     (if d.length = n then none else some { status := stBadField, off := 28 }),
     if d.stateHdr then firstImageCheck 0 (stateChecks img (stateStart h)) else none]

/-- The current version of the adapter that an image replaces. -/
def oldVersion (s : State) (img : List Byte) : Option Ver := (s.cat.adapter (hdrFields img).id).cur

/-- The version that the image makes. -/
def newVersion (s : State) (d : Desc) (img : List Byte) : Ver :=
  { imageVer img d.stateHdr (oldVersion s img) with byPublish := true }

/-- The home's checks against the catalogue, quotas and kiln (R19, R151, R250, R293): the retired ID, the base version, the joins,
a `LAST_TRAIN_SEQ` that would fall, the tenant's T4 quota, the kiln's space. -/
def homeBad (s : State) (d : Desc) (img : List Byte) : Option Bad :=
  let h := hdrFields img
  let x := s.cat.adapter h.id
  let v := newVersion s d img
  let seqOf := fun (y : Ver) => (y.state.map (·.lastTrainSeq)).getD 0
  firstBad
    [need (!x.retired) stPurged, joinBad (knownCat s s.cat) h (slotTable img),
     (if !d.stateHdr || seqOf ((oldVersion s img).getD {}) ≤ seqOf v then none
      else some { status := stBadField, off := 8, imageOff := stateStart h }),
     need (t4Charge s h.tenant + verBytes v ≤ (tenantRec s h.tenant).qT4Gib * gib) stQuota,
     need (kilnTakes s [v]) stNoSpace]

/-- The home takes an image in at the present event: it is copied to the kiln, whose journal record enters it (R249, R284). -/
def takeImage (s : State) (d : Desc) (img : List Byte) (ctx : Option Nat) (sqIndex : Nat) (fwd : Option Msg) : State :=
  let v := newVersion s d img
  { s with
    homes := { s.homes with publishes := s.homes.publishes ++
      [{ adapter := v.hdr.id, base := d.baseVersion, ver := v, ctx, sqIndex, fwd, raw := d.raw, image := img }] }
    kiln := { s.kiln with pending := s.kiln.pending ++ [.publish v.hdr.id v.version] } }

/-- Forward a command to the home of its adapter at the present event (R234). -/
def forwardCmd (s : State) (home : Nat) (raw img : List Byte) (c sqIndex opcode : Nat) : State :=
  let s := sendReq s { type := 0x42, dst := home, epoch := s.cat.epoch, ctxEpoch := (s.ctx c).epoch, submitter := c, data := raw ++ img } none
  { s with homes := { s.homes with forwards := s.homes.forwards ++ [(s.gauger.seq, c, sqIndex, opcode)] } }

/-- Reissue a peer's request at the new home, whose answer is passed back (R233). -/
def redirect (s : State) (home : Nat) (ask : Msg) : State :=
  let s := sendReq s { ask with dst := home, corr := 0, status := 0 } none
  { s with homes := { s.homes with
    redirected := s.homes.redirected ++ [(s.gauger.seq, ask)], redirects := sat 32 (s.homes.redirects + 1) } }

/-- The acceptance of an adapter `PUBLISH`: at the home the image is taken in, elsewhere it is forwarded. -/
def acceptPublish (c : Nat) (fr : Front) (d : Desc) (img : List Byte) (s : State) : State :=
  let a := (hdrFields img).id
  let cmd : Cmd := { opcode := d.opcode, sqIndex := fr.sqIndex, adapter := a, version := d.baseVersion + 1, seq := s.gauger.seq }
  let s := if homedHere s a then takeImage s d img (some c) fr.sqIndex none
    else forwardCmd s (homeOf s.cat a) d.raw img c fr.sqIndex d.opcode
  acceptLater s c cmd

/-- `PUBLISH` of an adapter (R24, R282, R284, R293). -/
def publishAdapter (c : Nat) (s : State) : State :=
  onFront c 0x30 s fun fr d img =>
    let h := hdrFields img
    if d.pubKind ≠ 1 then s
    else lookFirst c fr (if homedHere s h.id && (imageBad d img).isNone then joinNeeds h else []) (s := s) fun s => decideCmd s c fr d
      (firstBad [imageBad d img, need (tenantBound (s.ctx c).tenants h.tenant && (h.form ≠ .basis || ctxFabric s c)) stNoPermission,
        stateStatus s c d.opcode, if homedHere s h.id then homeBad s d img else none])
      (acceptPublish c fr d img)

/-- `PUBLISH_ADAPTER` (R282). -/
def execPublishAdapter (c : Fin 64) (s : State) : Host.Outcome State Fault Refusal := .next (publishAdapter c s)

/-- A `PUBLISH` ends at its publication event without a new version: nothing else changes (R284). -/
def failPublish (s : State) (p : PubPending) (b : Bad) : State :=
  let s := match p.fwd with
    | some m => reply s m 0x43 b.status [] b.result
    | none => s
  match p.ctx with
  | some c => match (s.ctx c).inflight.find? fun m => m.sqIndex = p.sqIndex && m.opcode = 0x30 with
    | some m => completeLater s c m b.status 0 b.result
    | none => s
  | none => s

/-- The adapter is in its racking freeze (Table 10.5, step 6). -/
def inFreeze (s : State) (a : AdapterId) : Bool :=
  match s.homes.rack with
  | some r => r.adapter = a && r.phase = 3
  | none => false

/-- What ends a `PUBLISH` at its publication event (R284, R413): a purge ordered before it, a base version that is not current, or
a join of R16, R23 or R25. -/
def publicationBad (s : State) (p : PubPending) : Option Bad :=
  let x := s.cat.adapter p.adapter
  if x.retired then some { status := stPurged }
  else if x.current ≠ p.base then some { status := stStaleVersion }
  else joinBad (knownCat s s.cat) p.ver.hdr p.ver.slots

/-- A `PUBLISH` takes a cask for its version (R176): its adapter has a resident cask, and ullage takes its tensors. -/
def takesCask (s : State) (p : PubPending) : Bool :=
  match caskOf s s.cat.epoch p.adapter p.base with
  | some i => (s.cask i).st = .resident && writeBytes p.ver (verIndices p.ver) p.ver.state.isSome ≤ ullageFree s
  | none => false

/-- The index that a publication takes, as an admission finds it (R168, R173): victims leave for it, and while a dirty one is being
written back the publication waits and holds the index. -/
def findIndex (s : State) (p : PubPending) : State × Bool :=
  if !takesCask s p then (s, false)
  else
    let n := if p.index then 0 else 1
    let t := makeIndices s n [p.adapter]
    (t, !(t.cellar.casks.length + indicesHeld t + n ≤ 4096) && comingIndices t ≠ 0)

/-- `LAST_TRAIN_SEQ` never decreases (R151): the one of the version that the new one replaces stands where it is the greater. -/
def keepTrainSeq (old : Option Ver) (v : Ver) : Ver :=
  { v with state := v.state.map fun st => { st with lastTrainSeq := max st.lastTrainSeq ((old.map lastTrain).getD 0) } }

/-- The version that a `PUBLISH` makes at its publication: what it carries over is the version's that it replaces there (R151). -/
def publishedVer (s : State) (p : PubPending) : Ver :=
  keepTrainSeq (s.cat.adapter p.adapter).cur { newVersion s (descFields p.raw) p.image with
    tensors := p.ver.tensors, origin := p.ver.origin, inT4 := true }

/-- The new version becomes current; the command completes once the lease holders have answered (R215). -/
def publishNow (s : State) (p : PubPending) : State :=
  let v := publishedVer s p
  let r := publishVersion s v (verIndices v) false false
  endSupersedes { r.1 with homes := { r.1.homes with supersedes := r.1.homes.supersedes ++
    [{ waiting := r.2, ctx := p.ctx, sqIndex := p.sqIndex, fwd := p.fwd, status := stDone, opcode := 0x30
       result := leBytes 6 v.version }] } }

/-- The homes of the adapters that the joins of a publication need are asked for them (R213); it waits for the answers. -/
def askNeeds (s : State) (p : PubPending) (ids : List AdapterId) : State :=
  let r := askAll s s.cat 0 p.asked ids
  { r.1 with homes := { r.1.homes with publishes := r.1.homes.publishes.map fun x => if x = p then { x with asked := r.2 } else x } }

/-- Adapters that the joins of a publication at its home need and that are not known yet. -/
def pubUnseen (s : State) (p : PubPending) : List AdapterId :=
  if homedHere s p.adapter then unseen s p.asked (joinNeeds p.ver.hdr) else []

/-- The publication event of an adapter's oldest `PUBLISH` that the kiln holds (R284); it waits while the adapter is frozen, and is
forwarded after a cutover (Table 10.6). -/
def publication (a : AdapterId) (s : State) : State :=
  match s.homes.publishes.find? fun p => p.adapter = a && p.held with
  | none => s
  | some p =>
    let f := if homedHere s a && (publicationBad s p).isNone then findIndex s p else (s, false)
    if inFreeze s a then s
    else if !(pubUnseen s p).isEmpty then askNeeds s p (pubUnseen s p)
    else if f.2 then
      { f.1 with homes := { f.1.homes with publishes := f.1.homes.publishes.map fun x => if x = p then { x with index := true } else x } }
    else
      let s := stamp f.1
      let s := { s with homes := { s.homes with publishes := s.homes.publishes.filter (· ≠ p) } }
      if !homedHere s a then
        let s := match p.fwd with
          | some m => redirect s (homeOf s.cat a) { m with data := p.raw ++ p.image }
          | none => s
        match p.ctx with
        | some c => forwardCmd s (homeOf s.cat a) p.raw p.image c p.sqIndex 0x30
        | none => s
      else match publicationBad s p with
        | some st => failPublish s p st
        | none => publishNow s p

/-- `PUBLISH_PUBLICATION` (R284). -/
def execPublishPublication (adapter : BitVec 24) (s : State) : Host.Outcome State Fault Refusal :=
  .next (publication adapter.toNat s)

/-! ### Racking ends -/

/-- A racking that runs ends with a status at the present event, a freeze with it (Tables 10.5 and 10.6). -/
def cancelRack (s : State) (status : Nat) (tell : Bool) : State :=
  match s.homes.rack with
  | none => s
  | some r =>
    let s := dropRack (measureFreeze s r) r tell
    match r.ctx with
    | some c => match (s.ctx c).inflight.find? fun m => m.sqIndex = r.sqIndex && m.opcode = 0x40 with
      | some m => completeLater s c m status 0 (rackResult s r)
      | none => s
    | none => s

/-! ### The purge -/

/-- The checks of a `PURGE` at the home (R410). -/
def purgeBad (s : State) (a : AdapterId) : Option Bad :=
  let x := s.cat.adapter a
  firstBad
    [needState ((headerOf s a).hdr.form ≠ .basis || (membersOf s.cat a).isEmpty),
     need (x.retired || x.cur.isSome) stUnknownAdapter, need (!x.retired) stPurged]

/-- Lease holders of an adapter, with the version that each may bind. -/
def leaseHolders (s : State) (a : AdapterId) : List (Nat × Nat) :=
  ((s.homes.granted.filter fun g => g.adapter = a && g.epoch = s.cat.epoch).map fun g => (g.version, g.peer)).eraseDups

/-- The purge at its sequence S on the home (R411 to R413): Table 21.3, the revocations, the kiln's step 1. -/
def orderPurge (s : State) (a : AdapterId) (ctx : Option Nat) (sqIndex : Nat) (fwd : Option Msg) : State :=
  let x := s.cat.adapter a
  let t := (headerOf s a).hdr.tenant
  let seq := s.gauger.seq
  let holders := leaseHolders s a
  let vs := x.versions.map (·.version)
  let s := applyPurge s a
  let s := if (s.homes.rack.map (·.adapter)) = some a then cancelRack s stCancelled true else s
  let s := { s with
    homes := { s.homes with purges := s.homes.purges ++
      [{ adapter := a, version := x.current, tenant := t, seq, epoch := s.cat.epoch, waiting := holders, ctx, sqIndex, fwd }] }
    kiln := { s.kiln with pending := s.kiln.pending ++ [.purgeStep1 a t] } }
  ((holders.map (·.2)).eraseDups).foldl (fun s p => sendReq (stamp s)
    { type := 0x05, dst := p, epoch := s.cat.epoch, args := 1 :: vs.flatMap fun v => [a, v] } none) s

/-- The acceptance of a `PURGE`: ordered at the home, forwarded elsewhere (R410). -/
def acceptPurge (c : Nat) (fr : Front) (d : Desc) (s : State) : State :=
  let cmd : Cmd := { opcode := d.opcode, sqIndex := fr.sqIndex, adapter := d.adapter
                     version := (s.cat.adapter d.adapter).current, seq := s.gauger.seq }
  let s := if homedHere s d.adapter then orderPurge s d.adapter (some c) fr.sqIndex none
    else forwardCmd s (homeOf s.cat d.adapter) d.raw [] c fr.sqIndex d.opcode
  acceptLater s c cmd

/-- `PURGE` (R410): 0xFF_FFFF is refused with the zero adapter, whose check stands with the descriptor's fields. An adapter homed
elsewhere is looked up first: its tenant and its form decide who may purge it (R24). -/
def purge (c : Nat) (s : State) : State :=
  onFront c 0x31 s fun fr d _ =>
    let a := d.adapter
    lookFirst c fr [a] (s := s) fun s => decideCmd s c fr d
      (firstBad [(if a = 0xFFFFFF then some { status := stBadField, off := 16 } else none),
        need (tenantOk s c a && ((headerOf s a).hdr.form ≠ .basis || ctxFabric s c)) stNoPermission, stateStatus s c d.opcode,
        if homedHere s a then purgeBad s a else adapterStatus s a])
      (acceptPurge c fr d)

def execPurge (c : Fin 64) (s : State) : Host.Outcome State Fault Refusal := .next (purge c s)

/-- A purge completes at the present event: `DONE` with the last version purged; the adapter's part of every gradient hold is
freed (R159). -/
def endPurge (s : State) (p : PurgePending) : State :=
  let s := { s with
    homes := { s.homes with purges := s.homes.purges.filter (· ≠ p) }
    train := { s.train with hold := s.train.hold.filter fun h => h.adapter ≠ p.adapter } }
  let res := leBytes 6 p.version
  let s := match p.fwd with
    | some m => reply s m 0x43 stDone [] res
    | none => s
  match p.ctx with
  | some c => match (s.ctx c).inflight.find? fun m => m.sqIndex = p.sqIndex && m.opcode = 0x31 with
    | some m => completeLater s c m stDone 0 res
    | none => s
  | none => s

/-- The purge of an adapter completes once no issued operation on it remains here, every holder has answered or its lease has run
out, and the kiln's part is complete (R413). -/
def purgeDone (a : AdapterId) (s : State) : State :=
  match s.homes.purges.find? fun p => p.adapter = a with
  | some p => if issuedOn s a || !p.waiting.isEmpty || !p.kilnDone then s else endPurge (stamp s) p
  | none => s

/-- `PURGE_COMPLETE` (R413). -/
def execPurgeComplete (adapter : BitVec 24) (s : State) : Host.Outcome State Fault Refusal := .next (purgeDone adapter.toNat s)

/-! ### Rotations -/

/-- The rotation that runs for a tenant. -/
def rotationOf (s : State) (t : Nat) : Option Rotation := s.kiln.rotations.find? fun r => r.tenant = t

/-- Purges of a tenant whose kiln part has not been taken up by a rotation. -/
def waitingPurges (s : State) (t : Nat) : List PurgePending :=
  s.homes.purges.filter fun p => p.tenant = t && !p.kilnDone && !(s.kiln.rotations.any fun r => r.purges.contains p.adapter)

/-- A `KEY_OP` 0b10 for the tenant waits for a rotation (R409). -/
def keyOpWaits (s : State) (t : Nat) : Bool :=
  s.keys.busy = some 2 && s.keys.busyTenant = t && !s.kiln.rotations.any fun r => r.tenant = t && r.byKeyOp

/-- Step 2 of R260: every version record of the tenant that is left is wrapped anew, under the key of the rotation that has started. -/
def rewrapTenant (s : State) (t : Nat) : State :=
  journalPut s { seq := s.gauger.seq, kind := .rewrap t, versions := (s.kiln.map.versions.filter (·.tenant = t)).map (wrapRec s) }

/-- The rotation start (R260): the step-1 records of every purge of the tenant are held, and no rotation of the tenant runs. Its
new wrap key is the tenant's next generation; the records are wrapped under it, and its checkpoint begins. -/
def rotationStart (t : Nat) (s : State) : State :=
  let ps := waitingPurges s t
  if (rotationOf s t).isSome || !kilnServes s || pairAway s 1 || (ps.isEmpty && !keyOpWaits s t) || !ps.all (·.step1Held) then s
  else
    let byKeyOp := keyOpWaits s t
    let s := stamp s
    startCheckpoint (rewrapTenant { s with kiln := { s.kiln with rotations := s.kiln.rotations ++
      [{ tenant := t, start := s.gauger.seq, purges := ps.map (·.adapter), byKeyOp }] } } t)

/-- `ROTATION_START` (R260). -/
def execRotationStart (tenant : Fin 4096) (s : State) : Host.Outcome State Fault Refusal := .next (rotationStart tenant s)

/-- Step 4 of R260: once a checkpoint begun after the rotation start is valid, the old wrap key is destroyed; the kiln's part of
the purges that share the rotation is complete, and a `KEY_OP` that asked for it ends (R409). -/
def rotationDone (t : Nat) (s : State) : State :=
  match rotationOf s t with
  | none => s
  | some r =>
    if s.kiln.ckpt.seq < r.start then s
    else
      let s := stamp s
      let s := { s with
        kiln := { s.kiln with rotations := s.kiln.rotations.filter fun x => x.tenant ≠ t }
        keys := { s.keys with wrapGen := tmod 0 s.keys.wrapGen t (· + 1), rotations := sat 32 (s.keys.rotations + 1) }
        homes := { s.homes with purges := s.homes.purges.map fun p =>
          (if r.purges.contains p.adapter then { p with kilnDone := true } else p) } }
      if r.byKeyOp then raise ({ s with keys := { s.keys with busy := none } }) pgKeys 0 else s

/-- `ROTATION_COMPLETE` (R260). -/
def execRotationComplete (tenant : Fin 4096) (s : State) : Host.Outcome State Fault Refusal := .next (rotationDone tenant s)

end Sys2Proof.Machine
end

