-- ==== Sys2Proof/Machine/Epochs.lean ====
section
/-! DEFINITION. Catalogue epochs (R21, R235 to R238, R311): `EPOCH_STAGE`, the end of staging and `EPOCH_SWITCH`. A catalogue image as
read (Machine/Memory.lean) is its header, its records, and each record's data in their order. -/
namespace Sys2Proof.Machine

/-! ### The image -/

/-- A record of a catalogue image with its data (Table 10.7). -/
structure ImgRec where
  kind : Nat
  off : Nat
  data : List Byte
  deriving DecidableEq, Repr

/-- The records of an image: kind, offset in the image, data. -/
def imgRecords (img : List Byte) : List ImgRec :=
  let n := le img 4 4
  let step := fun (acc : Nat × List ImgRec) (i : Nat) =>
    let b := le img (64 + 16 * i + 4) 4
    (acc.1 + b, acc.2 ++ [{ kind := le img (64 + 16 * i) 1, off := 64 + 16 * i, data := (img.drop acc.1).take b }])
  ((List.range n).foldl step (64 + 16 * n, [])).2

/-- The records of a kind. -/
def recsOf (rs : List ImgRec) (kind : Nat) : List ImgRec := rs.filter (·.kind = kind)

/-- Where an adapter's state area begins in a record, and the record's length with it. -/
def recStateBytes (bs : List Byte) : Nat :=
  let h := hdrFields bs
  stateBytes h (slotTable bs) (stateFields bs (stateStart h))

/-- The record carries a state area. -/
def recHasState (bs : List Byte) : Bool :=
  let h := hdrFields bs
  areaStart h.slotCount + h.tensorBytes < bs.length

/-- The field checks of an adapter record: those of an image, its state header, its length. -/
def recAdapterBad (bs : List Byte) : Option Nat :=
  let h := hdrFields bs
  let cs := adapterChecks bs ++ (if recHasState bs then stateChecks bs (stateStart h) else [])
  match firstCheck cs with
  | some b => some b.status
  | none =>
    let n := if recHasState bs then stateStart h + recStateBytes bs else areaStart h.slotCount + h.tensorBytes
    if bs.length = n then none else some stBadField

/-- The state arrays of a record (R149): each begins at a multiple of 64 bytes after the state header. -/
def recArrays (bs : List Byte) : List (List Byte) :=
  let h := hdrFields bs
  let st := stateFields bs (stateStart h)
  let lens := (slotTable bs).flatMap fun e => (slotElems h e).flatMap fun k =>
    List.replicate (arraysPer st.optKind) (k * streamBytes st.stateFmt)
  let step := fun (acc : Nat × List (List Byte)) (n : Nat) => (acc.1 + roundUp n 64, acc.2 ++ [(bs.drop acc.1).take n])
  (lens.foldl step (stateStart h + 64, [])).2

/-- The version that an adapter record brings in: version 1 (R18, R235). -/
def recVersion (bs : List Byte) : Ver :=
  let v := imageVer bs false none
  let st : Option StateArea :=
    if recHasState bs then some ((stateFields bs (stateStart (hdrFields bs))).withArrays (recArrays bs)) else none
  { v with
    version := 1, hdr := { v.hdr with version := 1 }, tensors := v.tensors.map fun t => { t with writer := 1 }, state := st, home := true }

/-- The data of a record that Table 10.7 does not allow, taken in itself. Of a carry's 8 bytes the table gives the low three: that the others
must be zero is the model's choice (log entry 55). -/
def recDataBad (rack : Nat) (r : ImgRec) : Bool :=
  let d := r.data
  match r.kind with
  | 0x01 => d.length ≠ 4096 || d.any fun b => rack ≤ b.toNat
  | 0x02 => d.length % 4 ≠ 0 || 131072 < d.length || (List.range (d.length / 4)).any fun i => rack ≤ le d (4 * i + 3) 1
  | 0x03 => d.length < 96
  | 0x04 => d.length ≠ 8 || le d 3 5 ≠ 0
  | 0x05 => d.length % 32 ≠ 0 || (List.range (d.length / 32)).any fun i =>
      (firstCheck ((dirChecks (le d (32 * i + 8) 2 % 4096) d i))).isSome
  | _ => true

/-- The bytes of a shard table as a table, from entry `i` on. -/
def shardBytes : Nat → List Byte → Tab Nat
  | _, [] => []
  | i, b :: bs => if b = 0 then shardBytes (i + 1) bs else (i, b.toNat) :: shardBytes (i + 1) bs

/-- The shard table of an image. -/
def imgShard (rs : List ImgRec) : Tab Nat :=
  match recsOf rs 1 with
  | r :: _ => shardBytes 0 (r.data.take 4096)
  | [] => []

/-- The exception table of an image, each peer kept as peer + 1. -/
def imgExceptions (rs : List ImgRec) : Tab Nat :=
  (recsOf rs 2).foldl (fun t r => (List.range (r.data.length / 4)).foldl (fun t i =>
    tput (le r.data (4 * i) 3) (le r.data (4 * i + 3) 1 + 1) t) t) []

/-- The catalogue of an image: its tables and every adapter that it holds, published at a sequence. Of two records of one ID
the later one counts, and a record that is also carried is replaced by the carried adapter: the model's choice (log entry 45). -/
def imgCatalogue (epoch : Nat) (seq : Seq) (rs : List ImgRec) : Catalogue :=
  { epoch, shard := imgShard rs, exceptions := imgExceptions rs
    adapters := (recsOf rs 3).foldl (fun t r =>
      let v := recVersion r.data
      tput v.hdr.id { current := 1, versions := [{ v with pubSeq := seq }] } t) []
    carries := (recsOf rs 4).map fun r => le r.data 0 3 }

/-- A carried adapter as the new epoch holds it: its current version, under version 1, with its tensors and state shared (R235). -/
def carryOf (s : State) (a : AdapterId) : Option Adapter :=
  match (s.cat.adapter a).cur with
  | some v => if (s.cat.adapter a).retired then none
      else some { current := 1, versions := [{ v.shared s.cat.epoch with
        version := 1, hdr := { v.hdr with version := 1 }, pubSeq := s.gauger.seq, home := true }] }
  | none => none

/-- The catalogue with its carried adapters filled in. -/
def withCarries (s : State) (cat : Catalogue) : Catalogue :=
  { cat with adapters := cat.carries.foldl (fun t a => match carryOf s a with
      | some x => tput a x t
      | none => t) cat.adapters }

/-- The part of a catalogue that this block holds: the adapters that the image makes its own (R235); of the others, their IDs. -/
def ownPart (s : State) (cat : Catalogue) : Catalogue :=
  { cat with
    adapters := cat.adapters.filter fun e => homeOf cat e.1 = selfPeer s
    carries := cat.carries.filter fun a => homeOf cat a = selfPeer s
    listed := ((cat.adapters.map (·.1)) ++ cat.carries).filter fun a => homeOf cat a ≠ selfPeer s }

/-- The directory of an image: every entry inserted under the directory key; none where one finds no place (R72). -/
def imgDirectory (s : State) (rs : List ImgRec) : Option (Directory × Nat) :=
  let es := (recsOf rs 5).flatMap fun r => dirEntriesOf r.data (r.data.length / 32)
  let d0 : Directory := { key0 := s.dir.key0, key1 := s.dir.key1 }
  es.foldl (fun acc e => match acc with
    | none => none
    | some (d, ctr) => if e.kind = .none then some (d, ctr) else match dirEntry d e.tenant e.key with
      | some _ => some (dirReplace d e, ctr)
      | none => dirInsert d ctr e) (some (d0, s.freeCtr))

/-! ### `EPOCH_STAGE` -/

/-- A field fault of an image at an offset. -/
def imageFault (status off : Nat) : Bad := { status, off := 8, imageOff := off }

/-- What is wrong with one record taken in itself (Table 10.7, R42): its kind and reserved bytes, then its data, whose faults give the
offset of `REC_ADDR` (R279). -/
def recFault (s : State) (img : List Byte) (r : ImgRec) : Option Bad :=
  if r.kind = 0 || 5 < r.kind then some (imageFault stBadField r.off)
  else match (List.range 3).find? fun i => le img (r.off + 1 + i) 1 ≠ 0 with
    | some i => some (imageFault stBadField (r.off + 1 + i))
    | none =>
      if recDataBad (rackSize s) r then some (imageFault stBadField (r.off + 8))
      else if r.kind = 3 then (recAdapterBad r.data).map fun st => imageFault st (r.off + 8)
      else none

/-- The record with which an image's exception lists pass the 32,768 entries of the table (R209). -/
def exceptionsPast : (room : Nat) → List ImgRec → Option ImgRec
  | _, [] => none
  | room, r :: t =>
    let n := if r.kind = 2 then r.data.length / 4 else 0
    if room < n then some r else exceptionsPast (room - n) t

/-- The faults of an image's records taken in themselves, and the limit of the exception table (R209, R235, R236, R293). -/
def recordsBad (s : State) (img : List Byte) (rs : List ImgRec) : Option Bad :=
  (rs.findSome? (recFault s img)).or ((exceptionsPast 32768 rs).map fun r => imageFault stBadField (r.off + 8))

/-- A carry of an adapter that is not homed here both in force and under the image (R236, third case). -/
def carriesBad (s : State) (cat : Catalogue) (rs : List ImgRec) : Option Bad :=
  let bad := fun (r : ImgRec) =>
    let a := le r.data 0 3
    r.kind = 4 && (!homedHere s a || homeOf cat a ≠ selfPeer s || (carryOf s a).isNone)
  (rs.find? bad).map fun r => imageFault stBadField (r.off + 8)

/-- An adapter of the image, or a carried one, whose joins against the new catalogue R42 refuses: a fault of a record's data gives the
offset of its `REC_ADDR` (R279). -/
def adaptersBad (cat : Catalogue) (rs : List ImgRec) : Option Bad :=
  let joins := fun (off : Nat) (h : AdapterHdr) (es : List SlotEntry) =>
    (joinStatus cat h es).map fun st => if st = stBadField then imageFault st (off + 8) else ({ status := st } : Bad)
  rs.findSome? fun r =>
    match r.kind with
    | 0x03 => joins r.off (hdrFields r.data) (slotTable r.data)
    | 0x04 => (cat.adapter (le r.data 0 3)).cur.bind fun v => joins r.off v.hdr v.slots
    | _ => none

/-- A tenant whose T4 quota the new adapters would breach. -/
def stageQuota (s : State) (own : Catalogue) : Bool :=
  let vs := own.adapters.flatMap fun e => e.2.versions
  let tenants := (vs.map (·.hdr.tenant)).eraseDups
  tenants.all fun t =>
    t4Charge s t + (vs.map fun v => if v.hdr.tenant = t then verBytes v else 0).sum ≤ (tenantRec s t).qT4Gib * gib

/-- The refusals of `EPOCH_STAGE` (R236, R250), in the order of R293. -/
def stageBad (s : State) (c : Nat) (d : Desc) (img : List Byte) : Option Bad :=
  let rs := imgRecords img
  let cat := imgCatalogue d.epoch s.gauger.seq rs
  let own := ownPart s cat
  firstBad
    [(if d.epoch = s.cat.epoch then some { status := stBadField, off := 16 } else none),
     firstImageCheck 0 ([chk 0 (le img 0 2 = d.epoch)] ++ zeros img 2 4 ++ [chk 4 ((recsOf rs 1).length = 1)] ++ zeros img 8 64),
     recordsBad s img rs,
     need (ctxFabric s c) stNoPermission, stateStatus s c d.opcode, needState s.catRetiring.isNone,
     carriesBad s cat rs, adaptersBad (withCarries s cat) rs,
     need (stageQuota { s with catStaged := none } own) stQuota,
     need (512 * mib ≤ t2Room { s with catStaged := none } && (imgDirectory s rs).isSome) stNoSpace,
     need (kilnTakes { s with catStaged := none } (own.adapters.flatMap fun e => e.2.versions)) stNoSpace]

/-- An `EPOCH_STAGE` that still stages gives way to a later one: it completes `CANCELLED` at an event of its own, which is the model's
choice (log entry 55). -/
def dropStaging (s : State) : State :=
  match s.staging with
  | none => s
  | some (c, sq) =>
    let s := { s with staging := none }
    match (s.ctx c).inflight.find? fun m => m.sqIndex = sq && m.opcode = 0x32 with
    | some m => completeLater (stamp s) c m stCancelled 0 (leBytes 2 m.arg)
    | none => s

/-- The acceptance of `EPOCH_STAGE`: the staged catalogue before it is replaced; staging begins (R236). -/
def acceptStage (c : Nat) (fr : Front) (d : Desc) (img : List Byte) (s : State) : State :=
  let rs := imgRecords img
  let seq := s.gauger.seq
  let own := ownPart s (imgCatalogue d.epoch seq rs)
  let dir := (imgDirectory s rs).getD ({}, s.freeCtr)
  let s := makeT2 { s with catStaged := none } (512 * mib) 256
  let s := { s with
    catStaged := some own, dirStaged := dir.1, freeCtr := dir.2
    kiln := { s.kiln with pending := s.kiln.pending.filter (fun k => match k with
      | .staged _ => false
      | _ => true) ++ [.staged d.epoch] } }
  let s := acceptLater s c { opcode := d.opcode, sqIndex := fr.sqIndex, arg := d.epoch, seq }
  { dropStaging s with staging := some (c, fr.sqIndex) }

/-- `EPOCH_STAGE` (R235, R236). -/
def epochStage (c : Nat) (s : State) : State :=
  onFront c 0x32 s fun fr d img => decideCmd s c fr d (stageBad s c d img) (acceptStage c fr d img)

def execEpochStage (c : Fin 64) (s : State) : Host.Outcome State Fault Refusal := .next (epochStage c s)

/-- Tensors of the staged catalogue still wait for the kiln (R249, R250). -/
def stagingWrites (s : State) : Bool := s.kiln.pending.any fun k => match k with
  | .staged _ => true
  | _ => false

/-- Staging ends: the kiln holds the staged catalogue and its directory (R212, R236); not due while its tensors wait to be written, nor
while the kiln does not serve. -/
def epochStaged (s : State) : State :=
  match s.staging with
  | none => s
  | some (c, sq) =>
    if !kilnServes s || pairAway s 1 || stagingWrites s then s
    else
      let s := { stamp s with staging := none }
      match (s.ctx c).inflight.find? fun m => m.sqIndex = sq && m.opcode = 0x32 with
      | some m => completeLater s c m stDone 0 (leBytes 2 m.arg)
      | none => s

/-- `EPOCH_STAGED` (R236). -/
def execEpochStaged (s : State) : Host.Outcome State Fault Refusal := .next (epochStaged s)

/-! ### `EPOCH_SWITCH` -/

/-- The catalogue in force lists an adapter, of this block or of another. -/
def listedNow (s : State) (a : AdapterId) : Bool := (s.cat.adapter a).cur.isSome || s.cat.listed.contains a

/-- Pins of adapters that the new catalogue does not list are deleted, each with a record (R311). -/
def settlePins (s : State) : State :=
  let gone := s.cellar.pins.filter fun p => !listedNow s p.adapter
  let s := { s with cellar := { s.cellar with pins := s.cellar.pins.filter fun p => listedNow s p.adapter } }
  gone.foldl (fun s p => logNow s pgCellar evPinDeleted none (some p.ctx) 0 (leBytes 3 p.adapter)) s

/-- The adapters that pins and tenant records keep here (R170, R404). -/
def keptAdapters (s : State) : List AdapterId :=
  (((s.cellar.pins.map (·.adapter)) ++ (s.tenantRecs.map (·.2.fallback))).eraseDups).filter (· ≠ 0)

/-- A look-up of an adapter is on its way to its home, for no gyle. -/
def lookingUp (s : State) (a : AdapterId) : Bool :=
  s.homes.requests.any fun r => r.msg.type = 0x01 && r.gk.isNone && r.msg.epoch = s.cat.epoch && r.msg.args.contains a

/-- Pinned and fallback adapters homed elsewhere that stand under no lease are looked up, where their homes' links are up (R213, R307,
R311). -/
def seekKept (s : State) : State :=
  (keptAdapters s).foldl (fun s a =>
    if knownIn s s.cat a || lookingUp s a || !peerUp s (homeOf s.cat a) then s else askHome s s.cat.epoch (homeOf s.cat a) 0 a) s

/-- Admissions that the pins and the fallbacks of the new catalogue ask for (R170, R404). -/
def pinAdmits (s : State) : State :=
  (keptAdapters s).foldl (fun s a => match (s.cat.adapter a).cur with
    | some v =>
      if (caskOf s s.cat.epoch a v.version).isSome then s
      else needCasks s { explicit := true, seq := s.gauger.seq, epoch := s.cat.epoch } v (basisOf s v)
    | none => s) s

/-- The cask of a carried adapter serves the new epoch (R235): it changes its name where no gyle of the old epoch binds it, and a new cask
shares its tensors where one does. That one is left out where no index is free is the model's choice (log entry 50). -/
def carryCask (s : State) (old : Nat) (a : AdapterId) (v0 : Nat) : State :=
  match caskOf s old a v0, (s.cat.adapter a).cur with
  | some i, some v =>
    let c := s.cask i
    if c.st ≠ .resident then s
    else if c.binds.isEmpty && c.trainHolds.isEmpty then modCask s i fun c => { c with epoch := s.cat.epoch, version := v.version }
    else if freeCount s = 0 then s
    else
      let n := newCask s v c ((verIndices v).filter fun i => 2 * v.slots.length ≤ i)
      let s := modCask s (firstFree 0 s.cellar.casks) fun _ => n
      modCask s i fun c => { c with stateArea := false, dirty := [], dirtySeq := 0 }
  | _, _ => s

/-- What follows a carried adapter into the new epoch beside its cask: its warm copies, its dirty data and their journal records (R235). -/
def carryData (s : State) (old : Catalogue) (carried : List AdapterId) : State :=
  let was := fun (a : AdapterId) (v : Nat) => carried.contains a && (old.adapter a).current = v
  let warm := fun (w : Warm) => if w.epoch = old.epoch && was w.adapter w.version then { w with epoch := s.cat.epoch, version := 1 } else w
  let pend := fun (k : JournalKind) => match k with
    | .dirty a v => if was a v then .dirty a 1 else k
    | _ => k
  let s := { s with
    tiers := { s.tiers with warm := s.tiers.warm.map warm }
    kiln := { s.kiln with pending := s.kiln.pending.map pend }
    train := { s.train with dirty := (s.train.dirty.filter fun d => carried.contains d.adapter).map fun d => { d with version := 1 } } }
  carried.foldl (fun s a => syncDirty (carryCask s old.epoch a (old.adapter a).current) a) s

/-- The adapters that a catalogue carries over (R235). -/
def carriedBy (s : State) (new : Catalogue) : List AdapterId := new.carries.filter fun a => (carryOf s a).isSome

/-- The switch at the present event (R237, R238, R311): catalogue, shard table, exception table and directory come into force, the
old epoch is retiring, dirty data of carried adapters follows them, a racking is cancelled, and the kiln records it (R212). -/
def switchEpoch (s : State) (new : Catalogue) : State :=
  let carried := carriedBy s new
  let cat : Catalogue := { withCarries s new with carries := [] }
  let cat : Catalogue := { cat with adapters := cat.adapters.map fun e =>
    (e.1, { e.2 with versions := e.2.versions.map fun v => { v with pubSeq := s.gauger.seq } }) }
  let old := s.cat
  let filling := s.gyles.any fun g => g.st = .filling && !g.key.far
  let s := cancelRack s stCancelled true
  let s : State := { s with
    cat := cat
    catStaged := none
    catRetiring := if old.epoch = 0 && !(s.gyles.any fun g => g.epoch = 0) then none else some old
    dir := { s.dirStaged with refusals := s.dir.refusals }
    dirOld := if filling then some s.dir else none
    dirStaged := {} }
  let s := { s with homes := { s.homes with publishes := s.homes.publishes.map fun p => { p with ver := p.ver.shared old.epoch } } }
  let s := carryData s old carried
  let s := { s with kiln := { s.kiln with pending := s.kiln.pending ++ [.epochSwitch cat.epoch (s.dir.buckets.flatMap (·.2))] } }
  refreshHolds (pinAdmits (settlePins s))

/-- What follows a switch at events of its own: the records of the carried versions, the look-ups of what pins and tenant records keep,
and the release of the old epoch. -/
def afterSwitch (carried : List AdapterId) (s : State) : State :=
  releaseEpoch (seekKept (carried.foldl (fun s a => ((s.cat.adapter a).cur.map (enterShared s s.cat.epoch)).getD s) s))

/-- `EPOCH_SWITCH` (R237): it completes at the switch's sequence. -/
def epochSwitch (c : Nat) (s : State) : State :=
  onFront c 0x33 s fun fr d _ =>
    decideCmd s c fr d
      (firstBad [need (ctxFabric s c) stNoPermission, stateStatus s c d.opcode,
        needState (s.staging.isNone && s.catStaged.map (·.epoch) = some d.epoch)])
      fun s => match s.catStaged with
        | some k =>
          let t := postRecord s c d.opcode stDone 0 fr.sqIndex 0 (leBytes 2 d.epoch) none
          afterSwitch (carriedBy s k) (afterCmd (clearFront (switchEpoch t k) c) c)
        | none => s

def execEpochSwitch (c : Fin 64) (s : State) : Host.Outcome State Fault Refusal := .next (epochSwitch c s)

end Sys2Proof.Machine
end

