-- ==== Sys2Proof/Machine/Tenants.lean ====
section
/-! DEFINITION. Tenant records (R402 to R404, Table 21.1): their bytes, their refusals, and the store of a record, which waits for the
homes of adapters that this block does not know. -/
namespace Sys2Proof.Machine

/-! ### Tenant records (Table 21.1) -/

/-- The 32 bytes of a tenant record. -/
def TenantRec.bytes (r : TenantRec) : List Byte :=
  leBytes 4 r.dflt ++ leBytes 4 r.fallback ++ leBytes 4 r.qT1Mib ++ leBytes 4 r.qPinMib ++ leBytes 4 r.qT2Gib ++
    leBytes 4 r.qT3Gib ++ leBytes 4 r.qT4Gib ++ leBytes 4 0

/-- The record that 32 bytes give. -/
def tenantOfBytes (bs : List Byte) : TenantRec :=
  { dflt := le bs 0 3, fallback := le bs 4 3, qT1Mib := le bs 8 4, qPinMib := le bs 12 4, qT2Gib := le bs 16 4
    qT3Gib := le bs 20 4, qT4Gib := le bs 24 4 }

/-- Every field of the record in range, every reserved byte zero. -/
def tenantRanges (bs : List Byte) : Bool :=
  let r := tenantOfBytes bs
  le bs 3 1 = 0 && le bs 7 1 = 0 && le bs 28 4 = 0 && r.qT1Mib ≤ 4096 && r.qPinMib ≤ 4096 && r.qT2Gib ≤ 1024 &&
    r.qT3Gib ≤ 2048 && r.qT4Gib ≤ 16384

/-- The staged record's bytes (R429). -/
def stagedTenant (s : State) : List Byte := (List.range 4).flatMap fun w => leBytes 8 (tget 0 s.glob.tenantBuf w).toNat

/-- What is wrong with an adapter that a tenant record names (R403): none for the zero adapter or a current direct adapter or member of
the tenant. -/
def tenantAdapterBad (s : State) (t : Nat) (a : AdapterId) : Option Nat :=
  if a = 0 then none
  else if (s.cat.adapter a).retired then some stPurged
  else match (s.cat.adapter a).cur with
    | none => some stUnknownAdapter
    | some v => if v.hdr.form = .basis || v.hdr.tenant ≠ t then some stBadField else none

/-- `CASK_BYTES` of an adapter's current version; 0 for the zero adapter. -/
def currentBytes (s : State) (a : AdapterId) : Nat := match (s.cat.adapter a).cur with
  | some v => verBytes v
  | none => 0

/-- The refusals of a store, in the order of R403. -/
def tenantStoreCheck (t : Nat) (bs : List Byte) (s : State) : Option Nat :=
  let r := tenantOfBytes bs
  let bad := [tenantAdapterBad s t r.dflt, tenantAdapterBad s t r.fallback]
  if !tenantRanges bs || bad.contains (some stBadField) then some stBadField
  else if bad.contains (some stUnknownAdapter) then some stUnknownAdapter
  else if bad.contains (some stPurged) then some stPurged
  else if r.qT1Mib * mib < currentBytes s r.fallback + pinnedBytes s (fun v => v.hdr.tenant = t) then some stQuota
  else none

/-- The record becomes the tenant's; the fallback hold moves, and the new fallback is admitted (R404). -/
def tenantStoreEffect (t : Nat) (bs : List Byte) (s : State) : State :=
  let r := tenantOfBytes bs
  let s := refreshHolds { s with tenantRecs := tset {} s.tenantRecs t r }
  match (s.cat.adapter r.fallback).cur with
  | some v => if r.fallback = 0 then s
    else refreshHolds (needCasks s { explicit := true, seq := s.gauger.seq, epoch := s.cat.epoch } v (basisOf s v))
  | none => s

/-! ### Adapters homed elsewhere -/

/-- Of the adapters that a record names, those that a look-up must tell of first; none where the record is out of range. -/
def tenantUnseen (s : State) (asked : Tab Nat) (bs : List Byte) : List AdapterId :=
  let r := tenantOfBytes bs
  if tenantRanges bs then unseen s asked [r.dflt, r.fallback] else []

/-- A store of the record waits: for look-ups, or behind one of the same tenant that does. -/
def tenantWaits (s : State) (t : Nat) (bs : List Byte) : Bool :=
  !(tenantUnseen s [] bs).isEmpty || s.homes.tenantWaits.any fun w => w.tenant = t

/-- The store of a record by an accepted write: at once, or after the look-ups that it waits for (R213; log entry 57). -/
def tenantStore (t : Nat) (v : Word64) (role : Role) (bs : List Byte) (s : State) : State :=
  if tenantWaits s t bs then
    let r := askAll s s.cat 0 [] (tenantUnseen s [] bs)
    { r.1 with homes := { r.1.homes with tenantWaits := r.1.homes.tenantWaits ++ [{ tenant := t, word := v, role, bytes := bs, asked := r.2 }] } }
  else tenantStoreEffect t bs s

/-- A store that waited is decided at an event of its own: refused as its write would have been, or stored. -/
def decideTenant (s : State) (w : TenantWait) : State :=
  let s := stamp s
  match tenantStoreCheck w.tenant w.bytes s with
  | some st => { (refuseWrite s pgGlobal 0x0C0 w.role st) with outs := s.outs }
  | none => tenantStoreEffect w.tenant w.bytes s

/-- Stores of tenant records that have their look-ups are decided, each behind the earlier ones of its tenant; the others wait on. -/
def settleTenants (s : State) : State :=
  s.homes.tenantWaits.foldl (fun s w =>
    let us := tenantUnseen s w.asked w.bytes
    if us.isEmpty && !(s.homes.tenantWaits.any fun x => x.tenant = w.tenant) then decideTenant s w
    else
      let r := askAll s s.cat 0 w.asked us
      { r.1 with homes := { r.1.homes with tenantWaits := r.1.homes.tenantWaits ++ [{ w with asked := r.2 }] } })
    { s with homes := { s.homes with tenantWaits := [] } }

end Sys2Proof.Machine
end

