-- ==== Sys2Proof/Machine/Repairs.lean ====
section
/-! DEFINITION. The repair map (R348 to R351): records, the standing record of a kind and object, and the append of a repair. -/
namespace Sys2Proof.Machine

/-- `MAP_KIND` (Table 17.2). -/
def MapKind.code : MapKind → Nat
  | .laneSpare => 1 | .laneFailed => 2 | .tunRetired => 3 | .cellarRow => 4 | .cellarRegion => 5 | .kilnRetired => 6 | .ageTrim => 7
  | .fwSlot => 8

/-- `MAP_DATA`, without the unused bytes (Table 17.2). -/
def MapRec.dataBytes (r : MapRec) : List Byte :=
  match r.kind with
  | .cellarRow => leBytes 2 (r.data.getD 0 0) ++ leBytes 1 (r.data.getD 1 0)
  | .cellarRegion => leBytes 2 (r.data.getD 0 0)
  | _ => r.data.flatMap (leBytes 1)

/-- A record's 32 bytes (Table 17.1). -/
def MapRec.bytes (r : MapRec) : List Byte :=
  let body := leBytes 8 r.seq ++ leBytes 1 r.kind.code ++ [0] ++ leBytes 2 r.object ++ padTo 12 r.dataBytes ++ leBytes 4 0
  body ++ leBytes 4 (crc32c body)

/-- `MAP_RECORDS`: records in use (Table 17.10). -/
def mapRecords (s : State) : Nat := max s.repair.mapA.length s.repair.mapB.length

/-- Append a repair's record at the present event, to copy A and then to copy B; with the map full the repair lasts until the
next block reset (R350). -/
def appendMap (s : State) (kind : MapKind) (object : Nat) (data : List Nat) : State :=
  let r : MapRec := { seq := s.gauger.seq, kind, object, data }
  if 4096 ≤ mapRecords s then
    raise { s with repair := { s.repair with volatile := s.repair.volatile ++ [r] } } pgRepair 2
  else { s with repair := { s.repair with mapA := s.repair.mapA ++ [r], mapB := s.repair.mapB ++ [r] } }

/-- Two records name the same kind and object (R349); for `LANE_SPARE` the object is the pair (tun, spare lane), and every
`LANE_FAILED` lane of a tun stands. -/
def MapRec.same (a b : MapRec) : Bool :=
  a.kind = b.kind && a.object = b.object &&
    ((a.kind ≠ .laneSpare && a.kind ≠ .laneFailed && a.kind ≠ .cellarRow) || a.data.head? = b.data.head?)

/-- The record that the map gives at an index: copy A's where its CRC passes, else copy B's; none where both fail (R348). -/
def mapAt (r : Repair) (i : Nat) : Option MapRec :=
  if !r.badA.contains i && i < r.mapA.length then r.mapA[i]?
  else if !r.badB.contains i then r.mapB[i]?
  else none

/-- The records of the map as it is read. -/
def readMap (r : Repair) : List MapRec := (List.range (max r.mapA.length r.mapB.length)).filterMap (mapAt r)

/-- The standing records: of those that name the same kind and object, the one with the highest `MAP_SEQ` (R349). -/
def standing (rs : List MapRec) : List MapRec :=
  rs.filter fun r => !rs.any fun x => x.same r && r.seq < x.seq

/-- The records in force: the map's standing records, and the repairs that a full map could not take. -/
def mapInForce (s : State) : List MapRec := standing (readMap s.repair ++ s.repair.volatile)

/-- The pairs' image: of the slot that the standing `FW_SLOT` record names, of slot 0 where there is none (R358). -/
def loadFirmware (r : Repair) : Repair :=
  let slot := (((standing (readMap r)).find? fun x => x.kind = .fwSlot).map fun x => x.data.getD 0 0).getD 0
  { r with fw := { r.fw with
    activeSlot := slot, running := (tget {} r.fw.slots slot : FwImage).version, stagedOk := r.fw.stagedOk && slot = r.fw.activeSlot } }

end Sys2Proof.Machine
end

