-- ==== Sys2Proof/Machine/Kiln.lean ====
section
/-! DEFINITION. The kiln at work (R249 to R263): what waits to be written and its journal records, checkpoints, reads and reconstruction,
folding, wear and read disturb, device retirement and rebuild. -/
namespace Sys2Proof.Machine

/-! ### What waits to be written (R249) -/

/-- Tensors and state arrays of a version of an epoch. -/
abbrev TensorSet := Nat × Ver × List Nat

/-- The tensors and state arrays that a prepared version has of its own: those that it wrote (R155). -/
def writtenOf (s : State) (v : Ver) : List Nat :=
  match (s.cat.adapter v.hdr.id).cur with
  | some old => ((v.tensors.filter fun t => (old.tensor t.index).map (·.writer) ≠ some t.writer).map (·.index)) ++ stateIndices v
  | none => verIndices v

/-- What a waiting job brings to the kiln: a `PUBLISH`, the data of a commit or a dirty version, a racked adapter, the staged
catalogue. -/
def jobTensors (s : State) : JournalKind → List TensorSet
  | .publish a v => ((s.homes.publishes.filter fun p => p.adapter = a && p.ver.version = v).map fun p => (s.cat.epoch, p.ver, verIndices p.ver))
  | .dirty a v => match s.train.commits.findSome? fun x => x.prepared.find? fun p => p.1 = a && p.2.version = v with
    | some p => [(s.cat.epoch, p.2, writtenOf s p.2)]
    | none => match verOf s s.cat.epoch a v with
      | some ver => (s.train.dirty.filter fun d => d.adapter = a && d.version = v).map fun d => (s.cat.epoch, ver, d.tensors)
      | none => []
  | .racked a v => match s.homes.rackIn.find? fun r => r.adapter = a && r.version = v with
    | some r => [(s.cat.epoch, r.ver, verIndices r.ver)]
    | none => ((verOf s s.cat.epoch a v).toList.map fun x => (s.cat.epoch, x, verIndices x))
  | .staged e => match s.catStaged with
    | some c => if c.epoch = e then (storedIn s c).map fun v => (e, v, verIndices v) else []
    | none => []
  | _ => []

/-- Of those, what the map has no record of yet: epoch, version, index. -/
def jobWrites (s : State) (k : JournalKind) : List (Nat × Ver × Nat) :=
  (jobTensors s k).flatMap fun x => (x.2.2.filter fun i => !s.kiln.map.holds x.1 x.2.1 i).map fun i => (x.1, x.2.1, i)

/-- The job brings data, and not a record alone. -/
def JournalKind.hasData : JournalKind → Bool
  | .publish .. | .dirty .. | .racked .. | .staged _ => true
  | _ => false

/-- Free SLC-region space that ordinary writes leave (R250). -/
def slcReserve (s : State) : Nat := dirtyCap s + 64 * mib

/-- A version's flag of R249 follows the map: T4 holds every tensor of it, or not. -/
def noteInT4 (s : State) (a : AdapterId) (v : Nat) : State :=
  modVer s a v fun y => { y with inT4 := s.kiln.map.whole s.cat.epoch y }

/-- What a job has brought is held: the versions show it. -/
def markHeld (s : State) : JournalKind → State
  | .publish a v =>
    let put := fun (p : PubPending) => if p.adapter = a ∧ p.ver.version = v then { p with held := true } else p
    { s with homes := { s.homes with publishes := s.homes.publishes.map put } }
  | .dirty a v | .racked a v => noteInT4 s a v
  | .staged _ =>
    let held := fun (c : Catalogue) (x : Adapter) => { x with versions := x.versions.map fun v => { v with inT4 := s.kiln.map.whole c.epoch v } }
    { s with catStaged := s.catStaged.map fun c => { c with adapters := c.adapters.map fun e => (e.1, held c e.2) } }
  | .purgeStep1 a _ =>
    { s with homes := { s.homes with purges := s.homes.purges.map fun p => if p.adapter = a then { p with step1Held := true } else p } }
  | _ => s

/-- What a held journal record brings about (R160, R212, R249, R260). -/
def recordHeld (s : State) (k : JournalKind) : State :=
  let s := markHeld s k
  match k with
  | .dirty .. => settleDirty s
  | .directory corr src _ => if src = selfPeer s then dirOwnHeld s corr else reply s { dst := src, corr } 0x41 stDone [] []
  | _ => s

/-- The journal record of a job without data, at the present event. A purge's step 1 carries the purge's own sequence and takes every
record of the adapter out of the map (R260). -/
def putRecord (s : State) (k : JournalKind) : State :=
  match k with
  | .purgeStep1 a _ =>
    journalPut s {
      seq := ((s.homes.purges.find? fun p => p.adapter = a).map (·.seq)).getD s.gauger.seq, kind := k
      goneVersions := (s.kiln.map.versions.filter fun r => r.key.adapter = a).map (·.key)
      goneTensors := (s.kiln.map.tensors.filter fun r => r.key.adapter = a).map fun r => (r.key, r.index) }
  | _ => journalPut s { seq := s.gauger.seq, kind := k }

/-! ### Versions that are freed (R254) -/

/-- Every version that this block keeps, with its epoch: of its catalogues, publishes and commits under way, an arriving adapter. -/
def keptVersions (s : State) : List (Nat × Ver) :=
  let of_ := fun (c : Catalogue) => c.adapters.flatMap fun e => (e.2.versions.filter (·.home)).map fun v => (c.epoch, v)
  of_ s.cat ++ (s.catRetiring.map of_).getD [] ++ (s.catStaged.map fun c => (storedIn s c).map fun v => (c.epoch, v)).getD [] ++
    (s.homes.publishes.map fun p => (s.cat.epoch, p.ver)) ++ (s.homes.rackIn.map fun r => (s.cat.epoch, r.ver)) ++
    s.train.commits.flatMap fun x => x.prepared.map fun p => (s.cat.epoch, p.2)

/-- The tensors of kept versions, as the map names them. -/
def keptTensors (s : State) : List (RecKey × Nat) :=
  (keptVersions s).flatMap fun x => (verIndices x.2).map fun i => (recKeyOf x.1 x.2 i, i)

/-- Records of the map that no version needs any longer. A purged adapter's go with its step 1. -/
def freedTensors (s : State) : List (RecKey × Nat) :=
  let kept := keptTensors s
  (s.kiln.map.tensors.map fun r => (r.key, r.index)).filter fun x => !kept.contains x
def freedVersions (s : State) : List RecKey :=
  let own := (keptVersions s).map fun x => ({ epoch := x.1, adapter := x.2.hdr.id, version := x.2.version } : RecKey)
  let kept := own ++ (keptTensors s).map (·.1)
  (s.kiln.map.versions.map (·.key)).filter fun k => !kept.contains k

/-- Their records leave the map by journal record. -/
def removeFreed (s : State) : State :=
  journalPut s { seq := s.gauger.seq, kind := .remove, goneVersions := freedVersions s, goneTensors := freedTensors s }

/-! ### Journal and checkpoints -/

/-- A tensor of a job is written, where the SLC-mode region has the pages: its journal record holds it from the present event. With its
last tensor the job is over. -/
def writeNext (s : State) (k : JournalKind) (w : Nat × Ver × Nat) : State :=
  let t := writeTensor s k w.1 w.2.1 w.2.2
  if (jobWrites t k).isEmpty then recordHeld { t with kiln := { t.kiln with pending := t.kiln.pending.drop 1 } } k
  else match k with
    | .dirty .. => settleDirty t
    | _ => t

/-- The next journal record is programmed (R249, R254): that frees the records of versions which are freed, else that of the next tensor
of the oldest job, else the job's own. An ordinary write waits while the SLC region lacks room (R250); with nothing to do, superblocks
that hold nothing are erased. -/
def journalHeld (s : State) : State :=
  if !kilnWorks s then s
  else
    let s := finishErases s
    if !(freedTensors s).isEmpty || !(freedVersions s).isEmpty then reclaim (removeFreed (stamp s))
    else match s.kiln.pending with
    | [] => reclaim s
    | k :: rest => match jobWrites s k with
      | w :: _ =>
        if slcFree s < (storedBytes w.2.1 w.2.2).length + slcReserve s then s else writeNext (stamp s) k w
      | [] =>
        let s := stamp s
        let s := { s with kiln := { s.kiln with pending := rest } }
        recordHeld (if k.hasData then s else putRecord s k) k

/-- `KILN_JOURNAL_HELD` (R249). -/
def execKilnJournalHeld (s : State) : Host.Outcome State Fault Refusal := .next (journalHeld s)

/-- The value of `KILN_CMD` (Table 11.9). -/
def kilnCmdValue (op device : Nat) : Word64 := BitVec.ofNat 64 (device * 2 ^ 8 + op)

/-- `KILN_CMD` 0b01: a checkpoint now (R251), where the kiln serves. -/
def checkpointNow (s : State) : State :=
  if kilnWorks s then startCheckpoint s else s

/-- `KILN_CHECKPOINT_CMD` (R251). -/
def execKilnCheckpointCmd (role : Role) (s : State) : Host.Outcome State Fault Refusal :=
  .next (busWrite pgKiln 0x0B8 (kilnCmdValue 1 0) role (fun _ => none)
    (fun s => checkpointNow (storeReg pgKiln 0x0B8 (kilnCmdValue 1 0) s)) s)

/-- Pages of a checkpoint: its map records (R247). -/
def Checkpoint.pages (c : Checkpoint) : Nat := max 1 (ceilDiv c.map.bytes 16384)

/-- The pages of a checkpoint go into its area, superblock after superblock. -/
def programCheckpoint (s : State) (c : Checkpoint) : State :=
  let a := if c.inB then KilnArea.ckptB else .ckptA
  let r := areaRange s.kiln a
  (((List.range (r.2 - r.1)).map (r.1 + ·)).foldl (fun (acc : State × Nat) b =>
    let t := modBlock acc.1 b fun x => { x with columns := serviceColumns acc.1 }
    let n := min acc.2 (dataPages t a (serviceColumns t))
    if acc.2 = 0 then acc
    else ((List.range n).foldl (fun t k => issueProgram t true (dataPage t b k)) (modBlock t b fun x => { x with fill := n }), acc.2 - n))
    (s, c.pages)).1

/-- The closing record of a checkpoint is programmed: `CKPT_SEQ`, and the journal before it is released (R251). A rotation whose
start came after the checkpoint's beginning needs a further one (R260, step 3). -/
def checkpointDone (s : State) : State :=
  match s.kiln.ckptRunning with
  | none => s
  | some k =>
    if !kilnWorks s then s
    else
      let s := programCheckpoint (stamp (finishErases s)) k
      let s := { s with kiln := { s.kiln with
        ckptA := if k.inB then s.kiln.ckptA else some k, ckptB := if k.inB then some k else s.kiln.ckptB
        ckptRunning := none, journal := s.kiln.journal.filter fun j => k.seq < j.seq } }
      let s := reclaimJournal s
      if s.kiln.rotations.any fun r => k.seq < r.start then startCheckpoint s else s

/-- `CHECKPOINT_VALID` (R251). -/
def execCheckpointValid (s : State) : Host.Outcome State Fault Refusal := .next (checkpointDone s)

/-! ### Moving data -/

/-- A superblock is filled no further. -/
def shutBlock (s : State) (b : Nat) : State :=
  let shut := fun (o : Option Nat) => if o = some b then none else o
  { s with kiln := { s.kiln with openData := shut s.kiln.openData, openSlc := shut s.kiln.openSlc, openJournal := shut s.kiln.openJournal } }

/-- The data of a superblock moves within its area (R254), where there is room, and the superblock is erased once nothing reads it. -/
def relocateBlock (s : State) (b : Nat) : State :=
  let a := areaOf s b
  if a = .data || a = .slc then reclaim (moveBlock (shutBlock (finishErases s) b) a b) else s

/-- Superblocks that hold data. -/
def usedBlocks (s : State) : List (Nat × Superblock) := s.kiln.superblocks.filter fun e => 0 < e.2.fill && !e.2.erasing

/-- The columns of a superblock whose devices are gone. -/
def goneColumns (s : State) (b : Superblock) : List Nat := b.columns.filter fun d => (s.chan d).st ≠ .inService

/-- A stripe that holds data lacks more than two columns (R258). -/
def lostStripes (s : State) : Bool := (usedBlocks s).any fun e => 2 < (goneColumns s e.2).length

/-- Devices that are gone and whose columns some superblock with data still has. -/
def missingDevices (s : State) : List Nat := ((usedBlocks s).flatMap fun e => goneColumns s e.2).eraseDups

/-! ### Retirement -/

/-- Usable capacity with `n` columns gone for good (R257). -/
def usableWith (dataGib n : Nat) : Nat := dataGib - n * dataGib / 30

/-- A device is retired at the present event (R257, R357): recorded in the repair map, its column reconstructed from here on, and new
superblocks leave it out. A third missing column of a stripe that holds data loses the stripe (R258). -/
def retireDevice (s : State) (d : Nat) : State :=
  if (s.chan d).st = .retired then s
  else
    let s := modChan s d fun x => { x with st := .retired }
    let s := appendMap s .kilnRetired d []
    let s := (s.kiln.superblocks.filter fun e => e.2.columns.contains d).foldl (fun t e => shutBlock t e.1) s
    let s := { s with kiln := { s.kiln with rebuilding := true } }
    setKilnPhase s (if lostStripes s then .failed else .degraded)

/-- The refusals of a retirement (R262): a device that is retired, a stripe with data that would lack more than two columns, fewer than 4
devices left. -/
def retireCheck (d : Nat) (s : State) : Option Nat :=
  let left := devicesInService s - if (s.chan d).st = .inService then 1 else 0
  let third := (usedBlocks s).any fun e => e.2.columns.contains d && 2 < (d :: (goneColumns s e.2).filter (· ≠ d)).length
  if (s.chan d).st = .retired || third || left < 4 then some stBadState else none

/-- `KILN_RETIRE_CMD` (R257). -/
def execKilnRetireCmd (device : Fin 32) (role : Role) (s : State) : Host.Outcome State Fault Refusal :=
  .next (busWrite pgKiln 0x0B8 (kilnCmdValue 2 device) role (retireCheck device)
    (fun s => retireDevice (storeReg pgKiln 0x0B8 (kilnCmdValue 2 device) s) device) s)

/-- A device gave no status within 10 ms; the third time in succession retires it (R257). -/
def deviceTimeout (d : Nat) (s : State) : State :=
  if (s.chan d).st ≠ .inService then s
  else
    let s := modChan (stamp s) d fun x => { x with timeouts := x.timeouts + 1 }
    if 3 ≤ (s.chan d).timeouts then retireDevice s d else s

/-- `KILN_DEVICE_TIMEOUT` (R257). -/
def execKilnDeviceTimeout (device : Fin 32) (s : State) : Host.Outcome State Fault Refusal := .next (deviceTimeout device s)

/-- The erase block of a superblock on a device has failed program or erase: the superblock is retired whole (R244). Its data moves, and a
spare superblock stands in for it in its area (log entry 61). -/
def retireBlock (s : State) (d b : Nat) : State :=
  let a := areaOf s b
  let first := (sblock s b).failedOn.isEmpty
  let s := shutBlock (modBlock s b fun x => { x with failedOn := x.failedOn ++ [d] }) b
  let s := match lowestFree s .spare with
    | some sp => if first && a ≠ .spare then modBlock s sp fun x => { x with area := some a } else s
    | none => s
  relocateBlock s b

/-- A block failed program or erase; 64 of them retire the device (R257). The operation gave a status. -/
def peFailure (d b : Nat) (s : State) : State :=
  if (s.chan d).st ≠ .inService || s.kiln.blocks ≤ b then s
  else
    let s := modChan (stamp s) d fun x => { x with timeouts := 0 }
    if (sblock s b).failedOn.contains d then s
    else
      let s := retireBlock (modChan s d fun x => { x with peFails := sat 32 (x.peFails + 1) }) d b
      if 64 ≤ (s.chan d).peFails then retireDevice s d else s

/-- `PROGRAM_ERASE_FAILURE` (R257). -/
def execProgramEraseFailure (block : Fin 32 × Nat) (s : State) : Host.Outcome State Fault Refusal :=
  .next (peFailure block.1 block.2 s)

/-- Records whose data cannot be read back leave the map (R258), and the versions that they belong to are held in full no longer. -/
def dropUnreadable (s : State) : State :=
  let bad := s.kiln.map.tensors.filter fun r => ((r.pages s).any fun p => (pageBytes s p).isNone)
  if bad.isEmpty then s
  else
    let s := removeTensors (stamp s) .remove (bad.map fun r => (r.key, r.index))
    s.cat.stored.foldl (fun t x => if x.2.inT4 then noteInT4 t x.1 x.2.version else t) s

/-- The rebuild (R257, Table 17.7): every superblock that holds a missing column is relocated, its journal and checkpoint superblocks written
anew. Once none is left, the usable capacity is lowered and the kiln is in service. -/
def rebuildDone (s : State) : State :=
  if !s.kiln.rebuilding || !kilnWorks s then s
  else
    let hurt := fun (t : State) => (usedBlocks t).filter fun e => !(goneColumns t e.2).isEmpty
    let s := dropUnreadable (stamp (finishErases s))
    let s := (hurt s).foldl (fun t e => relocateBlock t e.1) s
    let fresh := fun (t : State) (e : Nat × Superblock) =>
      if areaOf t e.1 = .data || areaOf t e.1 = .slc then t else modBlock t e.1 fun x => { x with columns := serviceColumns t }
    let s := (hurt s).foldl fresh s
    if (hurt s).any fun e => !(liveIn s.kiln.map e.1).isEmpty then s
    else setKilnPhase { s with kiln := { s.kiln with
      rebuilding := false, usableGib := usableWith s.kiln.dataGib (32 - devicesInService s) } } .inService

/-- `KILN_REBUILD_DONE` (R357). -/
def execKilnRebuildDone (s : State) : Host.Outcome State Fault Refusal := .next (rebuildDone s)

/-! ### Reads -/

/-- The soft retries that the channel controller makes (R243, Table 11.10). -/
def softLevels (s : State) : Nat := min 3 (regFld s pgKiln 0x0C0 32 8)

/-- How a codeword ends within those retries. -/
def codewordWithin (levels : Nat) : CodewordResult → CodewordResult
  | .soft n => if 1 ≤ n ∧ n ≤ levels then .soft n else .fail
  | r => r

/-- A codeword failed hard decision, and so the soft retries and the reconstruction start (R253). -/
def softened : CodewordResult → Bool
  | .soft _ | .fail => true
  | _ => false

/-- The channel's counters after the codewords of a page (Tables 11.12 and 11.13); an operation that gives a status ends a row of
time-outs. `lost` says that the soft retries came too late: what they had not corrected passed to reconstruction. -/
def countCodewords (s : State) (d : Nat) (cs : List CodewordResult) (lost : Bool) : State :=
  let soft := (cs.filter fun c => softened c && c ≠ .fail).length
  modChan s d fun x => { x with
    timeouts := 0
    ldpcHard := sat 32 (x.ldpcHard + (cs.filter (· = .hard)).length)
    ldpcSoft := sat 32 (x.ldpcSoft + if lost then 0 else soft)
    ldpcFails := sat 32 (x.ldpcFails + (cs.filter (· = .fail)).length + if lost then soft else 0) }

/-- The commands of a page read (Table 11.1): in the mode of its area, a codeword at a time; the levels of the soft retries, each with a
fresh read. -/
def issueRead (s : State) (p retries : Nat) : State :=
  let slc := slcMode s (areaOf s (pageBlock s p) ≠ .data)
  let again := (List.range retries).flatMap fun n => [retryLevel s (n + 1), OnfiCmd.read p, .readStatusEnhanced, .changeReadColumnEnhanced]
  issueFlash s (pageDevice p) ([slc, .read p, .readStatusEnhanced, .changeReadColumnEnhanced] ++ again ++ if retries = 0 then [] else [retryLevel s 0])

/-- The read counter of a superblock rises by the pages read from it (R256). -/
def countReads (s : State) (b n : Nat) : State := modBlock s b fun x => { x with reads := x.reads + n }

/-- What a page of a read brings, and the state after it; no bytes where its stripe is lost. The page comes from its device, where that is
there and every codeword ends well, unless the reconstruction is first, or the tensor is read again (R253). -/
def readPage (s : State) (reread : Bool) (p : Nat) (r : PageRead) : State × Option (List Byte) :=
  let d := pageDevice p
  let b := pageBlock s p
  let cs := r.codewords.map (codewordWithin (softLevels s))
  let there := (s.chan d).st = .inService && domainPresent s (160 + d)
  let race := cs.any softened
  let own := xorBytes (s.flashPage p).data r.upset
  let passes := r.upset.all (· = 0) || pageCrcs { s.flashPage p with data := own } = (s.flashPage p).crcs
  let whole := there && !cs.contains .fail && (!race || passes)
  let late := race && r.reconFirst
  let rebuilt := rebuildPage s (r.failing.map (·.val)) p
  let useOwn := whole && !(late && rebuilt.isSome) && !(reread && rebuilt.isSome)
  let tries := (cs.map fun c => match c with
    | .soft n => n
    | .fail => softLevels s
    | _ => 0).foldl max 0
  let s := if there then countReads (countCodewords (issueRead s p tries) d cs (late && !useOwn)) b 1 else s
  if useOwn then (s, some own)
  else match rebuilt with
    | some bs =>
      let others := ((dataColumns (blockColumns s b) (pageStripe p)).length)
      ({ countReads s b others with kiln := { (countReads s b others).kiln with reconstructs := sat 32 (s.kiln.reconstructs + 1) } }, some bs)
    | none => (s, none)

/-- A page of a stream's tensor is read (R253, R258): the first of them under the record that the map has (R254). Beyond two columns that
are missing or failing the stripe's data is lost: the kiln shows failed, and the stream goes on from another tier. -/
def pageRead (id : Nat) (r : PageRead) (s : State) : State :=
  match s.tiers.streams.find? fun x => x.id = id with
  | none => s
  | some st => match st.left with
    | [] => s
    | idx :: _ =>
      if !kilnServes s || !st.started || st.tier ≠ 4 || s.pace.pfw then s
      else
        let v := (verOf s st.epoch st.adapter st.version).getD {}
        match st.source.or (s.kiln.map.ten (recKeyOf st.epoch v idx) idx) with
        | none => failSource (stamp s) st idx
        | some rec_ =>
          match if st.source.isSome then st.toRead else rec_.pages s with
          | [] => s
          | p :: rest => match readPage (stamp s) st.reread p r with
            | (t, some bs) =>
              let got := fun (x : Stream) => x.got ++ padTo 16384 bs
              modStream t id fun x => { x with source := some rec_, toRead := rest, got := got x }
            | (t, none) => failSource (setKilnPhase t .failed) st idx

/-- `KILN_PAGE_READ` (R253). -/
def execKilnPageRead (stream : Nat) (codewords : List CodewordResult) (reconFirst : Bool) (stripe : StripeRead) (s : State) :
    Host.Outcome State Fault Refusal :=
  .next (pageRead stream { toStripeRead := stripe, codewords, reconFirst } s)

/-! ### Folding, wear and disturb -/

/-- Write-back is hasty (R160): the dirty bytes exceed half of `DIRTY_CAP_MIB`. -/
def hasty (s : State) : Bool := dirtyCap s ≠ 0 && dirtyCap s < 2 * dirtyBytes s

/-- Dirty data waits for the kiln. -/
def dirtyWaits (s : State) : Bool := s.kiln.pending.any fun k => match k with
  | .dirty .. => true
  | _ => false

/-- The tensor that has stood longest in the SLC-mode region, with its superblock there. -/
def foldNext (s : State) : Option (TenRec × Nat) :=
  s.kiln.map.tensors.findSome? fun r => (r.extents.find? fun x => areaOf s x.block = .slc).map fun x => (r, x.block)

/-- Background folding (R249): a tensor in the SLC-mode region is rewritten in the data area, and a new journal record gives its extents.
Hasty write-back goes ahead of it (R160); with no free superblock it waits. -/
def fold (s : State) : State :=
  if !kilnWorks s || (hasty s && dirtyWaits s) then s
  else match foldNext s with
    | none => s
    | some x => match moveTensor (finishErases s) .data x.2 x.1 with
      | some t => reclaim t
      | none => s

/-- `KILN_FOLD` (R249). -/
def execKilnFold (s : State) : Host.Outcome State Fault Refusal := .next (fold s)

/-- `ERASE_MAX` and `ERASE_MIN` (Table 11.8): a superblock that no event has touched has count 0. -/
def eraseMax (s : State) : Nat := s.kiln.superblocks.foldl (fun m e => max m e.2.erases) 0
def eraseMin (s : State) : Nat :=
  if s.kiln.superblocks.length < s.kiln.blocks then 0
  else match s.kiln.superblocks with
    | [] => 0
    | e :: es => es.foldl (fun m x => min m x.2.erases) e.2.erases

/-- The superblock of the data area with the lowest erase count, of those that hold data. -/
def coldest (s : State) : Option Nat :=
  let held := (usedBlocks s).filter fun e => areaOf s e.1 = .data && !(liveIn s.kiln.map e.1).isEmpty
  ((sortBy (fun (a b : Nat × Superblock) => a.2.erases < b.2.erases) held).head?).map (·.1)

/-- Static levelling (R255). -/
def wearLevel (s : State) : State :=
  if !kilnWorks s || eraseMax s - eraseMin s ≤ regFld s pgKiln 0x090 16 16 then s
  else match coldest s with
    | some b => relocateBlock s b
    | none => s

/-- `WEAR_LEVELLING` (R255). -/
def execWearLevelling (s : State) : Host.Outcome State Fault Refusal := .next (wearLevel s)

/-- A superblock whose read counter has reached `DISTURB_LIMIT` is relocated (R256). -/
def disturb (b : Nat) (s : State) : State :=
  if !kilnWorks s || (sblock s b).reads < regFld s pgKiln 0x098 0 32 then s else relocateBlock s b

/-- `DISTURB_RELOCATE` (R256). -/
def execDisturbRelocate (superblock : Nat) (s : State) : Host.Outcome State Fault Refusal := .next (disturb superblock s)

/-- ZQ Calibration Short on every channel (Table 11.1); not while the kiln is not mounted. -/
def zqShort (s : State) : State :=
  if !kilnServes s then s
  else
    let s := stamp s
    (serviceColumns s).foldl (fun t d => issueFlash t d [.zqShort]) { s with kiln := { s.kiln with zqShorts := s.kiln.zqShorts + 1 } }

/-- `ZQ_SHORT_CALIBRATION` (Table 11.1). -/
def execZqShortCalibration (s : State) : Host.Outcome State Fault Refusal := .next (zqShort s)

end Sys2Proof.Machine
end

