-- ==== Sys2Proof/Machine/Peers.lean ====
section
/-! DEFINITION. Block-to-block messages (R225 to R229, R441): a peer's link, the checks of an arriving message, the requests that
have been answered or are being answered, and answers that find their request. -/
namespace Sys2Proof.Machine

/-! ### A peer's link -/

/-- A link event leaves the block at the peer's fabric port (R441, R450). -/
def sendLinkEvent (s : State) (peer code : Nat) : State :=
  emit (raise s (pgFab (peer % 16)) 1) (.linkEvent peer code)

/-- Directory changes that a peer whose link goes down has not acknowledged: it receives them on reconnection (R211). -/
def oweDirectory (s : State) (p : Nat) : State :=
  let mine := s.homes.requests.filter fun r => r.msg.type = 0x40 && r.msg.dst = p
  let s := { s with homes := { s.homes with
    requests := s.homes.requests.filter fun r => ¬ (r.msg.type = 0x40 ∧ r.msg.dst = p)
    dirOwed := s.homes.dirOwed ++ mine.map fun r => (p, dirEntriesOf r.msg.data (r.msg.data.length / 32)) } }
  mine.foldl (fun s r => dirPeerDone s r.msg.corr p) s

/-- A peer's link goes down at the present event (R216, R217, R441): `PEER_LINK_CHANGE`, its key is forgotten, a racking to it
before the cutover ends, and what waited for the peer alone goes on. -/
def peerDown (s : State) (p : Nat) : State :=
  if !peerUp s p then s
  else
    let s := raise { s with
      homes := { s.homes with
        peersUp := s.homes.peersUp.filter (· ≠ p)
        assembly := s.homes.assembly.filter (·.src ≠ p)
        rackIn := s.homes.rackIn.filter fun r => r.src ≠ p || r.ready }
      keys := { s.keys with connections := tdel (2 * p) (tdel (2 * p + 1) s.keys.connections) } } pgHomes 1
    let s := match s.homes.rack with
      | some r => if r.dest = p && r.phase < 4 then cancelRack s stCancelled false else s
      | none => s
    releaseEpoch (oweDirectory s p)

/-- The block closes a connection: it signals event 0x02 and marks the peer down (R441). -/
def closePeer (s : State) (p : Nat) : State := peerDown (sendLinkEvent s p 2) p

/-! ### Arrival -/

/-- The message arrives on a port that is not its peer's (R441). -/
def wrongPort (h : MsgHdr) : Bool := h.port ≠ h.src % 16

/-- What R229 drops: a tag that fails, a reserved type or format, another destination, `MSG_SEQ` out of order, a malformed
payload, or `MSG_MORE` on a message that stands alone (R228). -/
def msgBad (s : State) (type : Nat) (h : MsgHdr) : Bool :=
  h.tag ≠ .ok || (h.more && !runs type) || !h.wellFormed || h.fmt ≠ 1 || 1048576 < h.bytes || h.dst ≠ selfPeer s || h.seq ≠ tget 0 s.homes.rxSeq h.src + 1 ||
    wrongPort h

/-- A message is dropped at the present event (R229): counted, recorded, its connection closed. -/
def dropMsg (s : State) (type : Nat) (h : MsgHdr) : State :=
  let s := { s with
    homes := { s.homes with msgDrops := sat 32 (s.homes.msgDrops + 1) }
    boundary := { s.boundary with fab := tmod {} s.boundary.fab (h.port % 16) fun p => { p with
      checkFails := sat 32 (p.checkFails + 1)
      wrongPort := if wrongPort h then sat 32 (p.wrongPort + 1) else p.wrongPort } } }
  closePeer (logNow s pgHomes evMsgDrop none none 0 (headerBytes type h)) h.src

/-- A message arrives at an event of its own: not due while the peer's link is down; what R229 drops is dropped; the rest is
handed to `body`. -/
def arrive (h : MsgHdr) (type : Nat) (body : State → State) (s : State) : State :=
  if !peerUp s h.src then s
  else
    let s := stamp s
    let s := { s with boundary := { s.boundary with fab := tmod {} s.boundary.fab (h.port % 16) fun p =>
      { p with rxBytes := sat 64 (p.rxBytes + 48 + h.bytes) } } }
    let s := noteParity s h.tag
    if msgBad s type h then dropMsg s type h
    else body { s with homes := { s.homes with rxSeq := tset 0 s.homes.rxSeq h.src h.seq } }

/-- An incoming message, or its place in the queue while core pair 2 is away (Table 16.2). -/
def incoming (i : Instr) (h : MsgHdr) (type : Nat) (body : State → State) (s : State) : State :=
  if pairAway s 2 then
    if peerUp s h.src then { s with homes := { s.homes with msgsQueued := s.homes.msgsQueued ++ [i] } } else s
  else arrive h type body s

/-! ### Requests -/

/-- What an answer to the message echoes, and what a reissue of it carries (R224, R226, R233). -/
def askOf (h : MsgHdr) (type : Nat) (args : List Nat) (data : List Byte) : Msg :=
  { type, dst := h.src, corr := h.corr, epoch := h.epoch, ctxEpoch := h.ctxEpoch, submitter := h.submitter, args, data }

/-- Answer a request with a status alone. -/
def answerStatus (s : State) (h : MsgHdr) (type status : Nat) : State := reply s (askOf h 0 [] []) type status [] []

/-- A request of a peer has been taken up and not yet answered. -/
def inProgress (s : State) (p : Nat) (c : Seq) : Bool :=
  let mine := fun (m : Msg) => m.dst = p && m.corr = c
  let some_ := fun (m : Option Msg) => match m with
    | some m => mine m
    | none => false
  s.gyles.any (fun g => g.farWork.any fun w => mine w.ask) || s.homes.publishes.any (fun x => some_ x.fwd) ||
    s.homes.purges.any (fun x => some_ x.fwd) || s.homes.dirPending.any (fun x => some_ x.fwd) ||
    s.homes.supersedes.any (fun x => some_ x.fwd) || s.homes.acksDue.any (fun x => mine x.2) ||
    s.tiers.borrowed.any (fun b => some_ b.recalling) || s.homes.redirected.any (fun x => mine x.2) ||
    s.homes.gathers.any (fun x => mine x.ask) || s.homes.fwdWaiting.any (fun x => mine x.ask) ||
    s.kiln.pending.any fun k => match k with
      | .directory corr src _ => src = p && corr = c
      | _ => false

/-- The epoch is one that this block holds in force, retiring or staged (R237); 0 names none. -/
def epochHeld (s : State) (e : Nat) : Bool :=
  e = 0 || e = s.cat.epoch || s.catRetiring.any (·.epoch = e) || s.catStaged.any (·.epoch = e)

/-- The gate of a request that has an answer of type `ans`: `BAD_STATE` before `READY` (R397); an answer kept is sent again, a
request whose answer is forgotten is `CANCELLED`, one that is being answered is left alone (R225, R226); `STALE_VERSION` under an
epoch that is not held (R237). -/
def gate (h : MsgHdr) (ans : Nat) (body : State → State) (s : State) : State :=
  if !s.glob.ready then sendMsg s { askOf h ans [] [] with status := stBadState }
  else if inProgress s h.src h.corr then s
  else
    let kept := s.homes.answered.filter fun a => a.peer = h.src
    match kept.find? fun a => a.corr = h.corr with
    | some a => match a.body with
      | some m => sendMsg s m
      | none => sendMsg s { askOf h ans [] [] with status := stCancelled }
    | none =>
      if !kept.isEmpty && kept.all fun a => h.corr < a.corr then sendMsg s { askOf h ans [] [] with status := stCancelled }
      else if !epochHeld s h.epoch then answerStatus s h ans stStaleVersion
      else body s

/-- A message that asks for something and has no answer: not before `READY` (R397). -/
def whenReady (body : State → State) (s : State) : State := if s.glob.ready then body s else s

/-- Where a request for an adapter goes: into the queue of one that this block is about to become home of (Table 10.5, step 11), to
its home (R233), or to `body` here. -/
def atHome (i : Instr) (a : AdapterId) (ask : Msg) (cat : Catalogue) (body : State → State) (s : State) : State :=
  if s.homes.rackIn.any fun r => r.adapter = a && r.ready then
    { s with homes := { s.homes with rackIn := s.homes.rackIn.map fun r =>
      (if r.adapter = a then { r with queued := r.queued ++ [i] } else r) } }
  else if homeOf cat a ≠ selfPeer s then redirect s (homeOf cat a) ask
  else body s

/-- The catalogue that serves a request: of the epoch that it names, in force, retiring or staged (R237), the staged one with its
carried adapters. -/
def catFor (s : State) (epoch : Nat) : Catalogue :=
  if epoch = 0 || epoch = s.cat.epoch then s.cat
  else match s.catStaged with
    | some c => if c.epoch = epoch then withCarries s c else catOf s epoch
    | none => catOf s epoch

/-- Change the catalogue of an epoch that this block holds. -/
def modCatFor (s : State) (epoch : Nat) (f : Catalogue → Catalogue) : State :=
  if epoch = 0 || epoch = s.cat.epoch then { s with cat := f s.cat }
  else { s with
    catRetiring := s.catRetiring.map fun c => if c.epoch = epoch then f c else c
    catStaged := s.catStaged.map fun c => if c.epoch = epoch then f c else c }

/-! ### Answers -/

/-- The request of this block that an answer names. -/
def requestOf (s : State) (type : Nat) (h : MsgHdr) : Option Req :=
  s.homes.requests.find? fun r => r.msg.type = type && r.msg.dst = h.src && r.msg.corr = h.corr

/-- A request is answered, or given up. -/
def endRequest (s : State) (dst : Nat) (corr : Seq) : State :=
  { s with homes := { s.homes with requests := s.homes.requests.filter fun r => ¬ (r.msg.dst = dst ∧ r.msg.corr = corr) } }

/-- Send a request afresh, under a new `CORR` (R226) and, for a gyle, under its context's epoch (R224); what waits for its answer waits for
the new one. -/
def askAgain (s : State) (r : Req) : State :=
  let new := fun (c : Seq) => if c = r.msg.corr then s.gauger.seq else c
  let ctxEpoch := match r.gk with
    | some k => if k.far then r.msg.ctxEpoch else (s.ctx k.owner).epoch
    | none => r.msg.ctxEpoch
  let t := sendReq (endRequest s r.msg.dst r.msg.corr) { r.msg with ctxEpoch } r.gk
  { t with homes := { t.homes with
    redirected := t.homes.redirected.map fun x => (new x.1, x.2)
    gathers := t.homes.gathers.map fun x => { x with left := x.left.map new } } }

/-- An answer for a gyle whose context has moved on to another epoch is discarded (R224). -/
def staleCtx (s : State) (r : Req) (h : MsgHdr) : Bool :=
  match r.gk with
  | some k => !k.far && h.ctxEpoch ≠ (s.ctx k.owner).epoch
  | none => false

/-- The answer is none: `CANCELLED` to a repeated request, or `BAD_STATE` of a peer that is not ready (R226, R397); to a lend and to a
forwarded `PURGE`, `BAD_STATE` is an answer (R199, R410). -/
def noAnswer (r : Req) (h : MsgHdr) : Bool :=
  (h.status = stCancelled && 1 < r.tries) ||
    (h.status = stBadState && r.msg.type ≠ 0x60 && !(r.msg.type = 0x42 && le r.msg.data 0 1 = 0x31))

/-- A look-up or a lease renewal that is answered `CANCELLED` is sent afresh (R226). -/
def sentAfresh (r : Req) (h : MsgHdr) : Bool := h.status = stCancelled && (r.msg.type = 0x01 || r.msg.type = 0x03)

/-- The request that this block reissued for a peer and that an answer names (R233). -/
def reissuedFor (s : State) (h : MsgHdr) : Option Msg := (s.homes.redirected.find? fun x => x.1 = h.corr).map (·.2)

/-- The answer of a reissued request is passed back (R233). -/
def passBack (s : State) (h : MsgHdr) (ask : Msg) (type : Nat) (args : List Nat) (data : List Byte) : State :=
  let s := endRequest s h.src h.corr
  let s := { s with homes := { s.homes with redirected := s.homes.redirected.filter fun x => x.1 ≠ h.corr } }
  reply s ask type h.status args data

/-- A part of a request about several homes is answered (R233): the answer goes out once every part has been. -/
def gatherPart (s : State) (g : Gather) (h : MsgHdr) (args : List Nat) (data : List Byte) : State :=
  let s := endRequest s h.src h.corr
  let g1 : Gather := { g with
    left := g.left.filter (· ≠ h.corr), status := if h.status = stDone then g.status else h.status
    args := g.args ++ args, data := g.data ++ data }
  let rest := s.homes.gathers.filter (· ≠ g)
  if g1.left.isEmpty then reply { s with homes := { s.homes with gathers := rest } } g.ask g.ans g1.status g1.args g1.data
  else { s with homes := { s.homes with gathers := rest ++ [g1] } }

/-- A request of a peer is answered once the parts that go to other homes have been (R233): `parts` are the homes with each one's
arguments and data, `args` and `data` what the answer holds besides. -/
def gatherAt (s : State) (ask : Msg) (ans : Nat) (args : List Nat) (data : List Byte) (parts : List (Nat × List Nat × List Byte)) : State :=
  if parts.isEmpty then reply s ask ans stDone args data
  else
  let r := parts.foldl (fun (acc : State × List Seq) p =>
    let t := sendReq (stamp acc.1) { ask with dst := p.1, corr := 0, status := 0, args := p.2.1, data := p.2.2 } none
    ({ t with homes := { t.homes with redirects := sat 32 (t.homes.redirects + 1) } }, acc.2 ++ [t.gauger.seq])) (s, [])
  { r.1 with homes := { r.1.homes with gathers := r.1.homes.gathers ++ [{ ask, ans, left := r.2, args, data }] } }

/-- An answer for a gyle whose context has moved on is discarded (R224); a look-up of it is sent again. -/
def discardStale (s : State) (r : Req) : State := if r.msg.type = 0x01 then askAgain s r else endRequest s r.msg.dst r.msg.corr

/-- An answer of a request of type `type`: ignored when no request waits for it, or when it is none; passed back when the request was
reissued for a peer; else handed to `body`. -/
def answered (h : MsgHdr) (type ans : Nat) (args : List Nat) (data : List Byte) (body : Req → State → State) (s : State) : State :=
  match requestOf s type h with
  | none => s
  | some r =>
    if sentAfresh r h then askAgain s r
    else if noAnswer r h then s
    else match s.homes.gathers.find? (·.left.contains h.corr), reissuedFor s h with
      | some g, _ => gatherPart s g h args data
      | none, some ask => passBack s h ask ans args data
      | none, none => if staleCtx s r h then discardStale s r else body r s

/-! ### Runs of segments (R228) -/

/-- The run that a message continues. -/
def runIn (s : State) (type : Nat) (h : MsgHdr) : Option Assembly :=
  s.homes.assembly.find? fun x => x.src = h.src && x.type = type && x.corr = h.corr

/-- Forget a run. -/
def endRun (s : State) (type : Nat) (h : MsgHdr) : State :=
  { s with homes := { s.homes with assembly := s.homes.assembly.filter fun x => ¬ (x.src = h.src ∧ x.type = type ∧ x.corr = h.corr) } }

/-- Keep a run that goes on. -/
def keepRun (s : State) (x : Assembly) (h : MsgHdr) : State :=
  let s := endRun s x.type h
  { s with homes := { s.homes with assembly := s.homes.assembly ++ [x] } }

/-- A segment keeps the rules of R228: it follows the one before without gap or overlap, only the last is shorter than
1,048,544 bytes, and the last ends the tensor. -/
def segmentOk (old : Option Assembly) (h : MsgHdr) (seg : SegHdr) (data : List Byte) : Bool :=
  let fits := match old with
    | some x => x.adapter = seg.adapter && x.version = seg.version && x.index = seg.index && x.total = seg.total &&
        seg.offset = x.bytes.length
    | none => seg.offset = 0
  fits && seg.length = data.length && 1 ≤ seg.length && seg.length ≤ segmentMax &&
    (if h.more then seg.length = segmentMax && seg.offset + seg.length < seg.total && seg.crc = 0
     else seg.offset + seg.length = seg.total)

/-- A segment arrives: a run that breaks R228 is dropped as malformed; one that goes on is kept; `body` acts on the whole
tensor. -/
def takeSegment (type : Nat) (h : MsgHdr) (seg : SegHdr) (data : List Byte) (body : List Byte → State → State) (s : State) : State :=
  let old := runIn s type h
  if !segmentOk old h seg data then dropMsg s type h
  else
    let bytes := ((old.map (·.bytes)).getD []) ++ data
    if h.more then
      keepRun s { src := h.src, type, corr := h.corr, adapter := seg.adapter, version := seg.version, index := seg.index, total := seg.total, bytes } h
    else body bytes (endRun s type h)

/-- A list or a command that travels in a run: `body` acts on all its bytes once its last message has arrived. -/
def takeRun (type : Nat) (h : MsgHdr) (data : List Byte) (body : List Byte → State → State) (s : State) : State :=
  let bytes := (((runIn s type h).map (·.bytes)).getD []) ++ data
  if h.more then keepRun s { src := h.src, type, corr := h.corr, bytes } h else body bytes (endRun s type h)

/-! ### Load units (R230) -/

/-- Load units for work on an adapter: whole units of `unit` in what has been counted for its shard so far. -/
def addLoad (s : State) (a : AdapterId) (left : Tab Nat) (n unit : Nat) : State × Tab Nat :=
  let k := shardOf a
  let t := tget 0 left k + n
  ({ s with homes := { s.homes with loads := tmod 0 s.homes.loads k fun x => sat 32 (x + t / unit) } }, tset 0 left k (t % unit))

/-- Handshakes of far work. -/
def loadFar (s : State) (a : AdapterId) (n : Nat) : State :=
  let r := addLoad s a s.homes.loadHs n 1024
  { r.1 with homes := { r.1.homes with loadHs := r.2 } }

/-- Bytes sent by remote fetch. -/
def loadFetch (s : State) (a : AdapterId) (n : Nat) : State :=
  let r := addLoad s a s.homes.loadBytes n 65536
  { r.1 with homes := { r.1.homes with loadBytes := r.2 } }

/-- A look-up answered. -/
def loadLookup (s : State) (a : AdapterId) : State :=
  { s with homes := { s.homes with loads := tmod 0 s.homes.loads (shardOf a) fun x => sat 32 (x + 1) } }

end Sys2Proof.Machine
end

