-- ==== Sys2Proof/Machine/Leases.lean ====
section
/-! DEFINITION. Look-ups, leases, revocations and holds (R213 to R216, R307, R413), at the home and at the holder. -/
namespace Sys2Proof.Machine

/-- The (adapter, version) pairs of a list of arguments. -/
def pairsOf : List Nat → List (AdapterId × Nat)
  | a :: v :: t => (a, v) :: pairsOf t
  | _ => []

/-! ### Forwarded commands at the home -/

/-- The home decides a forwarded command: refused in its answer, or accepted (R234). -/
def decideFwd (s : State) (ask : Msg) (bad : Option Bad) (accept : State → State) : State :=
  match bad with
  | some b => reply s ask 0x43 b.status [] b.result
  | none => accept s

/-- A forwarded adapter `PUBLISH` is decided once the adapters that its joins need are known; it waits for look-ups until then (R42,
R234). One under another epoch than the one in force is `STALE_VERSION`: its base version is current in no catalogue that it could change
(log entry 55). -/
def decidePublish (i : Instr) (ask : Msg) (asked : Tab Nat) (d : Desc) (img : List Byte) (s : State) : State :=
  let us := if (imageBad d img).isNone then unseen s asked (joinNeeds (hdrFields img)) else []
  if ask.epoch ≠ 0 && ask.epoch ≠ s.cat.epoch then reply s ask 0x43 stStaleVersion [] (Bad.result { status := stStaleVersion })
  else if us.isEmpty then
    decideFwd s ask (firstBad [imageBad d img, homeBad s d img]) fun s => takeImage s d img none 0 (some ask)
  else
    let r := askAll s s.cat 0 asked us
    { r.1 with homes := { r.1.homes with fwdWaiting := r.1.homes.fwdWaiting ++ [{ instr := i, ask, asked := r.2 }] } }

/-- A forwarded command: the descriptor in the first 64 bytes, the image or entries behind it (R228). -/
def decideForward (i : Instr) (ask : Msg) (asked : Tab Nat) (s : State) : State :=
  let d := descFields (ask.data.take 64)
  let img := ask.data.drop 64
  if d.opcode = 0x31 then
    atHome i d.adapter ask s.cat (fun s => decideFwd s ask (purgeBad s d.adapter) fun s => orderPurge s d.adapter none 0 (some ask)) s
  else if d.opcode = 0x30 && d.pubKind = 2 then
    decideFwd s ask (dirImageBad d img) fun s => nextDirChunk s { rest := dirEntriesOf img d.length, fwd := some ask }
  else if d.opcode = 0x30 then atHome i (hdrFields img).id ask s.cat (decidePublish i ask asked d img) s
  else reply s ask 0x43 stBadOpcode [] (Bad.result { status := stBadOpcode })

/-- Forwarded commands that waited for look-ups are decided, oldest first; one that still misses an answer waits on. -/
def settleForwards (s : State) : State :=
  s.homes.fwdWaiting.foldl (fun s x => decideForward x.instr x.ask x.asked s)
    { s with homes := { s.homes with fwdWaiting := [] } }

/-- A forwarded command, once its run has arrived. -/
def takeForward (h : MsgHdr) (bytes : List Byte) (s : State) : State :=
  decideForward (.mPublishFwd { h with more := false } (bytes.take 64) (bytes.drop 64)) (askOf h 0x42 [] bytes) [] s

/-- `M_PUBLISH_FWD` (R234). -/
def execMPublishFwd (h : MsgHdr) (desc image : List Byte) (s : State) : Host.Outcome State Fault Refusal :=
  .next (incoming (.mPublishFwd h desc image) h 0x42 (gate h 0x43 (takeRun 0x42 h (desc ++ image) (takeForward h))) s)

/-! ### Look-ups -/

/-- A peer holds a version from here on (R216). -/
def addHold (s : State) (epoch : Nat) (a : AdapterId) (v p : Nat) : State :=
  if s.homes.holds.any fun x => x.epoch = epoch && x.adapter = a && x.version = v && x.peer = p then s
  else { s with homes := { s.homes with holds := s.homes.holds ++ [{ epoch, adapter := a, version := v, peer := p }] } }

/-- A peer holds a lease on a version from here on (R214). -/
def addGranted (s : State) (epoch : Nat) (a : AdapterId) (v p : Nat) : State :=
  if s.homes.granted.any fun x => x.epoch = epoch && x.adapter = a && x.version = v && x.peer = p then s
  else { s with homes := { s.homes with granted := s.homes.granted ++ [{ epoch, adapter := a, version := v, peer := p }] } }

/-- `LEASE_US` of this block. -/
def leaseUs (s : State) : Nat := regFld s pgHomes 0x098 0 16

/-- The entry of a look-up answer for one adapter (R213): its status, then version and lease; header and slot table as bytes. -/
def lookupEntry (s : State) (cat : Catalogue) (a : AdapterId) : List Nat × List Byte :=
  let x := cat.adapter a
  match x.cur with
  | some v =>
    if x.retired then ([a, stPurged, 0, 0], [])
    else ([a, stDone, v.version, leaseUs s], hdrBytes v.hdr ++ v.slots.flatMap slotBytes)
  | none => ([a, if x.retired then stPurged else stUnknownAdapter, 0, 0], [])

/-- What a look-up leaves at the home: the hold, the lease, the load unit (R214, R216, R230). -/
def lookedUp (p : Nat) (cat : Catalogue) (s : State) (a : AdapterId) : State :=
  let x := cat.adapter a
  let s := loadLookup s a
  if x.retired || x.cur.isNone then s else addGranted (addHold s cat.epoch a x.current p) cat.epoch a x.current p

/-- The home answers a look-up. -/
def answerLookup (h : MsgHdr) (cat : Catalogue) (ids : List AdapterId) (s : State) : State :=
  let es := ids.map (lookupEntry s cat)
  let s := ids.foldl (lookedUp h.src cat) s
  reply s (askOf h 0x01 ids []) 0x02 stDone (es.flatMap (·.1)) (es.flatMap (·.2))

/-- The adapters of a request that are homed elsewhere, by home (R233). -/
def partsOf (s : State) (cat : Catalogue) (ids : List AdapterId) : List (Nat × List AdapterId) :=
  let away := ids.filter fun a => homeOf cat a ≠ selfPeer s
  ((away.map (homeOf cat)).eraseDups).map fun p => (p, away.filter fun a => homeOf cat a = p)

/-- A look-up: the adapters homed here are answered; those homed elsewhere are reissued at their homes, and one answer goes back (R213,
R233). -/
def takeLookup (i : Instr) (h : MsgHdr) (ids : List AdapterId) (s : State) : State :=
  let cat := catFor s h.epoch
  match s.homes.rackIn.find? fun r => r.ready && ids.contains r.adapter with
  | some r => atHome i r.adapter {} cat id s
  | none =>
    let here := ids.filter fun a => homeOf cat a = selfPeer s
    let parts := (partsOf s cat ids).map fun p => (p.1, p.2, ([] : List Byte))
    if parts.isEmpty then answerLookup h cat here s
    else
      let es := here.map (lookupEntry s cat)
      gatherAt (here.foldl (lookedUp h.src cat) s) (askOf h 0x01 ids []) 0x02 (es.flatMap (·.1)) (es.flatMap (·.2)) parts

/-- `M_LOOKUP` (R213). -/
def execMLookup (h : MsgHdr) (ids : List AdapterId) (s : State) : Host.Outcome State Fault Refusal :=
  .next (incoming (.mLookup h ids) h 0x01 (gate h 0x02 (takeLookup (.mLookup h ids) h ids)) s)

/-- An answer whose header or slot table breaks the limits and layouts of chapter 2, or that does not join this catalogue: such an
adapter is refused, as R42 says of every fetch (R14, R16, R23, R25). What this block itself is home of is held against it too. -/
def answerBad (s : State) (epoch : Nat) (a : LookupAns) : Bool :=
  let h := { a.hdr with version := a.version }
  let cat := knownCat s (catFor s epoch)
  let here : Catalogue := { cat with adapters := cat.adapters.filter fun e => homeOf cat e.1 = selfPeer s }
  (firstImageCheck 0 (adapterChecks (hdrBytes h ++ a.slots.flatMap slotBytes))).isSome || h.id ≠ a.adapter ||
    (ownJoin cat h a.slots).isSome || (basisJoin here h a.slots).isSome ||
    (h.bucketMember && h.bucketBase ≠ h.id && (bucketJoin cat h).isSome)

/-- The adapters of other homes that a fetched adapter is held against: its basis, and the base of its set (R23, R25). -/
def answerNeeds (h : AdapterHdr) : List AdapterId :=
  (if h.form = .member then [h.basisId] else []) ++ (if h.bucketMember && h.bucketBase ≠ h.id then [h.bucketBase] else [])

/-- What a look-up answer says of an adapter: its header, its slot table and its current version (R213). -/
def learnVersion (s : State) (epoch : Nat) (a : LookupAns) : State :=
  modCatFor s epoch fun cat => { cat with adapters := tmod {} cat.adapters a.adapter fun x =>
    { x with
      current := a.version
      versions := (if (x.ver a.version).isSome then x.versions
        else { version := a.version, hdr := { a.hdr with version := a.version }, slots := a.slots, pubSeq := s.gauger.seq } ::
          x.versions) } }

/-- A lease is held from here on (R214). -/
def addLease (s : State) (epoch home : Nat) (a : LookupAns) : State :=
  if a.leaseUs = 0 then s
  else { s with homes := { s.homes with leases :=
    (s.homes.leases.filter fun l => ¬ (l.adapter = a.adapter ∧ l.epoch = epoch)) ++
      [{ adapter := a.adapter, version := a.version, home, epoch }] } }

/-- A look-up that has been sent for an adapter has been answered. -/
def answeredFor (a : AdapterId) (t : Tab Nat) : Tab Nat := if tget 0 t a = 1 then tput a 2 t else t

/-- Everything that waits for a look-up of an adapter has `f` done to its look-ups. -/
def modAsked (s : State) (f : Tab Nat → Tab Nat) : State :=
  { s with
    ctxs := s.ctxs.map fun e => (e.1, { e.2 with front := e.2.front.map fun x => { x with asked := f x.asked } })
    homes := { s.homes with
      publishes := s.homes.publishes.map fun x => { x with asked := f x.asked }
      fwdWaiting := s.homes.fwdWaiting.map fun x => { x with asked := f x.asked }
      learning := s.homes.learning.map fun x => { x with asked := f x.asked }
      tenantWaits := s.homes.tenantWaits.map fun x => { x with asked := f x.asked } } }

/-- What waited for a look-up of an adapter may go on. -/
def markAsked (s : State) (a : AdapterId) : State := modAsked s (answeredFor a)

/-- The lease of an adapter is gone: what waits for it asks its home again. -/
def askAfresh (s : State) (a : AdapterId) : State := modAsked s fun t => if tget 0 t a = 2 then tdel a t else t

/-- An adapter is unknown to its home, retired there (R20), or refused here (R42), as a look-up tells its gyle. -/
def learnNone (epoch : Nat) (gk : Option GyleKey) (s : State) (a : AdapterId) (purged : Bool) : State :=
  let out := fun (x : Adapter) =>
    if purged then { x with retired := true, retiredSeq := if x.retired then x.retiredSeq else s.gauger.seq } else { x with current := 0 }
  let s := modCatFor s epoch fun cat =>
    if homeOf cat a = selfPeer s then cat else { cat with adapters := tmod {} cat.adapters a out }
  match gk with
  | some k => modGyle s k fun g => { g with lookups := tput a (if purged then 3 else 2) g.lookups }
  | none => markAsked s a

/-- An adapter's header, slot table and lease are taken in, and the gyle that asked binds its version; a refused one is admitted
nowhere. That rows which name such a one take cause 0x2, and commands `UNKNOWN_ADAPTER`, is the model's choice (log entry 56). -/
def admitAnswer (src epoch : Nat) (gk : Option GyleKey) (a : LookupAns) (s : State) : State :=
  if answerBad s epoch a then learnNone epoch gk s a.adapter false
  else
    let s := markAsked (if homeOf (catFor s epoch) a.adapter = selfPeer s then s else addLease (learnVersion s epoch a) epoch src a) a.adapter
    match gk with
    | some k => modGyle s k fun g => { g with
        remoteBound := tput a.adapter a.version g.remoteBound, lookups := tdel a.adapter g.lookups }
    | none => s

/-- One entry of a look-up answer: taken in once the adapters that its joins need are known (R42). What becomes of rows and commands that
name an adapter whose header is refused is the model's choice: cause 0x2, and `UNKNOWN_ADAPTER` (log entry 56). -/
def learnAnswer (h : MsgHdr) (r : Req) (s : State) (a : LookupAns) : State :=
  if a.status ≠ stDone then learnNone r.msg.epoch r.gk s a.adapter (a.status = stPurged)
  else
    let cat := catFor s r.msg.epoch
    let needs := unseenIn s cat [] (answerNeeds a.hdr)
    if needs.isEmpty then admitAnswer h.src r.msg.epoch r.gk a s
    else
      let r2 := askAll s cat 0 [] needs
      { r2.1 with homes := { r2.1.homes with learning := r2.1.homes.learning ++
        [{ epoch := r.msg.epoch, src := h.src, gk := r.gk, ans := a, asked := r2.2 }] } }

/-- The basis of a member of a far gyle's class, as this block binds it: the version that it knows current (R210, R220). -/
def farBasis (s : State) (g : Gyle) (c : Comp) : Option (AdapterId × Nat) :=
  match verOf s g.epoch c.adapter c.version with
  | some v => if v.hdr.form ≠ .member then none
      else match boundVer s g v.hdr.basisId with
        | some b => some (v.hdr.basisId, b.version)
        | none => none
  | none => none

/-- The bases of a far gyle's members that are not known yet. -/
def farUnknown (s : State) (g : Gyle) (cs : List Comp) : List AdapterId :=
  cs.filterMap fun c => match verOf s g.epoch c.adapter c.version with
    | some v => if v.hdr.form = .member && (farBasis s g c).isNone then some v.hdr.basisId else none
    | none => none

/-- The operations of a far row at a slot, in the queue of the tun with the least backlog: the home's tuns serve far work
first-come with its own (R222). The row waits while a basis is unknown; with no component at the slot its sum is zero. -/
def placeFarRow (s : State) (k : GyleKey) (slot row : Nat) : State :=
  match s.gyle k with
  | none => s
  | some g => match g.plan.slots[slot]? with
    | none => s
    | some p =>
      let r : Row := tget {} g.rows row
      if (g.rowSlot slot row).credited || !(farUnknown s g r.comps).isEmpty then s
      else
        let comps := r.comps.map fun c => { c with basis := farBasis s g c }
        let s := modGyle s k fun g => { (g.modSlot slot row fun x => { x with credited := true }) with
          rows := tput row { r with comps } g.rows }
        let s := comps.foldl (needComp k) s
        let cs := localAt s g p comps
        let s := cs.foldl (fun s c => loadFar s c.c.adapter (handshakes p [c])) s
        let ops := servingOps { gk := k, slot, segment := 0, group := 2 ^ 20 + row } p [{ rows := [row], cs }]
        if ops.isEmpty then modGyle s k fun g => g.modSlot slot row fun x => { x with localDone := true }
        else match tunsByBacklog s with
          | t :: _ => enqueue s k slot t ops [row]
          | [] => { s with orphans := s.orphans ++ ops }

/-- Every far row of a gyle that could not be placed yet is tried. -/
def placeFarRows (s : State) (k : GyleKey) : State :=
  match s.gyle k with
  | none => s
  | some g => answerFar (g.farWork.foldl (fun s w => w.rows.foldl (fun s r => placeFarRow s k w.slot r) s) s) k

/-- An answer that waits has all the look-ups that its joins need. -/
def learnReady (s : State) (x : Learning) : Bool :=
  (unseenIn s (catFor s x.epoch) x.asked (answerNeeds x.ans.hdr)).isEmpty

/-- Answers that waited for further look-ups are taken in, oldest first, and with each what it lets go on: parked rows, far rows, or the
fallback and the pins (R213, R307). -/
def settleLearning : (fuel : Nat) → State → State
  | 0, s => s
  | fuel + 1, s => match s.homes.learning.find? (learnReady s) with
    | none => s
    | some x =>
      let s := { s with homes := { s.homes with learning := s.homes.learning.filter (· ≠ x) } }
      let s := admitAnswer x.src x.epoch x.gk x.ans s
      settleLearning fuel (match x.gk with
        | some k => if k.far then placeFarRows s k else resolveParked s k
        | none => pinAdmits s)

/-- What an answered look-up lets go on: parked rows, far rows, or the fallback and the pins (R213, R307), and the answers, forwarded
commands and tenant records that waited for it. -/
def afterLookup (s : State) (gk : Option GyleKey) : State :=
  let s := match gk with
    | some k => if k.far then placeFarRows s k else resolveParked s k
    | none => pinAdmits s
  settleTenants (settleForwards (settleLearning s.homes.learning.length s))

/-- A look-up that has no answer makes its rows default rows of cause 0x2 (R217). -/
def lookupFailed (s : State) (r : Req) : State :=
  let s := r.msg.args.foldl (fun s a => learnNone r.msg.epoch r.gk s a false) s
  let s := match r.gk with
    | some k => match s.gyle k with
      | some g => if k.far then g.farWork.foldl (fun s w => markFarLate s k w.slot w.rows) s else s
      | none => s
    | none => s
  match r.gk with
  | some k => if k.far then afterLookup s none else afterLookup s (some k)
  | none => afterLookup s none

/-- An answer to a look-up of this block. -/
def lookupAnswered (h : MsgHdr) (answers : List LookupAns) (r : Req) (s : State) : State :=
  let s := endRequest s h.src h.corr
  if h.status ≠ stDone then lookupFailed s r else afterLookup (answers.foldl (learnAnswer h r) s) r.gk

/-- The entries of a look-up answer as they are passed back. -/
def answerArgs (answers : List LookupAns) : List Nat := answers.flatMap fun a => [a.adapter, a.status, a.version, a.leaseUs]
def answerData (answers : List LookupAns) : List Byte :=
  answers.flatMap fun a => if a.status = stDone then hdrBytes a.hdr ++ a.slots.flatMap slotBytes else []

/-- An answer of whole entries that travels in a run (R228): `body` acts on all of them once the last message has arrived. -/
def takeAnswers (type : Nat) (h : MsgHdr) (x : Assembly) (body : Assembly → State → State) (s : State) : State :=
  let old := (runIn s type h).getD { src := h.src, type, corr := h.corr }
  let all := { old with answers := old.answers ++ x.answers, grants := old.grants ++ x.grants }
  if h.more then keepRun s all h else body all (endRun s type h)

/-- `M_LOOKUP_ANS` (R213, R228). -/
def execMLookupAns (h : MsgHdr) (answers : List LookupAns) (s : State) : Host.Outcome State Fault Refusal :=
  .next (incoming (.mLookupAns h answers) h 0x02 (takeAnswers 0x02 h { answers } fun x =>
    answered h 0x01 0x02 (answerArgs x.answers) (answerData x.answers) (lookupAnswered h x.answers)) s)

/-! ### Leases -/

/-- The home renews a lease while the version is current (R214). -/
def renewOne (p : Nat) (cat : Catalogue) (acc : State × List Nat) (x : AdapterId × Nat) : State × List Nat :=
  let a := cat.adapter x.1
  if a.current = x.2 && !a.retired && x.2 ≠ 0 && homeOf cat x.1 = selfPeer acc.1 then
    (addGranted acc.1 cat.epoch x.1 x.2 p, acc.2 ++ [x.1, x.2, 1])
  else (acc.1, acc.2 ++ [x.1, x.2, 0])

/-- A lease renewal: the adapters homed elsewhere are reissued at their homes, and one answer goes back (R214, R233). -/
def takeRenew (i : Instr) (h : MsgHdr) (ids : List (AdapterId × Nat)) (s : State) : State :=
  let cat := catFor s h.epoch
  match s.homes.rackIn.find? fun r => r.ready && ids.any fun x => x.1 = r.adapter with
  | some r => atHome i r.adapter {} cat id s
  | none =>
    let ask := askOf h 0x03 (ids.flatMap fun x => [x.1, x.2]) []
    let r := (ids.filter fun x => homeOf cat x.1 = selfPeer s).foldl (renewOne h.src cat) (s, [])
    let parts := (partsOf s cat (ids.map (·.1))).map fun p =>
      (p.1, (ids.filter fun x => homeOf cat x.1 = p.1).flatMap (fun x => [x.1, x.2]), ([] : List Byte))
    if parts.isEmpty then reply r.1 ask 0x04 stDone r.2 [] else gatherAt r.1 ask 0x04 r.2 [] parts

/-- `M_LEASE_RENEW` (R214). -/
def execMLeaseRenew (h : MsgHdr) (ids : List (AdapterId × Nat)) (s : State) : Host.Outcome State Fault Refusal :=
  .next (incoming (.mLeaseRenew h ids) h 0x03 (gate h 0x04 (takeRenew (.mLeaseRenew h ids) h ids)) s)

/-- A grant or a refusal of a lease renewal. -/
def leaseGranted (epoch : Nat) (s : State) (x : AdapterId × Nat × Bool) : State :=
  let mine := fun (l : Lease) => l.adapter = x.1 && l.version = x.2.1 && l.epoch = epoch
  let next := fun (l : Lease) => if mine l then (if x.2.2 then some { l with renewing := false } else none) else some l
  { s with homes := { s.homes with leases := s.homes.leases.filterMap next } }

/-- The answer of a lease renewal of this block. -/
def renewalAnswered (h : MsgHdr) (grants : List (AdapterId × Nat × Bool)) (r : Req) (s : State) : State :=
  let gs := if h.status = stDone then grants else (pairsOf r.msg.args).map fun x => (x.1, x.2, false)
  gs.foldl (leaseGranted r.msg.epoch) (endRequest s h.src h.corr)

/-- `M_LEASE_ANS` (R214, R228). -/
def execMLeaseAns (h : MsgHdr) (grants : List (AdapterId × Nat × Bool)) (s : State) : Host.Outcome State Fault Refusal :=
  .next (incoming (.mLeaseAns h grants) h 0x04 (takeAnswers 0x04 h { grants } fun x =>
    answered h 0x03 0x04 (x.grants.flatMap fun x => [x.1, x.2.1, if x.2.2 then 1 else 0]) [] (renewalAnswered h x.grants)) s)

/-- A gyle that has not completed binds the lease's version, or it is a fallback's or a pin's (R214, R307, R413). -/
def leaseInUse (s : State) (l : Lease) : Bool :=
  s.gyles.any (fun g => g.epoch = l.epoch && g.st ≠ .complete && bindsVersion s g l.adapter l.version) ||
    isFallback s l.adapter || s.cellar.pins.any fun p => p.adapter = l.adapter

/-- Less than half of a lease in use is left: it is renewed (R214). -/
def renewDue (a : AdapterId) (s : State) : State :=
  match s.homes.leases.find? fun l => l.adapter = a && !l.renewing && leaseInUse s l with
  | none => s
  | some l =>
    if !peerUp s l.home then s
    else
      let s := stamp s
      let s := { s with homes := { s.homes with leases := s.homes.leases.map fun x => if x = l then { l with renewing := true } else x } }
      sendReq s { type := 0x03, dst := l.home, epoch := l.epoch, args := [l.adapter, l.version] } none

/-- `LEASE_RENEW_DUE` (R214). -/
def execLeaseRenewDue (adapter : BitVec 24) (s : State) : Host.Outcome State Fault Refusal := .next (renewDue adapter.toNat s)

/-- A lease has lapsed: no operation issues on its fetched copy any more, and the row-slots that need it are substituted (R413). -/
def lapse (s : State) (l : Lease) : State :=
  let s := askAfresh { s with homes := { s.homes with leases := s.homes.leases.filter (· ≠ l) } } l.adapter
  (s.gyles.filter fun g => g.epoch = l.epoch && tget 0 g.remoteBound l.adapter = l.version).foldl (fun s g =>
    purgeInGyle l.adapter (modGyle s g.key fun g => { g with lapsed := g.lapsed ++ [l.adapter] }) g) s

/-- The time of an adapter's lease has run out (R214, R413). -/
def leaseLapsed (a : AdapterId) (s : State) : State :=
  match s.homes.leases.find? (·.adapter = a) with
  | some l => seekKept (lapse (stamp s) l)
  | none => s

/-- `LEASE_LAPSED` (R413). -/
def execLeaseLapsed (adapter : BitVec 24) (s : State) : Host.Outcome State Fault Refusal := .next (leaseLapsed adapter.toNat s)

/-- The home stops waiting for a holder: 1.05 × `LEASE_US` have passed since its last grant, of the catalogue in force or of an earlier
one (R215). -/
def leaseWaitOver (a : AdapterId) (v p : Nat) (s : State) : State :=
  match s.homes.granted.find? fun g => g.adapter = a && g.version = v && g.peer = p with
  | some g =>
    let s := stamp s
    let mine := fun (r : Req) => r.msg.type = 0x05 && r.msg.dst = p && r.msg.epoch = g.epoch && (pairsOf (r.msg.args.drop 1)).contains (a, v)
    let s := { s with homes := { s.homes with requests := s.homes.requests.filter fun r => !mine r } }
    holderDone s g.epoch a v p
  | none => s

/-- `LEASE_WAIT_EXPIRY` (R215). -/
def execLeaseWaitExpiry (adapter : BitVec 24) (version : Nat) (peer : BitVec 7) (s : State) : Host.Outcome State Fault Refusal :=
  .next (leaseWaitOver adapter.toNat version peer.toNat s)

/-! ### Revocations -/

/-- One revoked version at a holder (R214): no new gyle binds it, open gyles that bound it complete with `VERSION_SUPERSEDED`, its
fetched copy is `STALE`; which version its home has in its place is not known here. -/
def revokeOne (epoch : Nat) (s : State) (x : AdapterId × Nat) : State :=
  let mine := fun (l : Lease) => l.epoch = epoch && l.adapter = x.1 && l.version = x.2
  let s := askAfresh { s with homes := { s.homes with leases := s.homes.leases.filter fun l => !mine l } } x.1
  let s := noteSuperseded s epoch x.1 x.2
  let forget := fun (y : Adapter) => if y.current = x.2 then { y with current := 0 } else y
  if homeOf (catOf s epoch) x.1 = selfPeer s then s
  else staleCask (modCatFor s epoch fun cat => { cat with adapters := tmod {} cat.adapters x.1 forget }) epoch x.1 x.2

/-- The revocation of superseded versions, or of a purge (R214, R411 to R413), ordered here; a fallback or a pinned adapter that it
leaves without its current version is looked up at once (R307). -/
def takeRevoke (h : MsgHdr) (ids : List (AdapterId × Nat)) (purge : Bool) (s : State) : State :=
  let ask := askOf h 0x05 [] []
  let as := (ids.map (·.1)).eraseDups
  let s := ids.foldl (revokeOne (catFor s h.epoch).epoch) s
  if purge then
    let s := as.foldl applyPurge s
    purgeTick { s with homes := { s.homes with acksDue := s.homes.acksDue ++ [(as, ask)] } }
  else seekKept (reply (release s) ask 0x06 stDone [] [])

/-- `M_REVOKE` (R214, R413). -/
def execMRevoke (h : MsgHdr) (ids : List (AdapterId × Nat)) (purge : Bool) (s : State) : Host.Outcome State Fault Refusal :=
  .next (incoming (.mRevoke h ids purge) h 0x05 (gate h 0x06 (takeRevoke h ids purge)) s)

/-- A holder's acknowledgement counts toward the completion of the superseding command (R215, R413). -/
def revokeAcked (h : MsgHdr) (r : Req) (s : State) : State :=
  (pairsOf (r.msg.args.drop 1)).foldl (fun s x => holderDone s r.msg.epoch x.1 x.2 h.src) (endRequest s h.src h.corr)

/-- `M_REVOKE_ACK` (R215). -/
def execMRevokeAck (h : MsgHdr) (s : State) : Host.Outcome State Fault Refusal :=
  .next (incoming (.mRevokeAck h) h 0x06 (answered h 0x05 0x06 [] [] (revokeAcked h)) s)

/-! ### Holds -/

/-- The end of a peer's hold on a version (R216). -/
def endHold (h : MsgHdr) (s : State) (x : AdapterId × Nat) : State :=
  let mine := fun (y : Hold) => y.epoch = (catFor s h.epoch).epoch && y.adapter = x.1 && y.version = x.2 && y.peer = h.src
  { s with homes := { s.homes with holds := s.homes.holds.filter fun y => !mine y } }

/-- `M_HOLD_RELEASE` (R216). -/
def execMHoldRelease (h : MsgHdr) (ids : List (AdapterId × Nat)) (s : State) : Host.Outcome State Fault Refusal :=
  .next (incoming (.mHoldRelease h ids) h 0x07
    (whenReady fun s => pruneVersions (ids.foldl (endHold h) s)) s)

/-- A peer's link has been down for 10 s: its holds are dropped (R216). -/
def holdsTimeout (p : Nat) (s : State) : State :=
  if peerUp s p then s
  else
    let s := stamp s
    pruneVersions { s with homes := { s.homes with holds := s.homes.holds.filter (·.peer ≠ p) } }

/-- `PEER_HOLDS_TIMEOUT` (R216). -/
def execPeerHoldsTimeout (peer : BitVec 7) (s : State) : Host.Outcome State Fault Refusal := .next (holdsTimeout peer.toNat s)

/-! ### Halvings -/

/-- `LOAD_HALVING` (R230). -/
def execLoadHalving (s : State) : Host.Outcome State Fault Refusal :=
  let s := stamp s
  .next { s with homes := { s.homes with loads := s.homes.loads.foldl (fun t e => tset 0 t e.1 (e.2 / 2)) [] } }

/-- `FREQ_HALVING` (R172). -/
def execFreqHalving (s : State) : Host.Outcome State Fault Refusal :=
  let s := stamp s
  .next { s with cellar := { s.cellar with
    casks := s.cellar.casks.map fun e => (e.1, { e.2 with freq := e.2.freq / 2 })
    sketch := s.cellar.sketch.foldl (fun t e => tset 0 t e.1 (e.2 / 2)) [] } }

end Sys2Proof.Machine
end

