-- ==== Sys2Proof/Machine/FarApply.lean ====
section
/-! DEFINITION. Remote fetch (R191, R217, R219) and far apply (R220 to R224), at the home and at the requester. -/
namespace Sys2Proof.Machine

/-! ### Remote fetch -/

/-- This block serves a version to a peer: it is the adapter's home, or it still keeps a version that the peer holds from before a
cutover (R210, R233). -/
def servesVersion (s : State) (cat : Catalogue) (a : AdapterId) (v p : Nat) : Bool :=
  homeOf cat a = selfPeer s ||
    (((cat.adapter a).ver v).isSome && s.homes.holds.any fun x => x.epoch = cat.epoch && x.adapter = a && x.version = v && x.peer = p)

/-- The tensors of a version go to a requester, one run each, in the order of R190, with their load units (R219, R230). -/
def sendVersion (s : State) (ask : Msg) (v : Ver) : State :=
  ((streamOrder s v).filter fun i => i < 2 * v.slots.length && !v.lost.contains i).foldl (fun s i =>
    loadFetch (sendTensor s { ask with type := 0x11, status := 0, args := [], data := [] } v i) v.hdr.id (storedBytes v i).length) s

/-- A remote fetch at the home: the hold, the tensors, the status that ends the stream. -/
def serveFetch (h : MsgHdr) (cat : Catalogue) (a : AdapterId) (v : Nat) (s : State) : State :=
  let ask := askOf h 0x10 [] []
  let x := cat.adapter a
  if x.retired then reply s ask 0x12 stPurged [] []
  else match x.ver v with
    | none => reply s ask 0x12 (if x.current = 0 then stUnknownAdapter else stStaleVersion) [] []
    | some y => reply (sendVersion (addHold s cat.epoch a v h.src) ask y) ask 0x12 stDone [] []

/-- A remote fetch, at the block that serves it. -/
def takeFetch (i : Instr) (h : MsgHdr) (a : AdapterId) (v : Nat) (flags : BitVec 8) (s : State) : State :=
  let cat := catFor s h.epoch
  if servesVersion s cat a v h.src then serveFetch h cat a v s
  else atHome i a (askOf h 0x10 [a, v, flags.toNat] []) cat (serveFetch h cat a v) s

/-- `M_FETCH_REQ` (R219). -/
def execMFetchReq (h : MsgHdr) (adapter : AdapterId) (version : Nat) (tierFlags : BitVec 8) (s : State) :
    Host.Outcome State Fault Refusal :=
  .next (incoming (.mFetchReq h adapter version tierFlags) h 0x10
    (gate h 0x12 (takeFetch (.mFetchReq h adapter version tierFlags) h adapter version tierFlags)) s)

/-- The stream that a fetch request feeds. -/
def fetchStream (s : State) (r : Req) : Option Stream :=
  s.tiers.streams.find? fun st => st.started && st.tier = 5 && st.home = r.msg.dst && st.epoch = r.msg.epoch &&
    r.msg.args.take 2 = [st.adapter, st.version]

/-- The bytes of a fetched tensor enter the version that this block keeps of the adapter. -/
def storeTensor (s : State) (epoch : Nat) (a : AdapterId) (v : Nat) (t : Tensor) : State :=
  modCatFor s epoch fun cat => { cat with adapters := tmod {} cat.adapters a fun x =>
    { x with versions := (x.versions.map fun y =>
      (if y.version = v then { y with tensors := (y.tensors.filter fun z => z.index ≠ t.index) ++ [t] } else y)) } }

/-- A whole fetched tensor: its transfer check (R219), then it is present (R189); a failure fails the source (R191). -/
def fetchedTensor (r : Req) (seg : SegHdr) (bytes : List Byte) (s : State) : State :=
  match fetchStream s r with
  | none => s
  | some st =>
    if !st.left.contains seg.index then s
    else if crc64 bytes = seg.crc then
      makePresent (storeTensor s st.epoch st.adapter st.version { index := seg.index, bytes, crc := seg.crc, writer := st.version })
        st.id seg.index
    else failSource (endRequest s r.msg.dst r.msg.corr) st seg.index

/-- The arguments of a segment as a reissued request's answer passes them back. -/
def segHdrArgs (g : SegHdr) : List Nat := [g.adapter, g.version, g.index, g.total, g.offset, g.length, g.crc.toNat]

/-- A segment of a fetch. -/
def takeFetchData (h : MsgHdr) (seg : SegHdr) (data : List Byte) (s : State) : State :=
  match reissuedFor s h with
  | some ask => sendMsg s { ask with type := 0x11, status := 0, args := segHdrArgs seg, data }
  | none => match requestOf s 0x10 h with
    | none => s
    | some r => takeSegment 0x11 h seg data (fetchedTensor r seg) s

/-- `M_FETCH_DATA` (R228). -/
def execMFetchData (h : MsgHdr) (seg : SegHdr) (data : List Byte) (s : State) : Host.Outcome State Fault Refusal :=
  .next (incoming (.mFetchData h seg data) h 0x11 (takeFetchData h seg data) s)

/-- The tensors that a stream still lacks are lost: its source has none of them (R191, R217, R342). -/
def loseRest (s : State) (st : Stream) : State :=
  st.left.foldl (fun s i => failSource (modStream s st.id fun x => { x with retried := true }) { st with retried := true } i) s

/-- The status that ends a fetch stream (R191, R217). -/
def fetchEnded (h : MsgHdr) (r : Req) (s : State) : State :=
  let s := endRequest s h.src h.corr
  match fetchStream s r with
  | none => s
  | some st =>
    if h.status = stPurged then applyPurge s st.adapter
    else if h.status = stStaleVersion || h.status = stUnknownAdapter then loseRest s st
    else match st.left.head? with
      | some i => failSource s st i
      | none => s

/-- `M_FETCH_END` (R191). -/
def execMFetchEnd (h : MsgHdr) (s : State) : Host.Outcome State Fault Refusal :=
  .next (incoming (.mFetchEnd h) h 0x12 (answered h 0x10 0x12 [] [] (fetchEnded h)) s)

/-! ### Far gyles at the home -/

/-- The name of a far gyle: its requester, with context and gyle number (log entry 21). -/
def farKey (h : MsgHdr) (gyle : Nat) : GyleKey := { far := true, owner := h.src, num := h.submitter * 65536 + gyle }

/-- The components that some class names. -/
def namedComps (classes : List (List FarComp)) : List FarComp := classes.flatten.filter fun c => c.adapter ≠ 0xFFFFFF

/-- Why a named component cannot be served (R220); one of another home is left out. -/
def farCompBad (s : State) (cat : Catalogue) (c : FarComp) : Option Nat :=
  let x := cat.adapter c.adapter
  if homeOf cat c.adapter ≠ selfPeer s then none
  else if x.retired then some stPurged
  else if (x.ver c.version).isSome then none
  else some (if x.current = 0 then stUnknownAdapter else stStaleVersion)

/-- The components of a class that this block holds for a requester, as its rows have them (R220, R222). -/
def farClassComps (s : State) (cat : Catalogue) (p : Nat) (cs : List FarComp) : List Comp :=
  cs.filterMap fun c =>
    if c.adapter ≠ 0xFFFFFF && servesVersion s cat c.adapter c.version p && ((cat.adapter c.adapter).ver c.version).isSome then
      some { adapter := c.adapter, version := c.version, weight := c.weight } else none

/-- A far gyle is registered: it counts toward the limit of R78, binds the named versions' casks, admits missing ones, and holds the
versions for its requester (R216, R220). Its classes stand as rows of their own above the row numbers. -/
def registerFar (h : MsgHdr) (fp : Word64) (gyle : Nat) (classes : List (List FarComp)) (s : State) : State :=
  let k := farKey h gyle
  let cat := catFor s h.epoch
  let rows : Tab Row := (List.zip (List.range classes.length) classes).map fun c =>
    (2 ^ 20 + c.1, { passes := false, comps := farClassComps s cat h.src c.2, farClass := c.1 })
  let g : Gyle := {
    key := k, kind := .far, st := .running, closed := true, openSeq := s.gauger.seq, decided := true
    plan := { models := [fp] }, epoch := cat.epoch, rows }
  let s := setGyle s g
  let comps := (rows.flatMap fun r => r.2.comps).eraseDups
  let s := comps.foldl (fun s c => addHold s cat.epoch c.adapter c.version h.src) s
  let s := comps.foldl (needComp k) s
  askLookups s k ((farUnknown s g comps).eraseDups.filter fun a => homeOf cat a ≠ selfPeer s)

/-- The arguments of `M_FAR_OPEN` as a reissue carries them. -/
def farOpenArgs (fp : Word64) (gyle : Nat) (classes : List (List FarComp)) : List Nat :=
  [fp.toNat, gyle, classes.length] ++ (List.zip (List.range classes.length) classes).flatMap fun c =>
    c.1 :: c.2.flatMap fun x => [x.adapter, x.version, x.weight.toNat]

/-- `M_FAR_OPEN` at the home. -/
def openFarGyle (h : MsgHdr) (fp : Word64) (gyle : Nat) (classes : List (List FarComp)) (s : State) : State :=
  let k := farKey h gyle
  let s := match s.gyle k with
    | some g => tearGyle s g
    | none => s
  if 256 ≤ openGyles s then answerStatus s h 0x21 stNoSpace
  else match (namedComps classes).findSome? (farCompBad s (catFor s h.epoch)) with
    | some st => answerStatus s h 0x21 st
    | none => answerStatus (registerFar h fp gyle classes s) h 0x21 stDone

/-- `M_FAR_OPEN`: here, or reissued at the new home of adapters that have all moved there (R233). -/
def takeFarOpen (i : Instr) (h : MsgHdr) (fp : Word64) (gyle : Nat) (classes : List (List FarComp)) (s : State) : State :=
  let cat := catFor s h.epoch
  let named := namedComps classes
  match s.homes.rackIn.find? fun r => r.ready && named.any fun c => c.adapter = r.adapter with
  | some r => atHome i r.adapter {} cat id s
  | none => match named with
    | [] => openFarGyle h fp gyle classes s
    | c :: _ =>
      if named.any fun c => servesVersion s cat c.adapter c.version h.src then openFarGyle h fp gyle classes s
      else
        let p := homeOf cat c.adapter
        let s := redirect s p (askOf h 0x20 (farOpenArgs fp gyle classes) (classes.flatMap farClassBytes))
        { s with homes := { s.homes with farRouted := s.homes.farRouted ++ [(h.src, (farKey h gyle).num, p)] } }

/-- `M_FAR_OPEN` (R220). -/
def execMFarOpen (h : MsgHdr) (fp : Word64) (gyle : Nat) (classes : List (List FarComp)) (s : State) :
    Host.Outcome State Fault Refusal :=
  .next (incoming (.mFarOpen h fp gyle classes) h 0x20
    (gate h 0x21 (takeFarOpen (.mFarOpen h fp gyle classes) h fp gyle classes)) s)

/-- The new home that serves a peer's far gyle (R233). -/
def farRoute (s : State) (h : MsgHdr) (gyle : Nat) : Option Nat :=
  (s.homes.farRouted.find? fun x => x.1 = h.src && x.2.1 = (farKey h gyle).num).map (·.2.2)

/-- The number of a slot in a far gyle's plan, where it stands or is to be added. -/
def farSlotIdx (g : Gyle) (f : FarSlot) : Nat :=
  ((List.range g.plan.slots.length).find? fun i => match g.plan.slots[i]? with
    | some p => p.layer = f.layer && p.proj = f.proj
    | none => false).getD g.plan.slots.length

/-- A far gyle with a slot of its requester's plan (Table 10.1). -/
def withFarSlot (g : Gyle) (f : FarSlot) : Gyle :=
  if farSlotIdx g f < g.plan.slots.length then g
  else
    let p : PlanSlot := { layer := f.layer, proj := f.proj, inW := f.inW, outW := f.outW, actFmt := f.actFmt }
    { g with plan := { g.plan with slots := g.plan.slots ++ [p] } }

/-- A far row enters the far gyle: its class's components, its activation part. -/
def enterFarRow (slot : Nat) (g : Gyle) (r : FarRec) : Gyle :=
  let row := { tget ({} : Row) g.rows (2 ^ 20 + r.cls) with passes := true }
  { (g.modSlot slot r.row fun _ => { act := r.data, actDone := true, present := true }) with rows := tput r.row row g.rows }

/-- Far rows at the home: they are counted, and run steps 1 to 5 of Table 3.3 (R222). -/
def serveFarRows (h : MsgHdr) (g : Gyle) (slot : FarSlot) (rows : List FarRec) (s : State) : State :=
  let i := farSlotIdx g slot
  let g := rows.foldl (enterFarRow i) (withFarSlot g slot)
  let g := { g with farWork := g.farWork ++ [{ slot := i, rows := rows.map (·.row), ask := askOf h 0x22 [] [] }] }
  let s := setGyle s g
  placeFarRows { s with homes := { s.homes with farRowsServed := sat 32 (s.homes.farRowsServed + rows.length) } } g.key

/-- `M_FAR_ROWS`: for a far gyle of this block; reissued at its new home, each row in a message of its own, whose sums go back in one
answer (R233); or `CANCELLED` (R226). -/
def takeFarRows (h : MsgHdr) (gyle : Nat) (slot : FarSlot) (rows : List FarRec) (s : State) : State :=
  match (s.gyle (farKey h gyle)).filter (!·.cancelled) with
  | some g => serveFarRows h g slot rows s
  | none => match farRoute s h gyle with
    | some p =>
      let slotArgs := [slot.layer, slot.proj, slot.inW, slot.outW, slot.actFmt]
      gatherAt s (askOf h 0x22 [] []) 0x23 slotArgs [] (rows.map fun r => (p, gyle :: slotArgs ++ [r.row, r.cls], r.data))
    | none => answerStatus s h 0x23 stCancelled

/-- `M_FAR_ROWS` (R222). -/
def execMFarRows (h : MsgHdr) (gyle : Nat) (slot : FarSlot) (rows : List FarRec) (s : State) : Host.Outcome State Fault Refusal :=
  .next (incoming (.mFarRows h gyle slot rows) h 0x22 (gate h 0x23 (takeFarRows h gyle slot rows)) s)

/-- Every operation of a far row at a slot has issued. -/
def farIssued (s : State) (g : Gyle) (slot row : Nat) : Bool :=
  (g.rowSlot slot row).credited && !(unissued s).any fun o => o.gk = g.key && o.slot = slot && o.rows.contains row

/-- A far gyle is cancelled: its work that has not issued is dropped; what has issued runs out, and its sums still leave (R224). A row
with operations of both kinds has no sum, and what it has issued is discarded. -/
def cancelFar (s : State) (g : Gyle) : State :=
  let stays := fun (w : FarWork) => { w with rows := w.rows.filter fun r => farIssued s g w.slot r }
  let work := (g.farWork.map stays).filter fun w => !w.rows.isEmpty
  let runs := fun (o : Op) => work.any fun w => w.slot = o.slot && o.rows.all w.rows.contains
  let cut := fun (o : Op) => if o.gk = g.key && !runs o then { o with discard := true } else o
  let s := s.tuns.foldl (fun t e => modTun t e.1 fun x => { x with
    queue := x.queue.filter (·.gk ≠ g.key), issued := x.issued.map cut }) (clearHeld s g.key)
  answerFar (modGyle s g.key fun g => { g with farWork := work, cancelled := true }) g.key

/-- A far gyle ends: a close releases it at once, a cancel once what has issued has run out (R224); a close or cancel of one that was
reissued goes on to its new home. -/
def endFar (type : Nat) (h : MsgHdr) (gyle : Nat) (s : State) : State :=
  match s.gyle (farKey h gyle) with
  | some g => if type = 0x26 then cancelFar s g else tearGyle s g
  | none => match farRoute s h gyle with
    | some p =>
      let s := sendMsg s { askOf h type [gyle] [] with dst := p }
      { s with homes := { s.homes with farRouted := s.homes.farRouted.filter fun x =>
        ¬ (x.1 = h.src ∧ x.2.1 = (farKey h gyle).num) } }
    | none => s

/-- `M_FAR_CLOSE` and `M_FAR_CANCEL` (R224). -/
def execMFarClose (h : MsgHdr) (gyle : Nat) (s : State) : Host.Outcome State Fault Refusal :=
  .next (incoming (.mFarClose h gyle) h 0x25 (endFar 0x25 h gyle) s)
def execMFarCancel (h : MsgHdr) (gyle : Nat) (s : State) : Host.Outcome State Fault Refusal :=
  .next (incoming (.mFarCancel h gyle) h 0x26 (endFar 0x26 h gyle) s)

/-! ### Far gyles at the requester -/

/-- The far components of a home become local ones. -/
def hereAt (h : Nat) (cs : List Comp) : List Comp := cs.map fun c => if c.path = .farAt h then { c with path := .here } else c

/-- The row names a far component of a home. -/
def farOf (h : Nat) (r : Row) : Bool := r.comps.any fun c => c.path = .farAt h

/-- Operations for the components of a row that have become local, at a slot whose segment has been placed; a row-slot that was sent to
this home alone is far-applied no longer. -/
def giveLocal (k : GyleKey) (seg slot row : Nat) (was : List Comp) (h : Nat) (s : State) : State :=
  match s.gyle k with
  | none => s
  | some g => match g.plan.slots[slot]? with
    | none => s
    | some p =>
      let far := (indexed was).filter fun x => x.2.path = .farAt h
      let cs := (far.map fun x => (x.1, { x.2 with path := .here })).filterMap (compAt s g p)
      if cs.isEmpty || !rowPasses g (tget {} g.rows row) slot then s
      else
        let x := g.rowSlot slot row
        let sent : Bool := x.farPending = [h] && (farAtSlot s g p was).all (· = h)
        let s := modGyle s k fun g => { g with farRowSlots := if sent then g.farRowSlots - 1 else g.farRowSlots }.modSlot slot row
          fun x => { x with
            localDone := false, present := x.present || x.actDone
            farPending := x.farPending.filter (· ≠ h), farUnsent := x.farUnsent.filter (· ≠ h) }
        let ops := servingOps { gk := k, slot, segment := seg, group := 2 ^ 20 + row } p [{ rows := [row], cs }]
        match tunsByBacklog s with
        | t :: _ => notePlaced (enqueue s k slot t ops [row]) k
        | [] => notePlaced { s with orphans := s.orphans ++ ops } k

/-- A home that cannot take the far gyle: its adapters are fetched, and their segments run locally from the fetched casks; the grist
is not rebuilt (R220). -/
def fetchInstead (s : State) (k : GyleKey) (h : Nat) : State :=
  match s.gyle k with
  | none => s
  | some g =>
    let was := g.rows.filter fun e => farOf h e.2
    let run := fun (r : Run) => { r with comps := hereAt h r.comps }
    let s := setGyle s { g with
      rows := (g.rows.map fun e => (e.1, { e.2 with comps := hereAt h e.2.comps }))
      segments := (g.segments.map fun x => { x with runs := x.runs.map run })
      farHomes := g.farHomes.filter (· ≠ h) }
    let s := (was.flatMap fun e => (hereAt h (e.2.comps.filter fun c => c.path = .farAt h))).eraseDups.foldl (needComp k) s
    g.placed.foldl (fun s x => was.foldl (fun s e => match segmentOf g e.1 with
      | some (i, _) => if i = x.1 then giveLocal k i x.2 e.1 e.2.comps h s else s
      | none => s) s) s

/-- Row-slots that wait for a home become late once their local work is done (R217, R223). -/
def farWaitLate (s : State) (k : GyleKey) (h : Nat) (mine : Nat → Nat → Bool) : State :=
  match s.gyle k with
  | none => s
  | some g => (g.slots.filter fun e => e.2.farPending.contains h && mine (e.1 / 2 ^ 20) (e.1 % 2 ^ 20)).foldl (fun s e =>
      let s := modGyle s k fun g => g.modSlot (e.1 / 2 ^ 20) (e.1 % 2 ^ 20) fun x => { x with farLate := true }
      if e.2.localDone then markLate s k (e.1 / 2 ^ 20) (e.1 % 2 ^ 20) else s) s

/-- The adapters of a gyle that are far-applied at a home, with their versions. -/
def farAdapters (g : Gyle) (h : Nat) : List (AdapterId × Nat) :=
  ((g.rows.flatMap fun e => e.2.comps.filter fun c => c.path = .farAt h).map fun c => (c.adapter, c.version)).eraseDups

/-- A home does not serve what the gyle bound there (R220): the last case of R191, or the reaction to a purge (R411, R412); either way the
row-slots that need it are substituted, at once or as they begin. -/
def farGone (s : State) (k : GyleKey) (h : Nat) : State :=
  match s.gyle k with
  | none => s
  | some g =>
    let as := ((farAdapters g h).map (·.1)).eraseDups
    let s := modGyle s k fun g => { g with lapsed := g.lapsed ++ as }
    as.foldl (fun s a => match s.gyle k with
      | some g => purgeInGyle a s g
      | none => s) s

/-- The status of a far opening (R220). -/
def farOpened (h : MsgHdr) (r : Req) (s : State) : State :=
  let s := endRequest s h.src h.corr
  match r.gk with
  | none => s
  | some k =>
    if h.status = stDone then s
    else if h.status = stCancelled then farWaitLate s k h.src fun _ _ => true
    else if h.status = stNoSpace then fetchInstead s k h.src
    else farGone s k h.src

/-- `M_FAR_OPEN_ANS` (R220). -/
def execMFarOpenAns (h : MsgHdr) (s : State) : Host.Outcome State Fault Refusal :=
  .next (incoming (.mFarOpenAns h) h 0x21 (answered h 0x20 0x21 [] [] (farOpened h)) s)

/-- The plan slot of a gyle that a far message names for one of its rows. -/
def farSlotOf (g : Gyle) (f : FarSlot) (row : Nat) : Nat :=
  let m := (tget ({} : Row) g.rows row).model
  ((List.range g.plan.slots.length).find? fun i => match g.plan.slots[i]? with
    | some p => p.layer = f.layer && p.proj = f.proj && p.model = m
    | none => false).getD g.plan.slots.length

/-- One pooled sum is added at step 6 of Table 3.3, or discarded where the row-slot no longer waits for it (R196, R223). -/
def addSum (h : Nat) (f : FarSlot) (g : Gyle) (r : FarRec) : Gyle :=
  let i := farSlotOf g f r.row
  let x := g.rowSlot i r.row
  if !x.farPending.contains h || x.served ≠ .own then g
  else g.modSlot i r.row fun x => { x with
    farPending := x.farPending.filter (· ≠ h)
    delta := (List.range f.outW).foldl (fun t o =>
      tput o (fadd (tget accZero t o) (BitVec.ofNat 32 (le r.data (4 * o) 4))) t) x.delta }

/-- A pooled sum is taken; sums in the spill area are moved there and back through the memory ports to be added to (R127). -/
def takeSum (k : GyleKey) (h : Nat) (f : FarSlot) (s : State) (r : FarRec) : State :=
  match s.gyle k with
  | none => s
  | some g =>
    let i := farSlotOf g f r.row
    let x := g.rowSlot i r.row
    let s := setGyle s (addSum h f g r)
    if !x.farPending.contains h || x.served ≠ .own || !x.inSpill then s
    else
      let sums := ((addSum h f g r).rowSlot i r.row).delta
      let s := startXfer s (.spill k.owner) false (Config.spillPlace i r.row) (4 * f.outW) []
      startXfer s (.spill k.owner) true (Config.spillPlace i r.row) (4 * f.outW)
        ((List.range f.outW).flatMap fun o => leBytes 4 (tget accZero sums o).toNat)

/-- The rows that a request of far rows sent. -/
def sentRow (r : Req) : Nat := r.msg.args.getD 6 0

/-- Pooled sums arrive (R223). -/
def farSums (h : MsgHdr) (slot : FarSlot) (rows : List FarRec) (r : Req) (s : State) : State :=
  let s := endRequest s h.src h.corr
  match r.gk with
  | none => s
  | some k =>
    if h.status = stDone then rows.foldl (takeSum k h.src slot) s
    else farWaitLate s k h.src fun _ row => row = sentRow r

/-- `M_FAR_SUM` (R223). -/
def execMFarSum (h : MsgHdr) (slot : FarSlot) (rows : List FarRec) (s : State) : Host.Outcome State Fault Refusal :=
  .next (incoming (.mFarSum h slot rows) h 0x23
    (answered h 0x22 0x23 (rows.flatMap fun r => [r.row, r.cls]) (rows.flatMap (·.data)) (farSums h slot rows)) s)

/-- The home announces that a tensor of some rows is late (R222, R223). -/
def takeFarLate (h : MsgHdr) (slot : FarSlot) (rows : List Nat) (s : State) : State :=
  match s.homes.gathers.find? (·.left.contains h.corr) with
  | some x => sendMsg s { x.ask with type := 0x24, status := 0, data := []
                                     args := [slot.layer, slot.proj, slot.inW, slot.outW, slot.actFmt] ++ rows }
  | none => match requestOf s 0x22 h with
    | none => s
    | some r =>
      if staleCtx s r h then endRequest s h.src h.corr
      else match r.gk with
        | none => s
        | some k =>
          let s := { s with homes := { s.homes with requests := s.homes.requests.map fun x =>
            if x.msg.dst = h.src && x.msg.corr = h.corr then { x with late := true } else x } }
          farWaitLate s k h.src fun i row => rows.contains row && match s.gyle k with
            | some g => i = farSlotOf g slot row
            | none => false

/-- `M_FAR_LATE` (R223). -/
def execMFarLate (h : MsgHdr) (slot : FarSlot) (rows : List Nat) (s : State) : Host.Outcome State Fault Refusal :=
  .next (incoming (.mFarLate h slot rows) h 0x24 (takeFarLate h slot rows) s)

end Sys2Proof.Machine
end

