-- ==== Sys2Proof/Machine/Forwards.lean ====
section
/-! DEFINITION. Directory changes between blocks (R211, R212), forwarded commands (R234, R283, R410), the release of an epoch (R238),
and lending (R199 to R201). -/
namespace Sys2Proof.Machine

/-! ### Directory changes -/

/-- The changes of an `M_DIR_UPDATE` run, each at the sequence of its arrival; the answer follows the kiln's record (R212). -/
def applyUpdate (h : MsgHdr) (bytes : List Byte) (s : State) : State :=
  let es := dirEntriesOf bytes (bytes.length / 32)
  let s := es.foldl (fun s e => match dirChange s e with
    | some t => t
    | none => countDirRefusal s) s
  { s with kiln := { s.kiln with pending := s.kiln.pending ++ [.directory h.corr h.src es] } }

/-- `M_DIR_UPDATE` (R211). -/
def execMDirUpdate (h : MsgHdr) (entries : List DirEntry) (s : State) : Host.Outcome State Fault Refusal :=
  .next (incoming (.mDirUpdate h entries) h 0x40
    (gate h 0x41 (takeRun 0x40 h (entries.flatMap dirBytesOf) (applyUpdate h))) s)

/-- A peer's copy is changed (R211). -/
def dirAcked (h : MsgHdr) (r : Req) (s : State) : State :=
  dirPeerDone (endRequest s h.src h.corr) r.msg.corr h.src

/-- `M_DIR_ACK` (R211). -/
def execMDirAck (h : MsgHdr) (s : State) : Host.Outcome State Fault Refusal :=
  .next (incoming (.mDirAck h) h 0x41 (answered h 0x40 0x41 [] [] (dirAcked h)) s)

/-! ### Forwarded commands -/

/-- A forwarded command of a context completes with the home's status and result (R234). -/
def completeForward (s : State) (corr : Seq) (status : Nat) (result : List Byte) : State :=
  match s.homes.forwards.find? fun f => f.1 = corr with
  | none => s
  | some (_, c, sq, op) =>
    let s := { s with homes := { s.homes with forwards := s.homes.forwards.filter fun f => f.1 ≠ corr } }
    match (s.ctx c).inflight.find? fun m => m.sqIndex = sq && m.opcode = op with
    | some m => completeLater s c m status 0 result
    | none => s

/-- The part of a directory command that another key home has ordered ends (R211, R283). -/
def endDirPart (s : State) (corr : Seq) (status applied : Nat) : State :=
  settleDirPending { s with homes := { s.homes with dirPending := s.homes.dirPending.map fun p =>
    if p.corr = corr then { p with status, applied := p.applied + applied, waiting := [] } else p } }

/-- The answer of a forwarded command. -/
def forwardAnswered (h : MsgHdr) (result : List Byte) (r : Req) (s : State) : State :=
  let s := endRequest s h.src h.corr
  if s.homes.forwards.any fun f => f.1 = r.msg.corr then completeForward s r.msg.corr h.status result
  else endDirPart s r.msg.corr h.status (le result 0 4)

/-- `M_PUBLISH_ANS` (R234). -/
def execMPublishAns (h : MsgHdr) (result : List Byte) (s : State) : Host.Outcome State Fault Refusal :=
  .next (incoming (.mPublishAns h result) h 0x43 (answered h 0x42 0x43 [] result (forwardAnswered h result)) s)

/-! ### Epochs -/

/-- A peer binds an epoch no longer (R238); one that is not retiring here yet is remembered until it is. -/
def epochReleased (h : MsgHdr) (s : State) : State :=
  releaseEpoch (if s.homes.released.contains (h.epoch, h.src) then s
    else { s with homes := { s.homes with released := s.homes.released ++ [(h.epoch, h.src)] } })

/-- `M_EPOCH_RELEASE` (R238). -/
def execMEpochRelease (h : MsgHdr) (s : State) : Host.Outcome State Fault Refusal :=
  .next (incoming (.mEpochRelease h) h 0x50 (epochReleased h) s)

/-! ### Lending: the borrower -/

/-- A grant is taken, unless this block holds one of its number (R199). -/
def takeLend (h : MsgHdr) (grant gibs : Nat) (s : State) : State :=
  let ask := askOf h 0x60 [] []
  if s.tiers.borrowed.any fun b => b.grant = grant then reply s ask 0x61 stBadState [grant] []
  else
    let s := { s with tiers := { s.tiers with borrowed := s.tiers.borrowed ++ [{ grant, lender := h.src, gibs }] } }
    reply s ask 0x61 stDone [grant] []

/-- `M_LEND` (R199). -/
def execMLend (h : MsgHdr) (grant sizeGib : Nat) (s : State) : Host.Outcome State Fault Refusal :=
  .next (incoming (.mLend h grant sizeGib) h 0x60 (gate h 0x61 (takeLend h grant sizeGib)) s)

/-- The grant is gone from this block, and its recall answered (Table 9.8, step 4). -/
def dropGrant (s : State) (lender grant : Nat) (ask : Msg) : State :=
  let s := { s with tiers := { s.tiers with borrowed := s.tiers.borrowed.filter fun b => ¬ (b.grant = grant ∧ b.lender = lender) } }
  reply s ask 0x63 stDone [grant] []

/-- A recall at the borrower (Table 9.8, steps 3 and 4): no copy is placed in the grant any more, its copies leave the tier map, and
the answer waits for the reads in flight. -/
def takeRecall (h : MsgHdr) (grant : Nat) (s : State) : State :=
  let ask := askOf h 0x62 [grant] []
  match s.tiers.borrowed.find? fun b => b.grant = grant && b.lender = h.src with
  | none => reply s ask 0x63 stDone [grant] []
  | some b =>
    let s := { s with tiers := { s.tiers with warm := s.tiers.warm.filter fun w => w.grant ≠ some grant } }
    if b.reads.isEmpty then dropGrant s h.src grant ask
    else { s with tiers := { s.tiers with borrowed := s.tiers.borrowed.map fun x =>
      if x.grant = grant && x.lender = h.src then { x with recalling := some ask } else x } }

/-- `M_RECALL` (R201). -/
def execMRecall (h : MsgHdr) (grant : Nat) (s : State) : Host.Outcome State Fault Refusal :=
  .next (incoming (.mRecall h grant) h 0x62 (gate h 0x63 (takeRecall h grant)) s)

/-- The reads of a recalled grant have finished (Table 9.8, step 4). -/
def readsDrained (lender grant : Nat) (s : State) : State :=
  match s.tiers.borrowed.find? fun b => b.grant = grant && b.lender = lender with
  | some b => match b.recalling with
    | some ask => if b.reads.isEmpty then dropGrant (stamp s) lender grant ask else s
    | none => s
  | none => s

/-- `RECALL_READS_DRAINED` (R201). -/
def execRecallReadsDrained (lender : BitVec 8) (grant : Fin 8) (s : State) : Host.Outcome State Fault Refusal :=
  .next (readsDrained lender.toNat grant s)

/-- A T3 read is over. -/
def endT3Read (s : State) (r : Req) : State :=
  let s := endRequest s r.msg.dst r.msg.corr
  { s with tiers := { s.tiers with borrowed := s.tiers.borrowed.map fun b => { b with reads := b.reads.filter (· ≠ r.msg.corr) } } }

/-- The stream whose T3 read a request is. -/
def t3Stream (s : State) (r : Req) : Option Stream :=
  s.tiers.streams.find? fun st => st.started && st.tier = 3 && st.corr = r.msg.corr

/-- A whole tensor read back from T3 (R185, R219): present when its CRC-64 is right; else the source
fails (R191). -/
def t3Tensor (r : Req) (seg : SegHdr) (bytes : List Byte) (s : State) : State :=
  let s := endT3Read s r
  match t3Stream s r with
  | none => s
  | some st => match st.left with
    | [] => s
    | i :: _ =>
      let v := (verOf s st.epoch st.adapter st.version).getD {}
      if seg.index = i && crc64 bytes = seg.crc && bytes = storedBytes v i then
        makePresent s st.id i
      else failSource s st i

/-- The answer to a T3 read. -/
def takeT3Data (h : MsgHdr) (seg : SegHdr) (data : List Byte) (s : State) : State :=
  match requestOf s 0x64 h with
  | none => s
  | some r =>
    if h.status = stDone then takeSegment 0x65 h seg data (t3Tensor r seg) s
    else
      let s := endT3Read s r
      match t3Stream s r with
      | some st => match st.left.head? with
        | some i => failSource s st i
        | none => s
      | none => s

/-- `M_T3_DATA` (R228). -/
def execMT3Data (h : MsgHdr) (seg : SegHdr) (data : List Byte) (s : State) : Host.Outcome State Fault Refusal :=
  .next (incoming (.mT3Data h seg data) h 0x65 (takeT3Data h seg data) s)

/-- No answer to a T3 read within 100 µs: the grant is treated as recalled (Table 9.8). -/
def t3Timeout (corr : Nat) (s : State) : State :=
  match s.homes.requests.find? fun r => r.msg.type = 0x64 && r.msg.corr = corr with
  | none => s
  | some r => forgetGrant (endT3Read (stamp s) r) r.msg.dst (r.msg.args.headD 0)

/-- `T3_READ_TIMEOUT` (R201). -/
def execT3ReadTimeout (corr : Nat) (s : State) : Host.Outcome State Fault Refusal := .next (t3Timeout corr s)

/-! ### Lending: the lender -/

/-- A lend ends at the present event: the grant takes effect, or its space returns; `LEND_GRANT` completes (R199). -/
def lendEnds (s : State) (peer grant status : Nat) : State :=
  match lentOf s peer grant with
  | none => s
  | some l =>
    let lent := if status = stDone
      then s.tiers.lent.map fun x => if x = l then { l with active := true } else x
      else s.tiers.lent.filter (· ≠ l)
    let s := { s with tiers := { s.tiers with lent } }
    match l.ctx with
    | some c => match (s.ctx c).inflight.find? fun m => m.sqIndex = l.sqIndex && m.opcode = 0x41 with
      | some m => completeLater s c m status 0 (if status = stDone then [] else Bad.result { status })
      | none => s
    | none => s

/-- The borrower's answer to a lend: `BAD_STATE` is its refusal (R199, R397). -/
def lendAcked (h : MsgHdr) (r : Req) (s : State) : State :=
  lendEnds (endRequest s h.src h.corr) h.src (r.msg.args.headD 0) h.status

/-- `M_LEND_ACK` (R199). -/
def execMLendAck (h : MsgHdr) (grant : Nat) (s : State) : Host.Outcome State Fault Refusal :=
  .next (incoming (.mLendAck h grant) h 0x61 (answered h 0x60 0x61 [grant] [] (lendAcked h)) s)

/-- The borrower's answer to a recall (Table 9.8, step 5). -/
def recallAnswered (h : MsgHdr) (r : Req) (s : State) : State :=
  let s := endRequest s h.src h.corr
  match lentOf s h.src (r.msg.args.headD 0) with
  | some l => endRecall s l
  | none => s

/-- `M_RECALL_ANS` (R201). -/
def execMRecallAns (h : MsgHdr) (grant : Nat) (s : State) : Host.Outcome State Fault Refusal :=
  .next (incoming (.mRecallAns h grant) h 0x63 (answered h 0x62 0x63 [grant] [] (recallAnswered h)) s)

/-- A read of a grant: the copy that stands at the offset, or an error (R191, R200, Table 9.8). -/
def takeT3Read (h : MsgHdr) (grant offset length : Nat) (s : State) : State :=
  let ask := askOf h 0x64 [grant, offset, length] []
  match (lentOf s h.src grant).bind fun l => l.store.find? fun x => x.1 = offset && x.2.2.length = length with
  | some (_, seg, bytes) => reply s ask 0x65 stDone (segHdrArgs { seg with offset := 0, length := bytes.length }) bytes
  | none => reply s ask 0x65 (if (lentOf s h.src grant).isSome then stBadField else stBadState) [] []

/-- `M_T3_READ` (R200). -/
def execMT3Read (h : MsgHdr) (grant offset length : Nat) (s : State) : Host.Outcome State Fault Refusal :=
  .next (incoming (.mT3Read h grant offset length) h 0x64 (gate h 0x65 (takeT3Read h grant offset length)) s)

/-- A tensor of a clean copy in a grant: in place of the same tensor, or behind what the grant holds (log entry 22). -/
def storeT3 (seg : SegHdr) (bytes : List Byte) (l : Lent) : Lent :=
  let same := fun (x : Nat × SegHdr × List Byte) =>
    x.2.1.adapter = seg.adapter && x.2.1.version = seg.version && x.2.1.index = seg.index
  if l.store.any same then { l with store := l.store.map fun x => if same x then (x.1, seg, bytes) else x }
  else { l with store := l.store ++ [((l.store.map fun x => x.2.2.length).sum, seg, bytes)] }

/-- A clean copy's tensor is written into the grant (R200). -/
def t3Written (h : MsgHdr) (grant : Nat) (seg : SegHdr) (bytes : List Byte) (s : State) : State :=
  let mine := fun (l : Lent) => l.borrower = h.src && l.grant = grant
  if crc64 bytes = seg.crc then
    { s with tiers := { s.tiers with lent := s.tiers.lent.map fun l => if mine l then storeT3 seg bytes l else l } }
  else s

/-- `M_T3_WRITE` (R200). -/
def execMT3Write (h : MsgHdr) (grant : Nat) (seg : SegHdr) (data : List Byte) (s : State) : Host.Outcome State Fault Refusal :=
  .next (incoming (.mT3Write h grant seg data) h 0x66 (whenReady (takeSegment 0x66 h seg data (t3Written h grant seg))) s)

end Sys2Proof.Machine
end

