-- ==== Sys2Proof/Machine/Racking.lean ====
section
/-! DEFINITION. Racking (R209, R231 to R233, Tables 10.5 and 10.6): at the old home, at the new home, and on every other block. -/
namespace Sys2Proof.Machine

/-! ### The command -/

/-- A racking starts at the present event: `M_RACK_OPEN` with header, slot table and sizes (Table 10.5, step 2). -/
def startRack (c : Nat) (fr : Front) (d : Desc) (s : State) : State :=
  let v := (s.cat.adapter d.adapter).cur.getD {}
  let r : Rack := { adapter := d.adapter, dest := d.peer, ctx := some c, sqIndex := fr.sqIndex, version := v.version, corr := s.gauger.seq }
  let s := { s with homes := { s.homes with rack := some r } }
  let s := sendReq s { type := 0x30, dst := d.peer, epoch := s.cat.epoch, ctxEpoch := (s.ctx c).epoch, submitter := c, args := [v.hdr.tensorBytes, verStateBytes v]
                       data := hdrBytes v.hdr ++ v.slots.flatMap slotBytes } none
  acceptLater s c { opcode := d.opcode, sqIndex := fr.sqIndex, adapter := d.adapter, peer := d.peer, seq := s.gauger.seq }

/-- The refusals of `RACK` (R231), a field before a permission and a permission before a state (R293). -/
def rackBad (s : State) (c : Nat) (d : Desc) : Option Bad :=
  let x := s.cat.adapter d.adapter
  firstBad
    [(if d.adapter = 0 then some { status := stBadField, off := 16 } else none),
     (if d.peer = selfPeer s || !peerUp s d.peer then some { status := stBadField, off := 19 } else none), need (ctxFabric s c) stNoPermission,
     stateStatus s c d.opcode, needState (homedHere s d.adapter && (s.homes.rack.map (·.adapter)) ≠ some d.adapter),
     need (!x.retired) stPurged, need x.cur.isSome stUnknownAdapter,
     need (s.cat.exceptions.length < 32768 && s.homes.rack.isNone) stNoSpace]

/-- `RACK` (R231). -/
def rack (c : Nat) (s : State) : State :=
  onFront c 0x40 s fun fr d _ => decideCmd s c fr d (rackBad s c d) (startRack c fr d)

def execRack (c : Fin 64) (s : State) : Host.Outcome State Fault Refusal := .next (rack c s)

/-! ### The old home -/

/-- The new home answers a racking of this block. -/
def rackOf (s : State) (h : MsgHdr) (phase : Nat) : Option Rack :=
  match s.homes.rack with
  | some r => if r.dest = h.src && r.phase = phase then some r else none
  | none => none

/-- Change the racking that runs. -/
def modRack (s : State) (f : Rack → Rack) : State := { s with homes := { s.homes with rack := s.homes.rack.map f } }

/-- Tensors of the current version go to the new home, and its state header as one more array behind the last (Table 10.5, step 4;
log entry 23). -/
def sendRackData (s : State) (r : Rack) (mine : Nat → Bool) : State :=
  let v := (s.cat.adapter r.adapter).cur.getD {}
  let m : Msg := { type := 0x32, dst := r.dest, corr := r.corr, epoch := s.cat.epoch }
  let s := ((streamOrder s v).filter fun i => mine i && !v.lost.contains i).foldl (fun s i => sendTensor s m v i) s
  match v.state with
  | some st =>
    let bs := stateHdrBytes st
    sendMsg s { m with args := [r.adapter, v.version, (verIndices v).length, bs.length, 0, bs.length, (crc64 bs).toNat], data := bs }
  | none => s

/-- The answer to `M_RACK_OPEN` (Table 10.5, step 3): streaming starts, or `RACK` completes with the code. -/
def rackOpened (h : MsgHdr) (q : Req) (s : State) : State :=
  let s := endRequest s h.src q.msg.corr
  match rackOf s h 1 with
  | none => s
  | some r =>
    if h.status ≠ stDone then cancelRack s h.status false
    else sendRackData (modRack s fun r => { r with phase := 2 }) r fun _ => true

/-- `M_RACK_OPEN_ANS` (R232). -/
def execMRackOpenAns (h : MsgHdr) (s : State) : Host.Outcome State Fault Refusal :=
  .next (incoming (.mRackOpenAns h) h 0x31 (answered h 0x30 0x31 [] [] (rackOpened h)) s)

/-- The freeze (Table 10.5, steps 6 and 7): the delta, then `M_RACK_PREPARE` with version, leases and holds. -/
def freezeRack (s : State) (r : Rack) : State :=
  let v := (s.cat.adapter r.adapter).current
  let s := sendRackData (modRack s fun r => { r with phase := 3, delta := [], deltaBytes := 0 }) r r.delta.contains
  let leases := (s.homes.granted.filter fun g => g.epoch = s.cat.epoch && g.adapter = r.adapter && g.version = v).map (·.peer)
  let holds := (s.homes.holds.filter fun g => g.epoch = s.cat.epoch && g.adapter = r.adapter && g.version = v).map (·.peer)
  sendReq s { type := 0x33, dst := r.dest, epoch := s.cat.epoch, args := [v, leases.length] ++ leases ++ holds } none

/-- A round of streaming ends: the freeze when the delta is 1 MiB or less, a further round while it is more, and the end of the racking
in place of a ninth (Table 10.5, step 5). -/
def roundDone (s : State) : State :=
  match s.homes.rack with
  | none => s
  | some r =>
    if r.phase ≠ 2 then s
    else
      let s := stamp s
      if r.deltaBytes ≤ mib then freezeRack s r
      else if 8 ≤ r.round then cancelRack s stCancelled true
      else sendRackData (modRack s fun r => { r with round := r.round + 1, delta := [], deltaBytes := 0 }) r r.delta.contains

/-- `RACK_ROUND_DONE` (R232). -/
def execRackRoundDone (s : State) : Host.Outcome State Fault Refusal := .next (roundDone s)

/-- A version that gyles of this block bind keeps the home that stores it, where a cutover does not take it along (R233): `home` is
that home, `v` the version that moves. -/
def keepPastHomes (s : State) (epoch : Nat) (a : AdapterId) (v home : Nat) : State :=
  let bound := ((s.gyles.filter fun g => g.epoch = epoch).map fun g => tget 0 g.remoteBound a).eraseDups
  let past := (bound.filter fun w => w ≠ 0 && w ≠ v && !(s.homes.pastHomes.any fun x =>
    x.epoch = epoch && x.adapter = a && x.version = w)).map fun w => ({ epoch, adapter := a, version := w, home } : PastHome)
  { s with homes := { s.homes with pastHomes := s.homes.pastHomes ++ past } }

/-- Gyles open at the cutover keep the version that they bound here (R10, R239); what they bind of older versions stays here. -/
def keepBound (s : State) (a : AdapterId) (v : Nat) : State :=
  let pin := fun (g : Gyle) => match ((catOf s g.epoch).adapter a).verAt g.openSeq with
    | some v => if g.epoch = s.cat.epoch && tget 0 g.remoteBound a = 0 then { g with remoteBound := tput a v.version g.remoteBound } else g
    | none => g
  keepPastHomes { s with gyles := s.gyles.map pin } s.cat.epoch a v (selfPeer s)

/-- The adapter's data here after the cutover: the write-back of what the new home holds is cancelled, the resident cask is a fetched
copy under a lease, and streams of the version that moves go to the new home (R191, R233). -/
def handOver (s : State) (a : AdapterId) (v dest leaseUs : Nat) : State :=
  let other := fun (k : JournalKind) => match k with
    | .dirty b _ => decide (b ≠ a)
    | _ => true
  let s := { s with
    train := { s.train with dirty := s.train.dirty.filter (·.adapter ≠ a) }
    kiln := { s.kiln with pending := s.kiln.pending.filter other }
    homes := { s.homes with
      granted := s.homes.granted.filter fun g => ¬ (g.epoch = s.cat.epoch ∧ g.adapter = a ∧ g.version = v)
      holds := s.homes.holds.filter fun x => ¬ (x.epoch = s.cat.epoch ∧ x.adapter = a ∧ x.version = v) } }
  let s := addLease s s.cat.epoch dest { adapter := a, version := v, leaseUs }
  let s := match caskOf s s.cat.epoch a v with
    | some i => modCask s i fun c => { c with fetchedCopy := true, dirty := [], dirtySeq := 0 }
    | none => s
  (s.tiers.streams.filter fun st => st.adapter = a && st.version = v && st.epoch = s.cat.epoch).foldl (fun s st =>
    let s := modStream s st.id fun x => { x with home := dest }
    match st.left.head? with
    | some i => if st.started then failSource s { st with home := dest } i else s
    | none => s) s

/-- The cutover at the present event (R209, Table 10.5, steps 9 and 10): every other peer is told, one whose link is down once it is up
again. -/
def cutover (s : State) (r : Rack) (leaseUs : Nat) : State :=
  let a := r.adapter
  let v := (s.cat.adapter a).current
  let s := keepBound (measureFreeze s r) a v
  let s := { s with cat := { s.cat with exceptions := tput a (r.dest + 1) s.cat.exceptions } }
  let s := { s with homes := { s.homes with departed := tput a s.gauger.seq s.homes.departed } }
  let s := pruneVersions (handOver (modRack s fun r => { r with phase := 4 }) a v r.dest leaseUs)
  let peers := r.dest :: (List.range (rackSize s)).filter fun p => p ≠ r.dest && p ≠ selfPeer s
  peers.foldl (fun s p => sendReq (stamp s) { type := 0x36, dst := p, epoch := s.cat.epoch, args := [a, r.dest] } none) s

/-- `M_RACK_READY` at the old home (Table 10.5, steps 8 and 9). -/
def rackReady (h : MsgHdr) (leaseUs : Nat) (q : Req) (s : State) : State :=
  let s := endRequest s h.src q.msg.corr
  match rackOf s h 3 with
  | none => s
  | some r => if h.status = stDone then cutover s r leaseUs else cancelRack s stCancelled true

/-- `M_RACK_READY` (R232). -/
def execMRackReady (h : MsgHdr) (leaseUs : Nat) (s : State) : Host.Outcome State Fault Refusal :=
  .next (incoming (.mRackReady h leaseUs) h 0x34 (answered h 0x33 0x34 [leaseUs] [] (rackReady h leaseUs)) s)

/-- 40 µs have passed since the freeze (Table 10.5, step 8). -/
def freezeTimeout (s : State) : State :=
  match s.homes.rack with
  | none => s
  | some r => if r.phase = 3 then cancelRack (stamp s) stCancelled true else s

/-- `RACK_FREEZE_TIMEOUT` (R232). -/
def execRackFreezeTimeout (s : State) : Host.Outcome State Fault Refusal := .next (freezeTimeout s)

/-- `M_HOME_ACK`: `RACK` completes `DONE` on the new home's (Table 10.5, step 12). -/
def homeAcked (h : MsgHdr) (q : Req) (s : State) : State :=
  let s := endRequest s h.src q.msg.corr
  match rackOf s h 4 with
  | some _ => cancelRack s stDone false
  | none => s

/-- `M_HOME_ACK` (R232). -/
def execMHomeAck (h : MsgHdr) (s : State) : Host.Outcome State Fault Refusal :=
  .next (incoming (.mHomeAck h) h 0x37 (answered h 0x36 0x37 [] [] (homeAcked h)) s)

/-! ### The new home -/

/-- `M_RACK_OPEN` (Table 10.5, step 3): the tenant's T4 quota is charged and kiln space allocated. -/
def takeRackOpen (h : MsgHdr) (hdr : AdapterHdr) (slots : List SlotEntry) (bytes : Nat) (s : State) : State :=
  let s := { s with homes := { s.homes with rackIn := s.homes.rackIn.filter (·.adapter ≠ hdr.id) } }
  if (tenantRec s hdr.tenant).qT4Gib * gib < t4Charge s hdr.tenant + bytes then answerStatus s h 0x31 stQuota
  else if kilnFree s < bytes + regFld s pgKiln 0x090 0 16 * gib then answerStatus s h 0x31 stNoSpace
  else
    answerStatus { s with homes := { s.homes with rackIn := s.homes.rackIn ++
      [{ adapter := hdr.id, src := h.src, hdr, slots, bytes, version := hdr.version }] } } h 0x31 stDone

/-- `M_RACK_OPEN` (R232). -/
def execMRackOpen (h : MsgHdr) (hdr : AdapterHdr) (slots : List SlotEntry) (bytes : Nat) (s : State) :
    Host.Outcome State Fault Refusal :=
  .next (incoming (.mRackOpen h hdr slots bytes) h 0x30 (gate h 0x31 (takeRackOpen h hdr slots bytes)) s)

/-- Requests that waited for a racking are taken up again. -/
def runQueued (s : State) (i : Instr) : State :=
  match i with
  | .mLookup h ids => takeLookup i h ids s
  | .mLeaseRenew h ids => takeRenew i h ids s
  | .mFetchReq h a v f => takeFetch i h a v f s
  | .mFarOpen h fp g cs => takeFarOpen i h fp g cs s
  | .mPublishFwd h d img => takeForward h (d ++ img) s
  | _ => s

/-- An arriving adapter is abandoned: what was allocated is given back, and requests queued for it go to its home. -/
def dropRackIn (s : State) (src : Nat) : State :=
  let gone := s.homes.rackIn.filter (·.src = src)
  let s := { s with homes := { s.homes with rackIn := s.homes.rackIn.filter (·.src ≠ src) } }
  (gone.flatMap (·.queued)).foldl runQueued s

/-- A whole tensor of an arriving adapter: present when its CRC-64 is right; otherwise the racking is abandoned (R228). -/
def rackedTensor (h : MsgHdr) (seg : SegHdr) (bytes : List Byte) (s : State) : State :=
  if crc64 bytes = seg.crc then
    let t : Tensor := { index := seg.index, bytes, crc := seg.crc, writer := seg.version }
    let put := fun (r : RackIn) => { r with tensors := (r.tensors.filter fun x => x.index ≠ t.index) ++ [t] }
    { s with homes := { s.homes with rackIn := s.homes.rackIn.map fun r => if r.adapter = seg.adapter && r.src = h.src then put r else r } }
  else dropRackIn (sendMsg s { type := 0x35, dst := h.src, corr := h.corr, epoch := h.epoch, args := [seg.adapter] }) h.src

/-- `M_RACK_DATA` (R228). -/
def execMRackData (h : MsgHdr) (seg : SegHdr) (data : List Byte) (s : State) : Host.Outcome State Fault Refusal :=
  .next (incoming (.mRackData h seg data) h 0x32 (whenReady (takeSegment 0x32 h seg data (rackedTensor h seg))) s)

/-- `M_RACK_PREPARE` (Table 10.5, step 8): the delta is present, the kiln's record follows, and the answer grants the old home a lease.
A racking that a reset ended is `CANCELLED` (R226), and a list that names no block of the rack is `BAD_FIELD` (R207). -/
def takePrepare (h : MsgHdr) (version : Nat) (leases holds : List Nat) (s : State) : State :=
  if (leases ++ holds).any (rackSize s ≤ ·) then answerStatus s h 0x34 stBadField
  else match s.homes.rackIn.find? (·.src = h.src) with
  | none => answerStatus s h 0x34 stCancelled
  | some r =>
    let whole := (List.range (2 * r.slots.length)).all fun i => r.tensors.any fun t => t.index = i
    if !whole then answerStatus s h 0x34 stCancelled
    else
      let put := fun (x : RackIn) => if x.src = h.src then { x with version, leases, holds, ready := true } else x
      let s := { s with
        homes := { s.homes with rackIn := s.homes.rackIn.map put }
        kiln := { s.kiln with pending := s.kiln.pending ++ [.racked r.adapter version] } }
      reply s (askOf h 0x33 [] []) 0x34 stDone [leaseUs s] []

/-- `M_RACK_PREPARE` (R232). -/
def execMRackPrepare (h : MsgHdr) (version : Nat) (leases holds : List Nat) (s : State) : Host.Outcome State Fault Refusal :=
  .next (incoming (.mRackPrepare h version leases holds) h 0x33 (gate h 0x34 (takePrepare h version leases holds)) s)

/-- `M_RACK_ABORT`, at either end (R232). -/
def takeAbort (h : MsgHdr) (s : State) : State :=
  let s := match s.homes.rack with
    | some r => if r.dest = h.src && r.phase < 4 then cancelRack s stCancelled false else s
    | none => s
  dropRackIn s h.src

/-- `M_RACK_ABORT` (R232). -/
def execMRackAbort (h : MsgHdr) (s : State) : Host.Outcome State Fault Refusal :=
  .next (incoming (.mRackAbort h) h 0x35 (takeAbort h) s)

/-- The version that an arriving adapter brings, current from the present event. -/
def rackedVersion (s : State) (r : RackIn) : Ver :=
  { r.ver with pubSeq := s.gauger.seq, home := true, inT4 := !s.kiln.pending.any (· = .racked r.adapter r.version) }

/-- The new home's own streams of the version that has come are withdrawn from the old one and go on from its own tiers (R191). -/
def ownStreams (s : State) (a : AdapterId) (v : Nat) : State :=
  (s.tiers.streams.filter fun st => st.adapter = a && st.version = v && st.epoch = s.cat.epoch && st.home ≠ selfPeer s).foldl (fun s st =>
    let mine := fun (q : Req) => q.msg.type = 0x10 && q.msg.dst = st.home && q.msg.args.take 2 = [st.adapter, st.version]
    let s := { s with homes := { s.homes with requests := s.homes.requests.filter fun q => !mine q } }
    let st1 : Stream := { st with home := selfPeer s, below := 0 }
    let s := modStream s st.id fun _ => st1
    match st.started, st.left.head? with
    | true, some i => failSource s st1 i
    | _, _ => s) s

/-- Gyles that are open as this block becomes an adapter's home, and have bound no version of it, bind the one that comes, as a look-up
at its home would have told them (R10, R213). -/
def bindArrived (epoch : Nat) (a : AdapterId) (v : Nat) (g : Gyle) : Gyle :=
  if g.epoch = epoch && !g.key.far && tget 0 g.remoteBound a = 0 && tget 0 g.lookups a ≠ 1 then
    { g with remoteBound := tput a v g.remoteBound, lookups := tdel a g.lookups }
  else g

/-- This block becomes the home (Table 10.5, step 11): the version that it received is current, the old home's leases and holds are its
own from here on, and queued requests are served. -/
def becomeHome (s : State) (a src : Nat) : State :=
  match s.homes.rackIn.find? (·.adapter = a) with
  | none => s
  | some r =>
    let v := rackedVersion s r
    let s := modAdapter s a fun x => { x with
      current := v.version, versions := v :: x.versions.filter fun y => y.version ≠ v.version }
    let s := { s with homes := { s.homes with
      rackIn := s.homes.rackIn.filter (·.adapter ≠ a)
      leases := s.homes.leases.filter fun l => ¬ (l.adapter = a ∧ l.epoch = s.cat.epoch) } }
    let s := keepPastHomes { s with gyles := s.gyles.map (bindArrived s.cat.epoch a v.version) } s.cat.epoch a v.version src
    let s := (src :: r.leases).foldl (fun s p => if p = selfPeer s then s else addGranted s s.cat.epoch a v.version p) s
    let s := r.holds.foldl (fun s p => if p = selfPeer s then s else addHold s s.cat.epoch a v.version p) s
    let s := match caskOf s s.cat.epoch a v.version with
      | some i => modCask s i fun c => { c with fetchedCopy := false, stateArea := v.state.isSome }
      | none => s
    r.queued.foldl runQueued (ownStreams s a v.version)

/-- Another block's view of a cutover: leases name the new home, and streams of the version that moved go on from there (R191); those of
older versions stay with the old home (R233). A release that crossed the cutover has not ended the hold that moved: where no gyle binds
the version, it is released at the new home once more (log entry 58). -/
def homeMoved (s : State) (epoch : Nat) (a old home : Nat) : State :=
  let v := ((catOf s epoch).adapter a).current
  let move := fun (l : Lease) => if l.adapter = a && l.epoch = epoch then { l with home } else l
  let s := keepPastHomes { s with homes := { s.homes with leases := s.homes.leases.map move } } epoch a v old
  let s := if v = 0 || holdsRemote s.gyles epoch a v then s
    else sendMsg s { type := 0x07, dst := home, corr := s.gauger.seq, epoch, args := [a, v] }
  (s.tiers.streams.filter fun st => st.adapter = a && st.version = v && st.epoch = epoch && st.home ≠ home).foldl (fun s st =>
    let s := { s with homes := { s.homes with requests := s.homes.requests.filter fun q =>
      ¬ (q.msg.type = 0x10 ∧ q.msg.dst = st.home ∧ q.msg.args.take 2 = [st.adapter, st.version]) } }
    let s := modStream s st.id fun x => { x with home }
    if st.started then readFrom s { st with home } 5 else s) s

/-- `M_HOME_CHANGE`, ordered here (R209): the exception entry; the new home becomes home. -/
def takeHomeChange (h : MsgHdr) (a home : Nat) (s : State) : State :=
  if rackSize s ≤ home then answerStatus s h 0x37 stBadField
  else
    let epoch := (catFor s h.epoch).epoch
    let s := modCatFor s h.epoch fun cat => { cat with exceptions := tput a (home + 1) cat.exceptions }
    let s := if home = selfPeer s then becomeHome s a h.src else homeMoved s epoch a h.src home
    answerStatus s h 0x37 stDone

/-- `M_HOME_CHANGE` (R209). -/
def execMHomeChange (h : MsgHdr) (adapter : AdapterId) (home : Nat) (s : State) : Host.Outcome State Fault Refusal :=
  .next (incoming (.mHomeChange h adapter home) h 0x36 (gate h 0x37 (takeHomeChange h adapter home)) s)

end Sys2Proof.Machine
end

