-- ==== Sys2Proof/Machine/Links.lean ====
section
/-! DEFINITION. Links and the lives of requests (R216, R217, R225, R226, R408, R441): a link that comes up or goes down, a request that
is sent again or given up, an answer that is forgotten, and the messages that queued while core pair 2 was away (Table 16.2). -/
namespace Sys2Proof.Machine

/-! ### Links -/

/-- Directory changes that a peer has missed go out before any later message on the connection (R211). -/
def payDirectory (s : State) (p : Nat) : State :=
  let mine := s.homes.dirOwed.filter (·.1 = p)
  let s := { s with homes := { s.homes with dirOwed := s.homes.dirOwed.filter (·.1 ≠ p) } }
  mine.foldl (fun s e => sendReq (stamp s) { type := 0x40, dst := p, data := e.2.flatMap dirBytesOf } none) s

/-- The connection takes both key slots (R408, R441): the slots are empty again, both directions' sequences start anew, the link is
up, and requests that were not answered are sent again (R229). -/
def linkComesUp (s : State) (p : Nat) : State :=
  let tx := tget none s.keys.slots (2 * p)
  let rx := tget none s.keys.slots (2 * p + 1)
  let waiting := s.homes.requests.filter fun r => r.msg.dst = p
  let s := raise { s with
    keys := { s.keys with
      slots := tdel (2 * p) (tdel (2 * p + 1) s.keys.slots)
      connections := tset none (tset none s.keys.connections (2 * p) tx) (2 * p + 1) rx }
    homes := { s.homes with
      peersUp := s.homes.peersUp ++ [p], txSeq := tdel p s.homes.txSeq, rxSeq := tdel p s.homes.rxSeq } } pgHomes 1
  let again := fun (r : Req) => if r.msg.dst = p then { r with tries := r.tries + 1 } else r
  let s := { s with homes := { s.homes with requests := s.homes.requests.map again } }
  seekKept (waiting.foldl (fun s r => sendMsg s r.msg) (payDirectory s p))

/-- Event 0x01 of the NIC: the link comes up, or the block refuses it with event 0x03 while a key slot is empty or the peer is no block
of the rack (R207, R441). -/
def linkUp (port p : Nat) (s : State) : State :=
  if port ≠ p % 16 || peerUp s p || !domainPresent s (192 + port) then s
  else
    let s := raise (stamp s) (pgFab port) 1
    let keys := (tget none s.keys.slots (2 * p)).isSome && (tget none s.keys.slots (2 * p + 1)).isSome
    if !keys || rackSize s ≤ p || p = selfPeer s then sendLinkEvent s p 3 else linkComesUp s p

/-- `LINK_UP` (R441). -/
def execLinkUp (port : Fin 16) (peer : BitVec 7) (s : State) : Host.Outcome State Fault Refusal := .next (linkUp port peer.toNat s)

/-- Event 0x02 of the NIC marks the peer down (R441). -/
def linkDown (port p : Nat) (s : State) : State :=
  if port ≠ p % 16 || !peerUp s p then s else peerDown (raise (stamp s) (pgFab port) 1) p

/-- `LINK_DOWN` (R441). -/
def execLinkDown (port : Fin 16) (peer : BitVec 7) (s : State) : Host.Outcome State Fault Refusal :=
  .next (linkDown port peer.toNat s)

/-! ### Requests without an answer -/

/-- A fetch that is not answered makes the row-slots that need it late (R217). -/
def fetchLate (s : State) (r : Req) : State :=
  let a := r.msg.args.headD 0
  (s.gyles.filter fun g => g.epoch = r.msg.epoch && !g.key.far).foldl (fun s g =>
    (slotsOwing s g a).foldl (fun s x => markLate s g.key x.1 x.2) s) s

/-- What a third unanswered request brings about (R217): a look-up's rows are default rows of cause 0x2; a fetch's and a far apply's
row-slots are late. -/
def unanswered (s : State) (r : Req) : State :=
  match r.msg.type, r.gk with
  | 0x01, _ => lookupFailed (endRequest s r.msg.dst r.msg.corr) r
  | 0x10, _ => fetchLate s r
  | 0x20, some k => farWaitLate s k r.msg.dst fun _ _ => true
  | 0x22, some k => farWaitLate s k r.msg.dst fun _ row => row = sentRow r
  | _, _ => s

/-- One request without an answer: sent again, where the peer's link is up; after the third its peer is marked down. -/
def retryOneReq (s : State) (r : Req) : State :=
  if r.tries < 3 then
    let again := fun (x : Req) => if x = r then { r with tries := r.tries + 1 } else x
    sendMsg { s with homes := { s.homes with requests := s.homes.requests.map again } } r.msg
  else unanswered (peerDown s r.msg.dst) r

/-- 100 µs without an answer (R217): the requests of this `CORR` are sent again; after the third the peer is marked down. A T3 read
has a time-out of its own (Table 9.8); a far row that the home has announced as late has its answer still to come. -/
def retryRequest (corr : Nat) (s : State) : State :=
  match s.homes.requests.filter fun r => r.msg.corr = corr && r.msg.type ≠ 0x64 && !r.late with
  | [] => s
  | rs => rs.foldl retryOneReq (stamp s)

/-- `PEER_REQUEST_RETRY` (R217). -/
def execPeerRequestRetry (corr : Nat) (s : State) : Host.Outcome State Fault Refusal := .next (retryRequest corr s)

/-- A request is given up ten seconds after its first sending (R226): it counts as unanswered, and what waits for it ends. A new home
that has not taken up `M_HOME_CHANGE` is told again on reconnection, under a new `CORR` (Table 10.6). -/
def givenUp (s : State) (r : Req) : State :=
  let s := endRequest s r.msg.dst r.msg.corr
  let s := { s with homes := { s.homes with
    redirected := s.homes.redirected.filter (·.1 ≠ r.msg.corr)
    gathers := s.homes.gathers.filter fun x => !x.left.contains r.msg.corr } }
  match r.msg.type with
  | 0x03 => match s.homes.leases.find? fun l => r.msg.args = [l.adapter, l.version] && l.epoch = r.msg.epoch with
    | some l => lapse s l
    | none => s
  | 0x10 => match fetchStream s r with
    | some st => match st.left.head? with
      | some i => failSource s st i
      | none => s
    | none => s
  | 0x30 | 0x33 => cancelRack s stCancelled false
  | 0x36 => sendReq s r.msg none
  | 0x42 =>
    if s.homes.forwards.any fun f => f.1 = r.msg.corr then completeForward s r.msg.corr stCancelled (Bad.result { status := stCancelled })
    else endDirPart s r.msg.corr stCancelled 0
  | 0x60 => lendEnds s r.msg.dst (r.msg.args.headD 0) stCancelled
  | _ => unanswered s r

/-- `REQUEST_GIVE_UP` (R226). -/
def execRequestGiveUp (corr : Nat) (s : State) : Host.Outcome State Fault Refusal :=
  .next (match s.homes.requests.find? fun r => r.msg.corr = corr && r.msg.type ≠ 0x64 with
    | none => s
    | some r => givenUp (stamp s) r)

/-- The body of an answer is discarded 1 ms after its sending; its pair stays (R226). -/
def forgetAnswer (p : Nat) (corr : Nat) (s : State) : State :=
  if s.homes.answered.any fun a => a.peer = p && a.corr = corr && a.body.isSome then
    let drop := fun (a : Answered) => if a.peer = p && a.corr = corr then { a with body := none } else a
    let s := stamp s
    { s with homes := { s.homes with answered := s.homes.answered.map drop } }
  else s

/-- `ANSWER_EXPIRY` (R226). -/
def execAnswerExpiry (peer : BitVec 7) (corr : Nat) (s : State) : Host.Outcome State Fault Refusal :=
  .next (forgetAnswer peer.toNat corr s)

/-! ### Messages that queued while core pair 2 was away -/

/-- The state that a command's outcome carries. -/
def outcomeState (s : State) : Host.Outcome State Fault Refusal → State
  | .next t => t
  | _ => s

/-- A queued message is ordered (Table 16.2). -/
def runMessage (s : State) (i : Instr) : State :=
  match i with
  | .mLookup h ids => outcomeState s (execMLookup h ids s)
  | .mLookupAns h as => outcomeState s (execMLookupAns h as s)
  | .mLeaseRenew h ids => outcomeState s (execMLeaseRenew h ids s)
  | .mLeaseAns h gs => outcomeState s (execMLeaseAns h gs s)
  | .mRevoke h ids p => outcomeState s (execMRevoke h ids p s)
  | .mRevokeAck h => outcomeState s (execMRevokeAck h s)
  | .mHoldRelease h ids => outcomeState s (execMHoldRelease h ids s)
  | .mFetchReq h a v f => outcomeState s (execMFetchReq h a v f s)
  | .mFetchData h g d => outcomeState s (execMFetchData h g d s)
  | .mFetchEnd h => outcomeState s (execMFetchEnd h s)
  | .mFarOpen h fp g cs => outcomeState s (execMFarOpen h fp g cs s)
  | .mFarOpenAns h => outcomeState s (execMFarOpenAns h s)
  | .mFarRows h g sl rs => outcomeState s (execMFarRows h g sl rs s)
  | .mFarSum h sl rs => outcomeState s (execMFarSum h sl rs s)
  | .mFarLate h sl rs => outcomeState s (execMFarLate h sl rs s)
  | .mFarClose h g => outcomeState s (execMFarClose h g s)
  | .mFarCancel h g => outcomeState s (execMFarCancel h g s)
  | .mRackOpen h hdr es n => outcomeState s (execMRackOpen h hdr es n s)
  | .mRackOpenAns h => outcomeState s (execMRackOpenAns h s)
  | .mRackData h g d => outcomeState s (execMRackData h g d s)
  | .mRackPrepare h v ls hs => outcomeState s (execMRackPrepare h v ls hs s)
  | .mRackReady h us => outcomeState s (execMRackReady h us s)
  | .mRackAbort h => outcomeState s (execMRackAbort h s)
  | .mHomeChange h a p => outcomeState s (execMHomeChange h a p s)
  | .mHomeAck h => outcomeState s (execMHomeAck h s)
  | .mDirUpdate h es => outcomeState s (execMDirUpdate h es s)
  | .mDirAck h => outcomeState s (execMDirAck h s)
  | .mPublishFwd h d img => outcomeState s (execMPublishFwd h d img s)
  | .mPublishAns h r => outcomeState s (execMPublishAns h r s)
  | .mEpochRelease h => outcomeState s (execMEpochRelease h s)
  | .mLend h g n => outcomeState s (execMLend h g n s)
  | .mLendAck h g => outcomeState s (execMLendAck h g s)
  | .mRecall h g => outcomeState s (execMRecall h g s)
  | .mRecallAns h g => outcomeState s (execMRecallAns h g s)
  | .mT3Read h g o n => outcomeState s (execMT3Read h g o n s)
  | .mT3Data h g d => outcomeState s (execMT3Data h g d s)
  | .mT3Write h g x d => outcomeState s (execMT3Write h g x d s)
  | _ => s

/-- Core pair 2 is back: its queued messages are ordered, oldest first. -/
def runMessages (s : State) : State :=
  s.homes.msgsQueued.foldl runMessage { s with homes := { s.homes with msgsQueued := [] } }

end Sys2Proof.Machine
end

