-- ==== Sys2Proof/Machine/LogBook.lean ====
section
/-! DEFINITION. The log book (R381 to R391): the log writer, reads of an index, the clear of the first-fault area and the test
port's capture. -/
namespace Sys2Proof.Machine

/-! ### Records in MRAM -/

/-- The raw copy of an index in a bank; an index that no append has written reads zero. -/
def rawCopy (lb : LogBook) (bank index : Nat) : List Byte :=
  padTo 64 (tget [] (if bank = 0 then lb.bank0 else lb.bank1) index)

/-- A copy is valid if its CRC-32C passes (R384). -/
def copyValid (bs : List Byte) : Bool := leNat (bs.drop 60) = crc32c (bs.take 60)

/-- What a read of an index takes (R384): `LOG_COPY`, the bytes, and the copies found invalid. -/
def readIndex (lb : LogBook) (index : Nat) : Nat × List Byte × Nat :=
  if copyValid (rawCopy lb 0 index) then (0, rawCopy lb 0 index, 0)
  else if copyValid (rawCopy lb 1 index) then (1, rawCopy lb 1 index, 1)
  else (2, [], 2)

/-! ### The log writer -/

/-- What stands in a copy that reads back wrong: the spec does not say (log entry 6). -/
def badCopy (ctr : Nat) : List Byte := (List.range 64).map fun i => Config.freeByte (ctr * 64 + i)

/-- One copy is written and read back (R383). -/
def writeCopy (s : State) (bank index : Nat) (bs : List Byte) (good : Bool) : State :=
  let ok := if bank = 0 then s.log.bank0Ok else s.log.bank1Ok
  if !ok then s
  else
    let data := if good then bs else badCopy s.freeCtr
    let s := if bank = 0 then { s with log := { s.log with bank0 := tset [] s.log.bank0 index data, bank0Ok := good } }
      else { s with log := { s.log with bank1 := tset [] s.log.bank1 index data, bank1Ok := good } }
    if good then s else stampRaise (bumpFree s) pgLogbook 2

/-- The log writer may append the record: not while core pair 3 restarts at level 6 (R388), nor a first-fault record during a
clear (R387). -/
def mayAppend (s : State) (r : LogRec) : Bool :=
  tget .down s.repair.pairs 3 ≠ .restarting && !s.log.mustWait r

/-- Both copies of a record at an index, bank 0 first. -/
def writeBoth (s : State) (index : Nat) (bs : List Byte) (ok0 ok1 : Bool) : State :=
  writeCopy (writeCopy s 0 index bs ok0) 1 index bs ok1

/-- The first-fault copy of a record that Table 19.2 marks; once the area is full, `FF_FULL` is raised once (R382). -/
def appendFirst (s : State) (r : LogRec) (ok0 ok1 : Bool) : State :=
  if !r.firstFault then s
  else if s.log.ffUsed < ffSize then
    let i := s.log.ffUsed
    let s := { s with log := { s.log with ffUsed := i + 1, ffNewest := r.seq } }
    writeBoth s i (recordBytes r) ok0 ok1
  else if s.log.ffFullRaised then s
  else stampRaise { s with log := { s.log with ffFullRaised := true } } pgLogbook 0

/-- Once the queue has room, one record reports the drops since the last such record (R388). -/
def reportDrops (s : State) : State :=
  if s.log.dropCount = 0 || 3840 ≤ s.log.queue.length then s
  else
    let lb := s.log
    let s := stamp s
    let body := padTo 8 (leBytes 4 lb.dropCount) ++ leBytes 8 lb.dropFirst ++ leBytes 8 lb.dropLast
    logNow { s with log := { s.log with dropCount := 0 } } pgLogbook evRecordsDropped none none 0 body

/-- The next record of the queue is appended to the ring and, where it is marked, to the first-fault area (R382, R383). -/
def logAppend (ok0 ok1 : Bool) (s : State) : State :=
  match s.log.queue with
  | [] => s
  | r :: rest =>
    if !mayAppend s r then s
    else
      let n := s.log.ringNext
      let s := { s with log := { s.log with
        queue := rest, ringNext := (n + 1) % ringSize, appends := s.log.appends + 1, newestSeq := r.seq } }
      let s := writeBoth s (ffSize + n) (recordBytes r) ok0 ok1
      reportDrops (appendFirst s r ok0 ok1)

/-- `LOG_APPEND` (R382). -/
def execLogAppend (ok0 ok1 : Bool) (s : State) : Host.Outcome State Fault Refusal := .next (logAppend ok0 ok1 s)

/-! ### The page -/

/-- An accepted write of `LOG_SEL` (R391): the selected index is read at the write's sequence. -/
def logSelect (v : Word64) (s : State) : State :=
  let s := storeReg pgLogbook 0x098 v s
  let index := fld v 0 18 + if fld v 19 1 = 1 then 0 else ffSize
  let r := readIndex s.log index
  { s with log := { s.log with selCopy := r.1, selData := r.2.1, crcFails := sat 32 (s.log.crcFails + r.2.2) } }

/-- `LOG_SEL_WRITE` (R391). -/
def execLogSelWrite (value : Word64) (role : Role) (s : State) : Host.Outcome State Fault Refusal :=
  .next (busWrite pgLogbook 0x098 value role (fun _ => none) (logSelect value) s)

/-- The refusals of `FF_CLEAR_SEQ` (R387): a newer first-fault record, a clear that runs, a value that names no record. -/
def ffClearCheck (v : Word64) (s : State) : Option Nat :=
  if v.toNat < s.log.ffNewest || s.log.clearing then some stBadState
  else if v.toNat ≠ s.log.ffNewest || s.log.ffUsed = 0 then some stBadField
  else none

/-- An accepted write of `FF_CLEAR_SEQ`: the clear begins (R387). -/
def ffClearStart (v : Word64) (s : State) : State :=
  let s := storeReg pgLogbook 0x0E8 v s
  { s with log := { s.log with clearing := true } }

/-- `FF_CLEAR` (R387). -/
def execFfClear (value : Word64) (role : Role) (s : State) : Host.Outcome State Fault Refusal :=
  .next (busWrite pgLogbook 0x0E8 value role (ffClearCheck value) (ffClearStart value) s)

/-- The indices of the ring alone. -/
def ringOnly (bank : Tab (List Byte)) : Tab (List Byte) := bank.filter fun e => ffSize ≤ e.1

/-- The clear ends (R387): all indices of the area are zero in both banks; `EV_FF_CLEARED` follows the records that waited. -/
def ffClearDone (s : State) : State :=
  if !s.log.clearing then s
  else
    let s := stamp s
    let s := { s with log := { s.log with
      clearing := false, bank0 := ringOnly s.log.bank0, bank1 := ringOnly s.log.bank1, ffUsed := 0, ffNewest := 0
      ffFullRaised := false } }
    logNow s pgLogbook evFfCleared none none 0 (leBytes 8 (reg s pgLogbook 0x0E8).toNat)

/-- `FF_CLEAR_DONE` (R387). -/
def execFfClearDone (s : State) : Host.Outcome State Fault Refusal := .next (ffClearDone s)

/-! ### The test port -/

/-- The data register of `LOGBOOK_READ` (R390): index, bank and raw copy. -/
def captureBits (lb : LogBook) : BitVec 531 :=
  BitVec.ofNat 531 (lb.captureIndex + lb.captureBank * 2 ^ 18 + leNat (rawCopy lb lb.captureBank lb.captureIndex) * 2 ^ 19)

/-- A scan of `LOGBOOK_READ` (R390): the capture returns the copy that the previous update selected, and the update selects the
next. It needs no part of the interior. -/
def logbookRead (index bank : Nat) (s : State) : State :=
  let s := emit s (.capture (captureBits s.log))
  { s with log := { s.log with captureIndex := index, captureBank := bank } }

/-- `LOGBOOK_READ` (R390). -/
def execLogbookRead (index : Fin 262144) (bank : Fin 2) (s : State) : Host.Outcome State Fault Refusal :=
  .next (logbookRead index bank s)

/-! ### At a start -/

/-- `POWER_ON_COUNT` of the newest ring record (R389): of the copy that a read takes. -/
def newestCount (lb : LogBook) : Nat :=
  leNat (((readIndex lb (ffSize + (lb.ringNext + ringSize - 1) % ringSize)).2.1.drop 8).take 4)

/-- The gauger resumes (R313, R389): at the block after the newest one that is reserved or that holds the newest record; the reservation
record is appended, and `EV_START` after it. -/
def resumeGauger (s : State) (warm : Bool) : State :=
  let s := stamp (reserveBlock s (max s.log.reservedBlock (s.log.newestSeq / 2 ^ 32) + 1))
  logNow s pgGlobal evStart none none 0
    ([BitVec.ofNat 8 (if warm then 1 else 0), 0, 0, 0] ++ leBytes 4 s.repair.fw.running ++ leBytes 4 (mapRecords s))

/-- `EV_START` is durable: none waits in the queue. -/
def startDurable (s : State) : Bool := !s.log.queue.any fun r => r.code = evStart

end Sys2Proof.Machine
end

