-- ==== Sys2Proof/Machine/Resets.lean ====
section
/-! DEFINITION. What a block reset keeps and loses (Table 20.4), and the requests of a block reset (R392, R400). -/
namespace Sys2Proof.Machine

/-! ### Registers -/

/-- The bits of a page's register that a warm reset keeps (Table 20.4): `CONFIG_DONE` and the registers of R394, caps, `HOLDUP_US`,
budgets, ring bases and sizes, quotas. -/
def keptBits (u : PageUnit) (off : Nat) : Word64 :=
  let all : Word64 := BitVec.allOnes 64
  match u with
  | .global => if off = 0x098 then all else 0
  | .pace => if off = 0x088 then 0xFFFF else if off = 0x090 then 0xFFFFFFFF else 0
  | .integrity => if off = 0x080 || off = 0x088 || off = 0x090 then all else 0
  | .tiers => if off = 0x080 || off = 0x088 then all else 0
  | .homes => if off = 0x080 then all else 0
  | .kiln => if off = 0x0C0 then all else 0
  | .train => if off = 0x088 then all else 0
  | .submitter => if off = 0x090 || off = 0x098 || off = 0x0D8 || off = 0x0E0 then all else if off = 0x0A0 then 0xFFFF else 0
  | _ => 0

/-- A register's value after a warm reset. -/
def warmValue (addr : Nat) (v : Word64) : Word64 :=
  let m := match pageUnit (addr / 0x1000) with
    | some (u, _) => keptBits u (addr % 0x1000)
    | none => 0
  (v &&& m) ||| (regReset addr &&& ~~~m)

/-- The registers after a warm reset. -/
def warmRegs (regs : Tab Word64) : Tab Word64 :=
  regs.foldl (fun t e => tset (regReset e.1) t e.1 (warmValue e.1 e.2)) []

/-! ### Units -/

/-- The cumulative counters of a tun (R112), which only a cold reset clears. -/
def warmTun (x : Tun) : Tun :=
  { handshakesRun := x.handshakesRun, partialIssues := x.partialIssues, tileWaits := x.tileWaits
    tagMismatches := x.tagMismatches, checksumMismatches := x.checksumMismatches }

/-- The counters of a splice port (R132). -/
def warmPort (x : Port) : Port :=
  { beatsIn := x.beatsIn, beatsOut := x.beatsOut, tagErrors := x.tagErrors, creditHolds := x.creditHolds
    spillRows := x.spillRows }

/-- The counters of a flash channel (R263). -/
def warmChannel (x : Channel) : Channel :=
  { ldpcSoft := x.ldpcSoft, ldpcHard := x.ldpcHard, ldpcFails := x.ldpcFails, peFails := x.peFails }

/-- The counters of a memory port (R449). -/
def warmMem (x : MemPort) : MemPort :=
  { readBytes := x.readBytes, writeBytes := x.writeBytes, retries := x.retries, errors := x.errors }

/-- Map a table's values, dropping those that become the default. -/
def mapTab {α : Type} [DecidableEq α] (d : α) (f : α → α) (t : Tab α) : Tab α :=
  t.filterMap fun e => if f e.2 = d then none else some (e.1, f e.2)

/-! ### The catalogue as the kiln holds it -/

/-- The versions of an adapter that a map has in full (R252); warm copies in T2 are gone. -/
def heldVersions (m : KilnMap) (epoch : Nat) (x : Adapter) : Adapter :=
  let vs := (x.versions.filter (m.whole epoch)).map fun v => { v with inT2 := false, inT4 := true, t4Gone := [] }
  { x with versions := vs, current := ((vs.head?).map (·.version)).getD x.current }

/-- A catalogue as a map holds it: adapters without a version in it are not there. -/
def heldCat (m : KilnMap) (c : Catalogue) : Catalogue :=
  { c with adapters := (c.adapters.map fun e => (e.1, heldVersions m c.epoch e.2)).filter fun e => !e.2.versions.isEmpty || e.2.retired }

/-- A staged catalogue as a map holds it: all of it, or nothing. -/
def heldStaged (m : KilnMap) (c : Option Catalogue) : Option Catalogue :=
  c.filter fun c => c.adapters.all fun e => e.2.versions.all (m.whole c.epoch)

/-- A `PUBLISH` whose journal record was programmed and which had not been published. -/
def heldPublish (cat : Catalogue) (p : PubPending) : Catalogue :=
  if p.held then
    let put := fun (x : Adapter) => { x with versions := { p.ver with inT4 := true, home := true } :: x.versions, lastPublish := p.ver.version }
    { cat with adapters := tput p.adapter (put (tget {} cat.adapters p.adapter)) cat.adapters }
  else cat

/-- The catalogue that the next mount finds (R252, R345): adapters homed here, their held versions; a purge or an epoch switch whose
journal record was not programmed has not happened. -/
def mountedCat (s : State) : Catalogue :=
  let undone := s.kiln.pending.any fun k => match k with
    | .epochSwitch .. => true
    | _ => false
  let base := if undone then s.catRetiring.getD s.cat else s.cat
  let unpurged := fun (a : AdapterId) => s.homes.purges.any fun p => p.adapter = a && !p.step1Held && s.kiln.ckpt.seq < p.seq
  let base := s.homes.publishes.foldl heldPublish base
  let settle := fun (e : Nat × Adapter) => (e.1, if unpurged e.1 then { e.2 with retired := false, retiredSeq := 0 } else e.2)
  let here := base.adapters.filter fun e => homeOf base e.1 = selfPeer s
  heldCat (replayMap s.kiln []) { base with adapters := here.map settle }

/-- The staged catalogue that the kiln holds: one whose staging has ended, or the one of a switch that was not recorded. -/
def mountedStaged (s : State) : Option Catalogue :=
  let undone := s.kiln.pending.any fun k => match k with
    | .epochSwitch .. => true
    | _ => false
  heldStaged (replayMap s.kiln [])
    (if undone && s.catRetiring.isSome then some s.cat else if s.staging.isSome then none else s.catStaged)

/-- The kiln's medium: what a reset leaves of it. -/
def kilnMedium (k : Kiln) : Kiln :=
  { dataGib := k.dataGib, blocks := k.blocks, pagesPerBlock := k.pagesPerBlock, layout := k.layout, pages := k.pages
    openData := k.openData, openSlc := k.openSlc, openJournal := k.openJournal, ckptA := k.ckptA, ckptB := k.ckptB, journal := k.journal
    superblocks := k.superblocks, readBase := k.readBase, opened := k.opened, memory := k.memory }

/-- The generations of the wrap keys after a reset (R260): a rotation that it cuts short has wrapped its tenant's records under the new key,
which is in force from there on (log entry 61). -/
def resetWrapGen (s : State) : Tab Nat := s.kiln.rotations.foldl (fun t r => tmod 0 t r.tenant (· + 1)) s.keys.wrapGen

/-- Directory changes that a peer has not acknowledged, or that a peer whose link is down is owed: it receives them on reconnection
(R211). -/
def owedAfterReset (s : State) : List (Nat × List DirEntry) :=
  let mine := fun (p : DirPending) => (p.entries.head?).any fun e => keyHomeOf s.cat e.tenant e.key = selfPeer s
  s.homes.dirOwed ++ (s.homes.dirPending.filter mine).flatMap fun p => p.waiting.map fun q => (q, p.entries)

/-- The power port's levels, which it keeps driving through a reset (R374, R444). -/
def paceLevels (p : Pace) : Pace :=
  { portCap := p.portCap, portCapRaw := p.portCapRaw, derate := p.derate, chipWarn := p.chipWarn, pfwLevel := p.pfwLevel }

/-- The boundary after a reset of the interior: ports' counters stand at a warm reset, and clocks are still present. -/
def warmBoundary (b : Boundary) : Boundary :=
  { b with mem := mapTab {} warmMem b.mem, xfers := [], memWaiting := [] }

/-- A fault that stays open through a warm reset: the level 7 that caused it. -/
def warmIntegrity (i : Integrity) : Integrity :=
  let faults := i.faults.filter fun f => f.object = .block
  let last := faults.any fun f => f.id = i.lastId
  { i with
    faults := faults
    lastId := if last then i.lastId else 0, lastObject := if last then i.lastObject else 0
    lastSource := if last then i.lastSource else 0, lastLevel := if last then i.lastLevel else 0
    lastFirst := if last then i.lastFirst else 0, selftestTun := none }

/-- The repair unit after a block reset: map, firmware slots, trims stand; repairs without a record are gone (R350). -/
def resetRepair (r : Repair) : Repair :=
  loadFirmware { mapA := r.mapA, mapB := r.mapB, badA := r.badA, badB := r.badB, trims := r.trims
                 fw := { slots := r.fw.slots, activeSlot := r.fw.activeSlot, staged := r.fw.staged, stagedOk := r.fw.stagedOk } }

/-- The interior is reset at a warm reset (step 3 of Table 20.3): every item that Table 20.4 does not list as kept returns to its
reset value. -/
def warmClear (s : State) : State :=
  { gauger := s.gauger
    log := { s.log with selCopy := 2, selData := [] }
    pages := mapTab {} (fun (h : PageHdr) => { h with snap := none }) s.pages
    regs := warmRegs s.regs
    ctxs := mapTab {} (fun (x : Ctx) => { x with front := none, inflight := [], posted := [], cqResv := 0, faultCause := 0 }) s.ctxs
    cat := { mountedCat s with shard := s.cat.shard }
    catStaged := mountedStaged s
    dir := { key0 := s.dir.key0, key1 := s.dir.key1 }
    dirStaged := s.dirStaged
    tenantRecs := s.tenantRecs
    tuns := mapTab {} warmTun s.tuns
    ports := mapTab {} warmPort s.ports
    cellar := { evictions := s.cellar.evictions, filterLosses := s.cellar.filterLosses, noSpaceAdmits := s.cellar.noSpaceAdmits
                corrected := s.cellar.corrected, uncorrectable := s.cellar.uncorrectable
                regionsRemapped := s.cellar.regionsRemapped }
    tiers := { chip := s.tiers.chip, fetchT2 := s.tiers.fetchT2, fetchT3 := s.tiers.fetchT3, fetchT4 := s.tiers.fetchT4 }
    train := { hp := s.train.hp, applied := s.train.applied, dropped := s.train.dropped }
    homes := { dirOwed := owedAfterReset s, farRowsServed := s.homes.farRowsServed, redirects := s.homes.redirects
               farRowsSent := s.homes.farRowsSent, msgDrops := s.homes.msgDrops }
    kiln := { kilnMedium s.kiln with
      phase := s.kiln.phase, channels := mapTab {} warmChannel s.kiln.channels, reconstructs := s.kiln.reconstructs
      crcFails := s.kiln.crcFails }
    integrity := warmIntegrity s.integrity
    repair := { resetRepair s.repair with retunes := s.repair.retunes, pairRestarts := s.repair.pairRestarts, pairs := s.repair.pairs }
    pace := { paceLevels s.pace with
      capUnmet := s.pace.capUnmet, sags := mapTab {} (fun (x : Sag) => { x with persisted := false }) s.pace.sags
      thermCap := s.pace.thermCap, thermActive := s.pace.thermActive, thermHalted := s.pace.thermHalted
      paceMhz := s.pace.paceMhz, vddMeas := s.pace.vddMeas, leakDw := s.pace.leakDw, restDw := s.pace.restDw
      interiorDw := s.pace.interiorDw, tjMax := s.pace.tjMax, tjSensor := s.pace.tjSensor }
    keys := { salts := s.keys.salts, wrapGen := resetWrapGen s, loadPair := s.keys.loadPair
              rotations := s.keys.rotations, unwrapFails := s.keys.unwrapFails }
    boundary := warmBoundary s.boundary
    fuses := s.fuses
    glob := { s.glob with tenantBuf := [] }
    outs := s.outs, freeCtr := s.freeCtr, pending := s.pending }

/-- Everything returns to its reset value but what Table 20.4 keeps through a cold reset: kiln contents, log book, repair map,
firmware slots, fuses and wrapped tenant keys. The levels at the ports stand. -/
def coldClear (s : State) : State :=
  { gauger := { seq := s.gauger.seq }
    log := { bank0 := s.log.bank0, bank1 := s.log.bank1, ringNext := s.log.ringNext, ffUsed := s.log.ffUsed
             ffNewest := s.log.ffNewest, newestSeq := s.log.newestSeq, reservedBlock := s.log.reservedBlock
             powerOnCount := s.log.powerOnCount, captureBank := s.log.captureBank, captureIndex := s.log.captureIndex }
    cat := { mountedCat s with shard := [] }
    catStaged := mountedStaged s
    dirStaged := s.dirStaged
    tiers := { chip := s.tiers.chip }
    homes := { dirOwed := owedAfterReset s }
    kiln := kilnMedium s.kiln
    repair := { resetRepair s.repair with trims := [] }
    pace := paceLevels s.pace
    keys := { wrapGen := resetWrapGen s, loadPair := s.keys.loadPair }
    boundary := { lastCause := s.boundary.lastCause }
    fuses := s.fuses
    glob := { powered := s.glob.powered, heldInReset := s.glob.heldInReset, resetPending := s.glob.resetPending }
    outs := s.outs, freeCtr := s.freeCtr, pending := s.pending }

/-! ### Requests -/

/-- A cold reset is requested, at any moment (R400). -/
def requestCold (s : State) (cause : Nat) : State := { s with glob := { s.glob with resetPending := some cause } }

/-- A pending request is for a cold reset: one of the cold causes of Table 23.13, or a warm one before the first `READY` (R400). -/
def coldPending (s : State) : Bool :=
  match s.glob.resetPending with
  | some c => c = 1 || c = 2 || c = 5 || !s.glob.everReady
  | none => false

/-- A warm reset is requested: without effect while one runs, or after a cold request (R400). -/
def requestWarm (s : State) (cause : Nat) : State :=
  if s.glob.warmStep ≠ 0 || coldPending s then s else { s with glob := { s.glob with resetPending := some cause } }

/-- Start-up fails at its step at the present event (R396): `START_FAIL`, a record that names the step, `START_FAILED`. -/
def startFailed (s : State) (code : Nat) : State :=
  let s := { s with glob := { s.glob with startFail := code, waitConfig := false } }
  let s := logNow s pgGlobal evFaultDetect none none 0 ([if code = 6 then 9 else 0, 0, 0, 0] ++ [BitVec.ofNat 8 s.glob.startStep, BitVec.ofNat 8 code])
  raise s pgGlobal 1

/-- Recovery level 7 (R336): the block's warm reset, under the given fault. Before the first `READY` it is a cold reset (R400). -/
def levelSeven (s : State) (id : Seq) (source first : Nat) : State :=
  let s := enterLevel s id .block source first 7
  requestWarm s 6

/-- A detection whose recovery is level 7. -/
def startSeven (s : State) (source : Nat) : State :=
  match openFault s .block with
  | some f => if f.level < 7 then levelSeven s f.id f.source f.first else s
  | none =>
    let s := newFault s .block source 7 []
    levelSeven s s.integrity.lastId source 7

/-! ### Core pairs -/

/-- A core pair changes state at the present event: `PAIR_STATE_CHANGE` (Table 22.9). -/
def setPair (s : State) (p : Nat) (st : PairState) : State :=
  if tget .down s.repair.pairs p = st then s
  else raise { s with repair := { s.repair with pairs := tset .down s.repair.pairs p st } } pgService 1

/-- A pair's restart begins; `PAIR_RESTARTS` counts it (Table 22.13). -/
def restartPair (s : State) (p : Nat) (st : PairState) : State :=
  let s := setPair s p st
  { s with repair := { s.repair with pairRestarts := tmod 0 s.repair.pairRestarts p fun n => sat 16 (n + 1) } }

end Sys2Proof.Machine
end

