-- ==== Sys2Proof/Machine/Starts.lean ====
section
/-! DEFINITION. Cold start and block warm reset (R392 to R400), and the reset inputs (R445). -/
namespace Sys2Proof.Machine

/-! ### The repair map in force (R349 to R351) -/

/-- The data of the records in force of a kind and object. -/
def mapData (s : State) (kind : MapKind) (object : Nat) : List (List Nat) :=
  ((mapInForce s).filter fun r => r.kind = kind && r.object = object).map (·.data)

/-- What the records say that a spare lane of a tun replaces. -/
def spareRecord (s : State) (t lane : Nat) : Option Nat :=
  ((mapData s .laneSpare t).find? fun d => d.head? = some lane).map fun d => d.getD 1 0

/-- A spare lane's logical lane and its source: 1 by fuse, 2 by the map. A fuse entry is the logical lane plus 1. -/
def spareUse (s : State) (t lane fused : Nat) : Option Nat × Nat :=
  match spareRecord s t lane with
  | some l => (some l, 2)
  | none => if fused = 0 then (none, 0) else (some (fused - 1), 1)

/-- Fuses and map applied to one tun (R351). -/
def applyTun (s : State) (t : Nat) (x : Tun) : Tun :=
  let a := spareUse s t 32 (tget 0 s.fuses.spare0 t)
  let b := spareUse s t 33 (tget 0 s.fuses.spare1 t)
  { x with
    spare0 := a.1, spare0Src := a.2, spare1 := b.1, spare1Src := b.2
    failedLanes := (mapData s .laneFailed t).map fun d => d.getD 0 0 }

/-- A tun that is, or is treated as, retired (R109, R351): by fuse, by a record, with a failed checksum lane, or needing more than two
spares. -/
def tunRetired (s : State) (t : Nat) : Bool :=
  let fused := (if tget 0 s.fuses.spare0 t = 0 then 0 else 1) + if tget 0 s.fuses.spare1 t = 0 then 0 else 1
  s.fuses.retired.contains t || !(mapData s .tunRetired t).isEmpty ||
    (mapData s .laneFailed t).any (fun d => d.head? = some 34) || 2 < fused + (mapData s .laneSpare t).length

/-- Spare rows of a bank in use, which are taken in order: those of the test and up to the highest that a record names (Table 8.14). One
that a row has moved on from stays in use. -/
def spareRowsOf (s : State) (bank : Nat) : Nat :=
  (mapData s .cellarRow bank).foldl (fun m d => max m (d.getD 1 0 + 1)) (tget 0 s.fuses.spareRows bank)

/-- Reserve regions in use, and the lowest free one: die × 8 + index, up to 32 (R166). -/
def reserveUsed (s : State) : List Nat :=
  ((mapInForce s).filter fun r => r.kind = .cellarRegion).map fun r => r.data.getD 0 0
def freeReserve (s : State) : Option Nat := (List.range 32).find? fun i => !(reserveUsed s).contains i

/-- The map applied at step 3 of a cold start or at a warm reset (R351): trims, remapped regions. A region counts once its record is
in force. -/
def applyMap (s : State) : State :=
  let trims := (mapInForce s).foldl (fun t r => if r.kind = .ageTrim then tset 0 t r.object (r.data.getD 0 0) else t) []
  { s with
    repair := { s.repair with trims }
    cellar := { s.cellar with regionsRemapped := (reserveUsed s).length } }

/-- Beyond 3,072 records, the standing record of each kind and object is rewritten in `MAP_SEQ` order into both copies (R350). -/
def compactMap (s : State) : State :=
  if mapRecords s ≤ 3072 then s
  else
    let rs := sortBy (fun a b => a.seq < b.seq) (standing (readMap s.repair))
    { s with repair := { s.repair with mapA := rs, mapB := rs, badA := [], badB := [] } }

/-- The log of an index at which both copies fail; its kind byte is the one that copy A holds. -/
def logMapBad (s : State) (i : Nat) : State :=
  logNow s pgRepair evMapRecordBad none none 0 (leBytes 2 i ++ leBytes 1 (((s.repair.mapA[i]?).map fun r => r.kind.code).getD 0))

/-- The map is read: the copies' bad records are found, and an index bad in both is skipped and logged (R348). No record of a reserved
kind (R349) is ever appended. -/
def readCopies (s : State) (r : StepResult) : State :=
  let s := { s with repair := { s.repair with badA := r.mapBadA, badB := r.mapBadB } }
  (((List.range (mapRecords s)).filter fun i => (mapAt s.repair i).isNone).foldl logMapBad s)

/-- The pairs load their firmware (R358). -/
def loadPairs (s : State) : State := { s with repair := loadFirmware s.repair }

/-! ### Steps shared by cold start and warm reset -/

/-- The outcome of the lane BIST on one tun: its state and its logical index. -/
def startTun (s : State) (bad : List Nat) (acc : State × Nat) (t : Nat) : State × Nat :=
  let u := setTun acc.1 t (applyTun s t (acc.1.tun t))
  if tunRetired s t then (setTunState u t .retired none, acc.2)
  else if bad.contains t then (setTunState u t .fenced none, acc.2)
  else if acc.2 < 64 then (setTunState u t .active (some acc.2), acc.2 + 1)
  else (setTunState u t .spare none, acc.2)

/-- Lane BIST on every tun, fences, and logical assignment in ascending number (R109), at the present event. -/
def startTuns (s : State) (bad : List Nat) : State :=
  raise ((List.range 68).foldl (startTun s bad) (s, 0)).1 pgIntegrity 2

/-- A failing region goes to the remap reserve; none when the reserve is full. -/
def startRegion (s : State) (die region : Nat) : Option State :=
  if !(mapData s .cellarRegion (die * 1024 + region)).isEmpty then some s
  else match freeReserve s with
    | some i => some (appendMap s .cellarRegion (die * 1024 + region) [i])
    | none => none

/-- A failing row goes to a spare row of its bank, or with its region to the reserve where none is left. -/
def startRow (s : State) (die bank row : Nat) : Option State :=
  let b := die * 128 + bank
  if (mapData s .cellarRow b).any fun d => d.head? = some row then some s
  else if spareRowsOf s b < 16 then some (appendMap s .cellarRow b [row, spareRowsOf s b])
  else startRegion s die (Config.cellarRegion bank row % 1024)

/-- The cellar after its test: failing rows and regions spared with their records, every codeword zero (Table 20.2, step 6). None where
more than 32 regions would be remapped. -/
def startCellar (s : State) (rows : List (Nat × Nat × Nat)) (regions : List (Nat × Nat)) : Option State :=
  let s1 := rows.foldl (fun (o : Option State) x => o.bind fun t => startRow t x.1 x.2.1 x.2.2) (some s)
  let s2 := regions.foldl (fun (o : Option State) x => o.bind fun t => startRegion t x.1 x.2) s1
  s2.map fun t => { t with cellar := { t.cellar with memory := [], regionsRemapped := (reserveUsed t).length } }

/-- The mount begins: the registers that R206, R240 and R262 open close (R394). -/
def beginMount (s : State) : State :=
  let s := { s with glob := { s.glob with waitConfig := false, mountBegun := true } }
  let s := { s with kiln := { s.kiln with channels := (List.range 32).map fun d => (d, { s.chan d with st := .training }) } }
  setKilnPhase s .mounting

/-- The channel of a device after the mount. -/
def mountedChan (s : State) (r : StepResult) (retired : List Nat) (d : Nat) : Channel :=
  let page := r.devices.find? fun p => p.channel = d
  { s.chan d with
    st := if retired.contains d then .retired else if page.isSome then .inService else .none
    mts := (page.map (·.mts)).getD 0, ces := (page.map (·.ces)).getD 0, timeouts := 0 }

/-- A device's geometry: bytes of a page and of its spare area, pages of a block, blocks. -/
def pageGeometry (p : DevicePage) : Nat × Nat × Nat × Nat := (p.mainBytes, p.spareBytes, p.pagesPerBlock, p.blocks)

/-- The device whose geometry the majority of the devices present has; on a tie, the lowest-numbered channel's (R241). -/
def majorityPage (ds : List DevicePage) : Option DevicePage :=
  let votes := fun (p : DevicePage) => (ds.filter fun q => pageGeometry q = pageGeometry p).length
  ds.foldl (fun (best : Option DevicePage) p => match best with
    | none => some p
    | some b => if votes b < votes p || (votes b = votes p && p.channel < b.channel) then some p else best) none

/-- Device acceptance (R241): the five conditions, on a package of the kind that a channel carries, 8 bits wide, with 1 to 4 chip enables
and up to 4 Tbit, trained to a rate from 800 to 3,600 MT/s. -/
def acceptable (m p : DevicePage) : Bool :=
  p.nvLpddr4 && p.mainBytes = 16384 && 2048 ≤ p.spareBytes && [1024, 2048, 4096, 8192].contains p.pagesPerBlock && pageGeometry p = pageGeometry m &&
    p.busWidth = 8 && p.ces ≤ 4 && 800 ≤ p.mts && p.mts ≤ 3600 && p.blocks * p.pagesPerBlock * p.mainBytes * 8 ≤ 4000000000000

/-- The devices that are present: a channel on which training found no chip enable carries none. -/
def devicesFound (ds : List DevicePage) : List DevicePage := ds.filter (0 < ·.ces)

/-- The channels whose devices the block accepts. -/
def acceptedDevices (ds : List DevicePage) : List Nat :=
  match majorityPage ds with
  | none => []
  | some m => (List.range 32).filter fun d => ds.any fun p => p.channel = d && acceptable m p

/-- Data capacity of 32 columns of the devices' size, parity and the other areas left out, in GiB (R244, R246). -/
def dataCapacity (deviceBytes : Nat) : Nat := deviceBytes * 30 * 9 / 10 / gib

/-- The adapter that the record of R345 names. -/
def noAdapter : AdapterId := 0xFFFFFF

/-- A mount that finds no close record follows a power loss without a warning: one `UPDATE_LOST` (R345). -/
def lostAtMount (s : State) : State :=
  if !s.kiln.opened then s
  else
    let s := { s with integrity := { s.integrity with updatesLost := sat 16 (s.integrity.updatesLost + 1) } }
    raise (logNow s pgIntegrity evUpdateLost none none 0 (leBytes 3 noAdapter)) pgIntegrity 4

/-- The commands by which a device is identified, set up and trained at the mount (Table 11.1). -/
def mountCmds : List OnfiCmd :=
  [.reset, .readId, .readParameterPage, .volumeSelect, .odtConfigure, .getFeatures, .getFeaturesByLun, .setFeaturesByLun, .zqLong, .readDqTraining,
    .writeTrainingTx, .writeTrainingRx]

/-- A superblock after the mount: the read counter of the checkpoint is raised by half of `DISTURB_LIMIT` (R256). -/
def mountedBlock (s : State) (c : Checkpoint) (e : Nat × Superblock) : Nat × Superblock :=
  (e.1, { e.2 with reads := tget c.readBase c.reads e.1 + regFld s pgKiln 0x098 0 32 / 2 })

/-- Devices whose column some superblock with data has. -/
def heldColumns (s : State) : List Nat := ((usedBlocks s).flatMap (·.2.columns)).eraseDups

/-- Device acceptance (R241, R257): the channels' states; devices that fail it, or that hold a column and do not answer, are retired. -/
def acceptDevices (s : State) (r : StepResult) : State :=
  let ds := devicesFound r.devices
  let good := acceptedDevices ds
  let old := ((mapInForce s).filter fun x => x.kind = .kilnRetired).map (·.object)
  let failed := (List.range 32).filter fun d => !good.contains d && ((heldColumns s).contains d || ds.any fun p => p.channel = d)
  let fresh := failed.filter fun d => !old.contains d
  let s := ds.foldl (fun s p => issueFlash s p.channel mountCmds) s
  let s := fresh.foldl (fun s d => appendMap s .kilnRetired d []) s
  { s with kiln := { s.kiln with channels := (List.range 32).map fun d => (d, mountedChan s { r with devices := ds } (old ++ fresh) d) } }

/-- The map is read from the newer valid checkpoint and the journal after it, and the catalogue with it (R252); erases that a reset or a
warning cut short are begun again (R261). -/
def readMedium (s : State) (r : StepResult) : State :=
  let k := s.kiln.readable r.ckptBad
  let c := k.ckpt
  let m := replayMap k r.journalBad
  let s := { s with
    kiln := { s.kiln with
      map := m, ckptA := k.ckptA, ckptB := k.ckptB, journal := replayRecords k r.journalBad
      superblocks := s.kiln.superblocks.map (mountedBlock s c), readBase := c.readBase + regFld s pgKiln 0x098 0 32 / 2 }
    cat := heldCat m s.cat, catStaged := heldStaged m s.catStaged }
  ((s.kiln.superblocks.filter (·.2.erasing)).map (·.1)).foldl startErase s

/-- Device acceptance and mount at the present event (R241, R252, R256, R257): columns that have not been rebuilt are still missing,
`EPOCH_IN_FORCE` is set. None where fewer than 4 devices are accepted, a stripe with data lacks more than two columns, or no checkpoint
is valid (Table 20.5). -/
def mountKiln (s : State) (r : StepResult) : Option State :=
  let s := acceptDevices s r
  if devicesInService s < 4 || lostStripes s || (s.kiln.readable r.ckptBad).newest.isNone then none
  else
    let page := (majorityPage (devicesFound r.devices)).getD {}
    let data := dataCapacity (page.blocks * page.pagesPerBlock * 16384)
    let blank := s.kiln.ckpt.seq = 0 && s.kiln.journal.isEmpty
    let s := lostAtMount s
    let s := { s with
      kiln := { s.kiln with
        dataGib := data, usableGib := usableWith data (32 - devicesInService s - (missingDevices s).length)
        rebuilding := !(missingDevices s).isEmpty, blocks := page.blocks, pagesPerBlock := page.pagesPerBlock
        layout := if blank then r.kilnLayout else s.kiln.layout, opened := true }
      cat := { s.cat with epoch := if blank then r.kilnEpoch else s.cat.epoch } }
    let s := readMedium s r
    some (setKilnPhase s (if s.kiln.rebuilding then .degraded else .inService))

/-- The directory that checkpoint and journal give (R212), as entries. -/
def replayDirectory (k : Kiln) : List DirEntry :=
  let put := fun (es : List DirEntry) (e : DirEntry) =>
    let rest := es.filter fun x => ¬ (x.key = e.key ∧ x.tenant = e.tenant)
    if e.kind = .none then rest else rest ++ [{ e with prevKind := .none, prevTarget := 0, prevLog2 := 0 }]
  (replayRecords k []).foldl (fun es j => match j.kind with
    | .directory _ _ new => new.foldl put es
    | .epochSwitch _ dir => dir
    | _ => es) k.ckpt.directory

/-- A directory of the given entries under a directory key. An entry that finds no place within 128 displacements is left out and the step
completes: the model's choice, for the spec says no more than that every entry is placed (log entry 54). -/
def placeEntries (d : Directory) (ctr : Nat) (es : List DirEntry) : Directory × Nat :=
  es.foldl (fun acc e => if e.kind = .none then acc else (dirInsert acc.1 acc.2 e).getD acc) (d, ctr)

/-- The key directory is rebuilt (R89, R212), under a key drawn afresh at a cold start (R70); a staged directory is placed again under
the same key. -/
def rebuildDirectory (s : State) (fresh : Bool) : State :=
  let k0 := if fresh then Config.freeWord s.freeCtr else s.dir.key0
  let k1 := if fresh then Config.freeWord (s.freeCtr + 1) else s.dir.key1
  let base : Directory := { key0 := k0, key1 := k1, refusals := s.dir.refusals }
  let a := placeEntries base (s.freeCtr + 2) (replayDirectory s.kiln)
  let b := placeEntries { key0 := k0, key1 := k1 } a.2 (s.dirStaged.buckets.flatMap (·.2))
  { s with dir := a.1, dirStaged := if s.catStaged.isSome then b.1 else {}, freeCtr := b.2 }

/-- The last step (R204, R395): the regime event, unless `TEST_HOLD` is 1, and `READY`; fallback and basis casks are admitted. -/
def becomeReady (s : State) : State :=
  let s := { s with glob := { s.glob with ready := true, everReady := true, startStep := 0xA, warmStep := 0 } }
  let s := if s.tiers.testHold then s else leaveSingleHome { s with tiers := { s.tiers with testHoldLeaving := true } }
  let s := endFault (raise s pgGlobal 0) .block
  seekKept (refreshHolds (pinAdmits s))

/-- The four core pairs serve, at the present event. -/
def servePairs (s : State) : State := (List.range 4).foldl (fun s p => setPair s p .serving) s

/-! ### Cold start -/

/-- Step 1 begins (R393, R389): everything that a cold reset loses is gone, the log writer has found the newest record, the gauger
has resumed. The load key pair is drawn (Table 21.2). -/
def coldStart (s : State) : State :=
  if !s.glob.powered || s.glob.heldInReset || !coldPending s then s
  else
    let cause := s.glob.resetPending.getD 0
    let s := capEvent (coldClear s)
    let s := { s with
      glob := { s.glob with resetPending := none }
      boundary := { s.boundary with lastCause := cause }
      log := { s.log with powerOnCount := (newestCount s.log + 1) % 2 ^ 32, crcFails := drawChoice s % 39 }
      keys := { s.keys with loadPair := s.keys.loadPair + 1, pubValid := true } }
    resumeGauger (bumpFree s) false

/-- `COLD_START` (R393). -/
def execColdStart (s : State) : Host.Outcome State Fault Refusal := .next (coldStart s)

/-- The failure codes of Table 20.5 that a step can meet. -/
def failAllowed (step code : Nat) : Bool :=
  (code = 2 && step = 2) || (code = 3 && step = 3) || (code = 4 && step = 6) || (code = 5 && step = 7) || code = 6

/-- A cold start runs and its step may complete. -/
def coldRunning (s : State) : Bool :=
  s.glob.powered && !s.glob.heldInReset && s.glob.resetPending.isNone && !s.glob.ready && s.glob.startStep ≤ 9 &&
    s.glob.startFail = 0 && !s.glob.waitConfig && !s.pace.pfw

/-- `START_STEP` moves on. -/
def toStep (s : State) (n : Nat) : State := { s with glob := { s.glob with startStep := n } }

/-- Step 6 has ended: step 7 begins at once, or waits for `CONFIG_DONE` (R394). -/
def enterSeven (s : State) : State :=
  let s := toStep s 7
  if regFld s pgGlobal 0x098 0 1 = 1 then beginMount s else { s with glob := { s.glob with waitConfig := true } }

/-- The step that runs completes at the present event. -/
def coldStepDone (s : State) (r : StepResult) : State :=
  match s.glob.startStep with
  | 1 => toStep s 2
  | 2 => toStep s 3
  | 3 => toStep (servePairs (applyMap (compactMap (loadPairs (readCopies s r))))) 4
  | 4 => toStep { s with gauger := { s.gauger with calibrated := BitVec.allOnes 64, refClockOk := true } } 5
  | 5 => toStep (startTuns s r.badTuns) 6
  | 6 => match startCellar s r.badRows r.badRegions with
    | some t => enterSeven t
    | none => startFailed s 4
  | 7 => match mountKiln s r with
    | some t => toStep t 8
    | none => startFailed s 5
  | 8 => toStep (rebuildDirectory s true) 9
  | 9 => becomeReady s
  | _ => s

/-- A cold-start step ends (R393, R396): complete, or failed with a code of Table 20.5. Step 1 is not over before `EV_START` is
durable, step 4 not without the reference clock (R320). -/
def startStepComplete (r : StepResult) (s : State) : State :=
  if !coldRunning s then s
  else if r.failCode ≠ 0 then
    let found := if r.failCode = 6 then sat 32 (s.gauger.compareFaults + 1) else s.gauger.compareFaults
    if failAllowed s.glob.startStep r.failCode then startFailed { stamp s with gauger := { (stamp s).gauger with compareFaults := found } } r.failCode
    else s
  else if (s.glob.startStep = 1 && !startDurable s) || (s.glob.startStep = 4 && !domainPresent s 209) then s
  else coldStepDone (stamp s) r

/-- `START_STEP_COMPLETE` (R393). -/
def execStartStepComplete (result : StepResult) (s : State) : Host.Outcome State Fault Refusal :=
  .next (startStepComplete result s)

/-- `STARTUP_TIMEOUT` (R396); the wait of R394 never fails. -/
def execStartupTimeout (s : State) : Host.Outcome State Fault Refusal :=
  .next (if coldRunning s then startFailed (stamp s) 1 else s)

/-- The refusals of `CONFIG_DONE` (R394, R428): no change once step 7 has begun; not 1 while `T2_SIZE_GIB` is 0. -/
def configDoneCheck (v : Word64) (s : State) : Option Nat :=
  if s.glob.mountBegun && fld v 0 1 ≠ regFld s pgGlobal 0x098 0 1 then some stBadState
  else if fld v 0 1 = 1 && regFld s pgTiers 0x088 0 11 = 0 then some stBadField
  else none

/-- An accepted write of `CONFIG_DONE`: a start that waits at step 7 goes on (R394). -/
def configDoneSet (v : Word64) (s : State) : State :=
  let s := storeReg pgGlobal 0x098 v s
  if fld v 0 1 = 1 && s.glob.waitConfig then beginMount s else s

/-- `CONFIG_DONE_WRITE` (R394). -/
def execConfigDoneWrite (value : Word64) (role : Role) (s : State) : Host.Outcome State Fault Refusal :=
  .next (busWrite pgGlobal 0x098 value role (configDoneCheck value) (configDoneSet value) s)

/-! ### Warm reset -/

/-- The context is torn down by a block reset (Table 20.3, step 1). -/
def warmCtx (s : State) (c : Nat) : State :=
  if (s.ctx c).st = .down || (s.ctx c).st = .resetting then s else resetCtx (stamp s) c

/-- Step 1 of Table 20.3 at the present event: issue has halted, every context goes to `DOWN`, far gyles end. -/
def warmBegin (s : State) (cause : Nat) : State :=
  let s := { s with
    glob := { s.glob with ready := false, startStep := 0xB, warmStep := 1, resetPending := none }
    boundary := { s.boundary with warmResets := sat 32 (s.boundary.warmResets + 1), lastCause := cause } }
  let s := (List.range 64).foldl warmCtx s
  (s.gyles.filter fun g => g.key.far).foldl (fun s g => releaseGyle (clearWork s g.key) g.key) s

/-- A warm reset begins where one is pending and the block has been ready since its last cold reset (R392, R400). -/
def warmReset (s : State) : State :=
  match s.glob.resetPending with
  | none => s
  | some cause => if !s.glob.powered || s.glob.heldInReset || coldPending s || s.glob.warmStep ≠ 0 then s else warmBegin (stamp s) cause

/-- `WARM_RESET` (R398). -/
def execWarmReset (s : State) : Host.Outcome State Fault Refusal := .next (warmReset s)

/-- Erases in flight are aborted with Reset LUN (R261, step 2). -/
def abortErases (s : State) : State :=
  let columns := ((s.kiln.superblocks.filter (·.2.erasing)).flatMap (·.2.columns)).eraseDups
  columns.foldl (fun t d => issueFlash t d [.resetLun]) s

/-- A waiting job is done before the close record: its tensors into the SLC-mode region, the reserve included, each with its journal record
at an event of its own; or its record alone. What is being staged is abandoned (log entry 61). -/
def closeWith (s : State) (k : JournalKind) : State :=
  match k with
  | .staged _ => s
  | _ =>
    let s := (jobWrites s k).foldl (fun t w => writeTensor (stamp t) k w.1 w.2.1 w.2.2) s
    markHeld (if k.hasData then s else putRecord (stamp s) k) k

/-- Tensors that a fetch of the single-home regime took out of T4 go back there (R204, log entry 61). -/
def closeMoved (s : State) : State :=
  s.cat.stored.foldl (fun t x => backToT4 t s.cat.epoch x.1 x.2.version x.2.t4Gone) s

/-- Every dirty tensor and state array is written with its journal records, and the close record after them: the kiln is closed
(Table 20.3, step 2; R261). A checkpoint that runs is abandoned (R251). -/
def closeKiln (s : State) : State :=
  let todo := s.kiln.pending ++ (s.train.dirty.filter fun d => !dirtyInT4 s d && !s.kiln.pending.contains (.dirty d.adapter d.version)).map
    fun d => JournalKind.dirty d.adapter d.version
  let s := stamp (todo.foldl closeWith (closeMoved (abortErases s)))
  let s := journalPut { s with kiln := { s.kiln with pending := [] } } { seq := s.gauger.seq, kind := .close }
  let s := { s with
    train := { s.train with dirty := [] }
    kiln := { s.kiln with ckptRunning := none, opened := false } }
  setKilnPhase s .closed

/-- Every context is `DOWN`. -/
def allDown (s : State) : Bool := s.ctxs.all fun e => e.2.st = .down

/-- The step of Table 20.3 that runs may complete: not after a stop (R336), nor while a power-failure warning is handled (R400). -/
def warmRunning (s : State) : Bool := s.glob.warmStep ≠ 0 && !s.integrity.stopped && !s.pace.pfw && s.glob.resetPending.isNone

/-- `WARM_STEP` moves on. -/
def toWarm (s : State) (n : Nat) : State := { s with glob := { s.glob with warmStep := n } }

/-- The kiln's part of step 2: nothing where it is closed already. -/
def warmClose (s : State) : State := if kilnServes s then closeKiln s else s

/-- A step of a warm reset completes (Table 20.3). A step that cannot complete leaves the reset to its budget (R398). -/
def warmStepComplete (r : StepResult) (s : State) : State :=
  if !warmRunning s || r.failCode ≠ 0 then s
  else match s.glob.warmStep with
    | 1 => if allDown s then toWarm (stamp s) 2 else s
    | 2 => toWarm (resumeGauger (capEvent (warmClear (warmClose (stamp s)))) true) 3
    | 3 => if startDurable s then toWarm (servePairs (applyMap (loadPairs (readCopies (stamp s) r)))) 4 else s
    | 4 => toWarm (startTuns (stamp s) r.badTuns) 5
    | 5 => match startCellar (stamp s) r.badRows r.badRegions with
      | some t => toWarm (beginMount t) 6
      | none => s
    | 6 => match mountKiln (stamp s) r with
      | some t => toWarm t 7
      | none => s
    | 7 => toWarm (rebuildDirectory (stamp s) false) 8
    | _ => becomeReady (stamp s)

/-- `WARM_STEP_COMPLETE` (R398). -/
def execWarmStepComplete (result : StepResult) (s : State) : Host.Outcome State Fault Refusal :=
  .next (warmStepComplete result s)

/-! ### Requests and inputs -/

/-- `BLOCK_WARM_RESET_CMD` (R392, R428). -/
def execBlockWarmResetCmd (role : Role) (s : State) : Host.Outcome State Fault Refusal :=
  .next (busWrite pgGlobal 0x090 1 role (fun _ => none) (fun s => requestWarm s 4) s)

/-- `BLOCK_COLD_RESET_CMD` (R393, R428). -/
def execBlockColdResetCmd (role : Role) (s : State) : Host.Outcome State Fault Refusal :=
  .next (busWrite pgGlobal 0x090 2 role (fun _ => none) (fun s => requestCold s 5) s)

/-- `RST_WARM_n` has been low for 100 ns (Table 23.9). -/
def execRstWarmRequest (s : State) : Host.Outcome State Fault Refusal :=
  .next (if !s.glob.powered || s.glob.heldInReset then s else requestWarm (stamp s) 3)

/-- Power-good rises: a cold start is due, unless `RST_COLD_n` holds the block (Table 23.9). -/
def pwrGoodRise (s : State) : State :=
  if s.glob.powered then s
  else
    let s := { s with glob := { s.glob with powered := true } }
    if s.glob.heldInReset then s else requestCold s 1

/-- `PWR_GOOD_RISE` (R393). -/
def execPwrGoodRise (s : State) : Host.Outcome State Fault Refusal := .next (pwrGoodRise s)

/-- Power-good falls: the block stops at once, and only what stands in MRAM, fuses and flash is left (R445). -/
def pwrGoodFall (s : State) : State :=
  if !s.glob.powered then s
  else
    let s := capEvent (coldClear s)
    { s with glob := { s.glob with powered := false, resetPending := none } }

/-- `PWR_GOOD_FALL` (R445). -/
def execPwrGoodFall (s : State) : Host.Outcome State Fault Refusal := .next (pwrGoodFall s)

/-- `RST_COLD_n` goes low and holds the block in cold reset (R400, R445). -/
def rstColdAssert (s : State) : State :=
  if s.glob.heldInReset then s
  else
    let s := capEvent (coldClear s)
    { s with glob := { s.glob with heldInReset := true, resetPending := none } }

/-- `RST_COLD_ASSERT` (R445). -/
def execRstColdAssert (s : State) : Host.Outcome State Fault Refusal := .next (rstColdAssert s)

/-- `RST_COLD_n` rises: a cold start is due where there is power. -/
def rstColdRelease (s : State) : State :=
  if !s.glob.heldInReset then s
  else
    let s := { s with glob := { s.glob with heldInReset := false } }
    if s.glob.powered then requestCold s 2 else s

/-- `RST_COLD_RELEASE` (R445). -/
def execRstColdRelease (s : State) : Host.Outcome State Fault Refusal := .next (rstColdRelease s)

end Sys2Proof.Machine
end

