-- ==== Sys2Proof/Machine/Upkeep.lean ====
section
/-! DEFINITION. Repair, ageing and live update (R351 to R360): readmission of a tun, region remap, core pairs and their firmware, ageing
monitors. -/
namespace Sys2Proof.Machine

/-! ### Readmission of a tun (Table 17.4) -/

/-- `TUN_CMD` 0b10 is for a tun in `FENCED` (Table 5.6), and not during a block reset (R400). -/
def readmitCheck (t : Nat) (s : State) : Option Nat :=
  if (s.tun t).st ≠ .fenced || inBlockReset s then some stBadState else none

/-- A local reset with fuses and map applied, and the BIST that follows it (R351): the tun passes through `RESETTING` to `BIST`. -/
def resetAndTest (s : State) (t step : Nat) : State :=
  let s := setTunState s t .resetting none
  let s := setTunState (stamp s) t .bist none
  modTun s t fun x => { applyTun s t x with readmitStep := step, selfTest := false }

/-- `TUN_READMIT` (R355): steps 1 to 3 begin. -/
def execTunReadmit (t : Fin 68) (role : Role) (s : State) : Host.Outcome State Fault Refusal :=
  .next (busWrite (pgTun t) 0x088 2 role (readmitCheck t) (fun s => resetAndTest s t 3) s)

/-- Physical lanes that a BIST found failing and that the tun uses or keeps for use: not one that a spare replaces, not one already
recorded. -/
def newFailures (x : Tun) (found : BistResult) : List Nat :=
  found.lanes.filter fun l => !(x.failedLanes.contains l) && x.spare0 ≠ some l && x.spare1 ≠ some l

/-- The logical lane that a physical lane serves. -/
def laneServed (x : Tun) (l : Nat) : Option Nat :=
  if l < 32 then some l else if l = 32 then x.spare0 else if l = 33 then x.spare1 else none

/-- Unused spare lanes that have not failed. -/
def openSpares (x : Tun) (bad : List Nat) : List Nat :=
  ([32, 33].filter fun l => (laneServed x l).isNone && !bad.contains l && !x.failedLanes.contains l)

/-- The records of a repair: each failing lane, and each spare that replaces a logical lane. -/
def spareLanes (s : State) (t : Nat) (bad : List Nat) (pairs : List (Nat × Nat)) : State :=
  let s := bad.foldl (fun s l => appendMap s .laneFailed t [l]) s
  pairs.foldl (fun s p => appendMap s .laneSpare t [p.1, p.2]) s

/-- A readmission that cannot succeed: the tun stays `FENCED` (Table 17.4, steps 4 and 7). -/
def stayFenced (s : State) (t : Nat) : State := setTunState (modTun s t fun x => { x with readmitStep := 0 }) t .fenced none

/-- A tun is retired in service: recorded, and `FENCED` until the next cold start (R355). -/
def retireTun (s : State) (t : Nat) : State :=
  stayFenced (appendMap s .tunRetired t []) t

/-- The tun passes: it enters `SPARE`, or takes a vacant index; a readmission raises `CAPACITY` (R346). -/
def passTun (s : State) (t : Nat) : State :=
  let u := enterSpare (modTun s t fun x => { x with readmitStep := 0, selfTest := false, untested := 0 }) t
  if (s.tun t).selfTest then u else raise u pgIntegrity 2

/-- Step 4 of Table 17.4. -/
def diagnose (s : State) (t : Nat) (found : BistResult) : State :=
  let x := s.tun t
  let bad := newFailures x found
  let lost := bad.filterMap (laneServed x)
  let spares := openSpares x bad
  if tunRetired s t then stayFenced s t
  else if bad.contains 34 || found.other || spares.length < lost.length then retireTun s t
  else if bad.isEmpty then passTun s t
  else resetAndTest (spareLanes s t bad (spares.zip lost)) t 6

/-- A tun's BIST ends (R332, R355). -/
def bistDone (t : Nat) (found : BistResult) (s : State) : State :=
  let x := s.tun t
  if x.st ≠ .bist then s
  else
    let s := stamp s
    let clean := (newFailures x found).isEmpty && !found.other
    if x.selfTest then (if clean then passTun s t else fenceTun s t 0x08)
    else if x.readmitStep = 3 then diagnose s t found
    else if clean then passTun s t else stayFenced s t

/-- `TUN_BIST_DONE` (R355). -/
def execTunBistDone (t : Fin 68) (found : BistResult) (s : State) : Host.Outcome State Fault Refusal := .next (bistDone t found s)

/-! ### Region remap (Table 17.6) -/

/-- A remap begins (R356): one at a time; it waits while core pair 0 is away. -/
def beginRemap (s : State) (die region : Nat) (fault : Seq) : State :=
  if s.repair.remap.isSome || pairAway s 0 then
    { s with repair := { s.repair with remapWaiting := s.repair.remapWaiting ++ [(die, region, fault)] } }
  else match freeReserve s with
    | some i => { s with repair := { s.repair with remap := some { die, region, reserve := i, fault } } }
    | none => s

/-- The oldest remap that waits begins. -/
def nextRemap (s : State) : State :=
  match s.repair.remapWaiting with
  | [] => s
  | x :: rest =>
    if s.repair.remap.isSome || pairAway s 0 then s
    else beginRemap { s with repair := { s.repair with remapWaiting := rest } } x.1 x.2.1 x.2.2

/-- The reserve holds 32 regions, those of remaps that wait or run among them. -/
def reserveFull (s : State) : Bool :=
  32 ≤ (reserveUsed s).length + s.repair.remapWaiting.length + (if s.repair.remap.isSome then 1 else 0)

/-- Recovery level 5 for a region (R336): at once level 7 when the reserve is full. -/
def levelFive (s : State) (die region source : Nat) : State :=
  let o := FaultObject.region (die * 1024 + region)
  match openFault s o with
  | some _ => s
  | none =>
    let s := startFault s o source 5 []
    let id := s.integrity.lastId
    if reserveFull s then levelSeven s id source 5 else beginRemap s die region id

/-- The write of `REPAIR_CMD` (Table 17.11). -/
def remapValue (die region : Nat) : Word64 := BitVec.ofNat 64 (2 ^ 32 + die * 2 ^ 10 + region)

/-- The refusals of a maintenance remap (R356, R400); a region whose remap waits counts as remapped. -/
def remapCheck (die region : Nat) (s : State) : Option Nat :=
  if inBlockReset s || s.repair.remapWaiting.any (fun x => x.1 = die && x.2.1 = region) || !(mapData s .cellarRegion (die * 1024 + region)).isEmpty || s.repair.remap.isSome ||
      s.integrity.faults.any (fun f => f.level = 5) then some stBadState
  else if reserveFull s then some stNoSpace
  else none

/-- `REPAIR_REMAP` (R356). -/
def execRepairRemap (die : Fin 4) (region : Fin 1024) (role : Role) (s : State) : Host.Outcome State Fault Refusal :=
  .next (busWrite pgRepair 0x088 (remapValue die region) role (remapCheck die region)
    (fun s => beginRemap (storeReg pgRepair 0x088 (remapValue die region) s) die region 0) s)

/-- The last step: the casks leave the single-home regime, the region counts, the fault ends. -/
def remapOver (s : State) (r : Remap) : State :=
  let s := leaveRegion s
  let s := { s with
    repair := { s.repair with remap := none }
    cellar := { s.cellar with regionsRemapped := min 32 (s.cellar.regionsRemapped + 1) } }
  nextRemap (endFault s (.region (r.die * 1024 + r.region)))

/-- A step of the remap completes (Table 17.6). The tensors found are at step 1 those that the region holds, at step 3 the
dirty ones that cannot be read; the scratch slices are the tun partials of the region's scratch pages. Step 5 is not over while a tensor is still to
be refilled. A power-failure warning stops the remap after its current step (R379). -/
def remapStep (found : RegionFinds) (s : State) : State :=
  let xs := found.items.map fun x => (x.1.val, x.2)
  match s.repair.remap with
  | none => s
  | some r =>
    if r.step = 5 && r.items.any (refilling s) then s
    else
    let s := stamp s
    let next := { s with repair := { s.repair with remap := some { r with step := r.step + 1 } } }
    let stop := fun (t : State) => if t.pace.pfw then { t with repair := { t.repair with remap := none, remapWaiting := [] } } else t
    match r.step with
    | 1 => stop (enterRegion { next with repair := { next.repair with remap := some { r with step := 2, items := xs } } } xs)
    | 2 => stop (quietRegion next r.items)
    | 3 => stop (copyRegion next r.items xs)
    | 4 =>
      let lost := found.scratch.filterMap fun n => s.train.scratch[n]?
      stop (appendMap (replaySlices (refillRegion next r.items) lost) .cellarRegion (r.die * 1024 + r.region) [r.reserve])
    | 6 => remapOver s r
    | _ => stop next

/-- `REGION_REMAP_STEP_DONE` (R356). -/
def execRegionRemapStepDone (found : RegionFinds) (s : State) : Host.Outcome State Fault Refusal :=
  .next (remapStep found s)

/-! ### Core pairs and firmware (R330, R358 to R360) -/

/-- Change the firmware record. -/
def modFw (s : State) (f : Firmware → Firmware) : State := { s with repair := { s.repair with fw := f s.repair.fw } }

/-- Some pair restarts at level 6: the activation is held (R360). -/
def pairFaulted (s : State) : Bool := s.repair.pairs.any fun e => e.2 = .restarting

/-- A pair restarts for the activation, on the given image version; it is logged and is no fault (R360). -/
def updateRestart (s : State) (p version : Nat) : State :=
  let s := restartPair (modFw s fun f => { f with pairNow := some p }) p .activating
  logNow s pgRepair evFwRestart none none 0 ([BitVec.ofNat 8 p, 0, 0, 0] ++ leBytes 4 version)

/-- The activation ends: the pairs run one image. -/
def endActivation (s : State) (status : Nat) : State :=
  modFw s fun f => { f with
    busy := false, activating := false, rollback := false, todo := [], done := [], pairNow := none, status }

/-- Steps 4 and 5 of Table 17.9. -/
def commitFirmware (s : State) : State :=
  let f := s.repair.fw
  let slot := 1 - f.activeSlot
  let s := appendMap s .fwSlot 0 ([slot, 0, 0, 0] ++ (leBytes 4 f.staged).map (·.toNat))
  let s := modFw s fun f => { f with activeSlot := slot, running := f.staged, staged := 0, stagedOk := false }
  raise (endActivation s stDone) pgRepair 1

/-- The next pair of an activation, forward on the staged image or back on the old one; one pair at a time (R359, R360). A
power-failure warning ends the activation after the pair in restart. -/
def nextFw (s : State) : State :=
  let f := s.repair.fw
  if !f.activating || pairFaulted s || f.pairNow.isSome then s
  else if s.pace.pfw then endActivation s stCancelled
  else if f.rollback then match f.done with
    | [] => endActivation s stCancelled
    | p :: rest => updateRestart (modFw s fun f => { f with done := rest }) p f.running
  else match f.todo with
    | [] => commitFirmware s
    | p :: rest => updateRestart (modFw s fun f => { f with todo := rest }) p f.staged

/-- What a pair that serves again takes up (Table 16.2): waiting remaps, queued messages. -/
def pairBack (s : State) (p : Nat) : State :=
  if p = 0 then nextRemap s else if p = 2 then runMessages s else s

/-- Recovery level 6 for a pair (R330): a level 6 during a block reset is folded into it (R400). One that meets the pair's update
restart turns the activation back (R360). -/
def levelSix (s : State) (p source : Nat) : State :=
  if inBlockReset s || tget .down s.repair.pairs p = .restarting then s
  else
    let s := startFault s (.pair p) source 6 []
    let s := if s.repair.fw.pairNow = some p then modFw s fun f => { f with rollback := true, pairNow := none } else s
    restartPair s p .restarting

/-- A pair ends its restart (R330, R360). Failing its self-check at level 6, it does not complete the level: its budget decides. -/
def pairRestartDone (p : Nat) (passed : Bool) (s : State) : State :=
  let f := s.repair.fw
  match tget .down s.repair.pairs p with
  | .restarting =>
    if !passed then s
    else
      let s := endFault (setPair (stamp s) p .serving) (.pair p)
      nextFw (pairBack s p)
  | .activating =>
    if f.pairNow ≠ some p then s
    else
      let s := stamp s
      if passed then
        let s := setPair (modFw s fun f => { f with pairNow := none, done := if f.rollback then f.done else p :: f.done }) p .serving
        nextFw (pairBack s p)
      else updateRestart (modFw s fun f => { f with rollback := true }) p f.running
  | _ => s

/-- `PAIR_RESTART_DONE` (R330). -/
def execPairRestartDone (pair : Fin 4) (passed : Bool) (s : State) : Host.Outcome State Fault Refusal :=
  .next (pairRestartDone pair passed s)

/-- The write of `FW_CTRL` (Table 17.16). -/
def fwValue (op : Nat) (bytes : BitVec 32) : Word64 := BitVec.ofNat 64 (op * 2 ^ 32 + bytes.toNat)

/-- `FW_OP` 0b01 is refused during an activation (R361). -/
def fwStageCheck (s : State) : Option Nat := if s.repair.fw.activating then some stBadState else none

/-- Staging begins: the inactive slot is overwritten (R359). -/
def fwStageStart (bytes : BitVec 32) (s : State) : State :=
  modFw (storeReg pgRepair 0x0B0 (fwValue 1 bytes) s) fun f =>
    { f with busy := true, staged := 0, stagedOk := false }

/-- `FW_STAGE` (R359). -/
def execFwStage (bytes : BitVec 32) (role : Role) (s : State) : Host.Outcome State Fault Refusal :=
  .next (busWrite pgRepair 0x0B0 (fwValue 1 bytes) role fwStageCheck (fwStageStart bytes) s)

/-- Bytes 0 to 19 of an image's header, its signature and its body (Table 17.8). -/
def imageBytes (i : FwImage) : List Byte :=
  leBytes 4 i.version ++ leBytes 4 i.minCompat ++ leBytes 4 i.bytes ++ leBytes 8 i.crc.toNat ++ i.signature ++ i.body

/-- The checks of a staged image (R359). -/
def imagePasses (s : State) (i : FwImage) : Bool :=
  4096 ≤ i.bytes && i.bytes ≤ 2097152 && i.bytes = regFld s pgRepair 0x0B0 0 32 && i.reservedClear &&
    i.body.length + 256 = i.bytes && crc64 i.body = i.crc && Config.firmwareSignatureOk (imageBytes i) &&
    i.minCompat ≤ s.repair.fw.running

/-- Staging ends: the image stands in the slot that is not active, and its checks set `FW_STATUS` (R359). -/
def fwStageDone (i : FwImage) (s : State) : State :=
  let f := s.repair.fw
  if !f.busy || f.activating then s
  else
    let s := stamp s
    let ok := imagePasses s i
    modFw s fun f => { f with
      busy := false, slots := tset {} f.slots (1 - f.activeSlot) i, stagedOk := ok, staged := if ok then i.version else 0
      status := if ok then stDone else stBadField }

/-- `FW_STAGE_DONE` (R359). -/
def execFwStageDone (image : FwImage) (s : State) : Host.Outcome State Fault Refusal := .next (fwStageDone image s)

/-- `FW_OP` 0b10 is refused with no image staged with `DONE` (R361), and while an operation runs. -/
def fwActivateCheck (s : State) : Option Nat :=
  if s.repair.fw.busy || !s.repair.fw.stagedOk then some stBadState else none

/-- The activation begins: pairs 0, 2, 3 and 1 in turn (Table 17.9). -/
def fwActivateStart (bytes : BitVec 32) (s : State) : State :=
  nextFw (modFw (storeReg pgRepair 0x0B0 (fwValue 2 bytes) s) fun f =>
    { f with busy := true, activating := true, todo := [0, 2, 3, 1], done := [], rollback := false })

/-- `FW_ACTIVATE` (R359). -/
def execFwActivate (bytes : BitVec 32) (role : Role) (s : State) : Host.Outcome State Fault Refusal :=
  .next (busWrite pgRepair 0x0B0 (fwValue 2 bytes) role fwActivateCheck (fwActivateStart bytes) s)

/-! ### Ageing (R352 to R354) -/

/-- `AGE_TRIM` of a group. -/
def trimOf (s : State) (g : Nat) : Nat := tget 0 s.repair.trims g

/-- A group at trim 16 whose margin is too small (R354): a tun is fenced and retired, another group counts and serves on. -/
def ageLimit (s : State) (g : Nat) : State :=
  if g < 68 then
    let s := fenceTun (raise s pgRepair 0) g 0x08
    appendMap s .tunRetired g []
  else if s.repair.limitGroups.contains g then s
  else raise { s with repair := { s.repair with limitGroups := s.repair.limitGroups ++ [g] } } pgRepair 0

/-- A group's margin is measured, in 1/1,024 of its nominal matched delay (R352, R353); a tun only in its self-test slot. -/
def ageMeasure (g margin : Nat) (s : State) : State :=
  if g < 68 && !((s.tun g).st = .bist && (s.tun g).selfTest) then s
  else
    let s := stamp s
    let s := { s with repair := { s.repair with margins := tset 0 s.repair.margins g margin } }
    if regFld s pgRepair 0x090 0 6 * 16 ≤ margin then s
    else if 16 ≤ trimOf s g then ageLimit s g
    else
      let s := appendMap s .ageTrim g [trimOf s g + 1]
      { s with repair := { s.repair with
        trims := tset 0 s.repair.trims g (trimOf s g + 1), retunes := sat 32 (s.repair.retunes + 1) } }

/-- `AGE_MONITOR_MEASURE` (R352). -/
def execAgeMonitorMeasure (group : Fin 255) (margin : BitVec 32) (s : State) : Host.Outcome State Fault Refusal :=
  .next (ageMeasure group margin.toNat s)

end Sys2Proof.Machine
end

