-- ==== Sys2Proof/Machine/Integrity.lean ====
section
/-! DEFINITION. Watchdogs, recovery budgets, the scrub of the cellar and the rotating self-test (R164 to R166, R331 to R336). -/
namespace Sys2Proof.Machine

/-! ### Watchdogs (Table 16.3) -/

/-- Gyles of this block's contexts that run with slots on a port. -/
def portGyles (s : State) (p : Nat) : List Gyle :=
  s.gyles.filter fun g => !g.key.far && !g.held && (g.st = .sorted || g.st = .running) && g.plan.slots.any fun e => e.ports.getLsbD p

/-- Recovery level 4 for some contexts under a fault. -/
def levelFourAll (s : State) (cs : List Nat) (id : Seq) (source first : Nat) : State :=
  cs.foldl (fun s c => levelFour s c id source first) s

/-- The interior side of a splice port is stuck: the rows of its streams rerun (R341); the second time within 1 s, level 4 for each
context with a stream on it. -/
def portWatchdog (s : State) (p : Nat) (again : Bool) : State :=
  let gs := portGyles s p
  let o := FaultObject.port (pgPort p)
  let s := startFault s o 0x07 1 []
  let id := ((openFault s o).map (·.id)).getD 0
  let s := if again then levelFourAll s ((gs.map (·.key.owner)).eraseDups) id 0x07 1
    else gs.foldl (fun s g => rerunNow s g.key) s
  endFault s o

/-- The context of a transfer. -/
def xferCtx (s : State) (r : MemReq) : Option Nat := (s.boundary.xfers.find? fun x => x.id = r.xfer).map fun x => (xferCause x.use).1

/-- The contexts whose traffic a memory port carries. -/
def portCtxs (s : State) (p : Nat) : List Nat :=
  ((tget {} s.boundary.mem p : MemPort).outstanding.filterMap (xferCtx s)).eraseDups

/-- The interior side of a memory port is stuck: level 1 repeats its oldest transaction, on the next port while this one's domain is
lost (Table 23.2, R440); then level 4 for the contexts whose traffic the port carries. -/
def memWatchdog (s : State) (p : Nat) : State :=
  match (tget {} s.boundary.mem p : MemPort).outstanding with
  | [] => s
  | r :: _ =>
    let o := FaultObject.port (pgMem p)
    let s := startFault (stamp s) o 0x07 1 []
    let id := ((openFault s o).map (·.id)).getD 0
    let cs := portCtxs s p
    let s := dropReq s p r.id
    if r.retries < retryLimit s then
      let count := fun (m : MemPort) => { m with retries := sat 32 (m.retries + 1) }
      let s := { s with boundary := { s.boundary with mem := tmod {} s.boundary.mem p count } }
      endPortFault (issueReq s { r with retries := r.retries + 1 }) p
    else
      retryWaiting (endPortFault (levelFourAll (dropXfer s r.xfer) cs id 0x07 1) p)

/-- A path of a cellar die is stuck: level 5 for the regions that the stalled reads addressed; the second time within 1 s, level 7. -/
def cellarWatchdog (s : State) (die : Nat) (regions : List (Fin 1024)) (again : Bool) : State :=
  if again then startSeven s 0x07 else regions.foldl (fun (s : State) (r : Fin 1024) => levelFive s die r.val 0x07) s

/-- The watchdog of a group whose issue is halted is suspended, and one whose requests are held counts nothing (R370, R373). -/
def watchdogHeld (s : State) : StageGroup → Bool
  | .tun t _ => s.pace.thermHalted || tunGate s t = 0
  | .grist | .updateEngine => interiorHeld s
  | _ => false

/-- The gyles of this block whose work waits on a tun. -/
def gylesOn (s : State) (t : Nat) : List GyleKey :=
  (gylesOf (((s.tun t).issued.filter fun o => !o.discard) ++ (s.tun t).queue)).filter fun k => !k.far

/-- Level 3 for a tun that cannot go on; when its lane SRAM cannot be read, its gyles rerun from their sort (R341). -/
def tunFails (s : State) (t source : Nat) (readable : Bool) : State :=
  if (s.tun t).st ≠ .active && (s.tun t).st ≠ .bist then s
  else
    let s := stamp s
    if readable then fenceTun s t source
    else fenceTun ((gylesOn s t).foldl rerunNow (startFault s (.tun t) source 3 [])) t source

/-- An uncorrectable word in a splice port's staging area or departure store (R329): the gyle whose row it held reruns. -/
def portWordLost (s : State) (p c num : Nat) : State :=
  let o := FaultObject.port (pgPort p)
  endFault (rerunNow (startFault (stamp s) o 0x04 1 []) (ownGyle c num)) o

/-- An uncorrectable word in grist SRAM (R329): the passes restart, and what they have written stands (R82). -/
def gristWordLost (s : State) : State :=
  endFault (startFault (stamp s) (.port pgGrist) 0x04 1 []) (.port pgGrist)

/-- A cold start has begun and has neither ended nor failed, the wait of R394 included. -/
def coldUnready (s : State) : Bool :=
  s.glob.powered && !s.glob.heldInReset && !s.glob.ready && s.glob.warmStep = 0 && s.glob.startStep ≤ 9 && s.glob.startFail = 0

/-- The two gauger copies differ at a stamp (R315): that stamp issues nothing and is counted. A cold start then fails with code 0x06
(Table 20.5); otherwise level 7 follows, whose reset is the one that runs where a warm reset does (R336, R400). -/
def stampRefused (s : State) : State :=
  let s := { s with gauger := { s.gauger with compareFaults := sat 32 (s.gauger.compareFaults + 1) } }
  if coldUnready s then startFailed (stamp s) 6
  else if s.glob.ready || s.glob.warmStep ≠ 0 then startSeven s 0x09 else s

/-- A word that its code corrects is counted, and so is one that it cannot (R329). -/
def countSram (s : State) (corrected : Bool) : State :=
  if corrected then { s with integrity := { s.integrity with sramCorrected := sat 32 (s.integrity.sramCorrected + 1) } }
  else { s with integrity := { s.integrity with sramUncorrectable := sat 32 (s.integrity.sramUncorrectable + 1) } }

/-- A watchdog fires (R331); `again` says that it is the group's second firing within 1 s. Not due before the first `READY` nor during
a block reset, but for the gauger's comparator. -/
def watchdogFire (group : StageGroup) (again : Bool) (s : State) : State :=
  if group = .gaugerCompare then stampRefused s
  else if inBlockReset s || watchdogHeld s group then s
  else match group with
    | .tun t readable => tunFails s t 0x07 readable
    | .splicePort p => portWatchdog (stamp s) p again
    | .memPort p => memWatchdog s p
    | .channel d => deviceTimeout d s
    | .cellarPath die rs => cellarWatchdog (stamp s) die rs again
    | .grist | .gauger | .updateEngine => startSeven (stamp s) 0x07
    | .pair p => levelSix (stamp s) p 0x07
    | .lockstep p => levelSix (stamp s) p 0x06
    | .gaugerCompare => s
    | .sramCorrected => countSram (stamp s) true
    | .tunSram t readable => tunFails (countSram s false) t 0x04 readable
    | .portSram p c g => portWordLost (countSram s false) p c g.toNat
    | .gristSram => gristWordLost (countSram s false)
    | .pairSram p => levelSix (stamp (countSram s false)) p 0x04

/-- `WATCHDOG_FIRE` (R331). -/
def execWatchdogFire (group : StageGroup) (again : Bool) (s : State) : Host.Outcome State Fault Refusal :=
  .next (watchdogFire group again s)

/-! ### Budgets (R336) -/

/-- Operations that replay under a fault. -/
def replaysOf (s : State) (id : Seq) : List Op := (allOps s).filter fun o => o.replayOf = id && !o.discard

/-- The tun that runs the replays of a fault. -/
def replayTun (s : State) (id : Seq) : Option Nat :=
  (s.tuns.find? fun e => (e.2.queue ++ e.2.issued).any fun o => o.replayOf = id && !o.discard).map (·.1)

/-- Level 2 outlasts its budget: level 3 for the tun that runs the replay, under the same fault ID. -/
def escalateTwo (s : State) (f : FaultRec) : State :=
  match replayTun s f.id with
  | none => s
  | some t =>
    let s := stamp s
    match openFault s (.tun t) with
    | some _ => fenceTun s t f.source
    | none => fenceTun (enterLevel s f.id (.tun t) f.source f.first 3) t f.source

/-- Level 3 outlasts its budget: level 4 for each context whose operations are not yet replayed. -/
def escalateThree (s : State) (f : FaultRec) : State :=
  let ops := replaysOf s f.id
  if ops.isEmpty then s
  else
    let cs := ((ops.filter fun o => !o.gk.far).map (·.gk.owner)).eraseDups
    replayDone (levelFourAll (stamp s) cs f.id f.source f.first) f.id

/-- Level 7 outlasts its budget: the block stops, and only a cold reset restarts it. The time of step 2 of a warm reset does not
count (R398). -/
def stopBlock (s : State) : State :=
  if s.integrity.stopped || s.glob.warmStep = 2 || s.glob.warmStep = 0 then s
  else
    let s := stamp s
    let s := { s with integrity := { s.integrity with stopped := true } }
    raise ((List.range 4).foldl (fun s p => setPair s p .stopped) s) pgIntegrity 1

/-- The fault that a budget belongs to: of the records under its ID, the one at the highest level. -/
def budgetFault (s : State) (id : Seq) : Option FaultRec :=
  (s.integrity.faults.filter fun f => f.id = id).foldl (fun (o : Option FaultRec) f => match o with
    | some g => if g.level < f.level then some f else some g
    | none => some f) none

/-- Some context is in a reset that a driver began and that no open fault of it covers (R274). -/
def driverReset (s : State) : Bool := (List.range 64).any fun c => (s.ctx c).st = .resetting && (openFault s (.ctx c)).isNone

/-- The fault acts on a context that is being reset, by a driver or by level 4 (R274). -/
def resets (s : State) (f : FaultRec) : Bool :=
  match f.object with
  | .ctx c => decide ((s.ctx c).st = .resetting)
  | _ => false

/-- A recovery level outlasts its budget (R336, R398). Fault 0 is the budget of a reset that no fault began: of the block's warm reset
while one runs, else of a context's, whose expiry creates the fault that level 7 then serves (R274; log entry 53). -/
def budgetExpiry (id : Seq) (s : State) : State :=
  if id = 0 then
    if s.glob.warmStep ≠ 0 then stopBlock s
    else if driverReset s && !inBlockReset s then startSeven s 0x00 else s
  else match budgetFault s id with
    | none => s
    | some f =>
      if resets s f && f.level < 5 then (if inBlockReset s then s else levelSeven (stamp s) id f.source f.first)
      else match f.level with
        | 2 => escalateTwo s f
        | 3 => escalateThree s f
        | 4 | 5 | 6 => if inBlockReset s then s else levelSeven (stamp s) id f.source f.first
        | 7 => stopBlock s
        | _ => s

/-- `BUDGET_EXPIRY` (R336). -/
def execBudgetExpiry (fault : Seq) (s : State) : Host.Outcome State Fault Refusal := .next (budgetExpiry fault s)

/-! ### Scrub (R164 to R166) -/

/-- Die, bank and row of a codeword (Table 8.1); the row's number is the block's own. -/
def codewordPlace (addr : Nat) : Nat × Nat × Nat :=
  let page := addr * 16 / 4096
  (page % 4, page / 4 % 128, Config.cellarRow addr % 2 ^ 16)

/-- Codewords of the cellar's 4 GiB. -/
def codewordCount : Nat := 2 ^ 28

/-- The scrub address moves on; a new period forgets the corrections of the last. -/
def nextScrub (s : State) : State :=
  let a := (s.cellar.scrubAddr + 1) % codewordCount
  { s with cellar := { s.cellar with
    scrubAddr := a, scrubHits := if a = 0 then [] else s.cellar.scrubHits, uncorrRows := if a = 0 then [] else s.cellar.uncorrRows } }

/-- A row needs a spare: it moves to a free one of its bank, or is logged and its region remapped where none is left. What has been
corrected in it before counts no more. -/
def spareRow (s : State) (die bank row : Nat) : State :=
  let b := die * 128 + bank
  let s := { s with cellar := { s.cellar with scrubHits := s.cellar.scrubHits.filter fun a => codewordPlace a ≠ (die, bank, row) } }
  if spareRowsOf s b < 16 then appendMap s .cellarRow b [row, spareRowsOf s b]
  else
    let s := logNow s pgCellar evSpareRowNone none none 0 (leBytes 2 b ++ leBytes 2 row)
    levelFive s die (Config.cellarRegion bank row % 1024) 0x03

/-- A corrected codeword (R164, R166): the second different one of its row within the period moves the row. -/
def correctWord (s : State) (addr : Nat) : State :=
  let x := codewordPlace addr
  let again := s.cellar.scrubHits.any fun a => a ≠ addr && codewordPlace a = x
  let hits := if s.cellar.scrubHits.contains addr then s.cellar.scrubHits else s.cellar.scrubHits ++ [addr]
  let s := { s with cellar := { s.cellar with corrected := sat 32 (s.cellar.corrected + 1), scrubHits := hits } }
  if again then spareRow s x.1 x.2.1 x.2.2 else s

/-- A codeword beyond correction (R164); two rows of one region within a period start level 5 (Table 16.5). -/
def uncorrectableWord (s : State) (addr : Nat) (place : CellarPlace) : State :=
  let (die, bank, row) := codewordPlace addr
  let region := Config.cellarRegion bank row % 1024
  let rows := s.cellar.uncorrRows
  let two := rows.any fun x => x.1 = die && Config.cellarRegion x.2.1 x.2.2 % 1024 = region && ¬ (x.2 = (bank, row))
  let s := { s with cellar := { s.cellar with
    uncorrectable := sat 16 (s.cellar.uncorrectable + 1), uncorrRows := rows ++ [(die, bank, row)] } }
  let s := logNow s pgCellar evCellarUncorr none none 0 (leBytes 4 addr)
  let s := losePlace s place
  if two then levelFive s die region 0x03 else s

/-- An event whose reads of the cellar meet some codewords in error (R164): those that the code corrects are delivered and rewritten;
with one beyond correction the data is lost at its place, and the event does not take place (log entry 63). An event that is not due
takes no sequence and reads nothing. -/
def meetErrors (errors : List CellarError) (event : State → State) (s : State) : State :=
  if errors.isEmpty || (event s).gauger.seq = s.gauger.seq then event s
  else
    let s := (errors.filter (·.corrected)).foldl (fun s e => correctWord s e.address.toNat) (stamp s)
    let bad := errors.filter fun e => !e.corrected
    if bad.isEmpty then event s else bad.foldl (fun s e => uncorrectableWord s e.address.toNat e.place) s

/-- `COMMIT_RUN` (R154, R164). -/
def execCommitRun (c : Fin 64) (gyle : Met (BitVec 16)) (s : State) : Host.Outcome State Fault Refusal :=
  .next (meetErrors gyle.errors (commitRun c gyle.it.toNat) s)

/-- `LAZY_WRITEBACK` (R160, R164). -/
def execLazyWriteback (toKiln : Met Bool) (s : State) : Host.Outcome State Fault Refusal :=
  .next (meetErrors toKiln.errors (lazyWriteback toKiln.it) s)

/-- `EVICTION_WRITEBACK_DONE` (R164, R174). -/
def execEvictionWritebackDone (cask : Met (Fin 4096)) (s : State) : Host.Outcome State Fault Refusal :=
  .next (meetErrors cask.errors (evictionDone cask.it) s)

/-- The scrub reads the next codeword (R165); what stands there and what the code finds is the hardware's. -/
def scrubRead (place : CellarPlace) (result : ScrubResult) (s : State) : State :=
  if !s.glob.ready then s
  else
    let addr := s.cellar.scrubAddr
    match result with
    | .clean => nextScrub s
    | .corrected => nextScrub (correctWord (stamp s) addr)
    | .uncorrectable => nextScrub (uncorrectableWord (stamp s) addr place)

/-- `SCRUB_READ` (R165). -/
def execScrubRead (place : CellarPlace) (result : ScrubResult) (s : State) : Host.Outcome State Fault Refusal :=
  .next (scrubRead place result s)

/-! ### Tiles (R96, R164) -/

/-- Where a codeword that a tile's read meets stands: in a tensor of a cask. -/
def errorPlace (s : State) (epoch : Nat) (b : TileBuf) (e : ReadError) : CellarPlace :=
  match (b.tile[e.part]?).bind fun p => (caskOf s epoch p.adapter p.version).map fun i => (i, p.tensor) with
  | some x => if h : x.1 < 4096 then .tensor ⟨x.1, h⟩ x.2 else .unused
  | none => .unused

/-- A tile is read from the cellar into a half (R96, R164): a codeword that the code corrects is delivered corrected; with one beyond
correction the tile is not delivered, and its tensor is lost at that place. -/
def tileReadyEvent (t h : Nat) (read : TileRead) (s : State) : State :=
  match (s.tun t).half h with
  | none => s
  | some b =>
    if b.ready then s
    else
      let s := stamp s
      let epoch := tileEpoch s (s.tun t) b
      let s := (read.errors.filter (·.corrected)).foldl (fun s e => correctWord s e.address.toNat) s
      let bad := read.errors.filter fun e => !e.corrected
      if bad.isEmpty then tileArrived s t h read.upset.toNat b
      else
        let s := modTun (slotDelivered s t b) t fun x => x.setHalf h none
        bad.foldl (fun s e => uncorrectableWord s e.address.toNat (errorPlace s epoch b e)) s

/-- `TILE_READY` (R96, R164, R326). -/
def execTileReady (t : Fin 68) (half : Fin 2) (read : TileRead) (s : State) : Host.Outcome State Fault Refusal :=
  .next (tileReadyEvent t half read s)

/-! ### Rotating self-test (R332, R333) -/

/-- `SELFTEST_ENABLE`. -/
def selftestOn (s : State) : Bool := regFld s pgIntegrity 0x0A0 0 1 = 1

/-- The slot moves to the next physical tun; 68 slots are a cycle. -/
def nextSlot (s : State) : State :=
  let i := s.integrity
  match i.selftestTun with
  | none => { s with integrity := { i with selftestTun := some 0 } }
  | some t =>
    if t = 67 then { s with integrity := { i with selftestTun := some 0, selftestCycles := sat 16 (i.selftestCycles + 1) } }
    else { s with integrity := { i with selftestTun := some (t + 1) } }

/-- A tun that its slot leaves untested (R333). -/
def leaveUntested (s : State) (t : Nat) : State :=
  let s := modTun s t fun x => { x with untested := x.untested + 1 }
  if 2 ≤ (s.tun t).untested then raise s pgIntegrity 5 else s

/-- An active tun hands its index and its unissued queue to a free spare, and finishes what it has issued (R332): a pass that has begun
runs to its end where its accumulator set stands (R92; log entry 48). -/
def handOverSlot (s : State) (t p l : Nat) : State :=
  let x := s.tun t
  let begun := fun (o : Op) => (openSet x o).isSome
  let s := setTun s t { x with logical := none, queue := x.queue.filter begun, selfTest := true, untested := 0 }
  testWhenIdle (giveOps (setTunState s p .active (some l)) p true (x.queue.filter (!begun ·))) t

/-- What the slot does to its tun. -/
def slotTun (s : State) (t : Nat) : State :=
  let x := s.tun t
  match x.st, x.logical with
  | .spare, _ =>
    if selftestOn s then setTunState (modTun s t fun x => { x with selfTest := true, untested := 0 }) t .bist none else s
  | .active, some l =>
    if selftestOn s then match freeSpare s with
      | some p => handOverSlot s t p l
      | none => leaveUntested s t
    else leaveUntested s t
  | _, _ => s

/-- The tun of the slot that ends enters `BIST` where the work it had still to finish was taken from it. -/
def finishSlot (s : State) : State := s.integrity.selftestTun.elim s (testWhenIdle s)

/-- The self-test's slot moves (R332); core pair 3 sequences it (Table 16.2). -/
def selftestSlot (s : State) : State :=
  if !s.glob.ready || pairAway s 3 then s
  else
    let s := nextSlot (finishSlot (stamp s))
    match s.integrity.selftestTun with
    | some t => slotTun s t
    | none => s

/-- `SELFTEST_SLOT` (R332). -/
def execSelftestSlot (s : State) : Host.Outcome State Fault Refusal := .next (selftestSlot s)

end Sys2Proof.Machine
end

