-- ==== Sys2Proof/Machine/Pace.lean ====
section
/-! DEFINITION. Pace, power and heat (R362 to R380): caps, telemetry, the thermal cap and halt, supply sag, and the power-failure
warning. -/
namespace Sys2Proof.Machine

/-! ### Caps (R368 to R371) -/

/-- An accepted write of `POWER_CAP`. -/
def powerCapSet (v : Word64) (s : State) : State := capEvent (storeReg pgPace 0x088 v s)

/-- `POWER_CAP_WRITE` (R368, R369). -/
def execPowerCapWrite (value : Word64) (role : Role) (s : State) : Host.Outcome State Fault Refusal :=
  .next (busWrite pgPace 0x088 value role (fun _ => none) (powerCapSet value) s)

/-- `CAP_UNMET` is raised and counted at the present event (R369). -/
def capUnmet (s : State) : State :=
  raise { s with pace := { s.pace with capUnmet := sat 32 (s.pace.capUnmet + 1) } } pgPace 0

/-- The port's cap input changes (R369): above 180 W it is taken as 180, below 40 W it is clamped to 40. -/
def portCapChange (w : Nat) (s : State) : State :=
  let s := stamp s
  let s := { s with pace := { s.pace with portCapRaw := w, portCap := min 180 (max 40 w) } }
  capEvent (if w < 40 then capUnmet s else s)

/-- `PORT_CAP_CHANGE` (R369); not due while the input keeps its value, nor while the power port's clock is lost: it keeps the last value
(Table 23.2). -/
def execPortCapChange (watts : BitVec 8) (s : State) : Host.Outcome State Fault Refusal :=
  .next (if s.pace.portCapRaw = watts.toNat || !domainPresent s 209 then s else portCapChange watts.toNat s)

/-- `DERATE_CHANGE` (R368); not due while the input keeps its value, nor while the power port's clock is lost (Table 23.2). -/
def execDerateChange (asserted : Bool) (s : State) : Host.Outcome State Fault Refusal :=
  .next (if s.pace.derate = asserted || !domainPresent s 209 then s
    else let s := stamp s
         capEvent { s with pace := { s.pace with derate := asserted } })

/-- Power in units of 0.1 W of a sample in mV and 0.1 A. -/
def Telemetry.powerDw (x : Telemetry) : Nat := x.mv * x.deciAmp / 1000

/-- A telemetry sample (R364, R370, R371, R444), used as measured. -/
def telemetry (x : Telemetry) (s : State) : State :=
  let s := stamp s
  setGate { s with pace := { s.pace with
    vddMeas := x.mv, leakDw := x.leakDw, restDw := x.restDw, interiorDw := x.interiorDw
    instDw := Telemetry.powerDw x, paceMhz := x.paceMhz, tjMax := x.tjMax, tjSensor := x.tjSensor } }

/-- `TELEMETRY_SAMPLE` (R370); not due while the power port's clock is lost. -/
def execTelemetrySample (sample : Telemetry) (s : State) : Host.Outcome State Fault Refusal :=
  .next (if domainPresent s 209 then telemetry sample s else s)

/-- An averaging window ends (R369). `settled` says that it began at least 2 µs after the latest cap event. -/
def windowEnd (avg : Nat) (settled : Bool) (s : State) : State :=
  let s := stamp s
  let s := { s with pace := { s.pace with avgDw := avg } }
  if settled && 10 * s.pace.capEff * 102 < avg * 100 then capUnmet s else s

/-- `CAP_WINDOW_END` (R369). -/
def execCapWindowEnd (averageDw : Nat) (settled : Bool) (s : State) : Host.Outcome State Fault Refusal :=
  .next (windowEnd averageDw settled s)

/-! ### Heat (R372, R373) -/

/-- `THERM_SOFT_C`. -/
def thermSoft (s : State) : Nat := regFld s pgPace 0x098 0 8

/-- A condition of the thermal cap holds. -/
def thermWarm (s : State) (tj : Nat) (warn : Bool) : Bool := thermSoft s ≤ tj || warn

/-- The chip's warning as the block samples it: while the power port's clock is lost it keeps its last value (Table 23.2). -/
def sampledWarn (s : State) (warn : Bool) : Bool := if domainPresent s 209 then warn else s.pace.chipWarn

/-- The hottest reading and the chip's warning. -/
def sense (s : State) (tj : Nat) (warn : Bool) : State :=
  { s with pace := { s.pace with tjMax := tj, chipWarn := warn } }

/-- The thermal cap starts at the measured power, within 40 to 180 W. -/
def thermStart (tj : Nat) (warn : Bool) (s : State) : State :=
  let s := sense (stamp s) tj warn
  capEvent { s with pace := { s.pace with thermActive := true, thermCap := min 180 (max 40 (s.pace.instDw / 10)) } }

/-- `THERMAL_CAP_START` (R372); not due while neither condition holds; a further condition joins a cap that binds already. -/
def execThermalCapStart (tj : Nat) (chipWarn : Bool) (s : State) : Host.Outcome State Fault Refusal :=
  let warn := sampledWarn s chipWarn
  .next (if !thermWarm s tj warn then s else if s.pace.thermActive then sense s tj warn else thermStart tj warn s)

/-- The thermal cap falls by 9 W to 40 W while a condition holds, and rises by 9 W otherwise; at 180 W it stops binding (R372). -/
def thermStep (tj : Nat) (warn : Bool) (s : State) : State :=
  let s := sense (stamp s) tj warn
  let cap := if thermWarm s tj warn then max 40 (s.pace.thermCap - 9) else min 180 (s.pace.thermCap + 9)
  capEvent { s with pace := { s.pace with thermCap := cap, thermActive := cap ≠ 180 } }

/-- `THERMAL_CAP_STEP` (R372); not due while the cap does not bind. -/
def execThermalCapStep (tj : Nat) (chipWarn : Bool) (s : State) : Host.Outcome State Fault Refusal :=
  .next (if s.pace.thermActive then thermStep tj (sampledWarn s chipWarn) s else s)

/-- Issue halts at 105 °C (R373): no tun, nor the grist unit or the update engine, starts a handshake; their state is kept. -/
def thermHalt (sensor tj : Nat) (s : State) : State :=
  let s := sense (stamp s) tj s.pace.chipWarn
  settleBlocked (raise { s with pace := { s.pace with thermHalted := true, tjSensor := sensor } } pgPace 1)

/-- `THERM_HALT` (R373); not due below 105 °C or during a halt. -/
def execThermHalt (sensor : Fin 72) (tj : Nat) (s : State) : Host.Outcome State Fault Refusal :=
  .next (if tj < 105 || s.pace.thermHalted then s else thermHalt sensor.val tj s)

/-- Issue resumes (R373): the chip's warning is withdrawn and every sensor reads below 100 °C. -/
def thermResume (tj : Nat) (s : State) : State :=
  let s := sense (stamp s) tj false
  raise { s with pace := { s.pace with thermHalted := false } } pgPace 2

/-- `THERM_RESUMED` (R373); not due outside a halt or while the hottest sensor reads 100 °C or more. -/
def execThermResumed (tj : Nat) (s : State) : Host.Outcome State Fault Refusal :=
  .next (if !s.pace.thermHalted || 100 ≤ tj then s else thermResume tj s)

/-! ### Supply sag (R365, R366) -/

/-- The stretch that a sag calls for, in tenths of a percent. -/
def sagSteps (tenth : Nat) : Nat :=
  if 120 < tenth then 4 else if 90 < tenth then 3 else if 60 < tenth then 2 else if 30 < tenth then 1 else 0

/-- A sag region. -/
def State.sag (s : State) (i : Nat) : Sag := tget {} s.pace.sags i

/-- Replace a sag region. -/
def setSag (s : State) (i : Nat) (x : Sag) : State := { s with pace := { s.pace with sags := tset {} s.pace.sags i x } }

/-- A sag raises a region's stretch; each rise from 0 counts in `SAG_EVENTS`. -/
def sagRise (i tenth : Nat) (s : State) : State :=
  let x := s.sag i
  setSag (stamp s) i { x with steps := sagSteps tenth, events := if x.steps = 0 then sat 32 (x.events + 1) else x.events }

/-- `SAG_RISE` (R365); not due for a sag that calls for no greater stretch. -/
def execSagRise (sensor : Fin 72) (tenthPercent : Nat) (s : State) : Host.Outcome State Fault Refusal :=
  .next (if sagSteps tenthPercent ≤ (s.sag sensor).steps then s else sagRise sensor tenthPercent s)

/-- The stretch falls one step; at 0 the episode is over (R366). -/
def sagDown (i : Nat) (s : State) : State :=
  let x := s.sag i
  setSag (stamp s) i { x with steps := x.steps - 1, persisted := x.persisted && 1 < x.steps }

/-- `SAG_STEP_DOWN` (R366); not due without a stretch. -/
def execSagStepDown (sensor : Fin 72) (s : State) : Host.Outcome State Fault Refusal :=
  .next (if (s.sag sensor).steps = 0 then s else sagDown sensor s)

/-- A stretch has lasted 1 ms: raised and logged once for the episode (R366). -/
def sagLasts (i : Nat) (s : State) : State :=
  let s := setSag (stampRaise s pgPace 5) i { s.sag i with persisted := true }
  logNow s pgPace evSagPersist none none 0 (leBytes 1 i)

/-- `SAG_PERSIST` (R366); not due without a stretch, or twice in one episode. -/
def execSagPersist (sensor : Fin 72) (s : State) : Host.Outcome State Fault Refusal :=
  .next (if (s.sag sensor).steps = 0 || (s.sag sensor).persisted then s else sagLasts sensor s)

/-! ### Power-failure warning (R375 to R379) -/

/-- The transfers of one gyle. -/
def gyleXfer (k : GyleKey) : MemUse → Bool
  | .rowMap c n _ | .account c n | .report c n => k = ownGyle c n
  | _ => false

/-- A gyle is ended as under R273: its work goes, and the reservation of its `GYLE_CLOSE` posts `CANCELLED` (R376). -/
def endGyle (s : State) (g : Gyle) : State :=
  if g.key.far then releaseGyle (clearWork s g.key) g.key
  else
    let c := g.key.owner
    let flags := gyleFlags s g
    let s := dropXfers (tearGyle s g) (gyleXfer g.key)
    match g.closeSq with
    | some sq => afterCmd (postRecord (stamp s) c 0x03 stCancelled flags sq g.key.num (gyleResult g) none) c
    | none => s

/-- End the gyles in some states. -/
def endGyles (s : State) (p : Gyle → Bool) : State := (s.gyles.filter p).foldl endGyle s

/-- A gyle that has not reached `DRAINED`. -/
def notDrained (g : Gyle) : Bool := g.st = .filling || g.st = .sorted || g.st = .running

/-- Issue halts: unfinished gyles end (R376). -/
def pfwHalt (s : State) : State :=
  endGyles { s with pace := { s.pace with settling := false } } notDrained

/-- Commits accepted and not yet published are dropped, each `CANCELLED` (R375, R159). -/
def dropCommit (s : State) (x : Commit) : State :=
  match (s.ctx x.gk.owner).inflight.find? fun m => m.opcode = 0x21 && ownGyle x.gk.owner m.gyle = x.gk with
  | some m => completeLater (stamp (dropCmd x.gk.owner s m)) x.gk.owner m stCancelled 0 m.result
  | none => s

/-- A row-slot that is late at the warning takes its second choice at once (R375). -/
def pfwRow (k : GyleKey) (s : State) (key : Nat) : State :=
  match s.gyle k with
  | none => s
  | some g =>
    let slot := key / 2 ^ 20
    let row := key % 2 ^ 20
    if (g.rowSlot slot row).late && stillWaits s g slot row then secondChoice s k slot row else s

/-- The late row-slots of every serving gyle. -/
def pfwLate (s : State) : State :=
  let gs := s.gyles.filter fun g => g.kind = .serving && !g.key.far
  gs.foldl (fun s g => (g.slots.map (·.1)).foldl (pfwRow g.key) s) s

/-- The warning's event (R375, R376, R379): admission stops, late row-slots are substituted, unpublished commits are dropped, a racking
at the old home ends, gyles in `FILLING` end; with no settle time issue halts at once. -/
def pfwStart (s : State) : State :=
  let s := stampRaise s pgPace 3
  let s := { s with pace := { s.pace with pfwLevel := true, pfw := true, settling := true } }
  let s := (s.train.commits.filter fun x => !x.published).foldl dropCommit s
  let s := match s.homes.rack with
    | some r => if r.phase < 4 then cancelRack s stCancelled true else s
    | none => s
  let s := pfwLate s
  let s := endGyles s fun g => g.st = .filling
  if regFld s pgPace 0x090 32 16 = 0 then pfwHalt s else s

/-- `PFW_ASSERT` (R375): a second assertion has no effect (R378). -/
def execPfwAssert (s : State) : Host.Outcome State Fault Refusal :=
  .next (if !s.glob.powered || s.glob.heldInReset then s
    else if s.pace.pfw then { s with pace := { s.pace with pfwLevel := true } } else pfwStart s)

/-- `PFW_SETTLE_EXPIRY` (R376); not due unless the block settles. -/
def execPfwSettleExpiry (s : State) : Host.Outcome State Fault Refusal :=
  .next (if s.pace.settling then pfwHalt (stamp s) else s)

/-- Steps 4 to 6 of Table 18.5 end: every dirty byte and the close record are programmed where the kiln is mounted, the block asks for
550 mV and is closed; a warning withdrawn before then raises `PFW_CLEARED` now (R378). A warm reset that was in its step 2 goes no further (R400). -/
def pfwClose (s : State) : State :=
  let s := stamp s
  let s := if kilnServes s then closeKiln s else s
  let s := askVoltage { s with pace := { s.pace with closed := true } }
  if s.pace.pfwLevel then s else raise s pgPace 4

/-- `PFW_WRITEBACK_DONE` (R377); not due before issue has halted, or once closed. -/
def execPfwWritebackDone (s : State) : Host.Outcome State Fault Refusal :=
  .next (if s.pace.pfw && !s.pace.settling && !s.pace.closed then pfwClose s else s)

/-- The warning is withdrawn: while the sequence runs it stops nothing; once the block is closed, `PFW_CLEARED` is raised (R378). -/
def pfwWithdrawn (s : State) : State :=
  let s := stamp s
  let s := { s with pace := { s.pace with pfwLevel := false } }
  if s.pace.closed then raise s pgPace 4 else s

/-- `PFW_CLEARED` (R378); not due while the warning is not asserted. -/
def execPfwCleared (s : State) : Host.Outcome State Fault Refusal := .next (if s.pace.pfwLevel then pfwWithdrawn s else s)

end Sys2Proof.Machine
end

