-- ==== Sys2Proof/Machine/Keys.lean ====
section
/-! DEFINITION. Tenant records, salts and key operations (R402 to R409, R429). -/
namespace Sys2Proof.Machine

/-! ### Tenant records (Table 21.1) -/

/-- The record of a tenant goes to the staging buffer (R429). -/
def tenantLoadEffect (t : Nat) (s : State) : State :=
  let bs := TenantRec.bytes (tget {} s.tenantRecs t)
  { s with glob := { s.glob with tenantBuf := (List.range 4).foldl (fun (b : Tab Word64) w =>
    tset 0 b w (BitVec.ofNat 64 (le bs (8 * w) 8))) [] } }

/-- The check of a write of `TENANT_SEL`: a store is checked at once, unless it waits for look-ups. -/
def tenantSelCheck (v : Word64) (s : State) : Option Nat :=
  let t := fld v 0 12
  if fld v 24 2 = 2 && !tenantWaits s t (stagedTenant s) then tenantStoreCheck t (stagedTenant s) s else none

/-- An accepted write of `TENANT_SEL`: index and word are stored, then the operation runs. -/
def tenantSelWrite (v : Word64) (role : Role) (s : State) : State :=
  let s := storeReg pgGlobal 0x0C0 v s
  match fld v 24 2 with
  | 1 => tenantLoadEffect (fld v 0 12) s
  | 2 => tenantStore (fld v 0 12) v role (stagedTenant s) s
  | _ => s

/-- A write of `TENANT_DATA`: the buffer word that `TENANT_WORD` selects (R429). -/
def tenantDataWrite (v : Word64) (s : State) : State :=
  { s with glob := { s.glob with tenantBuf := tset 0 s.glob.tenantBuf (regFld s pgGlobal 0x0C0 16 2) v } }

/-- The value of a write of `TENANT_SEL` (Table 22.11). -/
def tenantSelWord (op word tenant : Nat) : Word64 := BitVec.ofNat 64 (op * 2 ^ 24 + word * 2 ^ 16 + tenant)

/-- `TENANT_LOAD` (R429): the write of `TENANT_OP` 0b01. -/
def execTenantLoad (tenant : Fin 4096) (word : Fin 4) (role : Role) (s : State) : Host.Outcome State Fault Refusal :=
  .next (busWrite pgGlobal 0x0C0 (tenantSelWord 1 word tenant) role (tenantSelCheck (tenantSelWord 1 word tenant))
    (tenantSelWrite (tenantSelWord 1 word tenant) role) s)

/-- `TENANT_STORE` (R403, R429): the write of `TENANT_OP` 0b10. -/
def execTenantStore (tenant : Fin 4096) (word : Fin 4) (role : Role) (s : State) : Host.Outcome State Fault Refusal :=
  .next (busWrite pgGlobal 0x0C0 (tenantSelWord 2 word tenant) role (tenantSelCheck (tenantSelWord 2 word tenant))
    (tenantSelWrite (tenantSelWord 2 word tenant) role) s)

/-! ### Salts (R405) -/

/-- The write of `SALT_HI` stores both halves of the selected tenant's salt. -/
def saltStore (v : Word64) (s : State) : State :=
  { s with keys := { s.keys with salts := tset (0, 0) s.keys.salts (regFld s pgKeys 0x190 0 12) (s.keys.saltLo, v) } }

/-- `SALT_HI_WRITE` (R405). -/
def execSaltHiWrite (value : Word64) (role : Role) (s : State) : Host.Outcome State Fault Refusal :=
  .next (busWrite pgKeys 0x1A0 value role (fun _ => none) (saltStore value) s)

/-- The write of `SALT_LO` stages the low half. -/
def saltLoStore (v : Word64) (s : State) : State := { s with keys := { s.keys with saltLo := v } }

/-! ### Key operations (R407 to R409) -/

/-- The 144 bytes of `KEY_IN0` to `KEY_IN17`. -/
def keyInBytes (s : State) : List Byte := (List.range 18).flatMap fun n => leBytes 8 (tget 0 s.keys.keyIn n).toNat

/-- A write of `KEY_IN` n. -/
def keyInStore (n : Nat) (v : Word64) (s : State) : State :=
  { s with keys := { s.keys with keyIn := tset 0 s.keys.keyIn n v } }

/-- The slot that the staged input gives; none when the KW integrity check fails, or where no load key pair exists. -/
def unwrapped (s : State) (peer : Nat) (receive : Bool) : Option KeySlot :=
  if !s.keys.pubValid then none
  else
    let bs := keyInBytes s
    (Config.unwrapSlotKey s.keys.loadPair (bs.take 96) ((bs.drop 96).take 40) peer receive).map fun key =>
      { key, salt := BitVec.ofNat 32 (le bs 136 4) }

/-- The number of a connection slot: peer and direction. -/
def slotOf (peer : Nat) (receive : Bool) : Nat := 2 * peer + if receive then 1 else 0

/-- The check of a write of `KEY_CMD`: a peer of the rack (R207), no `KEY_OP` while another runs (R409), and the unwrap of a load
(R407). -/
def keyCmdCheck (v : Word64) (s : State) : Option Nat :=
  if rackSize s ≤ fld v 24 8 then some stBadField
  else if fld v 0 2 = 0 then none
  else if s.keys.busy.isSome then some stBadState
  else if fld v 0 2 = 1 && (unwrapped s (fld v 24 8) (fld v 23 1 = 1)).isNone then some stBadField
  else none

/-- An accepted write of `KEY_CMD`: the operation runs until its `KEY_DONE`. -/
def keyCmdWrite (v : Word64) (s : State) : State :=
  let s := storeReg pgKeys 0x178 v s
  match fld v 0 2 with
  | 0 => s
  | 1 =>
    let p := fld v 24 8
    let rx : Bool := fld v 23 1 = 1
    { s with keys := { s.keys with busy := some 1, slots := tset none s.keys.slots (slotOf p rx) (unwrapped s p rx) } }
  | op => { s with keys := { s.keys with busy := some op, busyTenant := fld v 8 12 } }

/-- The load is refused because its key does not unwrap. -/
def unwrapFailed (v : Word64) (role : Role) (s : State) : Bool :=
  (staticRefusal pgKeys 0x178 v role).isNone && fld v 0 2 = 1 && fld v 24 8 < rackSize s && keyCmdCheck v s = some stBadField

/-- A write of `KEY_CMD`. `KEY_IN` is zeroed after every `KEY_OP` 0b01, accepted or refused, and `UNWRAP_FAILS` counts a key that does
not unwrap (R407). -/
def keyCmd (v : Word64) (role : Role) (s : State) : State :=
  if !pageServes s pgKeys 0x178 then s
  else
    let t := busWrite pgKeys 0x178 v role (keyCmdCheck v) (keyCmdWrite v) s
    let t := if unwrapFailed v role s then { t with keys := { t.keys with unwrapFails := sat 32 (t.keys.unwrapFails + 1) } } else t
    if fld v 0 2 = 1 then { t with keys := { t.keys with keyIn := [] } } else t

/-- The value of a write of `KEY_CMD` (Table 21.7). -/
def keyWord (op tenant peer : Nat) (receive : Bool) : Word64 :=
  BitVec.ofNat 64 (op + tenant * 2 ^ 8 + (if receive then 2 ^ 23 else 0) + peer * 2 ^ 24)

/-- `KEY_LOAD_SLOT` (R407): `KEY_OP` 0b01. -/
def execKeyLoadSlot (peer : BitVec 8) (receive : Bool) (role : Role) (s : State) : Host.Outcome State Fault Refusal :=
  .next (keyCmd (keyWord 1 0 peer.toNat receive) role s)

/-- `KEY_ROTATE` (R409): `KEY_OP` 0b10; the rotation is the kiln's (R260). -/
def execKeyRotate (tenant : Fin 4096) (role : Role) (s : State) : Host.Outcome State Fault Refusal :=
  .next (keyCmd (keyWord 2 tenant 0 false) role s)

/-- `KEY_RENEW_LOAD_PAIR` (R409): `KEY_OP` 0b11. -/
def execKeyRenewLoadPair (role : Role) (s : State) : Host.Outcome State Fault Refusal :=
  .next (keyCmd (keyWord 3 0 0 false) role s)

/-- A load or a renewal ends: `KEY_DONE`; a renewal has replaced the load key pair. A rotation ends with the kiln's step 4
(`ROTATION_COMPLETE`); not due without an operation. -/
def keyDone (s : State) : State :=
  match s.keys.busy with
  | some 1 =>
    let s := stamp s
    raise { s with keys := { s.keys with busy := none } } pgKeys 0
  | some 3 =>
    let s := stamp s
    raise { s with keys := { s.keys with busy := none, loadPair := s.keys.loadPair + 1, pubValid := true } } pgKeys 0
  | _ => s

/-- `KEY_DONE` (R409). -/
def execKeyDone (s : State) : Host.Outcome State Fault Refusal := .next (keyDone s)

end Sys2Proof.Machine
end

