-- ==== Sys2Proof/Machine/Boundary.lean ====
section
/-! DEFINITION. Steep timers' calibration (R320, R321) and the clock domains (R432 to R434). -/
namespace Sys2Proof.Machine

/-! ### Calibration (R321) -/

/-- The spare that carries the deadlines of a timer: one of 60 to 63 other than the timer itself. The spec does not say which (log
entry 10). -/
def standinFor (choice timer : Nat) : Nat :=
  let k := 60 + choice % 4
  if k = timer then 60 + (choice + 1) % 4 else k

/-- A timer has been recalibrated, and the next one begins; once all 64 are calibrated again after a loss, `CAL_REGAINED` is raised. -/
def timerRecal (s : State) : State :=
  let s := stamp s
  let g := s.gauger
  let done := g.calibrated ||| (1#64 <<< g.recalTimer)
  let next := (g.recalTimer + 1) % 64
  let regained : Bool := g.calLost && done = BitVec.allOnes 64
  let s := bumpFree { s with gauger := { g with
    calibrated := done, recalTimer := next, standinTimer := standinFor (drawChoice s) next, calLost := g.calLost && !regained } }
  if regained then raise (logNow s pgGauger evCalRegained none none 0 []) pgGauger 1 else s

/-- The start has calibrated the timers. -/
def calibrates (s : State) : Bool := s.glob.powered && !s.glob.heldInReset && 4 < s.glob.startStep

/-- `TIMER_RECAL` (R321); not due without the reference clock, or before step 4 of a cold start has ended. -/
def execTimerRecal (s : State) : Host.Outcome State Fault Refusal :=
  .next (if s.gauger.refClockOk && calibrates s then timerRecal s else s)

/-- Every timer is uncalibrated: `CAL_LOST`, with a record. -/
def calLost (s : State) : State :=
  let s := stamp s
  let s := { s with gauger := { s.gauger with calibrated := 0, calLost := true, lossSeen := true } }
  raise (logNow s pgGauger evCalLost none none 0 []) pgGauger 0

/-- `CAL_LOST` (R321); not due while the reference clock is present, or twice in one absence. -/
def execCalLost (s : State) : Host.Outcome State Fault Refusal :=
  .next (if s.gauger.refClockOk || s.gauger.lossSeen || !calibrates s then s else calLost s)

/-! ### Domains (R434) -/

/-- Set a domain's bit of `DOMAIN_OK`. -/
def setDomain (s : State) (d : Nat) (ok : Bool) : State :=
  { s with boundary := { s.boundary with domainOk := tset false s.boundary.domainOk d ok } }

/-- What follows from a loss (Table 23.2): a fabric port's peers are down; the reference clock is absent with the power port's. -/
def domainEffects (d : Nat) (s : State) : State :=
  if d = 209 then { s with gauger := { s.gauger with refClockOk := false } }
  else if 192 ≤ d && d < 208 then (s.homes.peersUp.filter fun p => p % 16 = d - 192).foldl peerDown s
  else s

/-- A domain is lost. -/
def domainLost (d : Nat) (s : State) : State :=
  let s := setDomain (stamp s) d false
  let s := { s with boundary := { s.boundary with clockLosses := sat 32 (s.boundary.clockLosses + 1) } }
  domainEffects d (raise s pgBoundary 1)

/-- `DOMAIN_LOST` (R434); not due for a domain that is absent. -/
def execDomainLost (d : Fin 211) (s : State) : Host.Outcome State Fault Refusal :=
  .next (if s.glob.powered && domainPresent s d then domainLost d s else s)

/-- A domain is regained: memory requests that wait find a port again (R440); the reference clock is back with the power port's. -/
def domainRegained (d : Nat) (s : State) : State :=
  let s := raise (setDomain (stamp s) d true) pgBoundary 2
  if d = 209 then { s with gauger := { s.gauger with refClockOk := true, lossSeen := false } }
  else if 128 ≤ d && d < 160 then retryWaiting s
  else s

/-- `DOMAIN_REGAINED` (R434); not due for a domain that is present, nor without power or in a held reset. -/
def execDomainRegained (d : Fin 211) (s : State) : Host.Outcome State Fault Refusal :=
  .next (if !s.glob.powered || s.glob.heldInReset || domainPresent s d then s else domainRegained d s)

end Sys2Proof.Machine
end

