-- ==== Sys2Proof/Machine/Rings.lean ====
section
/-! DEFINITION. Control-port writes of the `SUBMITTER` pages and of the common page header (R264, R267, R268, R271, R274, R316 to
R318, R422 to R424): for each register its check (the state rules and other codes of its chapter) and its effect. -/
namespace Sys2Proof.Machine

/-! ### Doorbell and completion ring -/

/-- R267: `BAD_STATE` in `DOWN` and `RESETTING`; `BAD_FIELD` unless the new tail lies from the old one up to a full ring. -/
def doorbellCheck (c : Nat) (v : Word64) (s : State) : Option Nat :=
  let x := s.ctx c
  if x.st = .down || x.st = .resetting then some stBadState
  else if ringDiff x.sqTail x.sqHead ≤ ringDiff v.toNat x.sqHead && ringDiff v.toNat x.sqHead ≤ sqSize s c then none
  else some stBadField

/-- The doorbell: the tail moves, and the block takes what R269 allows. -/
def doorbellEffect (c : Nat) (v : Word64) (s : State) : State := pump (modCtx s c fun x => { x with sqTail := v.toNat }) c

/-- R268. -/
def cqHeadCheck (c : Nat) (v : Word64) (s : State) : Option Nat :=
  let x := s.ctx c
  if ringDiff v.toNat x.cqHead ≤ ringDiff x.cqTail x.cqHead then none else some stBadField

/-- The entries passed become free, and a descriptor that waited for one is taken. -/
def cqHeadEffect (c : Nat) (v : Word64) (s : State) : State := pump (modCtx s c fun x => { x with cqHead := v.toNat }) c

/-- `DOORBELL` (R267). -/
def execDoorbell (c : Fin 64) (value : Word64) (role : Role) (s : State) : Host.Outcome State Fault Refusal :=
  .next (busWrite (pgCtx c) 0x0A8 value role (doorbellCheck c value) (doorbellEffect c value) s)

/-- `CQ_HEAD_WRITE` (R268). -/
def execCqHeadWrite (c : Fin 64) (value : Word64) (role : Role) (s : State) : Host.Outcome State Fault Refusal :=
  .next (busWrite (pgCtx c) 0x0C0 value role (cqHeadCheck c value) (cqHeadEffect c value) s)

/-! ### Context enable and ring configuration -/

/-- The two rings of a context overlap in chip memory. -/
def ringsOverlap (s : State) (c : Nat) : Bool :=
  let sq := regFld s (pgCtx c) 0x090 12 52 * 4096
  let cq := regFld s (pgCtx c) 0x098 12 52 * 4096
  sq < cq + 32 * cqSize s c && cq < sq + 64 * sqSize s c

/-- `CTX_CMD` 0b01: `BAD_STATE` outside `DOWN` (Table 12.3) and until the block is ready (R397); `BAD_FIELD` when the rings
overlap. -/
def ctxEnableCheck (c : Nat) (s : State) : Option Nat :=
  if (s.ctx c).st ≠ .down || !s.glob.ready then some stBadState
  else if ringsOverlap s c then some stBadField else none

/-- The context enters `READY`. -/
def ctxEnableEffect (c : Nat) (s : State) : State := setCtxState s c .ready

/-- `CTX_ENABLE` (R272): the write of `CTX_CMD` 0b01. -/
def execCtxEnable (c : Fin 64) (role : Role) (s : State) : Host.Outcome State Fault Refusal :=
  .next (busWrite (pgCtx c) 0x080 1 role (ctxEnableCheck c) (ctxEnableEffect c) s)

/-- A write of a ring's base or of `RING_CFG` is accepted only in `DOWN` (R274). -/
def ringConfigCheck (c : Nat) (s : State) : Option Nat := if (s.ctx c).st = .down then none else some stBadState

/-- It is stored and sets all four ring counters to 0 (R274). -/
def ringConfigEffect (c off : Nat) (v : Word64) (s : State) : State :=
  modCtx (storeReg (pgCtx c) off v s) c fun x => { x with sqHead := 0, sqTail := 0, cqHead := 0, cqTail := 0 }

/-- `RING_CONFIG_WRITE` (R274): `SQ_BASE_ADDR`, `CQ_BASE_ADDR` or `RING_CFG`; a write at another
offset is not this command, and nothing happens (log entry 1). -/
def execRingConfigWrite (c : Fin 64) (offset : BitVec 12) (value : Word64) (role : Role) (s : State) :
    Host.Outcome State Fault Refusal :=
  .next (if offset = 0x090 || offset = 0x098 || offset = 0x0A0 then
      busWrite (pgCtx c) offset.toNat value role (ringConfigCheck c) (ringConfigEffect c offset.toNat value) s
    else s)

/-- The binding change of R264: the word that `TENANT_BIND_SEL` selects. -/
def tenantBindEffect (c : Nat) (v : Word64) (s : State) : State :=
  modCtx s c fun x => { x with tenants := tset 0 x.tenants (regFld s (pgCtx c) 0x0C8 0 6) v }

/-- `TENANT_BIND_CHANGE` (R264): the write of `TENANT_BIND_WORD`. -/
def execTenantBindChange (c : Fin 64) (value : Word64) (role : Role) (s : State) : Host.Outcome State Fault Refusal :=
  .next (busWrite (pgCtx c) 0x0D0 value role (fun _ => none) (tenantBindEffect c value) s)

/-- `CTX_ROLE` is written in `DOWN` only (R423). -/
def ctxRoleCheck (c : Nat) (s : State) : Option Nat := if (s.ctx c).st = .down then none else some stBadState

/-- The context acts for the written role (R265, R423). -/
def ctxRoleEffect (c : Nat) (v : Word64) (s : State) : State :=
  { s with pages := tmod {} s.pages (pgCtx c) fun h => { h with ctxRole := fld v 0 2 } }

/-! ### Event registers -/

/-- R317. -/
def eventAckCheck (page : Nat) (v : Word64) (s : State) : Option Nat :=
  if (s.page page).ack ≤ v.toNat && v.toNat ≤ (s.page page).eventSeq then none else some stBadField

/-- Classes at or below the value clear; the page's interrupt output follows (R271, R317, R424). -/
def eventAckEffect (page : Nat) (v : Word64) (s : State) : State :=
  { s with pages := drivePage s (tmod {} s.pages page fun h => { h with ack := v.toNat }) page }

/-- `EVENT_ACK_WRITE` (R317). -/
def execEventAckWrite (page : BitVec 12) (value : Word64) (role : Role) (s : State) : Host.Outcome State Fault Refusal :=
  .next (busWrite page.toNat 0x028 value role (eventAckCheck page.toNat value) (eventAckEffect page.toNat value) s)

/-- The mask takes effect at the write's sequence; unmasking a pending class asserts the output, subject to its holdoff
(R318). -/
def eventMaskEffect (page : Nat) (v : Word64) (s : State) : State :=
  { s with pages := drivePage s (tmod {} s.pages page fun h => { h with mask := v }) page }

/-- `EVENT_MASK_WRITE` (R318). -/
def execEventMaskWrite (page : BitVec 12) (value : Word64) (role : Role) (s : State) : Host.Outcome State Fault Refusal :=
  .next (busWrite page.toNat 0x038 value role (fun _ => none) (eventMaskEffect page.toNat value) s)

/-- A holdoff ends: a page with a class that is pending and not masked asserts its output again (R271). -/
def endHoldoff (h : PageHdr) (level : Bool) : PageHdr := { h with holdoff := false, irq := level }

/-- `IRQ_HOLDOFF_EXPIRY` (R271); not due while no holdoff of the context runs. -/
def irqHoldoffEnd (c : Nat) (s : State) : State :=
  if (s.page (pgCtx c)).holdoff then
    { stamp s with pages := tmod {} (stamp s).pages (pgCtx c) fun h => endHoldoff h h.active }
  else s

/-- `IRQ_HOLDOFF_EXPIRY` (R271). -/
def execIrqHoldoffExpiry (c : Fin 64) (s : State) : Host.Outcome State Fault Refusal := .next (irqHoldoffEnd c s)

/-- The global output's holdoff ends (R424); not due while none runs. -/
def globalHoldoffEnd (s : State) : State :=
  if (s.page pgGlobal).holdoff then
    { stamp s with pages := tmod {} (stamp s).pages pgGlobal fun h => endHoldoff h (globalLevel (stamp s).pages) }
  else s

/-- `GLOBAL_HOLDOFF_EXPIRY` (R424). -/
def execGlobalHoldoffExpiry (s : State) : Host.Outcome State Fault Refusal := .next (globalHoldoffEnd s)

end Sys2Proof.Machine
end

