-- ==== Sys2Proof/Machine/View.lean ====
section
/-! DEFINITION. What the registers read (Tables 22.2 to 22.14 and the tables of each chapter): the fields that follow the block's own
state, the counter snapshot (R425), and the copy of a cask descriptor (R183). -/
namespace Sys2Proof.Machine

/-- Fields placed in a register: bit, width, value. -/
def pack (fs : List (Nat × Nat × Nat)) : Word64 :=
  BitVec.ofNat 64 (fs.foldl (fun n f => n + f.2.2 % 2 ^ f.2.1 * 2 ^ f.1) 0)

/-- A flag as a number. -/
def bit (b : Bool) : Nat := if b then 1 else 0

/-- A number of 64 bits whose listed bits are set. -/
def bitSet (ns : List Nat) : Nat := ns.foldl (fun n i => n ||| 2 ^ i) 0

/-! ### `GLOBAL`, `GAUGER`, `PACE` -/

/-- Physical tuns in a state. -/
def tunsIn (s : State) (st : TunState) : Nat := ((List.range 68).filter fun t => (s.tun t).st = st).length

/-- A page of a range has a pending class that is not masked. -/
def anyActive (s : State) (first last : Nat) : Bool := s.pages.any fun e => first ≤ e.1 && e.1 ≤ last && e.2.active

/-- Table 22.11. -/
def readGlobal (s : State) : Nat → Word64
  | 0x080 => 0x44C0
  | 0x088 => s.fuses.serial
  | 0x0A0 => pack [(32, 1, bit s.glob.ready), (16, 8, s.glob.startFail), (8, 4, s.glob.warmStep), (0, 4, s.glob.startStep)]
  | 0x0A8 => pack [(32, 7, tunsIn s .bist), (24, 7, tunsIn s .retired + tunsIn s .down), (16, 7, tunsIn s .fenced + tunsIn s .resetting),
      (8, 7, tunsIn s .spare), (0, 7, tunCount s)]
  | 0x0B0 => pack [(20, 1, bit (anyActive s 0x1C0 0x1CF)), (19, 1, bit (anyActive s 0x1A0 0x1BF)), (18, 1, bit (anyActive s 0x180 0x19F)),
      (17, 1, bit (anyActive s 0x100 0x17F)), (16, 1, bit (anyActive s 0x080 0x0C3)),
      (0, 16, bitSet ((List.range 16).filter fun n => (s.page n).active))]
  | 0x0C8 => tget 0 s.glob.tenantBuf (regFld s pgGlobal 0x0C0 16 2)
  | off => reg s pgGlobal off

/-- Tables 15.3 to 15.6. -/
def readGauger (s : State) : Nat → Word64
  | 0x080 => BitVec.ofNat 64 s.gauger.seq
  | 0x088 => pack [(32, 32, s.gauger.seq / 2 ^ 32), (0, 32, s.gauger.compareFaults)]
  | 0x090 => s.gauger.calibrated
  | 0x098 => pack [(16, 1, bit s.gauger.refClockOk), (8, 6, s.gauger.recalTimer), (0, 6, s.gauger.standinTimer)]
  | _ => 0

/-- `POWER_STATE` (Table 18.10): the latest stage of the warning, then a thermal halt, the thermal cap, a cap that narrows the gate or the
voltage. -/
def powerState (s : State) : Nat :=
  let p := s.pace
  if p.closed then 6 else if p.pfw && !p.settling then 5 else if p.pfw then 4 else if p.thermHalted then 3 else if p.thermActive then 2
  else if p.gate < 16 || p.vddReq < regFld s pgPace 0x080 0 10 then 1 else 0

/-- Tables 18.6 to 18.13. -/
def readPace (s : State) : Nat → Word64
  | 0x0A0 => pack [(48, 16, s.pace.paceMhz), (32, 16, s.pace.vddReq), (16, 16, s.pace.vddMeas), (8, 4, s.pace.capSource),
      (3, 5, s.pace.gate), (0, 3, powerState s)]
  | 0x0A8 => pack [(40, 8, s.pace.capEff), (32, 8, s.pace.portCap), (16, 16, s.pace.avgDw), (0, 16, s.pace.instDw)]
  | 0x0B0 => pack [(32, 32, s.pace.capUnmet), (24, 8, s.pace.tjMax), (16, 8, s.pace.tjSensor), (8, 8, s.pace.thermCap),
      (1, 1, bit s.pace.chipWarn), (0, 1, bit s.pace.thermHalted)]
  | 0x0B8 =>
    let i := regFld s pgPace 0x0B8 0 7
    pack [(32, 32, (s.sag i).events), (8, 3, (s.sag i).steps), (0, 7, i)]
  | off => reg s pgPace off

/-! ### `INTEGRITY`, `REPAIR`, `LOGBOOK`, `KEYS` -/

/-- `SELFTEST_LATE` (R333): some active tun has been left untested for two cycles. -/
def selftestLate (s : State) : Bool := s.tuns.any fun e => e.2.st = .active && 2 ≤ e.2.untested

/-- Tables 16.7 to 16.15. -/
def readIntegrity (s : State) : Nat → Word64
  | 0x0A0 => pack [(32, 16, s.integrity.selftestCycles), (16, 1, bit (selftestLate s)),
      (8, 8, if selftestOn s then s.integrity.selftestTun.getD 0xFF else 0xFF), (0, 1, regFld s pgIntegrity 0x0A0 0 1)]
  | 0x0A8 => pack [(48, 16, s.integrity.countL5), (32, 16, s.integrity.countL4), (16, 16, s.integrity.countL3), (0, 16, s.integrity.countL2)]
  | 0x0B0 => pack [(48, 16, s.integrity.tensorsLost), (32, 16, s.integrity.updatesLost), (16, 16, s.integrity.countL7),
      (0, 16, s.integrity.countL6)]
  | 0x0B8 => pack [(32, 32, s.integrity.sramUncorrectable), (0, 32, s.integrity.sramCorrected)]
  | 0x0C0 => BitVec.ofNat 64 s.integrity.lastId
  | 0x0C8 => pack [(48, 16, s.integrity.lastObject), (32, 8, s.integrity.lastSource), (4, 4, s.integrity.lastLevel),
      (0, 4, s.integrity.lastFirst)]
  | off => reg s pgIntegrity off

/-- Tables 17.10 to 17.16. -/
def readRepair (s : State) : Nat → Word64
  | 0x080 => pack [(16, 2, bit s.repair.badA.isEmpty + 2 * bit s.repair.badB.isEmpty), (0, 13, mapRecords s)]
  | 0x098 => pack [(32, 32, s.repair.retunes), (8, 8, s.repair.limitGroups.length),
      (0, 5, s.repair.trims.foldl (fun m e => max m e.2) 0)]
  | 0x0A0 =>
    let g := regFld s pgRepair 0x0A0 0 8
    pack [(32, 32, tget 0 s.repair.margins g), (8, 5, trimOf s g), (0, 8, g)]
  | 0x0B0 => pack [(48, 3, s.repair.fw.pairNow.getD 7), (40, 8, s.repair.fw.status), (39, 1, bit s.repair.fw.busy),
      (0, 32, regFld s pgRepair 0x0B0 0 32)]
  | 0x0B8 => pack [(32, 32, s.repair.fw.staged), (0, 32, s.repair.fw.running)]
  | off => reg s pgRepair off

/-- Tables 19.4 to 19.11. -/
def readLogbook (s : State) (off : Nat) : Word64 :=
  if 0x0A8 ≤ off ∧ off ≤ 0x0E0 then BitVec.ofNat 64 (le s.log.selData (off - 0x0A8) 8)
  else match off with
    | 0x080 => pack [(50, 1, bit s.log.bank1Ok), (49, 1, bit s.log.bank0Ok), (48, 1, bit s.log.clearing), (32, 13, s.log.ffUsed),
        (0, 18, s.log.ringNext)]
    | 0x088 => BitVec.ofNat 64 s.log.appends
    | 0x090 => BitVec.ofNat 64 s.log.powerOnCount
    | 0x0A0 => BitVec.ofNat 64 s.log.selCopy
    | 0x0F0 => pack [(32, 32, s.log.drops), (0, 32, s.log.crcFails)]
    | off => reg s pgLogbook off

/-- The selected connection slot. -/
def selectedSlot (s : State) : Option KeySlot := tget none s.keys.slots (slotOf (regFld s pgKeys 0x180 0 8) (regFld s pgKeys 0x180 8 1 = 1))

/-- Tables 21.4 to 21.9: `WO` fields read zero. -/
def readKeys (s : State) (off : Nat) : Word64 :=
  if 0x088 ≤ off ∧ off ≤ 0x0E0 then
    if s.keys.pubValid then BitVec.ofNat 64 (le (Config.loadPublicKey s.keys.loadPair) (off - 0x088) 8) else 0
  else match off with
    | 0x080 => pack [(16, 8, s.keys.slots.length), (2, 1, bit s.keys.busy.isSome), (1, 1, bit s.keys.pubValid), (0, 1, bit s.fuses.rootOk)]
    | 0x188 => match selectedSlot s with
      | some k => pack [(24, 2, 1), (0, 24, (Config.keyCheckValue k.key).toNat)]
      | none => 0
    | 0x1A8 => pack [(32, 32, s.keys.rotations), (0, 32, s.keys.unwrapFails)]
    | off => reg s pgKeys off

/-! ### `GRIST`, `SPLICE`, `CELLAR` -/

/-- Tables 4.7 to 4.13. -/
def readGrist (s : State) : Nat → Word64
  | 0x098 => pack [(32, 14, s.dir.side.length), (0, 25, (s.dir.buckets.map fun b => b.2.length).sum)]
  | 0x0A0 => pack [(16, 16, s.heldGroups.length), (0, 9, openGyles s)]
  | 0x0A8 => BitVec.ofNat 64 s.sortRows
  | 0x0B0 => BitVec.ofNat 64 s.dir.refusals
  | off => reg s pgGrist off

/-- Tables 6.9 to 6.13. -/
def readSplice (s : State) : Nat → Word64
  | 0x088 => (s.planInForce.map (·.id)).getD 0
  | 0x090 => (s.planStaged.map (·.id)).getD 0
  | 0x0A0 => BitVec.ofNat 64 (ceilDiv s.spillUsed 1024)
  | off => reg s pgSplice off

/-- `CASK_STATE` (Table 8.4). -/
def CaskState.code : CaskState → Nat
  | .free => 0 | .filling => 1 | .resident => 2 | .stale => 3 | .evicting => 4

/-- The `FORM` byte of a header (Table 2.4). -/
def formByte (h : AdapterHdr) : Nat :=
  (match h.form with
    | .direct => 0
    | .member => 1
    | .basis => 2) + 16 * bit h.bucketMember + 32 * bit h.shared

/-- Bytes 0 to 63 of a cask descriptor (Table 8.5); none of a `FREE` index. -/
def caskDesc (s : State) (i : Nat) : List Byte :=
  let c := s.cask i
  let h := ((verOf s c.epoch c.adapter c.version).map (·.hdr)).getD { form := c.form }
  let flags := bit c.basis + 2 * bit c.fallbackHold + 4 * bit c.memberHold + 8 * bit c.stateArea + 16 * bit c.fetchedCopy +
    32 * bit c.probation + 64 * bit (!c.trainHolds.isEmpty)
  if c.st = .free then []
  else leBytes 3 c.adapter ++ leBytes 1 c.st.code ++ leBytes 2 c.tenant ++ leBytes 1 flags ++ leBytes 1 (formByte h) ++
    leBytes 6 c.version ++ leBytes 2 c.slotCount ++ leBytes 8 c.bytes ++ leBytes 2 c.freq ++ leBytes 2 c.pins ++
    leBytes 2 c.binds.length ++ leBytes 2 0 ++ leBytes 8 c.fp.toNat ++ leBytes 8 c.loadedSeq ++ leBytes 8 c.dirtySeq ++
    leBytes 2 c.present.length ++ leBytes 6 0

/-- `DIRTY_MASK` of a cask descriptor (bytes 64 to 319): a bit for each side of each slot entry, set by its tensor or vector and by its state
arrays. -/
def dirtyMask (s : State) (c : Cask) : List Byte :=
  let v := (verOf s c.epoch c.adapter c.version).getD {}
  let per := match v.state with
    | some st => max 1 (arraysPer st.optKind)
    | none => 1
  let side := fun (i : Nat) => if i < 2 * v.slots.length then i else (i - 2 * v.slots.length) / per
  leBytes 256 (((c.dirty.map side).eraseDups.map (2 ^ ·)).sum)

/-- The 320 bytes of a cask descriptor (Table 8.5). -/
def fullDesc (s : State) (i : Nat) : List Byte :=
  match caskDesc s i with
  | [] => []
  | d => d ++ dirtyMask s (s.cask i)

/-- Casks that satisfy a condition. -/
def casksWith (s : State) (p : Cask → Bool) : Nat := ((caskList s).filter fun e => p e.2).length

/-- Spare rows in use, at test and by record (Table 8.14). -/
def spareRowsUsed (s : State) : Nat :=
  let banks := ((mapInForce s).filter fun r => r.kind = .cellarRow).map (·.object)
  ((s.fuses.spareRows.map (·.1) ++ banks).eraseDups.map (spareRowsOf s)).sum

/-- Pinned adapters whose casks are not `RESIDENT`. -/
def pinsPending (s : State) : Nat :=
  (((s.cellar.pins.map (·.adapter)).eraseDups).filter fun a => !(caskList s).any fun e =>
    e.2.adapter = a && caskCurrent s e.2 && e.2.st = .resident).length

/-- The block has left the reset state in which Table 8.9 shows no free pool bytes (log entry 44). -/
def cellarUp (s : State) : Bool := s.glob.ready || s.glob.startStep ≠ 1

/-- Tables 8.7 to 8.17. -/
def readCellar (s : State) (off : Nat) : Word64 :=
  if 0x0D0 ≤ off ∧ off ≤ 0x108 then BitVec.ofNat 64 (le s.cellar.descCopy (off - 0x0D0) 8)
  else match off with
    | 0x090 => pack [(48, 12, pinnedBytes s (fun _ => true) / mib), (32, 12, ullageUsed s / mib), (16, 12, if cellarUp s then freeNow s / mib else 0),
        (0, 12, poolTotal s / mib)]
    | 0x098 => pack [(48, 13, casksWith s (·.st = .stale)), (32, 13, casksWith s (·.probation)), (16, 13, casksWith s Cask.held),
        (0, 13, (caskList s).length)]
    | 0x0A0 => pack [(32, 32, s.cellar.filterLosses), (0, 32, s.cellar.evictions)]
    | 0x0A8 => pack [(32, 15, pinsPending s), (0, 32, s.cellar.noSpaceAdmits)]
    | 0x0B0 => pack [(32, 16, s.cellar.uncorrectable), (0, 32, s.cellar.corrected)]
    | 0x0B8 => pack [(32, 6, s.cellar.regionsRemapped), (16, 16, s.fuses.spareCols), (0, 16, spareRowsUsed s)]
    | off => reg s pgCellar off

/-! ### `TIERS`, `HOMES`, `KILN`, `TRAIN` -/

/-- `WIN_CTRL` of a window (Table 9.15). -/
def readWinCtrl (s : State) (w : Nat) : Word64 :=
  pack [(40, 8, (winOf s w).status), (39, 1, bit (winOf s w).busy), (0, 32, regFld s pgTiers (winOff w + 16) 0 32)]

/-- Tables 9.9 to 9.16. -/
def readTiers (s : State) : Nat → Word64
  | 0x090 => pack [(32, 32, warmBytes s / mib), (0, 32, if t2Size s = 0 then 0 else (t2Fixed s + warmBytes s) / mib)]
  | 0x098 => pack [(48, 16, ((s.tiers.lent.filter (·.active)).map (·.gibs)).sum), (32, 16, (s.tiers.borrowed.map (·.gibs)).sum),
      (24, 8, bitSet (s.tiers.borrowed.map (·.grant))), (8, 1, bit s.tiers.testHold), (0, 1, bit s.tiers.singleHome)]
  | 0x0B0 => readWinCtrl s 0
  | 0x0C8 => readWinCtrl s 1
  | 0x0D0 => BitVec.ofNat 64 s.tiers.fetchT2
  | 0x0D8 => BitVec.ofNat 64 s.tiers.fetchT3
  | 0x0E0 => BitVec.ofNat 64 s.tiers.fetchT4
  | off => reg s pgTiers off

/-- The selected shard's entry: its home, and its load where this block is that home (Table 10.11). -/
def readShard (s : State) : Word64 :=
  let i := regFld s pgHomes 0x088 0 12
  let h := tget 0 s.cat.shard i
  pack [(32, 32, if h = selfPeer s then tget 0 s.homes.loads i else 0), (0, 7, h)]

/-- Table 10.13. -/
def readRack (s : State) : Word64 :=
  match s.homes.rack with
  | some r => pack [(40, 24, r.adapter), (33, 7, r.dest), (29, 4, r.phase), (25, 4, r.round), (0, 16, s.homes.freezeLast)]
  | none => pack [(0, 16, s.homes.freezeLast)]

/-- Tables 10.9 to 10.17. -/
def readHomes (s : State) : Nat → Word64
  | 0x090 => readShard s
  | 0x0A0 => readRack s
  | 0x0A8 => BitVec.ofNat 64 s.cat.exceptions.length
  | 0x0B0 => pack [(32, 16, (s.catRetiring.map (·.epoch)).getD 0), (16, 16, (s.catStaged.map (·.epoch)).getD 0), (0, 16, s.cat.epoch)]
  | 0x0B8 => BitVec.ofNat 64 (bitSet (s.homes.peersUp.filter (· < 64)))
  | 0x0C0 => BitVec.ofNat 64 (bitSet ((s.homes.peersUp.filter (64 ≤ ·)).map (· - 64)))
  | 0x0C8 => pack [(32, 32, s.homes.farRowsServed), (0, 32, s.homes.farRowsSent)]
  | 0x0D0 => pack [(32, 32, s.homes.redirects), (0, 32, s.homes.msgDrops)]
  | off => reg s pgHomes off

/-- `KILN_PHASE` (Table 11.3). -/
def KilnPhase.code : KilnPhase → Nat
  | .unmounted => 0 | .mounting => 1 | .inService => 2 | .degraded => 3 | .closed => 4 | .failed => 5

/-- The kiln has been mounted since the last reset: what its medium holds is known. -/
def kilnKnown (s : State) : Bool := s.kiln.phase ≠ .unmounted && s.kiln.phase ≠ .mounting

/-- Tables 11.3 to 11.10. -/
def readKiln (s : State) : Nat → Word64
  | 0x080 => pack [(32, 32, bitSet (devicesRetired s)), (8, 6, devicesInService s), (0, 3, s.kiln.phase.code)]
  | 0x088 => pack [(32, 32, kilnFree s / gib), (0, 32, s.kiln.usableGib)]
  | 0x0A0 => if kilnKnown s then BitVec.ofNat 64 s.kiln.ckpt.seq else 0
  | 0x0A8 => pack [(32, 32, s.kiln.reconstructs), (0, 32, s.kiln.crcFails)]
  | 0x0B0 => if kilnKnown s then pack [(32, 32, eraseMax s), (0, 32, eraseMin s)] else 0
  | off => reg s pgKiln off

/-- Gradient scratch in use, in bytes (R145). -/
def scratchUsed (s : State) : Nat := (s.train.scratch.map fun p => 4 * p.values.length).sum

/-- Tables 7.8 to 7.15. -/
def readTrain (s : State) : Nat → Word64
  | 0x090 => BitVec.ofNat 64 (ceilDiv (dirtyBytes s) 1024)
  | 0x0C8 => pack [(32, 32, s.train.dropped), (0, 32, s.train.applied)]
  | 0x0D0 => pack [(32, 7, trainGyles s), (0, 32, ceilDiv (scratchUsed s) 1024)]
  | off => reg s pgTrain off

/-! ### `SERVICE`, `BOUNDARY` -/

/-- `PAIR_STATE` (Table 22.13). -/
def PairState.code : PairState → Nat
  | .down => 0 | .serving => 1 | .restarting => 2 | .activating => 3 | .stopped => 4

/-- Kiln writes that wait on pair 1 (Table 22.13). -/
def kilnWaiting (s : State) : Nat := if pairAway s 1 then s.kiln.pending.length else 0

/-- Table 22.13. -/
def readService (s : State) : Nat → Word64
  | 0x080 => pack ((List.range 4).map fun p => (8 * p, 3, (tget .down s.repair.pairs p).code))
  | 0x088 => pack ((List.range 4).map fun p => (16 * p, 16, tget 0 s.repair.pairRestarts p))
  | 0x090 => pack [(48, 16, s.log.queue.length), (32, 16, sat 16 (kilnWaiting s)), (16, 16, sat 16 s.homes.msgsQueued.length),
      (0, 16, sat 16 s.cellar.waiting.length)]
  | _ => 0

/-- `BND_DOMAIN_OK` k (Table 23.11). -/
def domainWord (s : State) (k : Nat) : Word64 :=
  BitVec.ofNat 64 (bitSet ((List.range 64).filter fun b => 64 * k + b < 211 && domainPresent s (64 * k + b)))

/-- Tables 23.11 to 23.13. -/
def readBoundary (s : State) : Nat → Word64
  | 0x080 => domainWord s 0
  | 0x088 => domainWord s 1
  | 0x090 => domainWord s 2
  | 0x098 => domainWord s 3
  | 0x0A0 => pack [(32, 32, s.boundary.clockLosses), (0, 32, s.boundary.syncParity)]
  | 0x0A8 => pack [(32, 32, s.boundary.warmResets), (0, 4, s.boundary.lastCause)]
  | _ => 0

/-! ### Pages of instances -/

/-- `CTX_STATE` (Table 12.6). -/
def CtxState.code : CtxState → Nat
  | .down => 0 | .ready => 1 | .running => 2 | .quiesced => 3 | .faulted => 4 | .resetting => 5

/-- Tables 12.6 to 12.15, 9.6. -/
def readCtx (s : State) (c : Nat) : Nat → Word64
  | 0x088 => pack [(16, 16, (s.ctx c).epoch), (8, 8, (s.ctx c).faultCause), (3, 1, bit (s.ctx c).teardownDone), (0, 3, (s.ctx c).st.code)]
  | 0x0A8 => BitVec.ofNat 64 (s.ctx c).sqTail
  | 0x0B0 => BitVec.ofNat 64 (s.ctx c).sqHead
  | 0x0B8 => pack [(32, 32, (s.ctx c).cqResv), (0, 32, (s.ctx c).cqTail)]
  | 0x0C0 => BitVec.ofNat 64 (s.ctx c).cqHead
  | 0x0D0 => tget 0 (s.ctx c).tenants (regFld s (pgCtx c) 0x0C8 0 6)
  | 0x0D8 => pack [(32, 32, ceilDiv (ctxT2 s c) mib), (0, 32, regFld s (pgCtx c) 0x0D8 0 32)]
  | 0x0E8 => pack [(40, 7, ctxTrainGyles s c), (24, 9, ctxGyles s c), (0, 17, ctxHandles s c)]
  | 0x0F0 => BitVec.ofNat 64 (s.ctx c).faultSeq
  | off => reg s (pgCtx c) off

/-- `TUN_STATE` (Table 5.5). -/
def TunState.code : TunState → Nat
  | .down => 0 | .active => 1 | .spare => 2 | .bist => 3 | .fenced => 4 | .resetting => 5 | .retired => 6

/-- Tables 5.5 to 5.10. -/
def readTun (s : State) (t : Nat) : Nat → Word64
  | 0x080 => pack [(30, 2, (s.tun t).spare1Src), (25, 5, (s.tun t).spare1.getD 0), (23, 2, (s.tun t).spare0Src),
      (18, 5, (s.tun t).spare0.getD 0), (8, 8, (s.tun t).logical.getD 0xFF), (0, 3, (s.tun t).st.code)]
  | 0x090 => pack [(32, 16, (s.tun t).queue.length), (0, 32, backlog s t)]
  | 0x098 => BitVec.ofNat 64 (s.tun t).handshakesRun
  | 0x0A0 => pack [(32, 32, (s.tun t).partialIssues), (0, 32, (s.tun t).tileWaits)]
  | 0x0A8 => pack [(32, 16, (s.tun t).tagMismatches), (0, 32, (s.tun t).checksumMismatches)]
  | off => reg s (pgTun t) off

/-- The plan in force uses a port. -/
def portInPlan (s : State) (p : Nat) : Bool := (s.planInForce.map fun x => x.ports.getLsbD p).getD false

/-- Tables 6.14 to 6.18. -/
def readPort (s : State) (p : Nat) : Nat → Word64
  | 0x080 => pack [(8, 3, (creditPlaces s p).length), (1, 1, bit (portInPlan s p)), (0, 1, bit (domainPresent s p))]
  | 0x088 => BitVec.ofNat 64 (s.port p).beatsIn
  | 0x090 => BitVec.ofNat 64 (s.port p).beatsOut
  | 0x098 => BitVec.ofNat 64 (s.port p).tagErrors
  | 0x0A0 => pack [(32, 32, (s.port p).creditHolds), (0, 32, (s.port p).spillRows)]
  | _ => 0

/-- `CHAN_STATE` (Table 11.11). -/
def ChanState.code : ChanState → Nat
  | .none => 0 | .inService => 1 | .retired => 2 | .training => 3

/-- Tables 11.11 to 11.13. -/
def readChan (s : State) (d : Nat) : Nat → Word64
  | 0x080 => pack [(32, 16, (s.chan d).mts), (8, 3, (s.chan d).ces), (0, 2, (s.chan d).st.code)]
  | 0x088 => pack [(32, 32, (s.chan d).ldpcSoft), (0, 32, (s.chan d).ldpcHard)]
  | 0x090 => pack [(32, 32, (s.chan d).peFails), (0, 32, (s.chan d).ldpcFails)]
  | _ => 0

/-- A memory port and a fabric port. -/
def State.mport (s : State) (p : Nat) : MemPort := tget {} s.boundary.mem p
def State.fport (s : State) (p : Nat) : FabPort := tget {} s.boundary.fab p

/-- Table 23.14. -/
def readMem (s : State) (p : Nat) : Nat → Word64
  | 0x080 => pack [(32, 11, (s.mport p).outstanding.length), (0, 1, bit (domainPresent s (128 + p)))]
  | 0x088 => BitVec.ofNat 64 (s.mport p).readBytes
  | 0x090 => BitVec.ofNat 64 (s.mport p).writeBytes
  | 0x098 => pack [(32, 32, (s.mport p).retries), (0, 32, (s.mport p).errors)]
  | _ => 0

/-- Table 23.15. -/
def readFab (s : State) (p : Nat) : Nat → Word64
  | 0x080 => pack [(32, 3, (s.homes.peersUp.filter (· % 16 = p)).length), (0, 1, bit (domainPresent s (192 + p)))]
  | 0x088 => BitVec.ofNat 64 (s.fport p).txBytes
  | 0x090 => BitVec.ofNat 64 (s.fport p).rxBytes
  | 0x098 => pack [(32, 32, (s.fport p).checkFails), (0, 32, (s.fport p).wrongPort)]
  | _ => 0

/-- A unit-specific register as it stands. -/
def readUnit (s : State) (u : PageUnit) (n off : Nat) : Word64 :=
  match u with
  | .global => readGlobal s off | .gauger => readGauger s off | .pace => readPace s off | .integrity => readIntegrity s off
  | .repair => readRepair s off | .logbook => readLogbook s off | .keys => readKeys s off | .grist => readGrist s off
  | .splice => readSplice s off | .cellar => readCellar s off | .tiers => readTiers s off | .homes => readHomes s off
  | .kiln => readKiln s off | .train => readTrain s off | .service => readService s off | .boundary => readBoundary s off
  | .submitter => readCtx s n off | .tun => readTun s n off | .splicePort => readPort s n off | .kilnChannel => readChan s n off
  | .memport => readMem s n off | .fabric => readFab s n off

/-! ### The common header (Tables 22.2 to 22.8) -/

/-- `UNIT_STATE` of a context, a tun, the kiln, a channel (Table 22.6). -/
def ctxUnitState : CtxState → Nat
  | .down => 0 | .ready | .running => 2 | .quiesced => 4 | .resetting => 5 | .faulted => 6
def tunUnitState : TunState → Nat
  | .down => 0 | .active | .spare => 2 | .bist => 4 | .resetting => 5 | .fenced | .retired => 6
def kilnUnitState : KilnPhase → Nat
  | .unmounted => 0 | .mounting => 1 | .inService => 2 | .degraded => 3 | .closed => 4 | .failed => 6
def chanUnitState : ChanState → Nat
  | .none => 0 | .training => 1 | .inService => 2 | .retired => 6

/-- `UNIT_STATE` of `GLOBAL` (Table 22.6). -/
def globalUnitState (s : State) : Nat :=
  if s.glob.startFail ≠ 0 || s.integrity.stopped then 6
  else if s.glob.warmStep ≠ 0 then 5
  else if s.pace.thermHalted || s.pace.closed then 4
  else if !s.glob.ready then 1
  else if tunCount s < 64 then 3 else 2

/-- `UNIT_STATE` (R421, Table 22.6). -/
def unitState (s : State) (u : PageUnit) (n : Nat) : Nat :=
  match u with
  | .global => globalUnitState s
  | .logbook => 2
  | .submitter => if !s.glob.ready then 1 else ctxUnitState (s.ctx n).st
  | .tun => if !s.glob.ready then 1 else tunUnitState (s.tun n).st
  | .kiln => if s.glob.ready || kilnUnitState s.kiln.phase = 4 || kilnUnitState s.kiln.phase = 6 then kilnUnitState s.kiln.phase else 1
  | .kilnChannel => if !s.glob.ready then 1 else chanUnitState (s.chan n).st
  | .splicePort => if !s.glob.ready then 1 else if domainPresent s n then 2 else 0
  | .memport => if !s.glob.ready then 1 else if domainPresent s (128 + n) then 2 else 0
  | .fabric => if !s.glob.ready then 1 else if domainPresent s (192 + n) then 2 else 0
  | .service =>
    if !s.glob.ready then 1
    else if (List.range 4).any fun p => pairAway s p then 3 else 2
  | _ => if s.glob.ready then 2 else 1

/-- A header register. -/
def readHeader (s : State) (page : Nat) (u : PageUnit) (n off : Nat) : Word64 :=
  let h := s.page page
  match off with
  | 0x000 => pack [(48, 8, unitClass u), (32, 16, n), (16, 8, 1), (0, 16, 0x504C)]
  | 0x008 => pack [(16, 12, unitEnd u), (9, 1, bit (u = .submitter)), (8, 1, bit (u ≠ .submitter)), (0, 6, classCount u)]
  | 0x010 => BitVec.ofNat 64 (bit h.snap.isSome)
  | 0x018 => pack [(8, 1, bit h.snap.isSome), (0, 4, unitState s u n)]
  | 0x020 => BitVec.ofNat 64 h.eventSeq
  | 0x028 => BitVec.ofNat 64 h.ack
  | 0x030 => h.pend
  | 0x038 => h.mask
  | 0x040 => h.errCode
  | 0x048 => BitVec.ofNat 64 h.errSeq
  | 0x050 => BitVec.ofNat 64 h.faultCount
  | 0x058 => pack [(4, 2, rwlOwner u), (0, 2, h.ctxRole)]
  | _ => 0

/-! ### The counter snapshot (R425) -/

/-- The counter fields of a page: register offset, bit, width. They are the fields that their chapters say stop at their largest value. -/
def counters : PageUnit → List (Nat × Nat × Nat)
  | .gauger => [(0x088, 0, 32)]
  | .pace => [(0x0B0, 32, 32), (0x0B8, 32, 32)]
  | .integrity => [(0x0A0, 32, 16), (0x0A8, 0, 64), (0x0B0, 0, 64), (0x0B8, 0, 64)]
  | .repair => [(0x098, 32, 32)]
  | .logbook => [(0x088, 0, 64), (0x0F0, 0, 64)]
  | .keys => [(0x1A8, 0, 64)]
  | .grist => [(0x0B0, 0, 32)]
  | .cellar => [(0x0A0, 0, 64), (0x0A8, 0, 32), (0x0B0, 0, 48)]
  | .tiers => [(0x0D0, 0, 64), (0x0D8, 0, 64), (0x0E0, 0, 64)]
  | .homes => [(0x0C8, 0, 64), (0x0D0, 0, 64)]
  | .kiln => [(0x0A8, 0, 64)]
  | .train => [(0x0C8, 0, 64)]
  | .service => [(0x088, 0, 64)]
  | .boundary => [(0x0A0, 0, 64), (0x0A8, 32, 32)]
  | .tun => [(0x098, 0, 64), (0x0A0, 0, 64), (0x0A8, 0, 48)]
  | .splicePort => [(0x088, 0, 64), (0x090, 0, 64), (0x098, 0, 32), (0x0A0, 0, 64)]
  | .kilnChannel => [(0x088, 0, 64), (0x090, 0, 64)]
  | .memport | .fabric => [(0x088, 0, 64), (0x090, 0, 64), (0x098, 0, 64)]
  | .global | .splice | .submitter => []

/-- The bits of a register that are counter fields; `FAULT_COUNT` of every header is one. -/
def counterMask (u : PageUnit) (off : Nat) : Word64 :=
  pack ((((0x050, 0, 32) :: counters u).filter fun f => f.1 = off).map fun f => (f.2.1, f.2.2, 2 ^ f.2.2 - 1))

/-- A register as it stands, header or unit. -/
def readLive (s : State) (page : Nat) (u : PageUnit) (n off : Nat) : Word64 :=
  if off < 0x080 then readHeader s page u n off
  else if (readOnlyOffs u).contains off || (unitRegs u).any (·.off = off) then readUnit s u n off else 0

/-- `SAG_EVENTS` of every sensor stands in a snapshot of `PACE` beside the selected one, at 0x1000 and above. -/
def sagSnap (s : State) : PageUnit → List (Nat × Word64)
  | .pace => (List.range 72).map fun i => (0x1000 + i, pack [(32, 32, (s.sag i).events)])
  | _ => []

/-- The counters of a page as a snapshot holds them. -/
def takeSnap (s : State) (page : Nat) (u : PageUnit) (n : Nat) : List (Nat × Word64) :=
  (((0x050 :: (counters u).map (·.1)).eraseDups).map fun off => (off, readLive s page u n off)) ++ sagSnap s u

/-- What a held snapshot gives for a register. -/
def snapValue (s : State) (u : PageUnit) (snap : List (Nat × Word64)) (off : Nat) : Word64 :=
  let key := if u = .pace ∧ off = 0x0B8 then 0x1000 + regFld s pgPace 0x0B8 0 7 else off
  ((snap.find? fun e => e.1 = key).map (·.2)).getD 0

/-- A register read at a page and offset: unmapped pages and offsets read zero (R415); while a snapshot is held, counter fields read as it
took them (R425). -/
def readReg (s : State) (page off : Nat) : Word64 :=
  match pageUnit page with
  | none => 0
  | some (u, n) =>
    let w := readLive s page u n off
    match (s.page page).snap with
    | none => w
    | some snap => (w &&& ~~~ counterMask u off) ||| (snapValue s u snap off &&& counterMask u off)

/-- A read by a role: one tagged 0b11 returns zero data with `NO_PERMISSION` (R417, R443). -/
def readBy (s : State) (page off : Nat) (role : Role) : Word64 × Nat :=
  if role = .bad then (0, stNoPermission) else (readReg s page off, stDone)

/-- A read at the control port. The gauger stamps a read of `GAUGER_SEQ`, and it returns that sequence (R323); the table of commands has
no row for a read (log entry 27). -/
def readAccess (page off : Nat) (role : Role) (s : State) : State :=
  let s := if page = pgGauger && off = 0x080 && role ≠ .bad then stamp s else s
  emit s (.response (readBy s page off role).1 (readBy s page off role).2)

/-- `COUNT_SNAP`: 1 takes a fresh snapshot, 0 releases it (R425). -/
def countSnap (page : Nat) (v : Word64) (s : State) : State :=
  match pageUnit page with
  | none => s
  | some (u, n) =>
    let snap := if fld v 0 1 = 1 then some (takeSnap s page u n) else none
    { s with pages := tmod {} s.pages page fun h => { h with snap } }

/-- `COUNT_SNAP_WRITE` (R425). -/
def execCountSnapWrite (page : BitVec 12) (value : Word64) (role : Role) (s : State) : Host.Outcome State Fault Refusal :=
  .next (busWrite page.toNat 0x010 value role (fun _ => none) (countSnap page.toNat value) s)

/-- A write of `CASK_SEL` copies the selected descriptor (R183). -/
def caskSelect (v : Word64) (s : State) : State :=
  let s := storeReg pgCellar 0x0C8 v s
  { s with cellar := { s.cellar with descCopy := caskDesc s (fld v 0 12) } }

/-- `CASK_SEL_WRITE` (R183). -/
def execCaskSelWrite (value : Word64) (role : Role) (s : State) : Host.Outcome State Fault Refusal :=
  .next (busWrite pgCellar 0x0C8 value role (fun _ => none) (caskSelect value) s)

/-! ### Output pins -/

/-- The power port's outputs (Table 23.8): the requested voltage in mV, power in units of 0.1 W, the hottest junction in °C, issue
halted, and step 6 of Table 18.5 reached. -/
def pinVreqMv (s : State) : Nat := s.pace.vddReq
def pinPowerDw (s : State) : Nat := s.pace.instDw
def pinTjMax (s : State) : Nat := s.pace.tjMax
def pinHalted (s : State) : Bool := s.pace.thermHalted
def pinClosed (s : State) : Bool := s.pace.closed

/-- `WP_n` of the flash channels: low from power-good until the mount begins (R442). -/
def pinWriteProtect (s : State) : Bool := s.glob.powered && s.glob.mountBegun

end Sys2Proof.Machine
end

