-- ==== Sys2Proof/Machine/Windows.lean ====
section
/-! DEFINITION. The address windows of the `TIERS` page (R77, R168, R205): what a tier's bytes are as far as the state holds them, and the
transfers between a tier and chip memory. -/
namespace Sys2Proof.Machine

/-! ### Starting a transfer -/

/-- Replace a window. -/
def setWin (s : State) (w : Nat) (x : Window) : State :=
  { s with tiers := if w = 0 then { s.tiers with win0 := x } else { s.tiers with win1 := x } }

/-- Bytes that a tier's window addresses reach: the cellar's 4 GiB, the T2 region, a held grant, the kiln's logical space. -/
def tierBytes (s : State) (tier grant : Nat) : Nat :=
  match tier with
  | 1 => 4096 * mib
  | 2 => t2Size s
  | 3 => (((s.tiers.borrowed.find? fun b => b.grant = grant).map (·.gibs)).getD 0) * gib
  | 4 => logicalBytes s
  | _ => 0

/-- The refusals of a window transfer (R205, R245, R419): a transfer that runs, a write into T1 or T4 or a move outside the single-home
regime; then a range outside its tier, and a write into T4 outside the test area. -/
def winCheck (w op bytes : Nat) (s : State) : Option Nat :=
  let a := reg s pgTiers (winOff w)
  let tier := fld a 60 4
  if (winOf s w).busy || ((op = 3 || (op = 2 && (tier = 1 || tier = 4))) && !s.tiers.singleHome) then some stBadState
  else if tierBytes s tier (fld a 52 3) < fld a 0 48 + bytes || (op = 2 && tier = 4 && fld a 0 48 < testArea s) then some stBadField
  else none

/-- The value of `WIN_CTRL` that starts an operation. -/
def winValue (op : Nat) (bytes : BitVec 32) : Word64 := BitVec.ofNat 64 (op * 2 ^ 32 + bytes.toNat)

/-- A transfer starts, with the tier, offset and address that the window names now. -/
def winStart (w op : Nat) (bytes : BitVec 32) (s : State) : State :=
  let a := reg s pgTiers (winOff w)
  let s := storeReg pgTiers (winOff w + 16) (winValue op bytes) s
  setWin s w { winOf s w with
    busy := true, op, tier := fld a 60 4, grant := fld a 52 3, offset := fld a 0 48, bytes := bytes.toNat
    chip := (reg s pgTiers (winOff w + 8)).toNat }

/-- The write of a window's control register. -/
def winWrite (w op : Nat) (bytes : BitVec 32) (role : Role) (s : State) : State :=
  busWrite pgTiers (winOff w + 16) (winValue op bytes) role (winCheck w op bytes.toNat) (winStart w op bytes) s

/-- `WIN_READ`, `WIN_WRITE` and `WIN_MOVE` (R205). -/
def execWinRead (window : Fin 2) (bytes : BitVec 32) (role : Role) (s : State) : Host.Outcome State Fault Refusal :=
  .next (winWrite window 1 bytes role s)
def execWinWrite (window : Fin 2) (bytes : BitVec 32) (role : Role) (s : State) : Host.Outcome State Fault Refusal :=
  .next (winWrite window 2 bytes role s)
def execWinMove (window : Fin 2) (bytes : BitVec 32) (role : Role) (s : State) : Host.Outcome State Fault Refusal :=
  .next (winWrite window 3 bytes role s)

/-! ### What a tier's bytes are -/

/-- Flags of a segment descriptor (Table 4.4): the zero-key segment, and one of which some lane group is in a batch window. -/
def segFlags (s : State) (g : Gyle) (i : Nat) (x : Segment) : Nat :=
  bit x.zero + 2 * bit (s.heldGroups.any fun h => h.members.any fun m => m.2.gk = g.key && m.2.segment = i)

/-- A segment descriptor (Table 4.4). -/
def segBytes (s : State) (g : Gyle) (i : Nat) (x : Segment) : List Byte :=
  leBytes 4 x.firstPos ++ leBytes 3 x.rowCount ++ leBytes 1 (segFlags s g i x) ++ leBytes 2 x.sortKey ++ leBytes 3 x.firstRun ++
    leBytes 3 x.runs.length

/-- A run descriptor (Table 4.5): of a single adapter, or of a mixture with the chosen members of its bucket sets. -/
def runBytes (r : Run) : List Byte :=
  let members := (List.zip (List.range 4) r.comps).foldl (fun n x => n + (if x.2.isSet then x.2.member % 4096 * 2 ^ (12 * x.1) else 0)) 0
  leBytes 4 r.firstPos ++ leBytes 3 r.rowCount ++ match r.handle with
    | some h => leBytes 1 1 ++ leBytes 2 h ++ leBytes 6 members
    | none => leBytes 1 0 ++ leBytes 3 ((r.comps.head?.map (·.adapter)).getD 0) ++ leBytes 5 0

/-- A byte of a gyle's grist area by its offset (R77): row-to-position map, 8,192 segment descriptors, run descriptors; none before pass 2
has written them. -/
def areaByte (s : State) (g : Gyle) (off : Nat) : Option Byte :=
  let map := 4 * g.rowsGiven
  if g.st = .filling then none
  else if off < map then (leBytes 4 (tget 0 g.posOfRow (off / 4)))[off % 4]?
  else
    let d := off - map
    if d < 131072 then (g.segments[d / 16]?).bind fun x => (segBytes s g (d / 16) x)[d % 16]?
    else ((g.segments.flatMap (·.runs))[(d - 131072) / 16]?).bind fun r => (runBytes r)[d % 16]?

/-- The place of a gyle's grist area in the T2 region. -/
def areaAt (g : Gyle) : Nat := Config.areaPlace (g.key.owner * 65536 + g.key.num)

/-- What the block itself keeps at a byte of a tier: a cask descriptor in T1, a grist area in T2 (R77, R168). Where they stand the spec
does not say (log entry 40). -/
def unitByte (s : State) (tier off : Nat) : Option Byte :=
  match tier with
  | 1 => if off < Config.descPlace then none else (fullDesc s ((off - Config.descPlace) / 320))[(off - Config.descPlace) % 320]?
  | 2 => (s.gyles.find? fun g => !g.key.far && areaAt g ≤ off && off < areaAt g + g.areaBytes).bind fun g => areaByte s g (off - areaAt g)
  | _ => none

/-- A tensor as it stands in a tier: its place there, and what it is. -/
structure Placed where
  place : Nat
  epoch : Nat
  adapter : AdapterId
  version : Nat
  tensor : Nat
  deriving DecidableEq, Repr

/-- The tensors of a warm copy, with their places in its grant. -/
def grantPlaces (s : State) (w : Warm) : List Placed :=
  let v := (verOf s w.epoch w.adapter w.version).getD {}
  ((warmHas s w).foldl (fun (acc : Nat × List Placed) i =>
    (acc.1 + (storedBytes v i).length, acc.2 ++ [⟨acc.1, w.epoch, w.adapter, w.version, i⟩])) (w.place, [])).2

/-- The tensors and state arrays that stand in T1, in T2 or in a grant of T3. Where in T1 and T2 each stands the spec does not say (log
entry 60). -/
def tensorsIn (s : State) (tier grant : Nat) : List Placed :=
  match tier with
  | 1 => (caskList s).flatMap fun e => e.2.present.map fun i =>
      ⟨t1Place s e.2 i, e.2.epoch, e.2.adapter, e.2.version, i⟩
  | 2 => (s.tiers.warm.filter (·.grant.isNone)).flatMap (fun w => (warmHas s w).map fun i =>
        ⟨Config.tensorPlace 2 w.adapter w.version i, w.epoch, w.adapter, w.version, i⟩) ++
      (s.train.dirty.filter (·.t2)).flatMap fun d => d.tensors.map fun i =>
        ⟨Config.tensorPlace 2 d.adapter d.version i, s.cat.epoch, d.adapter, d.version, i⟩
  | 3 => (s.tiers.warm.filter (·.grant = some grant)).flatMap (grantPlaces s)
  | _ => []

/-- The bytes of a tensor in a tier. -/
def Placed.bytes (s : State) (p : Placed) : List Byte := storedBytes ((verOf s p.epoch p.adapter p.version).getD {}) p.tensor

/-- The byte of a tensor that stands at an offset of a tier. -/
def tensorByte (s : State) (tier grant off : Nat) : Option Byte :=
  (tensorsIn s tier grant).findSome? fun p => if p.place ≤ off then (p.bytes s)[off - p.place]? else none

/-- The bytes that windows have written into a tier, by offset, and the cells of a grant. -/
def tierCells (s : State) (tier grant off : Nat) : Option Byte :=
  match tier with
  | 1 => memGet s.cellar.memory off
  | 2 => memGet s.tiers.chip (t2Base s + off)
  | 3 => (s.tiers.borrowed.find? fun b => b.grant = grant).bind fun b => memGet b.cells off
  | 4 => kilnByte s off
  | _ => none

/-- A byte of a tier as far as the state holds it: written by a window, of a tensor that stands there, or the block's own. -/
def tierByte (s : State) (tier grant off : Nat) : Option Byte :=
  match tierCells s tier grant off with
  | some b => some b
  | none => match tensorByte s tier grant off with
    | some b => some b
    | none => unitByte s tier off

/-- Change the cells of a tier by `f`, which gets the place of the tier's offset 0 in them. -/
def modCells (s : State) (tier grant : Nat) (f : Nat → Memory → Memory) : State :=
  match tier with
  | 1 => { s with cellar := { s.cellar with memory := f 0 s.cellar.memory } }
  | 2 => { s with tiers := { s.tiers with chip := f (t2Base s) s.tiers.chip } }
  | 3 => { s with tiers := { s.tiers with borrowed := s.tiers.borrowed.map fun b =>
      if b.grant = grant then { b with cells := f 0 b.cells } else b } }
  | 4 => { s with kiln := { s.kiln with memory := f 0 s.kiln.memory } }
  | _ => s

/-! ### The transfer -/

/-- A tensor leaves a tier of which a move took bytes (R202). -/
def leaveTier (tier : Nat) (s : State) (p : Placed) : State :=
  match tier with
  | 1 => match caskOf s p.epoch p.adapter p.version with
    | some i => modCask s i fun c => { c with
        present := c.present.filter (· ≠ p.tensor), moved := c.moved.filter (· ≠ p.tensor) }
    | none => s
  | 2 => cutWarm s p.epoch p.adapter p.version [p.tensor]
  | 4 => leaveT4Tensor s p.epoch p.adapter p.version p.tensor
  | _ => s

/-- A tensor that a move brought whole into the block's T2 region has its home there (R202). -/
def enterT2 (s : State) (p : Placed) : State :=
  match verOf s p.epoch p.adapter p.version with
  | some v => addWarm s { adapter := p.adapter, version := p.version, tenant := v.hdr.tenant, bytes := verBytes v, lastUse := s.gauger.seq,
                          epoch := p.epoch } [p.tensor]
  | none => s

/-- What a move does to the tensors of which it takes bytes (R202): each leaves its tier, and one that comes whole into the T2 region has
its home there. That a tensor moved elsewhere, or in part, has no home left is the model's choice (log entry 60). -/
def moveHomes (s : State) (x : Window) : State :=
  let hit := (tensorsIn s x.tier x.grant).filter fun p => p.place < x.offset + x.bytes && x.offset < p.place + (p.bytes s).length
  let whole := hit.filter fun p => x.offset ≤ p.place && p.place + (p.bytes s).length ≤ x.offset + x.bytes
  let s := hit.foldl (leaveTier x.tier) s
  if t2Base s ≤ x.chip && x.chip + x.bytes ≤ t2Base s + t2Size s then whole.foldl enterT2 s else s

/-- The bytes of a transfer that succeeded: a read and a move leave the tier's bytes in chip memory, and a move releases them in the tier
(R202); a write leaves chip memory's in the tier. `data` stands for the bytes that the state does not hold. -/
def winMove (s : State) (x : Window) (data : List Byte) : State :=
  let fill := padTo x.bytes data
  if x.op = 2 then modCells s x.tier x.grant fun base m => memWrite m (base + x.offset) (overlay (memGet s.tiers.chip) x.chip fill)
  else
    let bs := overlay (tierByte s x.tier x.grant) x.offset fill
    let s := if x.op = 3 then modCells (moveHomes s x) x.tier x.grant fun base m => memDrop m (base + x.offset) x.bytes else s
    { s with tiers := { s.tiers with chip := memWrite s.tiers.chip x.chip bs } }

/-- A transfer ends: its status, and its event (R205); not due while the window is idle. -/
def winDone (w status : Nat) (data : List Byte) (s : State) : State :=
  let x := winOf s w
  if !x.busy then s
  else
    let s := stampRaise s pgTiers (1 + w)
    let s := setWin s w { x with busy := false, status := status % 256 }
    if status = stDone then winMove s x data else s

/-- `WIN_TRANSFER_DONE` (R205). -/
def execWinTransferDone (window : Fin 2) (status : Nat) (data : Met (List Byte)) (s : State) : Host.Outcome State Fault Refusal :=
  .next (meetErrors data.errors (winDone window status data.it) s)

end Sys2Proof.Machine
end

