-- ==== Sys2Proof/Machine/Bus.lean ====
section
/-! DEFINITION. Register writes that have no command of their own, and the dispatch of a write to any register (R415 to R419): each
register's state rules and other codes, and its effect, from the chapter that defines it. -/
namespace Sys2Proof.Machine

/-! ### The parts of the cellar (R163) -/

/-- The part that a register sets: its MiB as written, and as it stands. -/
def partMib (page : Nat) (v : Word64) : Nat := if page = pgGrist then fld v 0 10 else fld v 0 12
def partNow (s : State) (page : Nat) : Nat :=
  if page = pgGrist then dirCellarMib s else if page = pgTrain then scratchMib s else ullageMib s

/-- A register that sets a part of the cellar. -/
def isPart (page off : Nat) : Bool :=
  (page = pgGrist && off = 0x090) || (page = pgTrain && off = 0x098) || (page = pgCellar && off = 0x080)

/-- A raise of a part, in bytes. -/
def partRaise (page : Nat) (v : Word64) (s : State) : Nat := (partMib page v - partNow s page) * mib

/-- The refusals of R163 and R162: ullage below its use, the scratch with a training gyle open; the three parts beyond 2,912 MiB; a raise
that free and unheld bytes do not cover. -/
def partCheck (page : Nat) (v : Word64) (s : State) : Option Nat :=
  let sum := dirCellarMib s + scratchMib s + ullageMib s - partNow s page + partMib page v
  if page = pgCellar && partMib page v < partNow s page && partMib page v * mib < ullageUsed s then some stBadState
  else if page = pgTrain && s.gyles.any (fun g => g.kind = .training && !g.held && g.st ≠ .complete) then some stBadState
  else if 2912 < sum then some stBadField
  else if poolTotal s + casksFree s (growthVictims s) < poolUsed s + partRaise page v s then some stNoSpace
  else none

/-- A part's number among the raises. -/
def partIndex (page : Nat) : Nat := if page = pgGrist then 0 else if page = pgTrain then 1 else 2

/-- The register shows the new value; a raise takes free bytes first and evicts for the rest, and the part grows into those bytes as they
free (R163): no admission takes them meanwhile. What a lowering frees serves waiting admissions. -/
def partWrite (page off : Nat) (v : Word64) (s : State) : State :=
  let old := deficit s
  releaseBy s fun s =>
    let left := growthLeft s
    let s := storeReg page off v s
    coverGrowth { s with cellar := { s.cellar with growth := left ++ [(partIndex page, deficit s - old)] } }

/-- `CELLAR_PART_RAISE` (R163); not due for another register, or for a value that raises nothing. -/
def execCellarPartRaise (page offset : BitVec 12) (value : Word64) (role : Role) (s : State) : Host.Outcome State Fault Refusal :=
  .next (if isPart page.toNat offset.toNat && partNow s page.toNat < partMib page.toNat value then
      busWrite page.toNat offset.toNat value role (partCheck page.toNat value) (partWrite page.toNat offset.toNat value) s
    else s)

/-! ### State rules of plain registers -/

/-- R161, for a dirty cap in MiB and a hold-up in µs. -/
def dirtyCapFits (capMib holdupUs : Nat) : Bool := capMib * mib ≤ (holdupUs - 2000) * 48000

/-- R337 on the six budgets that a write would leave. -/
def budgetsOrdered (l2 l3 l4 l5 l6 l7 : Nat) : Bool := l2 < l3 && l3 < l4 && l4 < l7 && l5 < l7 && l6 < l7

/-- The order of the budgets after a write of one of the three registers. -/
def budgetCheck (off : Nat) (v : Word64) (s : State) : Option Nat :=
  let t := setReg s pgIntegrity off v
  if budgetsOrdered (budgetUs t 2) (budgetUs t 3) (budgetUs t 4) (budgetUs t 5) (budgetUs t 6) (budgetUs t 7) then none
  else some stOrder

/-- A register that is open only before the kiln mount (R206, R240, R262). -/
def openBeforeMount (s : State) : Option Nat := if s.glob.mountBegun then some stBadState else none

/-- The first of two checks that fails. -/
def orElse (a b : Option Nat) : Option Nat := match a with
  | some x => some x
  | none => b

/-- Some gyle is in `FILLING`, `SORTED` or `RUNNING` (R131). -/
def gylesAtWork (s : State) : Bool := s.gyles.any fun g => g.st = .filling || g.st = .sorted || g.st = .running

/-- `T2_SIZE_GIB`: the directory, the spill area and 1 GiB fit (R206). -/
def regionFits (s : State) (v : Word64) : Bool := 512 * mib + spillMib s * mib + gib ≤ fld v 0 11 * gib

/-- The check of a write of `HOME_ID` or `KILN_VENDOR` is `openBeforeMount`, that of `SHARD_ENTRY` the peer's index besides (R207); the effect
of `SHARD_HOME` is its entry of the shard table (R209). -/
def shardStore (v : Word64) (s : State) : State :=
  { s with cat := { s.cat with shard := tset 0 s.cat.shard (regFld s pgHomes 0x088 0 12) (fld v 0 7) } }

/-! ### Checks and effects by page -/

/-- State rules and other codes of the single pages' registers. -/
def singleCheck (u : PageUnit) (off : Nat) (v : Word64) (s : State) : Option Nat :=
  match u, off with
  | .global, 0x098 => configDoneCheck v s
  | .global, 0x0C0 => tenantSelCheck v s
  | .pace, 0x090 => if dirtyCapFits (regFld s pgTrain 0x088 0 13) (fld v 0 32) then none else some stBadField
  | .integrity, 0x080 => budgetCheck off v s
  | .integrity, 0x088 => budgetCheck off v s
  | .integrity, 0x090 => budgetCheck off v s
  | .repair, 0x088 => if fld v 32 2 = 1 then remapCheck (fld v 10 2) (fld v 0 10) s else none
  | .repair, 0x0B0 => if fld v 32 2 = 1 then fwStageCheck s else if fld v 32 2 = 2 then fwActivateCheck s else none
  | .logbook, 0x0E8 => ffClearCheck v s
  | .grist, 0x090 => partCheck pgGrist v s
  | .train, 0x098 => partCheck pgTrain v s
  | .cellar, 0x080 => partCheck pgCellar v s
  | .splice, 0x098 => if gylesAtWork s then some stBadState else none
  | .tiers, 0x080 => openBeforeMount s
  | .tiers, 0x088 => orElse (openBeforeMount s) (if regionFits s v then none else some stBadField)
  | .tiers, 0x098 => testHoldCheck v s
  | .tiers, 0x0B0 => if fld v 32 2 = 0 then none else winCheck 0 (fld v 32 2) (fld v 0 32) s
  | .tiers, 0x0C8 => if fld v 32 2 = 0 then none else winCheck 1 (fld v 32 2) (fld v 0 32) s
  | .homes, 0x080 => openBeforeMount s
  | .keys, 0x180 => if fld v 0 8 < rackSize s then none else some stBadField
  | .homes, 0x090 => orElse (openBeforeMount s) (if fld v 0 7 < rackSize s then none else some stBadField)
  | .kiln, 0x0B8 => if fld v 0 2 = 2 then retireCheck (fld v 8 5) s else none
  | .kiln, 0x0C0 => openBeforeMount s
  | .train, 0x088 => if dirtyCapFits (fld v 0 13) (regFld s pgPace 0x090 0 32) then none else some stBadField
  | .train, 0x0A0 => hpCheck v s
  | _, _ => none

/-- `BLOCK_RESET` (R428). -/
def blockReset (v : Word64) (s : State) : State :=
  match fld v 0 2 with
  | 1 => requestWarm s 4
  | 2 => requestCold s 5
  | _ => s

/-- `REPAIR_CMD` and `FW_CTRL` with any operation (Tables 17.11, 17.16). -/
def repairWrite (v : Word64) (s : State) : State :=
  let s := storeReg pgRepair 0x088 v s
  if fld v 32 2 = 1 then beginRemap s (fld v 10 2) (fld v 0 10) 0 else s
def fwWrite (v : Word64) (s : State) : State :=
  match fld v 32 2 with
  | 1 => fwStageStart (BitVec.ofNat 32 (fld v 0 32)) s
  | 2 => fwActivateStart (BitVec.ofNat 32 (fld v 0 32)) s
  | _ => storeReg pgRepair 0x0B0 v s

/-- `WIN_CTRL` with any operation (Table 9.15). -/
def winCtrlWrite (w : Nat) (v : Word64) (s : State) : State :=
  if fld v 32 2 = 0 then storeReg pgTiers (winOff w + 16) v s else winStart w (fld v 32 2) (BitVec.ofNat 32 (fld v 0 32)) s

/-- `KILN_CMD` with any operation (Table 11.9). -/
def kilnWrite (v : Word64) (s : State) : State :=
  let s := storeReg pgKiln 0x0B8 v s
  match fld v 0 2 with
  | 1 => checkpointNow s
  | 2 => retireDevice s (fld v 8 5)
  | _ => s

/-- Effects of the single pages' registers; a register with no behaviour of its own stores the written fields. -/
def singleEffect (u : PageUnit) (page off : Nat) (v : Word64) (role : Role) (s : State) : State :=
  match u, off with
  | .global, 0x090 => blockReset v s
  | .global, 0x098 => configDoneSet v s
  | .global, 0x0C0 => tenantSelWrite v role s
  | .global, 0x0C8 => tenantDataWrite v s
  | .pace, 0x080 => askVoltage (storeReg page off v s)
  | .pace, 0x088 => powerCapSet v s
  | .repair, 0x088 => repairWrite v s
  | .repair, 0x0B0 => fwWrite v s
  | .logbook, 0x098 => logSelect v s
  | .logbook, 0x0E8 => ffClearStart v s
  | .keys, 0x198 => saltLoStore v s
  | .keys, 0x1A0 => saltStore v s
  | .grist, 0x090 => partWrite page off v s
  | .train, 0x098 => partWrite page off v s
  | .cellar, 0x080 => partWrite page off v s
  | .cellar, 0x0C8 => caskSelect v s
  | .tiers, 0x098 => testHoldSet v s
  | .tiers, 0x0B0 => winCtrlWrite 0 v s
  | .tiers, 0x0C8 => winCtrlWrite 1 v s
  | .homes, 0x090 => shardStore v s
  | .kiln, 0x0B8 => kilnWrite v s
  | .train, 0x0A0 => hpWrite v s
  | .keys, _ => if 0x0E8 ≤ off && off ≤ 0x170 then keyInStore ((off - 0x0E8) / 8) v s else storeReg page off v s
  | _, _ => storeReg page off v s

/-- A write of `CTX_CMD` (Tables 12.3 and 12.6): a command that Table 12.3 does not list for the state is refused. -/
def ctxCmdCheck (c : Nat) (v : Word64) (s : State) : Option Nat :=
  match fld v 0 2 with
  | 1 => ctxEnableCheck c s
  | 2 => ctxResetCheck c s
  | _ => some stBadState
def ctxCmdEffect (c : Nat) (v : Word64) (s : State) : State :=
  match fld v 0 2 with
  | 1 => ctxEnableEffect c s
  | 2 => resetCtx s c
  | _ => s

/-- Checks and effects of a `SUBMITTER` page's registers. -/
def ctxCheck (c off : Nat) (v : Word64) (s : State) : Option Nat :=
  match off with
  | 0x080 => ctxCmdCheck c v s
  | 0x090 | 0x098 | 0x0A0 => ringConfigCheck c s
  | 0x0A8 => doorbellCheck c v s
  | 0x0C0 => cqHeadCheck c v s
  | _ => none
def ctxEffect (c off : Nat) (v : Word64) (s : State) : State :=
  match off with
  | 0x080 => ctxCmdEffect c v s
  | 0x090 | 0x098 | 0x0A0 => ringConfigEffect c off v s
  | 0x0A8 => doorbellEffect c v s
  | 0x0C0 => cqHeadEffect c v s
  | 0x0D0 => tenantBindEffect c v s
  | _ => storeReg (pgCtx c) off v s

/-- Checks and effects of `TUN_CMD` (Table 5.6). -/
def tunCheck (t : Nat) (v : Word64) (s : State) : Option Nat :=
  match fld v 0 2 with
  | 1 => fenceCheck t s
  | 2 => readmitCheck t s
  | _ => none
def tunEffect (t : Nat) (v : Word64) (s : State) : State :=
  match fld v 0 2 with
  | 1 => fenceTun s t 0x0B
  | 2 => resetAndTest s t 3
  | _ => s

/-- Checks and effects of the header's registers. -/
def headerCheck (page off : Nat) (n : Nat) (v : Word64) (s : State) : Option Nat :=
  match off with
  | 0x028 => eventAckCheck page v s
  | 0x058 => ctxRoleCheck n s
  | _ => none
def headerEffect (page off n : Nat) (v : Word64) (s : State) : State :=
  match off with
  | 0x010 => countSnap page v s
  | 0x028 => eventAckEffect page v s
  | 0x038 => eventMaskEffect page v s
  | 0x058 => ctxRoleEffect n v s
  | _ => s

/-- The state rules and other codes of a write of any register. -/
def regCheck (page off : Nat) (v : Word64) (s : State) : Option Nat :=
  match pageUnit page with
  | none => none
  | some (u, n) =>
    if off < 0x080 then headerCheck page off n v s
    else match u with
      | .submitter => ctxCheck n off v s
      | .tun => tunCheck n v s
      | u => singleCheck u off v s

/-- The effect of an accepted write of any register. -/
def regEffect (page off : Nat) (v : Word64) (role : Role) (s : State) : State :=
  match pageUnit page with
  | none => s
  | some (u, n) =>
    if off < 0x080 then headerEffect page off n v s
    else match u with
      | .submitter => ctxEffect n off v s
      | .tun => tunEffect n v s
      | u => singleEffect u page off v role s

/-- A write of a register: `KEY_CMD` by its own rule (R407), every other by R419. -/
def regWrite (page off : Nat) (v : Word64) (role : Role) (s : State) : State :=
  if page = pgKeys && off = 0x178 then keyCmd v role s else busWrite page off v role (regCheck page off v) (regEffect page off v role) s

/-- `REGISTER_WRITE` (R415 to R419). The window maps an offset in units of 8 bytes (R415): any other address reaches the port as no
access. -/
def execRegisterWrite (page offset : BitVec 12) (value : Word64) (role : Role) (s : State) : Host.Outcome State Fault Refusal :=
  .next (if offset.toNat % 8 = 0 then regWrite page.toNat offset.toNat value role s else s)

end Sys2Proof.Machine
end

