-- ==== Sys2Proof/Machine/Dispatch.lean ====
section
/-! DEFINITION. The meaning of every command: one arm per constructor, each one direct call. -/
namespace Sys2Proof.Machine

/-- The effect of a command on everything but the queue. -/
def exec (i : Instr) (s : State) : Host.Outcome State Fault Refusal :=
  match i with
  | .gyleOpen c => Sys2Proof.Machine.execGyleOpen c s
  | .gyleRows c => Sys2Proof.Machine.execGyleRows c s
  | .gyleClose c => Sys2Proof.Machine.execGyleClose c s
  | .planLoad c => Sys2Proof.Machine.execPlanLoad c s
  | .planSwap c => Sys2Proof.Machine.execPlanSwap c s
  | .mixBind c => Sys2Proof.Machine.execMixBind c s
  | .mixUnbind c => Sys2Proof.Machine.execMixUnbind c s
  | .pin c => Sys2Proof.Machine.execPin c s
  | .unpin c => Sys2Proof.Machine.execUnpin c s
  | .prefetch c => Sys2Proof.Machine.execPrefetch c s
  | .trainOpen c => Sys2Proof.Machine.execTrainOpen c s
  | .trainCommit c => Sys2Proof.Machine.execTrainCommit c s
  | .trainAbort c => Sys2Proof.Machine.execTrainAbort c s
  | .publishAdapter c => Sys2Proof.Machine.execPublishAdapter c s
  | .publishDirectory c => Sys2Proof.Machine.execPublishDirectory c s
  | .purge c => Sys2Proof.Machine.execPurge c s
  | .epochStage c => Sys2Proof.Machine.execEpochStage c s
  | .epochSwitch c => Sys2Proof.Machine.execEpochSwitch c s
  | .rack c => Sys2Proof.Machine.execRack c s
  | .lendGrant c => Sys2Proof.Machine.execLendGrant c s
  | .lendRecall c => Sys2Proof.Machine.execLendRecall c s
  | .mark c => Sys2Proof.Machine.execMark c s
  | .quiesce c => Sys2Proof.Machine.execQuiesce c s
  | .resume c => Sys2Proof.Machine.execResume c s
  | .nop c => Sys2Proof.Machine.execNop c s
  | .doorbell c value role => Sys2Proof.Machine.execDoorbell c value role s
  | .cqHeadWrite c value role => Sys2Proof.Machine.execCqHeadWrite c value role s
  | .ctxEnable c role => Sys2Proof.Machine.execCtxEnable c role s
  | .ctxReset c role => Sys2Proof.Machine.execCtxReset c role s
  | .ringConfigWrite c offset value role => Sys2Proof.Machine.execRingConfigWrite c offset value role s
  | .tenantBindChange c value role => Sys2Proof.Machine.execTenantBindChange c value role s
  | .eventAckWrite page value role => Sys2Proof.Machine.execEventAckWrite page value role s
  | .eventMaskWrite page value role => Sys2Proof.Machine.execEventMaskWrite page value role s
  | .countSnapWrite page value role => Sys2Proof.Machine.execCountSnapWrite page value role s
  | .registerWrite page offset value role => Sys2Proof.Machine.execRegisterWrite page offset value role s
  | .tunFenceCmd t role => Sys2Proof.Machine.execTunFenceCmd t role s
  | .tunReadmit t role => Sys2Proof.Machine.execTunReadmit t role s
  | .tunBistDone t found => Sys2Proof.Machine.execTunBistDone t found s
  | .kilnCheckpointCmd role => Sys2Proof.Machine.execKilnCheckpointCmd role s
  | .kilnRetireCmd device role => Sys2Proof.Machine.execKilnRetireCmd device role s
  | .keyLoadSlot peer receive role => Sys2Proof.Machine.execKeyLoadSlot peer receive role s
  | .keyRotate tenant role => Sys2Proof.Machine.execKeyRotate tenant role s
  | .keyRenewLoadPair role => Sys2Proof.Machine.execKeyRenewLoadPair role s
  | .keyDone => Sys2Proof.Machine.execKeyDone s
  | .saltHiWrite value role => Sys2Proof.Machine.execSaltHiWrite value role s
  | .tenantLoad tenant word role => Sys2Proof.Machine.execTenantLoad tenant word role s
  | .tenantStore tenant word role => Sys2Proof.Machine.execTenantStore tenant word role s
  | .hpStore tenant role => Sys2Proof.Machine.execHpStore tenant role s
  | .hpLoad tenant role => Sys2Proof.Machine.execHpLoad tenant role s
  | .caskSelWrite value role => Sys2Proof.Machine.execCaskSelWrite value role s
  | .cellarPartRaise page offset value role => Sys2Proof.Machine.execCellarPartRaise page offset value role s
  | .logSelWrite value role => Sys2Proof.Machine.execLogSelWrite value role s
  | .ffClear value role => Sys2Proof.Machine.execFfClear value role s
  | .ffClearDone => Sys2Proof.Machine.execFfClearDone s
  | .blockWarmResetCmd role => Sys2Proof.Machine.execBlockWarmResetCmd role s
  | .blockColdResetCmd role => Sys2Proof.Machine.execBlockColdResetCmd role s
  | .configDoneWrite value role => Sys2Proof.Machine.execConfigDoneWrite value role s
  | .testHoldWrite value role => Sys2Proof.Machine.execTestHoldWrite value role s
  | .winRead window bytes role => Sys2Proof.Machine.execWinRead window bytes role s
  | .winWrite window bytes role => Sys2Proof.Machine.execWinWrite window bytes role s
  | .winMove window bytes role => Sys2Proof.Machine.execWinMove window bytes role s
  | .winTransferDone window status data => Sys2Proof.Machine.execWinTransferDone window status data s
  | .repairRemap die region role => Sys2Proof.Machine.execRepairRemap die region role s
  | .regionRemapStepDone found => Sys2Proof.Machine.execRegionRemapStepDone found s
  | .fwStage bytes role => Sys2Proof.Machine.execFwStage bytes role s
  | .fwStageDone image => Sys2Proof.Machine.execFwStageDone image s
  | .fwActivate bytes role => Sys2Proof.Machine.execFwActivate bytes role s
  | .pairRestartDone pair passed => Sys2Proof.Machine.execPairRestartDone pair passed s
  | .powerCapWrite value role => Sys2Proof.Machine.execPowerCapWrite value role s
  | .logbookRead index bank => Sys2Proof.Machine.execLogbookRead index bank s
  | .rowResolve c gyle => Sys2Proof.Machine.execRowResolve c gyle s
  | .sortPass2Done c gyle => Sys2Proof.Machine.execSortPass2Done c gyle s
  | .activationCreditGrant port => Sys2Proof.Machine.execActivationCreditGrant port s
  | .creditPortionGrant port => Sys2Proof.Machine.execCreditPortionGrant port s
  | .baseCreditGrant port => Sys2Proof.Machine.execBaseCreditGrant port s
  | .inboundBeat port tag data check => Sys2Proof.Machine.execInboundBeat port tag data check s
  | .scatterWrite port feeder => Sys2Proof.Machine.execScatterWrite port feeder s
  | .tileRequest t => Sys2Proof.Machine.execTileRequest t s
  | .tileReady t half read => Sys2Proof.Machine.execTileReady t half read s
  | .opIssue t => Sys2Proof.Machine.execOpIssue t s
  | .fillSwap t upsets => Sys2Proof.Machine.execFillSwap t upsets s
  | .partSendStart port => Sys2Proof.Machine.execPartSendStart port s
  | .outboundNak port tag => Sys2Proof.Machine.execOutboundNak port tag s
  | .partLeft port => Sys2Proof.Machine.execPartLeft port s
  | .batchWindowExpiry hold => Sys2Proof.Machine.execBatchWindowExpiry hold s
  | .cutoffExpiry c gyle => Sys2Proof.Machine.execCutoffExpiry c gyle s
  | .lateGraceExpiry c gyle slot row => Sys2Proof.Machine.execLateGraceExpiry c gyle slot row s
  | .fetchStreamStart stream => Sys2Proof.Machine.execFetchStreamStart stream s
  | .tensorPresent stream upset => Sys2Proof.Machine.execTensorPresent stream upset s
  | .lazyWriteback toKiln => Sys2Proof.Machine.execLazyWriteback toKiln s
  | .evictionWritebackDone cask => Sys2Proof.Machine.execEvictionWritebackDone cask s
  | .commitRun c gyle => Sys2Proof.Machine.execCommitRun c gyle s
  | .commitPublish c gyle => Sys2Proof.Machine.execCommitPublish c gyle s
  | .publishPublication adapter => Sys2Proof.Machine.execPublishPublication adapter s
  | .epochStaged => Sys2Proof.Machine.execEpochStaged s
  | .purgeComplete adapter => Sys2Proof.Machine.execPurgeComplete adapter s
  | .rotationStart tenant => Sys2Proof.Machine.execRotationStart tenant s
  | .rotationComplete tenant => Sys2Proof.Machine.execRotationComplete tenant s
  | .quiesceComplete c => Sys2Proof.Machine.execQuiesceComplete c s
  | .ctxResetDone c => Sys2Proof.Machine.execCtxResetDone c s
  | .readData port id data check => Sys2Proof.Machine.execReadData port id data check s
  | .writeResponse port id check => Sys2Proof.Machine.execWriteResponse port id check s
  | .mLookup h ids => Sys2Proof.Machine.execMLookup h ids s
  | .mLookupAns h answers => Sys2Proof.Machine.execMLookupAns h answers s
  | .mLeaseRenew h ids => Sys2Proof.Machine.execMLeaseRenew h ids s
  | .mLeaseAns h grants => Sys2Proof.Machine.execMLeaseAns h grants s
  | .mRevoke h ids purge => Sys2Proof.Machine.execMRevoke h ids purge s
  | .mRevokeAck h => Sys2Proof.Machine.execMRevokeAck h s
  | .mHoldRelease h ids => Sys2Proof.Machine.execMHoldRelease h ids s
  | .mFetchReq h adapter version tierFlags => Sys2Proof.Machine.execMFetchReq h adapter version tierFlags s
  | .mFetchData h seg data => Sys2Proof.Machine.execMFetchData h seg data s
  | .mFetchEnd h => Sys2Proof.Machine.execMFetchEnd h s
  | .mFarOpen h fp gyle classes => Sys2Proof.Machine.execMFarOpen h fp gyle classes s
  | .mFarOpenAns h => Sys2Proof.Machine.execMFarOpenAns h s
  | .mFarRows h gyle slot rows => Sys2Proof.Machine.execMFarRows h gyle slot rows s
  | .mFarSum h slot rows => Sys2Proof.Machine.execMFarSum h slot rows s
  | .mFarLate h slot rows => Sys2Proof.Machine.execMFarLate h slot rows s
  | .mFarClose h gyle => Sys2Proof.Machine.execMFarClose h gyle s
  | .mFarCancel h gyle => Sys2Proof.Machine.execMFarCancel h gyle s
  | .mRackOpen h hdr slots bytes => Sys2Proof.Machine.execMRackOpen h hdr slots bytes s
  | .mRackOpenAns h => Sys2Proof.Machine.execMRackOpenAns h s
  | .mRackData h seg data => Sys2Proof.Machine.execMRackData h seg data s
  | .rackRoundDone => Sys2Proof.Machine.execRackRoundDone s
  | .mRackPrepare h version leases holds => Sys2Proof.Machine.execMRackPrepare h version leases holds s
  | .mRackReady h leaseUs => Sys2Proof.Machine.execMRackReady h leaseUs s
  | .rackFreezeTimeout => Sys2Proof.Machine.execRackFreezeTimeout s
  | .mRackAbort h => Sys2Proof.Machine.execMRackAbort h s
  | .mHomeChange h adapter home => Sys2Proof.Machine.execMHomeChange h adapter home s
  | .mHomeAck h => Sys2Proof.Machine.execMHomeAck h s
  | .mDirUpdate h entries => Sys2Proof.Machine.execMDirUpdate h entries s
  | .mDirAck h => Sys2Proof.Machine.execMDirAck h s
  | .mPublishFwd h desc image => Sys2Proof.Machine.execMPublishFwd h desc image s
  | .mPublishAns h result => Sys2Proof.Machine.execMPublishAns h result s
  | .mEpochRelease h => Sys2Proof.Machine.execMEpochRelease h s
  | .mLend h grant sizeGib => Sys2Proof.Machine.execMLend h grant sizeGib s
  | .mLendAck h grant => Sys2Proof.Machine.execMLendAck h grant s
  | .mRecall h grant => Sys2Proof.Machine.execMRecall h grant s
  | .recallReadsDrained lender grant => Sys2Proof.Machine.execRecallReadsDrained lender grant s
  | .mRecallAns h grant => Sys2Proof.Machine.execMRecallAns h grant s
  | .recallTimeout borrower grant => Sys2Proof.Machine.execRecallTimeout borrower grant s
  | .mT3Read h grant offset length => Sys2Proof.Machine.execMT3Read h grant offset length s
  | .mT3Data h seg data => Sys2Proof.Machine.execMT3Data h seg data s
  | .mT3Write h grant seg data => Sys2Proof.Machine.execMT3Write h grant seg data s
  | .t3ReadTimeout corr => Sys2Proof.Machine.execT3ReadTimeout corr s
  | .linkUp port peer => Sys2Proof.Machine.execLinkUp port peer s
  | .linkDown port peer => Sys2Proof.Machine.execLinkDown port peer s
  | .peerRequestRetry corr => Sys2Proof.Machine.execPeerRequestRetry corr s
  | .requestGiveUp corr => Sys2Proof.Machine.execRequestGiveUp corr s
  | .answerExpiry peer corr => Sys2Proof.Machine.execAnswerExpiry peer corr s
  | .leaseRenewDue adapter => Sys2Proof.Machine.execLeaseRenewDue adapter s
  | .leaseWaitExpiry adapter version peer => Sys2Proof.Machine.execLeaseWaitExpiry adapter version peer s
  | .peerHoldsTimeout peer => Sys2Proof.Machine.execPeerHoldsTimeout peer s
  | .loadHalving => Sys2Proof.Machine.execLoadHalving s
  | .freqHalving => Sys2Proof.Machine.execFreqHalving s
  | .scrubRead place result => Sys2Proof.Machine.execScrubRead place result s
  | .kilnPageRead stream codewords reconFirst stripe => Sys2Proof.Machine.execKilnPageRead stream codewords reconFirst stripe s
  | .kilnJournalHeld => Sys2Proof.Machine.execKilnJournalHeld s
  | .checkpointValid => Sys2Proof.Machine.execCheckpointValid s
  | .kilnFold => Sys2Proof.Machine.execKilnFold s
  | .wearLevelling => Sys2Proof.Machine.execWearLevelling s
  | .disturbRelocate superblock => Sys2Proof.Machine.execDisturbRelocate superblock s
  | .kilnDeviceTimeout device => Sys2Proof.Machine.execKilnDeviceTimeout device s
  | .kilnRebuildDone => Sys2Proof.Machine.execKilnRebuildDone s
  | .zqShortCalibration => Sys2Proof.Machine.execZqShortCalibration s
  | .logAppend ok0 ok1 => Sys2Proof.Machine.execLogAppend ok0 ok1 s
  | .watchdogFire group again => Sys2Proof.Machine.execWatchdogFire group again s
  | .budgetExpiry fault => Sys2Proof.Machine.execBudgetExpiry fault s
  | .tunFaultCountExpiry t => Sys2Proof.Machine.execTunFaultCountExpiry t s
  | .selftestSlot => Sys2Proof.Machine.execSelftestSlot s
  | .ageMonitorMeasure group margin => Sys2Proof.Machine.execAgeMonitorMeasure group margin s
  | .timerRecal => Sys2Proof.Machine.execTimerRecal s
  | .calLost => Sys2Proof.Machine.execCalLost s
  | .irqHoldoffExpiry c => Sys2Proof.Machine.execIrqHoldoffExpiry c s
  | .globalHoldoffExpiry => Sys2Proof.Machine.execGlobalHoldoffExpiry s
  | .domainLost d => Sys2Proof.Machine.execDomainLost d s
  | .domainRegained d => Sys2Proof.Machine.execDomainRegained d s
  | .telemetrySample sample => Sys2Proof.Machine.execTelemetrySample sample s
  | .portCapChange watts => Sys2Proof.Machine.execPortCapChange watts s
  | .derateChange asserted => Sys2Proof.Machine.execDerateChange asserted s
  | .capWindowEnd averageDw settled => Sys2Proof.Machine.execCapWindowEnd averageDw settled s
  | .thermalCapStart tj chipWarn => Sys2Proof.Machine.execThermalCapStart tj chipWarn s
  | .thermalCapStep tj chipWarn => Sys2Proof.Machine.execThermalCapStep tj chipWarn s
  | .thermHalt sensor tj => Sys2Proof.Machine.execThermHalt sensor tj s
  | .thermResumed tj => Sys2Proof.Machine.execThermResumed tj s
  | .sagRise sensor tenthPercent => Sys2Proof.Machine.execSagRise sensor tenthPercent s
  | .sagStepDown sensor => Sys2Proof.Machine.execSagStepDown sensor s
  | .sagPersist sensor => Sys2Proof.Machine.execSagPersist sensor s
  | .pfwAssert => Sys2Proof.Machine.execPfwAssert s
  | .pfwSettleExpiry => Sys2Proof.Machine.execPfwSettleExpiry s
  | .pfwWritebackDone => Sys2Proof.Machine.execPfwWritebackDone s
  | .pfwCleared => Sys2Proof.Machine.execPfwCleared s
  | .pwrGoodRise => Sys2Proof.Machine.execPwrGoodRise s
  | .pwrGoodFall => Sys2Proof.Machine.execPwrGoodFall s
  | .rstColdRelease => Sys2Proof.Machine.execRstColdRelease s
  | .rstWarmRequest => Sys2Proof.Machine.execRstWarmRequest s
  | .coldStart => Sys2Proof.Machine.execColdStart s
  | .startStepComplete result => Sys2Proof.Machine.execStartStepComplete result s
  | .startupTimeout => Sys2Proof.Machine.execStartupTimeout s
  | .warmReset => Sys2Proof.Machine.execWarmReset s
  | .warmStepComplete result => Sys2Proof.Machine.execWarmStepComplete result s
  | .leaseLapsed adapter => Sys2Proof.Machine.execLeaseLapsed adapter s
  | .programEraseFailure block => Sys2Proof.Machine.execProgramEraseFailure block s
  | .rstColdAssert => Sys2Proof.Machine.execRstColdAssert s

end Sys2Proof.Machine
end

