-- ==== Sys2Proof/Safety.lean ====
section
/-! DEFINITION. The terms that the statements use: what a step answers, a descriptor command that is due, a completion record that is
posted, a register write that the control port takes, and what an outgoing message or a queued record of the log book is. -/
namespace Sys2Proof.Machine

/-- The step answers this state. -/
def Steps (s t : State) : Prop := step s = .next t

/-- Some state follows. -/
def Safe (s : State) : Prop := ∃ t, Steps s t

/-- Context `c` has taken a descriptor of this opcode and has read it and the structure that it points to (R269, R279). -/
abbrev Taken (s : State) (c opcode : Nat) (fr : Front) (d : Desc) (img : List Byte) : Prop :=
  (s.ctx c).front = some fr ∧ fr.desc = some d ∧ fr.image = some img ∧ d.opcode = opcode

/-- A request of transfer `x` that writes these bytes stands on a memory port or waits for one (R439, R440). -/
def Written (t : State) (x : Nat) (data : List Byte) : Prop :=
  ∃ r : MemReq, r.xfer = x ∧ r.write = true ∧ r.data = data ∧
    (r ∈ t.boundary.memWaiting ∨ ∃ p, r ∈ (tget {} t.boundary.mem p).outstanding)

/-- One event after `s`, the command at the front of context `c` has posted its completion record: one more record is
outstanding, and its 32 bytes are being written (R270, R287, Table 13.4). -/
def Posts (s t : State) (c : Nat) (fr : Front) (d : Desc) (status : Nat) (result : List Byte) : Prop :=
  (t.ctx c).posted = (s.ctx c).posted ++ [{ xfer := s.boundary.nextXfer, cmpSeq := (stamp s).gauger.seq }] ∧
    Written t s.boundary.nextXfer
      (completionRecord d.opcode status 0 fr.sqIndex (if namesGyle d.opcode then d.gyle else 0) (stamp s).gauger.seq result)

/-- One event after `s`, a command in flight has posted its completion record and is in flight no longer (R270, R287, Table 13.4). -/
def PostsLater (s t : State) (c : Nat) (m : Cmd) (status : Nat) (result : List Byte) : Prop :=
  (t.ctx c).posted = (s.ctx c).posted ++ [{ xfer := s.boundary.nextXfer, cmpSeq := (stamp s).gauger.seq }] ∧
    Written t s.boundary.nextXfer
      (completionRecord m.opcode status 0 m.sqIndex (if namesGyle m.opcode then m.gyle else 0) (stamp s).gauger.seq result) ∧
    ∀ x ∈ (t.ctx c).inflight, x.sqIndex ≠ m.sqIndex

/-- Adapters of other homes that the command at the front of a context names are looked up (R213): it stands at the front, nothing is
posted, and each that was not asked for before is asked for at its home. -/
def LooksUp (s t : State) (c : Nat) (fr : Front) (ids : List AdapterId) : Prop :=
  (t.ctx c).posted = (s.ctx c).posted ∧ ((t.ctx c).front.map (·.sqIndex)) = some fr.sqIndex ∧ t.cat = s.cat ∧
    ∀ a ∈ unseen s fr.asked ids, tget 0 fr.asked a = 0 →
      ∃ r ∈ t.homes.requests, r.msg.type = 0x01 ∧ r.msg.dst = homeOf s.cat a ∧ r.msg.args = [a]

/-- The control port takes a write at this register and no rule of R419 that looks only at the access refuses it: the page serves
(R397), the page and offset exist, the role may write, and no reserved bit is set. -/
abbrev Accessible (s : State) (page off : Nat) (v : Word64) (role : Role) : Prop :=
  pageServes s page off = true ∧ staticRefusal page off v role = none

/-- Everything but the gauger, the log book, the pages, the submitter contexts and the memory ports is the same. -/
abbrev OnlyContexts (s t : State) : Prop :=
  t = { s with gauger := t.gauger, log := t.log, pages := t.pages, ctxs := t.ctxs, boundary := t.boundary }

/-- Everything but the gauger, the log book, the pages and what left the ports is the same. -/
abbrev OnlyEventsAndPorts (s t : State) : Prop :=
  t = { s with gauger := t.gauger, log := t.log, pages := t.pages, outs := t.outs }

/-- An access to the control port was answered last, with this status. -/
abbrev Responds (t : State) (status : Nat) : Prop := t.outs.head? = some (.response 0 status)

/-- The registers of the single pages whose write acts beyond storing its fields, or that hold no field to store. -/
def actsOnWrite (u : PageUnit) (off : Nat) : Bool :=
  match u with
  | .submitter | .tun | .keys => true
  | .global => [0x090, 0x098, 0x0C0, 0x0C8].contains off
  | .pace => [0x080, 0x088].contains off
  | .repair => [0x088, 0x0B0].contains off
  | .logbook => [0x098, 0x0E8].contains off
  | .grist => off = 0x090
  | .train => [0x098, 0x0A0].contains off
  | .cellar => [0x080, 0x0C8].contains off
  | .tiers => [0x098, 0x0B0, 0x0C8].contains off
  | .homes => off = 0x090
  | .kiln => off = 0x0B8
  | _ => false

/-- The block of 2^32 sequences that the gauger stands in has been reserved in the log book (R313). -/
abbrev SeqReserved (s : State) : Prop := s.gauger.seq / 2 ^ 32 ≤ s.log.reservedBlock

/-- The next eight sequences stand in the block of the present one: none is the first of a block, whose reservation would be appended
before it (R313). -/
abbrev InBlock (s : State) : Prop := (s.gauger.seq + 8) / 2 ^ 32 = s.gauger.seq / 2 ^ 32

/-- The record of every gyle bears a name of its own, the tables of mix handles and of tuns name each number once, the byte memories
keep their canonical form, and the gauger stands in a reserved block: what every step keeps (`Obligations.InvariantKept`). -/
abbrev Inv (s : State) : Prop :=
  SeqReserved s ∧ (s.gyles.map (·.key)).Nodup ∧ keysRise s.handles = true ∧ keysRise s.tuns = true ∧ Memory.wf s.cellar.memory = true ∧
    Memory.wf s.kiln.memory = true ∧ Memory.wf s.tiers.chip = true ∧ s.tiers.borrowed.all (fun b => Memory.wf b.cells) = true

/-- Everything but the gauger, the log book and the pages is the same. -/
abbrev OnlyEvents (s t : State) : Prop := t = { s with gauger := t.gauger, log := t.log, pages := t.pages }

/-- The message left the block between the two states. -/
def Sent (s t : State) (m : Msg) : Prop := ∃ new wire, t.outs = new ++ s.outs ∧ Output.message m wire ∈ new

/-- A message of type `type` is ordered here: core pair 2 serves, the link to its sender is up, and R229 does not drop it. -/
abbrev Ordered (s : State) (type : Nat) (h : MsgHdr) : Prop := pairAway s 2 = false ∧ peerUp s h.src = true ∧ msgBad s type h = false

/-- A request is decided here: it is ordered, the block is ready, it is no repetition of one that is being answered or has been, and its
epoch is held (R225, R226, R237, R397). -/
abbrev Fresh (s : State) (type : Nat) (h : MsgHdr) : Prop :=
  Ordered s type h ∧ s.glob.ready = true ∧ inProgress s h.src h.corr = false ∧ epochHeld s h.epoch = true ∧
    (∀ a ∈ s.homes.answered, a.peer = h.src → a.corr ≠ h.corr) ∧
    ((∀ a ∈ s.homes.answered, a.peer ≠ h.src) ∨ ∃ a ∈ s.homes.answered, a.peer = h.src ∧ a.corr < h.corr)

/-- A message of type `ans` answers this request of type `type` of the block, which waits for it; an answer that sends the request
afresh, or that is none (R226, R397), is left out. -/
abbrev Answering (s : State) (ans : Nat) (h : MsgHdr) (type : Nat) (r : Req) : Prop :=
  Ordered s ans h ∧ s.homes.gathers.find? (·.left.contains h.corr) = none ∧ reissuedFor s h = none ∧ requestOf s type h = some r ∧
    sentAfresh r h = false ∧ noAnswer r h = false ∧ staleCtx s r h = false

/-- The message is answered: type, status, arguments and data of what is sent back under its `CORR`. -/
def Replied (s t : State) (h : MsgHdr) (type status : Nat) (args : List Nat) (data : List Byte) : Prop :=
  ∃ m, Sent s t m ∧ m.type = type ∧ m.dst = h.src ∧ m.corr = h.corr ∧ m.status = status ∧ m.args = args ∧ m.data = data

/-- One message carries this whole tensor (R228). -/
abbrev WholeTensor (s : State) (type : Nat) (h : MsgHdr) (seg : SegHdr) (data : List Byte) : Prop :=
  runIn s type h = none ∧ h.more = false ∧ segmentOk none h seg data = true ∧ crc64 data = seg.crc

/-! ### Which commands change a part of the state at all -/

/-- The commands that clear the block or its interior (Tables 20.1, 20.3, 20.4; R400, R445). -/
def clearsBlock : Instr → Bool
  | .coldStart | .warmStepComplete _ | .pwrGoodFall | .rstColdAssert => true
  | _ => false

/-- The commands that write a register which only holds what was written. -/
def writesRegs : Instr → Bool
  | .registerWrite .. | .ringConfigWrite .. | .caskSelWrite .. | .cellarPartRaise .. | .configDoneWrite .. | .ctxResetDone _
  | .ffClear .. | .logSelWrite .. | .fwActivate .. | .fwStage .. | .repairRemap .. | .hpLoad .. | .hpStore .. | .keyLoadSlot ..
  | .keyRenewLoadPair _ | .keyRotate .. | .kilnCheckpointCmd _ | .kilnRetireCmd .. | .powerCapWrite .. | .tenantLoad ..
  | .tenantStore .. | .winMove .. | .winRead .. | .winWrite .. => true
  | _ => false

/-- The commands that act on voltage, caps, heat, sags and the power-failure warning. -/
def actsOnPace : Instr → Bool
  | .capWindowEnd .. | .derateChange _ | .pfwAssert | .pfwCleared | .pfwSettleExpiry | .pfwWritebackDone | .portCapChange _
  | .powerCapWrite .. | .registerWrite .. | .sagPersist _ | .sagRise .. | .sagStepDown _ | .telemetrySample _ | .thermHalt ..
  | .thermResumed _ | .thermalCapStart .. | .thermalCapStep .. => true
  | _ => false

/-- The commands that act on the repair map, trims, firmware and core pairs; a read of the cellar does so by the words that it meets with
an uncorrectable error. -/
def actsOnRepair : Instr → Bool
  | .commitRun _ g => !g.errors.isEmpty
  | .lazyWriteback w => !w.errors.isEmpty
  | .evictionWritebackDone k => !k.errors.isEmpty
  | .winTransferDone _ _ d => !d.errors.isEmpty
  | .ageMonitorMeasure .. | .budgetExpiry _ | .fwActivate .. | .fwStage .. | .fwStageDone _ | .kilnDeviceTimeout _
  | .kilnRetireCmd .. | .pairRestartDone .. | .programEraseFailure .. | .regionRemapStepDone .. | .registerWrite ..
  | .repairRemap .. | .scrubRead .. | .startStepComplete _ | .tileReady .. | .tunBistDone .. | .watchdogFire .. => true
  | _ => false

/-- The commands that store a tenant record, at once or as the look-ups that the store waits for end (R428). -/
def storesTenants : Instr → Bool
  | .tenantStore .. | .mLookupAns .. | .pairRestartDone .. | .peerRequestRetry _ | .requestGiveUp _ => true
  | _ => false

/-- The commands that can put a tensor into the cellar, or test the cellar: a window's bytes at its place stand no longer. -/
def fillsCellar : Instr → Bool
  | .tensorPresent .. | .mFetchData .. | .mT3Data .. | .pairRestartDone .. | .startStepComplete _ => true
  | _ => false

/-- A command keeps a part of the state: every part that the spec lets only some commands change (R116, R115, R74, R429, R162, R405,
R406, R205, R109). -/
def KeepsOf (i : Instr) (s t : State) : Prop :=
  t.fuses = s.fuses ∧ t.pending = s.pending ∧
  (clearsBlock i = false →
    (writesRegs i = false → t.regs = s.regs) ∧
    (actsOnPace i = false → t.pace = s.pace) ∧
    (actsOnRepair i = false → t.repair = s.repair) ∧
    ((∀ c, i ≠ .planSwap c) → t.planInForce = s.planInForce ∧ ((∀ c, i ≠ .planLoad c) → t.planStaged = s.planStaged)) ∧
    ((∀ c n, i ≠ .sortPass2Done c n) → t.sortRows = s.sortRows) ∧
    ((∀ p o v r, i ≠ .registerWrite p o v r) →
      (storesTenants i = false → t.tenantRecs = s.tenantRecs) ∧
      ((∀ n r, i ≠ .hpStore n r) → t.train.hp = s.train.hp) ∧
      ((∀ v r, i ≠ .saltHiWrite v r) → t.keys.salts = s.keys.salts)) ∧
    ((∀ n, i ≠ .rotationComplete n) → t.keys.wrapGen = s.keys.wrapGen)) ∧
  ((∀ w st d, i ≠ .winTransferDone w st d) → ∀ a, memGet t.kiln.memory a = memGet s.kiln.memory a ∧
    (memGet t.tiers.chip a = memGet s.tiers.chip a ∨ memGet t.tiers.chip a = none) ∧
    (clearsBlock i = false → fillsCellar i = false → memGet t.cellar.memory a = memGet s.cellar.memory a))

/-! ### Frames of the commands that act on one unit -/

/-- The frame of a command that acts on few parts of the state: everything else keeps its value. Each line names the parts that its
commands may change beside the gauger, the log book and the pages. -/
def FrameOf (i : Instr) (s t : State) : Prop :=
  let ev := { s with gauger := t.gauger, log := t.log, pages := t.pages }
  match i with
  | .irqHoldoffExpiry _ | .globalHoldoffExpiry | .calLost | .ffClearDone => t = ev
  | .timerRecal | .logAppend .. => t = { ev with freeCtr := t.freeCtr }
  | .eventAckWrite .. | .eventMaskWrite .. | .countSnapWrite .. => t = { ev with outs := t.outs }
  | .logbookRead .. => t = { s with log := t.log, outs := t.outs }
  | .logSelWrite .. | .ffClear .. => t = { ev with regs := t.regs, outs := t.outs }
  | .sagRise .. | .sagStepDown _ | .sagPersist _ | .thermResumed _ | .capWindowEnd .. | .pfwCleared => t = { ev with pace := t.pace }
  | .thermHalt .. => t = { ev with
      pace := t.pace, gyles := t.gyles, heldGroups := t.heldGroups, orphans := t.orphans, tuns := t.tuns }
  | .telemetrySample _ | .portCapChange _ | .derateChange _ | .thermalCapStart .. | .thermalCapStep .. =>
    t = { ev with pace := t.pace, outs := t.outs }
  | .powerCapWrite .. => t = { ev with regs := t.regs, pace := t.pace, outs := t.outs }
  | .kilnFold | .wearLevelling | .checkpointValid | .zqShortCalibration | .disturbRelocate _ =>
    t = { ev with kiln := t.kiln, outs := t.outs }
  | .kilnRebuildDone => t = { ev with kiln := t.kiln, cat := t.cat, outs := t.outs }
  | .kilnDeviceTimeout _ => t = { ev with kiln := t.kiln, repair := t.repair }
  | .programEraseFailure .. => t = { ev with kiln := t.kiln, repair := t.repair, outs := t.outs }
  | .kilnCheckpointCmd _ => t = { ev with regs := t.regs, kiln := t.kiln, outs := t.outs }
  | .kilnRetireCmd .. => t = { ev with regs := t.regs, kiln := t.kiln, repair := t.repair, outs := t.outs }
  | .loadHalving => t = { ev with homes := t.homes }
  | .freqHalving => t = { ev with cellar := t.cellar }
  | .keyDone => t = { ev with keys := t.keys }
  | .saltHiWrite .. => t = { ev with keys := t.keys, outs := t.outs }
  | .keyLoadSlot .. | .keyRotate .. | .keyRenewLoadPair _ => t = { ev with regs := t.regs, keys := t.keys, outs := t.outs }
  | .rotationComplete _ => t = { ev with homes := t.homes, kiln := t.kiln, keys := t.keys }
  | .tileRequest _ => t = { ev with tuns := t.tuns, cellar := t.cellar }
  | .tunReadmit .. => t = { ev with tuns := t.tuns, outs := t.outs }
  | .tunFaultCountExpiry _ => t = { ev with tuns := t.tuns, integrity := t.integrity }
  | .fwStageDone _ => t = { ev with repair := t.repair }
  | .fwStage .. | .fwActivate .. => t = { ev with regs := t.regs, repair := t.repair, outs := t.outs }
  | .winRead .. | .winWrite .. | .winMove .. => t = { ev with regs := t.regs, tiers := t.tiers, outs := t.outs }
  | .winTransferDone _ _ d => d.errors = [] → t = { ev with
      cellar := t.cellar, tiers := t.tiers, kiln := t.kiln, cat := t.cat, catRetiring := t.catRetiring, outs := t.outs }
  | .caskSelWrite .. => t = { ev with regs := t.regs, cellar := t.cellar, outs := t.outs }
  | .hpStore .. | .hpLoad .. => t = { ev with regs := t.regs, train := t.train, outs := t.outs }
  | .domainRegained _ => t = { ev with gauger := t.gauger, boundary := t.boundary }
  | .pwrGoodRise | .rstColdRelease => t = { s with glob := t.glob }
  | .rstWarmRequest | .startupTimeout => t = { ev with glob := t.glob }
  | .blockWarmResetCmd _ | .blockColdResetCmd _ => t = { ev with glob := t.glob, outs := t.outs }
  | .configDoneWrite .. => t = { ev with regs := t.regs, kiln := t.kiln, glob := t.glob, outs := t.outs }
  | .ctxEnable .. | .tenantBindChange .. => t = { ev with ctxs := t.ctxs, outs := t.outs }
  | .ringConfigWrite .. => t = { ev with regs := t.regs, ctxs := t.ctxs, outs := t.outs }
  | .doorbell .. | .cqHeadWrite .. => t = { ev with ctxs := t.ctxs, boundary := t.boundary, outs := t.outs }
  | .nop _ | .mark _ | .quiesceComplete _ => t = { ev with ctxs := t.ctxs, boundary := t.boundary }
  | .planLoad _ => t = { ev with ctxs := t.ctxs, boundary := t.boundary, planStaged := t.planStaged }
  | .mixBind _ => t = { ev with
      ctxs := t.ctxs, boundary := t.boundary, handles := t.handles, homes := t.homes, outs := t.outs }
  | .planSwap _ => t = { ev with
      ctxs := t.ctxs, boundary := t.boundary, planStaged := t.planStaged, planInForce := t.planInForce, cellar := t.cellar }
  | .trainCommit _ => t = { ev with
      ctxs := t.ctxs, boundary := t.boundary, gyles := t.gyles, train := t.train, cellar := t.cellar, tiers := t.tiers, kiln := t.kiln,
      cat := t.cat, catRetiring := t.catRetiring, homes := t.homes, outs := t.outs, freeCtr := t.freeCtr }
  | .activationCreditGrant _ | .creditPortionGrant _ => t = { ev with ports := t.ports, outs := t.outs }
  | .baseCreditGrant _ => t = { ev with gyles := t.gyles, ports := t.ports, outs := t.outs }
  | .partSendStart _ => t = { ev with gyles := t.gyles, ports := t.ports, boundary := t.boundary, outs := t.outs }
  | .scatterWrite .. => t = { ev with gyles := t.gyles, tuns := t.tuns, ports := t.ports }
  | .epochStaged => t = { ev with ctxs := t.ctxs, boundary := t.boundary, catStaged := t.catStaged, staging := t.staging }
  | _ => True

end Sys2Proof.Machine
end

