-- ==== Sys2Proof/Certificates/Slice0/Obligations.lean ====
section
/-! DEFINITION. The statements for the provers: def Obligations.<Name> : Prop. Each docstring names the rules of spec/ it follows. A
clause about a command says when it completes with its own effect: a premise on the state and the operands alone, and the next
state that `exec` answers. -/
open Sys2Proof Sys2Proof.Machine

/-! ### The step and reset -/

/-- For every command and state: a step with the command at the front of the queue is `exec` of it on the state with the queue's rest. -/
def Obligations.StepRunsTheFrontCommand : Prop :=
  ∀ (i : Instr) (rest : List Instr) (s : State), s.pending = i :: rest → step s = exec i { s with pending := rest }

/-- No command of the table ends in a fault or a refusal: each answers a next state. With no command waiting the block idles (the model's
choice, log entry 2). -/
def Obligations.EveryStepAnswersANextState : Prop :=
  (∀ (i : Instr) (s : State), ∃ t, exec i s = .next t) ∧ ∀ s : State, s.pending = [] → step s = .next s

/-! ### Descriptor commands -/

/-- `NOP` and `MARK` complete `DONE` at their acceptance sequence; `NOP` does nothing else, and `MARK` appends one log book record
whose payload is `MARK_DATA` at the completion's sequence (R280, R286, R292). -/
def Obligations.NopAndMarkComplete : Prop :=
  ∀ (c : Fin 64) (s : State) (fr : Front) (d : Desc) (img : List Byte), (s.ctx c).faultCause ≠ 0x03 →
    (Taken s c 0x5F fr d img → ∃ t, exec (.nop c) s = .next t ∧ Posts s t c fr d stDone [] ∧ OnlyContexts s t) ∧
    (Taken s c 0x50 fr d img → (stamp s).log.queue.length < 3840 →
      ∃ t, exec (.mark c) s = .next t ∧ Posts s t c fr d stDone [] ∧ OnlyContexts s t ∧
        ∃ r ∈ t.log.queue, r.code = 0x0010 ∧ r.payload = d.markData ∧ r.seq = (stamp s).gauger.seq ∧ r.submitter = some c.val)

/-- `PLAN_LOAD` from the plan's owner stages the plan of the image, replacing one that is staged; `PLAN_SWAP` makes the staged plan
the plan in force and leaves none staged; both complete `DONE` (R114 to R116). From a submitter that does not own the plan both are
refused `NO_PERMISSION`, and a `PLAN_SWAP` with no plan staged, or with a gyle of the plan in force before `DRAINED`, is refused
`BAD_STATE`; the plans stay (R115, R116). -/
def Obligations.PlanCommands : Prop :=
  ∀ (c : Fin 64) (s : State) (fr : Front) (d : Desc) (img : List Byte), (s.ctx c).faultCause ≠ 0x03 →
    (Taken s c 0x04 fr d img → stateStatus s c d.opcode = none → planOwner s c = true → firstImageCheck 0 (planChecks (s.planInForce.map (·.id)) img) = none →
      ∃ t, exec (.planLoad c) s = .next t ∧ t.planStaged = some (planFields img) ∧ t.planInForce = s.planInForce ∧
        Posts s t c fr d stDone (leBytes 8 (planFields img).id.toNat)) ∧
    (∀ p, Taken s c 0x05 fr d img → stateStatus s c d.opcode = none → planOwner s c = true → s.planStaged = some p → p.id = d.planId →
      planInUse s = false →
      ∃ t, exec (.planSwap c) s = .next t ∧ t.planInForce = some p ∧ t.planStaged = none ∧
        Posts s t c fr d stDone (leBytes 8 d.planId.toNat)) ∧
    (Taken s c 0x04 fr d img → planOwner s c = false → firstImageCheck 0 (planChecks (s.planInForce.map (·.id)) img) = none →
      ∃ t, exec (.planLoad c) s = .next t ∧ OnlyContexts s t ∧ Posts s t c fr d stNoPermission (Bad.result { status := stNoPermission })) ∧
    (Taken s c 0x05 fr d img → planOwner s c = false →
      ∃ t, exec (.planSwap c) s = .next t ∧ OnlyContexts s t ∧ Posts s t c fr d stNoPermission (Bad.result { status := stNoPermission })) ∧
    (Taken s c 0x05 fr d img → planOwner s c = true → (s.planStaged = none ∨ planInUse s = true) →
      ∃ t, exec (.planSwap c) s = .next t ∧ OnlyContexts s t ∧ Posts s t c fr d stBadState (Bad.result { status := stBadState }))

/-- `MIX_BIND` within R29 and the quotas binds the mixture to a free number below which every number is taken, and returns it;
`MIX_UNBIND` by the binding submitter leaves the handle unbound, so that rows of gyles opened later no longer find it (R29, R32, R33).
A `MIX_BIND` that names adapters of other homes of which this block holds no lease waits until they are looked up (R213).
`MIX_UNBIND` of a handle that is not bound is refused `BAD_STATE` whichever submitter issues it, and one of a handle that another submitter
bound `NO_PERMISSION` unless the context acts for the fabric manager (R32). The handle table names each number once: an invariant of the model
(`Obligations.InvariantKept`). -/
def Obligations.MixCommands : Prop :=
  ∀ (c : Fin 64) (s : State) (fr : Front) (d : Desc) (img : List Byte), (s.ctx c).faultCause ≠ 0x03 → keysRise s.handles = true →
    (Taken s c 0x10 fr d img → unseen s fr.asked (d.comps.map (·.id)) ≠ [] →
      ∃ t, exec (.mixBind c) s = .next t ∧ LooksUp s t c fr (d.comps.map (·.id)) ∧ t.handles = s.handles) ∧
    (∀ n, Taken s c 0x10 fr d img → unseen s fr.asked (d.comps.map (·.id)) = [] → stateStatus s c d.opcode = none → mixBad s c d = none → ctxHandles s c < regFld s (pgCtx c) 0x0E0 0 17 → freeHandle s = some n →
      (∀ m < n, ∃ e ∈ s.handles, e.1 = m) ∧ ∃ t, exec (.mixBind c) s = .next t ∧
        tget {} t.handles n = { ctx := c, tenant := d.tenant, fp := mixFp s.cat d.comps, comps := d.comps, bound := true } ∧
        (∀ m, m ≠ n → tget {} t.handles m = tget {} s.handles m) ∧ Posts s t c fr d stDone (leBytes 2 n)) ∧
    (Taken s c 0x11 fr d img → stateStatus s c d.opcode = none → (tget {} s.handles d.handle).bound = true → (tget {} s.handles d.handle).ctx = c →
      ∃ t, exec (.mixUnbind c) s = .next t ∧ (tget {} t.handles d.handle).bound = false ∧
        (∀ m, (tget {} s.handles m).bound = true → m ≠ d.handle → tget {} t.handles m = tget {} s.handles m) ∧
        ∃ p ∈ (t.ctx c).posted, p.cmpSeq = (stamp s).gauger.seq) ∧
    (Taken s c 0x11 fr d img → (tget {} s.handles d.handle).bound = false → ∃ t, exec (.mixUnbind c) s = .next t ∧ OnlyContexts s t ∧
      Posts s t c fr d stBadState (Bad.result { status := stBadState })) ∧
    (Taken s c 0x11 fr d img → (tget {} s.handles d.handle).bound = true → (tget {} s.handles d.handle).ctx ≠ c → ctxFabric s c = false →
      ∃ t, exec (.mixUnbind c) s = .next t ∧ OnlyContexts s t ∧ Posts s t c fr d stNoPermission (Bad.result { status := stNoPermission }))

/-- `PIN` within R170 adds one to the (submitter, adapter) record, `UNPIN` takes one away, and neither touches another record; an
`UNPIN` without a record is refused `BAD_STATE` (R170). A `PIN` of an adapter of another home of which this block holds no lease waits until
the home has been asked (R213). -/
def Obligations.PinCommandsComplete : Prop :=
  ∀ (c : Fin 64) (s : State) (fr : Front) (d : Desc) (img : List Byte), (s.ctx c).faultCause ≠ 0x03 → stateStatus s c d.opcode = none →
    (Taken s c 0x12 fr d img → unseen s fr.asked [d.adapter] ≠ [] →
      ∃ t, exec (.pin c) s = .next t ∧ LooksUp s t c fr [d.adapter] ∧ t.cellar.pins = s.cellar.pins) ∧
    (Taken s c 0x12 fr d img → unseen s fr.asked [d.adapter] = [] → tenantOk s c d.adapter = true → ((headerOf s d.adapter).hdr.form ≠ .basis ∨ ctxFabric s c = true) →
      adapterStatus s d.adapter = none → pinQuota s c d.adapter = true →
      (0 < pinRecord s c d.adapter ∨ s.cellar.pins.length < 16384) →
      ∃ t, exec (.pin c) s = .next t ∧ pinRecord t c d.adapter = pinRecord s c d.adapter + 1 ∧
        ∀ (c' : Nat) (a : AdapterId), (c', a) ≠ (c.val, d.adapter) → pinRecord t c' a = pinRecord s c' a) ∧
    (Taken s c 0x13 fr d img → 0 < pinRecord s c d.adapter →
      ∃ t, exec (.unpin c) s = .next t ∧ pinRecord t c d.adapter = pinRecord s c d.adapter - 1 ∧
        ∀ (c' : Nat) (a : AdapterId), (c', a) ≠ (c.val, d.adapter) → pinRecord t c' a = pinRecord s c' a) ∧
    (Taken s c 0x13 fr d img → pinRecord s c d.adapter = 0 → ∃ t, exec (.unpin c) s = .next t ∧ OnlyContexts s t ∧
      Posts s t c fr d stBadState (Bad.result { status := stBadState }))

/-- `PREFETCH` of the zero adapter, or of an adapter whose current version the named tier holds, completes `DONE` at its acceptance with that
version (R17, R285). Of another adapter within the tenant's quota it is accepted: it
stands in flight under its ring index with the version that it is to return, and posts no completion record yet; for T1 the version then has a
cask or an admission that waits, and for T2 a stream of the version that fills T2 (R180, R285). One of another home of which this block holds
no lease is looked up first (R213). -/
def Obligations.PrefetchCompletes : Prop :=
  ∀ (c : Fin 64) (s : State) (fr : Front) (d : Desc) (img : List Byte), (s.ctx c).faultCause ≠ 0x03 → stateStatus s c d.opcode = none → Taken s c 0x14 fr d img →
    (d.adapter = 0 → ∃ t, exec (.prefetch c) s = .next t ∧ OnlyContexts s t ∧ Posts s t c fr d stDone (leBytes 6 0)) ∧
    (unseen s fr.asked [d.adapter] ≠ [] → ∃ t, exec (.prefetch c) s = .next t ∧ LooksUp s t c fr [d.adapter] ∧ t.tiers = s.tiers ∧ t.cellar = s.cellar) ∧
    (d.adapter ≠ 0 → unseen s fr.asked [d.adapter] = [] → tenantOk s c d.adapter = true → adapterStatus s d.adapter = none → prefetchQuota s d = true →
      (prefetched s s.cat.epoch (d.alloc.toNat % 4) d.adapter (headerOf s d.adapter).version = true → ∃ t, exec (.prefetch c) s = .next t ∧
        Posts s t c fr d stDone (leBytes 6 (headerOf s d.adapter).version)) ∧
      (prefetched s s.cat.epoch (d.alloc.toNat % 4) d.adapter (headerOf s d.adapter).version = false → ∃ t, exec (.prefetch c) s = .next t ∧
        (t.ctx c).posted = (s.ctx c).posted ∧ (∃ m ∈ (t.ctx c).inflight, m.opcode = 0x14 ∧ m.sqIndex = fr.sqIndex ∧
          m.adapter = d.adapter ∧ m.version = (headerOf s d.adapter).version) ∧
        (d.alloc.toNat % 4 = 1 → ∃ x ∈ t.tiers.streams, x.adapter = d.adapter ∧ x.version = (headerOf s d.adapter).version ∧ x.toT2 = true) ∧
        ((headerOf s d.adapter).hdr.id = d.adapter → d.alloc.toNat % 4 ≠ 1 →
          caskComing t s.cat.epoch d.adapter (headerOf s d.adapter).version = true)))

/-- An opening within the state rules and quotas makes a gyle in `FILLING` that binds the plan in force, the epoch, the handles, the
tenant records and the salts of its own sequence, and posts no completion record (R9, R10, R11, R116, R133, R404). -/
def Obligations.OpeningsMakeAGyle : Prop :=
  ∀ (c : Fin 64) (s : State) (fr : Front) (d : Desc) (img : List Byte), openState s c d = none → (∀ b ∈ openRoom s c d, b = none) →
    let opened := fun (t : State) (kind : GyleKind) => (t.ctx c).posted = (s.ctx c).posted ∧
      ∃ g, t.gyle (ownGyle c d.gyle) = some g ∧ g.kind = kind ∧ g.st = .filling ∧ g.closed = false ∧
        g.openSeq = (stamp s).gauger.seq ∧ some g.plan = s.planInForce ∧ g.epoch = s.cat.epoch ∧ g.handles = s.handles ∧
        g.tenantRecs = s.tenantRecs ∧ g.salts = s.keys.salts ∧ g.tenants = (s.ctx c).tenants ∧ g.rowsGiven = d.rowCount ∧
        g.cutoffUs = d.cutoffUs ∧ g.trainSeq = d.trainSeq ∧ g.trainSeed = d.trainSeed
    (Taken s c 0x01 fr d img → ∃ t, exec (.gyleOpen c) s = .next t ∧ opened t .serving) ∧
    (Taken s c 0x20 fr d img → (d.trainBasis = false ∨ ctxFabric s c = true) → (s.planInForce.getD {}).slots.any (·.grad) = true →
      ctxTrainGyles s c < regFld s (pgCtx c) 0x0E0 40 7 → trainGyles s < 64 →
      ∃ t, exec (.trainOpen c) s = .next t ∧ opened t .training)

/-- Before the close, `GYLE_ROWS` adds its rows to the gyle and `GYLE_CLOSE` closes the row list, naming the ring index and the
sequence that the gyle's completion will answer; neither posts a completion record (R11, R61, R77). -/
def Obligations.RowListCommandsComplete : Prop :=
  ∀ (c : Fin 64) (s : State) (fr : Front) (d : Desc) (img : List Byte) (g : Gyle), stateStatus s c d.opcode = none →
    s.gyle (ownGyle c d.gyle) = some g → g.st = .filling → g.closed = false →
    (Taken s c 0x02 fr d img → g.rowsGiven + d.rowCount ≤ 1048576 →
      (let more := areaFor (g.rowsGiven + d.rowCount) - g.areaBytes
       ctxT2 s c + more ≤ ctxT2Quota s c ∧ more ≤ t2Room s) →
      ∃ t, exec (.gyleRows c) s = .next t ∧ (t.ctx c).posted = (s.ctx c).posted ∧
        ∃ g', t.gyle (ownGyle c d.gyle) = some g' ∧ g'.rowsGiven = g.rowsGiven + d.rowCount ∧ g'.closed = false ∧
          g'.areaBytes = areaFor (g.rowsGiven + d.rowCount) ∧ g'.plan = g.plan ∧ g'.openSeq = g.openSeq) ∧
    (Taken s c 0x03 fr d img →
      ∃ t, exec (.gyleClose c) s = .next t ∧ (t.ctx c).posted = (s.ctx c).posted ∧
        ∃ g', t.gyle (ownGyle c d.gyle) = some g' ∧ g'.closed = true ∧ g'.closeSq = some fr.sqIndex ∧
          g'.closeSeq = (stamp s).gauger.seq ∧ g'.rowsGiven = g.rowsGiven)

/-! ### Training -/

/-- `TRAIN_COMMIT` of a held training gyle that the cellar and the dirty cap can take is accepted: its commit stands under the
acceptance sequence, and no record is posted yet. `TRAIN_ABORT` of one whose commit has not been accepted ends the gyle and posts
its completion at its own sequence (R153, R155, R158). -/
def Obligations.TrainingEndsComplete : Prop :=
  ∀ (c : Fin 64) (s : State) (fr : Front) (d : Desc) (img : List Byte) (g : Gyle), (s.ctx c).faultCause ≠ 0x03 → stateStatus s c d.opcode = none → s.gyle (ownGyle c d.gyle) = some g → g.kind = .training → g.commitAccepted = false →
    (Taken s c 0x21 fr d img → g.held = true → commitFits s (ownGyle c d.gyle) = true →
      ∃ t, exec (.trainCommit c) s = .next t ∧ (t.ctx c).posted = (s.ctx c).posted ∧
        (∃ x ∈ t.train.commits, x.gk = ownGyle c d.gyle ∧ x.sqIndex = fr.sqIndex ∧ x.report = d.addr ∧
          x.seq = (stamp s).gauger.seq ∧ x.published = false) ∧
        ∃ g', t.gyle (ownGyle c d.gyle) = some g' ∧ g'.commitAccepted = true ∧ g'.touched = g.touched) ∧
    (Taken s c 0x22 fr d img →
      ∃ t, exec (.trainAbort c) s = .next t ∧ t.gyle (ownGyle c d.gyle) = none ∧
        (∃ p ∈ (t.ctx c).posted, p.cmpSeq = (stamp s).gauger.seq) ∧ ∀ h ∈ t.train.hold, h.gk ≠ ownGyle c d.gyle)

/-- `COMMIT_RUN` of an accepted commit that no earlier commit or racking freeze holds back decides one outcome for each touched adapter, in
ascending adapter ID, and leaves the catalogue as it is (R154, R156). `COMMIT_PUBLISH` of a commit that has run, once what it writes
through is held and cask indices are free, makes every prepared version that still stands its adapter's current one, and frees the gyle's
gradient hold (R155, R157, R161). -/
def Obligations.CommitsRunAndPublish : Prop :=
  ∀ (c : Fin 64) (n : BitVec 16) (s : State) (g : Gyle) (x : Commit), s.gyle (ownGyle c n.toNat) = some g →
    commitOf s (ownGyle c n.toNat) = some x →
    (x.ran = false → commitWaits s g x = false → interiorHeld s = false → pairAway s 3 = false →
    ∃ t x', exec (.commitRun c ⟨n, []⟩) s = .next t ∧ commitOf t (ownGyle c n.toNat) = some x' ∧ x'.ran = true ∧
      x'.outcomes.map (·.1) = sortBy (fun (a b : Nat) => a < b) g.touched ∧ t.cat = s.cat ∧ s.gauger.seq < t.gauger.seq) ∧
    (x.ran = true → x.published = false → touchesFrozen s g = false → (x.through = true → throughHeld s x = true) →
    (x.through = false → dirtyCap s ≠ 0 ∨ x.prepared = []) → s.cellar.casks.length + x.prepared.length ≤ 4096 →
    (∀ p ∈ x.prepared, p.2.hdr.id = p.1) →
    ∃ t, exec (.commitPublish c n) s = .next t ∧ (∀ h ∈ t.train.hold, h.gk ≠ ownGyle c n.toNat) ∧
      (∀ y, commitOf t (ownGyle c n.toNat) = some y → y.published = true) ∧
      ∀ p ∈ x.prepared, latePublish s g p = 0 → (t.cat.adapter p.1).current = p.2.version)

/-! ### Publishing, purging, epochs -/

/-- `PUBLISH` of an adapter homed here that the home's checks pass is accepted: its image waits for its publication event and its journal record for the
kiln, the catalogue stays as it is, and no completion record is posted (R249, R284). `PUBLISH` of an adapter homed elsewhere is accepted and
forwarded to the home (R234). `PUBLISH` of directory entries whose key home is this block and whose first change can be applied is accepted:
it applies its entries up to one that cannot be, at least the first, and waits with them; no completion record is posted (R211, R283). At the
home a `PUBLISH` whose joins need adapters of other homes stands behind their look-up (R213). -/
def Obligations.PublishCommandsAccepted : Prop :=
  ∀ (c : Fin 64) (s : State) (fr : Front) (d : Desc) (img : List Byte), stateStatus s c d.opcode = none →
    Taken s c 0x30 fr d img →
    (d.pubKind = 1 → imageBad d img = none → tenantBound (s.ctx c).tenants (hdrFields img).tenant = true →
      ((hdrFields img).form ≠ .basis ∨ ctxFabric s c = true) →
      (homedHere s (hdrFields img).id = true → unseen s fr.asked (joinNeeds (hdrFields img)) ≠ [] →
        ∃ t, exec (.publishAdapter c) s = .next t ∧ LooksUp s t c fr (joinNeeds (hdrFields img)) ∧ t.homes.publishes = s.homes.publishes) ∧
      (homedHere s (hdrFields img).id = true → unseen s fr.asked (joinNeeds (hdrFields img)) = [] → homeBad s d img = none → ∃ t, exec (.publishAdapter c) s = .next t ∧ t.cat = s.cat ∧
        (t.ctx c).posted = (s.ctx c).posted ∧ ∃ p ∈ t.homes.publishes, p.base = d.baseVersion ∧ p.ctx = some c.val ∧
          p.sqIndex = fr.sqIndex ∧ p.held = false ∧ JournalKind.publish p.ver.hdr.id p.ver.version ∈ t.kiln.pending) ∧
      (homedHere s (hdrFields img).id = false → ∃ t, exec (.publishAdapter c) s = .next t ∧ t.cat = s.cat ∧
        (t.ctx c).posted = (s.ctx c).posted ∧ ∃ f ∈ t.homes.forwards, f.2 = (c.val, fr.sqIndex, 0x30))) ∧
    (∀ e es, d.pubKind = 2 → dirImageBad d img = none → tenantBound (s.ctx c).tenants d.tenant = true →
      dirEntriesOf img d.length = e :: es → keyHomeOf s.cat e.tenant e.key = selfPeer s →
      (dirChange s e).isSome = true →
      ∃ t, exec (.publishDirectory c) s = .next t ∧ (t.ctx c).posted = (s.ctx c).posted ∧
        ∃ p ∈ t.homes.dirPending, p.ctx = some c.val ∧ p.sqIndex = fr.sqIndex ∧ 1 ≤ p.applied ∧
          p.entries = (dirEntriesOf img d.length).take p.applied)

/-- The publication event of the oldest `PUBLISH` of an adapter that the kiln holds: at the home, with its base version current, the joins of R16, R23 and R25
met and a cask index at hand where it takes one, it makes the version of its image the current one; where a check fails, the
catalogue stays as it is; at a block that is no longer the home it is forwarded to the home (R284, Table 10.6). It waits no longer in each case. -/
def Obligations.PublicationMakesTheVersionCurrent : Prop :=
  ∀ (a : BitVec 24) (s : State) (p : PubPending), (s.homes.publishes.find? fun q => q.adapter = a.toNat && q.held) = some p →
    inFreeze s a.toNat = false → (hdrFields p.image).id = a.toNat → (hdrFields p.image).version = p.ver.version →
    (homedHere s a.toNat = true → pubUnseen s p = [] → publicationBad s p = none → (findIndex s p).2 = false →
      ∃ t, exec (.publishPublication a) s = .next t ∧ (t.cat.adapter a.toNat).current = p.ver.version ∧ p ∉ t.homes.publishes) ∧
    (∀ b, homedHere s a.toNat = true → pubUnseen s p = [] → publicationBad s p = some b →
      ∃ t, exec (.publishPublication a) s = .next t ∧ t.cat = s.cat ∧ p ∉ t.homes.publishes) ∧
    (∀ c, homedHere s a.toNat = false → p.ctx = some c →
      ∃ t, exec (.publishPublication a) s = .next t ∧ t.cat = s.cat ∧ p ∉ t.homes.publishes ∧ ∃ f ∈ t.homes.forwards, f.2 = (c, p.sqIndex, 0x30))

/-- `PURGE` of an adapter that its home knows, by a submitter that R410 lets do so, retires the adapter; the purge stands at the command's acceptance sequence
and in flight, awaits every lease holder, each of which is sent a revocation, and the kiln's part, whose first record goes to the kiln. At another block it
is forwarded to the home. It is refused `BAD_FIELD` for 0xFF_FFFF, `NO_PERMISSION` for a tenant that is not bound or a basis without the fabric manager's
role, and with the home's status where the home refuses it; an adapter of another home of which this block holds no lease is looked up first (R213,
R410, R411, R413). `PURGE_COMPLETE` ends a purge for which no issued operation reads the adapter here, no holder is awaited and the
kiln's part is complete: it frees the adapter's gradient holds and completes the command `DONE` with the last version purged, or answers the block that
forwarded it (R159, R234, R413). -/
def Obligations.PurgesRun : Prop :=
  (∀ (c : Fin 64) (s : State) (fr : Front) (d : Desc) (img : List Byte), (s.ctx c).faultCause ≠ 0x03 → stateStatus s c d.opcode = none → Taken s c 0x31 fr d img →
    let may := tenantOk s c d.adapter = true ∧ ((headerOf s d.adapter).hdr.form ≠ .basis ∨ ctxFabric s c = true)
    let refused := fun (b : Bad) => ∃ t, exec (.purge c) s = .next t ∧ OnlyContexts s t ∧ Posts s t c fr d b.status b.result
    (unseen s fr.asked [d.adapter] ≠ [] → ∃ t, exec (.purge c) s = .next t ∧ LooksUp s t c fr [d.adapter] ∧ t.homes.purges = s.homes.purges) ∧
    (d.adapter = 0xFFFFFF → refused { status := stBadField, off := 16 }) ∧
    (unseen s fr.asked [d.adapter] = [] → d.adapter ≠ 0xFFFFFF →
      (¬ may → refused { status := stNoPermission }) ∧
      (may → homedHere s d.adapter = true → ∀ b, purgeBad s d.adapter = some b → refused b) ∧
      (may → homedHere s d.adapter = false → ∀ b, adapterStatus s d.adapter = some b → refused b) ∧
      (may → homedHere s d.adapter = true → purgeBad s d.adapter = none → ∃ t, exec (.purge c) s = .next t ∧
        (t.cat.adapter d.adapter).retired = true ∧ (∃ m ∈ (t.ctx c).inflight, m.opcode = 0x31 ∧ m.sqIndex = fr.sqIndex) ∧
        (∃ p ∈ t.homes.purges, p.adapter = d.adapter ∧ p.version = (s.cat.adapter d.adapter).current ∧ p.ctx = some c.val ∧ p.sqIndex = fr.sqIndex ∧
          p.kilnDone = false ∧ p.waiting = leaseHolders s d.adapter ∧ p.seq = (stamp s).gauger.seq ∧
          JournalKind.purgeStep1 d.adapter p.tenant ∈ t.kiln.pending) ∧
        ∀ x ∈ leaseHolders s d.adapter, ∃ r ∈ t.homes.requests, r.msg.type = 0x05 ∧ r.msg.dst = x.2) ∧
      (may → homedHere s d.adapter = false → adapterStatus s d.adapter = none → ∃ t, exec (.purge c) s = .next t ∧ t.cat = s.cat ∧
        (∃ m ∈ (t.ctx c).inflight, m.opcode = 0x31 ∧ m.sqIndex = fr.sqIndex) ∧ ((stamp s).gauger.seq, c.val, fr.sqIndex, 0x31) ∈ t.homes.forwards ∧
        ∃ r ∈ t.homes.requests, r.msg.type = 0x42 ∧ r.msg.dst = homeOf s.cat d.adapter ∧ r.msg.data = d.raw))) ∧
  (∀ (a : BitVec 24) (s : State) (p : PurgePending), (s.homes.purges.find? fun q => q.adapter = a.toNat) = some p →
    issuedOn s a.toNat = false → p.waiting = [] → p.kilnDone = true →
    ∃ t, exec (.purgeComplete a) s = .next t ∧ p ∉ t.homes.purges ∧ (∀ h ∈ t.train.hold, h.adapter ≠ p.adapter) ∧
      (∀ (c : Fin 64) (m : Cmd), p.fwd = none → p.ctx = some c.val → (s.ctx c).faultCause ≠ 0x03 →
        ((s.ctx c).inflight.find? fun m => m.sqIndex = p.sqIndex && m.opcode = 0x31) = some m → PostsLater s t c m stDone (leBytes 6 p.version)) ∧
      ∀ ask : Msg, p.fwd = some ask → p.ctx = none → peerUp s ask.dst = true →
        ∃ m, Sent s t m ∧ m.type = 0x43 ∧ m.dst = ask.dst ∧ m.corr = ask.corr ∧ m.status = stDone ∧ m.data = leBytes 6 p.version)

/-- `ROTATION_START` gives a tenant that waits for one, by a purge or by `KEY_OP`, a rotation whose start is the event's sequence and which the tenant's waiting
purges share; with no checkpoint running, one begins at that sequence (R260, R409). `ROTATION_COMPLETE`, once a checkpoint begun at or after the start
is valid, ends the rotation, replaces the tenant's wrap key by a new generation, and completes the kiln's part of the purges that share it (R260). -/
def Obligations.RotationsRun : Prop :=
  ∀ (n : Fin 4096) (s : State),
    ((rotationOf s n).isNone = true → kilnServes s = true → pairAway s 1 = false →
      (waitingPurges s n ≠ [] ∨ keyOpWaits s n = true) → (waitingPurges s n).all (·.step1Held) = true →
      ∃ t, exec (.rotationStart n) s = .next t ∧ (s.kiln.ckptRunning = none → t.kiln.ckptRunning.map (·.seq) = some (stamp s).gauger.seq) ∧
        ∃ r ∈ t.kiln.rotations, r.tenant = n ∧ r.start = (stamp s).gauger.seq ∧ r.purges = (waitingPurges s n).map (·.adapter)) ∧
    (∀ r, rotationOf s n = some r → r.start ≤ s.kiln.ckpt.seq →
      ∃ t, exec (.rotationComplete n) s = .next t ∧ rotationOf t n = none ∧
        tget 0 t.keys.wrapGen n = tget 0 s.keys.wrapGen n + 1 ∧
        ∀ p ∈ t.homes.purges, r.purges.contains p.adapter = true → p.kilnDone = true)

/-- `EPOCH_STAGE` of an image that R236 and R250 accept stages what the image makes this block's own under the descriptor's epoch, with its directory, for the
kiln to write, leaves the catalogue in force as it is, and stands in flight until the staging ends; any other is refused, and nothing changes (R235,
R236). `EPOCH_SWITCH` by the fabric manager, of the staged epoch and with no staging under way, brings the staged catalogue, its shard and exception
tables and the staged directory into force, leaves none staged, and completes at the switch's sequence; the epoch before it is retiring while a gyle of
this block that has not completed binds it. From another submitter it is refused `NO_PERMISSION`, and where the staged epoch is another, none is staged, or staging is
under way, `BAD_STATE` (R237, R238). `EPOCH_STAGED`, while the kiln serves, core pair 1 is present and nothing staged waits to be written, ends the staging and
completes the command (R236). -/
def Obligations.EpochCommands : Prop :=
  (∀ (c : Fin 64) (s : State) (fr : Front) (d : Desc) (img : List Byte), (s.ctx c).faultCause ≠ 0x03 → stateStatus s c d.opcode = none →
    (Taken s c 0x32 fr d img → stageBad s c d img = none →
      ∃ t, exec (.epochStage c) s = .next t ∧ t.catStaged = some (ownPart s (imgCatalogue d.epoch (stamp s).gauger.seq (imgRecords img))) ∧
        (∀ x, imgDirectory s (imgRecords img) = some x → t.dirStaged = x.1) ∧ t.staging = some (c.val, fr.sqIndex) ∧
        JournalKind.staged d.epoch ∈ t.kiln.pending ∧ t.cat.epoch = s.cat.epoch ∧ t.cat.shard = s.cat.shard ∧
        (∀ a, (t.cat.adapter a).current = (s.cat.adapter a).current ∧ (t.cat.adapter a).retired = (s.cat.adapter a).retired) ∧
        (s.staging ≠ some (c.val, fr.sqIndex) → ∃ m ∈ (t.ctx c).inflight, m.opcode = 0x32 ∧ m.sqIndex = fr.sqIndex)) ∧
    (∀ b, Taken s c 0x32 fr d img → stageBad s c d img = some b →
      ∃ t, exec (.epochStage c) s = .next t ∧ OnlyContexts s t ∧ Posts s t c fr d b.status b.result) ∧
    (∀ k, Taken s c 0x33 fr d img → ctxFabric s c = true → s.staging = none → s.catStaged = some k → k.epoch = d.epoch →
      ∃ t, exec (.epochSwitch c) s = .next t ∧ t.cat.epoch = d.epoch ∧ t.catStaged = none ∧ t.cat.carries = [] ∧
        t.cat.shard = k.shard ∧ t.cat.exceptions = k.exceptions ∧ t.dir.buckets = s.dirStaged.buckets ∧
        (∃ p ∈ (t.ctx c).posted, p.cmpSeq = (stamp s).gauger.seq) ∧
        (ownBinds s s.cat.epoch = true → t.catRetiring.map (·.epoch) = some s.cat.epoch) ∧
        (k.carries = [] → ∀ a, (t.cat.adapter a).current = (k.adapter a).current ∧ (t.cat.adapter a).retired = (k.adapter a).retired)) ∧
    (Taken s c 0x33 fr d img → ctxFabric s c = false →
      ∃ t, exec (.epochSwitch c) s = .next t ∧ OnlyContexts s t ∧ Posts s t c fr d stNoPermission (Bad.result { status := stNoPermission })) ∧
    (Taken s c 0x33 fr d img → ctxFabric s c = true → (s.staging.isSome = true ∨ s.catStaged.map (·.epoch) ≠ some d.epoch) →
      ∃ t, exec (.epochSwitch c) s = .next t ∧ OnlyContexts s t ∧ Posts s t c fr d stBadState (Bad.result { status := stBadState }))) ∧
  (∀ (c : Fin 64) (s : State) (n : Nat), s.staging = some (c.val, n) → kilnServes s = true → pairAway s 1 = false → stagingWrites s = false →
    ∃ t, exec .epochStaged s = .next t ∧ t.staging = none ∧ t.catStaged = s.catStaged ∧ t.cat = s.cat ∧
      ∀ m, ((s.ctx c).inflight.find? fun m => m.sqIndex = n && m.opcode = 0x32) = some m → (s.ctx c).faultCause ≠ 0x03 →
        PostsLater s t c m stDone (leBytes 2 m.arg))

/-! ### Contexts -/

/-- `QUIESCE` brings the context to `QUIESCED` at its sequence, advances `CTX_EPOCH`, stops every sorted or running gyle of the context
back to `SORTED`, and waits; it completes `DONE` once no operation of the context's gyles runs out any longer (R296, R297). -/
def Obligations.QuiesceCompletes : Prop :=
  ∀ (c : Fin 64) (s : State),
    (∀ (fr : Front) (d : Desc) (img : List Byte), Taken s c 0x51 fr d img → stateStatus s c d.opcode = none →
      ∃ t, exec (.quiesce c) s = .next t ∧ (t.ctx c).st = .quiesced ∧ (t.ctx c).epoch = ((s.ctx c).epoch + 1) % 2 ^ 16 ∧
        (t.ctx c).posted = (s.ctx c).posted ∧ (∃ m ∈ (t.ctx c).inflight, m.opcode = 0x51 ∧ m.sqIndex = fr.sqIndex) ∧
        ∀ n g, s.gyle (ownGyle c n) = some g → (g.st = .sorted ∨ g.st = .running) → g.held = false →
          ∃ g', t.gyle (ownGyle c n) = some g' ∧ g'.st = .sorted ∧ g'.stopped = true ∧ g'.slots = []) ∧
    (∀ m, ((s.ctx c).inflight.find? fun m => m.opcode = 0x51) = some m → runningOut s c = false → (s.ctx c).faultCause ≠ 0x03 →
      ∃ t, exec (.quiesceComplete c) s = .next t ∧ (∀ x ∈ (t.ctx c).inflight, x.sqIndex ≠ m.sqIndex) ∧
        (t.ctx c).posted = (s.ctx c).posted ++ [{ xfer := s.boundary.nextXfer, cmpSeq := (stamp s).gauger.seq }])

/-- `RESUME` in `QUIESCED` completes at its acceptance sequence and brings the context to `RUNNING` where a gyle that the `QUIESCE` stopped is in flight, and to `READY` where
no gyle and no command of the context is in flight and its submission ring is empty. Every gyle of the context that the `QUIESCE` stopped is stopped no
longer and counts one more replay (R298). Every gyle's record bears a name of its own, an invariant of the model (`Obligations.InvariantKept`). -/
def Obligations.ResumeCompletes : Prop :=
  ∀ (c : Fin 64) (s : State) (fr : Front) (d : Desc) (img : List Byte), (s.gyles.map (·.key)).Nodup → (s.ctx c).faultCause ≠ 0x03 →
    Taken s c 0x52 fr d img → (s.ctx c).st = .quiesced →
    ∃ t, exec (.resume c) s = .next t ∧
      ((∃ n g, s.gyle (ownGyle c n) = some g ∧ g.stopped = true ∧ g.held = false) → (t.ctx c).st = .running) ∧
      (gyleInFlight s c = false → (s.ctx c).inflight = [] → (s.ctx c).sqHead = (s.ctx c).sqTail → (t.ctx c).st = .ready) ∧
      (∃ p ∈ (t.ctx c).posted, p.cmpSeq = (stamp s).gauger.seq) ∧
      ∀ n g, s.gyle (ownGyle c n) = some g → g.stopped = true →
        ∃ g', t.gyle (ownGyle c n) = some g' ∧ g'.stopped = false ∧ g'.replayed = true ∧ g'.replays = g.replays + 1

/-- `CTX_ENABLE` in `DOWN`, with the block ready and rings that do not overlap, brings the context to `READY`. `CTX_RESET` outside `DOWN`
and `RESETTING` brings it to `RESETTING`, advances `CTX_EPOCH`, ends every command in flight and releases pins and handles; its end
brings the context to `DOWN` with an empty submission ring and no fault cause (R272 to R274, Table 12.4). -/
def Obligations.ContextCommandsComplete : Prop :=
  ∀ (c : Fin 64) (s : State) (role : Role),
    (Accessible s (pgCtx c) 0x080 1 role → (s.ctx c).st = .down → s.glob.ready = true → ringsOverlap s c = false →
      ∃ t, exec (.ctxEnable c role) s = .next t ∧ (t.ctx c).st = .ready ∧ Responds t stDone) ∧
    (Accessible s (pgCtx c) 0x080 2 role → (s.ctx c).st ≠ .down → (s.ctx c).st ≠ .resetting → inBlockReset s = false →
      ∃ t, exec (.ctxReset c role) s = .next t ∧ (t.ctx c).st = .resetting ∧
        (t.ctx c).epoch = ((s.ctx c).epoch + 1) % 2 ^ 16 ∧ (t.ctx c).front = none ∧ (t.ctx c).inflight = [] ∧
        (∀ p ∈ t.cellar.pins, p.ctx ≠ c) ∧ (∀ n, (tget {} t.handles n).bound = true → (tget {} t.handles n).ctx ≠ c) ∧
        Responds t stDone) ∧
    ((s.ctx c).st = .resetting → (s.ctx c).teardownDone = true →
      ∃ t, exec (.ctxResetDone c) s = .next t ∧ (t.ctx c).st = .down ∧ (t.ctx c).sqHead = (t.ctx c).sqTail ∧
        (t.ctx c).cqResv = 0 ∧ (t.ctx c).faultCause = 0)

/-- `RACK` of an adapter homed here begins the racking and asks the new home for room; `LEND_GRANT` within the free part of T2 makes the
grant and has it told to the borrower, at once where its link is up; `LEND_RECALL` of a grant in effect marks it recalled and has it asked
back (R199, R201, R231). -/
def Obligations.RackAndLendCommandsComplete : Prop :=
  ∀ (c : Fin 64) (s : State) (fr : Front) (d : Desc) (img : List Byte), stateStatus s c d.opcode = none → ctxFabric s c = true →
    (Taken s c 0x40 fr d img → rackBad s c d = none →
      ∃ t r m, exec (.rack c) s = .next t ∧ t.homes.rack = some r ∧ r.adapter = d.adapter ∧ r.dest = d.peer ∧ r.phase = 1 ∧
        r.ctx = some c.val ∧ Sent s t m ∧ m.type = 0x30 ∧ m.dst = d.peer) ∧
    (Taken s c 0x41 fr d img → lentOf s d.peer d.grant = none → d.grantGib * gib ≤ t2Free s →
      ∃ t q, exec (.lendGrant c) s = .next t ∧
        (∃ l ∈ t.tiers.lent, l.borrower = d.peer ∧ l.grant = d.grant ∧ l.gibs = d.grantGib ∧ l.active = false) ∧
        q ∈ t.homes.requests ∧ q.msg.type = 0x60 ∧ q.msg.dst = d.peer ∧ q.msg.args = [d.grant, d.grantGib] ∧ (peerUp s d.peer = true → Sent s t q.msg)) ∧
    (Taken s c 0x42 fr d img → recallable s d.peer d.grant = true →
      ∃ t q, exec (.lendRecall c) s = .next t ∧
        (∃ l ∈ t.tiers.lent, l.borrower = d.peer ∧ l.grant = d.grant ∧ l.recalled = true ∧ l.recallSq = some (c.val, fr.sqIndex)) ∧
        q ∈ t.homes.requests ∧ q.msg.type = 0x62 ∧ q.msg.dst = d.peer ∧ q.msg.args = [d.grant] ∧ (peerUp s d.peer = true → Sent s t q.msg))

/-! ### Register writes -/

/-- A doorbell within R267 moves `SQ_TAIL`, and the block takes the descriptor at `SQ_HEAD` when R269 allows; a write of `CQ_HEAD` within
R268 moves `CQ_HEAD` (R267 to R269). A doorbell in `DOWN` or `RESETTING` is refused `BAD_STATE`, and one that moves the tail back or beyond
a full ring `BAD_FIELD`; a write of `CQ_HEAD` past `CQ_TAIL` is refused `BAD_FIELD`; nothing else changes then (R267, R268, R419). -/
def Obligations.RingWrites : Prop :=
  ∀ (c : Fin 64) (v : Word64) (role : Role) (s : State),
    (Accessible s (pgCtx c) 0x0A8 v role → (s.ctx c).st ≠ .down → (s.ctx c).st ≠ .resetting →
      ringDiff (s.ctx c).sqTail (s.ctx c).sqHead ≤ ringDiff v.toNat (s.ctx c).sqHead →
      ringDiff v.toNat (s.ctx c).sqHead ≤ sqSize s c →
      ∃ t, exec (.doorbell c v role) s = .next t ∧ (t.ctx c).sqTail = v.toNat ∧ Responds t stDone ∧
        ((s.ctx c).front = none → (s.ctx c).sqHead ≠ v.toNat → 1 ≤ cqFree s c → (s.ctx c).st ≠ .faulted →
          (t.ctx c).front = some { sqIndex := (s.ctx c).sqHead } ∧ (t.ctx c).sqHead = ((s.ctx c).sqHead + 1) % 2 ^ 32 ∧
            (t.ctx c).cqResv = (s.ctx c).cqResv + 1)) ∧
    (Accessible s (pgCtx c) 0x0C0 v role → ringDiff v.toNat (s.ctx c).cqHead ≤ ringDiff (s.ctx c).cqTail (s.ctx c).cqHead →
      ∃ t, exec (.cqHeadWrite c v role) s = .next t ∧ (t.ctx c).cqHead = v.toNat ∧ Responds t stDone) ∧
    (Accessible s (pgCtx c) 0x0A8 v role → ((s.ctx c).st = .down ∨ (s.ctx c).st = .resetting) →
      ∃ t, exec (.doorbell c v role) s = .next t ∧ OnlyEventsAndPorts s t ∧ Responds t stBadState) ∧
    (Accessible s (pgCtx c) 0x0A8 v role → (s.ctx c).st ≠ .down → (s.ctx c).st ≠ .resetting →
      (ringDiff v.toNat (s.ctx c).sqHead < ringDiff (s.ctx c).sqTail (s.ctx c).sqHead ∨ sqSize s c < ringDiff v.toNat (s.ctx c).sqHead) →
      ∃ t, exec (.doorbell c v role) s = .next t ∧ OnlyEventsAndPorts s t ∧ Responds t stBadField) ∧
    (Accessible s (pgCtx c) 0x0C0 v role → ringDiff (s.ctx c).cqTail (s.ctx c).cqHead < ringDiff v.toNat (s.ctx c).cqHead →
      ∃ t, exec (.cqHeadWrite c v role) s = .next t ∧ OnlyEventsAndPorts s t ∧ Responds t stBadField)

/-- In `DOWN` a write of a ring's base or of `RING_CFG` is stored and sets the four ring counters to 0; in every other state it is
refused `BAD_STATE` and changes nothing (R274). A binding change sets the word that `TENANT_BIND_SEL` selects and no other (R264). -/
def Obligations.RingConfigAndBindingsComplete : Prop :=
  ∀ (c : Fin 64) (off : BitVec 12) (v : Word64) (role : Role) (s : State),
    ((off = 0x090 ∨ off = 0x098 ∨ off = 0x0A0) → Accessible s (pgCtx c) off.toNat v role →
      ((s.ctx c).st = .down → ∃ t r, exec (.ringConfigWrite c off v role) s = .next t ∧ regSpec .submitter off.toNat = some r ∧
        reg t (pgCtx c) off.toNat = r.stored v ∧ (t.ctx c).sqHead = 0 ∧ (t.ctx c).sqTail = 0 ∧ (t.ctx c).cqHead = 0 ∧
        (t.ctx c).cqTail = 0 ∧ Responds t stDone) ∧
      ((s.ctx c).st ≠ .down → ∃ t, exec (.ringConfigWrite c off v role) s = .next t ∧ OnlyEventsAndPorts s t ∧
        Responds t stBadState)) ∧
    (Accessible s (pgCtx c) 0x0D0 v role →
      ∃ t, exec (.tenantBindChange c v role) s = .next t ∧ tget 0 (t.ctx c).tenants (regFld s (pgCtx c) 0x0C8 0 6) = v ∧
        (∀ w, w ≠ regFld s (pgCtx c) 0x0C8 0 6 → tget 0 (t.ctx c).tenants w = tget 0 (s.ctx c).tenants w) ∧ Responds t stDone)

/-- A write of `EVENT_ACK` from its present value to `EVENT_SEQ` at the write's sequence is accepted: it sets `EVENT_ACK` and clears each class whose
latest event is at or below it; the classes' sequences stay. Another value is refused `BAD_FIELD`: `EVENT_ACK` keeps its value, and the refusal raises
`WRITE_REFUSED` where the page has that class (R317). `EVENT_MASK` is stored, and no class's sequence changes. On a `SUBMITTER` page the
interrupt output follows: some class pending and not masked, and no holdoff running (R271, R318). The end of a holdoff that runs lets
a page's output follow its classes again: submitter output n and the global output (R271, R424). -/
def Obligations.EventRegistersAndHoldoffs : Prop :=
  (∀ (page : BitVec 12) (v : Word64) (role : Role) (s : State) (u : PageUnit) (n : Nat), pageUnit page.toNat = some (u, n) →
    let h := (stamp s).page page.toNat
    (Accessible s page.toNat 0x028 v role → h.ack ≤ v.toNat → v.toNat ≤ h.eventSeq →
      ∃ t, exec (.eventAckWrite page v role) s = .next t ∧ (t.page page.toNat).ack = v.toNat ∧
        (t.page page.toNat).classSeq = h.classSeq ∧
        (∀ k, (∀ e ∈ h.classSeq, e.1 = k → e.2 ≤ v.toNat) → (t.page page.toNat).pend.getLsbD k = false) ∧
        (u = .submitter → (t.page page.toNat).irq = ((t.page page.toNat).active && !h.holdoff)) ∧ Responds t stDone) ∧
    (Accessible s page.toNat 0x028 v role → (v.toNat < h.ack ∨ h.eventSeq < v.toNat) →
      ∃ t, exec (.eventAckWrite page v role) s = .next t ∧ (t.page page.toNat).ack = h.ack ∧ OnlyEventsAndPorts s t ∧
        (∀ k, refusedClass u = some k → tget 0 (t.page page.toNat).classSeq k = max (stamp s).gauger.seq (tget 0 ((stamp s).page page.toNat).classSeq k)) ∧ Responds t stBadField) ∧
    (Accessible s page.toNat 0x038 v role →
      ∃ t, exec (.eventMaskWrite page v role) s = .next t ∧ (t.page page.toNat).mask = v ∧
        (t.page page.toNat).ack = h.ack ∧ (t.page page.toNat).classSeq = h.classSeq ∧
        (u = .submitter → (t.page page.toNat).irq = ((t.page page.toNat).active && !h.holdoff)) ∧ Responds t stDone)) ∧
  (∀ (c : Fin 64) (s : State), (s.page (pgCtx c)).holdoff = true →
    ∃ t, exec (.irqHoldoffExpiry c) s = .next t ∧ (t.page (pgCtx c)).holdoff = false ∧
      (t.page (pgCtx c)).irq = (s.page (pgCtx c)).active ∧ (t.page (pgCtx c)).classSeq = (s.page (pgCtx c)).classSeq) ∧
  (∀ s : State, (s.page pgGlobal).holdoff = true →
    ∃ t, exec .globalHoldoffExpiry s = .next t ∧ (t.page pgGlobal).holdoff = false ∧
      (t.page pgGlobal).irq = globalLevel (stamp s).pages)

/-- `COUNT_SNAP` 1 holds the counters of the page as they stand at the write, and 0 lets them go (R425). -/
def Obligations.SnapshotsComplete : Prop :=
  ∀ (page : BitVec 12) (v : Word64) (role : Role) (s : State) (u : PageUnit) (n : Nat), pageUnit page.toNat = some (u, n) →
    Accessible s page.toNat 0x010 v role →
    ∃ t, exec (.countSnapWrite page v role) s = .next t ∧ Responds t stDone ∧
      (t.page page.toNat).snap = if fld v 0 1 = 1 then some (takeSnap (stamp s) page.toNat u n) else none

/-- A register of a single page that only stores its fields takes the written value; every other register, and the rest of the state
but the gauger, the log book and the pages, keeps its value (R415 to R419). -/
def Obligations.PlainRegistersStore : Prop :=
  ∀ (page off : BitVec 12) (v : Word64) (role : Role) (s : State) (u : PageUnit) (n : Nat) (r : RegSpec),
    pageUnit page.toNat = some (u, n) → regSpec u off.toNat = some r → 0x080 ≤ off.toNat → off.toNat % 8 = 0 →
    actsOnWrite u off.toNat = false → Accessible s page.toNat off.toNat v role →
    regCheck page.toNat off.toNat v (stamp s) = none →
    ∃ t, exec (.registerWrite page off v role) s = .next t ∧ reg t page.toNat off.toNat = r.stored v ∧
      (∀ p o, regAddr p o ≠ regAddr page.toNat off.toNat → reg t p o = reg s p o) ∧
      t = { s with gauger := t.gauger, log := t.log, pages := t.pages, regs := t.regs, outs := t.outs } ∧ Responds t stDone

/-- A register write that an access rule refuses changes no register: the page (or `GLOBAL` for an unmapped one) records role, address
and code in `ERR_CODE` and the sequence in `ERR_SEQ`, and the response carries the code (R419, R443). -/
def Obligations.RefusedWritesChangeNothing : Prop :=
  ∀ (page off : BitVec 12) (v : Word64) (role : Role) (s : State) (st : Nat), off.toNat % 8 = 0 →
    (page.toNat = pgKeys → off.toNat ≠ 0x178) → pageServes s page.toNat off.toNat = true →
    staticRefusal page.toNat off.toNat v role = some st →
    ∃ t, exec (.registerWrite page off v role) s = .next t ∧ OnlyEventsAndPorts s t ∧ Responds t st ∧
      (t.page (if (pageUnit page.toNat).isSome then page.toNat else pgGlobal)).errCode =
        BitVec.ofNat 64 (roleCode role * 2 ^ 32 + page.toNat * 2 ^ 20 + off.toNat * 2 ^ 8 + st) ∧
      (t.page (if (pageUnit page.toNat).isSome then page.toNat else pgGlobal)).errSeq = (stamp s).gauger.seq

/-! ### Maintenance: tuns, kiln, keys, tenants -/

/-- `TUN_CMD` 0b01 fences a tun that works or may work: it holds no work afterwards, and while another tun works and issue is not halted, what it had not issued stands with other tuns. 0b10 takes a fenced
tun through its reset to the BIST of step 3 (R110, R355, Table 5.6). A BIST that finds nothing brings the tun into service, one that finds something beyond repair leaves
it fenced, and one that the spare lanes can repair is followed by the BIST of step 6 (R355, Table 17.4). -/
def Obligations.TunMaintenanceCompletes : Prop :=
  ∀ (n : Fin 68) (role : Role) (s : State),
    (Inv s → Accessible s (pgTun n) 0x088 1 role → (s.tun n).st ≠ .fenced → (s.tun n).st ≠ .retired → (s.tun n).st ≠ .down → inBlockReset s = false →
      ∃ t, exec (.tunFenceCmd n role) s = .next t ∧ (t.tun n).st = .fenced ∧ (t.tun n).logical = none ∧ (t.tun n).queue = [] ∧ (t.tun n).issued = [] ∧
        (1 < tunCount s → issueHalted s = false → ∀ o ∈ (s.tun n).queue, o ∈ allOps t) ∧ Responds t stDone) ∧
    (Accessible s (pgTun n) 0x088 2 role → (s.tun n).st = .fenced → inBlockReset s = false →
      ∃ t, exec (.tunReadmit n role) s = .next t ∧ (t.tun n).st = .bist ∧ (t.tun n).readmitStep = 3 ∧ (t.tun n).selfTest = false ∧ Responds t stDone) ∧
    (∀ found : BistResult, (s.tun n).st = .bist →
      (newFailures (s.tun n) found = [] → found.other = false → ((s.tun n).selfTest = false → (s.tun n).readmitStep = 3 → tunRetired s n = false) →
        ∃ t, exec (.tunBistDone n found) s = .next t ∧ ((t.tun n).st = .active ∨ (t.tun n).st = .spare)) ∧
      (found.other = true → Inv s → ∃ t, exec (.tunBistDone n found) s = .next t ∧ (t.tun n).st = .fenced) ∧
      (newFailures (s.tun n) found ≠ [] → found.other = false → (s.tun n).selfTest = false → (s.tun n).readmitStep = 3 → tunRetired s n = false →
        34 ∉ newFailures (s.tun n) found →
        ((newFailures (s.tun n) found).filterMap (laneServed (s.tun n))).length ≤ (openSpares (s.tun n) (newFailures (s.tun n) found)).length →
        ∃ t, exec (.tunBistDone n found) s = .next t ∧ (t.tun n).st = .bist ∧ (t.tun n).readmitStep = 6))

/-- `KILN_CMD` 0b01 begins a checkpoint and 0b10 retires a device that R262 lets go: its channel is retired and the kiln rebuilds, degraded where no stripe
with data lacks more than two columns; any other retirement is refused (R251, R257, R258, R262, R357). A checkpoint that ends later than the one before stands in
force, and the journal that it covers is released (R251). A journal record goes to the journal: it frees the records of versions that are freed, or holds
the next tensor of the oldest job where the SLC-mode region has room, or the job's own (R249, R250, R254). A rebuild with no data left on the columns that are
gone ends in service with the capacity that is left (R257). A device's time-outs and failed blocks count, and the third and the 64th retire it (R257); a block
that fails is noted. -/
def Obligations.KilnCommandsComplete : Prop :=
  ∀ (role : Role) (s : State),
    let now := finishErases s
    (Accessible s pgKiln 0x0B8 1 role → kilnWorks s = true → s.kiln.ckptRunning = none →
      ∃ t k, exec (.kilnCheckpointCmd role) s = .next t ∧ t.kiln.ckptRunning = some k ∧ k.seq = (stamp s).gauger.seq ∧ k.epoch = s.cat.epoch ∧ Responds t stDone) ∧
    (∀ d : Fin 32, Accessible s pgKiln 0x0B8 (kilnCmdValue 2 d) role →
      (retireCheck d s = none → ∃ t, exec (.kilnRetireCmd d role) s = .next t ∧ (t.chan d).st = .retired ∧ t.kiln.rebuilding = true ∧
        (lostStripes s = false → t.kiln.phase = .degraded) ∧ (∀ e, e ≠ d.val → t.chan e = s.chan e) ∧ Responds t stDone) ∧
      ∀ st, retireCheck d s = some st → ∃ t, exec (.kilnRetireCmd d role) s = .next t ∧ t.kiln = s.kiln ∧ Responds t st) ∧
    (∀ k, s.kiln.ckptRunning = some k → kilnWorks s = true → (∀ o, (if k.inB then s.kiln.ckptA else s.kiln.ckptB) = some o → o.seq < k.seq) →
      ∃ t, exec .checkpointValid s = .next t ∧ t.kiln.ckpt = k ∧ ∀ j ∈ t.kiln.journal, j ∈ s.kiln.journal ∧ k.seq < j.seq) ∧
    (kilnWorks s = true →
      ((freedTensors s ≠ [] ∨ freedVersions s ≠ []) → ∃ t, exec .kilnJournalHeld s = .next t ∧ (∃ j ∈ t.kiln.journal, j.kind = .remove) ∧
        ∀ r ∈ t.kiln.map.tensors, (r.key, r.index) ∉ freedTensors s) ∧
      (∀ k rest, freedTensors s = [] → freedVersions s = [] → s.kiln.pending = k :: rest →
        (jobWrites s k = [] → k.hasData = false → ∃ t, exec .kilnJournalHeld s = .next t ∧ (∃ j ∈ t.kiln.journal, j.kind = k) ∧ ∃ more, t.kiln.pending = rest ++ more) ∧
        ∀ w ws, jobWrites s k = w :: ws → (storedBytes w.2.1 w.2.2).length + slcReserve now ≤ slcFree now →
          writeTensor (stamp now) k w.1 w.2.1 w.2.2 ≠ stamp now →
          ∃ t, exec .kilnJournalHeld s = .next t ∧ (∃ j ∈ t.kiln.journal, j.kind = k) ∧
            ((∀ a v, k ≠ .dirty a v) → t.kiln.map.holds w.1 w.2.1 w.2.2 = true))) ∧
    (s.kiln.rebuilding = true → kilnWorks s = true → (∀ e ∈ usedBlocks s, goneColumns s e.2 ≠ [] → liveIn s.kiln.map e.1 = []) →
      ∃ t, exec .kilnRebuildDone s = .next t ∧ t.kiln.phase = .inService ∧ t.kiln.rebuilding = false ∧
        t.kiln.usableGib = usableWith s.kiln.dataGib (32 - devicesInService s)) ∧
    (∀ d : Fin 32, (s.chan d).st = .inService →
      (∃ t, exec (.kilnDeviceTimeout d) s = .next t ∧ (t.chan d).timeouts = (s.chan d).timeouts + 1 ∧
        ((t.chan d).st = .retired ↔ 3 ≤ (t.chan d).timeouts)) ∧
      (∀ b, b < s.kiln.blocks → d.val ∉ (sblock s b).failedOn → ∃ t, exec (.programEraseFailure (d, b)) s = .next t ∧
        (t.chan d).peFails = sat 32 ((s.chan d).peFails + 1) ∧ d.val ∈ (sblock t b).failedOn ∧ ((t.chan d).st = .retired ↔ 64 ≤ (t.chan d).peFails)))

/-- A page of a stream's tensor whose codewords all end well comes from its device; one of a device that is gone, of a channel whose clock is lost, or with a
codeword that fails is rebuilt from its stripe and counted; where the stripe cannot rebuild it the kiln shows failed (R253, R258, Table 23.2). Folding moves a tensor from
the SLC-mode region to the data area by a journal record (R249). The data of a superblock that has been read `DISTURB_LIMIT` times, and of the coldest one where
the erase counts differ by more than the limit, moves within its area, and the superblock is erased once it holds nothing and nothing reads it (R254 to
R256). ZQ short calibration goes to every device in service and is counted (Table 11.1).
Which of several free superblocks with the lowest count takes the data is the model's choice (log entry 39). -/
def Obligations.KilnUpkeepCompletes : Prop :=
  ∀ s : State,
    let now := finishErases s
    let moved := fun (b : Nat) => moveBlock (shutBlock now b) (areaOf now b) b
    let relocates := fun (t : State) (b : Nat) => t.kiln.map = (moved b).kiln.map ∧ t.kiln.journal = (moved b).kiln.journal ∧
      (liveIn (moved b).kiln.map b = [] → readInBlock s b = false → (sblock s b).failedOn = [] → 0 < (sblock s b).fill → (sblock s b).erasing = false →
        (sblock t b).erasing = true)
    (∀ (n : Nat) (r : PageRead) (x : Stream) (rec_ : TenRec) (i p : Nat) (rest : List Nat), s.tiers.streams.find? (fun y => y.id = n) = some x → kilnServes s = true → s.pace.pfw = false →
      x.started = true → x.tier = 4 → x.left.head? = some i →
      x.source.or (s.kiln.map.ten (recKeyOf x.epoch ((verOf s x.epoch x.adapter x.version).getD {}) i) i) = some rec_ →
      (if x.source.isSome then x.toRead else rec_.pages s) = p :: rest →
      let d := pageDevice p
      let there := (s.chan d).st = .inService ∧ domainPresent s (160 + d) = true
      let fed := fun (t : State) (bs : List Byte) => ∃ y, t.tiers.streams.find? (fun y => y.id = n) = some y ∧ y.toRead = rest ∧ y.source = some rec_ ∧ y.got = x.got ++ padTo 16384 bs
      (there → (∀ c ∈ r.codewords, c = .clean ∨ c = .hard) → x.reread = false → ∃ t, exec (.kilnPageRead n r.codewords r.reconFirst r.toStripeRead) s = .next t ∧ fed t (xorBytes (s.flashPage p).data r.upset) ∧
        t.kiln.reconstructs = s.kiln.reconstructs ∧ (t.chan d).ldpcHard = sat 32 ((s.chan d).ldpcHard + (r.codewords.filter (· = .hard)).length) ∧
        (sblock t (pageBlock s p)).reads = (sblock s (pageBlock s p)).reads + 1) ∧
      ((¬ there ∨ .fail ∈ r.codewords) →
        (∀ bs, rebuildPage s (r.failing.map (·.val)) p = some bs → ∃ t, exec (.kilnPageRead n r.codewords r.reconFirst r.toStripeRead) s = .next t ∧ fed t bs ∧
          t.kiln.reconstructs = sat 32 (s.kiln.reconstructs + 1) ∧ (¬ there → t.chan d = s.chan d)) ∧
        (rebuildPage s (r.failing.map (·.val)) p = none → ∃ t, exec (.kilnPageRead n r.codewords r.reconFirst r.toStripeRead) s = .next t ∧ t.kiln.phase = .failed))) ∧
    (∀ (r : TenRec) (b : Nat) (u : State), kilnWorks s = true → (hasty s = false ∨ ∀ a v, JournalKind.dirty a v ∉ s.kiln.pending) → foldNext s = some (r, b) →
      moveTensor now .data b r = some u →
      ∃ t, exec .kilnFold s = .next t ∧ t.kiln.map = u.kiln.map ∧ ∃ j ∈ t.kiln.journal, j.kind = .move b ∧ ∃ q ∈ j.tensors, q.key = r.key ∧ q.index = r.index) ∧
    (∀ b, kilnWorks s = true → (areaOf now b = .data ∨ areaOf now b = .slc) →
      (regFld s pgKiln 0x098 0 32 ≤ (sblock s b).reads → ∃ t, exec (.disturbRelocate b) s = .next t ∧ relocates t b) ∧
      (regFld s pgKiln 0x090 16 16 < eraseMax s - eraseMin s → coldest s = some b → ∃ t, exec .wearLevelling s = .next t ∧ relocates t b)) ∧
    (kilnServes s = true → ∃ t, exec .zqShortCalibration s = .next t ∧ t.kiln.zqShorts = s.kiln.zqShorts + 1 ∧
      ∀ d ∈ serviceColumns s, Output.flash d .zqShort ∈ t.outs)

/-- With no operation running, `KEY_OP` 0b01 for a peer of the rack with a key that unwraps writes the slot and zeroes `KEY_IN`; with a key that does not unwrap it is refused `BAD_FIELD`, zeroes
`KEY_IN` and counts in `UNWRAP_FAILS`; for a peer outside the rack it is refused `BAD_FIELD` (R207, R407). 0b10 and 0b11 then begin their operation; while one runs, each of the three is refused
`BAD_STATE`, the load where its peer is in the rack (R409). `KEY_DONE` ends a load or a renewal, and the renewal has then replaced the load key pair (R409). -/
def Obligations.KeyCommandsComplete : Prop :=
  ∀ (p : BitVec 8) (rx : Bool) (n : Fin 4096) (role : Role) (s : State),
    (Accessible s pgKeys 0x178 (keyWord 1 0 p.toNat rx) role → s.keys.busy = none →
      (∀ k, p.toNat < rackSize s → unwrapped s p.toNat rx = some k → ∃ t, exec (.keyLoadSlot p rx role) s = .next t ∧ tget none t.keys.slots (slotOf p.toNat rx) = some k ∧
        (∀ m, m ≠ slotOf p.toNat rx → tget none t.keys.slots m = tget none s.keys.slots m) ∧ t.keys.keyIn = [] ∧ t.keys.busy = some 1 ∧ Responds t stDone) ∧
      (p.toNat < rackSize s → unwrapped s p.toNat rx = none → ∃ t, exec (.keyLoadSlot p rx role) s = .next t ∧
        t.keys = { s.keys with keyIn := [], unwrapFails := sat 32 (s.keys.unwrapFails + 1) } ∧ Responds t stBadField) ∧
      (rackSize s ≤ p.toNat → ∃ t, exec (.keyLoadSlot p rx role) s = .next t ∧ t.keys = { s.keys with keyIn := [] } ∧ Responds t stBadField)) ∧
    (s.keys.busy.isSome = true → p.toNat < rackSize s →
      (Accessible s pgKeys 0x178 (keyWord 1 0 p.toNat rx) role → ∃ t, exec (.keyLoadSlot p rx role) s = .next t ∧ t.keys = { s.keys with keyIn := [] } ∧ Responds t stBadState) ∧
      (Accessible s pgKeys 0x178 (keyWord 2 n 0 false) role → ∃ t, exec (.keyRotate n role) s = .next t ∧ OnlyEventsAndPorts s t ∧ Responds t stBadState) ∧
      (Accessible s pgKeys 0x178 (keyWord 3 0 0 false) role → ∃ t, exec (.keyRenewLoadPair role) s = .next t ∧ OnlyEventsAndPorts s t ∧ Responds t stBadState)) ∧
    (Accessible s pgKeys 0x178 (keyWord 2 n 0 false) role → s.keys.busy = none → 0 < rackSize s →
      ∃ t, exec (.keyRotate n role) s = .next t ∧ t.keys.busy = some 2 ∧ t.keys.busyTenant = n ∧ t.keys.slots = s.keys.slots ∧ Responds t stDone) ∧
    (Accessible s pgKeys 0x178 (keyWord 3 0 0 false) role → s.keys.busy = none → 0 < rackSize s →
      ∃ t, exec (.keyRenewLoadPair role) s = .next t ∧ t.keys.busy = some 3 ∧ t.keys.loadPair = s.keys.loadPair ∧ Responds t stDone) ∧
    (s.keys.busy = some 1 → ∃ t, exec .keyDone s = .next t ∧ t.keys = { s.keys with busy := none }) ∧
    (s.keys.busy = some 3 → ∃ t, exec .keyDone s = .next t ∧ t.keys = { s.keys with busy := none, loadPair := s.keys.loadPair + 1, pubValid := true })

/-- `TENANT_OP` 0b10 makes the staged record the tenant's and 0b01 stages the tenant's; `HP_OP` does the same for the training record; the write of `SALT_HI` stores both halves of the
selected tenant's salt. No other tenant's record or salt changes (R150, R162, R403, R405, R429). A store that R403 refuses changes nothing; one that names an adapter homed elsewhere that
this block does not know is decided when the adapter's home has answered, which is the model's choice (log entry 57). -/
def Obligations.TenantRegistersComplete : Prop :=
  ∀ (n : Fin 4096) (w : Fin 4) (v : Word64) (role : Role) (s : State),
    (Accessible s pgGlobal 0x0C0 (tenantSelWord 2 w n) role →
      (tenantWaits s n (stagedTenant s) = false → tenantStoreCheck n (stagedTenant s) s = none →
        ∃ t, exec (.tenantStore n w role) s = .next t ∧ tget {} t.tenantRecs n = tenantOfBytes (stagedTenant s) ∧
          (∀ m, m ≠ n.val → tget {} t.tenantRecs m = tget {} s.tenantRecs m) ∧ Responds t stDone) ∧
      (∀ st, tenantWaits s n (stagedTenant s) = false → tenantStoreCheck n (stagedTenant s) s = some st →
        ∃ t, exec (.tenantStore n w role) s = .next t ∧ OnlyEventsAndPorts s t ∧ Responds t st) ∧
      (tenantWaits s n (stagedTenant s) = true →
        ∃ t, exec (.tenantStore n w role) s = .next t ∧ t.tenantRecs = s.tenantRecs ∧ Responds t stDone ∧
          ∃ x, t.homes.tenantWaits = s.homes.tenantWaits ++ [x] ∧ x.tenant = n.val ∧ x.bytes = stagedTenant s)) ∧
    (Accessible s pgGlobal 0x0C0 (tenantSelWord 1 w n) role →
      ∃ t, exec (.tenantLoad n w role) s = .next t ∧ stagedTenant t = TenantRec.bytes (tget {} s.tenantRecs n) ∧ t.tenantRecs = s.tenantRecs ∧ Responds t stDone) ∧
    (Accessible s pgTrain 0x0A0 (hpWord 1 n) role → (stagedHp s).ok = true →
      ∃ t, exec (.hpStore n role) s = .next t ∧ tget {} t.train.hp n = stagedHp s ∧ (∀ m, m ≠ n.val → tget {} t.train.hp m = tget {} s.train.hp m) ∧ Responds t stDone) ∧
    (Accessible s pgTrain 0x0A0 (hpWord 2 n) role →
      ∃ t, exec (.hpLoad n role) s = .next t ∧ t.train = s.train ∧
        (∀ x ∈ [(0x0A8, 0), (0x0B0, 8), (0x0B8, 16), (0x0C0, 24)], reg t pgTrain x.1 = BitVec.ofNat 64 (le (tget {} s.train.hp n : HpRec).bytes x.2 8)) ∧ Responds t stDone) ∧
    (Accessible s pgKeys 0x1A0 v role →
      ∃ t, exec (.saltHiWrite v role) s = .next t ∧ tget (0, 0) t.keys.salts (regFld s pgKeys 0x190 0 12) = (s.keys.saltLo, v) ∧
        (∀ m, m ≠ regFld s pgKeys 0x190 0 12 → tget (0, 0) t.keys.salts m = tget (0, 0) s.keys.salts m) ∧ Responds t stDone)

/-! ### The log book, the cellar's registers and the address windows -/

/-- The log writer appends the oldest waiting record, once core pair 3 is not in restart and, for a first-fault record, no clear runs: at the next place of the ring, and a first-fault record
also at the next place of the first-fault area while that has room, each in every bank in use whose copy reads back right; a bank whose copy does not is used no more (R382, R383, R387, R388).
A write of `LOG_SEL` reads the index that it selects (R391); `LOGBOOK_READ` returns the raw copy that the scan before it selected (R390). The clear of the first-fault area begins with the
sequence of its newest record; an older one, or a clear that runs, is refused `BAD_STATE`, and a newer one `BAD_FIELD`; its end empties the area and leaves the ring (R387). So in
a block of sequences that is reserved; the first event of the next block comes after its reservation, which takes the block's first sequence (R313; log entry 13). -/
def Obligations.LogBookCommandsComplete : Prop :=
  ∀ s : State,
    ((s.gauger.seq + 1) % 2 ^ 32 = 0 → (stamp s).log.reservedBlock = (s.gauger.seq + 1) / 2 ^ 32 ∧ (stamp s).gauger.seq = s.gauger.seq + 2) ∧
    (∀ r rest (ok0 ok1 : Bool), InBlock s → s.log.queue = r :: rest → mayAppend s r = true →
      let holds := fun (t : State) (i : Nat) => (ok0 = true → s.log.bank0Ok = true → rawCopy t.log 0 i = padTo 64 (recordBytes r)) ∧
        (ok1 = true → s.log.bank1Ok = true → rawCopy t.log 1 i = padTo 64 (recordBytes r))
      ∃ t, exec (.logAppend ok0 ok1) s = .next t ∧ t.log.ringNext = (s.log.ringNext + 1) % ringSize ∧ t.log.newestSeq = r.seq ∧
        holds t (ffSize + s.log.ringNext) ∧ (ok0 = false → t.log.bank0Ok = false) ∧ (ok1 = false → t.log.bank1Ok = false) ∧
        (r.firstFault = true → s.log.ffUsed < ffSize → t.log.ffUsed = s.log.ffUsed + 1 ∧ t.log.ffNewest = r.seq ∧ holds t s.log.ffUsed)) ∧
    (∀ (v : Word64) (role : Role), InBlock s → Accessible s pgLogbook 0x098 v role →
      let i := fld v 0 18 + if fld v 19 1 = 1 then 0 else ffSize
      ∃ t, exec (.logSelWrite v role) s = .next t ∧ t.log.selCopy = (readIndex s.log i).1 ∧ t.log.selData = (readIndex s.log i).2.1 ∧ t.log.bank0 = s.log.bank0 ∧
        t.log.bank1 = s.log.bank1 ∧ Responds t stDone) ∧
    (∀ (i : Fin 262144) (b : Fin 2), ∃ t, exec (.logbookRead i b) s = .next t ∧ t.outs.head? = some (.capture (captureBits s.log)) ∧
      t.log = { s.log with captureIndex := i, captureBank := b }) ∧
    (∀ (v : Word64) (role : Role), InBlock s → Accessible s pgLogbook 0x0E8 v role →
      (s.log.clearing = false → v.toNat = s.log.ffNewest → s.log.ffUsed ≠ 0 → ∃ t, exec (.ffClear v role) s = .next t ∧ t.log.clearing = true ∧ Responds t stDone) ∧
      ((s.log.clearing = true ∨ v.toNat < s.log.ffNewest) → ∃ t, exec (.ffClear v role) s = .next t ∧ OnlyEventsAndPorts s t ∧ Responds t stBadState) ∧
      (s.log.clearing = false → s.log.ffNewest < v.toNat → ∃ t, exec (.ffClear v role) s = .next t ∧ OnlyEventsAndPorts s t ∧ Responds t stBadField)) ∧
    (InBlock s → s.log.clearing = true → ∃ t, exec .ffClearDone s = .next t ∧ t.log.clearing = false ∧ t.log.ffUsed = 0 ∧ t.log.ffNewest = 0 ∧
      (∀ i < ffSize, rawCopy t.log 0 i = List.replicate 64 0 ∧ rawCopy t.log 1 i = List.replicate 64 0) ∧
      ∀ i, ffSize ≤ i → rawCopy t.log 0 i = rawCopy s.log 0 i ∧ rawCopy t.log 1 i = rawCopy s.log 1 i)

/-- A write of `CASK_SEL` copies the descriptor of the cask that it selects (R183). A raise of a part of the cellar that R163 allows shows the
written size at once, and one that it refuses leaves the part as it is, with the status that names the refusal (R162, R163). -/
def Obligations.CellarRegistersComplete : Prop :=
  ∀ (v : Word64) (role : Role) (s : State),
    (Accessible s pgCellar 0x0C8 v role →
      ∃ t, exec (.caskSelWrite v role) s = .next t ∧ t.cellar = { s.cellar with descCopy := caskDesc s (fld v 0 12) } ∧ Responds t stDone) ∧
    (∀ page off : BitVec 12, isPart page.toNat off.toNat = true → partNow s page.toNat < partMib page.toNat v → Accessible s page.toNat off.toNat v role →
      partCheck page.toNat v s = none →
      ∃ t, exec (.cellarPartRaise page off v role) s = .next t ∧ partNow t page.toNat = partMib page.toNat v ∧ Responds t stDone) ∧
    (∀ page off : BitVec 12, isPart page.toNat off.toNat = true → partNow s page.toNat < partMib page.toNat v → Accessible s page.toNat off.toNat v role →
      ∀ st, partCheck page.toNat v s = some st →
      ∃ t, exec (.cellarPartRaise page off v role) s = .next t ∧ partNow t page.toNat = partNow s page.toNat ∧ OnlyEventsAndPorts s t ∧ Responds t st)

/-- A transfer of an address window starts when its window is idle, its range lies in its tier, and, for a write into T1 or T4 or a move, the single-home regime runs; a
write into T4 starts at or above the test area (R205). Another one is refused, `BAD_STATE` before `BAD_FIELD`. A transfer that ends `DONE` has moved its bytes and no
others: a read and a move leave the tier's bytes at the window's place in chip memory, and a move releases them in the tier, where no tensor of them stands any more; a write leaves chip memory's bytes at the addressed
place of the tier; one that ends with another status moves nothing (R202, R205). The write of 1 to `TEST_HOLD` with no gyle open holds the single-home regime (R203).
Where the state holds no byte of the source, the transfer's operand gives it: the model's own (log entry 15). -/
def Obligations.WindowCommandsComplete : Prop :=
  (∀ (w : Fin 2) (n : BitVec 32) (role : Role) (s : State),
    let a := reg s pgTiers (winOff w)
    let room := fld a 0 48 + n.toNat ≤ tierBytes s (fld a 60 4) (fld a 52 3)
    let homeOk := fun (op : Nat) => (op = 3 ∨ (op = 2 ∧ (fld a 60 4 = 1 ∨ fld a 60 4 = 4))) → s.tiers.singleHome = true
    let placeOk := fun (op : Nat) => room ∧ (op = 2 → fld a 60 4 = 4 → testArea s ≤ fld a 0 48)
    let began := fun (t : State) (op : Nat) => (∃ x, winOf t w = x ∧ x.busy = true ∧ x.op = op ∧ x.tier = fld a 60 4 ∧ x.grant = fld a 52 3 ∧ x.offset = fld a 0 48 ∧
        x.chip = (reg s pgTiers (winOff w + 8)).toNat ∧ x.bytes = n.toNat) ∧ t.cellar = s.cellar ∧ t.kiln = s.kiln ∧ t.tiers.chip = s.tiers.chip ∧ Responds t stDone
    let refused := fun (i : Instr) (st : Nat) => ∃ t, exec i s = .next t ∧ OnlyEventsAndPorts s t ∧ Responds t st
    let cmd := fun (op : Nat) => if op = 1 then Instr.winRead w n role else if op = 2 then Instr.winWrite w n role else Instr.winMove w n role
    ((winOf s w).busy = false →
      (Accessible s pgTiers (winOff w + 16) (winValue 1 n) role → placeOk 1 → ∃ t, exec (.winRead w n role) s = .next t ∧ began t 1) ∧
      (Accessible s pgTiers (winOff w + 16) (winValue 2 n) role → homeOk 2 → placeOk 2 → ∃ t, exec (.winWrite w n role) s = .next t ∧ began t 2) ∧
      (Accessible s pgTiers (winOff w + 16) (winValue 3 n) role → homeOk 3 → placeOk 3 → ∃ t, exec (.winMove w n role) s = .next t ∧ began t 3)) ∧
    (∀ op ∈ [1, 2, 3], Accessible s pgTiers (winOff w + 16) (winValue op n) role →
      ((winOf s w).busy = true ∨ ¬ homeOk op → refused (cmd op) stBadState) ∧
      ((winOf s w).busy = false → homeOk op → ¬ placeOk op → refused (cmd op) stBadField))) ∧
  (∀ (w : Fin 2) (st : Nat) (data : List Byte) (s : State), (winOf s w).busy = true →
    let x := winOf s w
    let off := x.offset
    let tier := x.tier
    let grant := x.grant
    let chip := x.chip
    let n := x.bytes
    let fromTier := overlay (tierByte s tier grant) off (padTo n data)
    let fromChip := overlay (memGet s.tiers.chip) chip (padTo n data)
    let put := fun (m m' : Memory) (at_ : Nat) (bs : List Byte) => ∀ x, memGet m' x = if at_ ≤ x ∧ x < at_ + n then bs[x - at_]? else memGet m x
    let dropped := fun (m m' : Memory) (at_ : Nat) => ∀ x, memGet m' x = if at_ ≤ x ∧ x < at_ + n then none else memGet m x
    ∃ t, exec (.winTransferDone w st ⟨data, []⟩) s = .next t ∧ (winOf t w).busy = false ∧ (winOf t w).status = st % 256 ∧
      (st ≠ stDone → t.cellar = s.cellar ∧ t.kiln = s.kiln ∧ t.tiers.chip = s.tiers.chip ∧ t.tiers.borrowed = s.tiers.borrowed) ∧
      (st = stDone → x.op = 1 → put s.tiers.chip t.tiers.chip chip fromTier ∧ t.cellar = s.cellar ∧ t.kiln = s.kiln ∧ t.tiers.borrowed = s.tiers.borrowed) ∧
      (st = stDone → x.op = 3 →
        (∀ y, (chip ≤ y → y < chip + n → memGet t.tiers.chip y = fromTier[y - chip]?) ∧
          (¬ (chip ≤ y ∧ y < chip + n) → memGet t.tiers.chip y = none ∨ memGet t.tiers.chip y = memGet s.tiers.chip y) ∧
          (tier = 2 → ¬ (chip ≤ y ∧ y < chip + n) → t2Base s + off ≤ y → y < t2Base s + off + n → memGet t.tiers.chip y = none)) ∧
        (tier = 1 → dropped s.cellar.memory t.cellar.memory off ∧ ∀ p ∈ tensorsIn s 1 grant, p.place < off + n → off < p.place + (p.bytes s).length →
          ∀ k, caskOf s p.epoch p.adapter p.version = some k → p.tensor ∉ (t.cask k).present) ∧
        (tier = 3 → t.tiers.borrowed = s.tiers.borrowed.map fun b => if b.grant = grant then { b with cells := memDrop b.cells off n } else b) ∧
        (tier = 4 → dropped s.kiln.memory t.kiln.memory off)) ∧
      (st = stDone → x.op = 2 →
        (tier = 1 → put s.cellar.memory t.cellar.memory off fromChip) ∧ (tier ≠ 1 → t.cellar = s.cellar) ∧
        (tier = 2 → put s.tiers.chip t.tiers.chip (t2Base s + off) fromChip) ∧ (tier ≠ 2 → t.tiers.chip = s.tiers.chip) ∧
        (tier = 3 → t.tiers.borrowed = s.tiers.borrowed.map fun b => if b.grant = grant then { b with cells := memWrite b.cells off fromChip } else b) ∧
        (tier = 4 → put s.kiln.memory t.kiln.memory off fromChip) ∧ (tier ≠ 4 → t.kiln = s.kiln))) ∧
  (∀ (v : Word64) (role : Role) (s : State), Accessible s pgTiers 0x098 v role → fld v 8 1 = 1 →
    (∀ g ∈ s.gyles, g.held = true ∨ g.st = .complete) → ∃ t, exec (.testHoldWrite v role) s = .next t ∧ t.tiers.testHold = true ∧ t.tiers.singleHome = true ∧ Responds t stDone)

/-- `REPAIR_CMD` for a region that R356 allows begins its remap onto a free reserve region; while core pair 0 is away the remap waits. A step that ends leads to the next one, the end of step 4 records
the remap in the repair map, the end of step 6 ends it; with a power-failure warning a step that ends is the last (R356, R379, Table 17.6). Staging an image marks none as staged until its
checks have passed; its end sets the status and stores the image in the slot that is not active; with an image staged the activation takes pair 0 first, unless a pair is in restart at level 6; after the last pair
the staged image runs and its slot is the active one (R358 to R361). A pair in restart that passes its self-check serves, and one that fails it at level 6 stays as it is (R330). A measured margin
is recorded; one that is large enough changes no trim; one that is too small raises the group's trim by one step, and at trim 16 leaves it and marks the group, or fences the tun (R352 to R354). -/
def Obligations.RepairCommandsComplete : Prop :=
  ∀ (role : Role) (s : State),
    (∀ (die : Fin 4) (region : Fin 1024) (i : Nat), Accessible s pgRepair 0x088 (remapValue die region) role → remapCheck die region s = none → freeReserve s = some i →
      (pairAway s 0 = false → ∃ t, exec (.repairRemap die region role) s = .next t ∧ t.repair.remap = some { die := die, region := region, reserve := i, fault := 0 } ∧ Responds t stDone) ∧
      (pairAway s 0 = true → ∃ t, exec (.repairRemap die region role) s = .next t ∧ t.repair.remapWaiting = s.repair.remapWaiting ++ [(die.val, region.val, 0)] ∧ Responds t stDone)) ∧
    (∀ (r : Remap) (found : RegionFinds), s.repair.remap = some r →
      (r.step ≠ 6 → (r.step = 5 → ∀ x ∈ r.items, refilling s x = false) →
        (s.pace.pfw = false → ∃ t r', exec (.regionRemapStepDone found) s = .next t ∧ t.repair.remap = some r' ∧ r'.step = r.step + 1 ∧ r'.die = r.die ∧ r'.region = r.region ∧
          r'.reserve = r.reserve ∧
          (r.step = 4 → mapRecords s < 4096 → ∃ m, t.repair.mapA = s.repair.mapA ++ [m] ∧ t.repair.mapB = s.repair.mapB ++ [m] ∧ m.kind = .cellarRegion ∧
            m.object = r.die * 1024 + r.region ∧ m.data = [r.reserve])) ∧
        (s.pace.pfw = true → ∃ t, exec (.regionRemapStepDone found) s = .next t ∧ t.repair.remap = none)) ∧
      (r.step = 6 → s.repair.remapWaiting = [] → ∃ t, exec (.regionRemapStepDone found) s = .next t ∧ t.repair.remap = none ∧ t.repair.mapA = s.repair.mapA)) ∧
    (∀ n : BitVec 32, Accessible s pgRepair 0x0B0 (fwValue 1 n) role → s.repair.fw.activating = false →
      ∃ t, exec (.fwStage n role) s = .next t ∧ t.repair.fw.busy = true ∧ t.repair.fw.stagedOk = false ∧ t.repair.fw.running = s.repair.fw.running ∧ Responds t stDone) ∧
    (∀ f : FwImage, s.repair.fw.busy = true → s.repair.fw.activating = false →
      ∃ t, exec (.fwStageDone f) s = .next t ∧ t.repair.fw.busy = false ∧
        t.repair.fw.status = (if imagePasses s f then stDone else stBadField) ∧ t.repair.fw.stagedOk = imagePasses s f ∧ (imagePasses s f = true → t.repair.fw.staged = f.version) ∧
        tget {} t.repair.fw.slots (1 - s.repair.fw.activeSlot) = f ∧ t.repair.fw.activeSlot = s.repair.fw.activeSlot ∧ t.repair.fw.running = s.repair.fw.running) ∧
    (∀ n : BitVec 32, Accessible s pgRepair 0x0B0 (fwValue 2 n) role → s.repair.fw.busy = false → s.repair.fw.stagedOk = true → s.repair.fw.pairNow = none →
      (pairFaulted s = true → ∃ t, exec (.fwActivate n role) s = .next t ∧ t.repair.fw.activating = true ∧ t.repair.pairs = s.repair.pairs ∧ Responds t stDone) ∧
      (s.pace.pfw = false → pairFaulted s = false → ∃ t, exec (.fwActivate n role) s = .next t ∧ t.repair.fw.activating = true ∧ t.repair.fw.pairNow = some 0 ∧ t.repair.fw.todo = [2, 3, 1] ∧ tget .down t.repair.pairs 0 = .activating ∧
        t.repair.fw.running = s.repair.fw.running ∧ Responds t stDone)) ∧
    (∀ p : Fin 4, tget .down s.repair.pairs p = .restarting → exec (.pairRestartDone p false) s = .next s) ∧
    (∀ p : Fin 4, tget .down s.repair.pairs p = .restarting → s.repair.fw.activating = false → s.homes.msgsQueued = [] →
      ∃ t, exec (.pairRestartDone p true) s = .next t ∧ tget .down t.repair.pairs p = .serving) ∧
    (∀ p : Fin 4, tget .down s.repair.pairs p = .activating → s.repair.fw.pairNow = some p.val → s.repair.fw.activating = true → s.repair.fw.rollback = false → s.pace.pfw = false →
      pairFaulted s = false → s.repair.fw.todo = [] → s.homes.msgsQueued = [] →
      ∃ t, exec (.pairRestartDone p true) s = .next t ∧ t.repair.fw.running = s.repair.fw.staged ∧ t.repair.fw.activeSlot = 1 - s.repair.fw.activeSlot ∧ t.repair.fw.status = stDone ∧
        t.repair.fw.activating = false) ∧
    (∀ (g : Fin 255) (m : BitVec 32), (68 ≤ g.val ∨ ((s.tun g).st = .bist ∧ (s.tun g).selfTest = true)) → Inv s →
      ∃ t, exec (.ageMonitorMeasure g m) s = .next t ∧ tget 0 t.repair.margins g = m.toNat ∧
        (regFld s pgRepair 0x090 0 6 * 16 ≤ m.toNat → t.repair.trims = s.repair.trims) ∧
        (m.toNat < regFld s pgRepair 0x090 0 6 * 16 → trimOf s g < 16 → trimOf t g = trimOf s g + 1 ∧ ∀ h, h ≠ g.val → trimOf t h = trimOf s h) ∧
        (m.toNat < regFld s pgRepair 0x090 0 6 * 16 → 16 ≤ trimOf s g → t.repair.trims = s.repair.trims ∧ (68 ≤ g.val → g.val ∈ t.repair.limitGroups) ∧
          (g.val < 68 → (t.tun g).st = .fenced)))

/-! ### Power, heat and the power-failure warning -/

/-- `CAP_EFF_W` is the least of the caps that apply: after a write of `POWER_CAP`, a change of the port's cap and a change of the de-rate input it lies under each of them, and equals one; a telemetry
sample sets the gate by R370 and leaves the cap; a settled window above C by more than 2 percent is counted (R368 to R370). While the power port's clock is lost its inputs keep their last
values (Table 23.2). -/
def Obligations.CapEventsComplete : Prop :=
  let capped := fun (t : State) => (∀ x ∈ capInputs t, t.pace.capEff ≤ x.1) ∧ ∃ x ∈ capInputs t, t.pace.capEff = x.1
  let gated := fun (t : State) => t.pace.gate = gateFor t.pace.capEff t.pace.leakDw t.pace.restDw t.pace.interiorDw
  (∀ (v : Word64) (role : Role) (s : State), Accessible s pgPace 0x088 v role →
    ∃ t, exec (.powerCapWrite v role) s = .next t ∧ capped t ∧ gated t ∧ t.pace.capEff ≤ fld v 0 8 ∧ (s.pace.derate = true → t.pace.capEff ≤ fld v 8 8) ∧ Responds t stDone) ∧
  (∀ (w : BitVec 8) (b : Bool) (x : Telemetry) (s : State), domainPresent s 209 = false →
    exec (.portCapChange w) s = .next s ∧ exec (.derateChange b) s = .next s ∧ exec (.telemetrySample x) s = .next s) ∧
  (∀ (w : BitVec 8) (s : State), domainPresent s 209 = true → s.pace.portCapRaw ≠ w.toNat →
    ∃ t, exec (.portCapChange w) s = .next t ∧ capped t ∧ gated t ∧ t.pace.portCap = min 180 (max 40 w.toNat) ∧
      t.pace.capUnmet = if w.toNat < 40 then sat 32 (s.pace.capUnmet + 1) else s.pace.capUnmet) ∧
  (∀ (b : Bool) (s : State), domainPresent s 209 = true → s.pace.derate ≠ b →
    ∃ t, exec (.derateChange b) s = .next t ∧ capped t ∧ gated t ∧ t.pace.derate = b ∧ (b = true → t.pace.capEff ≤ regFld s pgPace 0x088 8 8)) ∧
  (∀ (x : Telemetry) (s : State), domainPresent s 209 = true →
    ∃ t, exec (.telemetrySample x) s = .next t ∧ t.pace.capEff = s.pace.capEff ∧ gated t ∧ t.pace.vddMeas = x.mv ∧ t.pace.leakDw = x.leakDw ∧ t.pace.restDw = x.restDw ∧
      t.pace.interiorDw = x.interiorDw ∧ t.pace.tjMax = x.tjMax ∧ t.pace.instDw = x.mv * x.deciAmp / 1000) ∧
  (∀ (avg : Nat) (b : Bool) (s : State),
    ∃ t, exec (.capWindowEnd avg b) s = .next t ∧ t.pace.avgDw = avg ∧ t.pace.gate = s.pace.gate ∧
      t.pace.capUnmet = if b = true ∧ 1020 * s.pace.capEff < 100 * avg then sat 32 (s.pace.capUnmet + 1) else s.pace.capUnmet)

/-- The gate level of R370 is the greatest G up to 16 with L + P_rest + D × G/16 within C, and 0 where the parts that gating does not touch take all of C (R370). -/
def Obligations.GateKeepsTheCap : Prop :=
  ∀ capW leak rest interior : Nat,
    gateFor capW leak rest interior ≤ 16 ∧
    (leak + rest ≤ 10 * capW → (interior = 0 ∨ 16 * (leak + rest) + interior * gateFor capW leak rest interior ≤ 16 * (10 * capW))) ∧
    (10 * capW ≤ leak + rest → gateFor capW leak rest interior = 0) ∧
    (∀ g, leak + rest < 10 * capW → interior ≠ 0 → g ≤ 16 → 16 * (leak + rest) + interior * g ≤ 16 * (10 * capW) → g ≤ gateFor capW leak rest interior)

/-- The thermal cap starts at the measured power within 40 to 180 W, falls by 9 W to 40 W while a condition of R372 holds and rises by 9 W otherwise, and stops binding at 180 W; a condition that comes
while it binds moves nothing (R372). Issue halts at 105 °C and resumes below 100 °C with the chip's warning withdrawn; the tuns keep their state, but
for the operations of row-slots whose gyle's cut-off has passed or is none: they take the second choice (R308, R373). A sag raises its region's stretch by
Table 18.2 and counts an episode where the stretch was 0; the stretch falls a step at a time; one that lasts is raised once in its episode (R365, R366). -/
def Obligations.HeatAndSagEventsComplete : Prop :=
  ∀ s : State,
    (∀ (tj : Nat) (b : Bool), thermWarm s tj (sampledWarn s b) = true → s.pace.thermActive = true →
      ∃ t, exec (.thermalCapStart tj b) s = .next t ∧ t.pace.thermCap = s.pace.thermCap ∧ t.pace.capEff = s.pace.capEff ∧ t.pace.tjMax = tj) ∧
    (∀ (tj : Nat) (b : Bool), thermWarm s tj (sampledWarn s b) = true → s.pace.thermActive = false →
      ∃ t, exec (.thermalCapStart tj b) s = .next t ∧ t.pace.thermActive = true ∧ t.pace.thermCap = min 180 (max 40 (s.pace.instDw / 10)) ∧ t.pace.capEff ≤ t.pace.thermCap) ∧
    (∀ (tj : Nat) (b : Bool), s.pace.thermActive = true →
      ∃ t, exec (.thermalCapStep tj b) s = .next t ∧
        t.pace.thermCap = (if thermWarm s tj (sampledWarn s b) then max 40 (s.pace.thermCap - 9) else min 180 (s.pace.thermCap + 9)) ∧
        (t.pace.thermActive = true ↔ t.pace.thermCap ≠ 180) ∧ (t.pace.thermActive = true → t.pace.capEff ≤ t.pace.thermCap)) ∧
    (∀ (i : Fin 72) (tj : Nat), 105 ≤ tj → s.pace.thermHalted = false →
      ∃ t, exec (.thermHalt i tj) s = .next t ∧ t.pace.thermHalted = true ∧ t.pace.tjMax = tj ∧ t.pace.tjSensor = i ∧ interiorHeld t = true ∧
        ((∀ g ∈ s.gyles, g.kind = .serving → g.cutoffPassed = false ∧ g.cutoffUs ≠ 0) → t.tuns = s.tuns)) ∧
    (∀ tj : Nat, tj < 100 → s.pace.thermHalted = true →
      ∃ t, exec (.thermResumed tj) s = .next t ∧ t.pace.thermHalted = false ∧ t.pace.chipWarn = false ∧ t.tuns = s.tuns) ∧
    (∀ (i : Fin 72) (x : Nat), (s.sag i).steps < sagSteps x →
      ∃ t, exec (.sagRise i x) s = .next t ∧ (t.sag i).steps = sagSteps x ∧
        (t.sag i).events = (if (s.sag i).steps = 0 then sat 32 ((s.sag i).events + 1) else (s.sag i).events) ∧ ∀ j, j ≠ i.val → t.sag j = s.sag j) ∧
    (∀ i : Fin 72, (s.sag i).steps ≠ 0 →
      (∃ t, exec (.sagStepDown i) s = .next t ∧ (t.sag i).steps = (s.sag i).steps - 1 ∧ ∀ j, j ≠ i.val → t.sag j = s.sag j) ∧
      ((s.sag i).persisted = false → ∃ t, exec (.sagPersist i) s = .next t ∧ (t.sag i).persisted = true ∧ (t.sag i).steps = (s.sag i).steps ∧
        (t.page pgPace).classSeq = tset 0 ((stamp s).page pgPace).classSeq 5 (max (stamp s).gauger.seq (tget 0 ((stamp s).page pgPace).classSeq 5))))

/-- A power-failure warning is taken once: the block settles, unless the settle time is 0, and at the end of that time it settles no longer; a second assertion changes the input's level and nothing
else (R375, R376, R378). After it the block closes and asks for 550 mV, and a kiln that serves is closed with no record and no dirty data waiting (R377). The withdrawal of the warning raises
`PFW_CLEARED` where the block is closed; one that came before raises it as the block closes (R378). -/
def Obligations.PowerFailureCompletes : Prop :=
  ∀ s : State,
    (s.glob.powered = true → s.glob.heldInReset = false → s.pace.pfw = false →
      ∃ t, exec .pfwAssert s = .next t ∧ t.pace.pfw = true ∧ t.pace.pfwLevel = true ∧ t.pace.settling = decide (regFld s pgPace 0x090 32 16 ≠ 0)) ∧
    (s.glob.powered = true → s.glob.heldInReset = false → s.pace.pfw = true →
      ∃ t, exec .pfwAssert s = .next t ∧ t = { s with pace := { s.pace with pfwLevel := true } }) ∧
    (s.pace.settling = true → ∃ t, exec .pfwSettleExpiry s = .next t ∧ t.pace.settling = false ∧ t.pace.pfw = s.pace.pfw) ∧
    (s.pace.pfw = true → s.pace.settling = false → s.pace.closed = false →
      ∃ t, exec .pfwWritebackDone s = .next t ∧ t.pace.closed = true ∧ t.pace.vddReq = 550 ∧
        (s.pace.pfwLevel = false → tget 0 (t.page pgPace).classSeq 4 = max t.gauger.seq (tget 0 (s.page pgPace).classSeq 4)) ∧ (kilnServes s = true → t.kiln.phase = .closed ∧ t.kiln.pending = [] ∧ t.train.dirty = [])) ∧
    (s.pace.pfwLevel = true → ∃ t, exec .pfwCleared s = .next t ∧ t.pace.pfwLevel = false ∧ t.pace.closed = s.pace.closed ∧
      (s.pace.closed = true → (t.page pgPace).classSeq = tset 0 ((stamp s).page pgPace).classSeq 4 (max (stamp s).gauger.seq (tget 0 ((stamp s).page pgPace).classSeq 4))))

/-! ### Start, reset, clocks and domains -/

/-- The block comes up only with power and a released `RST_COLD_n`: the later of the two requests a cold start, power loss and a held reset clear the block, and what Table 20.4 keeps through a cold reset stays: the kiln's
contents, the log book's banks, the repair map, fuses and the wrap key's generation of a tenant whose key no rotation was changing (R393, R400, R445). -/
def Obligations.ResetInputsComplete : Prop :=
  let kept := fun (s t : State) => t.kiln.memory = s.kiln.memory ∧ t.kiln.journal = s.kiln.journal ∧ t.log.bank0 = s.log.bank0 ∧ t.log.bank1 = s.log.bank1 ∧ t.repair.mapA = s.repair.mapA ∧
    t.repair.mapB = s.repair.mapB ∧ t.fuses = s.fuses ∧ ∀ n, rotationOf s n = none → tget 0 t.keys.wrapGen n = tget 0 s.keys.wrapGen n
  ∀ s : State,
    (s.glob.powered = false → ∃ t, exec .pwrGoodRise s = .next t ∧ t.glob.powered = true ∧ kept s t ∧ (s.glob.heldInReset = false → t.glob.resetPending = some 1) ∧
      (s.glob.heldInReset = true → t.glob.resetPending = s.glob.resetPending)) ∧
    (s.glob.powered = true → ∃ t, exec .pwrGoodFall s = .next t ∧ t.glob.powered = false ∧ t.glob.resetPending = none ∧ t.glob.ready = false ∧ t.ctxs = [] ∧ t.gyles = [] ∧ t.regs = [] ∧ kept s t) ∧
    (s.glob.heldInReset = false → ∃ t, exec .rstColdAssert s = .next t ∧ t.glob.heldInReset = true ∧ t.glob.resetPending = none ∧ t.glob.ready = false ∧ t.ctxs = [] ∧ t.gyles = [] ∧ t.regs = [] ∧ kept s t) ∧
    (s.glob.heldInReset = true → ∃ t, exec .rstColdRelease s = .next t ∧ t.glob.heldInReset = false ∧ kept s t ∧ (s.glob.powered = true → t.glob.resetPending = some 2)) ∧
    (s.glob.powered = true → s.glob.heldInReset = false → s.glob.warmStep = 0 → coldPending s = false →
      ∃ t, exec .rstWarmRequest s = .next t ∧ t.glob.resetPending = some 3 ∧ t.glob.ready = s.glob.ready)

/-- `BLOCK_RESET` requests a reset, which begins at its own event: a warm reset takes every context down, and a cold start begins at step 1 with the counters and rings at their reset values and a new `POWER_ON_COUNT`
(R392, R393, R398, R400, R428). The write of `CONFIG_DONE` lets a start that waits at step 7 go on (R394). -/
def Obligations.BlockResetsComplete : Prop :=
  ∀ (role : Role) (s : State),
    (Accessible s pgGlobal 0x090 1 role → s.glob.warmStep = 0 → coldPending s = false →
      ∃ t, exec (.blockWarmResetCmd role) s = .next t ∧ t.glob.resetPending = some 4 ∧ t.ctxs = s.ctxs ∧ Responds t stDone) ∧
    (Accessible s pgGlobal 0x090 2 role → ∃ t, exec (.blockColdResetCmd role) s = .next t ∧ t.glob.resetPending = some 5 ∧ t.ctxs = s.ctxs ∧ Responds t stDone) ∧
    (∀ cause, s.glob.powered = true → s.glob.heldInReset = false → s.glob.resetPending = some cause → coldPending s = false → s.glob.warmStep = 0 →
      ∃ t, exec .warmReset s = .next t ∧ t.glob.ready = false ∧ t.glob.warmStep = 1 ∧ t.glob.startStep = 0xB ∧ t.glob.resetPending = none ∧ t.boundary.lastCause = cause ∧
        t.boundary.warmResets = sat 32 (s.boundary.warmResets + 1) ∧ ∀ c < 64, (t.ctx c).st = .down ∨ (t.ctx c).st = .resetting) ∧
    (s.glob.powered = true → s.glob.heldInReset = false → coldPending s = true →
      ∃ t cause, exec .coldStart s = .next t ∧ s.glob.resetPending = some cause ∧ t.boundary.lastCause = cause ∧ t.glob.startStep = 1 ∧ t.glob.ready = false ∧ t.glob.resetPending = none ∧
        t.glob.everReady = false ∧ t.ctxs = [] ∧ t.gyles = [] ∧ t.regs = [] ∧ t.log.powerOnCount = (newestCount s.log + 1) % 2 ^ 32 ∧ (SeqReserved s → s.gauger.seq < t.gauger.seq) ∧
        t.kiln.memory = s.kiln.memory ∧ t.repair.mapA = s.repair.mapA ∧ t.fuses = s.fuses) ∧
    (∀ v : Word64, Accessible s pgGlobal 0x098 v role → fld v 0 1 = 1 → s.glob.waitConfig = true → s.glob.mountBegun = false → regFld s pgTiers 0x088 0 11 ≠ 0 →
      ∃ t, exec (.configDoneWrite v role) s = .next t ∧ t.glob.waitConfig = false ∧ t.glob.mountBegun = true ∧ t.kiln.phase = .mounting ∧ Responds t stDone)

/-- The steps of a cold start follow each other as Table 20.2 says: the pairs serve after step 3, all timers are calibrated after step 4, step 5 retires or fences the tuns that the map or the BIST
names and brings the others into service, step 6 leaves the cellar zero, step 7 mounts the kiln, and step 9 makes the block ready (R393, R395). A start that outlasts its time, a step that reports a failure,
a cellar or a kiln that cannot be used stop the start with the code that names it (R396, Table 20.5). The steps of a warm reset follow each other as Table 20.3 says, and the last makes the
block ready; a step that does not succeed leaves the reset as it is (R398). -/
def Obligations.StartStepsComplete : Prop :=
  ∀ (r : StepResult) (s : State),
    (coldRunning s = true → r.failCode = 0 →
      (s.glob.startStep = 1 → startDurable s = true → ∃ t, exec (.startStepComplete r) s = .next t ∧ t.glob.startStep = 2) ∧
      (s.glob.startStep = 2 → ∃ t, exec (.startStepComplete r) s = .next t ∧ t.glob.startStep = 3) ∧
      (s.glob.startStep = 3 → ∃ t, exec (.startStepComplete r) s = .next t ∧ t.glob.startStep = 4 ∧ ∀ p < 4, tget .down t.repair.pairs p = .serving) ∧
      (s.glob.startStep = 4 → domainPresent s 209 = true → ∃ t, exec (.startStepComplete r) s = .next t ∧ t.glob.startStep = 5 ∧ t.gauger.calibrated = BitVec.allOnes 64) ∧
      (s.glob.startStep = 5 → ∃ t, exec (.startStepComplete r) s = .next t ∧ t.glob.startStep = 6 ∧ (∀ n < 68, tunRetired s n = true → (t.tun n).st = .retired) ∧
        (∀ n < 68, tunRetired s n = false → n ∈ r.badTuns → (t.tun n).st = .fenced) ∧
        ∀ n < 68, tunRetired s n = false → n ∉ r.badTuns → (t.tun n).st = .active ∨ (t.tun n).st = .spare) ∧
      (s.glob.startStep = 6 → (startCellar (stamp s) r.badRows r.badRegions).isSome = true → ∃ t, exec (.startStepComplete r) s = .next t ∧ t.glob.startStep = 7 ∧ t.cellar.memory = [] ∧
        (t.glob.mountBegun = true ∨ t.glob.waitConfig = true)) ∧
      (s.glob.startStep = 6 → startCellar (stamp s) r.badRows r.badRegions = none → ∃ t, exec (.startStepComplete r) s = .next t ∧ t.glob.startFail = 4 ∧ t.glob.startStep = 6) ∧
      (s.glob.startStep = 7 → mountKiln (stamp s) r = none → ∃ t, exec (.startStepComplete r) s = .next t ∧ t.glob.startFail = 5 ∧ t.glob.startStep = 7) ∧
      (s.glob.startStep = 7 → (mountKiln (stamp s) r).isSome = true → ∃ t, exec (.startStepComplete r) s = .next t ∧ t.glob.startStep = 8 ∧ (t.kiln.phase = .inService ∨ t.kiln.phase = .degraded)) ∧
      (s.glob.startStep = 8 → ∃ t, exec (.startStepComplete r) s = .next t ∧ t.glob.startStep = 9) ∧
      (s.glob.startStep = 9 → ∃ t, exec (.startStepComplete r) s = .next t ∧ t.glob.startStep = 0xA ∧ t.glob.ready = true ∧ t.glob.everReady = true)) ∧
    (coldRunning s = true → ∃ t, exec .startupTimeout s = .next t ∧ t.glob.startFail = 1 ∧ t.glob.ready = s.glob.ready ∧ t.glob.startStep = s.glob.startStep) ∧
    (coldRunning s = true → r.failCode ≠ 0 → failAllowed s.glob.startStep r.failCode = true → ∃ t, exec (.startStepComplete r) s = .next t ∧ t.glob.startFail = r.failCode ∧
      t.glob.startStep = s.glob.startStep) ∧
    (warmRunning s = true → r.failCode = 0 →
      (s.glob.warmStep = 1 → allDown s = true → ∃ t, exec (.warmStepComplete r) s = .next t ∧ t.glob.warmStep = 2) ∧
      (s.glob.warmStep = 2 → ∃ t, exec (.warmStepComplete r) s = .next t ∧ t.glob.warmStep = 3 ∧ t.gyles = [] ∧ t.handles = [] ∧ t.fuses = s.fuses ∧ (SeqReserved s → s.gauger.seq < t.gauger.seq)) ∧
      (s.glob.warmStep = 3 → startDurable s = true → ∃ t, exec (.warmStepComplete r) s = .next t ∧ t.glob.warmStep = 4) ∧
      (s.glob.warmStep = 4 → ∃ t, exec (.warmStepComplete r) s = .next t ∧ t.glob.warmStep = 5) ∧
      (s.glob.warmStep = 5 → (startCellar (stamp s) r.badRows r.badRegions).isSome = true → ∃ t, exec (.warmStepComplete r) s = .next t ∧ t.glob.warmStep = 6 ∧ t.kiln.phase = .mounting) ∧
      (s.glob.warmStep = 6 → (mountKiln (stamp s) r).isSome = true → ∃ t, exec (.warmStepComplete r) s = .next t ∧ t.glob.warmStep = 7 ∧ (t.kiln.phase = .inService ∨ t.kiln.phase = .degraded)) ∧
      (s.glob.warmStep = 7 → ∃ t, exec (.warmStepComplete r) s = .next t ∧ t.glob.warmStep = 8) ∧
      (s.glob.warmStep = 8 → ∃ t, exec (.warmStepComplete r) s = .next t ∧ t.glob.warmStep = 0 ∧ t.glob.ready = true ∧ t.glob.startStep = 0xA)) ∧
    (warmRunning s = true → r.failCode ≠ 0 → exec (.warmStepComplete r) s = .next s)

/-- A timer that is recalibrated counts as calibrated, and once all 64 are, a loss of calibration is over; a spare timer stands in for the next one. The loss of the reference clock ends every calibration and raises
`CAL_LOST` (R321). A domain that is lost or regained shows in `DOMAIN_OK`, raises its class, is counted where it is lost, and changes no other domain (R434). Which spare stands in is a free choice (log entry 10). -/
def Obligations.ClockEventsComplete : Prop :=
  ∀ s : State,
    (s.gauger.refClockOk = true → calibrates s = true →
      ∃ t, exec .timerRecal s = .next t ∧ t.gauger.calibrated = s.gauger.calibrated ||| (1#64 <<< s.gauger.recalTimer) ∧ t.gauger.recalTimer = (s.gauger.recalTimer + 1) % 64 ∧
        60 ≤ t.gauger.standinTimer ∧ t.gauger.standinTimer ≤ 63 ∧ t.gauger.standinTimer ≠ t.gauger.recalTimer ∧
        (t.gauger.calLost = true ↔ s.gauger.calLost = true ∧ t.gauger.calibrated ≠ BitVec.allOnes 64)) ∧
    (s.gauger.refClockOk = false → s.gauger.lossSeen = false → calibrates s = true →
      ∃ t, exec .calLost s = .next t ∧ t.gauger.calibrated = 0 ∧ t.gauger.calLost = true ∧ (t.page pgGauger).classSeq = tset 0 ((stamp s).page pgGauger).classSeq 0 (max (stamp s).gauger.seq (tget 0 ((stamp s).page pgGauger).classSeq 0))) ∧
    (∀ d : Fin 211, s.glob.powered = true → domainPresent s d = true →
      ∃ t, exec (.domainLost d) s = .next t ∧ domainPresent t d = false ∧ (∀ e, e ≠ d.val → domainPresent t e = domainPresent s e) ∧
        t.boundary.clockLosses = sat 32 (s.boundary.clockLosses + 1) ∧ tget 0 (t.page pgBoundary).classSeq 1 = max (stamp s).gauger.seq (tget 0 (s.page pgBoundary).classSeq 1) ∧ (d.val = 209 → t.gauger.refClockOk = false)) ∧
    (∀ d : Fin 211, s.glob.powered = true → s.glob.heldInReset = false → domainPresent s d = false →
      ∃ t, exec (.domainRegained d) s = .next t ∧ domainPresent t d = true ∧ (∀ e, e ≠ d.val → domainPresent t e = domainPresent s e) ∧
        tget 0 (t.page pgBoundary).classSeq 2 = max (stamp s).gauger.seq (tget 0 (s.page pgBoundary).classSeq 2) ∧ (d.val = 209 → t.gauger.refClockOk = true))

/-! ### Integrity and the memory ports -/

/-- The scrub moves on to the next codeword, and counts what it corrects and what it cannot; so does a read of the cellar that meets an error
beyond correction in place of what it reads for (R164, R165; log entry 63). A watchdog that fires takes its group to its recovery level: a tun is fenced, the gyles on a splice port rerun, and the second
time their contexts are reset, a memory port repeats its oldest request while the limit allows and then resets the contexts of its traffic, the stalled regions of a cellar die enter level 5, a core pair restarts, the groups of the grist unit, the gauger and the update
engine end in a block reset, a flash channel counts a time-out (R331, Table 16.3); one whose group is held does nothing (R370, R373). SRAM words that their code corrects, and those that it cannot, are counted, and a
difference of the gauger's copies is (R315, R329). A level that outlasts its budget goes on to the next, and level 7 stops the block (R336). The self-test's slot moves from tun to tun: a spare is tested, an active
tun hands its index over and is tested once idle, and one that nothing can replace is left untested (R332, R333). An old mismatch stops counting (R328). -/
def Obligations.IntegrityEventsComplete : Prop :=
  ∀ s : State,
    (s.glob.ready = true →
      (∀ p, ∃ t, exec (.scrubRead p .clean) s = .next t ∧ t.gauger = s.gauger ∧ t.cellar.scrubAddr = (s.cellar.scrubAddr + 1) % 2 ^ 28 ∧ t.cellar.corrected = s.cellar.corrected) ∧
      (∀ p, ∃ t, exec (.scrubRead p .corrected) s = .next t ∧ t.cellar.scrubAddr = (s.cellar.scrubAddr + 1) % 2 ^ 28 ∧ t.cellar.corrected = sat 32 (s.cellar.corrected + 1)) ∧
      (∀ p, ∃ t, exec (.scrubRead p .uncorrectable) s = .next t ∧ t.cellar.scrubAddr = (s.cellar.scrubAddr + 1) % 2 ^ 28 ∧ t.cellar.uncorrectable = sat 16 (s.cellar.uncorrectable + 1))) ∧
    (∀ e : CellarError, e.corrected = false →
      let lost := fun (t : State) => t.cellar.uncorrectable = sat 16 (s.cellar.uncorrectable + 1)
      (∀ (c : Fin 64) (n : BitVec 16), (commitRun c n.toNat s).gauger.seq ≠ s.gauger.seq → ∃ t, exec (.commitRun c ⟨n, [e]⟩) s = .next t ∧ lost t) ∧
      (∀ b : Bool, (lazyWriteback b s).gauger.seq ≠ s.gauger.seq → ∃ t, exec (.lazyWriteback ⟨b, [e]⟩) s = .next t ∧ lost t) ∧
      (∀ k : Fin 4096, (evictionDone k s).gauger.seq ≠ s.gauger.seq → ∃ t, exec (.evictionWritebackDone ⟨k, [e]⟩) s = .next t ∧ lost t)) ∧
    (∀ (n : Fin 68) (readable b : Bool), Inv s → inBlockReset s = false → ((s.tun n).st = .active ∨ (s.tun n).st = .bist) →
      (watchdogHeld s (.tun n readable) = false → ∃ t, exec (.watchdogFire (.tun n readable) b) s = .next t ∧ (t.tun n).st = .fenced) ∧
      (∃ t, exec (.watchdogFire (.tunSram n readable) b) s = .next t ∧ (t.tun n).st = .fenced ∧ t.integrity.sramUncorrectable = sat 32 (s.integrity.sramUncorrectable + 1))) ∧
    (∀ p : Fin 128, Inv s → inBlockReset s = false →
      (∃ t, exec (.watchdogFire (.splicePort p) false) s = .next t ∧ ∀ g ∈ portGyles s p, ∃ g', t.gyle g.key = some g' ∧ g'.st = .sorted ∧ g'.slots = [] ∧ g'.replays = g.replays + 1) ∧
      (∃ t, exec (.watchdogFire (.splicePort p) true) s = .next t ∧ ∀ g ∈ portGyles s p, (s.ctx g.key.owner).st ≠ .down → (t.ctx g.key.owner).st = .resetting)) ∧
    (∀ (p : Fin 32) (b : Bool) (r : MemReq) (rest : List MemReq), inBlockReset s = false → (tget {} s.boundary.mem p : MemPort).outstanding = r :: rest →
      (r.retries < retryLimit s → ∃ t r', exec (.watchdogFire (.memPort p) b) s = .next t ∧ r' = { r with retries := r.retries + 1, id := r'.id } ∧
        (r' ∈ t.boundary.memWaiting ∨ ∃ q, r' ∈ (tget {} t.boundary.mem q : MemPort).outstanding)) ∧
      (∀ x, retryLimit s ≤ r.retries → s.boundary.xfers.find? (fun x => x.id = r.xfer) = some x → (s.ctx (xferCause x.use).1).st ≠ .down →
        ∃ t, exec (.watchdogFire (.memPort p) b) s = .next t ∧ (t.ctx (xferCause x.use).1).st = .resetting)) ∧
    (∀ (die : Fin 4) (rs : List (Fin 1024)), inBlockReset s = false →
      ∃ t, exec (.watchdogFire (.cellarPath die rs) false) s = .next t ∧ ∀ r ∈ rs, (openFault t (.region (die.val * 1024 + r.val))).isSome = true) ∧
    (∀ (p : Fin 4) (b : Bool), ∀ g ∈ [StageGroup.pair p, .lockstep p, .pairSram p], inBlockReset s = false → tget .down s.repair.pairs p ≠ .restarting →
      ∃ t, exec (.watchdogFire g b) s = .next t ∧ tget .down t.repair.pairs p = .restarting ∧
        t.integrity.sramUncorrectable = (if g = .pairSram p then sat 32 (s.integrity.sramUncorrectable + 1) else s.integrity.sramUncorrectable)) ∧
    (∀ g ∈ [StageGroup.grist, .gauger, .updateEngine], ∀ b : Bool, inBlockReset s = false → watchdogHeld s g = false → openFault s .block = none → coldPending s = false →
      ∃ t, exec (.watchdogFire g b) s = .next t ∧ t.glob.resetPending = some 6) ∧
    (∀ (die : Fin 4) (rs : List (Fin 1024)), inBlockReset s = false → openFault s .block = none → coldPending s = false →
      ∃ t, exec (.watchdogFire (.cellarPath die rs) true) s = .next t ∧ t.glob.resetPending = some 6) ∧
    (∀ b : Bool, ∃ t, exec (.watchdogFire .gaugerCompare b) s = .next t ∧ t.gauger.compareFaults = sat 32 (s.gauger.compareFaults + 1) ∧
      (coldUnready s = true → t.glob.startFail = 6) ∧ (inBlockReset s = false → openFault s .block = none → coldPending s = false → t.glob.resetPending = some 6)) ∧
    (∀ (d : Fin 32) (b : Bool), inBlockReset s = false → (s.chan d).st = .inService →
      ∃ t, exec (.watchdogFire (.channel d) b) s = .next t ∧ (t.chan d).timeouts = (s.chan d).timeouts + 1) ∧
    (∀ b : Bool, inBlockReset s = false → ∃ t, exec (.watchdogFire .sramCorrected b) s = .next t ∧ t.integrity.sramCorrected = sat 32 (s.integrity.sramCorrected + 1)) ∧
    (∀ b : Bool, inBlockReset s = false → ∃ t, exec (.watchdogFire .gristSram b) s = .next t ∧ t.integrity.sramUncorrectable = sat 32 (s.integrity.sramUncorrectable + 1)) ∧
    (∀ (p : Fin 128) (c : Fin 64) (n : BitVec 16) (b : Bool), inBlockReset s = false →
      ∃ t, exec (.watchdogFire (.portSram p c n) b) s = .next t ∧ t.integrity.sramUncorrectable = sat 32 (s.integrity.sramUncorrectable + 1) ∧
        ∀ g, s.gyle (ownGyle c n.toNat) = some g → (g.st = .running ∨ g.st = .sorted) → ∃ g', t.gyle (ownGyle c n.toNat) = some g' ∧ g'.st = .sorted ∧ g'.slots = [] ∧ g'.replays = g.replays + 1) ∧
    (∀ (g : StageGroup) (b : Bool), g ≠ .gaugerCompare → inBlockReset s = true ∨ watchdogHeld s g = true → exec (.watchdogFire g b) s = .next s) ∧
    (∀ (id : Seq) (f : FaultRec) (n : Nat), id ≠ 0 → budgetFault s id = some f → resets s f = false → f.level = 2 → replayTun s id = some n → Inv s →
      ∃ t, exec (.budgetExpiry id) s = .next t ∧ (t.tun n).st = .fenced) ∧
    (∀ (id : Seq) (f : FaultRec), id ≠ 0 → budgetFault s id = some f → resets s f = false → f.level = 3 →
      ∃ t, exec (.budgetExpiry id) s = .next t ∧ ∀ o ∈ replaysOf s id, o.gk.far = false → (s.ctx o.gk.owner).st ≠ .down → (t.ctx o.gk.owner).st = .resetting) ∧
    (∀ (id : Seq) (f : FaultRec), id ≠ 0 → budgetFault s id = some f → (f.level = 4 ∨ f.level = 5 ∨ f.level = 6) → inBlockReset s = false → coldPending s = false →
      ∃ t, exec (.budgetExpiry id) s = .next t ∧ t.glob.resetPending = some 6) ∧
    (∀ (id : Seq) (f : FaultRec), budgetFault s id = some f → f.level = 7 → s.integrity.stopped = false → s.glob.warmStep ≠ 0 → s.glob.warmStep ≠ 2 →
      ∃ t, exec (.budgetExpiry id) s = .next t ∧ t.integrity.stopped = true ∧ ∀ p < 4, tget .down t.repair.pairs p = .stopped) ∧
    (s.glob.ready = true → pairAway s 3 = false → ∃ t n, exec .selftestSlot s = .next t ∧ t.integrity.selftestTun = some n ∧
      n = (match s.integrity.selftestTun with
        | none => 0
        | some m => if m = 67 then 0 else m + 1) ∧
      ((s.tun n).st = .spare → selftestOn s = true → (t.tun n).st = .bist ∧ (t.tun n).selfTest = true) ∧
      (∀ l p, (s.tun n).st = .active → (s.tun n).logical = some l → selftestOn s = true → freeSpare s = some p → keysRise s.tuns = true →
        let begun := fun (o : Op) => (openSet (s.tun n) o).isSome
        (t.tun n).logical = none ∧ (t.tun n).queue = (s.tun n).queue.filter begun ∧ (t.tun n).selfTest = true ∧
        ((s.tun n).issued = [] → (s.tun n).queue.filter begun = [] → (t.tun n).st = .bist) ∧
        (t.tun p).st = .active ∧ (t.tun p).logical = some l ∧ (t.tun p).queue = (s.tun n).queue.filter (!begun ·) ++ (s.tun p).queue) ∧
      (∀ l, (s.tun n).st = .active → (s.tun n).logical = some l → (selftestOn s = false ∨ freeSpare s = none) →
        (t.tun n).st = .active ∧ (t.tun n).untested = (s.tun n).untested + 1)) ∧
    (∀ n : Fin 68, (s.tun n).faultCount ≠ 0 → ∃ t, exec (.tunFaultCountExpiry n) s = .next t ∧ (t.tun n).faultCount = (s.tun n).faultCount - 1 ∧ (t.tun n).st = (s.tun n).st)

/-- Read data that passes its check counts on its port and joins its transfer; a descriptor that it completes stands decoded at the front of its context, or the structure that it points to is read next, or it is refused;
that structure, once whole, stands with it; row-map entries join their gyle (R61, R269, R439). A write response counts on its port; a completion record's moves `CQ_TAIL` past it, raises `COMPLETION` at its sequence,
and completes its gyle; an account's lets the gyle's record be posted, and a report's its commit's (R9, R157, R270, R291, R440). An error response is counted and the request repeated while `RETRY_LIMIT` allows; then the
transfer's context enters `FAULTED` with the cause of Table 12.6 (R273, R336, R449). The sequence at which a late `COMPLETION` is raised, and that a completion write which fails while a power-failure warning is handled is
dropped, are the model's readings (log entries 14 and 51). -/
def Obligations.MemoryResponsesComplete : Prop :=
  ∀ (p : Fin 32) (i : Fin 1024) (s : State) (r : MemReq) (x : Xfer), domainPresent s (128 + p) = true → s.boundary.xfers.find? (fun y => y.id = r.xfer) = some x →
    (∀ data : List Byte, findReq s p i false = some r → x.write = false →
      let got := tput r.chunk (padTo r.bytes data) x.got
      let bs := got.flatMap (·.2)
      (∃ t, exec (.readData p i data .ok) s = .next t ∧ (tget {} t.boundary.mem p).readBytes = sat 64 ((tget {} s.boundary.mem p).readBytes + r.bytes)) ∧
      (1 < x.left → ∃ t, exec (.readData p i data .ok) s = .next t ∧ { x with left := x.left - 1, got := got } ∈ t.boundary.xfers ∧ t.ctxs = s.ctxs) ∧
      (∀ (c : Fin 64) (fr : Front), x.left = 1 → x.use = .descriptor c → (s.ctx c).front = some fr →
        (∀ d, decodeDesc (rackSize s) bs = .ok d → ∃ t, exec (.readData p i data .ok) s = .next t ∧
          (nextPart d fr.got = none → (t.ctx c).front = some { fr with desc := some d, image := some fr.got }) ∧
          (∀ y, nextPart d fr.got = some y → (t.ctx c).front = some { fr with desc := some d } ∧ ∃ z ∈ t.boundary.xfers, z.id = s.boundary.nextXfer ∧ z.use = .image c)) ∧
        (∀ b, decodeDesc (rackSize s) bs = .error b → (s.ctx c).faultCause ≠ 0x03 → ∃ t, exec (.readData p i data .ok) s = .next t ∧
          (t.ctx c).posted = (s.ctx c).posted ++ [{ xfer := s.boundary.nextXfer, cmpSeq := (stamp (stamp s)).gauger.seq }])) ∧
      (∀ (c : Fin 64) (fr : Front) (d : Desc), x.left = 1 → x.use = .image c → (s.ctx c).front = some fr → fr.desc = some d → ∃ t, exec (.readData p i data .ok) s = .next t ∧
        (nextPart d (fr.got ++ bs) = none → (t.ctx c).front = some { fr with got := fr.got ++ bs, image := some (fr.got ++ bs) }) ∧
        (∀ y, nextPart d (fr.got ++ bs) = some y → (t.ctx c).front = some { fr with got := fr.got ++ bs } ∧ ∃ z ∈ t.boundary.xfers, z.id = s.boundary.nextXfer ∧ z.use = .image c)) ∧
      (∀ (c n first : Nat) (g : Gyle), x.left = 1 → x.use = .rowMap c n first → s.gyle (ownGyle c n) = some g →
        ∃ t, exec (.readData p i data .ok) s = .next t ∧ t.gyle (ownGyle c n) = some (takeMaps { g with maps := tput first bs g.maps }))) ∧
    (findReq s p i true = some r → x.write = true →
      (∃ t, exec (.writeResponse p i .ok) s = .next t ∧ (tget {} t.boundary.mem p).writeBytes = sat 64 ((tget {} s.boundary.mem p).writeBytes + r.bytes)) ∧
      (∀ (c : Fin 64) (e : Posted) (rest : List Posted), x.left = 1 → x.use = .completion c → (s.ctx c).posted = e :: rest → e.xfer = x.id → (∀ q ∈ rest, q.done = false ∧ q.xfer ≠ x.id) →
        (e.gyle = none → ∃ t, exec (.writeResponse p i .ok) s = .next t ∧ (t.ctx c).posted = rest ∧ (t.ctx c).cqTail = ((s.ctx c).cqTail + 1) % 2 ^ 32 ∧
          tget 0 (t.page (pgCtx c)).classSeq 0 = max (if (s.page (pgCtx c)).ack < e.cmpSeq then e.cmpSeq else (stamp s).gauger.seq) (tget 0 (s.page (pgCtx c)).classSeq 0)) ∧
        (∀ n g, e.gyle = some n → s.gyle (ownGyle c n) = some g → ∃ t, exec (.writeResponse p i .ok) s = .next t ∧
          (g.kind = .serving → t.gyle (ownGyle c n) = none) ∧ (g.kind = .training → ∃ g', t.gyle (ownGyle c n) = some g' ∧ g'.st = .complete ∧ g'.held = true))) ∧
      (∀ (c n : Nat) (g : Gyle) (sq : Nat), x.left = 1 → x.use = .account c n → s.gyle (ownGyle c n) = some g → g.closeSq = some sq → (s.ctx c).faultCause ≠ 0x03 →
        ∃ t, exec (.writeResponse p i .ok) s = .next t ∧ (t.ctx c).posted = (s.ctx c).posted ++ [{ xfer := s.boundary.nextXfer, cmpSeq := (stamp (stamp s)).gauger.seq, gyle := some n }]) ∧
      (∀ c n, x.left = 1 → x.use = .report c n →
        ∃ t, exec (.writeResponse p i .ok) s = .next t ∧ ∀ w ∈ t.homes.supersedes, w.ctx = some c → w.gyle = n → w.opcode = 0x21 → w.ready = true)) ∧
    (∀ (w : Bool) (check : LinkCheck) (data : List Byte), findReq s p i w = some r → check ≠ .ok →
      let response := if w then Instr.writeResponse p i check else Instr.readData p i data check
      let counted := fun (t : State) => (tget {} t.boundary.mem p).errors = sat 32 ((tget {} s.boundary.mem p).errors + 1)
      (s.pace.pfw = false ∨ writesRecord s r = false →
        (r.retries < retryLimit s → ∃ t, exec response s = .next t ∧ { r with retries := r.retries + 1 } ∈ (tget {} t.boundary.mem p).outstanding ∧ counted t ∧ t.ctxs = s.ctxs) ∧
        (retryLimit s ≤ r.retries → ((s.ctx (xferCause x.use).1).st = .ready ∨ (s.ctx (xferCause x.use).1).st = .running ∨ (s.ctx (xferCause x.use).1).st = .quiesced) →
          ∃ t, exec response s = .next t ∧ (t.ctx (xferCause x.use).1).st = .faulted ∧ (t.ctx (xferCause x.use).1).faultCause = (xferCause x.use).2 ∧ counted t)) ∧
      (s.pace.pfw = true → writesRecord s r = true → ∃ t, exec response s = .next t ∧ counted t ∧ t.ctxs = s.ctxs ∧ ∀ y ∈ t.boundary.xfers, y.id ≠ r.xfer))

/-! ### The serving path -/

/-- Pass 1 takes the next entry of the gyle whose pass work comes first, places its row with the cause and the components that R65 gives, counts a default row, or parks it for its look-ups (R65, R66, R80, R213). Pass 2 brings the
gyle to `SORTED`, and one whose rows pass no slot to `DRAINED` unless its context is quiesced; `SORT_ROWS` counts its rows and wraps (R74, R79, R88). The sort lays every row of the gyle at a position of its own, and the inverse
map leads back to it (R74 to R76). That work which waits for row-map data does not hold up another gyle's is the model's reading (log entry 46). -/
def Obligations.GristEventsComplete : Prop :=
  (∀ (c : Fin 64) (n : BitVec 16) (s : State) (g : Gyle), s.gyle (ownGyle c n.toNat) = some g → interiorHeld s = false → gristTurn s g = true →
    (∀ bs rest, g.entries = bs :: rest →
      let g1 := { g with entries := rest, resolved := g.resolved + 1, parkedEntries := tput g.resolved bs g.parkedEntries }
      ∃ t g', exec (.rowResolve c n) s = .next t ∧ t.gyle (ownGyle c n.toNat) = some g' ∧ g'.entries = rest ∧ g'.resolved = g.resolved + 1 ∧ s.gauger.seq < t.gauger.seq ∧
        (∀ r, resolveEntry (setGyle (stamp s) g1) g1 (rowEntry bs) = .row r → (tget {} g'.rows g.resolved).cause = r.cause ∧ (tget {} g'.rows g.resolved).parked = r.parked ∧
          (tget {} g'.rows g.resolved).comps.map (fun c => (c.adapter, c.version, c.weight)) = r.comps.map (fun c => (c.adapter, c.version, c.weight)) ∧
          (r.cause ≠ 0 → tget 0 g'.defaultByCause r.cause = tget 0 g.defaultByCause r.cause + 1)) ∧
        (∀ r, resolveEntry (setGyle (stamp s) g1) g1 (rowEntry bs) = .wait r → (tget {} g'.rows g.resolved).parked = r.parked ∧ g'.defaultByCause = g.defaultByCause)) ∧
    (g.st = .filling → passOneDone g = true → g.decided = true →
      ∃ t g', exec (.sortPass2Done c n) s = .next t ∧ t.gyle (ownGyle c n.toNat) = some g' ∧ g'.st = (if passesNothing g = true ∧ (s.ctx c).st ≠ .quiesced then .drained else .sorted) ∧
        g'.rows = g.rows ∧ t.sortRows = (s.sortRows + g.rows.length) % 2 ^ 64)) ∧
  (∀ (s : State) (g : Gyle), keysRise g.rows = true →
    (∀ n ∈ g.rows.map (·.1), tget 0 (sortGyle s g).posOfRow n < g.rows.length ∧ tget 0 (sortGyle s g).rowOfPos (tget 0 (sortGyle s g).posOfRow n) = n) ∧
    ((sortGyle s g).segments.map (·.rowCount)).sum = g.rows.length ∧ (sortGyle s g).rows = g.rows)

/-- A port grants activation credit to the earliest stream that fits, the whole part or a first portion; a further portion; or base credit: each is what is left of the part or what its staging area has free, and a credit word says
so (R123, R125). A beat that Table 6.6 accepts runs its gyle and its bytes join their part; one that its first row refuses is counted and changes no gyle, and the second and third rows fault the context as well (R121). A beat on
withdrawn credit is dropped (R296). A beat whose check fails has its part asked for again, up to `RETRY_LIMIT` times, and the rest of the part as first sent is dropped; then the context is reset (R436). The oldest staged beat
enters lane SRAM, or is held while its lane's next read is to its bank or the lane has no room (R100, R124). The first ready part leaves as far as it can be sent, is repeated after a rejection up to `RETRY_LIMIT` times, and has left
at its end, its gyle draining with the last (R126 to R129, R438). Where a beat stands in its lane is free (log entry 48); in what order the rows of a slot of several ports leave is the model's reading (log entry 31). -/
def Obligations.SplicePortsComplete : Prop :=
  ∀ (p : Fin 128) (s : State),
    let granted := fun (t : State) (c : Credit) => (t.port p).credits = (s.port p).credits ++ [c]
    (∀ x, domainPresent s p = true → (creditPlaces s p).find? (canGrant s p) = some x →
      ∃ t c, exec (.activationCreditGrant p) s = .next t ∧ granted t c ∧ c.gk = x.g.key ∧ c.slot = x.slot ∧ c.row = none ∧
        (creditBeats x.g x.p ≤ actStage → c.kind = 0 ∧ c.beats = creditBeats x.g x.p ∧ t.outs = .creditWord p (creditWord c.gk c.slot 0 0 0) :: s.outs) ∧
        (actStage < creditBeats x.g x.p → c.kind = 4 ∧ c.beats = freeStage (s.port p) ∧ t.outs = .creditWord p (creditWord c.gk c.slot 0 0 c.beats) :: s.outs)) ∧
    (∀ e, domainPresent s p = true → freeStage (s.port p) ≠ 0 → (s.port p).portions.find? (fun e => e.2.2.2 < portionTotal s e) = some e →
      ∃ t c, exec (.creditPortionGrant p) s = .next t ∧ granted t c ∧ c = { gk := e.1, slot := e.2.1, row := some e.2.2.1, kind := 4, beats := min (freeStage (s.port p)) (portionTotal s e - e.2.2.2) } ∧
        t.outs = .creditWord p (creditWord c.gk c.slot e.2.2.1 4 c.beats) :: s.outs) ∧
    (∀ x r, domainPresent s p = true → freeBase s p ≠ 0 → (((streamsOn s p).find? fun x => basePartial x p).or ((streamsOn s p).find? fun x => (baseDue x p).isSome)) = some x → baseDue x p = some r →
      s.gyle x.g.key = some x.g →
      ∃ t c g', exec (.baseCreditGrant p) s = .next t ∧ granted t c ∧
        c = { gk := x.g.key, slot := x.slot, row := some r, kind := 1, beats := min (freeBase s p) (beatsOf (basePart x.g x.p) - (x.g.rowSlot x.slot r).baseCredited) } ∧
        t.outs = .creditWord p (creditWord c.gk c.slot r 1 c.beats) :: s.outs ∧ t.gyle x.g.key = some g' ∧ (g'.rowSlot x.slot r).baseCredited = (x.g.rowSlot x.slot r).baseCredited + c.beats) ∧
    (∀ (b : BeatTag) (data : List Byte), domainPresent s p = true →
      let counted := fun (t : State) => (t.port p).beatsIn = sat 64 ((s.port p).beatsIn + 1)
      let withdrawn : Bool := (creditFor b (s.port p).credits).isNone && (creditFor b (s.port p).withdrawn).isSome
      let faults := fun (t : State) (c : Nat) => ((s.ctx c).st = .ready ∨ (s.ctx c).st = .running ∨ (s.ctx c).st = .quiesced) → (t.ctx c).st = .faulted ∧ (t.ctx c).faultCause = 0x01
      (∀ g q, dropping (s.port p) = false → beatGyle s b = some g → beatMisplaced g p b = false → g.plan.slots[b.slot]? = some q → beatOutOfTurn s g q p b = false →
        let bs := padTo (min 128 (partSize g q b.kind - partGot (g.rowSlot b.slot b.row) b.kind)) data
        ∃ t g', exec (.inboundBeat p b data .ok) s = .next t ∧ counted t ∧ (t.port p).tagErrors = (s.port p).tagErrors ∧ t.gyle (tagKey b) = some g' ∧ g'.st = .running ∧
          (b.kind = 0 → (g'.rowSlot b.slot b.row).act = (g.rowSlot b.slot b.row).act ++ bs) ∧ (b.kind = 4 → (g'.rowSlot b.slot b.row).grad = (g.rowSlot b.slot b.row).grad ++ bs) ∧
          (b.kind ≠ 0 → b.kind ≠ 4 → (g'.rowSlot b.slot b.row).base = (g.rowSlot b.slot b.row).base ++ bs)) ∧
      (dropping (s.port p) = false → withdrawn = false → beatGyle s b = none →
        ∃ t, exec (.inboundBeat p b data .ok) s = .next t ∧ counted t ∧ (t.port p).tagErrors = sat 32 ((s.port p).tagErrors + 1) ∧ t.gyles = s.gyles ∧ t.ctxs = s.ctxs) ∧
      (∀ g, dropping (s.port p) = false → withdrawn = false → beatGyle s b = some g → (beatMisplaced g p b = true ∨ ∃ q, g.plan.slots[b.slot]? = some q ∧ beatOutOfTurn s g q p b = true) →
        ∃ t, exec (.inboundBeat p b data .ok) s = .next t ∧ counted t ∧ (t.port p).tagErrors = sat 32 ((s.port p).tagErrors + 1) ∧ faults t b.submitter) ∧
      (dropping (s.port p) = false → withdrawn = true → ∃ t, exec (.inboundBeat p b data .ok) s = .next t ∧ counted t ∧ (t.port p).tagErrors = (s.port p).tagErrors ∧ t.gyles = s.gyles ∧ t.ctxs = s.ctxs) ∧
      (∀ check : LinkCheck, dropping (s.port p) = true → ∃ t, exec (.inboundBeat p b data check) s = .next t ∧ counted t ∧ (t.port p).tagErrors = (s.port p).tagErrors ∧ t.gyles = s.gyles ∧ t.ctxs = s.ctxs) ∧
      (∀ (check : LinkCheck) g q, check ≠ .ok → dropping (s.port p) = false →
        let b' := failedTag (s.port p) b
        beatGyle s b' = some g → g.plan.slots[b'.slot]? = some q → beatMisplaced g p b' = false → (creditFor b' (s.port p).credits).isSome = true →
        ((g.rowSlot b'.slot b'.row).naks < retryLimit s → ∃ t g', exec (.inboundBeat p b data check) s = .next t ∧ counted t ∧ t.outs = .creditWord p (creditWord (tagKey b') b'.slot b'.row 3 0) :: s.outs ∧
          t.gyle (tagKey b') = some g' ∧ (g'.rowSlot b'.slot b'.row).naks = (g.rowSlot b'.slot b'.row).naks + 1) ∧
        (retryLimit s ≤ (g.rowSlot b'.slot b'.row).naks → (s.ctx b'.submitter).st ≠ .down → ∃ t, exec (.inboundBeat p b data check) s = .next t ∧ counted t ∧ (t.ctx b'.submitter).st = .resetting))) ∧
    (∀ (f : Feeder) b g q, scatterHead (s.port p) = some b → (placeSegment (stamp s) b.gk b.row b.slot).gyle b.gk = some g → g.plan.slots[b.slot]? = some q →
      let s1 := placeSegment (stamp s) b.gk b.row b.slot
      let x := g.rowSlot b.slot b.row
      let lane := laneOf g b.row
      let s2 := settleRanks (runFeeder s1 x.tun lane f.ran f.ahead.val) x.tun
      let waits := bankBusy s2 x.tun lane (beatBank x.tun lane b) = true ∨ laneRoom s2 g q b.slot b.row = false
      ((x.localDone = true ∨ ¬ waits) → ∃ t g', exec (.scatterWrite p f) s = .next t ∧ (∀ y ∈ (t.port p).staged, y.lane = true → y ≠ b) ∧ t.gyle b.gk = some g' ∧
        (g'.rowSlot b.slot b.row).written = x.written + 1 ∧ (g'.rowSlot b.slot b.row).present = (x.present || b.last)) ∧
      (x.localDone = false → waits → ∃ t, exec (.scatterWrite p f) s = .next t ∧ { b with held := true } ∈ (t.port p).staged ∧ t.gyles = s1.gyles ∧
        (t.port p).creditHolds = if b.held then (s.port p).creditHolds else sat 32 ((s.port p).creditHolds + 1))) ∧
    (∀ x r, domainPresent s p = true → (s.port p).openOut = none → (streamsOn s p).find? (fun x => (readyPart x p).isSome) = some x → readyPart x p = some r → s.gyle x.g.key = some x.g →
      let y := x.g.rowSlot x.slot r
      ∃ t g', exec (.partSendStart p) s = .next t ∧ t.outs = (outBeats p x.g x.p x.slot r y.outBeats (outReady x.g x.p y) y).reverse ++ s.outs ∧
        t.gyle x.g.key = some g' ∧ (g'.rowSlot x.slot r).out = (if outReady x.g x.p y < outTotal x.g x.p then .sending else .sent) ∧
        (t.port p).openOut = if outReady x.g x.p y < outTotal x.g x.p then some (x.g.key, x.slot, r) else none) ∧
    (∀ (b : BeatTag) (x : PartOut) (g : Gyle) (q : PlanSlot), (s.port p).sending.find? (·.named b) = some x → s.gyle x.gk = some g → g.plan.slots[x.slot]? = some q →
      (x.naks < retryLimit s → ∃ t, exec (.outboundNak p b) s = .next t ∧ { x with naks := x.naks + 1 } ∈ (t.port p).sending ∧
        t.outs = (outBeats p g q x.slot x.row 0 x.beats (g.rowSlot x.slot x.row)).reverse ++ s.outs) ∧
      (retryLimit s ≤ x.naks → (s.ctx x.gk.owner).st ≠ .down → ∃ t, exec (.outboundNak p b) s = .next t ∧ (t.ctx x.gk.owner).st = .resetting)) ∧
    (∀ x rest g, (s.port p).sending = x :: rest → s.gyle x.gk = some g →
      ∃ t g', exec (.partLeft p) s = .next t ∧ (t.port p).sending = rest ∧ t.gyle x.gk = some g' ∧ (g'.rowSlot x.slot x.row).out = .left ∧
        ((g.rowSlot x.slot x.row).farUnsent = [] → (g'.rowSlot x.slot x.row).reserved = false) ∧ (g.st = .running → allLeft g' = true → g'.st = .drained))

/-- A tun requests the first tile it wants and lacks into a free half; a tile that arrives with the expected tag is ready, one that does not is counted and read again up to `RETRY_LIMIT` times, and one with a codeword beyond correction
is not delivered (R96, R107, R164, R326). The first operation that may issue leaves the queue and fills its accumulator set, or its lane group is held, or joins a hold, under R85 (R85, R101); a partial operation issues while a row waits
for lane room (R103). A fill that passes its comparison counts its handshakes; one that fails counts a mismatch, and its lane group is replayed, or the tun is fenced at `FENCE_THRESHOLD` mismatches (R106, R328). A batch window that
ends lets its groups issue (R86). At its cut-off a gyle's late row-slots take the second choice, and after its grace a late row-slot takes the first (R194, R195). A partial operation goes only where no whole one may (log entry 48). -/
def Obligations.TunEventsComplete : Prop :=
  ∀ s : State,
    (∀ (n : Fin 68) (o : Op) (h : Nat), nextTile s n = some (o, h) → slotFor s n o = true →
      ∃ t, exec (.tileRequest n) s = .next t ∧ (t.tun n).half h = some (tileOf o) ∧ (t.tun n).half (1 - h) = (s.tun n).half (1 - h)) ∧
    (∀ n : Fin 68, (s.tun n).st = .active → issueHalted s = false → tunGate s n ≠ 0 →
      let l := settleRanks (feedTun (lateOps s n) n) n
      (∀ before o after s', firstIssue l n [] (l.tun n).queue = some (before, o, after, s') →
        (holds l (l.tun n) o = none → ∃ t, exec (.opIssue n) s = .next t ∧ (t.tun n).queue = before ++ after ∧ (t.tun n).issued = (s'.tun n).issued ++ [o] ∧ (accSetOf (t.tun n) o).isSome = true) ∧
        ((holds l (l.tun n) o).isSome = true → ∃ t, exec (.opIssue n) s = .next t ∧ ∀ q ∈ queuedGroup (l.tun n) o,
          (∃ h ∈ t.heldGroups, (n.val, q) ∈ h.members) ∨ ∃ q' ∈ allOps t, groupOf q' = groupOf o ∧ q'.waited = true)) ∧
      (∀ before o rest after s', firstIssue l n [] (l.tun n).queue = none → rowHeldBack l n = true → splitOp l (l.tun n) [] (l.tun n).queue = some (before, o, rest, after) → takeRoom l n o = some s' →
        ∃ t, exec (.opIssue n) s = .next t ∧ (t.tun n).queue = before ++ rest :: after ∧ (t.tun n).issued = (s'.tun n).issued ++ [o] ∧ (t.tun n).partialIssues = sat 32 ((s'.tun n).partialIssues + 1))) ∧
    (∀ (n : Fin 68) (us : List Upset), fillOf (s.tun n) ≠ [] → s.pace.thermHalted = false → tunGate s n ≠ 0 →
      ((fillChecks s (s.tun n) us).any checkFails = false → ∃ t, exec (.fillSwap n us) s = .next t ∧ (t.tun n).handshakesRun = sat 64 ((s.tun n).handshakesRun + fillWork (fillOf (s.tun n))) ∧
        (t.tun n).checksumMismatches = (s.tun n).checksumMismatches) ∧
      ((fillChecks s (s.tun n) us).any checkFails = true → Inv s → ∃ t, exec (.fillSwap n us) s = .next t ∧ (t.tun n).checksumMismatches = sat 32 ((s.tun n).checksumMismatches + 1) ∧
        (regFld s pgIntegrity 0x098 8 8 ≤ (s.tun n).faultCount + 1 → (t.tun n).st = .fenced) ∧
        (∀ o, (s.tun n).faultCount + 1 < regFld s pgIntegrity 0x098 8 8 → (fillOf (s.tun n)).find? (fun o => !o.discard) = some o →
          ∀ q ∈ (s.tun n).issued ++ (s.tun n).queue, groupOf q = groupOf o → q.discard = false → ∃ m id, { q with replayOf := id } ∈ (t.tun m).queue))) ∧
    (∀ (n : Fin 68) (h : Fin 2) (read : TileRead) (b : TileBuf), (s.tun n).half h = some b → b.ready = false →
      let epoch := tileEpoch s (s.tun n) b
      let right := storedTag s epoch b.tile ^^^ read.upset.toNat = expectedTag s epoch b.tile
      let mismatched := fun (t : State) => (t.tun n).tagMismatches = sat 16 ((s.tun n).tagMismatches + 1)
      (read.errors.all (·.corrected) = true → right → ∃ t, exec (.tileReady n h read) s = .next t ∧ (t.tun n).half h = some { b with ready := true, retries := 0 }) ∧
      (read.errors.all (·.corrected) = true → ¬ right → b.retries + 1 < retryLimit s →
        ∃ t, exec (.tileReady n h read) s = .next t ∧ (t.tun n).half h = some { b with retries := b.retries + 1 } ∧ mismatched t) ∧
      (read.errors.all (·.corrected) = true → ¬ right → retryLimit s ≤ b.retries + 1 → ∃ t, exec (.tileReady n h read) s = .next t ∧ (t.tun n).half h = none ∧ mismatched t) ∧
      (read.errors.all (·.corrected) = false → ∃ t, exec (.tileReady n h read) s = .next t ∧ (t.tun n).half h = none)) ∧
    (∀ h, s.heldGroups.find? (fun x => x.id = h.id) = some h →
      ∃ t, exec (.batchWindowExpiry h.id) s = .next t ∧ (∀ x ∈ t.heldGroups, x.id ≠ h.id) ∧ ∀ m ∈ h.members, ∃ q ∈ allOps t, groupOf q = groupOf m.2 ∧ q.waited = true) ∧
    (∀ (c : Fin 64) (n : BitVec 16) (g : Gyle), s.gyle (ownGyle c n.toNat) = some g → g.cutoffPassed = false → g.cutoffUs ≠ 0 →
      (g.kind = .serving → g.st ≠ .drained → g.st ≠ .complete → ∃ t g', exec (.cutoffExpiry c n) s = .next t ∧ t.gyle (ownGyle c n.toNat) = some g' ∧ g'.cutoffPassed = true ∧
        ∀ slot row x, g.slots = [(slotKey slot row, x)] → row < 2 ^ 20 → s.heldGroups = [] → x.late = true → stillWaits s g slot row = true → slot < g.plan.slots.length → g.lateSecond ≠ 0 →
          (g'.rowSlot slot row).served = if g.lateSecond = 1 ∧ tunCount s ≠ 0 ∧ issueHalted s = false ∧ (fallbackComp s g (tget {} g.rows row)).isSome then .fallback else .baseOnly) ∧
      (∀ slot row, (g.rowSlot slot row).late = true → g.lateFirst ≠ 0 → stillWaits s g slot row = true → slot < g.plan.slots.length →
        ∃ t g', exec (.lateGraceExpiry c n slot row) s = .next t ∧ t.gyle (ownGyle c n.toNat) = some g' ∧
          (g'.rowSlot slot row).served = if g.lateFirst = 1 ∧ tunCount s ≠ 0 ∧ issueHalted s = false ∧ (fallbackComp s g (tget {} g.rows row)).isSome then .fallback else .baseOnly))

/-- A queued stream starts from the fastest tier that holds its next tensor, and a tensor that no tier holds is lost (R185, R190, R342); a tensor is present in its cask when its check passes, and one from T4 whose check fails is counted
and read again (R189). Write-back marks what a write-through commit wrote, and then the oldest dirty data, as held by T2, or gives it to the kiln; an evicted cask's data is then held by T2 (R160, R161, R174). The halvings halve every
count (R172, R230). -/
def Obligations.TierEventsComplete : Prop :=
  ∀ s : State,
    (∀ x, s.tiers.streams.find? (fun y => y.id = x.id) = some x → x.started = false → s.pace.pfw = false → runningStreams s < 256 → firstWaiting s x = true → pairAway s 0 = false →
      (s.tiers.singleHome = false ∨ s.glob.ready = true) → x.left.any (x.skips s) = false →
      (∀ n, sourceTier s x = some n → (n = 4 → kilnServes s = true) →
        ∃ t y, exec (.fetchStreamStart x.id) s = .next t ∧ y ∈ t.tiers.streams ∧ y.id = x.id ∧ y.started = true ∧ y.tier = n) ∧
      (∀ i rest v, sourceTier s x = none → x.left = i :: rest → verOf s x.epoch x.adapter x.version = some v → i ∉ v.lost →
        ∃ t, exec (.fetchStreamStart x.id) s = .next t ∧ t.integrity.tensorsLost = sat 16 (s.integrity.tensorsLost + 1))) ∧
    (∀ x i rest upset v, s.tiers.streams.find? (fun y => y.id = x.id) = some x → x.started = true →
      (x.tier = 2 ∨ x.tier = 4 ∧ s.pace.pfw = false ∧ x.source.isSome = true ∧ x.toRead = []) → x.left = i :: rest → verOf s x.epoch x.adapter x.version = some v →
      let right := crc64 (delivered s x v i upset) = carriedCrc x v i
      (right → i ∉ v.lost →
        ∃ t, exec (.tensorPresent x.id upset) s = .next t ∧ (x.toT2 = false → i ∈ (t.cask x.cask).present) ∧ (x.tier = 2 → t.tiers.fetchT2 = sat 64 (s.tiers.fetchT2 + 1)) ∧
          (x.tier = 4 → t.tiers.fetchT4 = sat 64 (s.tiers.fetchT4 + 1))) ∧
      (x.tier = 4 → x.reread = false → ¬ right →
        ∃ t y, exec (.tensorPresent x.id upset) s = .next t ∧ t.kiln.crcFails = sat 32 (s.kiln.crcFails + 1) ∧ y ∈ t.tiers.streams ∧ y.id = x.id ∧ y.reread = true ∧ y.left = x.left ∧
          ∀ r, x.source = some r → y.toRead = TenRec.pages s r)) ∧
    (∀ x, throughDue s = some x → s.tiers.testHoldLeaving = false → ∃ t y, exec (.lazyWriteback ⟨false, []⟩) s = .next t ∧ y ∈ t.train.commits ∧ y.gk = x.gk ∧ y.t2Held = true) ∧
    (∀ d, throughDue s = none → oldestDirty s false = some d → s.tiers.testHoldLeaving = false →
      ∃ t, exec (.lazyWriteback ⟨false, []⟩) s = .next t ∧ ∀ e ∈ t.train.dirty, e.adapter = d.adapter → e.version = d.version → e.t2 = true) ∧
    (∀ d, oldestDirty s true = some d → kilnServes s = true → pairAway s 1 = false → s.tiers.testHoldLeaving = false →
      ∃ t, exec (.lazyWriteback ⟨true, []⟩) s = .next t ∧ t.kiln.pending = s.kiln.pending ++ [.dirty d.adapter d.version] ∧ t.train = s.train) ∧
    (∀ i : Fin 4096, (s.cask i).st = .evicting → s.tiers.testHoldLeaving = false →
      ∃ t, exec (.evictionWritebackDone ⟨i, []⟩) s = .next t ∧ ∀ e ∈ t.train.dirty, e.adapter = (s.cask i).adapter → e.version = (s.cask i).version → e.t2 = true) ∧
    (keysRise s.homes.loads = true → ∃ t, exec .loadHalving s = .next t ∧ (∀ k, tget 0 t.homes.loads k = tget 0 s.homes.loads k / 2)) ∧
    (keysRise s.cellar.sketch = true → ∃ t, exec .freqHalving s = .next t ∧ (∀ k, (t.cask k).freq = (s.cask k).freq / 2) ∧ ∀ k, tget 0 t.cellar.sketch k = tget 0 s.cellar.sketch k / 2)

/-! ### Block-to-block messages -/

/-- The home answers a look-up and a lease renewal of adapters that are all homed here, and remembers the hold and the lease of each version that
it names; a request about other homes waits until each of them has answered its part (R213, R214, R216, R233). The holder learns version and
lease from an answer of one entry, the default cause from one that says otherwise, and its lease goes on or ends with the answer of its
renewal (R213, R214). A revocation takes the leases and is acknowledged, that of a purge retires the adapters; its acknowledgement, and the
end of the wait for it, take the holder off the list (R214, R215, R413); the end of a hold, of a lease and of a peer's 10 s take them
off theirs (R216, R413). -/
def Obligations.LeaseMessagesComplete : Prop :=
  ∀ (h : MsgHdr) (s : State),
    let cat := catFor s h.epoch
    (∀ ids : List AdapterId, Fresh s 0x01 h → (∀ r ∈ s.homes.rackIn, r.ready = true → r.adapter ∉ ids) →
      ∃ t, exec (.mLookup h ids) s = .next t ∧
        (partsOf s cat ids = [] → Replied s t h 0x02 stDone (ids.flatMap fun a => (lookupEntry s cat a).1) (ids.flatMap fun a => (lookupEntry s cat a).2)) ∧
        (partsOf s cat ids ≠ [] → (∃ g ∈ t.homes.gathers, g.ask.corr = h.corr ∧ g.ask.dst = h.src ∧ g.ans = 0x02 ∧ g.left.length = (partsOf s cat ids).length) ∧
          ∀ x ∈ partsOf s cat ids, ∃ r ∈ t.homes.requests, r.msg.type = 0x01 ∧ r.msg.dst = x.1 ∧ r.msg.args = x.2) ∧
        ∀ a ∈ ids, homeOf cat a = selfPeer s → (cat.adapter a).retired = false → (cat.adapter a).cur.isSome = true →
          (∃ x ∈ t.homes.holds, x.epoch = cat.epoch ∧ x.adapter = a ∧ x.version = (cat.adapter a).current ∧ x.peer = h.src) ∧
          ∃ x ∈ t.homes.granted, x.epoch = cat.epoch ∧ x.adapter = a ∧ x.version = (cat.adapter a).current ∧ x.peer = h.src) ∧
    (∀ (a : LookupAns) (r : Req), Answering s 0x02 h 0x01 r → runIn s 0x02 h = none → h.more = false → h.status = stDone → epochHeld s r.msg.epoch = true →
      s.homes.learning = [] → s.homes.fwdWaiting = [] → s.homes.tenantWaits = [] →
      ∃ t, exec (.mLookupAns h [a]) s = .next t ∧
        (a.status = stDone → unseenIn s (catFor s r.msg.epoch) [] (answerNeeds a.hdr) ≠ [] → ∃ x ∈ t.homes.learning, x.epoch = r.msg.epoch ∧ x.src = h.src ∧ x.gk = r.gk ∧ x.ans = a) ∧
        (a.status = stDone → unseenIn s (catFor s r.msg.epoch) [] (answerNeeds a.hdr) = [] → homeOf (catFor s r.msg.epoch) a.adapter ≠ selfPeer s → answerBad s r.msg.epoch a = false → ((catFor t r.msg.epoch).adapter a.adapter).current = a.version ∧
          (a.leaseUs ≠ 0 → ∃ l ∈ t.homes.leases, l.adapter = a.adapter ∧ l.version = a.version ∧ l.home = h.src ∧ l.epoch = r.msg.epoch) ∧
          ∀ k g, r.gk = some k → k.far = false → s.gyle k = some g → ∃ g', t.gyle k = some g' ∧ tget 0 g'.remoteBound a.adapter = a.version) ∧
        (a.status ≠ stDone → ∀ k g, r.gk = some k → k.far = false → s.gyle k = some g →
          ∃ g', t.gyle k = some g' ∧ tget 0 g'.lookups a.adapter = if a.status = stPurged then 3 else 2)) ∧
    (∀ ids : List (AdapterId × Nat), Fresh s 0x03 h → (∀ r ∈ s.homes.rackIn, r.ready = true → r.adapter ∉ ids.map (·.1)) →
      ∃ t, exec (.mLeaseRenew h ids) s = .next t ∧
        (partsOf s cat (ids.map (·.1)) = [] → Replied s t h 0x04 stDone (ids.flatMap fun x =>
          [x.1, x.2, if (cat.adapter x.1).current = x.2 ∧ (cat.adapter x.1).retired = false ∧ x.2 ≠ 0 then 1 else 0]) []) ∧
        (partsOf s cat (ids.map (·.1)) ≠ [] →
          ∃ g ∈ t.homes.gathers, g.ask.corr = h.corr ∧ g.ask.dst = h.src ∧ g.ans = 0x04 ∧ g.left.length = (partsOf s cat (ids.map (·.1))).length)) ∧
    (∀ (a : AdapterId) (v : Nat) (b : Bool) (r : Req), Answering s 0x04 h 0x03 r → runIn s 0x04 h = none → h.more = false → h.status = stDone →
      ∃ t, exec (.mLeaseAns h [(a, v, b)]) s = .next t ∧
        (∀ l ∈ t.homes.leases, l.adapter = a → l.version = v → l.epoch = r.msg.epoch → b = true ∧ l.renewing = false) ∧
        ∀ l ∈ s.homes.leases, l.adapter = a → l.version = v → l.epoch = r.msg.epoch → b = true → { l with renewing := false } ∈ t.homes.leases) ∧
    (∀ (ids : List (AdapterId × Nat)) (p : Bool), Fresh s 0x05 h →
      ∃ t, exec (.mRevoke h ids p) s = .next t ∧ (∀ l ∈ t.homes.leases, l.epoch = cat.epoch → (l.adapter, l.version) ∉ ids) ∧
        (p = false → Replied s t h 0x06 stDone [] []) ∧ (p = true → ∀ x ∈ ids, (t.cat.adapter x.1).retired = true)) ∧
    (∀ r : Req, Answering s 0x06 h 0x05 r →
      ∃ t, exec (.mRevokeAck h) s = .next t ∧
        ∀ g ∈ t.homes.granted, g.epoch = r.msg.epoch → g.peer = h.src → (g.adapter, g.version) ∉ pairsOf (r.msg.args.drop 1)) ∧
    (∀ ids : List (AdapterId × Nat), Ordered s 0x07 h → s.glob.ready = true →
      ∃ t, exec (.mHoldRelease h ids) s = .next t ∧ ∀ x ∈ t.homes.holds, x.epoch = cat.epoch → x.peer = h.src → (x.adapter, x.version) ∉ ids) ∧
    (∀ (a : BitVec 24) (l : Lease), s.homes.leases.find? (fun l => l.adapter = a.toNat && !l.renewing && leaseInUse s l) = some l → peerUp s l.home = true →
      ∃ t m, exec (.leaseRenewDue a) s = .next t ∧ { l with renewing := true } ∈ t.homes.leases ∧ Sent s t m ∧ m.type = 0x03 ∧ m.dst = l.home ∧ m.args = [l.adapter, l.version]) ∧
    (∀ (a : BitVec 24) (l : Lease), s.homes.leases.find? (·.adapter = a.toNat) = some l → ∃ t, exec (.leaseLapsed a) s = .next t ∧ l ∉ t.homes.leases) ∧
    (∀ (a : BitVec 24) (v : Nat) (p : BitVec 7) (g : Granted), s.homes.granted.find? (fun g => g.adapter = a.toNat && g.version = v && g.peer = p.toNat) = some g →
      ∃ t, exec (.leaseWaitExpiry a v p) s = .next t ∧ g ∉ t.homes.granted) ∧
    (∀ p : BitVec 7, peerUp s p.toNat = false → ∃ t, exec (.peerHoldsTimeout p) s = .next t ∧ ∀ x ∈ t.homes.holds, x.peer ≠ p.toNat)

/-- The block that serves a version answers a fetch with every stored tensor, one run each, and the status that ends it, and keeps the hold; of a
retired adapter it answers `PURGED`, and a fetch of an adapter homed elsewhere goes to its home (R216, R219, R228, R233). A tensor that has
arrived whole and right is one that the stream no longer lacks, present in its cask (R189, R191). A far gyle is opened, or refused where
256 gyles are open or a version is not served, takes rows, and ends, and what was reissued at a new home goes on there (R220, R222, R224, R233); the requester adds the pooled sum
of a row to its delta, and fetches the adapters of a home without room (R220, R223).
The key of a far gyle and the joining of a run of messages are the model's readings (log entries 21 and 29). -/
def Obligations.FarMessagesComplete : Prop :=
  ∀ (h : MsgHdr) (s : State),
    let cat := catFor s h.epoch
    (∀ (a : AdapterId) (v : Nat) (f : BitVec 8), Fresh s 0x10 h →
      (servesVersion s cat a v h.src = true → (cat.adapter a).retired = false → ∀ y, (cat.adapter a).ver v = some y →
        ∃ t, exec (.mFetchReq h a v f) s = .next t ∧ Replied s t h 0x12 stDone [] [] ∧
          (∃ x ∈ t.homes.holds, x.epoch = cat.epoch ∧ x.adapter = a ∧ x.version = v ∧ x.peer = h.src) ∧
          ∀ i ∈ streamOrder s y, i < 2 * y.slots.length → i ∉ y.lost →
            ∃ m, Sent s t m ∧ m.type = 0x11 ∧ m.dst = h.src ∧ m.corr = h.corr ∧ m.args = segArgs y i ∧ m.data = storedBytes y i) ∧
      (servesVersion s cat a v h.src = true → (cat.adapter a).retired = true → ∃ t, exec (.mFetchReq h a v f) s = .next t ∧ Replied s t h 0x12 stPurged [] []) ∧
      (servesVersion s cat a v h.src = false → (∀ r ∈ s.homes.rackIn, r.ready = true → r.adapter ≠ a) →
        ∃ t, exec (.mFetchReq h a v f) s = .next t ∧ ∃ r ∈ t.homes.requests, r.msg.type = 0x10 ∧ r.msg.dst = homeOf cat a ∧ r.msg.args = [a, v, f.toNat])) ∧
    (∀ (seg : SegHdr) (data : List Byte) (r : Req) (x : Stream), Ordered s 0x11 h → reissuedFor s h = none → requestOf s 0x10 h = some r → fetchStream s r = some x →
      s.tiers.streams.find? (fun y => y.id = x.id) = some x → seg.index ∈ x.left → WholeTensor s 0x11 h seg data →
      ∃ t, exec (.mFetchData h seg data) s = .next t ∧ (∀ y ∈ t.tiers.streams, y.id = x.id → seg.index ∉ y.left) ∧
        (x.toT2 = false → seg.index ∈ (t.cask x.cask).present)) ∧
    (∀ (seg : SegHdr) (data : List Byte) (ask : Msg), Ordered s 0x11 h → reissuedFor s h = some ask → peerUp s ask.dst = true →
      ∃ t m, exec (.mFetchData h seg data) s = .next t ∧ Sent s t m ∧ m.type = 0x11 ∧ m.dst = ask.dst ∧ m.corr = ask.corr ∧ m.data = data) ∧
    (∀ r : Req, Answering s 0x12 h 0x10 r →
      (fetchStream s r = none → ∃ t, exec (.mFetchEnd h) s = .next t ∧
        t.homes.requests = s.homes.requests.filter fun q => ¬ (q.msg.dst = h.src ∧ q.msg.corr = h.corr)) ∧
      ∀ x, fetchStream s r = some x → h.status = stPurged → ∃ t, exec (.mFetchEnd h) s = .next t ∧ (t.cat.adapter x.adapter).retired = true) ∧
    (∀ (fp : Word64) (n : Nat) (cs : List (List FarComp)), Fresh s 0x20 h → (∀ r ∈ s.homes.rackIn, r.ready = true → ∀ c ∈ namedComps cs, c.adapter ≠ r.adapter) →
      (namedComps cs = [] ∨ (namedComps cs).any (fun c => servesVersion s cat c.adapter c.version h.src) = true) → s.gyle (farKey h n) = none →
      (256 ≤ openGyles s → ∃ t, exec (.mFarOpen h fp n cs) s = .next t ∧ t.gyle (farKey h n) = none ∧ Replied s t h 0x21 stNoSpace [] []) ∧
      (∀ st, openGyles s < 256 → (namedComps cs).findSome? (farCompBad s cat) = some st →
        ∃ t, exec (.mFarOpen h fp n cs) s = .next t ∧ t.gyle (farKey h n) = none ∧ Replied s t h 0x21 st [] []) ∧
      (openGyles s < 256 → (namedComps cs).findSome? (farCompBad s cat) = none →
        ∃ t g, exec (.mFarOpen h fp n cs) s = .next t ∧ t.gyle (farKey h n) = some g ∧ g.kind = .far ∧ g.st = .running ∧ g.epoch = cat.epoch ∧
          g.plan.models = [fp] ∧ Replied s t h 0x21 stDone [] [])) ∧
    (∀ (n : Nat) (f : FarSlot) (rows : List FarRec), Fresh s 0x22 h →
      (∀ g, s.gyle (farKey h n) = some g → g.cancelled = false → ∃ t g', exec (.mFarRows h n f rows) s = .next t ∧ t.homes.farRowsServed = sat 32 (s.homes.farRowsServed + rows.length) ∧
        t.gyle (farKey h n) = some g' ∧ ((rows.map (·.row)).Nodup → ∀ x ∈ rows, (g'.rowSlot (farSlotIdx g f) x.row).act = x.data)) ∧
      (∀ p, s.gyle (farKey h n) = none → farRoute s h n = some p →
        ∃ t, exec (.mFarRows h n f rows) s = .next t ∧ (rows ≠ [] → ∃ x ∈ t.homes.gathers, x.ask.dst = h.src ∧ x.ask.corr = h.corr ∧ x.ans = 0x23 ∧ x.left.length = rows.length) ∧
          ∀ y ∈ rows, ∃ r ∈ t.homes.requests, r.msg.dst = p ∧ r.msg.type = 0x22 ∧ r.msg.data = y.data ∧ r.msg.args = [n, f.layer, f.proj, f.inW, f.outW, f.actFmt, y.row, y.cls]) ∧
      (s.gyle (farKey h n) = none → farRoute s h n = none → ∃ t, exec (.mFarRows h n f rows) s = .next t ∧ Replied s t h 0x23 stCancelled [] [])) ∧
    (∀ n : Nat, Ordered s 0x25 h →
      (∀ g, s.gyle (farKey h n) = some g →
        ∃ t, exec (.mFarClose h n) s = .next t ∧ t.gyle (farKey h n) = none) ∧
      ∀ p, s.gyle (farKey h n) = none → farRoute s h n = some p → peerUp s p = true → ∃ t m, exec (.mFarClose h n) s = .next t ∧ Sent s t m ∧ m.type = 0x25 ∧ m.dst = p) ∧
    (∀ n : Nat, Ordered s 0x26 h →
      (∀ g, s.gyle (farKey h n) = some g → ∃ t, exec (.mFarCancel h n) s = .next t ∧ (∀ m, ∀ o ∈ (t.tun m).queue, o.gk ≠ farKey h n) ∧
        (∀ g', t.gyle (farKey h n) = some g' → g'.cancelled = true ∧ g'.farWork ≠ []) ∧
        ((∀ w ∈ g.farWork, ∀ r ∈ w.rows, farIssued s g w.slot r = false) → t.gyle (farKey h n) = none)) ∧
      ∀ p, s.gyle (farKey h n) = none → farRoute s h n = some p → peerUp s p = true → ∃ t m, exec (.mFarCancel h n) s = .next t ∧ Sent s t m ∧ m.type = 0x26 ∧ m.dst = p) ∧
    (∀ (r : Req) (k : GyleKey) (g : Gyle), Answering s 0x21 h 0x20 r → r.gk = some k → s.gyle k = some g →
      (h.status = stDone → ∃ t, exec (.mFarOpenAns h) s = .next t ∧ t.gyles = s.gyles ∧ t.homes.requests = s.homes.requests.filter fun q => ¬ (q.msg.dst = h.src ∧ q.msg.corr = h.corr)) ∧
      (h.status ∉ [stDone, stCancelled, stStaleVersion, stUnknownAdapter, stPurged] → ∃ t g', exec (.mFarOpenAns h) s = .next t ∧ t.gyle k = some g' ∧ h.src ∉ g'.farHomes)) ∧
    (∀ (f : FarSlot) (x : FarRec) (r : Req) (k : GyleKey) (g : Gyle), Answering s 0x23 h 0x22 r → h.status = stDone → r.gk = some k → s.gyle k = some g →
      h.src ∈ (g.rowSlot (farSlotOf g f x.row) x.row).farPending → (g.rowSlot (farSlotOf g f x.row) x.row).served = .own →
      ∃ t g', exec (.mFarSum h f [x]) s = .next t ∧ t.gyle k = some g' ∧ h.src ∉ (g'.rowSlot (farSlotOf g f x.row) x.row).farPending ∧
        ∀ o < f.outW, tget accZero (g'.rowSlot (farSlotOf g f x.row) x.row).delta o =
          fadd (tget accZero (g.rowSlot (farSlotOf g f x.row) x.row).delta o) (BitVec.ofNat 32 (le x.data (4 * o) 4))) ∧
    (∀ (f : FarSlot) (rows : List Nat), Ordered s 0x24 h →
      (∀ (r : Req) (k : GyleKey), s.homes.gathers.find? (·.left.contains h.corr) = none → requestOf s 0x22 h = some r → staleCtx s r h = false → r.gk = some k →
        ∃ t q, exec (.mFarLate h f rows) s = .next t ∧ q ∈ t.homes.requests ∧ q.msg = r.msg ∧ q.late = true) ∧
      ∀ x : Gather, s.homes.gathers.find? (·.left.contains h.corr) = some x → peerUp s x.ask.dst = true →
        ∃ t m, exec (.mFarLate h f rows) s = .next t ∧ Sent s t m ∧ m.type = 0x24 ∧ m.dst = x.ask.dst ∧ m.corr = x.ask.corr)

/-- Racking by Table 10.5: the new home accepts an adapter that fits and keeps what arrives; the old home streams, freezes, and hands over at the answer, after which the adapter's home is the new one and its
leases are granted there; an abort, a time-out or a refusal ends it at the old home (R209, R231, R232). Every other block learns of the change, and the new home has the version that it received (R209).
The joining of a run of messages is the model's choice (log entry 29). -/
def Obligations.RackingMessagesComplete : Prop :=
  ∀ (h : MsgHdr) (s : State),
    (∀ (hdr : AdapterHdr) (es : List SlotEntry) (n : Nat), Fresh s 0x30 h → (∀ r ∈ s.homes.rackIn, r.adapter ≠ hdr.id) →
      (t4Charge s hdr.tenant + n ≤ (tenantRec s hdr.tenant).qT4Gib * gib → n + regFld s pgKiln 0x090 0 16 * gib ≤ kilnFree s →
        ∃ t r, exec (.mRackOpen h hdr es n) s = .next t ∧ r ∈ t.homes.rackIn ∧ r.adapter = hdr.id ∧ r.src = h.src ∧ r.hdr = hdr ∧ r.slots = es ∧ r.bytes = n ∧
          Replied s t h 0x31 stDone [] []) ∧
      ((tenantRec s hdr.tenant).qT4Gib * gib < t4Charge s hdr.tenant + n → ∃ t, exec (.mRackOpen h hdr es n) s = .next t ∧ t.homes.rackIn = s.homes.rackIn ∧ Replied s t h 0x31 stQuota [] [])) ∧
    (∀ (q : Req) (r : Rack), Answering s 0x31 h 0x30 q → rackOf s h 1 = some r →
      (h.status = stDone → ∃ t, exec (.mRackOpenAns h) s = .next t ∧ t.homes.rack = some { r with phase := 2 } ∧
        ∀ v, (s.cat.adapter r.adapter).cur = some v → ∀ i ∈ streamOrder s v, i ∉ v.lost →
          ∃ m, Sent s t m ∧ m.type = 0x32 ∧ m.dst = h.src ∧ m.corr = r.corr ∧ m.args = segArgs v i ∧ m.data = storedBytes v i) ∧
      (h.status ≠ stDone → ∃ t, exec (.mRackOpenAns h) s = .next t ∧ t.homes.rack = none ∧ t.cat = s.cat)) ∧
    (∀ (seg : SegHdr) (data : List Byte), Ordered s 0x32 h → s.glob.ready = true → WholeTensor s 0x32 h seg data →
      ∃ t, exec (.mRackData h seg data) s = .next t ∧ t.homes.rackIn.length = s.homes.rackIn.length ∧
        ∀ r ∈ t.homes.rackIn, r.adapter = seg.adapter → r.src = h.src → ∃ x ∈ r.tensors, x.index = seg.index ∧ x.bytes = data) ∧
    (∀ (v : Nat) (ls hs : List Nat), Fresh s 0x33 h → (∃ p ∈ ls ++ hs, rackSize s ≤ p) →
      ∃ t, exec (.mRackPrepare h v ls hs) s = .next t ∧ t.kiln = s.kiln ∧ t.homes.rackIn = s.homes.rackIn ∧ Replied s t h 0x34 stBadField [] []) ∧
    (∀ (v : Nat) (ls hs : List Nat) (r : RackIn), Fresh s 0x33 h → s.homes.rackIn.find? (·.src = h.src) = some r → (∀ p ∈ ls ++ hs, p < rackSize s) →
      ((∀ i < 2 * r.slots.length, ∃ x ∈ r.tensors, x.index = i) →
        ∃ t, exec (.mRackPrepare h v ls hs) s = .next t ∧ { r with version := v, leases := ls, holds := hs, ready := true } ∈ t.homes.rackIn ∧ t.kiln.pending = s.kiln.pending ++ [.racked r.adapter v] ∧
          Replied s t h 0x34 stDone [leaseUs s] []) ∧
      ((∃ i < 2 * r.slots.length, ∀ x ∈ r.tensors, x.index ≠ i) → ∃ t, exec (.mRackPrepare h v ls hs) s = .next t ∧ t.kiln = s.kiln ∧ Replied s t h 0x34 stCancelled [] [])) ∧
    (∀ (us : Nat) (q : Req) (r : Rack), Answering s 0x34 h 0x33 q → rackOf s h 3 = some r →
      (h.status = stDone → ∃ t, exec (.mRackReady h us) s = .next t ∧ homeOf t.cat r.adapter = r.dest ∧ (∀ l ∈ t.homes.granted, l.epoch = s.cat.epoch → l.adapter = r.adapter → l.version ≠ (s.cat.adapter r.adapter).current) ∧
        (us ≠ 0 → ∃ l ∈ t.homes.leases, l.adapter = r.adapter ∧ l.version = (s.cat.adapter r.adapter).current ∧ l.home = r.dest ∧ l.epoch = s.cat.epoch) ∧
        ∀ p, (p = r.dest ∨ p < rackSize s ∧ p ≠ selfPeer s) → ∃ x ∈ t.homes.requests, x.msg.type = 0x36 ∧ x.msg.dst = p ∧ x.msg.args = [r.adapter, r.dest]) ∧
      (h.status ≠ stDone → ∃ t, exec (.mRackReady h us) s = .next t ∧ t.homes.rack = none ∧ t.cat = s.cat)) ∧
    (∀ r : Rack, Ordered s 0x35 h → s.homes.rack = some r → r.dest = h.src → r.phase < 4 → (∀ x ∈ s.homes.rackIn, x.src = h.src → x.queued = []) →
      ∃ t, exec (.mRackAbort h) s = .next t ∧ t.homes.rack = none ∧ ∀ x ∈ t.homes.rackIn, x.src ≠ h.src) ∧
    (∀ r : Rack, s.homes.rack = some r → r.phase = 2 →
      (r.deltaBytes ≤ mib → ∃ t r' q, exec .rackRoundDone s = .next t ∧ t.homes.rack = some r' ∧ r'.phase = 3 ∧ q ∈ t.homes.requests ∧ q.msg.type = 0x33 ∧ q.msg.dst = r.dest ∧
        (peerUp s r.dest = true → Sent s t q.msg)) ∧
      (mib < r.deltaBytes → r.round < 8 → ∃ t r', exec .rackRoundDone s = .next t ∧ t.homes.rack = some r' ∧ r'.phase = 2 ∧ r'.round = r.round + 1 ∧ r'.deltaBytes = 0) ∧
      (mib < r.deltaBytes → 8 ≤ r.round → ∃ t, exec .rackRoundDone s = .next t ∧ t.homes.rack = none)) ∧
    (∀ r : Rack, s.homes.rack = some r → r.phase = 3 → ∃ t, exec .rackFreezeTimeout s = .next t ∧ t.homes.rack = none ∧ t.cat = s.cat) ∧
    (∀ (a : AdapterId) (p : Nat), Fresh s 0x36 h →
      (p < rackSize s → p ≠ selfPeer s → ∃ t, exec (.mHomeChange h a p) s = .next t ∧ homeOf (catFor t h.epoch) a = p ∧ Replied s t h 0x37 stDone [] []) ∧
      (∀ r : RackIn, p < rackSize s → p = selfPeer s → h.epoch = s.cat.epoch → s.homes.rackIn.find? (·.adapter = a) = some r → r.queued = [] →
        ∃ t, exec (.mHomeChange h a p) s = .next t ∧ homeOf t.cat a = p ∧ (t.cat.adapter a).current = r.version ∧ (∀ x ∈ t.homes.rackIn, x.adapter ≠ a) ∧ Replied s t h 0x37 stDone [] []) ∧
      (rackSize s ≤ p → ∃ t, exec (.mHomeChange h a p) s = .next t ∧ t.cat = s.cat ∧ Replied s t h 0x37 stBadField [] [])) ∧
    (∀ (q : Req) (r : Rack), Answering s 0x37 h 0x36 q → rackOf s h 4 = some r → ∃ t, exec (.mHomeAck h) s = .next t ∧ t.homes.rack = none)

/-- A directory change of another block goes to the kiln's journal, and its acknowledgement takes the peer off the list (R211, R212). A
forwarded command is decided here, and its answer completes the command that waits (R234); the answer to a request that this block reissued
for a peer is passed back to the peer, once every part has come where it was about several homes (R233). A link comes up with its two keys and goes
down (R441); the requests of one `CORR` are sent again and after the third time their peer is marked down, one is given up, and an answer is
forgotten (R217, R226); a peer's release of an epoch is remembered (R238). -/
def Obligations.PeerMessagesComplete : Prop :=
  ∀ (h : MsgHdr) (s : State),
    (∀ es : List DirEntry, Fresh s 0x40 h → h.more = false → runIn s 0x40 h = none →
      ∃ t, exec (.mDirUpdate h es) s = .next t ∧ ∃ k, t.kiln.pending = s.kiln.pending ++ [.directory h.corr h.src k] ∧ k.length = es.length) ∧
    (∀ (r : Req) (p : DirPending), Answering s 0x41 h 0x40 r → s.homes.dirPending = [p] → p.corr = h.corr → ((p.waiting.filter (· ≠ h.src)) ≠ [] ∨ p.own = false) →
      ∃ t, exec (.mDirAck h) s = .next t ∧ t.homes.dirPending = [{ p with waiting := p.waiting.filter (· ≠ h.src) }]) ∧
    (∀ desc img : List Byte, Fresh s 0x42 h → h.more = false → runIn s 0x42 h = none → desc.length = 64 → (descFields desc).opcode = 0x31 →
      (∀ r ∈ s.homes.rackIn, r.ready = true → r.adapter ≠ (descFields desc).adapter) → homedHere s (descFields desc).adapter = true →
      (purgeBad s (descFields desc).adapter = none → ∃ t, exec (.mPublishFwd h desc img) s = .next t ∧ ∃ p ∈ t.homes.purges, p.adapter = (descFields desc).adapter ∧ (p.fwd.map (·.dst)) = some h.src) ∧
      ∀ b, purgeBad s (descFields desc).adapter = some b → ∃ t, exec (.mPublishFwd h desc img) s = .next t ∧ t.homes.purges = s.homes.purges ∧ Replied s t h 0x43 b.status [] b.result) ∧
    (∀ (result : List Byte) (r : Req) (c : Fin 64) (sq op : Nat) (m : Cmd), Answering s 0x43 h 0x42 r → s.homes.forwards = [(h.corr, c.val, sq, op)] → (s.ctx c).faultCause ≠ 0x03 →
      (s.ctx c).inflight.find? (fun m => m.sqIndex = sq && m.opcode = op) = some m →
      ∃ t, exec (.mPublishAns h result) s = .next t ∧ t.homes.forwards = [] ∧ ∃ p ∈ (t.ctx c).posted, p.cmpSeq = (stamp s).gauger.seq) ∧
    (∀ (ask : Msg) (r : Req), s.homes.gathers.find? (·.left.contains h.corr) = none → reissuedFor s h = some ask → peerUp s ask.dst = true → sentAfresh r h = false → noAnswer r h = false →
      (Ordered s 0x12 h → requestOf s 0x10 h = some r →
        ∃ t m, exec (.mFetchEnd h) s = .next t ∧ Sent s t m ∧ m.type = 0x12 ∧ m.dst = ask.dst ∧ m.corr = ask.corr ∧ m.status = h.status ∧ reissuedFor t h = none) ∧
      (Ordered s 0x21 h → requestOf s 0x20 h = some r → ∃ t m, exec (.mFarOpenAns h) s = .next t ∧ Sent s t m ∧ m.type = 0x21 ∧ m.dst = ask.dst ∧ m.corr = ask.corr ∧ m.status = h.status ∧ reissuedFor t h = none)) ∧
    (∀ (r : Req) (as : List LookupAns), Ordered s 0x02 h → requestOf s 0x01 h = some r → h.more = false → h.status = stCancelled →
      ∃ t q, exec (.mLookupAns h as) s = .next t ∧ q ∈ t.homes.requests ∧ q.msg.type = 0x01 ∧ q.msg.dst = r.msg.dst ∧ q.msg.args = r.msg.args ∧ q.msg.corr = t.gauger.seq ∧ q.tries = 1) ∧
    (∀ (g : Gather) (as : List LookupAns), Ordered s 0x02 h → (requestOf s 0x01 h).isSome = true → s.homes.gathers.find? (·.left.contains h.corr) = some g → h.more = false → runIn s 0x02 h = none → h.status = stDone →
      (g.left.filter (· ≠ h.corr) ≠ [] → ∃ t, exec (.mLookupAns h as) s = .next t ∧
        { g with left := g.left.filter (· ≠ h.corr), args := g.args ++ answerArgs as, data := g.data ++ answerData as } ∈ t.homes.gathers) ∧
      (g.left.filter (· ≠ h.corr) = [] → peerUp s g.ask.dst = true → ∃ t m, exec (.mLookupAns h as) s = .next t ∧ g ∉ t.homes.gathers ∧ Sent s t m ∧ m.type = g.ans ∧
        m.dst = g.ask.dst ∧ m.corr = g.ask.corr ∧ m.status = g.status ∧ m.args = g.args ++ answerArgs as ∧ m.data = g.data ++ answerData as)) ∧
    (Ordered s 0x50 h → s.catRetiring = none → ∃ t, exec (.mEpochRelease h) s = .next t ∧ (h.epoch, h.src) ∈ t.homes.released) ∧
    (∀ (port : Fin 16) (p : BitVec 7), port.val = p.toNat % 16 → domainPresent s (192 + port) = true → peerUp s p.toNat = false →
      ((tget none s.keys.slots (2 * p.toNat)).isSome = true → (tget none s.keys.slots (2 * p.toNat + 1)).isSome = true → p.toNat < rackSize s → p.toNat ≠ selfPeer s →
        ∃ t, exec (.linkUp port p) s = .next t ∧ peerUp t p.toNat = true ∧ tget none t.keys.slots (2 * p.toNat) = none ∧ tget none t.keys.connections (2 * p.toNat) = tget none s.keys.slots (2 * p.toNat) ∧
          tget none t.keys.connections (2 * p.toNat + 1) = tget none s.keys.slots (2 * p.toNat + 1) ∧ ∀ r ∈ s.homes.requests, r.msg.dst = p.toNat → Sent s t r.msg) ∧
      (tget none s.keys.slots (2 * p.toNat) = none → ∃ t, exec (.linkUp port p) s = .next t ∧ peerUp t p.toNat = false ∧ t.outs.head? = some (.linkEvent p.toNat 3))) ∧
    (∀ (port : Fin 16) (p : BitVec 7), port.val = p.toNat % 16 → peerUp s p.toNat = true → ∃ t, exec (.linkDown port p) s = .next t ∧ peerUp t p.toNat = false) ∧
    (∀ (n : Nat) (r : Req), let rs := s.homes.requests.filter fun r => r.msg.corr = n && r.msg.type ≠ 0x64 && !r.late
      r ∈ rs → (rs.map (·.msg.dst)).Nodup →
      ((∀ x ∈ rs, x.tries < 3) → ∃ t, exec (.peerRequestRetry n) s = .next t ∧ { r with tries := r.tries + 1 } ∈ t.homes.requests ∧ (peerUp s r.msg.dst = true → Sent s t r.msg)) ∧
      (3 ≤ r.tries → ∃ t, exec (.peerRequestRetry n) s = .next t ∧ peerUp t r.msg.dst = false)) ∧
    (∀ (n : Nat) (r : Req), s.homes.requests.find? (fun r => r.msg.corr = n && r.msg.type ≠ 0x64) = some r → r.msg.type = 0x03 →
      ∃ t, exec (.requestGiveUp n) s = .next t ∧ (∀ q ∈ t.homes.requests, ¬ (q.msg.dst = r.msg.dst ∧ q.msg.corr = n)) ∧
        ∀ l, s.homes.leases.find? (fun l => r.msg.args = [l.adapter, l.version] && l.epoch = r.msg.epoch) = some l → l ∉ t.homes.leases) ∧
    (∀ (p : BitVec 7) (n : Nat), s.homes.answered.any (fun a => a.peer = p.toNat && a.corr = n && a.body.isSome) = true →
      ∃ t, exec (.answerExpiry p n) s = .next t ∧ (t.homes.answered.map fun a => (a.peer, a.corr)) = (s.homes.answered.map fun a => (a.peer, a.corr)) ∧
        ∀ a ∈ t.homes.answered, a.peer = p.toNat → a.corr = n → a.body = none)

/-- A grant offered is taken unless one of its number is held, its acknowledgement puts it into effect or returns its space, and a recall ends it on both sides (R199, R201, Table 9.8). A clean copy written into a grant is what a read at its place
returns, and a tensor read back is present in its cask (R189, R200).
Places in a grant and the joining of a run of messages are the model's choice (log entries 22 and 29). -/
def Obligations.LendingMessagesComplete : Prop :=
  ∀ (h : MsgHdr) (n : Nat) (s : State),
    (∀ gibs : Nat, Fresh s 0x60 h →
      ((∀ b ∈ s.tiers.borrowed, b.grant ≠ n) → ∃ t, exec (.mLend h n gibs) s = .next t ∧ t.tiers.borrowed = s.tiers.borrowed ++ [{ grant := n, lender := h.src, gibs := gibs }] ∧ Replied s t h 0x61 stDone [n] []) ∧
      ((∃ b ∈ s.tiers.borrowed, b.grant = n) → ∃ t, exec (.mLend h n gibs) s = .next t ∧ t.tiers = s.tiers ∧ Replied s t h 0x61 stBadState [n] [])) ∧
    (∀ (r : Req) (l : Lent), Answering s 0x61 h 0x60 r → lentOf s h.src (r.msg.args.headD 0) = some l →
      (h.status = stDone → ∃ t, exec (.mLendAck h n) s = .next t ∧ { l with active := true } ∈ t.tiers.lent) ∧
      (h.status ≠ stDone → h.status ≠ stCancelled → ∃ t, exec (.mLendAck h n) s = .next t ∧ l ∉ t.tiers.lent)) ∧
    (∀ b : Borrowed, Fresh s 0x62 h → s.tiers.borrowed.find? (fun b => b.grant = n && b.lender = h.src) = some b →
      (b.reads = [] → ∃ t, exec (.mRecall h n) s = .next t ∧ (∀ x ∈ t.tiers.borrowed, ¬ (x.grant = n ∧ x.lender = h.src)) ∧ (∀ w ∈ t.tiers.warm, w.grant ≠ some n) ∧ Replied s t h 0x63 stDone [n] []) ∧
      (b.reads ≠ [] → ∃ t x ask, exec (.mRecall h n) s = .next t ∧ x ∈ t.tiers.borrowed ∧ x = { b with recalling := some ask } ∧ ask.dst = h.src ∧ ask.corr = h.corr ∧ ∀ w ∈ t.tiers.warm, w.grant ≠ some n)) ∧
    (∀ (p : BitVec 8) (k : Fin 8) (b : Borrowed) (ask : Msg), s.tiers.borrowed.find? (fun b => b.grant = k.val && b.lender = p.toNat) = some b → b.recalling = some ask → b.reads = [] →
      ∃ t, exec (.recallReadsDrained p k) s = .next t ∧ (∀ x ∈ t.tiers.borrowed, ¬ (x.grant = k.val ∧ x.lender = p.toNat)) ∧
        (peerUp s ask.dst = true → ∃ m, Sent s t m ∧ m.type = 0x63 ∧ m.dst = ask.dst ∧ m.corr = ask.corr)) ∧
    (∀ (r : Req) (l : Lent), Answering s 0x63 h 0x62 r → lentOf s h.src (r.msg.args.headD 0) = some l →
      ∃ t, exec (.mRecallAns h n) s = .next t ∧ lentOf t h.src (r.msg.args.headD 0) = none) ∧
    (∀ (p : BitVec 8) (k : Fin 8) (l : Lent), lentOf s p.toNat k = some l → l.recalled = true → ∃ t, exec (.recallTimeout p k) s = .next t ∧ lentOf t p.toNat k = none) ∧
    (∀ (off len : Nat), Fresh s 0x64 h →
      (∀ (seg : SegHdr) (bytes : List Byte) (l : Lent), lentOf s h.src n = some l → l.store.find? (fun x => x.1 = off && x.2.2.length = len) = some (off, seg, bytes) →
        ∃ t, exec (.mT3Read h n off len) s = .next t ∧ Replied s t h 0x65 stDone (segHdrArgs { seg with offset := 0, length := bytes.length }) bytes) ∧
      (lentOf s h.src n = none → ∃ t, exec (.mT3Read h n off len) s = .next t ∧ Replied s t h 0x65 stBadState [] [])) ∧
    (∀ (seg : SegHdr) (data : List Byte) (r : Req) (x : Stream), Ordered s 0x65 h → requestOf s 0x64 h = some r → h.status = stDone → WholeTensor s 0x65 h seg data → t3Stream s r = some x →
      s.tiers.streams.find? (fun y => y.id = x.id) = some x → x.left.head? = some seg.index → data = storedBytes ((verOf s x.epoch x.adapter x.version).getD {}) seg.index →
      ∃ t, exec (.mT3Data h seg data) s = .next t ∧ (∀ y ∈ t.tiers.streams, y.id = x.id → seg.index ∉ y.left) ∧ (x.toT2 = false → seg.index ∈ (t.cask x.cask).present)) ∧
    (∀ (seg : SegHdr) (data : List Byte) (l : Lent), Ordered s 0x66 h → s.glob.ready = true → WholeTensor s 0x66 h seg data → lentOf s h.src n = some l →
      ∃ t l' x, exec (.mT3Write h n seg data) s = .next t ∧ lentOf t h.src n = some l' ∧ x ∈ l'.store ∧ x.2 = (seg, data)) ∧
    (∀ (k : Nat) (r : Req), s.homes.requests.find? (fun r => r.msg.type = 0x64 && r.msg.corr = k) = some r →
      ∃ t, exec (.t3ReadTimeout k) s = .next t ∧ (∀ b ∈ t.tiers.borrowed, ¬ (b.grant = r.msg.args.headD 0 ∧ b.lender = r.msg.dst)) ∧ ∀ w ∈ t.tiers.warm, w.grant ≠ some (r.msg.args.headD 0))

/-! ### The whole machine -/

/-- Every step keeps the invariant `Inv`: every gyle's record bears a name of its own, the tables of handles and tuns name each number
once, the byte memories keep their canonical form, and the block of sequences that the gauger stands in has been reserved in the log book
(R313). The form of these tables is the model's own. -/
def Obligations.InvariantKept : Prop := ∀ s t : State, Inv s → step s = .next t → Inv t

/-- The state after reset has the invariant that every step keeps. -/
def Obligations.ResetHasInv : Prop := Inv State.reset

/-- Sequences never fall: after every step, resets included, the highest sequence stamped is at least what it was, so that an event that
is stamped later bears a higher one (R312, R313). The premise is part of the invariant that every step keeps. -/
def Obligations.SequencesNeverFall : Prop := ∀ s t : State, SeqReserved s → step s = .next t → s.gauger.seq ≤ t.gauger.seq ∧ (stamp s).gauger.seq > s.gauger.seq

/-- What a command leaves alone, by part of the state: fuses and the queue stand always; the plan in force, the staged plan, the tenant records, the
hyperparameter records, the salts, the wrap keys' generations, the plain registers, the repair unit, the pace unit and every byte of the three byte memories change only by
the commands that `KeepsOf` names (R74, R109, R115, R116, R162, R205, R405, R406, R429). -/
def Obligations.PartsChangeOnlyByTheirCommands : Prop := ∀ (i : Instr) (s t : State), exec i s = .next t → KeepsOf i s t

/-- The frame of every command that acts on few parts of the state: each of the other parts keeps its value (`FrameOf` lists the parts). -/
def Obligations.NarrowCommandsKeepTheRest : Prop := ∀ (i : Instr) (s t : State), exec i s = .next t → FrameOf i s t

/-- The state after reset, as the tables of the registers give it: no power, start-up at step 1 and the block not ready; every context `DOWN` with empty rings; every
tun `DOWN`; every cask `FREE`; the kiln not mounted; single-home; full gate and caps of 180 W, 750 mV asked for; no event pending on any page; no
command waiting.
The gauger's sequence 0 before the first start is the model's choice (log entries 13 and 26). -/
def Obligations.ResetState : Prop :=
  let s := State.reset
  s.pending = [] ∧ s.glob.powered = false ∧ s.glob.ready = false ∧ s.glob.startStep = 1 ∧ s.glob.startFail = 0 ∧ s.gauger.seq = 0 ∧
    (∀ c, (s.ctx c).st = .down ∧ (s.ctx c).sqHead = 0 ∧ (s.ctx c).sqTail = 0 ∧ (s.ctx c).cqHead = 0 ∧ (s.ctx c).cqTail = 0 ∧ (s.ctx c).front = none) ∧
    (∀ n, (s.tun n).st = .down ∧ (s.tun n).queue = []) ∧ (∀ i, (s.cask i).st = .free) ∧ s.kiln.phase = .unmounted ∧ s.tiers.singleHome = true ∧
    s.pace.gate = 16 ∧ s.pace.capEff = 180 ∧ s.pace.portCap = 180 ∧ s.pace.vddReq = 750 ∧ s.planInForce = none ∧ s.gyles = [] ∧
    (∀ p, (s.page p).pend = 0 ∧ (s.page p).eventSeq = 0 ∧ (s.page p).errSeq = 0) ∧ ∀ page off, reg s page off = regReset (regAddr page off)
end

