-- ==== Sys2Proof/Laws/Tab.lean ====
section
/-! SUPPORT. Laws of sparse tables and byte memories: a read after a write, writes elsewhere, and the canonical form, which every
operation keeps. The read laws hold of every list, in canonical form or not. -/
namespace Sys2Proof.Machine

@[simp] theorem tget_nil {α : Type} (d : α) (k : Nat) : tget d [] k = d := rfl

@[simp] theorem tget_tput_self {α : Type} (d v : α) (k : Nat) (t : Tab α) : tget d (tput k v t) k = v := by
  induction t with
  | nil => simp [tput, tget]
  | cons e t ih =>
    obtain ⟨k', v'⟩ := e
    by_cases h : k < k'
    · simp [tput, tget, h]
    · by_cases h2 : k = k'
      · simp [tput, tget, h2]
      · simp [tput, tget, h, h2, ih]
        intro h3; exact absurd h3.symm h2

theorem tget_tput_ne {α : Type} (d v : α) {j k : Nat} (t : Tab α) (h : j ≠ k) : tget d (tput k v t) j = tget d t j := by
  induction t with
  | nil => simp [tput, tget, h.symm]
  | cons e t ih =>
    obtain ⟨k', v'⟩ := e
    by_cases h1 : k < k'
    · simp [tput, tget, h1, h.symm]
    · by_cases h2 : k = k'
      · subst h2; simp [tput, tget, h.symm]
      · simp [tput, tget, h1, h2, ih]

@[simp] theorem tget_tdel_self {α : Type} (d : α) (k : Nat) (t : Tab α) : tget d (tdel k t) k = d := by
  induction t with
  | nil => rfl
  | cons e t ih =>
    obtain ⟨k', v'⟩ := e
    by_cases h : k' = k
    · simp [tdel, h, ih]
    · simp [tdel, tget, h, ih]

theorem tget_tdel_ne {α : Type} (d : α) {j k : Nat} (t : Tab α) (h : j ≠ k) : tget d (tdel k t) j = tget d t j := by
  induction t with
  | nil => rfl
  | cons e t ih =>
    obtain ⟨k', v'⟩ := e
    by_cases h1 : k' = k
    · subst h1; simp [tdel, tget, h.symm, ih]
    · simp [tdel, tget, h1, ih]

@[simp] theorem tget_tset_self {α : Type} [DecidableEq α] (d v : α) (k : Nat) (t : Tab α) : tget d (tset d t k v) k = v := by
  unfold tset; split
  · simp_all
  · simp

theorem tget_tset_ne {α : Type} [DecidableEq α] (d v : α) {j k : Nat} (t : Tab α) (h : j ≠ k) :
    tget d (tset d t k v) j = tget d t j := by
  unfold tset; split
  · exact tget_tdel_ne d t h
  · exact tget_tput_ne d v t h

@[simp] theorem tget_tmod_self {α : Type} [DecidableEq α] (d : α) (k : Nat) (t : Tab α) (f : α → α) :
    tget d (tmod d t k f) k = f (tget d t k) := by simp [tmod]

theorem tget_tmod_ne {α : Type} [DecidableEq α] (d : α) {j k : Nat} (t : Tab α) (f : α → α) (h : j ≠ k) :
    tget d (tmod d t k f) j = tget d t j := tget_tset_ne d _ t h

/-! ### The canonical form -/

/-- Every key of a table is at or above `n`. -/
def keysFrom {α : Type} (n : Nat) (t : Tab α) : Prop := ∀ e ∈ t, n ≤ e.1

theorem twf_cons {α : Type} [DecidableEq α] (d v : α) (k : Nat) (t : Tab α) :
    twf d ((k, v) :: t) = true ↔ v ≠ d ∧ keysFrom (k + 1) t ∧ twf d t = true := by
  induction t generalizing k v with
  | nil => simp [twf, keysFrom]
  | cons e t ih =>
    obtain ⟨k', v'⟩ := e
    have ih' := ih v' k'
    simp only [twf, Bool.and_eq_true, bne_iff_ne, decide_eq_true_eq]
    constructor
    · rintro ⟨⟨hv, hk⟩, ht⟩
      refine ⟨hv, ?_, ht⟩
      intro x hx
      rcases List.mem_cons.mp hx with rfl | hx
      · exact hk
      · have := (ih'.mp ht).2.1 x hx; omega
    · rintro ⟨hv, hk, ht⟩
      exact ⟨⟨hv, hk (k', v') (List.mem_cons_self ..)⟩, ht⟩

theorem keysFrom_tput {α : Type} {n k : Nat} {v : α} {t : Tab α} (h : keysFrom n t) (hk : n ≤ k) : keysFrom n (tput k v t) := by
  induction t with
  | nil => intro e he; simp [tput] at he; subst he; exact hk
  | cons x t ih =>
    obtain ⟨k', v'⟩ := x
    have ht : keysFrom n t := fun e he => h e (List.mem_cons_of_mem _ he)
    have hk' : n ≤ k' := h (k', v') (List.mem_cons_self ..)
    intro e he
    unfold tput at he
    split at he
    · rcases List.mem_cons.mp he with rfl | he
      · exact hk
      · exact h e he
    · split at he
      · rcases List.mem_cons.mp he with rfl | he
        · exact hk
        · exact ht e he
      · rcases List.mem_cons.mp he with rfl | he
        · exact hk'
        · exact ih ht e he

theorem keysFrom_tdel {α : Type} {n k : Nat} {t : Tab α} (h : keysFrom n t) : keysFrom n (tdel k t) := by
  induction t with
  | nil => exact h
  | cons x t ih =>
    obtain ⟨k', v'⟩ := x
    have ht : keysFrom n t := fun e he => h e (List.mem_cons_of_mem _ he)
    intro e he
    unfold tdel at he
    split at he
    · exact ih ht e he
    · rcases List.mem_cons.mp he with rfl | he
      · exact h _ (List.mem_cons_self ..)
      · exact ih ht e he

theorem twf_tput {α : Type} [DecidableEq α] {d v : α} {k : Nat} {t : Tab α} (h : twf d t = true) (hv : v ≠ d) :
    twf d (tput k v t) = true := by
  induction t with
  | nil => simp [tput, twf, hv]
  | cons e t ih =>
    obtain ⟨k', v'⟩ := e
    obtain ⟨h1, h2, h3⟩ := (twf_cons d v' k' t).mp h
    unfold tput
    split
    · rename_i hlt
      refine (twf_cons ..).mpr ⟨hv, ?_, h⟩
      intro x hx
      rcases List.mem_cons.mp hx with rfl | hx
      · exact hlt
      · have := h2 x hx; omega
    · split
      · rename_i _ heq; subst heq
        exact (twf_cons ..).mpr ⟨hv, h2, h3⟩
      · exact (twf_cons ..).mpr ⟨h1, keysFrom_tput h2 (by omega), ih h3⟩

theorem twf_tdel {α : Type} [DecidableEq α] {d : α} {k : Nat} {t : Tab α} (h : twf d t = true) : twf d (tdel k t) = true := by
  induction t with
  | nil => rfl
  | cons e t ih =>
    obtain ⟨k', v'⟩ := e
    obtain ⟨h1, h2, h3⟩ := (twf_cons d v' k' t).mp h
    unfold tdel
    split
    · exact ih h3
    · exact (twf_cons ..).mpr ⟨h1, keysFrom_tdel h2, ih h3⟩

/-- A write keeps the canonical form. -/
theorem twf_tset {α : Type} [DecidableEq α] {d v : α} {k : Nat} {t : Tab α} (h : twf d t = true) : twf d (tset d t k v) = true := by
  unfold tset; split
  · exact twf_tdel h
  · rename_i hv; exact twf_tput h hv

theorem twf_tmod {α : Type} [DecidableEq α] {d : α} {k : Nat} {t : Tab α} {f : α → α} (h : twf d t = true) :
    twf d (tmod d t k f) = true := twf_tset h

/-! ### Rising keys -/

theorem keysRise_cons {α : Type} (e : Nat × α) (t : Tab α) : keysRise (e :: t) = true ↔ keysFrom (e.1 + 1) t ∧ keysRise t = true := by
  induction t generalizing e with
  | nil => simp [keysRise, keysFrom]
  | cons e' t ih =>
    simp only [keysRise, Bool.and_eq_true, decide_eq_true_eq]
    constructor
    · rintro ⟨hk, ht⟩
      refine ⟨fun x hx => ?_, ht⟩
      rcases List.mem_cons.mp hx with rfl | hx
      · exact hk
      · have := ((ih e').mp ht).1 x hx; omega
    · rintro ⟨hk, ht⟩
      exact ⟨hk e' (List.mem_cons_self ..), ht⟩

theorem keysRise_tput {α : Type} {k : Nat} {v : α} {t : Tab α} (h : keysRise t = true) : keysRise (tput k v t) = true := by
  induction t with
  | nil => rfl
  | cons e t ih =>
    obtain ⟨h1, h2⟩ := (keysRise_cons e t).mp h
    unfold tput
    split
    · rename_i hlt
      refine (keysRise_cons ..).mpr ⟨fun x hx => ?_, h⟩
      rcases List.mem_cons.mp hx with rfl | hx
      · exact hlt
      · have := h1 x hx; omega
    · split
      · rename_i _ heq; subst heq
        exact (keysRise_cons ..).mpr ⟨h1, h2⟩
      · exact (keysRise_cons ..).mpr ⟨keysFrom_tput h1 (by omega), ih h2⟩

theorem keysRise_filter {α : Type} {p : Nat × α → Bool} {t : Tab α} (h : keysRise t = true) : keysRise (t.filter p) = true := by
  induction t with
  | nil => rfl
  | cons e t ih =>
    obtain ⟨h1, h2⟩ := (keysRise_cons e t).mp h
    by_cases hp : p e = true
    · rw [List.filter_cons_of_pos hp]
      exact (keysRise_cons ..).mpr ⟨fun x hx => h1 x (List.mem_filter.mp hx).1, ih h2⟩
    · rw [List.filter_cons_of_neg hp]; exact ih h2

/-! ### Byte memories -/

@[simp] theorem memGet_tput_self (m : Memory) (a : Nat) (b : Byte) : memGet (tput a b m) a = some b := by
  induction m with
  | nil => simp [tput, memGet]
  | cons e m ih =>
    obtain ⟨k, v⟩ := e
    by_cases h : a < k
    · simp [tput, memGet, h]
    · by_cases h2 : a = k
      · simp [tput, memGet, h2]
      · simp [tput, memGet, h, h2, Ne.symm h2, ih]

theorem memGet_tput_ne (m : Memory) {a a' : Nat} (b : Byte) (h : a' ≠ a) : memGet (tput a b m) a' = memGet m a' := by
  induction m with
  | nil => simp [tput, memGet, h.symm]
  | cons e m ih =>
    obtain ⟨k, v⟩ := e
    by_cases h1 : a < k
    · simp [tput, memGet, h1, h.symm]
    · by_cases h2 : a = k
      · subst h2; simp [tput, memGet, h.symm]
      · simp [tput, memGet, h1, h2, ih]

theorem memGet_memSet_self (m : Memory) (a : Nat) (b : Byte) : memGet (memSet m a b) a = some b := memGet_tput_self m a b

theorem memGet_memSet_ne (m : Memory) {a a' : Nat} (b : Byte) (h : a' ≠ a) : memGet (memSet m a b) a' = memGet m a' :=
  memGet_tput_ne m b h

/-- A byte outside the bytes written reads as before. -/
theorem memGet_memWrite_out (m : Memory) (a a' : Nat) (bs : List Byte) (h : a' < a ∨ a + bs.length ≤ a') :
    memGet (memWrite m a bs) a' = memGet m a' := by
  induction bs generalizing m a with
  | nil => rfl
  | cons b bs ih =>
    simp only [List.length_cons] at h
    rw [memWrite, ih (memSet m a b) (a + 1) (by omega), memGet_memSet_ne]
    omega

/-- A byte among those written reads as written. -/
theorem memGet_memWrite_in (m : Memory) (a i : Nat) (bs : List Byte) (h : i < bs.length) :
    memGet (memWrite m a bs) (a + i) = some bs[i] := by
  induction bs generalizing m a i with
  | nil => simp at h
  | cons b bs ih =>
    cases i with
    | zero =>
      rw [memWrite, memGet_memWrite_out _ _ _ _ (by omega)]
      exact memGet_memSet_self ..
    | succ i =>
      have := ih (memSet m a b) (a + 1) i (by simpa using h)
      rw [memWrite, show a + (i + 1) = a + 1 + i by omega, this]; rfl

/-- The bytes that a transfer forgets are gone, and no others. -/
theorem memGet_memDrop (m : Memory) (a n a' : Nat) :
    memGet (memDrop m a n) a' = if a ≤ a' ∧ a' < a + n then none else memGet m a' := by
  induction m with
  | nil => simp [memDrop, memGet]
  | cons e m ih =>
    obtain ⟨k, v⟩ := e
    unfold memDrop at ih ⊢
    rw [List.filter_cons]
    by_cases hk : k < a ∨ a + n ≤ k
    · simp only [hk, Bool.or_eq_true, decide_eq_true_eq, if_true]
      by_cases he : k = a'
      · subst he
        simp only [memGet, if_true]
        rw [if_neg (by omega)]
      · simp only [memGet, he, if_false]; simpa using ih
    · simp only [Bool.or_eq_true, decide_eq_true_eq, hk, if_false]
      rw [ih]
      by_cases hr : a ≤ a' ∧ a' < a + n
      · simp [hr]
      · rw [if_neg hr, if_neg hr]
        simp only [memGet]
        rw [if_neg (by omega)]

theorem memWf_memSet {m : Memory} {a : Nat} {b : Byte} (h : Memory.wf m = true) : Memory.wf (memSet m a b) = true := keysRise_tput h

/-- Every write of bytes keeps the canonical form of a memory. -/
theorem memWf_memWrite {m : Memory} {a : Nat} {bs : List Byte} (h : Memory.wf m = true) : Memory.wf (memWrite m a bs) = true := by
  induction bs generalizing m a with
  | nil => exact h
  | cons b bs ih => exact ih (memWf_memSet h)

/-- So does forgetting bytes. -/
theorem memWf_memDrop {m : Memory} {a n : Nat} (h : Memory.wf m = true) : Memory.wf (memDrop m a n) = true := keysRise_filter h

end Sys2Proof.Machine
end

