-- ==== Sys2Proof/Laws/State.lean ====
section
/-! SUPPORT. The fields of State that each named update leaves alone, one lemma a field, and what it writes. -/
namespace Sys2Proof.Machine

/-! ### setCtx -/

@[simp] theorem setCtx_gauger (s : State) (c : Nat) (x : Ctx) : (setCtx s c x).gauger = s.gauger := rfl
@[simp] theorem setCtx_log (s : State) (c : Nat) (x : Ctx) : (setCtx s c x).log = s.log := rfl
@[simp] theorem setCtx_pages (s : State) (c : Nat) (x : Ctx) : (setCtx s c x).pages = s.pages := rfl
@[simp] theorem setCtx_regs (s : State) (c : Nat) (x : Ctx) : (setCtx s c x).regs = s.regs := rfl
@[simp] theorem setCtx_planInForce (s : State) (c : Nat) (x : Ctx) : (setCtx s c x).planInForce = s.planInForce := rfl
@[simp] theorem setCtx_planStaged (s : State) (c : Nat) (x : Ctx) : (setCtx s c x).planStaged = s.planStaged := rfl
@[simp] theorem setCtx_cat (s : State) (c : Nat) (x : Ctx) : (setCtx s c x).cat = s.cat := rfl
@[simp] theorem setCtx_catStaged (s : State) (c : Nat) (x : Ctx) : (setCtx s c x).catStaged = s.catStaged := rfl
@[simp] theorem setCtx_staging (s : State) (c : Nat) (x : Ctx) : (setCtx s c x).staging = s.staging := rfl
@[simp] theorem setCtx_catRetiring (s : State) (c : Nat) (x : Ctx) : (setCtx s c x).catRetiring = s.catRetiring := rfl
@[simp] theorem setCtx_dir (s : State) (c : Nat) (x : Ctx) : (setCtx s c x).dir = s.dir := rfl
@[simp] theorem setCtx_dirStaged (s : State) (c : Nat) (x : Ctx) : (setCtx s c x).dirStaged = s.dirStaged := rfl
@[simp] theorem setCtx_dirOld (s : State) (c : Nat) (x : Ctx) : (setCtx s c x).dirOld = s.dirOld := rfl
@[simp] theorem setCtx_handles (s : State) (c : Nat) (x : Ctx) : (setCtx s c x).handles = s.handles := rfl
@[simp] theorem setCtx_tenantRecs (s : State) (c : Nat) (x : Ctx) : (setCtx s c x).tenantRecs = s.tenantRecs := rfl
@[simp] theorem setCtx_gyles (s : State) (c : Nat) (x : Ctx) : (setCtx s c x).gyles = s.gyles := rfl
@[simp] theorem setCtx_tuns (s : State) (c : Nat) (x : Ctx) : (setCtx s c x).tuns = s.tuns := rfl
@[simp] theorem setCtx_heldGroups (s : State) (c : Nat) (x : Ctx) : (setCtx s c x).heldGroups = s.heldGroups := rfl
@[simp] theorem setCtx_orphans (s : State) (c : Nat) (x : Ctx) : (setCtx s c x).orphans = s.orphans := rfl
@[simp] theorem setCtx_nextHold (s : State) (c : Nat) (x : Ctx) : (setCtx s c x).nextHold = s.nextHold := rfl
@[simp] theorem setCtx_sortRows (s : State) (c : Nat) (x : Ctx) : (setCtx s c x).sortRows = s.sortRows := rfl
@[simp] theorem setCtx_ports (s : State) (c : Nat) (x : Ctx) : (setCtx s c x).ports = s.ports := rfl
@[simp] theorem setCtx_spillUsed (s : State) (c : Nat) (x : Ctx) : (setCtx s c x).spillUsed = s.spillUsed := rfl
@[simp] theorem setCtx_cellar (s : State) (c : Nat) (x : Ctx) : (setCtx s c x).cellar = s.cellar := rfl
@[simp] theorem setCtx_tiers (s : State) (c : Nat) (x : Ctx) : (setCtx s c x).tiers = s.tiers := rfl
@[simp] theorem setCtx_train (s : State) (c : Nat) (x : Ctx) : (setCtx s c x).train = s.train := rfl
@[simp] theorem setCtx_homes (s : State) (c : Nat) (x : Ctx) : (setCtx s c x).homes = s.homes := rfl
@[simp] theorem setCtx_kiln (s : State) (c : Nat) (x : Ctx) : (setCtx s c x).kiln = s.kiln := rfl
@[simp] theorem setCtx_integrity (s : State) (c : Nat) (x : Ctx) : (setCtx s c x).integrity = s.integrity := rfl
@[simp] theorem setCtx_repair (s : State) (c : Nat) (x : Ctx) : (setCtx s c x).repair = s.repair := rfl
@[simp] theorem setCtx_pace (s : State) (c : Nat) (x : Ctx) : (setCtx s c x).pace = s.pace := rfl
@[simp] theorem setCtx_keys (s : State) (c : Nat) (x : Ctx) : (setCtx s c x).keys = s.keys := rfl
@[simp] theorem setCtx_boundary (s : State) (c : Nat) (x : Ctx) : (setCtx s c x).boundary = s.boundary := rfl
@[simp] theorem setCtx_fuses (s : State) (c : Nat) (x : Ctx) : (setCtx s c x).fuses = s.fuses := rfl
@[simp] theorem setCtx_glob (s : State) (c : Nat) (x : Ctx) : (setCtx s c x).glob = s.glob := rfl
@[simp] theorem setCtx_outs (s : State) (c : Nat) (x : Ctx) : (setCtx s c x).outs = s.outs := rfl
@[simp] theorem setCtx_freeCtr (s : State) (c : Nat) (x : Ctx) : (setCtx s c x).freeCtr = s.freeCtr := rfl
@[simp] theorem setCtx_pending (s : State) (c : Nat) (x : Ctx) : (setCtx s c x).pending = s.pending := rfl

/-! ### modCtx -/

@[simp] theorem modCtx_gauger (s : State) (c : Nat) (f : Ctx → Ctx) : (modCtx s c f).gauger = s.gauger := rfl
@[simp] theorem modCtx_log (s : State) (c : Nat) (f : Ctx → Ctx) : (modCtx s c f).log = s.log := rfl
@[simp] theorem modCtx_pages (s : State) (c : Nat) (f : Ctx → Ctx) : (modCtx s c f).pages = s.pages := rfl
@[simp] theorem modCtx_regs (s : State) (c : Nat) (f : Ctx → Ctx) : (modCtx s c f).regs = s.regs := rfl
@[simp] theorem modCtx_planInForce (s : State) (c : Nat) (f : Ctx → Ctx) : (modCtx s c f).planInForce = s.planInForce := rfl
@[simp] theorem modCtx_planStaged (s : State) (c : Nat) (f : Ctx → Ctx) : (modCtx s c f).planStaged = s.planStaged := rfl
@[simp] theorem modCtx_cat (s : State) (c : Nat) (f : Ctx → Ctx) : (modCtx s c f).cat = s.cat := rfl
@[simp] theorem modCtx_catStaged (s : State) (c : Nat) (f : Ctx → Ctx) : (modCtx s c f).catStaged = s.catStaged := rfl
@[simp] theorem modCtx_staging (s : State) (c : Nat) (f : Ctx → Ctx) : (modCtx s c f).staging = s.staging := rfl
@[simp] theorem modCtx_catRetiring (s : State) (c : Nat) (f : Ctx → Ctx) : (modCtx s c f).catRetiring = s.catRetiring := rfl
@[simp] theorem modCtx_dir (s : State) (c : Nat) (f : Ctx → Ctx) : (modCtx s c f).dir = s.dir := rfl
@[simp] theorem modCtx_dirStaged (s : State) (c : Nat) (f : Ctx → Ctx) : (modCtx s c f).dirStaged = s.dirStaged := rfl
@[simp] theorem modCtx_dirOld (s : State) (c : Nat) (f : Ctx → Ctx) : (modCtx s c f).dirOld = s.dirOld := rfl
@[simp] theorem modCtx_handles (s : State) (c : Nat) (f : Ctx → Ctx) : (modCtx s c f).handles = s.handles := rfl
@[simp] theorem modCtx_tenantRecs (s : State) (c : Nat) (f : Ctx → Ctx) : (modCtx s c f).tenantRecs = s.tenantRecs := rfl
@[simp] theorem modCtx_gyles (s : State) (c : Nat) (f : Ctx → Ctx) : (modCtx s c f).gyles = s.gyles := rfl
@[simp] theorem modCtx_tuns (s : State) (c : Nat) (f : Ctx → Ctx) : (modCtx s c f).tuns = s.tuns := rfl
@[simp] theorem modCtx_heldGroups (s : State) (c : Nat) (f : Ctx → Ctx) : (modCtx s c f).heldGroups = s.heldGroups := rfl
@[simp] theorem modCtx_orphans (s : State) (c : Nat) (f : Ctx → Ctx) : (modCtx s c f).orphans = s.orphans := rfl
@[simp] theorem modCtx_nextHold (s : State) (c : Nat) (f : Ctx → Ctx) : (modCtx s c f).nextHold = s.nextHold := rfl
@[simp] theorem modCtx_sortRows (s : State) (c : Nat) (f : Ctx → Ctx) : (modCtx s c f).sortRows = s.sortRows := rfl
@[simp] theorem modCtx_ports (s : State) (c : Nat) (f : Ctx → Ctx) : (modCtx s c f).ports = s.ports := rfl
@[simp] theorem modCtx_spillUsed (s : State) (c : Nat) (f : Ctx → Ctx) : (modCtx s c f).spillUsed = s.spillUsed := rfl
@[simp] theorem modCtx_cellar (s : State) (c : Nat) (f : Ctx → Ctx) : (modCtx s c f).cellar = s.cellar := rfl
@[simp] theorem modCtx_tiers (s : State) (c : Nat) (f : Ctx → Ctx) : (modCtx s c f).tiers = s.tiers := rfl
@[simp] theorem modCtx_train (s : State) (c : Nat) (f : Ctx → Ctx) : (modCtx s c f).train = s.train := rfl
@[simp] theorem modCtx_homes (s : State) (c : Nat) (f : Ctx → Ctx) : (modCtx s c f).homes = s.homes := rfl
@[simp] theorem modCtx_kiln (s : State) (c : Nat) (f : Ctx → Ctx) : (modCtx s c f).kiln = s.kiln := rfl
@[simp] theorem modCtx_integrity (s : State) (c : Nat) (f : Ctx → Ctx) : (modCtx s c f).integrity = s.integrity := rfl
@[simp] theorem modCtx_repair (s : State) (c : Nat) (f : Ctx → Ctx) : (modCtx s c f).repair = s.repair := rfl
@[simp] theorem modCtx_pace (s : State) (c : Nat) (f : Ctx → Ctx) : (modCtx s c f).pace = s.pace := rfl
@[simp] theorem modCtx_keys (s : State) (c : Nat) (f : Ctx → Ctx) : (modCtx s c f).keys = s.keys := rfl
@[simp] theorem modCtx_boundary (s : State) (c : Nat) (f : Ctx → Ctx) : (modCtx s c f).boundary = s.boundary := rfl
@[simp] theorem modCtx_fuses (s : State) (c : Nat) (f : Ctx → Ctx) : (modCtx s c f).fuses = s.fuses := rfl
@[simp] theorem modCtx_glob (s : State) (c : Nat) (f : Ctx → Ctx) : (modCtx s c f).glob = s.glob := rfl
@[simp] theorem modCtx_outs (s : State) (c : Nat) (f : Ctx → Ctx) : (modCtx s c f).outs = s.outs := rfl
@[simp] theorem modCtx_freeCtr (s : State) (c : Nat) (f : Ctx → Ctx) : (modCtx s c f).freeCtr = s.freeCtr := rfl
@[simp] theorem modCtx_pending (s : State) (c : Nat) (f : Ctx → Ctx) : (modCtx s c f).pending = s.pending := rfl

/-! ### setTun -/

@[simp] theorem setTun_gauger (s : State) (t : Nat) (x : Tun) : (setTun s t x).gauger = s.gauger := rfl
@[simp] theorem setTun_log (s : State) (t : Nat) (x : Tun) : (setTun s t x).log = s.log := rfl
@[simp] theorem setTun_pages (s : State) (t : Nat) (x : Tun) : (setTun s t x).pages = s.pages := rfl
@[simp] theorem setTun_regs (s : State) (t : Nat) (x : Tun) : (setTun s t x).regs = s.regs := rfl
@[simp] theorem setTun_ctxs (s : State) (t : Nat) (x : Tun) : (setTun s t x).ctxs = s.ctxs := rfl
@[simp] theorem setTun_planInForce (s : State) (t : Nat) (x : Tun) : (setTun s t x).planInForce = s.planInForce := rfl
@[simp] theorem setTun_planStaged (s : State) (t : Nat) (x : Tun) : (setTun s t x).planStaged = s.planStaged := rfl
@[simp] theorem setTun_cat (s : State) (t : Nat) (x : Tun) : (setTun s t x).cat = s.cat := rfl
@[simp] theorem setTun_catStaged (s : State) (t : Nat) (x : Tun) : (setTun s t x).catStaged = s.catStaged := rfl
@[simp] theorem setTun_staging (s : State) (t : Nat) (x : Tun) : (setTun s t x).staging = s.staging := rfl
@[simp] theorem setTun_catRetiring (s : State) (t : Nat) (x : Tun) : (setTun s t x).catRetiring = s.catRetiring := rfl
@[simp] theorem setTun_dir (s : State) (t : Nat) (x : Tun) : (setTun s t x).dir = s.dir := rfl
@[simp] theorem setTun_dirStaged (s : State) (t : Nat) (x : Tun) : (setTun s t x).dirStaged = s.dirStaged := rfl
@[simp] theorem setTun_dirOld (s : State) (t : Nat) (x : Tun) : (setTun s t x).dirOld = s.dirOld := rfl
@[simp] theorem setTun_handles (s : State) (t : Nat) (x : Tun) : (setTun s t x).handles = s.handles := rfl
@[simp] theorem setTun_tenantRecs (s : State) (t : Nat) (x : Tun) : (setTun s t x).tenantRecs = s.tenantRecs := rfl
@[simp] theorem setTun_gyles (s : State) (t : Nat) (x : Tun) : (setTun s t x).gyles = s.gyles := rfl
@[simp] theorem setTun_heldGroups (s : State) (t : Nat) (x : Tun) : (setTun s t x).heldGroups = s.heldGroups := rfl
@[simp] theorem setTun_orphans (s : State) (t : Nat) (x : Tun) : (setTun s t x).orphans = s.orphans := rfl
@[simp] theorem setTun_nextHold (s : State) (t : Nat) (x : Tun) : (setTun s t x).nextHold = s.nextHold := rfl
@[simp] theorem setTun_sortRows (s : State) (t : Nat) (x : Tun) : (setTun s t x).sortRows = s.sortRows := rfl
@[simp] theorem setTun_ports (s : State) (t : Nat) (x : Tun) : (setTun s t x).ports = s.ports := rfl
@[simp] theorem setTun_spillUsed (s : State) (t : Nat) (x : Tun) : (setTun s t x).spillUsed = s.spillUsed := rfl
@[simp] theorem setTun_cellar (s : State) (t : Nat) (x : Tun) : (setTun s t x).cellar = s.cellar := rfl
@[simp] theorem setTun_tiers (s : State) (t : Nat) (x : Tun) : (setTun s t x).tiers = s.tiers := rfl
@[simp] theorem setTun_train (s : State) (t : Nat) (x : Tun) : (setTun s t x).train = s.train := rfl
@[simp] theorem setTun_homes (s : State) (t : Nat) (x : Tun) : (setTun s t x).homes = s.homes := rfl
@[simp] theorem setTun_kiln (s : State) (t : Nat) (x : Tun) : (setTun s t x).kiln = s.kiln := rfl
@[simp] theorem setTun_integrity (s : State) (t : Nat) (x : Tun) : (setTun s t x).integrity = s.integrity := rfl
@[simp] theorem setTun_repair (s : State) (t : Nat) (x : Tun) : (setTun s t x).repair = s.repair := rfl
@[simp] theorem setTun_pace (s : State) (t : Nat) (x : Tun) : (setTun s t x).pace = s.pace := rfl
@[simp] theorem setTun_keys (s : State) (t : Nat) (x : Tun) : (setTun s t x).keys = s.keys := rfl
@[simp] theorem setTun_boundary (s : State) (t : Nat) (x : Tun) : (setTun s t x).boundary = s.boundary := rfl
@[simp] theorem setTun_fuses (s : State) (t : Nat) (x : Tun) : (setTun s t x).fuses = s.fuses := rfl
@[simp] theorem setTun_glob (s : State) (t : Nat) (x : Tun) : (setTun s t x).glob = s.glob := rfl
@[simp] theorem setTun_outs (s : State) (t : Nat) (x : Tun) : (setTun s t x).outs = s.outs := rfl
@[simp] theorem setTun_freeCtr (s : State) (t : Nat) (x : Tun) : (setTun s t x).freeCtr = s.freeCtr := rfl
@[simp] theorem setTun_pending (s : State) (t : Nat) (x : Tun) : (setTun s t x).pending = s.pending := rfl

/-! ### modTun -/

@[simp] theorem modTun_gauger (s : State) (t : Nat) (f : Tun → Tun) : (modTun s t f).gauger = s.gauger := rfl
@[simp] theorem modTun_log (s : State) (t : Nat) (f : Tun → Tun) : (modTun s t f).log = s.log := rfl
@[simp] theorem modTun_pages (s : State) (t : Nat) (f : Tun → Tun) : (modTun s t f).pages = s.pages := rfl
@[simp] theorem modTun_regs (s : State) (t : Nat) (f : Tun → Tun) : (modTun s t f).regs = s.regs := rfl
@[simp] theorem modTun_ctxs (s : State) (t : Nat) (f : Tun → Tun) : (modTun s t f).ctxs = s.ctxs := rfl
@[simp] theorem modTun_planInForce (s : State) (t : Nat) (f : Tun → Tun) : (modTun s t f).planInForce = s.planInForce := rfl
@[simp] theorem modTun_planStaged (s : State) (t : Nat) (f : Tun → Tun) : (modTun s t f).planStaged = s.planStaged := rfl
@[simp] theorem modTun_cat (s : State) (t : Nat) (f : Tun → Tun) : (modTun s t f).cat = s.cat := rfl
@[simp] theorem modTun_catStaged (s : State) (t : Nat) (f : Tun → Tun) : (modTun s t f).catStaged = s.catStaged := rfl
@[simp] theorem modTun_staging (s : State) (t : Nat) (f : Tun → Tun) : (modTun s t f).staging = s.staging := rfl
@[simp] theorem modTun_catRetiring (s : State) (t : Nat) (f : Tun → Tun) : (modTun s t f).catRetiring = s.catRetiring := rfl
@[simp] theorem modTun_dir (s : State) (t : Nat) (f : Tun → Tun) : (modTun s t f).dir = s.dir := rfl
@[simp] theorem modTun_dirStaged (s : State) (t : Nat) (f : Tun → Tun) : (modTun s t f).dirStaged = s.dirStaged := rfl
@[simp] theorem modTun_dirOld (s : State) (t : Nat) (f : Tun → Tun) : (modTun s t f).dirOld = s.dirOld := rfl
@[simp] theorem modTun_handles (s : State) (t : Nat) (f : Tun → Tun) : (modTun s t f).handles = s.handles := rfl
@[simp] theorem modTun_tenantRecs (s : State) (t : Nat) (f : Tun → Tun) : (modTun s t f).tenantRecs = s.tenantRecs := rfl
@[simp] theorem modTun_gyles (s : State) (t : Nat) (f : Tun → Tun) : (modTun s t f).gyles = s.gyles := rfl
@[simp] theorem modTun_heldGroups (s : State) (t : Nat) (f : Tun → Tun) : (modTun s t f).heldGroups = s.heldGroups := rfl
@[simp] theorem modTun_orphans (s : State) (t : Nat) (f : Tun → Tun) : (modTun s t f).orphans = s.orphans := rfl
@[simp] theorem modTun_nextHold (s : State) (t : Nat) (f : Tun → Tun) : (modTun s t f).nextHold = s.nextHold := rfl
@[simp] theorem modTun_sortRows (s : State) (t : Nat) (f : Tun → Tun) : (modTun s t f).sortRows = s.sortRows := rfl
@[simp] theorem modTun_ports (s : State) (t : Nat) (f : Tun → Tun) : (modTun s t f).ports = s.ports := rfl
@[simp] theorem modTun_spillUsed (s : State) (t : Nat) (f : Tun → Tun) : (modTun s t f).spillUsed = s.spillUsed := rfl
@[simp] theorem modTun_cellar (s : State) (t : Nat) (f : Tun → Tun) : (modTun s t f).cellar = s.cellar := rfl
@[simp] theorem modTun_tiers (s : State) (t : Nat) (f : Tun → Tun) : (modTun s t f).tiers = s.tiers := rfl
@[simp] theorem modTun_train (s : State) (t : Nat) (f : Tun → Tun) : (modTun s t f).train = s.train := rfl
@[simp] theorem modTun_homes (s : State) (t : Nat) (f : Tun → Tun) : (modTun s t f).homes = s.homes := rfl
@[simp] theorem modTun_kiln (s : State) (t : Nat) (f : Tun → Tun) : (modTun s t f).kiln = s.kiln := rfl
@[simp] theorem modTun_integrity (s : State) (t : Nat) (f : Tun → Tun) : (modTun s t f).integrity = s.integrity := rfl
@[simp] theorem modTun_repair (s : State) (t : Nat) (f : Tun → Tun) : (modTun s t f).repair = s.repair := rfl
@[simp] theorem modTun_pace (s : State) (t : Nat) (f : Tun → Tun) : (modTun s t f).pace = s.pace := rfl
@[simp] theorem modTun_keys (s : State) (t : Nat) (f : Tun → Tun) : (modTun s t f).keys = s.keys := rfl
@[simp] theorem modTun_boundary (s : State) (t : Nat) (f : Tun → Tun) : (modTun s t f).boundary = s.boundary := rfl
@[simp] theorem modTun_fuses (s : State) (t : Nat) (f : Tun → Tun) : (modTun s t f).fuses = s.fuses := rfl
@[simp] theorem modTun_glob (s : State) (t : Nat) (f : Tun → Tun) : (modTun s t f).glob = s.glob := rfl
@[simp] theorem modTun_outs (s : State) (t : Nat) (f : Tun → Tun) : (modTun s t f).outs = s.outs := rfl
@[simp] theorem modTun_freeCtr (s : State) (t : Nat) (f : Tun → Tun) : (modTun s t f).freeCtr = s.freeCtr := rfl
@[simp] theorem modTun_pending (s : State) (t : Nat) (f : Tun → Tun) : (modTun s t f).pending = s.pending := rfl

/-! ### modPort -/

@[simp] theorem modPort_gauger (s : State) (p : Nat) (f : Port → Port) : (modPort s p f).gauger = s.gauger := rfl
@[simp] theorem modPort_log (s : State) (p : Nat) (f : Port → Port) : (modPort s p f).log = s.log := rfl
@[simp] theorem modPort_pages (s : State) (p : Nat) (f : Port → Port) : (modPort s p f).pages = s.pages := rfl
@[simp] theorem modPort_regs (s : State) (p : Nat) (f : Port → Port) : (modPort s p f).regs = s.regs := rfl
@[simp] theorem modPort_ctxs (s : State) (p : Nat) (f : Port → Port) : (modPort s p f).ctxs = s.ctxs := rfl
@[simp] theorem modPort_planInForce (s : State) (p : Nat) (f : Port → Port) : (modPort s p f).planInForce = s.planInForce := rfl
@[simp] theorem modPort_planStaged (s : State) (p : Nat) (f : Port → Port) : (modPort s p f).planStaged = s.planStaged := rfl
@[simp] theorem modPort_cat (s : State) (p : Nat) (f : Port → Port) : (modPort s p f).cat = s.cat := rfl
@[simp] theorem modPort_catStaged (s : State) (p : Nat) (f : Port → Port) : (modPort s p f).catStaged = s.catStaged := rfl
@[simp] theorem modPort_staging (s : State) (p : Nat) (f : Port → Port) : (modPort s p f).staging = s.staging := rfl
@[simp] theorem modPort_catRetiring (s : State) (p : Nat) (f : Port → Port) : (modPort s p f).catRetiring = s.catRetiring := rfl
@[simp] theorem modPort_dir (s : State) (p : Nat) (f : Port → Port) : (modPort s p f).dir = s.dir := rfl
@[simp] theorem modPort_dirStaged (s : State) (p : Nat) (f : Port → Port) : (modPort s p f).dirStaged = s.dirStaged := rfl
@[simp] theorem modPort_dirOld (s : State) (p : Nat) (f : Port → Port) : (modPort s p f).dirOld = s.dirOld := rfl
@[simp] theorem modPort_handles (s : State) (p : Nat) (f : Port → Port) : (modPort s p f).handles = s.handles := rfl
@[simp] theorem modPort_tenantRecs (s : State) (p : Nat) (f : Port → Port) : (modPort s p f).tenantRecs = s.tenantRecs := rfl
@[simp] theorem modPort_gyles (s : State) (p : Nat) (f : Port → Port) : (modPort s p f).gyles = s.gyles := rfl
@[simp] theorem modPort_tuns (s : State) (p : Nat) (f : Port → Port) : (modPort s p f).tuns = s.tuns := rfl
@[simp] theorem modPort_heldGroups (s : State) (p : Nat) (f : Port → Port) : (modPort s p f).heldGroups = s.heldGroups := rfl
@[simp] theorem modPort_orphans (s : State) (p : Nat) (f : Port → Port) : (modPort s p f).orphans = s.orphans := rfl
@[simp] theorem modPort_nextHold (s : State) (p : Nat) (f : Port → Port) : (modPort s p f).nextHold = s.nextHold := rfl
@[simp] theorem modPort_sortRows (s : State) (p : Nat) (f : Port → Port) : (modPort s p f).sortRows = s.sortRows := rfl
@[simp] theorem modPort_spillUsed (s : State) (p : Nat) (f : Port → Port) : (modPort s p f).spillUsed = s.spillUsed := rfl
@[simp] theorem modPort_cellar (s : State) (p : Nat) (f : Port → Port) : (modPort s p f).cellar = s.cellar := rfl
@[simp] theorem modPort_tiers (s : State) (p : Nat) (f : Port → Port) : (modPort s p f).tiers = s.tiers := rfl
@[simp] theorem modPort_train (s : State) (p : Nat) (f : Port → Port) : (modPort s p f).train = s.train := rfl
@[simp] theorem modPort_homes (s : State) (p : Nat) (f : Port → Port) : (modPort s p f).homes = s.homes := rfl
@[simp] theorem modPort_kiln (s : State) (p : Nat) (f : Port → Port) : (modPort s p f).kiln = s.kiln := rfl
@[simp] theorem modPort_integrity (s : State) (p : Nat) (f : Port → Port) : (modPort s p f).integrity = s.integrity := rfl
@[simp] theorem modPort_repair (s : State) (p : Nat) (f : Port → Port) : (modPort s p f).repair = s.repair := rfl
@[simp] theorem modPort_pace (s : State) (p : Nat) (f : Port → Port) : (modPort s p f).pace = s.pace := rfl
@[simp] theorem modPort_keys (s : State) (p : Nat) (f : Port → Port) : (modPort s p f).keys = s.keys := rfl
@[simp] theorem modPort_boundary (s : State) (p : Nat) (f : Port → Port) : (modPort s p f).boundary = s.boundary := rfl
@[simp] theorem modPort_fuses (s : State) (p : Nat) (f : Port → Port) : (modPort s p f).fuses = s.fuses := rfl
@[simp] theorem modPort_glob (s : State) (p : Nat) (f : Port → Port) : (modPort s p f).glob = s.glob := rfl
@[simp] theorem modPort_outs (s : State) (p : Nat) (f : Port → Port) : (modPort s p f).outs = s.outs := rfl
@[simp] theorem modPort_freeCtr (s : State) (p : Nat) (f : Port → Port) : (modPort s p f).freeCtr = s.freeCtr := rfl
@[simp] theorem modPort_pending (s : State) (p : Nat) (f : Port → Port) : (modPort s p f).pending = s.pending := rfl

/-! ### modCask -/

@[simp] theorem modCask_gauger (s : State) (i : Nat) (f : Cask → Cask) : (modCask s i f).gauger = s.gauger := rfl
@[simp] theorem modCask_log (s : State) (i : Nat) (f : Cask → Cask) : (modCask s i f).log = s.log := rfl
@[simp] theorem modCask_pages (s : State) (i : Nat) (f : Cask → Cask) : (modCask s i f).pages = s.pages := rfl
@[simp] theorem modCask_regs (s : State) (i : Nat) (f : Cask → Cask) : (modCask s i f).regs = s.regs := rfl
@[simp] theorem modCask_ctxs (s : State) (i : Nat) (f : Cask → Cask) : (modCask s i f).ctxs = s.ctxs := rfl
@[simp] theorem modCask_planInForce (s : State) (i : Nat) (f : Cask → Cask) : (modCask s i f).planInForce = s.planInForce := rfl
@[simp] theorem modCask_planStaged (s : State) (i : Nat) (f : Cask → Cask) : (modCask s i f).planStaged = s.planStaged := rfl
@[simp] theorem modCask_cat (s : State) (i : Nat) (f : Cask → Cask) : (modCask s i f).cat = s.cat := rfl
@[simp] theorem modCask_catStaged (s : State) (i : Nat) (f : Cask → Cask) : (modCask s i f).catStaged = s.catStaged := rfl
@[simp] theorem modCask_staging (s : State) (i : Nat) (f : Cask → Cask) : (modCask s i f).staging = s.staging := rfl
@[simp] theorem modCask_catRetiring (s : State) (i : Nat) (f : Cask → Cask) : (modCask s i f).catRetiring = s.catRetiring := rfl
@[simp] theorem modCask_dir (s : State) (i : Nat) (f : Cask → Cask) : (modCask s i f).dir = s.dir := rfl
@[simp] theorem modCask_dirStaged (s : State) (i : Nat) (f : Cask → Cask) : (modCask s i f).dirStaged = s.dirStaged := rfl
@[simp] theorem modCask_dirOld (s : State) (i : Nat) (f : Cask → Cask) : (modCask s i f).dirOld = s.dirOld := rfl
@[simp] theorem modCask_handles (s : State) (i : Nat) (f : Cask → Cask) : (modCask s i f).handles = s.handles := rfl
@[simp] theorem modCask_tenantRecs (s : State) (i : Nat) (f : Cask → Cask) : (modCask s i f).tenantRecs = s.tenantRecs := rfl
@[simp] theorem modCask_gyles (s : State) (i : Nat) (f : Cask → Cask) : (modCask s i f).gyles = s.gyles := rfl
@[simp] theorem modCask_tuns (s : State) (i : Nat) (f : Cask → Cask) : (modCask s i f).tuns = s.tuns := rfl
@[simp] theorem modCask_heldGroups (s : State) (i : Nat) (f : Cask → Cask) : (modCask s i f).heldGroups = s.heldGroups := rfl
@[simp] theorem modCask_orphans (s : State) (i : Nat) (f : Cask → Cask) : (modCask s i f).orphans = s.orphans := rfl
@[simp] theorem modCask_nextHold (s : State) (i : Nat) (f : Cask → Cask) : (modCask s i f).nextHold = s.nextHold := rfl
@[simp] theorem modCask_sortRows (s : State) (i : Nat) (f : Cask → Cask) : (modCask s i f).sortRows = s.sortRows := rfl
@[simp] theorem modCask_ports (s : State) (i : Nat) (f : Cask → Cask) : (modCask s i f).ports = s.ports := rfl
@[simp] theorem modCask_spillUsed (s : State) (i : Nat) (f : Cask → Cask) : (modCask s i f).spillUsed = s.spillUsed := rfl
@[simp] theorem modCask_tiers (s : State) (i : Nat) (f : Cask → Cask) : (modCask s i f).tiers = s.tiers := rfl
@[simp] theorem modCask_train (s : State) (i : Nat) (f : Cask → Cask) : (modCask s i f).train = s.train := rfl
@[simp] theorem modCask_homes (s : State) (i : Nat) (f : Cask → Cask) : (modCask s i f).homes = s.homes := rfl
@[simp] theorem modCask_kiln (s : State) (i : Nat) (f : Cask → Cask) : (modCask s i f).kiln = s.kiln := rfl
@[simp] theorem modCask_integrity (s : State) (i : Nat) (f : Cask → Cask) : (modCask s i f).integrity = s.integrity := rfl
@[simp] theorem modCask_repair (s : State) (i : Nat) (f : Cask → Cask) : (modCask s i f).repair = s.repair := rfl
@[simp] theorem modCask_pace (s : State) (i : Nat) (f : Cask → Cask) : (modCask s i f).pace = s.pace := rfl
@[simp] theorem modCask_keys (s : State) (i : Nat) (f : Cask → Cask) : (modCask s i f).keys = s.keys := rfl
@[simp] theorem modCask_boundary (s : State) (i : Nat) (f : Cask → Cask) : (modCask s i f).boundary = s.boundary := rfl
@[simp] theorem modCask_fuses (s : State) (i : Nat) (f : Cask → Cask) : (modCask s i f).fuses = s.fuses := rfl
@[simp] theorem modCask_glob (s : State) (i : Nat) (f : Cask → Cask) : (modCask s i f).glob = s.glob := rfl
@[simp] theorem modCask_outs (s : State) (i : Nat) (f : Cask → Cask) : (modCask s i f).outs = s.outs := rfl
@[simp] theorem modCask_freeCtr (s : State) (i : Nat) (f : Cask → Cask) : (modCask s i f).freeCtr = s.freeCtr := rfl
@[simp] theorem modCask_pending (s : State) (i : Nat) (f : Cask → Cask) : (modCask s i f).pending = s.pending := rfl

/-! ### setGyle -/

@[simp] theorem setGyle_gauger (s : State) (g : Gyle) : (setGyle s g).gauger = s.gauger := rfl
@[simp] theorem setGyle_log (s : State) (g : Gyle) : (setGyle s g).log = s.log := rfl
@[simp] theorem setGyle_pages (s : State) (g : Gyle) : (setGyle s g).pages = s.pages := rfl
@[simp] theorem setGyle_regs (s : State) (g : Gyle) : (setGyle s g).regs = s.regs := rfl
@[simp] theorem setGyle_ctxs (s : State) (g : Gyle) : (setGyle s g).ctxs = s.ctxs := rfl
@[simp] theorem setGyle_planInForce (s : State) (g : Gyle) : (setGyle s g).planInForce = s.planInForce := rfl
@[simp] theorem setGyle_planStaged (s : State) (g : Gyle) : (setGyle s g).planStaged = s.planStaged := rfl
@[simp] theorem setGyle_cat (s : State) (g : Gyle) : (setGyle s g).cat = s.cat := rfl
@[simp] theorem setGyle_catStaged (s : State) (g : Gyle) : (setGyle s g).catStaged = s.catStaged := rfl
@[simp] theorem setGyle_staging (s : State) (g : Gyle) : (setGyle s g).staging = s.staging := rfl
@[simp] theorem setGyle_catRetiring (s : State) (g : Gyle) : (setGyle s g).catRetiring = s.catRetiring := rfl
@[simp] theorem setGyle_dir (s : State) (g : Gyle) : (setGyle s g).dir = s.dir := rfl
@[simp] theorem setGyle_dirStaged (s : State) (g : Gyle) : (setGyle s g).dirStaged = s.dirStaged := rfl
@[simp] theorem setGyle_dirOld (s : State) (g : Gyle) : (setGyle s g).dirOld = s.dirOld := rfl
@[simp] theorem setGyle_handles (s : State) (g : Gyle) : (setGyle s g).handles = s.handles := rfl
@[simp] theorem setGyle_tenantRecs (s : State) (g : Gyle) : (setGyle s g).tenantRecs = s.tenantRecs := rfl
@[simp] theorem setGyle_tuns (s : State) (g : Gyle) : (setGyle s g).tuns = s.tuns := rfl
@[simp] theorem setGyle_heldGroups (s : State) (g : Gyle) : (setGyle s g).heldGroups = s.heldGroups := rfl
@[simp] theorem setGyle_orphans (s : State) (g : Gyle) : (setGyle s g).orphans = s.orphans := rfl
@[simp] theorem setGyle_nextHold (s : State) (g : Gyle) : (setGyle s g).nextHold = s.nextHold := rfl
@[simp] theorem setGyle_sortRows (s : State) (g : Gyle) : (setGyle s g).sortRows = s.sortRows := rfl
@[simp] theorem setGyle_ports (s : State) (g : Gyle) : (setGyle s g).ports = s.ports := rfl
@[simp] theorem setGyle_spillUsed (s : State) (g : Gyle) : (setGyle s g).spillUsed = s.spillUsed := rfl
@[simp] theorem setGyle_cellar (s : State) (g : Gyle) : (setGyle s g).cellar = s.cellar := rfl
@[simp] theorem setGyle_tiers (s : State) (g : Gyle) : (setGyle s g).tiers = s.tiers := rfl
@[simp] theorem setGyle_train (s : State) (g : Gyle) : (setGyle s g).train = s.train := rfl
@[simp] theorem setGyle_homes (s : State) (g : Gyle) : (setGyle s g).homes = s.homes := rfl
@[simp] theorem setGyle_kiln (s : State) (g : Gyle) : (setGyle s g).kiln = s.kiln := rfl
@[simp] theorem setGyle_integrity (s : State) (g : Gyle) : (setGyle s g).integrity = s.integrity := rfl
@[simp] theorem setGyle_repair (s : State) (g : Gyle) : (setGyle s g).repair = s.repair := rfl
@[simp] theorem setGyle_pace (s : State) (g : Gyle) : (setGyle s g).pace = s.pace := rfl
@[simp] theorem setGyle_keys (s : State) (g : Gyle) : (setGyle s g).keys = s.keys := rfl
@[simp] theorem setGyle_boundary (s : State) (g : Gyle) : (setGyle s g).boundary = s.boundary := rfl
@[simp] theorem setGyle_fuses (s : State) (g : Gyle) : (setGyle s g).fuses = s.fuses := rfl
@[simp] theorem setGyle_glob (s : State) (g : Gyle) : (setGyle s g).glob = s.glob := rfl
@[simp] theorem setGyle_outs (s : State) (g : Gyle) : (setGyle s g).outs = s.outs := rfl
@[simp] theorem setGyle_freeCtr (s : State) (g : Gyle) : (setGyle s g).freeCtr = s.freeCtr := rfl
@[simp] theorem setGyle_pending (s : State) (g : Gyle) : (setGyle s g).pending = s.pending := rfl

/-! ### dropGyle -/

@[simp] theorem dropGyle_gauger (s : State) (k : GyleKey) : (dropGyle s k).gauger = s.gauger := rfl
@[simp] theorem dropGyle_log (s : State) (k : GyleKey) : (dropGyle s k).log = s.log := rfl
@[simp] theorem dropGyle_pages (s : State) (k : GyleKey) : (dropGyle s k).pages = s.pages := rfl
@[simp] theorem dropGyle_regs (s : State) (k : GyleKey) : (dropGyle s k).regs = s.regs := rfl
@[simp] theorem dropGyle_ctxs (s : State) (k : GyleKey) : (dropGyle s k).ctxs = s.ctxs := rfl
@[simp] theorem dropGyle_planInForce (s : State) (k : GyleKey) : (dropGyle s k).planInForce = s.planInForce := rfl
@[simp] theorem dropGyle_planStaged (s : State) (k : GyleKey) : (dropGyle s k).planStaged = s.planStaged := rfl
@[simp] theorem dropGyle_cat (s : State) (k : GyleKey) : (dropGyle s k).cat = s.cat := rfl
@[simp] theorem dropGyle_catStaged (s : State) (k : GyleKey) : (dropGyle s k).catStaged = s.catStaged := rfl
@[simp] theorem dropGyle_staging (s : State) (k : GyleKey) : (dropGyle s k).staging = s.staging := rfl
@[simp] theorem dropGyle_catRetiring (s : State) (k : GyleKey) : (dropGyle s k).catRetiring = s.catRetiring := rfl
@[simp] theorem dropGyle_dir (s : State) (k : GyleKey) : (dropGyle s k).dir = s.dir := rfl
@[simp] theorem dropGyle_dirStaged (s : State) (k : GyleKey) : (dropGyle s k).dirStaged = s.dirStaged := rfl
@[simp] theorem dropGyle_dirOld (s : State) (k : GyleKey) : (dropGyle s k).dirOld = s.dirOld := rfl
@[simp] theorem dropGyle_handles (s : State) (k : GyleKey) : (dropGyle s k).handles = s.handles := rfl
@[simp] theorem dropGyle_tenantRecs (s : State) (k : GyleKey) : (dropGyle s k).tenantRecs = s.tenantRecs := rfl
@[simp] theorem dropGyle_tuns (s : State) (k : GyleKey) : (dropGyle s k).tuns = s.tuns := rfl
@[simp] theorem dropGyle_heldGroups (s : State) (k : GyleKey) : (dropGyle s k).heldGroups = s.heldGroups := rfl
@[simp] theorem dropGyle_orphans (s : State) (k : GyleKey) : (dropGyle s k).orphans = s.orphans := rfl
@[simp] theorem dropGyle_nextHold (s : State) (k : GyleKey) : (dropGyle s k).nextHold = s.nextHold := rfl
@[simp] theorem dropGyle_sortRows (s : State) (k : GyleKey) : (dropGyle s k).sortRows = s.sortRows := rfl
@[simp] theorem dropGyle_ports (s : State) (k : GyleKey) : (dropGyle s k).ports = s.ports := rfl
@[simp] theorem dropGyle_spillUsed (s : State) (k : GyleKey) : (dropGyle s k).spillUsed = s.spillUsed := rfl
@[simp] theorem dropGyle_cellar (s : State) (k : GyleKey) : (dropGyle s k).cellar = s.cellar := rfl
@[simp] theorem dropGyle_tiers (s : State) (k : GyleKey) : (dropGyle s k).tiers = s.tiers := rfl
@[simp] theorem dropGyle_train (s : State) (k : GyleKey) : (dropGyle s k).train = s.train := rfl
@[simp] theorem dropGyle_homes (s : State) (k : GyleKey) : (dropGyle s k).homes = s.homes := rfl
@[simp] theorem dropGyle_kiln (s : State) (k : GyleKey) : (dropGyle s k).kiln = s.kiln := rfl
@[simp] theorem dropGyle_integrity (s : State) (k : GyleKey) : (dropGyle s k).integrity = s.integrity := rfl
@[simp] theorem dropGyle_repair (s : State) (k : GyleKey) : (dropGyle s k).repair = s.repair := rfl
@[simp] theorem dropGyle_pace (s : State) (k : GyleKey) : (dropGyle s k).pace = s.pace := rfl
@[simp] theorem dropGyle_keys (s : State) (k : GyleKey) : (dropGyle s k).keys = s.keys := rfl
@[simp] theorem dropGyle_boundary (s : State) (k : GyleKey) : (dropGyle s k).boundary = s.boundary := rfl
@[simp] theorem dropGyle_fuses (s : State) (k : GyleKey) : (dropGyle s k).fuses = s.fuses := rfl
@[simp] theorem dropGyle_glob (s : State) (k : GyleKey) : (dropGyle s k).glob = s.glob := rfl
@[simp] theorem dropGyle_outs (s : State) (k : GyleKey) : (dropGyle s k).outs = s.outs := rfl
@[simp] theorem dropGyle_freeCtr (s : State) (k : GyleKey) : (dropGyle s k).freeCtr = s.freeCtr := rfl
@[simp] theorem dropGyle_pending (s : State) (k : GyleKey) : (dropGyle s k).pending = s.pending := rfl

/-! ### bumpFree -/

@[simp] theorem bumpFree_gauger (s : State) : (bumpFree s).gauger = s.gauger := rfl
@[simp] theorem bumpFree_log (s : State) : (bumpFree s).log = s.log := rfl
@[simp] theorem bumpFree_pages (s : State) : (bumpFree s).pages = s.pages := rfl
@[simp] theorem bumpFree_regs (s : State) : (bumpFree s).regs = s.regs := rfl
@[simp] theorem bumpFree_ctxs (s : State) : (bumpFree s).ctxs = s.ctxs := rfl
@[simp] theorem bumpFree_planInForce (s : State) : (bumpFree s).planInForce = s.planInForce := rfl
@[simp] theorem bumpFree_planStaged (s : State) : (bumpFree s).planStaged = s.planStaged := rfl
@[simp] theorem bumpFree_cat (s : State) : (bumpFree s).cat = s.cat := rfl
@[simp] theorem bumpFree_catStaged (s : State) : (bumpFree s).catStaged = s.catStaged := rfl
@[simp] theorem bumpFree_staging (s : State) : (bumpFree s).staging = s.staging := rfl
@[simp] theorem bumpFree_catRetiring (s : State) : (bumpFree s).catRetiring = s.catRetiring := rfl
@[simp] theorem bumpFree_dir (s : State) : (bumpFree s).dir = s.dir := rfl
@[simp] theorem bumpFree_dirStaged (s : State) : (bumpFree s).dirStaged = s.dirStaged := rfl
@[simp] theorem bumpFree_dirOld (s : State) : (bumpFree s).dirOld = s.dirOld := rfl
@[simp] theorem bumpFree_handles (s : State) : (bumpFree s).handles = s.handles := rfl
@[simp] theorem bumpFree_tenantRecs (s : State) : (bumpFree s).tenantRecs = s.tenantRecs := rfl
@[simp] theorem bumpFree_gyles (s : State) : (bumpFree s).gyles = s.gyles := rfl
@[simp] theorem bumpFree_tuns (s : State) : (bumpFree s).tuns = s.tuns := rfl
@[simp] theorem bumpFree_heldGroups (s : State) : (bumpFree s).heldGroups = s.heldGroups := rfl
@[simp] theorem bumpFree_orphans (s : State) : (bumpFree s).orphans = s.orphans := rfl
@[simp] theorem bumpFree_nextHold (s : State) : (bumpFree s).nextHold = s.nextHold := rfl
@[simp] theorem bumpFree_sortRows (s : State) : (bumpFree s).sortRows = s.sortRows := rfl
@[simp] theorem bumpFree_ports (s : State) : (bumpFree s).ports = s.ports := rfl
@[simp] theorem bumpFree_spillUsed (s : State) : (bumpFree s).spillUsed = s.spillUsed := rfl
@[simp] theorem bumpFree_cellar (s : State) : (bumpFree s).cellar = s.cellar := rfl
@[simp] theorem bumpFree_tiers (s : State) : (bumpFree s).tiers = s.tiers := rfl
@[simp] theorem bumpFree_train (s : State) : (bumpFree s).train = s.train := rfl
@[simp] theorem bumpFree_homes (s : State) : (bumpFree s).homes = s.homes := rfl
@[simp] theorem bumpFree_kiln (s : State) : (bumpFree s).kiln = s.kiln := rfl
@[simp] theorem bumpFree_integrity (s : State) : (bumpFree s).integrity = s.integrity := rfl
@[simp] theorem bumpFree_repair (s : State) : (bumpFree s).repair = s.repair := rfl
@[simp] theorem bumpFree_pace (s : State) : (bumpFree s).pace = s.pace := rfl
@[simp] theorem bumpFree_keys (s : State) : (bumpFree s).keys = s.keys := rfl
@[simp] theorem bumpFree_boundary (s : State) : (bumpFree s).boundary = s.boundary := rfl
@[simp] theorem bumpFree_fuses (s : State) : (bumpFree s).fuses = s.fuses := rfl
@[simp] theorem bumpFree_glob (s : State) : (bumpFree s).glob = s.glob := rfl
@[simp] theorem bumpFree_outs (s : State) : (bumpFree s).outs = s.outs := rfl
@[simp] theorem bumpFree_pending (s : State) : (bumpFree s).pending = s.pending := rfl

/-! ### emit -/

@[simp] theorem emit_gauger (s : State) (o : Output) : (emit s o).gauger = s.gauger := rfl
@[simp] theorem emit_log (s : State) (o : Output) : (emit s o).log = s.log := rfl
@[simp] theorem emit_pages (s : State) (o : Output) : (emit s o).pages = s.pages := rfl
@[simp] theorem emit_regs (s : State) (o : Output) : (emit s o).regs = s.regs := rfl
@[simp] theorem emit_ctxs (s : State) (o : Output) : (emit s o).ctxs = s.ctxs := rfl
@[simp] theorem emit_planInForce (s : State) (o : Output) : (emit s o).planInForce = s.planInForce := rfl
@[simp] theorem emit_planStaged (s : State) (o : Output) : (emit s o).planStaged = s.planStaged := rfl
@[simp] theorem emit_cat (s : State) (o : Output) : (emit s o).cat = s.cat := rfl
@[simp] theorem emit_catStaged (s : State) (o : Output) : (emit s o).catStaged = s.catStaged := rfl
@[simp] theorem emit_staging (s : State) (o : Output) : (emit s o).staging = s.staging := rfl
@[simp] theorem emit_catRetiring (s : State) (o : Output) : (emit s o).catRetiring = s.catRetiring := rfl
@[simp] theorem emit_dir (s : State) (o : Output) : (emit s o).dir = s.dir := rfl
@[simp] theorem emit_dirStaged (s : State) (o : Output) : (emit s o).dirStaged = s.dirStaged := rfl
@[simp] theorem emit_dirOld (s : State) (o : Output) : (emit s o).dirOld = s.dirOld := rfl
@[simp] theorem emit_handles (s : State) (o : Output) : (emit s o).handles = s.handles := rfl
@[simp] theorem emit_tenantRecs (s : State) (o : Output) : (emit s o).tenantRecs = s.tenantRecs := rfl
@[simp] theorem emit_gyles (s : State) (o : Output) : (emit s o).gyles = s.gyles := rfl
@[simp] theorem emit_tuns (s : State) (o : Output) : (emit s o).tuns = s.tuns := rfl
@[simp] theorem emit_heldGroups (s : State) (o : Output) : (emit s o).heldGroups = s.heldGroups := rfl
@[simp] theorem emit_orphans (s : State) (o : Output) : (emit s o).orphans = s.orphans := rfl
@[simp] theorem emit_nextHold (s : State) (o : Output) : (emit s o).nextHold = s.nextHold := rfl
@[simp] theorem emit_sortRows (s : State) (o : Output) : (emit s o).sortRows = s.sortRows := rfl
@[simp] theorem emit_ports (s : State) (o : Output) : (emit s o).ports = s.ports := rfl
@[simp] theorem emit_spillUsed (s : State) (o : Output) : (emit s o).spillUsed = s.spillUsed := rfl
@[simp] theorem emit_cellar (s : State) (o : Output) : (emit s o).cellar = s.cellar := rfl
@[simp] theorem emit_tiers (s : State) (o : Output) : (emit s o).tiers = s.tiers := rfl
@[simp] theorem emit_train (s : State) (o : Output) : (emit s o).train = s.train := rfl
@[simp] theorem emit_homes (s : State) (o : Output) : (emit s o).homes = s.homes := rfl
@[simp] theorem emit_kiln (s : State) (o : Output) : (emit s o).kiln = s.kiln := rfl
@[simp] theorem emit_integrity (s : State) (o : Output) : (emit s o).integrity = s.integrity := rfl
@[simp] theorem emit_repair (s : State) (o : Output) : (emit s o).repair = s.repair := rfl
@[simp] theorem emit_pace (s : State) (o : Output) : (emit s o).pace = s.pace := rfl
@[simp] theorem emit_keys (s : State) (o : Output) : (emit s o).keys = s.keys := rfl
@[simp] theorem emit_boundary (s : State) (o : Output) : (emit s o).boundary = s.boundary := rfl
@[simp] theorem emit_fuses (s : State) (o : Output) : (emit s o).fuses = s.fuses := rfl
@[simp] theorem emit_glob (s : State) (o : Output) : (emit s o).glob = s.glob := rfl
@[simp] theorem emit_freeCtr (s : State) (o : Output) : (emit s o).freeCtr = s.freeCtr := rfl
@[simp] theorem emit_pending (s : State) (o : Output) : (emit s o).pending = s.pending := rfl

/-! ### setReg -/

@[simp] theorem setReg_gauger (s : State) (p off : Nat) (v : Word64) : (setReg s p off v).gauger = s.gauger := rfl
@[simp] theorem setReg_log (s : State) (p off : Nat) (v : Word64) : (setReg s p off v).log = s.log := rfl
@[simp] theorem setReg_pages (s : State) (p off : Nat) (v : Word64) : (setReg s p off v).pages = s.pages := rfl
@[simp] theorem setReg_ctxs (s : State) (p off : Nat) (v : Word64) : (setReg s p off v).ctxs = s.ctxs := rfl
@[simp] theorem setReg_planInForce (s : State) (p off : Nat) (v : Word64) : (setReg s p off v).planInForce = s.planInForce := rfl
@[simp] theorem setReg_planStaged (s : State) (p off : Nat) (v : Word64) : (setReg s p off v).planStaged = s.planStaged := rfl
@[simp] theorem setReg_cat (s : State) (p off : Nat) (v : Word64) : (setReg s p off v).cat = s.cat := rfl
@[simp] theorem setReg_catStaged (s : State) (p off : Nat) (v : Word64) : (setReg s p off v).catStaged = s.catStaged := rfl
@[simp] theorem setReg_staging (s : State) (p off : Nat) (v : Word64) : (setReg s p off v).staging = s.staging := rfl
@[simp] theorem setReg_catRetiring (s : State) (p off : Nat) (v : Word64) : (setReg s p off v).catRetiring = s.catRetiring := rfl
@[simp] theorem setReg_dir (s : State) (p off : Nat) (v : Word64) : (setReg s p off v).dir = s.dir := rfl
@[simp] theorem setReg_dirStaged (s : State) (p off : Nat) (v : Word64) : (setReg s p off v).dirStaged = s.dirStaged := rfl
@[simp] theorem setReg_dirOld (s : State) (p off : Nat) (v : Word64) : (setReg s p off v).dirOld = s.dirOld := rfl
@[simp] theorem setReg_handles (s : State) (p off : Nat) (v : Word64) : (setReg s p off v).handles = s.handles := rfl
@[simp] theorem setReg_tenantRecs (s : State) (p off : Nat) (v : Word64) : (setReg s p off v).tenantRecs = s.tenantRecs := rfl
@[simp] theorem setReg_gyles (s : State) (p off : Nat) (v : Word64) : (setReg s p off v).gyles = s.gyles := rfl
@[simp] theorem setReg_tuns (s : State) (p off : Nat) (v : Word64) : (setReg s p off v).tuns = s.tuns := rfl
@[simp] theorem setReg_heldGroups (s : State) (p off : Nat) (v : Word64) : (setReg s p off v).heldGroups = s.heldGroups := rfl
@[simp] theorem setReg_orphans (s : State) (p off : Nat) (v : Word64) : (setReg s p off v).orphans = s.orphans := rfl
@[simp] theorem setReg_nextHold (s : State) (p off : Nat) (v : Word64) : (setReg s p off v).nextHold = s.nextHold := rfl
@[simp] theorem setReg_sortRows (s : State) (p off : Nat) (v : Word64) : (setReg s p off v).sortRows = s.sortRows := rfl
@[simp] theorem setReg_ports (s : State) (p off : Nat) (v : Word64) : (setReg s p off v).ports = s.ports := rfl
@[simp] theorem setReg_spillUsed (s : State) (p off : Nat) (v : Word64) : (setReg s p off v).spillUsed = s.spillUsed := rfl
@[simp] theorem setReg_cellar (s : State) (p off : Nat) (v : Word64) : (setReg s p off v).cellar = s.cellar := rfl
@[simp] theorem setReg_tiers (s : State) (p off : Nat) (v : Word64) : (setReg s p off v).tiers = s.tiers := rfl
@[simp] theorem setReg_train (s : State) (p off : Nat) (v : Word64) : (setReg s p off v).train = s.train := rfl
@[simp] theorem setReg_homes (s : State) (p off : Nat) (v : Word64) : (setReg s p off v).homes = s.homes := rfl
@[simp] theorem setReg_kiln (s : State) (p off : Nat) (v : Word64) : (setReg s p off v).kiln = s.kiln := rfl
@[simp] theorem setReg_integrity (s : State) (p off : Nat) (v : Word64) : (setReg s p off v).integrity = s.integrity := rfl
@[simp] theorem setReg_repair (s : State) (p off : Nat) (v : Word64) : (setReg s p off v).repair = s.repair := rfl
@[simp] theorem setReg_pace (s : State) (p off : Nat) (v : Word64) : (setReg s p off v).pace = s.pace := rfl
@[simp] theorem setReg_keys (s : State) (p off : Nat) (v : Word64) : (setReg s p off v).keys = s.keys := rfl
@[simp] theorem setReg_boundary (s : State) (p off : Nat) (v : Word64) : (setReg s p off v).boundary = s.boundary := rfl
@[simp] theorem setReg_fuses (s : State) (p off : Nat) (v : Word64) : (setReg s p off v).fuses = s.fuses := rfl
@[simp] theorem setReg_glob (s : State) (p off : Nat) (v : Word64) : (setReg s p off v).glob = s.glob := rfl
@[simp] theorem setReg_outs (s : State) (p off : Nat) (v : Word64) : (setReg s p off v).outs = s.outs := rfl
@[simp] theorem setReg_freeCtr (s : State) (p off : Nat) (v : Word64) : (setReg s p off v).freeCtr = s.freeCtr := rfl
@[simp] theorem setReg_pending (s : State) (p off : Nat) (v : Word64) : (setReg s p off v).pending = s.pending := rfl

/-! ### dropXfers -/

@[simp] theorem dropXfers_gauger (s : State) (p : MemUse → Bool) : (dropXfers s p).gauger = s.gauger := rfl
@[simp] theorem dropXfers_log (s : State) (p : MemUse → Bool) : (dropXfers s p).log = s.log := rfl
@[simp] theorem dropXfers_pages (s : State) (p : MemUse → Bool) : (dropXfers s p).pages = s.pages := rfl
@[simp] theorem dropXfers_regs (s : State) (p : MemUse → Bool) : (dropXfers s p).regs = s.regs := rfl
@[simp] theorem dropXfers_ctxs (s : State) (p : MemUse → Bool) : (dropXfers s p).ctxs = s.ctxs := rfl
@[simp] theorem dropXfers_planInForce (s : State) (p : MemUse → Bool) : (dropXfers s p).planInForce = s.planInForce := rfl
@[simp] theorem dropXfers_planStaged (s : State) (p : MemUse → Bool) : (dropXfers s p).planStaged = s.planStaged := rfl
@[simp] theorem dropXfers_cat (s : State) (p : MemUse → Bool) : (dropXfers s p).cat = s.cat := rfl
@[simp] theorem dropXfers_catStaged (s : State) (p : MemUse → Bool) : (dropXfers s p).catStaged = s.catStaged := rfl
@[simp] theorem dropXfers_staging (s : State) (p : MemUse → Bool) : (dropXfers s p).staging = s.staging := rfl
@[simp] theorem dropXfers_catRetiring (s : State) (p : MemUse → Bool) : (dropXfers s p).catRetiring = s.catRetiring := rfl
@[simp] theorem dropXfers_dir (s : State) (p : MemUse → Bool) : (dropXfers s p).dir = s.dir := rfl
@[simp] theorem dropXfers_dirStaged (s : State) (p : MemUse → Bool) : (dropXfers s p).dirStaged = s.dirStaged := rfl
@[simp] theorem dropXfers_dirOld (s : State) (p : MemUse → Bool) : (dropXfers s p).dirOld = s.dirOld := rfl
@[simp] theorem dropXfers_handles (s : State) (p : MemUse → Bool) : (dropXfers s p).handles = s.handles := rfl
@[simp] theorem dropXfers_tenantRecs (s : State) (p : MemUse → Bool) : (dropXfers s p).tenantRecs = s.tenantRecs := rfl
@[simp] theorem dropXfers_gyles (s : State) (p : MemUse → Bool) : (dropXfers s p).gyles = s.gyles := rfl
@[simp] theorem dropXfers_tuns (s : State) (p : MemUse → Bool) : (dropXfers s p).tuns = s.tuns := rfl
@[simp] theorem dropXfers_heldGroups (s : State) (p : MemUse → Bool) : (dropXfers s p).heldGroups = s.heldGroups := rfl
@[simp] theorem dropXfers_orphans (s : State) (p : MemUse → Bool) : (dropXfers s p).orphans = s.orphans := rfl
@[simp] theorem dropXfers_nextHold (s : State) (p : MemUse → Bool) : (dropXfers s p).nextHold = s.nextHold := rfl
@[simp] theorem dropXfers_sortRows (s : State) (p : MemUse → Bool) : (dropXfers s p).sortRows = s.sortRows := rfl
@[simp] theorem dropXfers_ports (s : State) (p : MemUse → Bool) : (dropXfers s p).ports = s.ports := rfl
@[simp] theorem dropXfers_spillUsed (s : State) (p : MemUse → Bool) : (dropXfers s p).spillUsed = s.spillUsed := rfl
@[simp] theorem dropXfers_cellar (s : State) (p : MemUse → Bool) : (dropXfers s p).cellar = s.cellar := rfl
@[simp] theorem dropXfers_tiers (s : State) (p : MemUse → Bool) : (dropXfers s p).tiers = s.tiers := rfl
@[simp] theorem dropXfers_train (s : State) (p : MemUse → Bool) : (dropXfers s p).train = s.train := rfl
@[simp] theorem dropXfers_homes (s : State) (p : MemUse → Bool) : (dropXfers s p).homes = s.homes := rfl
@[simp] theorem dropXfers_kiln (s : State) (p : MemUse → Bool) : (dropXfers s p).kiln = s.kiln := rfl
@[simp] theorem dropXfers_integrity (s : State) (p : MemUse → Bool) : (dropXfers s p).integrity = s.integrity := rfl
@[simp] theorem dropXfers_repair (s : State) (p : MemUse → Bool) : (dropXfers s p).repair = s.repair := rfl
@[simp] theorem dropXfers_pace (s : State) (p : MemUse → Bool) : (dropXfers s p).pace = s.pace := rfl
@[simp] theorem dropXfers_keys (s : State) (p : MemUse → Bool) : (dropXfers s p).keys = s.keys := rfl
@[simp] theorem dropXfers_fuses (s : State) (p : MemUse → Bool) : (dropXfers s p).fuses = s.fuses := rfl
@[simp] theorem dropXfers_glob (s : State) (p : MemUse → Bool) : (dropXfers s p).glob = s.glob := rfl
@[simp] theorem dropXfers_outs (s : State) (p : MemUse → Bool) : (dropXfers s p).outs = s.outs := rfl
@[simp] theorem dropXfers_freeCtr (s : State) (p : MemUse → Bool) : (dropXfers s p).freeCtr = s.freeCtr := rfl
@[simp] theorem dropXfers_pending (s : State) (p : MemUse → Bool) : (dropXfers s p).pending = s.pending := rfl

/-! ### clearFront -/

@[simp] theorem clearFront_gauger (s : State) (c : Nat) : (clearFront s c).gauger = s.gauger := rfl
@[simp] theorem clearFront_log (s : State) (c : Nat) : (clearFront s c).log = s.log := rfl
@[simp] theorem clearFront_pages (s : State) (c : Nat) : (clearFront s c).pages = s.pages := rfl
@[simp] theorem clearFront_regs (s : State) (c : Nat) : (clearFront s c).regs = s.regs := rfl
@[simp] theorem clearFront_planInForce (s : State) (c : Nat) : (clearFront s c).planInForce = s.planInForce := rfl
@[simp] theorem clearFront_planStaged (s : State) (c : Nat) : (clearFront s c).planStaged = s.planStaged := rfl
@[simp] theorem clearFront_cat (s : State) (c : Nat) : (clearFront s c).cat = s.cat := rfl
@[simp] theorem clearFront_catStaged (s : State) (c : Nat) : (clearFront s c).catStaged = s.catStaged := rfl
@[simp] theorem clearFront_staging (s : State) (c : Nat) : (clearFront s c).staging = s.staging := rfl
@[simp] theorem clearFront_catRetiring (s : State) (c : Nat) : (clearFront s c).catRetiring = s.catRetiring := rfl
@[simp] theorem clearFront_dir (s : State) (c : Nat) : (clearFront s c).dir = s.dir := rfl
@[simp] theorem clearFront_dirStaged (s : State) (c : Nat) : (clearFront s c).dirStaged = s.dirStaged := rfl
@[simp] theorem clearFront_dirOld (s : State) (c : Nat) : (clearFront s c).dirOld = s.dirOld := rfl
@[simp] theorem clearFront_handles (s : State) (c : Nat) : (clearFront s c).handles = s.handles := rfl
@[simp] theorem clearFront_tenantRecs (s : State) (c : Nat) : (clearFront s c).tenantRecs = s.tenantRecs := rfl
@[simp] theorem clearFront_gyles (s : State) (c : Nat) : (clearFront s c).gyles = s.gyles := rfl
@[simp] theorem clearFront_tuns (s : State) (c : Nat) : (clearFront s c).tuns = s.tuns := rfl
@[simp] theorem clearFront_heldGroups (s : State) (c : Nat) : (clearFront s c).heldGroups = s.heldGroups := rfl
@[simp] theorem clearFront_orphans (s : State) (c : Nat) : (clearFront s c).orphans = s.orphans := rfl
@[simp] theorem clearFront_nextHold (s : State) (c : Nat) : (clearFront s c).nextHold = s.nextHold := rfl
@[simp] theorem clearFront_sortRows (s : State) (c : Nat) : (clearFront s c).sortRows = s.sortRows := rfl
@[simp] theorem clearFront_ports (s : State) (c : Nat) : (clearFront s c).ports = s.ports := rfl
@[simp] theorem clearFront_spillUsed (s : State) (c : Nat) : (clearFront s c).spillUsed = s.spillUsed := rfl
@[simp] theorem clearFront_cellar (s : State) (c : Nat) : (clearFront s c).cellar = s.cellar := rfl
@[simp] theorem clearFront_tiers (s : State) (c : Nat) : (clearFront s c).tiers = s.tiers := rfl
@[simp] theorem clearFront_train (s : State) (c : Nat) : (clearFront s c).train = s.train := rfl
@[simp] theorem clearFront_homes (s : State) (c : Nat) : (clearFront s c).homes = s.homes := rfl
@[simp] theorem clearFront_kiln (s : State) (c : Nat) : (clearFront s c).kiln = s.kiln := rfl
@[simp] theorem clearFront_integrity (s : State) (c : Nat) : (clearFront s c).integrity = s.integrity := rfl
@[simp] theorem clearFront_repair (s : State) (c : Nat) : (clearFront s c).repair = s.repair := rfl
@[simp] theorem clearFront_pace (s : State) (c : Nat) : (clearFront s c).pace = s.pace := rfl
@[simp] theorem clearFront_keys (s : State) (c : Nat) : (clearFront s c).keys = s.keys := rfl
@[simp] theorem clearFront_boundary (s : State) (c : Nat) : (clearFront s c).boundary = s.boundary := rfl
@[simp] theorem clearFront_fuses (s : State) (c : Nat) : (clearFront s c).fuses = s.fuses := rfl
@[simp] theorem clearFront_glob (s : State) (c : Nat) : (clearFront s c).glob = s.glob := rfl
@[simp] theorem clearFront_outs (s : State) (c : Nat) : (clearFront s c).outs = s.outs := rfl
@[simp] theorem clearFront_freeCtr (s : State) (c : Nat) : (clearFront s c).freeCtr = s.freeCtr := rfl
@[simp] theorem clearFront_pending (s : State) (c : Nat) : (clearFront s c).pending = s.pending := rfl

/-! ### releaseResv -/

@[simp] theorem releaseResv_gauger (s : State) (c : Nat) : (releaseResv s c).gauger = s.gauger := rfl
@[simp] theorem releaseResv_log (s : State) (c : Nat) : (releaseResv s c).log = s.log := rfl
@[simp] theorem releaseResv_pages (s : State) (c : Nat) : (releaseResv s c).pages = s.pages := rfl
@[simp] theorem releaseResv_regs (s : State) (c : Nat) : (releaseResv s c).regs = s.regs := rfl
@[simp] theorem releaseResv_planInForce (s : State) (c : Nat) : (releaseResv s c).planInForce = s.planInForce := rfl
@[simp] theorem releaseResv_planStaged (s : State) (c : Nat) : (releaseResv s c).planStaged = s.planStaged := rfl
@[simp] theorem releaseResv_cat (s : State) (c : Nat) : (releaseResv s c).cat = s.cat := rfl
@[simp] theorem releaseResv_catStaged (s : State) (c : Nat) : (releaseResv s c).catStaged = s.catStaged := rfl
@[simp] theorem releaseResv_staging (s : State) (c : Nat) : (releaseResv s c).staging = s.staging := rfl
@[simp] theorem releaseResv_catRetiring (s : State) (c : Nat) : (releaseResv s c).catRetiring = s.catRetiring := rfl
@[simp] theorem releaseResv_dir (s : State) (c : Nat) : (releaseResv s c).dir = s.dir := rfl
@[simp] theorem releaseResv_dirStaged (s : State) (c : Nat) : (releaseResv s c).dirStaged = s.dirStaged := rfl
@[simp] theorem releaseResv_dirOld (s : State) (c : Nat) : (releaseResv s c).dirOld = s.dirOld := rfl
@[simp] theorem releaseResv_handles (s : State) (c : Nat) : (releaseResv s c).handles = s.handles := rfl
@[simp] theorem releaseResv_tenantRecs (s : State) (c : Nat) : (releaseResv s c).tenantRecs = s.tenantRecs := rfl
@[simp] theorem releaseResv_gyles (s : State) (c : Nat) : (releaseResv s c).gyles = s.gyles := rfl
@[simp] theorem releaseResv_tuns (s : State) (c : Nat) : (releaseResv s c).tuns = s.tuns := rfl
@[simp] theorem releaseResv_heldGroups (s : State) (c : Nat) : (releaseResv s c).heldGroups = s.heldGroups := rfl
@[simp] theorem releaseResv_orphans (s : State) (c : Nat) : (releaseResv s c).orphans = s.orphans := rfl
@[simp] theorem releaseResv_nextHold (s : State) (c : Nat) : (releaseResv s c).nextHold = s.nextHold := rfl
@[simp] theorem releaseResv_sortRows (s : State) (c : Nat) : (releaseResv s c).sortRows = s.sortRows := rfl
@[simp] theorem releaseResv_ports (s : State) (c : Nat) : (releaseResv s c).ports = s.ports := rfl
@[simp] theorem releaseResv_spillUsed (s : State) (c : Nat) : (releaseResv s c).spillUsed = s.spillUsed := rfl
@[simp] theorem releaseResv_cellar (s : State) (c : Nat) : (releaseResv s c).cellar = s.cellar := rfl
@[simp] theorem releaseResv_tiers (s : State) (c : Nat) : (releaseResv s c).tiers = s.tiers := rfl
@[simp] theorem releaseResv_train (s : State) (c : Nat) : (releaseResv s c).train = s.train := rfl
@[simp] theorem releaseResv_homes (s : State) (c : Nat) : (releaseResv s c).homes = s.homes := rfl
@[simp] theorem releaseResv_kiln (s : State) (c : Nat) : (releaseResv s c).kiln = s.kiln := rfl
@[simp] theorem releaseResv_integrity (s : State) (c : Nat) : (releaseResv s c).integrity = s.integrity := rfl
@[simp] theorem releaseResv_repair (s : State) (c : Nat) : (releaseResv s c).repair = s.repair := rfl
@[simp] theorem releaseResv_pace (s : State) (c : Nat) : (releaseResv s c).pace = s.pace := rfl
@[simp] theorem releaseResv_keys (s : State) (c : Nat) : (releaseResv s c).keys = s.keys := rfl
@[simp] theorem releaseResv_boundary (s : State) (c : Nat) : (releaseResv s c).boundary = s.boundary := rfl
@[simp] theorem releaseResv_fuses (s : State) (c : Nat) : (releaseResv s c).fuses = s.fuses := rfl
@[simp] theorem releaseResv_glob (s : State) (c : Nat) : (releaseResv s c).glob = s.glob := rfl
@[simp] theorem releaseResv_outs (s : State) (c : Nat) : (releaseResv s c).outs = s.outs := rfl
@[simp] theorem releaseResv_freeCtr (s : State) (c : Nat) : (releaseResv s c).freeCtr = s.freeCtr := rfl
@[simp] theorem releaseResv_pending (s : State) (c : Nat) : (releaseResv s c).pending = s.pending := rfl

/-! ### What they write -/

@[simp] theorem setCtx_ctx_self (s : State) (c : Nat) (x : Ctx) : (setCtx s c x).ctx c = x := by simp [State.ctx, setCtx]

theorem setCtx_ctx_ne (s : State) {c d : Nat} (x : Ctx) (h : d ≠ c) : (setCtx s c x).ctx d = s.ctx d := tget_tset_ne _ _ _ h

@[simp] theorem modCtx_ctx_self (s : State) (c : Nat) (f : Ctx → Ctx) : (modCtx s c f).ctx c = f (s.ctx c) := by simp [modCtx]

theorem modCtx_ctx_ne (s : State) {c d : Nat} (f : Ctx → Ctx) (h : d ≠ c) : (modCtx s c f).ctx d = s.ctx d := setCtx_ctx_ne s _ h

@[simp] theorem setTun_tun_self (s : State) (t : Nat) (x : Tun) : (setTun s t x).tun t = x := by simp [State.tun, setTun]

theorem setTun_tun_ne (s : State) {t u : Nat} (x : Tun) (h : u ≠ t) : (setTun s t x).tun u = s.tun u := tget_tset_ne _ _ _ h

@[simp] theorem modTun_tun_self (s : State) (t : Nat) (f : Tun → Tun) : (modTun s t f).tun t = f (s.tun t) := by simp [modTun]

theorem modTun_tun_ne (s : State) {t u : Nat} (f : Tun → Tun) (h : u ≠ t) : (modTun s t f).tun u = s.tun u := setTun_tun_ne s _ h

@[simp] theorem modPort_port_self (s : State) (p : Nat) (f : Port → Port) : (modPort s p f).port p = f (s.port p) := by
  simp [State.port, modPort]

theorem modPort_port_ne (s : State) {p q : Nat} (f : Port → Port) (h : q ≠ p) : (modPort s p f).port q = s.port q :=
  tget_tmod_ne _ _ _ h

@[simp] theorem modCask_cask_self (s : State) (i : Nat) (f : Cask → Cask) : (modCask s i f).cask i = f (s.cask i) := by
  simp [State.cask, modCask]

theorem modCask_cask_ne (s : State) {i j : Nat} (f : Cask → Cask) (h : j ≠ i) : (modCask s i f).cask j = s.cask j :=
  tget_tmod_ne _ _ _ h

theorem find_putGyle_self (l : List Gyle) (g : Gyle) : (putGyle l g).find? (fun x => x.key = g.key) = some g := by
  induction l with
  | nil => simp [putGyle]
  | cons h t ih => by_cases hk : h.key = g.key <;> simp [putGyle, hk, ih]

theorem find_putGyle_ne (l : List Gyle) (g : Gyle) (k : GyleKey) (h : k ≠ g.key) :
    (putGyle l g).find? (fun x => x.key = k) = l.find? (fun x => x.key = k) := by
  induction l with
  | nil => simp [putGyle, h.symm]
  | cons x t ih =>
    by_cases hk : x.key = g.key
    · have hx : ¬ x.key = k := fun e => h (e.symm.trans hk)
      simp [putGyle, hk, h.symm]
    · rw [putGyle, if_neg hk]; by_cases hx : x.key = k <;> simp [hx, ih]

@[simp] theorem setGyle_gyle_self (s : State) (g : Gyle) : (setGyle s g).gyle g.key = some g := find_putGyle_self ..

theorem setGyle_gyle_ne (s : State) (g : Gyle) {k : GyleKey} (h : k ≠ g.key) : (setGyle s g).gyle k = s.gyle k :=
  find_putGyle_ne _ _ _ h

/-- A gyle that is found bears the name that it is looked up by. -/
theorem gyle_key {s : State} {k : GyleKey} {g : Gyle} (h : s.gyle k = some g) : g.key = k := by
  have := List.find?_some h
  simpa using this

theorem modGyle_gyle_self {s : State} {k : GyleKey} {g : Gyle} (f : Gyle → Gyle) (h : s.gyle k = some g) :
    (modGyle s k f).gyle k = some { f g with key := k } := by
  have hk := gyle_key h
  subst hk
  simp only [modGyle, h]
  exact setGyle_gyle_self s { f g with key := g.key }

theorem modGyle_gyle_ne (s : State) {k j : GyleKey} (f : Gyle → Gyle) (h : j ≠ k) : (modGyle s k f).gyle j = s.gyle j := by
  unfold modGyle
  split
  · rename_i g hg
    have hk := gyle_key hg
    exact setGyle_gyle_ne s _ (by simpa [hk] using h)
  · rfl

theorem dropGyle_gyle_self (s : State) (k : GyleKey) : (dropGyle s k).gyle k = none := by
  simp [State.gyle, dropGyle]

/-! ### modGyle -/

@[simp] theorem modGyle_gauger (s : State) (k : GyleKey) (f : Gyle → Gyle) : (modGyle s k f).gauger = s.gauger := by
  unfold modGyle; split <;> rfl
@[simp] theorem modGyle_log (s : State) (k : GyleKey) (f : Gyle → Gyle) : (modGyle s k f).log = s.log := by
  unfold modGyle; split <;> rfl
@[simp] theorem modGyle_pages (s : State) (k : GyleKey) (f : Gyle → Gyle) : (modGyle s k f).pages = s.pages := by
  unfold modGyle; split <;> rfl
@[simp] theorem modGyle_regs (s : State) (k : GyleKey) (f : Gyle → Gyle) : (modGyle s k f).regs = s.regs := by
  unfold modGyle; split <;> rfl
@[simp] theorem modGyle_ctxs (s : State) (k : GyleKey) (f : Gyle → Gyle) : (modGyle s k f).ctxs = s.ctxs := by
  unfold modGyle; split <;> rfl
@[simp] theorem modGyle_planInForce (s : State) (k : GyleKey) (f : Gyle → Gyle) : (modGyle s k f).planInForce = s.planInForce := by
  unfold modGyle; split <;> rfl
@[simp] theorem modGyle_planStaged (s : State) (k : GyleKey) (f : Gyle → Gyle) : (modGyle s k f).planStaged = s.planStaged := by
  unfold modGyle; split <;> rfl
@[simp] theorem modGyle_cat (s : State) (k : GyleKey) (f : Gyle → Gyle) : (modGyle s k f).cat = s.cat := by
  unfold modGyle; split <;> rfl
@[simp] theorem modGyle_catStaged (s : State) (k : GyleKey) (f : Gyle → Gyle) : (modGyle s k f).catStaged = s.catStaged := by
  unfold modGyle; split <;> rfl
@[simp] theorem modGyle_staging (s : State) (k : GyleKey) (f : Gyle → Gyle) : (modGyle s k f).staging = s.staging := by
  unfold modGyle; split <;> rfl
@[simp] theorem modGyle_catRetiring (s : State) (k : GyleKey) (f : Gyle → Gyle) : (modGyle s k f).catRetiring = s.catRetiring := by
  unfold modGyle; split <;> rfl
@[simp] theorem modGyle_dir (s : State) (k : GyleKey) (f : Gyle → Gyle) : (modGyle s k f).dir = s.dir := by
  unfold modGyle; split <;> rfl
@[simp] theorem modGyle_dirStaged (s : State) (k : GyleKey) (f : Gyle → Gyle) : (modGyle s k f).dirStaged = s.dirStaged := by
  unfold modGyle; split <;> rfl
@[simp] theorem modGyle_dirOld (s : State) (k : GyleKey) (f : Gyle → Gyle) : (modGyle s k f).dirOld = s.dirOld := by
  unfold modGyle; split <;> rfl
@[simp] theorem modGyle_handles (s : State) (k : GyleKey) (f : Gyle → Gyle) : (modGyle s k f).handles = s.handles := by
  unfold modGyle; split <;> rfl
@[simp] theorem modGyle_tenantRecs (s : State) (k : GyleKey) (f : Gyle → Gyle) : (modGyle s k f).tenantRecs = s.tenantRecs := by
  unfold modGyle; split <;> rfl
@[simp] theorem modGyle_tuns (s : State) (k : GyleKey) (f : Gyle → Gyle) : (modGyle s k f).tuns = s.tuns := by
  unfold modGyle; split <;> rfl
@[simp] theorem modGyle_heldGroups (s : State) (k : GyleKey) (f : Gyle → Gyle) : (modGyle s k f).heldGroups = s.heldGroups := by
  unfold modGyle; split <;> rfl
@[simp] theorem modGyle_orphans (s : State) (k : GyleKey) (f : Gyle → Gyle) : (modGyle s k f).orphans = s.orphans := by
  unfold modGyle; split <;> rfl
@[simp] theorem modGyle_nextHold (s : State) (k : GyleKey) (f : Gyle → Gyle) : (modGyle s k f).nextHold = s.nextHold := by
  unfold modGyle; split <;> rfl
@[simp] theorem modGyle_sortRows (s : State) (k : GyleKey) (f : Gyle → Gyle) : (modGyle s k f).sortRows = s.sortRows := by
  unfold modGyle; split <;> rfl
@[simp] theorem modGyle_ports (s : State) (k : GyleKey) (f : Gyle → Gyle) : (modGyle s k f).ports = s.ports := by
  unfold modGyle; split <;> rfl
@[simp] theorem modGyle_spillUsed (s : State) (k : GyleKey) (f : Gyle → Gyle) : (modGyle s k f).spillUsed = s.spillUsed := by
  unfold modGyle; split <;> rfl
@[simp] theorem modGyle_cellar (s : State) (k : GyleKey) (f : Gyle → Gyle) : (modGyle s k f).cellar = s.cellar := by
  unfold modGyle; split <;> rfl
@[simp] theorem modGyle_tiers (s : State) (k : GyleKey) (f : Gyle → Gyle) : (modGyle s k f).tiers = s.tiers := by
  unfold modGyle; split <;> rfl
@[simp] theorem modGyle_train (s : State) (k : GyleKey) (f : Gyle → Gyle) : (modGyle s k f).train = s.train := by
  unfold modGyle; split <;> rfl
@[simp] theorem modGyle_homes (s : State) (k : GyleKey) (f : Gyle → Gyle) : (modGyle s k f).homes = s.homes := by
  unfold modGyle; split <;> rfl
@[simp] theorem modGyle_kiln (s : State) (k : GyleKey) (f : Gyle → Gyle) : (modGyle s k f).kiln = s.kiln := by
  unfold modGyle; split <;> rfl
@[simp] theorem modGyle_integrity (s : State) (k : GyleKey) (f : Gyle → Gyle) : (modGyle s k f).integrity = s.integrity := by
  unfold modGyle; split <;> rfl
@[simp] theorem modGyle_repair (s : State) (k : GyleKey) (f : Gyle → Gyle) : (modGyle s k f).repair = s.repair := by
  unfold modGyle; split <;> rfl
@[simp] theorem modGyle_pace (s : State) (k : GyleKey) (f : Gyle → Gyle) : (modGyle s k f).pace = s.pace := by
  unfold modGyle; split <;> rfl
@[simp] theorem modGyle_keys (s : State) (k : GyleKey) (f : Gyle → Gyle) : (modGyle s k f).keys = s.keys := by
  unfold modGyle; split <;> rfl
@[simp] theorem modGyle_boundary (s : State) (k : GyleKey) (f : Gyle → Gyle) : (modGyle s k f).boundary = s.boundary := by
  unfold modGyle; split <;> rfl
@[simp] theorem modGyle_fuses (s : State) (k : GyleKey) (f : Gyle → Gyle) : (modGyle s k f).fuses = s.fuses := by
  unfold modGyle; split <;> rfl
@[simp] theorem modGyle_glob (s : State) (k : GyleKey) (f : Gyle → Gyle) : (modGyle s k f).glob = s.glob := by
  unfold modGyle; split <;> rfl
@[simp] theorem modGyle_outs (s : State) (k : GyleKey) (f : Gyle → Gyle) : (modGyle s k f).outs = s.outs := by
  unfold modGyle; split <;> rfl
@[simp] theorem modGyle_freeCtr (s : State) (k : GyleKey) (f : Gyle → Gyle) : (modGyle s k f).freeCtr = s.freeCtr := by
  unfold modGyle; split <;> rfl
@[simp] theorem modGyle_pending (s : State) (k : GyleKey) (f : Gyle → Gyle) : (modGyle s k f).pending = s.pending := by
  unfold modGyle; split <;> rfl

end Sys2Proof.Machine
end

