-- ==== Sys2Proof/Laws/Ops.lean ====
section
/-! SUPPORT. What each shared operation of Machine/Ops.lean can change: one lemma a field that it leaves alone, so that no proof
unfolds it; and what the gauger's stamp, a raised class, a log book record, a transfer and a completion record write. -/
namespace Sys2Proof.Machine

theorem foldl_field {α β : Type} (p : State → β) (g : State → α → State) (h : ∀ s x, p (g s x) = p s) (l : List α) (s : State) :
    p (l.foldl g s) = p s := by
  induction l generalizing s with
  | nil => rfl
  | cons x l ih => rw [List.foldl_cons, ih, h]

/-! ### raiseAt -/

@[simp] theorem raiseAt_gauger (s : State) (p c : Nat) (q : Seq) : (raiseAt s p c q).gauger = s.gauger := rfl
@[simp] theorem raiseAt_log (s : State) (p c : Nat) (q : Seq) : (raiseAt s p c q).log = s.log := rfl
@[simp] theorem raiseAt_regs (s : State) (p c : Nat) (q : Seq) : (raiseAt s p c q).regs = s.regs := rfl
@[simp] theorem raiseAt_ctxs (s : State) (p c : Nat) (q : Seq) : (raiseAt s p c q).ctxs = s.ctxs := rfl
@[simp] theorem raiseAt_planInForce (s : State) (p c : Nat) (q : Seq) : (raiseAt s p c q).planInForce = s.planInForce := rfl
@[simp] theorem raiseAt_planStaged (s : State) (p c : Nat) (q : Seq) : (raiseAt s p c q).planStaged = s.planStaged := rfl
@[simp] theorem raiseAt_cat (s : State) (p c : Nat) (q : Seq) : (raiseAt s p c q).cat = s.cat := rfl
@[simp] theorem raiseAt_catStaged (s : State) (p c : Nat) (q : Seq) : (raiseAt s p c q).catStaged = s.catStaged := rfl
@[simp] theorem raiseAt_staging (s : State) (p c : Nat) (q : Seq) : (raiseAt s p c q).staging = s.staging := rfl
@[simp] theorem raiseAt_catRetiring (s : State) (p c : Nat) (q : Seq) : (raiseAt s p c q).catRetiring = s.catRetiring := rfl
@[simp] theorem raiseAt_dir (s : State) (p c : Nat) (q : Seq) : (raiseAt s p c q).dir = s.dir := rfl
@[simp] theorem raiseAt_dirStaged (s : State) (p c : Nat) (q : Seq) : (raiseAt s p c q).dirStaged = s.dirStaged := rfl
@[simp] theorem raiseAt_dirOld (s : State) (p c : Nat) (q : Seq) : (raiseAt s p c q).dirOld = s.dirOld := rfl
@[simp] theorem raiseAt_handles (s : State) (p c : Nat) (q : Seq) : (raiseAt s p c q).handles = s.handles := rfl
@[simp] theorem raiseAt_tenantRecs (s : State) (p c : Nat) (q : Seq) : (raiseAt s p c q).tenantRecs = s.tenantRecs := rfl
@[simp] theorem raiseAt_gyles (s : State) (p c : Nat) (q : Seq) : (raiseAt s p c q).gyles = s.gyles := rfl
@[simp] theorem raiseAt_tuns (s : State) (p c : Nat) (q : Seq) : (raiseAt s p c q).tuns = s.tuns := rfl
@[simp] theorem raiseAt_heldGroups (s : State) (p c : Nat) (q : Seq) : (raiseAt s p c q).heldGroups = s.heldGroups := rfl
@[simp] theorem raiseAt_orphans (s : State) (p c : Nat) (q : Seq) : (raiseAt s p c q).orphans = s.orphans := rfl
@[simp] theorem raiseAt_nextHold (s : State) (p c : Nat) (q : Seq) : (raiseAt s p c q).nextHold = s.nextHold := rfl
@[simp] theorem raiseAt_sortRows (s : State) (p c : Nat) (q : Seq) : (raiseAt s p c q).sortRows = s.sortRows := rfl
@[simp] theorem raiseAt_ports (s : State) (p c : Nat) (q : Seq) : (raiseAt s p c q).ports = s.ports := rfl
@[simp] theorem raiseAt_spillUsed (s : State) (p c : Nat) (q : Seq) : (raiseAt s p c q).spillUsed = s.spillUsed := rfl
@[simp] theorem raiseAt_cellar (s : State) (p c : Nat) (q : Seq) : (raiseAt s p c q).cellar = s.cellar := rfl
@[simp] theorem raiseAt_tiers (s : State) (p c : Nat) (q : Seq) : (raiseAt s p c q).tiers = s.tiers := rfl
@[simp] theorem raiseAt_train (s : State) (p c : Nat) (q : Seq) : (raiseAt s p c q).train = s.train := rfl
@[simp] theorem raiseAt_homes (s : State) (p c : Nat) (q : Seq) : (raiseAt s p c q).homes = s.homes := rfl
@[simp] theorem raiseAt_kiln (s : State) (p c : Nat) (q : Seq) : (raiseAt s p c q).kiln = s.kiln := rfl
@[simp] theorem raiseAt_integrity (s : State) (p c : Nat) (q : Seq) : (raiseAt s p c q).integrity = s.integrity := rfl
@[simp] theorem raiseAt_repair (s : State) (p c : Nat) (q : Seq) : (raiseAt s p c q).repair = s.repair := rfl
@[simp] theorem raiseAt_pace (s : State) (p c : Nat) (q : Seq) : (raiseAt s p c q).pace = s.pace := rfl
@[simp] theorem raiseAt_keys (s : State) (p c : Nat) (q : Seq) : (raiseAt s p c q).keys = s.keys := rfl
@[simp] theorem raiseAt_boundary (s : State) (p c : Nat) (q : Seq) : (raiseAt s p c q).boundary = s.boundary := rfl
@[simp] theorem raiseAt_fuses (s : State) (p c : Nat) (q : Seq) : (raiseAt s p c q).fuses = s.fuses := rfl
@[simp] theorem raiseAt_glob (s : State) (p c : Nat) (q : Seq) : (raiseAt s p c q).glob = s.glob := rfl
@[simp] theorem raiseAt_outs (s : State) (p c : Nat) (q : Seq) : (raiseAt s p c q).outs = s.outs := rfl
@[simp] theorem raiseAt_freeCtr (s : State) (p c : Nat) (q : Seq) : (raiseAt s p c q).freeCtr = s.freeCtr := rfl
@[simp] theorem raiseAt_pending (s : State) (p c : Nat) (q : Seq) : (raiseAt s p c q).pending = s.pending := rfl

/-! ### raise -/

@[simp] theorem raise_gauger (s : State) (p c : Nat) : (raise s p c).gauger = s.gauger := rfl
@[simp] theorem raise_log (s : State) (p c : Nat) : (raise s p c).log = s.log := rfl
@[simp] theorem raise_regs (s : State) (p c : Nat) : (raise s p c).regs = s.regs := rfl
@[simp] theorem raise_ctxs (s : State) (p c : Nat) : (raise s p c).ctxs = s.ctxs := rfl
@[simp] theorem raise_planInForce (s : State) (p c : Nat) : (raise s p c).planInForce = s.planInForce := rfl
@[simp] theorem raise_planStaged (s : State) (p c : Nat) : (raise s p c).planStaged = s.planStaged := rfl
@[simp] theorem raise_cat (s : State) (p c : Nat) : (raise s p c).cat = s.cat := rfl
@[simp] theorem raise_catStaged (s : State) (p c : Nat) : (raise s p c).catStaged = s.catStaged := rfl
@[simp] theorem raise_staging (s : State) (p c : Nat) : (raise s p c).staging = s.staging := rfl
@[simp] theorem raise_catRetiring (s : State) (p c : Nat) : (raise s p c).catRetiring = s.catRetiring := rfl
@[simp] theorem raise_dir (s : State) (p c : Nat) : (raise s p c).dir = s.dir := rfl
@[simp] theorem raise_dirStaged (s : State) (p c : Nat) : (raise s p c).dirStaged = s.dirStaged := rfl
@[simp] theorem raise_dirOld (s : State) (p c : Nat) : (raise s p c).dirOld = s.dirOld := rfl
@[simp] theorem raise_handles (s : State) (p c : Nat) : (raise s p c).handles = s.handles := rfl
@[simp] theorem raise_tenantRecs (s : State) (p c : Nat) : (raise s p c).tenantRecs = s.tenantRecs := rfl
@[simp] theorem raise_gyles (s : State) (p c : Nat) : (raise s p c).gyles = s.gyles := rfl
@[simp] theorem raise_tuns (s : State) (p c : Nat) : (raise s p c).tuns = s.tuns := rfl
@[simp] theorem raise_heldGroups (s : State) (p c : Nat) : (raise s p c).heldGroups = s.heldGroups := rfl
@[simp] theorem raise_orphans (s : State) (p c : Nat) : (raise s p c).orphans = s.orphans := rfl
@[simp] theorem raise_nextHold (s : State) (p c : Nat) : (raise s p c).nextHold = s.nextHold := rfl
@[simp] theorem raise_sortRows (s : State) (p c : Nat) : (raise s p c).sortRows = s.sortRows := rfl
@[simp] theorem raise_ports (s : State) (p c : Nat) : (raise s p c).ports = s.ports := rfl
@[simp] theorem raise_spillUsed (s : State) (p c : Nat) : (raise s p c).spillUsed = s.spillUsed := rfl
@[simp] theorem raise_cellar (s : State) (p c : Nat) : (raise s p c).cellar = s.cellar := rfl
@[simp] theorem raise_tiers (s : State) (p c : Nat) : (raise s p c).tiers = s.tiers := rfl
@[simp] theorem raise_train (s : State) (p c : Nat) : (raise s p c).train = s.train := rfl
@[simp] theorem raise_homes (s : State) (p c : Nat) : (raise s p c).homes = s.homes := rfl
@[simp] theorem raise_kiln (s : State) (p c : Nat) : (raise s p c).kiln = s.kiln := rfl
@[simp] theorem raise_integrity (s : State) (p c : Nat) : (raise s p c).integrity = s.integrity := rfl
@[simp] theorem raise_repair (s : State) (p c : Nat) : (raise s p c).repair = s.repair := rfl
@[simp] theorem raise_pace (s : State) (p c : Nat) : (raise s p c).pace = s.pace := rfl
@[simp] theorem raise_keys (s : State) (p c : Nat) : (raise s p c).keys = s.keys := rfl
@[simp] theorem raise_boundary (s : State) (p c : Nat) : (raise s p c).boundary = s.boundary := rfl
@[simp] theorem raise_fuses (s : State) (p c : Nat) : (raise s p c).fuses = s.fuses := rfl
@[simp] theorem raise_glob (s : State) (p c : Nat) : (raise s p c).glob = s.glob := rfl
@[simp] theorem raise_outs (s : State) (p c : Nat) : (raise s p c).outs = s.outs := rfl
@[simp] theorem raise_freeCtr (s : State) (p c : Nat) : (raise s p c).freeCtr = s.freeCtr := rfl
@[simp] theorem raise_pending (s : State) (p c : Nat) : (raise s p c).pending = s.pending := rfl

/-! ### logAt -/

@[simp] theorem logAt_gauger (s : State) (q : Seq) (p c : Nat) (t u : Option Nat) (i : Seq) (b : List Byte) : (logAt s q p c t u i b).gauger = s.gauger := by
  unfold logAt; dsimp only; split <;> rfl
@[simp] theorem logAt_regs (s : State) (q : Seq) (p c : Nat) (t u : Option Nat) (i : Seq) (b : List Byte) : (logAt s q p c t u i b).regs = s.regs := by
  unfold logAt; dsimp only; split <;> rfl
@[simp] theorem logAt_ctxs (s : State) (q : Seq) (p c : Nat) (t u : Option Nat) (i : Seq) (b : List Byte) : (logAt s q p c t u i b).ctxs = s.ctxs := by
  unfold logAt; dsimp only; split <;> rfl
@[simp] theorem logAt_planInForce (s : State) (q : Seq) (p c : Nat) (t u : Option Nat) (i : Seq) (b : List Byte) : (logAt s q p c t u i b).planInForce = s.planInForce := by
  unfold logAt; dsimp only; split <;> rfl
@[simp] theorem logAt_planStaged (s : State) (q : Seq) (p c : Nat) (t u : Option Nat) (i : Seq) (b : List Byte) : (logAt s q p c t u i b).planStaged = s.planStaged := by
  unfold logAt; dsimp only; split <;> rfl
@[simp] theorem logAt_cat (s : State) (q : Seq) (p c : Nat) (t u : Option Nat) (i : Seq) (b : List Byte) : (logAt s q p c t u i b).cat = s.cat := by
  unfold logAt; dsimp only; split <;> rfl
@[simp] theorem logAt_catStaged (s : State) (q : Seq) (p c : Nat) (t u : Option Nat) (i : Seq) (b : List Byte) : (logAt s q p c t u i b).catStaged = s.catStaged := by
  unfold logAt; dsimp only; split <;> rfl
@[simp] theorem logAt_staging (s : State) (q : Seq) (p c : Nat) (t u : Option Nat) (i : Seq) (b : List Byte) : (logAt s q p c t u i b).staging = s.staging := by
  unfold logAt; dsimp only; split <;> rfl
@[simp] theorem logAt_catRetiring (s : State) (q : Seq) (p c : Nat) (t u : Option Nat) (i : Seq) (b : List Byte) : (logAt s q p c t u i b).catRetiring = s.catRetiring := by
  unfold logAt; dsimp only; split <;> rfl
@[simp] theorem logAt_dir (s : State) (q : Seq) (p c : Nat) (t u : Option Nat) (i : Seq) (b : List Byte) : (logAt s q p c t u i b).dir = s.dir := by
  unfold logAt; dsimp only; split <;> rfl
@[simp] theorem logAt_dirStaged (s : State) (q : Seq) (p c : Nat) (t u : Option Nat) (i : Seq) (b : List Byte) : (logAt s q p c t u i b).dirStaged = s.dirStaged := by
  unfold logAt; dsimp only; split <;> rfl
@[simp] theorem logAt_dirOld (s : State) (q : Seq) (p c : Nat) (t u : Option Nat) (i : Seq) (b : List Byte) : (logAt s q p c t u i b).dirOld = s.dirOld := by
  unfold logAt; dsimp only; split <;> rfl
@[simp] theorem logAt_handles (s : State) (q : Seq) (p c : Nat) (t u : Option Nat) (i : Seq) (b : List Byte) : (logAt s q p c t u i b).handles = s.handles := by
  unfold logAt; dsimp only; split <;> rfl
@[simp] theorem logAt_tenantRecs (s : State) (q : Seq) (p c : Nat) (t u : Option Nat) (i : Seq) (b : List Byte) : (logAt s q p c t u i b).tenantRecs = s.tenantRecs := by
  unfold logAt; dsimp only; split <;> rfl
@[simp] theorem logAt_gyles (s : State) (q : Seq) (p c : Nat) (t u : Option Nat) (i : Seq) (b : List Byte) : (logAt s q p c t u i b).gyles = s.gyles := by
  unfold logAt; dsimp only; split <;> rfl
@[simp] theorem logAt_tuns (s : State) (q : Seq) (p c : Nat) (t u : Option Nat) (i : Seq) (b : List Byte) : (logAt s q p c t u i b).tuns = s.tuns := by
  unfold logAt; dsimp only; split <;> rfl
@[simp] theorem logAt_heldGroups (s : State) (q : Seq) (p c : Nat) (t u : Option Nat) (i : Seq) (b : List Byte) : (logAt s q p c t u i b).heldGroups = s.heldGroups := by
  unfold logAt; dsimp only; split <;> rfl
@[simp] theorem logAt_orphans (s : State) (q : Seq) (p c : Nat) (t u : Option Nat) (i : Seq) (b : List Byte) : (logAt s q p c t u i b).orphans = s.orphans := by
  unfold logAt; dsimp only; split <;> rfl
@[simp] theorem logAt_nextHold (s : State) (q : Seq) (p c : Nat) (t u : Option Nat) (i : Seq) (b : List Byte) : (logAt s q p c t u i b).nextHold = s.nextHold := by
  unfold logAt; dsimp only; split <;> rfl
@[simp] theorem logAt_sortRows (s : State) (q : Seq) (p c : Nat) (t u : Option Nat) (i : Seq) (b : List Byte) : (logAt s q p c t u i b).sortRows = s.sortRows := by
  unfold logAt; dsimp only; split <;> rfl
@[simp] theorem logAt_ports (s : State) (q : Seq) (p c : Nat) (t u : Option Nat) (i : Seq) (b : List Byte) : (logAt s q p c t u i b).ports = s.ports := by
  unfold logAt; dsimp only; split <;> rfl
@[simp] theorem logAt_spillUsed (s : State) (q : Seq) (p c : Nat) (t u : Option Nat) (i : Seq) (b : List Byte) : (logAt s q p c t u i b).spillUsed = s.spillUsed := by
  unfold logAt; dsimp only; split <;> rfl
@[simp] theorem logAt_cellar (s : State) (q : Seq) (p c : Nat) (t u : Option Nat) (i : Seq) (b : List Byte) : (logAt s q p c t u i b).cellar = s.cellar := by
  unfold logAt; dsimp only; split <;> rfl
@[simp] theorem logAt_tiers (s : State) (q : Seq) (p c : Nat) (t u : Option Nat) (i : Seq) (b : List Byte) : (logAt s q p c t u i b).tiers = s.tiers := by
  unfold logAt; dsimp only; split <;> rfl
@[simp] theorem logAt_train (s : State) (q : Seq) (p c : Nat) (t u : Option Nat) (i : Seq) (b : List Byte) : (logAt s q p c t u i b).train = s.train := by
  unfold logAt; dsimp only; split <;> rfl
@[simp] theorem logAt_homes (s : State) (q : Seq) (p c : Nat) (t u : Option Nat) (i : Seq) (b : List Byte) : (logAt s q p c t u i b).homes = s.homes := by
  unfold logAt; dsimp only; split <;> rfl
@[simp] theorem logAt_kiln (s : State) (q : Seq) (p c : Nat) (t u : Option Nat) (i : Seq) (b : List Byte) : (logAt s q p c t u i b).kiln = s.kiln := by
  unfold logAt; dsimp only; split <;> rfl
@[simp] theorem logAt_integrity (s : State) (q : Seq) (p c : Nat) (t u : Option Nat) (i : Seq) (b : List Byte) : (logAt s q p c t u i b).integrity = s.integrity := by
  unfold logAt; dsimp only; split <;> rfl
@[simp] theorem logAt_repair (s : State) (q : Seq) (p c : Nat) (t u : Option Nat) (i : Seq) (b : List Byte) : (logAt s q p c t u i b).repair = s.repair := by
  unfold logAt; dsimp only; split <;> rfl
@[simp] theorem logAt_pace (s : State) (q : Seq) (p c : Nat) (t u : Option Nat) (i : Seq) (b : List Byte) : (logAt s q p c t u i b).pace = s.pace := by
  unfold logAt; dsimp only; split <;> rfl
@[simp] theorem logAt_keys (s : State) (q : Seq) (p c : Nat) (t u : Option Nat) (i : Seq) (b : List Byte) : (logAt s q p c t u i b).keys = s.keys := by
  unfold logAt; dsimp only; split <;> rfl
@[simp] theorem logAt_boundary (s : State) (q : Seq) (p c : Nat) (t u : Option Nat) (i : Seq) (b : List Byte) : (logAt s q p c t u i b).boundary = s.boundary := by
  unfold logAt; dsimp only; split <;> rfl
@[simp] theorem logAt_fuses (s : State) (q : Seq) (p c : Nat) (t u : Option Nat) (i : Seq) (b : List Byte) : (logAt s q p c t u i b).fuses = s.fuses := by
  unfold logAt; dsimp only; split <;> rfl
@[simp] theorem logAt_glob (s : State) (q : Seq) (p c : Nat) (t u : Option Nat) (i : Seq) (b : List Byte) : (logAt s q p c t u i b).glob = s.glob := by
  unfold logAt; dsimp only; split <;> rfl
@[simp] theorem logAt_outs (s : State) (q : Seq) (p c : Nat) (t u : Option Nat) (i : Seq) (b : List Byte) : (logAt s q p c t u i b).outs = s.outs := by
  unfold logAt; dsimp only; split <;> rfl
@[simp] theorem logAt_freeCtr (s : State) (q : Seq) (p c : Nat) (t u : Option Nat) (i : Seq) (b : List Byte) : (logAt s q p c t u i b).freeCtr = s.freeCtr := by
  unfold logAt; dsimp only; split <;> rfl
@[simp] theorem logAt_pending (s : State) (q : Seq) (p c : Nat) (t u : Option Nat) (i : Seq) (b : List Byte) : (logAt s q p c t u i b).pending = s.pending := by
  unfold logAt; dsimp only; split <;> rfl

/-! ### reserveBlock -/

@[simp] theorem reserveBlock_regs (s : State) (b : Nat) : (reserveBlock s b).regs = s.regs := by
  unfold reserveBlock; dsimp only; split <;> rfl
@[simp] theorem reserveBlock_ctxs (s : State) (b : Nat) : (reserveBlock s b).ctxs = s.ctxs := by
  unfold reserveBlock; dsimp only; split <;> rfl
@[simp] theorem reserveBlock_planInForce (s : State) (b : Nat) : (reserveBlock s b).planInForce = s.planInForce := by
  unfold reserveBlock; dsimp only; split <;> rfl
@[simp] theorem reserveBlock_planStaged (s : State) (b : Nat) : (reserveBlock s b).planStaged = s.planStaged := by
  unfold reserveBlock; dsimp only; split <;> rfl
@[simp] theorem reserveBlock_cat (s : State) (b : Nat) : (reserveBlock s b).cat = s.cat := by
  unfold reserveBlock; dsimp only; split <;> rfl
@[simp] theorem reserveBlock_catStaged (s : State) (b : Nat) : (reserveBlock s b).catStaged = s.catStaged := by
  unfold reserveBlock; dsimp only; split <;> rfl
@[simp] theorem reserveBlock_staging (s : State) (b : Nat) : (reserveBlock s b).staging = s.staging := by
  unfold reserveBlock; dsimp only; split <;> rfl
@[simp] theorem reserveBlock_catRetiring (s : State) (b : Nat) : (reserveBlock s b).catRetiring = s.catRetiring := by
  unfold reserveBlock; dsimp only; split <;> rfl
@[simp] theorem reserveBlock_dir (s : State) (b : Nat) : (reserveBlock s b).dir = s.dir := by
  unfold reserveBlock; dsimp only; split <;> rfl
@[simp] theorem reserveBlock_dirStaged (s : State) (b : Nat) : (reserveBlock s b).dirStaged = s.dirStaged := by
  unfold reserveBlock; dsimp only; split <;> rfl
@[simp] theorem reserveBlock_dirOld (s : State) (b : Nat) : (reserveBlock s b).dirOld = s.dirOld := by
  unfold reserveBlock; dsimp only; split <;> rfl
@[simp] theorem reserveBlock_handles (s : State) (b : Nat) : (reserveBlock s b).handles = s.handles := by
  unfold reserveBlock; dsimp only; split <;> rfl
@[simp] theorem reserveBlock_tenantRecs (s : State) (b : Nat) : (reserveBlock s b).tenantRecs = s.tenantRecs := by
  unfold reserveBlock; dsimp only; split <;> rfl
@[simp] theorem reserveBlock_gyles (s : State) (b : Nat) : (reserveBlock s b).gyles = s.gyles := by
  unfold reserveBlock; dsimp only; split <;> rfl
@[simp] theorem reserveBlock_tuns (s : State) (b : Nat) : (reserveBlock s b).tuns = s.tuns := by
  unfold reserveBlock; dsimp only; split <;> rfl
@[simp] theorem reserveBlock_heldGroups (s : State) (b : Nat) : (reserveBlock s b).heldGroups = s.heldGroups := by
  unfold reserveBlock; dsimp only; split <;> rfl
@[simp] theorem reserveBlock_orphans (s : State) (b : Nat) : (reserveBlock s b).orphans = s.orphans := by
  unfold reserveBlock; dsimp only; split <;> rfl
@[simp] theorem reserveBlock_nextHold (s : State) (b : Nat) : (reserveBlock s b).nextHold = s.nextHold := by
  unfold reserveBlock; dsimp only; split <;> rfl
@[simp] theorem reserveBlock_sortRows (s : State) (b : Nat) : (reserveBlock s b).sortRows = s.sortRows := by
  unfold reserveBlock; dsimp only; split <;> rfl
@[simp] theorem reserveBlock_ports (s : State) (b : Nat) : (reserveBlock s b).ports = s.ports := by
  unfold reserveBlock; dsimp only; split <;> rfl
@[simp] theorem reserveBlock_spillUsed (s : State) (b : Nat) : (reserveBlock s b).spillUsed = s.spillUsed := by
  unfold reserveBlock; dsimp only; split <;> rfl
@[simp] theorem reserveBlock_cellar (s : State) (b : Nat) : (reserveBlock s b).cellar = s.cellar := by
  unfold reserveBlock; dsimp only; split <;> rfl
@[simp] theorem reserveBlock_tiers (s : State) (b : Nat) : (reserveBlock s b).tiers = s.tiers := by
  unfold reserveBlock; dsimp only; split <;> rfl
@[simp] theorem reserveBlock_train (s : State) (b : Nat) : (reserveBlock s b).train = s.train := by
  unfold reserveBlock; dsimp only; split <;> rfl
@[simp] theorem reserveBlock_homes (s : State) (b : Nat) : (reserveBlock s b).homes = s.homes := by
  unfold reserveBlock; dsimp only; split <;> rfl
@[simp] theorem reserveBlock_kiln (s : State) (b : Nat) : (reserveBlock s b).kiln = s.kiln := by
  unfold reserveBlock; dsimp only; split <;> rfl
@[simp] theorem reserveBlock_integrity (s : State) (b : Nat) : (reserveBlock s b).integrity = s.integrity := by
  unfold reserveBlock; dsimp only; split <;> rfl
@[simp] theorem reserveBlock_repair (s : State) (b : Nat) : (reserveBlock s b).repair = s.repair := by
  unfold reserveBlock; dsimp only; split <;> rfl
@[simp] theorem reserveBlock_pace (s : State) (b : Nat) : (reserveBlock s b).pace = s.pace := by
  unfold reserveBlock; dsimp only; split <;> rfl
@[simp] theorem reserveBlock_keys (s : State) (b : Nat) : (reserveBlock s b).keys = s.keys := by
  unfold reserveBlock; dsimp only; split <;> rfl
@[simp] theorem reserveBlock_boundary (s : State) (b : Nat) : (reserveBlock s b).boundary = s.boundary := by
  unfold reserveBlock; dsimp only; split <;> rfl
@[simp] theorem reserveBlock_fuses (s : State) (b : Nat) : (reserveBlock s b).fuses = s.fuses := by
  unfold reserveBlock; dsimp only; split <;> rfl
@[simp] theorem reserveBlock_glob (s : State) (b : Nat) : (reserveBlock s b).glob = s.glob := by
  unfold reserveBlock; dsimp only; split <;> rfl
@[simp] theorem reserveBlock_outs (s : State) (b : Nat) : (reserveBlock s b).outs = s.outs := by
  unfold reserveBlock; dsimp only; split <;> rfl
@[simp] theorem reserveBlock_freeCtr (s : State) (b : Nat) : (reserveBlock s b).freeCtr = s.freeCtr := by
  unfold reserveBlock; dsimp only; split <;> rfl
@[simp] theorem reserveBlock_pending (s : State) (b : Nat) : (reserveBlock s b).pending = s.pending := by
  unfold reserveBlock; dsimp only; split <;> rfl
@[simp] theorem reserveBlock_seq (s : State) (b : Nat) : (reserveBlock s b).gauger.seq = b * 2 ^ 32 := by
  unfold reserveBlock; dsimp only; split <;> rfl

/-! ### logNow -/

@[simp] theorem logNow_gauger (s : State) (p c : Nat) (t u : Option Nat) (i : Seq) (b : List Byte) : (logNow s p c t u i b).gauger = s.gauger := by
  simp [logNow]
@[simp] theorem logNow_regs (s : State) (p c : Nat) (t u : Option Nat) (i : Seq) (b : List Byte) : (logNow s p c t u i b).regs = s.regs := by
  simp [logNow]
@[simp] theorem logNow_ctxs (s : State) (p c : Nat) (t u : Option Nat) (i : Seq) (b : List Byte) : (logNow s p c t u i b).ctxs = s.ctxs := by
  simp [logNow]
@[simp] theorem logNow_planInForce (s : State) (p c : Nat) (t u : Option Nat) (i : Seq) (b : List Byte) : (logNow s p c t u i b).planInForce = s.planInForce := by
  simp [logNow]
@[simp] theorem logNow_planStaged (s : State) (p c : Nat) (t u : Option Nat) (i : Seq) (b : List Byte) : (logNow s p c t u i b).planStaged = s.planStaged := by
  simp [logNow]
@[simp] theorem logNow_cat (s : State) (p c : Nat) (t u : Option Nat) (i : Seq) (b : List Byte) : (logNow s p c t u i b).cat = s.cat := by
  simp [logNow]
@[simp] theorem logNow_catStaged (s : State) (p c : Nat) (t u : Option Nat) (i : Seq) (b : List Byte) : (logNow s p c t u i b).catStaged = s.catStaged := by
  simp [logNow]
@[simp] theorem logNow_staging (s : State) (p c : Nat) (t u : Option Nat) (i : Seq) (b : List Byte) : (logNow s p c t u i b).staging = s.staging := by
  simp [logNow]
@[simp] theorem logNow_catRetiring (s : State) (p c : Nat) (t u : Option Nat) (i : Seq) (b : List Byte) : (logNow s p c t u i b).catRetiring = s.catRetiring := by
  simp [logNow]
@[simp] theorem logNow_dir (s : State) (p c : Nat) (t u : Option Nat) (i : Seq) (b : List Byte) : (logNow s p c t u i b).dir = s.dir := by
  simp [logNow]
@[simp] theorem logNow_dirStaged (s : State) (p c : Nat) (t u : Option Nat) (i : Seq) (b : List Byte) : (logNow s p c t u i b).dirStaged = s.dirStaged := by
  simp [logNow]
@[simp] theorem logNow_dirOld (s : State) (p c : Nat) (t u : Option Nat) (i : Seq) (b : List Byte) : (logNow s p c t u i b).dirOld = s.dirOld := by
  simp [logNow]
@[simp] theorem logNow_handles (s : State) (p c : Nat) (t u : Option Nat) (i : Seq) (b : List Byte) : (logNow s p c t u i b).handles = s.handles := by
  simp [logNow]
@[simp] theorem logNow_tenantRecs (s : State) (p c : Nat) (t u : Option Nat) (i : Seq) (b : List Byte) : (logNow s p c t u i b).tenantRecs = s.tenantRecs := by
  simp [logNow]
@[simp] theorem logNow_gyles (s : State) (p c : Nat) (t u : Option Nat) (i : Seq) (b : List Byte) : (logNow s p c t u i b).gyles = s.gyles := by
  simp [logNow]
@[simp] theorem logNow_tuns (s : State) (p c : Nat) (t u : Option Nat) (i : Seq) (b : List Byte) : (logNow s p c t u i b).tuns = s.tuns := by
  simp [logNow]
@[simp] theorem logNow_heldGroups (s : State) (p c : Nat) (t u : Option Nat) (i : Seq) (b : List Byte) : (logNow s p c t u i b).heldGroups = s.heldGroups := by
  simp [logNow]
@[simp] theorem logNow_orphans (s : State) (p c : Nat) (t u : Option Nat) (i : Seq) (b : List Byte) : (logNow s p c t u i b).orphans = s.orphans := by
  simp [logNow]
@[simp] theorem logNow_nextHold (s : State) (p c : Nat) (t u : Option Nat) (i : Seq) (b : List Byte) : (logNow s p c t u i b).nextHold = s.nextHold := by
  simp [logNow]
@[simp] theorem logNow_sortRows (s : State) (p c : Nat) (t u : Option Nat) (i : Seq) (b : List Byte) : (logNow s p c t u i b).sortRows = s.sortRows := by
  simp [logNow]
@[simp] theorem logNow_ports (s : State) (p c : Nat) (t u : Option Nat) (i : Seq) (b : List Byte) : (logNow s p c t u i b).ports = s.ports := by
  simp [logNow]
@[simp] theorem logNow_spillUsed (s : State) (p c : Nat) (t u : Option Nat) (i : Seq) (b : List Byte) : (logNow s p c t u i b).spillUsed = s.spillUsed := by
  simp [logNow]
@[simp] theorem logNow_cellar (s : State) (p c : Nat) (t u : Option Nat) (i : Seq) (b : List Byte) : (logNow s p c t u i b).cellar = s.cellar := by
  simp [logNow]
@[simp] theorem logNow_tiers (s : State) (p c : Nat) (t u : Option Nat) (i : Seq) (b : List Byte) : (logNow s p c t u i b).tiers = s.tiers := by
  simp [logNow]
@[simp] theorem logNow_train (s : State) (p c : Nat) (t u : Option Nat) (i : Seq) (b : List Byte) : (logNow s p c t u i b).train = s.train := by
  simp [logNow]
@[simp] theorem logNow_homes (s : State) (p c : Nat) (t u : Option Nat) (i : Seq) (b : List Byte) : (logNow s p c t u i b).homes = s.homes := by
  simp [logNow]
@[simp] theorem logNow_kiln (s : State) (p c : Nat) (t u : Option Nat) (i : Seq) (b : List Byte) : (logNow s p c t u i b).kiln = s.kiln := by
  simp [logNow]
@[simp] theorem logNow_integrity (s : State) (p c : Nat) (t u : Option Nat) (i : Seq) (b : List Byte) : (logNow s p c t u i b).integrity = s.integrity := by
  simp [logNow]
@[simp] theorem logNow_repair (s : State) (p c : Nat) (t u : Option Nat) (i : Seq) (b : List Byte) : (logNow s p c t u i b).repair = s.repair := by
  simp [logNow]
@[simp] theorem logNow_pace (s : State) (p c : Nat) (t u : Option Nat) (i : Seq) (b : List Byte) : (logNow s p c t u i b).pace = s.pace := by
  simp [logNow]
@[simp] theorem logNow_keys (s : State) (p c : Nat) (t u : Option Nat) (i : Seq) (b : List Byte) : (logNow s p c t u i b).keys = s.keys := by
  simp [logNow]
@[simp] theorem logNow_boundary (s : State) (p c : Nat) (t u : Option Nat) (i : Seq) (b : List Byte) : (logNow s p c t u i b).boundary = s.boundary := by
  simp [logNow]
@[simp] theorem logNow_fuses (s : State) (p c : Nat) (t u : Option Nat) (i : Seq) (b : List Byte) : (logNow s p c t u i b).fuses = s.fuses := by
  simp [logNow]
@[simp] theorem logNow_glob (s : State) (p c : Nat) (t u : Option Nat) (i : Seq) (b : List Byte) : (logNow s p c t u i b).glob = s.glob := by
  simp [logNow]
@[simp] theorem logNow_outs (s : State) (p c : Nat) (t u : Option Nat) (i : Seq) (b : List Byte) : (logNow s p c t u i b).outs = s.outs := by
  simp [logNow]
@[simp] theorem logNow_freeCtr (s : State) (p c : Nat) (t u : Option Nat) (i : Seq) (b : List Byte) : (logNow s p c t u i b).freeCtr = s.freeCtr := by
  simp [logNow]
@[simp] theorem logNow_pending (s : State) (p c : Nat) (t u : Option Nat) (i : Seq) (b : List Byte) : (logNow s p c t u i b).pending = s.pending := by
  simp [logNow]

/-! ### stamp -/

@[simp] theorem stamp_regs (s : State) : (stamp s).regs = s.regs := by
  unfold stamp; dsimp only; split <;> simp
@[simp] theorem stamp_ctxs (s : State) : (stamp s).ctxs = s.ctxs := by
  unfold stamp; dsimp only; split <;> simp
@[simp] theorem stamp_planInForce (s : State) : (stamp s).planInForce = s.planInForce := by
  unfold stamp; dsimp only; split <;> simp
@[simp] theorem stamp_planStaged (s : State) : (stamp s).planStaged = s.planStaged := by
  unfold stamp; dsimp only; split <;> simp
@[simp] theorem stamp_cat (s : State) : (stamp s).cat = s.cat := by
  unfold stamp; dsimp only; split <;> simp
@[simp] theorem stamp_catStaged (s : State) : (stamp s).catStaged = s.catStaged := by
  unfold stamp; dsimp only; split <;> simp
@[simp] theorem stamp_staging (s : State) : (stamp s).staging = s.staging := by
  unfold stamp; dsimp only; split <;> simp
@[simp] theorem stamp_catRetiring (s : State) : (stamp s).catRetiring = s.catRetiring := by
  unfold stamp; dsimp only; split <;> simp
@[simp] theorem stamp_dir (s : State) : (stamp s).dir = s.dir := by
  unfold stamp; dsimp only; split <;> simp
@[simp] theorem stamp_dirStaged (s : State) : (stamp s).dirStaged = s.dirStaged := by
  unfold stamp; dsimp only; split <;> simp
@[simp] theorem stamp_dirOld (s : State) : (stamp s).dirOld = s.dirOld := by
  unfold stamp; dsimp only; split <;> simp
@[simp] theorem stamp_handles (s : State) : (stamp s).handles = s.handles := by
  unfold stamp; dsimp only; split <;> simp
@[simp] theorem stamp_tenantRecs (s : State) : (stamp s).tenantRecs = s.tenantRecs := by
  unfold stamp; dsimp only; split <;> simp
@[simp] theorem stamp_gyles (s : State) : (stamp s).gyles = s.gyles := by
  unfold stamp; dsimp only; split <;> simp
@[simp] theorem stamp_tuns (s : State) : (stamp s).tuns = s.tuns := by
  unfold stamp; dsimp only; split <;> simp
@[simp] theorem stamp_heldGroups (s : State) : (stamp s).heldGroups = s.heldGroups := by
  unfold stamp; dsimp only; split <;> simp
@[simp] theorem stamp_orphans (s : State) : (stamp s).orphans = s.orphans := by
  unfold stamp; dsimp only; split <;> simp
@[simp] theorem stamp_nextHold (s : State) : (stamp s).nextHold = s.nextHold := by
  unfold stamp; dsimp only; split <;> simp
@[simp] theorem stamp_sortRows (s : State) : (stamp s).sortRows = s.sortRows := by
  unfold stamp; dsimp only; split <;> simp
@[simp] theorem stamp_ports (s : State) : (stamp s).ports = s.ports := by
  unfold stamp; dsimp only; split <;> simp
@[simp] theorem stamp_spillUsed (s : State) : (stamp s).spillUsed = s.spillUsed := by
  unfold stamp; dsimp only; split <;> simp
@[simp] theorem stamp_cellar (s : State) : (stamp s).cellar = s.cellar := by
  unfold stamp; dsimp only; split <;> simp
@[simp] theorem stamp_tiers (s : State) : (stamp s).tiers = s.tiers := by
  unfold stamp; dsimp only; split <;> simp
@[simp] theorem stamp_train (s : State) : (stamp s).train = s.train := by
  unfold stamp; dsimp only; split <;> simp
@[simp] theorem stamp_homes (s : State) : (stamp s).homes = s.homes := by
  unfold stamp; dsimp only; split <;> simp
@[simp] theorem stamp_kiln (s : State) : (stamp s).kiln = s.kiln := by
  unfold stamp; dsimp only; split <;> simp
@[simp] theorem stamp_integrity (s : State) : (stamp s).integrity = s.integrity := by
  unfold stamp; dsimp only; split <;> simp
@[simp] theorem stamp_repair (s : State) : (stamp s).repair = s.repair := by
  unfold stamp; dsimp only; split <;> simp
@[simp] theorem stamp_pace (s : State) : (stamp s).pace = s.pace := by
  unfold stamp; dsimp only; split <;> simp
@[simp] theorem stamp_keys (s : State) : (stamp s).keys = s.keys := by
  unfold stamp; dsimp only; split <;> simp
@[simp] theorem stamp_boundary (s : State) : (stamp s).boundary = s.boundary := by
  unfold stamp; dsimp only; split <;> simp
@[simp] theorem stamp_fuses (s : State) : (stamp s).fuses = s.fuses := by
  unfold stamp; dsimp only; split <;> simp
@[simp] theorem stamp_glob (s : State) : (stamp s).glob = s.glob := by
  unfold stamp; dsimp only; split <;> simp
@[simp] theorem stamp_outs (s : State) : (stamp s).outs = s.outs := by
  unfold stamp; dsimp only; split <;> simp
@[simp] theorem stamp_freeCtr (s : State) : (stamp s).freeCtr = s.freeCtr := by
  unfold stamp; dsimp only; split <;> simp
@[simp] theorem stamp_pending (s : State) : (stamp s).pending = s.pending := by
  unfold stamp; dsimp only; split <;> simp

/-! ### stampRaise -/

@[simp] theorem stampRaise_regs (s : State) (p c : Nat) : (stampRaise s p c).regs = s.regs := by
  simp [stampRaise]
@[simp] theorem stampRaise_ctxs (s : State) (p c : Nat) : (stampRaise s p c).ctxs = s.ctxs := by
  simp [stampRaise]
@[simp] theorem stampRaise_planInForce (s : State) (p c : Nat) : (stampRaise s p c).planInForce = s.planInForce := by
  simp [stampRaise]
@[simp] theorem stampRaise_planStaged (s : State) (p c : Nat) : (stampRaise s p c).planStaged = s.planStaged := by
  simp [stampRaise]
@[simp] theorem stampRaise_cat (s : State) (p c : Nat) : (stampRaise s p c).cat = s.cat := by
  simp [stampRaise]
@[simp] theorem stampRaise_catStaged (s : State) (p c : Nat) : (stampRaise s p c).catStaged = s.catStaged := by
  simp [stampRaise]
@[simp] theorem stampRaise_staging (s : State) (p c : Nat) : (stampRaise s p c).staging = s.staging := by
  simp [stampRaise]
@[simp] theorem stampRaise_catRetiring (s : State) (p c : Nat) : (stampRaise s p c).catRetiring = s.catRetiring := by
  simp [stampRaise]
@[simp] theorem stampRaise_dir (s : State) (p c : Nat) : (stampRaise s p c).dir = s.dir := by
  simp [stampRaise]
@[simp] theorem stampRaise_dirStaged (s : State) (p c : Nat) : (stampRaise s p c).dirStaged = s.dirStaged := by
  simp [stampRaise]
@[simp] theorem stampRaise_dirOld (s : State) (p c : Nat) : (stampRaise s p c).dirOld = s.dirOld := by
  simp [stampRaise]
@[simp] theorem stampRaise_handles (s : State) (p c : Nat) : (stampRaise s p c).handles = s.handles := by
  simp [stampRaise]
@[simp] theorem stampRaise_tenantRecs (s : State) (p c : Nat) : (stampRaise s p c).tenantRecs = s.tenantRecs := by
  simp [stampRaise]
@[simp] theorem stampRaise_gyles (s : State) (p c : Nat) : (stampRaise s p c).gyles = s.gyles := by
  simp [stampRaise]
@[simp] theorem stampRaise_tuns (s : State) (p c : Nat) : (stampRaise s p c).tuns = s.tuns := by
  simp [stampRaise]
@[simp] theorem stampRaise_heldGroups (s : State) (p c : Nat) : (stampRaise s p c).heldGroups = s.heldGroups := by
  simp [stampRaise]
@[simp] theorem stampRaise_orphans (s : State) (p c : Nat) : (stampRaise s p c).orphans = s.orphans := by
  simp [stampRaise]
@[simp] theorem stampRaise_nextHold (s : State) (p c : Nat) : (stampRaise s p c).nextHold = s.nextHold := by
  simp [stampRaise]
@[simp] theorem stampRaise_sortRows (s : State) (p c : Nat) : (stampRaise s p c).sortRows = s.sortRows := by
  simp [stampRaise]
@[simp] theorem stampRaise_ports (s : State) (p c : Nat) : (stampRaise s p c).ports = s.ports := by
  simp [stampRaise]
@[simp] theorem stampRaise_spillUsed (s : State) (p c : Nat) : (stampRaise s p c).spillUsed = s.spillUsed := by
  simp [stampRaise]
@[simp] theorem stampRaise_cellar (s : State) (p c : Nat) : (stampRaise s p c).cellar = s.cellar := by
  simp [stampRaise]
@[simp] theorem stampRaise_tiers (s : State) (p c : Nat) : (stampRaise s p c).tiers = s.tiers := by
  simp [stampRaise]
@[simp] theorem stampRaise_train (s : State) (p c : Nat) : (stampRaise s p c).train = s.train := by
  simp [stampRaise]
@[simp] theorem stampRaise_homes (s : State) (p c : Nat) : (stampRaise s p c).homes = s.homes := by
  simp [stampRaise]
@[simp] theorem stampRaise_kiln (s : State) (p c : Nat) : (stampRaise s p c).kiln = s.kiln := by
  simp [stampRaise]
@[simp] theorem stampRaise_integrity (s : State) (p c : Nat) : (stampRaise s p c).integrity = s.integrity := by
  simp [stampRaise]
@[simp] theorem stampRaise_repair (s : State) (p c : Nat) : (stampRaise s p c).repair = s.repair := by
  simp [stampRaise]
@[simp] theorem stampRaise_pace (s : State) (p c : Nat) : (stampRaise s p c).pace = s.pace := by
  simp [stampRaise]
@[simp] theorem stampRaise_keys (s : State) (p c : Nat) : (stampRaise s p c).keys = s.keys := by
  simp [stampRaise]
@[simp] theorem stampRaise_boundary (s : State) (p c : Nat) : (stampRaise s p c).boundary = s.boundary := by
  simp [stampRaise]
@[simp] theorem stampRaise_fuses (s : State) (p c : Nat) : (stampRaise s p c).fuses = s.fuses := by
  simp [stampRaise]
@[simp] theorem stampRaise_glob (s : State) (p c : Nat) : (stampRaise s p c).glob = s.glob := by
  simp [stampRaise]
@[simp] theorem stampRaise_outs (s : State) (p c : Nat) : (stampRaise s p c).outs = s.outs := by
  simp [stampRaise]
@[simp] theorem stampRaise_freeCtr (s : State) (p c : Nat) : (stampRaise s p c).freeCtr = s.freeCtr := by
  simp [stampRaise]
@[simp] theorem stampRaise_pending (s : State) (p c : Nat) : (stampRaise s p c).pending = s.pending := by
  simp [stampRaise]

/-! ### refuseWrite -/

@[simp] theorem refuseWrite_gauger (s : State) (p o : Nat) (r : Role) (n : Nat) : (refuseWrite s p o r n).gauger = s.gauger := by
  unfold refuseWrite; dsimp only; repeat' split
  all_goals simp
@[simp] theorem refuseWrite_log (s : State) (p o : Nat) (r : Role) (n : Nat) : (refuseWrite s p o r n).log = s.log := by
  unfold refuseWrite; dsimp only; repeat' split
  all_goals simp
@[simp] theorem refuseWrite_regs (s : State) (p o : Nat) (r : Role) (n : Nat) : (refuseWrite s p o r n).regs = s.regs := by
  unfold refuseWrite; dsimp only; repeat' split
  all_goals simp
@[simp] theorem refuseWrite_ctxs (s : State) (p o : Nat) (r : Role) (n : Nat) : (refuseWrite s p o r n).ctxs = s.ctxs := by
  unfold refuseWrite; dsimp only; repeat' split
  all_goals simp
@[simp] theorem refuseWrite_planInForce (s : State) (p o : Nat) (r : Role) (n : Nat) : (refuseWrite s p o r n).planInForce = s.planInForce := by
  unfold refuseWrite; dsimp only; repeat' split
  all_goals simp
@[simp] theorem refuseWrite_planStaged (s : State) (p o : Nat) (r : Role) (n : Nat) : (refuseWrite s p o r n).planStaged = s.planStaged := by
  unfold refuseWrite; dsimp only; repeat' split
  all_goals simp
@[simp] theorem refuseWrite_cat (s : State) (p o : Nat) (r : Role) (n : Nat) : (refuseWrite s p o r n).cat = s.cat := by
  unfold refuseWrite; dsimp only; repeat' split
  all_goals simp
@[simp] theorem refuseWrite_catStaged (s : State) (p o : Nat) (r : Role) (n : Nat) : (refuseWrite s p o r n).catStaged = s.catStaged := by
  unfold refuseWrite; dsimp only; repeat' split
  all_goals simp
@[simp] theorem refuseWrite_staging (s : State) (p o : Nat) (r : Role) (n : Nat) : (refuseWrite s p o r n).staging = s.staging := by
  unfold refuseWrite; dsimp only; repeat' split
  all_goals simp
@[simp] theorem refuseWrite_catRetiring (s : State) (p o : Nat) (r : Role) (n : Nat) : (refuseWrite s p o r n).catRetiring = s.catRetiring := by
  unfold refuseWrite; dsimp only; repeat' split
  all_goals simp
@[simp] theorem refuseWrite_dir (s : State) (p o : Nat) (r : Role) (n : Nat) : (refuseWrite s p o r n).dir = s.dir := by
  unfold refuseWrite; dsimp only; repeat' split
  all_goals simp
@[simp] theorem refuseWrite_dirStaged (s : State) (p o : Nat) (r : Role) (n : Nat) : (refuseWrite s p o r n).dirStaged = s.dirStaged := by
  unfold refuseWrite; dsimp only; repeat' split
  all_goals simp
@[simp] theorem refuseWrite_dirOld (s : State) (p o : Nat) (r : Role) (n : Nat) : (refuseWrite s p o r n).dirOld = s.dirOld := by
  unfold refuseWrite; dsimp only; repeat' split
  all_goals simp
@[simp] theorem refuseWrite_handles (s : State) (p o : Nat) (r : Role) (n : Nat) : (refuseWrite s p o r n).handles = s.handles := by
  unfold refuseWrite; dsimp only; repeat' split
  all_goals simp
@[simp] theorem refuseWrite_tenantRecs (s : State) (p o : Nat) (r : Role) (n : Nat) : (refuseWrite s p o r n).tenantRecs = s.tenantRecs := by
  unfold refuseWrite; dsimp only; repeat' split
  all_goals simp
@[simp] theorem refuseWrite_gyles (s : State) (p o : Nat) (r : Role) (n : Nat) : (refuseWrite s p o r n).gyles = s.gyles := by
  unfold refuseWrite; dsimp only; repeat' split
  all_goals simp
@[simp] theorem refuseWrite_tuns (s : State) (p o : Nat) (r : Role) (n : Nat) : (refuseWrite s p o r n).tuns = s.tuns := by
  unfold refuseWrite; dsimp only; repeat' split
  all_goals simp
@[simp] theorem refuseWrite_heldGroups (s : State) (p o : Nat) (r : Role) (n : Nat) : (refuseWrite s p o r n).heldGroups = s.heldGroups := by
  unfold refuseWrite; dsimp only; repeat' split
  all_goals simp
@[simp] theorem refuseWrite_orphans (s : State) (p o : Nat) (r : Role) (n : Nat) : (refuseWrite s p o r n).orphans = s.orphans := by
  unfold refuseWrite; dsimp only; repeat' split
  all_goals simp
@[simp] theorem refuseWrite_nextHold (s : State) (p o : Nat) (r : Role) (n : Nat) : (refuseWrite s p o r n).nextHold = s.nextHold := by
  unfold refuseWrite; dsimp only; repeat' split
  all_goals simp
@[simp] theorem refuseWrite_sortRows (s : State) (p o : Nat) (r : Role) (n : Nat) : (refuseWrite s p o r n).sortRows = s.sortRows := by
  unfold refuseWrite; dsimp only; repeat' split
  all_goals simp
@[simp] theorem refuseWrite_ports (s : State) (p o : Nat) (r : Role) (n : Nat) : (refuseWrite s p o r n).ports = s.ports := by
  unfold refuseWrite; dsimp only; repeat' split
  all_goals simp
@[simp] theorem refuseWrite_spillUsed (s : State) (p o : Nat) (r : Role) (n : Nat) : (refuseWrite s p o r n).spillUsed = s.spillUsed := by
  unfold refuseWrite; dsimp only; repeat' split
  all_goals simp
@[simp] theorem refuseWrite_cellar (s : State) (p o : Nat) (r : Role) (n : Nat) : (refuseWrite s p o r n).cellar = s.cellar := by
  unfold refuseWrite; dsimp only; repeat' split
  all_goals simp
@[simp] theorem refuseWrite_tiers (s : State) (p o : Nat) (r : Role) (n : Nat) : (refuseWrite s p o r n).tiers = s.tiers := by
  unfold refuseWrite; dsimp only; repeat' split
  all_goals simp
@[simp] theorem refuseWrite_train (s : State) (p o : Nat) (r : Role) (n : Nat) : (refuseWrite s p o r n).train = s.train := by
  unfold refuseWrite; dsimp only; repeat' split
  all_goals simp
@[simp] theorem refuseWrite_homes (s : State) (p o : Nat) (r : Role) (n : Nat) : (refuseWrite s p o r n).homes = s.homes := by
  unfold refuseWrite; dsimp only; repeat' split
  all_goals simp
@[simp] theorem refuseWrite_kiln (s : State) (p o : Nat) (r : Role) (n : Nat) : (refuseWrite s p o r n).kiln = s.kiln := by
  unfold refuseWrite; dsimp only; repeat' split
  all_goals simp
@[simp] theorem refuseWrite_integrity (s : State) (p o : Nat) (r : Role) (n : Nat) : (refuseWrite s p o r n).integrity = s.integrity := by
  unfold refuseWrite; dsimp only; repeat' split
  all_goals simp
@[simp] theorem refuseWrite_repair (s : State) (p o : Nat) (r : Role) (n : Nat) : (refuseWrite s p o r n).repair = s.repair := by
  unfold refuseWrite; dsimp only; repeat' split
  all_goals simp
@[simp] theorem refuseWrite_pace (s : State) (p o : Nat) (r : Role) (n : Nat) : (refuseWrite s p o r n).pace = s.pace := by
  unfold refuseWrite; dsimp only; repeat' split
  all_goals simp
@[simp] theorem refuseWrite_keys (s : State) (p o : Nat) (r : Role) (n : Nat) : (refuseWrite s p o r n).keys = s.keys := by
  unfold refuseWrite; dsimp only; repeat' split
  all_goals simp
@[simp] theorem refuseWrite_boundary (s : State) (p o : Nat) (r : Role) (n : Nat) : (refuseWrite s p o r n).boundary = s.boundary := by
  unfold refuseWrite; dsimp only; repeat' split
  all_goals simp
@[simp] theorem refuseWrite_fuses (s : State) (p o : Nat) (r : Role) (n : Nat) : (refuseWrite s p o r n).fuses = s.fuses := by
  unfold refuseWrite; dsimp only; repeat' split
  all_goals simp
@[simp] theorem refuseWrite_glob (s : State) (p o : Nat) (r : Role) (n : Nat) : (refuseWrite s p o r n).glob = s.glob := by
  unfold refuseWrite; dsimp only; repeat' split
  all_goals simp
@[simp] theorem refuseWrite_freeCtr (s : State) (p o : Nat) (r : Role) (n : Nat) : (refuseWrite s p o r n).freeCtr = s.freeCtr := by
  unfold refuseWrite; dsimp only; repeat' split
  all_goals simp
@[simp] theorem refuseWrite_pending (s : State) (p o : Nat) (r : Role) (n : Nat) : (refuseWrite s p o r n).pending = s.pending := by
  unfold refuseWrite; dsimp only; repeat' split
  all_goals simp

/-! ### issueReq -/

@[simp] theorem issueReq_gauger (s : State) (r : MemReq) : (issueReq s r).gauger = s.gauger := by
  unfold issueReq; dsimp only; repeat' split
  all_goals rfl
@[simp] theorem issueReq_log (s : State) (r : MemReq) : (issueReq s r).log = s.log := by
  unfold issueReq; dsimp only; repeat' split
  all_goals rfl
@[simp] theorem issueReq_pages (s : State) (r : MemReq) : (issueReq s r).pages = s.pages := by
  unfold issueReq; dsimp only; repeat' split
  all_goals rfl
@[simp] theorem issueReq_regs (s : State) (r : MemReq) : (issueReq s r).regs = s.regs := by
  unfold issueReq; dsimp only; repeat' split
  all_goals rfl
@[simp] theorem issueReq_ctxs (s : State) (r : MemReq) : (issueReq s r).ctxs = s.ctxs := by
  unfold issueReq; dsimp only; repeat' split
  all_goals rfl
@[simp] theorem issueReq_planInForce (s : State) (r : MemReq) : (issueReq s r).planInForce = s.planInForce := by
  unfold issueReq; dsimp only; repeat' split
  all_goals rfl
@[simp] theorem issueReq_planStaged (s : State) (r : MemReq) : (issueReq s r).planStaged = s.planStaged := by
  unfold issueReq; dsimp only; repeat' split
  all_goals rfl
@[simp] theorem issueReq_cat (s : State) (r : MemReq) : (issueReq s r).cat = s.cat := by
  unfold issueReq; dsimp only; repeat' split
  all_goals rfl
@[simp] theorem issueReq_catStaged (s : State) (r : MemReq) : (issueReq s r).catStaged = s.catStaged := by
  unfold issueReq; dsimp only; repeat' split
  all_goals rfl
@[simp] theorem issueReq_staging (s : State) (r : MemReq) : (issueReq s r).staging = s.staging := by
  unfold issueReq; dsimp only; repeat' split
  all_goals rfl
@[simp] theorem issueReq_catRetiring (s : State) (r : MemReq) : (issueReq s r).catRetiring = s.catRetiring := by
  unfold issueReq; dsimp only; repeat' split
  all_goals rfl
@[simp] theorem issueReq_dir (s : State) (r : MemReq) : (issueReq s r).dir = s.dir := by
  unfold issueReq; dsimp only; repeat' split
  all_goals rfl
@[simp] theorem issueReq_dirStaged (s : State) (r : MemReq) : (issueReq s r).dirStaged = s.dirStaged := by
  unfold issueReq; dsimp only; repeat' split
  all_goals rfl
@[simp] theorem issueReq_dirOld (s : State) (r : MemReq) : (issueReq s r).dirOld = s.dirOld := by
  unfold issueReq; dsimp only; repeat' split
  all_goals rfl
@[simp] theorem issueReq_handles (s : State) (r : MemReq) : (issueReq s r).handles = s.handles := by
  unfold issueReq; dsimp only; repeat' split
  all_goals rfl
@[simp] theorem issueReq_tenantRecs (s : State) (r : MemReq) : (issueReq s r).tenantRecs = s.tenantRecs := by
  unfold issueReq; dsimp only; repeat' split
  all_goals rfl
@[simp] theorem issueReq_gyles (s : State) (r : MemReq) : (issueReq s r).gyles = s.gyles := by
  unfold issueReq; dsimp only; repeat' split
  all_goals rfl
@[simp] theorem issueReq_tuns (s : State) (r : MemReq) : (issueReq s r).tuns = s.tuns := by
  unfold issueReq; dsimp only; repeat' split
  all_goals rfl
@[simp] theorem issueReq_heldGroups (s : State) (r : MemReq) : (issueReq s r).heldGroups = s.heldGroups := by
  unfold issueReq; dsimp only; repeat' split
  all_goals rfl
@[simp] theorem issueReq_orphans (s : State) (r : MemReq) : (issueReq s r).orphans = s.orphans := by
  unfold issueReq; dsimp only; repeat' split
  all_goals rfl
@[simp] theorem issueReq_nextHold (s : State) (r : MemReq) : (issueReq s r).nextHold = s.nextHold := by
  unfold issueReq; dsimp only; repeat' split
  all_goals rfl
@[simp] theorem issueReq_sortRows (s : State) (r : MemReq) : (issueReq s r).sortRows = s.sortRows := by
  unfold issueReq; dsimp only; repeat' split
  all_goals rfl
@[simp] theorem issueReq_ports (s : State) (r : MemReq) : (issueReq s r).ports = s.ports := by
  unfold issueReq; dsimp only; repeat' split
  all_goals rfl
@[simp] theorem issueReq_spillUsed (s : State) (r : MemReq) : (issueReq s r).spillUsed = s.spillUsed := by
  unfold issueReq; dsimp only; repeat' split
  all_goals rfl
@[simp] theorem issueReq_cellar (s : State) (r : MemReq) : (issueReq s r).cellar = s.cellar := by
  unfold issueReq; dsimp only; repeat' split
  all_goals rfl
@[simp] theorem issueReq_tiers (s : State) (r : MemReq) : (issueReq s r).tiers = s.tiers := by
  unfold issueReq; dsimp only; repeat' split
  all_goals rfl
@[simp] theorem issueReq_train (s : State) (r : MemReq) : (issueReq s r).train = s.train := by
  unfold issueReq; dsimp only; repeat' split
  all_goals rfl
@[simp] theorem issueReq_homes (s : State) (r : MemReq) : (issueReq s r).homes = s.homes := by
  unfold issueReq; dsimp only; repeat' split
  all_goals rfl
@[simp] theorem issueReq_kiln (s : State) (r : MemReq) : (issueReq s r).kiln = s.kiln := by
  unfold issueReq; dsimp only; repeat' split
  all_goals rfl
@[simp] theorem issueReq_integrity (s : State) (r : MemReq) : (issueReq s r).integrity = s.integrity := by
  unfold issueReq; dsimp only; repeat' split
  all_goals rfl
@[simp] theorem issueReq_repair (s : State) (r : MemReq) : (issueReq s r).repair = s.repair := by
  unfold issueReq; dsimp only; repeat' split
  all_goals rfl
@[simp] theorem issueReq_pace (s : State) (r : MemReq) : (issueReq s r).pace = s.pace := by
  unfold issueReq; dsimp only; repeat' split
  all_goals rfl
@[simp] theorem issueReq_keys (s : State) (r : MemReq) : (issueReq s r).keys = s.keys := by
  unfold issueReq; dsimp only; repeat' split
  all_goals rfl
@[simp] theorem issueReq_fuses (s : State) (r : MemReq) : (issueReq s r).fuses = s.fuses := by
  unfold issueReq; dsimp only; repeat' split
  all_goals rfl
@[simp] theorem issueReq_glob (s : State) (r : MemReq) : (issueReq s r).glob = s.glob := by
  unfold issueReq; dsimp only; repeat' split
  all_goals rfl
@[simp] theorem issueReq_outs (s : State) (r : MemReq) : (issueReq s r).outs = s.outs := by
  unfold issueReq; dsimp only; repeat' split
  all_goals rfl
@[simp] theorem issueReq_freeCtr (s : State) (r : MemReq) : (issueReq s r).freeCtr = s.freeCtr := by
  unfold issueReq; dsimp only; repeat' split
  all_goals rfl
@[simp] theorem issueReq_pending (s : State) (r : MemReq) : (issueReq s r).pending = s.pending := by
  unfold issueReq; dsimp only; repeat' split
  all_goals rfl

/-! ### setCtxNow -/

@[simp] theorem setCtxNow_gauger (s : State) (c : Nat) (x : CtxState) : (setCtxNow s c x).gauger = s.gauger := rfl
@[simp] theorem setCtxNow_log (s : State) (c : Nat) (x : CtxState) : (setCtxNow s c x).log = s.log := rfl
@[simp] theorem setCtxNow_regs (s : State) (c : Nat) (x : CtxState) : (setCtxNow s c x).regs = s.regs := rfl
@[simp] theorem setCtxNow_planInForce (s : State) (c : Nat) (x : CtxState) : (setCtxNow s c x).planInForce = s.planInForce := rfl
@[simp] theorem setCtxNow_planStaged (s : State) (c : Nat) (x : CtxState) : (setCtxNow s c x).planStaged = s.planStaged := rfl
@[simp] theorem setCtxNow_cat (s : State) (c : Nat) (x : CtxState) : (setCtxNow s c x).cat = s.cat := rfl
@[simp] theorem setCtxNow_catStaged (s : State) (c : Nat) (x : CtxState) : (setCtxNow s c x).catStaged = s.catStaged := rfl
@[simp] theorem setCtxNow_staging (s : State) (c : Nat) (x : CtxState) : (setCtxNow s c x).staging = s.staging := rfl
@[simp] theorem setCtxNow_catRetiring (s : State) (c : Nat) (x : CtxState) : (setCtxNow s c x).catRetiring = s.catRetiring := rfl
@[simp] theorem setCtxNow_dir (s : State) (c : Nat) (x : CtxState) : (setCtxNow s c x).dir = s.dir := rfl
@[simp] theorem setCtxNow_dirStaged (s : State) (c : Nat) (x : CtxState) : (setCtxNow s c x).dirStaged = s.dirStaged := rfl
@[simp] theorem setCtxNow_dirOld (s : State) (c : Nat) (x : CtxState) : (setCtxNow s c x).dirOld = s.dirOld := rfl
@[simp] theorem setCtxNow_handles (s : State) (c : Nat) (x : CtxState) : (setCtxNow s c x).handles = s.handles := rfl
@[simp] theorem setCtxNow_tenantRecs (s : State) (c : Nat) (x : CtxState) : (setCtxNow s c x).tenantRecs = s.tenantRecs := rfl
@[simp] theorem setCtxNow_gyles (s : State) (c : Nat) (x : CtxState) : (setCtxNow s c x).gyles = s.gyles := rfl
@[simp] theorem setCtxNow_tuns (s : State) (c : Nat) (x : CtxState) : (setCtxNow s c x).tuns = s.tuns := rfl
@[simp] theorem setCtxNow_heldGroups (s : State) (c : Nat) (x : CtxState) : (setCtxNow s c x).heldGroups = s.heldGroups := rfl
@[simp] theorem setCtxNow_orphans (s : State) (c : Nat) (x : CtxState) : (setCtxNow s c x).orphans = s.orphans := rfl
@[simp] theorem setCtxNow_nextHold (s : State) (c : Nat) (x : CtxState) : (setCtxNow s c x).nextHold = s.nextHold := rfl
@[simp] theorem setCtxNow_sortRows (s : State) (c : Nat) (x : CtxState) : (setCtxNow s c x).sortRows = s.sortRows := rfl
@[simp] theorem setCtxNow_ports (s : State) (c : Nat) (x : CtxState) : (setCtxNow s c x).ports = s.ports := rfl
@[simp] theorem setCtxNow_spillUsed (s : State) (c : Nat) (x : CtxState) : (setCtxNow s c x).spillUsed = s.spillUsed := rfl
@[simp] theorem setCtxNow_cellar (s : State) (c : Nat) (x : CtxState) : (setCtxNow s c x).cellar = s.cellar := rfl
@[simp] theorem setCtxNow_tiers (s : State) (c : Nat) (x : CtxState) : (setCtxNow s c x).tiers = s.tiers := rfl
@[simp] theorem setCtxNow_train (s : State) (c : Nat) (x : CtxState) : (setCtxNow s c x).train = s.train := rfl
@[simp] theorem setCtxNow_homes (s : State) (c : Nat) (x : CtxState) : (setCtxNow s c x).homes = s.homes := rfl
@[simp] theorem setCtxNow_kiln (s : State) (c : Nat) (x : CtxState) : (setCtxNow s c x).kiln = s.kiln := rfl
@[simp] theorem setCtxNow_integrity (s : State) (c : Nat) (x : CtxState) : (setCtxNow s c x).integrity = s.integrity := rfl
@[simp] theorem setCtxNow_repair (s : State) (c : Nat) (x : CtxState) : (setCtxNow s c x).repair = s.repair := rfl
@[simp] theorem setCtxNow_pace (s : State) (c : Nat) (x : CtxState) : (setCtxNow s c x).pace = s.pace := rfl
@[simp] theorem setCtxNow_keys (s : State) (c : Nat) (x : CtxState) : (setCtxNow s c x).keys = s.keys := rfl
@[simp] theorem setCtxNow_boundary (s : State) (c : Nat) (x : CtxState) : (setCtxNow s c x).boundary = s.boundary := rfl
@[simp] theorem setCtxNow_fuses (s : State) (c : Nat) (x : CtxState) : (setCtxNow s c x).fuses = s.fuses := rfl
@[simp] theorem setCtxNow_glob (s : State) (c : Nat) (x : CtxState) : (setCtxNow s c x).glob = s.glob := rfl
@[simp] theorem setCtxNow_outs (s : State) (c : Nat) (x : CtxState) : (setCtxNow s c x).outs = s.outs := rfl
@[simp] theorem setCtxNow_freeCtr (s : State) (c : Nat) (x : CtxState) : (setCtxNow s c x).freeCtr = s.freeCtr := rfl
@[simp] theorem setCtxNow_pending (s : State) (c : Nat) (x : CtxState) : (setCtxNow s c x).pending = s.pending := rfl

/-! ### setCtxState -/

@[simp] theorem setCtxState_regs (s : State) (c : Nat) (x : CtxState) : (setCtxState s c x).regs = s.regs := by
  unfold setCtxState; split <;> simp
@[simp] theorem setCtxState_planInForce (s : State) (c : Nat) (x : CtxState) : (setCtxState s c x).planInForce = s.planInForce := by
  unfold setCtxState; split <;> simp
@[simp] theorem setCtxState_planStaged (s : State) (c : Nat) (x : CtxState) : (setCtxState s c x).planStaged = s.planStaged := by
  unfold setCtxState; split <;> simp
@[simp] theorem setCtxState_cat (s : State) (c : Nat) (x : CtxState) : (setCtxState s c x).cat = s.cat := by
  unfold setCtxState; split <;> simp
@[simp] theorem setCtxState_catStaged (s : State) (c : Nat) (x : CtxState) : (setCtxState s c x).catStaged = s.catStaged := by
  unfold setCtxState; split <;> simp
@[simp] theorem setCtxState_staging (s : State) (c : Nat) (x : CtxState) : (setCtxState s c x).staging = s.staging := by
  unfold setCtxState; split <;> simp
@[simp] theorem setCtxState_catRetiring (s : State) (c : Nat) (x : CtxState) : (setCtxState s c x).catRetiring = s.catRetiring := by
  unfold setCtxState; split <;> simp
@[simp] theorem setCtxState_dir (s : State) (c : Nat) (x : CtxState) : (setCtxState s c x).dir = s.dir := by
  unfold setCtxState; split <;> simp
@[simp] theorem setCtxState_dirStaged (s : State) (c : Nat) (x : CtxState) : (setCtxState s c x).dirStaged = s.dirStaged := by
  unfold setCtxState; split <;> simp
@[simp] theorem setCtxState_dirOld (s : State) (c : Nat) (x : CtxState) : (setCtxState s c x).dirOld = s.dirOld := by
  unfold setCtxState; split <;> simp
@[simp] theorem setCtxState_handles (s : State) (c : Nat) (x : CtxState) : (setCtxState s c x).handles = s.handles := by
  unfold setCtxState; split <;> simp
@[simp] theorem setCtxState_tenantRecs (s : State) (c : Nat) (x : CtxState) : (setCtxState s c x).tenantRecs = s.tenantRecs := by
  unfold setCtxState; split <;> simp
@[simp] theorem setCtxState_gyles (s : State) (c : Nat) (x : CtxState) : (setCtxState s c x).gyles = s.gyles := by
  unfold setCtxState; split <;> simp
@[simp] theorem setCtxState_tuns (s : State) (c : Nat) (x : CtxState) : (setCtxState s c x).tuns = s.tuns := by
  unfold setCtxState; split <;> simp
@[simp] theorem setCtxState_heldGroups (s : State) (c : Nat) (x : CtxState) : (setCtxState s c x).heldGroups = s.heldGroups := by
  unfold setCtxState; split <;> simp
@[simp] theorem setCtxState_orphans (s : State) (c : Nat) (x : CtxState) : (setCtxState s c x).orphans = s.orphans := by
  unfold setCtxState; split <;> simp
@[simp] theorem setCtxState_nextHold (s : State) (c : Nat) (x : CtxState) : (setCtxState s c x).nextHold = s.nextHold := by
  unfold setCtxState; split <;> simp
@[simp] theorem setCtxState_sortRows (s : State) (c : Nat) (x : CtxState) : (setCtxState s c x).sortRows = s.sortRows := by
  unfold setCtxState; split <;> simp
@[simp] theorem setCtxState_ports (s : State) (c : Nat) (x : CtxState) : (setCtxState s c x).ports = s.ports := by
  unfold setCtxState; split <;> simp
@[simp] theorem setCtxState_spillUsed (s : State) (c : Nat) (x : CtxState) : (setCtxState s c x).spillUsed = s.spillUsed := by
  unfold setCtxState; split <;> simp
@[simp] theorem setCtxState_cellar (s : State) (c : Nat) (x : CtxState) : (setCtxState s c x).cellar = s.cellar := by
  unfold setCtxState; split <;> simp
@[simp] theorem setCtxState_tiers (s : State) (c : Nat) (x : CtxState) : (setCtxState s c x).tiers = s.tiers := by
  unfold setCtxState; split <;> simp
@[simp] theorem setCtxState_train (s : State) (c : Nat) (x : CtxState) : (setCtxState s c x).train = s.train := by
  unfold setCtxState; split <;> simp
@[simp] theorem setCtxState_homes (s : State) (c : Nat) (x : CtxState) : (setCtxState s c x).homes = s.homes := by
  unfold setCtxState; split <;> simp
@[simp] theorem setCtxState_kiln (s : State) (c : Nat) (x : CtxState) : (setCtxState s c x).kiln = s.kiln := by
  unfold setCtxState; split <;> simp
@[simp] theorem setCtxState_integrity (s : State) (c : Nat) (x : CtxState) : (setCtxState s c x).integrity = s.integrity := by
  unfold setCtxState; split <;> simp
@[simp] theorem setCtxState_repair (s : State) (c : Nat) (x : CtxState) : (setCtxState s c x).repair = s.repair := by
  unfold setCtxState; split <;> simp
@[simp] theorem setCtxState_pace (s : State) (c : Nat) (x : CtxState) : (setCtxState s c x).pace = s.pace := by
  unfold setCtxState; split <;> simp
@[simp] theorem setCtxState_keys (s : State) (c : Nat) (x : CtxState) : (setCtxState s c x).keys = s.keys := by
  unfold setCtxState; split <;> simp
@[simp] theorem setCtxState_boundary (s : State) (c : Nat) (x : CtxState) : (setCtxState s c x).boundary = s.boundary := by
  unfold setCtxState; split <;> simp
@[simp] theorem setCtxState_fuses (s : State) (c : Nat) (x : CtxState) : (setCtxState s c x).fuses = s.fuses := by
  unfold setCtxState; split <;> simp
@[simp] theorem setCtxState_glob (s : State) (c : Nat) (x : CtxState) : (setCtxState s c x).glob = s.glob := by
  unfold setCtxState; split <;> simp
@[simp] theorem setCtxState_outs (s : State) (c : Nat) (x : CtxState) : (setCtxState s c x).outs = s.outs := by
  unfold setCtxState; split <;> simp
@[simp] theorem setCtxState_freeCtr (s : State) (c : Nat) (x : CtxState) : (setCtxState s c x).freeCtr = s.freeCtr := by
  unfold setCtxState; split <;> simp
@[simp] theorem setCtxState_pending (s : State) (c : Nat) (x : CtxState) : (setCtxState s c x).pending = s.pending := by
  unfold setCtxState; split <;> simp

/-! ### newFaultNow -/

@[simp] theorem newFaultNow_gauger (s : State) (o : FaultObject) (a b : Nat) (d : List Byte) : (newFaultNow s o a b d).gauger = s.gauger := by
  simp [newFaultNow]
@[simp] theorem newFaultNow_regs (s : State) (o : FaultObject) (a b : Nat) (d : List Byte) : (newFaultNow s o a b d).regs = s.regs := by
  simp [newFaultNow]
@[simp] theorem newFaultNow_ctxs (s : State) (o : FaultObject) (a b : Nat) (d : List Byte) : (newFaultNow s o a b d).ctxs = s.ctxs := by
  simp [newFaultNow]
@[simp] theorem newFaultNow_planInForce (s : State) (o : FaultObject) (a b : Nat) (d : List Byte) : (newFaultNow s o a b d).planInForce = s.planInForce := by
  simp [newFaultNow]
@[simp] theorem newFaultNow_planStaged (s : State) (o : FaultObject) (a b : Nat) (d : List Byte) : (newFaultNow s o a b d).planStaged = s.planStaged := by
  simp [newFaultNow]
@[simp] theorem newFaultNow_cat (s : State) (o : FaultObject) (a b : Nat) (d : List Byte) : (newFaultNow s o a b d).cat = s.cat := by
  simp [newFaultNow]
@[simp] theorem newFaultNow_catStaged (s : State) (o : FaultObject) (a b : Nat) (d : List Byte) : (newFaultNow s o a b d).catStaged = s.catStaged := by
  simp [newFaultNow]
@[simp] theorem newFaultNow_staging (s : State) (o : FaultObject) (a b : Nat) (d : List Byte) : (newFaultNow s o a b d).staging = s.staging := by
  simp [newFaultNow]
@[simp] theorem newFaultNow_catRetiring (s : State) (o : FaultObject) (a b : Nat) (d : List Byte) : (newFaultNow s o a b d).catRetiring = s.catRetiring := by
  simp [newFaultNow]
@[simp] theorem newFaultNow_dir (s : State) (o : FaultObject) (a b : Nat) (d : List Byte) : (newFaultNow s o a b d).dir = s.dir := by
  simp [newFaultNow]
@[simp] theorem newFaultNow_dirStaged (s : State) (o : FaultObject) (a b : Nat) (d : List Byte) : (newFaultNow s o a b d).dirStaged = s.dirStaged := by
  simp [newFaultNow]
@[simp] theorem newFaultNow_dirOld (s : State) (o : FaultObject) (a b : Nat) (d : List Byte) : (newFaultNow s o a b d).dirOld = s.dirOld := by
  simp [newFaultNow]
@[simp] theorem newFaultNow_handles (s : State) (o : FaultObject) (a b : Nat) (d : List Byte) : (newFaultNow s o a b d).handles = s.handles := by
  simp [newFaultNow]
@[simp] theorem newFaultNow_tenantRecs (s : State) (o : FaultObject) (a b : Nat) (d : List Byte) : (newFaultNow s o a b d).tenantRecs = s.tenantRecs := by
  simp [newFaultNow]
@[simp] theorem newFaultNow_gyles (s : State) (o : FaultObject) (a b : Nat) (d : List Byte) : (newFaultNow s o a b d).gyles = s.gyles := by
  simp [newFaultNow]
@[simp] theorem newFaultNow_tuns (s : State) (o : FaultObject) (a b : Nat) (d : List Byte) : (newFaultNow s o a b d).tuns = s.tuns := by
  simp [newFaultNow]
@[simp] theorem newFaultNow_heldGroups (s : State) (o : FaultObject) (a b : Nat) (d : List Byte) : (newFaultNow s o a b d).heldGroups = s.heldGroups := by
  simp [newFaultNow]
@[simp] theorem newFaultNow_orphans (s : State) (o : FaultObject) (a b : Nat) (d : List Byte) : (newFaultNow s o a b d).orphans = s.orphans := by
  simp [newFaultNow]
@[simp] theorem newFaultNow_nextHold (s : State) (o : FaultObject) (a b : Nat) (d : List Byte) : (newFaultNow s o a b d).nextHold = s.nextHold := by
  simp [newFaultNow]
@[simp] theorem newFaultNow_sortRows (s : State) (o : FaultObject) (a b : Nat) (d : List Byte) : (newFaultNow s o a b d).sortRows = s.sortRows := by
  simp [newFaultNow]
@[simp] theorem newFaultNow_ports (s : State) (o : FaultObject) (a b : Nat) (d : List Byte) : (newFaultNow s o a b d).ports = s.ports := by
  simp [newFaultNow]
@[simp] theorem newFaultNow_spillUsed (s : State) (o : FaultObject) (a b : Nat) (d : List Byte) : (newFaultNow s o a b d).spillUsed = s.spillUsed := by
  simp [newFaultNow]
@[simp] theorem newFaultNow_cellar (s : State) (o : FaultObject) (a b : Nat) (d : List Byte) : (newFaultNow s o a b d).cellar = s.cellar := by
  simp [newFaultNow]
@[simp] theorem newFaultNow_tiers (s : State) (o : FaultObject) (a b : Nat) (d : List Byte) : (newFaultNow s o a b d).tiers = s.tiers := by
  simp [newFaultNow]
@[simp] theorem newFaultNow_train (s : State) (o : FaultObject) (a b : Nat) (d : List Byte) : (newFaultNow s o a b d).train = s.train := by
  simp [newFaultNow]
@[simp] theorem newFaultNow_homes (s : State) (o : FaultObject) (a b : Nat) (d : List Byte) : (newFaultNow s o a b d).homes = s.homes := by
  simp [newFaultNow]
@[simp] theorem newFaultNow_kiln (s : State) (o : FaultObject) (a b : Nat) (d : List Byte) : (newFaultNow s o a b d).kiln = s.kiln := by
  simp [newFaultNow]
@[simp] theorem newFaultNow_repair (s : State) (o : FaultObject) (a b : Nat) (d : List Byte) : (newFaultNow s o a b d).repair = s.repair := by
  simp [newFaultNow]
@[simp] theorem newFaultNow_pace (s : State) (o : FaultObject) (a b : Nat) (d : List Byte) : (newFaultNow s o a b d).pace = s.pace := by
  simp [newFaultNow]
@[simp] theorem newFaultNow_keys (s : State) (o : FaultObject) (a b : Nat) (d : List Byte) : (newFaultNow s o a b d).keys = s.keys := by
  simp [newFaultNow]
@[simp] theorem newFaultNow_boundary (s : State) (o : FaultObject) (a b : Nat) (d : List Byte) : (newFaultNow s o a b d).boundary = s.boundary := by
  simp [newFaultNow]
@[simp] theorem newFaultNow_fuses (s : State) (o : FaultObject) (a b : Nat) (d : List Byte) : (newFaultNow s o a b d).fuses = s.fuses := by
  simp [newFaultNow]
@[simp] theorem newFaultNow_glob (s : State) (o : FaultObject) (a b : Nat) (d : List Byte) : (newFaultNow s o a b d).glob = s.glob := by
  simp [newFaultNow]
@[simp] theorem newFaultNow_outs (s : State) (o : FaultObject) (a b : Nat) (d : List Byte) : (newFaultNow s o a b d).outs = s.outs := by
  simp [newFaultNow]
@[simp] theorem newFaultNow_freeCtr (s : State) (o : FaultObject) (a b : Nat) (d : List Byte) : (newFaultNow s o a b d).freeCtr = s.freeCtr := by
  simp [newFaultNow]
@[simp] theorem newFaultNow_pending (s : State) (o : FaultObject) (a b : Nat) (d : List Byte) : (newFaultNow s o a b d).pending = s.pending := by
  simp [newFaultNow]

/-! ### newFault -/

@[simp] theorem newFault_regs (s : State) (o : FaultObject) (a b : Nat) (d : List Byte) : (newFault s o a b d).regs = s.regs := by
  simp [newFault]
@[simp] theorem newFault_ctxs (s : State) (o : FaultObject) (a b : Nat) (d : List Byte) : (newFault s o a b d).ctxs = s.ctxs := by
  simp [newFault]
@[simp] theorem newFault_planInForce (s : State) (o : FaultObject) (a b : Nat) (d : List Byte) : (newFault s o a b d).planInForce = s.planInForce := by
  simp [newFault]
@[simp] theorem newFault_planStaged (s : State) (o : FaultObject) (a b : Nat) (d : List Byte) : (newFault s o a b d).planStaged = s.planStaged := by
  simp [newFault]
@[simp] theorem newFault_cat (s : State) (o : FaultObject) (a b : Nat) (d : List Byte) : (newFault s o a b d).cat = s.cat := by
  simp [newFault]
@[simp] theorem newFault_catStaged (s : State) (o : FaultObject) (a b : Nat) (d : List Byte) : (newFault s o a b d).catStaged = s.catStaged := by
  simp [newFault]
@[simp] theorem newFault_staging (s : State) (o : FaultObject) (a b : Nat) (d : List Byte) : (newFault s o a b d).staging = s.staging := by
  simp [newFault]
@[simp] theorem newFault_catRetiring (s : State) (o : FaultObject) (a b : Nat) (d : List Byte) : (newFault s o a b d).catRetiring = s.catRetiring := by
  simp [newFault]
@[simp] theorem newFault_dir (s : State) (o : FaultObject) (a b : Nat) (d : List Byte) : (newFault s o a b d).dir = s.dir := by
  simp [newFault]
@[simp] theorem newFault_dirStaged (s : State) (o : FaultObject) (a b : Nat) (d : List Byte) : (newFault s o a b d).dirStaged = s.dirStaged := by
  simp [newFault]
@[simp] theorem newFault_dirOld (s : State) (o : FaultObject) (a b : Nat) (d : List Byte) : (newFault s o a b d).dirOld = s.dirOld := by
  simp [newFault]
@[simp] theorem newFault_handles (s : State) (o : FaultObject) (a b : Nat) (d : List Byte) : (newFault s o a b d).handles = s.handles := by
  simp [newFault]
@[simp] theorem newFault_tenantRecs (s : State) (o : FaultObject) (a b : Nat) (d : List Byte) : (newFault s o a b d).tenantRecs = s.tenantRecs := by
  simp [newFault]
@[simp] theorem newFault_gyles (s : State) (o : FaultObject) (a b : Nat) (d : List Byte) : (newFault s o a b d).gyles = s.gyles := by
  simp [newFault]
@[simp] theorem newFault_tuns (s : State) (o : FaultObject) (a b : Nat) (d : List Byte) : (newFault s o a b d).tuns = s.tuns := by
  simp [newFault]
@[simp] theorem newFault_heldGroups (s : State) (o : FaultObject) (a b : Nat) (d : List Byte) : (newFault s o a b d).heldGroups = s.heldGroups := by
  simp [newFault]
@[simp] theorem newFault_orphans (s : State) (o : FaultObject) (a b : Nat) (d : List Byte) : (newFault s o a b d).orphans = s.orphans := by
  simp [newFault]
@[simp] theorem newFault_nextHold (s : State) (o : FaultObject) (a b : Nat) (d : List Byte) : (newFault s o a b d).nextHold = s.nextHold := by
  simp [newFault]
@[simp] theorem newFault_sortRows (s : State) (o : FaultObject) (a b : Nat) (d : List Byte) : (newFault s o a b d).sortRows = s.sortRows := by
  simp [newFault]
@[simp] theorem newFault_ports (s : State) (o : FaultObject) (a b : Nat) (d : List Byte) : (newFault s o a b d).ports = s.ports := by
  simp [newFault]
@[simp] theorem newFault_spillUsed (s : State) (o : FaultObject) (a b : Nat) (d : List Byte) : (newFault s o a b d).spillUsed = s.spillUsed := by
  simp [newFault]
@[simp] theorem newFault_cellar (s : State) (o : FaultObject) (a b : Nat) (d : List Byte) : (newFault s o a b d).cellar = s.cellar := by
  simp [newFault]
@[simp] theorem newFault_tiers (s : State) (o : FaultObject) (a b : Nat) (d : List Byte) : (newFault s o a b d).tiers = s.tiers := by
  simp [newFault]
@[simp] theorem newFault_train (s : State) (o : FaultObject) (a b : Nat) (d : List Byte) : (newFault s o a b d).train = s.train := by
  simp [newFault]
@[simp] theorem newFault_homes (s : State) (o : FaultObject) (a b : Nat) (d : List Byte) : (newFault s o a b d).homes = s.homes := by
  simp [newFault]
@[simp] theorem newFault_kiln (s : State) (o : FaultObject) (a b : Nat) (d : List Byte) : (newFault s o a b d).kiln = s.kiln := by
  simp [newFault]
@[simp] theorem newFault_repair (s : State) (o : FaultObject) (a b : Nat) (d : List Byte) : (newFault s o a b d).repair = s.repair := by
  simp [newFault]
@[simp] theorem newFault_pace (s : State) (o : FaultObject) (a b : Nat) (d : List Byte) : (newFault s o a b d).pace = s.pace := by
  simp [newFault]
@[simp] theorem newFault_keys (s : State) (o : FaultObject) (a b : Nat) (d : List Byte) : (newFault s o a b d).keys = s.keys := by
  simp [newFault]
@[simp] theorem newFault_boundary (s : State) (o : FaultObject) (a b : Nat) (d : List Byte) : (newFault s o a b d).boundary = s.boundary := by
  simp [newFault]
@[simp] theorem newFault_fuses (s : State) (o : FaultObject) (a b : Nat) (d : List Byte) : (newFault s o a b d).fuses = s.fuses := by
  simp [newFault]
@[simp] theorem newFault_glob (s : State) (o : FaultObject) (a b : Nat) (d : List Byte) : (newFault s o a b d).glob = s.glob := by
  simp [newFault]
@[simp] theorem newFault_outs (s : State) (o : FaultObject) (a b : Nat) (d : List Byte) : (newFault s o a b d).outs = s.outs := by
  simp [newFault]
@[simp] theorem newFault_freeCtr (s : State) (o : FaultObject) (a b : Nat) (d : List Byte) : (newFault s o a b d).freeCtr = s.freeCtr := by
  simp [newFault]
@[simp] theorem newFault_pending (s : State) (o : FaultObject) (a b : Nat) (d : List Byte) : (newFault s o a b d).pending = s.pending := by
  simp [newFault]

/-! ### enterLevel -/

@[simp] theorem enterLevel_regs (s : State) (i : Seq) (o : FaultObject) (a b n : Nat) : (enterLevel s i o a b n).regs = s.regs := by
  unfold enterLevel; dsimp only; split <;> simp
@[simp] theorem enterLevel_ctxs (s : State) (i : Seq) (o : FaultObject) (a b n : Nat) : (enterLevel s i o a b n).ctxs = s.ctxs := by
  unfold enterLevel; dsimp only; split <;> simp
@[simp] theorem enterLevel_planInForce (s : State) (i : Seq) (o : FaultObject) (a b n : Nat) : (enterLevel s i o a b n).planInForce = s.planInForce := by
  unfold enterLevel; dsimp only; split <;> simp
@[simp] theorem enterLevel_planStaged (s : State) (i : Seq) (o : FaultObject) (a b n : Nat) : (enterLevel s i o a b n).planStaged = s.planStaged := by
  unfold enterLevel; dsimp only; split <;> simp
@[simp] theorem enterLevel_cat (s : State) (i : Seq) (o : FaultObject) (a b n : Nat) : (enterLevel s i o a b n).cat = s.cat := by
  unfold enterLevel; dsimp only; split <;> simp
@[simp] theorem enterLevel_catStaged (s : State) (i : Seq) (o : FaultObject) (a b n : Nat) : (enterLevel s i o a b n).catStaged = s.catStaged := by
  unfold enterLevel; dsimp only; split <;> simp
@[simp] theorem enterLevel_staging (s : State) (i : Seq) (o : FaultObject) (a b n : Nat) : (enterLevel s i o a b n).staging = s.staging := by
  unfold enterLevel; dsimp only; split <;> simp
@[simp] theorem enterLevel_catRetiring (s : State) (i : Seq) (o : FaultObject) (a b n : Nat) : (enterLevel s i o a b n).catRetiring = s.catRetiring := by
  unfold enterLevel; dsimp only; split <;> simp
@[simp] theorem enterLevel_dir (s : State) (i : Seq) (o : FaultObject) (a b n : Nat) : (enterLevel s i o a b n).dir = s.dir := by
  unfold enterLevel; dsimp only; split <;> simp
@[simp] theorem enterLevel_dirStaged (s : State) (i : Seq) (o : FaultObject) (a b n : Nat) : (enterLevel s i o a b n).dirStaged = s.dirStaged := by
  unfold enterLevel; dsimp only; split <;> simp
@[simp] theorem enterLevel_dirOld (s : State) (i : Seq) (o : FaultObject) (a b n : Nat) : (enterLevel s i o a b n).dirOld = s.dirOld := by
  unfold enterLevel; dsimp only; split <;> simp
@[simp] theorem enterLevel_handles (s : State) (i : Seq) (o : FaultObject) (a b n : Nat) : (enterLevel s i o a b n).handles = s.handles := by
  unfold enterLevel; dsimp only; split <;> simp
@[simp] theorem enterLevel_tenantRecs (s : State) (i : Seq) (o : FaultObject) (a b n : Nat) : (enterLevel s i o a b n).tenantRecs = s.tenantRecs := by
  unfold enterLevel; dsimp only; split <;> simp
@[simp] theorem enterLevel_gyles (s : State) (i : Seq) (o : FaultObject) (a b n : Nat) : (enterLevel s i o a b n).gyles = s.gyles := by
  unfold enterLevel; dsimp only; split <;> simp
@[simp] theorem enterLevel_tuns (s : State) (i : Seq) (o : FaultObject) (a b n : Nat) : (enterLevel s i o a b n).tuns = s.tuns := by
  unfold enterLevel; dsimp only; split <;> simp
@[simp] theorem enterLevel_heldGroups (s : State) (i : Seq) (o : FaultObject) (a b n : Nat) : (enterLevel s i o a b n).heldGroups = s.heldGroups := by
  unfold enterLevel; dsimp only; split <;> simp
@[simp] theorem enterLevel_orphans (s : State) (i : Seq) (o : FaultObject) (a b n : Nat) : (enterLevel s i o a b n).orphans = s.orphans := by
  unfold enterLevel; dsimp only; split <;> simp
@[simp] theorem enterLevel_nextHold (s : State) (i : Seq) (o : FaultObject) (a b n : Nat) : (enterLevel s i o a b n).nextHold = s.nextHold := by
  unfold enterLevel; dsimp only; split <;> simp
@[simp] theorem enterLevel_sortRows (s : State) (i : Seq) (o : FaultObject) (a b n : Nat) : (enterLevel s i o a b n).sortRows = s.sortRows := by
  unfold enterLevel; dsimp only; split <;> simp
@[simp] theorem enterLevel_ports (s : State) (i : Seq) (o : FaultObject) (a b n : Nat) : (enterLevel s i o a b n).ports = s.ports := by
  unfold enterLevel; dsimp only; split <;> simp
@[simp] theorem enterLevel_spillUsed (s : State) (i : Seq) (o : FaultObject) (a b n : Nat) : (enterLevel s i o a b n).spillUsed = s.spillUsed := by
  unfold enterLevel; dsimp only; split <;> simp
@[simp] theorem enterLevel_cellar (s : State) (i : Seq) (o : FaultObject) (a b n : Nat) : (enterLevel s i o a b n).cellar = s.cellar := by
  unfold enterLevel; dsimp only; split <;> simp
@[simp] theorem enterLevel_tiers (s : State) (i : Seq) (o : FaultObject) (a b n : Nat) : (enterLevel s i o a b n).tiers = s.tiers := by
  unfold enterLevel; dsimp only; split <;> simp
@[simp] theorem enterLevel_train (s : State) (i : Seq) (o : FaultObject) (a b n : Nat) : (enterLevel s i o a b n).train = s.train := by
  unfold enterLevel; dsimp only; split <;> simp
@[simp] theorem enterLevel_homes (s : State) (i : Seq) (o : FaultObject) (a b n : Nat) : (enterLevel s i o a b n).homes = s.homes := by
  unfold enterLevel; dsimp only; split <;> simp
@[simp] theorem enterLevel_kiln (s : State) (i : Seq) (o : FaultObject) (a b n : Nat) : (enterLevel s i o a b n).kiln = s.kiln := by
  unfold enterLevel; dsimp only; split <;> simp
@[simp] theorem enterLevel_repair (s : State) (i : Seq) (o : FaultObject) (a b n : Nat) : (enterLevel s i o a b n).repair = s.repair := by
  unfold enterLevel; dsimp only; split <;> simp
@[simp] theorem enterLevel_pace (s : State) (i : Seq) (o : FaultObject) (a b n : Nat) : (enterLevel s i o a b n).pace = s.pace := by
  unfold enterLevel; dsimp only; split <;> simp
@[simp] theorem enterLevel_keys (s : State) (i : Seq) (o : FaultObject) (a b n : Nat) : (enterLevel s i o a b n).keys = s.keys := by
  unfold enterLevel; dsimp only; split <;> simp
@[simp] theorem enterLevel_boundary (s : State) (i : Seq) (o : FaultObject) (a b n : Nat) : (enterLevel s i o a b n).boundary = s.boundary := by
  unfold enterLevel; dsimp only; split <;> simp
@[simp] theorem enterLevel_fuses (s : State) (i : Seq) (o : FaultObject) (a b n : Nat) : (enterLevel s i o a b n).fuses = s.fuses := by
  unfold enterLevel; dsimp only; split <;> simp
@[simp] theorem enterLevel_glob (s : State) (i : Seq) (o : FaultObject) (a b n : Nat) : (enterLevel s i o a b n).glob = s.glob := by
  unfold enterLevel; dsimp only; split <;> simp
@[simp] theorem enterLevel_outs (s : State) (i : Seq) (o : FaultObject) (a b n : Nat) : (enterLevel s i o a b n).outs = s.outs := by
  unfold enterLevel; dsimp only; split <;> simp
@[simp] theorem enterLevel_freeCtr (s : State) (i : Seq) (o : FaultObject) (a b n : Nat) : (enterLevel s i o a b n).freeCtr = s.freeCtr := by
  unfold enterLevel; dsimp only; split <;> simp
@[simp] theorem enterLevel_pending (s : State) (i : Seq) (o : FaultObject) (a b n : Nat) : (enterLevel s i o a b n).pending = s.pending := by
  unfold enterLevel; dsimp only; split <;> simp

/-! ### startFault -/

@[simp] theorem startFault_regs (s : State) (o : FaultObject) (a n : Nat) (d : List Byte) : (startFault s o a n d).regs = s.regs := by
  unfold startFault; repeat' split
  all_goals simp
@[simp] theorem startFault_ctxs (s : State) (o : FaultObject) (a n : Nat) (d : List Byte) : (startFault s o a n d).ctxs = s.ctxs := by
  unfold startFault; repeat' split
  all_goals simp
@[simp] theorem startFault_planInForce (s : State) (o : FaultObject) (a n : Nat) (d : List Byte) : (startFault s o a n d).planInForce = s.planInForce := by
  unfold startFault; repeat' split
  all_goals simp
@[simp] theorem startFault_planStaged (s : State) (o : FaultObject) (a n : Nat) (d : List Byte) : (startFault s o a n d).planStaged = s.planStaged := by
  unfold startFault; repeat' split
  all_goals simp
@[simp] theorem startFault_cat (s : State) (o : FaultObject) (a n : Nat) (d : List Byte) : (startFault s o a n d).cat = s.cat := by
  unfold startFault; repeat' split
  all_goals simp
@[simp] theorem startFault_catStaged (s : State) (o : FaultObject) (a n : Nat) (d : List Byte) : (startFault s o a n d).catStaged = s.catStaged := by
  unfold startFault; repeat' split
  all_goals simp
@[simp] theorem startFault_staging (s : State) (o : FaultObject) (a n : Nat) (d : List Byte) : (startFault s o a n d).staging = s.staging := by
  unfold startFault; repeat' split
  all_goals simp
@[simp] theorem startFault_catRetiring (s : State) (o : FaultObject) (a n : Nat) (d : List Byte) : (startFault s o a n d).catRetiring = s.catRetiring := by
  unfold startFault; repeat' split
  all_goals simp
@[simp] theorem startFault_dir (s : State) (o : FaultObject) (a n : Nat) (d : List Byte) : (startFault s o a n d).dir = s.dir := by
  unfold startFault; repeat' split
  all_goals simp
@[simp] theorem startFault_dirStaged (s : State) (o : FaultObject) (a n : Nat) (d : List Byte) : (startFault s o a n d).dirStaged = s.dirStaged := by
  unfold startFault; repeat' split
  all_goals simp
@[simp] theorem startFault_dirOld (s : State) (o : FaultObject) (a n : Nat) (d : List Byte) : (startFault s o a n d).dirOld = s.dirOld := by
  unfold startFault; repeat' split
  all_goals simp
@[simp] theorem startFault_handles (s : State) (o : FaultObject) (a n : Nat) (d : List Byte) : (startFault s o a n d).handles = s.handles := by
  unfold startFault; repeat' split
  all_goals simp
@[simp] theorem startFault_tenantRecs (s : State) (o : FaultObject) (a n : Nat) (d : List Byte) : (startFault s o a n d).tenantRecs = s.tenantRecs := by
  unfold startFault; repeat' split
  all_goals simp
@[simp] theorem startFault_gyles (s : State) (o : FaultObject) (a n : Nat) (d : List Byte) : (startFault s o a n d).gyles = s.gyles := by
  unfold startFault; repeat' split
  all_goals simp
@[simp] theorem startFault_tuns (s : State) (o : FaultObject) (a n : Nat) (d : List Byte) : (startFault s o a n d).tuns = s.tuns := by
  unfold startFault; repeat' split
  all_goals simp
@[simp] theorem startFault_heldGroups (s : State) (o : FaultObject) (a n : Nat) (d : List Byte) : (startFault s o a n d).heldGroups = s.heldGroups := by
  unfold startFault; repeat' split
  all_goals simp
@[simp] theorem startFault_orphans (s : State) (o : FaultObject) (a n : Nat) (d : List Byte) : (startFault s o a n d).orphans = s.orphans := by
  unfold startFault; repeat' split
  all_goals simp
@[simp] theorem startFault_nextHold (s : State) (o : FaultObject) (a n : Nat) (d : List Byte) : (startFault s o a n d).nextHold = s.nextHold := by
  unfold startFault; repeat' split
  all_goals simp
@[simp] theorem startFault_sortRows (s : State) (o : FaultObject) (a n : Nat) (d : List Byte) : (startFault s o a n d).sortRows = s.sortRows := by
  unfold startFault; repeat' split
  all_goals simp
@[simp] theorem startFault_ports (s : State) (o : FaultObject) (a n : Nat) (d : List Byte) : (startFault s o a n d).ports = s.ports := by
  unfold startFault; repeat' split
  all_goals simp
@[simp] theorem startFault_spillUsed (s : State) (o : FaultObject) (a n : Nat) (d : List Byte) : (startFault s o a n d).spillUsed = s.spillUsed := by
  unfold startFault; repeat' split
  all_goals simp
@[simp] theorem startFault_cellar (s : State) (o : FaultObject) (a n : Nat) (d : List Byte) : (startFault s o a n d).cellar = s.cellar := by
  unfold startFault; repeat' split
  all_goals simp
@[simp] theorem startFault_tiers (s : State) (o : FaultObject) (a n : Nat) (d : List Byte) : (startFault s o a n d).tiers = s.tiers := by
  unfold startFault; repeat' split
  all_goals simp
@[simp] theorem startFault_train (s : State) (o : FaultObject) (a n : Nat) (d : List Byte) : (startFault s o a n d).train = s.train := by
  unfold startFault; repeat' split
  all_goals simp
@[simp] theorem startFault_homes (s : State) (o : FaultObject) (a n : Nat) (d : List Byte) : (startFault s o a n d).homes = s.homes := by
  unfold startFault; repeat' split
  all_goals simp
@[simp] theorem startFault_kiln (s : State) (o : FaultObject) (a n : Nat) (d : List Byte) : (startFault s o a n d).kiln = s.kiln := by
  unfold startFault; repeat' split
  all_goals simp
@[simp] theorem startFault_repair (s : State) (o : FaultObject) (a n : Nat) (d : List Byte) : (startFault s o a n d).repair = s.repair := by
  unfold startFault; repeat' split
  all_goals simp
@[simp] theorem startFault_pace (s : State) (o : FaultObject) (a n : Nat) (d : List Byte) : (startFault s o a n d).pace = s.pace := by
  unfold startFault; repeat' split
  all_goals simp
@[simp] theorem startFault_keys (s : State) (o : FaultObject) (a n : Nat) (d : List Byte) : (startFault s o a n d).keys = s.keys := by
  unfold startFault; repeat' split
  all_goals simp
@[simp] theorem startFault_boundary (s : State) (o : FaultObject) (a n : Nat) (d : List Byte) : (startFault s o a n d).boundary = s.boundary := by
  unfold startFault; repeat' split
  all_goals simp
@[simp] theorem startFault_fuses (s : State) (o : FaultObject) (a n : Nat) (d : List Byte) : (startFault s o a n d).fuses = s.fuses := by
  unfold startFault; repeat' split
  all_goals simp
@[simp] theorem startFault_glob (s : State) (o : FaultObject) (a n : Nat) (d : List Byte) : (startFault s o a n d).glob = s.glob := by
  unfold startFault; repeat' split
  all_goals simp
@[simp] theorem startFault_outs (s : State) (o : FaultObject) (a n : Nat) (d : List Byte) : (startFault s o a n d).outs = s.outs := by
  unfold startFault; repeat' split
  all_goals simp
@[simp] theorem startFault_freeCtr (s : State) (o : FaultObject) (a n : Nat) (d : List Byte) : (startFault s o a n d).freeCtr = s.freeCtr := by
  unfold startFault; repeat' split
  all_goals simp
@[simp] theorem startFault_pending (s : State) (o : FaultObject) (a n : Nat) (d : List Byte) : (startFault s o a n d).pending = s.pending := by
  unfold startFault; repeat' split
  all_goals simp

/-! ### endFault -/

@[simp] theorem endFault_gauger (s : State) (o : FaultObject) : (endFault s o).gauger = s.gauger := rfl
@[simp] theorem endFault_log (s : State) (o : FaultObject) : (endFault s o).log = s.log := rfl
@[simp] theorem endFault_pages (s : State) (o : FaultObject) : (endFault s o).pages = s.pages := rfl
@[simp] theorem endFault_regs (s : State) (o : FaultObject) : (endFault s o).regs = s.regs := rfl
@[simp] theorem endFault_ctxs (s : State) (o : FaultObject) : (endFault s o).ctxs = s.ctxs := rfl
@[simp] theorem endFault_planInForce (s : State) (o : FaultObject) : (endFault s o).planInForce = s.planInForce := rfl
@[simp] theorem endFault_planStaged (s : State) (o : FaultObject) : (endFault s o).planStaged = s.planStaged := rfl
@[simp] theorem endFault_cat (s : State) (o : FaultObject) : (endFault s o).cat = s.cat := rfl
@[simp] theorem endFault_catStaged (s : State) (o : FaultObject) : (endFault s o).catStaged = s.catStaged := rfl
@[simp] theorem endFault_staging (s : State) (o : FaultObject) : (endFault s o).staging = s.staging := rfl
@[simp] theorem endFault_catRetiring (s : State) (o : FaultObject) : (endFault s o).catRetiring = s.catRetiring := rfl
@[simp] theorem endFault_dir (s : State) (o : FaultObject) : (endFault s o).dir = s.dir := rfl
@[simp] theorem endFault_dirStaged (s : State) (o : FaultObject) : (endFault s o).dirStaged = s.dirStaged := rfl
@[simp] theorem endFault_dirOld (s : State) (o : FaultObject) : (endFault s o).dirOld = s.dirOld := rfl
@[simp] theorem endFault_handles (s : State) (o : FaultObject) : (endFault s o).handles = s.handles := rfl
@[simp] theorem endFault_tenantRecs (s : State) (o : FaultObject) : (endFault s o).tenantRecs = s.tenantRecs := rfl
@[simp] theorem endFault_gyles (s : State) (o : FaultObject) : (endFault s o).gyles = s.gyles := rfl
@[simp] theorem endFault_tuns (s : State) (o : FaultObject) : (endFault s o).tuns = s.tuns := rfl
@[simp] theorem endFault_heldGroups (s : State) (o : FaultObject) : (endFault s o).heldGroups = s.heldGroups := rfl
@[simp] theorem endFault_orphans (s : State) (o : FaultObject) : (endFault s o).orphans = s.orphans := rfl
@[simp] theorem endFault_nextHold (s : State) (o : FaultObject) : (endFault s o).nextHold = s.nextHold := rfl
@[simp] theorem endFault_sortRows (s : State) (o : FaultObject) : (endFault s o).sortRows = s.sortRows := rfl
@[simp] theorem endFault_ports (s : State) (o : FaultObject) : (endFault s o).ports = s.ports := rfl
@[simp] theorem endFault_spillUsed (s : State) (o : FaultObject) : (endFault s o).spillUsed = s.spillUsed := rfl
@[simp] theorem endFault_cellar (s : State) (o : FaultObject) : (endFault s o).cellar = s.cellar := rfl
@[simp] theorem endFault_tiers (s : State) (o : FaultObject) : (endFault s o).tiers = s.tiers := rfl
@[simp] theorem endFault_train (s : State) (o : FaultObject) : (endFault s o).train = s.train := rfl
@[simp] theorem endFault_homes (s : State) (o : FaultObject) : (endFault s o).homes = s.homes := rfl
@[simp] theorem endFault_kiln (s : State) (o : FaultObject) : (endFault s o).kiln = s.kiln := rfl
@[simp] theorem endFault_repair (s : State) (o : FaultObject) : (endFault s o).repair = s.repair := rfl
@[simp] theorem endFault_pace (s : State) (o : FaultObject) : (endFault s o).pace = s.pace := rfl
@[simp] theorem endFault_keys (s : State) (o : FaultObject) : (endFault s o).keys = s.keys := rfl
@[simp] theorem endFault_boundary (s : State) (o : FaultObject) : (endFault s o).boundary = s.boundary := rfl
@[simp] theorem endFault_fuses (s : State) (o : FaultObject) : (endFault s o).fuses = s.fuses := rfl
@[simp] theorem endFault_glob (s : State) (o : FaultObject) : (endFault s o).glob = s.glob := rfl
@[simp] theorem endFault_outs (s : State) (o : FaultObject) : (endFault s o).outs = s.outs := rfl
@[simp] theorem endFault_freeCtr (s : State) (o : FaultObject) : (endFault s o).freeCtr = s.freeCtr := rfl
@[simp] theorem endFault_pending (s : State) (o : FaultObject) : (endFault s o).pending = s.pending := rfl

/-! ### noteParity -/

@[simp] theorem noteParity_gauger (s : State) (c : LinkCheck) : (noteParity s c).gauger = s.gauger := by
  cases c <;> rfl
@[simp] theorem noteParity_log (s : State) (c : LinkCheck) : (noteParity s c).log = s.log := by
  cases c <;> rfl
@[simp] theorem noteParity_pages (s : State) (c : LinkCheck) : (noteParity s c).pages = s.pages := by
  cases c <;> rfl
@[simp] theorem noteParity_regs (s : State) (c : LinkCheck) : (noteParity s c).regs = s.regs := by
  cases c <;> rfl
@[simp] theorem noteParity_ctxs (s : State) (c : LinkCheck) : (noteParity s c).ctxs = s.ctxs := by
  cases c <;> rfl
@[simp] theorem noteParity_planInForce (s : State) (c : LinkCheck) : (noteParity s c).planInForce = s.planInForce := by
  cases c <;> rfl
@[simp] theorem noteParity_planStaged (s : State) (c : LinkCheck) : (noteParity s c).planStaged = s.planStaged := by
  cases c <;> rfl
@[simp] theorem noteParity_cat (s : State) (c : LinkCheck) : (noteParity s c).cat = s.cat := by
  cases c <;> rfl
@[simp] theorem noteParity_catStaged (s : State) (c : LinkCheck) : (noteParity s c).catStaged = s.catStaged := by
  cases c <;> rfl
@[simp] theorem noteParity_staging (s : State) (c : LinkCheck) : (noteParity s c).staging = s.staging := by
  cases c <;> rfl
@[simp] theorem noteParity_catRetiring (s : State) (c : LinkCheck) : (noteParity s c).catRetiring = s.catRetiring := by
  cases c <;> rfl
@[simp] theorem noteParity_dir (s : State) (c : LinkCheck) : (noteParity s c).dir = s.dir := by
  cases c <;> rfl
@[simp] theorem noteParity_dirStaged (s : State) (c : LinkCheck) : (noteParity s c).dirStaged = s.dirStaged := by
  cases c <;> rfl
@[simp] theorem noteParity_dirOld (s : State) (c : LinkCheck) : (noteParity s c).dirOld = s.dirOld := by
  cases c <;> rfl
@[simp] theorem noteParity_handles (s : State) (c : LinkCheck) : (noteParity s c).handles = s.handles := by
  cases c <;> rfl
@[simp] theorem noteParity_tenantRecs (s : State) (c : LinkCheck) : (noteParity s c).tenantRecs = s.tenantRecs := by
  cases c <;> rfl
@[simp] theorem noteParity_gyles (s : State) (c : LinkCheck) : (noteParity s c).gyles = s.gyles := by
  cases c <;> rfl
@[simp] theorem noteParity_tuns (s : State) (c : LinkCheck) : (noteParity s c).tuns = s.tuns := by
  cases c <;> rfl
@[simp] theorem noteParity_heldGroups (s : State) (c : LinkCheck) : (noteParity s c).heldGroups = s.heldGroups := by
  cases c <;> rfl
@[simp] theorem noteParity_orphans (s : State) (c : LinkCheck) : (noteParity s c).orphans = s.orphans := by
  cases c <;> rfl
@[simp] theorem noteParity_nextHold (s : State) (c : LinkCheck) : (noteParity s c).nextHold = s.nextHold := by
  cases c <;> rfl
@[simp] theorem noteParity_sortRows (s : State) (c : LinkCheck) : (noteParity s c).sortRows = s.sortRows := by
  cases c <;> rfl
@[simp] theorem noteParity_ports (s : State) (c : LinkCheck) : (noteParity s c).ports = s.ports := by
  cases c <;> rfl
@[simp] theorem noteParity_spillUsed (s : State) (c : LinkCheck) : (noteParity s c).spillUsed = s.spillUsed := by
  cases c <;> rfl
@[simp] theorem noteParity_cellar (s : State) (c : LinkCheck) : (noteParity s c).cellar = s.cellar := by
  cases c <;> rfl
@[simp] theorem noteParity_tiers (s : State) (c : LinkCheck) : (noteParity s c).tiers = s.tiers := by
  cases c <;> rfl
@[simp] theorem noteParity_train (s : State) (c : LinkCheck) : (noteParity s c).train = s.train := by
  cases c <;> rfl
@[simp] theorem noteParity_homes (s : State) (c : LinkCheck) : (noteParity s c).homes = s.homes := by
  cases c <;> rfl
@[simp] theorem noteParity_kiln (s : State) (c : LinkCheck) : (noteParity s c).kiln = s.kiln := by
  cases c <;> rfl
@[simp] theorem noteParity_integrity (s : State) (c : LinkCheck) : (noteParity s c).integrity = s.integrity := by
  cases c <;> rfl
@[simp] theorem noteParity_repair (s : State) (c : LinkCheck) : (noteParity s c).repair = s.repair := by
  cases c <;> rfl
@[simp] theorem noteParity_pace (s : State) (c : LinkCheck) : (noteParity s c).pace = s.pace := by
  cases c <;> rfl
@[simp] theorem noteParity_keys (s : State) (c : LinkCheck) : (noteParity s c).keys = s.keys := by
  cases c <;> rfl
@[simp] theorem noteParity_fuses (s : State) (c : LinkCheck) : (noteParity s c).fuses = s.fuses := by
  cases c <;> rfl
@[simp] theorem noteParity_glob (s : State) (c : LinkCheck) : (noteParity s c).glob = s.glob := by
  cases c <;> rfl
@[simp] theorem noteParity_outs (s : State) (c : LinkCheck) : (noteParity s c).outs = s.outs := by
  cases c <;> rfl
@[simp] theorem noteParity_freeCtr (s : State) (c : LinkCheck) : (noteParity s c).freeCtr = s.freeCtr := by
  cases c <;> rfl
@[simp] theorem noteParity_pending (s : State) (c : LinkCheck) : (noteParity s c).pending = s.pending := by
  cases c <;> rfl

/-! ### startXfer -/

@[simp] theorem startXfer_gauger (s : State) (u : MemUse) (w : Bool) (a b : Nat) (d : List Byte) : (startXfer s u w a b d).gauger = s.gauger := by
  unfold startXfer; dsimp only; rw [foldl_field (·.gauger) _ (fun s x => by simp)]
@[simp] theorem startXfer_log (s : State) (u : MemUse) (w : Bool) (a b : Nat) (d : List Byte) : (startXfer s u w a b d).log = s.log := by
  unfold startXfer; dsimp only; rw [foldl_field (·.log) _ (fun s x => by simp)]
@[simp] theorem startXfer_pages (s : State) (u : MemUse) (w : Bool) (a b : Nat) (d : List Byte) : (startXfer s u w a b d).pages = s.pages := by
  unfold startXfer; dsimp only; rw [foldl_field (·.pages) _ (fun s x => by simp)]
@[simp] theorem startXfer_regs (s : State) (u : MemUse) (w : Bool) (a b : Nat) (d : List Byte) : (startXfer s u w a b d).regs = s.regs := by
  unfold startXfer; dsimp only; rw [foldl_field (·.regs) _ (fun s x => by simp)]
@[simp] theorem startXfer_ctxs (s : State) (u : MemUse) (w : Bool) (a b : Nat) (d : List Byte) : (startXfer s u w a b d).ctxs = s.ctxs := by
  unfold startXfer; dsimp only; rw [foldl_field (·.ctxs) _ (fun s x => by simp)]
@[simp] theorem startXfer_planInForce (s : State) (u : MemUse) (w : Bool) (a b : Nat) (d : List Byte) : (startXfer s u w a b d).planInForce = s.planInForce := by
  unfold startXfer; dsimp only; rw [foldl_field (·.planInForce) _ (fun s x => by simp)]
@[simp] theorem startXfer_planStaged (s : State) (u : MemUse) (w : Bool) (a b : Nat) (d : List Byte) : (startXfer s u w a b d).planStaged = s.planStaged := by
  unfold startXfer; dsimp only; rw [foldl_field (·.planStaged) _ (fun s x => by simp)]
@[simp] theorem startXfer_cat (s : State) (u : MemUse) (w : Bool) (a b : Nat) (d : List Byte) : (startXfer s u w a b d).cat = s.cat := by
  unfold startXfer; dsimp only; rw [foldl_field (·.cat) _ (fun s x => by simp)]
@[simp] theorem startXfer_catStaged (s : State) (u : MemUse) (w : Bool) (a b : Nat) (d : List Byte) : (startXfer s u w a b d).catStaged = s.catStaged := by
  unfold startXfer; dsimp only; rw [foldl_field (·.catStaged) _ (fun s x => by simp)]
@[simp] theorem startXfer_staging (s : State) (u : MemUse) (w : Bool) (a b : Nat) (d : List Byte) : (startXfer s u w a b d).staging = s.staging := by
  unfold startXfer; dsimp only; rw [foldl_field (·.staging) _ (fun s x => by simp)]
@[simp] theorem startXfer_catRetiring (s : State) (u : MemUse) (w : Bool) (a b : Nat) (d : List Byte) : (startXfer s u w a b d).catRetiring = s.catRetiring := by
  unfold startXfer; dsimp only; rw [foldl_field (·.catRetiring) _ (fun s x => by simp)]
@[simp] theorem startXfer_dir (s : State) (u : MemUse) (w : Bool) (a b : Nat) (d : List Byte) : (startXfer s u w a b d).dir = s.dir := by
  unfold startXfer; dsimp only; rw [foldl_field (·.dir) _ (fun s x => by simp)]
@[simp] theorem startXfer_dirStaged (s : State) (u : MemUse) (w : Bool) (a b : Nat) (d : List Byte) : (startXfer s u w a b d).dirStaged = s.dirStaged := by
  unfold startXfer; dsimp only; rw [foldl_field (·.dirStaged) _ (fun s x => by simp)]
@[simp] theorem startXfer_dirOld (s : State) (u : MemUse) (w : Bool) (a b : Nat) (d : List Byte) : (startXfer s u w a b d).dirOld = s.dirOld := by
  unfold startXfer; dsimp only; rw [foldl_field (·.dirOld) _ (fun s x => by simp)]
@[simp] theorem startXfer_handles (s : State) (u : MemUse) (w : Bool) (a b : Nat) (d : List Byte) : (startXfer s u w a b d).handles = s.handles := by
  unfold startXfer; dsimp only; rw [foldl_field (·.handles) _ (fun s x => by simp)]
@[simp] theorem startXfer_tenantRecs (s : State) (u : MemUse) (w : Bool) (a b : Nat) (d : List Byte) : (startXfer s u w a b d).tenantRecs = s.tenantRecs := by
  unfold startXfer; dsimp only; rw [foldl_field (·.tenantRecs) _ (fun s x => by simp)]
@[simp] theorem startXfer_gyles (s : State) (u : MemUse) (w : Bool) (a b : Nat) (d : List Byte) : (startXfer s u w a b d).gyles = s.gyles := by
  unfold startXfer; dsimp only; rw [foldl_field (·.gyles) _ (fun s x => by simp)]
@[simp] theorem startXfer_tuns (s : State) (u : MemUse) (w : Bool) (a b : Nat) (d : List Byte) : (startXfer s u w a b d).tuns = s.tuns := by
  unfold startXfer; dsimp only; rw [foldl_field (·.tuns) _ (fun s x => by simp)]
@[simp] theorem startXfer_heldGroups (s : State) (u : MemUse) (w : Bool) (a b : Nat) (d : List Byte) : (startXfer s u w a b d).heldGroups = s.heldGroups := by
  unfold startXfer; dsimp only; rw [foldl_field (·.heldGroups) _ (fun s x => by simp)]
@[simp] theorem startXfer_orphans (s : State) (u : MemUse) (w : Bool) (a b : Nat) (d : List Byte) : (startXfer s u w a b d).orphans = s.orphans := by
  unfold startXfer; dsimp only; rw [foldl_field (·.orphans) _ (fun s x => by simp)]
@[simp] theorem startXfer_nextHold (s : State) (u : MemUse) (w : Bool) (a b : Nat) (d : List Byte) : (startXfer s u w a b d).nextHold = s.nextHold := by
  unfold startXfer; dsimp only; rw [foldl_field (·.nextHold) _ (fun s x => by simp)]
@[simp] theorem startXfer_sortRows (s : State) (u : MemUse) (w : Bool) (a b : Nat) (d : List Byte) : (startXfer s u w a b d).sortRows = s.sortRows := by
  unfold startXfer; dsimp only; rw [foldl_field (·.sortRows) _ (fun s x => by simp)]
@[simp] theorem startXfer_ports (s : State) (u : MemUse) (w : Bool) (a b : Nat) (d : List Byte) : (startXfer s u w a b d).ports = s.ports := by
  unfold startXfer; dsimp only; rw [foldl_field (·.ports) _ (fun s x => by simp)]
@[simp] theorem startXfer_spillUsed (s : State) (u : MemUse) (w : Bool) (a b : Nat) (d : List Byte) : (startXfer s u w a b d).spillUsed = s.spillUsed := by
  unfold startXfer; dsimp only; rw [foldl_field (·.spillUsed) _ (fun s x => by simp)]
@[simp] theorem startXfer_cellar (s : State) (u : MemUse) (w : Bool) (a b : Nat) (d : List Byte) : (startXfer s u w a b d).cellar = s.cellar := by
  unfold startXfer; dsimp only; rw [foldl_field (·.cellar) _ (fun s x => by simp)]
@[simp] theorem startXfer_tiers (s : State) (u : MemUse) (w : Bool) (a b : Nat) (d : List Byte) : (startXfer s u w a b d).tiers = s.tiers := by
  unfold startXfer; dsimp only; rw [foldl_field (·.tiers) _ (fun s x => by simp)]
@[simp] theorem startXfer_train (s : State) (u : MemUse) (w : Bool) (a b : Nat) (d : List Byte) : (startXfer s u w a b d).train = s.train := by
  unfold startXfer; dsimp only; rw [foldl_field (·.train) _ (fun s x => by simp)]
@[simp] theorem startXfer_homes (s : State) (u : MemUse) (w : Bool) (a b : Nat) (d : List Byte) : (startXfer s u w a b d).homes = s.homes := by
  unfold startXfer; dsimp only; rw [foldl_field (·.homes) _ (fun s x => by simp)]
@[simp] theorem startXfer_kiln (s : State) (u : MemUse) (w : Bool) (a b : Nat) (d : List Byte) : (startXfer s u w a b d).kiln = s.kiln := by
  unfold startXfer; dsimp only; rw [foldl_field (·.kiln) _ (fun s x => by simp)]
@[simp] theorem startXfer_integrity (s : State) (u : MemUse) (w : Bool) (a b : Nat) (d : List Byte) : (startXfer s u w a b d).integrity = s.integrity := by
  unfold startXfer; dsimp only; rw [foldl_field (·.integrity) _ (fun s x => by simp)]
@[simp] theorem startXfer_repair (s : State) (u : MemUse) (w : Bool) (a b : Nat) (d : List Byte) : (startXfer s u w a b d).repair = s.repair := by
  unfold startXfer; dsimp only; rw [foldl_field (·.repair) _ (fun s x => by simp)]
@[simp] theorem startXfer_pace (s : State) (u : MemUse) (w : Bool) (a b : Nat) (d : List Byte) : (startXfer s u w a b d).pace = s.pace := by
  unfold startXfer; dsimp only; rw [foldl_field (·.pace) _ (fun s x => by simp)]
@[simp] theorem startXfer_keys (s : State) (u : MemUse) (w : Bool) (a b : Nat) (d : List Byte) : (startXfer s u w a b d).keys = s.keys := by
  unfold startXfer; dsimp only; rw [foldl_field (·.keys) _ (fun s x => by simp)]
@[simp] theorem startXfer_fuses (s : State) (u : MemUse) (w : Bool) (a b : Nat) (d : List Byte) : (startXfer s u w a b d).fuses = s.fuses := by
  unfold startXfer; dsimp only; rw [foldl_field (·.fuses) _ (fun s x => by simp)]
@[simp] theorem startXfer_glob (s : State) (u : MemUse) (w : Bool) (a b : Nat) (d : List Byte) : (startXfer s u w a b d).glob = s.glob := by
  unfold startXfer; dsimp only; rw [foldl_field (·.glob) _ (fun s x => by simp)]
@[simp] theorem startXfer_outs (s : State) (u : MemUse) (w : Bool) (a b : Nat) (d : List Byte) : (startXfer s u w a b d).outs = s.outs := by
  unfold startXfer; dsimp only; rw [foldl_field (·.outs) _ (fun s x => by simp)]
@[simp] theorem startXfer_freeCtr (s : State) (u : MemUse) (w : Bool) (a b : Nat) (d : List Byte) : (startXfer s u w a b d).freeCtr = s.freeCtr := by
  unfold startXfer; dsimp only; rw [foldl_field (·.freeCtr) _ (fun s x => by simp)]
@[simp] theorem startXfer_pending (s : State) (u : MemUse) (w : Bool) (a b : Nat) (d : List Byte) : (startXfer s u w a b d).pending = s.pending := by
  unfold startXfer; dsimp only; rw [foldl_field (·.pending) _ (fun s x => by simp)]

/-! ### retryWaiting -/

@[simp] theorem retryWaiting_gauger (s : State) : (retryWaiting s).gauger = s.gauger := by
  unfold retryWaiting; dsimp only; rw [foldl_field (·.gauger) _ (fun s x => by simp)]
@[simp] theorem retryWaiting_log (s : State) : (retryWaiting s).log = s.log := by
  unfold retryWaiting; dsimp only; rw [foldl_field (·.log) _ (fun s x => by simp)]
@[simp] theorem retryWaiting_pages (s : State) : (retryWaiting s).pages = s.pages := by
  unfold retryWaiting; dsimp only; rw [foldl_field (·.pages) _ (fun s x => by simp)]
@[simp] theorem retryWaiting_regs (s : State) : (retryWaiting s).regs = s.regs := by
  unfold retryWaiting; dsimp only; rw [foldl_field (·.regs) _ (fun s x => by simp)]
@[simp] theorem retryWaiting_ctxs (s : State) : (retryWaiting s).ctxs = s.ctxs := by
  unfold retryWaiting; dsimp only; rw [foldl_field (·.ctxs) _ (fun s x => by simp)]
@[simp] theorem retryWaiting_planInForce (s : State) : (retryWaiting s).planInForce = s.planInForce := by
  unfold retryWaiting; dsimp only; rw [foldl_field (·.planInForce) _ (fun s x => by simp)]
@[simp] theorem retryWaiting_planStaged (s : State) : (retryWaiting s).planStaged = s.planStaged := by
  unfold retryWaiting; dsimp only; rw [foldl_field (·.planStaged) _ (fun s x => by simp)]
@[simp] theorem retryWaiting_cat (s : State) : (retryWaiting s).cat = s.cat := by
  unfold retryWaiting; dsimp only; rw [foldl_field (·.cat) _ (fun s x => by simp)]
@[simp] theorem retryWaiting_catStaged (s : State) : (retryWaiting s).catStaged = s.catStaged := by
  unfold retryWaiting; dsimp only; rw [foldl_field (·.catStaged) _ (fun s x => by simp)]
@[simp] theorem retryWaiting_staging (s : State) : (retryWaiting s).staging = s.staging := by
  unfold retryWaiting; dsimp only; rw [foldl_field (·.staging) _ (fun s x => by simp)]
@[simp] theorem retryWaiting_catRetiring (s : State) : (retryWaiting s).catRetiring = s.catRetiring := by
  unfold retryWaiting; dsimp only; rw [foldl_field (·.catRetiring) _ (fun s x => by simp)]
@[simp] theorem retryWaiting_dir (s : State) : (retryWaiting s).dir = s.dir := by
  unfold retryWaiting; dsimp only; rw [foldl_field (·.dir) _ (fun s x => by simp)]
@[simp] theorem retryWaiting_dirStaged (s : State) : (retryWaiting s).dirStaged = s.dirStaged := by
  unfold retryWaiting; dsimp only; rw [foldl_field (·.dirStaged) _ (fun s x => by simp)]
@[simp] theorem retryWaiting_dirOld (s : State) : (retryWaiting s).dirOld = s.dirOld := by
  unfold retryWaiting; dsimp only; rw [foldl_field (·.dirOld) _ (fun s x => by simp)]
@[simp] theorem retryWaiting_handles (s : State) : (retryWaiting s).handles = s.handles := by
  unfold retryWaiting; dsimp only; rw [foldl_field (·.handles) _ (fun s x => by simp)]
@[simp] theorem retryWaiting_tenantRecs (s : State) : (retryWaiting s).tenantRecs = s.tenantRecs := by
  unfold retryWaiting; dsimp only; rw [foldl_field (·.tenantRecs) _ (fun s x => by simp)]
@[simp] theorem retryWaiting_gyles (s : State) : (retryWaiting s).gyles = s.gyles := by
  unfold retryWaiting; dsimp only; rw [foldl_field (·.gyles) _ (fun s x => by simp)]
@[simp] theorem retryWaiting_tuns (s : State) : (retryWaiting s).tuns = s.tuns := by
  unfold retryWaiting; dsimp only; rw [foldl_field (·.tuns) _ (fun s x => by simp)]
@[simp] theorem retryWaiting_heldGroups (s : State) : (retryWaiting s).heldGroups = s.heldGroups := by
  unfold retryWaiting; dsimp only; rw [foldl_field (·.heldGroups) _ (fun s x => by simp)]
@[simp] theorem retryWaiting_orphans (s : State) : (retryWaiting s).orphans = s.orphans := by
  unfold retryWaiting; dsimp only; rw [foldl_field (·.orphans) _ (fun s x => by simp)]
@[simp] theorem retryWaiting_nextHold (s : State) : (retryWaiting s).nextHold = s.nextHold := by
  unfold retryWaiting; dsimp only; rw [foldl_field (·.nextHold) _ (fun s x => by simp)]
@[simp] theorem retryWaiting_sortRows (s : State) : (retryWaiting s).sortRows = s.sortRows := by
  unfold retryWaiting; dsimp only; rw [foldl_field (·.sortRows) _ (fun s x => by simp)]
@[simp] theorem retryWaiting_ports (s : State) : (retryWaiting s).ports = s.ports := by
  unfold retryWaiting; dsimp only; rw [foldl_field (·.ports) _ (fun s x => by simp)]
@[simp] theorem retryWaiting_spillUsed (s : State) : (retryWaiting s).spillUsed = s.spillUsed := by
  unfold retryWaiting; dsimp only; rw [foldl_field (·.spillUsed) _ (fun s x => by simp)]
@[simp] theorem retryWaiting_cellar (s : State) : (retryWaiting s).cellar = s.cellar := by
  unfold retryWaiting; dsimp only; rw [foldl_field (·.cellar) _ (fun s x => by simp)]
@[simp] theorem retryWaiting_tiers (s : State) : (retryWaiting s).tiers = s.tiers := by
  unfold retryWaiting; dsimp only; rw [foldl_field (·.tiers) _ (fun s x => by simp)]
@[simp] theorem retryWaiting_train (s : State) : (retryWaiting s).train = s.train := by
  unfold retryWaiting; dsimp only; rw [foldl_field (·.train) _ (fun s x => by simp)]
@[simp] theorem retryWaiting_homes (s : State) : (retryWaiting s).homes = s.homes := by
  unfold retryWaiting; dsimp only; rw [foldl_field (·.homes) _ (fun s x => by simp)]
@[simp] theorem retryWaiting_kiln (s : State) : (retryWaiting s).kiln = s.kiln := by
  unfold retryWaiting; dsimp only; rw [foldl_field (·.kiln) _ (fun s x => by simp)]
@[simp] theorem retryWaiting_integrity (s : State) : (retryWaiting s).integrity = s.integrity := by
  unfold retryWaiting; dsimp only; rw [foldl_field (·.integrity) _ (fun s x => by simp)]
@[simp] theorem retryWaiting_repair (s : State) : (retryWaiting s).repair = s.repair := by
  unfold retryWaiting; dsimp only; rw [foldl_field (·.repair) _ (fun s x => by simp)]
@[simp] theorem retryWaiting_pace (s : State) : (retryWaiting s).pace = s.pace := by
  unfold retryWaiting; dsimp only; rw [foldl_field (·.pace) _ (fun s x => by simp)]
@[simp] theorem retryWaiting_keys (s : State) : (retryWaiting s).keys = s.keys := by
  unfold retryWaiting; dsimp only; rw [foldl_field (·.keys) _ (fun s x => by simp)]
@[simp] theorem retryWaiting_fuses (s : State) : (retryWaiting s).fuses = s.fuses := by
  unfold retryWaiting; dsimp only; rw [foldl_field (·.fuses) _ (fun s x => by simp)]
@[simp] theorem retryWaiting_glob (s : State) : (retryWaiting s).glob = s.glob := by
  unfold retryWaiting; dsimp only; rw [foldl_field (·.glob) _ (fun s x => by simp)]
@[simp] theorem retryWaiting_outs (s : State) : (retryWaiting s).outs = s.outs := by
  unfold retryWaiting; dsimp only; rw [foldl_field (·.outs) _ (fun s x => by simp)]
@[simp] theorem retryWaiting_freeCtr (s : State) : (retryWaiting s).freeCtr = s.freeCtr := by
  unfold retryWaiting; dsimp only; rw [foldl_field (·.freeCtr) _ (fun s x => by simp)]
@[simp] theorem retryWaiting_pending (s : State) : (retryWaiting s).pending = s.pending := by
  unfold retryWaiting; dsimp only; rw [foldl_field (·.pending) _ (fun s x => by simp)]

/-! ### settle -/

@[simp] theorem settle_regs (s : State) (c : Nat) : (settle s c).regs = s.regs := by
  unfold settle; split <;> simp
@[simp] theorem settle_planInForce (s : State) (c : Nat) : (settle s c).planInForce = s.planInForce := by
  unfold settle; split <;> simp
@[simp] theorem settle_planStaged (s : State) (c : Nat) : (settle s c).planStaged = s.planStaged := by
  unfold settle; split <;> simp
@[simp] theorem settle_cat (s : State) (c : Nat) : (settle s c).cat = s.cat := by
  unfold settle; split <;> simp
@[simp] theorem settle_catStaged (s : State) (c : Nat) : (settle s c).catStaged = s.catStaged := by
  unfold settle; split <;> simp
@[simp] theorem settle_staging (s : State) (c : Nat) : (settle s c).staging = s.staging := by
  unfold settle; split <;> simp
@[simp] theorem settle_catRetiring (s : State) (c : Nat) : (settle s c).catRetiring = s.catRetiring := by
  unfold settle; split <;> simp
@[simp] theorem settle_dir (s : State) (c : Nat) : (settle s c).dir = s.dir := by
  unfold settle; split <;> simp
@[simp] theorem settle_dirStaged (s : State) (c : Nat) : (settle s c).dirStaged = s.dirStaged := by
  unfold settle; split <;> simp
@[simp] theorem settle_dirOld (s : State) (c : Nat) : (settle s c).dirOld = s.dirOld := by
  unfold settle; split <;> simp
@[simp] theorem settle_handles (s : State) (c : Nat) : (settle s c).handles = s.handles := by
  unfold settle; split <;> simp
@[simp] theorem settle_tenantRecs (s : State) (c : Nat) : (settle s c).tenantRecs = s.tenantRecs := by
  unfold settle; split <;> simp
@[simp] theorem settle_gyles (s : State) (c : Nat) : (settle s c).gyles = s.gyles := by
  unfold settle; split <;> simp
@[simp] theorem settle_tuns (s : State) (c : Nat) : (settle s c).tuns = s.tuns := by
  unfold settle; split <;> simp
@[simp] theorem settle_heldGroups (s : State) (c : Nat) : (settle s c).heldGroups = s.heldGroups := by
  unfold settle; split <;> simp
@[simp] theorem settle_orphans (s : State) (c : Nat) : (settle s c).orphans = s.orphans := by
  unfold settle; split <;> simp
@[simp] theorem settle_nextHold (s : State) (c : Nat) : (settle s c).nextHold = s.nextHold := by
  unfold settle; split <;> simp
@[simp] theorem settle_sortRows (s : State) (c : Nat) : (settle s c).sortRows = s.sortRows := by
  unfold settle; split <;> simp
@[simp] theorem settle_ports (s : State) (c : Nat) : (settle s c).ports = s.ports := by
  unfold settle; split <;> simp
@[simp] theorem settle_spillUsed (s : State) (c : Nat) : (settle s c).spillUsed = s.spillUsed := by
  unfold settle; split <;> simp
@[simp] theorem settle_cellar (s : State) (c : Nat) : (settle s c).cellar = s.cellar := by
  unfold settle; split <;> simp
@[simp] theorem settle_tiers (s : State) (c : Nat) : (settle s c).tiers = s.tiers := by
  unfold settle; split <;> simp
@[simp] theorem settle_train (s : State) (c : Nat) : (settle s c).train = s.train := by
  unfold settle; split <;> simp
@[simp] theorem settle_homes (s : State) (c : Nat) : (settle s c).homes = s.homes := by
  unfold settle; split <;> simp
@[simp] theorem settle_kiln (s : State) (c : Nat) : (settle s c).kiln = s.kiln := by
  unfold settle; split <;> simp
@[simp] theorem settle_integrity (s : State) (c : Nat) : (settle s c).integrity = s.integrity := by
  unfold settle; split <;> simp
@[simp] theorem settle_repair (s : State) (c : Nat) : (settle s c).repair = s.repair := by
  unfold settle; split <;> simp
@[simp] theorem settle_pace (s : State) (c : Nat) : (settle s c).pace = s.pace := by
  unfold settle; split <;> simp
@[simp] theorem settle_keys (s : State) (c : Nat) : (settle s c).keys = s.keys := by
  unfold settle; split <;> simp
@[simp] theorem settle_boundary (s : State) (c : Nat) : (settle s c).boundary = s.boundary := by
  unfold settle; split <;> simp
@[simp] theorem settle_fuses (s : State) (c : Nat) : (settle s c).fuses = s.fuses := by
  unfold settle; split <;> simp
@[simp] theorem settle_glob (s : State) (c : Nat) : (settle s c).glob = s.glob := by
  unfold settle; split <;> simp
@[simp] theorem settle_outs (s : State) (c : Nat) : (settle s c).outs = s.outs := by
  unfold settle; split <;> simp
@[simp] theorem settle_freeCtr (s : State) (c : Nat) : (settle s c).freeCtr = s.freeCtr := by
  unfold settle; split <;> simp
@[simp] theorem settle_pending (s : State) (c : Nat) : (settle s c).pending = s.pending := by
  unfold settle; split <;> simp

/-! ### pump -/

@[simp] theorem pump_regs (s : State) (c : Nat) : (pump s c).regs = s.regs := by
  unfold pump; dsimp only; repeat' split
  all_goals simp
@[simp] theorem pump_planInForce (s : State) (c : Nat) : (pump s c).planInForce = s.planInForce := by
  unfold pump; dsimp only; repeat' split
  all_goals simp
@[simp] theorem pump_planStaged (s : State) (c : Nat) : (pump s c).planStaged = s.planStaged := by
  unfold pump; dsimp only; repeat' split
  all_goals simp
@[simp] theorem pump_cat (s : State) (c : Nat) : (pump s c).cat = s.cat := by
  unfold pump; dsimp only; repeat' split
  all_goals simp
@[simp] theorem pump_catStaged (s : State) (c : Nat) : (pump s c).catStaged = s.catStaged := by
  unfold pump; dsimp only; repeat' split
  all_goals simp
@[simp] theorem pump_staging (s : State) (c : Nat) : (pump s c).staging = s.staging := by
  unfold pump; dsimp only; repeat' split
  all_goals simp
@[simp] theorem pump_catRetiring (s : State) (c : Nat) : (pump s c).catRetiring = s.catRetiring := by
  unfold pump; dsimp only; repeat' split
  all_goals simp
@[simp] theorem pump_dir (s : State) (c : Nat) : (pump s c).dir = s.dir := by
  unfold pump; dsimp only; repeat' split
  all_goals simp
@[simp] theorem pump_dirStaged (s : State) (c : Nat) : (pump s c).dirStaged = s.dirStaged := by
  unfold pump; dsimp only; repeat' split
  all_goals simp
@[simp] theorem pump_dirOld (s : State) (c : Nat) : (pump s c).dirOld = s.dirOld := by
  unfold pump; dsimp only; repeat' split
  all_goals simp
@[simp] theorem pump_handles (s : State) (c : Nat) : (pump s c).handles = s.handles := by
  unfold pump; dsimp only; repeat' split
  all_goals simp
@[simp] theorem pump_tenantRecs (s : State) (c : Nat) : (pump s c).tenantRecs = s.tenantRecs := by
  unfold pump; dsimp only; repeat' split
  all_goals simp
@[simp] theorem pump_gyles (s : State) (c : Nat) : (pump s c).gyles = s.gyles := by
  unfold pump; dsimp only; repeat' split
  all_goals simp
@[simp] theorem pump_tuns (s : State) (c : Nat) : (pump s c).tuns = s.tuns := by
  unfold pump; dsimp only; repeat' split
  all_goals simp
@[simp] theorem pump_heldGroups (s : State) (c : Nat) : (pump s c).heldGroups = s.heldGroups := by
  unfold pump; dsimp only; repeat' split
  all_goals simp
@[simp] theorem pump_orphans (s : State) (c : Nat) : (pump s c).orphans = s.orphans := by
  unfold pump; dsimp only; repeat' split
  all_goals simp
@[simp] theorem pump_nextHold (s : State) (c : Nat) : (pump s c).nextHold = s.nextHold := by
  unfold pump; dsimp only; repeat' split
  all_goals simp
@[simp] theorem pump_sortRows (s : State) (c : Nat) : (pump s c).sortRows = s.sortRows := by
  unfold pump; dsimp only; repeat' split
  all_goals simp
@[simp] theorem pump_ports (s : State) (c : Nat) : (pump s c).ports = s.ports := by
  unfold pump; dsimp only; repeat' split
  all_goals simp
@[simp] theorem pump_spillUsed (s : State) (c : Nat) : (pump s c).spillUsed = s.spillUsed := by
  unfold pump; dsimp only; repeat' split
  all_goals simp
@[simp] theorem pump_cellar (s : State) (c : Nat) : (pump s c).cellar = s.cellar := by
  unfold pump; dsimp only; repeat' split
  all_goals simp
@[simp] theorem pump_tiers (s : State) (c : Nat) : (pump s c).tiers = s.tiers := by
  unfold pump; dsimp only; repeat' split
  all_goals simp
@[simp] theorem pump_train (s : State) (c : Nat) : (pump s c).train = s.train := by
  unfold pump; dsimp only; repeat' split
  all_goals simp
@[simp] theorem pump_homes (s : State) (c : Nat) : (pump s c).homes = s.homes := by
  unfold pump; dsimp only; repeat' split
  all_goals simp
@[simp] theorem pump_kiln (s : State) (c : Nat) : (pump s c).kiln = s.kiln := by
  unfold pump; dsimp only; repeat' split
  all_goals simp
@[simp] theorem pump_integrity (s : State) (c : Nat) : (pump s c).integrity = s.integrity := by
  unfold pump; dsimp only; repeat' split
  all_goals simp
@[simp] theorem pump_repair (s : State) (c : Nat) : (pump s c).repair = s.repair := by
  unfold pump; dsimp only; repeat' split
  all_goals simp
@[simp] theorem pump_pace (s : State) (c : Nat) : (pump s c).pace = s.pace := by
  unfold pump; dsimp only; repeat' split
  all_goals simp
@[simp] theorem pump_keys (s : State) (c : Nat) : (pump s c).keys = s.keys := by
  unfold pump; dsimp only; repeat' split
  all_goals simp
@[simp] theorem pump_fuses (s : State) (c : Nat) : (pump s c).fuses = s.fuses := by
  unfold pump; dsimp only; repeat' split
  all_goals simp
@[simp] theorem pump_glob (s : State) (c : Nat) : (pump s c).glob = s.glob := by
  unfold pump; dsimp only; repeat' split
  all_goals simp
@[simp] theorem pump_outs (s : State) (c : Nat) : (pump s c).outs = s.outs := by
  unfold pump; dsimp only; repeat' split
  all_goals simp
@[simp] theorem pump_freeCtr (s : State) (c : Nat) : (pump s c).freeCtr = s.freeCtr := by
  unfold pump; dsimp only; repeat' split
  all_goals simp
@[simp] theorem pump_pending (s : State) (c : Nat) : (pump s c).pending = s.pending := by
  unfold pump; dsimp only; repeat' split
  all_goals simp

/-! ### afterCmd -/

@[simp] theorem afterCmd_regs (s : State) (c : Nat) : (afterCmd s c).regs = s.regs := by
  simp [afterCmd]
@[simp] theorem afterCmd_planInForce (s : State) (c : Nat) : (afterCmd s c).planInForce = s.planInForce := by
  simp [afterCmd]
@[simp] theorem afterCmd_planStaged (s : State) (c : Nat) : (afterCmd s c).planStaged = s.planStaged := by
  simp [afterCmd]
@[simp] theorem afterCmd_cat (s : State) (c : Nat) : (afterCmd s c).cat = s.cat := by
  simp [afterCmd]
@[simp] theorem afterCmd_catStaged (s : State) (c : Nat) : (afterCmd s c).catStaged = s.catStaged := by
  simp [afterCmd]
@[simp] theorem afterCmd_staging (s : State) (c : Nat) : (afterCmd s c).staging = s.staging := by
  simp [afterCmd]
@[simp] theorem afterCmd_catRetiring (s : State) (c : Nat) : (afterCmd s c).catRetiring = s.catRetiring := by
  simp [afterCmd]
@[simp] theorem afterCmd_dir (s : State) (c : Nat) : (afterCmd s c).dir = s.dir := by
  simp [afterCmd]
@[simp] theorem afterCmd_dirStaged (s : State) (c : Nat) : (afterCmd s c).dirStaged = s.dirStaged := by
  simp [afterCmd]
@[simp] theorem afterCmd_dirOld (s : State) (c : Nat) : (afterCmd s c).dirOld = s.dirOld := by
  simp [afterCmd]
@[simp] theorem afterCmd_handles (s : State) (c : Nat) : (afterCmd s c).handles = s.handles := by
  simp [afterCmd]
@[simp] theorem afterCmd_tenantRecs (s : State) (c : Nat) : (afterCmd s c).tenantRecs = s.tenantRecs := by
  simp [afterCmd]
@[simp] theorem afterCmd_gyles (s : State) (c : Nat) : (afterCmd s c).gyles = s.gyles := by
  simp [afterCmd]
@[simp] theorem afterCmd_tuns (s : State) (c : Nat) : (afterCmd s c).tuns = s.tuns := by
  simp [afterCmd]
@[simp] theorem afterCmd_heldGroups (s : State) (c : Nat) : (afterCmd s c).heldGroups = s.heldGroups := by
  simp [afterCmd]
@[simp] theorem afterCmd_orphans (s : State) (c : Nat) : (afterCmd s c).orphans = s.orphans := by
  simp [afterCmd]
@[simp] theorem afterCmd_nextHold (s : State) (c : Nat) : (afterCmd s c).nextHold = s.nextHold := by
  simp [afterCmd]
@[simp] theorem afterCmd_sortRows (s : State) (c : Nat) : (afterCmd s c).sortRows = s.sortRows := by
  simp [afterCmd]
@[simp] theorem afterCmd_ports (s : State) (c : Nat) : (afterCmd s c).ports = s.ports := by
  simp [afterCmd]
@[simp] theorem afterCmd_spillUsed (s : State) (c : Nat) : (afterCmd s c).spillUsed = s.spillUsed := by
  simp [afterCmd]
@[simp] theorem afterCmd_cellar (s : State) (c : Nat) : (afterCmd s c).cellar = s.cellar := by
  simp [afterCmd]
@[simp] theorem afterCmd_tiers (s : State) (c : Nat) : (afterCmd s c).tiers = s.tiers := by
  simp [afterCmd]
@[simp] theorem afterCmd_train (s : State) (c : Nat) : (afterCmd s c).train = s.train := by
  simp [afterCmd]
@[simp] theorem afterCmd_homes (s : State) (c : Nat) : (afterCmd s c).homes = s.homes := by
  simp [afterCmd]
@[simp] theorem afterCmd_kiln (s : State) (c : Nat) : (afterCmd s c).kiln = s.kiln := by
  simp [afterCmd]
@[simp] theorem afterCmd_integrity (s : State) (c : Nat) : (afterCmd s c).integrity = s.integrity := by
  simp [afterCmd]
@[simp] theorem afterCmd_repair (s : State) (c : Nat) : (afterCmd s c).repair = s.repair := by
  simp [afterCmd]
@[simp] theorem afterCmd_pace (s : State) (c : Nat) : (afterCmd s c).pace = s.pace := by
  simp [afterCmd]
@[simp] theorem afterCmd_keys (s : State) (c : Nat) : (afterCmd s c).keys = s.keys := by
  simp [afterCmd]
@[simp] theorem afterCmd_fuses (s : State) (c : Nat) : (afterCmd s c).fuses = s.fuses := by
  simp [afterCmd]
@[simp] theorem afterCmd_glob (s : State) (c : Nat) : (afterCmd s c).glob = s.glob := by
  simp [afterCmd]
@[simp] theorem afterCmd_outs (s : State) (c : Nat) : (afterCmd s c).outs = s.outs := by
  simp [afterCmd]
@[simp] theorem afterCmd_freeCtr (s : State) (c : Nat) : (afterCmd s c).freeCtr = s.freeCtr := by
  simp [afterCmd]
@[simp] theorem afterCmd_pending (s : State) (c : Nat) : (afterCmd s c).pending = s.pending := by
  simp [afterCmd]

/-! ### postRecord -/

@[simp] theorem postRecord_gauger (s : State) (c a b f i g : Nat) (r : List Byte) (d : Option Nat) : (postRecord s c a b f i g r d).gauger = s.gauger := by
  unfold postRecord; dsimp only; split <;> simp
@[simp] theorem postRecord_log (s : State) (c a b f i g : Nat) (r : List Byte) (d : Option Nat) : (postRecord s c a b f i g r d).log = s.log := by
  unfold postRecord; dsimp only; split <;> simp
@[simp] theorem postRecord_pages (s : State) (c a b f i g : Nat) (r : List Byte) (d : Option Nat) : (postRecord s c a b f i g r d).pages = s.pages := by
  unfold postRecord; dsimp only; split <;> simp
@[simp] theorem postRecord_regs (s : State) (c a b f i g : Nat) (r : List Byte) (d : Option Nat) : (postRecord s c a b f i g r d).regs = s.regs := by
  unfold postRecord; dsimp only; split <;> simp
@[simp] theorem postRecord_planInForce (s : State) (c a b f i g : Nat) (r : List Byte) (d : Option Nat) : (postRecord s c a b f i g r d).planInForce = s.planInForce := by
  unfold postRecord; dsimp only; split <;> simp
@[simp] theorem postRecord_planStaged (s : State) (c a b f i g : Nat) (r : List Byte) (d : Option Nat) : (postRecord s c a b f i g r d).planStaged = s.planStaged := by
  unfold postRecord; dsimp only; split <;> simp
@[simp] theorem postRecord_cat (s : State) (c a b f i g : Nat) (r : List Byte) (d : Option Nat) : (postRecord s c a b f i g r d).cat = s.cat := by
  unfold postRecord; dsimp only; split <;> simp
@[simp] theorem postRecord_catStaged (s : State) (c a b f i g : Nat) (r : List Byte) (d : Option Nat) : (postRecord s c a b f i g r d).catStaged = s.catStaged := by
  unfold postRecord; dsimp only; split <;> simp
@[simp] theorem postRecord_staging (s : State) (c a b f i g : Nat) (r : List Byte) (d : Option Nat) : (postRecord s c a b f i g r d).staging = s.staging := by
  unfold postRecord; dsimp only; split <;> simp
@[simp] theorem postRecord_catRetiring (s : State) (c a b f i g : Nat) (r : List Byte) (d : Option Nat) : (postRecord s c a b f i g r d).catRetiring = s.catRetiring := by
  unfold postRecord; dsimp only; split <;> simp
@[simp] theorem postRecord_dir (s : State) (c a b f i g : Nat) (r : List Byte) (d : Option Nat) : (postRecord s c a b f i g r d).dir = s.dir := by
  unfold postRecord; dsimp only; split <;> simp
@[simp] theorem postRecord_dirStaged (s : State) (c a b f i g : Nat) (r : List Byte) (d : Option Nat) : (postRecord s c a b f i g r d).dirStaged = s.dirStaged := by
  unfold postRecord; dsimp only; split <;> simp
@[simp] theorem postRecord_dirOld (s : State) (c a b f i g : Nat) (r : List Byte) (d : Option Nat) : (postRecord s c a b f i g r d).dirOld = s.dirOld := by
  unfold postRecord; dsimp only; split <;> simp
@[simp] theorem postRecord_handles (s : State) (c a b f i g : Nat) (r : List Byte) (d : Option Nat) : (postRecord s c a b f i g r d).handles = s.handles := by
  unfold postRecord; dsimp only; split <;> simp
@[simp] theorem postRecord_tenantRecs (s : State) (c a b f i g : Nat) (r : List Byte) (d : Option Nat) : (postRecord s c a b f i g r d).tenantRecs = s.tenantRecs := by
  unfold postRecord; dsimp only; split <;> simp
@[simp] theorem postRecord_gyles (s : State) (c a b f i g : Nat) (r : List Byte) (d : Option Nat) : (postRecord s c a b f i g r d).gyles = s.gyles := by
  unfold postRecord; dsimp only; split <;> simp
@[simp] theorem postRecord_tuns (s : State) (c a b f i g : Nat) (r : List Byte) (d : Option Nat) : (postRecord s c a b f i g r d).tuns = s.tuns := by
  unfold postRecord; dsimp only; split <;> simp
@[simp] theorem postRecord_heldGroups (s : State) (c a b f i g : Nat) (r : List Byte) (d : Option Nat) : (postRecord s c a b f i g r d).heldGroups = s.heldGroups := by
  unfold postRecord; dsimp only; split <;> simp
@[simp] theorem postRecord_orphans (s : State) (c a b f i g : Nat) (r : List Byte) (d : Option Nat) : (postRecord s c a b f i g r d).orphans = s.orphans := by
  unfold postRecord; dsimp only; split <;> simp
@[simp] theorem postRecord_nextHold (s : State) (c a b f i g : Nat) (r : List Byte) (d : Option Nat) : (postRecord s c a b f i g r d).nextHold = s.nextHold := by
  unfold postRecord; dsimp only; split <;> simp
@[simp] theorem postRecord_sortRows (s : State) (c a b f i g : Nat) (r : List Byte) (d : Option Nat) : (postRecord s c a b f i g r d).sortRows = s.sortRows := by
  unfold postRecord; dsimp only; split <;> simp
@[simp] theorem postRecord_ports (s : State) (c a b f i g : Nat) (r : List Byte) (d : Option Nat) : (postRecord s c a b f i g r d).ports = s.ports := by
  unfold postRecord; dsimp only; split <;> simp
@[simp] theorem postRecord_spillUsed (s : State) (c a b f i g : Nat) (r : List Byte) (d : Option Nat) : (postRecord s c a b f i g r d).spillUsed = s.spillUsed := by
  unfold postRecord; dsimp only; split <;> simp
@[simp] theorem postRecord_cellar (s : State) (c a b f i g : Nat) (r : List Byte) (d : Option Nat) : (postRecord s c a b f i g r d).cellar = s.cellar := by
  unfold postRecord; dsimp only; split <;> simp
@[simp] theorem postRecord_tiers (s : State) (c a b f i g : Nat) (r : List Byte) (d : Option Nat) : (postRecord s c a b f i g r d).tiers = s.tiers := by
  unfold postRecord; dsimp only; split <;> simp
@[simp] theorem postRecord_train (s : State) (c a b f i g : Nat) (r : List Byte) (d : Option Nat) : (postRecord s c a b f i g r d).train = s.train := by
  unfold postRecord; dsimp only; split <;> simp
@[simp] theorem postRecord_homes (s : State) (c a b f i g : Nat) (r : List Byte) (d : Option Nat) : (postRecord s c a b f i g r d).homes = s.homes := by
  unfold postRecord; dsimp only; split <;> simp
@[simp] theorem postRecord_kiln (s : State) (c a b f i g : Nat) (r : List Byte) (d : Option Nat) : (postRecord s c a b f i g r d).kiln = s.kiln := by
  unfold postRecord; dsimp only; split <;> simp
@[simp] theorem postRecord_integrity (s : State) (c a b f i g : Nat) (r : List Byte) (d : Option Nat) : (postRecord s c a b f i g r d).integrity = s.integrity := by
  unfold postRecord; dsimp only; split <;> simp
@[simp] theorem postRecord_repair (s : State) (c a b f i g : Nat) (r : List Byte) (d : Option Nat) : (postRecord s c a b f i g r d).repair = s.repair := by
  unfold postRecord; dsimp only; split <;> simp
@[simp] theorem postRecord_pace (s : State) (c a b f i g : Nat) (r : List Byte) (d : Option Nat) : (postRecord s c a b f i g r d).pace = s.pace := by
  unfold postRecord; dsimp only; split <;> simp
@[simp] theorem postRecord_keys (s : State) (c a b f i g : Nat) (r : List Byte) (d : Option Nat) : (postRecord s c a b f i g r d).keys = s.keys := by
  unfold postRecord; dsimp only; split <;> simp
@[simp] theorem postRecord_fuses (s : State) (c a b f i g : Nat) (r : List Byte) (d : Option Nat) : (postRecord s c a b f i g r d).fuses = s.fuses := by
  unfold postRecord; dsimp only; split <;> simp
@[simp] theorem postRecord_glob (s : State) (c a b f i g : Nat) (r : List Byte) (d : Option Nat) : (postRecord s c a b f i g r d).glob = s.glob := by
  unfold postRecord; dsimp only; split <;> simp
@[simp] theorem postRecord_outs (s : State) (c a b f i g : Nat) (r : List Byte) (d : Option Nat) : (postRecord s c a b f i g r d).outs = s.outs := by
  unfold postRecord; dsimp only; split <;> simp
@[simp] theorem postRecord_freeCtr (s : State) (c a b f i g : Nat) (r : List Byte) (d : Option Nat) : (postRecord s c a b f i g r d).freeCtr = s.freeCtr := by
  unfold postRecord; dsimp only; split <;> simp
@[simp] theorem postRecord_pending (s : State) (c a b f i g : Nat) (r : List Byte) (d : Option Nat) : (postRecord s c a b f i g r d).pending = s.pending := by
  unfold postRecord; dsimp only; split <;> simp

/-! ### refuseCmd -/

@[simp] theorem refuseCmd_regs (s : State) (c : Nat) (fr : Front) (o g : Nat) (b : Bad) : (refuseCmd s c fr o g b).regs = s.regs := by
  simp [refuseCmd]
@[simp] theorem refuseCmd_planInForce (s : State) (c : Nat) (fr : Front) (o g : Nat) (b : Bad) : (refuseCmd s c fr o g b).planInForce = s.planInForce := by
  simp [refuseCmd]
@[simp] theorem refuseCmd_planStaged (s : State) (c : Nat) (fr : Front) (o g : Nat) (b : Bad) : (refuseCmd s c fr o g b).planStaged = s.planStaged := by
  simp [refuseCmd]
@[simp] theorem refuseCmd_cat (s : State) (c : Nat) (fr : Front) (o g : Nat) (b : Bad) : (refuseCmd s c fr o g b).cat = s.cat := by
  simp [refuseCmd]
@[simp] theorem refuseCmd_catStaged (s : State) (c : Nat) (fr : Front) (o g : Nat) (b : Bad) : (refuseCmd s c fr o g b).catStaged = s.catStaged := by
  simp [refuseCmd]
@[simp] theorem refuseCmd_staging (s : State) (c : Nat) (fr : Front) (o g : Nat) (b : Bad) : (refuseCmd s c fr o g b).staging = s.staging := by
  simp [refuseCmd]
@[simp] theorem refuseCmd_catRetiring (s : State) (c : Nat) (fr : Front) (o g : Nat) (b : Bad) : (refuseCmd s c fr o g b).catRetiring = s.catRetiring := by
  simp [refuseCmd]
@[simp] theorem refuseCmd_dir (s : State) (c : Nat) (fr : Front) (o g : Nat) (b : Bad) : (refuseCmd s c fr o g b).dir = s.dir := by
  simp [refuseCmd]
@[simp] theorem refuseCmd_dirStaged (s : State) (c : Nat) (fr : Front) (o g : Nat) (b : Bad) : (refuseCmd s c fr o g b).dirStaged = s.dirStaged := by
  simp [refuseCmd]
@[simp] theorem refuseCmd_dirOld (s : State) (c : Nat) (fr : Front) (o g : Nat) (b : Bad) : (refuseCmd s c fr o g b).dirOld = s.dirOld := by
  simp [refuseCmd]
@[simp] theorem refuseCmd_handles (s : State) (c : Nat) (fr : Front) (o g : Nat) (b : Bad) : (refuseCmd s c fr o g b).handles = s.handles := by
  simp [refuseCmd]
@[simp] theorem refuseCmd_tenantRecs (s : State) (c : Nat) (fr : Front) (o g : Nat) (b : Bad) : (refuseCmd s c fr o g b).tenantRecs = s.tenantRecs := by
  simp [refuseCmd]
@[simp] theorem refuseCmd_gyles (s : State) (c : Nat) (fr : Front) (o g : Nat) (b : Bad) : (refuseCmd s c fr o g b).gyles = s.gyles := by
  simp [refuseCmd]
@[simp] theorem refuseCmd_tuns (s : State) (c : Nat) (fr : Front) (o g : Nat) (b : Bad) : (refuseCmd s c fr o g b).tuns = s.tuns := by
  simp [refuseCmd]
@[simp] theorem refuseCmd_heldGroups (s : State) (c : Nat) (fr : Front) (o g : Nat) (b : Bad) : (refuseCmd s c fr o g b).heldGroups = s.heldGroups := by
  simp [refuseCmd]
@[simp] theorem refuseCmd_orphans (s : State) (c : Nat) (fr : Front) (o g : Nat) (b : Bad) : (refuseCmd s c fr o g b).orphans = s.orphans := by
  simp [refuseCmd]
@[simp] theorem refuseCmd_nextHold (s : State) (c : Nat) (fr : Front) (o g : Nat) (b : Bad) : (refuseCmd s c fr o g b).nextHold = s.nextHold := by
  simp [refuseCmd]
@[simp] theorem refuseCmd_sortRows (s : State) (c : Nat) (fr : Front) (o g : Nat) (b : Bad) : (refuseCmd s c fr o g b).sortRows = s.sortRows := by
  simp [refuseCmd]
@[simp] theorem refuseCmd_ports (s : State) (c : Nat) (fr : Front) (o g : Nat) (b : Bad) : (refuseCmd s c fr o g b).ports = s.ports := by
  simp [refuseCmd]
@[simp] theorem refuseCmd_spillUsed (s : State) (c : Nat) (fr : Front) (o g : Nat) (b : Bad) : (refuseCmd s c fr o g b).spillUsed = s.spillUsed := by
  simp [refuseCmd]
@[simp] theorem refuseCmd_cellar (s : State) (c : Nat) (fr : Front) (o g : Nat) (b : Bad) : (refuseCmd s c fr o g b).cellar = s.cellar := by
  simp [refuseCmd]
@[simp] theorem refuseCmd_tiers (s : State) (c : Nat) (fr : Front) (o g : Nat) (b : Bad) : (refuseCmd s c fr o g b).tiers = s.tiers := by
  simp [refuseCmd]
@[simp] theorem refuseCmd_train (s : State) (c : Nat) (fr : Front) (o g : Nat) (b : Bad) : (refuseCmd s c fr o g b).train = s.train := by
  simp [refuseCmd]
@[simp] theorem refuseCmd_homes (s : State) (c : Nat) (fr : Front) (o g : Nat) (b : Bad) : (refuseCmd s c fr o g b).homes = s.homes := by
  simp [refuseCmd]
@[simp] theorem refuseCmd_kiln (s : State) (c : Nat) (fr : Front) (o g : Nat) (b : Bad) : (refuseCmd s c fr o g b).kiln = s.kiln := by
  simp [refuseCmd]
@[simp] theorem refuseCmd_integrity (s : State) (c : Nat) (fr : Front) (o g : Nat) (b : Bad) : (refuseCmd s c fr o g b).integrity = s.integrity := by
  simp [refuseCmd]
@[simp] theorem refuseCmd_repair (s : State) (c : Nat) (fr : Front) (o g : Nat) (b : Bad) : (refuseCmd s c fr o g b).repair = s.repair := by
  simp [refuseCmd]
@[simp] theorem refuseCmd_pace (s : State) (c : Nat) (fr : Front) (o g : Nat) (b : Bad) : (refuseCmd s c fr o g b).pace = s.pace := by
  simp [refuseCmd]
@[simp] theorem refuseCmd_keys (s : State) (c : Nat) (fr : Front) (o g : Nat) (b : Bad) : (refuseCmd s c fr o g b).keys = s.keys := by
  simp [refuseCmd]
@[simp] theorem refuseCmd_fuses (s : State) (c : Nat) (fr : Front) (o g : Nat) (b : Bad) : (refuseCmd s c fr o g b).fuses = s.fuses := by
  simp [refuseCmd]
@[simp] theorem refuseCmd_glob (s : State) (c : Nat) (fr : Front) (o g : Nat) (b : Bad) : (refuseCmd s c fr o g b).glob = s.glob := by
  simp [refuseCmd]
@[simp] theorem refuseCmd_outs (s : State) (c : Nat) (fr : Front) (o g : Nat) (b : Bad) : (refuseCmd s c fr o g b).outs = s.outs := by
  simp [refuseCmd]
@[simp] theorem refuseCmd_freeCtr (s : State) (c : Nat) (fr : Front) (o g : Nat) (b : Bad) : (refuseCmd s c fr o g b).freeCtr = s.freeCtr := by
  simp [refuseCmd]
@[simp] theorem refuseCmd_pending (s : State) (c : Nat) (fr : Front) (o g : Nat) (b : Bad) : (refuseCmd s c fr o g b).pending = s.pending := by
  simp [refuseCmd]

/-! ### doneCmd -/

@[simp] theorem doneCmd_regs (s : State) (c : Nat) (fr : Front) (d : Desc) (r : List Byte) : (doneCmd s c fr d r).regs = s.regs := by
  simp [doneCmd]
@[simp] theorem doneCmd_planInForce (s : State) (c : Nat) (fr : Front) (d : Desc) (r : List Byte) : (doneCmd s c fr d r).planInForce = s.planInForce := by
  simp [doneCmd]
@[simp] theorem doneCmd_planStaged (s : State) (c : Nat) (fr : Front) (d : Desc) (r : List Byte) : (doneCmd s c fr d r).planStaged = s.planStaged := by
  simp [doneCmd]
@[simp] theorem doneCmd_cat (s : State) (c : Nat) (fr : Front) (d : Desc) (r : List Byte) : (doneCmd s c fr d r).cat = s.cat := by
  simp [doneCmd]
@[simp] theorem doneCmd_catStaged (s : State) (c : Nat) (fr : Front) (d : Desc) (r : List Byte) : (doneCmd s c fr d r).catStaged = s.catStaged := by
  simp [doneCmd]
@[simp] theorem doneCmd_staging (s : State) (c : Nat) (fr : Front) (d : Desc) (r : List Byte) : (doneCmd s c fr d r).staging = s.staging := by
  simp [doneCmd]
@[simp] theorem doneCmd_catRetiring (s : State) (c : Nat) (fr : Front) (d : Desc) (r : List Byte) : (doneCmd s c fr d r).catRetiring = s.catRetiring := by
  simp [doneCmd]
@[simp] theorem doneCmd_dir (s : State) (c : Nat) (fr : Front) (d : Desc) (r : List Byte) : (doneCmd s c fr d r).dir = s.dir := by
  simp [doneCmd]
@[simp] theorem doneCmd_dirStaged (s : State) (c : Nat) (fr : Front) (d : Desc) (r : List Byte) : (doneCmd s c fr d r).dirStaged = s.dirStaged := by
  simp [doneCmd]
@[simp] theorem doneCmd_dirOld (s : State) (c : Nat) (fr : Front) (d : Desc) (r : List Byte) : (doneCmd s c fr d r).dirOld = s.dirOld := by
  simp [doneCmd]
@[simp] theorem doneCmd_handles (s : State) (c : Nat) (fr : Front) (d : Desc) (r : List Byte) : (doneCmd s c fr d r).handles = s.handles := by
  simp [doneCmd]
@[simp] theorem doneCmd_tenantRecs (s : State) (c : Nat) (fr : Front) (d : Desc) (r : List Byte) : (doneCmd s c fr d r).tenantRecs = s.tenantRecs := by
  simp [doneCmd]
@[simp] theorem doneCmd_gyles (s : State) (c : Nat) (fr : Front) (d : Desc) (r : List Byte) : (doneCmd s c fr d r).gyles = s.gyles := by
  simp [doneCmd]
@[simp] theorem doneCmd_tuns (s : State) (c : Nat) (fr : Front) (d : Desc) (r : List Byte) : (doneCmd s c fr d r).tuns = s.tuns := by
  simp [doneCmd]
@[simp] theorem doneCmd_heldGroups (s : State) (c : Nat) (fr : Front) (d : Desc) (r : List Byte) : (doneCmd s c fr d r).heldGroups = s.heldGroups := by
  simp [doneCmd]
@[simp] theorem doneCmd_orphans (s : State) (c : Nat) (fr : Front) (d : Desc) (r : List Byte) : (doneCmd s c fr d r).orphans = s.orphans := by
  simp [doneCmd]
@[simp] theorem doneCmd_nextHold (s : State) (c : Nat) (fr : Front) (d : Desc) (r : List Byte) : (doneCmd s c fr d r).nextHold = s.nextHold := by
  simp [doneCmd]
@[simp] theorem doneCmd_sortRows (s : State) (c : Nat) (fr : Front) (d : Desc) (r : List Byte) : (doneCmd s c fr d r).sortRows = s.sortRows := by
  simp [doneCmd]
@[simp] theorem doneCmd_ports (s : State) (c : Nat) (fr : Front) (d : Desc) (r : List Byte) : (doneCmd s c fr d r).ports = s.ports := by
  simp [doneCmd]
@[simp] theorem doneCmd_spillUsed (s : State) (c : Nat) (fr : Front) (d : Desc) (r : List Byte) : (doneCmd s c fr d r).spillUsed = s.spillUsed := by
  simp [doneCmd]
@[simp] theorem doneCmd_cellar (s : State) (c : Nat) (fr : Front) (d : Desc) (r : List Byte) : (doneCmd s c fr d r).cellar = s.cellar := by
  simp [doneCmd]
@[simp] theorem doneCmd_tiers (s : State) (c : Nat) (fr : Front) (d : Desc) (r : List Byte) : (doneCmd s c fr d r).tiers = s.tiers := by
  simp [doneCmd]
@[simp] theorem doneCmd_train (s : State) (c : Nat) (fr : Front) (d : Desc) (r : List Byte) : (doneCmd s c fr d r).train = s.train := by
  simp [doneCmd]
@[simp] theorem doneCmd_homes (s : State) (c : Nat) (fr : Front) (d : Desc) (r : List Byte) : (doneCmd s c fr d r).homes = s.homes := by
  simp [doneCmd]
@[simp] theorem doneCmd_kiln (s : State) (c : Nat) (fr : Front) (d : Desc) (r : List Byte) : (doneCmd s c fr d r).kiln = s.kiln := by
  simp [doneCmd]
@[simp] theorem doneCmd_integrity (s : State) (c : Nat) (fr : Front) (d : Desc) (r : List Byte) : (doneCmd s c fr d r).integrity = s.integrity := by
  simp [doneCmd]
@[simp] theorem doneCmd_repair (s : State) (c : Nat) (fr : Front) (d : Desc) (r : List Byte) : (doneCmd s c fr d r).repair = s.repair := by
  simp [doneCmd]
@[simp] theorem doneCmd_pace (s : State) (c : Nat) (fr : Front) (d : Desc) (r : List Byte) : (doneCmd s c fr d r).pace = s.pace := by
  simp [doneCmd]
@[simp] theorem doneCmd_keys (s : State) (c : Nat) (fr : Front) (d : Desc) (r : List Byte) : (doneCmd s c fr d r).keys = s.keys := by
  simp [doneCmd]
@[simp] theorem doneCmd_fuses (s : State) (c : Nat) (fr : Front) (d : Desc) (r : List Byte) : (doneCmd s c fr d r).fuses = s.fuses := by
  simp [doneCmd]
@[simp] theorem doneCmd_glob (s : State) (c : Nat) (fr : Front) (d : Desc) (r : List Byte) : (doneCmd s c fr d r).glob = s.glob := by
  simp [doneCmd]
@[simp] theorem doneCmd_outs (s : State) (c : Nat) (fr : Front) (d : Desc) (r : List Byte) : (doneCmd s c fr d r).outs = s.outs := by
  simp [doneCmd]
@[simp] theorem doneCmd_freeCtr (s : State) (c : Nat) (fr : Front) (d : Desc) (r : List Byte) : (doneCmd s c fr d r).freeCtr = s.freeCtr := by
  simp [doneCmd]
@[simp] theorem doneCmd_pending (s : State) (c : Nat) (fr : Front) (d : Desc) (r : List Byte) : (doneCmd s c fr d r).pending = s.pending := by
  simp [doneCmd]

/-! ### acceptSilent -/

@[simp] theorem acceptSilent_regs (s : State) (c : Nat) : (acceptSilent s c).regs = s.regs := by
  simp [acceptSilent]
@[simp] theorem acceptSilent_planInForce (s : State) (c : Nat) : (acceptSilent s c).planInForce = s.planInForce := by
  simp [acceptSilent]
@[simp] theorem acceptSilent_planStaged (s : State) (c : Nat) : (acceptSilent s c).planStaged = s.planStaged := by
  simp [acceptSilent]
@[simp] theorem acceptSilent_cat (s : State) (c : Nat) : (acceptSilent s c).cat = s.cat := by
  simp [acceptSilent]
@[simp] theorem acceptSilent_catStaged (s : State) (c : Nat) : (acceptSilent s c).catStaged = s.catStaged := by
  simp [acceptSilent]
@[simp] theorem acceptSilent_staging (s : State) (c : Nat) : (acceptSilent s c).staging = s.staging := by
  simp [acceptSilent]
@[simp] theorem acceptSilent_catRetiring (s : State) (c : Nat) : (acceptSilent s c).catRetiring = s.catRetiring := by
  simp [acceptSilent]
@[simp] theorem acceptSilent_dir (s : State) (c : Nat) : (acceptSilent s c).dir = s.dir := by
  simp [acceptSilent]
@[simp] theorem acceptSilent_dirStaged (s : State) (c : Nat) : (acceptSilent s c).dirStaged = s.dirStaged := by
  simp [acceptSilent]
@[simp] theorem acceptSilent_dirOld (s : State) (c : Nat) : (acceptSilent s c).dirOld = s.dirOld := by
  simp [acceptSilent]
@[simp] theorem acceptSilent_handles (s : State) (c : Nat) : (acceptSilent s c).handles = s.handles := by
  simp [acceptSilent]
@[simp] theorem acceptSilent_tenantRecs (s : State) (c : Nat) : (acceptSilent s c).tenantRecs = s.tenantRecs := by
  simp [acceptSilent]
@[simp] theorem acceptSilent_gyles (s : State) (c : Nat) : (acceptSilent s c).gyles = s.gyles := by
  simp [acceptSilent]
@[simp] theorem acceptSilent_tuns (s : State) (c : Nat) : (acceptSilent s c).tuns = s.tuns := by
  simp [acceptSilent]
@[simp] theorem acceptSilent_heldGroups (s : State) (c : Nat) : (acceptSilent s c).heldGroups = s.heldGroups := by
  simp [acceptSilent]
@[simp] theorem acceptSilent_orphans (s : State) (c : Nat) : (acceptSilent s c).orphans = s.orphans := by
  simp [acceptSilent]
@[simp] theorem acceptSilent_nextHold (s : State) (c : Nat) : (acceptSilent s c).nextHold = s.nextHold := by
  simp [acceptSilent]
@[simp] theorem acceptSilent_sortRows (s : State) (c : Nat) : (acceptSilent s c).sortRows = s.sortRows := by
  simp [acceptSilent]
@[simp] theorem acceptSilent_ports (s : State) (c : Nat) : (acceptSilent s c).ports = s.ports := by
  simp [acceptSilent]
@[simp] theorem acceptSilent_spillUsed (s : State) (c : Nat) : (acceptSilent s c).spillUsed = s.spillUsed := by
  simp [acceptSilent]
@[simp] theorem acceptSilent_cellar (s : State) (c : Nat) : (acceptSilent s c).cellar = s.cellar := by
  simp [acceptSilent]
@[simp] theorem acceptSilent_tiers (s : State) (c : Nat) : (acceptSilent s c).tiers = s.tiers := by
  simp [acceptSilent]
@[simp] theorem acceptSilent_train (s : State) (c : Nat) : (acceptSilent s c).train = s.train := by
  simp [acceptSilent]
@[simp] theorem acceptSilent_homes (s : State) (c : Nat) : (acceptSilent s c).homes = s.homes := by
  simp [acceptSilent]
@[simp] theorem acceptSilent_kiln (s : State) (c : Nat) : (acceptSilent s c).kiln = s.kiln := by
  simp [acceptSilent]
@[simp] theorem acceptSilent_integrity (s : State) (c : Nat) : (acceptSilent s c).integrity = s.integrity := by
  simp [acceptSilent]
@[simp] theorem acceptSilent_repair (s : State) (c : Nat) : (acceptSilent s c).repair = s.repair := by
  simp [acceptSilent]
@[simp] theorem acceptSilent_pace (s : State) (c : Nat) : (acceptSilent s c).pace = s.pace := by
  simp [acceptSilent]
@[simp] theorem acceptSilent_keys (s : State) (c : Nat) : (acceptSilent s c).keys = s.keys := by
  simp [acceptSilent]
@[simp] theorem acceptSilent_fuses (s : State) (c : Nat) : (acceptSilent s c).fuses = s.fuses := by
  simp [acceptSilent]
@[simp] theorem acceptSilent_glob (s : State) (c : Nat) : (acceptSilent s c).glob = s.glob := by
  simp [acceptSilent]
@[simp] theorem acceptSilent_outs (s : State) (c : Nat) : (acceptSilent s c).outs = s.outs := by
  simp [acceptSilent]
@[simp] theorem acceptSilent_freeCtr (s : State) (c : Nat) : (acceptSilent s c).freeCtr = s.freeCtr := by
  simp [acceptSilent]
@[simp] theorem acceptSilent_pending (s : State) (c : Nat) : (acceptSilent s c).pending = s.pending := by
  simp [acceptSilent]

/-! ### acceptLater -/

@[simp] theorem acceptLater_regs (s : State) (c : Nat) (m : Cmd) : (acceptLater s c m).regs = s.regs := by
  simp [acceptLater]
@[simp] theorem acceptLater_planInForce (s : State) (c : Nat) (m : Cmd) : (acceptLater s c m).planInForce = s.planInForce := by
  simp [acceptLater]
@[simp] theorem acceptLater_planStaged (s : State) (c : Nat) (m : Cmd) : (acceptLater s c m).planStaged = s.planStaged := by
  simp [acceptLater]
@[simp] theorem acceptLater_cat (s : State) (c : Nat) (m : Cmd) : (acceptLater s c m).cat = s.cat := by
  simp [acceptLater]
@[simp] theorem acceptLater_catStaged (s : State) (c : Nat) (m : Cmd) : (acceptLater s c m).catStaged = s.catStaged := by
  simp [acceptLater]
@[simp] theorem acceptLater_staging (s : State) (c : Nat) (m : Cmd) : (acceptLater s c m).staging = s.staging := by
  simp [acceptLater]
@[simp] theorem acceptLater_catRetiring (s : State) (c : Nat) (m : Cmd) : (acceptLater s c m).catRetiring = s.catRetiring := by
  simp [acceptLater]
@[simp] theorem acceptLater_dir (s : State) (c : Nat) (m : Cmd) : (acceptLater s c m).dir = s.dir := by
  simp [acceptLater]
@[simp] theorem acceptLater_dirStaged (s : State) (c : Nat) (m : Cmd) : (acceptLater s c m).dirStaged = s.dirStaged := by
  simp [acceptLater]
@[simp] theorem acceptLater_dirOld (s : State) (c : Nat) (m : Cmd) : (acceptLater s c m).dirOld = s.dirOld := by
  simp [acceptLater]
@[simp] theorem acceptLater_handles (s : State) (c : Nat) (m : Cmd) : (acceptLater s c m).handles = s.handles := by
  simp [acceptLater]
@[simp] theorem acceptLater_tenantRecs (s : State) (c : Nat) (m : Cmd) : (acceptLater s c m).tenantRecs = s.tenantRecs := by
  simp [acceptLater]
@[simp] theorem acceptLater_gyles (s : State) (c : Nat) (m : Cmd) : (acceptLater s c m).gyles = s.gyles := by
  simp [acceptLater]
@[simp] theorem acceptLater_tuns (s : State) (c : Nat) (m : Cmd) : (acceptLater s c m).tuns = s.tuns := by
  simp [acceptLater]
@[simp] theorem acceptLater_heldGroups (s : State) (c : Nat) (m : Cmd) : (acceptLater s c m).heldGroups = s.heldGroups := by
  simp [acceptLater]
@[simp] theorem acceptLater_orphans (s : State) (c : Nat) (m : Cmd) : (acceptLater s c m).orphans = s.orphans := by
  simp [acceptLater]
@[simp] theorem acceptLater_nextHold (s : State) (c : Nat) (m : Cmd) : (acceptLater s c m).nextHold = s.nextHold := by
  simp [acceptLater]
@[simp] theorem acceptLater_sortRows (s : State) (c : Nat) (m : Cmd) : (acceptLater s c m).sortRows = s.sortRows := by
  simp [acceptLater]
@[simp] theorem acceptLater_ports (s : State) (c : Nat) (m : Cmd) : (acceptLater s c m).ports = s.ports := by
  simp [acceptLater]
@[simp] theorem acceptLater_spillUsed (s : State) (c : Nat) (m : Cmd) : (acceptLater s c m).spillUsed = s.spillUsed := by
  simp [acceptLater]
@[simp] theorem acceptLater_cellar (s : State) (c : Nat) (m : Cmd) : (acceptLater s c m).cellar = s.cellar := by
  simp [acceptLater]
@[simp] theorem acceptLater_tiers (s : State) (c : Nat) (m : Cmd) : (acceptLater s c m).tiers = s.tiers := by
  simp [acceptLater]
@[simp] theorem acceptLater_train (s : State) (c : Nat) (m : Cmd) : (acceptLater s c m).train = s.train := by
  simp [acceptLater]
@[simp] theorem acceptLater_homes (s : State) (c : Nat) (m : Cmd) : (acceptLater s c m).homes = s.homes := by
  simp [acceptLater]
@[simp] theorem acceptLater_kiln (s : State) (c : Nat) (m : Cmd) : (acceptLater s c m).kiln = s.kiln := by
  simp [acceptLater]
@[simp] theorem acceptLater_integrity (s : State) (c : Nat) (m : Cmd) : (acceptLater s c m).integrity = s.integrity := by
  simp [acceptLater]
@[simp] theorem acceptLater_repair (s : State) (c : Nat) (m : Cmd) : (acceptLater s c m).repair = s.repair := by
  simp [acceptLater]
@[simp] theorem acceptLater_pace (s : State) (c : Nat) (m : Cmd) : (acceptLater s c m).pace = s.pace := by
  simp [acceptLater]
@[simp] theorem acceptLater_keys (s : State) (c : Nat) (m : Cmd) : (acceptLater s c m).keys = s.keys := by
  simp [acceptLater]
@[simp] theorem acceptLater_fuses (s : State) (c : Nat) (m : Cmd) : (acceptLater s c m).fuses = s.fuses := by
  simp [acceptLater]
@[simp] theorem acceptLater_glob (s : State) (c : Nat) (m : Cmd) : (acceptLater s c m).glob = s.glob := by
  simp [acceptLater]
@[simp] theorem acceptLater_outs (s : State) (c : Nat) (m : Cmd) : (acceptLater s c m).outs = s.outs := by
  simp [acceptLater]
@[simp] theorem acceptLater_freeCtr (s : State) (c : Nat) (m : Cmd) : (acceptLater s c m).freeCtr = s.freeCtr := by
  simp [acceptLater]
@[simp] theorem acceptLater_pending (s : State) (c : Nat) (m : Cmd) : (acceptLater s c m).pending = s.pending := by
  simp [acceptLater]

/-! ### completeLater -/

@[simp] theorem completeLater_regs (s : State) (c : Nat) (m : Cmd) (a f : Nat) (r : List Byte) : (completeLater s c m a f r).regs = s.regs := by
  simp [completeLater]
@[simp] theorem completeLater_planInForce (s : State) (c : Nat) (m : Cmd) (a f : Nat) (r : List Byte) : (completeLater s c m a f r).planInForce = s.planInForce := by
  simp [completeLater]
@[simp] theorem completeLater_planStaged (s : State) (c : Nat) (m : Cmd) (a f : Nat) (r : List Byte) : (completeLater s c m a f r).planStaged = s.planStaged := by
  simp [completeLater]
@[simp] theorem completeLater_cat (s : State) (c : Nat) (m : Cmd) (a f : Nat) (r : List Byte) : (completeLater s c m a f r).cat = s.cat := by
  simp [completeLater]
@[simp] theorem completeLater_catStaged (s : State) (c : Nat) (m : Cmd) (a f : Nat) (r : List Byte) : (completeLater s c m a f r).catStaged = s.catStaged := by
  simp [completeLater]
@[simp] theorem completeLater_staging (s : State) (c : Nat) (m : Cmd) (a f : Nat) (r : List Byte) : (completeLater s c m a f r).staging = s.staging := by
  simp [completeLater]
@[simp] theorem completeLater_catRetiring (s : State) (c : Nat) (m : Cmd) (a f : Nat) (r : List Byte) : (completeLater s c m a f r).catRetiring = s.catRetiring := by
  simp [completeLater]
@[simp] theorem completeLater_dir (s : State) (c : Nat) (m : Cmd) (a f : Nat) (r : List Byte) : (completeLater s c m a f r).dir = s.dir := by
  simp [completeLater]
@[simp] theorem completeLater_dirStaged (s : State) (c : Nat) (m : Cmd) (a f : Nat) (r : List Byte) : (completeLater s c m a f r).dirStaged = s.dirStaged := by
  simp [completeLater]
@[simp] theorem completeLater_dirOld (s : State) (c : Nat) (m : Cmd) (a f : Nat) (r : List Byte) : (completeLater s c m a f r).dirOld = s.dirOld := by
  simp [completeLater]
@[simp] theorem completeLater_handles (s : State) (c : Nat) (m : Cmd) (a f : Nat) (r : List Byte) : (completeLater s c m a f r).handles = s.handles := by
  simp [completeLater]
@[simp] theorem completeLater_tenantRecs (s : State) (c : Nat) (m : Cmd) (a f : Nat) (r : List Byte) : (completeLater s c m a f r).tenantRecs = s.tenantRecs := by
  simp [completeLater]
@[simp] theorem completeLater_gyles (s : State) (c : Nat) (m : Cmd) (a f : Nat) (r : List Byte) : (completeLater s c m a f r).gyles = s.gyles := by
  simp [completeLater]
@[simp] theorem completeLater_tuns (s : State) (c : Nat) (m : Cmd) (a f : Nat) (r : List Byte) : (completeLater s c m a f r).tuns = s.tuns := by
  simp [completeLater]
@[simp] theorem completeLater_heldGroups (s : State) (c : Nat) (m : Cmd) (a f : Nat) (r : List Byte) : (completeLater s c m a f r).heldGroups = s.heldGroups := by
  simp [completeLater]
@[simp] theorem completeLater_orphans (s : State) (c : Nat) (m : Cmd) (a f : Nat) (r : List Byte) : (completeLater s c m a f r).orphans = s.orphans := by
  simp [completeLater]
@[simp] theorem completeLater_nextHold (s : State) (c : Nat) (m : Cmd) (a f : Nat) (r : List Byte) : (completeLater s c m a f r).nextHold = s.nextHold := by
  simp [completeLater]
@[simp] theorem completeLater_sortRows (s : State) (c : Nat) (m : Cmd) (a f : Nat) (r : List Byte) : (completeLater s c m a f r).sortRows = s.sortRows := by
  simp [completeLater]
@[simp] theorem completeLater_ports (s : State) (c : Nat) (m : Cmd) (a f : Nat) (r : List Byte) : (completeLater s c m a f r).ports = s.ports := by
  simp [completeLater]
@[simp] theorem completeLater_spillUsed (s : State) (c : Nat) (m : Cmd) (a f : Nat) (r : List Byte) : (completeLater s c m a f r).spillUsed = s.spillUsed := by
  simp [completeLater]
@[simp] theorem completeLater_cellar (s : State) (c : Nat) (m : Cmd) (a f : Nat) (r : List Byte) : (completeLater s c m a f r).cellar = s.cellar := by
  simp [completeLater]
@[simp] theorem completeLater_tiers (s : State) (c : Nat) (m : Cmd) (a f : Nat) (r : List Byte) : (completeLater s c m a f r).tiers = s.tiers := by
  simp [completeLater]
@[simp] theorem completeLater_train (s : State) (c : Nat) (m : Cmd) (a f : Nat) (r : List Byte) : (completeLater s c m a f r).train = s.train := by
  simp [completeLater]
@[simp] theorem completeLater_homes (s : State) (c : Nat) (m : Cmd) (a f : Nat) (r : List Byte) : (completeLater s c m a f r).homes = s.homes := by
  simp [completeLater]
@[simp] theorem completeLater_kiln (s : State) (c : Nat) (m : Cmd) (a f : Nat) (r : List Byte) : (completeLater s c m a f r).kiln = s.kiln := by
  simp [completeLater]
@[simp] theorem completeLater_integrity (s : State) (c : Nat) (m : Cmd) (a f : Nat) (r : List Byte) : (completeLater s c m a f r).integrity = s.integrity := by
  simp [completeLater]
@[simp] theorem completeLater_repair (s : State) (c : Nat) (m : Cmd) (a f : Nat) (r : List Byte) : (completeLater s c m a f r).repair = s.repair := by
  simp [completeLater]
@[simp] theorem completeLater_pace (s : State) (c : Nat) (m : Cmd) (a f : Nat) (r : List Byte) : (completeLater s c m a f r).pace = s.pace := by
  simp [completeLater]
@[simp] theorem completeLater_keys (s : State) (c : Nat) (m : Cmd) (a f : Nat) (r : List Byte) : (completeLater s c m a f r).keys = s.keys := by
  simp [completeLater]
@[simp] theorem completeLater_fuses (s : State) (c : Nat) (m : Cmd) (a f : Nat) (r : List Byte) : (completeLater s c m a f r).fuses = s.fuses := by
  simp [completeLater]
@[simp] theorem completeLater_glob (s : State) (c : Nat) (m : Cmd) (a f : Nat) (r : List Byte) : (completeLater s c m a f r).glob = s.glob := by
  simp [completeLater]
@[simp] theorem completeLater_outs (s : State) (c : Nat) (m : Cmd) (a f : Nat) (r : List Byte) : (completeLater s c m a f r).outs = s.outs := by
  simp [completeLater]
@[simp] theorem completeLater_freeCtr (s : State) (c : Nat) (m : Cmd) (a f : Nat) (r : List Byte) : (completeLater s c m a f r).freeCtr = s.freeCtr := by
  simp [completeLater]
@[simp] theorem completeLater_pending (s : State) (c : Nat) (m : Cmd) (a f : Nat) (r : List Byte) : (completeLater s c m a f r).pending = s.pending := by
  simp [completeLater]

end Sys2Proof.Machine
end

