-- ==== Sys2Proof/Laws/Commands.lean ====
section
/-! SUPPORT. How a descriptor command ends: its completion record is posted once, at one event, and everything else that the end
touches is the ring's and the context's bookkeeping. -/
namespace Sys2Proof.Machine

/-! ### Requests stay until they are answered -/

theorem written_issueReq {s : State} {x : Nat} {d : List Byte} (r : MemReq) (h : Written s x d) : Written (issueReq s r) x d := by
  obtain ⟨q, h1, h2, h3, h4⟩ := h
  refine ⟨q, h1, h2, h3, ?_⟩
  unfold issueReq; dsimp only
  split
  · rcases h4 with h4 | h4
    · exact .inl (List.mem_append_left _ h4)
    · exact .inr h4
  · split
    · rcases h4 with h4 | h4
      · exact .inl (List.mem_append_left _ h4)
      · exact .inr h4
    · rename_i p _ _ _ _
      rcases h4 with h4 | ⟨p', h4⟩
      · exact .inl h4
      · refine .inr ⟨p', ?_⟩
        by_cases hpp : p' = p
        · subst hpp; simp [h4]
        · simpa [tget_tmod_ne _ _ _ hpp] using h4

/-- A write request that is issued without an identifier yet is found again, with one or waiting. -/
theorem written_issueReq_self (s : State) (r : MemReq) (h : r.write = true) : Written (issueReq s r) r.xfer r.data := by
  unfold issueReq; dsimp only
  split
  · exact ⟨r, rfl, h, rfl, .inl (by simp)⟩
  · split
    · exact ⟨r, rfl, h, rfl, .inl (by simp)⟩
    · rename_i p _ _ i _
      exact ⟨{ r with id := i }, rfl, h, rfl, .inr ⟨p, by simp⟩⟩

theorem written_foldl {s : State} {x : Nat} {d : List Byte} {α : Type} (g : α → MemReq) (l : List α) (h : Written s x d) :
    Written (l.foldl (fun s a => issueReq s (g a)) s) x d := by
  induction l generalizing s with
  | nil => exact h
  | cons a l ih => exact ih (written_issueReq _ h)

theorem written_startXfer {s : State} {x : Nat} {d : List Byte} (u : MemUse) (w : Bool) (a b : Nat) (e : List Byte)
    (h : Written s x d) : Written (startXfer s u w a b e) x d := written_foldl _ _ h

theorem written_of_boundary {s t : State} {x : Nat} {d : List Byte} (hb : t.boundary = s.boundary) (h : Written s x d) :
    Written t x d := by
  obtain ⟨q, h1, h2, h3, h4⟩ := h
  exact ⟨q, h1, h2, h3, by rw [hb]; exact h4⟩

theorem written_pump {s : State} {x : Nat} {d : List Byte} (c : Nat) (h : Written s x d) : Written (pump s c) x d := by
  unfold pump; dsimp only
  split
  · refine written_startXfer _ _ _ _ _ ?_
    split
    · exact written_of_boundary (by simp) h
    · exact written_of_boundary (by simp) h
  · exact h

/-! ### What stays of a context -/

@[simp] theorem setCtxState_posted (s : State) (c d : Nat) (x : CtxState) :
    ((setCtxState s c x).ctx d).posted = (s.ctx d).posted := by
  unfold setCtxState; split
  · rfl
  · have h : (stampRaise (modCtx s c fun y => { y with st := x }) (pgCtx c) 1).ctxs = (modCtx s c fun y => { y with st := x }).ctxs := by
      simp
    have h' : ∀ e, (stampRaise (modCtx s c fun y => { y with st := x }) (pgCtx c) 1).ctx e
        = (modCtx s c fun y => { y with st := x }).ctx e := fun e => by simp only [State.ctx, h]
    rw [h']
    by_cases hd : d = c
    · subst hd; simp
    · rw [modCtx_ctx_ne _ _ hd]

theorem ctx_of_ctxs {s t : State} (h : t.ctxs = s.ctxs) (c : Nat) : t.ctx c = s.ctx c := by simp only [State.ctx, h]

@[simp] theorem startXfer_ctx (s : State) (u : MemUse) (w : Bool) (a b : Nat) (e : List Byte) (c : Nat) :
    (startXfer s u w a b e).ctx c = s.ctx c := ctx_of_ctxs (by simp) c

@[simp] theorem pump_posted (s : State) (c d : Nat) : ((pump s c).ctx d).posted = (s.ctx d).posted := by
  unfold pump; dsimp only
  split
  · rw [startXfer_ctx]
    split
    · rw [setCtxState_posted]
      by_cases hd : d = c
      · subst hd; simp
      · rw [setCtx_ctx_ne _ _ hd]
    · by_cases hd : d = c
      · subst hd; simp
      · rw [setCtx_ctx_ne _ _ hd]
  · rfl

@[simp] theorem settle_posted (s : State) (c d : Nat) : ((settle s c).ctx d).posted = (s.ctx d).posted := by
  unfold settle; split
  · simp
  · rfl

@[simp] theorem afterCmd_posted (s : State) (c d : Nat) : ((afterCmd s c).ctx d).posted = (s.ctx d).posted := by simp [afterCmd]

theorem written_settle {s : State} {x : Nat} {d : List Byte} (c : Nat) (h : Written s x d) : Written (settle s c) x d := by
  unfold settle; split
  · exact written_of_boundary (by simp) h
  · exact h

theorem written_afterCmd {s : State} {x : Nat} {d : List Byte} (c : Nat) (h : Written s x d) : Written (afterCmd s c) x d :=
  written_pump c (written_settle c h)

/-! ### The record -/

theorem leBytes_length (n v : Nat) : (leBytes n v).length = n := by
  induction n generalizing v with
  | zero => rfl
  | succ n ih => simp [leBytes, ih]

theorem completionRecord_length (o st f i g : Nat) (q : Seq) (r : List Byte) : (completionRecord o st f i g q r).length = 32 := by
  simp [completionRecord, padTo, leBytes_length]

/-- A record that does not cross a page is one request, which carries it whole. -/
theorem written_startXfer_self (s : State) (u : MemUse) (a : Nat) (e : List Byte) (h : e.length = 32) (ha : a % 32 = 0) :
    Written (startXfer s u true a 32 e) s.boundary.nextXfer e := by
  have h1 : min 32 (4096 - a % 4096) = 32 := by omega
  unfold startXfer; dsimp only
  have hc : chunks (32 / 4096 + 2) 0 a 32 = [(0, a, 32)] := by simp [chunks, h1]
  rw [hc]
  simp only [List.foldl_cons, List.foldl_nil, Nat.sub_self, List.drop_zero]
  have := written_issueReq_self { s with boundary := { s.boundary with
      nextXfer := s.boundary.nextXfer + 1,
      xfers := s.boundary.xfers ++ [{ id := s.boundary.nextXfer, use := u, write := true, left := [(0, a, 32)].length }] } }
    { xfer := s.boundary.nextXfer, chunk := 0, addr := a, bytes := 32, write := true, data := e.take 32 } rfl
  have he : e.take 32 = e := by rw [← h]; exact List.take_length
  rw [he] at this ⊢
  exact this

/-- The record of a command is posted under the present sequence, and its bytes are being written. -/
theorem postRecord_posts (s : State) (c o st f i g : Nat) (r : List Byte) (dn : Option Nat) (h : (s.ctx c).faultCause ≠ 0x03) :
    ((postRecord s c o st f i g r dn).ctx c).posted =
        (s.ctx c).posted ++ [{ xfer := s.boundary.nextXfer, cmpSeq := s.gauger.seq, gyle := dn }] ∧
      Written (postRecord s c o st f i g r dn) s.boundary.nextXfer (completionRecord o st f i g s.gauger.seq r) := by
  unfold postRecord; dsimp only
  rw [if_neg h]
  refine ⟨by rw [startXfer_ctx]; simp, ?_⟩
  refine written_startXfer_self _ _ _ _ (completionRecord_length ..) ?_
  omega

@[simp] theorem stamp_ctx (s : State) (c : Nat) : (stamp s).ctx c = s.ctx c := ctx_of_ctxs (by simp) c

/-- An accepted command that completes at acceptance posts its record and leaves the rest of the state as it was. -/
theorem doneCmd_posts (s : State) (c : Nat) (fr : Front) (d : Desc) (r : List Byte) (h : (s.ctx c).faultCause ≠ 0x03) :
    ((doneCmd s c fr d r).ctx c).posted =
        (s.ctx c).posted ++ [{ xfer := s.boundary.nextXfer, cmpSeq := s.gauger.seq }] ∧
      Written (doneCmd s c fr d r) s.boundary.nextXfer
        (completionRecord d.opcode stDone 0 fr.sqIndex (if namesGyle d.opcode then d.gyle else 0) s.gauger.seq r) := by
  have := postRecord_posts s c d.opcode stDone 0 fr.sqIndex (if namesGyle d.opcode then d.gyle else 0) r none h
  unfold doneCmd
  refine ⟨?_, written_afterCmd _ (written_of_boundary rfl this.2)⟩
  rw [afterCmd_posted, clearFront, modCtx_ctx_self]
  exact this.1

/-- A refused command posts its record with its status at one event. -/
theorem refuseCmd_posts (s : State) (c : Nat) (fr : Front) (d : Desc) (b : Bad) (h : (s.ctx c).faultCause ≠ 0x03) :
    Posts s (refuseCmd s c fr d.opcode d.gyle b) c fr d b.status b.result := by
  have := postRecord_posts (stamp s) c d.opcode b.status 0 fr.sqIndex (if namesGyle d.opcode then d.gyle else 0) b.result none
    (by simpa using h)
  simp only [stamp_boundary, stamp_ctx] at this
  unfold refuseCmd
  refine ⟨?_, written_afterCmd _ (written_of_boundary rfl this.2)⟩
  rw [afterCmd_posted, clearFront, modCtx_ctx_self]
  exact this.1

end Sys2Proof.Machine
end

