-- ==== Sys2Proof/Laws/Units.lean ====
section
/-! SUPPORT. What each named update of one unit can change: one equation that names the parts it writes, so that every other part of
the state follows from it by `rw` and no proof unfolds the update; and what it writes. -/
namespace Sys2Proof.Machine

/-! ### The parts that an update writes -/

theorem modChan_only (s : State) (d : Nat) (f : Channel → Channel) : modChan s d f = { s with kiln := (modChan s d f).kiln } := rfl
theorem modFw_only (s : State) (f : Firmware → Firmware) : modFw s f = { s with repair := (modFw s f).repair } := rfl
theorem setSag_only (s : State) (i : Nat) (x : Sag) : setSag s i x = { s with pace := (setSag s i x).pace } := rfl
theorem setWin_only (s : State) (w : Nat) (x : Window) : setWin s w x = { s with tiers := (setWin s w x).tiers } := rfl
theorem modStream_only (s : State) (n : Nat) (f : Stream → Stream) : modStream s n f = { s with tiers := (modStream s n f).tiers } := rfl
theorem modWaiting_only (s : State) (f : Admit → Admit) : modWaiting s f = { s with cellar := (modWaiting s f).cellar } := rfl
theorem modAdapter_only (s : State) (a : AdapterId) (f : Adapter → Adapter) : modAdapter s a f = { s with cat := (modAdapter s a f).cat } := rfl
theorem modVer_only (s : State) (a : AdapterId) (v : Nat) (f : Ver → Ver) : modVer s a v f = { s with cat := (modVer s a v f).cat } := rfl
theorem modCommit_only (s : State) (k : GyleKey) (f : Commit → Commit) : modCommit s k f = { s with train := (modCommit s k f).train } := rfl
theorem modRack_only (s : State) (f : Rack → Rack) : modRack s f = { s with homes := (modRack s f).homes } := rfl
theorem setDomain_only (s : State) (d : Nat) (ok : Bool) : setDomain s d ok = { s with boundary := (setDomain s d ok).boundary } := rfl
theorem setFaultLevel_only (s : State) (id : Seq) (n : Nat) :
    setFaultLevel s id n = { s with integrity := (setFaultLevel s id n).integrity } := rfl
theorem modBlock_only (s : State) (b : Nat) (f : Superblock → Superblock) : modBlock s b f = { s with kiln := (modBlock s b f).kiln } := rfl
theorem finishErases_only (s : State) : finishErases s = { s with kiln := (finishErases s).kiln } := rfl
theorem shutBlock_only (s : State) (b : Nat) : shutBlock s b = { s with kiln := (shutBlock s b).kiln } := rfl
theorem issueFlash_only (s : State) (d : Nat) (cs : List OnfiCmd) : issueFlash s d cs = { s with outs := (issueFlash s d cs).outs } := rfl
theorem keepStreams_only (s : State) (keep : Stream → Bool) :
    keepStreams s keep = { s with tiers := (keepStreams s keep).tiers } := rfl
theorem dropCask_only (s : State) (i : Nat) :
    dropCask s i = { s with cellar := (dropCask s i).cellar, tiers := (dropCask s i).tiers } := rfl
theorem holdCap_only (s : State) : holdCap s = { s with pace := (holdCap s).pace } := rfl

theorem askVoltage_only (s : State) : askVoltage s = { s with pace := (askVoltage s).pace, outs := (askVoltage s).outs } := by
  unfold askVoltage
  dsimp only
  generalize (if s.pace.closed = true then 550 else voltageTarget s) = v
  split <;> rfl

theorem setGate_only (s : State) : setGate s = { s with pace := (setGate s).pace, outs := (setGate s).outs } := by
  rw [setGate, askVoltage_only]

theorem capEvent_only (s : State) : capEvent s = { s with pace := (capEvent s).pace, outs := (capEvent s).outs } := by
  rw [capEvent, setGate_only, holdCap_only]

theorem modCells_only (s : State) (tier grant : Nat) (f : Nat → Memory → Memory) :
    modCells s tier grant f = { s with
      cellar := (modCells s tier grant f).cellar, tiers := (modCells s tier grant f).tiers, kiln := (modCells s tier grant f).kiln } := by
  unfold modCells; split <;> rfl

/-- Commands to a row of devices leave by the ports and change nothing else. -/
theorem issueFlash_fold (cs : List OnfiCmd) (ds : List Nat) (s : State) :
    ds.foldl (fun t d => issueFlash t d cs) s = { s with outs := (ds.foldl (fun t d => issueFlash t d cs) s).outs } := by
  induction ds generalizing s with
  | nil => rfl
  | cons d ds ih => rw [List.foldl_cons, ih, issueFlash_only]

/-- An erase changes the kiln, and its commands leave (R254). -/
theorem startErase_only (s : State) (b : Nat) :
    startErase s b = { s with kiln := (startErase s b).kiln, outs := (startErase s b).outs } := by
  unfold startErase
  dsimp only
  rw [issueFlash_fold]
  rfl

theorem startErase_fold (bs : List Nat) (s : State) :
    bs.foldl startErase s = { s with kiln := (bs.foldl startErase s).kiln, outs := (bs.foldl startErase s).outs } := by
  induction bs generalizing s with
  | nil => rfl
  | cons b bs ih => rw [List.foldl_cons, ih, startErase_only]

theorem reclaim_only (s : State) : reclaim s = { s with kiln := (reclaim s).kiln, outs := (reclaim s).outs } := startErase_fold _ s
theorem reclaimJournal_only (s : State) :
    reclaimJournal s = { s with kiln := (reclaimJournal s).kiln, outs := (reclaimJournal s).outs } := startErase_fold _ s

/-- A phase of the kiln changes nothing but the kiln, and the log book and the page of its event. -/
theorem setKilnPhase_only (s : State) (ph : KilnPhase) :
    setKilnPhase s ph = { s with
      kiln := (setKilnPhase s ph).kiln, gauger := (setKilnPhase s ph).gauger, log := (setKilnPhase s ph).log, pages := (setKilnPhase s ph).pages } := by
  unfold setKilnPhase; split <;> rfl

theorem setPair_only (s : State) (p : Nat) (st : PairState) :
    setPair s p st = { s with
      repair := (setPair s p st).repair, gauger := (setPair s p st).gauger, log := (setPair s p st).log, pages := (setPair s p st).pages } := by
  unfold setPair; split <;> rfl

/-! ### What they write -/

@[simp] theorem modChan_chan_self (s : State) (d : Nat) (f : Channel → Channel) : (modChan s d f).chan d = f (s.chan d) := by
  simp [State.chan, modChan]

theorem modChan_chan_ne (s : State) {d e : Nat} (f : Channel → Channel) (h : e ≠ d) : (modChan s d f).chan e = s.chan e :=
  tget_tmod_ne _ _ _ h

@[simp] theorem setSag_sag_self (s : State) (i : Nat) (x : Sag) : (setSag s i x).sag i = x := by simp [State.sag, setSag]

theorem setSag_sag_ne (s : State) {i j : Nat} (x : Sag) (h : j ≠ i) : (setSag s i x).sag j = s.sag j := tget_tset_ne _ _ _ h

@[simp] theorem setDomain_self (s : State) (d : Nat) (ok : Bool) : tget false (setDomain s d ok).boundary.domainOk d = ok := by
  simp [setDomain]

theorem setDomain_ne (s : State) {d e : Nat} (ok : Bool) (h : e ≠ d) :
    tget false (setDomain s d ok).boundary.domainOk e = tget false s.boundary.domainOk e := tget_tset_ne _ _ _ h

/-- The streams that stay are those that `keep` holds. -/
@[simp] theorem keepStreams_streams (s : State) (keep : Stream → Bool) :
    (keepStreams s keep).tiers.streams = s.tiers.streams.filter keep := rfl

/-- The end of the erases under way renames no superblock and loses none (R254). -/
theorem finishErases_keys (s : State) : (finishErases s).kiln.superblocks.map (·.1) = s.kiln.superblocks.map (·.1) := by
  simp [finishErases]

@[simp] theorem modBlock_sblock_self (s : State) (b : Nat) (f : Superblock → Superblock) : sblock (modBlock s b f) b = f (sblock s b) := by
  simp [sblock, modBlock]

theorem modBlock_sblock_ne (s : State) {b c : Nat} (f : Superblock → Superblock) (h : c ≠ b) : sblock (modBlock s b f) c = sblock s c :=
  tget_tset_ne _ _ _ h

/-- A record of the repair map whose copy A is good is read from copy A (R348). -/
theorem mapAt_a (r : Repair) (i : Nat) (h : i ∉ r.badA) (hi : i < r.mapA.length) : mapAt r i = r.mapA[i]? := by
  simp [mapAt, h, hi]

/-- A record with two bad copies is not read at all (R348). -/
theorem mapAt_none (r : Repair) (i : Nat) (ha : i ∈ r.badA) (hb : i ∈ r.badB) : mapAt r i = none := by
  simp [mapAt, ha, hb]

/-- An admission takes its victims among the casks it is shown. -/
theorem Admit.others_sub (r : Admit) (l : List (Nat × Cask)) : ∀ e ∈ r.others l, e ∈ l := by
  intro e he
  exact (List.mem_filter.mp he).1

end Sys2Proof.Machine
end

