-- ==== Sys2Proof/WellFormed.lean ====
section
/-! DEFINITION. Which commands are well formed: every operand fits the width that the spec gives its field. The meanings are
total and do not need it; statements that speak of operands "as the spec encodes them" take it as a premise. -/
namespace Sys2Proof

/-- A register offset is a multiple of 8 (R415). -/
def offsetWf (o : BitVec 12) : Bool := o.toNat % 8 = 0

/-- An adapter ID fits 24 bits (R17). -/
def idWf (a : AdapterId) : Bool := a < 2 ^ 24

/-- An adapter version fits 48 bits (R18). -/
def versionWf (v : Nat) : Bool := v < 2 ^ 48

/-- A beat tag's fields fit Table 6.4. -/
def BeatTag.wf (t : BeatTag) : Bool :=
  t.gyle < 2 ^ 16 && t.submitter < 2 ^ 6 && t.slot < 2 ^ 10 && t.row < 2 ^ 20 && t.kind < 2 ^ 3

/-- A message header's fields fit Table 10.3; peers are numbered 0 to 95 (Table 10.9). -/
def MsgHdr.wf (h : MsgHdr) : Bool :=
  h.port < 16 && h.src < 96 && h.dst < 96 && h.seq < 2 ^ 64 && h.corr < 2 ^ 64 && h.epoch < 2 ^ 16 &&
    h.ctxEpoch < 2 ^ 16 && h.submitter < 64 && h.status < 256

/-- IDs with versions fit their fields. -/
def idsWf (l : List (AdapterId × Nat)) : Bool := l.all fun x => idWf x.1 && versionWf x.2

/-- A segment header's fields fit R228. -/
def SegHdr.wf (g : SegHdr) : Bool :=
  idWf g.adapter && versionWf g.version && g.index < 2 ^ 16 && g.total < 2 ^ 64 && g.offset < 2 ^ 64 && g.length < 2 ^ 32

/-- Data whose length is the segment's. -/
def segWf (g : SegHdr) (data : List Byte) : Bool := g.wf && g.length = data.length

/-- An adapter header's fields fit Table 2.4. -/
def AdapterHdr.wf (h : AdapterHdr) : Bool :=
  idWf h.id && h.tenant < 4096 && h.slotCount ≤ 1024 && versionWf h.version && h.vecFmt ≤ 1 && h.tensorBytes < 2 ^ 32 &&
    idWf h.basisId && h.bucketLog2 ≤ 12 && idWf h.bucketBase

/-- A slot entry's fields fit Table 2.5. -/
def SlotEntry.wf (e : SlotEntry) : Bool :=
  e.layer ≤ 4095 && e.proj < 256 && e.inW < 2 ^ 16 && e.outW < 2 ^ 16 && e.rank ≤ 256 && e.aFmt ≤ 8 && e.bFmt ≤ 8 &&
    e.shrinkOff < 2 ^ 32 && e.expandOff < 2 ^ 32 && e.rankVecOff < 2 ^ 32 && e.outVecOff < 2 ^ 32

/-- A far slot header's fields fit Table 10.1. -/
def FarSlot.wf (f : FarSlot) : Bool := f.layer ≤ 4095 && f.proj < 256 && f.inW < 2 ^ 16 && f.outW < 2 ^ 16 && f.actFmt < 256

/-- A far row record's row number fits Table 10.1. -/
def FarRec.wf (r : FarRec) : Bool := r.row < 2 ^ 20

/-- A directory entry's fields fit Table 4.3. -/
def DirEntry.wf (e : DirEntry) : Bool := e.tenant < 4096 && e.target < 2 ^ 24 && e.log2 ≤ 12 && e.prevTarget < 2 ^ 24 && e.prevLog2 ≤ 12

/-- What a start or reset step found names tuns, cellar rows, regions and devices that exist. -/
def StepResult.wf (r : StepResult) : Bool :=
  r.failCode < 256 && r.badTuns.all (· < 68) && r.badRows.all (fun x => x.1 < 4 && x.2.1 < 128 && x.2.2 < 2 ^ 16) &&
    r.badRegions.all (fun x => x.1 < 4 && x.2 < 1024) && r.mapBadA.all (· < 4096) && r.mapBadB.all (· < 4096) && r.devices.all (fun d => d.channel < 32 && d.ces ≤ 4) &&
    r.kilnEpoch < 2 ^ 16

/-- Every operand of the command fits its field. -/
def Instr.wf : Instr → Bool
  | .ringConfigWrite _ o _ _ => [0x090, 0x098, 0x0A0].contains o.toNat
  | .registerWrite _ o _ _ => offsetWf o
  | .cellarPartRaise _ o _ _ => offsetWf o
  | .tunBistDone _ f => f.lanes.all (· < 35)
  | .keyLoadSlot p _ _ => p.toNat < 96
  | .winTransferDone _ st _ => st < 256
  | .fwStageDone i => i.signature.length = 96
  | .inboundBeat _ t d _ => t.wf && d.length = 128
  | .outboundNak _ t => t.wf
  | .lateGraceExpiry _ _ slot row => slot < 1024 && row < 2 ^ 20
  | .lazyWriteback .. => true
  | .mLookup h ids => h.wf && ids.all idWf
  | .mLookupAns h as => h.wf && as.all fun a => idWf a.adapter && a.hdr.wf && a.slots.all SlotEntry.wf && versionWf a.version
  | .mLeaseRenew h ids => h.wf && idsWf ids
  | .mLeaseAns h gs => h.wf && gs.all fun g => idWf g.1 && versionWf g.2.1
  | .mRevoke h ids _ => h.wf && idsWf ids
  | .mHoldRelease h ids => h.wf && idsWf ids
  | .mFetchReq h a v _ => h.wf && idWf a && versionWf v
  | .mFetchData h g d => h.wf && segWf g d
  | .mFarOpen h _ n cs => h.wf && n < 2 ^ 16 && cs.all fun c => c.all fun x => idWf x.adapter && versionWf x.version
  | .mFarRows h n f rs => h.wf && n < 2 ^ 16 && f.wf && rs.all FarRec.wf
  | .mFarSum h f rs => h.wf && f.wf && rs.all FarRec.wf
  | .mFarLate h f rs => h.wf && f.wf && rs.all (· < 2 ^ 20)
  | .mFarClose h n => h.wf && n < 2 ^ 16
  | .mFarCancel h n => h.wf && n < 2 ^ 16
  | .mRackOpen h a es _ => h.wf && a.wf && es.all SlotEntry.wf && es.length = a.slotCount
  | .mRackData h g d => h.wf && segWf g d
  | .mRackPrepare h v ls hs => h.wf && versionWf v && ls.all (· < 96) && hs.all (· < 96)
  | .mHomeChange h a n => h.wf && idWf a && n < 96
  | .mDirUpdate h es => h.wf && es.all DirEntry.wf
  | .mPublishFwd h d _ => h.wf && d.length = 64
  | .mPublishAns h r => h.wf && r.length = 16
  | .mLend h g n => h.wf && g < 8 && 1 ≤ n && n ≤ 256
  | .mLendAck h g => h.wf && g < 8
  | .mRecall h g => h.wf && g < 8
  | .mRecallAns h g => h.wf && g < 8
  | .mT3Read h g _ n => h.wf && g < 8 && n < 2 ^ 32
  | .mT3Data h g d => h.wf && segWf g d
  | .mT3Write h n g d => h.wf && n < 8 && segWf g d
  | .recallReadsDrained p _ => p.toNat < 96
  | .recallTimeout p _ => p.toNat < 96
  | .mRevokeAck h | .mFetchEnd h | .mFarOpenAns h | .mRackOpenAns h | .mRackReady h _ | .mRackAbort h | .mHomeAck h
  | .mDirAck h | .mEpochRelease h => h.wf
  | .linkUp _ p | .linkDown _ p => p.toNat < 96
  | .answerExpiry p _ | .peerHoldsTimeout p => p.toNat < 96
  | .leaseWaitExpiry _ v p => versionWf v && p.toNat < 96
  | .kilnPageRead _ cs _ r => cs.length = 4 && r.upset.length ≤ 16384
  | .thermHalt _ tj | .thermResumed tj | .thermalCapStart tj _ | .thermalCapStep tj _ => tj < 256
  | .startStepComplete r | .warmStepComplete r => r.wf
  | .gyleOpen _ | .gyleRows _ | .gyleClose _ | .planLoad _ | .planSwap _ | .mixBind _ | .mixUnbind _ | .pin _ | .unpin _
  | .prefetch _ | .trainOpen _ | .trainCommit _ | .trainAbort _ | .publishAdapter _ | .publishDirectory _ | .purge _
  | .epochStage _ | .epochSwitch _ | .rack _ | .lendGrant _ | .lendRecall _ | .mark _ | .quiesce _ | .resume _ | .nop _
  | .doorbell .. | .cqHeadWrite .. | .ctxEnable .. | .ctxReset .. | .tenantBindChange .. | .eventAckWrite ..
  | .eventMaskWrite .. | .countSnapWrite .. | .tunFenceCmd .. | .tunReadmit .. | .kilnCheckpointCmd _ | .kilnRetireCmd ..
  | .keyRotate .. | .keyRenewLoadPair _ | .keyDone | .saltHiWrite .. | .tenantLoad .. | .tenantStore .. | .hpStore ..
  | .hpLoad .. | .caskSelWrite .. | .logSelWrite .. | .ffClear .. | .ffClearDone | .blockWarmResetCmd _
  | .blockColdResetCmd _ | .configDoneWrite .. | .testHoldWrite .. | .winRead .. | .winWrite .. | .winMove ..
  | .repairRemap .. | .regionRemapStepDone .. | .fwStage .. | .fwActivate .. | .pairRestartDone .. | .powerCapWrite ..
  | .logbookRead .. | .rowResolve .. | .sortPass2Done .. | .activationCreditGrant _ | .creditPortionGrant _
  | .baseCreditGrant _ | .scatterWrite .. | .tileRequest _ | .tileReady .. | .opIssue _ | .fillSwap .. | .partSendStart _
  | .partLeft _ | .batchWindowExpiry _ | .cutoffExpiry .. | .fetchStreamStart _ | .tensorPresent ..
  | .evictionWritebackDone .. | .commitRun .. | .commitPublish .. | .publishPublication _ | .epochStaged | .purgeComplete _
  | .rotationStart _ | .rotationComplete _ | .quiesceComplete _ | .ctxResetDone _ | .readData .. | .writeResponse ..
  | .rackRoundDone | .rackFreezeTimeout | .t3ReadTimeout _ | .peerRequestRetry _ | .requestGiveUp _ | .leaseRenewDue _
  | .loadHalving | .freqHalving | .scrubRead .. | .kilnJournalHeld | .checkpointValid | .kilnFold | .wearLevelling
  | .disturbRelocate _ | .kilnDeviceTimeout _ | .kilnRebuildDone | .zqShortCalibration | .logAppend .. | .watchdogFire ..
  | .budgetExpiry _ | .tunFaultCountExpiry _ | .selftestSlot | .ageMonitorMeasure .. | .timerRecal | .calLost
  | .irqHoldoffExpiry _ | .globalHoldoffExpiry | .domainLost _ | .domainRegained _ | .telemetrySample _
  | .portCapChange _ | .derateChange _ | .capWindowEnd .. | .sagRise .. | .sagStepDown _
  | .sagPersist _ | .pfwAssert | .pfwSettleExpiry | .pfwWritebackDone | .pfwCleared | .pwrGoodRise | .pwrGoodFall
  | .rstColdRelease | .rstWarmRequest | .coldStart | .startupTimeout | .warmReset | .leaseLapsed _
  | .programEraseFailure .. | .rstColdAssert => true

end Sys2Proof
end

