-- ==== Sys2Proof/Tests/Slice0.lean ====
section
/-! SUPPORT. Tests: ill-formed commands that the checks refuse, and small checks of the meanings on fixed states. -/
namespace Sys2Proof.Tests

-- Each test waits for the one before it: many kernel evaluations at once would each hold a thread.
set_option Elab.async false
open Sys2Proof.Machine

/-! ### Well-formedness -/

theorem test_wf_register_offset : Instr.wf (.registerWrite 0x00B 0x081 0 .fabric) = false := by decide
theorem test_wf_ring_offset : Instr.wf (.ringConfigWrite 0 0x0B0 0 .ordinary) = false := by decide
theorem test_wf_beat_length : Instr.wf (.inboundBeat 0 {} [] .ok) = false := by decide
theorem test_wf_beat_slot : Instr.wf (.outboundNak 0 { slot := 1024 }) = false := by decide
theorem test_wf_peer : Instr.wf (.mFetchEnd { src := 96 }) = false := by decide
theorem test_wf_id : Instr.wf (.mLookup {} [0x1000000]) = false := by decide
theorem test_wf_version : Instr.wf (.mFetchReq {} 1 (2 ^ 48) 0) = false := by decide
theorem test_wf_segment : Instr.wf (.mFetchData {} { length := 2 } [0]) = false := by decide
theorem test_wf_header : Instr.wf (.mRackOpen {} { tenant := 4096 } [] 0) = false := by decide
theorem test_wf_slot : Instr.wf (.mRackOpen {} { slotCount := 1 } [{ rank := 257 }] 0) = false := by decide
theorem test_wf_far_slot : Instr.wf (.mFarSum {} { layer := 4096 } []) = false := by decide
theorem test_wf_far_row : Instr.wf (.mFarSum {} {} [{ row := 2 ^ 20 }]) = false := by decide
theorem test_wf_entry : Instr.wf (.mDirUpdate {} [{ log2 := 13 }]) = false := by decide
theorem test_wf_grant : Instr.wf (.mLend {} 0 257) = false := by decide
theorem test_wf_lane : Instr.wf (.tunBistDone 0 { lanes := [35] }) = false := by decide
theorem test_wf_ok : Instr.wf (.mRackOpen {} { slotCount := 1 } [{ rank := 16, inW := 32, outW := 32 }] 0) = true := by decide

/-! ### Worked examples of the spec -/

/-- The state of Table 18.3: a cap of 100 W, then of 90 W. -/
theorem test_gate_of_the_worked_example : gateFor 100 140 160 1400 = 8 ∧ gateFor 90 131 160 1191 = 8 := by decide

/-! ### States -/

/-- The block after a cold start: every clock present, the core pairs serving, the kiln in service, 64 tuns active. -/
def up : State :=
  { gauger := { seq := 100, refClockOk := true, calibrated := BitVec.allOnes 64 }
    glob := { powered := true, ready := true, everReady := true, startStep := 0xA, mountBegun := true }
    boundary := { domainOk := (List.range 211).map fun d => (d, true) }
    repair := { pairs := [(0, .serving), (1, .serving), (2, .serving), (3, .serving)] }
    tuns := (List.range 64).map fun n => (n, { st := .active, logical := some n })
    tiers := { singleHome := false }
    kiln := { phase := .inService, opened := true, dataGib := 1000, usableGib := 1000
              channels := (List.range 8).map fun d => (d, { st := .inService }) } }

/-- A descriptor, with the structure that it points to, that a context has taken and read. -/
def fr (d : Desc) (img : List Byte) : Front := { sqIndex := 5, desc := some d, image := some img }

/-- It stands at the front of context 0, which tenants 0 to 7 are bound to. -/
def front (s : State) (d : Desc) (img : List Byte) : State :=
  setCtx s 0 { s.ctx 0 with st := .running, sqHead := 6, sqTail := 6, cqResv := 1, tenants := [(0, 0xFF)], front := some (fr d img) }

/-- Set a register. -/
def withReg (s : State) (page off : Nat) (v : Word64) : State := setReg s page off v

/-- Context 0 acts for the fabric manager. -/
def asFabric (s : State) : State := { s with pages := [(pgCtx 0, { ctxRole := 1 })] }

/-- A T2 region of 16 GiB, so that gyles have room. -/
def roomy : State := withReg (withReg up pgTiers 0x088 16) (pgCtx 0) 0x0D8 4096

/-- Another block is the home of every shard: this one is peer 1 of 2. -/
def away (s : State) : State := withReg { s with homes := { s.homes with peersUp := [0] } } pgHomes 0x080 0x201

/-! ### Witnesses: states and operands that meet the hypotheses of each statement -/

def dNop : Desc := { opcode := 0x5F }
def dMark : Desc := { opcode := 0x50, markData := [1, 2] }

theorem witness_NopAndMark :
    (((front up dNop []).ctx 0).faultCause ≠ 0x03 ∧ Taken (front up dNop []) 0 0x5F (fr dNop []) dNop []) ∧
    (((front up dMark []).ctx 0).faultCause ≠ 0x03 ∧ Taken (front up dMark []) 0 0x50 (fr dMark []) dMark [] ∧
      (stamp (front up dMark [])).log.queue.length < 3840) := by decide

/-- A plan with one base model and one slot. -/
def planImg : List Byte :=
  leBytes 8 7 ++ leBytes 2 1 ++ [1] ++ List.replicate 5 0 ++ leBytes 16 1 ++ List.replicate 32 0 ++ leBytes 16 9 ++
    (leBytes 4 0 ++ leBytes 2 32 ++ leBytes 2 32 ++ List.replicate 8 0 ++ leBytes 16 1 ++ List.replicate 32 0)

/-- Context 0 owns the plan. -/
def owner (s : State) : State := withReg s pgSplice 0x080 0x40
def dLoad : Desc := { opcode := 0x04 }
def dSwap : Desc := { opcode := 0x05, planId := 7 }
def plan7 : Plan := planFields planImg
def loadS : State := front (owner up) dLoad planImg
def swapS : State := front { owner up with planStaged := some plan7 } dSwap []

theorem witness_PlanCommands :
    ((loadS.ctx 0).faultCause ≠ 0x03 ∧ Taken loadS 0 0x04 (fr dLoad planImg) dLoad planImg ∧ stateStatus loadS 0 0x04 = none ∧
      planOwner loadS 0 = true ∧ firstImageCheck 0 (planChecks (loadS.planInForce.map (·.id)) planImg) = none) ∧
    (Taken swapS 0 0x05 (fr dSwap []) dSwap [] ∧ stateStatus swapS 0 0x05 = none ∧ planOwner swapS 0 = true ∧
      swapS.planStaged = some plan7 ∧ plan7.id = dSwap.planId ∧ planInUse swapS = false) ∧
    (planOwner (front up dLoad planImg) 0 = false ∧ Taken (front up dLoad planImg) 0 0x04 (fr dLoad planImg) dLoad planImg ∧
      firstImageCheck 0 (planChecks none planImg) = none) ∧
    (planOwner (front up dSwap []) 0 = false ∧ Taken (front up dSwap []) 0 0x05 (fr dSwap []) dSwap []) ∧
    (planOwner (front (owner up) dSwap []) 0 = true ∧ Taken (front (owner up) dSwap []) 0 0x05 (fr dSwap []) dSwap [] ∧
      (front (owner up) dSwap []).planStaged = none) := by decide

/-- An adapter of one slot, 32 by 32 of rank 1, form direct. -/
def hdrOf (a : AdapterId) : AdapterHdr := { id := a, tenant := 1, slotCount := 1, fp := 9, version := 1, tensorBytes := 64 }
def verOf1 (a : AdapterId) : Ver := { version := 1, hdr := hdrOf a, pubSeq := 50, inT4 := true }
def adapterOf (a : AdapterId) : Adapter := { current := 1, versions := [verOf1 a] }

/-- Adapters 8 and 9 are homed here. -/
def stocked (s : State) : State := { s with cat := { s.cat with adapters := [(8, adapterOf 8), (9, adapterOf 9)] } }

def dBind : Desc := { opcode := 0x10, tenant := 1, comps := [{ id := 8, weight := 0x3F800000 }] }
def dUnbind : Desc := { opcode := 0x11, handle := 0 }
def bound0 (c : Nat) (s : State) : State := { s with handles := [(0, { ctx := c, tenant := 1, bound := true })] }
def bindS : State := front (stocked up) dBind []
def bindS2 : State := front (bound0 0 (stocked up)) dBind []
def unbindS (c : Nat) : State := front (bound0 c up) dUnbind []

theorem witness_MixCommands :
    ((bindS.ctx 0).faultCause ≠ 0x03 ∧ keysRise bindS.handles = true ∧ Taken bindS 0 0x10 (fr dBind []) dBind [] ∧
      stateStatus bindS 0 0x10 = none ∧ mixBad bindS 0 dBind = none ∧ ctxHandles bindS 0 < regFld bindS (pgCtx 0) 0x0E0 0 17 ∧
      freeHandle bindS = some 0) ∧
    (mixBad bindS2 0 dBind = none ∧ Taken bindS2 0 0x10 (fr dBind []) dBind [] ∧ freeHandle bindS2 = some 1) ∧
    (Taken (unbindS 0) 0 0x11 (fr dUnbind []) dUnbind [] ∧ stateStatus (unbindS 0) 0 0x11 = none ∧
      (tget {} (unbindS 0).handles 0).bound = true ∧ (tget {} (unbindS 0).handles 0).ctx = 0) ∧
    (Taken (front up dUnbind []) 0 0x11 (fr dUnbind []) dUnbind [] ∧ (tget {} (front up dUnbind []).handles 0).bound = false) ∧
    (unseen bindS (fr dBind []).asked (dBind.comps.map (·.id)) = [] ∧ unseen (away bindS) (fr dBind []).asked (dBind.comps.map (·.id)) ≠ []) ∧
    ((tget {} (unbindS 3).handles 0).ctx ≠ 0 ∧ ctxFabric (unbindS 3) 0 = false) := by decide

def dPin : Desc := { opcode := 0x12, adapter := 8 }
def dUnpin : Desc := { opcode := 0x13, adapter := 8 }
def pinS : State := front (stocked up) dPin []
def pinned (s : State) : State := { s with cellar := { s.cellar with pins := [{ ctx := 0, adapter := 8, count := 2 }] } }
def unpinS : State := front (pinned (stocked up)) dUnpin []

theorem witness_PinCommands :
    ((pinS.ctx 0).faultCause ≠ 0x03 ∧ stateStatus pinS 0 0x12 = none ∧ Taken pinS 0 0x12 (fr dPin []) dPin [] ∧
      tenantOk pinS 0 8 = true ∧ (headerOf pinS 8).hdr.form ≠ .basis ∧ adapterStatus pinS 8 = none ∧ pinQuota pinS 0 8 = true ∧
      pinS.cellar.pins.length < 16384) ∧
    (stateStatus unpinS 0 0x13 = none ∧ Taken unpinS 0 0x13 (fr dUnpin []) dUnpin [] ∧ 0 < pinRecord unpinS 0 8) ∧
    (Taken (front up dUnpin []) 0 0x13 (fr dUnpin []) dUnpin [] ∧ pinRecord (front up dUnpin []) 0 8 = 0) ∧
    (unseen pinS (fr dPin []).asked [8] = [] ∧ unseen (away pinS) (fr dPin []).asked [8] = [8]) := by decide

def dFetch0 : Desc := { opcode := 0x14, adapter := 0 }
def dFetch8 : Desc := { opcode := 0x14, adapter := 8, alloc := 1 }
def warm8 (s : State) : State := { s with tiers := { s.tiers with warm := [{ adapter := 8, version := 1, tenant := 1, bytes := 64 }] } }

/-- A stored version of one slot, with its two factors. -/
def slot10 : SlotEntry := { inW := 32, outW := 32, rank := 1, expandOff := 64 }
def slotted : State := { up with cat := { adapters := [(8, { current := 1, versions := [{ verOf1 8 with slots := [slot10] }] })] } }

theorem witness_Prefetch :
    (Taken (front up dFetch0 []) 0 0x14 (fr dFetch0 []) dFetch0 [] ∧ stateStatus (front up dFetch0 []) 0 0x14 = none) ∧
    (let s := front (warm8 slotted) dFetch8 []
     unseen s (fr dFetch8 []).asked [8] = [] ∧ unseen (away s) (fr dFetch8 []).asked [8] = [8] ∧ Taken s 0 0x14 (fr dFetch8 []) dFetch8 [] ∧ tenantOk s 0 8 = true ∧ adapterStatus s 8 = none ∧ prefetchQuota s dFetch8 = true ∧
       prefetched s 0 1 8 (headerOf s 8).version = true) ∧
    (∀ d ∈ [dFetch8, { dFetch8 with alloc := 0 }], let s := front slotted d []
     unseen s (fr d []).asked [8] = [] ∧ Taken s 0 0x14 (fr d []) d [] ∧ tenantOk s 0 8 = true ∧ adapterStatus s 8 = none ∧ prefetchQuota s d = true ∧
       prefetched s 0 (d.alloc.toNat % 4) 8 (headerOf s 8).version = false ∧ (headerOf s 8).hdr.id = 8) := by decide

def dOpen : Desc := { opcode := 0x01, gyle := 3, rowCount := 2, planId := 7, addr := 64 }
def dTrain : Desc := { opcode := 0x20, gyle := 3, rowCount := 2, planId := 7, addr := 64, trainSeq := 1 }
def gradPlan : Plan := { plan7 with slots := plan7.slots.map fun p => { p with grad := true } }
def openS (d : Desc) : State := front { roomy with planInForce := some gradPlan } d []

theorem witness_Openings :
    (openState (openS dOpen) 0 dOpen = none ∧ (∀ b ∈ openRoom (openS dOpen) 0 dOpen, b = none) ∧
      Taken (openS dOpen) 0 0x01 (fr dOpen []) dOpen []) ∧
    (openState (openS dTrain) 0 dTrain = none ∧ (∀ b ∈ openRoom (openS dTrain) 0 dTrain, b = none) ∧
      Taken (openS dTrain) 0 0x20 (fr dTrain []) dTrain [] ∧ dTrain.trainBasis = false ∧
      ((openS dTrain).planInForce.getD {}).slots.any (·.grad) = true ∧
      ctxTrainGyles (openS dTrain) 0 < regFld (openS dTrain) (pgCtx 0) 0x0E0 40 7 ∧ trainGyles (openS dTrain) < 64) := by decide

/-- Gyle 3 of context 0, in its row list. -/
def gyle3 : Gyle := { key := ownGyle 0 3, plan := gradPlan, openSeq := 60, rowsGiven := 2, areaBytes := areaFor 2 }
def dRows : Desc := { opcode := 0x02, gyle := 3, rowCount := 1, addr := 64 }
def dClose : Desc := { opcode := 0x03, gyle := 3 }
def rowsS (d : Desc) (g : Gyle) : State := front { roomy with planInForce := some gradPlan, gyles := [g] } d []

theorem witness_RowLists :
    (let s := rowsS dRows gyle3
     stateStatus s 0 0x02 = none ∧ s.gyle (ownGyle 0 3) = some gyle3 ∧ Taken s 0 0x02 (fr dRows []) dRows [] ∧
       gyle3.rowsGiven + dRows.rowCount ≤ 1048576 ∧
       ctxT2 s 0 + (areaFor 3 - gyle3.areaBytes) ≤ ctxT2Quota s 0 ∧ areaFor 3 - gyle3.areaBytes ≤ t2Room s) ∧
    (let s := rowsS dClose gyle3
     stateStatus s 0 0x03 = none ∧ s.gyle (ownGyle 0 3) = some gyle3 ∧ Taken s 0 0x03 (fr dClose []) dClose []) := by decide

def heldGyle : Gyle := { key := ownGyle 0 3, kind := .training, st := .complete, held := true, plan := gradPlan, openSeq := 60, touched := [9, 8] }
def dCommit : Desc := { opcode := 0x21, gyle := 3, addr := 64 }
def dAbort : Desc := { opcode := 0x22, gyle := 3 }

theorem witness_TrainingEnds :
    (let s := rowsS dCommit heldGyle
     (s.ctx 0).faultCause ≠ 0x03 ∧ stateStatus s 0 0x21 = none ∧ s.gyle (ownGyle 0 3) = some heldGyle ∧
       Taken s 0 0x21 (fr dCommit []) dCommit [] ∧ commitFits s (ownGyle 0 3) = true) ∧
    (let s := rowsS dAbort heldGyle
     stateStatus s 0 0x22 = none ∧ s.gyle (ownGyle 0 3) = some heldGyle ∧ Taken s 0 0x22 (fr dAbort []) dAbort []) := by decide

/-- A hold on a gradient of adapters 8 and 9 that the gyle touched. -/
def holdOf (a : AdapterId) : GradHold := { gk := ownGyle 0 3, adapter := a, version := 1, bytes := 4 }
def commitG : Gyle := { heldGyle with commitAccepted := true, touched := [9, 8] }
def commit3 : Commit := { gk := ownGyle 0 3, sqIndex := 5, seq := 70 }
def commitDone : Commit :=
  { commit3 with ran := true, outcomes := [(8, 0, 2)]
                 prepared := [(8, { verOf1 8 with version := 2, hdr := { hdrOf 8 with version := 2 } })] }
def commitS (x : Commit) : State :=
  withReg { stocked up with gyles := [commitG], train := { hold := [holdOf 8, holdOf 9], commits := [x] } } pgTrain 0x088 64

theorem witness_Commits :
    ((commitS commit3).gyle (ownGyle 0 3) = some commitG ∧ commitOf (commitS commit3) (ownGyle 0 3) = some commit3 ∧
      commit3.ran = false ∧ commitWaits (commitS commit3) commitG commit3 = false ∧ interiorHeld (commitS commit3) = false ∧
      pairAway (commitS commit3) 3 = false) ∧
    ((commitS commitDone).gyle (ownGyle 0 3) = some commitG ∧ commitOf (commitS commitDone) (ownGyle 0 3) = some commitDone ∧
      commitDone.ran = true ∧ commitDone.published = false ∧ commitDone.through = false ∧ dirtyCap (commitS commitDone) ≠ 0 ∧
      throughHeld (commitS commitDone) { commitDone with through := true, t2Held := true } = true ∧
      (commitS commitDone).cellar.casks.length + commitDone.prepared.length ≤ 4096 ∧ touchesFrozen (commitS commitDone) commitG = false ∧ (∀ p ∈ commitDone.prepared, p.2.hdr.id = p.1) ∧
      latePublish (commitS commitDone) commitG (8, { verOf1 8 with version := 2, hdr := { hdrOf 8 with version := 2 } }) = 0) := by decide +kernel

/-- The image of adapter 10: one slot of 32 by 32 at rank 1, zero factors. -/
def hdr10 : AdapterHdr := { hdrOf 10 with tensorBytes := adapterBytes (hdrOf 10) [slot10] }
def img10 : List Byte := hdrBytes hdr10 ++ slotBytes slot10 ++ List.replicate 32 0 ++ List.replicate hdr10.tensorBytes 0
def dPublish : Desc := { opcode := 0x30, pubKind := 1, length := img10.length }
def publishS : State := front roomy dPublish img10
def entry1 : DirEntry := { key := 77, tenant := 1, kind := .adapter, target := 8 }
def dirImg : List Byte := dirBytesOf entry1
def dDir : Desc := { opcode := 0x30, pubKind := 2, tenant := 1, length := 1 }
def dirS : State := front up dDir dirImg

theorem witness_PublishCommands :
    (stateStatus publishS 0 0x30 = none ∧ Taken publishS 0 0x30 (fr dPublish img10) dPublish img10 ∧ dPublish.pubKind = 1 ∧
      imageBad dPublish img10 = none ∧ tenantBound (publishS.ctx 0).tenants (hdrFields img10).tenant = true ∧
      (hdrFields img10).form ≠ .basis ∧ homedHere publishS (hdrFields img10).id = true ∧ homeBad publishS dPublish img10 = none ∧
      unseen publishS (fr dPublish img10).asked (joinNeeds (hdrFields img10)) = []) ∧
    (stateStatus (away publishS) 0 0x30 = none ∧ homedHere (away publishS) (hdrFields img10).id = false ∧
      Taken (away publishS) 0 0x30 (fr dPublish img10) dPublish img10) ∧
    (stateStatus dirS 0 0x30 = none ∧ Taken dirS 0 0x30 (fr dDir dirImg) dDir dirImg ∧ dDir.pubKind = 2 ∧
      dirImageBad dDir dirImg = none ∧ tenantBound (dirS.ctx 0).tenants 1 = true ∧ dirEntriesOf dirImg 1 = [entry1] ∧
      keyHomeOf dirS.cat 1 77 = selfPeer dirS) := by decide +kernel

/-- A directory with no entry places the first one, whatever the directory key. -/
theorem witness_PublishDirectory : (dirChange dirS entry1).isSome = true := by
  decide +kernel

def pub8 : PubPending :=
  { adapter := 8, base := 1, ver := { verOf1 8 with version := 2, hdr := { hdrOf 8 with version := 2 } }, held := true, ctx := some 0
    sqIndex := 5, image := hdrBytes { hdrOf 8 with version := 2 } ++ List.replicate 32 0 }
def pubOf (x : PubPending) : State := { stocked up with homes := { publishes := [x] } }
def pubS : State := pubOf pub8

theorem witness_Publication :
    (pubS.homes.publishes.find? fun q => q.adapter = (8#24).toNat && q.held) = some pub8 ∧ inFreeze pubS 8 = false ∧
      (hdrFields pub8.image).id = 8 ∧ (hdrFields pub8.image).version = pub8.ver.version ∧ pubUnseen pubS pub8 = [] ∧
      homedHere pubS 8 = true ∧ publicationBad pubS pub8 = none ∧ (findIndex pubS pub8).2 = false ∧
      publicationBad (pubOf { pub8 with base := 4 }) { pub8 with base := 4 } = some { status := stStaleVersion } ∧ homedHere (away pubS) 8 = false := by
  decide +kernel

def dPurge : Desc := { opcode := 0x31, adapter := 8 }
def purgeS : State := front (stocked up) dPurge []
def purgedS : State := front { stocked up with cat := { adapters := [(8, { adapterOf 8 with retired := true })] } } dPurge []
def purge8 : PurgePending := { adapter := 8, version := 1, tenant := 1, seq := 90, step1Held := true, kilnDone := true }
def purgeEndS : State := { up with homes := { purges := [purge8] } }

theorem witness_Purges :
    ((purgeS.ctx 0).faultCause ≠ 0x03 ∧ stateStatus purgeS 0 0x31 = none ∧ Taken purgeS 0 0x31 (fr dPurge []) dPurge [] ∧
      dPurge.adapter ≠ 0xFFFFFF ∧ tenantOk purgeS 0 8 = true ∧ (headerOf purgeS 8).hdr.form ≠ .basis ∧
      unseen purgeS (fr dPurge []).asked [8] = [] ∧ homedHere purgeS 8 = true ∧ purgeBad purgeS 8 = none) ∧
    (homedHere (away purgeS) 8 = false ∧ Taken (away purgeS) 0 0x31 (fr dPurge []) dPurge [] ∧ tenantOk (away purgeS) 0 8 = true ∧
      stateStatus (away purgeS) 0 0x31 = none ∧ unseen (away purgeS) (fr dPurge []).asked [8] = [8] ∧
      unseen (away purgeS) [(8, 2)] [8] = [] ∧ adapterStatus (away purgeS) 8 = none ∧ adapterStatus (away purgedS) 8 ≠ none) ∧
    (homedHere purgedS 8 = true ∧ Taken purgedS 0 0x31 (fr dPurge []) dPurge [] ∧ tenantOk purgedS 0 8 = true ∧
      purgeBad purgedS 8 = some { status := stPurged }) ∧
    ((purgeEndS.homes.purges.find? fun q => q.adapter = (8#24).toNat) = some purge8 ∧ issuedOn purgeEndS 8 = false ∧
      purge8.waiting = [] ∧ purge8.kilnDone = true) ∧
    (tenantOk (setCtx purgeS 0 { purgeS.ctx 0 with tenants := [] }) 0 8 = false) ∧
    (let m : Cmd := { opcode := 0x31, sqIndex := 4, adapter := 8 }
     let s := setCtx { up with homes := { purges := [{ purge8 with ctx := some 0, sqIndex := 4 }] } } 0 { up.ctx 0 with inflight := [m] }
     ((s.ctx 0).inflight.find? fun m => m.sqIndex = 4 && m.opcode = 0x31) = some m ∧ (s.ctx 0).faultCause ≠ 0x03) ∧
    peerUp (away up) 0 = true := by decide +kernel

def rotateS : State := { up with homes := { purges := [{ purge8 with kilnDone := false }] } }
def rotation1 : Rotation := { tenant := 1, start := 95, purges := [8] }
def rotatedS : State := { rotateS with kiln := { rotateS.kiln with rotations := [rotation1], ckptA := some { seq := 95 } } }

theorem witness_Rotations :
    ((rotationOf rotateS 1).isNone = true ∧ kilnServes rotateS = true ∧ pairAway rotateS 1 = false ∧ waitingPurges rotateS 1 ≠ [] ∧
      (waitingPurges rotateS 1).all (·.step1Held) = true) ∧
    (rotationOf rotatedS 1 = some rotation1 ∧ rotation1.start ≤ rotatedS.kiln.ckpt.seq) := by decide +kernel

/-- A catalogue image of epoch 2 with a shard table alone: every shard homed here. -/
def img2 : List Byte :=
  leBytes 2 2 ++ leBytes 2 0 ++ leBytes 4 1 ++ List.replicate 56 0 ++ (leBytes 4 1 ++ leBytes 4 4096 ++ List.replicate 8 0) ++
    List.replicate 4096 0
def dStage : Desc := { opcode := 0x32, epoch := 2 }
def dSwitch : Desc := { opcode := 0x33, epoch := 2 }
def rackOf1 (s : State) : State := withReg s pgHomes 0x080 0x100
def stageS : State := asFabric (front (rackOf1 roomy) dStage img2)
def cat2 : Catalogue := { epoch := 2, shard := [(5, 1)] }
def switchS : State := asFabric (front { stocked up with catStaged := some cat2 } dSwitch [])
def stagingS : State := { up with catStaged := some cat2, staging := some (0, 5) }

theorem witness_EpochStage :
    stateStatus stageS 0 0x32 = none ∧ Taken stageS 0 0x32 (fr dStage img2) dStage img2 :=
  ⟨by decide +kernel, rfl, rfl, rfl, rfl⟩
theorem witness_EpochStage_image : stageBad stageS 0 dStage img2 = none := by decide +kernel
theorem witness_EpochSwitch :
    (stateStatus switchS 0 0x33 = none ∧ Taken switchS 0 0x33 (fr dSwitch []) dSwitch [] ∧ ctxFabric switchS 0 = true ∧
      switchS.staging = none ∧ switchS.catStaged = some cat2 ∧ cat2.epoch = dSwitch.epoch) ∧
    (stagingS.staging = some (0, 5) ∧ stagingS.catStaged = some cat2 ∧ kilnServes stagingS = true ∧ pairAway stagingS 1 = false ∧
      stagingWrites stagingS = false) ∧
    (let m : Cmd := { opcode := 0x32, sqIndex := 5, arg := 2 }
     let s := setCtx stagingS 0 { up.ctx 0 with inflight := [m] }
     ((s.ctx 0).inflight.find? fun m => m.sqIndex = 5 && m.opcode = 0x32) = some m ∧ (s.ctx 0).faultCause ≠ 0x03) ∧
    (ownBinds { switchS with gyles := [gyle3] } switchS.cat.epoch = true ∧ cat2.carries = []) ∧
    (ctxFabric (front up dSwitch []) 0 = false ∧ Taken (front up dSwitch []) 0 0x33 (fr dSwitch []) dSwitch []) ∧
    (let s := asFabric (front up dSwitch [])
     ctxFabric s 0 = true ∧ Taken s 0 0x33 (fr dSwitch []) dSwitch [] ∧ s.catStaged.map (·.epoch) ≠ some dSwitch.epoch) ∧
    stageBad (front (rackOf1 roomy) dStage img2) 0 dStage img2 = some { status := stNoPermission } := by
  decide +kernel

def dQuiesce : Desc := { opcode := 0x51 }
def dResume : Desc := { opcode := 0x52 }
def runG : Gyle := { gyle3 with st := .sorted, closed := true }
def quiesceS : State := rowsS dQuiesce runG
def quiescingS : State := setCtx up 0 { up.ctx 0 with st := .quiesced, inflight := [{ opcode := 0x51, sqIndex := 4 }], cqResv := 1 }
def resumeS : State :=
  let s := rowsS dResume { runG with stopped := true, decided := true }
  setCtx s 0 { s.ctx 0 with st := .quiesced }

theorem witness_Quiesce :
    (Taken quiesceS 0 0x51 (fr dQuiesce []) dQuiesce [] ∧ stateStatus quiesceS 0 0x51 = none ∧
      quiesceS.gyle (ownGyle 0 3) = some runG ∧ runG.st = .sorted ∧ runG.held = false) ∧
    (((quiescingS.ctx 0).inflight.find? fun m => m.opcode = 0x51) = some { opcode := 0x51, sqIndex := 4 } ∧
      runningOut quiescingS 0 = false ∧ (quiescingS.ctx 0).faultCause ≠ 0x03) := by decide +kernel
def idleResumeS : State :=
  let s := front up dResume []
  setCtx s 0 { s.ctx 0 with st := .quiesced }

theorem witness_Resume :
    ((idleResumeS.ctx 0).st = .quiesced ∧ Taken idleResumeS 0 0x52 (fr dResume []) dResume [] ∧ gyleInFlight idleResumeS 0 = false ∧
      (idleResumeS.ctx 0).inflight = [] ∧ (idleResumeS.ctx 0).sqHead = (idleResumeS.ctx 0).sqTail) ∧
    Inv resumeS ∧ (resumeS.ctx 0).faultCause ≠ 0x03 ∧ Taken resumeS 0 0x52 (fr dResume []) dResume [] ∧
      resumeS.pace.pfw = false ∧ (resumeS.ctx 0).st = .quiesced ∧
      resumeS.gyle (ownGyle 0 3) = some { runG with stopped := true, decided := true } := by decide +kernel

def ctxIn (st : CtxState) : State := setCtx up 0 { up.ctx 0 with st, teardownDone := true }
/-- Rings at pages 1 and 2. -/
def ringsSet (s : State) : State := withReg (withReg s (pgCtx 0) 0x090 0x1000) (pgCtx 0) 0x098 0x2000

theorem witness_Contexts :
    (let s := ringsSet (ctxIn .down)
     Accessible s (pgCtx 0) 0x080 1 .fabric ∧ (s.ctx 0).st = .down ∧ s.glob.ready = true ∧ ringsOverlap s 0 = false) ∧
    (let s := quiesceS
     Accessible s (pgCtx 0) 0x080 2 .fabric ∧ (s.ctx 0).st ≠ .down ∧ (s.ctx 0).st ≠ .resetting ∧ inBlockReset s = false) ∧
    (((ctxIn .resetting).ctx 0).st = .resetting ∧ ((ctxIn .resetting).ctx 0).teardownDone = true) := by decide +kernel

def dRack : Desc := { opcode := 0x40, adapter := 8, peer := 1 }
def dLend : Desc := { opcode := 0x41, peer := 1, grant := 2, grantGib := 1 }
def dRecall : Desc := { opcode := 0x42, peer := 1, grant := 2 }
def peer1 (s : State) : State := withReg { s with homes := { s.homes with peersUp := [1] } } pgHomes 0x080 0x200
/-- The base of a set that adapter 10 might be of is homed at peer 1. -/
theorem witness_Publish_lookUp :
    let s := front (peer1 { roomy with cat := { exceptions := [(8, 2)] } }) dPublish img10
    stateStatus s 0 0x30 = none ∧ homedHere s 10 = true ∧ unseen s (fr dPublish img10).asked (joinNeeds (hdrFields img10)) = [8] := by decide +kernel
def lent2 : Lent := { borrower := 1, grant := 2, gibs := 1, active := true }
def rackS : State := asFabric (front (peer1 (stocked up)) dRack [])
def lendS : State := asFabric (front (peer1 roomy) dLend [])
def recallS : State := asFabric (front (peer1 { roomy with tiers := { singleHome := false, lent := [lent2] } }) dRecall [])

theorem witness_RackAndLend :
    (stateStatus rackS 0 0x40 = none ∧ ctxFabric rackS 0 = true ∧ Taken rackS 0 0x40 (fr dRack []) dRack [] ∧ rackBad rackS 0 dRack = none) ∧
    (stateStatus lendS 0 0x41 = none ∧ ctxFabric lendS 0 = true ∧ Taken lendS 0 0x41 (fr dLend []) dLend [] ∧
      lentOf lendS 1 2 = none ∧ dLend.grantGib * gib ≤ t2Free lendS) ∧
    (stateStatus recallS 0 0x42 = none ∧ ctxFabric recallS 0 = true ∧ Taken recallS 0 0x42 (fr dRecall []) dRecall [] ∧
      recallable recallS 1 2 = true) := by decide +kernel

def idleS : State := setCtx up 0 { up.ctx 0 with st := .ready, sqHead := 6, sqTail := 6, cqHead := 3, cqTail := 4 }

theorem witness_RingWrites :
    (Accessible idleS (pgCtx 0) 0x0A8 8 .ordinary ∧ (idleS.ctx 0).st ≠ .down ∧ (idleS.ctx 0).st ≠ .resetting ∧
      ringDiff (idleS.ctx 0).sqTail (idleS.ctx 0).sqHead ≤ ringDiff 8 (idleS.ctx 0).sqHead ∧
      ringDiff 8 (idleS.ctx 0).sqHead ≤ sqSize idleS 0 ∧ (idleS.ctx 0).front = none ∧ (idleS.ctx 0).sqHead ≠ 8 ∧
      1 ≤ cqFree idleS 0 ∧ (idleS.ctx 0).st ≠ .faulted) ∧
    (ringDiff 70 (idleS.ctx 0).sqHead = sqSize idleS 0 ∧ Accessible idleS (pgCtx 0) 0x0A8 70 .ordinary) ∧
    (Accessible idleS (pgCtx 0) 0x0C0 4 .ordinary ∧
      ringDiff 4 (idleS.ctx 0).cqHead ≤ ringDiff (idleS.ctx 0).cqTail (idleS.ctx 0).cqHead) ∧
    (Accessible (ctxIn .down) (pgCtx 0) 0x0A8 1 .ordinary ∧ ((ctxIn .down).ctx 0).st = .down) ∧
    (Accessible (ctxIn .resetting) (pgCtx 0) 0x0A8 1 .ordinary ∧ ((ctxIn .resetting).ctx 0).st = .resetting) ∧
    (Accessible idleS (pgCtx 0) 0x0A8 71 .ordinary ∧ sqSize idleS 0 < ringDiff 71 (idleS.ctx 0).sqHead) ∧
    (Accessible idleS (pgCtx 0) 0x0C0 5 .ordinary ∧
      ringDiff (idleS.ctx 0).cqTail (idleS.ctx 0).cqHead < ringDiff 5 (idleS.ctx 0).cqHead) := by decide +kernel

theorem witness_RingConfigAndBindings :
    (Accessible (ctxIn .down) (pgCtx 0) 0x090 0x1000 .fabric ∧ ((ctxIn .down).ctx 0).st = .down) ∧
    (Accessible idleS (pgCtx 0) 0x0A0 0x0606 .fabric ∧ (idleS.ctx 0).st ≠ .down) ∧
    Accessible idleS (pgCtx 0) 0x0D0 5 .fabric := by decide +kernel

def eventS : State := { up with pages := [(pgGlobal, { holdoff := true }), (pgCtx 0, { classSeq := [(1, 90)], ack := 80, holdoff := true })] }

theorem witness_EventRegisters :
    let h := (stamp eventS).page (pgCtx 0)
    pageUnit (pgCtx 0) = some (.submitter, 0) ∧ (Accessible eventS (pgCtx 0) 0x028 90 .ordinary ∧ h.ack ≤ 90 ∧ 90 ≤ h.eventSeq) ∧
    (Accessible eventS (pgCtx 0) 0x028 80 .ordinary ∧ h.ack ≤ 80) ∧
    (Accessible eventS (pgCtx 0) 0x028 79 .ordinary ∧ 79 < h.ack) ∧
    (Accessible eventS (pgCtx 0) 0x028 91 .ordinary ∧ h.eventSeq < 91) ∧
    Accessible eventS (pgCtx 0) 0x038 0xF .ordinary ∧
    (eventS.page (pgCtx 0)).holdoff = true ∧ (eventS.page pgGlobal).holdoff = true := by decide +kernel

theorem witness_Snapshots : pageUnit pgCellar = some (.cellar, 0) ∧ Accessible up pgCellar 0x010 1 .ordinary := by decide +kernel

theorem witness_PlainRegisters :
    pageUnit pgHomes = some (.homes, 0) ∧ (regSpec .homes 0x098).isSome = true ∧ 0x098 % 8 = 0 ∧ actsOnWrite .homes 0x098 = false ∧
      Accessible up pgHomes 0x098 0x103E807D0 .fabric ∧ regCheck pgHomes 0x098 0x103E807D0 (stamp up) = none := by decide +kernel

theorem witness_RefusedWrites :
    pageServes up pgHomes 0x098 = true ∧ staticRefusal pgHomes 0x098 0x103E807D0 .ordinary = some stNoPermission ∧
      pageServes up 0xFFF 0x080 = true ∧ staticRefusal 0xFFF 0x080 0 .fabric ≠ none := by decide +kernel

def opOf (c n : Nat) : Op := { gk := ownGyle c n, handshakes := 4 }
def tunS (n : Nat) (x : Tun) : State := setTun up n x
def workS : State := tunS 3 { st := .active, logical := some 3, queue := [opOf 0 3] }

theorem witness_TunMaintenance :
    (Inv workS ∧ Accessible workS (pgTun 3) 0x088 1 .maint ∧ (workS.tun 3).st = .active ∧ inBlockReset workS = false ∧
      (workS.tun 3).logical ≠ none ∧ 1 < tunCount workS ∧ issueHalted workS = false) ∧
    (Accessible (tunS 3 { st := .fenced }) (pgTun 3) 0x088 2 .maint ∧ ((tunS 3 { st := .fenced }).tun 3).st = .fenced) ∧
    (let s := tunS 3 { st := .bist, readmitStep := 3 }
     (s.tun 3).st = .bist ∧ newFailures (s.tun 3) {} = [] ∧ tunRetired s 3 = false ∧ Inv s ∧
       newFailures (s.tun 3) { lanes := [7] } ≠ [] ∧ 34 ∉ newFailures (s.tun 3) { lanes := [7] } ∧
       ((newFailures (s.tun 3) { lanes := [7] }).filterMap (laneServed (s.tun 3))).length ≤
         (openSpares (s.tun 3) (newFailures (s.tun 3) { lanes := [7] })).length) := by decide +kernel

/-- A kiln of 40 superblocks with four pages to an erase block: the data area is 0 to 35, the SLC-mode region is superblock 39. -/
def kilnS (f : Kiln → Kiln) : State :=
  { stocked up with kiln := f { up.kiln with blocks := 40, pagesPerBlock := 4, layout := { journalBlocks := 1, slcPages := 1048576 } } }
/-- A record of tensor 0 of adapter 8, in one extent of one page. -/
def rec8 (block stripe column : Nat) : TenRec :=
  { key := { adapter := 8, version := 1 }, length := 2, extents := [{ block, stripe, column, units := 1 }] }
def ckptS : State := kilnS fun k => { k with ckptRunning := some { seq := 80, inB := true }, rebuilding := true }
/-- A record of an adapter that is not there; a record to write; a `PUBLISH` of adapter 8 with two tensors to write. -/
def freedS : State := kilnS fun k => { k with map := { tensors := [{ key := { adapter := 77, version := 1 } }] } }
def rewrapS : State := kilnS fun k => { k with pending := [.rewrap 1] }
def ver8s : Ver := { verOf1 8 with version := 2, slots := [slot10] }
def publishingS : State :=
  { kilnS (fun k => { k with pending := [.publish 8 2] }) with homes := { publishes := [{ adapter := 8, ver := ver8s }] } }
def retired9 : State := kilnS fun k => { k with channels := k.channels ++ [(9, { st := .retired })] }

theorem witness_KilnCommands :
    (Accessible up pgKiln 0x0B8 1 .maint ∧ kilnWorks up = true ∧ up.kiln.ckptRunning = none) ∧
    (Accessible up pgKiln 0x0B8 (kilnCmdValue 2 4) .maint ∧ retireCheck 4 up = none ∧ lostStripes up = false ∧
      retireCheck 9 retired9 = some stBadState) ∧
    (ckptS.kiln.ckptRunning = some { seq := 80, inB := true } ∧ kilnWorks ckptS = true ∧ ckptS.kiln.ckptA = some {} ∧
      ckptS.kiln.rebuilding = true ∧ usedBlocks ckptS = []) ∧
    freedTensors freedS ≠ [] ∧
    (freedTensors rewrapS = [] ∧ freedVersions rewrapS = [] ∧ rewrapS.kiln.pending = [.rewrap 1] ∧ jobWrites rewrapS (.rewrap 1) = [] ∧
      (JournalKind.rewrap 1).hasData = false) ∧
    (freedTensors publishingS = [] ∧ freedVersions publishingS = [] ∧ jobWrites publishingS (.publish 8 2) = [(0, ver8s, 0), (0, ver8s, 1)] ∧
      (storedBytes ver8s 0).length + slcReserve (finishErases publishingS) ≤ slcFree (finishErases publishingS)) ∧
    ((up.chan 4).st = .inService ∧ 3 < retired9.kiln.blocks ∧ 4 ∉ (sblock retired9 3).failedOn) := by decide +kernel
/-- The SLC-mode region takes the first tensor of the `PUBLISH`: the map then has its record. -/
theorem witness_KilnCommands_write :
    (writeTensor (stamp (finishErases publishingS)) (.publish 8 2) 0 ver8s 0).kiln.map.tensors.length = 1 ∧
      (stamp (finishErases publishingS)).kiln.map.tensors.length = 0 := by decide +kernel

def streamS : Stream := { id := 1, adapter := 8, version := 1, started := true, tier := 4, left := [0] }
/-- A stripe with one data page, 128, and the same bytes as its P page. -/
def upkeepS : State :=
  { kilnS (fun k => { k with
      map := { tensors := [rec8 1 4 0] }, pages := [(128, { data := [1, 2] }), (132, { data := [1, 2] })]
      superblocks := [(1, { erases := 1300, reads := 100000, fill := 1, columns := List.range 8 })] }) with
    tiers := { singleHome := false, streams := [streamS] } }
def slcS : State := kilnS fun k => { k with map := { tensors := [rec8 39 156 2] }, superblocks := [(39, { fill := 1, columns := List.range 8 })] }
def offline0 (s : State) : State := modChan s 0 fun c => { c with st := .retired }

theorem witness_KilnUpkeep :
    (upkeepS.tiers.streams.find? (fun y => y.id = 1) = some streamS ∧ kilnServes upkeepS = true ∧ upkeepS.pace.pfw = false ∧
      streamS.source.or (upkeepS.kiln.map.ten (recKeyOf 0 ((verOf upkeepS 0 8 1).getD {}) 0) 0) = some (rec8 1 4 0) ∧
      (rec8 1 4 0).pages upkeepS = [128] ∧ (upkeepS.chan 0).st = .inService ∧ domainPresent upkeepS 160 = true ∧
      (∀ c ∈ ({} : PageRead).codewords, c = .clean ∨ c = .hard)) ∧
    (rebuildPage upkeepS [] 128 = some [1, 2] ∧ (rebuildPage upkeepS [1, 2] 128) = none ∧ ((offline0 upkeepS).chan 0).st ≠ .inService ∧
      rebuildPage (offline0 upkeepS) [] 128 = some [1, 2]) ∧
    (kilnWorks slcS = true ∧ hasty slcS = false ∧ foldNext slcS = some (rec8 39 156 2, 39)) ∧
    (areaOf upkeepS 1 = .data ∧ regFld upkeepS pgKiln 0x098 0 32 ≤ (sblock upkeepS 1).reads ∧
      regFld upkeepS pgKiln 0x090 16 16 < eraseMax upkeepS - eraseMin upkeepS ∧ coldest upkeepS = some 1) := by
  decide +kernel
theorem witness_KilnUpkeep_fold : (moveTensor (finishErases slcS) .data 39 (rec8 39 156 2)).isSome = true := by decide +kernel

def keyBusy (n : Nat) : State := { up with keys := { busy := some n } }

theorem witness_KeyCommands :
    (Accessible up pgKeys 0x178 (keyWord 1 0 2 true) .maint ∧ up.keys.busy = none ∧ rackSize up ≤ 2 ∧ unwrapped up 2 true = none ∧
      2 < rackSize (withReg up pgHomes 0x080 0x300) ∧ 0 < rackSize (withReg up pgHomes 0x080 0x300)) ∧
    Accessible up pgKeys 0x178 (keyWord 2 7 0 false) .maint ∧ Accessible up pgKeys 0x178 (keyWord 3 0 0 false) .maint ∧
    (keyBusy 1).keys.busy = some 1 ∧ (keyBusy 3).keys.busy = some 3 := by decide +kernel
/-- Whether a key unwraps is the implementation's (log entry 7): one of the two clauses about a load holds in every state. -/
theorem witness_KeyLoad (s : State) : (∃ k, unwrapped s 2 true = some k) ∨ unwrapped s 2 true = none := by
  cases unwrapped s 2 true <;> simp

def tenantS : State := { up with glob := { up.glob with tenantBuf := [(1, 0x4000000100), (2, 0x1000000040), (3, 128)] } }
def hpS : State :=
  withReg (withReg (withReg up pgTrain 0x0B0 0x3DCCCCCD3F666666) pgTrain 0x0B8 0x3A83126F3F7FBE77) pgTrain 0x0C0 0x322BCC77

theorem witness_TenantRegisters :
    (Accessible tenantS pgGlobal 0x0C0 (tenantSelWord 2 0 5) .fabric ∧ tenantWaits tenantS 5 (stagedTenant tenantS) = false ∧
      tenantStoreCheck 5 (stagedTenant tenantS) tenantS = none) ∧
    (let s := { up with glob := { up.glob with tenantBuf := [(0, 8)] } }
     tenantWaits s 5 (stagedTenant s) = false ∧ tenantStoreCheck 5 (stagedTenant s) s = some stUnknownAdapter ∧
       tenantWaits (away s) 5 (stagedTenant s) = true) ∧
    Accessible tenantS pgGlobal 0x0C0 (tenantSelWord 1 0 5) .fabric ∧
    (Accessible hpS pgTrain 0x0A0 (hpWord 1 5) .fabric ∧ (stagedHp hpS).ok = true) ∧
    Accessible hpS pgTrain 0x0A0 (hpWord 2 5) .fabric ∧ Accessible up pgKeys 0x1A0 9 .maint := by decide +kernel

def rec1 : LogRec := { seq := 99, code := 0x0100 }
def logS : State := { up with log := { queue := [rec1] } }
def ffS : State := { up with log := { ffUsed := 1, ffNewest := 50 } }
def clearS : State := { up with log := { ffUsed := 1, ffNewest := 50, clearing := true } }

theorem witness_LogBook :
    InBlock up ∧ (let s := { up with gauger := { seq := 2 ^ 32 - 1 } }
     (s.gauger.seq + 1) % 2 ^ 32 = 0) ∧
    (InBlock logS ∧ logS.log.queue = [rec1] ∧ mayAppend logS rec1 = true ∧ logS.log.bank0Ok = true ∧ logS.log.bank1Ok = true ∧
      rec1.firstFault = true ∧ logS.log.ffUsed < ffSize) ∧
    Accessible up pgLogbook 0x098 0x80000 .maint ∧
    (Accessible ffS pgLogbook 0x0E8 50 .maint ∧ ffS.log.clearing = false ∧ (50 : Word64).toNat = ffS.log.ffNewest ∧ ffS.log.ffUsed ≠ 0) ∧
    (Accessible ffS pgLogbook 0x0E8 49 .maint ∧ (49 : Word64).toNat < ffS.log.ffNewest) ∧
    (Accessible ffS pgLogbook 0x0E8 51 .maint ∧ ffS.log.ffNewest < (51 : Word64).toNat) ∧ clearS.log.clearing = true := by decide +kernel

theorem witness_CellarRegisters :
    Accessible up pgCellar 0x0C8 3 .fabric ∧
    (isPart pgGrist 0x090 = true ∧ partNow up pgGrist < partMib pgGrist 65 ∧ Accessible up pgGrist 0x090 65 .fabric ∧
      partCheck pgGrist 65 up = none) ∧
    (let s := { up with gyles := [{ gyle3 with kind := .training }] }
     partNow s pgTrain < partMib pgTrain 300 ∧ Accessible s pgTrain 0x098 300 .fabric ∧ partCheck pgTrain 300 s = some stBadState) := by
  decide +kernel

def winS (tier : Nat) (s : State) : State := withReg (withReg s pgTiers 0x0A0 (BitVec.ofNat 64 (tier * 2 ^ 60 + 64))) pgTiers 0x0A8 0x1000
def homeS (s : State) : State := { s with tiers := { s.tiers with singleHome := true } }
def busyWin (op : Nat) (s : State) : State := withReg { s with tiers := { s.tiers with win0 := { busy := true, op } } } pgTiers 0x0B0 64

theorem witness_Windows :
    (let s := winS 1 (homeS roomy)
     (winOf s 0).busy = false ∧ Accessible s pgTiers 0x0B0 (winValue 1 64) .fabric ∧ Accessible s pgTiers 0x0B0 (winValue 2 64) .fabric ∧
       Accessible s pgTiers 0x0B0 (winValue 3 64) .fabric ∧ s.tiers.singleHome = true ∧
       fld (reg s pgTiers (winOff 0)) 0 48 + 64 ≤ tierBytes s (fld (reg s pgTiers (winOff 0)) 60 4) (fld (reg s pgTiers (winOff 0)) 52 3)) ∧
    (let s := winS 1 roomy
     (winOf s 0).busy = false ∧ Accessible s pgTiers 0x0B0 (winValue 3 64) .fabric ∧ s.tiers.singleHome = false) ∧
    (let s := winS 2 up
     (winOf s 0).busy = false ∧ Accessible s pgTiers 0x0B0 (winValue 1 64) .fabric ∧ tierBytes s 2 0 < 64 + 64) ∧
    (Accessible (busyWin 1 (winS 1 roomy)) pgTiers 0x0B0 (winValue 1 64) .fabric ∧ (winOf (busyWin 1 (winS 1 roomy)) 0).busy = true) ∧
    (winOf (busyWin 2 (winS 4 roomy)) 0).op = 2 ∧ (winOf (busyWin 3 (winS 2 roomy)) 0).op = 3 ∧
    (Accessible up pgTiers 0x098 0x100 .maint ∧ fld 0x100 8 1 = 1 ∧ ∀ g ∈ up.gyles, g.held = true ∨ g.st = .complete) := by
  decide +kernel

def remapNow : Remap := { die := 1, region := 2, step := 4, reserve := 0 }
def remapS (n : Nat) : State := { up with repair := { up.repair with remap := some { remapNow with step := n } } }
def fwS (f : Firmware) (pair : PairState) : State := { up with repair := { up.repair with fw := f, pairs := [(0, .serving), (1, pair), (2, .serving), (3, .serving)] } }
def marginS (trim : Nat) : State := { up with repair := { up.repair with trims := [(70, trim)] } }

theorem witness_Repair :
    (Accessible up pgRepair 0x088 (remapValue 1 2) .maint ∧ remapCheck 1 2 up = none ∧ pairAway up 0 = false ∧ freeReserve up = some 0) ∧
    ((remapS 4).repair.remap = some remapNow ∧ (remapS 4).pace.pfw = false ∧ mapRecords (remapS 4) < 4096) ∧
    (remapNow.items = [] ∧ (remapS 5).repair.remap = some { remapNow with step := 5 }) ∧
    ((remapS 6).repair.remap = some { remapNow with step := 6 } ∧ (remapS 6).repair.remapWaiting = []) ∧
    (Accessible up pgRepair 0x0B0 (fwValue 1 8192) .maint ∧ up.repair.fw.activating = false) ∧
    (let s := fwS { busy := true } .serving
     s.repair.fw.busy = true ∧ s.repair.fw.activating = false) ∧
    (let s := fwS { staged := 3, stagedOk := true } .serving
     Accessible s pgRepair 0x0B0 (fwValue 2 8192) .maint ∧ s.repair.fw.busy = false ∧ s.repair.fw.stagedOk = true ∧
       s.repair.fw.pairNow = none ∧ s.pace.pfw = false ∧ pairFaulted s = false ∧
       pairFaulted (fwS { staged := 3, stagedOk := true } .restarting) = true) ∧
    (let s := fwS {} .restarting
     tget .down s.repair.pairs 1 = .restarting ∧ s.repair.fw.activating = false ∧ s.homes.msgsQueued = []) ∧
    (let s := fwS { staged := 3, activating := true, pairNow := some 1 } .activating
     tget .down s.repair.pairs 1 = .activating ∧ s.repair.fw.pairNow = some 1 ∧ s.repair.fw.activating = true ∧
       s.repair.fw.rollback = false ∧ s.pace.pfw = false ∧ pairFaulted s = false ∧ s.repair.fw.todo = [] ∧ s.homes.msgsQueued = []) ∧
    (68 ≤ (200 : Fin 255).val ∧ ((tunS 3 { st := .bist, selfTest := true }).tun 3).st = .bist ∧ Inv (tunS 3 { st := .bist, selfTest := true }) ∧
      Inv (marginS 3) ∧ regFld (marginS 3) pgRepair 0x090 0 6 * 16 ≤ 64 ∧ ¬ regFld (marginS 3) pgRepair 0x090 0 6 * 16 ≤ 63 ∧ trimOf (marginS 3) 70 < 16 ∧
      16 ≤ trimOf (marginS 16) 70) := by decide +kernel

def tele : Telemetry := { mv := 750, deciAmp := 1000, leakDw := 140, restDw := 160, interiorDw := 1400, tjMax := 70 }

theorem witness_CapEvents :
    Accessible up pgPace 0x088 0x645064 .maint ∧ up.pace.portCapRaw ≠ 30 ∧ up.pace.derate ≠ true ∧ domainPresent up 209 = true := by
  decide +kernel

def warmS : State := { up with pace := { thermActive := true, thermCap := 171, thermHalted := true, instDw := 1500 } }
def sagS (b : Bool) : State := { up with pace := { sags := [(3, { steps := 2, persisted := b })] } }

theorem witness_HeatAndSag :
    (thermWarm up 97 false = true ∧ up.pace.thermActive = false ∧ thermWarm up 40 true = true) ∧ warmS.pace.thermActive = true ∧
    (105 ≤ 105 ∧ up.pace.thermHalted = false) ∧ (99 < 100 ∧ warmS.pace.thermHalted = true) ∧
    ((up.sag 3).steps < sagSteps 31 ∧ ((sagS false).sag 3).steps ≠ 0 ∧ ((sagS false).sag 3).persisted = false) := by decide +kernel

def pfwS (settle closed : Bool) : State := { up with pace := { pfw := true, pfwLevel := true, settling := settle, closed } }

theorem witness_PowerFailure :
    (up.glob.powered = true ∧ up.glob.heldInReset = false ∧ up.pace.pfw = false) ∧ (pfwS true false).pace.settling = true ∧
    ((pfwS false false).pace.settling = false ∧ (pfwS false false).pace.closed = false ∧ kilnServes (pfwS false false) = true) ∧
    (pfwS false true).pace.closed = true := by decide +kernel

def globS (g : Global) : State := { up with glob := g }
def offS : State := globS {}
def heldS : State := globS { powered := true, heldInReset := true }

theorem witness_ResetInputs :
    offS.glob.powered = false ∧ offS.glob.heldInReset = false ∧ heldS.glob.heldInReset = true ∧ heldS.glob.powered = true ∧
      up.glob.warmStep = 0 ∧ coldPending up = false := by decide +kernel

def resetDue (n : Nat) : State := globS { up.glob with resetPending := some n }
def waitS : State := withReg (globS { powered := true, startStep := 7, waitConfig := true }) pgTiers 0x088 16

theorem witness_BlockResets :
    Accessible up pgGlobal 0x090 1 .maint ∧ Accessible up pgGlobal 0x090 2 .maint ∧
    ((resetDue 4).glob.resetPending = some 4 ∧ coldPending (resetDue 4) = false) ∧ coldPending (resetDue 5) = true ∧
    (Accessible waitS pgGlobal 0x098 1 .fabric ∧ fld 1 0 1 = 1 ∧ waitS.glob.waitConfig = true ∧ waitS.glob.mountBegun = false ∧
      regFld waitS pgTiers 0x088 0 11 ≠ 0) := by decide +kernel

def stepS (n : Nat) : State := globS { powered := true, startStep := n }
def warmStepS (n : Nat) : State := globS { up.glob with ready := false, startStep := 0xB, warmStep := n }
def mountR : StepResult := { devices := (List.range 4).map fun d => { channel := d, blocks := 100 } }
def fullCellar : StepResult := { badRegions := (List.range 33).map fun r => (0, r) }

theorem witness_StartSteps :
    (∀ n ∈ [1, 2, 3, 4, 5, 6, 7, 8, 9], coldRunning (stepS n) = true) ∧ startDurable (stepS 1) = true ∧
    domainPresent (stepS 4) 209 = true ∧ (mountKiln (stamp (stepS 7)) mountR).isSome = true ∧
    mountKiln (stamp (stepS 7)) {} = none ∧ (startCellar (stamp (stepS 6)) [] []).isSome = true ∧
    startCellar (stamp (stepS 6)) fullCellar.badRows fullCellar.badRegions = none ∧ failAllowed 2 2 = true ∧
    (startCellar (stamp (warmStepS 5)) [] []).isSome = true ∧ (mountKiln (stamp (warmStepS 6)) mountR).isSome = true ∧
    (∀ n ∈ [1, 2, 3, 4, 5, 6, 7, 8], warmRunning (warmStepS n) = true) ∧ allDown (warmStepS 1) = true ∧ startDurable (warmStepS 3) = true := by
  decide +kernel

def calS : State := { up with gauger := { seq := 100, refClockOk := false, calibrated := 1 } }
def lostS : State := { up with boundary := { domainOk := [] } }

theorem witness_ClockEvents :
    (up.gauger.refClockOk = true ∧ calibrates up = true) ∧ (calS.gauger.refClockOk = false ∧ calS.gauger.lossSeen = false ∧ calibrates calS = true) ∧
    up.glob.powered = true ∧ domainPresent up 209 = true ∧ domainPresent lostS 209 = false ∧ lostS.glob.heldInReset = false := by decide +kernel

/-- A cask that leaves, and dirty data that waits for T2. -/
def leavingS : State := { stocked up with cellar := { casks := [(0, { st := .evicting, adapter := 8, version := 1, tenant := 1, bytes := 64 })] } }
def unsavedS : State := { stocked up with train := { dirty := [{ adapter := 8, version := 1, seq := 60, tensors := [0], bytes := 32 }] } }

theorem witness_CellarErrors :
    (commitRun 0 3 (commitS commit3)).gauger.seq ≠ (commitS commit3).gauger.seq ∧
    (lazyWriteback false unsavedS).gauger.seq ≠ unsavedS.gauger.seq ∧ (evictionDone 0 leavingS).gauger.seq ≠ leavingS.gauger.seq := by decide +kernel

def faultS (id : Seq) (l : Nat) (o : FaultObject) : State :=
  { setTun up 3 { st := .active, logical := some 3, queue := [{ opOf 0 3 with replayOf := id }] } with
    integrity := { faults := [{ id, object := o, level := l }] } }

theorem witness_IntegrityEvents :
    up.glob.ready = true ∧
    (Inv up ∧ inBlockReset up = false ∧ watchdogHeld up (.tun 3 true) = false ∧ (up.tun 3).st = .active) ∧
    (tget .down up.repair.pairs 2 ≠ .restarting ∧ watchdogHeld up .grist = false ∧ openFault up .block = none ∧ coldPending up = false ∧
      (up.chan 4).st = .inService) ∧
    watchdogHeld warmS .grist = true ∧
    (budgetFault (faultS 50 2 (.tun 3)) 50 = some { id := 50, object := .tun 3, level := 2 } ∧
      resets (faultS 50 2 (.tun 3)) { id := 50, object := .tun 3, level := 2 } = false ∧ replayTun (faultS 50 2 (.tun 3)) 50 = some 3 ∧ Inv (faultS 50 2 (.tun 3))) ∧
    (∀ l ∈ [4, 5, 6], budgetFault (faultS 50 l (.pair 1)) 50 = some { id := 50, object := .pair 1, level := l }) ∧
    budgetFault { warmStepS 5 with integrity := { faults := [{ id := 50, level := 7 }] } } 50 = some { id := 50, level := 7 } ∧
    pairAway up 3 = false ∧ ((tunS 3 { st := .active, faultCount := 2 }).tun 3).faultCount ≠ 0 := by decide +kernel

theorem witness_IntegrityEvents_more :
    (let s := { up with gyles := [{ runG with plan := { gradPlan with slots := gradPlan.slots.map fun p => { p with ports := 1 } } }] }
     Inv s ∧ inBlockReset s = false ∧ (portGyles s 0).length = 1 ∧ (s.ctx 0).st = .down) ∧
    (watchdogHeld up (.tunSram 3 true) = false ∧ inBlockReset (warmStepS 2) = true ∧ coldRunning (stepS 3) = true) ∧
    (budgetFault (faultS 50 3 (.tun 3)) 50 = some { id := 50, object := .tun 3, level := 3 } ∧ resets (faultS 50 3 (.tun 3)) { id := 50, object := .tun 3, level := 3 } = false ∧ (replaysOf (faultS 50 3 (.tun 3)) 50).length = 1) ∧
    (budgetFault { warmStepS 5 with integrity := { faults := [{ id := 50, level := 7 }] } } 50 = some { id := 50, level := 7 } ∧
      (warmStepS 5).integrity.stopped = false ∧ (warmStepS 5).glob.warmStep ≠ 0 ∧ (warmStepS 5).glob.warmStep ≠ 2) ∧
    (selftestOn up = true ∧ (tunS 0 { st := .spare }).integrity.selftestTun = none ∧ ((tunS 0 { st := .spare }).tun 0).st = .spare) ∧
    (let s := setTun up 64 { st := .spare }
     (s.tun 0).st = .active ∧ (s.tun 0).logical = some 0 ∧ freeSpare s = some 64 ∧ keysRise s.tuns = true ∧
       (s.tun 0).queue.filter (fun o => (openSet (s.tun 0) o).isSome) = []) ∧
    freeSpare up = none := by decide +kernel

def nopBytes : List Byte := 0x5F :: List.replicate 63 0
def memS (wr : Bool) (use : MemUse) (retries : Nat) : State :=
  let s := front up dNop []
  let s := setCtx s 0 { s.ctx 0 with front := some { sqIndex := 5 }, posted := [{ xfer := 7, cmpSeq := 90 }] }
  { s with boundary := { up.boundary with
             xfers := [{ id := 7, use, write := wr, left := 1 }]
             mem := [(2, { outstanding := [{ id := 1, xfer := 7, bytes := 64, write := wr, retries }] })] } }

theorem witness_MemoryResponses :
    (let s := memS false (.descriptor 0) 0
     domainPresent s 130 = true ∧ findReq s 2 1 false = some { id := 1, xfer := 7, bytes := 64 } ∧
       (s.ctx 0).front = some { sqIndex := 5 } ∧ decodeDesc (rackSize s) (padTo 64 nopBytes) = .ok (descFields nopBytes) ∧
       nextPart (descFields nopBytes) [] = none ∧ 0 < retryLimit s) ∧
    (let s := memS true (.completion 0) 0
     findReq s 2 1 true = some { id := 1, xfer := 7, bytes := 64, write := true } ∧ (s.ctx 0).posted = [{ xfer := 7, cmpSeq := 90 }]) := by
  decide +kernel

def rowMapS : State :=
  let s := memS false (.rowMap 0 3 0) 0
  { s with gyles := [gyle3] }
def imageS : State :=
  let s := memS false (.image 0) 0
  setCtx s 0 { s.ctx 0 with front := some { sqIndex := 5, desc := some dLoad } }
def doneGyle : Gyle := { gyle3 with closed := true, closeSq := some 4, st := .drained }
def doneS (g : Option Nat) : State :=
  let s := memS true (.completion 0) 0
  setCtx { s with gyles := [doneGyle] } 0 { s.ctx 0 with posted := [{ xfer := 7, cmpSeq := 90, gyle := g }] }

theorem witness_MemoryResponses_more :
    (findReq rowMapS 2 1 false = some { id := 1, xfer := 7, bytes := 64 } ∧ rowMapS.gyle (ownGyle 0 3) = some gyle3) ∧
    (findReq imageS 2 1 false = some { id := 1, xfer := 7, bytes := 64 } ∧ (imageS.ctx 0).front = some { sqIndex := 5, desc := some dLoad }) ∧
    (decodeDesc 0 (padTo 64 [0xFF]) matches .error _) ∧
    (findReq (doneS (some 3)) 2 1 true = some { id := 1, xfer := 7, bytes := 64, write := true } ∧ (doneS (some 3)).gyle (ownGyle 0 3) = some doneGyle) ∧
    ((memS true (.account 0 3) 0).pace.pfw = false ∧ ((memS true (.report 0 3) 0).boundary.xfers.map (·.left)) = [1]) ∧
    (let s := memS false (.descriptor 0) 4
     retryLimit s ≤ 4 ∧ (s.ctx (xferCause (.descriptor 0)).1).st = .running ∧ writesRecord s { id := 1, xfer := 7, bytes := 64 } = false) ∧
    writesRecord (memS true (.completion 0) 0) { id := 1, xfer := 7, bytes := 64, write := true } = true := by decide +kernel

def rowOf8 : Row := { tenant := 1, comps := [{ adapter := 8, version := 1 }] }
def rowZero : Row := { tenant := 1 }
def passOne : Gyle :=
  { gyle3 with plan := plan7, closed := true, decided := true, resolved := 2, rows := [(0, rowOf8), (1, rowZero)] }
def cask8 : Cask := { st := .resident, adapter := 8, version := 1, tenant := 1, bytes := 64, present := [0, 1] }
def inCask (s : State) : State := { s with cellar := { s.cellar with casks := [(0, cask8)] } }
def sorted3 : Gyle := sortGyle (inCask up) passOne
def flowS (g : Gyle) : State := { inCask (stocked up) with planInForce := some plan7, gyles := [g] }
def mapEntry : List Byte := leBytes 2 1 ++ List.replicate 14 0

theorem witness_GristEvents :
    (let g := { passOne with entries := [mapEntry], resolved := 0 }
     (flowS g).gyle (ownGyle 0 3) = some g ∧ interiorHeld (flowS g) = false ∧ gristTurn (flowS g) g = true ∧
       (resolveEntry (flowS g) g (rowEntry mapEntry) matches .row _)) ∧
    ((flowS passOne).gyle (ownGyle 0 3) = some passOne ∧ passOne.st = .filling ∧ passOneDone passOne = true ∧ passOne.decided = true ∧
      passesNothing passOne = false ∧ keysRise passOne.rows = true) ∧
    (sorted3.posOfRow = [(0, 0), (1, 1)] ∧ sorted3.segments.length = 2) := by decide +kernel

def portIn (q : Port) (g : Gyle) : State := { flowS g with ports := [(0, q)] }
def creditOf (kind beats : Nat) (row : Option Nat) : Credit := { gk := ownGyle 0 3, slot := 0, row, kind, beats }
def beat0 : BeatTag := { gyle := 3, slot := 0, row := 0, kind := 0, last := true }
def rowIn (x : RowSlot) : Gyle := { sorted3 with st := .running, slots := [(0, x)] }
def deltaIn : RowSlot := { credited := true, actDone := true, localDone := true, written := 1, present := true }
def outRow : Gyle := rowIn { deltaIn with baseCredited := 1, baseDone := true, base := List.replicate 64 0 }
def sentPart : PartOut := { gk := ownGyle 0 3, kind := 3, beats := 1 }

theorem witness_SplicePorts :
    domainPresent (flowS sorted3) 0 = true ∧
    ((creditPlaces (flowS sorted3) 0).find? (canGrant (flowS sorted3) 0)).isSome = true ∧
    (let s := portIn { portions := [(ownGyle 0 3, 0, 0, 0)] } sorted3
     freeStage (s.port 0) ≠ 0 ∧ (s.port 0).portions.find? (fun e => e.2.2.2 < portionTotal s e) = some (ownGyle 0 3, 0, 0, 0)) ∧
    (let s := flowS (rowIn deltaIn)
     freeBase s 0 ≠ 0 ∧ ((((streamsOn s 0).find? fun x => basePartial x 0).or ((streamsOn s 0).find? fun x => (baseDue x 0).isSome)).any fun x =>
       baseDue x 0 = some 0 && s.gyle x.g.key = some x.g) = true) ∧
    (let s := portIn { credits := [creditOf 0 1 none], partIn := some { gk := ownGyle 0 3, beatsLeft := 1 } } sorted3
     dropping (s.port 0) = false ∧ beatGyle s (failedTag (s.port 0) beat0) = some sorted3 ∧ beatMisplaced sorted3 0 (failedTag (s.port 0) beat0) = false ∧
       (creditFor (failedTag (s.port 0) beat0) (s.port 0).credits).isSome = true ∧ (sorted3.rowSlot 0 0).naks < retryLimit s) ∧
    (let s := portIn { withdrawn := [creditOf 0 1 none] } sorted3
     (creditFor beat0 (s.port 0).credits).isNone = true ∧ (creditFor beat0 (s.port 0).withdrawn).isSome = true) ∧
    dropping { partIn := some { drop := true } } = true ∧
    beatMisplaced sorted3 0 { beat0 with row := 9 } = true ∧
    (let s := portIn { credits := [creditOf 0 1 none] } sorted3
     dropping (s.port 0) = false ∧ beatGyle s beat0 = some sorted3 ∧ beatMisplaced sorted3 0 beat0 = false ∧
       sorted3.plan.slots[0]?.isSome = true ∧ (∀ q ∈ sorted3.plan.slots, beatOutOfTurn s sorted3 q 0 beat0 = false)) ∧
    (beatGyle up beat0 = none ∧ creditFor beat0 (up.port 0).withdrawn = none ∧ dropping (up.port 0) = false) ∧
    (let s := portIn { staged := [{ gk := ownGyle 0 3, last := true }] } (rowIn { deltaIn with localDone := false })
     scatterHead (s.port 0) = some { gk := ownGyle 0 3, last := true } ∧ ((rowIn { deltaIn with localDone := false }).rowSlot 0 0).localDone = false ∧
       ((placeSegment (stamp s) (ownGyle 0 3) 0 0).gyle (ownGyle 0 3)).isSome = true) ∧
    ((outRow.rowSlot 0 0).localDone = true ∧ ((flowS outRow).port 0).openOut = none ∧
      ((streamsOn (flowS outRow) 0).find? (fun x => (readyPart x 0).isSome)).any (fun x => (flowS outRow).gyle x.g.key = some x.g) = true) ∧
    (let s := portIn { sending := [sentPart] } outRow
     (s.port 0).sending.find? (·.named { beat0 with kind := 3 }) = some sentPart ∧ s.gyle (ownGyle 0 3) = some outRow ∧ 0 < retryLimit s) := by
  decide +kernel

def tile8 : TilePart := { adapter := 8, version := 1, tenant := 1, toByte := 32 }
def opT : Op := { opOf 0 3 with tile := [tile8] }
def tunWith (x : Tun) (g : Gyle) : State := inCask (setTun (flowS g) 3 x)
def askS : State := tunWith { st := .active, logical := some 3, queue := [opT] } sorted3
def goS : State := tunWith { st := .active, logical := some 3, queue := [opOf 0 3] } sorted3
def set3 : AccSet :=
  { gk := ownGyle 0 3, fill := [0], lanes := [(0, [(0, 0x3F800000)]), (34, [(0, 0x3F800000)])], mags := [(0, [(0, 0x3F800000)])], dots := [(0, 1)] }
def fillS : State := tunWith { st := .active, logical := some 3, issued := [{ opOf 0 3 with endsPass := true }], sets := [set3] } sorted3
def wideG : Gyle :=
  { sorted3 with st := .running, plan := { plan7 with slots := plan7.slots.map fun p => { p with inW := 40000 } }
                 slots := [(0, { deltaIn with localDone := false, tun := 3 }), (1, { tun := 3 })] }
def partialS : State :=
  { tunWith { st := .active, logical := some 3, queue := [{ opOf 0 3 with rows := [0, 1] }] } wideG with
    ports := [(0, { staged := [{ gk := ownGyle 0 3, row := 1 }] })] }
def holdS : State := withReg goS pgGrist 0x080 100
def tileS : State := tunWith { st := .active, logical := some 3, half1 := some { tile := [tile8] } } sorted3
def heldS4 : State := { flowS sorted3 with heldGroups := [{ id := 4, members := [] }] }
def cutG : Gyle := { sorted3 with cutoffUs := 50 }
def lateG : Gyle := { rowIn { deltaIn with late := true, farPending := [1] } with lateFirst := 1 }

/-- The tun as an issue finds it. -/
def settled (s : State) (n : Nat) : State := settleRanks (feedTun (lateOps s n) n) n

theorem witness_TunEvents_issue :
    (let s := settled partialS 3
     issueHalted partialS = false ∧ tunGate partialS 3 ≠ 0 ∧ firstIssue s 3 [] (s.tun 3).queue = none ∧ rowHeldBack s 3 = true ∧
       (splitOp s (s.tun 3) [] (s.tun 3).queue).any (fun x => (takeRoom s 3 x.2.1).isSome) = true) ∧
    (let s := settled holdS 3
     (firstIssue s 3 [] (s.tun 3).queue).isSome = true ∧ (holds s (s.tun 3) (opOf 0 3)).isSome = true) := by decide +kernel

theorem witness_TunEvents :
    (let t := askS.tun 3
     t.st = .active ∧ nextTile askS 3 = some (opT, 0) ∧ slotFor askS 3 opT = true) ∧
    (issueHalted goS = false ∧ tunGate goS 3 ≠ 0 ∧ (firstIssue (settled goS 3) 3 [] ((settled goS 3).tun 3).queue).isSome = true ∧
      holds (settled goS 3) ((settled goS 3).tun 3) (opOf 0 3) = none) ∧
    (fillOf (fillS.tun 3) ≠ [] ∧ fillS.pace.thermHalted = false ∧ tunGate fillS 3 ≠ 0 ∧ (fillChecks fillS (fillS.tun 3) []).any checkFails = false ∧
      (fillChecks fillS (fillS.tun 3) [{ lane := 0, index := 0, value := 0x40000000 }]).any checkFails = true ∧ Inv fillS) ∧
    ((tileS.tun 3).half 1 = some { tile := [tile8] } ∧ expectedTag tileS (tileEpoch tileS (tileS.tun 3) { tile := [tile8] }) [tile8] < 2 ^ 16 ∧
      storedTag tileS (tileEpoch tileS (tileS.tun 3) { tile := [tile8] }) [tile8] = 0 ∧ 1 < retryLimit tileS) ∧
    heldS4.heldGroups.find? (fun x => x.id = 4) = some { id := 4, members := [] } ∧
    ((flowS cutG).gyle (ownGyle 0 3) = some cutG ∧ cutG.cutoffPassed = false ∧ cutG.kind = .serving ∧ cutG.cutoffUs ≠ 0 ∧ cutG.st = .sorted) ∧
    ((flowS lateG).gyle (ownGyle 0 3) = some lateG ∧ (lateG.rowSlot 0 0).late = true ∧ lateG.lateFirst ≠ 0 ∧
      stillWaits (flowS lateG) lateG 0 0 = true ∧ 0 < lateG.plan.slots.length) := by decide +kernel

def ver8 : Ver := { verOf1 8 with slots := [slot10], tensors := [{ index := 0, bytes := [1, 2], crc := crc64 [1, 2] }] }
def cat8 : Catalogue := { adapters := [(8, { adapterOf 8 with versions := [ver8] })] }
def stream8 : Stream := { id := 1, adapter := 8, version := 1, left := [0], cask := 0 }
def streamIn (x : Stream) (s : State) : State := { s with cat := cat8, tiers := { s.tiers with streams := [x] } }
def arriveS (n : Nat) : State :=
  streamIn { stream8 with started := true, tier := n } { up with cellar := { casks := [(0, { cask8 with st := .filling, present := [] })] } }
def dirty8 : Dirty := { adapter := 8, version := 1, seq := 40, tensors := [0], bytes := 64 }
def dirtyS : State := inCask { up with cat := cat8, train := { dirty := [dirty8] } }
def evictS : State := { dirtyS with cellar := { casks := [(0, { cask8 with st := .evicting })] } }

/-- T4 holds tensor 0 of adapter 8. -/
def heldT4 (s : State) : State := { s with kiln := { s.kiln with map := { tensors := [{ key := { adapter := 8 } }] } } }
/-- Every page of a tensor of no bytes has been read, under a record with this CRC-64. -/
def fromT4 (crc : Word64) : Stream := { stream8 with started := true, tier := 4, source := some { crc } }
def readS (crc : Word64) : State :=
  let s := arriveS 4
  { s with cat := { adapters := [(8, { adapterOf 8 with versions := [{ ver8 with tensors := [] }] })] }
           tiers := { s.tiers with streams := [fromT4 crc] } }
theorem witness_TensorChecks :
    crc64 (delivered (readS (crc64 [])) (fromT4 (crc64 [])) { ver8 with tensors := [] } 0 []) = carriedCrc (fromT4 (crc64 [])) { ver8 with tensors := [] } 0 ∧
    ¬ crc64 (delivered (readS 5) (fromT4 5) { ver8 with tensors := [] } 0 []) = carriedCrc (fromT4 5) { ver8 with tensors := [] } 0 := by decide +kernel

def through8 : State := { up with train := { commits := [{ commitDone with through := true }] } }

theorem witness_TierEvents :
    (let s := streamIn stream8 (heldT4 up)
     s.tiers.streams.find? (fun y => y.id = 1) = some stream8 ∧ stream8.started = false ∧ s.pace.pfw = false ∧ runningStreams s < 256 ∧
       firstWaiting s stream8 = true ∧ pairAway s 0 = false ∧ s.tiers.singleHome = false ∧ stream8.left.any (stream8.skips s) = false ∧
       sourceTier s stream8 = some 4 ∧ kilnServes s = true) ∧
    (let s := arriveS 2
     s.tiers.streams.find? (fun y => y.id = 1) = some { stream8 with started := true, tier := 2 } ∧ verOf s 0 8 1 = some ver8 ∧
       crc64 (delivered s { stream8 with started := true, tier := 2 } ver8 0 []) = carriedCrc { stream8 with tier := 2 } ver8 0 ∧ 0 ∉ ver8.lost) ∧
    (let s := streamIn stream8 up
     sourceTier s stream8 = none ∧ verOf s 0 8 1 = some ver8 ∧ stream8.left.any (stream8.skips s) = false) ∧
    ((readS 5).tiers.streams = [fromT4 5] ∧ (readS 5).pace.pfw = false ∧ (fromT4 5).toRead = []) ∧
    (throughDue through8).isSome = true ∧
    throughDue dirtyS = none ∧ dirtyS.tiers.testHoldLeaving = false ∧
    (oldestDirty dirtyS false = some dirty8 ∧ oldestDirty dirtyS true = some dirty8 ∧ kilnServes dirtyS = true ∧ pairAway dirtyS 1 = false) ∧
    (evictS.cask 0).st = .evicting ∧ keysRise up.homes.loads = true ∧ keysRise up.cellar.sketch = true := by decide +kernel

/-- A row of adapter 8 with its one beat staged, and its segment not placed yet. -/
def scatterS : State :=
  let s := inCask { up with cat := cat8, planInForce := some plan7 }
  let g := { sortGyle s passOne with st := .running, slots := [(0, { credited := true, actDone := true })] }
  { s with gyles := [g], ports := [(0, { staged := [{ gk := ownGyle 0 3, last := true }] })] }

/-- What a write of the staged beat finds, its segment placed where a tun works. -/
def scatterAt (s : State) : State :=
  let s := placeSegment (stamp s) (ownGyle 0 3) 0 0
  s.gyles.foldl (fun s g => settleRanks (runFeeder s (g.rowSlot 0 0).tun (laneOf g 0) 0 0) (g.rowSlot 0 0).tun) s
/-- The write finds its bank idle, and room in the lane or none. -/
def scatterRoom (s : State) (room : Bool) : Bool :=
  ((scatterAt s).gyle (ownGyle 0 3)).any fun g => !(g.rowSlot 0 0).localDone && !bankBusy (scatterAt s) (g.rowSlot 0 0).tun (laneOf g 0) 0 &&
    (g.plan.slots[0]?).any fun q => laneRoom (scatterAt s) g q 0 0 == room

theorem witness_ScatterWrites :
    scatterHead (scatterS.port 0) = some { gk := ownGyle 0 3, last := true } ∧ scatterRoom scatterS true = true ∧
      scatterRoom { scatterS with tuns := [] } false = true := by decide +kernel

def linkS (s : State) : State := peer1 s
def msg1 : MsgHdr := { port := 1, src := 1, dst := 0, seq := 1, corr := 40 }
def sharded (s : State) : State := { s with cat := { s.cat with adapters := cat8.adapters, exceptions := [(9, 2)] } }
def homeNow : State := linkS (sharded up)
def asked (m : Msg) (gk : Option GyleKey) (s : State) : State := { s with homes := { s.homes with requests := [{ msg := m, gk }] } }
def ask (type : Nat) (args : List Nat) : Msg := { type, dst := 1, corr := 40, args }
def lease9 : Lease := { adapter := 9, version := 1, home := 1 }
def leaseS : State :=
  { homeNow with homes := { homeNow.homes with leases := [lease9], granted := [{ adapter := 8, version := 1, peer := 1 }], holds := [{ adapter := 8, version := 1, peer := 2 }] }
                 cellar := { pins := [{ ctx := 0, adapter := 9, count := 1 }] } }

theorem witness_Leases_a :
    (Fresh homeNow 0x01 msg1 ∧ homeOf (catFor homeNow 0) 8 = selfPeer homeNow ∧ ((catFor homeNow 0).adapter 8).cur.isSome = true) := by decide +kernel
def ans9 : LookupAns := { adapter := 9, version := 1, leaseUs := 5, hdr := { hdr10 with id := 9 }, slots := [slot10] }

theorem witness_Leases_b :
    (let s := asked (ask 0x01 [9]) none homeNow
     Answering s 0x02 msg1 0x01 { msg := ask 0x01 [9] } ∧ msg1.status = stDone ∧ runIn s 0x02 msg1 = none ∧ answerBad s 0 ans9 = false ∧ unseenIn s (catFor s 0) [] (answerNeeds ans9.hdr) = [] ∧
       homeOf (catFor s 0) 9 ≠ selfPeer s ∧ epochHeld s 0 = true ∧ s.homes.learning = [] ∧ s.homes.fwdWaiting = [] ∧ s.homes.tenantWaits = [] ∧
       unseenIn s (catFor s 0) [] (answerNeeds { ans9.hdr with form := .member, basisId := 9 }) = [9]) ∧
    (let s := asked (ask 0x01 [9]) (some (ownGyle 0 3)) { homeNow with gyles := [gyle3] }
     Answering s 0x02 msg1 0x01 { msg := ask 0x01 [9], gk := some (ownGyle 0 3) } ∧ s.gyle (ownGyle 0 3) = some gyle3) ∧
    (partsOf homeNow homeNow.cat [8, 9] = [(1, [9])] ∧ partsOf homeNow homeNow.cat [8] = []) := by decide +kernel
theorem witness_Leases_c :
    (let s := asked (ask 0x03 [9, 1]) none leaseS
     Answering s 0x04 msg1 0x03 { msg := ask 0x03 [9, 1] }) := by decide +kernel
theorem witness_Leases_d :
    (let s := asked (ask 0x05 [0, 8, 1]) none leaseS
     Answering s 0x06 msg1 0x05 { msg := ask 0x05 [0, 8, 1] } ∧ noAnswer { msg := ask 0x05 [0, 8, 1] } msg1 = false) := by decide +kernel
theorem witness_Leases_e :
    (Ordered leaseS 0x07 msg1 ∧ leaseS.glob.ready = true) := by decide +kernel
theorem witness_Leases_f :
    (leaseS.homes.leases.find? (fun l => l.adapter = 9 && !l.renewing && leaseInUse leaseS l) = some lease9 ∧ peerUp leaseS 1 = true) := by decide +kernel
theorem witness_Leases_g :
    (leaseS.homes.granted.find? fun g => g.adapter = 8 && g.version = 1 && g.peer = 1) = some { adapter := 8, version := 1, peer := 1 } ∧ peerUp leaseS 2 = false := by decide +kernel

def farComps : List (List FarComp) := [[{ adapter := 8, version := 1, weight := 0x3F800000 }]]
def farG : Gyle := { key := farKey msg1 6, kind := .far, st := .running, openSeq := 60, plan := plan7 }
def farS : State := { homeNow with gyles := [farG] }
def farRow : FarRec := { row := 0, data := List.replicate 128 0 }
def farSlot : FarSlot := { inW := 32, outW := 32 }
def waitG : Gyle := { rowIn { deltaIn with farPending := [1] } with farHomes := [1] }
def waitFar (type : Nat) : State := asked (ask type []) (some (ownGyle 0 3)) { linkS (flowS waitG) with gyles := [waitG] }
def seg8 : SegHdr := { adapter := 9, version := 1, index := 0, total := 2, length := 2, crc := crc64 [1, 2] }
def remote9 : Stream := { id := 1, adapter := 9, version := 1, started := true, tier := 5, left := [0], home := 1 }
def fetchS : State :=
  asked (ask 0x10 [9, 1]) none { streamIn remote9 homeNow with cellar := { casks := [(0, { cask8 with st := .filling, adapter := 9, present := [] })] } }

theorem witness_Far_a :
    (Fresh homeNow 0x10 msg1 ∧ servesVersion homeNow (catFor homeNow 0) 8 1 1 = true ∧ ((catFor homeNow 0).adapter 8).ver 1 = some ver8) := by decide +kernel
theorem witness_Far_b :
    (Ordered fetchS 0x11 msg1 ∧ reissuedFor fetchS msg1 = none ∧ requestOf fetchS 0x10 msg1 = some { msg := ask 0x10 [9, 1] } ∧
      fetchStream fetchS { msg := ask 0x10 [9, 1] } = some remote9 ∧ WholeTensor fetchS 0x11 msg1 seg8 [1, 2]) := by decide +kernel
theorem witness_Far_c :
    (let s := asked (ask 0x10 [9, 1]) none homeNow
     Answering s 0x12 msg1 0x10 { msg := ask 0x10 [9, 1] } ∧ fetchStream s { msg := ask 0x10 [9, 1] } = none) := by decide +kernel
theorem witness_Far_d :
    (homeNow.gyle (farKey msg1 6) = none ∧ openGyles homeNow < 256 ∧ (namedComps farComps).findSome? (farCompBad homeNow (catFor homeNow 0)) = none) := by decide +kernel
theorem witness_Far_e :
    (farS.gyle (farKey msg1 6) = some farG ∧ Fresh farS 0x22 msg1 ∧ farRoute homeNow msg1 6 = none ∧ farG.cancelled = false ∧ farG.farWork = []) ∧
    Ordered farS 0x25 msg1 ∧ Ordered farS 0x26 msg1 := by decide +kernel
theorem witness_Far_f :
    (Answering (waitFar 0x20) 0x21 msg1 0x20 { msg := ask 0x20 [], gk := some (ownGyle 0 3) } ∧ (waitFar 0x20).gyle (ownGyle 0 3) = some waitG) := by decide +kernel
theorem witness_Far_g :
    (Answering (waitFar 0x22) 0x23 msg1 0x22 { msg := ask 0x22 [], gk := some (ownGyle 0 3) } ∧ farSlotOf waitG farSlot 0 = 0 ∧
      1 ∈ (waitG.rowSlot 0 0).farPending ∧ (waitG.rowSlot 0 0).served = .own) := by decide +kernel

def gathered (type ans : Nat) (left : List Seq) : State :=
  let s := asked (ask type []) none homeNow
  { s with homes := { s.homes with gathers := [{ ask := { ask type [] with corr := 33 }, ans, left }] } }

theorem witness_Far_i :
    Ordered (waitFar 0x22) 0x24 msg1 ∧ (waitFar 0x22).homes.gathers = [] ∧ requestOf (waitFar 0x22) 0x22 msg1 = some { msg := ask 0x22 [], gk := some (ownGyle 0 3) } ∧
    staleCtx (waitFar 0x22) { msg := ask 0x22 [], gk := some (ownGyle 0 3) } msg1 = false ∧
    ((gathered 0x22 0x23 [40]).homes.gathers.find? (·.left.contains 40)).isSome = true ∧ Ordered (gathered 0x22 0x23 [40]) 0x24 msg1 := by decide +kernel

def passed (s : State) : State := { s with homes := { s.homes with redirected := [(40, { ask 0x10 [9, 1] with dst := 1, corr := 33 })] } }
def routed : State := { homeNow with homes := { homeNow.homes with farRouted := [(1, (farKey msg1 6).num, 1)] } }

theorem witness_Far_h :
    (servesVersion homeNow homeNow.cat 9 1 1 = false ∧ ((catFor { purgedS with homes := homeNow.homes } 0).adapter 8).retired = true) ∧
    (Ordered (passed homeNow) 0x11 msg1 ∧ (reissuedFor (passed homeNow) msg1).isSome = true ∧ (passed homeNow).homes.gathers = []) ∧
    (farRoute routed msg1 6 = some 1 ∧ routed.gyle (farKey msg1 6) = none ∧ Fresh routed 0x22 msg1) ∧
    (let s := asked (ask 0x10 [9, 1]) none fetchS
     fetchStream s { msg := ask 0x10 [9, 1] } = some remote9) ∧
    ((namedComps [[{ adapter := 8, version := 7 }]]).findSome? (farCompBad homeNow homeNow.cat) = some stStaleVersion) := by decide +kernel

def rackHdr : AdapterHdr := { hdrOf 10 with slotCount := 1 }
def rackNow (n : Nat) : Rack := { adapter := 8, dest := 1, phase := n }
def racking (n : Nat) (s : State) : State := { s with homes := { s.homes with rack := some (rackNow n) } }
def coming : RackIn := { adapter := 10, src := 1, hdr := rackHdr, slots := [slot10], bytes := 64 }
def comingS (x : RackIn) : State := { homeNow with homes := { homeNow.homes with rackIn := [x] } }
def full : RackIn := { coming with tensors := [{ index := 0 }, { index := 1 }] }
def answerTo (type : Nat) (n : Nat) : State := asked (ask type []) none (racking n homeNow)

theorem witness_Racking_a :
    (Fresh homeNow 0x30 msg1 ∧ t4Charge homeNow 1 + 64 ≤ (tenantRec homeNow 1).qT4Gib * gib ∧ 64 + regFld homeNow pgKiln 0x090 0 16 * gib ≤ kilnFree homeNow) := by decide +kernel
theorem witness_Racking_b :
    (Answering (answerTo 0x30 1) 0x31 msg1 0x30 { msg := ask 0x30 [] } ∧ rackOf (answerTo 0x30 1) msg1 1 = some (rackNow 1)) := by decide +kernel
theorem witness_Racking_c :
    (Ordered (comingS coming) 0x32 msg1 ∧ WholeTensor (comingS coming) 0x32 msg1 { seg8 with adapter := 10 } [1, 2]) := by decide +kernel
theorem witness_Racking_d :
    (Fresh (comingS full) 0x33 msg1 ∧ (comingS full).homes.rackIn.find? (·.src = 1) = some full ∧ (∀ i < 2 * full.slots.length, ∃ x ∈ full.tensors, x.index = i) ∧
      1 < rackSize (comingS full) ∧ rackSize (comingS full) ≤ 2) := by decide +kernel
theorem witness_Racking_j :
    (Fresh (comingS full) 0x36 msg1 ∧ selfPeer (comingS full) < rackSize (comingS full) ∧
      (comingS full).homes.rackIn.find? (·.adapter = 10) = some full ∧ full.queued = [] ∧ rackSize homeNow ≤ 2) ∧
    (∃ i < 2 * coming.slots.length, ∀ x ∈ coming.tensors, x.index ≠ i) ∧
    (tenantRec (withReg homeNow pgHomes 0x098 0) 1).qT4Gib * gib < t4Charge homeNow 1 + 2 ^ 60 := by decide +kernel
theorem witness_Racking_e :
    (Answering (answerTo 0x33 3) 0x34 msg1 0x33 { msg := ask 0x33 [] } ∧ rackOf (answerTo 0x33 3) msg1 3 = some (rackNow 3)) := by decide +kernel
theorem witness_Racking_f :
    (Ordered (racking 2 homeNow) 0x35 msg1 ∧ (racking 2 homeNow).homes.rack = some (rackNow 2)) := by decide +kernel
theorem witness_Racking_g :
    (racking 3 homeNow).homes.rack = some (rackNow 3) := by decide +kernel
theorem witness_Racking_h :
    (Fresh homeNow 0x36 msg1 ∧ 1 < rackSize homeNow ∧ 1 ≠ selfPeer homeNow ∧ msg1.epoch = homeNow.cat.epoch) := by decide +kernel
theorem witness_Racking_i :
    (Answering (answerTo 0x36 4) 0x37 msg1 0x36 { msg := ask 0x36 [] } ∧ rackOf (answerTo 0x36 4) msg1 4 = some (rackNow 4)) := by decide +kernel

def purgeDesc : List Byte := 0x31 :: List.replicate 15 0 ++ leBytes 4 8 ++ List.replicate 44 0
def dirWait : DirPending := { ctx := some 0, sqIndex := 5, entries := [entry1], applied := 1, waiting := [1, 2], corr := 40 }
def dirAckS : State := { asked (ask 0x40 []) none homeNow with homes := { (asked (ask 0x40 []) none homeNow).homes with dirPending := [dirWait] } }
def fwdS : State :=
  let s := asked (ask 0x42 []) none homeNow
  setCtx { s with homes := { s.homes with forwards := [(40, 0, 5, 0x30)] } } 0 { up.ctx 0 with st := .running, inflight := [{ opcode := 0x30, sqIndex := 5 }], cqResv := 1 }
def keyed : State := { withReg up pgHomes 0x080 0x200 with keys := { slots := [(2, some {}), (3, some { salt := 1 })] } }

theorem witness_Peers_a :
    (Fresh homeNow 0x40 msg1 ∧ runIn homeNow 0x40 msg1 = none) := by decide +kernel
theorem witness_Peers_b :
    (Answering dirAckS 0x41 msg1 0x40 { msg := ask 0x40 [] } ∧ dirAckS.homes.dirPending = [dirWait] ∧ (dirWait.waiting.filter (· ≠ 1)) ≠ []) := by decide +kernel
theorem witness_Peers_c :
    (purgeDesc.length = 64 ∧ (descFields purgeDesc).opcode = 0x31 ∧ (descFields purgeDesc).adapter = 8 ∧ homedHere homeNow 8 = true ∧
      purgeBad homeNow 8 = none ∧ runIn homeNow 0x42 msg1 = none) := by decide +kernel
theorem witness_Peers_d :
    (Answering fwdS 0x43 msg1 0x42 { msg := ask 0x42 [] } ∧ (fwdS.ctx 0).faultCause ≠ 0x03 ∧
      fwdS.homes.forwards = [(40, 0, 5, 0x30)] ∧ (fwdS.ctx 0).inflight.find? (fun m => m.sqIndex = 5 && m.opcode = 0x30) = some { opcode := 0x30, sqIndex := 5 }) := by decide +kernel
theorem witness_Peers_e :
    homeNow.catRetiring = none := by decide +kernel
theorem witness_Peers_f :
    (domainPresent keyed 193 = true ∧ peerUp keyed 1 = false ∧ (tget none keyed.keys.slots 2).isSome = true ∧
      (tget none keyed.keys.slots 3).isSome = true ∧ 1 < rackSize keyed ∧ 1 ≠ selfPeer keyed ∧ tget none up.keys.slots 2 = none) := by decide +kernel
theorem witness_Peers_g :
    peerUp homeNow 1 = true := by decide +kernel
theorem witness_Peers_h :
    (let s := asked (ask 0x03 [9, 1]) none leaseS
     (s.homes.requests.filter fun r => r.msg.corr = 40 && r.msg.type ≠ 0x64 && !r.late) = [{ msg := ask 0x03 [9, 1] }]) ∧
    (let g : Gather := { ask := { ask 0x01 [8, 9] with corr := 33 }, ans := 0x02, left := [40] }
     let s := { homeNow with homes := { homeNow.homes with gathers := [g, { g with left := [40, 41] }] } }
     Ordered s 0x02 msg1 ∧ s.homes.gathers.find? (·.left.contains 40) = some g ∧ g.left.filter (· ≠ 40) = [] ∧ peerUp s g.ask.dst = true) := by decide +kernel
theorem witness_Peers_j :
    (let s := asked (ask 0x10 [9, 1]) none (passed homeNow)
     let s := { s with homes := { s.homes with redirected := (passed homeNow).homes.redirected } }
     s.homes.gathers = [] ∧ reissuedFor s msg1 = some { ask 0x10 [9, 1] with dst := 1, corr := 33 } ∧ peerUp s 1 = true ∧
       sentAfresh { msg := ask 0x10 [9, 1] } msg1 = false ∧ noAnswer { msg := ask 0x10 [9, 1] } msg1 = false ∧ Ordered s 0x12 msg1 ∧
       requestOf s 0x10 msg1 = some { msg := ask 0x10 [9, 1] }) ∧
    (let s := asked (ask 0x01 [9]) none homeNow
     Ordered s 0x02 { msg1 with status := stCancelled } ∧ requestOf s 0x01 { msg1 with status := stCancelled } = some { msg := ask 0x01 [9] }) ∧
    ((gathered 0x01 0x02 [40]).homes.gathers.map fun g => g.left.filter (· ≠ 40)) = [[]] ∧
    ((gathered 0x01 0x02 [40, 41]).homes.gathers.map fun g => g.left.filter (· ≠ 40)) = [[41]] ∧
    Ordered (gathered 0x01 0x02 [40]) 0x02 msg1 ∧ (requestOf (gathered 0x01 0x02 [40]) 0x01 msg1).isSome = true ∧
    runIn (gathered 0x01 0x02 [40]) 0x02 msg1 = none := by decide +kernel
theorem witness_Peers_i :
    ({ homeNow.homes with answered := [{ peer := 1, corr := 40, body := some {} }] } : Homes).answered.any
      (fun a => a.peer = 1 && a.corr = 40 && a.body.isSome) = true := by decide +kernel

def borrow2 : Borrowed := { grant := 2, lender := 1, gibs := 1 }
def borrowS (x : Borrowed) : State := { homeNow with tiers := { singleHome := false, borrowed := [x], warm := [{ adapter := 9, version := 1, bytes := 64, grant := some 2 }] } }
def lendingS (l : Lent) (m : Msg) : State := asked m none { homeNow with tiers := { singleHome := false, lent := [l] } }
def stored2 : Lent := { lent2 with store := [(0, { seg8 with adapter := 8 }, [1, 2])] }
def t3S : State :=
  asked (ask 0x64 [2, 0, 2]) none
    { homeNow with cellar := { casks := [(0, { cask8 with st := .filling, present := [] })] }
                   tiers := { singleHome := false, borrowed := [borrow2], streams := [{ stream8 with started := true, tier := 3, corr := 40 }] } }

theorem witness_Lending_a :
    (Fresh homeNow 0x60 msg1 ∧ (∀ b ∈ homeNow.tiers.borrowed, b.grant ≠ 2) ∧ Fresh (borrowS borrow2) 0x60 msg1 ∧ borrow2 ∈ (borrowS borrow2).tiers.borrowed) := by decide +kernel
theorem witness_Lending_b :
    (let s := lendingS { lent2 with active := false } (ask 0x60 [2])
     Answering s 0x61 msg1 0x60 { msg := ask 0x60 [2] } ∧ lentOf s 1 2 = some { lent2 with active := false }) := by decide +kernel
theorem witness_Lending_c :
    ((borrowS borrow2).tiers.borrowed.find? (fun b => b.grant = 2 && b.lender = 1) = some borrow2 ∧ borrow2.reads = []) := by decide +kernel
theorem witness_Lending_d :
    ((borrowS { borrow2 with recalling := some (ask 0x62 [2]) }).tiers.borrowed.find? (fun b => b.grant = 2 && b.lender = 1) =
      some { borrow2 with recalling := some (ask 0x62 [2]) }) := by decide +kernel
theorem witness_Lending_e :
    (let s := lendingS { lent2 with recalled := true } (ask 0x62 [2])
     Answering s 0x63 msg1 0x62 { msg := ask 0x62 [2] } ∧ lentOf s 1 2 = some { lent2 with recalled := true }) := by decide +kernel
theorem witness_Lending_f :
    (let s := lendingS stored2 (ask 0x60 [2])
     Fresh s 0x64 msg1 ∧ lentOf s 1 2 = some stored2 ∧ stored2.store.find? (fun x => x.1 = 0 && x.2.2.length = 2) = some (0, { seg8 with adapter := 8 }, [1, 2])) := by decide +kernel
theorem witness_Lending_g :
    (Ordered t3S 0x65 msg1 ∧ requestOf t3S 0x64 msg1 = some { msg := ask 0x64 [2, 0, 2] } ∧ WholeTensor t3S 0x65 msg1 { seg8 with adapter := 8 } [1, 2] ∧
      stream8.left.head? = some seg8.index ∧ lentOf homeNow 1 2 = none ∧ t3Stream t3S { msg := ask 0x64 [2, 0, 2] } = some { stream8 with started := true, tier := 3, corr := 40 } ∧
      [1, 2] = storedBytes ((verOf t3S 0 8 1).getD {}) 0) := by decide +kernel
theorem witness_Lending_h :
    WholeTensor (lendingS lent2 (ask 0x60 [2])) 0x66 msg1 seg8 [1, 2] := by decide +kernel
theorem witness_Lending_i :
    (t3S.homes.requests.find? (fun r => r.msg.type = 0x64 && r.msg.corr = 40)).isSome = true := by decide +kernel

/-! ### The whole machine -/

theorem witness_Step : { up with pending := [Instr.timerRecal] }.pending = .timerRecal :: [] := by decide +kernel

theorem witness_Invariant : Inv { up with pending := [Instr.timerRecal] } ∧ ∃ t, step { up with pending := [Instr.timerRecal] } = .next t :=
  ⟨by decide +kernel, _, rfl⟩

theorem witness_Frames : ∃ t, exec .timerRecal up = .next t := ⟨_, rfl⟩

end Sys2Proof.Tests
end

section
/-! PROOFS. Every step keeps the invariant (`Obligations.InvariantKept`). `Keeps s t` says, part by part, that what the invariant asks of
`s` it finds in `t`. Each operation of the model has one rule: from `h : Keeps s₀ s` the state after the operation on `s`, so that a chain
`h.stamp.modCtx.raise` follows a definition's body from its first operation to its last; `.same` stands for an update of parts that the
invariant does not speak of. The rules stand in the order of the definitions. -/
namespace Sys2Proof.Machine

/-- What every operation of the block keeps between two states, part by part (the invariant of R9, R32, R109, R205 and R313). -/
structure Keeps (s t : State) : Prop where
  seq : SeqReserved s → SeqReserved t ∧ s.gauger.seq ≤ t.gauger.seq := by exact fun h => ⟨h, Nat.le_refl _⟩
  gyles : (s.gyles.map (·.key)).Nodup → (t.gyles.map (·.key)).Nodup := by exact id
  handles : keysRise s.handles = true → keysRise t.handles = true := by exact id
  tuns : keysRise s.tuns = true → keysRise t.tuns = true := by exact id
  cellar : Memory.wf s.cellar.memory = true → Memory.wf t.cellar.memory = true := by exact id
  kiln : Memory.wf s.kiln.memory = true → Memory.wf t.kiln.memory = true := by exact id
  chip : Memory.wf s.tiers.chip = true → Memory.wf t.tiers.chip = true := by exact id
  borrowed : s.tiers.borrowed.all (fun b => Memory.wf b.cells) = true → t.tiers.borrowed.all (fun b => Memory.wf b.cells) = true := by
    exact id

-- Each proof waits for the one before it: all at once would each hold a thread.
set_option Elab.async false
variable {s₀ s t : State}

protected theorem Keeps.refl (s : State) : Keeps s s := {}

protected theorem Keeps.trans {u : State} (h : Keeps s t) (k : Keeps t u) : Keeps s u where
  seq hs :=
    have ⟨ht, hst⟩ := h.seq hs
    have ⟨hu, htu⟩ := k.seq ht
    ⟨hu, hst.trans htu⟩
  gyles := k.gyles ∘ h.gyles
  handles := k.handles ∘ h.handles
  tuns := k.tuns ∘ h.tuns
  cellar := k.cellar ∘ h.cellar
  kiln := k.kiln ∘ h.kiln
  chip := k.chip ∘ h.chip
  borrowed := k.borrowed ∘ h.borrowed

protected theorem Keeps.inv (h : Keeps s t) (hs : Inv s) : Inv t :=
  have ⟨seq, gyles, handles, tuns, cellar, kiln, chip, borrowed⟩ := hs
  ⟨(h.seq seq).1, h.gyles gyles, h.handles handles, h.tuns tuns, h.cellar cellar, h.kiln kiln, h.chip chip, h.borrowed borrowed⟩

/-- An update of other parts of the state. -/
protected theorem Keeps.same {gauger log pages regs ctxs planInForce planStaged cat catStaged staging catRetiring dir dirStaged dirOld
      tenantRecs heldGroups orphans nextHold sortRows ports spillUsed cellar tiers train homes kiln integrity repair pace keys boundary
      fuses glob outs freeCtr pending} (h : Keeps s₀ s)
    (hg : gauger.seq = s.gauger.seq := by with_reducible rfl) (hl : log.reservedBlock = s.log.reservedBlock := by with_reducible rfl)
    (hc : cellar.memory = s.cellar.memory := by with_reducible rfl) (hk : kiln.memory = s.kiln.memory := by with_reducible rfl)
    (ht : tiers.chip = s.tiers.chip := by with_reducible rfl) (hb : tiers.borrowed = s.tiers.borrowed := by with_reducible rfl) :
    Keeps s₀ { s with
      gauger, log, pages, regs, ctxs, planInForce, planStaged, cat, catStaged, staging, catRetiring, dir, dirStaged, dirOld, tenantRecs,
      heldGroups, orphans, nextHold, sortRows, ports, spillUsed, cellar, tiers, train, homes, kiln, integrity, repair, pace, keys, boundary,
      fuses, glob, outs, freeCtr, pending } :=
  h.trans
    { seq := fun hs => ⟨by simpa only [SeqReserved, hg, hl] using hs, hg.ge⟩
      cellar := hc ▸ id
      kiln := hk ▸ id
      chip := ht ▸ id
      borrowed := hb ▸ id }

/-- A command that answers a next state keeps what `Keeps` names up to it. -/
def After (s : State) (o : Host.Outcome State Fault Refusal) : Prop := ∀ t, o = .next t → Keeps s t

protected theorem Keeps.next (h : Keeps s t) : After s (.next t) := by
  rintro u ⟨⟩
  exact h

protected theorem Keeps.foldl {α : Type} {g : State → α → State} {l : List α} (h : Keeps s₀ s)
    (hg : ∀ {t}, Keeps s₀ t → ∀ a, Keeps s₀ (g t a)) : Keeps s₀ (l.foldl g s) := by
  induction l generalizing s with
  | nil => exact h
  | cons a l ih => exact ih (hg h a)

protected theorem Keeps.getD {o : Option State} (h : Keeps s₀ s) (ho : ∀ {t}, o = some t → Keeps s₀ t) : Keeps s₀ (o.getD s) := by
  cases o with
  | none => exact h
  | some t => exact ho rfl

/-- Steps that may each find no room keep what one of them keeps. -/
protected theorem Keeps.foldl_bind {α : Type} {g : State → α → Option State} {l : List α} {o : Option State}
    (ho : ∀ {u}, o = some u → Keeps s₀ u)
    (hg : ∀ {u v}, Keeps s₀ u → ∀ a, g u a = some v → Keeps s₀ v)
    (ht : l.foldl (fun (o : Option State) a => o.bind fun u => g u a) o = some t) : Keeps s₀ t := by
  induction l generalizing o with
  | nil => exact ho ht
  | cons a l ih =>
    refine ih (fun hu => ?_) ht
    obtain ⟨v, rfl, hv⟩ := Option.bind_eq_some_iff.mp hu
    exact hg (ho rfl) a hv

protected theorem Keeps.of_some (h : Keeps s₀ s) {u : State} (hu : some s = some u) : Keeps s₀ u := by
  cases hu
  exact h

protected theorem Keeps.foldl_fst {α β : Type} {g : State × β → α → State × β} {l : List α} {p : State × β} (h : Keeps s₀ p.1)
    (hg : ∀ {q : State × β}, Keeps s₀ q.1 → ∀ a, Keeps s₀ (g q a).1) : Keeps s₀ (l.foldl g p).1 := by
  induction l generalizing p with
  | nil => exact h
  | cons a l ih => exact ih (hg h a)

protected theorem Keeps.ite {c : Prop} [Decidable c] (hs : Keeps s₀ s) (ht : Keeps s₀ t) : Keeps s₀ (if c then s else t) := by
  split
  · exact hs
  · exact ht

/-! ### Tables, names and sequences -/

theorem keysRise_tdel {α : Type} {k : Nat} {t : Tab α} (h : keysRise t = true) : keysRise (tdel k t) = true := by
  induction t with
  | nil => rfl
  | cons e t ih =>
    obtain ⟨hfrom, hrise⟩ := (keysRise_cons e t).mp h
    unfold tdel
    split
    · exact ih hrise
    · exact (keysRise_cons ..).mpr ⟨keysFrom_tdel hfrom, ih hrise⟩

theorem keysRise_tset {α : Type} [DecidableEq α] {d v : α} {k : Nat} {t : Tab α} (h : keysRise t = true) :
    keysRise (tset d t k v) = true := by
  unfold tset
  split
  · exact keysRise_tdel h
  · exact keysRise_tput h

/-- Whether the keys of a table rise is a matter of its keys alone. -/
theorem keysRise_map {α β : Type} {f : Nat × α → Nat × β} (hf : ∀ e, (f e).1 = e.1) {t : Tab α} (h : keysRise t = true) :
    keysRise (t.map f) = true := by
  induction t with
  | nil => rfl
  | cons e t ih =>
    obtain ⟨hfrom, hrise⟩ := (keysRise_cons e t).mp h
    refine (keysRise_cons ..).mpr ⟨fun x hx => ?_, ih hrise⟩
    obtain ⟨y, hy, rfl⟩ := List.mem_map.mp hx
    rw [hf, hf]
    exact hfrom y hy

theorem keysRise_filterMap {α β : Type} {f : Nat × α → Option (Nat × β)} (hf : ∀ {e x}, f e = some x → x.1 = e.1) {t : Tab α}
    (h : keysRise t = true) : keysRise (t.filterMap f) = true := by
  induction t with
  | nil => rfl
  | cons e t ih =>
    obtain ⟨hfrom, hrise⟩ := (keysRise_cons e t).mp h
    rw [List.filterMap_cons]
    split
    · exact ih hrise
    · rename_i x hx
      refine (keysRise_cons ..).mpr ⟨fun y hy => ?_, ih hrise⟩
      obtain ⟨z, hz, hzy⟩ := List.mem_filterMap.mp hy
      rw [hf hx, hf hzy]
      exact hfrom z hz

theorem keysRise_mapTab {α : Type} [DecidableEq α] {d : α} {f : α → α} {t : Tab α} (h : keysRise t = true) :
    keysRise (mapTab d f t) = true :=
  keysRise_filterMap (fun he => by split at he <;> cases he; rfl) h

theorem nodup_map_keys {f : Gyle → Gyle} (hf : ∀ g, (f g).key = g.key) {l : List Gyle} (h : (l.map (·.key)).Nodup) :
    ((l.map f).map (·.key)).Nodup := by
  simpa only [List.map_map, Function.comp_def, hf] using h

theorem mem_putGyle {l : List Gyle} {g x : Gyle} (h : x ∈ putGyle l g) : x = g ∨ x ∈ l := by
  induction l with
  | nil => simpa [putGyle] using h
  | cons y l ih =>
    unfold putGyle at h
    split at h <;> grind

/-- A gyle that is stored takes the place of the one of its name, or a place of its own. -/
theorem nodup_putGyle {l : List Gyle} {g : Gyle} (h : (l.map (·.key)).Nodup) : ((putGyle l g).map (·.key)).Nodup := by
  induction l with
  | nil => simp [putGyle]
  | cons y l ih =>
    obtain ⟨hy, hl⟩ := List.nodup_cons.mp h
    unfold putGyle
    split
    · rename_i hk
      exact List.nodup_cons.mpr ⟨by simpa only [hk] using hy, hl⟩
    · rename_i hk
      refine List.nodup_cons.mpr ⟨fun hmem => ?_, ih hl⟩
      obtain ⟨x, hx, hxy⟩ := List.mem_map.mp hmem
      rcases mem_putGyle hx with rfl | hx
      · exact hk hxy.symm
      · exact hy (List.mem_map.mpr ⟨x, hx, hxy⟩)

theorem memWf_foldl_memDrop {α : Type} {addr len : α → Nat} {l : List α} {m : Memory} (h : Memory.wf m = true) :
    Memory.wf (l.foldl (fun m a => memDrop m (addr a) (len a)) m) = true := by
  induction l generalizing m with
  | nil => exact h
  | cons a l ih => exact ih (memWf_memDrop h)

/-- The cells of every grant keep their form where each grant's do. -/
theorem cellsWf_map {f : Borrowed → Borrowed} {l : List Borrowed} (hf : ∀ b, Memory.wf b.cells = true → Memory.wf (f b).cells = true)
    (h : l.all (fun b => Memory.wf b.cells) = true) : (l.map f).all (fun b => Memory.wf b.cells) = true := by
  simp only [List.all_eq_true, List.mem_map] at h ⊢
  rintro _ ⟨b, hb, rfl⟩
  exact hf b (h b hb)

theorem cellsWf_filter {p : Borrowed → Bool} {l : List Borrowed} (h : l.all (fun b => Memory.wf b.cells) = true) :
    (l.filter p).all (fun b => Memory.wf b.cells) = true := by
  simp only [List.all_eq_true, List.mem_filter] at h ⊢
  exact fun b hb => h b hb.1

@[simp] theorem push_reservedBlock (lb : LogBook) (r : LogRec) : (lb.push r).reservedBlock = lb.reservedBlock := by
  unfold LogBook.push
  split <;> rfl

@[simp] theorem reserveBlock_reservedBlock (s : State) (b : Nat) : (reserveBlock s b).log.reservedBlock = b := by
  unfold reserveBlock
  dsimp only
  split <;> rfl

/-- A block of sequences above the present one is reserved (R313). -/
protected theorem Keeps.reserveBlock {b : Nat} (hb : SeqReserved s → s.gauger.seq ≤ b * 2 ^ 32) (h : Keeps s₀ s) :
    Keeps s₀ (reserveBlock s b) :=
  h.trans
    { seq := fun hs => ⟨by simp [SeqReserved], by simpa using hb hs⟩
      gyles := by simp
      handles := by simp
      tuns := by simp
      cellar := by simp
      kiln := by simp
      chip := by simp
      borrowed := by simp }

theorem sequence_below_free_block {q r b : Nat} (h : q / 2 ^ 32 ≤ r) (hb : r < b) : q ≤ b * 2 ^ 32 := by
  omega

theorem sequence_enters_block {q : Nat} (h : (q + 1) % 2 ^ 32 = 0) :
    q ≤ (q + 1) / 2 ^ 32 * 2 ^ 32 ∧ (q + 1) / 2 ^ 32 * 2 ^ 32 ≤ q + 1 + 1 ∧ (q + 1 + 1) / 2 ^ 32 ≤ (q + 1) / 2 ^ 32 := by
  omega

theorem sequence_stays_in_block {q : Nat} (h : ¬ (q + 1) % 2 ^ 32 = 0) : (q + 1) / 2 ^ 32 = q / 2 ^ 32 := by
  omega

/-- The next sequence stands in the present block, which is reserved, or in the next one, which is reserved first (R312, R313). -/
protected theorem Keeps.stamp (h : Keeps s₀ s) : Keeps s₀ (stamp s) := by
  fun_cases stamp s
  case case1 n hn s' =>
    obtain ⟨hle, hge, hblock⟩ := sequence_enters_block hn
    refine (h.reserveBlock fun _ => hle).trans { seq := fun _ => ⟨?_, ?_⟩ }
    · simp only [SeqReserved, s', reserveBlock_reservedBlock]
      exact hblock
    · simp only [reserveBlock_seq]
      exact hge
  case case2 n hn =>
    refine h.trans { seq := fun hs => ⟨?_, Nat.le_succ s.gauger.seq⟩ }
    simp only [SeqReserved] at hs ⊢
    rw [sequence_stays_in_block hn]
    exact hs

/-! ### Registers -/

protected theorem Keeps.setReg {page off v} (h : Keeps s₀ s) : Keeps s₀ (setReg s page off v) := h.same

/-! ### Ops -/

protected theorem Keeps.setCtx {c x} (h : Keeps s₀ s) : Keeps s₀ (setCtx s c x) := h.same

protected theorem Keeps.modCtx {c f} (h : Keeps s₀ s) : Keeps s₀ (modCtx s c f) := h.setCtx

protected theorem Keeps.setTun {n x} (h : Keeps s₀ s) : Keeps s₀ (setTun s n x) := h.trans { tuns := keysRise_tset }

protected theorem Keeps.modTun {t f} (h : Keeps s₀ s) : Keeps s₀ (modTun s t f) := h.setTun

protected theorem Keeps.modPort {p f} (h : Keeps s₀ s) : Keeps s₀ (modPort s p f) := h.same

protected theorem Keeps.modCask {i f} (h : Keeps s₀ s) : Keeps s₀ (modCask s i f) := h.same

protected theorem Keeps.setGyle {g} (h : Keeps s₀ s) : Keeps s₀ (setGyle s g) := h.trans { gyles := nodup_putGyle }

protected theorem Keeps.modGyle {x f} (h : Keeps s₀ s) : Keeps s₀ (modGyle s x f) := by
  fun_cases modGyle s x f
  · exact h.setGyle
  · exact h

protected theorem Keeps.dropGyle {k} (h : Keeps s₀ s) : Keeps s₀ (dropGyle s k) :=
  h.trans { gyles := fun hs => hs.sublist (List.filter_sublist.map _) }

protected theorem Keeps.bumpFree (h : Keeps s₀ s) : Keeps s₀ (bumpFree s) := h.same

protected theorem Keeps.raiseAt {page cls seq} (h : Keeps s₀ s) : Keeps s₀ (raiseAt s page cls seq) := h.same

protected theorem Keeps.raise {page cls} (h : Keeps s₀ s) : Keeps s₀ (raise s page cls) := h.raiseAt

protected theorem Keeps.logAt {seq page code tenant submitter fid payload} (h : Keeps s₀ s) :
    Keeps s₀ (logAt s seq page code tenant submitter fid payload) := by
  fun_cases logAt s seq page code tenant submitter fid payload
  · exact h.same (hl := push_reservedBlock ..)
  · exact (h.same (hl := push_reservedBlock ..)).raiseAt

protected theorem Keeps.logNow {page code tenant submitter fid payload} (h : Keeps s₀ s) :
    Keeps s₀ (logNow s page code tenant submitter fid payload) :=
  h.logAt

protected theorem Keeps.stampRaise {page cls} (h : Keeps s₀ s) : Keeps s₀ (stampRaise s page cls) := h.stamp.raise

protected theorem Keeps.emit {o} (h : Keeps s₀ s) : Keeps s₀ (emit s o) := h.same

protected theorem Keeps.emitAll {os} (h : Keeps s₀ s) : Keeps s₀ (emitAll s os) := h.same

protected theorem Keeps.refuseWrite {page off role status} (h : Keeps s₀ s) : Keeps s₀ (refuseWrite s page off role status) := by
  unfold refuseWrite
  extract_lets home code s1 s2
  have h1 : Keeps s₀ s1 := h.same
  have h2 : Keeps s₀ s2 := by
    unfold s2
    split
    · split
      · exact h1.raise
      · exact h1
    · exact h1
  exact h2.emit

protected theorem Keeps.busWrite {page off v role check effect} (heffect : ∀ {t}, Keeps s₀ t → Keeps s₀ (effect t)) (h : Keeps s₀ s) :
    Keeps s₀ (busWrite page off v role check effect s) := by
  fun_cases busWrite page off v role check effect s
  · exact h
  · exact h.stamp.refuseWrite
  · exact h.stamp.refuseWrite
  · exact (heffect h.stamp).emit

protected theorem Keeps.storeReg {page off v} (h : Keeps s₀ s) : Keeps s₀ (storeReg page off v s) := by
  fun_cases storeReg page off v s
  · exact h.setReg
  · exact h
  · exact h

protected theorem Keeps.newFaultNow {o source first detail} (h : Keeps s₀ s) : Keeps s₀ (newFaultNow s o source first detail) := by
  unfold newFaultNow
  extract_lets _ _ s1 _
  have h1 : Keeps s₀ s1 := h.same
  exact h1.logNow.raise

protected theorem Keeps.newFault {o source first detail} (h : Keeps s₀ s) : Keeps s₀ (newFault s o source first detail) :=
  h.stamp.newFaultNow

protected theorem Keeps.enterLevel {id o source first level} (h : Keeps s₀ s) : Keeps s₀ (enterLevel s id o source first level) := by
  fun_cases enterLevel s id o source first level
  · exact h.stamp.same.logNow.raise
  · exact h.stamp.same.logNow

protected theorem Keeps.startFault {o source level detail} (h : Keeps s₀ s) : Keeps s₀ (startFault s o source level detail) := by
  fun_cases startFault s o source level detail
  · exact h.enterLevel
  · exact h
  · exact h.newFault.enterLevel

protected theorem Keeps.endFault {o} (h : Keeps s₀ s) : Keeps s₀ (endFault s o) := h.same

protected theorem Keeps.noteParity {x} (h : Keeps s₀ s) : Keeps s₀ (noteParity s x) := by
  fun_cases noteParity s x
  · exact h.same
  · exact h
  · exact h

protected theorem Keeps.issueReq {r} (h : Keeps s₀ s) : Keeps s₀ (issueReq s r) := by
  fun_cases issueReq s r <;> exact h.same

protected theorem Keeps.startXfer {use write addr bytes data} (h : Keeps s₀ s) : Keeps s₀ (startXfer s use write addr bytes data) := by
  unfold startXfer
  extract_lets _ _ _ s1
  have h1 : Keeps s₀ s1 := h.same
  exact h1.foldl fun k _ => k.issueReq

protected theorem Keeps.retryWaiting (h : Keeps s₀ s) : Keeps s₀ (retryWaiting s) := h.same.foldl fun k _ => k.issueReq

protected theorem Keeps.dropXfers {p} (h : Keeps s₀ s) : Keeps s₀ (dropXfers s p) := h.same

protected theorem Keeps.setCtxNow {c st} (h : Keeps s₀ s) : Keeps s₀ (setCtxNow s c st) := h.modCtx.raise

protected theorem Keeps.setCtxState {c st} (h : Keeps s₀ s) : Keeps s₀ (setCtxState s c st) := by
  fun_cases setCtxState s c st
  · exact h
  · exact h.modCtx.stampRaise

protected theorem Keeps.settle {c} (h : Keeps s₀ s) : Keeps s₀ (settle s c) := by
  fun_cases settle s c
  · exact h.setCtxState
  · exact h

protected theorem Keeps.pump {c} (h : Keeps s₀ s) : Keeps s₀ (pump s c) := by
  fun_cases pump s c
  · exact (h.setCtx.setCtxState.ite h.setCtx).startXfer
  · exact h

protected theorem Keeps.afterCmd {c} (h : Keeps s₀ s) : Keeps s₀ (afterCmd s c) := h.settle.pump

protected theorem Keeps.postRecord {c opcode status cflags sqIndex gyle result done} (h : Keeps s₀ s) :
    Keeps s₀ (postRecord s c opcode status cflags sqIndex gyle result done) := by
  fun_cases postRecord s c opcode status cflags sqIndex gyle result done
  · exact h.setCtx
  · exact h.setCtx.startXfer

protected theorem Keeps.clearFront {c} (h : Keeps s₀ s) : Keeps s₀ (clearFront s c) := h.modCtx

protected theorem Keeps.releaseResv {c} (h : Keeps s₀ s) : Keeps s₀ (releaseResv s c) := h.modCtx

protected theorem Keeps.refuseCmd {c fr opcode gyle b} (h : Keeps s₀ s) : Keeps s₀ (refuseCmd s c fr opcode gyle b) :=
  h.stamp.postRecord.clearFront.afterCmd

protected theorem Keeps.doneCmd {c fr d result} (h : Keeps s₀ s) : Keeps s₀ (doneCmd s c fr d result) := h.postRecord.clearFront.afterCmd

protected theorem Keeps.acceptSilent {c} (h : Keeps s₀ s) : Keeps s₀ (acceptSilent s c) := h.clearFront.releaseResv.afterCmd

protected theorem Keeps.acceptLater {c cmd} (h : Keeps s₀ s) : Keeps s₀ (acceptLater s c cmd) := h.clearFront.modCtx.afterCmd

protected theorem Keeps.completeLater {c cmd status cflags result} (h : Keeps s₀ s) :
    Keeps s₀ (completeLater s c cmd status cflags result) :=
  h.modCtx.postRecord.afterCmd

protected theorem Keeps.onFront {c opcode f} (h : Keeps s₀ s) (hf : ∀ x0 x1 x2, Keeps s₀ (f x0 x1 x2)) :
    Keeps s₀ (onFront c opcode s f) := by
  fun_cases onFront c opcode s f
  · exact hf _ _ _
  · exact h
  · exact h
  · exact h

protected theorem Keeps.decideCmd {c fr d bad accept} (h : Keeps s₀ s) (haccept : ∀ {t}, Keeps s₀ t → Keeps s₀ (accept t)) :
    Keeps s₀ (decideCmd s c fr d bad accept) := by
  fun_cases decideCmd s c fr d bad accept
  · exact h.refuseCmd
  · exact haccept h.stamp

/-! ### Caps -/

protected theorem Keeps.holdCap (h : Keeps s₀ s) : Keeps s₀ (holdCap s) := h.same

protected theorem Keeps.askVoltage (h : Keeps s₀ s) : Keeps s₀ (askVoltage s) := by
  fun_cases askVoltage s
  · exact h
  · exact h.same.emit

protected theorem Keeps.setGate (h : Keeps s₀ s) : Keeps s₀ (setGate s) := h.same.askVoltage

protected theorem Keeps.capEvent (h : Keeps s₀ s) : Keeps s₀ (capEvent s) := h.holdCap.setGate

/-! ### Catalogue -/

protected theorem Keeps.sendMsg {m} (h : Keeps s₀ s) : Keeps s₀ (sendMsg s m) := by
  fun_cases sendMsg s m
  · exact h
  · exact h.same.emit

protected theorem Keeps.sendReq {m gk} (h : Keeps s₀ s) : Keeps s₀ (sendReq s m gk) := h.sendMsg.same

protected theorem Keeps.askHome {epoch home submitter a} (h : Keeps s₀ s) : Keeps s₀ (askHome s epoch home submitter a) := h.stamp.sendReq

protected theorem Keeps.modAdapter {a f} (h : Keeps s₀ s) : Keeps s₀ (modAdapter s a f) := h.same

protected theorem Keeps.askAll {cat submitter asked ids} (h : Keeps s₀ s) : Keeps s₀ (askAll s cat submitter asked ids).1 :=
  h.foldl_fst fun k _ => k.askHome

protected theorem Keeps.modVer {a v f} (h : Keeps s₀ s) : Keeps s₀ (modVer s a v f) := h.modAdapter

/-! ### Flash -/

protected theorem Keeps.setKilnPhase {ph} (h : Keeps s₀ s) : Keeps s₀ (setKilnPhase s ph) := by
  fun_cases setKilnPhase s ph
  · exact h
  · exact h.same.raise

protected theorem Keeps.modChan {d f} (h : Keeps s₀ s) : Keeps s₀ (modChan s d f) := h.same

protected theorem Keeps.issueFlash {d cs} (h : Keeps s₀ s) : Keeps s₀ (issueFlash s d cs) := h.emitAll

protected theorem Keeps.modBlock {b f} (h : Keeps s₀ s) : Keeps s₀ (modBlock s b f) := h.same

protected theorem Keeps.openBlock {a b} (h : Keeps s₀ s) : Keeps s₀ (openBlock s a b) := by
  fun_cases openBlock s a b
  · exact h.modBlock.same
  · exact h.modBlock.same
  · exact h.modBlock.same
  · exact h.modBlock

protected theorem Keeps.takePages {a n x} (h : Keeps s₀ s) (ht : takePages s a n = some x) : Keeps s₀ x.1 := by
  revert ht
  fun_cases takePages s a n
  · rintro ⟨⟩
    dsimp only
    exact h.modBlock
  · rintro ⟨⟩
  · rintro ⟨⟩
  · rintro ⟨⟩
    dsimp only
    exact (h.ite h.modBlock).openBlock.modBlock

protected theorem Keeps.issueProgram {slc p} (h : Keeps s₀ s) : Keeps s₀ (issueProgram s slc p) := h.issueFlash

protected theorem Keeps.programPage {slc p page} (h : Keeps s₀ s) : Keeps s₀ (programPage s slc p page) := h.same.issueProgram

protected theorem Keeps.programParity {slc stripe} (h : Keeps s₀ s) : Keeps s₀ (programParity s slc stripe) := h.programPage.programPage

protected theorem Keeps.programRuns {slc key index runs chunks} (h : Keeps s₀ s) : Keeps s₀ (programRuns s slc key index runs chunks) :=
  (h.foldl fun k _ => k.programPage).foldl fun k _ => k.programParity

protected theorem Keeps.writePages {a key index ct x} (h : Keeps s₀ s) (ht : writePages s a key index ct = some x) : Keeps s₀ x.1 := by
  obtain ⟨_, htaken, rfl⟩ := Option.map_eq_some_iff.mp ht
  exact (h.takePages htaken).programRuns

protected theorem Keeps.finishErases (h : Keeps s₀ s) : Keeps s₀ (finishErases s) := h.same

protected theorem Keeps.startErase {b} (h : Keeps s₀ s) : Keeps s₀ (startErase s b) := by
  unfold startErase
  extract_lets _ _ _ _ s1
  have h1 : Keeps s₀ s1 := h.modBlock.same
  exact h1.foldl fun k _ => k.issueFlash

protected theorem Keeps.reclaim (h : Keeps s₀ s) : Keeps s₀ (reclaim s) := h.foldl fun k _ => k.startErase

protected theorem Keeps.reclaimJournal (h : Keeps s₀ s) : Keeps s₀ (reclaimJournal s) := h.foldl fun k _ => k.startErase

protected theorem Keeps.startCheckpoint (h : Keeps s₀ s) : Keeps s₀ (startCheckpoint s) := by
  fun_cases startCheckpoint s
  · exact h
  · exact (h.foldl fun k _ => k.startErase).same

protected theorem Keeps.journalPut {j} (h : Keeps s₀ s) : Keeps s₀ (journalPut s j) := by
  unfold journalPut
  extract_lets s1 j1 j2 _ s2
  have h1 : Keeps s₀ s1 := by
    unfold s1
    split
    · exact (h.takePages ‹_›).foldl fun k _ => k.issueProgram
    · exact h
  have h2 : Keeps s₀ s2 := h1.same
  exact h2.startCheckpoint.ite h2

protected theorem Keeps.enterShared {epoch v} (h : Keeps s₀ s) : Keeps s₀ (enterShared s epoch v) := by
  fun_cases enterShared s epoch v
  · exact h.stamp.journalPut
  · exact h

protected theorem Keeps.writeTensor {x epoch v i} (h : Keeps s₀ s) : Keeps s₀ (writeTensor s x epoch v i) := by
  fun_cases writeTensor s x epoch v i
  · exact h
  · exact (h.writePages ‹_›).bumpFree.journalPut

protected theorem Keeps.moveTensor {a b r t} (h : Keeps s₀ s) (ht : moveTensor s a b r = some t) : Keeps s₀ t := by
  unfold moveTensor at ht
  split at ht
  · cases ht
  · obtain ⟨_, hwritten, rfl⟩ := Option.map_eq_some_iff.mp ht
    exact (h.stamp.writePages hwritten).journalPut

protected theorem Keeps.moveBlock {a b} (h : Keeps s₀ s) : Keeps s₀ (moveBlock s a b) := h.foldl fun k r => k.getD (k.moveTensor (r := r))

protected theorem Keeps.removeTensors {x ts} (h : Keeps s₀ s) : Keeps s₀ (removeTensors s x ts) := by
  fun_cases removeTensors s x ts
  · exact h
  · exact h.journalPut

/-! ### Casks -/

protected theorem Keeps.refreshHolds (h : Keeps s₀ s) : Keeps s₀ (refreshHolds s) := h.foldl fun k _ => k.modCask

protected theorem Keeps.countUse {epoch a v} (h : Keeps s₀ s) : Keeps s₀ (countUse s epoch a v) := by
  fun_cases countUse s epoch a v
  · exact h.same.modCask
  · exact h.same

protected theorem Keeps.sendTensor {m v i} (h : Keeps s₀ s) : Keeps s₀ (sendTensor s m v i) := h.sendMsg

protected theorem Keeps.writeT3 {b w} (h : Keeps s₀ s) : Keeps s₀ (writeT3 s b w) := by
  unfold writeT3
  extract_lets v s1 n
  have h1 : Keeps s₀ s1 := h.foldl fun k _ => k.sendTensor
  exact h1.trans { borrowed := cellsWf_map fun x hx => by split <;> exact hx }

protected theorem Keeps.modVerOf {epoch a v f} (h : Keeps s₀ s) : Keeps s₀ (modVerOf s epoch a v f) := by
  fun_cases modVerOf s epoch a v f <;> exact h.same

protected theorem Keeps.backToT4 {epoch a v idx} (h : Keeps s₀ s) : Keeps s₀ (backToT4 s epoch a v idx) := by
  fun_cases backToT4 s epoch a v idx
  · exact h
  · exact (h.foldl fun k _ => k.stamp.writeTensor).modVerOf

protected theorem Keeps.leaveT4Tensor {epoch a v i} (h : Keeps s₀ s) : Keeps s₀ (leaveT4Tensor s epoch a v i) := by
  fun_cases leaveT4Tensor s epoch a v i
  · exact h
  · exact (h.stamp.removeTensors.ite h).modVerOf

protected theorem Keeps.dropWarm {w} (h : Keeps s₀ s) : Keeps s₀ (dropWarm s w) := by
  fun_cases dropWarm s w
  · exact h.same.backToT4.writeT3
  · exact h.same.backToT4

protected theorem Keeps.makeT2 {need below} (h : Keeps s₀ s) : Keeps s₀ (makeT2 s need below) := by
  fun_cases makeT2 s need below
  · exact h
  · exact h
  · exact h.foldl fun k _ => k.ite k.dropWarm

protected theorem Keeps.clearT1 {c i} (h : Keeps s₀ s) : Keeps s₀ (clearT1 s c i) := by
  fun_cases clearT1 s c i
  · exact h
  · exact h.trans { cellar := memWf_memDrop }

protected theorem Keeps.addWarm {w idx} (h : Keeps s₀ s) : Keeps s₀ (addWarm s w idx) := by
  unfold addWarm
  extract_lets v clear tiers s1 same warm
  have h1 : Keeps s₀ s1 := by
    unfold s1
    split
    · exact h
    · exact h.trans { chip := memWf_foldl_memDrop }
  exact h1.same

protected theorem Keeps.cutWarm {epoch a v idx} (h : Keeps s₀ s) : Keeps s₀ (cutWarm s epoch a v idx) := h.same

protected theorem Keeps.placeWarm {w idx} (h : Keeps s₀ s) : Keeps s₀ (placeWarm s w idx) := by
  fun_cases placeWarm s w idx
  · exact h.makeT2.addWarm
  · exact h

protected theorem Keeps.moveDownCask {c} (h : Keeps s₀ s) : Keeps s₀ (moveDownCask s c) := by
  fun_cases moveDownCask s c
  · exact h.makeT2.addWarm
  · exact h.backToT4

protected theorem Keeps.demote {c} (h : Keeps s₀ s) : Keeps s₀ (demote s c) := by
  fun_cases demote s c
  · exact h
  · exact h.moveDownCask
  · exact h
  · exact h.placeWarm

protected theorem Keeps.keepStreams {keep} (h : Keeps s₀ s) : Keeps s₀ (keepStreams s keep) := h.same

protected theorem Keeps.dropCask {i} (h : Keeps s₀ s) : Keeps s₀ (dropCask s i) := h.same.keepStreams

protected theorem Keeps.evictRaw {i} (h : Keeps s₀ s) : Keeps s₀ (evictRaw s i) := by
  fun_cases evictRaw s i
  · exact h.same.demote.dropCask
  · exact h.same.modCask

protected theorem Keeps.moveUllage {i} (h : Keeps s₀ s) : Keeps s₀ (moveUllage s i) := by
  fun_cases moveUllage s i
  · exact h
  · exact Keeps.ite (h.foldl fun k _ => k.evictRaw).modCask (h.foldl fun k _ => k.evictRaw)
  · exact h

protected theorem Keeps.moveAllUllage (h : Keeps s₀ s) : Keeps s₀ (moveAllUllage s) := h.foldl fun k _ => k.moveUllage

protected theorem Keeps.freeCask {i} (h : Keeps s₀ s) : Keeps s₀ (freeCask s i) := h.dropCask.refreshHolds.moveAllUllage

protected theorem Keeps.evictAll {is} (h : Keeps s₀ s) : Keeps s₀ (evictAll s is) := (h.foldl fun k _ => k.evictRaw).refreshHolds

protected theorem Keeps.freeStale (h : Keeps s₀ s) : Keeps s₀ (freeStale s) := h.foldl fun k _ => k.freeCask.ite k

protected theorem Keeps.coverGrowth (h : Keeps s₀ s) : Keeps s₀ (coverGrowth s) := h.evictAll

protected theorem Keeps.addStream {i r} (h : Keeps s₀ s) : Keeps s₀ (addStream s i r) := by
  fun_cases addStream s i r
  · exact h
  · exact h.same

protected theorem Keeps.placePart {r probation p} (h : Keeps s₀ s) : Keeps s₀ (placePart r probation s p) := by
  fun_cases placePart r probation s p
  · exact h.modCask
  · exact h
  · exact h.modCask.addStream

protected theorem Keeps.placeParts {r probation} (h : Keeps s₀ s) : Keeps s₀ (placeParts s r probation) :=
  (h.foldl fun k _ => k.placePart).refreshHolds

protected theorem Keeps.noSpace {r} (h : Keeps s₀ s) : Keeps s₀ (noSpace s r).s := h

protected theorem Keeps.awaitVictims {r vs place} (h : Keeps s₀ s) : Keeps s₀ (awaitVictims s r vs place).s := h

protected theorem Keeps.takeIndices {r probation} (h : Keeps s₀ s) : Keeps s₀ (takeIndices s r probation).s := by
  fun_cases takeIndices s r probation
  · exact h.noSpace
  · exact h.evictAll.placeParts
  · exact h.evictAll.awaitVictims

protected theorem Keeps.evictAndPlace {r vs probation} (h : Keeps s₀ s) : Keeps s₀ (evictAndPlace s r vs probation).s := by
  fun_cases evictAndPlace s r vs probation
  · exact h.evictAll.awaitVictims
  · exact h.evictAll.takeIndices
  · exact h.evictAll.noSpace

protected theorem Keeps.mainStep {r} (h : Keeps s₀ s) : Keeps s₀ (mainStep s r).s := by
  fun_cases mainStep s r
  · exact h.evictAndPlace
  · exact h.noSpace

protected theorem Keeps.probationStep {r} (h : Keeps s₀ s) : Keeps s₀ (probationStep s r).s := by
  fun_cases probationStep s r
  · exact (h.ite h.same).mainStep
  · exact (h.ite h.same).evictAndPlace
  · exact (h.ite h.same).mainStep

protected theorem Keeps.spaceSteps {r} (h : Keeps s₀ s) : Keeps s₀ (spaceSteps s r).s := by
  fun_cases spaceSteps s r
  · exact h.takeIndices
  · exact h
  · exact h.mainStep
  · exact h.probationStep

protected theorem Keeps.tryAdmit {r} (h : Keeps s₀ s) : Keeps s₀ (tryAdmit s r).s := by
  fun_cases tryAdmit s r
  · exact h.noSpace
  · exact h.evictAll.spaceSteps
  · exact h.evictAll.awaitVictims

protected theorem Keeps.retryOne {r} (h : Keeps s₀ s) : Keeps s₀ (retryOne s r).s := by
  fun_cases retryOne s r
  · exact h
  · exact h.takeIndices
  · exact h.tryAdmit
  · exact h
  · exact h.tryAdmit

protected theorem Keeps.noteNoSpace {r} (h : Keeps s₀ s) : Keeps s₀ (noteNoSpace s r).1 := by
  fun_cases noteNoSpace s r
  · exact h
  · exact h.same

protected theorem Keeps.endAttempt {a} (h : Keeps s₀ a.s) : Keeps s₀ (endAttempt a) := by
  fun_cases endAttempt a
  · exact h.moveAllUllage
  · exact h.moveAllUllage.noteNoSpace.same

protected theorem Keeps.takeIn {r} (h : Keeps s₀ s) : Keeps s₀ (takeIn s r) := h.tryAdmit.endAttempt

protected theorem Keeps.unqueue {r} (h : Keeps s₀ s) : Keeps s₀ (unqueue s r) := h.same

protected theorem Keeps.retryAdmits {l} (h : Keeps s₀ s) : Keeps s₀ (retryAdmits l s) := by
  fun_induction retryAdmits l s with
  | case1 => exact h
  | case2 _ _ _ _ _ ih => exact ih (h.unqueue.retryOne).endAttempt
  | case3 _ _ _ _ ih => exact ih h

protected theorem Keeps.modWaiting {f} (h : Keeps s₀ s) : Keeps s₀ (modWaiting s f) := h.same

protected theorem Keeps.takePromises (h : Keeps s₀ s) : Keeps s₀ (takePromises s) := h.evictAll.modWaiting

protected theorem Keeps.releaseFrom {free0} (h : Keeps s₀ s) : Keeps s₀ (releaseFrom free0 s) := by
  unfold releaseFrom
  extract_lets s1 _ s2
  have h1 : Keeps s₀ s1 := h.refreshHolds.freeStale.moveAllUllage.coverGrowth.takePromises
  have h2 : Keeps s₀ s2 := h1.same
  exact h2.retryAdmits

protected theorem Keeps.releaseBy {f} (h : Keeps s₀ s) (hf : ∀ {t}, Keeps s₀ t → Keeps s₀ (f t)) : Keeps s₀ (releaseBy s f) :=
  (hf h).releaseFrom

protected theorem Keeps.release (h : Keeps s₀ s) : Keeps s₀ (release s) := h.releaseFrom

protected theorem Keeps.raiseAdmits {epoch a v} (h : Keeps s₀ s) : Keeps s₀ (raiseAdmits s epoch a v) :=
  h.foldl fun k _ => k.unqueue.retryOne.endAttempt

protected theorem Keeps.noteUser {c epoch vs} (h : Keeps s₀ s) : Keeps s₀ (noteUser s c epoch vs) := by
  fun_cases noteUser s c epoch vs
  · exact h
  · exact h.same.modWaiting

protected theorem Keeps.needCasks {r v basis} (h : Keeps s₀ s) : Keeps s₀ (needCasks s r v basis) := by
  fun_cases needCasks s r v basis
  · exact h.noteUser
  · exact h.noteUser.raiseAdmits
  · exact h.noteUser
  · exact h.noteUser
  · exact h.noteUser.takeIn

protected theorem Keeps.bindCask {x epoch a v} (h : Keeps s₀ s) : Keeps s₀ (bindCask s x epoch a v) := by
  fun_cases bindCask s x epoch a v
  · exact h
  · exact h.modCask

protected theorem Keeps.bindTenant {x tenant} (h : Keeps s₀ s) : Keeps s₀ (bindTenant s x tenant) := by
  fun_cases bindTenant s x tenant
  · exact h
  · exact h.foldl fun k _ => by
      split
      · exact k.modCask
      · exact k

protected theorem Keeps.unbindGyle {x} (h : Keeps s₀ s) : Keeps s₀ (unbindGyle s x) := h.releaseBy fun k => k.foldl fun k2 _ => k2.modCask

protected theorem Keeps.staleCask {epoch a v} (h : Keeps s₀ s) : Keeps s₀ (staleCask s epoch a v) := by
  fun_cases staleCask s epoch a v
  · exact h
  · exact h.freeCask
  · exact h.modCask

/-! ### Release -/

protected theorem Keeps.freeResv {x slot row} (h : Keeps s₀ s) : Keeps s₀ (freeResv s x slot row) := by
  fun_cases freeResv s x slot row
  · exact h
  · exact h
  · exact (h.same.ite h.modPort).modGyle

protected theorem Keeps.freeAllResv {x} (h : Keeps s₀ s) : Keeps s₀ (freeAllResv s x) := by
  fun_cases freeAllResv s x
  · exact h
  · exact h.foldl fun k _ => k.freeResv

protected theorem Keeps.clearHeld {x} (h : Keeps s₀ s) : Keeps s₀ (clearHeld s x) := h.same

protected theorem Keeps.clearWork {x} (h : Keeps s₀ s) : Keeps s₀ (clearWork s x) :=
  ((h.freeAllResv.foldl fun k _ => k.modPort).foldl fun k _ => k.modTun).clearHeld.same

protected theorem Keeps.farCancel {g} (h : Keeps s₀ s) : Keeps s₀ (farCancel s g) := h.foldl fun k _ => k.sendMsg

protected theorem Keeps.farClose {g} (h : Keeps s₀ s) : Keeps s₀ (farClose s g) := h.foldl fun k _ => k.sendMsg

protected theorem Keeps.withdrawWords {c} (h : Keeps s₀ s) : Keeps s₀ (withdrawWords s c) := h.foldl fun k _ => k.emit.ite k

protected theorem Keeps.pruneVersions (h : Keeps s₀ s) : Keeps s₀ (pruneVersions s) := by
  unfold pruneVersions
  extract_lets _ _ s1 _
  have h1 : Keeps s₀ s1 := h.same
  exact h1.same

protected theorem Keeps.freeHandles (h : Keeps s₀ s) : Keeps s₀ (freeHandles s) := h.trans { handles := keysRise_filter }

protected theorem Keeps.settleDirectory (h : Keeps s₀ s) : Keeps s₀ (settleDirectory s) := h.same

protected theorem Keeps.endOldPrefetches {epoch} (h : Keeps s₀ s) : Keeps s₀ (endOldPrefetches s epoch) :=
  h.foldl fun k _ => k.foldl fun k2 _ => k2.stamp.completeLater.ite k2

protected theorem Keeps.dropEpoch {epoch} (h : Keeps s₀ s) : Keeps s₀ (dropEpoch s epoch) :=
  h.releaseBy fun k => k.same.keepStreams.endOldPrefetches

protected theorem Keeps.releaseEpoch (h : Keeps s₀ s) : Keeps s₀ (releaseEpoch s) := by
  fun_cases releaseEpoch s
  · exact h
  · exact h
  · exact (Keeps.ite h (h.same.foldl fun k _ => k.sendMsg)).dropEpoch
  · exact h.ite (h.same.foldl fun k _ => k.sendMsg)

protected theorem Keeps.releaseHolds {g} (h : Keeps s₀ s) : Keeps s₀ (releaseHolds s g) := (h.foldl fun k _ => k.sendMsg).same

protected theorem Keeps.releaseGyle {x} (h : Keeps s₀ s) : Keeps s₀ (releaseGyle s x) := by
  fun_cases releaseGyle s x
  · exact h
  · exact h.releaseHolds.dropGyle.same.unbindGyle.pruneVersions.freeHandles.settleDirectory.releaseEpoch

/-! ### Flags -/

protected theorem Keeps.postGyle {x} (h : Keeps s₀ s) : Keeps s₀ (postGyle s x) := by
  fun_cases postGyle s x
  · exact h
  · exact h
  · exact h.setGyle.postRecord

protected theorem Keeps.drainGyle {x} (h : Keeps s₀ s) : Keeps s₀ (drainGyle s x) := by
  fun_cases drainGyle s x
  · exact h
  · exact h.stamp.setGyle.farClose.stamp.postGyle
  · exact h.stamp.setGyle.farClose.startXfer

protected theorem Keeps.completeGyle {x} (h : Keeps s₀ s) : Keeps s₀ (completeGyle s x) := by
  fun_cases completeGyle s x
  · exact h
  · exact h.setGyle.releaseEpoch
  · exact h.setGyle.releaseGyle

/-! ### Grist -/

protected theorem Keeps.needComp {x c} (h : Keeps s₀ s) : Keeps s₀ (needComp x s c) := by
  fun_cases needComp x s c
  case case1 => exact h
  case case2 => exact h
  case case3 t _ =>
    unfold t
    split
    · exact h.needCasks.bindCask.bindCask
    · exact h.needCasks.bindCask
  case case4 s1 _ =>
    have h1 : Keeps s₀ s1 := by
      unfold s1
      split
      · exact h.needCasks.bindCask.bindCask
      · exact h.needCasks.bindCask
    exact h1.countUse.modGyle

protected theorem Keeps.placeHold {g a v t} (h : Keeps s₀ s) (ht : placeHold s g a v = some t) : Keeps s₀ t := by
  revert ht
  fun_cases placeHold s g a v <;> rintro ⟨⟩
  · exact h
  case case6 s1 s2 =>
    have h1 : Keeps s₀ s1 := h.makeT2
    have h2 : Keeps s₀ s2 := h1.same
    split
    · exact h2.modCask
    · exact h2

protected theorem Keeps.trainComp {k model acc c} (h : Keeps s₀ acc.1) : Keeps s₀ (trainComp k model acc c).1 := by
  fun_cases trainComp k model acc c
  case case6 => exact Keeps.modGyle h
  case case7 => exact (h.placeHold ‹_›).modGyle
  all_goals exact h

protected theorem Keeps.trainRow {x r} (h : Keeps s₀ s) : Keeps s₀ (trainRow s x r).1 := by
  fun_cases trainRow s x r
  · exact h
  · exact h.foldl_fst fun k _ => k.trainComp

protected theorem Keeps.askLookups {x ids} (h : Keeps s₀ s) : Keeps s₀ (askLookups s x ids) := by
  fun_cases askLookups s x ids
  · exact h
  · exact h.foldl fun k _ => k.stamp.sendReq.modGyle

protected theorem Keeps.openFar {x x'} (h : Keeps s₀ s) : Keeps s₀ (openFar s x x') := by
  fun_cases openFar s x x'
  · exact h
  · exact h.stamp.sendReq

protected theorem Keeps.fetchRest {x} (h : Keeps s₀ s) : Keeps s₀ (fetchRest s x) := by
  fun_cases fetchRest s x
  · exact h
  · exact h.foldl fun k _ => k.needComp

protected theorem Keeps.decideFar {x} (h : Keeps s₀ s) : Keeps s₀ (decideFar s x) := by
  fun_cases decideFar s x
  · exact h
  · exact h
  · exact (h.setGyle.foldl fun k _ => k.openFar).fetchRest

protected theorem Keeps.placeRow {x n r} (h : Keeps s₀ s) : Keeps s₀ (placeRow s x n r) := by
  fun_cases placeRow s x n r
  · exact h
  · exact (h.modGyle.foldl fun k _ => k.needComp).bindTenant.trainRow.modGyle
  · exact (h.modGyle.foldl fun k _ => k.needComp).bindTenant

protected theorem Keeps.resolveRow {x n e} (h : Keeps s₀ s) : Keeps s₀ (resolveRow s x n e) := by
  fun_cases resolveRow s x n e
  · exact h
  · exact h.placeRow
  · exact h.modGyle.askLookups

protected theorem Keeps.rowResolve {c num} (h : Keeps s₀ s) : Keeps s₀ (rowResolve c num s) := by
  fun_cases rowResolve c num s
  · exact h
  · exact h
  · exact h
  · exact h.stamp.setGyle.resolveRow.modGyle.decideFar

protected theorem Keeps.execRowResolve {c gyle} (h : Keeps s₀ s) : After s₀ (execRowResolve c gyle s) := h.rowResolve.next

protected theorem Keeps.resolveParked {x} (h : Keeps s₀ s) : Keeps s₀ (resolveParked s x) := by
  fun_cases resolveParked s x
  · exact h
  · exact (h.foldl fun k _ => k.resolveRow).modGyle.decideFar

protected theorem Keeps.enterGyle {x st} (h : Keeps s₀ s) : Keeps s₀ (enterGyle s x st) := h.stamp.modGyle

protected theorem Keeps.sortDone {c num} (h : Keeps s₀ s) : Keeps s₀ (sortDone c num s) := by
  fun_cases sortDone c num s
  · exact h
  · exact h
  · exact h.stamp.setGyle.same.bumpFree.pruneVersions.freeHandles.settleDirectory.enterGyle.drainGyle
  · exact h.stamp.setGyle.same.bumpFree.pruneVersions.freeHandles.settleDirectory

protected theorem Keeps.execSortPass2Done {c gyle} (h : Keeps s₀ s) : After s₀ (execSortPass2Done c gyle s) := h.sortDone.next

/-! ### Commands -/

protected theorem Keeps.readRowMap {c num first addr n} (h : Keeps s₀ s) : Keeps s₀ (readRowMap s c num first addr n) := by
  fun_cases readRowMap s c num first addr n
  · exact h
  · exact h.startXfer

protected theorem Keeps.openGyle {c d kind} (h : Keeps s₀ s) : Keeps s₀ (openGyle c d kind s) := h.makeT2.setGyle.readRowMap.acceptSilent

protected theorem Keeps.gyleOpen {c} (h : Keeps s₀ s) : Keeps s₀ (gyleOpen c s) := h.onFront fun _ _ _ => h.decideCmd fun k2 => k2.openGyle

protected theorem Keeps.execGyleOpen {c} (h : Keeps s₀ s) : After s₀ (execGyleOpen c s) := h.gyleOpen.next

protected theorem Keeps.trainOpen {c} (h : Keeps s₀ s) : Keeps s₀ (trainOpen c s) :=
  h.onFront fun _ _ _ => h.decideCmd fun k2 => k2.openGyle

protected theorem Keeps.execTrainOpen {c} (h : Keeps s₀ s) : After s₀ (execTrainOpen c s) := h.trainOpen.next

protected theorem Keeps.addRows {c d} (h : Keeps s₀ s) : Keeps s₀ (addRows c d s) := by
  fun_cases addRows c d s
  · exact h
  · exact h.makeT2.setGyle.readRowMap.acceptSilent

protected theorem Keeps.gyleRows {c} (h : Keeps s₀ s) : Keeps s₀ (gyleRows c s) := h.onFront fun _ _ _ => h.decideCmd fun k2 => k2.addRows

protected theorem Keeps.execGyleRows {c} (h : Keeps s₀ s) : After s₀ (execGyleRows c s) := h.gyleRows.next

protected theorem Keeps.closeGyle {c fr d} (h : Keeps s₀ s) : Keeps s₀ (closeGyle c fr d s) := h.modGyle.decideFar.clearFront.afterCmd

protected theorem Keeps.gyleClose {c} (h : Keeps s₀ s) : Keeps s₀ (gyleClose c s) :=
  h.onFront fun _ _ _ => h.decideCmd fun k2 => k2.closeGyle

protected theorem Keeps.execGyleClose {c} (h : Keeps s₀ s) : After s₀ (execGyleClose c s) := h.gyleClose.next

protected theorem Keeps.planLoad {c} (h : Keeps s₀ s) : Keeps s₀ (planLoad c s) :=
  h.onFront fun _ _ _ => h.decideCmd fun k2 => k2.same.doneCmd

protected theorem Keeps.execPlanLoad {c} (h : Keeps s₀ s) : After s₀ (execPlanLoad c s) := h.planLoad.next

protected theorem Keeps.swapPlan (h : Keeps s₀ s) : Keeps s₀ (swapPlan s) := by
  fun_cases swapPlan s
  · exact h
  · exact h.same.foldl fun k _ => k.ite k.modCask

protected theorem Keeps.planSwap {c} (h : Keeps s₀ s) : Keeps s₀ (planSwap c s) :=
  h.onFront fun _ _ _ => h.decideCmd fun k2 => k2.swapPlan.doneCmd

protected theorem Keeps.execPlanSwap {c} (h : Keeps s₀ s) : After s₀ (execPlanSwap c s) := h.planSwap.next

protected theorem Keeps.lookFirst {c fr ids body} (hbody : ∀ {t}, Keeps s₀ t → Keeps s₀ (body t)) (h : Keeps s₀ s) :
    Keeps s₀ (lookFirst c fr ids body s) := by
  fun_cases lookFirst c fr ids body s
  · exact hbody h
  · exact h.askAll.modCtx

protected theorem Keeps.bindMix {c fr d} (h : Keeps s₀ s) : Keeps s₀ (bindMix c fr d s) := by
  fun_cases bindMix c fr d s
  · exact h
  case case2 s1 =>
    have h1 : Keeps s₀ s1 := h.trans { handles := keysRise_tput }
    exact h1.doneCmd

protected theorem Keeps.mixBind {c} (h : Keeps s₀ s) : Keeps s₀ (mixBind c s) :=
  h.onFront fun _ _ _ => h.lookFirst fun k2 => k2.decideCmd fun k3 => k3.bindMix

protected theorem Keeps.execMixBind {c} (h : Keeps s₀ s) : After s₀ (execMixBind c s) := h.mixBind.next

protected theorem Keeps.unbindMix {n} (h : Keeps s₀ s) : Keeps s₀ (unbindMix s n) := by
  unfold unbindMix
  exact (h.trans { handles := keysRise_tput }).freeHandles

protected theorem Keeps.mixUnbind {c} (h : Keeps s₀ s) : Keeps s₀ (mixUnbind c s) :=
  h.onFront fun _ _ _ => h.decideCmd fun k2 => k2.unbindMix.release.doneCmd

protected theorem Keeps.execMixUnbind {c} (h : Keeps s₀ s) : After s₀ (execMixUnbind c s) := h.mixUnbind.next

protected theorem Keeps.setPin {c a n} (h : Keeps s₀ s) : Keeps s₀ (setPin s c a n) := h.same

protected theorem Keeps.pinAdapter {c fr d} (h : Keeps s₀ s) : Keeps s₀ (pinAdapter c fr d s) :=
  h.setPin.needCasks.countUse.refreshHolds.doneCmd

protected theorem Keeps.pin {c} (h : Keeps s₀ s) : Keeps s₀ (pin c s) :=
  h.onFront fun _ _ _ => h.lookFirst fun k2 => k2.decideCmd fun k3 => k3.pinAdapter

protected theorem Keeps.execPin {c} (h : Keeps s₀ s) : After s₀ (execPin c s) := h.pin.next

protected theorem Keeps.unpin {c} (h : Keeps s₀ s) : Keeps s₀ (unpin c s) :=
  h.onFront fun _ _ _ => h.decideCmd fun k2 => k2.setPin.release.doneCmd

protected theorem Keeps.execUnpin {c} (h : Keeps s₀ s) : After s₀ (execUnpin c s) := h.unpin.next

protected theorem Keeps.startPrefetch {c d v} (h : Keeps s₀ s) : Keeps s₀ (startPrefetch s c d v) := by
  fun_cases startPrefetch s c d v
  · exact h.same
  · exact h.needCasks

protected theorem Keeps.prefetchAdapter {c fr d} (h : Keeps s₀ s) : Keeps s₀ (prefetchAdapter c fr d s) := by
  fun_cases prefetchAdapter c fr d s
  · exact h.doneCmd
  · exact h.countUse.doneCmd
  · exact h.startPrefetch.countUse.acceptLater

protected theorem Keeps.prefetch {c} (h : Keeps s₀ s) : Keeps s₀ (prefetch c s) :=
  h.onFront fun _ _ _ => h.lookFirst fun k2 => k2.decideCmd fun k3 => k3.prefetchAdapter

protected theorem Keeps.execPrefetch {c} (h : Keeps s₀ s) : After s₀ (execPrefetch c s) := h.prefetch.next

protected theorem Keeps.finishPrefetches (h : Keeps s₀ s) : Keeps s₀ (finishPrefetches s) :=
  h.foldl fun k _ => k.foldl fun k2 _ => k2.stamp.completeLater.ite k2

protected theorem Keeps.mark {c} (h : Keeps s₀ s) : Keeps s₀ (mark c s) := h.onFront fun _ _ _ => h.decideCmd fun k2 => k2.logNow.doneCmd

protected theorem Keeps.execMark {c} (h : Keeps s₀ s) : After s₀ (execMark c s) := h.mark.next

protected theorem Keeps.nop {c} (h : Keeps s₀ s) : Keeps s₀ (nop c s) := h.onFront fun _ _ _ => h.decideCmd fun k2 => k2.doneCmd

protected theorem Keeps.execNop {c} (h : Keeps s₀ s) : After s₀ (execNop c s) := h.nop.next

/-! ### Teardown -/

protected theorem Keeps.endStream {st} (h : Keeps s₀ s) : Keeps s₀ (endStream s st) := by
  fun_cases endStream s st
  · exact h.keepStreams.freeCask
  · exact h.keepStreams

protected theorem Keeps.cancelStreams {c} (h : Keeps s₀ s) : Keeps s₀ (cancelStreams s c) := (h.foldl fun k _ => k.endStream).same

protected theorem Keeps.measureFreeze {r} (h : Keeps s₀ s) : Keeps s₀ (measureFreeze s r) := by
  fun_cases measureFreeze s r
  · exact h.same.bumpFree
  · exact h

protected theorem Keeps.dropRack {r tell} (h : Keeps s₀ s) : Keeps s₀ (dropRack s r tell) := by
  fun_cases dropRack s r tell
  · exact h.same.sendMsg
  · exact h.same

protected theorem Keeps.postEnding {c e} (h : Keeps s₀ s) : Keeps s₀ (postEnding c s e) := h.stamp.postRecord

protected theorem Keeps.dropCmd {c m} (h : Keeps s₀ s) : Keeps s₀ (dropCmd c s m) := by
  fun_cases dropCmd c s m
  · exact h.same.releaseGyle
  · exact h.same.modGyle
  · exact h.same
  · exact h.same
  · exact h.same
  · exact h
  · exact h.dropRack
  · exact h.same
  · exact h
  · exact h
  · exact h.same
  · exact h.same
  · exact h

protected theorem Keeps.forgetCredit {x} (h : Keeps s₀ s) : Keeps s₀ (forgetCredit s x) := h.foldl fun k _ => k.modPort

protected theorem Keeps.tearGyle {g} (h : Keeps s₀ s) : Keeps s₀ (tearGyle s g) := h.farCancel.clearWork.releaseGyle.forgetCredit

protected theorem Keeps.teardown {c} (h : Keeps s₀ s) : Keeps s₀ (teardown s c) := by
  unfold teardown
  extract_lets _ s1 _ _ _ _ _ _ _ _ _
  have h1 : Keeps s₀ s1 := by
    unfold s1
    split
    · exact h.modCtx.measureFreeze.ite h.modCtx
    · exact h.modCtx
  exact (((h1.withdrawWords.foldl fun k _ => k.tearGyle).foldl fun k _ => k.dropCmd).dropXfers.modCtx.foldl fun k _ => k.postEnding).modCtx

protected theorem Keeps.repeatFault {c cause fid} (h : Keeps s₀ s) : Keeps s₀ (repeatFault s c cause fid) := h.logNow

protected theorem Keeps.openCtxFault {c source esc} (h : Keeps s₀ s) : Keeps s₀ (openCtxFault s c source esc) := by
  fun_cases openCtxFault s c source esc
  · exact h
  · exact h.same
  · exact h.newFaultNow

protected theorem Keeps.faultCtx {c cause source esc} (h : Keeps s₀ s) : Keeps s₀ (faultCtx s c cause source esc) := by
  fun_cases faultCtx s c cause source esc
  · exact h.repeatFault
  · exact h.repeatFault
  · exact h.repeatFault
  · exact h.openCtxFault.modCtx.logNow.setCtxNow.raise.teardown

protected theorem Keeps.resetCtx {c} (h : Keeps s₀ s) : Keeps s₀ (resetCtx s c) := by
  unfold resetCtx
  extract_lets s1 held s2 _ s3
  have h1 : Keeps s₀ s1 := h.setCtxNow.teardown
  have h2 : Keeps s₀ s2 := h1.foldl fun k _ => k.releaseGyle.forgetCredit
  clear_value s2
  have h3 : Keeps s₀ s3 := h2.trans { handles := keysRise_map fun e => by split <;> rfl }
  exact h3.freeHandles.cancelStreams.release

protected theorem Keeps.execCtxReset {c role} (h : Keeps s₀ s) : After s₀ (execCtxReset c role s) := (h.busWrite (fun k => k.resetCtx)).next

protected theorem Keeps.finishReset {c} (h : Keeps s₀ s) : Keeps s₀ (finishReset s c) := h.modCtx.setReg.setCtxState.endFault

protected theorem Keeps.ctxResetDone {c} (h : Keeps s₀ s) : Keeps s₀ (ctxResetDone c s) := by
  fun_cases ctxResetDone c s
  · exact h.finishReset
  · exact h

protected theorem Keeps.execCtxResetDone {c} (h : Keeps s₀ s) : After s₀ (execCtxResetDone c s) := h.ctxResetDone.next

protected theorem Keeps.levelFour {c id source first} (h : Keeps s₀ s) : Keeps s₀ (levelFour s c id source first) := by
  fun_cases levelFour s c id source first
  · exact h.repeatFault
  · exact h.repeatFault
  · exact h.enterLevel.stamp.resetCtx
  · exact h.enterLevel.stamp.modCtx.logNow.setCtxNow.raise.stamp.resetCtx

protected theorem Keeps.stopGyle {g} (h : Keeps s₀ s) : Keeps s₀ (stopGyle s g) := h.farCancel.clearWork.modGyle

protected theorem Keeps.cutFar {g} (h : Keeps s₀ s) : Keeps s₀ (cutFar s g) := h.farCancel.modGyle.same

protected theorem Keeps.issueHeld {c} (h : Keeps s₀ s) : Keeps s₀ (issueHeld s c) := (h.foldl fun k _ => k.foldl fun k2 _ => k2.modTun).same

protected theorem Keeps.quiesceNow {c fr d} (h : Keeps s₀ s) : Keeps s₀ (quiesceNow c fr d s) :=
  ((h.modCtx.withdrawWords.setCtxNow.issueHeld.foldl fun k _ => k.stopGyle).foldl fun k _ => k.cutFar).acceptLater

protected theorem Keeps.quiesce {c} (h : Keeps s₀ s) : Keeps s₀ (quiesce c s) := h.onFront fun _ _ _ => h.decideCmd fun k2 => k2.quiesceNow

protected theorem Keeps.execQuiesce {c} (h : Keeps s₀ s) : After s₀ (execQuiesce c s) := h.quiesce.next

protected theorem Keeps.quiesceComplete {c} (h : Keeps s₀ s) : Keeps s₀ (quiesceComplete c s) := by
  fun_cases quiesceComplete c s
  · exact h
  · exact h.stamp.completeLater
  · exact h

protected theorem Keeps.execQuiesceComplete {c} (h : Keeps s₀ s) : After s₀ (execQuiesceComplete c s) := h.quiesceComplete.next

protected theorem Keeps.reopenFar {g} (h : Keeps s₀ s) : Keeps s₀ (reopenFar s g) := h.modGyle.foldl fun k _ => k.openFar

protected theorem Keeps.rerunGyle {g} (h : Keeps s₀ s) : Keeps s₀ (rerunGyle s g) := h.modGyle.reopenFar

protected theorem Keeps.resumeNow {c fr d} (h : Keeps s₀ s) : Keeps s₀ (resumeNow c fr d s) :=
  ((h.setCtxNow.doneCmd.foldl fun k _ => k.rerunGyle).foldl fun k _ => k.reopenFar).foldl fun k _ => k.enterGyle.drainGyle

protected theorem Keeps.resume {c} (h : Keeps s₀ s) : Keeps s₀ (resume c s) := h.onFront fun _ _ _ => h.decideCmd fun k2 => k2.resumeNow

protected theorem Keeps.execResume {c} (h : Keeps s₀ s) : After s₀ (execResume c s) := h.resume.next

protected theorem Keeps.rerunNow {x} (h : Keeps s₀ s) : Keeps s₀ (rerunNow s x) := by
  fun_cases rerunNow s x
  · exact h
  · exact h
  · exact h.stopGyle.rerunGyle

/-! ### Publish -/

protected theorem Keeps.remember {peer corr m} (h : Keeps s₀ s) : Keeps s₀ (remember s peer corr m) := h.same

protected theorem Keeps.reply {to_ type status args data} (h : Keeps s₀ s) : Keeps s₀ (reply s to_ type status args data) :=
  h.sendMsg.remember

protected theorem Keeps.revoke {a v purge} (h : Keeps s₀ s) : Keeps s₀ (revoke s a v purge).1 := (h.foldl fun k _ => k.stamp.sendReq)

protected theorem Keeps.endSupersede {w} (h : Keeps s₀ s) : Keeps s₀ (endSupersede s w) := by
  fun_cases endSupersede s w
  case case1 t _ =>
    unfold t
    split
    · exact h.stamp.reply
    · exact h.stamp
  case case2 s1 _ _ s2 _ _ =>
    have h1 : Keeps s₀ s1 := by
      unfold s1
      split
      · exact h.stamp.reply
      · exact h.stamp
    have h2 : Keeps s₀ s2 := by
      unfold s2
      split
      · exact h1.completeLater
      · exact h1
    exact h2.same.releaseGyle
  case case3 s1 _ _ t _ =>
    have h1 : Keeps s₀ s1 := by
      unfold s1
      split
      · exact h.stamp.reply
      · exact h.stamp
    unfold t
    split
    · exact h1.completeLater
    · exact h1

protected theorem Keeps.endSupersedes (h : Keeps s₀ s) : Keeps s₀ (endSupersedes s) := h.same.foldl fun k _ => k.endSupersede

protected theorem Keeps.holderDone {epoch a v p} (h : Keeps s₀ s) : Keeps s₀ (holderDone s epoch a v p) := by
  unfold holderDone
  extract_lets _ s1
  have h1 : Keeps s₀ s1 := h.same
  exact h1.endSupersedes

protected theorem Keeps.makeIndices {n keep} (h : Keeps s₀ s) : Keeps s₀ (makeIndices s n keep) := h.evictAll

protected theorem Keeps.installCask {v old written commit} (h : Keeps s₀ s) : Keeps s₀ (installCask s v old written commit) := by
  unfold installCask
  extract_lets _ _ _ _ _ _ s1
  have h1 : Keeps s₀ s1 := by
    unfold s1
    split
    · exact h
    · exact h.modCask.addStream.ite h.modCask
  exact h1.releaseBy fun k => k.staleCask

protected theorem Keeps.syncDirty {a} (h : Keeps s₀ s) : Keeps s₀ (syncDirty s a) := by
  fun_cases syncDirty s a
  · exact h
  · exact h.modCask

protected theorem Keeps.markDirty {a v idx} (h : Keeps s₀ s) : Keeps s₀ (markDirty s a v idx) := by
  fun_cases markDirty s a v idx
  · exact h
  · exact h.same.syncDirty

protected theorem Keeps.addDirty {v written dirty} (h : Keeps s₀ s) : Keeps s₀ (addDirty s v written dirty) := by
  fun_cases addDirty s v written dirty
  · exact h.same.markDirty
  · exact h.same.syncDirty

protected theorem Keeps.makeCurrent {a v} (h : Keeps s₀ s) : Keeps s₀ (makeCurrent s a v) := h.modAdapter

protected theorem Keeps.noteDelta {v idx} (h : Keeps s₀ s) : Keeps s₀ (noteDelta s v idx) := by
  fun_cases noteDelta s v idx
  · exact h.same
  · exact h
  · exact h

protected theorem Keeps.noteSuperseded {epoch a v} (h : Keeps s₀ s) : Keeps s₀ (noteSuperseded s epoch a v) :=
  h.trans { gyles := nodup_map_keys fun g => by split <;> rfl }

protected theorem Keeps.installVersion {v written commit dirty} (h : Keeps s₀ s) : Keeps s₀ (installVersion s v written commit dirty) :=
  h.makeCurrent.installCask.addDirty.noteDelta.noteSuperseded

protected theorem Keeps.revokeAll {olds} (h : Keeps s₀ s) : Keeps s₀ (revokeAll s olds).1 := by
  have h1 := h.foldl_fst (l := olds) (p := (s, ([] : List (Nat × AdapterId × Nat × Nat))))
    (g := fun acc p => ((revoke acc.1 p.1 p.2 false).1, acc.2 ++ (revoke acc.1 p.1 p.2 false).2)) fun k _ => k.revoke
  exact h1.refreshHolds.pruneVersions

protected theorem Keeps.publishVersion {v written commit dirty} (h : Keeps s₀ s) : Keeps s₀ (publishVersion s v written commit dirty).1 :=
  h.installVersion.revokeAll

/-! ### Train -/

protected theorem Keeps.acceptCommit {c fr d} (h : Keeps s₀ s) : Keeps s₀ (acceptCommit c fr d s) := by
  fun_cases acceptCommit c fr d s
  · exact h
  case case2 s1 s2 =>
    have h1 : Keeps s₀ s1 := h.setGyle.makeIndices
    have h2 : Keeps s₀ s2 := h1.same
    exact h2.acceptLater

protected theorem Keeps.trainCommit {c} (h : Keeps s₀ s) : Keeps s₀ (trainCommit c s) :=
  h.onFront fun _ _ _ => h.decideCmd fun k2 => k2.acceptCommit

protected theorem Keeps.execTrainCommit {c} (h : Keeps s₀ s) : After s₀ (execTrainCommit c s) := h.trainCommit.next

protected theorem Keeps.endTraining {g} (h : Keeps s₀ s) : Keeps s₀ (endTraining s g) := by
  fun_cases endTraining s g
  · exact h.dropXfers.tearGyle
  · exact h.dropXfers.tearGyle.stamp.postRecord.afterCmd
  · exact h.dropXfers.tearGyle

protected theorem Keeps.acceptAbort {c fr d} (h : Keeps s₀ s) : Keeps s₀ (acceptAbort c fr d s) := by
  fun_cases acceptAbort c fr d s
  · exact h
  · exact h.doneCmd.endTraining

protected theorem Keeps.trainAbort {c} (h : Keeps s₀ s) : Keeps s₀ (trainAbort c s) :=
  h.onFront fun _ _ _ => h.decideCmd fun k2 => k2.acceptAbort

protected theorem Keeps.execTrainAbort {c} (h : Keeps s₀ s) : After s₀ (execTrainAbort c s) := h.trainAbort.next

protected theorem Keeps.modCommit {x f} (h : Keeps s₀ s) : Keeps s₀ (modCommit s x f) := h.same

protected theorem Keeps.startThrough {x prepared} (h : Keeps s₀ s) : Keeps s₀ (startThrough s x prepared) := h.modCommit.same

protected theorem Keeps.commitRun {c num} (h : Keeps s₀ s) : Keeps s₀ (commitRun c num s) := by
  fun_cases commitRun c num s
  · exact h
  · exact h.stamp.bumpFree.modCommit.startThrough
  · exact h.stamp.bumpFree.modCommit
  · exact h

protected theorem Keeps.publishStep {g through p} (h : Keeps s₀ s) : Keeps s₀ (publishStep g through s p) := h.installVersion.modVer

protected theorem Keeps.noteNonfinite {g o} (h : Keeps s₀ s) : Keeps s₀ (noteNonfinite g s o) := by
  fun_cases noteNonfinite g s o
  · exact h.modVer
  · exact h

protected theorem Keeps.commitPublish {c num} (h : Keeps s₀ s) : Keeps s₀ (commitPublish c num s) := by
  unfold commitPublish
  extract_lets k s1
  split
  · extract_lets n os ok s2 olds r s3 _ s4 _ s5 s6
    have h3 : Keeps s₀ s3 := (h.stamp.modCommit.foldl fun k _ => k.publishStep).revokeAll.foldl fun k _ => k.noteNonfinite
    have h4 : Keeps s₀ s4 := h3.same
    have h5 : Keeps s₀ s5 := h4.same
    have h6 : Keeps s₀ s6 := h5.ite h5.startXfer
    split
    · exact h
    · split
      · exact h.startThrough
      · split
        · exact h
        · split
          · exact h.makeIndices
          · exact h6.endSupersedes
  · exact h

protected theorem Keeps.execCommitPublish {c gyle} (h : Keeps s₀ s) : After s₀ (execCommitPublish c gyle s) := h.commitPublish.next

protected theorem Keeps.reportWritten {c num} (h : Keeps s₀ s) : Keeps s₀ (reportWritten s c num) := h.same.endSupersedes

protected theorem Keeps.hpStoreEffect {tenant} (h : Keeps s₀ s) : Keeps s₀ (hpStoreEffect tenant s) := h.same

protected theorem Keeps.hpLoadEffect {tenant} (h : Keeps s₀ s) : Keeps s₀ (hpLoadEffect tenant s) := h.foldl fun k _ => k.setReg

protected theorem Keeps.hpWrite {v} (h : Keeps s₀ s) : Keeps s₀ (hpWrite v s) := by
  fun_cases hpWrite v s
  · exact h.storeReg.hpStoreEffect
  · exact h.storeReg.hpLoadEffect
  · exact h.storeReg

protected theorem Keeps.execHpStore {tenant role} (h : Keeps s₀ s) : After s₀ (execHpStore tenant role s) :=
  (h.busWrite (fun k => k.hpWrite)).next

protected theorem Keeps.execHpLoad {tenant role} (h : Keeps s₀ s) : After s₀ (execHpLoad tenant role s) :=
  (h.busWrite (fun k => k.hpWrite)).next

/-! ### Memory -/

protected theorem Keeps.readOn {c fr d} (h : Keeps s₀ s) : Keeps s₀ (readOn s c fr d) := by
  fun_cases readOn s c fr d
  · exact h.modCtx.startXfer
  · exact h.modCtx

protected theorem Keeps.descArrived {c bs} (h : Keeps s₀ s) : Keeps s₀ (descArrived s c bs) := by
  fun_cases descArrived s c bs
  · exact h
  · exact h.refuseCmd
  · exact h.readOn

protected theorem Keeps.imageArrived {c bs} (h : Keeps s₀ s) : Keeps s₀ (imageArrived s c bs) := by
  fun_cases imageArrived s c bs
  · exact h
  · exact h
  · exact h.readOn

protected theorem Keeps.rowMapArrived {c num first bs} (h : Keeps s₀ s) : Keeps s₀ (rowMapArrived s c num first bs) := h.modGyle

protected theorem Keeps.readDone {use bs} (h : Keeps s₀ s) : Keeps s₀ (readDone s use bs) := by
  fun_cases readDone s use bs
  · exact h.descArrived
  · exact h.imageArrived
  · exact h.rowMapArrived
  · exact h
  · exact h
  · exact h
  · exact h

protected theorem Keeps.passRecords {c l} (h : Keeps s₀ s) : Keeps s₀ (passRecords c l s) := by
  fun_induction passRecords c l s with
  | case1 => exact h
  | case2 _ _ _ _ _ _ s1 ih =>
    refine ih ?_
    unfold s1
    split
    · exact h.modCtx.raiseAt.completeGyle
    · exact h.modCtx.raiseAt
  | case3 => exact h

protected theorem Keeps.noteTeardown {c} (h : Keeps s₀ s) : Keeps s₀ (noteTeardown s c) := h.modCtx

protected theorem Keeps.recordWritten {c xfer} (h : Keeps s₀ s) : Keeps s₀ (recordWritten s c xfer) :=
  h.modCtx.passRecords.noteTeardown.afterCmd

protected theorem Keeps.writeDone {xfer use} (h : Keeps s₀ s) : Keeps s₀ (writeDone s xfer use) := by
  fun_cases writeDone s xfer use
  · exact h.recordWritten
  · exact h.stamp.postGyle
  · exact h.reportWritten
  · exact h
  · exact h
  · exact h
  · exact h

protected theorem Keeps.dropReq {port id} (h : Keeps s₀ s) : Keeps s₀ (dropReq s port id) := h.same

protected theorem Keeps.endPortFault {port} (h : Keeps s₀ s) : Keeps s₀ (endPortFault s port) := by
  fun_cases endPortFault s port
  · exact h
  · exact h.endFault

protected theorem Keeps.countBytes {port r} (h : Keeps s₀ s) : Keeps s₀ (countBytes s port r) := h.same

protected theorem Keeps.chunkDone {r data} (h : Keeps s₀ s) : Keeps s₀ (chunkDone s r data) := by
  fun_cases chunkDone s r data
  · exact h
  · exact h.same.writeDone
  · exact h.same.readDone
  · exact h.same

protected theorem Keeps.dropXfer {id} (h : Keeps s₀ s) : Keeps s₀ (dropXfer s id) := h.same

protected theorem Keeps.xferFailed {r esc} (h : Keeps s₀ s) : Keeps s₀ (xferFailed s r esc) := by
  fun_cases xferFailed s r esc
  · exact h
  · exact h.dropXfer.faultCtx

protected theorem Keeps.memError {port r} (h : Keeps s₀ s) : Keeps s₀ (memError s port r) := by
  fun_cases memError s port r
  · exact h.raise.same.dropReq.endPortFault.dropXfer.retryWaiting
  · exact h.raise.same.startFault.same
  · exact h.raise.same.startFault.dropReq.endPortFault.xferFailed.retryWaiting

protected theorem Keeps.memResponse {port id write data check} (h : Keeps s₀ s) : Keeps s₀ (memResponse port id write data check s) := by
  fun_cases memResponse port id write data check s
  · exact h
  · exact h
  · exact h.stamp.noteParity.memError
  · exact (h.stamp.noteParity.dropReq.endPortFault.ite h.stamp.noteParity.dropReq).countBytes.chunkDone.retryWaiting

protected theorem Keeps.execReadData {port id data check} (h : Keeps s₀ s) : After s₀ (execReadData port id data check s) :=
  h.memResponse.next

protected theorem Keeps.execWriteResponse {port id check} (h : Keeps s₀ s) : After s₀ (execWriteResponse port id check s) :=
  h.memResponse.next

/-! ### Lanes -/

protected theorem Keeps.enqueue {x slot t ops rows} (h : Keeps s₀ s) : Keeps s₀ (enqueue s x slot t ops rows) := h.modTun.modGyle

protected theorem Keeps.holdLanes {x slot p rows} (h : Keeps s₀ s) : Keeps s₀ (holdLanes s x slot p rows) :=
  h.foldl fun k _ => by
    split
    · exact k
    · exact k.modGyle.ite k

protected theorem Keeps.notePlaced {x} (h : Keeps s₀ s) : Keeps s₀ (notePlaced s x) := h.modGyle

protected theorem Keeps.placeSegment {x row slot} (h : Keeps s₀ s) : Keeps s₀ (placeSegment s x row slot) := by
  fun_cases placeSegment s x row slot
  · exact h
  · exact h
  · exact h.modGyle
  · exact (h.modGyle.notePlaced.foldl fun k _ => k.foldl fun k2 _ => k2.enqueue).holdLanes
  · exact h

protected theorem Keeps.reserve {k slot row head t} (h : Keeps s₀ s) (ht : reserve s k slot row head = some t) : Keeps s₀ t := by
  revert ht
  fun_cases reserve s k slot row head <;> rintro ⟨⟩
  · exact h
  · exact h.modPort.modGyle
  · exact h.same.modPort.modGyle

protected theorem Keeps.dropRow {x slot row} (h : Keeps s₀ s) : Keeps s₀ (dropRow s x slot row) := (h.foldl fun k _ => k.modTun).same

protected theorem Keeps.substitute {x slot row wantFallback} (h : Keeps s₀ s) : Keeps s₀ (substitute s x slot row wantFallback) := by
  fun_cases substitute s x slot row wantFallback
  · exact h
  · exact h
  · exact h.dropRow.modGyle
  · exact h.dropRow.modGyle.modGyle
  · exact h.dropRow.modGyle.enqueue.notePlaced
  · exact h.dropRow.modGyle

protected theorem Keeps.secondChoice {x slot row} (h : Keeps s₀ s) : Keeps s₀ (secondChoice s x slot row) := by
  fun_cases secondChoice s x slot row
  · exact h
  · exact h.modGyle
  · exact h.substitute

protected theorem Keeps.markLate {x slot row} (h : Keeps s₀ s) : Keeps s₀ (markLate s x slot row) := by
  fun_cases markLate s x slot row
  · exact h
  · exact h
  · exact (h.modGyle.ite h).secondChoice
  · exact (h.modGyle.ite h).modGyle

protected theorem Keeps.settleBlocked (h : Keeps s₀ s) : Keeps s₀ (settleBlocked s) := by
  fun_cases settleBlocked s
  · exact h
  · exact h.foldl fun k _ => k.foldl fun k2 _ => by
      split
      · exact k2
      · exact k2.secondChoice.ite k2

/-! ### Fills -/

protected theorem Keeps.runFeeder {tun lane ran ahead} (h : Keeps s₀ s) : Keeps s₀ (runFeeder s tun lane ran ahead) := by
  unfold runFeeder
  extract_lets
  exact h.modTun

protected theorem Keeps.feedTun {tun} (h : Keeps s₀ s) : Keeps s₀ (feedTun s tun) := h.foldl fun k _ => k.runFeeder

protected theorem Keeps.settleRanks {tun} (h : Keeps s₀ s) : Keeps s₀ (settleRanks s tun) := by
  unfold settleRanks
  extract_lets
  exact h.modTun

protected theorem Keeps.passFeeders {tun fill} (h : Keeps s₀ s) : Keeps s₀ (passFeeders s tun fill) := by
  unfold passFeeders
  extract_lets
  exact h.modTun

protected theorem Keeps.writeRanks {tun fill} (h : Keeps s₀ s) : Keeps s₀ (writeRanks s tun fill) := h.modTun.settleRanks

protected theorem Keeps.runFill {t o} (h : Keeps s₀ s) : Keeps s₀ (runFill s t o) := h.modTun.bumpFree

protected theorem Keeps.putPartial {x} (h : Keeps s₀ s) : Keeps s₀ (putPartial s x) := h.same

protected theorem Keeps.drainGrads {t o a x} (h : Keeps s₀ s) : Keeps s₀ (drainGrads s t o a x) := by
  fun_cases drainGrads s t o a x
  · exact h
  · exact h
  · exact h
  · exact h
  · exact h.putPartial

protected theorem Keeps.drainOp {o a} (h : Keeps s₀ s) : Keeps s₀ (drainOp s o a) := by
  fun_cases drainOp s o a
  · exact h
  · exact h
  · exact h.foldl fun k _ => k.foldl fun k2 _ => by
      split
      · exact k2
      · exact k2.modGyle

/-! ### Ports -/

protected theorem Keeps.grant {port c row kind beats} (h : Keeps s₀ s) : Keeps s₀ (grant s port c row kind beats) := h.modPort.emit

protected theorem Keeps.activationGrant {port} (h : Keeps s₀ s) : Keeps s₀ (activationGrant port s) := by
  fun_cases activationGrant port s
  · exact h
  · exact h
  · exact h.stamp.grant
  · exact h.stamp.grant

protected theorem Keeps.execActivationCreditGrant {port} (h : Keeps s₀ s) : After s₀ (execActivationCreditGrant port s) :=
  h.activationGrant.next

protected theorem Keeps.portionGrant {port} (h : Keeps s₀ s) : Keeps s₀ (portionGrant port s) := by
  fun_cases portionGrant port s
  · exact h
  · exact h
  · exact h.stamp.modPort.grant

protected theorem Keeps.execCreditPortionGrant {port} (h : Keeps s₀ s) : After s₀ (execCreditPortionGrant port s) := h.portionGrant.next

protected theorem Keeps.baseGrant {port} (h : Keeps s₀ s) : Keeps s₀ (baseGrant port s) := by
  fun_cases baseGrant port s
  · exact h
  · exact h
  · exact h
  · exact h.stamp.modGyle.grant

protected theorem Keeps.execBaseCreditGrant {port} (h : Keeps s₀ s) : After s₀ (execBaseCreditGrant port s) := h.baseGrant.next

protected theorem Keeps.badBeat {port t row tenant} (h : Keeps s₀ s) : Keeps s₀ (badBeat s port t row tenant) := by
  fun_cases badBeat s port t row tenant
  · exact h.modPort.logNow
  · exact h.modPort.logNow.faultCtx

protected theorem Keeps.startRunning {g} (h : Keeps s₀ s) : Keeps s₀ (startRunning s g) := by
  fun_cases startRunning s g
  · exact h.modGyle
  · exact h

protected theorem Keeps.farRowsTo {g p row home x} (h : Keeps s₀ s) : Keeps s₀ (farRowsTo s g p row home x) := h.sendReq

protected theorem Keeps.freeFar {x slot row} (h : Keeps s₀ s) : Keeps s₀ (freeFar s x slot row) := h.same

protected theorem Keeps.sendFarRow {k slot row} (h : Keeps s₀ s) : Keeps s₀ (sendFarRow s k slot row) := by
  fun_cases sendFarRow s k slot row
  case case5 s1 hs1 n s2 s3 s4 =>
    have h1 : Keeps s₀ s1 := h.reserve hs1
    have h2 : Keeps s₀ s2 := h1.foldl fun k _ => k.stamp.farRowsTo
    have h3 : Keeps s₀ s3 := h2.same
    exact h3.freeFar.modGyle
  all_goals exact h

protected theorem Keeps.sendFarRows (h : Keeps s₀ s) : Keeps s₀ (sendFarRows s) :=
  h.foldl fun k _ => k.foldl fun k2 _ => k2.ite k2.sendFarRow

protected theorem Keeps.beginRow {g p slot row} (h : Keeps s₀ s) : Keeps s₀ (beginRow s g p slot row) :=
  (h.modGyle.placeSegment.substitute.ite h.modGyle.placeSegment).settleBlocked

protected theorem Keeps.stageBeat {g p port t index} (h : Keeps s₀ s) : Keeps s₀ (stageBeat s g p port t index) := by
  fun_cases stageBeat s g p port t index
  · exact h
  · exact h.modPort

protected theorem Keeps.sendBeats {port g p slot row} (h : Keeps s₀ s) : Keeps s₀ (sendBeats s port g p slot row) :=
  h.emitAll.modPort.modGyle

protected theorem Keeps.sumBeat {port x slot row} (h : Keeps s₀ s) : Keeps s₀ (sumBeat s port x slot row) := by
  fun_cases sumBeat s port x slot row
  · exact h
  · exact h
  · exact h
  · exact h.sendBeats

protected theorem Keeps.acceptBeat {g p port t data} (h : Keeps s₀ s) : Keeps s₀ (acceptBeat s g p port t data) := by
  unfold acceptBeat
  extract_lets size x first index cr s1 s2 got s3 s4 s5 whole s6
  have h3 : Keeps s₀ s3 := h.startRunning.modGyle.modPort
  have h4 : Keeps s₀ s4 := h3.beginRow.ite h3
  have h6 : Keeps s₀ s6 := h4.stageBeat.modPort.ite h4.stageBeat
  split
  · exact h6.sumBeat
  · exact h6.sendFarRow.ite h6

protected theorem Keeps.checkFailed {port t0} (h : Keeps s₀ s) : Keeps s₀ (checkFailed s port t0) := by
  fun_cases checkFailed s port t0
  · exact h
  · exact h
  · exact h
  · exact h.startFault.endFault.levelFour
  · exact h.startFault.modGyle.modPort.emit

protected theorem Keeps.endSpliceFault {port} (h : Keeps s₀ s) : Keeps s₀ (endSpliceFault s port) := by
  fun_cases endSpliceFault s port
  · exact h.endFault
  · exact h

protected theorem Keeps.goodBeat {port t data} (h : Keeps s₀ s) : Keeps s₀ (goodBeat s port t data) := by
  fun_cases goodBeat s port t data
  · exact h.modPort
  · exact h.badBeat
  · exact h.badBeat
  · exact h.badBeat
  · exact h.badBeat
  · exact h.acceptBeat.endSpliceFault

protected theorem Keeps.inboundBeat {port t data check} (h : Keeps s₀ s) : Keeps s₀ (inboundBeat port t data check s) := by
  fun_cases inboundBeat port t data check s
  · exact h
  · exact h.stamp.noteParity.modPort.modPort
  · exact h.stamp.noteParity.modPort.goodBeat
  · exact h.stamp.noteParity.modPort.checkFailed

protected theorem Keeps.execInboundBeat {port tag data check} (h : Keeps s₀ s) : After s₀ (execInboundBeat port tag data check s) :=
  h.inboundBeat.next

protected theorem Keeps.unstage {port b} (h : Keeps s₀ s) : Keeps s₀ (unstage s port b) := h.modPort

protected theorem Keeps.writeBeat {port b} (h : Keeps s₀ s) : Keeps s₀ (writeBeat s port b) := h.unstage.modGyle

protected theorem Keeps.holdBeat {port b} (h : Keeps s₀ s) : Keeps s₀ (holdBeat s port b) := by
  fun_cases holdBeat s port b
  · exact h
  · exact h.modPort

protected theorem Keeps.scatterWrite {port f} (h : Keeps s₀ s) : Keeps s₀ (scatterWrite port f s) := by
  fun_cases scatterWrite port f s
  · exact h
  · exact h.stamp.placeSegment.unstage
  · exact h.stamp.placeSegment.unstage
  · exact h.stamp.placeSegment.writeBeat
  · exact h.stamp.placeSegment.runFeeder.settleRanks.holdBeat
  · exact h.stamp.placeSegment.runFeeder.settleRanks.writeBeat

protected theorem Keeps.execScatterWrite {port feeder} (h : Keeps s₀ s) : After s₀ (execScatterWrite port feeder s) := h.scatterWrite.next

protected theorem Keeps.sendPart {port x row} (h : Keeps s₀ s) : Keeps s₀ (sendPart s port x row) := by
  unfold sendPart
  extract_lets s1
  have h1 : Keeps s₀ s1 := by
    unfold s1
    split
    · exact h.startXfer
    · exact h
  exact h1.sendBeats

protected theorem Keeps.partSend {port} (h : Keeps s₀ s) : Keeps s₀ (partSend port s) := by
  fun_cases partSend port s
  · exact h
  · exact h
  · exact h
  · exact h.stamp.sendPart

protected theorem Keeps.execPartSendStart {port} (h : Keeps s₀ s) : After s₀ (execPartSendStart port s) := h.partSend.next

protected theorem Keeps.outboundNak {port t} (h : Keeps s₀ s) : Keeps s₀ (outboundNak port t s) := by
  fun_cases outboundNak port t s
  · exact h
  · exact h
  · exact h
  · exact h.stamp.startFault.endFault.levelFour
  · exact h.stamp.startFault.modPort.emitAll

protected theorem Keeps.execOutboundNak {port tag} (h : Keeps s₀ s) : After s₀ (execOutboundNak port tag s) := h.outboundNak.next

protected theorem Keeps.partLeft {port} (h : Keeps s₀ s) : Keeps s₀ (partLeft port s) := by
  fun_cases partLeft port s
  · exact h
  · exact h.stamp.modPort.freeResv.modGyle.endSpliceFault.sendFarRows
  · exact h.stamp.modPort.freeResv.modGyle.endSpliceFault.sendFarRows.drainGyle
  · exact h.stamp.modPort.freeResv.modGyle.endSpliceFault.sendFarRows

protected theorem Keeps.execPartLeft {port} (h : Keeps s₀ s) : After s₀ (execPartLeft port s) := h.partLeft.next

/-! ### Lost -/

protected theorem Keeps.loseInGyle {a v at_ g} (h : Keeps s₀ s) : Keeps s₀ (loseInGyle a v at_ s g) := by
  fun_cases loseInGyle a v at_ s g
  · exact h.endTraining
  · exact h
  · exact h.foldl fun k _ => k.substitute
  · exact h

protected theorem Keeps.updateLost {a} (h : Keeps s₀ s) : Keeps s₀ (updateLost s a) := by
  fun_cases updateLost s a
  · exact (h.same.logNow.raise.releaseBy (fun k => k.staleCask)).publishVersion.enterShared
  · exact h

protected theorem Keeps.tensorLost {epoch a v idx} (h : Keeps s₀ s) : Keeps s₀ (tensorLost s epoch a v idx) := by
  fun_cases tensorLost s epoch a v idx
  · exact h
  · exact h
  · exact (h.modVerOf.same.logNow.raise.foldl fun k _ => k.loseInGyle).updateLost
  · exact h.modVerOf.same.logNow.raise.foldl fun k _ => k.loseInGyle

/-! ### Purging -/

protected theorem Keeps.purgeInGyle {a g} (h : Keeps s₀ s) : Keeps s₀ (purgeInGyle a s g) := by
  fun_cases purgeInGyle a s g
  · exact h
  · exact h.endTraining
  · exact h
  · exact h.foldl fun k _ => k.dropRow.modGyle
  · exact h.foldl fun k _ => k.substitute

protected theorem Keeps.zeroT3 {w} (h : Keeps s₀ s) : Keeps s₀ (zeroT3 s w) := by
  fun_cases zeroT3 s w
  · exact h
  · exact h.foldl fun k _ => k.sendMsg

protected theorem Keeps.freePurged (h : Keeps s₀ s) : Keeps s₀ (freePurged s) := h.foldl fun k _ => k.freeCask.ite k

protected theorem Keeps.answerPurges (h : Keeps s₀ s) : Keeps s₀ (answerPurges s) := by
  unfold answerPurges
  extract_lets _ _ s1
  have h1 : Keeps s₀ s1 := h.same
  exact h1.foldl fun k _ => k.reply

protected theorem Keeps.purgeTick (h : Keeps s₀ s) : Keeps s₀ (purgeTick s) := by
  fun_cases purgeTick s
  · exact h
  · exact (h.freePurged.release.ite h.freePurged).answerPurges

protected theorem Keeps.endPrefetches {a} (h : Keeps s₀ s) : Keeps s₀ (endPrefetches s a) :=
  h.foldl fun k _ => k.foldl fun k2 _ => k2.stamp.completeLater.ite k2

protected theorem Keeps.applyPurge {a} (h : Keeps s₀ s) : Keeps s₀ (applyPurge s a) := by
  unfold applyPurge
  extract_lets _ _ _ s1 _ s2 _ s3 _ s4 _ _ _ s5 _ _
  have h1 : Keeps s₀ s1 := h.noteSuperseded.modAdapter.same
  have h2 : Keeps s₀ s2 := h1.same
  have h3 : Keeps s₀ s3 := h2.same
  have h4 : Keeps s₀ s4 := h3.same
  have h5 : Keeps s₀ s5 := ((h4.foldl fun k _ => k.endStream).foldl fun k _ => k.zeroT3).same
  exact ((h5.foldl fun k _ => Keeps.ite k.modCask k).foldl fun k _ => k.purgeInGyle).endPrefetches.refreshHolds.purgeTick

/-! ### Fence -/

protected theorem Keeps.setFaultLevel {id level} (h : Keeps s₀ s) : Keeps s₀ (setFaultLevel s id level) := h.same

protected theorem Keeps.endTunFault {t} (h : Keeps s₀ s) : Keeps s₀ (endTunFault s t) := by
  fun_cases endTunFault s t
  · exact h.endFault
  · exact h
  · exact h

protected theorem Keeps.replayDone {id} (h : Keeps s₀ s) : Keeps s₀ (replayDone s id) := by
  fun_cases replayDone s id
  · exact h
  · exact h.setFaultLevel.foldl fun k _ => by
      split
      · exact k.endTunFault
      · exact k

protected theorem Keeps.setTunState {t st logical} (h : Keeps s₀ s) : Keeps s₀ (setTunState s t st logical) := by
  fun_cases setTunState s t st logical
  · exact h.setTun
  · exact h.setTun.raise

protected theorem Keeps.moveRows {t ops} (h : Keeps s₀ s) : Keeps s₀ (moveRows s t ops) := h.foldl fun k _ => k.modGyle

protected theorem Keeps.giveOps {t head ops} (h : Keeps s₀ s) : Keeps s₀ (giveOps s t head ops) := h.modTun.moveRows

protected theorem Keeps.rePlace {ops} (h : Keeps s₀ s) : Keeps s₀ (rePlace s ops) :=
  h.foldl fun k _ => by
    split
    · exact k.giveOps
    · exact k.same

protected theorem Keeps.noteReplay {x} (h : Keeps s₀ s) : Keeps s₀ (noteReplay s x) := h.modGyle

protected theorem Keeps.freeRanks {ops} (h : Keeps s₀ s) : Keeps s₀ (freeRanks s ops) := h.foldl fun k _ => k.modGyle

protected theorem Keeps.fenceTun {t source} (h : Keeps s₀ s) : Keeps s₀ (fenceTun s t source) := by
  unfold fenceTun
  extract_lets s1 x id live ops s2 s3 s4 s5 s6
  have h4 : Keeps s₀ s4 := h.startFault.setTun.setTunState.freeRanks.foldl fun k _ => k.noteReplay
  have h5 : Keeps s₀ s5 := h4.foldl fun k _ => k.modGyle
  have h6 : Keeps s₀ s6 := by
    unfold s6
    split
    · exact h5.rePlace
    · refine Keeps.raise ?_
      split
      · exact h5.setTunState.giveOps
      · exact h5.rePlace
  exact h6.replayDone.settleBlocked

protected theorem Keeps.placeWaiting (h : Keeps s₀ s) : Keeps s₀ (placeWaiting s) :=
  h.foldl fun k _ => k.ite (k.foldl fun k2 _ => Keeps.ite k2.placeSegment k2)

protected theorem Keeps.enterSpare {t} (h : Keeps s₀ s) : Keeps s₀ (enterSpare s t) := by
  fun_cases enterSpare s t
  · exact h.setTunState.same.giveOps.raise.placeWaiting
  · exact h.setTunState

protected theorem Keeps.execTunFenceCmd {t role} (h : Keeps s₀ s) : After s₀ (execTunFenceCmd t role s) :=
  (h.busWrite (fun k => k.fenceTun)).next

protected theorem Keeps.faultCountExpiry {t} (h : Keeps s₀ s) : Keeps s₀ (faultCountExpiry t s) := by
  fun_cases faultCountExpiry t s
  · exact h
  · exact h.stamp.modTun.endTunFault

protected theorem Keeps.execTunFaultCountExpiry {t} (h : Keeps s₀ s) : After s₀ (execTunFaultCountExpiry t s) := h.faultCountExpiry.next

/-! ### Tuns -/

protected theorem Keeps.takeSlot {t o} (h : Keeps s₀ s) : Keeps s₀ (takeSlot s t o) := h.same

protected theorem Keeps.slotDelivered {t b} (h : Keeps s₀ s) : Keeps s₀ (slotDelivered s t b) := h.same

protected theorem Keeps.tileRequest {t} (h : Keeps s₀ s) : Keeps s₀ (tileRequest t s) := by
  fun_cases tileRequest t s
  · exact h.stamp.takeSlot.modTun
  · exact h
  · exact h

protected theorem Keeps.execTileRequest {t} (h : Keeps s₀ s) : After s₀ (execTileRequest t s) := h.tileRequest.next

protected theorem Keeps.tileMatches {t x b} (h : Keeps s₀ s) : Keeps s₀ (tileMatches s t x b) := by
  unfold tileMatches
  extract_lets y late waited epoch s1 s2 s3
  have h3 : Keeps s₀ s3 := h.slotDelivered.setTun.foldl fun k _ => by
    split
    · exact k.modCask
    · exact k
  split
  · exact h3.endFault.ite (h3.setFaultLevel.ite h3)
  · exact h3

protected theorem Keeps.refetchTensor {epoch p} (h : Keeps s₀ s) : Keeps s₀ (refetchTensor s epoch p) := by
  fun_cases refetchTensor s epoch p
  · exact h
  · exact h.modCask.tensorLost
  · exact h.modCask.same

protected theorem Keeps.tileMismatch {t x b} (h : Keeps s₀ s) : Keeps s₀ (tileMismatch s t x b) := by
  fun_cases tileMismatch s t x b
  · exact h.modTun.startFault.modTun
  · exact h.modTun.startFault.modTun.foldl fun k _ => k.refetchTensor

protected theorem Keeps.tileArrived {t x upset b} (h : Keeps s₀ s) : Keeps s₀ (tileArrived s t x upset b) := by
  fun_cases tileArrived s t x upset b
  · exact h.tileMatches
  · exact h.tileMismatch

protected theorem Keeps.markFarLate {x slot rows} (h : Keeps s₀ s) : Keeps s₀ (markFarLate s x slot rows) := by
  fun_cases markFarLate s x slot rows
  · exact h
  · exact h.foldl fun k _ => k.ite k.sendMsg.modGyle

protected theorem Keeps.lateOps {t} (h : Keeps s₀ s) : Keeps s₀ (lateOps s t) :=
  h.foldl fun k _ => k.markFarLate.ite (k.foldl fun k2 _ => k2.markLate)

protected theorem Keeps.takeScratch {n o t} (h : Keeps s₀ s) (ht : takeScratch s n o = some t) : Keeps s₀ t := by
  revert ht
  fun_cases takeScratch s n o <;> rintro ⟨⟩
  · exact h
  · exact h.foldl fun k _ => k.putPartial

protected theorem Keeps.takeRank {n o t} (h : Keeps s₀ s) (ht : takeRank s n o = some t) : Keeps s₀ t := by
  unfold takeRank at ht
  extract_lets ops back held at ht
  split at ht
  · cases ht
    exact h
  · refine .foldl_bind h.of_some (fun {u v} hu r huv => ?_) ht
    split at huv
    · cases huv
      exact hu
    · obtain ⟨_, huv⟩ := Option.ite_none_right_eq_some.mp huv
      exact hu.modGyle.of_some huv

protected theorem Keeps.takeRoom {n o t} (h : Keeps s₀ s) (ht : takeRoom s n o = some t) : Keeps s₀ t := by
  revert ht
  fun_cases takeRoom s n o
  case case1 | case4 => exact h.of_some
  case case2 | case5 => rintro ⟨⟩
  case case3 | case6 => exact .foldl_bind h.of_some fun hu _ => hu.reserve
  case case7 | case8 | case9 => exact h.takeScratch
  case case10 =>
    intro ht
    obtain ⟨u, hu, ht⟩ := Option.bind_eq_some_iff.mp ht
    exact (h.takeScratch hu).takeRank ht
  case case11 => exact h.takeRank

protected theorem Keeps.issueOp {t before after o} (h : Keeps s₀ s) : Keeps s₀ (issueOp s t before after o) := h.modTun.runFill.feedTun

protected theorem Keeps.firstIssue {n before after x} (h : Keeps s₀ s) (ht : firstIssue s n before after = some x) : Keeps s₀ x.2.2.2 := by
  fun_induction firstIssue s n before after with
  | case1 => cases ht
  | case2 _ _ _ _ _ hroom =>
    cases ht
    exact h.takeRoom hroom
  | case3 _ _ _ _ _ ih => exact ih ht
  | case4 _ _ _ _ ih => exact ih ht

protected theorem Keeps.releaseHold {x} (h : Keeps s₀ s) : Keeps s₀ (releaseHold s x) := by
  fun_cases releaseHold s x
  · exact (h.same.foldl fun k _ => k.notePlaced).giveOps
  · exact (h.same.foldl fun k _ => k.notePlaced).same

protected theorem Keeps.holdGroup {t g r o} (h : Keeps s₀ s) : Keeps s₀ (holdGroup s t g r o) := by
  fun_cases holdGroup s t g r o
  · exact h.modTun.same
  · exact h.modTun.same
  · exact h.modTun.releaseHold
  · exact h.modTun.releaseHold.same

protected theorem Keeps.batchExpiry {hold} (h : Keeps s₀ s) : Keeps s₀ (batchExpiry hold s) := by
  fun_cases batchExpiry hold s
  · exact h.stamp.releaseHold
  · exact h

protected theorem Keeps.execBatchWindowExpiry {hold} (h : Keeps s₀ s) : After s₀ (execBatchWindowExpiry hold s) := h.batchExpiry.next

protected theorem Keeps.partialIssue {n} (h : Keeps s₀ s) : Keeps s₀ (partialIssue s n) := by
  fun_cases partialIssue s n
  case case2 => exact (h.takeRoom ‹_›).stamp.issueOp.modTun
  all_goals exact h

protected theorem Keeps.opIssue {n} (h : Keeps s₀ s) : Keeps s₀ (opIssue n s) := by
  unfold opIssue
  split
  · exact h
  · extract_lets s1
    have h1 : Keeps s₀ s1 := h.lateOps.feedTun.settleRanks
    clear_value s1
    split
    · rename_i u hu
      have h2 : Keeps s₀ u := h1.firstIssue hu
      split
      · exact h1.stamp.holdGroup
      · exact h2.stamp.issueOp
    · exact h1.partialIssue

protected theorem Keeps.execOpIssue {t} (h : Keeps s₀ s) : After s₀ (execOpIssue t s) := h.opIssue.next

protected theorem Keeps.combinePartials {x segment slot} (h : Keeps s₀ s) : Keeps s₀ (combinePartials s x segment slot) := by
  fun_cases combinePartials s x segment slot
  · exact h
  · exact h
  · exact h.same.bumpFree

protected theorem Keeps.endCancelled {x} (h : Keeps s₀ s) : Keeps s₀ (endCancelled s x) := by
  fun_cases endCancelled s x
  · exact h.tearGyle
  · exact h
  · exact h

protected theorem Keeps.answerFar {x} (h : Keeps s₀ s) : Keeps s₀ (answerFar s x) := by
  fun_cases answerFar s x
  · exact h
  · exact (h.modGyle.foldl fun k _ => k.reply).endCancelled

protected theorem Keeps.endRow {o row} (h : Keeps s₀ s) : Keeps s₀ (endRow s o row) := by
  fun_cases endRow s o row
  · exact h
  · exact h.modGyle.markLate
  · exact h.modGyle

protected theorem Keeps.spillDrain {o} (h : Keeps s₀ s) : Keeps s₀ (spillDrain s o) := by
  fun_cases spillDrain s o
  · exact h
  · exact h
  · exact h.foldl fun k _ => k.startXfer

protected theorem Keeps.passOp {t a o} (h : Keeps s₀ s) : Keeps s₀ (passOp t a s o) := by
  unfold passOp
  split
  · exact h
  · extract_lets s1 s2 s3 s4
    have h1 : Keeps s₀ s1 := h.drainOp.spillDrain
    have h2 : Keeps s₀ s2 := (h1.foldl fun k _ => k.drainGrads).bumpFree.ite h1
    have h4 : Keeps s₀ s4 := (h2.foldl fun k _ => k.endRow).combinePartials
    exact h4.answerFar.ite h4

protected theorem Keeps.endFill {t fill} (h : Keeps s₀ s) : Keeps s₀ (endFill s t fill) := h.passFeeders.modTun.foldl fun k _ => k.runFill

protected theorem Keeps.passFill {t a fill} (h : Keeps s₀ s) : Keeps s₀ (passFill s t a fill) :=
  ((h.endFill.writeRanks.foldl fun k _ => k.passOp).foldl fun k _ => k.replayDone).sendFarRows.purgeTick

protected theorem Keeps.replayGroup {t o} (h : Keeps s₀ s) : Keeps s₀ (replayGroup s t o) := by
  unfold replayGroup
  extract_lets _ _ _ _ _ _ _ s1
  have h1 : Keeps s₀ s1 := h.startFault.setTun.freeRanks.same
  exact h1.noteReplay.giveOps

protected theorem Keeps.failFill {t fill} (h : Keeps s₀ s) : Keeps s₀ (failFill s t fill) := by
  fun_cases failFill s t fill
  · exact h.modTun.fenceTun
  · exact h.modTun.replayGroup
  · exact h.modTun.endFill.startFault.replayDone

protected theorem Keeps.testWhenIdle {t} (h : Keeps s₀ s) : Keeps s₀ (testWhenIdle s t) := by
  fun_cases testWhenIdle s t
  · exact h.modTun.setTunState
  · exact h

protected theorem Keeps.fillSwap {t upsets} (h : Keeps s₀ s) : Keeps s₀ (fillSwap t upsets s) := by
  fun_cases fillSwap t upsets s
  · exact h
  · exact (h.stamp.failFill.ite h.stamp.passFill).testWhenIdle

protected theorem Keeps.execFillSwap {t upsets} (h : Keeps s₀ s) : After s₀ (execFillSwap t upsets s) := h.fillSwap.next

protected theorem Keeps.cutRow {x key} (h : Keeps s₀ s) : Keeps s₀ (cutRow x s key) := by
  fun_cases cutRow x s key
  · exact h
  · exact h.secondChoice
  · exact h

protected theorem Keeps.releaseGyleHolds {x} (h : Keeps s₀ s) : Keeps s₀ (releaseGyleHolds s x) := h.foldl fun k _ => k.releaseHold

protected theorem Keeps.passCutoff {g} (h : Keeps s₀ s) : Keeps s₀ (passCutoff s g) := h.modGyle.releaseGyleHolds.foldl fun k _ => k.cutRow

protected theorem Keeps.cutoffExpiry {c num} (h : Keeps s₀ s) : Keeps s₀ (cutoffExpiry c num s) := by
  fun_cases cutoffExpiry c num s
  · exact h
  · exact h
  · exact h.stamp.passCutoff

protected theorem Keeps.execCutoffExpiry {c gyle} (h : Keeps s₀ s) : After s₀ (execCutoffExpiry c gyle s) := h.cutoffExpiry.next

protected theorem Keeps.graceExpiry {c num slot row} (h : Keeps s₀ s) : Keeps s₀ (graceExpiry c num slot row s) := by
  fun_cases graceExpiry c num slot row s
  · exact h
  · exact h.stamp.substitute
  · exact h

protected theorem Keeps.execLateGraceExpiry {c gyle slot row} (h : Keeps s₀ s) : After s₀ (execLateGraceExpiry c gyle slot row s) :=
  h.graceExpiry.next

/-! ### Tiers -/

protected theorem Keeps.modStream {id f} (h : Keeps s₀ s) : Keeps s₀ (modStream s id f) := h.same

protected theorem Keeps.readT3 {st} (h : Keeps s₀ s) : Keeps s₀ (readT3 s st) := by
  fun_cases readT3 s st
  case case1 s1 =>
    have h1 : Keeps s₀ s1 := h.sendReq
    exact (h1.trans { borrowed := cellsWf_map fun x hx => by split <;> exact hx }).modStream
  all_goals exact h

protected theorem Keeps.readFrom {st tier} (h : Keeps s₀ s) : Keeps s₀ (readFrom s st tier) := by
  fun_cases readFrom s st tier
  · exact h.modStream.sendReq
  · exact h.modStream.readT3
  · exact h.modStream

protected theorem Keeps.endStreamDone {id} (h : Keeps s₀ s) : Keeps s₀ (endStreamDone s id) := by
  fun_cases endStreamDone s id
  · exact h
  · exact h
  · exact h.keepStreams.finishPrefetches

protected theorem Keeps.releaseSource {st idx} (h : Keeps s₀ s) : Keeps s₀ (releaseSource s st idx) := by
  fun_cases releaseSource s st idx
  · exact h.cutWarm
  · exact h.leaveT4Tensor
  · exact h

protected theorem Keeps.trimStream {id} (h : Keeps s₀ s) : Keeps s₀ (trimStream s id) := h.modStream.endStreamDone

protected theorem Keeps.nextTensor {id} (h : Keeps s₀ s) : Keeps s₀ (nextTensor s id) := by
  fun_cases nextTensor s id
  · exact h.modStream.trimStream
  · exact h.modStream.trimStream
  · exact h.modStream.trimStream
  · exact h.modStream.trimStream
  · exact h.modStream.trimStream.readFrom
  · exact h.modStream.trimStream.modStream

protected theorem Keeps.warmTensor {st idx} (h : Keeps s₀ s) : Keeps s₀ (warmTensor s st idx) := by
  fun_cases warmTensor s st idx
  · exact h.placeWarm.releaseSource
  · exact h.placeWarm

theorem countFetch_chip (t : Tiers) (tier : Nat) : (countFetch t tier).chip = t.chip := by
  fun_cases countFetch t tier <;> rfl

theorem countFetch_borrowed (t : Tiers) (tier : Nat) : (countFetch t tier).borrowed = t.borrowed := by
  fun_cases countFetch t tier <;> rfl

protected theorem Keeps.makePresent {id idx} (h : Keeps s₀ s) : Keeps s₀ (makePresent s id idx) := by
  unfold makePresent
  split
  · exact h
  · extract_lets s1 s2 all one s3 v s4 used _ s5
    have h1 : Keeps s₀ s1 := h.same (ht := countFetch_chip ..) (hb := countFetch_borrowed ..)
    have h2 : Keeps s₀ s2 := h1.modStream
    have h4 : Keeps s₀ s4 := h2.clearT1.modCask
    have h5 : Keeps s₀ s5 := by
      unfold s5
      split
      · exact h2.warmTensor
      · exact h4.releaseSource.ite h4.same
    exact h5.refreshHolds.nextTensor

protected theorem Keeps.loseTensor {st idx} (h : Keeps s₀ s) : Keeps s₀ (loseTensor s st idx) := h.modStream.tensorLost.nextTensor

protected theorem Keeps.failSource {st idx} (h : Keeps s₀ s) : Keeps s₀ (failSource s st idx) := by
  fun_cases failSource s st idx
  · exact h.modStream.loseTensor
  · exact h.modStream.modStream.readFrom
  · exact h.modStream.readFrom
  · exact h.modStream.loseTensor

protected theorem Keeps.streamStart {id} (h : Keeps s₀ s) : Keeps s₀ (streamStart id s) := by
  fun_cases streamStart id s
  · exact h
  · exact h
  · exact h.stamp.trimStream
  · exact h
  · exact h.stamp.readFrom
  · exact h.stamp.loseTensor
  · exact h

protected theorem Keeps.execFetchStreamStart {stream} (h : Keeps s₀ s) : After s₀ (execFetchStreamStart stream s) := h.streamStart.next

protected theorem Keeps.tensorArrives {id upset} (h : Keeps s₀ s) : Keeps s₀ (tensorArrives id upset s) := by
  fun_cases tensorArrives id upset s
  · exact h
  · exact h
  · exact h
  · exact h.stamp.modStream.makePresent
  · exact h.stamp.same.modStream.failSource
  · exact h.stamp.same.modStream
  · exact h.stamp.failSource

protected theorem Keeps.execTensorPresent {stream upset} (h : Keeps s₀ s) : After s₀ (execTensorPresent stream upset s) :=
  h.tensorArrives.next

protected theorem Keeps.leaveVersion {a v} (h : Keeps s₀ s) : Keeps s₀ (leaveVersion s a v) := by
  fun_cases leaveVersion s a v
  · exact h
  · exact h.backToT4
  · exact h.cutWarm.modVer.markDirty.markDirty.same

protected theorem Keeps.leaveSingleHome (h : Keeps s₀ s) : Keeps s₀ (leaveSingleHome s) := by
  fun_cases leaveSingleHome s
  · exact h
  · exact ((h.foldl fun k _ => k.leaveVersion).foldl fun k _ => Keeps.ite k k.modCask).same

protected theorem Keeps.moveDown (h : Keeps s₀ s) : Keeps s₀ (moveDown s) := by
  fun_cases moveDown s
  · exact h.stamp.backToT4.leaveSingleHome
  · exact h

protected theorem Keeps.keepClean {d idx} (h : Keeps s₀ s) : Keeps s₀ (keepClean s d idx) := by
  fun_cases keepClean s d idx
  · exact h.placeWarm
  · exact h

protected theorem Keeps.settleDirty (h : Keeps s₀ s) : Keeps s₀ (settleDirty s) := by
  fun_cases settleDirty s
  · exact h.same.foldl fun k _ => k.syncDirty.keepClean
  · exact (h.same.foldl fun k _ => k.syncDirty.keepClean).pruneVersions.leaveSingleHome

protected theorem Keeps.dirtyInT2 {a v} (h : Keeps s₀ s) : Keeps s₀ (dirtyInT2 s a v) := by
  unfold dirtyInT2
  extract_lets _ s1
  have h1 : Keeps s₀ s1 := h.same
  exact h1.modVer.settleDirty.finishPrefetches

protected theorem Keeps.lazyWriteback {toKiln} (h : Keeps s₀ s) : Keeps s₀ (lazyWriteback toKiln s) := by
  fun_cases lazyWriteback toKiln s
  · exact h.stamp.leaveSingleHome
  · exact h
  · exact h.moveDown
  · exact h.stamp.modCommit
  · exact h
  · exact h.stamp.same
  · exact h.stamp.dirtyInT2

protected theorem Keeps.giveBytes {i n} (h : Keeps s₀ s) : Keeps s₀ (giveBytes s i n) := h.modWaiting

protected theorem Keeps.evictionDone {i} (h : Keeps s₀ s) : Keeps s₀ (evictionDone i s) := by
  fun_cases evictionDone i s
  · exact h
  · exact h.stamp.dirtyInT2.demote.freeCask.giveBytes.releaseFrom

protected theorem Keeps.forgetGrant {lender grant} (h : Keeps s₀ s) : Keeps s₀ (forgetGrant s lender grant) := by
  unfold forgetGrant
  extract_lets gone _ s1
  have h1 : Keeps s₀ s1 := h.trans { borrowed := cellsWf_filter }
  exact h1.foldl fun k _ => by
    split
    · exact k.failSource
    · exact k

protected theorem Keeps.testHoldSet {v} (h : Keeps s₀ s) : Keeps s₀ (testHoldSet v s) := by
  fun_cases testHoldSet v s
  · exact h.same.foldl fun k _ => k.forgetGrant
  · exact h.same.leaveSingleHome
  · exact h

protected theorem Keeps.execTestHoldWrite {value role} (h : Keeps s₀ s) : After s₀ (execTestHoldWrite value role s) :=
  (h.busWrite (fun k => k.testHoldSet)).next

protected theorem Keeps.lendNow {c fr d} (h : Keeps s₀ s) : Keeps s₀ (lendNow c fr d s) := by
  unfold lendNow
  extract_lets _ s1 _
  have h1 : Keeps s₀ s1 := h.same
  exact h1.sendReq.acceptLater

protected theorem Keeps.lendGrant {c} (h : Keeps s₀ s) : Keeps s₀ (lendGrant c s) := h.onFront fun _ _ _ => h.decideCmd fun k2 => k2.lendNow

protected theorem Keeps.execLendGrant {c} (h : Keeps s₀ s) : After s₀ (execLendGrant c s) := h.lendGrant.next

protected theorem Keeps.recallNow {c fr d} (h : Keeps s₀ s) : Keeps s₀ (recallNow c fr d s) := by
  unfold recallNow
  extract_lets _ s1 _
  have h1 : Keeps s₀ s1 := h.same
  exact h1.sendReq.acceptLater

protected theorem Keeps.lendRecall {c} (h : Keeps s₀ s) : Keeps s₀ (lendRecall c s) :=
  h.onFront fun _ _ _ => h.decideCmd fun k2 => k2.recallNow

protected theorem Keeps.execLendRecall {c} (h : Keeps s₀ s) : After s₀ (execLendRecall c s) := h.lendRecall.next

protected theorem Keeps.endRecall {l} (h : Keeps s₀ s) : Keeps s₀ (endRecall s l) := by
  fun_cases endRecall s l
  · exact h.same.completeLater
  · exact h.same
  · exact h.same

protected theorem Keeps.recallExpiry {peer grant} (h : Keeps s₀ s) : Keeps s₀ (recallExpiry peer grant s) := by
  fun_cases recallExpiry peer grant s
  · exact h.stamp.endRecall
  · exact h
  · exact h

protected theorem Keeps.execRecallTimeout {borrower grant} (h : Keeps s₀ s) : After s₀ (execRecallTimeout borrower grant s) :=
  h.recallExpiry.next

/-! ### Refetch -/

protected theorem Keeps.streamAgain {i idx} (h : Keeps s₀ s) : Keeps s₀ (streamAgain s i idx) := h.same

protected theorem Keeps.fetchAgain {i idx} (h : Keeps s₀ s) : Keeps s₀ (fetchAgain s i idx) := by
  fun_cases fetchAgain s i idx
  · exact h
  · exact h.modCask.modCask.tensorLost
  · exact h.modCask.streamAgain

protected theorem Keeps.replaySlice {x} (h : Keeps s₀ s) : Keeps s₀ (replaySlice s x) := by
  fun_cases replaySlice s x
  · exact h
  · exact h.rerunNow
  · exact h.freeRanks.same.noteReplay.setTun

protected theorem Keeps.replaySlices {ps} (h : Keeps s₀ s) : Keeps s₀ (replaySlices s ps) := h.foldl fun k _ => k.replaySlice

protected theorem Keeps.losePlace {x} (h : Keeps s₀ s) : Keeps s₀ (losePlace s x) := by
  fun_cases losePlace s x
  · exact h.fetchAgain
  · exact h.replaySlices
  · exact h
  · exact h

protected theorem Keeps.enterRegion {items} (h : Keeps s₀ s) : Keeps s₀ (enterRegion s items) := h.foldl fun k _ => k.ite k.modCask

protected theorem Keeps.quietRegion {items} (h : Keeps s₀ s) : Keeps s₀ (quietRegion s items) := by
  unfold quietRegion
  extract_lets hit cut s1
  have h1 : Keeps s₀ s1 := h.trans { tuns := keysRise_map (by intro e; rfl) }
  exact h1.foldl fun k _ => k.modCask.ite k

protected theorem Keeps.copyRegion {items lost} (h : Keeps s₀ s) : Keeps s₀ (copyRegion s items lost) :=
  h.foldl fun k _ => k.ite (k.modCask.tensorLost.ite k.modCask)

protected theorem Keeps.refillRegion {items} (h : Keeps s₀ s) : Keeps s₀ (refillRegion s items) :=
  h.foldl fun k _ => k.ite k.streamAgain

protected theorem Keeps.leaveRegion (h : Keeps s₀ s) : Keeps s₀ (leaveRegion s) :=
  h.foldl fun k _ => Keeps.ite k (Keeps.ite k (k.backToT4.ite k.leaveVersion)).modCask

/-! ### Directory -/

protected theorem Keeps.dirChange {e t} (h : Keeps s₀ s) (ht : dirChange s e = some t) : Keeps s₀ t := by
  revert ht
  fun_cases dirChange s e <;> rintro ⟨⟩
  · exact h
  · exact h.same
  · exact h.same
  · exact h
  · exact h.same

protected theorem Keeps.countDirRefusal (h : Keeps s₀ s) : Keeps s₀ (countDirRefusal s) := h.same

protected theorem Keeps.applyEntries {es n} (h : Keeps s₀ s) : Keeps s₀ (applyEntries s es n).1 := by
  fun_induction applyEntries s es n with
  | case1 => exact h
  | case2 _ _ _ _ _ hchange ih => exact ih (h.stamp.dirChange hchange)
  | case3 => exact h.stamp.countDirRefusal

protected theorem Keeps.endDirPublish {p} (h : Keeps s₀ s) : Keeps s₀ (endDirPublish s p) := by
  fun_cases endDirPublish s p
  case case1 s1 _ _ _ _ =>
    have h1 : Keeps s₀ s1 := by
      unfold s1
      split
      · exact h.stamp.reply
      · exact h.stamp
    exact h1.completeLater
  case case2 t _ _ _ =>
    unfold t
    split
    · exact h.stamp.reply
    · exact h.stamp
  case case3 t _ =>
    unfold t
    split
    · exact h.stamp.reply
    · exact h.stamp

protected theorem Keeps.nextDirChunk {p} (h : Keeps s₀ s) : Keeps s₀ (nextDirChunk s p) := by
  fun_cases nextDirChunk s p
  · exact h.endDirPublish
  · exact h.endDirPublish
  · exact h.applyEntries.endDirPublish
  · exact (h.applyEntries.stamp.foldl fun k _ => k.sendReq).same
  · exact h.stamp.sendReq.same

protected theorem Keeps.settleDirPending (h : Keeps s₀ s) : Keeps s₀ (settleDirPending s) := h.same.foldl fun k _ => k.nextDirChunk

protected theorem Keeps.dirPeerDone {corr peer} (h : Keeps s₀ s) : Keeps s₀ (dirPeerDone s corr peer) := h.same.settleDirPending

protected theorem Keeps.dirOwnHeld {corr} (h : Keeps s₀ s) : Keeps s₀ (dirOwnHeld s corr) := h.same.settleDirPending

protected theorem Keeps.acceptDirectory {c fr d img} (h : Keeps s₀ s) : Keeps s₀ (acceptDirectory c fr d img s) :=
  h.acceptLater.nextDirChunk

protected theorem Keeps.publishDirectory {c} (h : Keeps s₀ s) : Keeps s₀ (publishDirectory c s) :=
  h.onFront fun _ _ _ => Keeps.ite h (h.decideCmd (fun k2 => k2.acceptDirectory))

protected theorem Keeps.execPublishDirectory {c} (h : Keeps s₀ s) : After s₀ (execPublishDirectory c s) := h.publishDirectory.next

/-! ### Publishing -/

protected theorem Keeps.takeImage {d img ctx sqIndex fwd} (h : Keeps s₀ s) : Keeps s₀ (takeImage s d img ctx sqIndex fwd) := h.same

protected theorem Keeps.forwardCmd {home raw img c sqIndex opcode} (h : Keeps s₀ s) :
    Keeps s₀ (forwardCmd s home raw img c sqIndex opcode) :=
  h.sendReq.same

protected theorem Keeps.redirect {home ask} (h : Keeps s₀ s) : Keeps s₀ (redirect s home ask) := h.sendReq.same

protected theorem Keeps.acceptPublish {c fr d img} (h : Keeps s₀ s) : Keeps s₀ (acceptPublish c fr d img s) := by
  unfold acceptPublish
  extract_lets _ _ s1
  have h1 : Keeps s₀ s1 := by
    unfold s1
    split
    · exact h.takeImage
    · exact h.forwardCmd
  exact h1.acceptLater

protected theorem Keeps.publishAdapter {c} (h : Keeps s₀ s) : Keeps s₀ (publishAdapter c s) :=
  h.onFront fun _ _ _ => Keeps.ite h (h.lookFirst (fun k2 => (k2.decideCmd (fun k3 => k3.acceptPublish))))

protected theorem Keeps.execPublishAdapter {c} (h : Keeps s₀ s) : After s₀ (execPublishAdapter c s) := h.publishAdapter.next

protected theorem Keeps.failPublish {p b} (h : Keeps s₀ s) : Keeps s₀ (failPublish s p b) := by
  fun_cases failPublish s p b
  case case1 s1 _ _ _ _ =>
    have h1 : Keeps s₀ s1 := by
      unfold s1
      split
      · exact h.reply
      · exact h
    exact h1.completeLater
  case case2 t _ _ _ =>
    unfold t
    split
    · exact h.reply
    · exact h
  case case3 t _ =>
    unfold t
    split
    · exact h.reply
    · exact h

protected theorem Keeps.findIndex {p} (h : Keeps s₀ s) : Keeps s₀ (findIndex s p).1 := by
  fun_cases findIndex s p
  · exact h
  · exact h.makeIndices

protected theorem Keeps.publishNow {p} (h : Keeps s₀ s) : Keeps s₀ (publishNow s p) := h.publishVersion.same.endSupersedes

protected theorem Keeps.askNeeds {p ids} (h : Keeps s₀ s) : Keeps s₀ (askNeeds s p ids) := h.askAll.same

protected theorem Keeps.publication {a} (h : Keeps s₀ s) : Keeps s₀ (publication a s) := by
  unfold publication
  split
  · exact h
  · rename_i p _
    extract_lets f _ _ s1 _ s2 s3
    have hf : Keeps s₀ f.1 := by
      unfold f
      split
      · exact h.findIndex
      · exact h
    have h1 : Keeps s₀ s1 := hf.stamp
    have h2 : Keeps s₀ s2 := h1.same
    have h3 : Keeps s₀ s3 := by
      unfold s3
      split
      · exact h2.redirect
      · exact h2
    split
    · exact h
    · split
      · exact h.askNeeds
      · split
        · exact hf.same
        · split
          · split
            · exact h3.forwardCmd
            · exact h3
          · split
            · exact h2.failPublish
            · exact h2.publishNow

protected theorem Keeps.execPublishPublication {adapter} (h : Keeps s₀ s) : After s₀ (execPublishPublication adapter s) :=
  h.publication.next

protected theorem Keeps.cancelRack {status tell} (h : Keeps s₀ s) : Keeps s₀ (cancelRack s status tell) := by
  fun_cases cancelRack s status tell
  · exact h
  · exact h.measureFreeze.dropRack.completeLater
  · exact h.measureFreeze.dropRack
  · exact h.measureFreeze.dropRack

protected theorem Keeps.orderPurge {a ctx sqIndex fwd} (h : Keeps s₀ s) : Keeps s₀ (orderPurge s a ctx sqIndex fwd) := by
  unfold orderPurge
  extract_lets _ _ _ _ _ _ s1 _ _ s2
  have h1 : Keeps s₀ s1 := by
    unfold s1
    split
    · exact h.applyPurge.cancelRack
    · exact h.applyPurge
  have h2 : Keeps s₀ s2 := h1.same
  exact h2.foldl fun k _ => k.stamp.sendReq

protected theorem Keeps.acceptPurge {c fr d} (h : Keeps s₀ s) : Keeps s₀ (acceptPurge c fr d s) := by
  unfold acceptPurge
  extract_lets _ s1
  have h1 : Keeps s₀ s1 := by
    unfold s1
    split
    · exact h.orderPurge
    · exact h.forwardCmd
  exact h1.acceptLater

protected theorem Keeps.purge {c} (h : Keeps s₀ s) : Keeps s₀ (purge c s) :=
  h.onFront fun _ _ _ => h.lookFirst fun k2 => k2.decideCmd fun k3 => k3.acceptPurge

protected theorem Keeps.execPurge {c} (h : Keeps s₀ s) : After s₀ (execPurge c s) := h.purge.next

protected theorem Keeps.endPurge {p} (h : Keeps s₀ s) : Keeps s₀ (endPurge s p) := by
  fun_cases endPurge s p
  case case1 s1 _ s2 _ _ _ _ =>
    have h1 : Keeps s₀ s1 := h.same
    have h2 : Keeps s₀ s2 := by
      unfold s2
      split
      · exact h1.reply
      · exact h1
    exact h2.completeLater
  case case2 s1 _ t _ _ _ =>
    have h1 : Keeps s₀ s1 := h.same
    unfold t
    split
    · exact h1.reply
    · exact h1
  case case3 s1 _ t _ =>
    have h1 : Keeps s₀ s1 := h.same
    unfold t
    split
    · exact h1.reply
    · exact h1

protected theorem Keeps.purgeDone {a} (h : Keeps s₀ s) : Keeps s₀ (purgeDone a s) := by
  fun_cases purgeDone a s
  · exact h
  · exact h.stamp.endPurge
  · exact h

protected theorem Keeps.execPurgeComplete {adapter} (h : Keeps s₀ s) : After s₀ (execPurgeComplete adapter s) := h.purgeDone.next

protected theorem Keeps.rewrapTenant {t} (h : Keeps s₀ s) : Keeps s₀ (rewrapTenant s t) := h.journalPut

protected theorem Keeps.rotationStart {t} (h : Keeps s₀ s) : Keeps s₀ (rotationStart t s) := by
  fun_cases rotationStart t s
  · exact h
  · exact h.stamp.same.rewrapTenant.startCheckpoint

protected theorem Keeps.execRotationStart {tenant} (h : Keeps s₀ s) : After s₀ (execRotationStart tenant s) := h.rotationStart.next

protected theorem Keeps.rotationDone {t} (h : Keeps s₀ s) : Keeps s₀ (rotationDone t s) := by
  fun_cases rotationDone t s
  · exact h
  · exact h
  · exact h.stamp.same.same.raise
  · exact h.stamp.same

protected theorem Keeps.execRotationComplete {tenant} (h : Keeps s₀ s) : After s₀ (execRotationComplete tenant s) := h.rotationDone.next

/-! ### Epochs -/

protected theorem Keeps.dropStaging (h : Keeps s₀ s) : Keeps s₀ (dropStaging s) := by
  fun_cases dropStaging s
  · exact h
  · exact h.same.stamp.completeLater
  · exact h.same

/-- What waits for the kiln is no part of what a state keeps. -/
protected theorem Keeps.kilnPending {p catStaged dirStaged freeCtr} (h : Keeps s₀ s) :
    Keeps s₀ { s with catStaged, dirStaged, freeCtr, kiln := { s.kiln with pending := p } } :=
  h.same

protected theorem Keeps.acceptStage {c fr d img} (h : Keeps s₀ s) : Keeps s₀ (acceptStage c fr d img s) := by
  unfold acceptStage
  extract_lets rs seq own dir s1 _ s2 s3 s4
  have h0 : Keeps s₀ { s with catStaged := none } := h.same
  have h1 : Keeps s₀ s1 := h0.makeT2
  clear_value s1
  have h2 : Keeps s₀ s2 := h1.kilnPending
  have h3 : Keeps s₀ s3 := h2.acceptLater
  clear_value s3
  have h4 : Keeps s₀ s4 := h3.dropStaging
  exact h4.same

protected theorem Keeps.epochStage {c} (h : Keeps s₀ s) : Keeps s₀ (epochStage c s) :=
  h.onFront fun _ _ _ => h.decideCmd fun k2 => k2.acceptStage

protected theorem Keeps.execEpochStage {c} (h : Keeps s₀ s) : After s₀ (execEpochStage c s) := h.epochStage.next

protected theorem Keeps.epochStaged (h : Keeps s₀ s) : Keeps s₀ (epochStaged s) := by
  fun_cases epochStaged s
  · exact h
  · exact h
  · exact h.stamp.same.completeLater
  · exact h.stamp.same

protected theorem Keeps.execEpochStaged (h : Keeps s₀ s) : After s₀ (execEpochStaged s) := h.epochStaged.next

protected theorem Keeps.settlePins (h : Keeps s₀ s) : Keeps s₀ (settlePins s) := by
  unfold settlePins
  extract_lets _ _ s1
  have h1 : Keeps s₀ s1 := h.same
  exact h1.foldl fun k _ => k.logNow

protected theorem Keeps.seekKept (h : Keeps s₀ s) : Keeps s₀ (seekKept s) := h.foldl fun k _ => k.ite k.askHome

protected theorem Keeps.pinAdmits (h : Keeps s₀ s) : Keeps s₀ (pinAdmits s) :=
  h.foldl fun k _ => by
    split
    · exact k.ite k.needCasks
    · exact k

protected theorem Keeps.carryCask {old a v0} (h : Keeps s₀ s) : Keeps s₀ (carryCask s old a v0) := by
  fun_cases carryCask s old a v0
  · exact h
  · exact h.modCask
  · exact h
  · exact h.modCask.modCask
  · exact h

protected theorem Keeps.carryData {old carried} (h : Keeps s₀ s) : Keeps s₀ (carryData s old carried) := by
  unfold carryData
  extract_lets _ _ _ _ _ _ s1
  have h1 : Keeps s₀ s1 := h.same
  exact h1.foldl fun k _ => k.carryCask.syncDirty

protected theorem Keeps.switchEpoch {new} (h : Keeps s₀ s) : Keeps s₀ (switchEpoch s new) := by
  unfold switchEpoch
  extract_lets _ _ _ _ _ _ _ _ s1 _ s2 _ _ s3
  have h1 : Keeps s₀ s1 := h.cancelRack.same
  have h2 : Keeps s₀ s2 := h1.same
  have h3 : Keeps s₀ s3 := h2.carryData.same
  exact h3.settlePins.pinAdmits.refreshHolds

protected theorem Keeps.afterSwitch {carried} (h : Keeps s₀ s) : Keeps s₀ (afterSwitch carried s) := by
  refine (h.foldl fun k a => k.getD fun ht => ?_).seekKept.releaseEpoch
  obtain ⟨_, _, rfl⟩ := Option.map_eq_some_iff.mp ht
  exact k.enterShared

protected theorem Keeps.epochSwitch {c} (h : Keeps s₀ s) : Keeps s₀ (epochSwitch c s) :=
  h.onFront fun _ _ _ => h.decideCmd fun k2 => by
    split
    · exact k2.postRecord.switchEpoch.clearFront.afterCmd.afterSwitch
    · exact k2

protected theorem Keeps.execEpochSwitch {c} (h : Keeps s₀ s) : After s₀ (execEpochSwitch c s) := h.epochSwitch.next

/-! ### Tenants -/

protected theorem Keeps.tenantStoreEffect {t bs} (h : Keeps s₀ s) : Keeps s₀ (tenantStoreEffect t bs s) := by
  fun_cases tenantStoreEffect t bs s
  · exact h.same.refreshHolds
  · exact h.same.refreshHolds.needCasks.refreshHolds
  · exact h.same.refreshHolds

protected theorem Keeps.tenantStore {t v role bs} (h : Keeps s₀ s) : Keeps s₀ (tenantStore t v role bs s) := by
  fun_cases tenantStore t v role bs s
  · exact h.askAll.same
  · exact h.tenantStoreEffect

protected theorem Keeps.decideTenant {w} (h : Keeps s₀ s) : Keeps s₀ (decideTenant s w) := by
  fun_cases decideTenant s w
  · exact h.stamp.refuseWrite.same
  · exact h.stamp.tenantStoreEffect

protected theorem Keeps.settleTenants (h : Keeps s₀ s) : Keeps s₀ (settleTenants s) :=
  h.same.foldl fun k _ => k.decideTenant.ite k.askAll.same

/-! ### Repairs -/

protected theorem Keeps.appendMap {kind object data} (h : Keeps s₀ s) : Keeps s₀ (appendMap s kind object data) := by
  fun_cases appendMap s kind object data
  · exact h.same.raise
  · exact h.same

/-! ### Kiln -/

protected theorem Keeps.noteInT4 {a v} (h : Keeps s₀ s) : Keeps s₀ (noteInT4 s a v) := h.modVer

protected theorem Keeps.markHeld {x} (h : Keeps s₀ s) : Keeps s₀ (markHeld s x) := by
  fun_cases markHeld s x
  · exact h.same
  · exact h.noteInT4
  · exact h.noteInT4
  · exact h.same
  · exact h.same
  · exact h

protected theorem Keeps.recordHeld {x} (h : Keeps s₀ s) : Keeps s₀ (recordHeld s x) := by
  fun_cases recordHeld s x
  · exact h.markHeld.settleDirty
  · exact h.markHeld.dirOwnHeld
  · exact h.markHeld.reply
  · exact h.markHeld

protected theorem Keeps.putRecord {x} (h : Keeps s₀ s) : Keeps s₀ (putRecord s x) := by
  fun_cases putRecord s x <;> exact h.journalPut

protected theorem Keeps.removeFreed (h : Keeps s₀ s) : Keeps s₀ (removeFreed s) := h.journalPut

protected theorem Keeps.writeNext {x w} (h : Keeps s₀ s) : Keeps s₀ (writeNext s x w) := by
  fun_cases writeNext s x w
  · exact h.writeTensor.same.recordHeld
  · exact h.writeTensor.settleDirty
  · exact h.writeTensor

protected theorem Keeps.journalHeld (h : Keeps s₀ s) : Keeps s₀ (journalHeld s) := by
  fun_cases journalHeld s
  · exact h
  · exact h.finishErases.stamp.removeFreed.reclaim
  · exact h.finishErases.reclaim
  · exact h.finishErases
  · exact h.finishErases.stamp.writeNext
  · exact (h.finishErases.stamp.same.ite h.finishErases.stamp.same.putRecord).recordHeld

protected theorem Keeps.execKilnJournalHeld (h : Keeps s₀ s) : After s₀ (execKilnJournalHeld s) := h.journalHeld.next

protected theorem Keeps.checkpointNow (h : Keeps s₀ s) : Keeps s₀ (checkpointNow s) := by
  fun_cases checkpointNow s
  · exact h.startCheckpoint
  · exact h

protected theorem Keeps.execKilnCheckpointCmd {role} (h : Keeps s₀ s) : After s₀ (execKilnCheckpointCmd role s) :=
  (h.busWrite (fun k => k.storeReg.checkpointNow)).next

protected theorem Keeps.programCheckpoint {c} (h : Keeps s₀ s) : Keeps s₀ (programCheckpoint s c) := by
  unfold programCheckpoint
  extract_lets a r
  refine h.foldl_fst fun k b => ?_
  split
  · exact k
  · exact k.modBlock.modBlock.foldl fun k _ => k.issueProgram

protected theorem Keeps.checkpointDone (h : Keeps s₀ s) : Keeps s₀ (checkpointDone s) := by
  fun_cases checkpointDone s
  · exact h
  · exact h
  · exact h.finishErases.stamp.programCheckpoint.same.reclaimJournal.startCheckpoint
  · exact h.finishErases.stamp.programCheckpoint.same.reclaimJournal

protected theorem Keeps.execCheckpointValid (h : Keeps s₀ s) : After s₀ (execCheckpointValid s) := h.checkpointDone.next

protected theorem Keeps.shutBlock {b} (h : Keeps s₀ s) : Keeps s₀ (shutBlock s b) := h.same

protected theorem Keeps.relocateBlock {b} (h : Keeps s₀ s) : Keeps s₀ (relocateBlock s b) := by
  fun_cases relocateBlock s b
  · exact h.finishErases.shutBlock.moveBlock.reclaim
  · exact h

protected theorem Keeps.retireDevice {d} (h : Keeps s₀ s) : Keeps s₀ (retireDevice s d) := by
  fun_cases retireDevice s d
  · exact h
  · exact (h.modChan.appendMap.foldl fun k _ => k.shutBlock).same.setKilnPhase

protected theorem Keeps.execKilnRetireCmd {device role} (h : Keeps s₀ s) : After s₀ (execKilnRetireCmd device role s) :=
  (h.busWrite (fun k => k.storeReg.retireDevice)).next

protected theorem Keeps.deviceTimeout {d} (h : Keeps s₀ s) : Keeps s₀ (deviceTimeout d s) := by
  fun_cases deviceTimeout d s
  · exact h
  · exact h.stamp.modChan.retireDevice
  · exact h.stamp.modChan

protected theorem Keeps.execKilnDeviceTimeout {device} (h : Keeps s₀ s) : After s₀ (execKilnDeviceTimeout device s) := h.deviceTimeout.next

protected theorem Keeps.retireBlock {d b} (h : Keeps s₀ s) : Keeps s₀ (retireBlock s d b) := by
  unfold retireBlock
  extract_lets _ _ _ s1
  have h1 : Keeps s₀ s1 := by
    unfold s1
    split
    · exact h.modBlock.shutBlock.modBlock.ite h.modBlock.shutBlock
    · exact h.modBlock.shutBlock
  exact h1.relocateBlock

protected theorem Keeps.peFailure {d b} (h : Keeps s₀ s) : Keeps s₀ (peFailure d b s) := by
  fun_cases peFailure d b s
  · exact h
  · exact h.stamp.modChan
  · exact h.stamp.modChan.modChan.retireBlock.retireDevice
  · exact h.stamp.modChan.modChan.retireBlock

protected theorem Keeps.execProgramEraseFailure {block} (h : Keeps s₀ s) : After s₀ (execProgramEraseFailure block s) := h.peFailure.next

protected theorem Keeps.dropUnreadable (h : Keeps s₀ s) : Keeps s₀ (dropUnreadable s) := by
  fun_cases dropUnreadable s
  · exact h
  · exact h.stamp.removeTensors.foldl fun k _ => k.noteInT4.ite k

protected theorem Keeps.rebuildDone (h : Keeps s₀ s) : Keeps s₀ (rebuildDone s) := by
  unfold rebuildDone
  split
  · exact h
  · extract_lets hurt s1 s2 fresh s3
    have h1 : Keeps s₀ s1 := h.finishErases.stamp.dropUnreadable
    have h2 : Keeps s₀ s2 := h1.foldl fun k _ => k.relocateBlock
    have h3 : Keeps s₀ s3 := h2.foldl fun k _ => k.ite k.modBlock
    split
    · exact h3
    · exact h3.same.setKilnPhase

protected theorem Keeps.execKilnRebuildDone (h : Keeps s₀ s) : After s₀ (execKilnRebuildDone s) := h.rebuildDone.next

protected theorem Keeps.countCodewords {d cs lost} (h : Keeps s₀ s) : Keeps s₀ (countCodewords s d cs lost) := h.modChan

protected theorem Keeps.issueRead {p retries} (h : Keeps s₀ s) : Keeps s₀ (issueRead s p retries) := h.issueFlash

protected theorem Keeps.countReads {b n} (h : Keeps s₀ s) : Keeps s₀ (countReads s b n) := h.modBlock

protected theorem Keeps.readPage {reread p r} (h : Keeps s₀ s) : Keeps s₀ (readPage s reread p r).1 := by
  unfold readPage
  extract_lets d b cs there race own _ passes whole late rebuilt useOwn tries s1
  have h1 : Keeps s₀ s1 := h.issueRead.countCodewords.countReads.ite h
  split
  · exact h1
  · unfold rebuilt
    split
    · exact h1.countReads.same
    · exact h1

protected theorem Keeps.pageRead {id r} (h : Keeps s₀ s) : Keeps s₀ (pageRead id r s) := by
  have hread {reread p u o} (hu : readPage (stamp s) reread p r = (u, o)) : Keeps s₀ u := by
    simpa only [hu] using h.stamp.readPage (reread := reread) (p := p) (r := r)
  fun_cases pageRead id r s
  case case4 => exact h.stamp.failSource
  case case6 hu _ => exact (hread hu).modStream
  case case7 hu => exact (hread hu).setKilnPhase.failSource
  all_goals exact h

protected theorem Keeps.execKilnPageRead {stream codewords reconFirst stripe} (h : Keeps s₀ s) :
    After s₀ (execKilnPageRead stream codewords reconFirst stripe s) :=
  h.pageRead.next

protected theorem Keeps.fold (h : Keeps s₀ s) : Keeps s₀ (fold s) := by
  fun_cases fold s
  · exact h
  · exact h
  · exact (h.finishErases.moveTensor ‹_›).reclaim
  · exact h

protected theorem Keeps.execKilnFold (h : Keeps s₀ s) : After s₀ (execKilnFold s) := h.fold.next

protected theorem Keeps.wearLevel (h : Keeps s₀ s) : Keeps s₀ (wearLevel s) := by
  fun_cases wearLevel s
  · exact h
  · exact h.relocateBlock
  · exact h

protected theorem Keeps.execWearLevelling (h : Keeps s₀ s) : After s₀ (execWearLevelling s) := h.wearLevel.next

protected theorem Keeps.disturb {b} (h : Keeps s₀ s) : Keeps s₀ (disturb b s) := by
  fun_cases disturb b s
  · exact h
  · exact h.relocateBlock

protected theorem Keeps.execDisturbRelocate {superblock} (h : Keeps s₀ s) : After s₀ (execDisturbRelocate superblock s) := h.disturb.next

protected theorem Keeps.zqShort (h : Keeps s₀ s) : Keeps s₀ (zqShort s) := by
  fun_cases zqShort s
  · exact h
  · exact h.stamp.same.foldl fun k _ => k.issueFlash

protected theorem Keeps.execZqShortCalibration (h : Keeps s₀ s) : After s₀ (execZqShortCalibration s) := h.zqShort.next

/-! ### Peers -/

protected theorem Keeps.sendLinkEvent {peer code} (h : Keeps s₀ s) : Keeps s₀ (sendLinkEvent s peer code) := h.raise.emit

protected theorem Keeps.oweDirectory {p} (h : Keeps s₀ s) : Keeps s₀ (oweDirectory s p) := by
  unfold oweDirectory
  extract_lets _ _ s1
  have h1 : Keeps s₀ s1 := h.same
  exact h1.foldl fun k _ => k.dirPeerDone

protected theorem Keeps.peerDown {p} (h : Keeps s₀ s) : Keeps s₀ (peerDown s p) := by
  fun_cases peerDown s p
  case case1 => exact h
  case case2 s1 =>
    have h1 : Keeps s₀ s1 := by
      unfold s1
      split
      · exact h.same.raise.cancelRack.ite h.same.raise
      · exact h.same.raise
    exact h1.oweDirectory.releaseEpoch

protected theorem Keeps.closePeer {p} (h : Keeps s₀ s) : Keeps s₀ (closePeer s p) := h.sendLinkEvent.peerDown

protected theorem Keeps.dropMsg {type x} (h : Keeps s₀ s) : Keeps s₀ (dropMsg s type x) := by
  unfold dropMsg
  extract_lets _ _ s1
  have h1 : Keeps s₀ s1 := h.same
  exact h1.logNow.closePeer

protected theorem Keeps.arrive {x type body} (hbody : ∀ {t}, Keeps s₀ t → Keeps s₀ (body t)) (h : Keeps s₀ s) :
    Keeps s₀ (arrive x type body s) := by
  fun_cases arrive x type body s
  · exact h
  · exact h.stamp.same.noteParity.dropMsg
  · exact hbody h.stamp.same.noteParity.same

protected theorem Keeps.incoming {i x type body} (hbody : ∀ {t}, Keeps s₀ t → Keeps s₀ (body t)) (h : Keeps s₀ s) :
    Keeps s₀ (incoming i x type body s) := by
  fun_cases incoming i x type body s
  · exact h.same
  · exact h
  · exact h.arrive fun k => hbody k

protected theorem Keeps.answerStatus {x type status} (h : Keeps s₀ s) : Keeps s₀ (answerStatus s x type status) := h.reply

protected theorem Keeps.gate {x ans body} (hbody : ∀ {t}, Keeps s₀ t → Keeps s₀ (body t)) (h : Keeps s₀ s) :
    Keeps s₀ (gate x ans body s) := by
  fun_cases gate x ans body s
  · exact h.sendMsg
  · exact h
  · exact h.sendMsg
  · exact h.sendMsg
  · exact h.sendMsg
  · exact h.answerStatus
  · exact hbody h

protected theorem Keeps.whenReady {body} (hbody : ∀ {t}, Keeps s₀ t → Keeps s₀ (body t)) (h : Keeps s₀ s) :
    Keeps s₀ (whenReady body s) := by
  fun_cases whenReady body s
  · exact hbody h
  · exact h

protected theorem Keeps.atHome {i a ask cat body} (hbody : ∀ {t}, Keeps s₀ t → Keeps s₀ (body t)) (h : Keeps s₀ s) :
    Keeps s₀ (atHome i a ask cat body s) := by
  fun_cases atHome i a ask cat body s
  · exact h.same
  · exact h.redirect
  · exact hbody h

protected theorem Keeps.modCatFor {epoch f} (h : Keeps s₀ s) : Keeps s₀ (modCatFor s epoch f) := by
  fun_cases modCatFor s epoch f <;> exact h.same

protected theorem Keeps.endRequest {dst corr} (h : Keeps s₀ s) : Keeps s₀ (endRequest s dst corr) := h.same

protected theorem Keeps.askAgain {r} (h : Keeps s₀ s) : Keeps s₀ (askAgain s r) := h.endRequest.sendReq.same

protected theorem Keeps.passBack {x ask type args data} (h : Keeps s₀ s) : Keeps s₀ (passBack s x ask type args data) := by
  unfold passBack
  extract_lets _ _ s1
  have h1 : Keeps s₀ s1 := h.endRequest.same
  exact h1.reply

protected theorem Keeps.gatherPart {g x args data} (h : Keeps s₀ s) : Keeps s₀ (gatherPart s g x args data) := by
  fun_cases gatherPart s g x args data
  · exact h.endRequest.same.reply
  · exact h.endRequest.same

protected theorem Keeps.gatherAt {ask ans args data parts} (h : Keeps s₀ s) : Keeps s₀ (gatherAt s ask ans args data parts) := by
  fun_cases gatherAt s ask ans args data parts
  · exact h.reply
  · exact (h.foldl_fst fun k _ => k.stamp.sendReq.same).same

protected theorem Keeps.discardStale {r} (h : Keeps s₀ s) : Keeps s₀ (discardStale s r) := by
  fun_cases discardStale s r
  · exact h.askAgain
  · exact h.endRequest

protected theorem Keeps.answered {x type ans args data body} (hbody : ∀ {t}, Keeps s₀ t → ∀ x0, Keeps s₀ (body x0 t)) (h : Keeps s₀ s) :
    Keeps s₀ (answered x type ans args data body s) := by
  fun_cases answered x type ans args data body s
  · exact h
  · exact h.askAgain
  · exact h
  · exact h.gatherPart
  · exact h.passBack
  · exact h.discardStale
  · exact hbody h _

protected theorem Keeps.endRun {type x} (h : Keeps s₀ s) : Keeps s₀ (endRun s type x) := h.same

protected theorem Keeps.keepRun {x x'} (h : Keeps s₀ s) : Keeps s₀ (keepRun s x x') := h.endRun.same

protected theorem Keeps.takeSegment {type x seg data body} (hbody : ∀ {t}, Keeps s₀ t → ∀ x0, Keeps s₀ (body x0 t)) (h : Keeps s₀ s) :
    Keeps s₀ (takeSegment type x seg data body s) := by
  fun_cases takeSegment type x seg data body s
  · exact h.dropMsg
  · exact h.keepRun
  · exact hbody h.endRun _

protected theorem Keeps.takeRun {type x data body} (hbody : ∀ {t}, Keeps s₀ t → ∀ x0, Keeps s₀ (body x0 t)) (h : Keeps s₀ s) :
    Keeps s₀ (takeRun type x data body s) := by
  fun_cases takeRun type x data body s
  · exact h.keepRun
  · exact hbody h.endRun _

protected theorem Keeps.addLoad {a left n unit} (h : Keeps s₀ s) : Keeps s₀ (addLoad s a left n unit).1 := h.same

protected theorem Keeps.loadFar {a n} (h : Keeps s₀ s) : Keeps s₀ (loadFar s a n) := h.addLoad.same

protected theorem Keeps.loadFetch {a n} (h : Keeps s₀ s) : Keeps s₀ (loadFetch s a n) := h.addLoad.same

protected theorem Keeps.loadLookup {a} (h : Keeps s₀ s) : Keeps s₀ (loadLookup s a) := h.same

/-! ### Leases -/

protected theorem Keeps.decideFwd {ask bad accept} (h : Keeps s₀ s) (haccept : ∀ {t}, Keeps s₀ t → Keeps s₀ (accept t)) :
    Keeps s₀ (decideFwd s ask bad accept) := by
  fun_cases decideFwd s ask bad accept
  · exact h.reply
  · exact haccept h

protected theorem Keeps.decidePublish {i ask asked d img} (h : Keeps s₀ s) : Keeps s₀ (decidePublish i ask asked d img s) := by
  unfold decidePublish
  extract_lets us r
  split
  · exact h.reply
  · split
    · exact h.decideFwd fun k => k.takeImage
    · have hr : Keeps s₀ r.1 := h.askAll
      exact hr.same

protected theorem Keeps.decideForward {i ask asked} (h : Keeps s₀ s) : Keeps s₀ (decideForward i ask asked s) := by
  fun_cases decideForward i ask asked s
  · exact h.atHome fun k => k.decideFwd fun k2 => k2.orderPurge
  · exact h.decideFwd fun k => k.nextDirChunk
  · exact h.atHome fun k => k.decidePublish
  · exact h.reply

protected theorem Keeps.settleForwards (h : Keeps s₀ s) : Keeps s₀ (settleForwards s) := h.same.foldl fun k _ => k.decideForward

protected theorem Keeps.takeForward {x bytes} (h : Keeps s₀ s) : Keeps s₀ (takeForward x bytes s) := h.decideForward

protected theorem Keeps.execMPublishFwd {x desc image} (h : Keeps s₀ s) : After s₀ (execMPublishFwd x desc image s) :=
  (h.incoming (fun k => (k.gate (fun k2 => (k2.takeRun (fun k3 _ => k3.takeForward)))))).next

protected theorem Keeps.addHold {epoch a v p} (h : Keeps s₀ s) : Keeps s₀ (addHold s epoch a v p) := by
  fun_cases addHold s epoch a v p
  · exact h
  · exact h.same

protected theorem Keeps.addGranted {epoch a v p} (h : Keeps s₀ s) : Keeps s₀ (addGranted s epoch a v p) := by
  fun_cases addGranted s epoch a v p
  · exact h
  · exact h.same

protected theorem Keeps.lookedUp {p cat a} (h : Keeps s₀ s) : Keeps s₀ (lookedUp p cat s a) := by
  fun_cases lookedUp p cat s a
  · exact h.loadLookup
  · exact h.loadLookup.addHold.addGranted

protected theorem Keeps.answerLookup {x cat ids} (h : Keeps s₀ s) : Keeps s₀ (answerLookup x cat ids s) :=
  (h.foldl fun k _ => k.lookedUp).reply

protected theorem Keeps.takeLookup {i x ids} (h : Keeps s₀ s) : Keeps s₀ (takeLookup i x ids s) := by
  fun_cases takeLookup i x ids s
  · exact h.atHome fun k => k
  · exact h.answerLookup
  · exact (h.foldl fun k _ => k.lookedUp).gatherAt

protected theorem Keeps.execMLookup {x ids} (h : Keeps s₀ s) : After s₀ (execMLookup x ids s) :=
  (h.incoming (fun k => (k.gate (fun k2 => k2.takeLookup)))).next

protected theorem Keeps.learnVersion {epoch a} (h : Keeps s₀ s) : Keeps s₀ (learnVersion s epoch a) := h.modCatFor

protected theorem Keeps.addLease {epoch home a} (h : Keeps s₀ s) : Keeps s₀ (addLease s epoch home a) := by
  fun_cases addLease s epoch home a
  · exact h
  · exact h.same

protected theorem Keeps.modAsked {f} (h : Keeps s₀ s) : Keeps s₀ (modAsked s f) := h.same

protected theorem Keeps.markAsked {a} (h : Keeps s₀ s) : Keeps s₀ (markAsked s a) := h.modAsked

protected theorem Keeps.askAfresh {a} (h : Keeps s₀ s) : Keeps s₀ (askAfresh s a) := h.modAsked

protected theorem Keeps.learnNone {epoch gk a purged} (h : Keeps s₀ s) : Keeps s₀ (learnNone epoch gk s a purged) := by
  fun_cases learnNone epoch gk s a purged
  · exact h.modCatFor.modGyle
  · exact h.modCatFor.markAsked

protected theorem Keeps.admitAnswer {src epoch gk a} (h : Keeps s₀ s) : Keeps s₀ (admitAnswer src epoch gk a s) := by
  fun_cases admitAnswer src epoch gk a s
  · exact h.learnNone
  · exact (h.ite h.learnVersion.addLease).markAsked.modGyle
  · exact (h.ite h.learnVersion.addLease).markAsked

protected theorem Keeps.learnAnswer {x r a} (h : Keeps s₀ s) : Keeps s₀ (learnAnswer x r s a) := by
  fun_cases learnAnswer x r s a
  · exact h.learnNone
  · exact h.admitAnswer
  · exact h.askAll.same

protected theorem Keeps.placeFarRow {x slot row} (h : Keeps s₀ s) : Keeps s₀ (placeFarRow s x slot row) := by
  fun_cases placeFarRow s x slot row
  · exact h
  · exact h
  · exact h
  · exact ((h.modGyle.foldl fun k _ => k.needComp).foldl fun k _ => k.loadFar).modGyle
  · exact ((h.modGyle.foldl fun k _ => k.needComp).foldl fun k _ => k.loadFar).enqueue
  · exact ((h.modGyle.foldl fun k _ => k.needComp).foldl fun k _ => k.loadFar).same

protected theorem Keeps.placeFarRows {x} (h : Keeps s₀ s) : Keeps s₀ (placeFarRows s x) := by
  fun_cases placeFarRows s x
  · exact h
  · exact (h.foldl fun k _ => k.foldl fun k2 _ => k2.placeFarRow).answerFar

protected theorem Keeps.settleLearning {fuel} (h : Keeps s₀ s) : Keeps s₀ (settleLearning fuel s) := by
  fun_induction settleLearning fuel s with
  | case1 => exact h
  | case2 => exact h
  | case3 _ _ _ _ s1 s2 ih =>
    refine ih ?_
    have h1 : Keeps s₀ s1 := h.same
    have h2 : Keeps s₀ s2 := h1.admitAnswer
    split
    · exact h2.placeFarRows.ite h2.resolveParked
    · exact h2.pinAdmits

protected theorem Keeps.afterLookup {gk} (h : Keeps s₀ s) : Keeps s₀ (afterLookup s gk) := by
  unfold afterLookup
  extract_lets s1
  have h1 : Keeps s₀ s1 := by
    unfold s1
    split
    · exact h.placeFarRows.ite h.resolveParked
    · exact h.pinAdmits
  exact h1.settleLearning.settleForwards.settleTenants

protected theorem Keeps.lookupFailed {r} (h : Keeps s₀ s) : Keeps s₀ (lookupFailed s r) := by
  unfold lookupFailed
  extract_lets s1 s2
  have h1 : Keeps s₀ s1 := h.foldl fun k _ => k.learnNone
  have h2 : Keeps s₀ s2 := by
    unfold s2
    split
    · split
      · exact (h1.foldl fun k _ => k.markFarLate).ite h1
      · exact h1
    · exact h1
  split
  · exact h2.afterLookup.ite h2.afterLookup
  · exact h2.afterLookup

protected theorem Keeps.lookupAnswered {x answers r} (h : Keeps s₀ s) : Keeps s₀ (lookupAnswered x answers r s) := by
  fun_cases lookupAnswered x answers r s
  · exact h.endRequest.lookupFailed
  · exact (h.endRequest.foldl fun k _ => k.learnAnswer).afterLookup

protected theorem Keeps.takeAnswers {type x x' body} (hbody : ∀ {t}, Keeps s₀ t → ∀ x0, Keeps s₀ (body x0 t)) (h : Keeps s₀ s) :
    Keeps s₀ (takeAnswers type x x' body s) := by
  fun_cases takeAnswers type x x' body s
  · exact h.keepRun
  · exact hbody h.endRun _

protected theorem Keeps.execMLookupAns {x answers} (h : Keeps s₀ s) : After s₀ (execMLookupAns x answers s) :=
  (h.incoming (fun k => (k.takeAnswers (fun k2 _ => (k2.answered (fun k3 _ => k3.lookupAnswered)))))).next

protected theorem Keeps.renewOne {p cat acc x} (h : Keeps s₀ acc.1) : Keeps s₀ (renewOne p cat acc x).1 := by
  fun_cases renewOne p cat acc x
  · exact h.addGranted
  · exact h

protected theorem Keeps.takeRenew {i x ids} (h : Keeps s₀ s) : Keeps s₀ (takeRenew i x ids s) := by
  fun_cases takeRenew i x ids s
  · exact h.atHome fun k => k
  · exact (h.foldl_fst fun k _ => k.renewOne).reply
  · exact (h.foldl_fst fun k _ => k.renewOne).gatherAt

protected theorem Keeps.execMLeaseRenew {x ids} (h : Keeps s₀ s) : After s₀ (execMLeaseRenew x ids s) :=
  (h.incoming (fun k => (k.gate (fun k2 => k2.takeRenew)))).next

protected theorem Keeps.leaseGranted {epoch x} (h : Keeps s₀ s) : Keeps s₀ (leaseGranted epoch s x) := h.same

protected theorem Keeps.renewalAnswered {x grants r} (h : Keeps s₀ s) : Keeps s₀ (renewalAnswered x grants r s) :=
  h.endRequest.foldl fun k _ => k.leaseGranted

protected theorem Keeps.execMLeaseAns {x grants} (h : Keeps s₀ s) : After s₀ (execMLeaseAns x grants s) :=
  (h.incoming (fun k => (k.takeAnswers (fun k2 _ => (k2.answered (fun k3 _ => k3.renewalAnswered)))))).next

protected theorem Keeps.renewDue {a} (h : Keeps s₀ s) : Keeps s₀ (renewDue a s) := by
  fun_cases renewDue a s
  · exact h
  · exact h
  · exact h.stamp.same.sendReq

protected theorem Keeps.execLeaseRenewDue {adapter} (h : Keeps s₀ s) : After s₀ (execLeaseRenewDue adapter s) := h.renewDue.next

protected theorem Keeps.lapse {l} (h : Keeps s₀ s) : Keeps s₀ (lapse s l) := h.same.askAfresh.foldl fun k _ => k.modGyle.purgeInGyle

protected theorem Keeps.leaseLapsed {a} (h : Keeps s₀ s) : Keeps s₀ (leaseLapsed a s) := by
  fun_cases leaseLapsed a s
  · exact h.stamp.lapse.seekKept
  · exact h

protected theorem Keeps.execLeaseLapsed {adapter} (h : Keeps s₀ s) : After s₀ (execLeaseLapsed adapter s) := h.leaseLapsed.next

protected theorem Keeps.leaseWaitOver {a v p} (h : Keeps s₀ s) : Keeps s₀ (leaseWaitOver a v p s) := by
  fun_cases leaseWaitOver a v p s
  · exact h.stamp.same.holderDone
  · exact h

protected theorem Keeps.execLeaseWaitExpiry {adapter version peer} (h : Keeps s₀ s) :
    After s₀ (execLeaseWaitExpiry adapter version peer s) :=
  h.leaseWaitOver.next

protected theorem Keeps.revokeOne {epoch x} (h : Keeps s₀ s) : Keeps s₀ (revokeOne epoch s x) := by
  fun_cases revokeOne epoch s x
  · exact h.same.askAfresh.noteSuperseded
  · exact h.same.askAfresh.noteSuperseded.modCatFor.staleCask

protected theorem Keeps.takeRevoke {x ids purge} (h : Keeps s₀ s) : Keeps s₀ (takeRevoke x ids purge s) := by
  fun_cases takeRevoke x ids purge s
  · exact ((h.foldl fun k _ => k.revokeOne).foldl fun k _ => k.applyPurge).same.purgeTick
  · exact (h.foldl fun k _ => k.revokeOne).release.reply.seekKept

protected theorem Keeps.execMRevoke {x ids purge} (h : Keeps s₀ s) : After s₀ (execMRevoke x ids purge s) :=
  (h.incoming (fun k => (k.gate (fun k2 => k2.takeRevoke)))).next

protected theorem Keeps.revokeAcked {x r} (h : Keeps s₀ s) : Keeps s₀ (revokeAcked x r s) := h.endRequest.foldl fun k _ => k.holderDone

protected theorem Keeps.execMRevokeAck {x} (h : Keeps s₀ s) : After s₀ (execMRevokeAck x s) :=
  (h.incoming (fun k => (k.answered (fun k2 _ => k2.revokeAcked)))).next

protected theorem Keeps.endHold {x x'} (h : Keeps s₀ s) : Keeps s₀ (endHold x s x') := h.same

protected theorem Keeps.execMHoldRelease {x ids} (h : Keeps s₀ s) : After s₀ (execMHoldRelease x ids s) :=
  (h.incoming (fun k => (k.whenReady (fun k2 => (k2.foldl fun k3 _ => k3.endHold).pruneVersions)))).next

protected theorem Keeps.holdsTimeout {p} (h : Keeps s₀ s) : Keeps s₀ (holdsTimeout p s) := by
  fun_cases holdsTimeout p s
  · exact h
  · exact h.stamp.same.pruneVersions

protected theorem Keeps.execPeerHoldsTimeout {peer} (h : Keeps s₀ s) : After s₀ (execPeerHoldsTimeout peer s) := h.holdsTimeout.next

protected theorem Keeps.execLoadHalving (h : Keeps s₀ s) : After s₀ (execLoadHalving s) := h.stamp.same.next

protected theorem Keeps.execFreqHalving (h : Keeps s₀ s) : After s₀ (execFreqHalving s) := h.stamp.same.next

/-! ### FarApply -/

protected theorem Keeps.sendVersion {ask v} (h : Keeps s₀ s) : Keeps s₀ (sendVersion s ask v) := h.foldl fun k _ => k.sendTensor.loadFetch

protected theorem Keeps.serveFetch {x cat a v} (h : Keeps s₀ s) : Keeps s₀ (serveFetch x cat a v s) := by
  fun_cases serveFetch x cat a v s
  · exact h.reply
  · exact h.reply
  · exact h.addHold.sendVersion.reply

protected theorem Keeps.takeFetch {i x a v flags} (h : Keeps s₀ s) : Keeps s₀ (takeFetch i x a v flags s) := by
  fun_cases takeFetch i x a v flags s
  · exact h.serveFetch
  · exact h.atHome fun k => k.serveFetch

protected theorem Keeps.execMFetchReq {x adapter version tierFlags} (h : Keeps s₀ s) :
    After s₀ (execMFetchReq x adapter version tierFlags s) :=
  (h.incoming (fun k => (k.gate (fun k2 => k2.takeFetch)))).next

protected theorem Keeps.storeTensor {epoch a v t} (h : Keeps s₀ s) : Keeps s₀ (storeTensor s epoch a v t) := h.modCatFor

protected theorem Keeps.fetchedTensor {r seg bytes} (h : Keeps s₀ s) : Keeps s₀ (fetchedTensor r seg bytes s) := by
  fun_cases fetchedTensor r seg bytes s
  · exact h
  · exact h
  · exact h.storeTensor.makePresent
  · exact h.endRequest.failSource

protected theorem Keeps.takeFetchData {x seg data} (h : Keeps s₀ s) : Keeps s₀ (takeFetchData x seg data s) := by
  fun_cases takeFetchData x seg data s
  · exact h.sendMsg
  · exact h
  · exact h.takeSegment fun k _ => k.fetchedTensor

protected theorem Keeps.execMFetchData {x seg data} (h : Keeps s₀ s) : After s₀ (execMFetchData x seg data s) :=
  (h.incoming (fun k => k.takeFetchData)).next

protected theorem Keeps.loseRest {st} (h : Keeps s₀ s) : Keeps s₀ (loseRest s st) := h.foldl fun k _ => k.modStream.failSource

protected theorem Keeps.fetchEnded {x r} (h : Keeps s₀ s) : Keeps s₀ (fetchEnded x r s) := by
  fun_cases fetchEnded x r s
  · exact h.endRequest
  · exact h.endRequest.applyPurge
  · exact h.endRequest.loseRest
  · exact h.endRequest.failSource
  · exact h.endRequest

protected theorem Keeps.execMFetchEnd {x} (h : Keeps s₀ s) : After s₀ (execMFetchEnd x s) :=
  (h.incoming (fun k => (k.answered (fun k2 _ => k2.fetchEnded)))).next

protected theorem Keeps.registerFar {x fp gyle classes} (h : Keeps s₀ s) : Keeps s₀ (registerFar x fp gyle classes s) :=
  ((h.setGyle.foldl fun k _ => k.addHold).foldl fun k _ => k.needComp).askLookups

protected theorem Keeps.openFarGyle {x fp gyle classes} (h : Keeps s₀ s) : Keeps s₀ (openFarGyle x fp gyle classes s) := by
  fun_cases openFarGyle x fp gyle classes s
  case case1 s1 _ =>
    have h1 : Keeps s₀ s1 := by
      unfold s1
      split
      · exact h.tearGyle
      · exact h
    exact h1.answerStatus
  case case2 s1 _ _ _ =>
    have h1 : Keeps s₀ s1 := by
      unfold s1
      split
      · exact h.tearGyle
      · exact h
    exact h1.answerStatus
  case case3 s1 _ _ =>
    have h1 : Keeps s₀ s1 := by
      unfold s1
      split
      · exact h.tearGyle
      · exact h
    exact h1.registerFar.answerStatus

protected theorem Keeps.takeFarOpen {i x fp gyle classes} (h : Keeps s₀ s) : Keeps s₀ (takeFarOpen i x fp gyle classes s) := by
  fun_cases takeFarOpen i x fp gyle classes s
  · exact h.atHome fun k => k
  · exact h.openFarGyle
  · exact h.openFarGyle
  · exact h.redirect.same

protected theorem Keeps.execMFarOpen {x fp gyle classes} (h : Keeps s₀ s) : After s₀ (execMFarOpen x fp gyle classes s) :=
  (h.incoming (fun k => (k.gate (fun k2 => k2.takeFarOpen)))).next

protected theorem Keeps.serveFarRows {x g slot rows} (h : Keeps s₀ s) : Keeps s₀ (serveFarRows x g slot rows s) :=
  h.setGyle.same.placeFarRows

protected theorem Keeps.takeFarRows {x gyle slot rows} (h : Keeps s₀ s) : Keeps s₀ (takeFarRows x gyle slot rows s) := by
  fun_cases takeFarRows x gyle slot rows s
  · exact h.serveFarRows
  · exact h.gatherAt
  · exact h.answerStatus

protected theorem Keeps.execMFarRows {x gyle slot rows} (h : Keeps s₀ s) : After s₀ (execMFarRows x gyle slot rows s) :=
  (h.incoming (fun k => (k.gate (fun k2 => k2.takeFarRows)))).next

protected theorem Keeps.cancelFar {g} (h : Keeps s₀ s) : Keeps s₀ (cancelFar s g) :=
  (h.clearHeld.foldl fun k _ => k.modTun).modGyle.answerFar

protected theorem Keeps.endFar {type x gyle} (h : Keeps s₀ s) : Keeps s₀ (endFar type x gyle s) := by
  fun_cases endFar type x gyle s
  · exact h.cancelFar
  · exact h.tearGyle
  · exact h.sendMsg.same
  · exact h

protected theorem Keeps.execMFarClose {x gyle} (h : Keeps s₀ s) : After s₀ (execMFarClose x gyle s) := (h.incoming (fun k => k.endFar)).next

protected theorem Keeps.execMFarCancel {x gyle} (h : Keeps s₀ s) : After s₀ (execMFarCancel x gyle s) :=
  (h.incoming (fun k => k.endFar)).next

protected theorem Keeps.giveLocal {x seg slot row was x'} (h : Keeps s₀ s) : Keeps s₀ (giveLocal x seg slot row was x' s) := by
  fun_cases giveLocal x seg slot row was x' s
  · exact h
  · exact h
  · exact h
  · exact h.modGyle.enqueue.notePlaced
  · exact h.modGyle.same.notePlaced

protected theorem Keeps.fetchInstead {x x'} (h : Keeps s₀ s) : Keeps s₀ (fetchInstead s x x') := by
  fun_cases fetchInstead s x x'
  · exact h
  · exact (h.setGyle.foldl fun k _ => k.needComp).foldl fun k _ => k.foldl fun k2 _ => by
      split
      · exact k2.giveLocal.ite k2
      · exact k2

protected theorem Keeps.farWaitLate {x x' mine} (h : Keeps s₀ s) : Keeps s₀ (farWaitLate s x x' mine) := by
  fun_cases farWaitLate s x x' mine
  · exact h
  · exact h.foldl fun k _ => k.modGyle.markLate.ite k.modGyle

protected theorem Keeps.farGone {x x'} (h : Keeps s₀ s) : Keeps s₀ (farGone s x x') := by
  fun_cases farGone s x x'
  · exact h
  · exact h.modGyle.foldl fun k _ => by
      split
      · exact k.purgeInGyle
      · exact k

protected theorem Keeps.farOpened {x r} (h : Keeps s₀ s) : Keeps s₀ (farOpened x r s) := by
  fun_cases farOpened x r s
  · exact h.endRequest
  · exact h.endRequest
  · exact h.endRequest.farWaitLate
  · exact h.endRequest.fetchInstead
  · exact h.endRequest.farGone

protected theorem Keeps.execMFarOpenAns {x} (h : Keeps s₀ s) : After s₀ (execMFarOpenAns x s) :=
  (h.incoming (fun k => (k.answered (fun k2 _ => k2.farOpened)))).next

protected theorem Keeps.takeSum {x x' f r} (h : Keeps s₀ s) : Keeps s₀ (takeSum x x' f s r) := by
  fun_cases takeSum x x' f s r
  · exact h
  · exact h.setGyle
  · exact h.setGyle.startXfer.startXfer

protected theorem Keeps.farSums {x slot rows r} (h : Keeps s₀ s) : Keeps s₀ (farSums x slot rows r s) := by
  fun_cases farSums x slot rows r s
  · exact h.endRequest
  · exact h.endRequest.foldl fun k _ => k.takeSum
  · exact h.endRequest.farWaitLate

protected theorem Keeps.execMFarSum {x slot rows} (h : Keeps s₀ s) : After s₀ (execMFarSum x slot rows s) :=
  (h.incoming (fun k => (k.answered (fun k2 _ => k2.farSums)))).next

protected theorem Keeps.takeFarLate {x slot rows} (h : Keeps s₀ s) : Keeps s₀ (takeFarLate x slot rows s) := by
  fun_cases takeFarLate x slot rows s
  · exact h.sendMsg
  · exact h
  · exact h.endRequest
  · exact h
  · exact h.same.farWaitLate

protected theorem Keeps.execMFarLate {x slot rows} (h : Keeps s₀ s) : After s₀ (execMFarLate x slot rows s) :=
  (h.incoming (fun k => k.takeFarLate)).next

/-! ### Forwards -/

protected theorem Keeps.applyUpdate {hdr bytes} (h : Keeps s₀ s) : Keeps s₀ (applyUpdate hdr bytes s) := by
  unfold applyUpdate
  extract_lets es s1
  have h1 : Keeps s₀ s1 := h.foldl fun k _ => by
    split
    · exact k.dirChange ‹_›
    · exact k.countDirRefusal
  exact h1.same

protected theorem Keeps.execMDirUpdate {x entries} (h : Keeps s₀ s) : After s₀ (execMDirUpdate x entries s) :=
  (h.incoming (fun k => (k.gate (fun k2 => (k2.takeRun (fun k3 _ => k3.applyUpdate)))))).next

protected theorem Keeps.dirAcked {x r} (h : Keeps s₀ s) : Keeps s₀ (dirAcked x r s) := h.endRequest.dirPeerDone

protected theorem Keeps.execMDirAck {x} (h : Keeps s₀ s) : After s₀ (execMDirAck x s) :=
  (h.incoming (fun k => (k.answered (fun k2 _ => k2.dirAcked)))).next

protected theorem Keeps.completeForward {corr status result} (h : Keeps s₀ s) : Keeps s₀ (completeForward s corr status result) := by
  fun_cases completeForward s corr status result
  · exact h
  · exact h.same.completeLater
  · exact h.same

protected theorem Keeps.endDirPart {corr status applied} (h : Keeps s₀ s) : Keeps s₀ (endDirPart s corr status applied) :=
  h.same.settleDirPending

protected theorem Keeps.forwardAnswered {x result r} (h : Keeps s₀ s) : Keeps s₀ (forwardAnswered x result r s) := by
  fun_cases forwardAnswered x result r s
  · exact h.endRequest.completeForward
  · exact h.endRequest.endDirPart

protected theorem Keeps.execMPublishAns {x result} (h : Keeps s₀ s) : After s₀ (execMPublishAns x result s) :=
  (h.incoming (fun k => (k.answered (fun k2 _ => k2.forwardAnswered)))).next

protected theorem Keeps.epochReleased {x} (h : Keeps s₀ s) : Keeps s₀ (epochReleased x s) := (h.ite h.same).releaseEpoch

protected theorem Keeps.execMEpochRelease {x} (h : Keeps s₀ s) : After s₀ (execMEpochRelease x s) :=
  (h.incoming (fun k => k.epochReleased)).next

protected theorem Keeps.takeLend {hdr grant gibs} (h : Keeps s₀ s) : Keeps s₀ (takeLend hdr grant gibs s) := by
  fun_cases takeLend hdr grant gibs s
  · exact h.reply
  case case2 s1 =>
    have h1 : Keeps s₀ s1 := h.trans { borrowed := fun hs => by rw [List.all_append, hs]; rfl }
    exact h1.reply

protected theorem Keeps.execMLend {x grant sizeGib} (h : Keeps s₀ s) : After s₀ (execMLend x grant sizeGib s) :=
  (h.incoming (fun k => (k.gate (fun k2 => k2.takeLend)))).next

protected theorem Keeps.dropGrant {lender grant ask} (h : Keeps s₀ s) : Keeps s₀ (dropGrant s lender grant ask) := by
  unfold dropGrant
  extract_lets _ s1
  have h1 : Keeps s₀ s1 := h.trans { borrowed := cellsWf_filter }
  exact h1.reply

protected theorem Keeps.takeRecall {hdr grant} (h : Keeps s₀ s) : Keeps s₀ (takeRecall hdr grant s) := by
  fun_cases takeRecall hdr grant s
  · exact h.reply
  · exact h.same.dropGrant
  case case3 s1 _ =>
    have h1 : Keeps s₀ s1 := h.same
    exact h1.trans { borrowed := cellsWf_map fun x hx => by split <;> exact hx }

protected theorem Keeps.execMRecall {x grant} (h : Keeps s₀ s) : After s₀ (execMRecall x grant s) :=
  (h.incoming (fun k => (k.gate (fun k2 => k2.takeRecall)))).next

protected theorem Keeps.readsDrained {lender grant} (h : Keeps s₀ s) : Keeps s₀ (readsDrained lender grant s) := by
  fun_cases readsDrained lender grant s
  · exact h.stamp.dropGrant
  · exact h
  · exact h
  · exact h

protected theorem Keeps.execRecallReadsDrained {lender grant} (h : Keeps s₀ s) : After s₀ (execRecallReadsDrained lender grant s) :=
  h.readsDrained.next

protected theorem Keeps.endT3Read {r} (h : Keeps s₀ s) : Keeps s₀ (endT3Read s r) := by
  unfold endT3Read
  extract_lets s1
  have h1 : Keeps s₀ s1 := h.endRequest
  exact h1.trans { borrowed := cellsWf_map fun _ hx => hx }

protected theorem Keeps.t3Tensor {r seg bytes} (h : Keeps s₀ s) : Keeps s₀ (t3Tensor r seg bytes s) := by
  fun_cases t3Tensor r seg bytes s
  · exact h.endT3Read
  · exact h.endT3Read
  · exact h.endT3Read.makePresent
  · exact h.endT3Read.failSource

protected theorem Keeps.takeT3Data {x seg data} (h : Keeps s₀ s) : Keeps s₀ (takeT3Data x seg data s) := by
  fun_cases takeT3Data x seg data s
  · exact h
  · exact h.takeSegment fun k _ => k.t3Tensor
  · exact h.endT3Read.failSource
  · exact h.endT3Read
  · exact h.endT3Read

protected theorem Keeps.execMT3Data {x seg data} (h : Keeps s₀ s) : After s₀ (execMT3Data x seg data s) :=
  (h.incoming (fun k => k.takeT3Data)).next

protected theorem Keeps.t3Timeout {corr} (h : Keeps s₀ s) : Keeps s₀ (t3Timeout corr s) := by
  fun_cases t3Timeout corr s
  · exact h
  · exact h.stamp.endT3Read.forgetGrant

protected theorem Keeps.execT3ReadTimeout {corr} (h : Keeps s₀ s) : After s₀ (execT3ReadTimeout corr s) := h.t3Timeout.next

protected theorem Keeps.lendEnds {peer grant status} (h : Keeps s₀ s) : Keeps s₀ (lendEnds s peer grant status) := by
  fun_cases lendEnds s peer grant status
  · exact h
  · exact h.same.completeLater
  · exact h.same
  · exact h.same

protected theorem Keeps.lendAcked {x r} (h : Keeps s₀ s) : Keeps s₀ (lendAcked x r s) := h.endRequest.lendEnds

protected theorem Keeps.execMLendAck {x grant} (h : Keeps s₀ s) : After s₀ (execMLendAck x grant s) :=
  (h.incoming (fun k => (k.answered (fun k2 _ => k2.lendAcked)))).next

protected theorem Keeps.recallAnswered {x r} (h : Keeps s₀ s) : Keeps s₀ (recallAnswered x r s) := by
  fun_cases recallAnswered x r s
  · exact h.endRequest.endRecall
  · exact h.endRequest

protected theorem Keeps.execMRecallAns {x grant} (h : Keeps s₀ s) : After s₀ (execMRecallAns x grant s) :=
  (h.incoming (fun k => (k.answered (fun k2 _ => k2.recallAnswered)))).next

protected theorem Keeps.takeT3Read {x grant offset length} (h : Keeps s₀ s) : Keeps s₀ (takeT3Read x grant offset length s) := by
  fun_cases takeT3Read x grant offset length s <;> exact h.reply

protected theorem Keeps.execMT3Read {x grant offset length} (h : Keeps s₀ s) : After s₀ (execMT3Read x grant offset length s) :=
  (h.incoming (fun k => (k.gate (fun k2 => k2.takeT3Read)))).next

protected theorem Keeps.t3Written {x grant seg bytes} (h : Keeps s₀ s) : Keeps s₀ (t3Written x grant seg bytes s) := by
  fun_cases t3Written x grant seg bytes s
  · exact h.same
  · exact h

protected theorem Keeps.execMT3Write {x grant seg data} (h : Keeps s₀ s) : After s₀ (execMT3Write x grant seg data s) :=
  (h.incoming (fun k => (k.whenReady (fun k2 => (k2.takeSegment (fun k3 _ => k3.t3Written)))))).next

/-! ### Racking -/

protected theorem Keeps.startRack {c fr d} (h : Keeps s₀ s) : Keeps s₀ (startRack c fr d s) := by
  unfold startRack
  extract_lets _ _ _ s1 _
  have h1 : Keeps s₀ s1 := h.same
  exact h1.sendReq.acceptLater

protected theorem Keeps.rack {c} (h : Keeps s₀ s) : Keeps s₀ (rack c s) := h.onFront fun _ _ _ => h.decideCmd fun k2 => k2.startRack

protected theorem Keeps.execRack {c} (h : Keeps s₀ s) : After s₀ (execRack c s) := h.rack.next

protected theorem Keeps.modRack {f} (h : Keeps s₀ s) : Keeps s₀ (modRack s f) := h.same

protected theorem Keeps.sendRackData {r mine} (h : Keeps s₀ s) : Keeps s₀ (sendRackData s r mine) := by
  fun_cases sendRackData s r mine
  · exact (h.foldl fun k _ => k.sendTensor).sendMsg
  · exact h.foldl fun k _ => k.sendTensor

protected theorem Keeps.rackOpened {x q} (h : Keeps s₀ s) : Keeps s₀ (rackOpened x q s) := by
  fun_cases rackOpened x q s
  · exact h.endRequest
  · exact h.endRequest.cancelRack
  · exact h.endRequest.modRack.sendRackData

protected theorem Keeps.execMRackOpenAns {x} (h : Keeps s₀ s) : After s₀ (execMRackOpenAns x s) :=
  (h.incoming (fun k => (k.answered (fun k2 _ => k2.rackOpened)))).next

protected theorem Keeps.freezeRack {r} (h : Keeps s₀ s) : Keeps s₀ (freezeRack s r) := h.modRack.sendRackData.sendReq

protected theorem Keeps.roundDone (h : Keeps s₀ s) : Keeps s₀ (roundDone s) := by
  fun_cases roundDone s
  · exact h
  · exact h
  · exact h.stamp.freezeRack
  · exact h.stamp.cancelRack
  · exact h.stamp.modRack.sendRackData

protected theorem Keeps.execRackRoundDone (h : Keeps s₀ s) : After s₀ (execRackRoundDone s) := h.roundDone.next

protected theorem Keeps.keepPastHomes {epoch a v home} (h : Keeps s₀ s) : Keeps s₀ (keepPastHomes s epoch a v home) := h.same

protected theorem Keeps.keepBound {a v} (h : Keeps s₀ s) : Keeps s₀ (keepBound s a v) := by
  unfold keepBound
  extract_lets pin
  have hpin (g : Gyle) : (pin g).key = g.key := by
    unfold pin
    split
    · split <;> rfl
    · rfl
  have h1 : Keeps s₀ { s with gyles := s.gyles.map pin } := h.trans { gyles := nodup_map_keys hpin }
  exact h1.keepPastHomes

protected theorem Keeps.handOver {a v dest leaseUs} (h : Keeps s₀ s) : Keeps s₀ (handOver s a v dest leaseUs) := by
  unfold handOver
  extract_lets _ _ _ _ s1 _ s2
  have h1 : Keeps s₀ s1 := h.same
  have h2 : Keeps s₀ s2 := by
    unfold s2
    split
    · exact h1.addLease.modCask
    · exact h1.addLease
  exact h2.foldl fun k _ => by
    split
    · exact k.modStream.failSource.ite k.modStream
    · exact k.modStream

protected theorem Keeps.cutover {r leaseUs} (h : Keeps s₀ s) : Keeps s₀ (cutover s r leaseUs) := by
  unfold cutover
  extract_lets _ _ _ _ s1 _ s2 _ _
  have h1 : Keeps s₀ s1 := h.measureFreeze.keepBound.same
  have h2 : Keeps s₀ s2 := h1.same
  exact h2.modRack.handOver.pruneVersions.foldl fun k _ => k.stamp.sendReq

protected theorem Keeps.rackReady {x leaseUs q} (h : Keeps s₀ s) : Keeps s₀ (rackReady x leaseUs q s) := by
  fun_cases rackReady x leaseUs q s
  · exact h.endRequest
  · exact h.endRequest.cutover
  · exact h.endRequest.cancelRack

protected theorem Keeps.execMRackReady {x leaseUs} (h : Keeps s₀ s) : After s₀ (execMRackReady x leaseUs s) :=
  (h.incoming (fun k => (k.answered (fun k2 _ => k2.rackReady)))).next

protected theorem Keeps.freezeTimeout (h : Keeps s₀ s) : Keeps s₀ (freezeTimeout s) := by
  fun_cases freezeTimeout s
  · exact h
  · exact h.stamp.cancelRack
  · exact h

protected theorem Keeps.execRackFreezeTimeout (h : Keeps s₀ s) : After s₀ (execRackFreezeTimeout s) := h.freezeTimeout.next

protected theorem Keeps.homeAcked {x q} (h : Keeps s₀ s) : Keeps s₀ (homeAcked x q s) := by
  fun_cases homeAcked x q s
  · exact h.endRequest.cancelRack
  · exact h.endRequest

protected theorem Keeps.execMHomeAck {x} (h : Keeps s₀ s) : After s₀ (execMHomeAck x s) :=
  (h.incoming (fun k => (k.answered (fun k2 _ => k2.homeAcked)))).next

protected theorem Keeps.takeRackOpen {x hdr slots bytes} (h : Keeps s₀ s) : Keeps s₀ (takeRackOpen x hdr slots bytes s) := by
  fun_cases takeRackOpen x hdr slots bytes s
  · exact h.same.answerStatus
  · exact h.same.answerStatus
  · exact h.same.same.answerStatus

protected theorem Keeps.execMRackOpen {x hdr slots bytes} (h : Keeps s₀ s) : After s₀ (execMRackOpen x hdr slots bytes s) :=
  (h.incoming (fun k => (k.gate (fun k2 => k2.takeRackOpen)))).next

protected theorem Keeps.runQueued {i} (h : Keeps s₀ s) : Keeps s₀ (runQueued s i) := by
  fun_cases runQueued s i
  · exact h.takeLookup
  · exact h.takeRenew
  · exact h.takeFetch
  · exact h.takeFarOpen
  · exact h.takeForward
  · exact h

protected theorem Keeps.dropRackIn {src} (h : Keeps s₀ s) : Keeps s₀ (dropRackIn s src) := by
  unfold dropRackIn
  extract_lets _ _ s1
  have h1 : Keeps s₀ s1 := h.same
  exact h1.foldl fun k _ => k.runQueued

protected theorem Keeps.rackedTensor {x seg bytes} (h : Keeps s₀ s) : Keeps s₀ (rackedTensor x seg bytes s) := by
  fun_cases rackedTensor x seg bytes s
  · exact h.same
  · exact h.sendMsg.dropRackIn

protected theorem Keeps.execMRackData {x seg data} (h : Keeps s₀ s) : After s₀ (execMRackData x seg data s) :=
  (h.incoming (fun k => (k.whenReady (fun k2 => (k2.takeSegment (fun k3 _ => k3.rackedTensor)))))).next

protected theorem Keeps.takePrepare {x version leases holds} (h : Keeps s₀ s) : Keeps s₀ (takePrepare x version leases holds s) := by
  fun_cases takePrepare x version leases holds s
  · exact h.answerStatus
  · exact h.answerStatus
  · exact h.answerStatus
  · exact h.same.reply

protected theorem Keeps.execMRackPrepare {x version leases holds} (h : Keeps s₀ s) : After s₀ (execMRackPrepare x version leases holds s) :=
  (h.incoming (fun k => (k.gate (fun k2 => k2.takePrepare)))).next

protected theorem Keeps.takeAbort {x} (h : Keeps s₀ s) : Keeps s₀ (takeAbort x s) := by
  unfold takeAbort
  extract_lets s1
  have h1 : Keeps s₀ s1 := by
    unfold s1
    split
    · exact h.cancelRack.ite h
    · exact h
  exact h1.dropRackIn

protected theorem Keeps.execMRackAbort {x} (h : Keeps s₀ s) : After s₀ (execMRackAbort x s) := (h.incoming (fun k => k.takeAbort)).next

protected theorem Keeps.ownStreams {a v} (h : Keeps s₀ s) : Keeps s₀ (ownStreams s a v) :=
  h.foldl fun k _ => by
    split
    · exact k.same.modStream.failSource
    · exact k.same.modStream

@[simp] theorem bindArrived_key (epoch : Nat) (a : AdapterId) (v : Nat) (g : Gyle) : (bindArrived epoch a v g).key = g.key := by
  fun_cases bindArrived epoch a v g <;> rfl

protected theorem Keeps.becomeHome {a src} (h : Keeps s₀ s) : Keeps s₀ (becomeHome s a src) := by
  unfold becomeHome
  split
  · exact h
  · extract_lets v s1 _ s2 s3 s4 s5 s6
    have h2 : Keeps s₀ s2 := h.modAdapter.same
    have h3 : Keeps s₀ s3 := (h2.trans { gyles := nodup_map_keys (bindArrived_key _ _ _) }).keepPastHomes
    have h4 : Keeps s₀ s4 := h3.foldl fun k _ => k.ite k.addGranted
    have h5 : Keeps s₀ s5 := h4.foldl fun k _ => k.ite k.addHold
    have h6 : Keeps s₀ s6 := by
      unfold s6
      split
      · exact h5.modCask
      · exact h5
    exact h6.ownStreams.foldl fun k _ => k.runQueued

protected theorem Keeps.homeMoved {epoch a old home} (h : Keeps s₀ s) : Keeps s₀ (homeMoved s epoch a old home) := by
  unfold homeMoved
  extract_lets _ _ _ _ s1
  have h1 : Keeps s₀ s1 := by
    unfold s1
    split
    · exact h.same.keepPastHomes
    · exact h.same.keepPastHomes.sendMsg
  exact h1.foldl fun k _ => k.same.modStream.readFrom.ite k.same.modStream

protected theorem Keeps.takeHomeChange {x a home} (h : Keeps s₀ s) : Keeps s₀ (takeHomeChange x a home s) := by
  fun_cases takeHomeChange x a home s
  · exact h.answerStatus
  · exact (h.modCatFor.becomeHome.ite h.modCatFor.homeMoved).answerStatus

protected theorem Keeps.execMHomeChange {x adapter home} (h : Keeps s₀ s) : After s₀ (execMHomeChange x adapter home s) :=
  (h.incoming (fun k => (k.gate (fun k2 => k2.takeHomeChange)))).next

/-! ### Links -/

protected theorem Keeps.payDirectory {p} (h : Keeps s₀ s) : Keeps s₀ (payDirectory s p) := by
  unfold payDirectory
  extract_lets _ _ s1
  have h1 : Keeps s₀ s1 := h.same
  exact h1.foldl fun k _ => k.stamp.sendReq

protected theorem Keeps.linkComesUp {p} (h : Keeps s₀ s) : Keeps s₀ (linkComesUp s p) := by
  unfold linkComesUp
  extract_lets _ _ _ _ _ _ _ _ s1
  have h1 : Keeps s₀ s1 := h.same.raise.same
  exact (h1.payDirectory.foldl fun k _ => k.sendMsg).seekKept

protected theorem Keeps.linkUp {port p} (h : Keeps s₀ s) : Keeps s₀ (linkUp port p s) := by
  fun_cases linkUp port p s
  · exact h
  · exact h.stamp.raise.sendLinkEvent
  · exact h.stamp.raise.linkComesUp

protected theorem Keeps.execLinkUp {port peer} (h : Keeps s₀ s) : After s₀ (execLinkUp port peer s) := h.linkUp.next

protected theorem Keeps.linkDown {port p} (h : Keeps s₀ s) : Keeps s₀ (linkDown port p s) := by
  fun_cases linkDown port p s
  · exact h
  · exact h.stamp.raise.peerDown

protected theorem Keeps.execLinkDown {port peer} (h : Keeps s₀ s) : After s₀ (execLinkDown port peer s) := h.linkDown.next

protected theorem Keeps.fetchLate {r} (h : Keeps s₀ s) : Keeps s₀ (fetchLate s r) := h.foldl fun k _ => k.foldl fun k2 _ => k2.markLate

protected theorem Keeps.unanswered {r} (h : Keeps s₀ s) : Keeps s₀ (unanswered s r) := by
  fun_cases unanswered s r
  · exact h.endRequest.lookupFailed
  · exact h.fetchLate
  · exact h.farWaitLate
  · exact h.farWaitLate
  · exact h

protected theorem Keeps.retryOneReq {r} (h : Keeps s₀ s) : Keeps s₀ (retryOneReq s r) := by
  fun_cases retryOneReq s r
  · exact h.same.sendMsg
  · exact h.peerDown.unanswered

protected theorem Keeps.retryRequest {corr} (h : Keeps s₀ s) : Keeps s₀ (retryRequest corr s) := by
  fun_cases retryRequest corr s
  · exact h
  · exact h.stamp.foldl fun k _ => k.retryOneReq

protected theorem Keeps.execPeerRequestRetry {corr} (h : Keeps s₀ s) : After s₀ (execPeerRequestRetry corr s) := h.retryRequest.next

protected theorem Keeps.givenUp {r} (h : Keeps s₀ s) : Keeps s₀ (givenUp s r) := by
  fun_cases givenUp s r
  · exact h.endRequest.same.lapse
  · exact h.endRequest.same
  · exact h.endRequest.same.failSource
  · exact h.endRequest.same
  · exact h.endRequest.same
  · exact h.endRequest.same.cancelRack
  · exact h.endRequest.same.cancelRack
  · exact h.endRequest.same.sendReq
  · exact h.endRequest.same.completeForward
  · exact h.endRequest.same.endDirPart
  · exact h.endRequest.same.lendEnds
  · exact h.endRequest.same.unanswered

protected theorem Keeps.execRequestGiveUp {corr} (h : Keeps s₀ s) : After s₀ (execRequestGiveUp corr s) := by
  refine Keeps.next ?_
  split
  · exact h
  · exact h.stamp.givenUp

protected theorem Keeps.forgetAnswer {p corr} (h : Keeps s₀ s) : Keeps s₀ (forgetAnswer p corr s) := by
  fun_cases forgetAnswer p corr s
  · exact h.stamp.same
  · exact h

protected theorem Keeps.execAnswerExpiry {peer corr} (h : Keeps s₀ s) : After s₀ (execAnswerExpiry peer corr s) := h.forgetAnswer.next

protected theorem Keeps.outcomeState {o} (h : Keeps s₀ s) (ho : After s₀ o) : Keeps s₀ (outcomeState s o) := by
  fun_cases outcomeState s o
  · exact ho _ rfl
  · exact h

protected theorem Keeps.runMessage {i} (h : Keeps s₀ s) : Keeps s₀ (runMessage s i) := by
  fun_cases runMessage s i
  · exact h.outcomeState h.execMLookup
  · exact h.outcomeState h.execMLookupAns
  · exact h.outcomeState h.execMLeaseRenew
  · exact h.outcomeState h.execMLeaseAns
  · exact h.outcomeState h.execMRevoke
  · exact h.outcomeState h.execMRevokeAck
  · exact h.outcomeState h.execMHoldRelease
  · exact h.outcomeState h.execMFetchReq
  · exact h.outcomeState h.execMFetchData
  · exact h.outcomeState h.execMFetchEnd
  · exact h.outcomeState h.execMFarOpen
  · exact h.outcomeState h.execMFarOpenAns
  · exact h.outcomeState h.execMFarRows
  · exact h.outcomeState h.execMFarSum
  · exact h.outcomeState h.execMFarLate
  · exact h.outcomeState h.execMFarClose
  · exact h.outcomeState h.execMFarCancel
  · exact h.outcomeState h.execMRackOpen
  · exact h.outcomeState h.execMRackOpenAns
  · exact h.outcomeState h.execMRackData
  · exact h.outcomeState h.execMRackPrepare
  · exact h.outcomeState h.execMRackReady
  · exact h.outcomeState h.execMRackAbort
  · exact h.outcomeState h.execMHomeChange
  · exact h.outcomeState h.execMHomeAck
  · exact h.outcomeState h.execMDirUpdate
  · exact h.outcomeState h.execMDirAck
  · exact h.outcomeState h.execMPublishFwd
  · exact h.outcomeState h.execMPublishAns
  · exact h.outcomeState h.execMEpochRelease
  · exact h.outcomeState h.execMLend
  · exact h.outcomeState h.execMLendAck
  · exact h.outcomeState h.execMRecall
  · exact h.outcomeState h.execMRecallAns
  · exact h.outcomeState h.execMT3Read
  · exact h.outcomeState h.execMT3Data
  · exact h.outcomeState h.execMT3Write
  · exact h

protected theorem Keeps.runMessages (h : Keeps s₀ s) : Keeps s₀ (runMessages s) := h.same.foldl fun k _ => k.runMessage

/-! ### LogBook -/

protected theorem Keeps.writeCopy {bank index bs good} (h : Keeps s₀ s) : Keeps s₀ (writeCopy s bank index bs good) := by
  fun_cases writeCopy s bank index bs good
  · exact h
  · exact h.same.ite h.same
  · exact (h.same.ite h.same).bumpFree.stampRaise

protected theorem Keeps.writeBoth {index bs ok0 ok1} (h : Keeps s₀ s) : Keeps s₀ (writeBoth s index bs ok0 ok1) := h.writeCopy.writeCopy

protected theorem Keeps.appendFirst {r ok0 ok1} (h : Keeps s₀ s) : Keeps s₀ (appendFirst s r ok0 ok1) := by
  fun_cases appendFirst s r ok0 ok1
  · exact h
  · exact h.same.writeBoth
  · exact h
  · exact h.same.stampRaise

protected theorem Keeps.reportDrops (h : Keeps s₀ s) : Keeps s₀ (reportDrops s) := by
  fun_cases reportDrops s
  · exact h
  · exact h.stamp.same.logNow

protected theorem Keeps.logAppend {ok0 ok1} (h : Keeps s₀ s) : Keeps s₀ (logAppend ok0 ok1 s) := by
  fun_cases logAppend ok0 ok1 s
  · exact h
  · exact h
  · exact h.same.writeBoth.appendFirst.reportDrops

protected theorem Keeps.execLogAppend {ok0 ok1} (h : Keeps s₀ s) : After s₀ (execLogAppend ok0 ok1 s) := h.logAppend.next

protected theorem Keeps.logSelect {v} (h : Keeps s₀ s) : Keeps s₀ (logSelect v s) := h.storeReg.same

protected theorem Keeps.execLogSelWrite {value role} (h : Keeps s₀ s) : After s₀ (execLogSelWrite value role s) :=
  (h.busWrite (fun k => k.logSelect)).next

protected theorem Keeps.ffClearStart {v} (h : Keeps s₀ s) : Keeps s₀ (ffClearStart v s) := h.storeReg.same

protected theorem Keeps.execFfClear {value role} (h : Keeps s₀ s) : After s₀ (execFfClear value role s) :=
  (h.busWrite (fun k => k.ffClearStart)).next

protected theorem Keeps.ffClearDone (h : Keeps s₀ s) : Keeps s₀ (ffClearDone s) := by
  fun_cases ffClearDone s
  · exact h
  · exact h.stamp.same.logNow

protected theorem Keeps.execFfClearDone (h : Keeps s₀ s) : After s₀ (execFfClearDone s) := h.ffClearDone.next

protected theorem Keeps.logbookRead {index bank} (h : Keeps s₀ s) : Keeps s₀ (logbookRead index bank s) := h.emit.same

protected theorem Keeps.execLogbookRead {index bank} (h : Keeps s₀ s) : After s₀ (execLogbookRead index bank s) := h.logbookRead.next

protected theorem Keeps.resumeGauger {warm} (h : Keeps s₀ s) : Keeps s₀ (resumeGauger s warm) := by
  unfold resumeGauger
  exact (h.reserveBlock fun hs => sequence_below_free_block hs (by omega)).stamp.logNow

/-! ### Resets -/

protected theorem Keeps.warmClear (h : Keeps s₀ s) : Keeps s₀ (warmClear s) :=
  h.trans
    { gyles := fun _ => List.nodup_nil
      handles := fun _ => rfl
      tuns := keysRise_mapTab
      cellar := fun _ => rfl
      borrowed := fun _ => rfl }

protected theorem Keeps.coldClear (h : Keeps s₀ s) : Keeps s₀ (coldClear s) :=
  h.trans
    { gyles := fun _ => List.nodup_nil
      handles := fun _ => rfl
      tuns := fun _ => rfl
      cellar := fun _ => rfl
      borrowed := fun _ => rfl }

protected theorem Keeps.requestCold {cause} (h : Keeps s₀ s) : Keeps s₀ (requestCold s cause) := h.same

protected theorem Keeps.requestWarm {cause} (h : Keeps s₀ s) : Keeps s₀ (requestWarm s cause) := by
  fun_cases requestWarm s cause
  · exact h
  · exact h.same

protected theorem Keeps.startFailed {code} (h : Keeps s₀ s) : Keeps s₀ (startFailed s code) := by
  unfold startFailed
  extract_lets _ s1 _
  have h1 : Keeps s₀ s1 := h.same
  exact h1.logNow.raise

protected theorem Keeps.levelSeven {id source first} (h : Keeps s₀ s) : Keeps s₀ (levelSeven s id source first) := h.enterLevel.requestWarm

protected theorem Keeps.startSeven {source} (h : Keeps s₀ s) : Keeps s₀ (startSeven s source) := by
  fun_cases startSeven s source
  · exact h.levelSeven
  · exact h
  · exact h.newFault.levelSeven

protected theorem Keeps.setPair {p st} (h : Keeps s₀ s) : Keeps s₀ (setPair s p st) := by
  fun_cases setPair s p st
  · exact h
  · exact h.same.raise

protected theorem Keeps.restartPair {p st} (h : Keeps s₀ s) : Keeps s₀ (restartPair s p st) := h.setPair.same

/-! ### Starts -/

protected theorem Keeps.applyMap (h : Keeps s₀ s) : Keeps s₀ (applyMap s) := h.same

protected theorem Keeps.compactMap (h : Keeps s₀ s) : Keeps s₀ (compactMap s) := by
  fun_cases compactMap s
  · exact h
  · exact h.same

protected theorem Keeps.logMapBad {i} (h : Keeps s₀ s) : Keeps s₀ (logMapBad s i) := h.logNow

protected theorem Keeps.readCopies {r} (h : Keeps s₀ s) : Keeps s₀ (readCopies s r) := by
  unfold readCopies
  extract_lets _ s1
  have h1 : Keeps s₀ s1 := h.same
  exact h1.foldl fun k _ => k.logMapBad

protected theorem Keeps.loadPairs (h : Keeps s₀ s) : Keeps s₀ (loadPairs s) := h.same

protected theorem Keeps.startTun {bad acc n} (h : Keeps s₀ acc.1) : Keeps s₀ (startTun s bad acc n).1 := by
  fun_cases startTun s bad acc n <;> exact h.setTun.setTunState

protected theorem Keeps.startTuns {bad} (h : Keeps s₀ s) : Keeps s₀ (startTuns s bad) :=
  (Keeps.foldl_fst (p := (s, 0)) h fun k _ => k.startTun).raise

protected theorem Keeps.startRegion {die region t} (h : Keeps s₀ s) (ht : startRegion s die region = some t) : Keeps s₀ t := by
  revert ht
  fun_cases startRegion s die region <;> rintro ⟨⟩
  · exact h
  · exact h.appendMap

protected theorem Keeps.startRow {die bank row t} (h : Keeps s₀ s) (ht : startRow s die bank row = some t) : Keeps s₀ t := by
  revert ht
  fun_cases startRow s die bank row
  · rintro ⟨⟩
    exact h
  · rintro ⟨⟩
    exact h.appendMap
  · exact h.startRegion

protected theorem Keeps.startCellar {rows regions t} (h : Keeps s₀ s) (ht : startCellar s rows regions = some t) : Keeps s₀ t := by
  obtain ⟨u, hu, rfl⟩ := Option.map_eq_some_iff.mp ht
  have h2 : Keeps s₀ u := .foldl_bind (.foldl_bind h.of_some fun k _ => k.startRow) (fun k _ => k.startRegion) hu
  exact h2.trans { cellar := fun _ => rfl }

protected theorem Keeps.beginMount (h : Keeps s₀ s) : Keeps s₀ (beginMount s) := by
  unfold beginMount
  extract_lets _ s1 _ s2
  have h1 : Keeps s₀ s1 := h.same
  have h2 : Keeps s₀ s2 := h1.same
  exact h2.setKilnPhase

protected theorem Keeps.lostAtMount (h : Keeps s₀ s) : Keeps s₀ (lostAtMount s) := by
  fun_cases lostAtMount s
  · exact h
  · exact h.same.logNow.raise

protected theorem Keeps.acceptDevices {r} (h : Keeps s₀ s) : Keeps s₀ (acceptDevices s r) :=
  ((h.foldl fun k _ => k.issueFlash).foldl fun k _ => k.appendMap).same

protected theorem Keeps.readMedium {r} (h : Keeps s₀ s) : Keeps s₀ (readMedium s r) := by
  unfold readMedium
  extract_lets _ _ _ _ s1
  have h1 : Keeps s₀ s1 := h.same
  exact h1.foldl fun k _ => k.startErase

protected theorem Keeps.mountKiln {r t} (h : Keeps s₀ s) (ht : mountKiln s r = some t) : Keeps s₀ t := by
  revert ht
  fun_cases mountKiln s r
  · rintro ⟨⟩
  case case2 s1 _ page data blank s2 s3 s4 =>
    rintro ⟨⟩
    have h1 : Keeps s₀ s1 := h.acceptDevices
    have h2 : Keeps s₀ s2 := h1.lostAtMount
    have h3 : Keeps s₀ s3 := h2.same
    exact h3.readMedium.setKilnPhase

protected theorem Keeps.rebuildDirectory {fresh} (h : Keeps s₀ s) : Keeps s₀ (rebuildDirectory s fresh) := h.same

protected theorem Keeps.becomeReady (h : Keeps s₀ s) : Keeps s₀ (becomeReady s) := by
  unfold becomeReady
  extract_lets _ s1 _ s2 _
  have h1 : Keeps s₀ s1 := h.same
  have h2 : Keeps s₀ s2 := by
    unfold s2
    split
    · exact h1
    · exact h1.same.leaveSingleHome
  exact h2.raise.endFault.pinAdmits.refreshHolds.seekKept

protected theorem Keeps.servePairs (h : Keeps s₀ s) : Keeps s₀ (servePairs s) := h.foldl fun k _ => k.setPair

protected theorem Keeps.logCounts {glob boundary keys p c} (h : Keeps s₀ s) :
    Keeps s₀ { s with glob, boundary, keys, log := { s.log with powerOnCount := p, crcFails := c } } :=
  h.same

protected theorem Keeps.coldStart (h : Keeps s₀ s) : Keeps s₀ (coldStart s) := by
  unfold coldStart
  split
  · exact h
  · extract_lets cause s1 _ _ _ _ s2
    have h1 : Keeps s₀ s1 := h.coldClear.capEvent
    clear_value s1
    have h2 : Keeps s₀ s2 := h1.logCounts
    exact h2.bumpFree.resumeGauger

protected theorem Keeps.execColdStart (h : Keeps s₀ s) : After s₀ (execColdStart s) := h.coldStart.next

protected theorem Keeps.toStep {n} (h : Keeps s₀ s) : Keeps s₀ (toStep s n) := h.same

protected theorem Keeps.enterSeven (h : Keeps s₀ s) : Keeps s₀ (enterSeven s) := by
  fun_cases enterSeven s
  · exact h.toStep.beginMount
  · exact h.toStep.same

protected theorem Keeps.coldStepDone {r} (h : Keeps s₀ s) : Keeps s₀ (coldStepDone s r) := by
  fun_cases coldStepDone s r
  · exact h.toStep
  · exact h.toStep
  · exact h.readCopies.loadPairs.compactMap.applyMap.servePairs.toStep
  · exact h.same.toStep
  · exact h.startTuns.toStep
  · exact (h.startCellar ‹_›).enterSeven
  · exact h.startFailed
  · exact (h.mountKiln ‹_›).toStep
  · exact h.startFailed
  · exact h.rebuildDirectory.toStep
  · exact h.becomeReady
  · exact h

protected theorem Keeps.startStepComplete {r} (h : Keeps s₀ s) : Keeps s₀ (startStepComplete r s) := by
  fun_cases startStepComplete r s
  · exact h
  · exact h.stamp.same.startFailed
  · exact h
  · exact h
  · exact h.stamp.coldStepDone

protected theorem Keeps.execStartStepComplete {result} (h : Keeps s₀ s) : After s₀ (execStartStepComplete result s) :=
  h.startStepComplete.next

protected theorem Keeps.execStartupTimeout (h : Keeps s₀ s) : After s₀ (execStartupTimeout s) := (h.stamp.startFailed.ite h).next

protected theorem Keeps.configDoneSet {v} (h : Keeps s₀ s) : Keeps s₀ (configDoneSet v s) := by
  fun_cases configDoneSet v s
  · exact h.storeReg.beginMount
  · exact h.storeReg

protected theorem Keeps.execConfigDoneWrite {value role} (h : Keeps s₀ s) : After s₀ (execConfigDoneWrite value role s) :=
  (h.busWrite (fun k => k.configDoneSet)).next

protected theorem Keeps.warmCtx {c} (h : Keeps s₀ s) : Keeps s₀ (warmCtx s c) := by
  fun_cases warmCtx s c
  · exact h
  · exact h.stamp.resetCtx

protected theorem Keeps.warmBegin {cause} (h : Keeps s₀ s) : Keeps s₀ (warmBegin s cause) := by
  unfold warmBegin
  extract_lets _ _ s1 _
  have h1 : Keeps s₀ s1 := h.same
  exact (h1.foldl fun k _ => k.warmCtx).foldl fun k _ => k.clearWork.releaseGyle

protected theorem Keeps.warmReset (h : Keeps s₀ s) : Keeps s₀ (warmReset s) := by
  fun_cases warmReset s
  · exact h
  · exact h
  · exact h.stamp.warmBegin

protected theorem Keeps.execWarmReset (h : Keeps s₀ s) : After s₀ (execWarmReset s) := h.warmReset.next

protected theorem Keeps.abortErases (h : Keeps s₀ s) : Keeps s₀ (abortErases s) := h.foldl fun k _ => k.issueFlash

protected theorem Keeps.closeWith {k} (h : Keeps s₀ s) : Keeps s₀ (closeWith s k) := by
  unfold closeWith
  split
  · exact h
  · extract_lets s1
    have h1 : Keeps s₀ s1 := h.foldl fun k _ => k.stamp.writeTensor
    exact (h1.ite h1.stamp.putRecord).markHeld

protected theorem Keeps.closeMoved (h : Keeps s₀ s) : Keeps s₀ (closeMoved s) := h.foldl fun k _ => k.backToT4

protected theorem Keeps.kilnClosed {p train} (h : Keeps s₀ s) :
    Keeps s₀ { s with train, kiln := { s.kiln with pending := p, ckptRunning := none, opened := false } } :=
  h.same

protected theorem Keeps.closeKiln (h : Keeps s₀ s) : Keeps s₀ (closeKiln s) := by
  unfold closeKiln
  extract_lets todo s1 _ s2 _ _ s3
  have h1 : Keeps s₀ s1 := (h.abortErases.closeMoved.foldl fun k _ => k.closeWith).stamp
  clear_value s1
  have h2 : Keeps s₀ s2 := h1.kilnPending.journalPut
  clear_value s2
  have h3 : Keeps s₀ s3 := h2.kilnClosed
  exact h3.setKilnPhase

protected theorem Keeps.toWarm {n} (h : Keeps s₀ s) : Keeps s₀ (toWarm s n) := h.same

protected theorem Keeps.warmClose (h : Keeps s₀ s) : Keeps s₀ (warmClose s) := by
  fun_cases warmClose s
  · exact h.closeKiln
  · exact h

protected theorem Keeps.warmStepComplete {r} (h : Keeps s₀ s) : Keeps s₀ (warmStepComplete r s) := by
  fun_cases warmStepComplete r s
  · exact h
  · exact h.stamp.toWarm
  · exact h
  · exact h.stamp.warmClose.warmClear.capEvent.resumeGauger.toWarm
  · exact h.stamp.readCopies.loadPairs.applyMap.servePairs.toWarm
  · exact h
  · exact h.stamp.startTuns.toWarm
  · exact (h.stamp.startCellar ‹_›).beginMount.toWarm
  · exact h
  · exact (h.stamp.mountKiln ‹_›).toWarm
  · exact h
  · exact h.stamp.rebuildDirectory.toWarm
  · exact h.stamp.becomeReady

protected theorem Keeps.execWarmStepComplete {result} (h : Keeps s₀ s) : After s₀ (execWarmStepComplete result s) := h.warmStepComplete.next

protected theorem Keeps.execBlockWarmResetCmd {role} (h : Keeps s₀ s) : After s₀ (execBlockWarmResetCmd role s) :=
  (h.busWrite (fun k => k.requestWarm)).next

protected theorem Keeps.execBlockColdResetCmd {role} (h : Keeps s₀ s) : After s₀ (execBlockColdResetCmd role s) :=
  (h.busWrite (fun k => k.requestCold)).next

protected theorem Keeps.execRstWarmRequest (h : Keeps s₀ s) : After s₀ (execRstWarmRequest s) := (h.ite h.stamp.requestWarm).next

protected theorem Keeps.pwrGoodRise (h : Keeps s₀ s) : Keeps s₀ (pwrGoodRise s) := by
  fun_cases pwrGoodRise s
  · exact h
  · exact h.same
  · exact h.same.requestCold

protected theorem Keeps.execPwrGoodRise (h : Keeps s₀ s) : After s₀ (execPwrGoodRise s) := h.pwrGoodRise.next

protected theorem Keeps.pwrGoodFall (h : Keeps s₀ s) : Keeps s₀ (pwrGoodFall s) := by
  unfold pwrGoodFall
  split
  · exact h
  · exact h.coldClear.capEvent.same

protected theorem Keeps.execPwrGoodFall (h : Keeps s₀ s) : After s₀ (execPwrGoodFall s) := h.pwrGoodFall.next

protected theorem Keeps.rstColdAssert (h : Keeps s₀ s) : Keeps s₀ (rstColdAssert s) := by
  unfold rstColdAssert
  split
  · exact h
  · exact h.coldClear.capEvent.same

protected theorem Keeps.execRstColdAssert (h : Keeps s₀ s) : After s₀ (execRstColdAssert s) := h.rstColdAssert.next

protected theorem Keeps.rstColdRelease (h : Keeps s₀ s) : Keeps s₀ (rstColdRelease s) := by
  fun_cases rstColdRelease s
  · exact h
  · exact h.same.requestCold
  · exact h.same

protected theorem Keeps.execRstColdRelease (h : Keeps s₀ s) : After s₀ (execRstColdRelease s) := h.rstColdRelease.next

/-! ### Upkeep -/

protected theorem Keeps.resetAndTest {t step} (h : Keeps s₀ s) : Keeps s₀ (resetAndTest s t step) := by
  unfold resetAndTest
  extract_lets
  exact h.setTunState.stamp.setTunState.modTun

protected theorem Keeps.execTunReadmit {t role} (h : Keeps s₀ s) : After s₀ (execTunReadmit t role s) :=
  (h.busWrite (fun k => k.resetAndTest)).next

protected theorem Keeps.spareLanes {t bad pairs} (h : Keeps s₀ s) : Keeps s₀ (spareLanes s t bad pairs) :=
  (h.foldl fun k _ => k.appendMap).foldl fun k _ => k.appendMap

protected theorem Keeps.stayFenced {t} (h : Keeps s₀ s) : Keeps s₀ (stayFenced s t) := h.modTun.setTunState

protected theorem Keeps.retireTun {t} (h : Keeps s₀ s) : Keeps s₀ (retireTun s t) := h.appendMap.stayFenced

protected theorem Keeps.passTun {t} (h : Keeps s₀ s) : Keeps s₀ (passTun s t) := by
  fun_cases passTun s t
  · exact h.modTun.enterSpare
  · exact h.modTun.enterSpare.raise

protected theorem Keeps.diagnose {t found} (h : Keeps s₀ s) : Keeps s₀ (diagnose s t found) := by
  fun_cases diagnose s t found
  · exact h.stayFenced
  · exact h.retireTun
  · exact h.passTun
  · exact h.spareLanes.resetAndTest

protected theorem Keeps.bistDone {t found} (h : Keeps s₀ s) : Keeps s₀ (bistDone t found s) := by
  fun_cases bistDone t found s
  · exact h
  · exact h.stamp.passTun
  · exact h.stamp.fenceTun
  · exact h.stamp.diagnose
  · exact h.stamp.passTun
  · exact h.stamp.stayFenced

protected theorem Keeps.execTunBistDone {t found} (h : Keeps s₀ s) : After s₀ (execTunBistDone t found s) := h.bistDone.next

protected theorem Keeps.beginRemap {die region fault} (h : Keeps s₀ s) : Keeps s₀ (beginRemap s die region fault) := by
  fun_cases beginRemap s die region fault
  · exact h.same
  · exact h.same
  · exact h

protected theorem Keeps.nextRemap (h : Keeps s₀ s) : Keeps s₀ (nextRemap s) := by
  fun_cases nextRemap s
  · exact h
  · exact h
  · exact h.same.beginRemap

protected theorem Keeps.levelFive {die region source} (h : Keeps s₀ s) : Keeps s₀ (levelFive s die region source) := by
  fun_cases levelFive s die region source
  · exact h
  · exact h.startFault.levelSeven
  · exact h.startFault.beginRemap

protected theorem Keeps.execRepairRemap {die region role} (h : Keeps s₀ s) : After s₀ (execRepairRemap die region role s) :=
  (h.busWrite (fun k => k.storeReg.beginRemap)).next

protected theorem Keeps.remapOver {r} (h : Keeps s₀ s) : Keeps s₀ (remapOver s r) := by
  unfold remapOver
  extract_lets _ _ _ s1
  have h1 : Keeps s₀ s1 := h.leaveRegion.same
  exact h1.endFault.nextRemap

protected theorem Keeps.remapStep {found} (h : Keeps s₀ s) : Keeps s₀ (remapStep found s) := by
  fun_cases remapStep found s
  · exact h
  · exact h
  · exact h.stamp.same.same.enterRegion.same.ite h.stamp.same.same.enterRegion
  · exact h.stamp.same.quietRegion.same.ite h.stamp.same.quietRegion
  · exact h.stamp.same.copyRegion.same.ite h.stamp.same.copyRegion
  · exact h.stamp.same.refillRegion.replaySlices.appendMap.same.ite h.stamp.same.refillRegion.replaySlices.appendMap
  · exact h.stamp.remapOver
  · exact h.stamp.same.same.ite h.stamp.same

protected theorem Keeps.execRegionRemapStepDone {found} (h : Keeps s₀ s) : After s₀ (execRegionRemapStepDone found s) := h.remapStep.next

protected theorem Keeps.modFw {f} (h : Keeps s₀ s) : Keeps s₀ (modFw s f) := h.same

protected theorem Keeps.updateRestart {p version} (h : Keeps s₀ s) : Keeps s₀ (updateRestart s p version) := h.modFw.restartPair.logNow

protected theorem Keeps.endActivation {status} (h : Keeps s₀ s) : Keeps s₀ (endActivation s status) := h.modFw

protected theorem Keeps.commitFirmware (h : Keeps s₀ s) : Keeps s₀ (commitFirmware s) := h.appendMap.modFw.endActivation.raise

protected theorem Keeps.nextFw (h : Keeps s₀ s) : Keeps s₀ (nextFw s) := by
  fun_cases nextFw s
  · exact h
  · exact h.endActivation
  · exact h.endActivation
  · exact h.modFw.updateRestart
  · exact h.commitFirmware
  · exact h.modFw.updateRestart

protected theorem Keeps.pairBack {p} (h : Keeps s₀ s) : Keeps s₀ (pairBack s p) := by
  fun_cases pairBack s p
  · exact h.nextRemap
  · exact h.runMessages
  · exact h

protected theorem Keeps.levelSix {p source} (h : Keeps s₀ s) : Keeps s₀ (levelSix s p source) := by
  fun_cases levelSix s p source
  · exact h
  · exact (h.startFault.modFw.ite h.startFault).restartPair

protected theorem Keeps.pairRestartDone {p passed} (h : Keeps s₀ s) : Keeps s₀ (pairRestartDone p passed s) := by
  fun_cases pairRestartDone p passed s
  · exact h
  · exact h.stamp.setPair.endFault.pairBack.nextFw
  · exact h
  · exact h.stamp.modFw.setPair.pairBack.nextFw
  · exact h.stamp.modFw.updateRestart
  · exact h

protected theorem Keeps.execPairRestartDone {pair passed} (h : Keeps s₀ s) : After s₀ (execPairRestartDone pair passed s) :=
  h.pairRestartDone.next

protected theorem Keeps.fwStageStart {bytes} (h : Keeps s₀ s) : Keeps s₀ (fwStageStart bytes s) := h.storeReg.modFw

protected theorem Keeps.execFwStage {bytes role} (h : Keeps s₀ s) : After s₀ (execFwStage bytes role s) :=
  (h.busWrite (fun k => k.fwStageStart)).next

protected theorem Keeps.fwStageDone {i} (h : Keeps s₀ s) : Keeps s₀ (fwStageDone i s) := by
  fun_cases fwStageDone i s
  · exact h
  · exact h.stamp.modFw

protected theorem Keeps.execFwStageDone {image} (h : Keeps s₀ s) : After s₀ (execFwStageDone image s) := h.fwStageDone.next

protected theorem Keeps.fwActivateStart {bytes} (h : Keeps s₀ s) : Keeps s₀ (fwActivateStart bytes s) := h.storeReg.modFw.nextFw

protected theorem Keeps.execFwActivate {bytes role} (h : Keeps s₀ s) : After s₀ (execFwActivate bytes role s) :=
  (h.busWrite (fun k => k.fwActivateStart)).next

protected theorem Keeps.ageLimit {g} (h : Keeps s₀ s) : Keeps s₀ (ageLimit s g) := by
  fun_cases ageLimit s g
  · exact h.raise.fenceTun.appendMap
  · exact h
  · exact h.same.raise

protected theorem Keeps.ageMeasure {g margin} (h : Keeps s₀ s) : Keeps s₀ (ageMeasure g margin s) := by
  fun_cases ageMeasure g margin s
  · exact h
  · exact h.stamp.same
  · exact h.stamp.same.ageLimit
  · exact h.stamp.same.appendMap.same

protected theorem Keeps.execAgeMonitorMeasure {group margin} (h : Keeps s₀ s) : After s₀ (execAgeMonitorMeasure group margin s) :=
  h.ageMeasure.next

/-! ### Integrity -/

protected theorem Keeps.levelFourAll {cs id source first} (h : Keeps s₀ s) : Keeps s₀ (levelFourAll s cs id source first) :=
  h.foldl fun k _ => k.levelFour

protected theorem Keeps.portWatchdog {p again} (h : Keeps s₀ s) : Keeps s₀ (portWatchdog s p again) := by
  unfold portWatchdog
  extract_lets _ _ _ _ s1
  have h1 : Keeps s₀ s1 := by
    unfold s1
    split
    · exact h.startFault.levelFourAll
    · exact h.startFault.foldl fun k _ => k.rerunNow
  exact h1.endFault

protected theorem Keeps.memWatchdog {p} (h : Keeps s₀ s) : Keeps s₀ (memWatchdog s p) := by
  fun_cases memWatchdog s p
  · exact h
  · exact h.stamp.startFault.dropReq.same.issueReq.endPortFault
  · exact h.stamp.startFault.dropReq.dropXfer.levelFourAll.endPortFault.retryWaiting

protected theorem Keeps.cellarWatchdog {die regions again} (h : Keeps s₀ s) : Keeps s₀ (cellarWatchdog s die regions again) := by
  fun_cases cellarWatchdog s die regions again
  · exact h.startSeven
  · exact h.foldl fun k _ => k.levelFive

protected theorem Keeps.tunFails {t source readable} (h : Keeps s₀ s) : Keeps s₀ (tunFails s t source readable) := by
  fun_cases tunFails s t source readable
  · exact h
  · exact h.stamp.fenceTun
  · exact (h.stamp.startFault.foldl fun k _ => k.rerunNow).fenceTun

protected theorem Keeps.portWordLost {p c num} (h : Keeps s₀ s) : Keeps s₀ (portWordLost s p c num) := h.stamp.startFault.rerunNow.endFault

protected theorem Keeps.gristWordLost (h : Keeps s₀ s) : Keeps s₀ (gristWordLost s) := h.stamp.startFault.endFault

protected theorem Keeps.stampRefused (h : Keeps s₀ s) : Keeps s₀ (stampRefused s) := by
  fun_cases stampRefused s
  · exact h.same.stamp.startFailed
  · exact h.same.startSeven
  · exact h.same

protected theorem Keeps.countSram {corrected} (h : Keeps s₀ s) : Keeps s₀ (countSram s corrected) := by
  fun_cases countSram s corrected <;> exact h.same

protected theorem Keeps.watchdogFire {group again} (h : Keeps s₀ s) : Keeps s₀ (watchdogFire group again s) := by
  fun_cases watchdogFire group again s
  · exact h.stampRefused
  · exact h
  · exact h.tunFails
  · exact h.stamp.portWatchdog
  · exact h.memWatchdog
  · exact h.deviceTimeout
  · exact h.stamp.cellarWatchdog
  · exact h.stamp.startSeven
  · exact h.stamp.startSeven
  · exact h.stamp.startSeven
  · exact h.stamp.levelSix
  · exact h.stamp.levelSix
  · exact h
  · exact h.stamp.countSram
  · exact h.countSram.tunFails
  · exact h.countSram.portWordLost
  · exact h.countSram.gristWordLost
  · exact h.countSram.stamp.levelSix

protected theorem Keeps.execWatchdogFire {group again} (h : Keeps s₀ s) : After s₀ (execWatchdogFire group again s) := h.watchdogFire.next

protected theorem Keeps.escalateTwo {f} (h : Keeps s₀ s) : Keeps s₀ (escalateTwo s f) := by
  fun_cases escalateTwo s f
  · exact h
  · exact h.stamp.fenceTun
  · exact h.stamp.enterLevel.fenceTun

protected theorem Keeps.escalateThree {f} (h : Keeps s₀ s) : Keeps s₀ (escalateThree s f) := by
  fun_cases escalateThree s f
  · exact h
  · exact h.stamp.levelFourAll.replayDone

protected theorem Keeps.stopBlock (h : Keeps s₀ s) : Keeps s₀ (stopBlock s) := by
  fun_cases stopBlock s
  · exact h
  · exact (h.stamp.same.foldl fun k _ => k.setPair).raise

protected theorem Keeps.budgetExpiry {id} (h : Keeps s₀ s) : Keeps s₀ (budgetExpiry id s) := by
  fun_cases budgetExpiry id s
  · exact h.stopBlock
  · exact h.startSeven
  · exact h
  · exact h
  · exact h
  · exact h.stamp.levelSeven
  · exact h.escalateTwo
  · exact h.escalateThree
  · exact h
  · exact h.stamp.levelSeven
  · exact h
  · exact h.stamp.levelSeven
  · exact h
  · exact h.stamp.levelSeven
  · exact h.stopBlock
  · exact h

protected theorem Keeps.execBudgetExpiry {fault} (h : Keeps s₀ s) : After s₀ (execBudgetExpiry fault s) := h.budgetExpiry.next

protected theorem Keeps.nextScrub (h : Keeps s₀ s) : Keeps s₀ (nextScrub s) := h.same

protected theorem Keeps.spareRow {die bank row} (h : Keeps s₀ s) : Keeps s₀ (spareRow s die bank row) := by
  fun_cases spareRow s die bank row
  · exact h.same.appendMap
  · exact h.same.logNow.levelFive

protected theorem Keeps.correctWord {addr} (h : Keeps s₀ s) : Keeps s₀ (correctWord s addr) := by
  fun_cases correctWord s addr
  · exact h.same.spareRow
  · exact h.same

protected theorem Keeps.uncorrectableWord {addr place} (h : Keeps s₀ s) : Keeps s₀ (uncorrectableWord s addr place) := by
  fun_cases uncorrectableWord s addr place
  · exact h.same.logNow.losePlace.levelFive
  · exact h.same.logNow.losePlace

protected theorem Keeps.meetErrors {errors event} (hevent : ∀ {t}, Keeps s₀ t → Keeps s₀ (event t)) (h : Keeps s₀ s) :
    Keeps s₀ (meetErrors errors event s) := by
  fun_cases meetErrors errors event s
  · exact hevent h
  · exact hevent (h.stamp.foldl fun k _ => k.correctWord)
  · exact (h.stamp.foldl fun k _ => k.correctWord).foldl fun k _ => k.uncorrectableWord

protected theorem Keeps.execCommitRun {c gyle} (h : Keeps s₀ s) : After s₀ (execCommitRun c gyle s) :=
  (h.meetErrors (fun k => k.commitRun)).next

protected theorem Keeps.execLazyWriteback {toKiln} (h : Keeps s₀ s) : After s₀ (execLazyWriteback toKiln s) :=
  (h.meetErrors (fun k => k.lazyWriteback)).next

protected theorem Keeps.execEvictionWritebackDone {cask} (h : Keeps s₀ s) : After s₀ (execEvictionWritebackDone cask s) :=
  (h.meetErrors (fun k => k.evictionDone)).next

protected theorem Keeps.scrubRead {place result} (h : Keeps s₀ s) : Keeps s₀ (scrubRead place result s) := by
  fun_cases scrubRead place result s
  · exact h
  · exact h.nextScrub
  · exact h.stamp.correctWord.nextScrub
  · exact h.stamp.uncorrectableWord.nextScrub

protected theorem Keeps.execScrubRead {place result} (h : Keeps s₀ s) : After s₀ (execScrubRead place result s) := h.scrubRead.next

protected theorem Keeps.tileReadyEvent {t x read} (h : Keeps s₀ s) : Keeps s₀ (tileReadyEvent t x read s) := by
  fun_cases tileReadyEvent t x read s
  · exact h
  · exact h
  · exact (h.stamp.foldl fun k _ => k.correctWord).tileArrived
  · exact (h.stamp.foldl fun k _ => k.correctWord).slotDelivered.modTun.foldl fun k _ => k.uncorrectableWord

protected theorem Keeps.execTileReady {t half read} (h : Keeps s₀ s) : After s₀ (execTileReady t half read s) := h.tileReadyEvent.next

protected theorem Keeps.nextSlot (h : Keeps s₀ s) : Keeps s₀ (nextSlot s) := by
  fun_cases nextSlot s <;> exact h.same

protected theorem Keeps.leaveUntested {t} (h : Keeps s₀ s) : Keeps s₀ (leaveUntested s t) := by
  fun_cases leaveUntested s t
  · exact h.modTun.raise
  · exact h.modTun

protected theorem Keeps.handOverSlot {t p l} (h : Keeps s₀ s) : Keeps s₀ (handOverSlot s t p l) := h.setTun.setTunState.giveOps.testWhenIdle

protected theorem Keeps.slotTun {t} (h : Keeps s₀ s) : Keeps s₀ (slotTun s t) := by
  fun_cases slotTun s t
  · exact h.modTun.setTunState
  · exact h
  · exact h.handOverSlot
  · exact h.leaveUntested
  · exact h.leaveUntested
  · exact h

protected theorem Keeps.finishSlot (h : Keeps s₀ s) : Keeps s₀ (finishSlot s) := by
  unfold finishSlot
  cases s.integrity.selftestTun with
  | none => exact h
  | some n => exact h.testWhenIdle

protected theorem Keeps.selftestSlot (h : Keeps s₀ s) : Keeps s₀ (selftestSlot s) := by
  fun_cases selftestSlot s
  · exact h
  · exact h.stamp.finishSlot.nextSlot.slotTun
  · exact h.stamp.finishSlot.nextSlot

protected theorem Keeps.execSelftestSlot (h : Keeps s₀ s) : After s₀ (execSelftestSlot s) := h.selftestSlot.next

/-! ### Pace -/

protected theorem Keeps.powerCapSet {v} (h : Keeps s₀ s) : Keeps s₀ (powerCapSet v s) := h.storeReg.capEvent

protected theorem Keeps.execPowerCapWrite {value role} (h : Keeps s₀ s) : After s₀ (execPowerCapWrite value role s) :=
  (h.busWrite (fun k => k.powerCapSet)).next

protected theorem Keeps.capUnmet (h : Keeps s₀ s) : Keeps s₀ (capUnmet s) := h.same.raise

protected theorem Keeps.portCapChange {w} (h : Keeps s₀ s) : Keeps s₀ (portCapChange w s) := by
  unfold portCapChange
  extract_lets _ _ s1
  have h1 : Keeps s₀ s1 := h.stamp.same
  exact (h1.capUnmet.ite h1).capEvent

protected theorem Keeps.execPortCapChange {watts} (h : Keeps s₀ s) : After s₀ (execPortCapChange watts s) :=
  (h.ite h.portCapChange).next

protected theorem Keeps.execDerateChange {asserted} (h : Keeps s₀ s) : After s₀ (execDerateChange asserted s) :=
  (h.ite h.stamp.same.capEvent).next

protected theorem Keeps.telemetry {x} (h : Keeps s₀ s) : Keeps s₀ (telemetry x s) := h.stamp.same.setGate

protected theorem Keeps.execTelemetrySample {sample} (h : Keeps s₀ s) : After s₀ (execTelemetrySample sample s) :=
  (h.telemetry.ite h).next

protected theorem Keeps.windowEnd {avg settled} (h : Keeps s₀ s) : Keeps s₀ (windowEnd avg settled s) := by
  fun_cases windowEnd avg settled s
  · exact h.stamp.same.capUnmet
  · exact h.stamp.same

protected theorem Keeps.execCapWindowEnd {averageDw settled} (h : Keeps s₀ s) : After s₀ (execCapWindowEnd averageDw settled s) :=
  h.windowEnd.next

protected theorem Keeps.sense {tj warn} (h : Keeps s₀ s) : Keeps s₀ (sense s tj warn) := h.same

protected theorem Keeps.thermStart {tj warn} (h : Keeps s₀ s) : Keeps s₀ (thermStart tj warn s) := h.stamp.sense.same.capEvent

protected theorem Keeps.execThermalCapStart {tj chipWarn} (h : Keeps s₀ s) : After s₀ (execThermalCapStart tj chipWarn s) :=
  (Keeps.ite h (h.sense.ite h.thermStart)).next

protected theorem Keeps.thermStep {tj warn} (h : Keeps s₀ s) : Keeps s₀ (thermStep tj warn s) := h.stamp.sense.same.capEvent

protected theorem Keeps.execThermalCapStep {tj chipWarn} (h : Keeps s₀ s) : After s₀ (execThermalCapStep tj chipWarn s) :=
  (h.thermStep.ite h).next

protected theorem Keeps.thermHalt {sensor tj} (h : Keeps s₀ s) : Keeps s₀ (thermHalt sensor tj s) := h.stamp.sense.same.raise.settleBlocked

protected theorem Keeps.execThermHalt {sensor tj} (h : Keeps s₀ s) : After s₀ (execThermHalt sensor tj s) := (h.ite h.thermHalt).next

protected theorem Keeps.thermResume {tj} (h : Keeps s₀ s) : Keeps s₀ (thermResume tj s) := h.stamp.sense.same.raise

protected theorem Keeps.execThermResumed {tj} (h : Keeps s₀ s) : After s₀ (execThermResumed tj s) := (h.ite h.thermResume).next

protected theorem Keeps.setSag {i x} (h : Keeps s₀ s) : Keeps s₀ (setSag s i x) := h.same

protected theorem Keeps.sagRise {i tenth} (h : Keeps s₀ s) : Keeps s₀ (sagRise i tenth s) := h.stamp.setSag

protected theorem Keeps.execSagRise {sensor tenthPercent} (h : Keeps s₀ s) : After s₀ (execSagRise sensor tenthPercent s) :=
  (h.ite h.sagRise).next

protected theorem Keeps.sagDown {i} (h : Keeps s₀ s) : Keeps s₀ (sagDown i s) := h.stamp.setSag

protected theorem Keeps.execSagStepDown {sensor} (h : Keeps s₀ s) : After s₀ (execSagStepDown sensor s) := (h.ite h.sagDown).next

protected theorem Keeps.sagLasts {i} (h : Keeps s₀ s) : Keeps s₀ (sagLasts i s) := h.stampRaise.setSag.logNow

protected theorem Keeps.execSagPersist {sensor} (h : Keeps s₀ s) : After s₀ (execSagPersist sensor s) := (h.ite h.sagLasts).next

protected theorem Keeps.endGyle {g} (h : Keeps s₀ s) : Keeps s₀ (endGyle s g) := by
  fun_cases endGyle s g
  · exact h.clearWork.releaseGyle
  · exact h.tearGyle.dropXfers.stamp.postRecord.afterCmd
  · exact h.tearGyle.dropXfers

protected theorem Keeps.endGyles {p} (h : Keeps s₀ s) : Keeps s₀ (endGyles s p) := h.foldl fun k _ => k.endGyle

protected theorem Keeps.pfwHalt (h : Keeps s₀ s) : Keeps s₀ (pfwHalt s) := h.same.endGyles

protected theorem Keeps.dropCommit {x} (h : Keeps s₀ s) : Keeps s₀ (dropCommit s x) := by
  fun_cases dropCommit s x
  · exact h.dropCmd.stamp.completeLater
  · exact h

protected theorem Keeps.pfwRow {x key} (h : Keeps s₀ s) : Keeps s₀ (pfwRow x s key) := by
  fun_cases pfwRow x s key
  · exact h
  · exact h.secondChoice
  · exact h

protected theorem Keeps.pfwLate (h : Keeps s₀ s) : Keeps s₀ (pfwLate s) := h.foldl fun k _ => k.foldl fun k2 _ => k2.pfwRow

protected theorem Keeps.pfwStart (h : Keeps s₀ s) : Keeps s₀ (pfwStart s) := by
  fun_cases pfwStart s
  case case1 s1 _ s2 _ _ _ =>
    have h1 : Keeps s₀ s1 := h.stampRaise.same
    have h2 : Keeps s₀ s2 := by
      unfold s2
      split
      · exact Keeps.ite (h1.foldl fun k _ => k.dropCommit).cancelRack (h1.foldl fun k _ => k.dropCommit)
      · exact h1.foldl fun k _ => k.dropCommit
    exact h2.pfwLate.endGyles.pfwHalt
  case case2 s1 _ s2 _ _ _ =>
    have h1 : Keeps s₀ s1 := h.stampRaise.same
    have h2 : Keeps s₀ s2 := by
      unfold s2
      split
      · exact Keeps.ite (h1.foldl fun k _ => k.dropCommit).cancelRack (h1.foldl fun k _ => k.dropCommit)
      · exact h1.foldl fun k _ => k.dropCommit
    exact h2.pfwLate.endGyles

protected theorem Keeps.execPfwAssert (h : Keeps s₀ s) : After s₀ (execPfwAssert s) := (Keeps.ite h (h.same.ite h.pfwStart)).next

protected theorem Keeps.execPfwSettleExpiry (h : Keeps s₀ s) : After s₀ (execPfwSettleExpiry s) := (h.stamp.pfwHalt.ite h).next

protected theorem Keeps.pfwClose (h : Keeps s₀ s) : Keeps s₀ (pfwClose s) := by
  fun_cases pfwClose s
  · exact (h.stamp.closeKiln.ite h.stamp).same.askVoltage
  · exact (h.stamp.closeKiln.ite h.stamp).same.askVoltage.raise

protected theorem Keeps.execPfwWritebackDone (h : Keeps s₀ s) : After s₀ (execPfwWritebackDone s) := (h.pfwClose.ite h).next

protected theorem Keeps.pfwWithdrawn (h : Keeps s₀ s) : Keeps s₀ (pfwWithdrawn s) := by
  fun_cases pfwWithdrawn s
  · exact h.stamp.same.raise
  · exact h.stamp.same

protected theorem Keeps.execPfwCleared (h : Keeps s₀ s) : After s₀ (execPfwCleared s) := (h.pfwWithdrawn.ite h).next

/-! ### Keys -/

protected theorem Keeps.tenantLoadEffect {t} (h : Keeps s₀ s) : Keeps s₀ (tenantLoadEffect t s) := h.same

protected theorem Keeps.tenantSelWrite {v role} (h : Keeps s₀ s) : Keeps s₀ (tenantSelWrite v role s) := by
  fun_cases tenantSelWrite v role s
  · exact h.storeReg.tenantLoadEffect
  · exact h.storeReg.tenantStore
  · exact h.storeReg

protected theorem Keeps.tenantDataWrite {v} (h : Keeps s₀ s) : Keeps s₀ (tenantDataWrite v s) := h.same

protected theorem Keeps.execTenantLoad {tenant word role} (h : Keeps s₀ s) : After s₀ (execTenantLoad tenant word role s) :=
  (h.busWrite (fun k => k.tenantSelWrite)).next

protected theorem Keeps.execTenantStore {tenant word role} (h : Keeps s₀ s) : After s₀ (execTenantStore tenant word role s) :=
  (h.busWrite (fun k => k.tenantSelWrite)).next

protected theorem Keeps.saltStore {v} (h : Keeps s₀ s) : Keeps s₀ (saltStore v s) := h.same

protected theorem Keeps.execSaltHiWrite {value role} (h : Keeps s₀ s) : After s₀ (execSaltHiWrite value role s) :=
  (h.busWrite (fun k => k.saltStore)).next

protected theorem Keeps.saltLoStore {v} (h : Keeps s₀ s) : Keeps s₀ (saltLoStore v s) := h.same

protected theorem Keeps.keyInStore {n v} (h : Keeps s₀ s) : Keeps s₀ (keyInStore n v s) := h.same

protected theorem Keeps.keyCmdWrite {v} (h : Keeps s₀ s) : Keeps s₀ (keyCmdWrite v s) := by
  fun_cases keyCmdWrite v s
  · exact h.storeReg
  · exact h.storeReg.same
  · exact h.storeReg.same

protected theorem Keeps.keyCmd {v role} (h : Keeps s₀ s) : Keeps s₀ (keyCmd v role s) := by
  fun_cases keyCmd v role s
  · exact h
  · exact (Keeps.ite (h.busWrite (fun k => k.keyCmdWrite)).same (h.busWrite (fun k => k.keyCmdWrite))).same
  · exact Keeps.ite (h.busWrite (fun k => k.keyCmdWrite)).same (h.busWrite (fun k => k.keyCmdWrite))

protected theorem Keeps.execKeyLoadSlot {peer receive role} (h : Keeps s₀ s) : After s₀ (execKeyLoadSlot peer receive role s) :=
  h.keyCmd.next

protected theorem Keeps.execKeyRotate {tenant role} (h : Keeps s₀ s) : After s₀ (execKeyRotate tenant role s) := h.keyCmd.next

protected theorem Keeps.execKeyRenewLoadPair {role} (h : Keeps s₀ s) : After s₀ (execKeyRenewLoadPair role s) := h.keyCmd.next

protected theorem Keeps.keyDone (h : Keeps s₀ s) : Keeps s₀ (keyDone s) := by
  fun_cases keyDone s
  · exact h.stamp.same.raise
  · exact h.stamp.same.raise
  · exact h

protected theorem Keeps.execKeyDone (h : Keeps s₀ s) : After s₀ (execKeyDone s) := h.keyDone.next

/-! ### Boundary -/

protected theorem Keeps.timerRecal (h : Keeps s₀ s) : Keeps s₀ (timerRecal s) := by
  fun_cases timerRecal s
  · exact h.stamp.same.bumpFree.logNow.raise
  · exact h.stamp.same.bumpFree

protected theorem Keeps.execTimerRecal (h : Keeps s₀ s) : After s₀ (execTimerRecal s) := (h.timerRecal.ite h).next

protected theorem Keeps.calLost (h : Keeps s₀ s) : Keeps s₀ (calLost s) := by
  unfold calLost
  extract_lets _ _ s1
  have h1 : Keeps s₀ s1 := h.stamp.same
  exact h1.logNow.raise

protected theorem Keeps.execCalLost (h : Keeps s₀ s) : After s₀ (execCalLost s) := (h.ite h.calLost).next

protected theorem Keeps.setDomain {d ok} (h : Keeps s₀ s) : Keeps s₀ (setDomain s d ok) := h.same

protected theorem Keeps.domainEffects {d} (h : Keeps s₀ s) : Keeps s₀ (domainEffects d s) := by
  fun_cases domainEffects d s
  · exact h.same
  · exact h.foldl fun k _ => k.peerDown
  · exact h

protected theorem Keeps.domainLost {d} (h : Keeps s₀ s) : Keeps s₀ (domainLost d s) := by
  unfold domainLost
  extract_lets _ _ s1
  have h1 : Keeps s₀ s1 := h.stamp.setDomain.same
  exact h1.raise.domainEffects

protected theorem Keeps.execDomainLost {d} (h : Keeps s₀ s) : After s₀ (execDomainLost d s) := (h.domainLost.ite h).next

protected theorem Keeps.domainRegained {d} (h : Keeps s₀ s) : Keeps s₀ (domainRegained d s) := by
  fun_cases domainRegained d s
  · exact h.stamp.setDomain.raise.same
  · exact h.stamp.setDomain.raise.retryWaiting
  · exact h.stamp.setDomain.raise

protected theorem Keeps.execDomainRegained {d} (h : Keeps s₀ s) : After s₀ (execDomainRegained d s) := (h.ite h.domainRegained).next

/-! ### Rings -/

protected theorem Keeps.doorbellEffect {c v} (h : Keeps s₀ s) : Keeps s₀ (doorbellEffect c v s) := h.modCtx.pump

protected theorem Keeps.cqHeadEffect {c v} (h : Keeps s₀ s) : Keeps s₀ (cqHeadEffect c v s) := h.modCtx.pump

protected theorem Keeps.execDoorbell {c value role} (h : Keeps s₀ s) : After s₀ (execDoorbell c value role s) :=
  (h.busWrite (fun k => k.doorbellEffect)).next

protected theorem Keeps.execCqHeadWrite {c value role} (h : Keeps s₀ s) : After s₀ (execCqHeadWrite c value role s) :=
  (h.busWrite (fun k => k.cqHeadEffect)).next

protected theorem Keeps.ctxEnableEffect {c} (h : Keeps s₀ s) : Keeps s₀ (ctxEnableEffect c s) := h.setCtxState

protected theorem Keeps.execCtxEnable {c role} (h : Keeps s₀ s) : After s₀ (execCtxEnable c role s) :=
  (h.busWrite (fun k => k.ctxEnableEffect)).next

protected theorem Keeps.ringConfigEffect {c off v} (h : Keeps s₀ s) : Keeps s₀ (ringConfigEffect c off v s) := h.storeReg.modCtx

protected theorem Keeps.execRingConfigWrite {c offset value role} (h : Keeps s₀ s) : After s₀ (execRingConfigWrite c offset value role s) :=
  (Keeps.ite (h.busWrite (fun k => k.ringConfigEffect)) h).next

protected theorem Keeps.tenantBindEffect {c v} (h : Keeps s₀ s) : Keeps s₀ (tenantBindEffect c v s) := h.modCtx

protected theorem Keeps.execTenantBindChange {c value role} (h : Keeps s₀ s) : After s₀ (execTenantBindChange c value role s) :=
  (h.busWrite (fun k => k.tenantBindEffect)).next

protected theorem Keeps.ctxRoleEffect {c v} (h : Keeps s₀ s) : Keeps s₀ (ctxRoleEffect c v s) := h.same

protected theorem Keeps.eventAckEffect {page v} (h : Keeps s₀ s) : Keeps s₀ (eventAckEffect page v s) := h.same

protected theorem Keeps.execEventAckWrite {page value role} (h : Keeps s₀ s) : After s₀ (execEventAckWrite page value role s) :=
  (h.busWrite (fun k => k.eventAckEffect)).next

protected theorem Keeps.eventMaskEffect {page v} (h : Keeps s₀ s) : Keeps s₀ (eventMaskEffect page v s) := h.same

protected theorem Keeps.execEventMaskWrite {page value role} (h : Keeps s₀ s) : After s₀ (execEventMaskWrite page value role s) :=
  (h.busWrite (fun k => k.eventMaskEffect)).next

protected theorem Keeps.irqHoldoffEnd {c} (h : Keeps s₀ s) : Keeps s₀ (irqHoldoffEnd c s) := by
  fun_cases irqHoldoffEnd c s
  · exact h.stamp.same
  · exact h

protected theorem Keeps.execIrqHoldoffExpiry {c} (h : Keeps s₀ s) : After s₀ (execIrqHoldoffExpiry c s) := h.irqHoldoffEnd.next

protected theorem Keeps.globalHoldoffEnd (h : Keeps s₀ s) : Keeps s₀ (globalHoldoffEnd s) := by
  fun_cases globalHoldoffEnd s
  · exact h.stamp.same
  · exact h

protected theorem Keeps.execGlobalHoldoffExpiry (h : Keeps s₀ s) : After s₀ (execGlobalHoldoffExpiry s) := h.globalHoldoffEnd.next

/-! ### View -/

protected theorem Keeps.countSnap {page v} (h : Keeps s₀ s) : Keeps s₀ (countSnap page v s) := by
  fun_cases countSnap page v s
  · exact h
  · exact h.same

protected theorem Keeps.execCountSnapWrite {page value role} (h : Keeps s₀ s) : After s₀ (execCountSnapWrite page value role s) :=
  (h.busWrite (fun k => k.countSnap)).next

protected theorem Keeps.caskSelect {v} (h : Keeps s₀ s) : Keeps s₀ (caskSelect v s) := h.storeReg.same

protected theorem Keeps.execCaskSelWrite {value role} (h : Keeps s₀ s) : After s₀ (execCaskSelWrite value role s) :=
  (h.busWrite (fun k => k.caskSelect)).next

/-! ### Windows -/

protected theorem Keeps.setWin {w x} (h : Keeps s₀ s) : Keeps s₀ (setWin s w x) := h.same (ht := by split <;> rfl) (hb := by split <;> rfl)

protected theorem Keeps.winStart {w op bytes} (h : Keeps s₀ s) : Keeps s₀ (winStart w op bytes s) := h.storeReg.setWin

protected theorem Keeps.winWrite {w op bytes role} (h : Keeps s₀ s) : Keeps s₀ (winWrite w op bytes role s) :=
  h.busWrite fun k => k.winStart

protected theorem Keeps.execWinRead {window bytes role} (h : Keeps s₀ s) : After s₀ (execWinRead window bytes role s) := h.winWrite.next

protected theorem Keeps.execWinWrite {window bytes role} (h : Keeps s₀ s) : After s₀ (execWinWrite window bytes role s) := h.winWrite.next

protected theorem Keeps.execWinMove {window bytes role} (h : Keeps s₀ s) : After s₀ (execWinMove window bytes role s) := h.winWrite.next

protected theorem Keeps.modCells {tier grant f} (h : Keeps s₀ s) (hf : ∀ n {m}, Memory.wf m = true → Memory.wf (f n m) = true) :
    Keeps s₀ (modCells s tier grant f) := by
  have hb (b : Borrowed) (hw : Memory.wf b.cells = true) :
      Memory.wf (if b.grant = grant then { b with cells := f 0 b.cells } else b).cells = true := by
    split
    · exact hf 0 hw
    · exact hw
  fun_cases modCells s tier grant f
  · exact h.trans { cellar := hf 0 }
  · exact h.trans { chip := hf _ }
  · exact h.trans { borrowed := cellsWf_map hb }
  · exact h.trans { kiln := hf 0 }
  · exact h

protected theorem Keeps.leaveTier {tier p} (h : Keeps s₀ s) : Keeps s₀ (leaveTier tier s p) := by
  fun_cases leaveTier tier s p
  · exact h.modCask
  · exact h
  · exact h.cutWarm
  · exact h.leaveT4Tensor
  · exact h

protected theorem Keeps.enterT2 {p} (h : Keeps s₀ s) : Keeps s₀ (enterT2 s p) := by
  fun_cases enterT2 s p
  · exact h.addWarm
  · exact h

protected theorem Keeps.moveHomes {x} (h : Keeps s₀ s) : Keeps s₀ (moveHomes s x) := by
  fun_cases moveHomes s x
  · exact (h.foldl fun k _ => k.leaveTier).foldl fun k _ => k.enterT2
  · exact h.foldl fun k _ => k.leaveTier

protected theorem Keeps.winMove {x data} (h : Keeps s₀ s) : Keeps s₀ (winMove s x data) := by
  fun_cases winMove s x data
  · exact h.modCells fun _ _ => memWf_memWrite
  case case2 s1 =>
    have h1 : Keeps s₀ s1 := (h.moveHomes.modCells fun _ _ => memWf_memDrop).ite h
    exact h1.trans { chip := memWf_memWrite }

protected theorem Keeps.winDone {w status data} (h : Keeps s₀ s) : Keeps s₀ (winDone w status data s) := by
  fun_cases winDone w status data s
  · exact h
  · exact h.stampRaise.setWin.winMove
  · exact h.stampRaise.setWin

protected theorem Keeps.execWinTransferDone {window status data} (h : Keeps s₀ s) : After s₀ (execWinTransferDone window status data s) :=
  (h.meetErrors (fun k => k.winDone)).next

/-! ### Bus -/

protected theorem Keeps.partWrite {page off v} (h : Keeps s₀ s) : Keeps s₀ (partWrite page off v s) := by
  unfold partWrite
  extract_lets
  exact h.releaseBy fun k => k.storeReg.same.coverGrowth

protected theorem Keeps.execCellarPartRaise {page offset value role} (h : Keeps s₀ s) :
    After s₀ (execCellarPartRaise page offset value role s) :=
  (Keeps.ite (h.busWrite (fun k => k.partWrite)) h).next

protected theorem Keeps.shardStore {v} (h : Keeps s₀ s) : Keeps s₀ (shardStore v s) := h.same

protected theorem Keeps.blockReset {v} (h : Keeps s₀ s) : Keeps s₀ (blockReset v s) := by
  fun_cases blockReset v s
  · exact h.requestWarm
  · exact h.requestCold
  · exact h

protected theorem Keeps.repairWrite {v} (h : Keeps s₀ s) : Keeps s₀ (repairWrite v s) := by
  fun_cases repairWrite v s
  · exact h.storeReg.beginRemap
  · exact h.storeReg

protected theorem Keeps.fwWrite {v} (h : Keeps s₀ s) : Keeps s₀ (fwWrite v s) := by
  fun_cases fwWrite v s
  · exact h.fwStageStart
  · exact h.fwActivateStart
  · exact h.storeReg

protected theorem Keeps.winCtrlWrite {w v} (h : Keeps s₀ s) : Keeps s₀ (winCtrlWrite w v s) := by
  fun_cases winCtrlWrite w v s
  · exact h.storeReg
  · exact h.winStart

protected theorem Keeps.kilnWrite {v} (h : Keeps s₀ s) : Keeps s₀ (kilnWrite v s) := by
  fun_cases kilnWrite v s
  · exact h.storeReg.checkpointNow
  · exact h.storeReg.retireDevice
  · exact h.storeReg

protected theorem Keeps.singleEffect {u page off v role} (h : Keeps s₀ s) : Keeps s₀ (singleEffect u page off v role s) := by
  fun_cases singleEffect u page off v role s
  · exact h.blockReset
  · exact h.configDoneSet
  · exact h.tenantSelWrite
  · exact h.tenantDataWrite
  · exact h.storeReg.askVoltage
  · exact h.powerCapSet
  · exact h.repairWrite
  · exact h.fwWrite
  · exact h.logSelect
  · exact h.ffClearStart
  · exact h.saltLoStore
  · exact h.saltStore
  · exact h.partWrite
  · exact h.partWrite
  · exact h.partWrite
  · exact h.caskSelect
  · exact h.testHoldSet
  · exact h.winCtrlWrite
  · exact h.winCtrlWrite
  · exact h.shardStore
  · exact h.kilnWrite
  · exact h.hpWrite
  · exact h.keyInStore.ite h.storeReg
  · exact h.keyInStore.ite h.storeReg
  · exact h.storeReg

protected theorem Keeps.ctxCmdEffect {c v} (h : Keeps s₀ s) : Keeps s₀ (ctxCmdEffect c v s) := by
  fun_cases ctxCmdEffect c v s
  · exact h.ctxEnableEffect
  · exact h.resetCtx
  · exact h

protected theorem Keeps.ctxEffect {c off v} (h : Keeps s₀ s) : Keeps s₀ (ctxEffect c off v s) := by
  fun_cases ctxEffect c off v s
  · exact h.ctxCmdEffect
  · exact h.ringConfigEffect
  · exact h.ringConfigEffect
  · exact h.ringConfigEffect
  · exact h.doorbellEffect
  · exact h.cqHeadEffect
  · exact h.tenantBindEffect
  · exact h.storeReg

protected theorem Keeps.tunEffect {t v} (h : Keeps s₀ s) : Keeps s₀ (tunEffect t v s) := by
  fun_cases tunEffect t v s
  · exact h.fenceTun
  · exact h.resetAndTest
  · exact h

protected theorem Keeps.headerEffect {page off n v} (h : Keeps s₀ s) : Keeps s₀ (headerEffect page off n v s) := by
  fun_cases headerEffect page off n v s
  · exact h.countSnap
  · exact h.eventAckEffect
  · exact h.eventMaskEffect
  · exact h.ctxRoleEffect
  · exact h

protected theorem Keeps.regEffect {page off v role} (h : Keeps s₀ s) : Keeps s₀ (regEffect page off v role s) := by
  fun_cases regEffect page off v role s
  · exact h
  · exact h.headerEffect
  · exact h.ctxEffect
  · exact h.tunEffect
  · exact h.singleEffect

protected theorem Keeps.regWrite {page off v role} (h : Keeps s₀ s) : Keeps s₀ (regWrite page off v role s) := by
  fun_cases regWrite page off v role s
  · exact h.keyCmd
  · exact h.busWrite fun k => k.regEffect

protected theorem Keeps.execRegisterWrite {page offset value role} (h : Keeps s₀ s) :
    After s₀ (execRegisterWrite page offset value role s) :=
  (h.regWrite.ite h).next

/-! ### Commands and steps -/

/-- Every command keeps what `Keeps` names: each by the rule of its meaning. -/
theorem after_exec (i : Instr) (s : State) : After s (exec i s) := by
  have h := Keeps.refl s
  cases i with
  | gyleOpen _ => exact h.execGyleOpen
  | gyleRows _ => exact h.execGyleRows
  | gyleClose _ => exact h.execGyleClose
  | planLoad _ => exact h.execPlanLoad
  | planSwap _ => exact h.execPlanSwap
  | mixBind _ => exact h.execMixBind
  | mixUnbind _ => exact h.execMixUnbind
  | pin _ => exact h.execPin
  | unpin _ => exact h.execUnpin
  | prefetch _ => exact h.execPrefetch
  | trainOpen _ => exact h.execTrainOpen
  | trainCommit _ => exact h.execTrainCommit
  | trainAbort _ => exact h.execTrainAbort
  | publishAdapter _ => exact h.execPublishAdapter
  | publishDirectory _ => exact h.execPublishDirectory
  | purge _ => exact h.execPurge
  | epochStage _ => exact h.execEpochStage
  | epochSwitch _ => exact h.execEpochSwitch
  | rack _ => exact h.execRack
  | lendGrant _ => exact h.execLendGrant
  | lendRecall _ => exact h.execLendRecall
  | mark _ => exact h.execMark
  | quiesce _ => exact h.execQuiesce
  | resume _ => exact h.execResume
  | nop _ => exact h.execNop
  | doorbell _ _ _ => exact h.execDoorbell
  | cqHeadWrite _ _ _ => exact h.execCqHeadWrite
  | ctxEnable _ _ => exact h.execCtxEnable
  | ctxReset _ _ => exact h.execCtxReset
  | ringConfigWrite _ _ _ _ => exact h.execRingConfigWrite
  | tenantBindChange _ _ _ => exact h.execTenantBindChange
  | eventAckWrite _ _ _ => exact h.execEventAckWrite
  | eventMaskWrite _ _ _ => exact h.execEventMaskWrite
  | countSnapWrite _ _ _ => exact h.execCountSnapWrite
  | registerWrite _ _ _ _ => exact h.execRegisterWrite
  | tunFenceCmd _ _ => exact h.execTunFenceCmd
  | tunReadmit _ _ => exact h.execTunReadmit
  | tunBistDone _ _ => exact h.execTunBistDone
  | kilnCheckpointCmd _ => exact h.execKilnCheckpointCmd
  | kilnRetireCmd _ _ => exact h.execKilnRetireCmd
  | keyLoadSlot _ _ _ => exact h.execKeyLoadSlot
  | keyRotate _ _ => exact h.execKeyRotate
  | keyRenewLoadPair _ => exact h.execKeyRenewLoadPair
  | keyDone => exact h.execKeyDone
  | saltHiWrite _ _ => exact h.execSaltHiWrite
  | tenantLoad _ _ _ => exact h.execTenantLoad
  | tenantStore _ _ _ => exact h.execTenantStore
  | hpStore _ _ => exact h.execHpStore
  | hpLoad _ _ => exact h.execHpLoad
  | caskSelWrite _ _ => exact h.execCaskSelWrite
  | cellarPartRaise _ _ _ _ => exact h.execCellarPartRaise
  | logSelWrite _ _ => exact h.execLogSelWrite
  | ffClear _ _ => exact h.execFfClear
  | ffClearDone => exact h.execFfClearDone
  | blockWarmResetCmd _ => exact h.execBlockWarmResetCmd
  | blockColdResetCmd _ => exact h.execBlockColdResetCmd
  | configDoneWrite _ _ => exact h.execConfigDoneWrite
  | testHoldWrite _ _ => exact h.execTestHoldWrite
  | winRead _ _ _ => exact h.execWinRead
  | winWrite _ _ _ => exact h.execWinWrite
  | winMove _ _ _ => exact h.execWinMove
  | winTransferDone _ _ _ => exact h.execWinTransferDone
  | repairRemap _ _ _ => exact h.execRepairRemap
  | regionRemapStepDone _ => exact h.execRegionRemapStepDone
  | fwStage _ _ => exact h.execFwStage
  | fwStageDone _ => exact h.execFwStageDone
  | fwActivate _ _ => exact h.execFwActivate
  | pairRestartDone _ _ => exact h.execPairRestartDone
  | powerCapWrite _ _ => exact h.execPowerCapWrite
  | logbookRead _ _ => exact h.execLogbookRead
  | rowResolve _ _ => exact h.execRowResolve
  | sortPass2Done _ _ => exact h.execSortPass2Done
  | activationCreditGrant _ => exact h.execActivationCreditGrant
  | creditPortionGrant _ => exact h.execCreditPortionGrant
  | baseCreditGrant _ => exact h.execBaseCreditGrant
  | inboundBeat _ _ _ _ => exact h.execInboundBeat
  | scatterWrite _ _ => exact h.execScatterWrite
  | tileRequest _ => exact h.execTileRequest
  | tileReady _ _ _ => exact h.execTileReady
  | opIssue _ => exact h.execOpIssue
  | fillSwap _ _ => exact h.execFillSwap
  | partSendStart _ => exact h.execPartSendStart
  | outboundNak _ _ => exact h.execOutboundNak
  | partLeft _ => exact h.execPartLeft
  | batchWindowExpiry _ => exact h.execBatchWindowExpiry
  | cutoffExpiry _ _ => exact h.execCutoffExpiry
  | lateGraceExpiry _ _ _ _ => exact h.execLateGraceExpiry
  | fetchStreamStart _ => exact h.execFetchStreamStart
  | tensorPresent _ _ => exact h.execTensorPresent
  | lazyWriteback _ => exact h.execLazyWriteback
  | evictionWritebackDone _ => exact h.execEvictionWritebackDone
  | commitRun _ _ => exact h.execCommitRun
  | commitPublish _ _ => exact h.execCommitPublish
  | publishPublication _ => exact h.execPublishPublication
  | epochStaged => exact h.execEpochStaged
  | purgeComplete _ => exact h.execPurgeComplete
  | rotationStart _ => exact h.execRotationStart
  | rotationComplete _ => exact h.execRotationComplete
  | quiesceComplete _ => exact h.execQuiesceComplete
  | ctxResetDone _ => exact h.execCtxResetDone
  | readData _ _ _ _ => exact h.execReadData
  | writeResponse _ _ _ => exact h.execWriteResponse
  | mLookup _ _ => exact h.execMLookup
  | mLookupAns _ _ => exact h.execMLookupAns
  | mLeaseRenew _ _ => exact h.execMLeaseRenew
  | mLeaseAns _ _ => exact h.execMLeaseAns
  | mRevoke _ _ _ => exact h.execMRevoke
  | mRevokeAck _ => exact h.execMRevokeAck
  | mHoldRelease _ _ => exact h.execMHoldRelease
  | mFetchReq _ _ _ _ => exact h.execMFetchReq
  | mFetchData _ _ _ => exact h.execMFetchData
  | mFetchEnd _ => exact h.execMFetchEnd
  | mFarOpen _ _ _ _ => exact h.execMFarOpen
  | mFarOpenAns _ => exact h.execMFarOpenAns
  | mFarRows _ _ _ _ => exact h.execMFarRows
  | mFarSum _ _ _ => exact h.execMFarSum
  | mFarLate _ _ _ => exact h.execMFarLate
  | mFarClose _ _ => exact h.execMFarClose
  | mFarCancel _ _ => exact h.execMFarCancel
  | mRackOpen _ _ _ _ => exact h.execMRackOpen
  | mRackOpenAns _ => exact h.execMRackOpenAns
  | mRackData _ _ _ => exact h.execMRackData
  | rackRoundDone => exact h.execRackRoundDone
  | mRackPrepare _ _ _ _ => exact h.execMRackPrepare
  | mRackReady _ _ => exact h.execMRackReady
  | rackFreezeTimeout => exact h.execRackFreezeTimeout
  | mRackAbort _ => exact h.execMRackAbort
  | mHomeChange _ _ _ => exact h.execMHomeChange
  | mHomeAck _ => exact h.execMHomeAck
  | mDirUpdate _ _ => exact h.execMDirUpdate
  | mDirAck _ => exact h.execMDirAck
  | mPublishFwd _ _ _ => exact h.execMPublishFwd
  | mPublishAns _ _ => exact h.execMPublishAns
  | mEpochRelease _ => exact h.execMEpochRelease
  | mLend _ _ _ => exact h.execMLend
  | mLendAck _ _ => exact h.execMLendAck
  | mRecall _ _ => exact h.execMRecall
  | recallReadsDrained _ _ => exact h.execRecallReadsDrained
  | mRecallAns _ _ => exact h.execMRecallAns
  | recallTimeout _ _ => exact h.execRecallTimeout
  | mT3Read _ _ _ _ => exact h.execMT3Read
  | mT3Data _ _ _ => exact h.execMT3Data
  | mT3Write _ _ _ _ => exact h.execMT3Write
  | t3ReadTimeout _ => exact h.execT3ReadTimeout
  | linkUp _ _ => exact h.execLinkUp
  | linkDown _ _ => exact h.execLinkDown
  | peerRequestRetry _ => exact h.execPeerRequestRetry
  | requestGiveUp _ => exact h.execRequestGiveUp
  | answerExpiry _ _ => exact h.execAnswerExpiry
  | leaseRenewDue _ => exact h.execLeaseRenewDue
  | leaseWaitExpiry _ _ _ => exact h.execLeaseWaitExpiry
  | peerHoldsTimeout _ => exact h.execPeerHoldsTimeout
  | loadHalving => exact h.execLoadHalving
  | freqHalving => exact h.execFreqHalving
  | scrubRead _ _ => exact h.execScrubRead
  | kilnPageRead _ _ _ _ => exact h.execKilnPageRead
  | kilnJournalHeld => exact h.execKilnJournalHeld
  | checkpointValid => exact h.execCheckpointValid
  | kilnFold => exact h.execKilnFold
  | wearLevelling => exact h.execWearLevelling
  | disturbRelocate _ => exact h.execDisturbRelocate
  | kilnDeviceTimeout _ => exact h.execKilnDeviceTimeout
  | kilnRebuildDone => exact h.execKilnRebuildDone
  | zqShortCalibration => exact h.execZqShortCalibration
  | logAppend _ _ => exact h.execLogAppend
  | watchdogFire _ _ => exact h.execWatchdogFire
  | budgetExpiry _ => exact h.execBudgetExpiry
  | tunFaultCountExpiry _ => exact h.execTunFaultCountExpiry
  | selftestSlot => exact h.execSelftestSlot
  | ageMonitorMeasure _ _ => exact h.execAgeMonitorMeasure
  | timerRecal => exact h.execTimerRecal
  | calLost => exact h.execCalLost
  | irqHoldoffExpiry _ => exact h.execIrqHoldoffExpiry
  | globalHoldoffExpiry => exact h.execGlobalHoldoffExpiry
  | domainLost _ => exact h.execDomainLost
  | domainRegained _ => exact h.execDomainRegained
  | telemetrySample _ => exact h.execTelemetrySample
  | portCapChange _ => exact h.execPortCapChange
  | derateChange _ => exact h.execDerateChange
  | capWindowEnd _ _ => exact h.execCapWindowEnd
  | thermalCapStart _ _ => exact h.execThermalCapStart
  | thermalCapStep _ _ => exact h.execThermalCapStep
  | thermHalt _ _ => exact h.execThermHalt
  | thermResumed _ => exact h.execThermResumed
  | sagRise _ _ => exact h.execSagRise
  | sagStepDown _ => exact h.execSagStepDown
  | sagPersist _ => exact h.execSagPersist
  | pfwAssert => exact h.execPfwAssert
  | pfwSettleExpiry => exact h.execPfwSettleExpiry
  | pfwWritebackDone => exact h.execPfwWritebackDone
  | pfwCleared => exact h.execPfwCleared
  | pwrGoodRise => exact h.execPwrGoodRise
  | pwrGoodFall => exact h.execPwrGoodFall
  | rstColdRelease => exact h.execRstColdRelease
  | rstWarmRequest => exact h.execRstWarmRequest
  | coldStart => exact h.execColdStart
  | startStepComplete _ => exact h.execStartStepComplete
  | startupTimeout => exact h.execStartupTimeout
  | warmReset => exact h.execWarmReset
  | warmStepComplete _ => exact h.execWarmStepComplete
  | leaseLapsed _ => exact h.execLeaseLapsed
  | programEraseFailure _ => exact h.execProgramEraseFailure
  | rstColdAssert => exact h.execRstColdAssert

theorem keeps_step (h : step s = .next t) : Keeps s t := by
  unfold step at h
  split at h
  · cases h
    exact .refl s
  · rename_i i rest _
    have h0 : Keeps s { s with pending := rest } := (Keeps.refl s).same
    exact h0.trans (after_exec i _ t h)

end Sys2Proof.Machine
end

open Sys2Proof.Machine in
/-- Settles O55: a step that answers a next state runs the front command, or idles, and each keeps what `Keeps` names. -/
theorem invariantKept : Obligations.InvariantKept := by
  unfold Obligations.InvariantKept
  exact fun s t hs ht => (keeps_step ht).inv hs

section
/-! PROOFS. Why `Obligations.OpeningsMakeAGyle` fails: the opening takes its room in T2 before it makes the gyle, and a warm copy that gives
way may first send the only copy of a tensor back to T4, at an event of its own. -/
namespace Sys2Proof.Machine

/-! ### What an opening takes from T2 -/

theorem seq_lt_stamp (s : State) : s.gauger.seq < (stamp s).gauger.seq := by
  fun_cases stamp s
  · exact Nat.lt_succ_of_lt (Nat.lt_succ_self _)
  · exact Nat.lt_succ_self _

/-- A tensor that goes back to T4 is written at an event of its own (R202). -/
theorem seq_lt_backToT4 {s : State} {epoch v : Nat} {a : AdapterId} {idx : List Nat} {ver : Ver} (hs : SeqReserved s)
    (hv : verOf s epoch a v = some ver) (hb : ver.t4Gone.filter idx.contains ≠ []) :
    s.gauger.seq < (backToT4 s epoch a v idx).gauger.seq := by
  obtain ⟨i, is, hi⟩ := List.exists_cons_of_ne_nil hb
  have hstamp : SeqReserved (stamp s) := ((Keeps.refl s).stamp.seq hs).1
  have hrest : Keeps (stamp s) (backToT4 s epoch a v idx) := by
    simp only [backToT4, hv, hi, List.foldl_cons]
    exact ((Keeps.refl (stamp s)).writeTensor.foldl fun k _ => k.stamp.writeTensor).modVerOf
  exact (seq_lt_stamp s).trans_le (hrest.seq hstamp).2

/-- A warm copy that is the only home of a tensor leaves T2 at a later event. -/
theorem seq_lt_dropWarm {s : State} {w : Warm} {ver : Ver} (hs : SeqReserved s) (hv : verOf s w.epoch w.adapter w.version = some ver)
    (hb : ver.t4Gone.filter (warmHas s w).contains ≠ []) : s.gauger.seq < (dropWarm s w).gauger.seq := by
  unfold dropWarm
  extract_lets rest _ s1 s2
  have hs1 : SeqReserved s1 := hs
  have hlt : s1.gauger.seq < s2.gauger.seq := seq_lt_backToT4 hs1 hv hb
  have hs2 : SeqReserved s2 := ((Keeps.refl s1).backToT4.seq hs1).1
  split
  · exact hlt.trans_le ((Keeps.refl s2).writeT3.seq hs2).2
  · exact hlt

theorem gyle_of_gyles {s t : State} (h : t.gyles = s.gyles) (k : GyleKey) : t.gyle k = s.gyle k := by simp only [State.gyle, h]

@[simp] theorem readRowMap_gyles (s : State) (c num first addr n : Nat) : (readRowMap s c num first addr n).gyles = s.gyles := by
  unfold readRowMap
  split
  · rfl
  · simp

/-- The gyle of an opening binds what is in force once the opening has its room in T2. -/
theorem openGyle_gyle (c : Nat) (d : Desc) (kind : GyleKind) (s : State) :
    (openGyle c d kind s).gyle (ownGyle c d.gyle) = some (newGyle (makeT2 s (areaFor d.rowCount) 256) c d kind) := by
  unfold openGyle
  extract_lets s1 s2
  have hs2 : s2.gyle (ownGyle c d.gyle) = some (newGyle s1 c d kind) := setGyle_gyle_self s1 (newGyle s1 c d kind)
  rw [← hs2]
  exact gyle_of_gyles (by simp) _

theorem onFront_of_taken {s : State} {c opcode : Nat} {fr : Front} {d : Desc} {img : List Byte} (h : Taken s c opcode fr d img)
    (f : Front → Desc → List Byte → State) : onFront c opcode s f = f fr d img := by
  obtain ⟨hfr, hd, himg, hop⟩ := h
  simp only [onFront, hfr, hd, himg, hop, if_true]

/-! ### A block whose T2 holds the only copy of a tensor -/

/-- A `GYLE_OPEN` of two rows under plan 7. -/
def crowdedOpen : Desc := { opcode := 0x01, gyle := 3, rowCount := 2, planId := 7 }

/-- An adapter's version of one slot: a fetch of the single-home regime has taken both its tensors out of T4 (R202). -/
def movedVersion : Ver := { version := 1, hdr := { id := 8, version := 1 }, slots := [{}], t4Gone := [0, 1] }

/-- Its warm copy, the only home of the two tensors. -/
def movedCopy : Warm := { adapter := 8, version := 1, bytes := 128 }

/-- A block in the single-home regime with a T2 region of 16 GiB, a plan in force, and the opening at the front of context 0, before
another context holds a gradient. -/
def beforeHold : State :=
  let s : State := {
    planInForce := some { id := 7 }
    cat := { adapters := [(8, { current := 1, versions := [movedVersion] })] }
    tiers := { singleHome := true, warm := [movedCopy] } }
  setCtx (setReg (setReg s pgTiers 0x088 16) (pgCtx 0) 0x0D8 4096) 0
    { st := .running, cqResv := 1, front := some { desc := some crowdedOpen, image := some [] } }

/-- The gradient hold of context 1 leaves just the opening's area of what no warm copy can displace. -/
def crowded : State :=
  { beforeHold with train := { hold := [{ gk := ownGyle 1 0, adapter := 9, bytes := t2Room beforeHold - areaFor 2 }] } }

theorem crowded_taken : Taken crowded 0 0x01 { desc := some crowdedOpen, image := some [] } crowdedOpen [] := by decide

theorem crowded_openState : openState crowded 0 crowdedOpen = none := by decide

theorem crowded_openRoom : ∀ b ∈ openRoom crowded 0 crowdedOpen, b = none := by decide

/-- The opening's room is there only once the warm copy has left. -/
theorem makeT2_crowded : makeT2 (stamp crowded) (areaFor 2) 256 = dropWarm (stamp crowded) movedCopy := by
  unfold makeT2
  rw [if_neg (by decide)]
  extract_lets cands
  have hc : cands = [movedCopy] := by decide
  rw [hc, if_neg (by decide), List.foldl_cons, List.foldl_nil, if_neg (by decide)]

theorem seq_lt_makeT2_crowded : (stamp crowded).gauger.seq < (makeT2 (stamp crowded) (areaFor 2) 256).gauger.seq := by
  rw [makeT2_crowded]
  exact seq_lt_dropWarm (ver := movedVersion) (by decide) (by decide) (by decide)

theorem gyleOpen_crowded :
    gyleOpen 0 crowded = openGyle 0 crowdedOpen .serving (stamp crowded) := by
  rw [gyleOpen, onFront_of_taken crowded_taken]
  rfl

end Sys2Proof.Machine
end

open Sys2Proof Sys2Proof.Machine in
/-- Refutes O8: an opening whose area needs the room of a warm copy that is the only home of its tensors comes after the events at which
these go back to T4, so that the gyle's opening sequence is not the first after the state. -/
theorem not_openingsMakeAGyle : ¬ Obligations.OpeningsMakeAGyle := by
  unfold Obligations.OpeningsMakeAGyle
  intro h
  obtain ⟨t, ht, -, g, hg, -, -, -, hseq, -⟩ := (h 0 crowded _ crowdedOpen [] crowded_openState crowded_openRoom).1 crowded_taken
  have hopen : t = openGyle 0 crowdedOpen .serving (stamp crowded) := (Host.Outcome.next.inj ht).symm.trans gyleOpen_crowded
  rw [hopen] at hg
  obtain rfl := Option.some.inj (hg.symm.trans (openGyle_gyle 0 crowdedOpen .serving (stamp crowded)))
  exact seq_lt_makeT2_crowded.ne' hseq

section
/-! PROOFS. What the work behind `GYLE_ROWS` and `GYLE_CLOSE` leaves: room in T2, admissions, messages to other homes and the kiln touch
neither a context nor a gyle. -/
namespace Sys2Proof.Machine

-- Each proof waits for the one before it: all at once would each hold a thread.
set_option Elab.async false

/-- The contexts and the gyles stand as they did: what the machinery of tiers, casks, kiln and messages leaves aside. -/
structure Aside (s t : State) : Prop where
  ctxs : t.ctxs = s.ctxs := by rfl
  gyles : t.gyles = s.gyles := by rfl

variable {s₀ s t : State}

protected theorem Aside.refl (s : State) : Aside s s := {}

protected theorem Aside.trans {u : State} (h : Aside s t) (k : Aside t u) : Aside s u := ⟨k.ctxs.trans h.ctxs, k.gyles.trans h.gyles⟩

/-- An update of other parts of the state. -/
protected theorem Aside.same {gauger log pages regs planInForce planStaged cat catStaged staging catRetiring dir dirStaged dirOld handles
      tenantRecs tuns heldGroups orphans nextHold sortRows ports spillUsed cellar tiers train homes kiln integrity repair pace keys boundary
      fuses glob outs freeCtr pending} (h : Aside s₀ s) :
    Aside s₀ { s with
      gauger, log, pages, regs, planInForce, planStaged, cat, catStaged, staging, catRetiring, dir, dirStaged, dirOld, handles, tenantRecs,
      tuns, heldGroups, orphans, nextHold, sortRows, ports, spillUsed, cellar, tiers, train, homes, kiln, integrity, repair, pace, keys,
      boundary, fuses, glob, outs, freeCtr, pending } :=
  ⟨h.ctxs, h.gyles⟩

protected theorem Aside.foldl {α : Type} {g : State → α → State} {l : List α} (h : Aside s₀ s)
    (hg : ∀ {t}, Aside s₀ t → ∀ a, Aside s₀ (g t a)) : Aside s₀ (l.foldl g s) := by
  induction l generalizing s with
  | nil => exact h
  | cons a l ih => exact ih (hg h a)

protected theorem Aside.ite {c : Prop} [Decidable c] (hs : Aside s₀ s) (ht : Aside s₀ t) : Aside s₀ (if c then s else t) := by
  split
  · exact hs
  · exact ht

protected theorem Aside.stamp (h : Aside s₀ s) : Aside s₀ (stamp s) := h.trans ⟨by simp, by simp⟩

protected theorem Aside.modCask {i f} (h : Aside s₀ s) : Aside s₀ (modCask s i f) := h.same

protected theorem Aside.bumpFree (h : Aside s₀ s) : Aside s₀ (bumpFree s) := h.same

protected theorem Aside.emit {o} (h : Aside s₀ s) : Aside s₀ (emit s o) := h.same

protected theorem Aside.emitAll {os} (h : Aside s₀ s) : Aside s₀ (emitAll s os) := h.same

protected theorem Aside.sendMsg {m} (h : Aside s₀ s) : Aside s₀ (sendMsg s m) := by
  fun_cases sendMsg s m
  · exact h
  · exact h.same.emit

protected theorem Aside.sendReq {m gk} (h : Aside s₀ s) : Aside s₀ (sendReq s m gk) := h.sendMsg.same

protected theorem Aside.issueFlash {d cs} (h : Aside s₀ s) : Aside s₀ (issueFlash s d cs) := h.emitAll

protected theorem Aside.modBlock {b f} (h : Aside s₀ s) : Aside s₀ (modBlock s b f) := h.same

protected theorem Aside.openBlock {a b} (h : Aside s₀ s) : Aside s₀ (openBlock s a b) := by
  fun_cases openBlock s a b
  · exact h.modBlock.same
  · exact h.modBlock.same
  · exact h.modBlock.same
  · exact h.modBlock

protected theorem Aside.takePages {a n x} (h : Aside s₀ s) (ht : takePages s a n = some x) : Aside s₀ x.1 := by
  revert ht
  fun_cases takePages s a n
  · rintro ⟨⟩
    dsimp only
    exact h.modBlock
  · rintro ⟨⟩
  · rintro ⟨⟩
  · rintro ⟨⟩
    dsimp only
    exact (h.ite h.modBlock).openBlock.modBlock

protected theorem Aside.issueProgram {slc p} (h : Aside s₀ s) : Aside s₀ (issueProgram s slc p) := h.issueFlash

protected theorem Aside.programPage {slc p page} (h : Aside s₀ s) : Aside s₀ (programPage s slc p page) := h.same.issueProgram

protected theorem Aside.programParity {slc stripe} (h : Aside s₀ s) : Aside s₀ (programParity s slc stripe) := h.programPage.programPage

protected theorem Aside.programRuns {slc key index runs chunks} (h : Aside s₀ s) : Aside s₀ (programRuns s slc key index runs chunks) :=
  (h.foldl fun k _ => k.programPage).foldl fun k _ => k.programParity

protected theorem Aside.writePages {a key index ct x} (h : Aside s₀ s) (ht : writePages s a key index ct = some x) : Aside s₀ x.1 := by
  obtain ⟨_, htaken, rfl⟩ := Option.map_eq_some_iff.mp ht
  exact (h.takePages htaken).programRuns

protected theorem Aside.startErase {b} (h : Aside s₀ s) : Aside s₀ (startErase s b) := by
  unfold startErase
  extract_lets _ _ _ _ s1
  have h1 : Aside s₀ s1 := h.modBlock.same
  exact h1.foldl fun k _ => k.issueFlash

protected theorem Aside.startCheckpoint (h : Aside s₀ s) : Aside s₀ (startCheckpoint s) := by
  fun_cases startCheckpoint s
  · exact h
  · exact (h.foldl fun k _ => k.startErase).same

protected theorem Aside.journalPut {j} (h : Aside s₀ s) : Aside s₀ (journalPut s j) := by
  unfold journalPut
  extract_lets s1 j1 j2 _ s2
  have h1 : Aside s₀ s1 := by
    unfold s1
    split
    · exact (h.takePages ‹_›).foldl fun k _ => k.issueProgram
    · exact h
  have h2 : Aside s₀ s2 := h1.same
  exact h2.startCheckpoint.ite h2

protected theorem Aside.writeTensor {x epoch v i} (h : Aside s₀ s) : Aside s₀ (writeTensor s x epoch v i) := by
  fun_cases writeTensor s x epoch v i
  · exact h
  · exact (h.writePages ‹_›).bumpFree.journalPut

protected theorem Aside.refreshHolds (h : Aside s₀ s) : Aside s₀ (refreshHolds s) := h.foldl fun k _ => k.modCask

protected theorem Aside.countUse {epoch a v} (h : Aside s₀ s) : Aside s₀ (countUse s epoch a v) := by
  fun_cases countUse s epoch a v
  · exact h.same.modCask
  · exact h.same

protected theorem Aside.sendTensor {m v i} (h : Aside s₀ s) : Aside s₀ (sendTensor s m v i) := h.sendMsg

protected theorem Aside.writeT3 {b w} (h : Aside s₀ s) : Aside s₀ (writeT3 s b w) := (h.foldl fun k _ => k.sendTensor).same

protected theorem Aside.modVerOf {epoch a v f} (h : Aside s₀ s) : Aside s₀ (modVerOf s epoch a v f) := by
  fun_cases modVerOf s epoch a v f <;> exact h.same

protected theorem Aside.backToT4 {epoch a v idx} (h : Aside s₀ s) : Aside s₀ (backToT4 s epoch a v idx) := by
  fun_cases backToT4 s epoch a v idx
  · exact h
  · exact (h.foldl fun k _ => k.stamp.writeTensor).modVerOf

protected theorem Aside.dropWarm {w} (h : Aside s₀ s) : Aside s₀ (dropWarm s w) := by
  fun_cases dropWarm s w
  · exact h.same.backToT4.writeT3
  · exact h.same.backToT4

protected theorem Aside.makeT2 {need below} (h : Aside s₀ s) : Aside s₀ (makeT2 s need below) := by
  fun_cases makeT2 s need below
  · exact h
  · exact h
  · exact h.foldl fun k _ => Aside.ite k k.dropWarm

protected theorem Aside.addWarm {w idx} (h : Aside s₀ s) : Aside s₀ (addWarm s w idx) := by
  unfold addWarm
  extract_lets _ _ _ s1 _ _ _
  have h1 : Aside s₀ s1 := by
    unfold s1
    split
    · exact h
    · exact h.same
  exact h1.same

protected theorem Aside.placeWarm {w idx} (h : Aside s₀ s) : Aside s₀ (placeWarm s w idx) := by
  fun_cases placeWarm s w idx
  · exact h.makeT2.addWarm
  · exact h

protected theorem Aside.moveDownCask {c} (h : Aside s₀ s) : Aside s₀ (moveDownCask s c) := by
  fun_cases moveDownCask s c
  · exact h.makeT2.addWarm
  · exact h.backToT4

protected theorem Aside.demote {c} (h : Aside s₀ s) : Aside s₀ (demote s c) := by
  fun_cases demote s c
  · exact h
  · exact h.moveDownCask
  · exact h
  · exact h.placeWarm

protected theorem Aside.keepStreams {keep} (h : Aside s₀ s) : Aside s₀ (keepStreams s keep) := h.same

protected theorem Aside.dropCask {i} (h : Aside s₀ s) : Aside s₀ (dropCask s i) := h.same.keepStreams

protected theorem Aside.evictRaw {i} (h : Aside s₀ s) : Aside s₀ (evictRaw s i) := by
  fun_cases evictRaw s i
  · exact h.same.demote.dropCask
  · exact h.same.modCask

protected theorem Aside.moveUllage {i} (h : Aside s₀ s) : Aside s₀ (moveUllage s i) := by
  fun_cases moveUllage s i
  · exact h
  · exact Aside.ite (h.foldl fun k _ => k.evictRaw).modCask (h.foldl fun k _ => k.evictRaw)
  · exact h

protected theorem Aside.moveAllUllage (h : Aside s₀ s) : Aside s₀ (moveAllUllage s) := h.foldl fun k _ => k.moveUllage

protected theorem Aside.evictAll {is} (h : Aside s₀ s) : Aside s₀ (evictAll s is) := (h.foldl fun k _ => k.evictRaw).refreshHolds

protected theorem Aside.addStream {i r} (h : Aside s₀ s) : Aside s₀ (addStream s i r) := by
  fun_cases addStream s i r
  · exact h
  · exact h.same

protected theorem Aside.placePart {r probation p} (h : Aside s₀ s) : Aside s₀ (placePart r probation s p) := by
  fun_cases placePart r probation s p
  · exact h.modCask
  · exact h
  · exact h.modCask.addStream

protected theorem Aside.placeParts {r probation} (h : Aside s₀ s) : Aside s₀ (placeParts s r probation) :=
  (h.foldl fun k _ => k.placePart).refreshHolds

protected theorem Aside.noSpace {r} (h : Aside s₀ s) : Aside s₀ (noSpace s r).s := h

protected theorem Aside.awaitVictims {r vs place} (h : Aside s₀ s) : Aside s₀ (awaitVictims s r vs place).s := h

protected theorem Aside.takeIndices {r probation} (h : Aside s₀ s) : Aside s₀ (takeIndices s r probation).s := by
  fun_cases takeIndices s r probation
  · exact h.noSpace
  · exact h.evictAll.placeParts
  · exact h.evictAll.awaitVictims

protected theorem Aside.evictAndPlace {r vs probation} (h : Aside s₀ s) : Aside s₀ (evictAndPlace s r vs probation).s := by
  fun_cases evictAndPlace s r vs probation
  · exact h.evictAll.awaitVictims
  · exact h.evictAll.takeIndices
  · exact h.evictAll.noSpace

protected theorem Aside.mainStep {r} (h : Aside s₀ s) : Aside s₀ (mainStep s r).s := by
  fun_cases mainStep s r
  · exact h.evictAndPlace
  · exact h.noSpace

protected theorem Aside.probationStep {r} (h : Aside s₀ s) : Aside s₀ (probationStep s r).s := by
  fun_cases probationStep s r
  · exact (Aside.ite h h.same).mainStep
  · exact (Aside.ite h h.same).evictAndPlace
  · exact (Aside.ite h h.same).mainStep

protected theorem Aside.spaceSteps {r} (h : Aside s₀ s) : Aside s₀ (spaceSteps s r).s := by
  fun_cases spaceSteps s r
  · exact h.takeIndices
  · exact h
  · exact h.mainStep
  · exact h.probationStep

protected theorem Aside.tryAdmit {r} (h : Aside s₀ s) : Aside s₀ (tryAdmit s r).s := by
  fun_cases tryAdmit s r
  · exact h.noSpace
  · exact h.evictAll.spaceSteps
  · exact h.evictAll.awaitVictims

protected theorem Aside.retryOne {r} (h : Aside s₀ s) : Aside s₀ (retryOne s r).s := by
  fun_cases retryOne s r
  · exact h
  · exact h.takeIndices
  · exact h.tryAdmit
  · exact h
  · exact h.tryAdmit

protected theorem Aside.noteNoSpace {r} (h : Aside s₀ s) : Aside s₀ (noteNoSpace s r).1 := by
  fun_cases noteNoSpace s r
  · exact h
  · exact h.same

protected theorem Aside.endAttempt {a} (h : Aside s₀ a.s) : Aside s₀ (endAttempt a) := by
  fun_cases endAttempt a
  · exact h.moveAllUllage
  · exact h.moveAllUllage.noteNoSpace.same

protected theorem Aside.takeIn {r} (h : Aside s₀ s) : Aside s₀ (takeIn s r) := h.tryAdmit.endAttempt

protected theorem Aside.unqueue {r} (h : Aside s₀ s) : Aside s₀ (unqueue s r) := h.same

protected theorem Aside.modWaiting {f} (h : Aside s₀ s) : Aside s₀ (modWaiting s f) := h.same

protected theorem Aside.raiseAdmits {epoch a v} (h : Aside s₀ s) : Aside s₀ (raiseAdmits s epoch a v) :=
  h.foldl fun k _ => k.unqueue.retryOne.endAttempt

protected theorem Aside.noteUser {c epoch vs} (h : Aside s₀ s) : Aside s₀ (noteUser s c epoch vs) := by
  fun_cases noteUser s c epoch vs
  · exact h
  · exact h.same.modWaiting

protected theorem Aside.needCasks {r v basis} (h : Aside s₀ s) : Aside s₀ (needCasks s r v basis) := by
  fun_cases needCasks s r v basis
  · exact h.noteUser
  · exact h.noteUser.raiseAdmits
  · exact h.noteUser
  · exact h.noteUser
  · exact h.noteUser.takeIn

protected theorem Aside.bindCask {x epoch a v} (h : Aside s₀ s) : Aside s₀ (bindCask s x epoch a v) := by
  fun_cases bindCask s x epoch a v
  · exact h
  · exact h.modCask

protected theorem Aside.openFar {x x'} (h : Aside s₀ s) : Aside s₀ (openFar s x x') := by
  fun_cases openFar s x x'
  · exact h
  · exact h.stamp.sendReq

end Sys2Proof.Machine
end

section
/-! PROOFS. `GYLE_ROWS` and `GYLE_CLOSE` write the row list (`Obligations.RowListCommandsComplete`). -/
namespace Sys2Proof.Machine

/-! ### What the end of pass 1 leaves of a row list -/

/-- The part of a gyle that `GYLE_ROWS` and `GYLE_CLOSE` write: whether the row list is closed, by which command and at which sequence,
and how many rows it names (R11, R61). -/
def Gyle.rowList (g : Gyle) : Bool × Option Nat × Seq × Nat := (g.closed, g.closeSq, g.closeSeq, g.rowsGiven)

/-- The contexts and every gyle's row list stand as they did. -/
structure RowListsStand (s t : State) : Prop where
  ctxs : t.ctxs = s.ctxs
  rowList : ∀ k, (t.gyle k).map Gyle.rowList = (s.gyle k).map Gyle.rowList

variable {s₀ s t u : State}

protected theorem RowListsStand.refl (s : State) : RowListsStand s s := ⟨rfl, fun _ => rfl⟩

protected theorem RowListsStand.trans (h : RowListsStand s t) (k : RowListsStand t u) : RowListsStand s u :=
  ⟨k.ctxs.trans h.ctxs, fun j => (k.rowList j).trans (h.rowList j)⟩

theorem Aside.rowListsStand (h : Aside s t) : RowListsStand s t := ⟨h.ctxs, fun k => by rw [gyle_of_gyles h.gyles]⟩

protected theorem RowListsStand.foldl {α : Type} {f : State → α → State} (hf : ∀ s a, RowListsStand s (f s a)) (s : State) (l : List α) :
    RowListsStand s (l.foldl f s) := by
  induction l generalizing s with
  | nil => exact .refl s
  | cons a l ih => exact (hf s a).trans (ih _)

/-- A gyle that takes the place of the one of its name, with the same row list. -/
protected theorem RowListsStand.setGyle {g x : Gyle} (hg : s.gyle x.key = some g) (hx : x.rowList = g.rowList) :
    RowListsStand s (setGyle s x) where
  ctxs := rfl
  rowList k := by
    by_cases hk : k = x.key
    · rw [hk, setGyle_gyle_self, hg, Option.map_some, Option.map_some, hx]
    · rw [setGyle_gyle_ne s x hk]

protected theorem RowListsStand.modGyle {k : GyleKey} {f : Gyle → Gyle} (hf : ∀ g, (f g).rowList = g.rowList) :
    RowListsStand s (modGyle s k f) := by
  unfold modGyle
  split
  · rename_i g hg
    exact .setGyle (g := g) (by rwa [gyle_key hg]) (hf g)
  · exact .refl s

theorem rowListsStand_needComp (k : GyleKey) (s : State) (c : Comp) : RowListsStand s (needComp k s c) := by
  unfold needComp
  split
  · exact .refl s
  · split
    · exact .refl s
    · extract_lets b s1 s2 s3
      have h2 : Aside s s2 := (Aside.refl s).needCasks.bindCask
      have h3 : Aside s s3 := by
        unfold s3
        split
        · exact h2.bindCask
        · exact h2
      split
      · exact h3.rowListsStand
      · exact h3.countUse.rowListsStand.trans (.modGyle fun _ => rfl)

theorem rowListsStand_fetchRest (s : State) (k : GyleKey) : RowListsStand s (fetchRest s k) := by
  unfold fetchRest
  split
  · exact .refl s
  · exact .foldl (rowListsStand_needComp k) s _

/-- What each step of a fold leaves, the fold leaves. -/
theorem foldl_leaves {α β γ : Type} {p : β → γ} {f : β → α → β} (hf : ∀ b a, p (f b a) = p b) (b : β) (l : List α) :
    p (l.foldl f b) = p b := by
  induction l generalizing b with
  | nil => rfl
  | cons a l ih => exact (ih _).trans (hf b a)

theorem markFar_leaves {γ : Type} {p : Gyle → γ} (hp : ∀ g rows, p { g with rows } = p g) (s : State) (h : Nat) (g : Gyle) :
    p (markFar s h g) = p g := by
  refine foldl_leaves (fun g e => ?_) g g.rows
  extract_lets cs prim full comps
  split
  · rfl
  · exact hp _ _

/-- The gyle as the end of pass 1 stores it differs in its rows alone. -/
theorem numberClasses_markFar_leaves {γ : Type} {p : Gyle → γ} (hp : ∀ g rows, p { g with rows } = p g) (s : State)
    (homes : List Nat) (g : Gyle) : p (numberClasses (homes.foldl (fun g h => markFar s h g) g)) = p g :=
  (hp _ _).trans (foldl_leaves (fun g h => markFar_leaves hp s h g) g homes)

/-- The end of pass 1 stores the gyle with its far-applied rows, opens it at their homes and fetches the rest (R218). -/
theorem rowListsStand_decideFar (s : State) (k : GyleKey) : RowListsStand s (decideFar s k) := by
  unfold decideFar
  split
  · exact .refl s
  · rename_i g hg
    split
    · exact .refl s
    · extract_lets homes g1 used s1
      have hkey : g1.key = k := (numberClasses_markFar_leaves (p := Gyle.key) (fun _ _ => rfl) s homes g).trans (gyle_key hg)
      have hrow : g1.rowList = g.rowList := numberClasses_markFar_leaves (p := Gyle.rowList) (fun _ _ => rfl) s homes g
      have h1 : RowListsStand s s1 := .setGyle (x := { g1 with decided := true, farHomes := used }) (by rwa [← hkey] at hg) hrow
      have h2 : RowListsStand s1 (used.foldl (fun t h => openFar t k h) s1) := .foldl (fun t h => (Aside.refl t).openFar.rowListsStand) s1 used
      exact (h1.trans h2).trans (rowListsStand_fetchRest _ k)

/-! ### `GYLE_ROWS` and `GYLE_CLOSE` -/

@[simp] theorem clearFront_posted (s : State) (c : Nat) : ((clearFront s c).ctx c).posted = (s.ctx c).posted := by simp [clearFront]

@[simp] theorem releaseResv_posted (s : State) (c : Nat) : ((releaseResv s c).ctx c).posted = (s.ctx c).posted := by simp [releaseResv]

@[simp] theorem acceptSilent_posted (s : State) (c : Nat) : ((acceptSilent s c).ctx c).posted = (s.ctx c).posted := by simp [acceptSilent]

@[simp] theorem readRowMap_ctxs (s : State) (c num first addr n : Nat) : (readRowMap s c num first addr n).ctxs = s.ctxs := by
  unfold readRowMap
  split
  · rfl
  · simp

theorem fillingOpen_of_gyle {s : State} {k : GyleKey} {g : Gyle} (hg : s.gyle k = some g) (hst : g.st = .filling) (hclosed : g.closed = false) :
    fillingOpen s k = true := by
  simp [fillingOpen, hg, hst, hclosed]

/-- The row list that a gyle has after `GYLE_ROWS`. -/
def withRows (g : Gyle) (d : Desc) (seq : Seq) : Gyle :=
  { g with
    rowsGiven := g.rowsGiven + d.rowCount, chunks := g.chunks ++ [(g.rowsGiven, seq)], areaBytes := areaFor (g.rowsGiven + d.rowCount) }

/-- The state in which `GYLE_ROWS` has its room in T2. -/
def rowsRoom (s : State) (g : Gyle) (d : Desc) : State := makeT2 s (areaFor (g.rowsGiven + d.rowCount) - g.areaBytes) 256

theorem rowsRoom_ctxs (s : State) (g : Gyle) (d : Desc) : (rowsRoom s g d).ctxs = s.ctxs := (Aside.refl s).makeT2.ctxs

theorem addRows_of_gyle {s : State} {c : Nat} {d : Desc} {g : Gyle} (hg : s.gyle (ownGyle c d.gyle) = some g) :
    addRows c d s = acceptSilent (readRowMap (setGyle (rowsRoom s g d) (withRows g d (rowsRoom s g d).gauger.seq))
      c d.gyle g.rowsGiven d.addr d.rowCount) c := by
  unfold addRows
  simp only [hg]
  rfl

theorem addRows_gyle {s : State} {c : Nat} {d : Desc} {g : Gyle} (hg : s.gyle (ownGyle c d.gyle) = some g) :
    (addRows c d s).gyle (ownGyle c d.gyle) = some (withRows g d (rowsRoom s g d).gauger.seq) := by
  have hgyle := setGyle_gyle_self (rowsRoom s g d) (withRows g d (rowsRoom s g d).gauger.seq)
  rw [addRows_of_gyle hg, ← gyle_key hg, ← hgyle]
  exact gyle_of_gyles (by rw [acceptSilent_gyles, readRowMap_gyles]) _

theorem addRows_posted {s : State} {c : Nat} {d : Desc} {g : Gyle} (hg : s.gyle (ownGyle c d.gyle) = some g) :
    ((addRows c d s).ctx c).posted = (s.ctx c).posted := by
  rw [addRows_of_gyle hg, acceptSilent_posted, ctx_of_ctxs (readRowMap_ctxs ..), ctx_of_ctxs (setGyle_ctxs ..), ctx_of_ctxs (rowsRoom_ctxs ..)]

theorem closeGyle_posted (c : Nat) (fr : Front) (d : Desc) (s : State) : ((closeGyle c fr d s).ctx c).posted = (s.ctx c).posted := by
  unfold closeGyle
  extract_lets k s1
  have h1 : (decideFar s1 k).ctxs = s.ctxs := (rowListsStand_decideFar s1 k).ctxs.trans (by simp [s1])
  rw [afterCmd_posted, clearFront_posted, ctx_of_ctxs h1]

theorem closeGyle_rowList {s : State} {c : Nat} {fr : Front} {d : Desc} {g : Gyle} (hg : s.gyle (ownGyle c d.gyle) = some g) :
    ((closeGyle c fr d s).gyle (ownGyle c d.gyle)).map Gyle.rowList = some (true, some fr.sqIndex, s.gauger.seq, g.rowsGiven) := by
  unfold closeGyle
  extract_lets k s1
  have h1 : s1.gyle k = some _ := modGyle_gyle_self _ hg
  rw [gyle_of_gyles (s := decideFar s1 k) (by simp), (rowListsStand_decideFar s1 k).rowList, h1]
  rfl

theorem gyleRows_of_taken {s : State} {c : Nat} {fr : Front} {d : Desc} {img : List Byte} {g : Gyle} (h : Taken s c 0x02 fr d img)
    (hstate : stateStatus s c d.opcode = none) (hg : s.gyle (ownGyle c d.gyle) = some g) (hst : g.st = .filling) (hclosed : g.closed = false)
    (hrows : g.rowsGiven + d.rowCount ≤ 1048576)
    (hquota : ctxT2 s c + (areaFor (g.rowsGiven + d.rowCount) - g.areaBytes) ≤ ctxT2Quota s c)
    (hroom : areaFor (g.rowsGiven + d.rowCount) - g.areaBytes ≤ t2Room s) : gyleRows c s = addRows c d (stamp s) := by
  rw [gyleRows, onFront_of_taken h]
  simp [hg, hstate, hrows, hquota, hroom, fillingOpen_of_gyle hg hst hclosed, firstBad, need, needState, decideCmd]

theorem gyleClose_of_taken {s : State} {c : Nat} {fr : Front} {d : Desc} {img : List Byte} {g : Gyle} (h : Taken s c 0x03 fr d img)
    (hstate : stateStatus s c d.opcode = none) (hg : s.gyle (ownGyle c d.gyle) = some g) (hst : g.st = .filling) (hclosed : g.closed = false) :
    gyleClose c s = closeGyle c fr d (stamp s) := by
  rw [gyleClose, onFront_of_taken h]
  simp [hstate, fillingOpen_of_gyle hg hst hclosed, firstBad, need, needState, decideCmd]

end Sys2Proof.Machine
end

open Sys2Proof Sys2Proof.Machine in
/-- Settles O9: both commands write the row list at their stamped event, and what follows, the room that `GYLE_ROWS` takes from T2 and the
end of pass 1 that `GYLE_CLOSE` may bring, leaves the row lists and the rings. -/
theorem rowListCommandsComplete : Obligations.RowListCommandsComplete := by
  unfold Obligations.RowListCommandsComplete
  intro c s fr d img g hstate hg hst hclosed
  have hg' : (stamp s).gyle (ownGyle c d.gyle) = some g := (gyle_of_gyles (stamp_gyles s) _).trans hg
  constructor
  · rintro h hrows ⟨hquota, hroom⟩
    have hexec := gyleRows_of_taken h hstate hg hst hclosed hrows hquota hroom
    refine ⟨addRows c d (stamp s), congrArg Host.Outcome.next hexec, ?_, _, addRows_gyle hg', rfl, hclosed, rfl, rfl, rfl⟩
    rw [addRows_posted hg', stamp_ctx]
  · intro h
    obtain ⟨g', hg1, hrow⟩ := Option.map_eq_some_iff.mp (closeGyle_rowList (fr := fr) hg')
    simp only [Gyle.rowList, Prod.mk.injEq] at hrow
    obtain ⟨hc, hsq, hseq, hgiven⟩ := hrow
    have hexec := gyleClose_of_taken h hstate hg hst hclosed
    refine ⟨closeGyle c fr d (stamp s), congrArg Host.Outcome.next hexec, ?_, g', hg1, hc, hsq, hseq, hgiven⟩
    rw [closeGyle_posted, stamp_ctx]

section
/-! PROOFS. What the work of the tiers, the casks and the kiln's log can do to the state at all: it writes few parts of it, and in the
catalogue only which tensors T4 has released. -/
namespace Sys2Proof.Machine

-- Each proof waits for the one before it: all at once would each hold a thread.
set_option Elab.async false

/-- The state after work of the tiers and casks: events are stamped, casks, copies, streams and records of the kiln change, messages and
commands leave, and what T4 holds of a version is noted with it (R202). -/
inductive CellarWork (s : State) : State → Prop where
  | refl : CellarWork s s
  | other {t : State} (h : CellarWork s t) {gauger log pages cellar tiers kiln boundary outs freeCtr txSeq} :
      CellarWork s { t with
        gauger, log, pages, cellar, tiers, kiln, boundary, outs, freeCtr
        homes := { t.homes with txSeq } }
  | t4Gone {t : State} (h : CellarWork s t) {epoch : Nat} {a : AdapterId} {v : Nat} {gone : Ver → List Nat} :
      CellarWork s (modVerOf t epoch a v fun y => { y with t4Gone := gone y })

variable {s₀ s t : State}

protected theorem CellarWork.foldl {α : Type} {g : State → α → State} {l : List α} (h : CellarWork s₀ s)
    (hg : ∀ {t}, CellarWork s₀ t → ∀ a, CellarWork s₀ (g t a)) : CellarWork s₀ (l.foldl g s) := by
  induction l generalizing s with
  | nil => exact h
  | cons a l ih => exact ih (hg h a)

protected theorem CellarWork.ite {c : Prop} [Decidable c] (hs : CellarWork s₀ s) (ht : CellarWork s₀ t) :
    CellarWork s₀ (if c then s else t) := by
  split
  · exact hs
  · exact ht

theorem reserveBlock_only (s : State) (b : Nat) : reserveBlock s b =
    { s with gauger := (reserveBlock s b).gauger, log := (reserveBlock s b).log, pages := (reserveBlock s b).pages } := by
  unfold reserveBlock
  extract_lets
  split <;> rfl

/-- A stamp writes the gauger, and the log book where it enters a block of sequences (R313). -/
theorem stamp_only (s : State) : stamp s = { s with gauger := (stamp s).gauger, log := (stamp s).log, pages := (stamp s).pages } := by
  unfold stamp
  extract_lets n
  split
  · exact congrArg (fun t : State => { t with gauger := { t.gauger with seq := n + 1 } }) (reserveBlock_only s (n / 2 ^ 32))
  · rfl

protected theorem CellarWork.stamp (h : CellarWork s₀ s) : CellarWork s₀ (stamp s) := by
  rw [stamp_only]
  exact h.other

protected theorem CellarWork.cellar {cellar} (h : CellarWork s₀ s) : CellarWork s₀ { s with cellar } := h.other

protected theorem CellarWork.modCask {i f} (h : CellarWork s₀ s) : CellarWork s₀ (modCask s i f) := h.other

protected theorem CellarWork.bumpFree (h : CellarWork s₀ s) : CellarWork s₀ (bumpFree s) := h.other

protected theorem CellarWork.emit {o} (h : CellarWork s₀ s) : CellarWork s₀ (emit s o) := h.other

protected theorem CellarWork.emitAll {os} (h : CellarWork s₀ s) : CellarWork s₀ (emitAll s os) := h.other

protected theorem CellarWork.sendMsg {m} (h : CellarWork s₀ s) : CellarWork s₀ (sendMsg s m) := by
  fun_cases sendMsg s m
  · exact h
  · exact h.other.emit

/-! ### The kiln's log -/

protected theorem CellarWork.issueFlash {d cs} (h : CellarWork s₀ s) : CellarWork s₀ (issueFlash s d cs) := h.emitAll

protected theorem CellarWork.modBlock {b f} (h : CellarWork s₀ s) : CellarWork s₀ (modBlock s b f) := h.other

protected theorem CellarWork.openBlock {a b} (h : CellarWork s₀ s) : CellarWork s₀ (openBlock s a b) := by
  fun_cases openBlock s a b
  · exact h.modBlock.other
  · exact h.modBlock.other
  · exact h.modBlock.other
  · exact h.modBlock

protected theorem CellarWork.takePages {a n x} (h : CellarWork s₀ s) (ht : takePages s a n = some x) : CellarWork s₀ x.1 := by
  revert ht
  fun_cases takePages s a n
  · rintro ⟨⟩
    dsimp only
    exact h.modBlock
  · rintro ⟨⟩
  · rintro ⟨⟩
  · rintro ⟨⟩
    dsimp only
    exact (h.ite h.modBlock).openBlock.modBlock

protected theorem CellarWork.issueProgram {slc p} (h : CellarWork s₀ s) : CellarWork s₀ (issueProgram s slc p) := h.issueFlash

protected theorem CellarWork.programPage {slc p page} (h : CellarWork s₀ s) : CellarWork s₀ (programPage s slc p page) :=
  h.other.issueProgram

protected theorem CellarWork.programParity {slc stripe} (h : CellarWork s₀ s) : CellarWork s₀ (programParity s slc stripe) :=
  h.programPage.programPage

protected theorem CellarWork.programRuns {slc key index runs chunks} (h : CellarWork s₀ s) :
    CellarWork s₀ (programRuns s slc key index runs chunks) :=
  (h.foldl fun k _ => k.programPage).foldl fun k _ => k.programParity

protected theorem CellarWork.writePages {a key index ct x} (h : CellarWork s₀ s) (ht : writePages s a key index ct = some x) :
    CellarWork s₀ x.1 := by
  obtain ⟨_, htaken, rfl⟩ := Option.map_eq_some_iff.mp ht
  exact (h.takePages htaken).programRuns

protected theorem CellarWork.startErase {b} (h : CellarWork s₀ s) : CellarWork s₀ (startErase s b) := by
  rw [startErase_only]
  exact h.other

protected theorem CellarWork.startCheckpoint (h : CellarWork s₀ s) : CellarWork s₀ (startCheckpoint s) := by
  fun_cases startCheckpoint s
  · exact h
  · exact (h.foldl fun k _ => k.startErase).other

protected theorem CellarWork.journalPut {j} (h : CellarWork s₀ s) : CellarWork s₀ (journalPut s j) := by
  unfold journalPut
  extract_lets s1 j1 j2 _ s2
  have h1 : CellarWork s₀ s1 := by
    unfold s1
    split
    · exact (h.takePages ‹_›).foldl fun k _ => k.issueProgram
    · exact h
  have h2 : CellarWork s₀ s2 := h1.other
  exact h2.startCheckpoint.ite h2

protected theorem CellarWork.writeTensor {x epoch v i} (h : CellarWork s₀ s) : CellarWork s₀ (writeTensor s x epoch v i) := by
  fun_cases writeTensor s x epoch v i
  · exact h
  · exact (h.writePages ‹_›).bumpFree.journalPut

/-! ### Copies in T2 and T3 -/

protected theorem CellarWork.refreshHolds (h : CellarWork s₀ s) : CellarWork s₀ (refreshHolds s) := h.foldl fun k _ => k.modCask

protected theorem CellarWork.sendTensor {m v i} (h : CellarWork s₀ s) : CellarWork s₀ (sendTensor s m v i) := h.sendMsg

protected theorem CellarWork.writeT3 {b w} (h : CellarWork s₀ s) : CellarWork s₀ (writeT3 s b w) :=
  (h.foldl fun k _ => k.sendTensor).other

protected theorem CellarWork.backToT4 {epoch a v idx} (h : CellarWork s₀ s) : CellarWork s₀ (backToT4 s epoch a v idx) := by
  fun_cases backToT4 s epoch a v idx
  · exact h
  · exact (h.foldl fun k _ => k.stamp.writeTensor).t4Gone

protected theorem CellarWork.dropWarm {w} (h : CellarWork s₀ s) : CellarWork s₀ (dropWarm s w) := by
  fun_cases dropWarm s w
  · exact h.other.backToT4.writeT3
  · exact h.other.backToT4

protected theorem CellarWork.makeT2 {need below} (h : CellarWork s₀ s) : CellarWork s₀ (makeT2 s need below) := by
  fun_cases makeT2 s need below
  · exact h
  · exact h
  · exact h.foldl fun k _ => k.ite k.dropWarm

protected theorem CellarWork.addWarm {w idx} (h : CellarWork s₀ s) : CellarWork s₀ (addWarm s w idx) := by
  unfold addWarm
  extract_lets _ _ _ s1 _ _ _
  have h1 : CellarWork s₀ s1 := h.ite h.other
  exact h1.other

protected theorem CellarWork.placeWarm {w idx} (h : CellarWork s₀ s) : CellarWork s₀ (placeWarm s w idx) := by
  fun_cases placeWarm s w idx
  · exact h.makeT2.addWarm
  · exact h

protected theorem CellarWork.moveDownCask {c} (h : CellarWork s₀ s) : CellarWork s₀ (moveDownCask s c) := by
  fun_cases moveDownCask s c
  · exact h.makeT2.addWarm
  · exact h.backToT4

protected theorem CellarWork.demote {c} (h : CellarWork s₀ s) : CellarWork s₀ (demote s c) := by
  fun_cases demote s c
  · exact h
  · exact h.moveDownCask
  · exact h
  · exact h.placeWarm

/-! ### Freeing, evicting and admitting -/

protected theorem CellarWork.keepStreams {keep} (h : CellarWork s₀ s) : CellarWork s₀ (keepStreams s keep) := h.other

protected theorem CellarWork.dropCask {i} (h : CellarWork s₀ s) : CellarWork s₀ (dropCask s i) := h.other.keepStreams

protected theorem CellarWork.evictRaw {i} (h : CellarWork s₀ s) : CellarWork s₀ (evictRaw s i) := by
  fun_cases evictRaw s i
  · exact h.other.demote.dropCask
  · exact h.other.modCask

protected theorem CellarWork.moveUllage {i} (h : CellarWork s₀ s) : CellarWork s₀ (moveUllage s i) := by
  fun_cases moveUllage s i
  · exact h
  · exact .ite (h.foldl fun k _ => k.evictRaw).modCask (h.foldl fun k _ => k.evictRaw)
  · exact h

protected theorem CellarWork.moveAllUllage (h : CellarWork s₀ s) : CellarWork s₀ (moveAllUllage s) := h.foldl fun k _ => k.moveUllage

protected theorem CellarWork.freeCask {i} (h : CellarWork s₀ s) : CellarWork s₀ (freeCask s i) := h.dropCask.refreshHolds.moveAllUllage

protected theorem CellarWork.evictAll {is} (h : CellarWork s₀ s) : CellarWork s₀ (evictAll s is) :=
  (h.foldl fun k _ => k.evictRaw).refreshHolds

protected theorem CellarWork.freeStale (h : CellarWork s₀ s) : CellarWork s₀ (freeStale s) := h.foldl fun k _ => k.freeCask.ite k

protected theorem CellarWork.coverGrowth (h : CellarWork s₀ s) : CellarWork s₀ (coverGrowth s) := h.evictAll

protected theorem CellarWork.addStream {i r} (h : CellarWork s₀ s) : CellarWork s₀ (addStream s i r) := by
  fun_cases addStream s i r
  · exact h
  · exact h.other

protected theorem CellarWork.placePart {r probation p} (h : CellarWork s₀ s) : CellarWork s₀ (placePart r probation s p) := by
  fun_cases placePart r probation s p
  · exact h.modCask
  · exact h
  · exact h.modCask.addStream

protected theorem CellarWork.placeParts {r probation} (h : CellarWork s₀ s) : CellarWork s₀ (placeParts s r probation) :=
  (h.foldl fun k _ => k.placePart).refreshHolds

protected theorem CellarWork.takeIndices {r probation} (h : CellarWork s₀ s) : CellarWork s₀ (takeIndices s r probation).s := by
  fun_cases takeIndices s r probation
  · exact h
  · exact h.evictAll.placeParts
  · exact h.evictAll

protected theorem CellarWork.evictAndPlace {r vs probation} (h : CellarWork s₀ s) :
    CellarWork s₀ (evictAndPlace s r vs probation).s := by
  fun_cases evictAndPlace s r vs probation
  · exact h.evictAll
  · exact h.evictAll.takeIndices
  · exact h.evictAll

protected theorem CellarWork.mainStep {r} (h : CellarWork s₀ s) : CellarWork s₀ (mainStep s r).s := by
  fun_cases mainStep s r
  · exact h.evictAndPlace
  · exact h

protected theorem CellarWork.probationStep {r} (h : CellarWork s₀ s) : CellarWork s₀ (probationStep s r).s := by
  fun_cases probationStep s r
  · exact (h.ite h.other).mainStep
  · exact (h.ite h.other).evictAndPlace
  · exact (h.ite h.other).mainStep

protected theorem CellarWork.spaceSteps {r} (h : CellarWork s₀ s) : CellarWork s₀ (spaceSteps s r).s := by
  fun_cases spaceSteps s r
  · exact h.takeIndices
  · exact h
  · exact h.mainStep
  · exact h.probationStep

protected theorem CellarWork.tryAdmit {r} (h : CellarWork s₀ s) : CellarWork s₀ (tryAdmit s r).s := by
  fun_cases tryAdmit s r
  · exact h
  · exact h.evictAll.spaceSteps
  · exact h.evictAll

protected theorem CellarWork.retryOne {r} (h : CellarWork s₀ s) : CellarWork s₀ (retryOne s r).s := by
  fun_cases retryOne s r
  · exact h
  · exact h.takeIndices
  · exact h.tryAdmit
  · exact h
  · exact h.tryAdmit

protected theorem CellarWork.endAttempt {a} (h : CellarWork s₀ a.s) : CellarWork s₀ (endAttempt a) := by
  unfold endAttempt noteNoSpace
  split
  · exact h.moveAllUllage
  · split
    · exact h.moveAllUllage.other
    · exact h.moveAllUllage.other.other

protected theorem CellarWork.unqueue {r} (h : CellarWork s₀ s) : CellarWork s₀ (unqueue s r) := h.other

protected theorem CellarWork.modWaiting {f} (h : CellarWork s₀ s) : CellarWork s₀ (modWaiting s f) := h.other

/-! ### Releases -/

protected theorem CellarWork.retryAdmits {l} (h : CellarWork s₀ s) : CellarWork s₀ (retryAdmits l s) := by
  fun_induction retryAdmits l s with
  | case1 => exact h
  | case2 _ _ _ _ _ ih => exact ih h.unqueue.retryOne.endAttempt
  | case3 _ _ _ _ ih => exact ih h

protected theorem CellarWork.takePromises (h : CellarWork s₀ s) : CellarWork s₀ (takePromises s) := h.evictAll.modWaiting

protected theorem CellarWork.releaseFrom {free0} (h : CellarWork s₀ s) : CellarWork s₀ (releaseFrom free0 s) := by
  unfold releaseFrom
  extract_lets s1 _ s2
  have h1 : CellarWork s₀ s1 := h.refreshHolds.freeStale.moveAllUllage.coverGrowth.takePromises
  have h2 : CellarWork s₀ s2 := h1.cellar
  exact h2.retryAdmits

protected theorem CellarWork.releaseBy {f} (h : CellarWork s₀ s) (hf : ∀ {t}, CellarWork s₀ t → CellarWork s₀ (f t)) :
    CellarWork s₀ (releaseBy s f) :=
  (hf h).releaseFrom

protected theorem CellarWork.staleCask {epoch a v} (h : CellarWork s₀ s) : CellarWork s₀ (staleCask s epoch a v) := by
  fun_cases staleCask s epoch a v
  · exact h
  · exact h.freeCask
  · exact h.modCask

protected theorem CellarWork.unbindGyle {k} (h : CellarWork s₀ s) : CellarWork s₀ (unbindGyle s k) :=
  h.releaseBy fun k => k.foldl fun k2 _ => k2.modCask

protected theorem CellarWork.installCask {v old written commit} (h : CellarWork s₀ s) :
    CellarWork s₀ (installCask s v old written commit) := by
  unfold installCask
  extract_lets _ _ _ _ _ _ s1
  have h1 : CellarWork s₀ s1 := by
    unfold s1
    split
    · exact h
    · exact h.modCask.addStream.ite h.modCask
  exact h1.releaseBy fun k => k.staleCask

protected theorem CellarWork.syncDirty {a} (h : CellarWork s₀ s) : CellarWork s₀ (syncDirty s a) := by
  fun_cases syncDirty s a
  · exact h
  · exact h.modCask

/-- The index of a publication is found by evictions alone (R168, R173). -/
protected theorem CellarWork.findIndex {p} (h : CellarWork s₀ s) : CellarWork s₀ (findIndex s p).1 := by
  fun_cases findIndex s p
  · exact h
  · exact h.evictAll

end Sys2Proof.Machine
end

section
/-! PROOFS. The work of the tiers and casks leaves what the joins of R16, R23 and R25 look at
(`Obligations.PublicationMakesTheVersionCurrent`). -/
namespace Sys2Proof.Machine

/-! ### Tables -/

theorem mem_tput {α : Type} {k : Nat} {v : α} {t : Tab α} {e : Nat × α} (h : e ∈ tput k v t) : e = (k, v) ∨ e ∈ t := by
  fun_induction tput k v t <;> grind

theorem mem_tdel {α : Type} {k : Nat} {t : Tab α} {e : Nat × α} (h : e ∈ tdel k t) : e ∈ t := by
  fun_induction tdel k t <;> grind

/-- What a table does not list has the default value. -/
theorem mem_of_tget_ne {α : Type} {d : α} {t : Tab α} {k : Nat} (h : tget d t k ≠ d) : (k, tget d t k) ∈ t := by
  fun_induction tget d t k <;> grind

/-- A change that leaves the default value writes entries that stand in the table. -/
theorem mem_tmod {α : Type} [DecidableEq α] {d : α} {t : Tab α} {k : Nat} {f : α → α} (hd : f d = d) {e : Nat × α}
    (h : e ∈ tmod d t k f) : e ∈ t ∨ ∃ x, (k, x) ∈ t ∧ e = (k, f x) := by
  unfold tmod tset at h
  split at h
  · exact .inl (mem_tdel h)
  · rename_i hne
    rcases mem_tput h with rfl | h
    · exact .inr ⟨_, mem_of_tget_ne fun hx => hne (by rw [hx, hd]), rfl⟩
    · exact .inl h

theorem tget_filter_key {α : Type} (d : α) (p : Nat → Bool) (t : Tab α) (k : Nat) :
    tget d (t.filter fun e => p e.1) k = if p k then tget d t k else d := by
  induction t with
  | nil => simp
  | cons e t ih =>
    by_cases hp : p e.1 <;> by_cases hk : e.1 = k <;> simp_all [tget]

/-! ### What the joins look at -/

/-- A version but for the tensors that T4 has released. -/
def Ver.bare (v : Ver) : Ver := { v with t4Gone := [] }

/-- An adapter's record but for the tensors that T4 has released. -/
def Adapter.bare (x : Adapter) : Adapter := { x with versions := x.versions.map Ver.bare }

theorem Adapter.cur_bare (x : Adapter) : x.bare.cur = x.cur.map Ver.bare := by
  unfold Adapter.cur Adapter.ver
  by_cases hx : x.current = 0
  · rw [if_pos hx, if_pos (show x.bare.current = 0 from hx), Option.map_none]
  · rw [if_neg hx, if_neg (show x.bare.current ≠ 0 from hx)]
    exact List.find?_map

theorem Adapter.cur_of_bare {x y : Adapter} (h : x.bare = y.bare) : x.cur.map Ver.bare = y.cur.map Ver.bare := by
  rw [← cur_bare, h, cur_bare]

/-- Two catalogues that differ in the tensors that T4 has released alone; the second may list an adapter in another place. -/
structure SameHeaders (c d : Catalogue) : Prop where
  adapter : ∀ a, (d.adapter a).bare = (c.adapter a).bare
  listed : ∀ e ∈ d.adapters, ∃ x ∈ c.adapters, x.1 = e.1 ∧ x.2.bare = e.2.bare

variable {c d : Catalogue}

protected theorem SameHeaders.refl (c : Catalogue) : SameHeaders c c := ⟨fun _ => rfl, fun e he => ⟨e, he, rfl, rfl⟩⟩

protected theorem SameHeaders.trans {e : Catalogue} (h : SameHeaders c d) (k : SameHeaders d e) : SameHeaders c e where
  adapter a := (k.adapter a).trans (h.adapter a)
  listed x hx := by
    obtain ⟨y, hy, hyk, hyb⟩ := k.listed x hx
    obtain ⟨z, hz, hzk, hzb⟩ := h.listed y hy
    exact ⟨z, hz, hzk.trans hyk, hzb.trans hyb⟩

/-- A change of one adapter's record that leaves its headers. -/
theorem SameHeaders.tmod (c : Catalogue) (a : AdapterId) {f : Adapter → Adapter} (hf : ∀ x, (f x).bare = x.bare) (hd : f {} = {}) :
    SameHeaders c { c with adapters := tmod {} c.adapters a f } where
  adapter b := by
    unfold Catalogue.adapter
    by_cases hb : b = a
    · rw [hb, tget_tmod_self, hf]
    · rw [tget_tmod_ne _ _ _ hb]
  listed e he := by
    rcases mem_tmod hd he with he | ⟨x, hx, rfl⟩
    · exact ⟨e, he, rfl, rfl⟩
    · exact ⟨(a, x), hx, rfl, (hf x).symm⟩

theorem SameHeaders.cur (h : SameHeaders c d) (a : AdapterId) : (d.adapter a).cur.map Ver.bare = (c.adapter a).cur.map Ver.bare :=
  Adapter.cur_of_bare (h.adapter a)

theorem SameHeaders.current (h : SameHeaders c d) (a : AdapterId) : (d.adapter a).current = (c.adapter a).current :=
  (congrArg (·.current) (h.adapter a) :)

theorem SameHeaders.retired (h : SameHeaders c d) (a : AdapterId) : (d.adapter a).retired = (c.adapter a).retired :=
  (congrArg (·.retired) (h.adapter a) :)

/-- Both keep the adapters that pass a test of their IDs. -/
theorem SameHeaders.filter (h : SameHeaders c d) (p : Nat → Bool) :
    SameHeaders { c with adapters := c.adapters.filter fun e => p e.1 } { d with adapters := d.adapters.filter fun e => p e.1 } where
  adapter a := by
    have hc := h.adapter a
    simp only [Catalogue.adapter, tget_filter_key] at hc ⊢
    split
    · exact hc
    · rfl
  listed e he := by
    obtain ⟨hd, hp⟩ := List.mem_filter.mp he
    obtain ⟨x, hx, hk, hb⟩ := h.listed e hd
    exact ⟨x, List.mem_filter.mpr ⟨hx, by rwa [hk]⟩, hk, hb⟩

theorem memberJoin_bare (h : AdapterHdr) (es : List SlotEntry) (b : Adapter) : memberJoin h es b.bare = memberJoin h es b := by
  unfold memberJoin
  rw [Adapter.cur_bare]
  cases b.cur <;> rfl

theorem SameHeaders.ownJoin (hc : SameHeaders c d) (h : AdapterHdr) (es : List SlotEntry) : ownJoin d h es = ownJoin c h es := by
  unfold Machine.ownJoin
  rw [← memberJoin_bare, hc.adapter, memberJoin_bare]

/-- Headers and slots of the members that the second catalogue lists for a basis stand in the first one. -/
theorem SameHeaders.membersOf (hc : SameHeaders c d) {b : AdapterId} {m : Ver} (hm : m ∈ membersOf d b) :
    ∃ n ∈ membersOf c b, n.bare = m.bare := by
  obtain ⟨e, he, hem⟩ := List.mem_filterMap.mp hm
  obtain ⟨x, hx, -, hb⟩ := hc.listed e he
  have hcur := Adapter.cur_of_bare hb
  have hret : x.2.retired = e.2.retired := congrArg (·.retired) hb
  cases hv : e.2.cur with
  | none => simp [hv] at hem
  | some v =>
    obtain ⟨n, hn, hnv⟩ := Option.map_eq_some_iff.mp (hcur.trans (by rw [hv]; rfl))
    have hhdr : n.hdr = v.hdr := congrArg (·.hdr) hnv
    simp only [hv, Option.ite_none_right_eq_some, Option.some.injEq] at hem
    obtain ⟨hcond, rfl⟩ := hem
    exact ⟨n, List.mem_filterMap.mpr ⟨x, hx, by simp only [hn, hhdr, hret, hcond, if_true]⟩, hnv⟩

theorem SameHeaders.basisJoin (hc : SameHeaders c d) {h : AdapterHdr} {es : List SlotEntry} (hj : basisJoin c h es = none) :
    basisJoin d h es = none := by
  unfold Machine.basisJoin at hj ⊢
  split at hj
  · rename_i hform
    rw [if_pos hform, List.findSome?_eq_none_iff] at *
    intro m hm
    obtain ⟨n, hn, hnm⟩ := hc.membersOf hm
    have hhdr : n.hdr = m.hdr := congrArg (·.hdr) hnm
    have hslots : n.slots = m.slots := congrArg (·.slots) hnm
    rw [← hhdr, ← hslots]
    exact hj n hn
  · rename_i hform
    have hnone : Machine.membersOf c h.id = [] := by simpa using hj
    have : Machine.membersOf d h.id = [] := List.eq_nil_iff_forall_not_mem.mpr fun m hm => by
      obtain ⟨n, hn, -⟩ := hc.membersOf hm
      simp [hnone] at hn
    simp [hform, this]

theorem SameHeaders.setAt (hc : SameHeaders c d) (base k : Nat) : setAt d base k = setAt c base k := by
  have hcur := hc.cur base
  unfold Machine.setAt
  rw [hc.retired]
  cases hv : (c.adapter base).cur with
  | none => simp_all
  | some v =>
    obtain ⟨w, hw, hwv⟩ := Option.map_eq_some_iff.mp (hcur.trans (by rw [hv]; rfl))
    have hhdr : w.hdr = v.hdr := congrArg (·.hdr) hwv
    simp only [hw, hhdr]

theorem SameHeaders.bucketJoin (hc : SameHeaders c d) {h : AdapterHdr} (hj : bucketJoin c h = none) : bucketJoin d h = none := by
  unfold Machine.bucketJoin at hj ⊢
  simp only [hc.setAt, Option.or_eq_none_iff] at hj ⊢
  refine ⟨hj.1, ?_⟩
  have hj2 := hj.2
  split
  · rename_i hb
    rw [if_pos hb, List.findSome?_eq_none_iff] at *
    intro o ho
    obtain ⟨e, he, heo⟩ := List.mem_filterMap.mp ho
    obtain ⟨x, hx, hk, hbare⟩ := hc.listed e he
    have hcur : x.2.cur.map (·.hdr) = e.2.cur.map (·.hdr) := by
      have h := congrArg (Option.map Ver.hdr) (Adapter.cur_of_bare hbare)
      rwa [Option.map_map, Option.map_map] at h
    have hret : x.2.retired = e.2.retired := congrArg (·.retired) hbare
    exact hj2 o (List.mem_filterMap.mpr ⟨x, hx, by rw [hk, hret, hcur]; exact heo⟩)
  · rfl

/-- A join that holds in a catalogue holds in one with the same headers. -/
theorem SameHeaders.joinBad (hc : SameHeaders c d) {h : AdapterHdr} {es : List SlotEntry} (hj : joinBad c h es = none) :
    joinBad d h es = none := by
  simp only [Machine.joinBad, Option.map_eq_none_iff, joinStatus, Option.or_eq_none_iff] at hj ⊢
  obtain ⟨hown, hbasis, hbucket⟩ := hj
  exact ⟨(hc.ownJoin h es).trans hown, hc.basisJoin hbasis, hc.bucketJoin hbucket⟩

/-! ### States with the same joins -/

/-- The joins, the homes and the waiting publishes stand as they did. -/
structure JoinsStand (s t : State) : Prop where
  headers : SameHeaders s.cat t.cat
  epoch : t.cat.epoch = s.cat.epoch
  shard : t.cat.shard = s.cat.shard
  exceptions : t.cat.exceptions = s.cat.exceptions
  regs : t.regs = s.regs
  leases : t.homes.leases = s.homes.leases
  publishes : t.homes.publishes = s.homes.publishes

variable {s t : State}

theorem SameHeaders.modVerOf (s : State) (epoch : Nat) (a : AdapterId) (v : Nat) (gone : Ver → List Nat) :
    SameHeaders s.cat (modVerOf s epoch a v fun y => { y with t4Gone := gone y }).cat := by
  unfold Machine.modVerOf
  extract_lets chg
  split
  · refine .tmod _ _ (fun x => ?_) rfl
    simp only [Adapter.bare, List.map_map]
    congr 1
    refine List.map_congr_left fun y _ => ?_
    simp only [Function.comp_apply]
    split <;> rfl
  · exact .refl _

/-- A change of a version leaves everything of the catalogue in force but its versions. -/
theorem modVerOf_places (s : State) (epoch : Nat) (a : AdapterId) (v : Nat) (f : Ver → Ver) :
    modVerOf s epoch a v f = { s with
      cat := { s.cat with adapters := (modVerOf s epoch a v f).cat.adapters }, catRetiring := (modVerOf s epoch a v f).catRetiring } := by
  unfold modVerOf
  extract_lets
  split <;> rfl

theorem CellarWork.joinsStand (h : CellarWork s t) : JoinsStand s t := by
  induction h with
  | refl => exact ⟨.refl _, rfl, rfl, rfl, rfl, rfl, rfl⟩
  | other _ ih => exact ⟨ih.headers, ih.epoch, ih.shard, ih.exceptions, ih.regs, ih.leases, ih.publishes⟩
  | @t4Gone u _ epoch a v gone ih =>
    have hcat := ih.headers.trans (.modVerOf u epoch a v gone)
    rw [modVerOf_places] at hcat ⊢
    exact ⟨hcat, ih.epoch, ih.shard, ih.exceptions, ih.regs, ih.leases, ih.publishes⟩

theorem JoinsStand.selfPeer (h : JoinsStand s t) : selfPeer t = selfPeer s := by
  simp only [Machine.selfPeer, regFld, reg, h.regs]

theorem JoinsStand.homeOf (h : JoinsStand s t) (a : AdapterId) : homeOf t.cat a = homeOf s.cat a := by
  simp only [Machine.homeOf, h.exceptions, h.shard]

theorem JoinsStand.homedHere (h : JoinsStand s t) (a : AdapterId) : homedHere t a = homedHere s a := by
  simp only [Machine.homedHere, h.homeOf, h.selfPeer]

theorem JoinsStand.knownIn (h : JoinsStand s t) (a : AdapterId) : knownIn t t.cat a = knownIn s s.cat a := by
  simp only [Machine.knownIn, h.homeOf, h.selfPeer, h.headers.retired, h.headers.current, h.leases, h.epoch]

theorem JoinsStand.knownCat (h : JoinsStand s t) : SameHeaders (knownCat s s.cat) (knownCat t t.cat) := by
  unfold Machine.knownCat
  simp only [h.knownIn]
  exact h.headers.filter _

/-- A publication that passes its checks passes them after work of the tiers and casks (R284). -/
theorem JoinsStand.publicationBad (h : JoinsStand s t) {p : PubPending} (hp : publicationBad s p = none) : publicationBad t p = none := by
  unfold Machine.publicationBad at hp ⊢
  dsimp only at hp ⊢
  rw [h.headers.retired, h.headers.current]
  split at hp
  · cases hp
  · split at hp
    · cases hp
    · rename_i hret hcur
      rw [if_neg hret, if_neg hcur]
      exact h.knownCat.joinBad hp

end Sys2Proof.Machine
end

section
/-! PROOFS. The publication event makes its version current (`Obligations.PublicationMakesTheVersionCurrent`): what follows in the cellar,
at the lease holders and in the commands that end leaves the current versions and the waiting publishes. -/
namespace Sys2Proof.Machine

-- Each proof waits for the one before it: all at once would each hold a thread.
set_option Elab.async false

/-! ### What leaves the current versions -/

/-- The current version of every adapter and the waiting publishes stand as they did. -/
structure CurrentStand (s t : State) : Prop where
  current : ∀ a, (t.cat.adapter a).current = (s.cat.adapter a).current := by exact fun _ => rfl
  publishes : t.homes.publishes = s.homes.publishes := by rfl

variable {s₀ s t : State}

protected theorem CurrentStand.refl (s : State) : CurrentStand s s := {}

protected theorem CurrentStand.trans {u : State} (h : CurrentStand s t) (k : CurrentStand t u) : CurrentStand s u :=
  ⟨fun a => (k.current a).trans (h.current a), k.publishes.trans h.publishes⟩

/-- The work of the tiers and casks keeps the current versions. -/
theorem CurrentStand.work (h : CurrentStand s₀ s) (k : CellarWork s t) : CurrentStand s₀ t :=
  h.trans ⟨k.joinsStand.headers.current, k.joinsStand.publishes⟩

/-- An update of other parts of the state. -/
protected theorem CurrentStand.same {gauger log pages regs ctxs planInForce planStaged catStaged staging catRetiring dir dirStaged dirOld
      handles tenantRecs gyles tuns heldGroups orphans nextHold sortRows ports spillUsed cellar tiers train homes kiln integrity repair pace
      keys boundary fuses glob outs freeCtr pending} (h : CurrentStand s₀ s)
    (hp : homes.publishes = s.homes.publishes := by with_reducible rfl) :
    CurrentStand s₀ { s with
      gauger, log, pages, regs, ctxs, planInForce, planStaged, catStaged, staging, catRetiring, dir, dirStaged, dirOld, handles, tenantRecs,
      gyles, tuns, heldGroups, orphans, nextHold, sortRows, ports, spillUsed, cellar, tiers, train, homes, kiln, integrity, repair, pace,
      keys, boundary, fuses, glob, outs, freeCtr, pending } :=
  h.trans { publishes := hp }

protected theorem CurrentStand.foldl {α : Type} {g : State → α → State} {l : List α} (h : CurrentStand s₀ s)
    (hg : ∀ {t}, CurrentStand s₀ t → ∀ a, CurrentStand s₀ (g t a)) : CurrentStand s₀ (l.foldl g s) := by
  induction l generalizing s with
  | nil => exact h
  | cons a l ih => exact ih (hg h a)

protected theorem CurrentStand.ite {c : Prop} [Decidable c] (hs : CurrentStand s₀ s) (ht : CurrentStand s₀ t) :
    CurrentStand s₀ (if c then s else t) := by
  split
  · exact hs
  · exact ht

protected theorem CurrentStand.stamp (h : CurrentStand s₀ s) : CurrentStand s₀ (stamp s) := h.work CellarWork.refl.stamp

protected theorem CurrentStand.sendMsg {m} (h : CurrentStand s₀ s) : CurrentStand s₀ (sendMsg s m) := h.work CellarWork.refl.sendMsg

protected theorem CurrentStand.sendReq {m gk} (h : CurrentStand s₀ s) : CurrentStand s₀ (sendReq s m gk) := h.sendMsg.same

protected theorem CurrentStand.reply {to_ type status args data} (h : CurrentStand s₀ s) :
    CurrentStand s₀ (reply s to_ type status args data) := h.sendMsg.same

protected theorem CurrentStand.completeLater {c cmd status cflags result} (h : CurrentStand s₀ s) :
    CurrentStand s₀ (completeLater s c cmd status cflags result) := h.trans ⟨by simp, by simp⟩

/-! ### Versions and epochs that are freed -/

theorem tget_map_current {f : Nat × Adapter → Nat × Adapter} (hk : ∀ e, (f e).1 = e.1) (hf : ∀ e, (f e).2.current = e.2.current)
    (t : Tab Adapter) (a : AdapterId) : (tget {} (t.map f) a).current = (tget {} t a).current := by
  induction t with
  | nil => rfl
  | cons e t ih =>
    by_cases ha : e.1 = a
    · simp [tget, ha, hk, hf]
    · simpa [tget, ha, hk] using ih

protected theorem CurrentStand.pruneVersions (h : CurrentStand s₀ s) : CurrentStand s₀ (pruneVersions s) :=
  h.trans { current := fun a => tget_map_current (by exact fun _ => rfl) (by exact fun _ => rfl) s.cat.adapters a }

protected theorem CurrentStand.keepStreams {keep} (h : CurrentStand s₀ s) : CurrentStand s₀ (keepStreams s keep) := h.same

protected theorem CurrentStand.endOldPrefetches {epoch} (h : CurrentStand s₀ s) : CurrentStand s₀ (endOldPrefetches s epoch) :=
  h.foldl fun k _ => k.foldl fun k2 _ => k2.stamp.completeLater.ite k2

protected theorem CurrentStand.releaseBy {f} (h : CurrentStand s₀ s) (hf : ∀ {t}, CurrentStand s₀ t → CurrentStand s₀ (f t)) :
    CurrentStand s₀ (releaseBy s f) :=
  (hf h).work CellarWork.refl.releaseFrom

protected theorem CurrentStand.dropEpoch {epoch} (h : CurrentStand s₀ s) : CurrentStand s₀ (dropEpoch s epoch) :=
  h.releaseBy fun k => k.same.keepStreams.endOldPrefetches

protected theorem CurrentStand.releaseEpoch (h : CurrentStand s₀ s) : CurrentStand s₀ (releaseEpoch s) := by
  fun_cases releaseEpoch s
  · exact h
  · exact h
  · exact (h.ite (h.same.foldl fun k _ => k.sendMsg)).dropEpoch
  · exact h.ite (h.same.foldl fun k _ => k.sendMsg)

protected theorem CurrentStand.releaseHolds {g} (h : CurrentStand s₀ s) : CurrentStand s₀ (releaseHolds s g) :=
  (h.foldl fun k _ => k.sendMsg).same

protected theorem CurrentStand.dropGyle {k} (h : CurrentStand s₀ s) : CurrentStand s₀ (dropGyle s k) := h.same

protected theorem CurrentStand.unbindGyle {k} (h : CurrentStand s₀ s) : CurrentStand s₀ (unbindGyle s k) :=
  h.work CellarWork.refl.unbindGyle

protected theorem CurrentStand.freeHandles (h : CurrentStand s₀ s) : CurrentStand s₀ (freeHandles s) := h.same

protected theorem CurrentStand.settleDirectory (h : CurrentStand s₀ s) : CurrentStand s₀ (settleDirectory s) := h.same

protected theorem CurrentStand.releaseGyle {k} (h : CurrentStand s₀ s) : CurrentStand s₀ (releaseGyle s k) := by
  fun_cases releaseGyle s k
  · exact h
  · exact h.releaseHolds.dropGyle.same.unbindGyle.pruneVersions.freeHandles.settleDirectory.releaseEpoch

/-! ### Commands that waited for lease holders -/

protected theorem CurrentStand.endSupersede {w} (h : CurrentStand s₀ s) : CurrentStand s₀ (endSupersede s w) := by
  unfold endSupersede
  extract_lets s1 s2
  have h2 : CurrentStand s₀ s2 := by
    unfold s2
    split
    · exact h.stamp.reply
    · exact h.stamp
  clear_value s2
  split
  · exact h2
  · extract_lets s3 k
    have h3 : CurrentStand s₀ s3 := by
      unfold s3
      split
      · exact h2.completeLater
      · exact h2
    clear_value s3
    exact .ite h3.same.releaseGyle h3

protected theorem CurrentStand.endSupersedes (h : CurrentStand s₀ s) : CurrentStand s₀ (endSupersedes s) :=
  h.same.foldl fun k _ => k.endSupersede

protected theorem CurrentStand.revoke {a v purge} (h : CurrentStand s₀ s) : CurrentStand s₀ (revoke s a v purge).1 :=
  h.foldl fun k _ => k.stamp.sendReq

/-! ### The new version -/

protected theorem CurrentStand.syncDirty {a} (h : CurrentStand s₀ s) : CurrentStand s₀ (syncDirty s a) :=
  h.work CellarWork.refl.syncDirty

protected theorem CurrentStand.markDirty {a v idx} (h : CurrentStand s₀ s) : CurrentStand s₀ (markDirty s a v idx) := by
  fun_cases markDirty s a v idx
  · exact h
  · exact h.same.syncDirty

protected theorem CurrentStand.addDirty {v written dirty} (h : CurrentStand s₀ s) : CurrentStand s₀ (addDirty s v written dirty) := by
  fun_cases addDirty s v written dirty
  · exact h.same.markDirty
  · exact h.same.syncDirty

protected theorem CurrentStand.noteDelta {v idx} (h : CurrentStand s₀ s) : CurrentStand s₀ (noteDelta s v idx) := by
  fun_cases noteDelta s v idx
  · exact h.same
  · exact h
  · exact h

/-- Once a version is current, what its installation does besides leaves it so. -/
theorem currentStand_installVersion (s : State) (v : Ver) (written : List Nat) (commit dirty : Bool) :
    CurrentStand (makeCurrent s v.hdr.id v) (installVersion s v written commit dirty) := by
  let t := makeCurrent s v.hdr.id v
  have h : CurrentStand t (installCask t v (s.cat.adapter v.hdr.id).current written commit) :=
    (CurrentStand.refl t).work CellarWork.refl.installCask
  exact h.addDirty.noteDelta.same

theorem currentStand_publishVersion (s : State) (v : Ver) (written : List Nat) (commit dirty : Bool) :
    CurrentStand (makeCurrent s v.hdr.id v) (publishVersion s v written commit dirty).1 :=
  ((currentStand_installVersion s v written commit dirty).revoke.work CellarWork.refl.refreshHolds).pruneVersions

theorem currentStand_publishNow (s : State) (p : PubPending) :
    CurrentStand (makeCurrent s (publishedVer s p).hdr.id (publishedVer s p)) (publishNow s p) :=
  (currentStand_publishVersion ..).same.endSupersedes

theorem makeCurrent_current (s : State) (a : AdapterId) (v : Ver) : ((makeCurrent s a v).cat.adapter a).current = v.version := by
  simp [makeCurrent, modAdapter, Catalogue.adapter]

theorem publishNow_current (s : State) (p : PubPending) :
    ((publishNow s p).cat.adapter (hdrFields p.image).id).current = (hdrFields p.image).version :=
  ((currentStand_publishNow s p).current _).trans (makeCurrent_current ..)

theorem publishNow_publishes (s : State) (p : PubPending) : (publishNow s p).homes.publishes = s.homes.publishes :=
  (currentStand_publishNow s p).publishes

/-! ### The publication event -/

/-- The publish waits no longer. -/
def unpublish (s : State) (p : PubPending) : State :=
  { s with homes := { s.homes with publishes := s.homes.publishes.filter (· ≠ p) } }

theorem not_mem_unpublish (s : State) (p : PubPending) : p ∉ (unpublish s p).homes.publishes := by
  simp [unpublish]

/-- The end of a publication for a publish that waits no longer: its version is published at the home or its check fails there, and
elsewhere it is forwarded (R284, Table 10.6). -/
def endPublication (s : State) (a : AdapterId) (p : PubPending) : State :=
  if !homedHere s a then
    let s := match p.fwd with
      | some m => redirect s (homeOf s.cat a) { m with data := p.raw ++ p.image }
      | none => s
    match p.ctx with
    | some c => forwardCmd s (homeOf s.cat a) p.raw p.image c p.sqIndex 0x30
    | none => s
  else match publicationBad s p with
    | some b => failPublish s p b
    | none => publishNow s p

theorem endPublication_done {s : State} {a : AdapterId} {p : PubPending} (hhome : homedHere s a = true) (hbad : publicationBad s p = none) :
    endPublication s a p = publishNow s p := by
  simp only [endPublication, hhome, hbad, Bool.not_true, Bool.false_eq_true, if_false]

theorem endPublication_failed {s : State} {a : AdapterId} {p : PubPending} {b : Bad} (hhome : homedHere s a = true)
    (hbad : publicationBad s p = some b) : endPublication s a p = failPublish s p b := by
  simp only [endPublication, hhome, hbad, Bool.not_true, Bool.false_eq_true, if_false]

theorem homedHere_unpublish (s : State) (p : PubPending) (a : AdapterId) : homedHere (unpublish s p) a = homedHere s a := rfl

theorem publicationBad_unpublish (s : State) (p q : PubPending) : publicationBad (unpublish s p) q = publicationBad s q := rfl

section

variable {a : AdapterId} {p : PubPending} (hp : (s.homes.publishes.find? fun q => q.adapter = a && q.held) = some p)
  (hfreeze : inFreeze s a = false) (hseen : pubUnseen s p = [])

include hp hfreeze hseen

/-- An oldest publish that waits for nothing ends at a stamped event, once an index has been looked for. -/
theorem publication_eq (f : State × Bool) (hf : (if homedHere s a && (publicationBad s p).isNone then findIndex s p else (s, false)) = f)
    (hindex : f.2 = false) : publication a s = endPublication (unpublish (stamp f.1) p) a p := by
  unfold publication
  simp only [hp, hf]
  rw [if_neg (by simp [hfreeze]), if_neg (by simp [hseen]), if_neg (by simp [hindex])]
  rfl

/-- At the home, with its checks passed and an index found, the version is published. -/
theorem publication_done (hhome : homedHere s a = true) (hbad : publicationBad s p = none) (hindex : (findIndex s p).2 = false) :
    publication a s = publishNow (unpublish (stamp (findIndex s p).1) p) p := by
  have hstand : JoinsStand s (stamp (findIndex s p).1) := CellarWork.refl.findIndex.stamp.joinsStand
  rw [publication_eq hp hfreeze hseen (findIndex s p) (by simp [hhome, hbad]) hindex]
  refine endPublication_done ?_ ?_
  · rw [homedHere_unpublish, hstand.homedHere, hhome]
  · rw [publicationBad_unpublish, hstand.publicationBad hbad]

/-- At the home, a failed check ends the publish. -/
theorem publication_failed {b : Bad} (hhome : homedHere s a = true) (hbad : publicationBad s p = some b) :
    publication a s = failPublish (unpublish (stamp s) p) p b := by
  rw [publication_eq hp hfreeze hseen (s, false) (by simp [hhome, hbad]) rfl, stamp_only]
  exact endPublication_failed hhome hbad

/-- At another block, the publish is sent on. -/
theorem publication_away (hhome : homedHere s a = false) : publication a s = endPublication (unpublish (stamp s) p) a p :=
  publication_eq hp hfreeze hseen (s, false) (by simp [hhome]) rfl

end

@[simp] theorem sendMsg_cat (s : State) (m : Msg) : (sendMsg s m).cat = s.cat := by
  fun_cases sendMsg s m <;> rfl

@[simp] theorem reply_cat (s : State) (to_ : Msg) (type status : Nat) (args : List Nat) (data : List Byte) :
    (reply s to_ type status args data).cat = s.cat := sendMsg_cat ..

@[simp] theorem sendReq_cat (s : State) (m : Msg) (gk : Option GyleKey) : (sendReq s m gk).cat = s.cat := sendMsg_cat ..

/-- A failed publish leaves the catalogue and the other publishes. -/
theorem failPublish_cat (s : State) (p : PubPending) (b : Bad) : (failPublish s p b).cat = s.cat := by
  unfold failPublish
  extract_lets s1
  have h1 : s1.cat = s.cat := by
    unfold s1
    split
    · exact reply_cat ..
    · rfl
  split
  · split
    · rw [completeLater_cat, h1]
    · exact h1
  · exact h1

protected theorem CurrentStand.failPublish {p b} (h : CurrentStand s₀ s) : CurrentStand s₀ (failPublish s p b) := by
  unfold Machine.failPublish
  extract_lets s1
  have h1 : CurrentStand s₀ s1 := by
    unfold s1
    split
    · exact h.reply
    · exact h
  split
  · split
    · exact h1.completeLater
    · exact h1
  · exact h1

protected theorem CurrentStand.redirect {home ask} (h : CurrentStand s₀ s) : CurrentStand s₀ (redirect s home ask) := h.sendReq.same

protected theorem CurrentStand.forwardCmd {home raw img c n op} (h : CurrentStand s₀ s) :
    CurrentStand s₀ (forwardCmd s home raw img c n op) := h.sendReq.same

@[simp] theorem redirect_cat (s : State) (home : Nat) (ask : Msg) : (redirect s home ask).cat = s.cat := sendReq_cat s _ none

@[simp] theorem forwardCmd_cat (s : State) (home : Nat) (raw img : List Byte) (c n op : Nat) :
    (forwardCmd s home raw img c n op).cat = s.cat := sendReq_cat s _ none

/-- A publish that is sent on stands among the forwarded commands, and the catalogue and the other publishes stay (R234, R284). -/
theorem endPublication_away {s : State} {a : AdapterId} {p : PubPending} {c : Nat} (hhome : homedHere s a = false) (hc : p.ctx = some c) :
    (endPublication s a p).cat = s.cat ∧ CurrentStand s (endPublication s a p) ∧
      ∃ f ∈ (endPublication s a p).homes.forwards, f.2 = (c, p.sqIndex, 0x30) := by
  simp only [endPublication, hhome, hc, Bool.not_false, if_true]
  cases p.fwd with
  | none => exact ⟨forwardCmd_cat .., (CurrentStand.refl s).forwardCmd, _, List.mem_append_right _ (List.mem_singleton_self _), rfl⟩
  | some m =>
    exact ⟨(forwardCmd_cat ..).trans (redirect_cat ..), (CurrentStand.refl s).redirect.forwardCmd, _,
      List.mem_append_right _ (List.mem_singleton_self _), rfl⟩

end Sys2Proof.Machine
end

open Sys2Proof Sys2Proof.Machine in
/-- Settles O13: finding an index leaves what the joins look at, so that the checks that held before it hold after it; and what follows the
new version leaves it current. -/
theorem publicationMakesTheVersionCurrent : Obligations.PublicationMakesTheVersionCurrent := by
  unfold Obligations.PublicationMakesTheVersionCurrent
  intro a s p hp hfreeze hid hversion
  refine ⟨fun hhome hseen hbad hindex => ?_, fun b hhome hseen hbad => ?_, fun c hhome hc => ?_⟩
  · refine ⟨_, congrArg Host.Outcome.next (publication_done hp hfreeze hseen hhome hbad hindex), ?_, ?_⟩
    · rw [← hid, ← hversion, publishNow_current]
    · rw [publishNow_publishes]
      exact not_mem_unpublish _ p
  · refine ⟨_, congrArg Host.Outcome.next (publication_failed hp hfreeze hseen hhome hbad), ?_, ?_⟩
    · exact (failPublish_cat ..).trans (stamp_cat s)
    · rw [(CurrentStand.refl _).failPublish.publishes]
      exact not_mem_unpublish _ p
  · have hseen : pubUnseen s p = [] := by
      have hfound := List.find?_some hp
      simp only [Bool.and_eq_true, decide_eq_true_eq] at hfound
      simp [pubUnseen, hfound.1, hhome]
    have hhome' : homedHere (unpublish (stamp s) p) a.toNat = false := (CellarWork.refl.stamp.joinsStand.homedHere _).trans hhome
    obtain ⟨hcat, hstand, hforward⟩ := endPublication_away hhome' hc
    refine ⟨_, congrArg Host.Outcome.next (publication_away hp hfreeze hseen hhome), hcat.trans (stamp_cat s), ?_, hforward⟩
    rw [hstand.publishes]
    exact not_mem_unpublish _ p

section
/-! PROOFS. Why `Obligations.MixCommands` fails: `MIX_UNBIND` makes a release before it posts its record, and a cask that leaves in that
release may first send the only copy of a tensor back to T4, at an event of its own. -/
namespace Sys2Proof.Machine

/-! ### A release in which the only copy of a tensor leaves -/

/-- A cask in the single-home regime for whose moved tensors T2 has no room sends them back to T4 (R202). -/
theorem moveDownCask_of_full {s : State} {c : Cask} (hwarm : s.tiers.warm = [])
    (hfull : t2Free s < storedSize ((verOf s c.epoch c.adapter c.version).getD {}) c.moved) :
    moveDownCask s c = backToT4 s c.epoch c.adapter c.version c.moved := by
  have hroom (below : Nat) : makeT2 s (storedSize ((verOf s c.epoch c.adapter c.version).getD {}) c.moved) below = s := by
    simp [makeT2, hwarm, sortBy]
  unfold moveDownCask
  extract_lets n t
  have ht : t = s := hroom _
  rw [ht, if_neg (Nat.not_le.mpr hfull)]

theorem demote_moved {s : State} {c : Cask} (hone : oneHome s c = true) (hmoved : c.moved ≠ []) (hwarm : s.tiers.warm = [])
    (hfull : t2Free s < storedSize ((verOf s c.epoch c.adapter c.version).getD {}) c.moved) :
    demote s c = backToT4 s c.epoch c.adapter c.version c.moved := by
  rw [demote, if_pos hone, if_neg (by simpa using hmoved), moveDownCask_of_full hwarm hfull]

/-- A clean victim that is the only home of a tensor leaves at a later event. -/
theorem seq_lt_evictRaw {s : State} {i : Nat} {ver : Ver} (hs : SeqReserved s) (hclean : (s.cask i).dirty = [])
    (hone : oneHome s (s.cask i) = true) (hwarm : s.tiers.warm = [])
    (hfull : t2Free s < storedSize ((verOf s (s.cask i).epoch (s.cask i).adapter (s.cask i).version).getD {}) (s.cask i).moved)
    (hv : verOf s (s.cask i).epoch (s.cask i).adapter (s.cask i).version = some ver)
    (hb : ver.t4Gone.filter (s.cask i).moved.contains ≠ []) : s.gauger.seq < (evictRaw s i).gauger.seq := by
  have hmoved : (s.cask i).moved ≠ [] := fun h => hb (by simp [h])
  unfold evictRaw
  extract_lets c _ s1
  have hdown : demote s1 c = backToT4 s1 c.epoch c.adapter c.version c.moved := demote_moved hone hmoved hwarm hfull
  rw [if_pos (by simp [c, hclean]), hdown]
  exact seq_lt_backToT4 (s := s1) hs hv hb

/-- What a release frees before raised parts of the cellar take victims (R163, R178). -/
def beforeCover (s : State) : State := moveAllUllage (freeStale (refreshHolds s))

/-- A release whose victims leave at later events ends at a later sequence. -/
theorem seq_lt_release {s : State} (hs : SeqReserved s) (h : (beforeCover s).gauger.seq < (coverGrowth (beforeCover s)).gauger.seq) :
    s.gauger.seq < (release s).gauger.seq := by
  have hbefore : Keeps s (beforeCover s) := (Keeps.refl s).refreshHolds.freeStale.moveAllUllage
  obtain ⟨hs1, hle⟩ := hbefore.seq hs
  have hcover := ((Keeps.refl (beforeCover s)).coverGrowth.seq hs1).1
  have hrest : Keeps (coverGrowth (beforeCover s)) (release s) := by
    unfold release releaseFrom
    extract_lets s1 _ s2
    have h1 : Keeps (coverGrowth (beforeCover s)) s1 := (Keeps.refl _).takePromises
    have h2 : Keeps (coverGrowth (beforeCover s)) s2 := h1.same
    exact h2.retryAdmits
  exact (hle.trans_lt h).trans_le (hrest.seq hcover).2

/-! ### A block whose cellar holds the only copy of a tensor -/

/-- A `MIX_UNBIND` of handle 0. -/
def raisedUnbind : Desc := { opcode := 0x11 }

/-- An adapter's version of one slot: a fetch of the single-home regime has taken its first tensor out of T4 (R202). -/
def soleVersion : Ver :=
  { version := 1, hdr := { id := 8, version := 1 }, slots := [{ inW := 32, outW := 32, rank := 8 }]
    tensors := [{ bytes := [0] }], t4Gone := [0] }

/-- Its cask, the only home of that tensor. -/
def soleCask : Cask := { st := .resident, adapter := 8, version := 1, present := [0], moved := [0] }

/-- A block in the single-home regime without a T2 region, whose gradient scratch has been raised over the whole cask pool while the cask
stands, unheld; `MIX_UNBIND` of a handle of context 0 is at its front. -/
def raisedScratch : State :=
  let s : State := {
    cat := { adapters := [(8, { current := 1, versions := [soleVersion] })] }
    handles := [(0, { bound := true })]
    cellar := { casks := [(0, soleCask)] }
    tiers := { singleHome := true } }
  setCtx (setReg s pgTrain 0x098 3936) 0 { st := .running, cqResv := 1, front := some { desc := some raisedUnbind, image := some [] } }

theorem raisedScratch_taken : Taken raisedScratch 0 0x11 { desc := some raisedUnbind, image := some [] } raisedUnbind [] := by decide

/-- The state in which the unbind's release runs. -/
def raisedRelease : State := unbindMix (stamp raisedScratch) 0

theorem seq_lt_coverGrowth_raised :
    (beforeCover raisedRelease).gauger.seq < (coverGrowth (beforeCover raisedRelease)).gauger.seq := by
  have hvictims : coverGrowth (beforeCover raisedRelease) = refreshHolds (evictRaw (beforeCover raisedRelease) 0) := by
    unfold coverGrowth
    extract_lets vs
    have hvs : vs.filter (fun i => ((beforeCover raisedRelease).cask i).st ≠ .evicting) = [0] := by decide
    rw [hvs]
    rfl
  have hevict : (beforeCover raisedRelease).gauger.seq < (evictRaw (beforeCover raisedRelease) 0).gauger.seq :=
    seq_lt_evictRaw (ver := soleVersion) (by decide) (by decide) (by decide) (by decide) (by decide) (by decide) (by decide)
  have hs : SeqReserved (beforeCover raisedRelease) := by decide
  rw [hvictims]
  exact hevict.trans_le (((Keeps.refl _).refreshHolds).seq (((Keeps.refl _).evictRaw.seq hs).1)).2

theorem mixUnbind_raisedScratch :
    mixUnbind 0 raisedScratch = doneCmd (release raisedRelease) 0 { desc := some raisedUnbind, image := some [] } raisedUnbind [] := by
  rw [mixUnbind, onFront_of_taken raisedScratch_taken]
  rfl

theorem CellarWork.ctxs {s t : State} (h : CellarWork s t) : t.ctxs = s.ctxs := by
  induction h with
  | refl => rfl
  | other _ ih => exact ih
  | t4Gone _ ih =>
    rw [modVerOf_places]
    exact ih

/-- The release leaves context 0 without a record, and the unbind posts one at the sequence of the release's last event. -/
theorem mixUnbind_raisedScratch_posted :
    ((mixUnbind 0 raisedScratch).ctx 0).posted =
      [{ xfer := (release raisedRelease).boundary.nextXfer, cmpSeq := (release raisedRelease).gauger.seq }] := by
  have hctx : (release raisedRelease).ctx 0 = raisedRelease.ctx 0 := ctx_of_ctxs CellarWork.refl.releaseFrom.ctxs 0
  have hposted : (raisedRelease.ctx 0).posted = [] := by decide
  rw [mixUnbind_raisedScratch, (doneCmd_posts _ _ _ _ _ (by rw [hctx]; decide)).1, hctx, hposted, List.nil_append]

end Sys2Proof.Machine
end

open Sys2Proof Sys2Proof.Machine in
/-- Refutes O5: a release of `MIX_UNBIND` in which a victim sends the only copy of a tensor back to T4 takes events of its own, so that the
command's record bears another sequence than the first after the state. -/
theorem not_mixCommands : ¬ Obligations.MixCommands := by
  unfold Obligations.MixCommands
  intro h
  obtain ⟨-, -, hunbind, -⟩ := h 0 raisedScratch _ raisedUnbind [] (by decide) (by decide)
  obtain ⟨t, ht, -, -, p, hp, hseq⟩ := hunbind raisedScratch_taken (by decide) (by decide) (by decide)
  obtain rfl : mixUnbind 0 raisedScratch = t := Host.Outcome.next.inj ht
  replace hp : p ∈ ((mixUnbind 0 raisedScratch).ctx 0).posted := hp
  rw [mixUnbind_raisedScratch_posted, List.mem_singleton] at hp
  have hrelease : (release raisedRelease).gauger.seq = (stamp raisedScratch).gauger.seq := by rw [← hseq, hp]
  exact (seq_lt_release (s := raisedRelease) (by decide) seq_lt_coverGrowth_raised).ne' hrelease

section
/-! PROOFS. Why `Obligations.PrefetchCompletes` fails: a `PREFETCH` to T1 takes back a cask that is leaving, and holds it by nothing; a
version whose ullage moves to the pool at the same event may take it as its victim. -/
namespace Sys2Proof.Machine

/-- A `PREFETCH` of adapter 8 to T1. -/
def returnPrefetch : Desc := { opcode := 0x14, adapter := 8 }

/-- A version of one slot, of adapter `a`. -/
def slotVersion (a : AdapterId) : Ver :=
  { version := 1, hdr := { id := a, version := 1, tensorBytes := 2560 }, slots := [{ inW := 32, outW := 32, rank := 8 }] }

/-- Adapter 8's cask is leaving for the gradient scratch, which has been raised over the whole pool; its dirty data has been written back.
Adapter 9's cask holds ullage, and no cask of the version before it stands. `PREFETCH` is at the front of context 0. -/
def leavingCask : State :=
  let s : State := {
    cat := { adapters := [(8, { current := 1, versions := [slotVersion 8] }), (9, { current := 1, versions := [slotVersion 9] })] }
    tenantRecs := [(0, { qT1Mib := 1 })]
    cellar := { casks :=
      [(0, { st := .evicting, adapter := 8, version := 1, present := [0, 1], bytes := 2560, noDemote := true }),
       (1, { st := .resident, adapter := 9, version := 1, present := [0, 1], bytes := 2560, ullage := 64 })] } }
  setCtx (setReg s pgTrain 0x098 3936) 0
    { st := .running, cqResv := 1, tenants := [(0, 1)], front := some { desc := some returnPrefetch, image := some [] } }

theorem leavingCask_taken : Taken leavingCask 0 0x14 { desc := some returnPrefetch, image := some [] } returnPrefetch [] := by decide

/-- The `PREFETCH` returns adapter 8's cask to `RESIDENT`, unheld, and the ullage of adapter 9's takes it as a main victim (R174, R177). -/
theorem leavingCask_notComing : caskComing (prefetch 0 leavingCask) 0 8 1 = false := by decide

end Sys2Proof.Machine
end

open Sys2Proof Sys2Proof.Machine in
/-- Refutes O7: a cask that is leaving and clean comes back to `RESIDENT` for the `PREFETCH` and leaves again, for ullage that moves to the
pool, before the event ends: the version has neither a cask nor an admission that waits. -/
theorem not_prefetchCompletes : ¬ Obligations.PrefetchCompletes := by
  unfold Obligations.PrefetchCompletes
  intro h
  obtain ⟨-, -, hother⟩ := h 0 leavingCask _ returnPrefetch [] (by decide) (by decide) leavingCask_taken
  obtain ⟨t, ht, -, -, -, hcoming⟩ := (hother (by decide) (by decide) (by decide) (by decide) (by decide)).2 (by decide)
  obtain rfl : prefetch 0 leavingCask = t := Host.Outcome.next.inj ht
  exact absurd (hcoming (by decide) (by decide)) (Bool.eq_false_iff.mp leavingCask_notComing)

section
/-! PROOFS. Which parts of the state a command can change at all (`Obligations.PartsChangeOnlyByTheirCommands`). `Within ps s t` says that
between `s` and `t` the parts that `KeepsOf` speaks of stand, but for those that `ps` lists. Each operation of the model has one rule, in the
shape of the rules of `Keeps`: from `h : Within ps s₀ s` the state after the operation on `s`. An operation that writes a part asks that
`ps` lists it, and so does every operation that runs it; a command is then within the parts that `writes` names for it. -/
namespace Sys2Proof.Machine

/-- The parts of the state that only some commands change. `windows` are the bytes of chip memory and of the kiln that windows write, and
`portCounts` what the memory ports count. -/
inductive Part where
  | regs | pace | repair | planInForce | planStaged | sortRows | tenantRecs | hyperparams | salts | wrapGens
  | cellarBytes | windows | portCounts

/-- What a memory port counts: bytes read, bytes written, and error responses. -/
def MemPort.counts (m : MemPort) : Nat × Nat × Nat := (m.readBytes, m.writeBytes, m.errors)

/-- The state changes between `s` and `t` in no part but those that `ps` lists, of the parts that `Part` names: fuses and the queue stand
always, and a byte of chip memory may be forgotten (R187). -/
structure Within (ps : Part → Bool) (s t : State) : Prop where
  fuses : t.fuses = s.fuses := by rfl
  pending : t.pending = s.pending := by rfl
  regs : ps .regs = false → t.regs = s.regs := by exact fun _ => rfl
  pace : ps .pace = false → t.pace = s.pace := by exact fun _ => rfl
  repair : ps .repair = false → t.repair = s.repair := by exact fun _ => rfl
  planInForce : ps .planInForce = false → t.planInForce = s.planInForce := by exact fun _ => rfl
  planStaged : ps .planStaged = false → t.planStaged = s.planStaged := by exact fun _ => rfl
  sortRows : ps .sortRows = false → t.sortRows = s.sortRows := by exact fun _ => rfl
  tenantRecs : ps .tenantRecs = false → t.tenantRecs = s.tenantRecs := by exact fun _ => rfl
  hyperparams : ps .hyperparams = false → t.train.hp = s.train.hp := by exact fun _ => rfl
  salts : ps .salts = false → t.keys.salts = s.keys.salts := by exact fun _ => rfl
  wrapGens : ps .wrapGens = false → t.keys.wrapGen = s.keys.wrapGen := by exact fun _ => rfl
  cellarBytes : ps .cellarBytes = false → t.cellar.memory = s.cellar.memory := by exact fun _ => rfl
  kilnBytes : ps .windows = false → t.kiln.memory = s.kiln.memory := by exact fun _ => rfl
  chipBytes : ps .windows = false → ∀ a, memGet t.tiers.chip a = memGet s.tiers.chip a ∨ memGet t.tiers.chip a = none := by
    exact fun _ _ => .inl rfl
  portCounts : ps .portCounts = false →
      ∀ p, (tget {} t.boundary.mem p : MemPort).counts = (tget {} s.boundary.mem p : MemPort).counts := by
    exact fun _ _ => rfl

-- Each proof waits for the one before it: all at once would each hold a thread.
set_option Elab.async false
variable {ps : Part → Bool} {s₀ s t : State}

protected theorem Within.refl (s : State) : Within ps s s := {}

protected theorem Within.trans {u : State} (h : Within ps s t) (k : Within ps t u) : Within ps s u where
  fuses := k.fuses.trans h.fuses
  pending := k.pending.trans h.pending
  regs hp := (k.regs hp).trans (h.regs hp)
  pace hp := (k.pace hp).trans (h.pace hp)
  repair hp := (k.repair hp).trans (h.repair hp)
  planInForce hp := (k.planInForce hp).trans (h.planInForce hp)
  planStaged hp := (k.planStaged hp).trans (h.planStaged hp)
  sortRows hp := (k.sortRows hp).trans (h.sortRows hp)
  tenantRecs hp := (k.tenantRecs hp).trans (h.tenantRecs hp)
  hyperparams hp := (k.hyperparams hp).trans (h.hyperparams hp)
  salts hp := (k.salts hp).trans (h.salts hp)
  wrapGens hp := (k.wrapGens hp).trans (h.wrapGens hp)
  cellarBytes hp := (k.cellarBytes hp).trans (h.cellarBytes hp)
  kilnBytes hp := (k.kilnBytes hp).trans (h.kilnBytes hp)
  chipBytes hp a := by
    rcases k.chipBytes hp a with hk | hk
    · exact hk ▸ h.chipBytes hp a
    · exact .inr hk
  portCounts hp p := (k.portCounts hp p).trans (h.portCounts hp p)

/-- An update of other parts of the state. -/
protected theorem Within.same {gauger log pages ctxs cat catStaged staging catRetiring dir dirStaged dirOld handles gyles tuns heldGroups
      orphans nextHold ports spillUsed cellar tiers train homes kiln integrity keys boundary glob outs freeCtr} (h : Within ps s₀ s)
    (hcellar : cellar.memory = s.cellar.memory := by with_reducible rfl) (hkiln : kiln.memory = s.kiln.memory := by with_reducible rfl)
    (hchip : tiers.chip = s.tiers.chip := by with_reducible rfl) (hhp : train.hp = s.train.hp := by with_reducible rfl)
    (hsalts : keys.salts = s.keys.salts := by with_reducible rfl) (hwrap : keys.wrapGen = s.keys.wrapGen := by with_reducible rfl)
    (hmem : boundary.mem = s.boundary.mem := by with_reducible rfl) :
    Within ps s₀ { s with
      gauger, log, pages, ctxs, cat, catStaged, staging, catRetiring, dir, dirStaged, dirOld, handles, gyles, tuns, heldGroups, orphans,
      nextHold, ports, spillUsed, cellar, tiers, train, homes, kiln, integrity, keys, boundary, glob, outs, freeCtr } :=
  h.trans
    { hyperparams := fun _ => hhp
      salts := fun _ => hsalts
      wrapGens := fun _ => hwrap
      cellarBytes := fun _ => hcellar
      kilnBytes := fun _ => hkiln
      chipBytes := fun _ _ => .inl (by rw [hchip])
      portCounts := fun _ _ => by rw [hmem] }

/-- An update of one memory port that leaves its counts. -/
protected theorem Within.modMem {p : Nat} {f : MemPort → MemPort} (h : Within ps s₀ s)
    (hf : ∀ m : MemPort, ps .portCounts = false → (f m).counts = m.counts := by exact fun _ _ => rfl) :
    Within ps s₀ { s with boundary := { s.boundary with mem := tmod {} s.boundary.mem p f } } :=
  h.trans
    { portCounts := fun hp q => by
        by_cases hq : q = p
        · rw [hq, tget_tmod_self]
          exact hf _ hp
        · rw [tget_tmod_ne _ _ _ hq] }

/-- What is said of a part that `ps` does not list holds where it lists the part. -/
theorem listed {b : Bool} {q : Prop} (hb : b = true) : b = false → q := by
  rintro rfl
  exact absurd hb Bool.false_ne_true

/-- What a reset clears: all but the bytes of chip memory and the kiln (Table 20.4). -/
def Part.cleared : Part → Bool
  | .windows => false
  | _ => true

/-- `ps` lists every part that a reset clears. -/
abbrev Clears (ps : Part → Bool) : Prop := ∀ p, p.cleared = true → ps p = true

protected theorem Within.of_clears (hclears : Clears ps) (hfuses : t.fuses = s.fuses) (hpending : t.pending = s.pending)
    (hkiln : t.kiln.memory = s.kiln.memory) (hchip : t.tiers.chip = s.tiers.chip) : Within ps s t where
  fuses := hfuses
  pending := hpending
  regs := listed (hclears _ rfl)
  pace := listed (hclears _ rfl)
  repair := listed (hclears _ rfl)
  planInForce := listed (hclears _ rfl)
  planStaged := listed (hclears _ rfl)
  sortRows := listed (hclears _ rfl)
  tenantRecs := listed (hclears _ rfl)
  hyperparams := listed (hclears _ rfl)
  salts := listed (hclears _ rfl)
  wrapGens := listed (hclears _ rfl)
  cellarBytes := listed (hclears _ rfl)
  kilnBytes _ := hkiln
  chipBytes _ _ := .inl (by rw [hchip])
  portCounts := listed (hclears _ rfl)

protected theorem Within.regs_put {regs} (h : Within ps s₀ s) (hregs : ps .regs = true := by assumption) :
    Within ps s₀ { s with regs } :=
  h.trans { regs := listed hregs }

protected theorem Within.pace_put {pace} (h : Within ps s₀ s) (hpace : ps .pace = true := by assumption) :
    Within ps s₀ { s with pace } :=
  h.trans { pace := listed hpace }

protected theorem Within.repair_put {repair} (h : Within ps s₀ s) (hrepair : ps .repair = true := by assumption) :
    Within ps s₀ { s with repair } :=
  h.trans { repair := listed hrepair }

/-- A command that answers a next state is within `ps` up to it. -/
def Leads (ps : Part → Bool) (s : State) (o : Host.Outcome State Fault Refusal) : Prop := ∀ t, o = .next t → Within ps s t

protected theorem Within.next (h : Within ps s t) : Leads ps s (.next t) := by
  rintro u ⟨⟩
  exact h

protected theorem Within.foldl {α : Type} {g : State → α → State} {l : List α} (h : Within ps s₀ s)
    (hg : ∀ {t}, Within ps s₀ t → ∀ a, Within ps s₀ (g t a)) : Within ps s₀ (l.foldl g s) := by
  induction l generalizing s with
  | nil => exact h
  | cons a l ih => exact ih (hg h a)

protected theorem Within.getD {o : Option State} (h : Within ps s₀ s) (ho : ∀ {t}, o = some t → Within ps s₀ t) :
    Within ps s₀ (o.getD s) := by
  cases o with
  | none => exact h
  | some t => exact ho rfl

/-- Steps that may each find no room are within what one of them is within. -/
protected theorem Within.foldl_bind {α : Type} {g : State → α → Option State} {l : List α} {o : Option State}
    (ho : ∀ {u}, o = some u → Within ps s₀ u)
    (hg : ∀ {u v}, Within ps s₀ u → ∀ a, g u a = some v → Within ps s₀ v)
    (ht : l.foldl (fun (o : Option State) a => o.bind fun u => g u a) o = some t) : Within ps s₀ t := by
  induction l generalizing o with
  | nil => exact ho ht
  | cons a l ih =>
    refine ih (fun hu => ?_) ht
    obtain ⟨v, rfl, hv⟩ := Option.bind_eq_some_iff.mp hu
    exact hg (ho rfl) a hv

protected theorem Within.of_some (h : Within ps s₀ s) {u : State} (hu : some s = some u) : Within ps s₀ u := by
  cases hu
  exact h

protected theorem Within.foldl_fst {α β : Type} {g : State × β → α → State × β} {l : List α} {p : State × β} (h : Within ps s₀ p.1)
    (hg : ∀ {q : State × β}, Within ps s₀ q.1 → ∀ a, Within ps s₀ (g q a).1) : Within ps s₀ (l.foldl g p).1 := by
  induction l generalizing p with
  | nil => exact h
  | cons a l ih => exact ih (hg h a)

protected theorem Within.ite {c : Prop} [Decidable c] (hs : Within ps s₀ s) (ht : Within ps s₀ t) : Within ps s₀ (if c then s else t) := by
  split
  · exact hs
  · exact ht

/-! ### Sequences -/

/-- A block of sequences above the present one is reserved (R313). -/
protected theorem Within.reserveBlock {b : Nat} (h : Within ps s₀ s) : Within ps s₀ (reserveBlock s b) := by
  rw [reserveBlock_only]
  exact h.same

protected theorem Within.stamp (h : Within ps s₀ s) : Within ps s₀ (stamp s) := by
  rw [stamp_only]
  exact h.same

/-! ### Bytes -/

/-- Of a memory that forgets some runs of bytes each byte stands or is forgotten. -/
theorem memGet_foldl_memDrop {α : Type} {addr len : α → Nat} {l : List α} {m : Memory} {a : Nat} :
    memGet (l.foldl (fun m x => memDrop m (addr x) (len x)) m) a = memGet m a ∨
      memGet (l.foldl (fun m x => memDrop m (addr x) (len x)) m) a = none := by
  induction l generalizing m with
  | nil => exact .inl rfl
  | cons x l ih =>
    rcases ih (m := memDrop m (addr x) (len x)) with h | h
    · simp only [List.foldl_cons, h, memGet_memDrop]
      split
      · exact .inr rfl
      · exact .inl rfl
    · exact .inr h

/-! ### Registers -/

protected theorem Within.setReg {page off v} (h : Within ps s₀ s) (hregs : ps .regs = true := by assumption) :
    Within ps s₀ (setReg s page off v) := h.regs_put

/-! ### Ops -/

protected theorem Within.setCtx {c x} (h : Within ps s₀ s) : Within ps s₀ (setCtx s c x) := h.same

protected theorem Within.modCtx {c f} (h : Within ps s₀ s) : Within ps s₀ (modCtx s c f) := h.setCtx

protected theorem Within.setTun {n x} (h : Within ps s₀ s) : Within ps s₀ (setTun s n x) := h.same

protected theorem Within.modTun {t f} (h : Within ps s₀ s) : Within ps s₀ (modTun s t f) := h.setTun

protected theorem Within.modPort {p f} (h : Within ps s₀ s) : Within ps s₀ (modPort s p f) := h.same

protected theorem Within.modCask {i f} (h : Within ps s₀ s) : Within ps s₀ (modCask s i f) := h.same

protected theorem Within.setGyle {g} (h : Within ps s₀ s) : Within ps s₀ (setGyle s g) := h.same

protected theorem Within.modGyle {x f} (h : Within ps s₀ s) : Within ps s₀ (modGyle s x f) := by
  fun_cases modGyle s x f
  · exact h.setGyle
  · exact h

protected theorem Within.dropGyle {k} (h : Within ps s₀ s) : Within ps s₀ (dropGyle s k) :=
  h.same

protected theorem Within.bumpFree (h : Within ps s₀ s) : Within ps s₀ (bumpFree s) := h.same

protected theorem Within.raiseAt {page cls seq} (h : Within ps s₀ s) : Within ps s₀ (raiseAt s page cls seq) := h.same

protected theorem Within.raise {page cls} (h : Within ps s₀ s) : Within ps s₀ (raise s page cls) := h.raiseAt

protected theorem Within.logAt {seq page code tenant submitter fid payload} (h : Within ps s₀ s) :
    Within ps s₀ (logAt s seq page code tenant submitter fid payload) := by
  fun_cases logAt s seq page code tenant submitter fid payload
  · exact h.same
  · exact h.same.raiseAt

protected theorem Within.logNow {page code tenant submitter fid payload} (h : Within ps s₀ s) :
    Within ps s₀ (logNow s page code tenant submitter fid payload) :=
  h.logAt

protected theorem Within.stampRaise {page cls} (h : Within ps s₀ s) : Within ps s₀ (stampRaise s page cls) := h.stamp.raise

protected theorem Within.emit {o} (h : Within ps s₀ s) : Within ps s₀ (emit s o) := h.same

protected theorem Within.emitAll {os} (h : Within ps s₀ s) : Within ps s₀ (emitAll s os) := h.same

protected theorem Within.refuseWrite {page off role status} (h : Within ps s₀ s) : Within ps s₀ (refuseWrite s page off role status) := by
  unfold refuseWrite
  extract_lets home code s1 s2
  have h1 : Within ps s₀ s1 := h.same
  have h2 : Within ps s₀ s2 := by
    unfold s2
    split
    · split
      · exact h1.raise
      · exact h1
    · exact h1
  exact h2.emit

protected theorem Within.busWrite {page off v role check effect} (heffect : ∀ {t}, Within ps s₀ t → Within ps s₀ (effect t))
    (h : Within ps s₀ s) :
    Within ps s₀ (busWrite page off v role check effect s) := by
  fun_cases busWrite page off v role check effect s
  · exact h
  · exact h.stamp.refuseWrite
  · exact h.stamp.refuseWrite
  · exact (heffect h.stamp).emit

protected theorem Within.storeReg {page off v} (h : Within ps s₀ s) (hregs : ps .regs = true := by assumption) :
    Within ps s₀ (storeReg page off v s) := by
  fun_cases storeReg page off v s
  · exact h.setReg
  · exact h
  · exact h

protected theorem Within.newFaultNow {o source first detail} (h : Within ps s₀ s) : Within ps s₀ (newFaultNow s o source first detail) := by
  unfold newFaultNow
  extract_lets _ _ s1 _
  have h1 : Within ps s₀ s1 := h.same
  exact h1.logNow.raise

protected theorem Within.newFault {o source first detail} (h : Within ps s₀ s) : Within ps s₀ (newFault s o source first detail) :=
  h.stamp.newFaultNow

protected theorem Within.enterLevel {id o source first level} (h : Within ps s₀ s) : Within ps s₀
    (enterLevel s id o source first level) := by
  fun_cases enterLevel s id o source first level
  · exact h.stamp.same.logNow.raise
  · exact h.stamp.same.logNow

protected theorem Within.startFault {o source level detail} (h : Within ps s₀ s) : Within ps s₀ (startFault s o source level detail) := by
  fun_cases startFault s o source level detail
  · exact h.enterLevel
  · exact h
  · exact h.newFault.enterLevel

protected theorem Within.endFault {o} (h : Within ps s₀ s) : Within ps s₀ (endFault s o) := h.same

protected theorem Within.noteParity {x} (h : Within ps s₀ s) : Within ps s₀ (noteParity s x) := by
  fun_cases noteParity s x
  · exact h.same
  · exact h
  · exact h

protected theorem Within.issueReq {r} (h : Within ps s₀ s) : Within ps s₀ (issueReq s r) := by
  fun_cases issueReq s r
  · exact h.same
  · exact h.same
  · exact h.modMem

protected theorem Within.startXfer {use write addr bytes data} (h : Within ps s₀ s) : Within ps s₀
    (startXfer s use write addr bytes data) := by
  unfold startXfer
  extract_lets _ _ _ s1
  have h1 : Within ps s₀ s1 := h.same
  exact h1.foldl fun k _ => k.issueReq

protected theorem Within.retryWaiting (h : Within ps s₀ s) : Within ps s₀ (retryWaiting s) := h.same.foldl fun k _ => k.issueReq

protected theorem Within.dropXfers {p} (h : Within ps s₀ s) : Within ps s₀ (dropXfers s p) := h.same

protected theorem Within.setCtxNow {c st} (h : Within ps s₀ s) : Within ps s₀ (setCtxNow s c st) := h.modCtx.raise

protected theorem Within.setCtxState {c st} (h : Within ps s₀ s) : Within ps s₀ (setCtxState s c st) := by
  fun_cases setCtxState s c st
  · exact h
  · exact h.modCtx.stampRaise

protected theorem Within.settle {c} (h : Within ps s₀ s) : Within ps s₀ (settle s c) := by
  fun_cases settle s c
  · exact h.setCtxState
  · exact h

protected theorem Within.pump {c} (h : Within ps s₀ s) : Within ps s₀ (pump s c) := by
  fun_cases pump s c
  · exact (h.setCtx.setCtxState.ite h.setCtx).startXfer
  · exact h

protected theorem Within.afterCmd {c} (h : Within ps s₀ s) : Within ps s₀ (afterCmd s c) := h.settle.pump

protected theorem Within.postRecord {c opcode status cflags sqIndex gyle result done} (h : Within ps s₀ s) :
    Within ps s₀ (postRecord s c opcode status cflags sqIndex gyle result done) := by
  fun_cases postRecord s c opcode status cflags sqIndex gyle result done
  · exact h.setCtx
  · exact h.setCtx.startXfer

protected theorem Within.clearFront {c} (h : Within ps s₀ s) : Within ps s₀ (clearFront s c) := h.modCtx

protected theorem Within.releaseResv {c} (h : Within ps s₀ s) : Within ps s₀ (releaseResv s c) := h.modCtx

protected theorem Within.refuseCmd {c fr opcode gyle b} (h : Within ps s₀ s) : Within ps s₀ (refuseCmd s c fr opcode gyle b) :=
  h.stamp.postRecord.clearFront.afterCmd

protected theorem Within.doneCmd {c fr d result} (h : Within ps s₀ s) : Within ps s₀
    (doneCmd s c fr d result) := h.postRecord.clearFront.afterCmd

protected theorem Within.acceptSilent {c} (h : Within ps s₀ s) : Within ps s₀ (acceptSilent s c) := h.clearFront.releaseResv.afterCmd

protected theorem Within.acceptLater {c cmd} (h : Within ps s₀ s) : Within ps s₀ (acceptLater s c cmd) := h.clearFront.modCtx.afterCmd

protected theorem Within.completeLater {c cmd status cflags result} (h : Within ps s₀ s) :
    Within ps s₀ (completeLater s c cmd status cflags result) :=
  h.modCtx.postRecord.afterCmd

protected theorem Within.onFront {c opcode f} (h : Within ps s₀ s) (hf : ∀ x0 x1 x2, Within ps s₀ (f x0 x1 x2)) :
    Within ps s₀ (onFront c opcode s f) := by
  fun_cases onFront c opcode s f
  · exact hf _ _ _
  · exact h
  · exact h
  · exact h

protected theorem Within.decideCmd {c fr d bad accept} (h : Within ps s₀ s) (haccept : ∀ {t}, Within ps s₀ t → Within ps s₀ (accept t)) :
    Within ps s₀ (decideCmd s c fr d bad accept) := by
  fun_cases decideCmd s c fr d bad accept
  · exact h.refuseCmd
  · exact haccept h.stamp

/-! ### Caps -/

protected theorem Within.holdCap (h : Within ps s₀ s) (hpace : ps .pace = true := by assumption) :
    Within ps s₀ (holdCap s) := h.pace_put

protected theorem Within.askVoltage (h : Within ps s₀ s) (hpace : ps .pace = true := by assumption) :
    Within ps s₀ (askVoltage s) := by
  fun_cases askVoltage s
  · exact h
  · exact h.pace_put.emit

protected theorem Within.setGate (h : Within ps s₀ s) (hpace : ps .pace = true := by assumption) :
    Within ps s₀ (setGate s) := h.pace_put.askVoltage

protected theorem Within.capEvent (h : Within ps s₀ s) (hpace : ps .pace = true := by assumption) :
    Within ps s₀ (capEvent s) := h.holdCap.setGate

/-! ### Catalogue -/

protected theorem Within.sendMsg {m} (h : Within ps s₀ s) : Within ps s₀ (sendMsg s m) := by
  fun_cases sendMsg s m
  · exact h
  · exact h.same.emit

protected theorem Within.sendReq {m gk} (h : Within ps s₀ s) : Within ps s₀ (sendReq s m gk) := h.sendMsg.same

protected theorem Within.askHome {epoch home submitter a} (h : Within ps s₀ s) : Within ps s₀
    (askHome s epoch home submitter a) := h.stamp.sendReq

protected theorem Within.modAdapter {a f} (h : Within ps s₀ s) : Within ps s₀ (modAdapter s a f) := h.same

protected theorem Within.askAll {cat submitter asked ids} (h : Within ps s₀ s) : Within ps s₀ (askAll s cat submitter asked ids).1 :=
  h.foldl_fst fun k _ => k.askHome

protected theorem Within.modVer {a v f} (h : Within ps s₀ s) : Within ps s₀ (modVer s a v f) := h.modAdapter

/-! ### Flash -/

protected theorem Within.setKilnPhase {ph} (h : Within ps s₀ s) : Within ps s₀ (setKilnPhase s ph) := by
  fun_cases setKilnPhase s ph
  · exact h
  · exact h.same.raise

protected theorem Within.modChan {d f} (h : Within ps s₀ s) : Within ps s₀ (modChan s d f) := h.same

protected theorem Within.issueFlash {d cs} (h : Within ps s₀ s) : Within ps s₀ (issueFlash s d cs) := h.emitAll

protected theorem Within.modBlock {b f} (h : Within ps s₀ s) : Within ps s₀ (modBlock s b f) := h.same

protected theorem Within.openBlock {a b} (h : Within ps s₀ s) : Within ps s₀ (openBlock s a b) := by
  fun_cases openBlock s a b
  · exact h.modBlock.same
  · exact h.modBlock.same
  · exact h.modBlock.same
  · exact h.modBlock

protected theorem Within.takePages {a n x} (h : Within ps s₀ s) (ht : takePages s a n = some x) : Within ps s₀ x.1 := by
  revert ht
  fun_cases takePages s a n
  · rintro ⟨⟩
    dsimp only
    exact h.modBlock
  · rintro ⟨⟩
  · rintro ⟨⟩
  · rintro ⟨⟩
    dsimp only
    exact (h.ite h.modBlock).openBlock.modBlock

protected theorem Within.issueProgram {slc p} (h : Within ps s₀ s) : Within ps s₀ (issueProgram s slc p) := h.issueFlash

protected theorem Within.programPage {slc p page} (h : Within ps s₀ s) : Within ps s₀ (programPage s slc p page) := h.same.issueProgram

protected theorem Within.programParity {slc stripe} (h : Within ps s₀ s) : Within ps s₀
    (programParity s slc stripe) := h.programPage.programPage

protected theorem Within.programRuns {slc key index runs chunks} (h : Within ps s₀ s) : Within ps s₀
    (programRuns s slc key index runs chunks) :=
  (h.foldl fun k _ => k.programPage).foldl fun k _ => k.programParity

protected theorem Within.writePages {a key index ct x} (h : Within ps s₀ s) (ht : writePages s a key index ct = some x) :
    Within ps s₀ x.1 := by
  obtain ⟨_, htaken, rfl⟩ := Option.map_eq_some_iff.mp ht
  exact (h.takePages htaken).programRuns

protected theorem Within.finishErases (h : Within ps s₀ s) : Within ps s₀ (finishErases s) := h.same

protected theorem Within.startErase {b} (h : Within ps s₀ s) : Within ps s₀ (startErase s b) := by
  unfold startErase
  extract_lets _ _ _ _ s1
  have h1 : Within ps s₀ s1 := h.modBlock.same
  exact h1.foldl fun k _ => k.issueFlash

protected theorem Within.reclaim (h : Within ps s₀ s) : Within ps s₀ (reclaim s) := h.foldl fun k _ => k.startErase

protected theorem Within.reclaimJournal (h : Within ps s₀ s) : Within ps s₀ (reclaimJournal s) := h.foldl fun k _ => k.startErase

protected theorem Within.startCheckpoint (h : Within ps s₀ s) : Within ps s₀ (startCheckpoint s) := by
  fun_cases startCheckpoint s
  · exact h
  · exact (h.foldl fun k _ => k.startErase).same

protected theorem Within.journalPut {j} (h : Within ps s₀ s) : Within ps s₀ (journalPut s j) := by
  unfold journalPut
  extract_lets s1 j1 j2 _ s2
  have h1 : Within ps s₀ s1 := by
    unfold s1
    split
    · exact (h.takePages ‹_›).foldl fun k _ => k.issueProgram
    · exact h
  have h2 : Within ps s₀ s2 := h1.same
  exact h2.startCheckpoint.ite h2

protected theorem Within.enterShared {epoch v} (h : Within ps s₀ s) : Within ps s₀ (enterShared s epoch v) := by
  fun_cases enterShared s epoch v
  · exact h.stamp.journalPut
  · exact h

protected theorem Within.writeTensor {x epoch v i} (h : Within ps s₀ s) : Within ps s₀ (writeTensor s x epoch v i) := by
  fun_cases writeTensor s x epoch v i
  · exact h
  · exact (h.writePages ‹_›).bumpFree.journalPut

protected theorem Within.moveTensor {a b r t} (h : Within ps s₀ s) (ht : moveTensor s a b r = some t) : Within ps s₀ t := by
  unfold moveTensor at ht
  split at ht
  · cases ht
  · obtain ⟨_, hwritten, rfl⟩ := Option.map_eq_some_iff.mp ht
    exact (h.stamp.writePages hwritten).journalPut

protected theorem Within.moveBlock {a b} (h : Within ps s₀ s) : Within ps s₀ (moveBlock s a b) := h.foldl fun k r => k.getD
    (k.moveTensor (r := r))

protected theorem Within.removeTensors {x ts} (h : Within ps s₀ s) : Within ps s₀ (removeTensors s x ts) := by
  fun_cases removeTensors s x ts
  · exact h
  · exact h.journalPut

/-! ### Casks -/

protected theorem Within.refreshHolds (h : Within ps s₀ s) : Within ps s₀ (refreshHolds s) := h.foldl fun k _ => k.modCask

protected theorem Within.countUse {epoch a v} (h : Within ps s₀ s) : Within ps s₀ (countUse s epoch a v) := by
  fun_cases countUse s epoch a v
  · exact h.same.modCask
  · exact h.same

protected theorem Within.sendTensor {m v i} (h : Within ps s₀ s) : Within ps s₀ (sendTensor s m v i) := h.sendMsg

protected theorem Within.writeT3 {b w} (h : Within ps s₀ s) : Within ps s₀ (writeT3 s b w) := by
  unfold writeT3
  extract_lets v s1 n
  have h1 : Within ps s₀ s1 := h.foldl fun k _ => k.sendTensor
  exact h1.same

protected theorem Within.modVerOf {epoch a v f} (h : Within ps s₀ s) : Within ps s₀ (modVerOf s epoch a v f) := by
  fun_cases modVerOf s epoch a v f <;> exact h.same

protected theorem Within.backToT4 {epoch a v idx} (h : Within ps s₀ s) : Within ps s₀ (backToT4 s epoch a v idx) := by
  fun_cases backToT4 s epoch a v idx
  · exact h
  · exact (h.foldl fun k _ => k.stamp.writeTensor).modVerOf

protected theorem Within.leaveT4Tensor {epoch a v i} (h : Within ps s₀ s) : Within ps s₀ (leaveT4Tensor s epoch a v i) := by
  fun_cases leaveT4Tensor s epoch a v i
  · exact h
  · exact (h.stamp.removeTensors.ite h).modVerOf

protected theorem Within.dropWarm {w} (h : Within ps s₀ s) : Within ps s₀ (dropWarm s w) := by
  fun_cases dropWarm s w
  · exact h.same.backToT4.writeT3
  · exact h.same.backToT4

protected theorem Within.makeT2 {need below} (h : Within ps s₀ s) : Within ps s₀ (makeT2 s need below) := by
  fun_cases makeT2 s need below
  · exact h
  · exact h
  · exact h.foldl fun k _ => k.ite k.dropWarm

protected theorem Within.clearT1 {c i} (h : Within ps s₀ s) (hcellar : ps .cellarBytes = true := by assumption) :
    Within ps s₀ (clearT1 s c i) := by
  fun_cases clearT1 s c i
  · exact h
  · exact h.trans { cellarBytes := listed hcellar }

protected theorem Within.addWarm {w idx} (h : Within ps s₀ s) : Within ps s₀ (addWarm s w idx) := by
  unfold addWarm
  extract_lets v clear tiers s1 same warm
  have h1 : Within ps s₀ s1 := by
    unfold s1
    split
    · exact h
    · exact h.trans { chipBytes := fun _ _ => memGet_foldl_memDrop }
  exact h1.same

protected theorem Within.cutWarm {epoch a v idx} (h : Within ps s₀ s) : Within ps s₀ (cutWarm s epoch a v idx) := h.same

protected theorem Within.placeWarm {w idx} (h : Within ps s₀ s) : Within ps s₀ (placeWarm s w idx) := by
  fun_cases placeWarm s w idx
  · exact h.makeT2.addWarm
  · exact h

protected theorem Within.moveDownCask {c} (h : Within ps s₀ s) : Within ps s₀ (moveDownCask s c) := by
  fun_cases moveDownCask s c
  · exact h.makeT2.addWarm
  · exact h.backToT4

protected theorem Within.demote {c} (h : Within ps s₀ s) : Within ps s₀ (demote s c) := by
  fun_cases demote s c
  · exact h
  · exact h.moveDownCask
  · exact h
  · exact h.placeWarm

protected theorem Within.keepStreams {keep} (h : Within ps s₀ s) : Within ps s₀ (keepStreams s keep) := h.same

protected theorem Within.dropCask {i} (h : Within ps s₀ s) : Within ps s₀ (dropCask s i) := h.same.keepStreams

protected theorem Within.evictRaw {i} (h : Within ps s₀ s) : Within ps s₀ (evictRaw s i) := by
  fun_cases evictRaw s i
  · exact h.same.demote.dropCask
  · exact h.same.modCask

protected theorem Within.moveUllage {i} (h : Within ps s₀ s) : Within ps s₀ (moveUllage s i) := by
  fun_cases moveUllage s i
  · exact h
  · exact Within.ite (h.foldl fun k _ => k.evictRaw).modCask (h.foldl fun k _ => k.evictRaw)
  · exact h

protected theorem Within.moveAllUllage (h : Within ps s₀ s) : Within ps s₀ (moveAllUllage s) := h.foldl fun k _ => k.moveUllage

protected theorem Within.freeCask {i} (h : Within ps s₀ s) : Within ps s₀ (freeCask s i) := h.dropCask.refreshHolds.moveAllUllage

protected theorem Within.evictAll {is} (h : Within ps s₀ s) : Within ps s₀ (evictAll s is) := (h.foldl fun k _ => k.evictRaw).refreshHolds

protected theorem Within.freeStale (h : Within ps s₀ s) : Within ps s₀ (freeStale s) := h.foldl fun k _ => k.freeCask.ite k

protected theorem Within.coverGrowth (h : Within ps s₀ s) : Within ps s₀ (coverGrowth s) := h.evictAll

protected theorem Within.addStream {i r} (h : Within ps s₀ s) : Within ps s₀ (addStream s i r) := by
  fun_cases addStream s i r
  · exact h
  · exact h.same

protected theorem Within.placePart {r probation p} (h : Within ps s₀ s) : Within ps s₀ (placePart r probation s p) := by
  fun_cases placePart r probation s p
  · exact h.modCask
  · exact h
  · exact h.modCask.addStream

protected theorem Within.placeParts {r probation} (h : Within ps s₀ s) : Within ps s₀ (placeParts s r probation) :=
  (h.foldl fun k _ => k.placePart).refreshHolds

protected theorem Within.noSpace {r} (h : Within ps s₀ s) : Within ps s₀ (noSpace s r).s := h

protected theorem Within.awaitVictims {r vs place} (h : Within ps s₀ s) : Within ps s₀ (awaitVictims s r vs place).s := h

protected theorem Within.takeIndices {r probation} (h : Within ps s₀ s) : Within ps s₀ (takeIndices s r probation).s := by
  fun_cases takeIndices s r probation
  · exact h.noSpace
  · exact h.evictAll.placeParts
  · exact h.evictAll.awaitVictims

protected theorem Within.evictAndPlace {r vs probation} (h : Within ps s₀ s) : Within ps s₀ (evictAndPlace s r vs probation).s := by
  fun_cases evictAndPlace s r vs probation
  · exact h.evictAll.awaitVictims
  · exact h.evictAll.takeIndices
  · exact h.evictAll.noSpace

protected theorem Within.mainStep {r} (h : Within ps s₀ s) : Within ps s₀ (mainStep s r).s := by
  fun_cases mainStep s r
  · exact h.evictAndPlace
  · exact h.noSpace

protected theorem Within.probationStep {r} (h : Within ps s₀ s) : Within ps s₀ (probationStep s r).s := by
  fun_cases probationStep s r
  · exact (h.ite h.same).mainStep
  · exact (h.ite h.same).evictAndPlace
  · exact (h.ite h.same).mainStep

protected theorem Within.spaceSteps {r} (h : Within ps s₀ s) : Within ps s₀ (spaceSteps s r).s := by
  fun_cases spaceSteps s r
  · exact h.takeIndices
  · exact h
  · exact h.mainStep
  · exact h.probationStep

protected theorem Within.tryAdmit {r} (h : Within ps s₀ s) : Within ps s₀ (tryAdmit s r).s := by
  fun_cases tryAdmit s r
  · exact h.noSpace
  · exact h.evictAll.spaceSteps
  · exact h.evictAll.awaitVictims

protected theorem Within.retryOne {r} (h : Within ps s₀ s) : Within ps s₀ (retryOne s r).s := by
  fun_cases retryOne s r
  · exact h
  · exact h.takeIndices
  · exact h.tryAdmit
  · exact h
  · exact h.tryAdmit

protected theorem Within.noteNoSpace {r} (h : Within ps s₀ s) : Within ps s₀ (noteNoSpace s r).1 := by
  fun_cases noteNoSpace s r
  · exact h
  · exact h.same

protected theorem Within.endAttempt {a} (h : Within ps s₀ a.s) : Within ps s₀ (endAttempt a) := by
  fun_cases endAttempt a
  · exact h.moveAllUllage
  · exact h.moveAllUllage.noteNoSpace.same

protected theorem Within.takeIn {r} (h : Within ps s₀ s) : Within ps s₀ (takeIn s r) := h.tryAdmit.endAttempt

protected theorem Within.unqueue {r} (h : Within ps s₀ s) : Within ps s₀ (unqueue s r) := h.same

protected theorem Within.retryAdmits {l} (h : Within ps s₀ s) : Within ps s₀ (retryAdmits l s) := by
  fun_induction retryAdmits l s with
  | case1 => exact h
  | case2 _ _ _ _ _ ih => exact ih (h.unqueue.retryOne).endAttempt
  | case3 _ _ _ _ ih => exact ih h

protected theorem Within.modWaiting {f} (h : Within ps s₀ s) : Within ps s₀ (modWaiting s f) := h.same

protected theorem Within.takePromises (h : Within ps s₀ s) : Within ps s₀ (takePromises s) := h.evictAll.modWaiting

protected theorem Within.releaseFrom {free0} (h : Within ps s₀ s) : Within ps s₀ (releaseFrom free0 s) := by
  unfold releaseFrom
  extract_lets s1 _ s2
  have h1 : Within ps s₀ s1 := h.refreshHolds.freeStale.moveAllUllage.coverGrowth.takePromises
  have h2 : Within ps s₀ s2 := h1.same
  exact h2.retryAdmits

protected theorem Within.releaseBy {f} (h : Within ps s₀ s) (hf : ∀ {t}, Within ps s₀ t → Within ps s₀ (f t)) : Within ps s₀
    (releaseBy s f) :=
  (hf h).releaseFrom

protected theorem Within.release (h : Within ps s₀ s) : Within ps s₀ (release s) := h.releaseFrom

protected theorem Within.raiseAdmits {epoch a v} (h : Within ps s₀ s) : Within ps s₀ (raiseAdmits s epoch a v) :=
  h.foldl fun k _ => k.unqueue.retryOne.endAttempt

protected theorem Within.noteUser {c epoch vs} (h : Within ps s₀ s) : Within ps s₀ (noteUser s c epoch vs) := by
  fun_cases noteUser s c epoch vs
  · exact h
  · exact h.same.modWaiting

protected theorem Within.needCasks {r v basis} (h : Within ps s₀ s) : Within ps s₀ (needCasks s r v basis) := by
  fun_cases needCasks s r v basis
  · exact h.noteUser
  · exact h.noteUser.raiseAdmits
  · exact h.noteUser
  · exact h.noteUser
  · exact h.noteUser.takeIn

protected theorem Within.bindCask {x epoch a v} (h : Within ps s₀ s) : Within ps s₀ (bindCask s x epoch a v) := by
  fun_cases bindCask s x epoch a v
  · exact h
  · exact h.modCask

protected theorem Within.bindTenant {x tenant} (h : Within ps s₀ s) : Within ps s₀ (bindTenant s x tenant) := by
  fun_cases bindTenant s x tenant
  · exact h
  · exact h.foldl fun k _ => by
      split
      · exact k.modCask
      · exact k

protected theorem Within.unbindGyle {x} (h : Within ps s₀ s) : Within ps s₀
    (unbindGyle s x) := h.releaseBy fun k => k.foldl fun k2 _ => k2.modCask

protected theorem Within.staleCask {epoch a v} (h : Within ps s₀ s) : Within ps s₀ (staleCask s epoch a v) := by
  fun_cases staleCask s epoch a v
  · exact h
  · exact h.freeCask
  · exact h.modCask

/-! ### Release -/

protected theorem Within.freeResv {x slot row} (h : Within ps s₀ s) : Within ps s₀ (freeResv s x slot row) := by
  fun_cases freeResv s x slot row
  · exact h
  · exact h
  · exact (h.same.ite h.modPort).modGyle

protected theorem Within.freeAllResv {x} (h : Within ps s₀ s) : Within ps s₀ (freeAllResv s x) := by
  fun_cases freeAllResv s x
  · exact h
  · exact h.foldl fun k _ => k.freeResv

protected theorem Within.clearHeld {x} (h : Within ps s₀ s) : Within ps s₀ (clearHeld s x) := h.same

protected theorem Within.clearWork {x} (h : Within ps s₀ s) : Within ps s₀ (clearWork s x) :=
  ((h.freeAllResv.foldl fun k _ => k.modPort).foldl fun k _ => k.modTun).clearHeld.same

protected theorem Within.farCancel {g} (h : Within ps s₀ s) : Within ps s₀ (farCancel s g) := h.foldl fun k _ => k.sendMsg

protected theorem Within.farClose {g} (h : Within ps s₀ s) : Within ps s₀ (farClose s g) := h.foldl fun k _ => k.sendMsg

protected theorem Within.withdrawWords {c} (h : Within ps s₀ s) : Within ps s₀ (withdrawWords s c) := h.foldl fun k _ => k.emit.ite k

protected theorem Within.pruneVersions (h : Within ps s₀ s) : Within ps s₀ (pruneVersions s) := by
  unfold pruneVersions
  extract_lets _ _ s1 _
  have h1 : Within ps s₀ s1 := h.same
  exact h1.same

protected theorem Within.freeHandles (h : Within ps s₀ s) : Within ps s₀ (freeHandles s) := h.same

protected theorem Within.settleDirectory (h : Within ps s₀ s) : Within ps s₀ (settleDirectory s) := h.same

protected theorem Within.endOldPrefetches {epoch} (h : Within ps s₀ s) : Within ps s₀ (endOldPrefetches s epoch) :=
  h.foldl fun k _ => k.foldl fun k2 _ => k2.stamp.completeLater.ite k2

protected theorem Within.dropEpoch {epoch} (h : Within ps s₀ s) : Within ps s₀ (dropEpoch s epoch) :=
  h.releaseBy fun k => k.same.keepStreams.endOldPrefetches

protected theorem Within.releaseEpoch (h : Within ps s₀ s) : Within ps s₀ (releaseEpoch s) := by
  fun_cases releaseEpoch s
  · exact h
  · exact h
  · exact (Within.ite h (h.same.foldl fun k _ => k.sendMsg)).dropEpoch
  · exact h.ite (h.same.foldl fun k _ => k.sendMsg)

protected theorem Within.releaseHolds {g} (h : Within ps s₀ s) : Within ps s₀ (releaseHolds s g) := (h.foldl fun k _ => k.sendMsg).same

protected theorem Within.releaseGyle {x} (h : Within ps s₀ s) : Within ps s₀ (releaseGyle s x) := by
  fun_cases releaseGyle s x
  · exact h
  · exact h.releaseHolds.dropGyle.same.unbindGyle.pruneVersions.freeHandles.settleDirectory.releaseEpoch

/-! ### Flags -/

protected theorem Within.postGyle {x} (h : Within ps s₀ s) : Within ps s₀ (postGyle s x) := by
  fun_cases postGyle s x
  · exact h
  · exact h
  · exact h.setGyle.postRecord

protected theorem Within.drainGyle {x} (h : Within ps s₀ s) : Within ps s₀ (drainGyle s x) := by
  fun_cases drainGyle s x
  · exact h
  · exact h.stamp.setGyle.farClose.stamp.postGyle
  · exact h.stamp.setGyle.farClose.startXfer

protected theorem Within.completeGyle {x} (h : Within ps s₀ s) : Within ps s₀ (completeGyle s x) := by
  fun_cases completeGyle s x
  · exact h
  · exact h.setGyle.releaseEpoch
  · exact h.setGyle.releaseGyle

/-! ### Grist -/

protected theorem Within.needComp {x c} (h : Within ps s₀ s) : Within ps s₀ (needComp x s c) := by
  fun_cases needComp x s c
  case case1 => exact h
  case case2 => exact h
  case case3 t _ =>
    unfold t
    split
    · exact h.needCasks.bindCask.bindCask
    · exact h.needCasks.bindCask
  case case4 s1 _ =>
    have h1 : Within ps s₀ s1 := by
      unfold s1
      split
      · exact h.needCasks.bindCask.bindCask
      · exact h.needCasks.bindCask
    exact h1.countUse.modGyle

protected theorem Within.placeHold {g a v t} (h : Within ps s₀ s) (ht : placeHold s g a v = some t) : Within ps s₀ t := by
  revert ht
  fun_cases placeHold s g a v <;> rintro ⟨⟩
  · exact h
  case case6 s1 s2 =>
    have h1 : Within ps s₀ s1 := h.makeT2
    have h2 : Within ps s₀ s2 := h1.same
    split
    · exact h2.modCask
    · exact h2

protected theorem Within.trainComp {k model acc c} (h : Within ps s₀ acc.1) : Within ps s₀ (trainComp k model acc c).1 := by
  fun_cases trainComp k model acc c
  case case6 => exact Within.modGyle h
  case case7 => exact (h.placeHold ‹_›).modGyle
  all_goals exact h

protected theorem Within.trainRow {x r} (h : Within ps s₀ s) : Within ps s₀ (trainRow s x r).1 := by
  fun_cases trainRow s x r
  · exact h
  · exact h.foldl_fst fun k _ => k.trainComp

protected theorem Within.askLookups {x ids} (h : Within ps s₀ s) : Within ps s₀ (askLookups s x ids) := by
  fun_cases askLookups s x ids
  · exact h
  · exact h.foldl fun k _ => k.stamp.sendReq.modGyle

protected theorem Within.openFar {x x'} (h : Within ps s₀ s) : Within ps s₀ (openFar s x x') := by
  fun_cases openFar s x x'
  · exact h
  · exact h.stamp.sendReq

protected theorem Within.fetchRest {x} (h : Within ps s₀ s) : Within ps s₀ (fetchRest s x) := by
  fun_cases fetchRest s x
  · exact h
  · exact h.foldl fun k _ => k.needComp

protected theorem Within.decideFar {x} (h : Within ps s₀ s) : Within ps s₀ (decideFar s x) := by
  fun_cases decideFar s x
  · exact h
  · exact h
  · exact (h.setGyle.foldl fun k _ => k.openFar).fetchRest

protected theorem Within.placeRow {x n r} (h : Within ps s₀ s) : Within ps s₀ (placeRow s x n r) := by
  fun_cases placeRow s x n r
  · exact h
  · exact (h.modGyle.foldl fun k _ => k.needComp).bindTenant.trainRow.modGyle
  · exact (h.modGyle.foldl fun k _ => k.needComp).bindTenant

protected theorem Within.resolveRow {x n e} (h : Within ps s₀ s) : Within ps s₀ (resolveRow s x n e) := by
  fun_cases resolveRow s x n e
  · exact h
  · exact h.placeRow
  · exact h.modGyle.askLookups

protected theorem Within.rowResolve {c num} (h : Within ps s₀ s) : Within ps s₀ (rowResolve c num s) := by
  fun_cases rowResolve c num s
  · exact h
  · exact h
  · exact h
  · exact h.stamp.setGyle.resolveRow.modGyle.decideFar

protected theorem Within.execRowResolve {c gyle} (h : Within ps s₀ s) : Leads ps s₀ (execRowResolve c gyle s) := h.rowResolve.next

protected theorem Within.resolveParked {x} (h : Within ps s₀ s) : Within ps s₀ (resolveParked s x) := by
  fun_cases resolveParked s x
  · exact h
  · exact (h.foldl fun k _ => k.resolveRow).modGyle.decideFar

protected theorem Within.enterGyle {x st} (h : Within ps s₀ s) : Within ps s₀ (enterGyle s x st) := h.stamp.modGyle

protected theorem Within.sortDone {c num} (h : Within ps s₀ s) (hsort : ps .sortRows = true := by assumption) :
    Within ps s₀ (sortDone c num s) := by
  have hcount {t : State} (k : Within ps s₀ t) {sortRows} : Within ps s₀ { t with sortRows } := k.trans { sortRows := listed hsort }
  fun_cases sortDone c num s
  · exact h
  · exact h
  · exact (hcount h.stamp.setGyle).bumpFree.pruneVersions.freeHandles.settleDirectory.enterGyle.drainGyle
  · exact (hcount h.stamp.setGyle).bumpFree.pruneVersions.freeHandles.settleDirectory

protected theorem Within.execSortPass2Done {c gyle} (h : Within ps s₀ s) (hsort : ps .sortRows = true := by assumption) :
    Leads ps s₀ (execSortPass2Done c gyle s) := h.sortDone.next

/-! ### Commands -/

protected theorem Within.readRowMap {c num first addr n} (h : Within ps s₀ s) : Within ps s₀ (readRowMap s c num first addr n) := by
  fun_cases readRowMap s c num first addr n
  · exact h
  · exact h.startXfer

protected theorem Within.openGyle {c d kind} (h : Within ps s₀ s) : Within ps s₀
    (openGyle c d kind s) := h.makeT2.setGyle.readRowMap.acceptSilent

protected theorem Within.gyleOpen {c} (h : Within ps s₀ s) : Within ps s₀
    (gyleOpen c s) := h.onFront fun _ _ _ => h.decideCmd fun k2 => k2.openGyle

protected theorem Within.execGyleOpen {c} (h : Within ps s₀ s) : Leads ps s₀ (execGyleOpen c s) := h.gyleOpen.next

protected theorem Within.trainOpen {c} (h : Within ps s₀ s) : Within ps s₀ (trainOpen c s) :=
  h.onFront fun _ _ _ => h.decideCmd fun k2 => k2.openGyle

protected theorem Within.execTrainOpen {c} (h : Within ps s₀ s) : Leads ps s₀ (execTrainOpen c s) := h.trainOpen.next

protected theorem Within.addRows {c d} (h : Within ps s₀ s) : Within ps s₀ (addRows c d s) := by
  fun_cases addRows c d s
  · exact h
  · exact h.makeT2.setGyle.readRowMap.acceptSilent

protected theorem Within.gyleRows {c} (h : Within ps s₀ s) : Within ps s₀
    (gyleRows c s) := h.onFront fun _ _ _ => h.decideCmd fun k2 => k2.addRows

protected theorem Within.execGyleRows {c} (h : Within ps s₀ s) : Leads ps s₀ (execGyleRows c s) := h.gyleRows.next

protected theorem Within.closeGyle {c fr d} (h : Within ps s₀ s) : Within ps s₀
    (closeGyle c fr d s) := h.modGyle.decideFar.clearFront.afterCmd

protected theorem Within.gyleClose {c} (h : Within ps s₀ s) : Within ps s₀ (gyleClose c s) :=
  h.onFront fun _ _ _ => h.decideCmd fun k2 => k2.closeGyle

protected theorem Within.execGyleClose {c} (h : Within ps s₀ s) : Leads ps s₀ (execGyleClose c s) := h.gyleClose.next

protected theorem Within.planLoad {c} (h : Within ps s₀ s) (hstaged : ps .planStaged = true := by assumption) :
    Within ps s₀ (planLoad c s) :=
  h.onFront fun _ _ _ => h.decideCmd fun k2 => (k2.trans { planStaged := listed hstaged }).doneCmd

protected theorem Within.execPlanLoad {c} (h : Within ps s₀ s) (hstaged : ps .planStaged = true := by assumption) :
    Leads ps s₀ (execPlanLoad c s) := h.planLoad.next

protected theorem Within.swapPlan (h : Within ps s₀ s) (hforce : ps .planInForce = true := by assumption)
    (hstaged : ps .planStaged = true := by assumption) : Within ps s₀ (swapPlan s) := by
  fun_cases swapPlan s
  · exact h
  case case2 s1 =>
    have h1 : Within ps s₀ s1 := h.trans { planInForce := listed hforce, planStaged := listed hstaged }
    exact h1.foldl fun k _ => k.ite k.modCask

protected theorem Within.planSwap {c} (h : Within ps s₀ s) (hforce : ps .planInForce = true := by assumption)
    (hstaged : ps .planStaged = true := by assumption) : Within ps s₀ (planSwap c s) :=
  h.onFront fun _ _ _ => h.decideCmd fun k2 => k2.swapPlan.doneCmd

protected theorem Within.execPlanSwap {c} (h : Within ps s₀ s) (hforce : ps .planInForce = true := by assumption)
    (hstaged : ps .planStaged = true := by assumption) : Leads ps s₀ (execPlanSwap c s) := h.planSwap.next

protected theorem Within.lookFirst {c fr ids body} (hbody : ∀ {t}, Within ps s₀ t → Within ps s₀ (body t)) (h : Within ps s₀ s) :
    Within ps s₀ (lookFirst c fr ids body s) := by
  fun_cases lookFirst c fr ids body s
  · exact hbody h
  · exact h.askAll.modCtx

protected theorem Within.bindMix {c fr d} (h : Within ps s₀ s) : Within ps s₀ (bindMix c fr d s) := by
  fun_cases bindMix c fr d s
  · exact h
  case case2 s1 =>
    have h1 : Within ps s₀ s1 := h.same
    exact h1.doneCmd

protected theorem Within.mixBind {c} (h : Within ps s₀ s) : Within ps s₀ (mixBind c s) :=
  h.onFront fun _ _ _ => h.lookFirst fun k2 => k2.decideCmd fun k3 => k3.bindMix

protected theorem Within.execMixBind {c} (h : Within ps s₀ s) : Leads ps s₀ (execMixBind c s) := h.mixBind.next

protected theorem Within.unbindMix {n} (h : Within ps s₀ s) : Within ps s₀ (unbindMix s n) := by
  unfold unbindMix
  exact (h.same).freeHandles

protected theorem Within.mixUnbind {c} (h : Within ps s₀ s) : Within ps s₀ (mixUnbind c s) :=
  h.onFront fun _ _ _ => h.decideCmd fun k2 => k2.unbindMix.release.doneCmd

protected theorem Within.execMixUnbind {c} (h : Within ps s₀ s) : Leads ps s₀ (execMixUnbind c s) := h.mixUnbind.next

protected theorem Within.setPin {c a n} (h : Within ps s₀ s) : Within ps s₀ (setPin s c a n) := h.same

protected theorem Within.pinAdapter {c fr d} (h : Within ps s₀ s) : Within ps s₀ (pinAdapter c fr d s) :=
  h.setPin.needCasks.countUse.refreshHolds.doneCmd

protected theorem Within.pin {c} (h : Within ps s₀ s) : Within ps s₀ (pin c s) :=
  h.onFront fun _ _ _ => h.lookFirst fun k2 => k2.decideCmd fun k3 => k3.pinAdapter

protected theorem Within.execPin {c} (h : Within ps s₀ s) : Leads ps s₀ (execPin c s) := h.pin.next

protected theorem Within.unpin {c} (h : Within ps s₀ s) : Within ps s₀ (unpin c s) :=
  h.onFront fun _ _ _ => h.decideCmd fun k2 => k2.setPin.release.doneCmd

protected theorem Within.execUnpin {c} (h : Within ps s₀ s) : Leads ps s₀ (execUnpin c s) := h.unpin.next

protected theorem Within.startPrefetch {c d v} (h : Within ps s₀ s) : Within ps s₀ (startPrefetch s c d v) := by
  fun_cases startPrefetch s c d v
  · exact h.same
  · exact h.needCasks

protected theorem Within.prefetchAdapter {c fr d} (h : Within ps s₀ s) : Within ps s₀ (prefetchAdapter c fr d s) := by
  fun_cases prefetchAdapter c fr d s
  · exact h.doneCmd
  · exact h.countUse.doneCmd
  · exact h.startPrefetch.countUse.acceptLater

protected theorem Within.prefetch {c} (h : Within ps s₀ s) : Within ps s₀ (prefetch c s) :=
  h.onFront fun _ _ _ => h.lookFirst fun k2 => k2.decideCmd fun k3 => k3.prefetchAdapter

protected theorem Within.execPrefetch {c} (h : Within ps s₀ s) : Leads ps s₀ (execPrefetch c s) := h.prefetch.next

protected theorem Within.finishPrefetches (h : Within ps s₀ s) : Within ps s₀ (finishPrefetches s) :=
  h.foldl fun k _ => k.foldl fun k2 _ => k2.stamp.completeLater.ite k2

protected theorem Within.mark {c} (h : Within ps s₀ s) : Within ps s₀
    (mark c s) := h.onFront fun _ _ _ => h.decideCmd fun k2 => k2.logNow.doneCmd

protected theorem Within.execMark {c} (h : Within ps s₀ s) : Leads ps s₀ (execMark c s) := h.mark.next

protected theorem Within.nop {c} (h : Within ps s₀ s) : Within ps s₀ (nop c s) := h.onFront fun _ _ _ => h.decideCmd fun k2 => k2.doneCmd

protected theorem Within.execNop {c} (h : Within ps s₀ s) : Leads ps s₀ (execNop c s) := h.nop.next

/-! ### Teardown -/

protected theorem Within.endStream {st} (h : Within ps s₀ s) : Within ps s₀ (endStream s st) := by
  fun_cases endStream s st
  · exact h.keepStreams.freeCask
  · exact h.keepStreams

protected theorem Within.cancelStreams {c} (h : Within ps s₀ s) : Within ps s₀ (cancelStreams s c) := (h.foldl fun k _ => k.endStream).same

protected theorem Within.measureFreeze {r} (h : Within ps s₀ s) : Within ps s₀ (measureFreeze s r) := by
  fun_cases measureFreeze s r
  · exact h.same.bumpFree
  · exact h

protected theorem Within.dropRack {r tell} (h : Within ps s₀ s) : Within ps s₀ (dropRack s r tell) := by
  fun_cases dropRack s r tell
  · exact h.same.sendMsg
  · exact h.same

protected theorem Within.postEnding {c e} (h : Within ps s₀ s) : Within ps s₀ (postEnding c s e) := h.stamp.postRecord

protected theorem Within.dropCmd {c m} (h : Within ps s₀ s) : Within ps s₀ (dropCmd c s m) := by
  fun_cases dropCmd c s m
  · exact h.same.releaseGyle
  · exact h.same.modGyle
  · exact h.same
  · exact h.same
  · exact h.same
  · exact h
  · exact h.dropRack
  · exact h.same
  · exact h
  · exact h
  · exact h.same
  · exact h.same
  · exact h

protected theorem Within.forgetCredit {x} (h : Within ps s₀ s) : Within ps s₀ (forgetCredit s x) := h.foldl fun k _ => k.modPort

protected theorem Within.tearGyle {g} (h : Within ps s₀ s) : Within ps s₀ (tearGyle s g) := h.farCancel.clearWork.releaseGyle.forgetCredit

protected theorem Within.teardown {c} (h : Within ps s₀ s) : Within ps s₀ (teardown s c) := by
  unfold teardown
  extract_lets _ s1 _ _ _ _ _ _ _ _ _
  have h1 : Within ps s₀ s1 := by
    unfold s1
    split
    · exact h.modCtx.measureFreeze.ite h.modCtx
    · exact h.modCtx
  exact (((h1.withdrawWords.foldl fun k _ => k.tearGyle).foldl fun k _ => k.dropCmd).dropXfers.modCtx.foldl fun k _ => k.postEnding).modCtx

protected theorem Within.repeatFault {c cause fid} (h : Within ps s₀ s) : Within ps s₀ (repeatFault s c cause fid) := h.logNow

protected theorem Within.openCtxFault {c source esc} (h : Within ps s₀ s) : Within ps s₀ (openCtxFault s c source esc) := by
  fun_cases openCtxFault s c source esc
  · exact h
  · exact h.same
  · exact h.newFaultNow

protected theorem Within.faultCtx {c cause source esc} (h : Within ps s₀ s) : Within ps s₀ (faultCtx s c cause source esc) := by
  fun_cases faultCtx s c cause source esc
  · exact h.repeatFault
  · exact h.repeatFault
  · exact h.repeatFault
  · exact h.openCtxFault.modCtx.logNow.setCtxNow.raise.teardown

protected theorem Within.resetCtx {c} (h : Within ps s₀ s) : Within ps s₀ (resetCtx s c) := by
  unfold resetCtx
  extract_lets s1 held s2 _ s3
  have h1 : Within ps s₀ s1 := h.setCtxNow.teardown
  have h2 : Within ps s₀ s2 := h1.foldl fun k _ => k.releaseGyle.forgetCredit
  clear_value s2
  have h3 : Within ps s₀ s3 := h2.same
  exact h3.freeHandles.cancelStreams.release

protected theorem Within.execCtxReset {c role} (h : Within ps s₀ s) : Leads ps s₀ (execCtxReset c role s) :=
    (h.busWrite (fun k => k.resetCtx)).next

protected theorem Within.finishReset {c} (h : Within ps s₀ s) (hregs : ps .regs = true := by assumption) :
    Within ps s₀ (finishReset s c) := h.modCtx.setReg.setCtxState.endFault

protected theorem Within.ctxResetDone {c} (h : Within ps s₀ s) (hregs : ps .regs = true := by assumption) :
    Within ps s₀ (ctxResetDone c s) := by
  fun_cases ctxResetDone c s
  · exact h.finishReset
  · exact h

protected theorem Within.execCtxResetDone {c} (h : Within ps s₀ s) (hregs : ps .regs = true := by assumption) :
    Leads ps s₀ (execCtxResetDone c s) := h.ctxResetDone.next

protected theorem Within.levelFour {c id source first} (h : Within ps s₀ s) : Within ps s₀ (levelFour s c id source first) := by
  fun_cases levelFour s c id source first
  · exact h.repeatFault
  · exact h.repeatFault
  · exact h.enterLevel.stamp.resetCtx
  · exact h.enterLevel.stamp.modCtx.logNow.setCtxNow.raise.stamp.resetCtx

protected theorem Within.stopGyle {g} (h : Within ps s₀ s) : Within ps s₀ (stopGyle s g) := h.farCancel.clearWork.modGyle

protected theorem Within.cutFar {g} (h : Within ps s₀ s) : Within ps s₀ (cutFar s g) := h.farCancel.modGyle.same

protected theorem Within.issueHeld {c} (h : Within ps s₀ s) : Within ps s₀ (issueHeld s c) :=
    (h.foldl fun k _ => k.foldl fun k2 _ => k2.modTun).same

protected theorem Within.quiesceNow {c fr d} (h : Within ps s₀ s) : Within ps s₀ (quiesceNow c fr d s) :=
  ((h.modCtx.withdrawWords.setCtxNow.issueHeld.foldl fun k _ => k.stopGyle).foldl fun k _ => k.cutFar).acceptLater

protected theorem Within.quiesce {c} (h : Within ps s₀ s) : Within ps s₀
    (quiesce c s) := h.onFront fun _ _ _ => h.decideCmd fun k2 => k2.quiesceNow

protected theorem Within.execQuiesce {c} (h : Within ps s₀ s) : Leads ps s₀ (execQuiesce c s) := h.quiesce.next

protected theorem Within.quiesceComplete {c} (h : Within ps s₀ s) : Within ps s₀ (quiesceComplete c s) := by
  fun_cases quiesceComplete c s
  · exact h
  · exact h.stamp.completeLater
  · exact h

protected theorem Within.execQuiesceComplete {c} (h : Within ps s₀ s) : Leads ps s₀ (execQuiesceComplete c s) := h.quiesceComplete.next

protected theorem Within.reopenFar {g} (h : Within ps s₀ s) : Within ps s₀ (reopenFar s g) := h.modGyle.foldl fun k _ => k.openFar

protected theorem Within.rerunGyle {g} (h : Within ps s₀ s) : Within ps s₀ (rerunGyle s g) := h.modGyle.reopenFar

protected theorem Within.resumeNow {c fr d} (h : Within ps s₀ s) : Within ps s₀ (resumeNow c fr d s) :=
  ((h.setCtxNow.doneCmd.foldl fun k _ => k.rerunGyle).foldl fun k _ => k.reopenFar).foldl fun k _ => k.enterGyle.drainGyle

protected theorem Within.resume {c} (h : Within ps s₀ s) : Within ps s₀
    (resume c s) := h.onFront fun _ _ _ => h.decideCmd fun k2 => k2.resumeNow

protected theorem Within.execResume {c} (h : Within ps s₀ s) : Leads ps s₀ (execResume c s) := h.resume.next

protected theorem Within.rerunNow {x} (h : Within ps s₀ s) : Within ps s₀ (rerunNow s x) := by
  fun_cases rerunNow s x
  · exact h
  · exact h
  · exact h.stopGyle.rerunGyle

/-! ### Publish -/

protected theorem Within.remember {peer corr m} (h : Within ps s₀ s) : Within ps s₀ (remember s peer corr m) := h.same

protected theorem Within.reply {to_ type status args data} (h : Within ps s₀ s) : Within ps s₀ (reply s to_ type status args data) :=
  h.sendMsg.remember

protected theorem Within.revoke {a v purge} (h : Within ps s₀ s) : Within ps s₀ (revoke s a v purge).1 :=
    (h.foldl fun k _ => k.stamp.sendReq)

protected theorem Within.endSupersede {w} (h : Within ps s₀ s) : Within ps s₀ (endSupersede s w) := by
  fun_cases endSupersede s w
  case case1 t _ =>
    unfold t
    split
    · exact h.stamp.reply
    · exact h.stamp
  case case2 s1 _ _ s2 _ _ =>
    have h1 : Within ps s₀ s1 := by
      unfold s1
      split
      · exact h.stamp.reply
      · exact h.stamp
    have h2 : Within ps s₀ s2 := by
      unfold s2
      split
      · exact h1.completeLater
      · exact h1
    exact h2.same.releaseGyle
  case case3 s1 _ _ t _ =>
    have h1 : Within ps s₀ s1 := by
      unfold s1
      split
      · exact h.stamp.reply
      · exact h.stamp
    unfold t
    split
    · exact h1.completeLater
    · exact h1

protected theorem Within.endSupersedes (h : Within ps s₀ s) : Within ps s₀ (endSupersedes s) := h.same.foldl fun k _ => k.endSupersede

protected theorem Within.holderDone {epoch a v p} (h : Within ps s₀ s) : Within ps s₀ (holderDone s epoch a v p) := by
  unfold holderDone
  extract_lets _ s1
  have h1 : Within ps s₀ s1 := h.same
  exact h1.endSupersedes

protected theorem Within.makeIndices {n keep} (h : Within ps s₀ s) : Within ps s₀ (makeIndices s n keep) := h.evictAll

protected theorem Within.installCask {v old written commit} (h : Within ps s₀ s) : Within ps s₀ (installCask s v old written commit) := by
  unfold installCask
  extract_lets _ _ _ _ _ _ s1
  have h1 : Within ps s₀ s1 := by
    unfold s1
    split
    · exact h
    · exact h.modCask.addStream.ite h.modCask
  exact h1.releaseBy fun k => k.staleCask

protected theorem Within.syncDirty {a} (h : Within ps s₀ s) : Within ps s₀ (syncDirty s a) := by
  fun_cases syncDirty s a
  · exact h
  · exact h.modCask

protected theorem Within.markDirty {a v idx} (h : Within ps s₀ s) : Within ps s₀ (markDirty s a v idx) := by
  fun_cases markDirty s a v idx
  · exact h
  · exact h.same.syncDirty

protected theorem Within.addDirty {v written dirty} (h : Within ps s₀ s) : Within ps s₀ (addDirty s v written dirty) := by
  fun_cases addDirty s v written dirty
  · exact h.same.markDirty
  · exact h.same.syncDirty

protected theorem Within.makeCurrent {a v} (h : Within ps s₀ s) : Within ps s₀ (makeCurrent s a v) := h.modAdapter

protected theorem Within.noteDelta {v idx} (h : Within ps s₀ s) : Within ps s₀ (noteDelta s v idx) := by
  fun_cases noteDelta s v idx
  · exact h.same
  · exact h
  · exact h

protected theorem Within.noteSuperseded {epoch a v} (h : Within ps s₀ s) : Within ps s₀ (noteSuperseded s epoch a v) :=
  h.same

protected theorem Within.installVersion {v written commit dirty} (h : Within ps s₀ s) : Within ps s₀
    (installVersion s v written commit dirty) :=
  h.makeCurrent.installCask.addDirty.noteDelta.noteSuperseded

protected theorem Within.revokeAll {olds} (h : Within ps s₀ s) : Within ps s₀ (revokeAll s olds).1 := by
  have h1 := h.foldl_fst (l := olds) (p := (s, ([] : List (Nat × AdapterId × Nat × Nat))))
    (g := fun acc p => ((revoke acc.1 p.1 p.2 false).1, acc.2 ++ (revoke acc.1 p.1 p.2 false).2)) fun k _ => k.revoke
  exact h1.refreshHolds.pruneVersions

protected theorem Within.publishVersion {v written commit dirty} (h : Within ps s₀ s) : Within ps s₀
    (publishVersion s v written commit dirty).1 :=
  h.installVersion.revokeAll

/-! ### Train -/

protected theorem Within.train_put {hold scratch commits dirty applied dropped} (h : Within ps s₀ s) :
    Within ps s₀ { s with train := { s.train with hold, scratch, commits, dirty, applied, dropped } } :=
  h.same

protected theorem Within.acceptCommit {c fr d} (h : Within ps s₀ s) : Within ps s₀ (acceptCommit c fr d s) := by
  fun_cases acceptCommit c fr d s
  · exact h
  case case2 s1 s2 =>
    have h1 : Within ps s₀ s1 := h.setGyle.makeIndices
    clear_value s1
    have h2 : Within ps s₀ s2 := h1.train_put
    exact h2.acceptLater

protected theorem Within.trainCommit {c} (h : Within ps s₀ s) : Within ps s₀ (trainCommit c s) :=
  h.onFront fun _ _ _ => h.decideCmd fun k2 => k2.acceptCommit

protected theorem Within.execTrainCommit {c} (h : Within ps s₀ s) : Leads ps s₀ (execTrainCommit c s) := h.trainCommit.next

protected theorem Within.endTraining {g} (h : Within ps s₀ s) : Within ps s₀ (endTraining s g) := by
  fun_cases endTraining s g
  · exact h.dropXfers.tearGyle
  · exact h.dropXfers.tearGyle.stamp.postRecord.afterCmd
  · exact h.dropXfers.tearGyle

protected theorem Within.acceptAbort {c fr d} (h : Within ps s₀ s) : Within ps s₀ (acceptAbort c fr d s) := by
  fun_cases acceptAbort c fr d s
  · exact h
  · exact h.doneCmd.endTraining

protected theorem Within.trainAbort {c} (h : Within ps s₀ s) : Within ps s₀ (trainAbort c s) :=
  h.onFront fun _ _ _ => h.decideCmd fun k2 => k2.acceptAbort

protected theorem Within.execTrainAbort {c} (h : Within ps s₀ s) : Leads ps s₀ (execTrainAbort c s) := h.trainAbort.next

protected theorem Within.modCommit {x f} (h : Within ps s₀ s) : Within ps s₀ (modCommit s x f) := h.same

protected theorem Within.startThrough {x prepared} (h : Within ps s₀ s) : Within ps s₀ (startThrough s x prepared) := h.modCommit.same

protected theorem Within.commitRun {c num} (h : Within ps s₀ s) : Within ps s₀ (commitRun c num s) := by
  fun_cases commitRun c num s
  · exact h
  · exact h.stamp.bumpFree.modCommit.startThrough
  · exact h.stamp.bumpFree.modCommit
  · exact h

protected theorem Within.publishStep {g through p} (h : Within ps s₀ s) : Within ps s₀
    (publishStep g through s p) := h.installVersion.modVer

protected theorem Within.noteNonfinite {g o} (h : Within ps s₀ s) : Within ps s₀ (noteNonfinite g s o) := by
  fun_cases noteNonfinite g s o
  · exact h.modVer
  · exact h

protected theorem Within.commitPublish {c num} (h : Within ps s₀ s) : Within ps s₀ (commitPublish c num s) := by
  unfold commitPublish
  extract_lets k s1
  split
  · extract_lets n os ok s2 olds r s3 _ s4 _ s5 s6
    have h3 : Within ps s₀ s3 := (h.stamp.modCommit.foldl fun k _ => k.publishStep).revokeAll.foldl fun k _ => k.noteNonfinite
    have h4 : Within ps s₀ s4 := h3.same
    have h5 : Within ps s₀ s5 := h4.same
    have h6 : Within ps s₀ s6 := h5.ite h5.startXfer
    split
    · exact h
    · split
      · exact h.startThrough
      · split
        · exact h
        · split
          · exact h.makeIndices
          · exact h6.endSupersedes
  · exact h

protected theorem Within.execCommitPublish {c gyle} (h : Within ps s₀ s) : Leads ps s₀ (execCommitPublish c gyle s) := h.commitPublish.next

protected theorem Within.reportWritten {c num} (h : Within ps s₀ s) : Within ps s₀ (reportWritten s c num) := h.same.endSupersedes

protected theorem Within.hpStoreEffect {tenant} (h : Within ps s₀ s) (hhp : ps .hyperparams = true := by assumption) :
    Within ps s₀ (hpStoreEffect tenant s) := h.trans { hyperparams := listed hhp }

protected theorem Within.hpLoadEffect {tenant} (h : Within ps s₀ s) (hregs : ps .regs = true := by assumption) :
    Within ps s₀ (hpLoadEffect tenant s) := h.foldl fun k _ => k.setReg

theorem fld_hpWord (op : Nat) (tenant : Fin 4096) (hop : op < 4) : fld (hpWord op tenant) 12 2 = op := by
  have htenant := tenant.isLt
  simp only [fld, hpWord, BitVec.toNat_ofNat]
  omega

/-- A write of `TRAIN_HP_INDEX` stores a record only with the operation that stores one. -/
protected theorem Within.hpWrite {v} (h : Within ps s₀ s) (hhp : fld v 12 2 = 1 → ps .hyperparams = true)
    (hregs : ps .regs = true := by assumption) : Within ps s₀ (hpWrite v s) := by
  fun_cases hpWrite v s
  · exact h.storeReg.hpStoreEffect (hhp ‹_›)
  · exact h.storeReg.hpLoadEffect
  · exact h.storeReg

protected theorem Within.execHpStore {tenant role} (h : Within ps s₀ s) (hregs : ps .regs = true := by assumption)
    (hhp : ps .hyperparams = true := by assumption) : Leads ps s₀ (execHpStore tenant role s) :=
  (h.busWrite fun k => k.hpWrite fun _ => hhp).next

protected theorem Within.execHpLoad {tenant role} (h : Within ps s₀ s) (hregs : ps .regs = true := by assumption) :
    Leads ps s₀ (execHpLoad tenant role s) :=
  (h.busWrite fun k => k.hpWrite fun hop => by
    rw [fld_hpWord _ _ (by decide)] at hop
    exact absurd hop (by decide)).next

/-! ### Memory -/

protected theorem Within.readOn {c fr d} (h : Within ps s₀ s) : Within ps s₀ (readOn s c fr d) := by
  fun_cases readOn s c fr d
  · exact h.modCtx.startXfer
  · exact h.modCtx

protected theorem Within.descArrived {c bs} (h : Within ps s₀ s) : Within ps s₀ (descArrived s c bs) := by
  fun_cases descArrived s c bs
  · exact h
  · exact h.refuseCmd
  · exact h.readOn

protected theorem Within.imageArrived {c bs} (h : Within ps s₀ s) : Within ps s₀ (imageArrived s c bs) := by
  fun_cases imageArrived s c bs
  · exact h
  · exact h
  · exact h.readOn

protected theorem Within.rowMapArrived {c num first bs} (h : Within ps s₀ s) : Within ps s₀ (rowMapArrived s c num first bs) := h.modGyle

protected theorem Within.readDone {use bs} (h : Within ps s₀ s) : Within ps s₀ (readDone s use bs) := by
  fun_cases readDone s use bs
  · exact h.descArrived
  · exact h.imageArrived
  · exact h.rowMapArrived
  · exact h
  · exact h
  · exact h
  · exact h

protected theorem Within.passRecords {c l} (h : Within ps s₀ s) : Within ps s₀ (passRecords c l s) := by
  fun_induction passRecords c l s with
  | case1 => exact h
  | case2 _ _ _ _ _ _ s1 ih =>
    refine ih ?_
    unfold s1
    split
    · exact h.modCtx.raiseAt.completeGyle
    · exact h.modCtx.raiseAt
  | case3 => exact h

protected theorem Within.noteTeardown {c} (h : Within ps s₀ s) : Within ps s₀ (noteTeardown s c) := h.modCtx

protected theorem Within.recordWritten {c xfer} (h : Within ps s₀ s) : Within ps s₀ (recordWritten s c xfer) :=
  h.modCtx.passRecords.noteTeardown.afterCmd

protected theorem Within.writeDone {xfer use} (h : Within ps s₀ s) : Within ps s₀ (writeDone s xfer use) := by
  fun_cases writeDone s xfer use
  · exact h.recordWritten
  · exact h.stamp.postGyle
  · exact h.reportWritten
  · exact h
  · exact h
  · exact h
  · exact h

protected theorem Within.dropReq {port id} (h : Within ps s₀ s) : Within ps s₀ (dropReq s port id) := h.modMem

protected theorem Within.endPortFault {port} (h : Within ps s₀ s) : Within ps s₀ (endPortFault s port) := by
  fun_cases endPortFault s port
  · exact h
  · exact h.endFault

protected theorem Within.countBytes {port r} (h : Within ps s₀ s) (hcounts : ps .portCounts = true := by assumption) :
    Within ps s₀ (countBytes s port r) := h.modMem fun _ => listed hcounts

protected theorem Within.chunkDone {r data} (h : Within ps s₀ s) : Within ps s₀ (chunkDone s r data) := by
  fun_cases chunkDone s r data
  · exact h
  · exact h.same.writeDone
  · exact h.same.readDone
  · exact h.same

protected theorem Within.dropXfer {id} (h : Within ps s₀ s) : Within ps s₀ (dropXfer s id) := h.same

protected theorem Within.xferFailed {r esc} (h : Within ps s₀ s) : Within ps s₀ (xferFailed s r esc) := by
  fun_cases xferFailed s r esc
  · exact h
  · exact h.dropXfer.faultCtx

protected theorem Within.memError {port r} (h : Within ps s₀ s) (hcounts : ps .portCounts = true := by assumption) :
    Within ps s₀ (memError s port r) := by
  have hcount : Within ps s₀ { raise s (pgMem port) 1 with boundary := { (raise s (pgMem port) 1).boundary with
      mem := tmod {} (raise s (pgMem port) 1).boundary.mem port fun m => { m with errors := sat 32 (m.errors + 1) } } } :=
    h.raise.modMem fun _ => listed hcounts
  fun_cases memError s port r
  · exact hcount.dropReq.endPortFault.dropXfer.retryWaiting
  · exact hcount.startFault.modMem
  · exact hcount.startFault.dropReq.endPortFault.xferFailed.retryWaiting

protected theorem Within.memResponse {port id write data check} (h : Within ps s₀ s) (hcounts : ps .portCounts = true := by assumption) :
    Within ps s₀ (memResponse port id write data check s) := by
  fun_cases memResponse port id write data check s
  · exact h
  · exact h
  · exact h.stamp.noteParity.memError
  · exact (h.stamp.noteParity.dropReq.endPortFault.ite h.stamp.noteParity.dropReq).countBytes.chunkDone.retryWaiting

protected theorem Within.execReadData {port id data check} (h : Within ps s₀ s) (hcounts : ps .portCounts = true := by assumption) :
    Leads ps s₀ (execReadData port id data check s) :=
  h.memResponse.next

protected theorem Within.execWriteResponse {port id check} (h : Within ps s₀ s) (hcounts : ps .portCounts = true := by assumption) :
    Leads ps s₀ (execWriteResponse port id check s) :=
  h.memResponse.next

/-! ### Lanes -/

protected theorem Within.enqueue {x slot t ops rows} (h : Within ps s₀ s) : Within ps s₀ (enqueue s x slot t ops rows) := h.modTun.modGyle

protected theorem Within.holdLanes {x slot p rows} (h : Within ps s₀ s) : Within ps s₀ (holdLanes s x slot p rows) :=
  h.foldl fun k _ => by
    split
    · exact k
    · exact k.modGyle.ite k

protected theorem Within.notePlaced {x} (h : Within ps s₀ s) : Within ps s₀ (notePlaced s x) := h.modGyle

protected theorem Within.placeSegment {x row slot} (h : Within ps s₀ s) : Within ps s₀ (placeSegment s x row slot) := by
  fun_cases placeSegment s x row slot
  · exact h
  · exact h
  · exact h.modGyle
  · exact (h.modGyle.notePlaced.foldl fun k _ => k.foldl fun k2 _ => k2.enqueue).holdLanes
  · exact h

protected theorem Within.reserve {k slot row head t} (h : Within ps s₀ s) (ht : reserve s k slot row head = some t) : Within ps s₀ t := by
  revert ht
  fun_cases reserve s k slot row head <;> rintro ⟨⟩
  · exact h
  · exact h.modPort.modGyle
  · exact h.same.modPort.modGyle

protected theorem Within.dropRow {x slot row} (h : Within ps s₀ s) : Within ps s₀ (dropRow s x slot row) :=
    (h.foldl fun k _ => k.modTun).same

protected theorem Within.substitute {x slot row wantFallback} (h : Within ps s₀ s) : Within ps s₀
    (substitute s x slot row wantFallback) := by
  fun_cases substitute s x slot row wantFallback
  · exact h
  · exact h
  · exact h.dropRow.modGyle
  · exact h.dropRow.modGyle.modGyle
  · exact h.dropRow.modGyle.enqueue.notePlaced
  · exact h.dropRow.modGyle

protected theorem Within.secondChoice {x slot row} (h : Within ps s₀ s) : Within ps s₀ (secondChoice s x slot row) := by
  fun_cases secondChoice s x slot row
  · exact h
  · exact h.modGyle
  · exact h.substitute

protected theorem Within.markLate {x slot row} (h : Within ps s₀ s) : Within ps s₀ (markLate s x slot row) := by
  fun_cases markLate s x slot row
  · exact h
  · exact h
  · exact (h.modGyle.ite h).secondChoice
  · exact (h.modGyle.ite h).modGyle

protected theorem Within.settleBlocked (h : Within ps s₀ s) : Within ps s₀ (settleBlocked s) := by
  fun_cases settleBlocked s
  · exact h
  · exact h.foldl fun k _ => k.foldl fun k2 _ => by
      split
      · exact k2
      · exact k2.secondChoice.ite k2

/-! ### Fills -/

protected theorem Within.runFeeder {tun lane ran ahead} (h : Within ps s₀ s) : Within ps s₀ (runFeeder s tun lane ran ahead) := by
  unfold runFeeder
  extract_lets
  exact h.modTun

protected theorem Within.feedTun {tun} (h : Within ps s₀ s) : Within ps s₀ (feedTun s tun) := h.foldl fun k _ => k.runFeeder

protected theorem Within.settleRanks {tun} (h : Within ps s₀ s) : Within ps s₀ (settleRanks s tun) := by
  unfold settleRanks
  extract_lets
  exact h.modTun

protected theorem Within.passFeeders {tun fill} (h : Within ps s₀ s) : Within ps s₀ (passFeeders s tun fill) := by
  unfold passFeeders
  extract_lets
  exact h.modTun

protected theorem Within.writeRanks {tun fill} (h : Within ps s₀ s) : Within ps s₀ (writeRanks s tun fill) := h.modTun.settleRanks

protected theorem Within.runFill {t o} (h : Within ps s₀ s) : Within ps s₀ (runFill s t o) := h.modTun.bumpFree

protected theorem Within.putPartial {x} (h : Within ps s₀ s) : Within ps s₀ (putPartial s x) := h.same

protected theorem Within.drainGrads {t o a x} (h : Within ps s₀ s) : Within ps s₀ (drainGrads s t o a x) := by
  fun_cases drainGrads s t o a x
  · exact h
  · exact h
  · exact h
  · exact h
  · exact h.putPartial

protected theorem Within.drainOp {o a} (h : Within ps s₀ s) : Within ps s₀ (drainOp s o a) := by
  fun_cases drainOp s o a
  · exact h
  · exact h
  · exact h.foldl fun k _ => k.foldl fun k2 _ => by
      split
      · exact k2
      · exact k2.modGyle

/-! ### Ports -/

protected theorem Within.grant {port c row kind beats} (h : Within ps s₀ s) : Within ps s₀ (grant s port c row kind beats) := h.modPort.emit

protected theorem Within.activationGrant {port} (h : Within ps s₀ s) : Within ps s₀ (activationGrant port s) := by
  fun_cases activationGrant port s
  · exact h
  · exact h
  · exact h.stamp.grant
  · exact h.stamp.grant

protected theorem Within.execActivationCreditGrant {port} (h : Within ps s₀ s) : Leads ps s₀ (execActivationCreditGrant port s) :=
  h.activationGrant.next

protected theorem Within.portionGrant {port} (h : Within ps s₀ s) : Within ps s₀ (portionGrant port s) := by
  fun_cases portionGrant port s
  · exact h
  · exact h
  · exact h.stamp.modPort.grant

protected theorem Within.execCreditPortionGrant {port} (h : Within ps s₀ s) : Leads ps s₀
    (execCreditPortionGrant port s) := h.portionGrant.next

protected theorem Within.baseGrant {port} (h : Within ps s₀ s) : Within ps s₀ (baseGrant port s) := by
  fun_cases baseGrant port s
  · exact h
  · exact h
  · exact h
  · exact h.stamp.modGyle.grant

protected theorem Within.execBaseCreditGrant {port} (h : Within ps s₀ s) : Leads ps s₀ (execBaseCreditGrant port s) := h.baseGrant.next

protected theorem Within.badBeat {port t row tenant} (h : Within ps s₀ s) : Within ps s₀ (badBeat s port t row tenant) := by
  fun_cases badBeat s port t row tenant
  · exact h.modPort.logNow
  · exact h.modPort.logNow.faultCtx

protected theorem Within.startRunning {g} (h : Within ps s₀ s) : Within ps s₀ (startRunning s g) := by
  fun_cases startRunning s g
  · exact h.modGyle
  · exact h

protected theorem Within.farRowsTo {g p row home x} (h : Within ps s₀ s) : Within ps s₀ (farRowsTo s g p row home x) := h.sendReq

protected theorem Within.freeFar {x slot row} (h : Within ps s₀ s) : Within ps s₀ (freeFar s x slot row) := h.same

protected theorem Within.sendFarRow {k slot row} (h : Within ps s₀ s) : Within ps s₀ (sendFarRow s k slot row) := by
  fun_cases sendFarRow s k slot row
  case case5 s1 hs1 n s2 s3 s4 =>
    have h1 : Within ps s₀ s1 := h.reserve hs1
    have h2 : Within ps s₀ s2 := h1.foldl fun k _ => k.stamp.farRowsTo
    have h3 : Within ps s₀ s3 := h2.same
    exact h3.freeFar.modGyle
  all_goals exact h

protected theorem Within.sendFarRows (h : Within ps s₀ s) : Within ps s₀ (sendFarRows s) :=
  h.foldl fun k _ => k.foldl fun k2 _ => k2.ite k2.sendFarRow

protected theorem Within.beginRow {g p slot row} (h : Within ps s₀ s) : Within ps s₀ (beginRow s g p slot row) :=
  (h.modGyle.placeSegment.substitute.ite h.modGyle.placeSegment).settleBlocked

protected theorem Within.stageBeat {g p port t index} (h : Within ps s₀ s) : Within ps s₀ (stageBeat s g p port t index) := by
  fun_cases stageBeat s g p port t index
  · exact h
  · exact h.modPort

protected theorem Within.sendBeats {port g p slot row} (h : Within ps s₀ s) : Within ps s₀ (sendBeats s port g p slot row) :=
  h.emitAll.modPort.modGyle

protected theorem Within.sumBeat {port x slot row} (h : Within ps s₀ s) : Within ps s₀ (sumBeat s port x slot row) := by
  fun_cases sumBeat s port x slot row
  · exact h
  · exact h
  · exact h
  · exact h.sendBeats

protected theorem Within.acceptBeat {g p port t data} (h : Within ps s₀ s) : Within ps s₀ (acceptBeat s g p port t data) := by
  unfold acceptBeat
  extract_lets size x first index cr s1 s2 got s3 s4 s5 whole s6
  have h3 : Within ps s₀ s3 := h.startRunning.modGyle.modPort
  have h4 : Within ps s₀ s4 := h3.beginRow.ite h3
  have h6 : Within ps s₀ s6 := h4.stageBeat.modPort.ite h4.stageBeat
  split
  · exact h6.sumBeat
  · exact h6.sendFarRow.ite h6

protected theorem Within.checkFailed {port t0} (h : Within ps s₀ s) : Within ps s₀ (checkFailed s port t0) := by
  fun_cases checkFailed s port t0
  · exact h
  · exact h
  · exact h
  · exact h.startFault.endFault.levelFour
  · exact h.startFault.modGyle.modPort.emit

protected theorem Within.endSpliceFault {port} (h : Within ps s₀ s) : Within ps s₀ (endSpliceFault s port) := by
  fun_cases endSpliceFault s port
  · exact h.endFault
  · exact h

protected theorem Within.goodBeat {port t data} (h : Within ps s₀ s) : Within ps s₀ (goodBeat s port t data) := by
  fun_cases goodBeat s port t data
  · exact h.modPort
  · exact h.badBeat
  · exact h.badBeat
  · exact h.badBeat
  · exact h.badBeat
  · exact h.acceptBeat.endSpliceFault

protected theorem Within.inboundBeat {port t data check} (h : Within ps s₀ s) : Within ps s₀ (inboundBeat port t data check s) := by
  fun_cases inboundBeat port t data check s
  · exact h
  · exact h.stamp.noteParity.modPort.modPort
  · exact h.stamp.noteParity.modPort.goodBeat
  · exact h.stamp.noteParity.modPort.checkFailed

protected theorem Within.execInboundBeat {port tag data check} (h : Within ps s₀ s) : Leads ps s₀ (execInboundBeat port tag data check s) :=
  h.inboundBeat.next

protected theorem Within.unstage {port b} (h : Within ps s₀ s) : Within ps s₀ (unstage s port b) := h.modPort

protected theorem Within.writeBeat {port b} (h : Within ps s₀ s) : Within ps s₀ (writeBeat s port b) := h.unstage.modGyle

protected theorem Within.holdBeat {port b} (h : Within ps s₀ s) : Within ps s₀ (holdBeat s port b) := by
  fun_cases holdBeat s port b
  · exact h
  · exact h.modPort

protected theorem Within.scatterWrite {port f} (h : Within ps s₀ s) : Within ps s₀ (scatterWrite port f s) := by
  fun_cases scatterWrite port f s
  · exact h
  · exact h.stamp.placeSegment.unstage
  · exact h.stamp.placeSegment.unstage
  · exact h.stamp.placeSegment.writeBeat
  · exact h.stamp.placeSegment.runFeeder.settleRanks.holdBeat
  · exact h.stamp.placeSegment.runFeeder.settleRanks.writeBeat

protected theorem Within.execScatterWrite {port feeder} (h : Within ps s₀ s) : Leads ps s₀
    (execScatterWrite port feeder s) := h.scatterWrite.next

protected theorem Within.sendPart {port x row} (h : Within ps s₀ s) : Within ps s₀ (sendPart s port x row) := by
  unfold sendPart
  extract_lets s1
  have h1 : Within ps s₀ s1 := by
    unfold s1
    split
    · exact h.startXfer
    · exact h
  exact h1.sendBeats

protected theorem Within.partSend {port} (h : Within ps s₀ s) : Within ps s₀ (partSend port s) := by
  fun_cases partSend port s
  · exact h
  · exact h
  · exact h
  · exact h.stamp.sendPart

protected theorem Within.execPartSendStart {port} (h : Within ps s₀ s) : Leads ps s₀ (execPartSendStart port s) := h.partSend.next

protected theorem Within.outboundNak {port t} (h : Within ps s₀ s) : Within ps s₀ (outboundNak port t s) := by
  fun_cases outboundNak port t s
  · exact h
  · exact h
  · exact h
  · exact h.stamp.startFault.endFault.levelFour
  · exact h.stamp.startFault.modPort.emitAll

protected theorem Within.execOutboundNak {port tag} (h : Within ps s₀ s) : Leads ps s₀ (execOutboundNak port tag s) := h.outboundNak.next

protected theorem Within.partLeft {port} (h : Within ps s₀ s) : Within ps s₀ (partLeft port s) := by
  fun_cases partLeft port s
  · exact h
  · exact h.stamp.modPort.freeResv.modGyle.endSpliceFault.sendFarRows
  · exact h.stamp.modPort.freeResv.modGyle.endSpliceFault.sendFarRows.drainGyle
  · exact h.stamp.modPort.freeResv.modGyle.endSpliceFault.sendFarRows

protected theorem Within.execPartLeft {port} (h : Within ps s₀ s) : Leads ps s₀ (execPartLeft port s) := h.partLeft.next

/-! ### Lost -/

protected theorem Within.loseInGyle {a v at_ g} (h : Within ps s₀ s) : Within ps s₀ (loseInGyle a v at_ s g) := by
  fun_cases loseInGyle a v at_ s g
  · exact h.endTraining
  · exact h
  · exact h.foldl fun k _ => k.substitute
  · exact h

protected theorem Within.updateLost {a} (h : Within ps s₀ s) : Within ps s₀ (updateLost s a) := by
  fun_cases updateLost s a
  · exact (h.same.logNow.raise.releaseBy (fun k => k.staleCask)).publishVersion.enterShared
  · exact h

protected theorem Within.tensorLost {epoch a v idx} (h : Within ps s₀ s) : Within ps s₀ (tensorLost s epoch a v idx) := by
  fun_cases tensorLost s epoch a v idx
  · exact h
  · exact h
  · exact (h.modVerOf.same.logNow.raise.foldl fun k _ => k.loseInGyle).updateLost
  · exact h.modVerOf.same.logNow.raise.foldl fun k _ => k.loseInGyle

/-! ### Purging -/

protected theorem Within.purgeInGyle {a g} (h : Within ps s₀ s) : Within ps s₀ (purgeInGyle a s g) := by
  fun_cases purgeInGyle a s g
  · exact h
  · exact h.endTraining
  · exact h
  · exact h.foldl fun k _ => k.dropRow.modGyle
  · exact h.foldl fun k _ => k.substitute

protected theorem Within.zeroT3 {w} (h : Within ps s₀ s) : Within ps s₀ (zeroT3 s w) := by
  fun_cases zeroT3 s w
  · exact h
  · exact h.foldl fun k _ => k.sendMsg

protected theorem Within.freePurged (h : Within ps s₀ s) : Within ps s₀ (freePurged s) := h.foldl fun k _ => k.freeCask.ite k

protected theorem Within.answerPurges (h : Within ps s₀ s) : Within ps s₀ (answerPurges s) := by
  unfold answerPurges
  extract_lets _ _ s1
  have h1 : Within ps s₀ s1 := h.same
  exact h1.foldl fun k _ => k.reply

protected theorem Within.purgeTick (h : Within ps s₀ s) : Within ps s₀ (purgeTick s) := by
  fun_cases purgeTick s
  · exact h
  · exact (h.freePurged.release.ite h.freePurged).answerPurges

protected theorem Within.endPrefetches {a} (h : Within ps s₀ s) : Within ps s₀ (endPrefetches s a) :=
  h.foldl fun k _ => k.foldl fun k2 _ => k2.stamp.completeLater.ite k2

protected theorem Within.applyPurge {a} (h : Within ps s₀ s) : Within ps s₀ (applyPurge s a) := by
  unfold applyPurge
  extract_lets _ _ _ s1 _ s2 _ s3 _ s4 _ _ _ s5 _ _
  have h1 : Within ps s₀ s1 := h.noteSuperseded.modAdapter.same
  have h2 : Within ps s₀ s2 := h1.same
  have h3 : Within ps s₀ s3 := h2.same
  have h4 : Within ps s₀ s4 := h3.same
  have h5 : Within ps s₀ s5 := ((h4.foldl fun k _ => k.endStream).foldl fun k _ => k.zeroT3).same
  exact ((h5.foldl fun k _ => Within.ite k.modCask k).foldl fun k _ => k.purgeInGyle).endPrefetches.refreshHolds.purgeTick

/-! ### Fence -/

protected theorem Within.setFaultLevel {id level} (h : Within ps s₀ s) : Within ps s₀ (setFaultLevel s id level) := h.same

protected theorem Within.endTunFault {t} (h : Within ps s₀ s) : Within ps s₀ (endTunFault s t) := by
  fun_cases endTunFault s t
  · exact h.endFault
  · exact h
  · exact h

protected theorem Within.replayDone {id} (h : Within ps s₀ s) : Within ps s₀ (replayDone s id) := by
  fun_cases replayDone s id
  · exact h
  · exact h.setFaultLevel.foldl fun k _ => by
      split
      · exact k.endTunFault
      · exact k

protected theorem Within.setTunState {t st logical} (h : Within ps s₀ s) : Within ps s₀ (setTunState s t st logical) := by
  fun_cases setTunState s t st logical
  · exact h.setTun
  · exact h.setTun.raise

protected theorem Within.moveRows {t ops} (h : Within ps s₀ s) : Within ps s₀ (moveRows s t ops) := h.foldl fun k _ => k.modGyle

protected theorem Within.giveOps {t head ops} (h : Within ps s₀ s) : Within ps s₀ (giveOps s t head ops) := h.modTun.moveRows

protected theorem Within.rePlace {ops} (h : Within ps s₀ s) : Within ps s₀ (rePlace s ops) :=
  h.foldl fun k _ => by
    split
    · exact k.giveOps
    · exact k.same

protected theorem Within.noteReplay {x} (h : Within ps s₀ s) : Within ps s₀ (noteReplay s x) := h.modGyle

protected theorem Within.freeRanks {ops} (h : Within ps s₀ s) : Within ps s₀ (freeRanks s ops) := h.foldl fun k _ => k.modGyle

protected theorem Within.fenceTun {t source} (h : Within ps s₀ s) : Within ps s₀ (fenceTun s t source) := by
  unfold fenceTun
  extract_lets s1 x id live ops s2 s3 s4 s5 s6
  have h4 : Within ps s₀ s4 := h.startFault.setTun.setTunState.freeRanks.foldl fun k _ => k.noteReplay
  have h5 : Within ps s₀ s5 := h4.foldl fun k _ => k.modGyle
  have h6 : Within ps s₀ s6 := by
    unfold s6
    split
    · exact h5.rePlace
    · refine Within.raise ?_
      split
      · exact h5.setTunState.giveOps
      · exact h5.rePlace
  exact h6.replayDone.settleBlocked

protected theorem Within.placeWaiting (h : Within ps s₀ s) : Within ps s₀ (placeWaiting s) :=
  h.foldl fun k _ => k.ite (k.foldl fun k2 _ => Within.ite k2.placeSegment k2)

protected theorem Within.enterSpare {t} (h : Within ps s₀ s) : Within ps s₀ (enterSpare s t) := by
  fun_cases enterSpare s t
  · exact h.setTunState.same.giveOps.raise.placeWaiting
  · exact h.setTunState

protected theorem Within.execTunFenceCmd {t role} (h : Within ps s₀ s) : Leads ps s₀ (execTunFenceCmd t role s) :=
  (h.busWrite (fun k => k.fenceTun)).next

protected theorem Within.faultCountExpiry {t} (h : Within ps s₀ s) : Within ps s₀ (faultCountExpiry t s) := by
  fun_cases faultCountExpiry t s
  · exact h
  · exact h.stamp.modTun.endTunFault

protected theorem Within.execTunFaultCountExpiry {t} (h : Within ps s₀ s) : Leads ps s₀
    (execTunFaultCountExpiry t s) := h.faultCountExpiry.next

/-! ### Tuns -/

protected theorem Within.takeSlot {t o} (h : Within ps s₀ s) : Within ps s₀ (takeSlot s t o) := h.same

protected theorem Within.slotDelivered {t b} (h : Within ps s₀ s) : Within ps s₀ (slotDelivered s t b) := h.same

protected theorem Within.tileRequest {t} (h : Within ps s₀ s) : Within ps s₀ (tileRequest t s) := by
  fun_cases tileRequest t s
  · exact h.stamp.takeSlot.modTun
  · exact h
  · exact h

protected theorem Within.execTileRequest {t} (h : Within ps s₀ s) : Leads ps s₀ (execTileRequest t s) := h.tileRequest.next

protected theorem Within.tileMatches {t x b} (h : Within ps s₀ s) : Within ps s₀ (tileMatches s t x b) := by
  unfold tileMatches
  extract_lets y late waited epoch s1 s2 s3
  have h3 : Within ps s₀ s3 := h.slotDelivered.setTun.foldl fun k _ => by
    split
    · exact k.modCask
    · exact k
  split
  · exact h3.endFault.ite (h3.setFaultLevel.ite h3)
  · exact h3

protected theorem Within.refetchTensor {epoch p} (h : Within ps s₀ s) : Within ps s₀ (refetchTensor s epoch p) := by
  fun_cases refetchTensor s epoch p
  · exact h
  · exact h.modCask.tensorLost
  · exact h.modCask.same

protected theorem Within.tileMismatch {t x b} (h : Within ps s₀ s) : Within ps s₀ (tileMismatch s t x b) := by
  fun_cases tileMismatch s t x b
  · exact h.modTun.startFault.modTun
  · exact h.modTun.startFault.modTun.foldl fun k _ => k.refetchTensor

protected theorem Within.tileArrived {t x upset b} (h : Within ps s₀ s) : Within ps s₀ (tileArrived s t x upset b) := by
  fun_cases tileArrived s t x upset b
  · exact h.tileMatches
  · exact h.tileMismatch

protected theorem Within.markFarLate {x slot rows} (h : Within ps s₀ s) : Within ps s₀ (markFarLate s x slot rows) := by
  fun_cases markFarLate s x slot rows
  · exact h
  · exact h.foldl fun k _ => k.ite k.sendMsg.modGyle

protected theorem Within.lateOps {t} (h : Within ps s₀ s) : Within ps s₀ (lateOps s t) :=
  h.foldl fun k _ => k.markFarLate.ite (k.foldl fun k2 _ => k2.markLate)

protected theorem Within.takeScratch {n o t} (h : Within ps s₀ s) (ht : takeScratch s n o = some t) : Within ps s₀ t := by
  revert ht
  fun_cases takeScratch s n o <;> rintro ⟨⟩
  · exact h
  · exact h.foldl fun k _ => k.putPartial

protected theorem Within.takeRank {n o t} (h : Within ps s₀ s) (ht : takeRank s n o = some t) : Within ps s₀ t := by
  unfold takeRank at ht
  extract_lets ops back held at ht
  split at ht
  · cases ht
    exact h
  · refine .foldl_bind h.of_some (fun {u v} hu r huv => ?_) ht
    split at huv
    · cases huv
      exact hu
    · obtain ⟨_, huv⟩ := Option.ite_none_right_eq_some.mp huv
      exact hu.modGyle.of_some huv

protected theorem Within.takeRoom {n o t} (h : Within ps s₀ s) (ht : takeRoom s n o = some t) : Within ps s₀ t := by
  revert ht
  fun_cases takeRoom s n o
  case case1 | case4 => exact h.of_some
  case case2 | case5 => rintro ⟨⟩
  case case3 | case6 => exact .foldl_bind h.of_some fun hu _ => hu.reserve
  case case7 | case8 | case9 => exact h.takeScratch
  case case10 =>
    intro ht
    obtain ⟨u, hu, ht⟩ := Option.bind_eq_some_iff.mp ht
    exact (h.takeScratch hu).takeRank ht
  case case11 => exact h.takeRank

protected theorem Within.issueOp {t before after o} (h : Within ps s₀ s) : Within ps s₀
    (issueOp s t before after o) := h.modTun.runFill.feedTun

protected theorem Within.firstIssue {n before after x} (h : Within ps s₀ s) (ht : firstIssue s n before after = some x) :
    Within ps s₀ x.2.2.2 := by
  fun_induction firstIssue s n before after with
  | case1 => cases ht
  | case2 _ _ _ _ _ hroom =>
    cases ht
    exact h.takeRoom hroom
  | case3 _ _ _ _ _ ih => exact ih ht
  | case4 _ _ _ _ ih => exact ih ht

protected theorem Within.releaseHold {x} (h : Within ps s₀ s) : Within ps s₀ (releaseHold s x) := by
  fun_cases releaseHold s x
  · exact (h.same.foldl fun k _ => k.notePlaced).giveOps
  · exact (h.same.foldl fun k _ => k.notePlaced).same

protected theorem Within.holdGroup {t g r o} (h : Within ps s₀ s) : Within ps s₀ (holdGroup s t g r o) := by
  fun_cases holdGroup s t g r o
  · exact h.modTun.same
  · exact h.modTun.same
  · exact h.modTun.releaseHold
  · exact h.modTun.releaseHold.same

protected theorem Within.batchExpiry {hold} (h : Within ps s₀ s) : Within ps s₀ (batchExpiry hold s) := by
  fun_cases batchExpiry hold s
  · exact h.stamp.releaseHold
  · exact h

protected theorem Within.execBatchWindowExpiry {hold} (h : Within ps s₀ s) : Leads ps s₀
    (execBatchWindowExpiry hold s) := h.batchExpiry.next

protected theorem Within.partialIssue {n} (h : Within ps s₀ s) : Within ps s₀ (partialIssue s n) := by
  fun_cases partialIssue s n
  case case2 => exact (h.takeRoom ‹_›).stamp.issueOp.modTun
  all_goals exact h

protected theorem Within.opIssue {n} (h : Within ps s₀ s) : Within ps s₀ (opIssue n s) := by
  unfold opIssue
  split
  · exact h
  · extract_lets s1
    have h1 : Within ps s₀ s1 := h.lateOps.feedTun.settleRanks
    clear_value s1
    split
    · rename_i u hu
      have h2 : Within ps s₀ u := h1.firstIssue hu
      split
      · exact h1.stamp.holdGroup
      · exact h2.stamp.issueOp
    · exact h1.partialIssue

protected theorem Within.execOpIssue {t} (h : Within ps s₀ s) : Leads ps s₀ (execOpIssue t s) := h.opIssue.next

protected theorem Within.combinePartials {x segment slot} (h : Within ps s₀ s) : Within ps s₀ (combinePartials s x segment slot) := by
  fun_cases combinePartials s x segment slot
  · exact h
  · exact h
  · exact h.same.bumpFree

protected theorem Within.endCancelled {x} (h : Within ps s₀ s) : Within ps s₀ (endCancelled s x) := by
  fun_cases endCancelled s x
  · exact h.tearGyle
  · exact h
  · exact h

protected theorem Within.answerFar {x} (h : Within ps s₀ s) : Within ps s₀ (answerFar s x) := by
  fun_cases answerFar s x
  · exact h
  · exact (h.modGyle.foldl fun k _ => k.reply).endCancelled

protected theorem Within.endRow {o row} (h : Within ps s₀ s) : Within ps s₀ (endRow s o row) := by
  fun_cases endRow s o row
  · exact h
  · exact h.modGyle.markLate
  · exact h.modGyle

protected theorem Within.spillDrain {o} (h : Within ps s₀ s) : Within ps s₀ (spillDrain s o) := by
  fun_cases spillDrain s o
  · exact h
  · exact h
  · exact h.foldl fun k _ => k.startXfer

protected theorem Within.passOp {t a o} (h : Within ps s₀ s) : Within ps s₀ (passOp t a s o) := by
  unfold passOp
  split
  · exact h
  · extract_lets s1 s2 s3 s4
    have h1 : Within ps s₀ s1 := h.drainOp.spillDrain
    have h2 : Within ps s₀ s2 := (h1.foldl fun k _ => k.drainGrads).bumpFree.ite h1
    have h4 : Within ps s₀ s4 := (h2.foldl fun k _ => k.endRow).combinePartials
    exact h4.answerFar.ite h4

protected theorem Within.endFill {t fill} (h : Within ps s₀ s) : Within ps s₀
    (endFill s t fill) := h.passFeeders.modTun.foldl fun k _ => k.runFill

protected theorem Within.passFill {t a fill} (h : Within ps s₀ s) : Within ps s₀ (passFill s t a fill) :=
  ((h.endFill.writeRanks.foldl fun k _ => k.passOp).foldl fun k _ => k.replayDone).sendFarRows.purgeTick

protected theorem Within.replayGroup {t o} (h : Within ps s₀ s) : Within ps s₀ (replayGroup s t o) := by
  unfold replayGroup
  extract_lets _ _ _ _ _ _ _ s1
  have h1 : Within ps s₀ s1 := h.startFault.setTun.freeRanks.same
  exact h1.noteReplay.giveOps

protected theorem Within.failFill {t fill} (h : Within ps s₀ s) : Within ps s₀ (failFill s t fill) := by
  fun_cases failFill s t fill
  · exact h.modTun.fenceTun
  · exact h.modTun.replayGroup
  · exact h.modTun.endFill.startFault.replayDone

protected theorem Within.testWhenIdle {t} (h : Within ps s₀ s) : Within ps s₀ (testWhenIdle s t) := by
  fun_cases testWhenIdle s t
  · exact h.modTun.setTunState
  · exact h

protected theorem Within.fillSwap {t upsets} (h : Within ps s₀ s) : Within ps s₀ (fillSwap t upsets s) := by
  fun_cases fillSwap t upsets s
  · exact h
  · exact (h.stamp.failFill.ite h.stamp.passFill).testWhenIdle

protected theorem Within.execFillSwap {t upsets} (h : Within ps s₀ s) : Leads ps s₀ (execFillSwap t upsets s) := h.fillSwap.next

protected theorem Within.cutRow {x key} (h : Within ps s₀ s) : Within ps s₀ (cutRow x s key) := by
  fun_cases cutRow x s key
  · exact h
  · exact h.secondChoice
  · exact h

protected theorem Within.releaseGyleHolds {x} (h : Within ps s₀ s) : Within ps s₀ (releaseGyleHolds s x) := h.foldl fun k _ => k.releaseHold

protected theorem Within.passCutoff {g} (h : Within ps s₀ s) : Within ps s₀
    (passCutoff s g) := h.modGyle.releaseGyleHolds.foldl fun k _ => k.cutRow

protected theorem Within.cutoffExpiry {c num} (h : Within ps s₀ s) : Within ps s₀ (cutoffExpiry c num s) := by
  fun_cases cutoffExpiry c num s
  · exact h
  · exact h
  · exact h.stamp.passCutoff

protected theorem Within.execCutoffExpiry {c gyle} (h : Within ps s₀ s) : Leads ps s₀ (execCutoffExpiry c gyle s) := h.cutoffExpiry.next

protected theorem Within.graceExpiry {c num slot row} (h : Within ps s₀ s) : Within ps s₀ (graceExpiry c num slot row s) := by
  fun_cases graceExpiry c num slot row s
  · exact h
  · exact h.stamp.substitute
  · exact h

protected theorem Within.execLateGraceExpiry {c gyle slot row} (h : Within ps s₀ s) : Leads ps s₀ (execLateGraceExpiry c gyle slot row s) :=
  h.graceExpiry.next

/-! ### Tiers -/

protected theorem Within.modStream {id f} (h : Within ps s₀ s) : Within ps s₀ (modStream s id f) := h.same

protected theorem Within.readT3 {st} (h : Within ps s₀ s) : Within ps s₀ (readT3 s st) := by
  fun_cases readT3 s st
  case case1 s1 =>
    have h1 : Within ps s₀ s1 := h.sendReq
    exact (h1.same).modStream
  all_goals exact h

protected theorem Within.readFrom {st tier} (h : Within ps s₀ s) : Within ps s₀ (readFrom s st tier) := by
  fun_cases readFrom s st tier
  · exact h.modStream.sendReq
  · exact h.modStream.readT3
  · exact h.modStream

protected theorem Within.endStreamDone {id} (h : Within ps s₀ s) : Within ps s₀ (endStreamDone s id) := by
  fun_cases endStreamDone s id
  · exact h
  · exact h
  · exact h.keepStreams.finishPrefetches

protected theorem Within.releaseSource {st idx} (h : Within ps s₀ s) : Within ps s₀ (releaseSource s st idx) := by
  fun_cases releaseSource s st idx
  · exact h.cutWarm
  · exact h.leaveT4Tensor
  · exact h

protected theorem Within.trimStream {id} (h : Within ps s₀ s) : Within ps s₀ (trimStream s id) := h.modStream.endStreamDone

protected theorem Within.nextTensor {id} (h : Within ps s₀ s) : Within ps s₀ (nextTensor s id) := by
  fun_cases nextTensor s id
  · exact h.modStream.trimStream
  · exact h.modStream.trimStream
  · exact h.modStream.trimStream
  · exact h.modStream.trimStream
  · exact h.modStream.trimStream.readFrom
  · exact h.modStream.trimStream.modStream

protected theorem Within.warmTensor {st idx} (h : Within ps s₀ s) : Within ps s₀ (warmTensor s st idx) := by
  fun_cases warmTensor s st idx
  · exact h.placeWarm.releaseSource
  · exact h.placeWarm

protected theorem Within.makePresent {id idx} (h : Within ps s₀ s) (hcellar : ps .cellarBytes = true := by assumption) :
    Within ps s₀ (makePresent s id idx) := by
  unfold makePresent
  split
  · exact h
  · extract_lets s1 s2 all one s3 v s4 used _ s5
    have h1 : Within ps s₀ s1 := h.same (hchip := countFetch_chip ..)
    have h2 : Within ps s₀ s2 := h1.modStream
    have h4 : Within ps s₀ s4 := h2.clearT1.modCask
    have h5 : Within ps s₀ s5 := by
      unfold s5
      split
      · exact h2.warmTensor
      · exact h4.releaseSource.ite h4.same
    exact h5.refreshHolds.nextTensor

protected theorem Within.loseTensor {st idx} (h : Within ps s₀ s) : Within ps s₀ (loseTensor s st idx) := h.modStream.tensorLost.nextTensor

protected theorem Within.failSource {st idx} (h : Within ps s₀ s) : Within ps s₀ (failSource s st idx) := by
  fun_cases failSource s st idx
  · exact h.modStream.loseTensor
  · exact h.modStream.modStream.readFrom
  · exact h.modStream.readFrom
  · exact h.modStream.loseTensor

protected theorem Within.streamStart {id} (h : Within ps s₀ s) : Within ps s₀ (streamStart id s) := by
  fun_cases streamStart id s
  · exact h
  · exact h
  · exact h.stamp.trimStream
  · exact h
  · exact h.stamp.readFrom
  · exact h.stamp.loseTensor
  · exact h

protected theorem Within.execFetchStreamStart {stream} (h : Within ps s₀ s) : Leads ps s₀
    (execFetchStreamStart stream s) := h.streamStart.next

protected theorem Within.tensorArrives {id upset} (h : Within ps s₀ s) (hcellar : ps .cellarBytes = true := by assumption) :
    Within ps s₀ (tensorArrives id upset s) := by
  fun_cases tensorArrives id upset s
  · exact h
  · exact h
  · exact h
  · exact h.stamp.modStream.makePresent
  · exact h.stamp.same.modStream.failSource
  · exact h.stamp.same.modStream
  · exact h.stamp.failSource

protected theorem Within.execTensorPresent {stream upset} (h : Within ps s₀ s) (hcellar : ps .cellarBytes = true := by assumption) :
    Leads ps s₀ (execTensorPresent stream upset s) :=
  h.tensorArrives.next

protected theorem Within.leaveVersion {a v} (h : Within ps s₀ s) : Within ps s₀ (leaveVersion s a v) := by
  fun_cases leaveVersion s a v
  · exact h
  · exact h.backToT4
  · exact h.cutWarm.modVer.markDirty.markDirty.same

protected theorem Within.leaveSingleHome (h : Within ps s₀ s) : Within ps s₀ (leaveSingleHome s) := by
  fun_cases leaveSingleHome s
  · exact h
  · exact ((h.foldl fun k _ => k.leaveVersion).foldl fun k _ => Within.ite k k.modCask).same

protected theorem Within.moveDown (h : Within ps s₀ s) : Within ps s₀ (moveDown s) := by
  fun_cases moveDown s
  · exact h.stamp.backToT4.leaveSingleHome
  · exact h

protected theorem Within.keepClean {d idx} (h : Within ps s₀ s) : Within ps s₀ (keepClean s d idx) := by
  fun_cases keepClean s d idx
  · exact h.placeWarm
  · exact h

protected theorem Within.settleDirty (h : Within ps s₀ s) : Within ps s₀ (settleDirty s) := by
  fun_cases settleDirty s
  · exact h.same.foldl fun k _ => k.syncDirty.keepClean
  · exact (h.same.foldl fun k _ => k.syncDirty.keepClean).pruneVersions.leaveSingleHome

protected theorem Within.dirtyInT2 {a v} (h : Within ps s₀ s) : Within ps s₀ (dirtyInT2 s a v) := by
  unfold dirtyInT2
  extract_lets _ s1
  have h1 : Within ps s₀ s1 := h.same
  exact h1.modVer.settleDirty.finishPrefetches

protected theorem Within.lazyWriteback {toKiln} (h : Within ps s₀ s) : Within ps s₀ (lazyWriteback toKiln s) := by
  fun_cases lazyWriteback toKiln s
  · exact h.stamp.leaveSingleHome
  · exact h
  · exact h.moveDown
  · exact h.stamp.modCommit
  · exact h
  · exact h.stamp.same
  · exact h.stamp.dirtyInT2

protected theorem Within.giveBytes {i n} (h : Within ps s₀ s) : Within ps s₀ (giveBytes s i n) := h.modWaiting

protected theorem Within.evictionDone {i} (h : Within ps s₀ s) : Within ps s₀ (evictionDone i s) := by
  fun_cases evictionDone i s
  · exact h
  · exact h.stamp.dirtyInT2.demote.freeCask.giveBytes.releaseFrom

protected theorem Within.forgetGrant {lender grant} (h : Within ps s₀ s) : Within ps s₀ (forgetGrant s lender grant) := by
  unfold forgetGrant
  extract_lets gone _ s1
  have h1 : Within ps s₀ s1 := h.same
  exact h1.foldl fun k _ => by
    split
    · exact k.failSource
    · exact k

protected theorem Within.testHoldSet {v} (h : Within ps s₀ s) : Within ps s₀ (testHoldSet v s) := by
  fun_cases testHoldSet v s
  · exact h.same.foldl fun k _ => k.forgetGrant
  · exact h.same.leaveSingleHome
  · exact h

protected theorem Within.execTestHoldWrite {value role} (h : Within ps s₀ s) : Leads ps s₀ (execTestHoldWrite value role s) :=
  (h.busWrite (fun k => k.testHoldSet)).next

protected theorem Within.lendNow {c fr d} (h : Within ps s₀ s) : Within ps s₀ (lendNow c fr d s) := by
  unfold lendNow
  extract_lets _ s1 _
  have h1 : Within ps s₀ s1 := h.same
  exact h1.sendReq.acceptLater

protected theorem Within.lendGrant {c} (h : Within ps s₀ s) : Within ps s₀
    (lendGrant c s) := h.onFront fun _ _ _ => h.decideCmd fun k2 => k2.lendNow

protected theorem Within.execLendGrant {c} (h : Within ps s₀ s) : Leads ps s₀ (execLendGrant c s) := h.lendGrant.next

protected theorem Within.recallNow {c fr d} (h : Within ps s₀ s) : Within ps s₀ (recallNow c fr d s) := by
  unfold recallNow
  extract_lets _ s1 _
  have h1 : Within ps s₀ s1 := h.same
  exact h1.sendReq.acceptLater

protected theorem Within.lendRecall {c} (h : Within ps s₀ s) : Within ps s₀ (lendRecall c s) :=
  h.onFront fun _ _ _ => h.decideCmd fun k2 => k2.recallNow

protected theorem Within.execLendRecall {c} (h : Within ps s₀ s) : Leads ps s₀ (execLendRecall c s) := h.lendRecall.next

protected theorem Within.endRecall {l} (h : Within ps s₀ s) : Within ps s₀ (endRecall s l) := by
  fun_cases endRecall s l
  · exact h.same.completeLater
  · exact h.same
  · exact h.same

protected theorem Within.recallExpiry {peer grant} (h : Within ps s₀ s) : Within ps s₀ (recallExpiry peer grant s) := by
  fun_cases recallExpiry peer grant s
  · exact h.stamp.endRecall
  · exact h
  · exact h

protected theorem Within.execRecallTimeout {borrower grant} (h : Within ps s₀ s) : Leads ps s₀ (execRecallTimeout borrower grant s) :=
  h.recallExpiry.next

/-! ### Refetch -/

protected theorem Within.streamAgain {i idx} (h : Within ps s₀ s) : Within ps s₀ (streamAgain s i idx) := h.same

protected theorem Within.fetchAgain {i idx} (h : Within ps s₀ s) : Within ps s₀ (fetchAgain s i idx) := by
  fun_cases fetchAgain s i idx
  · exact h
  · exact h.modCask.modCask.tensorLost
  · exact h.modCask.streamAgain

protected theorem Within.replaySlice {x} (h : Within ps s₀ s) : Within ps s₀ (replaySlice s x) := by
  fun_cases replaySlice s x
  · exact h
  · exact h.rerunNow
  · exact h.freeRanks.same.noteReplay.setTun

protected theorem Within.replaySlices {qs} (h : Within ps s₀ s) : Within ps s₀ (replaySlices s qs) := h.foldl fun k _ => k.replaySlice

protected theorem Within.losePlace {x} (h : Within ps s₀ s) : Within ps s₀ (losePlace s x) := by
  fun_cases losePlace s x
  · exact h.fetchAgain
  · exact h.replaySlices
  · exact h
  · exact h

protected theorem Within.enterRegion {items} (h : Within ps s₀ s) : Within ps s₀ (enterRegion s items) := h.foldl fun k _ => k.ite k.modCask

protected theorem Within.quietRegion {items} (h : Within ps s₀ s) : Within ps s₀ (quietRegion s items) := by
  unfold quietRegion
  extract_lets hit cut s1
  have h1 : Within ps s₀ s1 := h.same
  exact h1.foldl fun k _ => k.modCask.ite k

protected theorem Within.copyRegion {items lost} (h : Within ps s₀ s) : Within ps s₀ (copyRegion s items lost) :=
  h.foldl fun k _ => k.ite (k.modCask.tensorLost.ite k.modCask)

protected theorem Within.refillRegion {items} (h : Within ps s₀ s) : Within ps s₀ (refillRegion s items) :=
  h.foldl fun k _ => k.ite k.streamAgain

protected theorem Within.leaveRegion (h : Within ps s₀ s) : Within ps s₀ (leaveRegion s) :=
  h.foldl fun k _ => Within.ite k (Within.ite k (k.backToT4.ite k.leaveVersion)).modCask

/-! ### Directory -/

protected theorem Within.dirChange {e t} (h : Within ps s₀ s) (ht : dirChange s e = some t) : Within ps s₀ t := by
  revert ht
  fun_cases dirChange s e <;> rintro ⟨⟩
  · exact h
  · exact h.same
  · exact h.same
  · exact h
  · exact h.same

protected theorem Within.countDirRefusal (h : Within ps s₀ s) : Within ps s₀ (countDirRefusal s) := h.same

protected theorem Within.applyEntries {es n} (h : Within ps s₀ s) : Within ps s₀ (applyEntries s es n).1 := by
  fun_induction applyEntries s es n with
  | case1 => exact h
  | case2 _ _ _ _ _ hchange ih => exact ih (h.stamp.dirChange hchange)
  | case3 => exact h.stamp.countDirRefusal

protected theorem Within.endDirPublish {p} (h : Within ps s₀ s) : Within ps s₀ (endDirPublish s p) := by
  fun_cases endDirPublish s p
  case case1 s1 _ _ _ _ =>
    have h1 : Within ps s₀ s1 := by
      unfold s1
      split
      · exact h.stamp.reply
      · exact h.stamp
    exact h1.completeLater
  case case2 t _ _ _ =>
    unfold t
    split
    · exact h.stamp.reply
    · exact h.stamp
  case case3 t _ =>
    unfold t
    split
    · exact h.stamp.reply
    · exact h.stamp

protected theorem Within.nextDirChunk {p} (h : Within ps s₀ s) : Within ps s₀ (nextDirChunk s p) := by
  fun_cases nextDirChunk s p
  · exact h.endDirPublish
  · exact h.endDirPublish
  · exact h.applyEntries.endDirPublish
  · exact (h.applyEntries.stamp.foldl fun k _ => k.sendReq).same
  · exact h.stamp.sendReq.same

protected theorem Within.settleDirPending (h : Within ps s₀ s) : Within ps s₀ (settleDirPending s) := h.same.foldl fun k _ => k.nextDirChunk

protected theorem Within.dirPeerDone {corr peer} (h : Within ps s₀ s) : Within ps s₀ (dirPeerDone s corr peer) := h.same.settleDirPending

protected theorem Within.dirOwnHeld {corr} (h : Within ps s₀ s) : Within ps s₀ (dirOwnHeld s corr) := h.same.settleDirPending

protected theorem Within.acceptDirectory {c fr d img} (h : Within ps s₀ s) : Within ps s₀ (acceptDirectory c fr d img s) :=
  h.acceptLater.nextDirChunk

protected theorem Within.publishDirectory {c} (h : Within ps s₀ s) : Within ps s₀ (publishDirectory c s) :=
  h.onFront fun _ _ _ => Within.ite h (h.decideCmd (fun k2 => k2.acceptDirectory))

protected theorem Within.execPublishDirectory {c} (h : Within ps s₀ s) : Leads ps s₀ (execPublishDirectory c s) := h.publishDirectory.next

/-! ### Publishing -/

protected theorem Within.takeImage {d img ctx sqIndex fwd} (h : Within ps s₀ s) : Within ps s₀ (takeImage s d img ctx sqIndex fwd) := h.same

protected theorem Within.forwardCmd {home raw img c sqIndex opcode} (h : Within ps s₀ s) :
    Within ps s₀ (forwardCmd s home raw img c sqIndex opcode) :=
  h.sendReq.same

protected theorem Within.redirect {home ask} (h : Within ps s₀ s) : Within ps s₀ (redirect s home ask) := h.sendReq.same

protected theorem Within.acceptPublish {c fr d img} (h : Within ps s₀ s) : Within ps s₀ (acceptPublish c fr d img s) := by
  unfold acceptPublish
  extract_lets _ _ s1
  have h1 : Within ps s₀ s1 := by
    unfold s1
    split
    · exact h.takeImage
    · exact h.forwardCmd
  exact h1.acceptLater

protected theorem Within.publishAdapter {c} (h : Within ps s₀ s) : Within ps s₀ (publishAdapter c s) :=
  h.onFront fun _ _ _ => Within.ite h (h.lookFirst (fun k2 => (k2.decideCmd (fun k3 => k3.acceptPublish))))

protected theorem Within.execPublishAdapter {c} (h : Within ps s₀ s) : Leads ps s₀ (execPublishAdapter c s) := h.publishAdapter.next

protected theorem Within.failPublish {p b} (h : Within ps s₀ s) : Within ps s₀ (failPublish s p b) := by
  fun_cases failPublish s p b
  case case1 s1 _ _ _ _ =>
    have h1 : Within ps s₀ s1 := by
      unfold s1
      split
      · exact h.reply
      · exact h
    exact h1.completeLater
  case case2 t _ _ _ =>
    unfold t
    split
    · exact h.reply
    · exact h
  case case3 t _ =>
    unfold t
    split
    · exact h.reply
    · exact h

protected theorem Within.findIndex {p} (h : Within ps s₀ s) : Within ps s₀ (findIndex s p).1 := by
  fun_cases findIndex s p
  · exact h
  · exact h.makeIndices

protected theorem Within.publishNow {p} (h : Within ps s₀ s) : Within ps s₀ (publishNow s p) := h.publishVersion.same.endSupersedes

protected theorem Within.askNeeds {p ids} (h : Within ps s₀ s) : Within ps s₀ (askNeeds s p ids) := h.askAll.same

protected theorem Within.publication {a} (h : Within ps s₀ s) : Within ps s₀ (publication a s) := by
  unfold publication
  split
  · exact h
  · rename_i p _
    extract_lets f _ _ s1 _ s2 s3
    have hf : Within ps s₀ f.1 := by
      unfold f
      split
      · exact h.findIndex
      · exact h
    have h1 : Within ps s₀ s1 := hf.stamp
    have h2 : Within ps s₀ s2 := h1.same
    have h3 : Within ps s₀ s3 := by
      unfold s3
      split
      · exact h2.redirect
      · exact h2
    split
    · exact h
    · split
      · exact h.askNeeds
      · split
        · exact hf.same
        · split
          · split
            · exact h3.forwardCmd
            · exact h3
          · split
            · exact h2.failPublish
            · exact h2.publishNow

protected theorem Within.execPublishPublication {adapter} (h : Within ps s₀ s) : Leads ps s₀ (execPublishPublication adapter s) :=
  h.publication.next

protected theorem Within.cancelRack {status tell} (h : Within ps s₀ s) : Within ps s₀ (cancelRack s status tell) := by
  fun_cases cancelRack s status tell
  · exact h
  · exact h.measureFreeze.dropRack.completeLater
  · exact h.measureFreeze.dropRack
  · exact h.measureFreeze.dropRack

protected theorem Within.orderPurge {a ctx sqIndex fwd} (h : Within ps s₀ s) : Within ps s₀ (orderPurge s a ctx sqIndex fwd) := by
  unfold orderPurge
  extract_lets _ _ _ _ _ _ s1 _ _ s2
  have h1 : Within ps s₀ s1 := by
    unfold s1
    split
    · exact h.applyPurge.cancelRack
    · exact h.applyPurge
  have h2 : Within ps s₀ s2 := h1.same
  exact h2.foldl fun k _ => k.stamp.sendReq

protected theorem Within.acceptPurge {c fr d} (h : Within ps s₀ s) : Within ps s₀ (acceptPurge c fr d s) := by
  unfold acceptPurge
  extract_lets _ s1
  have h1 : Within ps s₀ s1 := by
    unfold s1
    split
    · exact h.orderPurge
    · exact h.forwardCmd
  exact h1.acceptLater

protected theorem Within.purge {c} (h : Within ps s₀ s) : Within ps s₀ (purge c s) :=
  h.onFront fun _ _ _ => h.lookFirst fun k2 => k2.decideCmd fun k3 => k3.acceptPurge

protected theorem Within.execPurge {c} (h : Within ps s₀ s) : Leads ps s₀ (execPurge c s) := h.purge.next

protected theorem Within.endPurge {p} (h : Within ps s₀ s) : Within ps s₀ (endPurge s p) := by
  fun_cases endPurge s p
  case case1 s1 _ s2 _ _ _ _ =>
    have h1 : Within ps s₀ s1 := h.same
    have h2 : Within ps s₀ s2 := by
      unfold s2
      split
      · exact h1.reply
      · exact h1
    exact h2.completeLater
  case case2 s1 _ t _ _ _ =>
    have h1 : Within ps s₀ s1 := h.same
    unfold t
    split
    · exact h1.reply
    · exact h1
  case case3 s1 _ t _ =>
    have h1 : Within ps s₀ s1 := h.same
    unfold t
    split
    · exact h1.reply
    · exact h1

protected theorem Within.purgeDone {a} (h : Within ps s₀ s) : Within ps s₀ (purgeDone a s) := by
  fun_cases purgeDone a s
  · exact h
  · exact h.stamp.endPurge
  · exact h

protected theorem Within.execPurgeComplete {adapter} (h : Within ps s₀ s) : Leads ps s₀ (execPurgeComplete adapter s) := h.purgeDone.next

protected theorem Within.rewrapTenant {t} (h : Within ps s₀ s) : Within ps s₀ (rewrapTenant s t) := h.journalPut

protected theorem Within.rotationStart {t} (h : Within ps s₀ s) : Within ps s₀ (rotationStart t s) := by
  fun_cases rotationStart t s
  · exact h
  · exact h.stamp.same.rewrapTenant.startCheckpoint

protected theorem Within.execRotationStart {tenant} (h : Within ps s₀ s) : Leads ps s₀ (execRotationStart tenant s) := h.rotationStart.next

protected theorem Within.rotationDone {t} (h : Within ps s₀ s) (hwrap : ps .wrapGens = true := by assumption) :
    Within ps s₀ (rotationDone t s) := by
  fun_cases rotationDone t s
  · exact h
  · exact h
  case case3 s1 s2 _ =>
    have h2 : Within ps s₀ s2 := h.stamp.trans { wrapGens := listed hwrap }
    exact h2.same.raise
  case case4 s1 s2 _ =>
    have h2 : Within ps s₀ s2 := h.stamp.trans { wrapGens := listed hwrap }
    exact h2

protected theorem Within.execRotationComplete {tenant} (h : Within ps s₀ s) (hwrap : ps .wrapGens = true := by assumption) :
    Leads ps s₀ (execRotationComplete tenant s) := h.rotationDone.next

/-! ### Epochs -/

protected theorem Within.dropStaging (h : Within ps s₀ s) : Within ps s₀ (dropStaging s) := by
  fun_cases dropStaging s
  · exact h
  · exact h.same.stamp.completeLater
  · exact h.same

/-- What waits for the kiln is no part of what a state keeps. -/
protected theorem Within.kilnPending {p catStaged dirStaged freeCtr} (h : Within ps s₀ s) :
    Within ps s₀ { s with catStaged, dirStaged, freeCtr, kiln := { s.kiln with pending := p } } :=
  h.same

protected theorem Within.acceptStage {c fr d img} (h : Within ps s₀ s) : Within ps s₀ (acceptStage c fr d img s) := by
  unfold acceptStage
  extract_lets rs seq own dir s1 _ s2 s3 s4
  have h0 : Within ps s₀ { s with catStaged := none } := h.same
  have h1 : Within ps s₀ s1 := h0.makeT2
  clear_value s1
  have h2 : Within ps s₀ s2 := h1.kilnPending
  have h3 : Within ps s₀ s3 := h2.acceptLater
  clear_value s3
  have h4 : Within ps s₀ s4 := h3.dropStaging
  exact h4.same

protected theorem Within.epochStage {c} (h : Within ps s₀ s) : Within ps s₀ (epochStage c s) :=
  h.onFront fun _ _ _ => h.decideCmd fun k2 => k2.acceptStage

protected theorem Within.execEpochStage {c} (h : Within ps s₀ s) : Leads ps s₀ (execEpochStage c s) := h.epochStage.next

protected theorem Within.epochStaged (h : Within ps s₀ s) : Within ps s₀ (epochStaged s) := by
  fun_cases epochStaged s
  · exact h
  · exact h
  · exact h.stamp.same.completeLater
  · exact h.stamp.same

protected theorem Within.execEpochStaged (h : Within ps s₀ s) : Leads ps s₀ (execEpochStaged s) := h.epochStaged.next

protected theorem Within.settlePins (h : Within ps s₀ s) : Within ps s₀ (settlePins s) := by
  unfold settlePins
  extract_lets _ _ s1
  have h1 : Within ps s₀ s1 := h.same
  exact h1.foldl fun k _ => k.logNow

protected theorem Within.seekKept (h : Within ps s₀ s) : Within ps s₀ (seekKept s) := h.foldl fun k _ => k.ite k.askHome

protected theorem Within.pinAdmits (h : Within ps s₀ s) : Within ps s₀ (pinAdmits s) :=
  h.foldl fun k _ => by
    split
    · exact k.ite k.needCasks
    · exact k

protected theorem Within.carryCask {old a v0} (h : Within ps s₀ s) : Within ps s₀ (carryCask s old a v0) := by
  fun_cases carryCask s old a v0
  · exact h
  · exact h.modCask
  · exact h
  · exact h.modCask.modCask
  · exact h

protected theorem Within.carryData {old carried} (h : Within ps s₀ s) : Within ps s₀ (carryData s old carried) := by
  unfold carryData
  extract_lets _ _ _ _ _ _ s1
  have h1 : Within ps s₀ s1 := h.same
  exact h1.foldl fun k _ => k.carryCask.syncDirty

protected theorem Within.switchEpoch {new} (h : Within ps s₀ s) : Within ps s₀ (switchEpoch s new) := by
  unfold switchEpoch
  extract_lets _ _ _ _ _ _ _ _ s1 _ s2 _ _ s3
  have h1 : Within ps s₀ s1 := h.cancelRack.same
  have h2 : Within ps s₀ s2 := h1.same
  have h3 : Within ps s₀ s3 := h2.carryData.same
  exact h3.settlePins.pinAdmits.refreshHolds

protected theorem Within.afterSwitch {carried} (h : Within ps s₀ s) : Within ps s₀ (afterSwitch carried s) := by
  refine (h.foldl fun k a => k.getD fun ht => ?_).seekKept.releaseEpoch
  obtain ⟨_, _, rfl⟩ := Option.map_eq_some_iff.mp ht
  exact k.enterShared

protected theorem Within.epochSwitch {c} (h : Within ps s₀ s) : Within ps s₀ (epochSwitch c s) :=
  h.onFront fun _ _ _ => h.decideCmd fun k2 => by
    split
    · exact k2.postRecord.switchEpoch.clearFront.afterCmd.afterSwitch
    · exact k2

protected theorem Within.execEpochSwitch {c} (h : Within ps s₀ s) : Leads ps s₀ (execEpochSwitch c s) := h.epochSwitch.next

/-! ### Tenants -/

protected theorem Within.tenantStoreEffect {t bs} (h : Within ps s₀ s) (htenants : ps .tenantRecs = true := by assumption) :
    Within ps s₀ (tenantStoreEffect t bs s) := by
  have hstored {tenantRecs} : Within ps s₀ { s with tenantRecs } := h.trans { tenantRecs := listed htenants }
  fun_cases tenantStoreEffect t bs s
  · exact hstored.refreshHolds
  · exact hstored.refreshHolds.needCasks.refreshHolds
  · exact hstored.refreshHolds

protected theorem Within.tenantStore {t v role bs} (h : Within ps s₀ s) (htenants : ps .tenantRecs = true := by assumption) :
    Within ps s₀ (tenantStore t v role bs s) := by
  fun_cases tenantStore t v role bs s
  · exact h.askAll.same
  · exact h.tenantStoreEffect

protected theorem Within.decideTenant {w} (h : Within ps s₀ s) (htenants : ps .tenantRecs = true := by assumption) :
    Within ps s₀ (decideTenant s w) := by
  fun_cases decideTenant s w
  · exact h.stamp.refuseWrite.same
  · exact h.stamp.tenantStoreEffect

protected theorem Within.settleTenants (h : Within ps s₀ s) (htenants : ps .tenantRecs = true := by assumption) :
    Within ps s₀ (settleTenants s) :=
  h.same.foldl fun k _ => k.decideTenant.ite k.askAll.same

/-! ### Repairs -/

protected theorem Within.appendMap {kind object data} (h : Within ps s₀ s) (hrepair : ps .repair = true := by assumption) :
    Within ps s₀ (appendMap s kind object data) := by
  fun_cases appendMap s kind object data
  · exact h.repair_put.raise
  · exact h.repair_put

/-! ### Kiln -/

protected theorem Within.noteInT4 {a v} (h : Within ps s₀ s) : Within ps s₀ (noteInT4 s a v) := h.modVer

protected theorem Within.markHeld {x} (h : Within ps s₀ s) : Within ps s₀ (markHeld s x) := by
  fun_cases markHeld s x
  · exact h.same
  · exact h.noteInT4
  · exact h.noteInT4
  · exact h.same
  · exact h.same
  · exact h

protected theorem Within.recordHeld {x} (h : Within ps s₀ s) : Within ps s₀ (recordHeld s x) := by
  fun_cases recordHeld s x
  · exact h.markHeld.settleDirty
  · exact h.markHeld.dirOwnHeld
  · exact h.markHeld.reply
  · exact h.markHeld

protected theorem Within.putRecord {x} (h : Within ps s₀ s) : Within ps s₀ (putRecord s x) := by
  fun_cases putRecord s x <;> exact h.journalPut

protected theorem Within.removeFreed (h : Within ps s₀ s) : Within ps s₀ (removeFreed s) := h.journalPut

protected theorem Within.writeNext {x w} (h : Within ps s₀ s) : Within ps s₀ (writeNext s x w) := by
  fun_cases writeNext s x w
  · exact h.writeTensor.same.recordHeld
  · exact h.writeTensor.settleDirty
  · exact h.writeTensor

protected theorem Within.journalHeld (h : Within ps s₀ s) : Within ps s₀ (journalHeld s) := by
  fun_cases journalHeld s
  · exact h
  · exact h.finishErases.stamp.removeFreed.reclaim
  · exact h.finishErases.reclaim
  · exact h.finishErases
  · exact h.finishErases.stamp.writeNext
  · exact (h.finishErases.stamp.same.ite h.finishErases.stamp.same.putRecord).recordHeld

protected theorem Within.execKilnJournalHeld (h : Within ps s₀ s) : Leads ps s₀ (execKilnJournalHeld s) := h.journalHeld.next

protected theorem Within.checkpointNow (h : Within ps s₀ s) : Within ps s₀ (checkpointNow s) := by
  fun_cases checkpointNow s
  · exact h.startCheckpoint
  · exact h

protected theorem Within.execKilnCheckpointCmd {role} (h : Within ps s₀ s) (hregs : ps .regs = true := by assumption) :
    Leads ps s₀ (execKilnCheckpointCmd role s) :=
  (h.busWrite (fun k => k.storeReg.checkpointNow)).next

protected theorem Within.programCheckpoint {c} (h : Within ps s₀ s) : Within ps s₀ (programCheckpoint s c) := by
  unfold programCheckpoint
  extract_lets a r
  refine h.foldl_fst fun k b => ?_
  split
  · exact k
  · exact k.modBlock.modBlock.foldl fun k _ => k.issueProgram

protected theorem Within.checkpointDone (h : Within ps s₀ s) : Within ps s₀ (checkpointDone s) := by
  fun_cases checkpointDone s
  · exact h
  · exact h
  · exact h.finishErases.stamp.programCheckpoint.same.reclaimJournal.startCheckpoint
  · exact h.finishErases.stamp.programCheckpoint.same.reclaimJournal

protected theorem Within.execCheckpointValid (h : Within ps s₀ s) : Leads ps s₀ (execCheckpointValid s) := h.checkpointDone.next

protected theorem Within.shutBlock {b} (h : Within ps s₀ s) : Within ps s₀ (shutBlock s b) := h.same

protected theorem Within.relocateBlock {b} (h : Within ps s₀ s) : Within ps s₀ (relocateBlock s b) := by
  fun_cases relocateBlock s b
  · exact h.finishErases.shutBlock.moveBlock.reclaim
  · exact h

protected theorem Within.retireDevice {d} (h : Within ps s₀ s) (hrepair : ps .repair = true := by assumption) :
    Within ps s₀ (retireDevice s d) := by
  fun_cases retireDevice s d
  · exact h
  · exact (h.modChan.appendMap.foldl fun k _ => k.shutBlock).same.setKilnPhase

protected theorem Within.execKilnRetireCmd {device role} (h : Within ps s₀ s) (hregs : ps .regs = true := by assumption)
    (hrepair : ps .repair = true := by assumption) :
    Leads ps s₀ (execKilnRetireCmd device role s) :=
  (h.busWrite (fun k => k.storeReg.retireDevice)).next

protected theorem Within.deviceTimeout {d} (h : Within ps s₀ s) (hrepair : ps .repair = true := by assumption) :
    Within ps s₀ (deviceTimeout d s) := by
  fun_cases deviceTimeout d s
  · exact h
  · exact h.stamp.modChan.retireDevice
  · exact h.stamp.modChan

protected theorem Within.execKilnDeviceTimeout {device} (h : Within ps s₀ s) (hrepair : ps .repair = true := by assumption) :
    Leads ps s₀ (execKilnDeviceTimeout device s) := h.deviceTimeout.next

protected theorem Within.retireBlock {d b} (h : Within ps s₀ s) : Within ps s₀ (retireBlock s d b) := by
  unfold retireBlock
  extract_lets _ _ _ s1
  have h1 : Within ps s₀ s1 := by
    unfold s1
    split
    · exact h.modBlock.shutBlock.modBlock.ite h.modBlock.shutBlock
    · exact h.modBlock.shutBlock
  exact h1.relocateBlock

protected theorem Within.peFailure {d b} (h : Within ps s₀ s) (hrepair : ps .repair = true := by assumption) :
    Within ps s₀ (peFailure d b s) := by
  fun_cases peFailure d b s
  · exact h
  · exact h.stamp.modChan
  · exact h.stamp.modChan.modChan.retireBlock.retireDevice
  · exact h.stamp.modChan.modChan.retireBlock

protected theorem Within.execProgramEraseFailure {block} (h : Within ps s₀ s) (hrepair : ps .repair = true := by assumption) :
    Leads ps s₀ (execProgramEraseFailure block s) := h.peFailure.next

protected theorem Within.dropUnreadable (h : Within ps s₀ s) : Within ps s₀ (dropUnreadable s) := by
  fun_cases dropUnreadable s
  · exact h
  · exact h.stamp.removeTensors.foldl fun k _ => k.noteInT4.ite k

protected theorem Within.rebuildDone (h : Within ps s₀ s) : Within ps s₀ (rebuildDone s) := by
  unfold rebuildDone
  split
  · exact h
  · extract_lets hurt s1 s2 fresh s3
    have h1 : Within ps s₀ s1 := h.finishErases.stamp.dropUnreadable
    have h2 : Within ps s₀ s2 := h1.foldl fun k _ => k.relocateBlock
    have h3 : Within ps s₀ s3 := h2.foldl fun k _ => k.ite k.modBlock
    split
    · exact h3
    · exact h3.same.setKilnPhase

protected theorem Within.execKilnRebuildDone (h : Within ps s₀ s) : Leads ps s₀ (execKilnRebuildDone s) := h.rebuildDone.next

protected theorem Within.countCodewords {d cs lost} (h : Within ps s₀ s) : Within ps s₀ (countCodewords s d cs lost) := h.modChan

protected theorem Within.issueRead {p retries} (h : Within ps s₀ s) : Within ps s₀ (issueRead s p retries) := h.issueFlash

protected theorem Within.countReads {b n} (h : Within ps s₀ s) : Within ps s₀ (countReads s b n) := h.modBlock

protected theorem Within.readPage {reread p r} (h : Within ps s₀ s) : Within ps s₀ (readPage s reread p r).1 := by
  unfold readPage
  extract_lets d b cs there race own _ passes whole late rebuilt useOwn tries s1
  have h1 : Within ps s₀ s1 := h.issueRead.countCodewords.countReads.ite h
  split
  · exact h1
  · unfold rebuilt
    split
    · exact h1.countReads.same
    · exact h1

protected theorem Within.pageRead {id r} (h : Within ps s₀ s) : Within ps s₀ (pageRead id r s) := by
  have hread {reread p u o} (hu : readPage (stamp s) reread p r = (u, o)) : Within ps s₀ u := by
    simpa only [hu] using h.stamp.readPage (reread := reread) (p := p) (r := r)
  fun_cases pageRead id r s
  case case4 => exact h.stamp.failSource
  case case6 hu _ => exact (hread hu).modStream
  case case7 hu => exact (hread hu).setKilnPhase.failSource
  all_goals exact h

protected theorem Within.execKilnPageRead {stream codewords reconFirst stripe} (h : Within ps s₀ s) :
    Leads ps s₀ (execKilnPageRead stream codewords reconFirst stripe s) :=
  h.pageRead.next

protected theorem Within.fold (h : Within ps s₀ s) : Within ps s₀ (fold s) := by
  fun_cases fold s
  · exact h
  · exact h
  · exact (h.finishErases.moveTensor ‹_›).reclaim
  · exact h

protected theorem Within.execKilnFold (h : Within ps s₀ s) : Leads ps s₀ (execKilnFold s) := h.fold.next

protected theorem Within.wearLevel (h : Within ps s₀ s) : Within ps s₀ (wearLevel s) := by
  fun_cases wearLevel s
  · exact h
  · exact h.relocateBlock
  · exact h

protected theorem Within.execWearLevelling (h : Within ps s₀ s) : Leads ps s₀ (execWearLevelling s) := h.wearLevel.next

protected theorem Within.disturb {b} (h : Within ps s₀ s) : Within ps s₀ (disturb b s) := by
  fun_cases disturb b s
  · exact h
  · exact h.relocateBlock

protected theorem Within.execDisturbRelocate {superblock} (h : Within ps s₀ s) : Leads ps s₀
    (execDisturbRelocate superblock s) := h.disturb.next

protected theorem Within.zqShort (h : Within ps s₀ s) : Within ps s₀ (zqShort s) := by
  fun_cases zqShort s
  · exact h
  · exact h.stamp.same.foldl fun k _ => k.issueFlash

protected theorem Within.execZqShortCalibration (h : Within ps s₀ s) : Leads ps s₀ (execZqShortCalibration s) := h.zqShort.next

/-! ### Peers -/

protected theorem Within.sendLinkEvent {peer code} (h : Within ps s₀ s) : Within ps s₀ (sendLinkEvent s peer code) := h.raise.emit

protected theorem Within.oweDirectory {p} (h : Within ps s₀ s) : Within ps s₀ (oweDirectory s p) := by
  unfold oweDirectory
  extract_lets _ _ s1
  have h1 : Within ps s₀ s1 := h.same
  exact h1.foldl fun k _ => k.dirPeerDone

protected theorem Within.peerDown {p} (h : Within ps s₀ s) : Within ps s₀ (peerDown s p) := by
  fun_cases peerDown s p
  case case1 => exact h
  case case2 s1 =>
    have h1 : Within ps s₀ s1 := by
      unfold s1
      split
      · exact h.same.raise.cancelRack.ite h.same.raise
      · exact h.same.raise
    exact h1.oweDirectory.releaseEpoch

protected theorem Within.closePeer {p} (h : Within ps s₀ s) : Within ps s₀ (closePeer s p) := h.sendLinkEvent.peerDown

protected theorem Within.dropMsg {type x} (h : Within ps s₀ s) : Within ps s₀ (dropMsg s type x) := by
  unfold dropMsg
  extract_lets _ _ s1
  have h1 : Within ps s₀ s1 := h.same
  exact h1.logNow.closePeer

protected theorem Within.arrive {x type body} (hbody : ∀ {t}, Within ps s₀ t → Within ps s₀ (body t)) (h : Within ps s₀ s) :
    Within ps s₀ (arrive x type body s) := by
  fun_cases arrive x type body s
  · exact h
  · exact h.stamp.same.noteParity.dropMsg
  · exact hbody h.stamp.same.noteParity.same

protected theorem Within.incoming {i x type body} (hbody : ∀ {t}, Within ps s₀ t → Within ps s₀ (body t)) (h : Within ps s₀ s) :
    Within ps s₀ (incoming i x type body s) := by
  fun_cases incoming i x type body s
  · exact h.same
  · exact h
  · exact h.arrive fun k => hbody k

protected theorem Within.answerStatus {x type status} (h : Within ps s₀ s) : Within ps s₀ (answerStatus s x type status) := h.reply

protected theorem Within.gate {x ans body} (hbody : ∀ {t}, Within ps s₀ t → Within ps s₀ (body t)) (h : Within ps s₀ s) :
    Within ps s₀ (gate x ans body s) := by
  fun_cases gate x ans body s
  · exact h.sendMsg
  · exact h
  · exact h.sendMsg
  · exact h.sendMsg
  · exact h.sendMsg
  · exact h.answerStatus
  · exact hbody h

protected theorem Within.whenReady {body} (hbody : ∀ {t}, Within ps s₀ t → Within ps s₀ (body t)) (h : Within ps s₀ s) :
    Within ps s₀ (whenReady body s) := by
  fun_cases whenReady body s
  · exact hbody h
  · exact h

protected theorem Within.atHome {i a ask cat body} (hbody : ∀ {t}, Within ps s₀ t → Within ps s₀ (body t)) (h : Within ps s₀ s) :
    Within ps s₀ (atHome i a ask cat body s) := by
  fun_cases atHome i a ask cat body s
  · exact h.same
  · exact h.redirect
  · exact hbody h

protected theorem Within.modCatFor {epoch f} (h : Within ps s₀ s) : Within ps s₀ (modCatFor s epoch f) := by
  fun_cases modCatFor s epoch f <;> exact h.same

protected theorem Within.endRequest {dst corr} (h : Within ps s₀ s) : Within ps s₀ (endRequest s dst corr) := h.same

protected theorem Within.askAgain {r} (h : Within ps s₀ s) : Within ps s₀ (askAgain s r) := h.endRequest.sendReq.same

protected theorem Within.passBack {x ask type args data} (h : Within ps s₀ s) : Within ps s₀ (passBack s x ask type args data) := by
  unfold passBack
  extract_lets _ _ s1
  have h1 : Within ps s₀ s1 := h.endRequest.same
  exact h1.reply

protected theorem Within.gatherPart {g x args data} (h : Within ps s₀ s) : Within ps s₀ (gatherPart s g x args data) := by
  fun_cases gatherPart s g x args data
  · exact h.endRequest.same.reply
  · exact h.endRequest.same

protected theorem Within.gatherAt {ask ans args data parts} (h : Within ps s₀ s) : Within ps s₀ (gatherAt s ask ans args data parts) := by
  fun_cases gatherAt s ask ans args data parts
  · exact h.reply
  · exact (h.foldl_fst fun k _ => k.stamp.sendReq.same).same

protected theorem Within.discardStale {r} (h : Within ps s₀ s) : Within ps s₀ (discardStale s r) := by
  fun_cases discardStale s r
  · exact h.askAgain
  · exact h.endRequest

protected theorem Within.answered {x type ans args data body} (hbody : ∀ {t}, Within ps s₀ t → ∀ x0, Within ps s₀ (body x0 t))
    (h : Within ps s₀ s) :
    Within ps s₀ (answered x type ans args data body s) := by
  fun_cases answered x type ans args data body s
  · exact h
  · exact h.askAgain
  · exact h
  · exact h.gatherPart
  · exact h.passBack
  · exact h.discardStale
  · exact hbody h _

protected theorem Within.endRun {type x} (h : Within ps s₀ s) : Within ps s₀ (endRun s type x) := h.same

protected theorem Within.keepRun {x x'} (h : Within ps s₀ s) : Within ps s₀ (keepRun s x x') := h.endRun.same

protected theorem Within.takeSegment {type x seg data body} (hbody : ∀ {t}, Within ps s₀ t → ∀ x0, Within ps s₀ (body x0 t))
    (h : Within ps s₀ s) :
    Within ps s₀ (takeSegment type x seg data body s) := by
  fun_cases takeSegment type x seg data body s
  · exact h.dropMsg
  · exact h.keepRun
  · exact hbody h.endRun _

protected theorem Within.takeRun {type x data body} (hbody : ∀ {t}, Within ps s₀ t → ∀ x0, Within ps s₀ (body x0 t)) (h : Within ps s₀ s) :
    Within ps s₀ (takeRun type x data body s) := by
  fun_cases takeRun type x data body s
  · exact h.keepRun
  · exact hbody h.endRun _

protected theorem Within.addLoad {a left n unit} (h : Within ps s₀ s) : Within ps s₀ (addLoad s a left n unit).1 := h.same

protected theorem Within.loadFar {a n} (h : Within ps s₀ s) : Within ps s₀ (loadFar s a n) := h.addLoad.same

protected theorem Within.loadFetch {a n} (h : Within ps s₀ s) : Within ps s₀ (loadFetch s a n) := h.addLoad.same

protected theorem Within.loadLookup {a} (h : Within ps s₀ s) : Within ps s₀ (loadLookup s a) := h.same

/-! ### Leases -/

protected theorem Within.decideFwd {ask bad accept} (h : Within ps s₀ s) (haccept : ∀ {t}, Within ps s₀ t → Within ps s₀ (accept t)) :
    Within ps s₀ (decideFwd s ask bad accept) := by
  fun_cases decideFwd s ask bad accept
  · exact h.reply
  · exact haccept h

protected theorem Within.decidePublish {i ask asked d img} (h : Within ps s₀ s) : Within ps s₀ (decidePublish i ask asked d img s) := by
  unfold decidePublish
  extract_lets us r
  split
  · exact h.reply
  · split
    · exact h.decideFwd fun k => k.takeImage
    · have hr : Within ps s₀ r.1 := h.askAll
      exact hr.same

protected theorem Within.decideForward {i ask asked} (h : Within ps s₀ s) : Within ps s₀ (decideForward i ask asked s) := by
  fun_cases decideForward i ask asked s
  · exact h.atHome fun k => k.decideFwd fun k2 => k2.orderPurge
  · exact h.decideFwd fun k => k.nextDirChunk
  · exact h.atHome fun k => k.decidePublish
  · exact h.reply

protected theorem Within.settleForwards (h : Within ps s₀ s) : Within ps s₀ (settleForwards s) := h.same.foldl fun k _ => k.decideForward

protected theorem Within.takeForward {x bytes} (h : Within ps s₀ s) : Within ps s₀ (takeForward x bytes s) := h.decideForward

protected theorem Within.execMPublishFwd {x desc image} (h : Within ps s₀ s) : Leads ps s₀ (execMPublishFwd x desc image s) :=
  (h.incoming (fun k => (k.gate (fun k2 => (k2.takeRun (fun k3 _ => k3.takeForward)))))).next

protected theorem Within.addHold {epoch a v p} (h : Within ps s₀ s) : Within ps s₀ (addHold s epoch a v p) := by
  fun_cases addHold s epoch a v p
  · exact h
  · exact h.same

protected theorem Within.addGranted {epoch a v p} (h : Within ps s₀ s) : Within ps s₀ (addGranted s epoch a v p) := by
  fun_cases addGranted s epoch a v p
  · exact h
  · exact h.same

protected theorem Within.lookedUp {p cat a} (h : Within ps s₀ s) : Within ps s₀ (lookedUp p cat s a) := by
  fun_cases lookedUp p cat s a
  · exact h.loadLookup
  · exact h.loadLookup.addHold.addGranted

protected theorem Within.answerLookup {x cat ids} (h : Within ps s₀ s) : Within ps s₀ (answerLookup x cat ids s) :=
  (h.foldl fun k _ => k.lookedUp).reply

protected theorem Within.takeLookup {i x ids} (h : Within ps s₀ s) : Within ps s₀ (takeLookup i x ids s) := by
  fun_cases takeLookup i x ids s
  · exact h.atHome fun k => k
  · exact h.answerLookup
  · exact (h.foldl fun k _ => k.lookedUp).gatherAt

protected theorem Within.execMLookup {x ids} (h : Within ps s₀ s) : Leads ps s₀ (execMLookup x ids s) :=
  (h.incoming (fun k => (k.gate (fun k2 => k2.takeLookup)))).next

protected theorem Within.learnVersion {epoch a} (h : Within ps s₀ s) : Within ps s₀ (learnVersion s epoch a) := h.modCatFor

protected theorem Within.addLease {epoch home a} (h : Within ps s₀ s) : Within ps s₀ (addLease s epoch home a) := by
  fun_cases addLease s epoch home a
  · exact h
  · exact h.same

protected theorem Within.modAsked {f} (h : Within ps s₀ s) : Within ps s₀ (modAsked s f) := h.same

protected theorem Within.markAsked {a} (h : Within ps s₀ s) : Within ps s₀ (markAsked s a) := h.modAsked

protected theorem Within.askAfresh {a} (h : Within ps s₀ s) : Within ps s₀ (askAfresh s a) := h.modAsked

protected theorem Within.learnNone {epoch gk a purged} (h : Within ps s₀ s) : Within ps s₀ (learnNone epoch gk s a purged) := by
  fun_cases learnNone epoch gk s a purged
  · exact h.modCatFor.modGyle
  · exact h.modCatFor.markAsked

protected theorem Within.admitAnswer {src epoch gk a} (h : Within ps s₀ s) : Within ps s₀ (admitAnswer src epoch gk a s) := by
  fun_cases admitAnswer src epoch gk a s
  · exact h.learnNone
  · exact (h.ite h.learnVersion.addLease).markAsked.modGyle
  · exact (h.ite h.learnVersion.addLease).markAsked

protected theorem Within.learnAnswer {x r a} (h : Within ps s₀ s) : Within ps s₀ (learnAnswer x r s a) := by
  fun_cases learnAnswer x r s a
  · exact h.learnNone
  · exact h.admitAnswer
  · exact h.askAll.same

protected theorem Within.placeFarRow {x slot row} (h : Within ps s₀ s) : Within ps s₀ (placeFarRow s x slot row) := by
  fun_cases placeFarRow s x slot row
  · exact h
  · exact h
  · exact h
  · exact ((h.modGyle.foldl fun k _ => k.needComp).foldl fun k _ => k.loadFar).modGyle
  · exact ((h.modGyle.foldl fun k _ => k.needComp).foldl fun k _ => k.loadFar).enqueue
  · exact ((h.modGyle.foldl fun k _ => k.needComp).foldl fun k _ => k.loadFar).same

protected theorem Within.placeFarRows {x} (h : Within ps s₀ s) : Within ps s₀ (placeFarRows s x) := by
  fun_cases placeFarRows s x
  · exact h
  · exact (h.foldl fun k _ => k.foldl fun k2 _ => k2.placeFarRow).answerFar

protected theorem Within.settleLearning {fuel} (h : Within ps s₀ s) : Within ps s₀ (settleLearning fuel s) := by
  fun_induction settleLearning fuel s with
  | case1 => exact h
  | case2 => exact h
  | case3 _ _ _ _ s1 s2 ih =>
    refine ih ?_
    have h1 : Within ps s₀ s1 := h.same
    have h2 : Within ps s₀ s2 := h1.admitAnswer
    split
    · exact h2.placeFarRows.ite h2.resolveParked
    · exact h2.pinAdmits

protected theorem Within.afterLookup {gk} (h : Within ps s₀ s) (htenants : ps .tenantRecs = true := by assumption) :
    Within ps s₀ (afterLookup s gk) := by
  unfold afterLookup
  extract_lets s1
  have h1 : Within ps s₀ s1 := by
    unfold s1
    split
    · exact h.placeFarRows.ite h.resolveParked
    · exact h.pinAdmits
  exact h1.settleLearning.settleForwards.settleTenants

protected theorem Within.lookupFailed {r} (h : Within ps s₀ s) (htenants : ps .tenantRecs = true := by assumption) :
    Within ps s₀ (lookupFailed s r) := by
  unfold lookupFailed
  extract_lets s1 s2
  have h1 : Within ps s₀ s1 := h.foldl fun k _ => k.learnNone
  have h2 : Within ps s₀ s2 := by
    unfold s2
    split
    · split
      · exact (h1.foldl fun k _ => k.markFarLate).ite h1
      · exact h1
    · exact h1
  split
  · exact h2.afterLookup.ite h2.afterLookup
  · exact h2.afterLookup

protected theorem Within.lookupAnswered {x answers r} (h : Within ps s₀ s) (htenants : ps .tenantRecs = true := by assumption) :
    Within ps s₀ (lookupAnswered x answers r s) := by
  fun_cases lookupAnswered x answers r s
  · exact h.endRequest.lookupFailed
  · exact (h.endRequest.foldl fun k _ => k.learnAnswer).afterLookup

protected theorem Within.takeAnswers {type x x' body} (hbody : ∀ {t}, Within ps s₀ t → ∀ x0, Within ps s₀ (body x0 t))
    (h : Within ps s₀ s) :
    Within ps s₀ (takeAnswers type x x' body s) := by
  fun_cases takeAnswers type x x' body s
  · exact h.keepRun
  · exact hbody h.endRun _

protected theorem Within.execMLookupAns {x answers} (h : Within ps s₀ s) (htenants : ps .tenantRecs = true := by assumption) :
    Leads ps s₀ (execMLookupAns x answers s) :=
  (h.incoming (fun k => (k.takeAnswers (fun k2 _ => (k2.answered (fun k3 _ => k3.lookupAnswered)))))).next

protected theorem Within.renewOne {p cat acc x} (h : Within ps s₀ acc.1) : Within ps s₀ (renewOne p cat acc x).1 := by
  fun_cases renewOne p cat acc x
  · exact h.addGranted
  · exact h

protected theorem Within.takeRenew {i x ids} (h : Within ps s₀ s) : Within ps s₀ (takeRenew i x ids s) := by
  fun_cases takeRenew i x ids s
  · exact h.atHome fun k => k
  · exact (h.foldl_fst fun k _ => k.renewOne).reply
  · exact (h.foldl_fst fun k _ => k.renewOne).gatherAt

protected theorem Within.execMLeaseRenew {x ids} (h : Within ps s₀ s) : Leads ps s₀ (execMLeaseRenew x ids s) :=
  (h.incoming (fun k => (k.gate (fun k2 => k2.takeRenew)))).next

protected theorem Within.leaseGranted {epoch x} (h : Within ps s₀ s) : Within ps s₀ (leaseGranted epoch s x) := h.same

protected theorem Within.renewalAnswered {x grants r} (h : Within ps s₀ s) : Within ps s₀ (renewalAnswered x grants r s) :=
  h.endRequest.foldl fun k _ => k.leaseGranted

protected theorem Within.execMLeaseAns {x grants} (h : Within ps s₀ s) : Leads ps s₀ (execMLeaseAns x grants s) :=
  (h.incoming (fun k => (k.takeAnswers (fun k2 _ => (k2.answered (fun k3 _ => k3.renewalAnswered)))))).next

protected theorem Within.renewDue {a} (h : Within ps s₀ s) : Within ps s₀ (renewDue a s) := by
  fun_cases renewDue a s
  · exact h
  · exact h
  · exact h.stamp.same.sendReq

protected theorem Within.execLeaseRenewDue {adapter} (h : Within ps s₀ s) : Leads ps s₀ (execLeaseRenewDue adapter s) := h.renewDue.next

protected theorem Within.lapse {l} (h : Within ps s₀ s) : Within ps s₀
    (lapse s l) := h.same.askAfresh.foldl fun k _ => k.modGyle.purgeInGyle

protected theorem Within.leaseLapsed {a} (h : Within ps s₀ s) : Within ps s₀ (leaseLapsed a s) := by
  fun_cases leaseLapsed a s
  · exact h.stamp.lapse.seekKept
  · exact h

protected theorem Within.execLeaseLapsed {adapter} (h : Within ps s₀ s) : Leads ps s₀ (execLeaseLapsed adapter s) := h.leaseLapsed.next

protected theorem Within.leaseWaitOver {a v p} (h : Within ps s₀ s) : Within ps s₀ (leaseWaitOver a v p s) := by
  fun_cases leaseWaitOver a v p s
  · exact h.stamp.same.holderDone
  · exact h

protected theorem Within.execLeaseWaitExpiry {adapter version peer} (h : Within ps s₀ s) :
    Leads ps s₀ (execLeaseWaitExpiry adapter version peer s) :=
  h.leaseWaitOver.next

protected theorem Within.revokeOne {epoch x} (h : Within ps s₀ s) : Within ps s₀ (revokeOne epoch s x) := by
  fun_cases revokeOne epoch s x
  · exact h.same.askAfresh.noteSuperseded
  · exact h.same.askAfresh.noteSuperseded.modCatFor.staleCask

protected theorem Within.takeRevoke {x ids purge} (h : Within ps s₀ s) : Within ps s₀ (takeRevoke x ids purge s) := by
  fun_cases takeRevoke x ids purge s
  · exact ((h.foldl fun k _ => k.revokeOne).foldl fun k _ => k.applyPurge).same.purgeTick
  · exact (h.foldl fun k _ => k.revokeOne).release.reply.seekKept

protected theorem Within.execMRevoke {x ids purge} (h : Within ps s₀ s) : Leads ps s₀ (execMRevoke x ids purge s) :=
  (h.incoming (fun k => (k.gate (fun k2 => k2.takeRevoke)))).next

protected theorem Within.revokeAcked {x r} (h : Within ps s₀ s) : Within ps s₀
    (revokeAcked x r s) := h.endRequest.foldl fun k _ => k.holderDone

protected theorem Within.execMRevokeAck {x} (h : Within ps s₀ s) : Leads ps s₀ (execMRevokeAck x s) :=
  (h.incoming (fun k => (k.answered (fun k2 _ => k2.revokeAcked)))).next

protected theorem Within.endHold {x x'} (h : Within ps s₀ s) : Within ps s₀ (endHold x s x') := h.same

protected theorem Within.execMHoldRelease {x ids} (h : Within ps s₀ s) : Leads ps s₀ (execMHoldRelease x ids s) :=
  (h.incoming (fun k => (k.whenReady (fun k2 => (k2.foldl fun k3 _ => k3.endHold).pruneVersions)))).next

protected theorem Within.holdsTimeout {p} (h : Within ps s₀ s) : Within ps s₀ (holdsTimeout p s) := by
  fun_cases holdsTimeout p s
  · exact h
  · exact h.stamp.same.pruneVersions

protected theorem Within.execPeerHoldsTimeout {peer} (h : Within ps s₀ s) : Leads ps s₀ (execPeerHoldsTimeout peer s) := h.holdsTimeout.next

protected theorem Within.execLoadHalving (h : Within ps s₀ s) : Leads ps s₀ (execLoadHalving s) := h.stamp.same.next

protected theorem Within.execFreqHalving (h : Within ps s₀ s) : Leads ps s₀ (execFreqHalving s) := h.stamp.same.next

/-! ### FarApply -/

protected theorem Within.sendVersion {ask v} (h : Within ps s₀ s) : Within ps s₀
    (sendVersion s ask v) := h.foldl fun k _ => k.sendTensor.loadFetch

protected theorem Within.serveFetch {x cat a v} (h : Within ps s₀ s) : Within ps s₀ (serveFetch x cat a v s) := by
  fun_cases serveFetch x cat a v s
  · exact h.reply
  · exact h.reply
  · exact h.addHold.sendVersion.reply

protected theorem Within.takeFetch {i x a v flags} (h : Within ps s₀ s) : Within ps s₀ (takeFetch i x a v flags s) := by
  fun_cases takeFetch i x a v flags s
  · exact h.serveFetch
  · exact h.atHome fun k => k.serveFetch

protected theorem Within.execMFetchReq {x adapter version tierFlags} (h : Within ps s₀ s) :
    Leads ps s₀ (execMFetchReq x adapter version tierFlags s) :=
  (h.incoming (fun k => (k.gate (fun k2 => k2.takeFetch)))).next

protected theorem Within.storeTensor {epoch a v t} (h : Within ps s₀ s) : Within ps s₀ (storeTensor s epoch a v t) := h.modCatFor

protected theorem Within.fetchedTensor {r seg bytes} (h : Within ps s₀ s) (hcellar : ps .cellarBytes = true := by assumption) :
    Within ps s₀ (fetchedTensor r seg bytes s) := by
  fun_cases fetchedTensor r seg bytes s
  · exact h
  · exact h
  · exact h.storeTensor.makePresent
  · exact h.endRequest.failSource

protected theorem Within.takeFetchData {x seg data} (h : Within ps s₀ s) (hcellar : ps .cellarBytes = true := by assumption) :
    Within ps s₀ (takeFetchData x seg data s) := by
  fun_cases takeFetchData x seg data s
  · exact h.sendMsg
  · exact h
  · exact h.takeSegment fun k _ => k.fetchedTensor

protected theorem Within.execMFetchData {x seg data} (h : Within ps s₀ s) (hcellar : ps .cellarBytes = true := by assumption) :
    Leads ps s₀ (execMFetchData x seg data s) :=
  (h.incoming (fun k => k.takeFetchData)).next

protected theorem Within.loseRest {st} (h : Within ps s₀ s) : Within ps s₀ (loseRest s st) := h.foldl fun k _ => k.modStream.failSource

protected theorem Within.fetchEnded {x r} (h : Within ps s₀ s) : Within ps s₀ (fetchEnded x r s) := by
  fun_cases fetchEnded x r s
  · exact h.endRequest
  · exact h.endRequest.applyPurge
  · exact h.endRequest.loseRest
  · exact h.endRequest.failSource
  · exact h.endRequest

protected theorem Within.execMFetchEnd {x} (h : Within ps s₀ s) : Leads ps s₀ (execMFetchEnd x s) :=
  (h.incoming (fun k => (k.answered (fun k2 _ => k2.fetchEnded)))).next

protected theorem Within.registerFar {x fp gyle classes} (h : Within ps s₀ s) : Within ps s₀ (registerFar x fp gyle classes s) :=
  ((h.setGyle.foldl fun k _ => k.addHold).foldl fun k _ => k.needComp).askLookups

protected theorem Within.openFarGyle {x fp gyle classes} (h : Within ps s₀ s) : Within ps s₀ (openFarGyle x fp gyle classes s) := by
  fun_cases openFarGyle x fp gyle classes s
  case case1 s1 _ =>
    have h1 : Within ps s₀ s1 := by
      unfold s1
      split
      · exact h.tearGyle
      · exact h
    exact h1.answerStatus
  case case2 s1 _ _ _ =>
    have h1 : Within ps s₀ s1 := by
      unfold s1
      split
      · exact h.tearGyle
      · exact h
    exact h1.answerStatus
  case case3 s1 _ _ =>
    have h1 : Within ps s₀ s1 := by
      unfold s1
      split
      · exact h.tearGyle
      · exact h
    exact h1.registerFar.answerStatus

protected theorem Within.takeFarOpen {i x fp gyle classes} (h : Within ps s₀ s) : Within ps s₀ (takeFarOpen i x fp gyle classes s) := by
  fun_cases takeFarOpen i x fp gyle classes s
  · exact h.atHome fun k => k
  · exact h.openFarGyle
  · exact h.openFarGyle
  · exact h.redirect.same

protected theorem Within.execMFarOpen {x fp gyle classes} (h : Within ps s₀ s) : Leads ps s₀ (execMFarOpen x fp gyle classes s) :=
  (h.incoming (fun k => (k.gate (fun k2 => k2.takeFarOpen)))).next

protected theorem Within.serveFarRows {x g slot rows} (h : Within ps s₀ s) : Within ps s₀ (serveFarRows x g slot rows s) :=
  h.setGyle.same.placeFarRows

protected theorem Within.takeFarRows {x gyle slot rows} (h : Within ps s₀ s) : Within ps s₀ (takeFarRows x gyle slot rows s) := by
  fun_cases takeFarRows x gyle slot rows s
  · exact h.serveFarRows
  · exact h.gatherAt
  · exact h.answerStatus

protected theorem Within.execMFarRows {x gyle slot rows} (h : Within ps s₀ s) : Leads ps s₀ (execMFarRows x gyle slot rows s) :=
  (h.incoming (fun k => (k.gate (fun k2 => k2.takeFarRows)))).next

protected theorem Within.cancelFar {g} (h : Within ps s₀ s) : Within ps s₀ (cancelFar s g) :=
  (h.clearHeld.foldl fun k _ => k.modTun).modGyle.answerFar

protected theorem Within.endFar {type x gyle} (h : Within ps s₀ s) : Within ps s₀ (endFar type x gyle s) := by
  fun_cases endFar type x gyle s
  · exact h.cancelFar
  · exact h.tearGyle
  · exact h.sendMsg.same
  · exact h

protected theorem Within.execMFarClose {x gyle} (h : Within ps s₀ s) : Leads ps s₀ (execMFarClose x gyle s) :=
    (h.incoming (fun k => k.endFar)).next

protected theorem Within.execMFarCancel {x gyle} (h : Within ps s₀ s) : Leads ps s₀ (execMFarCancel x gyle s) :=
  (h.incoming (fun k => k.endFar)).next

protected theorem Within.giveLocal {x seg slot row was x'} (h : Within ps s₀ s) : Within ps s₀ (giveLocal x seg slot row was x' s) := by
  fun_cases giveLocal x seg slot row was x' s
  · exact h
  · exact h
  · exact h
  · exact h.modGyle.enqueue.notePlaced
  · exact h.modGyle.same.notePlaced

protected theorem Within.fetchInstead {x x'} (h : Within ps s₀ s) : Within ps s₀ (fetchInstead s x x') := by
  fun_cases fetchInstead s x x'
  · exact h
  · exact (h.setGyle.foldl fun k _ => k.needComp).foldl fun k _ => k.foldl fun k2 _ => by
      split
      · exact k2.giveLocal.ite k2
      · exact k2

protected theorem Within.farWaitLate {x x' mine} (h : Within ps s₀ s) : Within ps s₀ (farWaitLate s x x' mine) := by
  fun_cases farWaitLate s x x' mine
  · exact h
  · exact h.foldl fun k _ => k.modGyle.markLate.ite k.modGyle

protected theorem Within.farGone {x x'} (h : Within ps s₀ s) : Within ps s₀ (farGone s x x') := by
  fun_cases farGone s x x'
  · exact h
  · exact h.modGyle.foldl fun k _ => by
      split
      · exact k.purgeInGyle
      · exact k

protected theorem Within.farOpened {x r} (h : Within ps s₀ s) : Within ps s₀ (farOpened x r s) := by
  fun_cases farOpened x r s
  · exact h.endRequest
  · exact h.endRequest
  · exact h.endRequest.farWaitLate
  · exact h.endRequest.fetchInstead
  · exact h.endRequest.farGone

protected theorem Within.execMFarOpenAns {x} (h : Within ps s₀ s) : Leads ps s₀ (execMFarOpenAns x s) :=
  (h.incoming (fun k => (k.answered (fun k2 _ => k2.farOpened)))).next

protected theorem Within.takeSum {x x' f r} (h : Within ps s₀ s) : Within ps s₀ (takeSum x x' f s r) := by
  fun_cases takeSum x x' f s r
  · exact h
  · exact h.setGyle
  · exact h.setGyle.startXfer.startXfer

protected theorem Within.farSums {x slot rows r} (h : Within ps s₀ s) : Within ps s₀ (farSums x slot rows r s) := by
  fun_cases farSums x slot rows r s
  · exact h.endRequest
  · exact h.endRequest.foldl fun k _ => k.takeSum
  · exact h.endRequest.farWaitLate

protected theorem Within.execMFarSum {x slot rows} (h : Within ps s₀ s) : Leads ps s₀ (execMFarSum x slot rows s) :=
  (h.incoming (fun k => (k.answered (fun k2 _ => k2.farSums)))).next

protected theorem Within.takeFarLate {x slot rows} (h : Within ps s₀ s) : Within ps s₀ (takeFarLate x slot rows s) := by
  fun_cases takeFarLate x slot rows s
  · exact h.sendMsg
  · exact h
  · exact h.endRequest
  · exact h
  · exact h.same.farWaitLate

protected theorem Within.execMFarLate {x slot rows} (h : Within ps s₀ s) : Leads ps s₀ (execMFarLate x slot rows s) :=
  (h.incoming (fun k => k.takeFarLate)).next

/-! ### Forwards -/

protected theorem Within.applyUpdate {hdr bytes} (h : Within ps s₀ s) : Within ps s₀ (applyUpdate hdr bytes s) := by
  unfold applyUpdate
  extract_lets es s1
  have h1 : Within ps s₀ s1 := h.foldl fun k _ => by
    split
    · exact k.dirChange ‹_›
    · exact k.countDirRefusal
  exact h1.same

protected theorem Within.execMDirUpdate {x entries} (h : Within ps s₀ s) : Leads ps s₀ (execMDirUpdate x entries s) :=
  (h.incoming (fun k => (k.gate (fun k2 => (k2.takeRun (fun k3 _ => k3.applyUpdate)))))).next

protected theorem Within.dirAcked {x r} (h : Within ps s₀ s) : Within ps s₀ (dirAcked x r s) := h.endRequest.dirPeerDone

protected theorem Within.execMDirAck {x} (h : Within ps s₀ s) : Leads ps s₀ (execMDirAck x s) :=
  (h.incoming (fun k => (k.answered (fun k2 _ => k2.dirAcked)))).next

protected theorem Within.completeForward {corr status result} (h : Within ps s₀ s) : Within ps s₀
    (completeForward s corr status result) := by
  fun_cases completeForward s corr status result
  · exact h
  · exact h.same.completeLater
  · exact h.same

protected theorem Within.endDirPart {corr status applied} (h : Within ps s₀ s) : Within ps s₀ (endDirPart s corr status applied) :=
  h.same.settleDirPending

protected theorem Within.forwardAnswered {x result r} (h : Within ps s₀ s) : Within ps s₀ (forwardAnswered x result r s) := by
  fun_cases forwardAnswered x result r s
  · exact h.endRequest.completeForward
  · exact h.endRequest.endDirPart

protected theorem Within.execMPublishAns {x result} (h : Within ps s₀ s) : Leads ps s₀ (execMPublishAns x result s) :=
  (h.incoming (fun k => (k.answered (fun k2 _ => k2.forwardAnswered)))).next

protected theorem Within.epochReleased {x} (h : Within ps s₀ s) : Within ps s₀ (epochReleased x s) := (h.ite h.same).releaseEpoch

protected theorem Within.execMEpochRelease {x} (h : Within ps s₀ s) : Leads ps s₀ (execMEpochRelease x s) :=
  (h.incoming (fun k => k.epochReleased)).next

protected theorem Within.takeLend {hdr grant gibs} (h : Within ps s₀ s) : Within ps s₀ (takeLend hdr grant gibs s) := by
  fun_cases takeLend hdr grant gibs s
  · exact h.reply
  case case2 s1 =>
    have h1 : Within ps s₀ s1 := h.same
    exact h1.reply

protected theorem Within.execMLend {x grant sizeGib} (h : Within ps s₀ s) : Leads ps s₀ (execMLend x grant sizeGib s) :=
  (h.incoming (fun k => (k.gate (fun k2 => k2.takeLend)))).next

protected theorem Within.dropGrant {lender grant ask} (h : Within ps s₀ s) : Within ps s₀ (dropGrant s lender grant ask) := by
  unfold dropGrant
  extract_lets _ s1
  have h1 : Within ps s₀ s1 := h.same
  exact h1.reply

protected theorem Within.takeRecall {hdr grant} (h : Within ps s₀ s) : Within ps s₀ (takeRecall hdr grant s) := by
  fun_cases takeRecall hdr grant s
  · exact h.reply
  · exact h.same.dropGrant
  case case3 s1 _ =>
    have h1 : Within ps s₀ s1 := h.same
    exact h1.same

protected theorem Within.execMRecall {x grant} (h : Within ps s₀ s) : Leads ps s₀ (execMRecall x grant s) :=
  (h.incoming (fun k => (k.gate (fun k2 => k2.takeRecall)))).next

protected theorem Within.readsDrained {lender grant} (h : Within ps s₀ s) : Within ps s₀ (readsDrained lender grant s) := by
  fun_cases readsDrained lender grant s
  · exact h.stamp.dropGrant
  · exact h
  · exact h
  · exact h

protected theorem Within.execRecallReadsDrained {lender grant} (h : Within ps s₀ s) : Leads ps s₀ (execRecallReadsDrained lender grant s) :=
  h.readsDrained.next

protected theorem Within.endT3Read {r} (h : Within ps s₀ s) : Within ps s₀ (endT3Read s r) := by
  unfold endT3Read
  extract_lets s1
  have h1 : Within ps s₀ s1 := h.endRequest
  exact h1.same

protected theorem Within.t3Tensor {r seg bytes} (h : Within ps s₀ s) (hcellar : ps .cellarBytes = true := by assumption) :
    Within ps s₀ (t3Tensor r seg bytes s) := by
  fun_cases t3Tensor r seg bytes s
  · exact h.endT3Read
  · exact h.endT3Read
  · exact h.endT3Read.makePresent
  · exact h.endT3Read.failSource

protected theorem Within.takeT3Data {x seg data} (h : Within ps s₀ s) (hcellar : ps .cellarBytes = true := by assumption) :
    Within ps s₀ (takeT3Data x seg data s) := by
  fun_cases takeT3Data x seg data s
  · exact h
  · exact h.takeSegment fun k _ => k.t3Tensor
  · exact h.endT3Read.failSource
  · exact h.endT3Read
  · exact h.endT3Read

protected theorem Within.execMT3Data {x seg data} (h : Within ps s₀ s) (hcellar : ps .cellarBytes = true := by assumption) :
    Leads ps s₀ (execMT3Data x seg data s) :=
  (h.incoming (fun k => k.takeT3Data)).next

protected theorem Within.t3Timeout {corr} (h : Within ps s₀ s) : Within ps s₀ (t3Timeout corr s) := by
  fun_cases t3Timeout corr s
  · exact h
  · exact h.stamp.endT3Read.forgetGrant

protected theorem Within.execT3ReadTimeout {corr} (h : Within ps s₀ s) : Leads ps s₀ (execT3ReadTimeout corr s) := h.t3Timeout.next

protected theorem Within.lendEnds {peer grant status} (h : Within ps s₀ s) : Within ps s₀ (lendEnds s peer grant status) := by
  fun_cases lendEnds s peer grant status
  · exact h
  · exact h.same.completeLater
  · exact h.same
  · exact h.same

protected theorem Within.lendAcked {x r} (h : Within ps s₀ s) : Within ps s₀ (lendAcked x r s) := h.endRequest.lendEnds

protected theorem Within.execMLendAck {x grant} (h : Within ps s₀ s) : Leads ps s₀ (execMLendAck x grant s) :=
  (h.incoming (fun k => (k.answered (fun k2 _ => k2.lendAcked)))).next

protected theorem Within.recallAnswered {x r} (h : Within ps s₀ s) : Within ps s₀ (recallAnswered x r s) := by
  fun_cases recallAnswered x r s
  · exact h.endRequest.endRecall
  · exact h.endRequest

protected theorem Within.execMRecallAns {x grant} (h : Within ps s₀ s) : Leads ps s₀ (execMRecallAns x grant s) :=
  (h.incoming (fun k => (k.answered (fun k2 _ => k2.recallAnswered)))).next

protected theorem Within.takeT3Read {x grant offset length} (h : Within ps s₀ s) : Within ps s₀ (takeT3Read x grant offset length s) := by
  fun_cases takeT3Read x grant offset length s <;> exact h.reply

protected theorem Within.execMT3Read {x grant offset length} (h : Within ps s₀ s) : Leads ps s₀ (execMT3Read x grant offset length s) :=
  (h.incoming (fun k => (k.gate (fun k2 => k2.takeT3Read)))).next

protected theorem Within.t3Written {x grant seg bytes} (h : Within ps s₀ s) : Within ps s₀ (t3Written x grant seg bytes s) := by
  fun_cases t3Written x grant seg bytes s
  · exact h.same
  · exact h

protected theorem Within.execMT3Write {x grant seg data} (h : Within ps s₀ s) : Leads ps s₀ (execMT3Write x grant seg data s) :=
  (h.incoming (fun k => (k.whenReady (fun k2 => (k2.takeSegment (fun k3 _ => k3.t3Written)))))).next

/-! ### Racking -/

protected theorem Within.startRack {c fr d} (h : Within ps s₀ s) : Within ps s₀ (startRack c fr d s) := by
  unfold startRack
  extract_lets _ _ _ s1 _
  have h1 : Within ps s₀ s1 := h.same
  exact h1.sendReq.acceptLater

protected theorem Within.rack {c} (h : Within ps s₀ s) : Within ps s₀
    (rack c s) := h.onFront fun _ _ _ => h.decideCmd fun k2 => k2.startRack

protected theorem Within.execRack {c} (h : Within ps s₀ s) : Leads ps s₀ (execRack c s) := h.rack.next

protected theorem Within.modRack {f} (h : Within ps s₀ s) : Within ps s₀ (modRack s f) := h.same

protected theorem Within.sendRackData {r mine} (h : Within ps s₀ s) : Within ps s₀ (sendRackData s r mine) := by
  fun_cases sendRackData s r mine
  · exact (h.foldl fun k _ => k.sendTensor).sendMsg
  · exact h.foldl fun k _ => k.sendTensor

protected theorem Within.rackOpened {x q} (h : Within ps s₀ s) : Within ps s₀ (rackOpened x q s) := by
  fun_cases rackOpened x q s
  · exact h.endRequest
  · exact h.endRequest.cancelRack
  · exact h.endRequest.modRack.sendRackData

protected theorem Within.execMRackOpenAns {x} (h : Within ps s₀ s) : Leads ps s₀ (execMRackOpenAns x s) :=
  (h.incoming (fun k => (k.answered (fun k2 _ => k2.rackOpened)))).next

protected theorem Within.freezeRack {r} (h : Within ps s₀ s) : Within ps s₀ (freezeRack s r) := h.modRack.sendRackData.sendReq

protected theorem Within.roundDone (h : Within ps s₀ s) : Within ps s₀ (roundDone s) := by
  fun_cases roundDone s
  · exact h
  · exact h
  · exact h.stamp.freezeRack
  · exact h.stamp.cancelRack
  · exact h.stamp.modRack.sendRackData

protected theorem Within.execRackRoundDone (h : Within ps s₀ s) : Leads ps s₀ (execRackRoundDone s) := h.roundDone.next

protected theorem Within.keepPastHomes {epoch a v home} (h : Within ps s₀ s) : Within ps s₀ (keepPastHomes s epoch a v home) := h.same

protected theorem Within.keepBound {a v} (h : Within ps s₀ s) : Within ps s₀ (keepBound s a v) := by
  unfold keepBound
  extract_lets pin
  have hpin (g : Gyle) : (pin g).key = g.key := by
    unfold pin
    split
    · split <;> rfl
    · rfl
  have h1 : Within ps s₀ { s with gyles := s.gyles.map pin } := h.same
  exact h1.keepPastHomes

protected theorem Within.handOver {a v dest leaseUs} (h : Within ps s₀ s) : Within ps s₀ (handOver s a v dest leaseUs) := by
  unfold handOver
  extract_lets _ _ _ _ s1 _ s2
  have h1 : Within ps s₀ s1 := h.same
  have h2 : Within ps s₀ s2 := by
    unfold s2
    split
    · exact h1.addLease.modCask
    · exact h1.addLease
  exact h2.foldl fun k _ => by
    split
    · exact k.modStream.failSource.ite k.modStream
    · exact k.modStream

protected theorem Within.cutover {r leaseUs} (h : Within ps s₀ s) : Within ps s₀ (cutover s r leaseUs) := by
  unfold cutover
  extract_lets _ _ _ _ s1 _ s2 _ _
  have h1 : Within ps s₀ s1 := h.measureFreeze.keepBound.same
  have h2 : Within ps s₀ s2 := h1.same
  exact h2.modRack.handOver.pruneVersions.foldl fun k _ => k.stamp.sendReq

protected theorem Within.rackReady {x leaseUs q} (h : Within ps s₀ s) : Within ps s₀ (rackReady x leaseUs q s) := by
  fun_cases rackReady x leaseUs q s
  · exact h.endRequest
  · exact h.endRequest.cutover
  · exact h.endRequest.cancelRack

protected theorem Within.execMRackReady {x leaseUs} (h : Within ps s₀ s) : Leads ps s₀ (execMRackReady x leaseUs s) :=
  (h.incoming (fun k => (k.answered (fun k2 _ => k2.rackReady)))).next

protected theorem Within.freezeTimeout (h : Within ps s₀ s) : Within ps s₀ (freezeTimeout s) := by
  fun_cases freezeTimeout s
  · exact h
  · exact h.stamp.cancelRack
  · exact h

protected theorem Within.execRackFreezeTimeout (h : Within ps s₀ s) : Leads ps s₀ (execRackFreezeTimeout s) := h.freezeTimeout.next

protected theorem Within.homeAcked {x q} (h : Within ps s₀ s) : Within ps s₀ (homeAcked x q s) := by
  fun_cases homeAcked x q s
  · exact h.endRequest.cancelRack
  · exact h.endRequest

protected theorem Within.execMHomeAck {x} (h : Within ps s₀ s) : Leads ps s₀ (execMHomeAck x s) :=
  (h.incoming (fun k => (k.answered (fun k2 _ => k2.homeAcked)))).next

protected theorem Within.takeRackOpen {x hdr slots bytes} (h : Within ps s₀ s) : Within ps s₀ (takeRackOpen x hdr slots bytes s) := by
  fun_cases takeRackOpen x hdr slots bytes s
  · exact h.same.answerStatus
  · exact h.same.answerStatus
  · exact h.same.same.answerStatus

protected theorem Within.execMRackOpen {x hdr slots bytes} (h : Within ps s₀ s) : Leads ps s₀ (execMRackOpen x hdr slots bytes s) :=
  (h.incoming (fun k => (k.gate (fun k2 => k2.takeRackOpen)))).next

protected theorem Within.runQueued {i} (h : Within ps s₀ s) : Within ps s₀ (runQueued s i) := by
  fun_cases runQueued s i
  · exact h.takeLookup
  · exact h.takeRenew
  · exact h.takeFetch
  · exact h.takeFarOpen
  · exact h.takeForward
  · exact h

protected theorem Within.dropRackIn {src} (h : Within ps s₀ s) : Within ps s₀ (dropRackIn s src) := by
  unfold dropRackIn
  extract_lets _ _ s1
  have h1 : Within ps s₀ s1 := h.same
  exact h1.foldl fun k _ => k.runQueued

protected theorem Within.rackedTensor {x seg bytes} (h : Within ps s₀ s) : Within ps s₀ (rackedTensor x seg bytes s) := by
  fun_cases rackedTensor x seg bytes s
  · exact h.same
  · exact h.sendMsg.dropRackIn

protected theorem Within.execMRackData {x seg data} (h : Within ps s₀ s) : Leads ps s₀ (execMRackData x seg data s) :=
  (h.incoming (fun k => (k.whenReady (fun k2 => (k2.takeSegment (fun k3 _ => k3.rackedTensor)))))).next

protected theorem Within.takePrepare {x version leases holds} (h : Within ps s₀ s) : Within ps s₀
    (takePrepare x version leases holds s) := by
  fun_cases takePrepare x version leases holds s
  · exact h.answerStatus
  · exact h.answerStatus
  · exact h.answerStatus
  · exact h.same.reply

protected theorem Within.execMRackPrepare {x version leases holds} (h : Within ps s₀ s) : Leads ps s₀
    (execMRackPrepare x version leases holds s) :=
  (h.incoming (fun k => (k.gate (fun k2 => k2.takePrepare)))).next

protected theorem Within.takeAbort {x} (h : Within ps s₀ s) : Within ps s₀ (takeAbort x s) := by
  unfold takeAbort
  extract_lets s1
  have h1 : Within ps s₀ s1 := by
    unfold s1
    split
    · exact h.cancelRack.ite h
    · exact h
  exact h1.dropRackIn

protected theorem Within.execMRackAbort {x} (h : Within ps s₀ s) : Leads ps s₀ (execMRackAbort x s) :=
    (h.incoming (fun k => k.takeAbort)).next

protected theorem Within.ownStreams {a v} (h : Within ps s₀ s) : Within ps s₀ (ownStreams s a v) :=
  h.foldl fun k _ => by
    split
    · exact k.same.modStream.failSource
    · exact k.same.modStream

protected theorem Within.becomeHome {a src} (h : Within ps s₀ s) : Within ps s₀ (becomeHome s a src) := by
  unfold becomeHome
  split
  · exact h
  · extract_lets v s1 _ s2 s3 s4 s5 s6
    have h2 : Within ps s₀ s2 := h.modAdapter.same
    have h3 : Within ps s₀ s3 := (h2.same).keepPastHomes
    have h4 : Within ps s₀ s4 := h3.foldl fun k _ => k.ite k.addGranted
    have h5 : Within ps s₀ s5 := h4.foldl fun k _ => k.ite k.addHold
    have h6 : Within ps s₀ s6 := by
      unfold s6
      split
      · exact h5.modCask
      · exact h5
    exact h6.ownStreams.foldl fun k _ => k.runQueued

protected theorem Within.homeMoved {epoch a old home} (h : Within ps s₀ s) : Within ps s₀ (homeMoved s epoch a old home) := by
  unfold homeMoved
  extract_lets _ _ _ _ s1
  have h1 : Within ps s₀ s1 := by
    unfold s1
    split
    · exact h.same.keepPastHomes
    · exact h.same.keepPastHomes.sendMsg
  exact h1.foldl fun k _ => k.same.modStream.readFrom.ite k.same.modStream

protected theorem Within.takeHomeChange {x a home} (h : Within ps s₀ s) : Within ps s₀ (takeHomeChange x a home s) := by
  fun_cases takeHomeChange x a home s
  · exact h.answerStatus
  · exact (h.modCatFor.becomeHome.ite h.modCatFor.homeMoved).answerStatus

protected theorem Within.execMHomeChange {x adapter home} (h : Within ps s₀ s) : Leads ps s₀ (execMHomeChange x adapter home s) :=
  (h.incoming (fun k => (k.gate (fun k2 => k2.takeHomeChange)))).next

/-! ### Links -/

protected theorem Within.payDirectory {p} (h : Within ps s₀ s) : Within ps s₀ (payDirectory s p) := by
  unfold payDirectory
  extract_lets _ _ s1
  have h1 : Within ps s₀ s1 := h.same
  exact h1.foldl fun k _ => k.stamp.sendReq

protected theorem Within.linkComesUp {p} (h : Within ps s₀ s) : Within ps s₀ (linkComesUp s p) := by
  unfold linkComesUp
  extract_lets _ _ _ _ _ _ _ _ s1
  have h1 : Within ps s₀ s1 := h.same.raise.same
  exact (h1.payDirectory.foldl fun k _ => k.sendMsg).seekKept

protected theorem Within.linkUp {port p} (h : Within ps s₀ s) : Within ps s₀ (linkUp port p s) := by
  fun_cases linkUp port p s
  · exact h
  · exact h.stamp.raise.sendLinkEvent
  · exact h.stamp.raise.linkComesUp

protected theorem Within.execLinkUp {port peer} (h : Within ps s₀ s) : Leads ps s₀ (execLinkUp port peer s) := h.linkUp.next

protected theorem Within.linkDown {port p} (h : Within ps s₀ s) : Within ps s₀ (linkDown port p s) := by
  fun_cases linkDown port p s
  · exact h
  · exact h.stamp.raise.peerDown

protected theorem Within.execLinkDown {port peer} (h : Within ps s₀ s) : Leads ps s₀ (execLinkDown port peer s) := h.linkDown.next

protected theorem Within.fetchLate {r} (h : Within ps s₀ s) : Within ps s₀
    (fetchLate s r) := h.foldl fun k _ => k.foldl fun k2 _ => k2.markLate

protected theorem Within.unanswered {r} (h : Within ps s₀ s) (htenants : ps .tenantRecs = true := by assumption) :
    Within ps s₀ (unanswered s r) := by
  fun_cases unanswered s r
  · exact h.endRequest.lookupFailed
  · exact h.fetchLate
  · exact h.farWaitLate
  · exact h.farWaitLate
  · exact h

protected theorem Within.retryOneReq {r} (h : Within ps s₀ s) (htenants : ps .tenantRecs = true := by assumption) :
    Within ps s₀ (retryOneReq s r) := by
  fun_cases retryOneReq s r
  · exact h.same.sendMsg
  · exact h.peerDown.unanswered

protected theorem Within.retryRequest {corr} (h : Within ps s₀ s) (htenants : ps .tenantRecs = true := by assumption) :
    Within ps s₀ (retryRequest corr s) := by
  fun_cases retryRequest corr s
  · exact h
  · exact h.stamp.foldl fun k _ => k.retryOneReq

protected theorem Within.execPeerRequestRetry {corr} (h : Within ps s₀ s) (htenants : ps .tenantRecs = true := by assumption) :
    Leads ps s₀ (execPeerRequestRetry corr s) := h.retryRequest.next

protected theorem Within.givenUp {r} (h : Within ps s₀ s) (htenants : ps .tenantRecs = true := by assumption) :
    Within ps s₀ (givenUp s r) := by
  fun_cases givenUp s r
  · exact h.endRequest.same.lapse
  · exact h.endRequest.same
  · exact h.endRequest.same.failSource
  · exact h.endRequest.same
  · exact h.endRequest.same
  · exact h.endRequest.same.cancelRack
  · exact h.endRequest.same.cancelRack
  · exact h.endRequest.same.sendReq
  · exact h.endRequest.same.completeForward
  · exact h.endRequest.same.endDirPart
  · exact h.endRequest.same.lendEnds
  · exact h.endRequest.same.unanswered

protected theorem Within.execRequestGiveUp {corr} (h : Within ps s₀ s) (htenants : ps .tenantRecs = true := by assumption) :
    Leads ps s₀ (execRequestGiveUp corr s) := by
  refine Within.next ?_
  split
  · exact h
  · exact h.stamp.givenUp

protected theorem Within.forgetAnswer {p corr} (h : Within ps s₀ s) : Within ps s₀ (forgetAnswer p corr s) := by
  fun_cases forgetAnswer p corr s
  · exact h.stamp.same
  · exact h

protected theorem Within.execAnswerExpiry {peer corr} (h : Within ps s₀ s) : Leads ps s₀
    (execAnswerExpiry peer corr s) := h.forgetAnswer.next

protected theorem Within.outcomeState {o} (h : Within ps s₀ s) (ho : Leads ps s₀ o) : Within ps s₀ (outcomeState s o) := by
  fun_cases outcomeState s o
  · exact ho _ rfl
  · exact h

protected theorem Within.runMessage {i} (h : Within ps s₀ s) (htenants : ps .tenantRecs = true := by assumption)
    (hcellar : ps .cellarBytes = true := by assumption) :
    Within ps s₀ (runMessage s i) := by
  fun_cases runMessage s i
  · exact h.outcomeState h.execMLookup
  · exact h.outcomeState h.execMLookupAns
  · exact h.outcomeState h.execMLeaseRenew
  · exact h.outcomeState h.execMLeaseAns
  · exact h.outcomeState h.execMRevoke
  · exact h.outcomeState h.execMRevokeAck
  · exact h.outcomeState h.execMHoldRelease
  · exact h.outcomeState h.execMFetchReq
  · exact h.outcomeState h.execMFetchData
  · exact h.outcomeState h.execMFetchEnd
  · exact h.outcomeState h.execMFarOpen
  · exact h.outcomeState h.execMFarOpenAns
  · exact h.outcomeState h.execMFarRows
  · exact h.outcomeState h.execMFarSum
  · exact h.outcomeState h.execMFarLate
  · exact h.outcomeState h.execMFarClose
  · exact h.outcomeState h.execMFarCancel
  · exact h.outcomeState h.execMRackOpen
  · exact h.outcomeState h.execMRackOpenAns
  · exact h.outcomeState h.execMRackData
  · exact h.outcomeState h.execMRackPrepare
  · exact h.outcomeState h.execMRackReady
  · exact h.outcomeState h.execMRackAbort
  · exact h.outcomeState h.execMHomeChange
  · exact h.outcomeState h.execMHomeAck
  · exact h.outcomeState h.execMDirUpdate
  · exact h.outcomeState h.execMDirAck
  · exact h.outcomeState h.execMPublishFwd
  · exact h.outcomeState h.execMPublishAns
  · exact h.outcomeState h.execMEpochRelease
  · exact h.outcomeState h.execMLend
  · exact h.outcomeState h.execMLendAck
  · exact h.outcomeState h.execMRecall
  · exact h.outcomeState h.execMRecallAns
  · exact h.outcomeState h.execMT3Read
  · exact h.outcomeState h.execMT3Data
  · exact h.outcomeState h.execMT3Write
  · exact h

protected theorem Within.runMessages (h : Within ps s₀ s) (htenants : ps .tenantRecs = true := by assumption)
    (hcellar : ps .cellarBytes = true := by assumption) :
    Within ps s₀ (runMessages s) := h.same.foldl fun k _ => k.runMessage

/-! ### LogBook -/

protected theorem Within.writeCopy {bank index bs good} (h : Within ps s₀ s) : Within ps s₀ (writeCopy s bank index bs good) := by
  fun_cases writeCopy s bank index bs good
  · exact h
  · exact h.same.ite h.same
  · exact (h.same.ite h.same).bumpFree.stampRaise

protected theorem Within.writeBoth {index bs ok0 ok1} (h : Within ps s₀ s) : Within ps s₀
    (writeBoth s index bs ok0 ok1) := h.writeCopy.writeCopy

protected theorem Within.appendFirst {r ok0 ok1} (h : Within ps s₀ s) : Within ps s₀ (appendFirst s r ok0 ok1) := by
  fun_cases appendFirst s r ok0 ok1
  · exact h
  · exact h.same.writeBoth
  · exact h
  · exact h.same.stampRaise

protected theorem Within.reportDrops (h : Within ps s₀ s) : Within ps s₀ (reportDrops s) := by
  fun_cases reportDrops s
  · exact h
  · exact h.stamp.same.logNow

protected theorem Within.logAppend {ok0 ok1} (h : Within ps s₀ s) : Within ps s₀ (logAppend ok0 ok1 s) := by
  fun_cases logAppend ok0 ok1 s
  · exact h
  · exact h
  · exact h.same.writeBoth.appendFirst.reportDrops

protected theorem Within.execLogAppend {ok0 ok1} (h : Within ps s₀ s) : Leads ps s₀ (execLogAppend ok0 ok1 s) := h.logAppend.next

protected theorem Within.logSelect {v} (h : Within ps s₀ s) (hregs : ps .regs = true := by assumption) :
    Within ps s₀ (logSelect v s) := h.storeReg.same

protected theorem Within.execLogSelWrite {value role} (h : Within ps s₀ s) (hregs : ps .regs = true := by assumption) :
    Leads ps s₀ (execLogSelWrite value role s) :=
  (h.busWrite (fun k => k.logSelect)).next

protected theorem Within.ffClearStart {v} (h : Within ps s₀ s) (hregs : ps .regs = true := by assumption) :
    Within ps s₀ (ffClearStart v s) := h.storeReg.same

protected theorem Within.execFfClear {value role} (h : Within ps s₀ s) (hregs : ps .regs = true := by assumption) :
    Leads ps s₀ (execFfClear value role s) :=
  (h.busWrite (fun k => k.ffClearStart)).next

protected theorem Within.ffClearDone (h : Within ps s₀ s) : Within ps s₀ (ffClearDone s) := by
  fun_cases ffClearDone s
  · exact h
  · exact h.stamp.same.logNow

protected theorem Within.execFfClearDone (h : Within ps s₀ s) : Leads ps s₀ (execFfClearDone s) := h.ffClearDone.next

protected theorem Within.logbookRead {index bank} (h : Within ps s₀ s) : Within ps s₀ (logbookRead index bank s) := h.emit.same

protected theorem Within.execLogbookRead {index bank} (h : Within ps s₀ s) : Leads ps s₀
    (execLogbookRead index bank s) := h.logbookRead.next

protected theorem Within.resumeGauger {warm} (h : Within ps s₀ s) : Within ps s₀ (resumeGauger s warm) := by
  unfold resumeGauger
  exact h.reserveBlock.stamp.logNow

/-! ### Resets -/

protected theorem Within.warmClear (h : Within ps s₀ s) (hclears : Clears ps := by assumption) : Within ps s₀ (warmClear s) :=
  h.trans (.of_clears hclears rfl rfl rfl rfl)

protected theorem Within.coldClear (h : Within ps s₀ s) (hclears : Clears ps := by assumption) : Within ps s₀ (coldClear s) :=
  h.trans (.of_clears hclears rfl rfl rfl rfl)

protected theorem Within.requestCold {cause} (h : Within ps s₀ s) : Within ps s₀ (requestCold s cause) := h.same

protected theorem Within.requestWarm {cause} (h : Within ps s₀ s) : Within ps s₀ (requestWarm s cause) := by
  fun_cases requestWarm s cause
  · exact h
  · exact h.same

protected theorem Within.startFailed {code} (h : Within ps s₀ s) : Within ps s₀ (startFailed s code) := by
  unfold startFailed
  extract_lets _ s1 _
  have h1 : Within ps s₀ s1 := h.same
  exact h1.logNow.raise

protected theorem Within.levelSeven {id source first} (h : Within ps s₀ s) : Within ps s₀
    (levelSeven s id source first) := h.enterLevel.requestWarm

protected theorem Within.startSeven {source} (h : Within ps s₀ s) : Within ps s₀ (startSeven s source) := by
  fun_cases startSeven s source
  · exact h.levelSeven
  · exact h
  · exact h.newFault.levelSeven

protected theorem Within.setPair {p st} (h : Within ps s₀ s) (hrepair : ps .repair = true := by assumption) :
    Within ps s₀ (setPair s p st) := by
  fun_cases setPair s p st
  · exact h
  · exact h.repair_put.raise

protected theorem Within.restartPair {p st} (h : Within ps s₀ s) (hrepair : ps .repair = true := by assumption) :
    Within ps s₀ (restartPair s p st) := h.setPair.repair_put

/-! ### Starts -/

protected theorem Within.applyMap (h : Within ps s₀ s) (hrepair : ps .repair = true := by assumption) :
    Within ps s₀ (applyMap s) :=
  h.trans { repair := listed hrepair }

protected theorem Within.compactMap (h : Within ps s₀ s) (hrepair : ps .repair = true := by assumption) :
    Within ps s₀ (compactMap s) := by
  fun_cases compactMap s
  · exact h
  · exact h.repair_put

protected theorem Within.logMapBad {i} (h : Within ps s₀ s) : Within ps s₀ (logMapBad s i) := h.logNow

protected theorem Within.readCopies {r} (h : Within ps s₀ s) (hrepair : ps .repair = true := by assumption) :
    Within ps s₀ (readCopies s r) := by
  unfold readCopies
  extract_lets _ s1
  have h1 : Within ps s₀ s1 := h.repair_put
  exact h1.foldl fun k _ => k.logMapBad

protected theorem Within.loadPairs (h : Within ps s₀ s) (hrepair : ps .repair = true := by assumption) :
    Within ps s₀ (loadPairs s) := h.repair_put

protected theorem Within.startTun {bad acc n} (h : Within ps s₀ acc.1) : Within ps s₀ (startTun s bad acc n).1 := by
  fun_cases startTun s bad acc n <;> exact h.setTun.setTunState

protected theorem Within.startTuns {bad} (h : Within ps s₀ s) : Within ps s₀ (startTuns s bad) :=
  (Within.foldl_fst (p := (s, 0)) h fun k _ => k.startTun).raise

protected theorem Within.startRegion {die region t} (h : Within ps s₀ s) (ht : startRegion s die region = some t)
    (hrepair : ps .repair = true := by assumption) :
    Within ps s₀ t := by
  revert ht
  fun_cases startRegion s die region <;> rintro ⟨⟩
  · exact h
  · exact h.appendMap

protected theorem Within.startRow {die bank row t} (h : Within ps s₀ s) (ht : startRow s die bank row = some t)
    (hrepair : ps .repair = true := by assumption) :
    Within ps s₀ t := by
  revert ht
  fun_cases startRow s die bank row
  · rintro ⟨⟩
    exact h
  · rintro ⟨⟩
    exact h.appendMap
  · exact h.startRegion

protected theorem Within.startCellar {rows regions t} (h : Within ps s₀ s) (ht : startCellar s rows regions = some t)
    (hrepair : ps .repair = true := by assumption) (hcellar : ps .cellarBytes = true := by assumption) :
    Within ps s₀ t := by
  obtain ⟨u, hu, rfl⟩ := Option.map_eq_some_iff.mp ht
  have h2 : Within ps s₀ u := .foldl_bind (.foldl_bind h.of_some fun k _ => k.startRow) (fun k _ => k.startRegion) hu
  exact h2.trans { cellarBytes := listed hcellar }

protected theorem Within.beginMount (h : Within ps s₀ s) : Within ps s₀ (beginMount s) := by
  unfold beginMount
  extract_lets _ s1 _ s2
  have h1 : Within ps s₀ s1 := h.same
  have h2 : Within ps s₀ s2 := h1.same
  exact h2.setKilnPhase

protected theorem Within.lostAtMount (h : Within ps s₀ s) : Within ps s₀ (lostAtMount s) := by
  fun_cases lostAtMount s
  · exact h
  · exact h.same.logNow.raise

protected theorem Within.acceptDevices {r} (h : Within ps s₀ s) (hrepair : ps .repair = true := by assumption) :
    Within ps s₀ (acceptDevices s r) :=
  ((h.foldl fun k _ => k.issueFlash).foldl fun k _ => k.appendMap).same

protected theorem Within.readMedium {r} (h : Within ps s₀ s) : Within ps s₀ (readMedium s r) := by
  unfold readMedium
  extract_lets _ _ _ _ s1
  have h1 : Within ps s₀ s1 := h.same
  exact h1.foldl fun k _ => k.startErase

protected theorem Within.mountKiln {r t} (h : Within ps s₀ s) (ht : mountKiln s r = some t) (hrepair : ps .repair = true := by assumption) :
    Within ps s₀ t := by
  revert ht
  fun_cases mountKiln s r
  · rintro ⟨⟩
  case case2 s1 _ page data blank s2 s3 s4 =>
    rintro ⟨⟩
    have h1 : Within ps s₀ s1 := h.acceptDevices
    have h2 : Within ps s₀ s2 := h1.lostAtMount
    have h3 : Within ps s₀ s3 := h2.same
    exact h3.readMedium.setKilnPhase

protected theorem Within.rebuildDirectory {fresh} (h : Within ps s₀ s) : Within ps s₀ (rebuildDirectory s fresh) := h.same

protected theorem Within.becomeReady (h : Within ps s₀ s) : Within ps s₀ (becomeReady s) := by
  unfold becomeReady
  extract_lets _ s1 _ s2 _
  have h1 : Within ps s₀ s1 := h.same
  have h2 : Within ps s₀ s2 := by
    unfold s2
    split
    · exact h1
    · exact h1.same.leaveSingleHome
  exact h2.raise.endFault.pinAdmits.refreshHolds.seekKept

protected theorem Within.servePairs (h : Within ps s₀ s) (hrepair : ps .repair = true := by assumption) :
    Within ps s₀ (servePairs s) := h.foldl fun k _ => k.setPair

protected theorem Within.startCounts {glob lastCause loadPair pubValid p c} (h : Within ps s₀ s) :
    Within ps s₀ { s with
      glob, boundary := { s.boundary with lastCause }, keys := { s.keys with loadPair, pubValid }
      log := { s.log with powerOnCount := p, crcFails := c } } :=
  h.same

protected theorem Within.coldStart (h : Within ps s₀ s) (hclears : Clears ps := by assumption) : Within ps s₀ (coldStart s) := by
  have hpace : ps .pace = true := hclears _ rfl
  unfold coldStart
  split
  · exact h
  · extract_lets cause s1 _ _ _ _ s2
    have h1 : Within ps s₀ s1 := h.coldClear.capEvent
    clear_value s1
    have h2 : Within ps s₀ s2 := h1.startCounts
    exact h2.bumpFree.resumeGauger

protected theorem Within.execColdStart (h : Within ps s₀ s) (hclears : Clears ps := by assumption) :
    Leads ps s₀ (execColdStart s) := h.coldStart.next

protected theorem Within.toStep {n} (h : Within ps s₀ s) : Within ps s₀ (toStep s n) := h.same

protected theorem Within.enterSeven (h : Within ps s₀ s) : Within ps s₀ (enterSeven s) := by
  fun_cases enterSeven s
  · exact h.toStep.beginMount
  · exact h.toStep.same

protected theorem Within.coldStepDone {r} (h : Within ps s₀ s) (hrepair : ps .repair = true := by assumption)
    (hcellar : ps .cellarBytes = true := by assumption) :
    Within ps s₀ (coldStepDone s r) := by
  fun_cases coldStepDone s r
  · exact h.toStep
  · exact h.toStep
  · exact h.readCopies.loadPairs.compactMap.applyMap.servePairs.toStep
  · exact h.same.toStep
  · exact h.startTuns.toStep
  · exact (h.startCellar ‹_›).enterSeven
  · exact h.startFailed
  · exact (h.mountKiln ‹_›).toStep
  · exact h.startFailed
  · exact h.rebuildDirectory.toStep
  · exact h.becomeReady
  · exact h

protected theorem Within.startStepComplete {r} (h : Within ps s₀ s) (hrepair : ps .repair = true := by assumption)
    (hcellar : ps .cellarBytes = true := by assumption) :
    Within ps s₀ (startStepComplete r s) := by
  fun_cases startStepComplete r s
  · exact h
  · exact h.stamp.same.startFailed
  · exact h
  · exact h
  · exact h.stamp.coldStepDone

protected theorem Within.execStartStepComplete {result} (h : Within ps s₀ s) (hrepair : ps .repair = true := by assumption)
    (hcellar : ps .cellarBytes = true := by assumption) :
    Leads ps s₀ (execStartStepComplete result s) :=
  h.startStepComplete.next

protected theorem Within.execStartupTimeout (h : Within ps s₀ s) : Leads ps s₀ (execStartupTimeout s) := (h.stamp.startFailed.ite h).next

protected theorem Within.configDoneSet {v} (h : Within ps s₀ s) (hregs : ps .regs = true := by assumption) :
    Within ps s₀ (configDoneSet v s) := by
  fun_cases configDoneSet v s
  · exact h.storeReg.beginMount
  · exact h.storeReg

protected theorem Within.execConfigDoneWrite {value role} (h : Within ps s₀ s) (hregs : ps .regs = true := by assumption) :
    Leads ps s₀ (execConfigDoneWrite value role s) :=
  (h.busWrite (fun k => k.configDoneSet)).next

protected theorem Within.warmCtx {c} (h : Within ps s₀ s) : Within ps s₀ (warmCtx s c) := by
  fun_cases warmCtx s c
  · exact h
  · exact h.stamp.resetCtx

protected theorem Within.warmBegin {cause} (h : Within ps s₀ s) : Within ps s₀ (warmBegin s cause) := by
  unfold warmBegin
  extract_lets _ _ s1 _
  have h1 : Within ps s₀ s1 := h.same
  exact (h1.foldl fun k _ => k.warmCtx).foldl fun k _ => k.clearWork.releaseGyle

protected theorem Within.warmReset (h : Within ps s₀ s) : Within ps s₀ (warmReset s) := by
  fun_cases warmReset s
  · exact h
  · exact h
  · exact h.stamp.warmBegin

protected theorem Within.execWarmReset (h : Within ps s₀ s) : Leads ps s₀ (execWarmReset s) := h.warmReset.next

protected theorem Within.abortErases (h : Within ps s₀ s) : Within ps s₀ (abortErases s) := h.foldl fun k _ => k.issueFlash

protected theorem Within.closeWith {k} (h : Within ps s₀ s) : Within ps s₀ (closeWith s k) := by
  unfold closeWith
  split
  · exact h
  · extract_lets s1
    have h1 : Within ps s₀ s1 := h.foldl fun k _ => k.stamp.writeTensor
    exact (h1.ite h1.stamp.putRecord).markHeld

protected theorem Within.closeMoved (h : Within ps s₀ s) : Within ps s₀ (closeMoved s) := h.foldl fun k _ => k.backToT4

protected theorem Within.kilnClosed {p dirty} (h : Within ps s₀ s) :
    Within ps s₀ { s with
      train := { s.train with dirty }, kiln := { s.kiln with pending := p, ckptRunning := none, opened := false } } :=
  h.same

protected theorem Within.closeKiln (h : Within ps s₀ s) : Within ps s₀ (closeKiln s) := by
  unfold closeKiln
  extract_lets todo s1 _ s2 _ _ s3
  have h1 : Within ps s₀ s1 := (h.abortErases.closeMoved.foldl fun k _ => k.closeWith).stamp
  clear_value s1
  have h2 : Within ps s₀ s2 := h1.kilnPending.journalPut
  clear_value s2
  have h3 : Within ps s₀ s3 := h2.kilnClosed
  exact h3.setKilnPhase

protected theorem Within.toWarm {n} (h : Within ps s₀ s) : Within ps s₀ (toWarm s n) := h.same

protected theorem Within.warmClose (h : Within ps s₀ s) : Within ps s₀ (warmClose s) := by
  fun_cases warmClose s
  · exact h.closeKiln
  · exact h

protected theorem Within.warmStepComplete {r} (h : Within ps s₀ s) (hclears : Clears ps := by assumption) :
    Within ps s₀ (warmStepComplete r s) := by
  have hpace : ps .pace = true := hclears _ rfl
  have hrepair : ps .repair = true := hclears _ rfl
  have hcellar : ps .cellarBytes = true := hclears _ rfl
  fun_cases warmStepComplete r s
  · exact h
  · exact h.stamp.toWarm
  · exact h
  · exact h.stamp.warmClose.warmClear.capEvent.resumeGauger.toWarm
  · exact h.stamp.readCopies.loadPairs.applyMap.servePairs.toWarm
  · exact h
  · exact h.stamp.startTuns.toWarm
  · exact (h.stamp.startCellar ‹_› hrepair hcellar).beginMount.toWarm
  · exact h
  · exact (h.stamp.mountKiln ‹_› hrepair).toWarm
  · exact h
  · exact h.stamp.rebuildDirectory.toWarm
  · exact h.stamp.becomeReady

protected theorem Within.execWarmStepComplete {result} (h : Within ps s₀ s) (hclears : Clears ps := by assumption) :
    Leads ps s₀ (execWarmStepComplete result s) := h.warmStepComplete.next

protected theorem Within.execBlockWarmResetCmd {role} (h : Within ps s₀ s) : Leads ps s₀ (execBlockWarmResetCmd role s) :=
  (h.busWrite (fun k => k.requestWarm)).next

protected theorem Within.execBlockColdResetCmd {role} (h : Within ps s₀ s) : Leads ps s₀ (execBlockColdResetCmd role s) :=
  (h.busWrite (fun k => k.requestCold)).next

protected theorem Within.execRstWarmRequest (h : Within ps s₀ s) : Leads ps s₀ (execRstWarmRequest s) := (h.ite h.stamp.requestWarm).next

protected theorem Within.pwrGoodRise (h : Within ps s₀ s) : Within ps s₀ (pwrGoodRise s) := by
  fun_cases pwrGoodRise s
  · exact h
  · exact h.same
  · exact h.same.requestCold

protected theorem Within.execPwrGoodRise (h : Within ps s₀ s) : Leads ps s₀ (execPwrGoodRise s) := h.pwrGoodRise.next

protected theorem Within.pwrGoodFall (h : Within ps s₀ s) (hclears : Clears ps := by assumption) :
    Within ps s₀ (pwrGoodFall s) := by
  have hpace : ps .pace = true := hclears _ rfl
  unfold pwrGoodFall
  split
  · exact h
  · exact h.coldClear.capEvent.same

protected theorem Within.execPwrGoodFall (h : Within ps s₀ s) (hclears : Clears ps := by assumption) :
    Leads ps s₀ (execPwrGoodFall s) := h.pwrGoodFall.next

protected theorem Within.rstColdAssert (h : Within ps s₀ s) (hclears : Clears ps := by assumption) :
    Within ps s₀ (rstColdAssert s) := by
  have hpace : ps .pace = true := hclears _ rfl
  unfold rstColdAssert
  split
  · exact h
  · exact h.coldClear.capEvent.same

protected theorem Within.execRstColdAssert (h : Within ps s₀ s) (hclears : Clears ps := by assumption) :
    Leads ps s₀ (execRstColdAssert s) := h.rstColdAssert.next

protected theorem Within.rstColdRelease (h : Within ps s₀ s) : Within ps s₀ (rstColdRelease s) := by
  fun_cases rstColdRelease s
  · exact h
  · exact h.same.requestCold
  · exact h.same

protected theorem Within.execRstColdRelease (h : Within ps s₀ s) : Leads ps s₀ (execRstColdRelease s) := h.rstColdRelease.next

/-! ### Upkeep -/

protected theorem Within.resetAndTest {t step} (h : Within ps s₀ s) : Within ps s₀ (resetAndTest s t step) := by
  unfold resetAndTest
  extract_lets
  exact h.setTunState.stamp.setTunState.modTun

protected theorem Within.execTunReadmit {t role} (h : Within ps s₀ s) : Leads ps s₀ (execTunReadmit t role s) :=
  (h.busWrite (fun k => k.resetAndTest)).next

protected theorem Within.spareLanes {t bad pairs} (h : Within ps s₀ s) (hrepair : ps .repair = true := by assumption) :
    Within ps s₀ (spareLanes s t bad pairs) :=
  (h.foldl fun k _ => k.appendMap).foldl fun k _ => k.appendMap

protected theorem Within.stayFenced {t} (h : Within ps s₀ s) : Within ps s₀ (stayFenced s t) := h.modTun.setTunState

protected theorem Within.retireTun {t} (h : Within ps s₀ s) (hrepair : ps .repair = true := by assumption) :
    Within ps s₀ (retireTun s t) := h.appendMap.stayFenced

protected theorem Within.passTun {t} (h : Within ps s₀ s) : Within ps s₀ (passTun s t) := by
  fun_cases passTun s t
  · exact h.modTun.enterSpare
  · exact h.modTun.enterSpare.raise

protected theorem Within.diagnose {t found} (h : Within ps s₀ s) (hrepair : ps .repair = true := by assumption) :
    Within ps s₀ (diagnose s t found) := by
  fun_cases diagnose s t found
  · exact h.stayFenced
  · exact h.retireTun
  · exact h.passTun
  · exact h.spareLanes.resetAndTest

protected theorem Within.bistDone {t found} (h : Within ps s₀ s) (hrepair : ps .repair = true := by assumption) :
    Within ps s₀ (bistDone t found s) := by
  fun_cases bistDone t found s
  · exact h
  · exact h.stamp.passTun
  · exact h.stamp.fenceTun
  · exact h.stamp.diagnose
  · exact h.stamp.passTun
  · exact h.stamp.stayFenced

protected theorem Within.execTunBistDone {t found} (h : Within ps s₀ s) (hrepair : ps .repair = true := by assumption) :
    Leads ps s₀ (execTunBistDone t found s) := h.bistDone.next

protected theorem Within.beginRemap {die region fault} (h : Within ps s₀ s) (hrepair : ps .repair = true := by assumption) :
    Within ps s₀ (beginRemap s die region fault) := by
  fun_cases beginRemap s die region fault
  · exact h.repair_put
  · exact h.repair_put
  · exact h

protected theorem Within.nextRemap (h : Within ps s₀ s) (hrepair : ps .repair = true := by assumption) :
    Within ps s₀ (nextRemap s) := by
  fun_cases nextRemap s
  · exact h
  · exact h
  · exact h.repair_put.beginRemap

protected theorem Within.levelFive {die region source} (h : Within ps s₀ s) (hrepair : ps .repair = true := by assumption) :
    Within ps s₀ (levelFive s die region source) := by
  fun_cases levelFive s die region source
  · exact h
  · exact h.startFault.levelSeven
  · exact h.startFault.beginRemap

protected theorem Within.execRepairRemap {die region role} (h : Within ps s₀ s) (hregs : ps .regs = true := by assumption)
    (hrepair : ps .repair = true := by assumption) :
    Leads ps s₀ (execRepairRemap die region role s) :=
  (h.busWrite (fun k => k.storeReg.beginRemap)).next

protected theorem Within.remapOver {r} (h : Within ps s₀ s) (hrepair : ps .repair = true := by assumption) :
    Within ps s₀ (remapOver s r) := by
  unfold remapOver
  extract_lets s1 _ _ s2
  have h1 : Within ps s₀ s1 := h.leaveRegion
  have h2 : Within ps s₀ s2 := h1.trans { repair := listed hrepair }
  exact h2.endFault.nextRemap

protected theorem Within.remapStep {found} (h : Within ps s₀ s) (hrepair : ps .repair = true := by assumption) :
    Within ps s₀ (remapStep found s) := by
  fun_cases remapStep found s
  · exact h
  · exact h
  · exact h.stamp.repair_put.repair_put.enterRegion.repair_put.ite h.stamp.repair_put.repair_put.enterRegion
  · exact h.stamp.repair_put.quietRegion.repair_put.ite h.stamp.repair_put.quietRegion
  · exact h.stamp.repair_put.copyRegion.repair_put.ite h.stamp.repair_put.copyRegion
  · exact h.stamp.repair_put.refillRegion.replaySlices.appendMap.repair_put.ite h.stamp.repair_put.refillRegion.replaySlices.appendMap
  · exact h.stamp.remapOver
  · exact h.stamp.repair_put.repair_put.ite h.stamp.repair_put

protected theorem Within.execRegionRemapStepDone {found} (h : Within ps s₀ s) (hrepair : ps .repair = true := by assumption) :
    Leads ps s₀ (execRegionRemapStepDone found s) := h.remapStep.next

protected theorem Within.modFw {f} (h : Within ps s₀ s) (hrepair : ps .repair = true := by assumption) :
    Within ps s₀ (modFw s f) := h.repair_put

protected theorem Within.updateRestart {p version} (h : Within ps s₀ s) (hrepair : ps .repair = true := by assumption) :
    Within ps s₀ (updateRestart s p version) := h.modFw.restartPair.logNow

protected theorem Within.endActivation {status} (h : Within ps s₀ s) (hrepair : ps .repair = true := by assumption) :
    Within ps s₀ (endActivation s status) := h.modFw

protected theorem Within.commitFirmware (h : Within ps s₀ s) (hrepair : ps .repair = true := by assumption) :
    Within ps s₀ (commitFirmware s) := h.appendMap.modFw.endActivation.raise

protected theorem Within.nextFw (h : Within ps s₀ s) (hrepair : ps .repair = true := by assumption) :
    Within ps s₀ (nextFw s) := by
  fun_cases nextFw s
  · exact h
  · exact h.endActivation
  · exact h.endActivation
  · exact h.modFw.updateRestart
  · exact h.commitFirmware
  · exact h.modFw.updateRestart

protected theorem Within.pairBack {p} (h : Within ps s₀ s) (hrepair : ps .repair = true := by assumption)
    (htenants : ps .tenantRecs = true := by assumption) (hcellar : ps .cellarBytes = true := by assumption) :
    Within ps s₀ (pairBack s p) := by
  fun_cases pairBack s p
  · exact h.nextRemap
  · exact h.runMessages
  · exact h

protected theorem Within.levelSix {p source} (h : Within ps s₀ s) (hrepair : ps .repair = true := by assumption) :
    Within ps s₀ (levelSix s p source) := by
  fun_cases levelSix s p source
  · exact h
  · exact (h.startFault.modFw.ite h.startFault).restartPair

protected theorem Within.pairRestartDone {p passed} (h : Within ps s₀ s) (hrepair : ps .repair = true := by assumption)
    (htenants : ps .tenantRecs = true := by assumption) (hcellar : ps .cellarBytes = true := by assumption) :
    Within ps s₀ (pairRestartDone p passed s) := by
  fun_cases pairRestartDone p passed s
  · exact h
  · exact h.stamp.setPair.endFault.pairBack.nextFw
  · exact h
  · exact h.stamp.modFw.setPair.pairBack.nextFw
  · exact h.stamp.modFw.updateRestart
  · exact h

protected theorem Within.execPairRestartDone {pair passed} (h : Within ps s₀ s) (hrepair : ps .repair = true := by assumption)
    (htenants : ps .tenantRecs = true := by assumption) (hcellar : ps .cellarBytes = true := by assumption) :
    Leads ps s₀ (execPairRestartDone pair passed s) :=
  h.pairRestartDone.next

protected theorem Within.fwStageStart {bytes} (h : Within ps s₀ s) (hregs : ps .regs = true := by assumption)
    (hrepair : ps .repair = true := by assumption) :
    Within ps s₀ (fwStageStart bytes s) := h.storeReg.modFw

protected theorem Within.execFwStage {bytes role} (h : Within ps s₀ s) (hregs : ps .regs = true := by assumption)
    (hrepair : ps .repair = true := by assumption) :
    Leads ps s₀ (execFwStage bytes role s) :=
  (h.busWrite (fun k => k.fwStageStart)).next

protected theorem Within.fwStageDone {i} (h : Within ps s₀ s) (hrepair : ps .repair = true := by assumption) :
    Within ps s₀ (fwStageDone i s) := by
  fun_cases fwStageDone i s
  · exact h
  · exact h.stamp.modFw

protected theorem Within.execFwStageDone {image} (h : Within ps s₀ s) (hrepair : ps .repair = true := by assumption) :
    Leads ps s₀ (execFwStageDone image s) := h.fwStageDone.next

protected theorem Within.fwActivateStart {bytes} (h : Within ps s₀ s) (hregs : ps .regs = true := by assumption)
    (hrepair : ps .repair = true := by assumption) :
    Within ps s₀ (fwActivateStart bytes s) := h.storeReg.modFw.nextFw

protected theorem Within.execFwActivate {bytes role} (h : Within ps s₀ s) (hregs : ps .regs = true := by assumption)
    (hrepair : ps .repair = true := by assumption) :
    Leads ps s₀ (execFwActivate bytes role s) :=
  (h.busWrite (fun k => k.fwActivateStart)).next

protected theorem Within.ageLimit {g} (h : Within ps s₀ s) (hrepair : ps .repair = true := by assumption) :
    Within ps s₀ (ageLimit s g) := by
  fun_cases ageLimit s g
  · exact h.raise.fenceTun.appendMap
  · exact h
  · exact h.repair_put.raise

protected theorem Within.ageMeasure {g margin} (h : Within ps s₀ s) (hrepair : ps .repair = true := by assumption) :
    Within ps s₀ (ageMeasure g margin s) := by
  fun_cases ageMeasure g margin s
  · exact h
  · exact h.stamp.repair_put
  · exact h.stamp.repair_put.ageLimit
  · exact h.stamp.repair_put.appendMap.repair_put

protected theorem Within.execAgeMonitorMeasure {group margin} (h : Within ps s₀ s) (hrepair : ps .repair = true := by assumption) :
    Leads ps s₀ (execAgeMonitorMeasure group margin s) :=
  h.ageMeasure.next

/-! ### Integrity -/

protected theorem Within.levelFourAll {cs id source first} (h : Within ps s₀ s) : Within ps s₀ (levelFourAll s cs id source first) :=
  h.foldl fun k _ => k.levelFour

protected theorem Within.portWatchdog {p again} (h : Within ps s₀ s) : Within ps s₀ (portWatchdog s p again) := by
  unfold portWatchdog
  extract_lets _ _ _ _ s1
  have h1 : Within ps s₀ s1 := by
    unfold s1
    split
    · exact h.startFault.levelFourAll
    · exact h.startFault.foldl fun k _ => k.rerunNow
  exact h1.endFault

protected theorem Within.memWatchdog {p} (h : Within ps s₀ s) : Within ps s₀ (memWatchdog s p) := by
  fun_cases memWatchdog s p
  · exact h
  · exact h.stamp.startFault.dropReq.modMem.issueReq.endPortFault
  · exact h.stamp.startFault.dropReq.dropXfer.levelFourAll.endPortFault.retryWaiting

protected theorem Within.cellarWatchdog {die regions again} (h : Within ps s₀ s) (hrepair : ps .repair = true := by assumption) :
    Within ps s₀ (cellarWatchdog s die regions again) := by
  fun_cases cellarWatchdog s die regions again
  · exact h.startSeven
  · exact h.foldl fun k _ => k.levelFive

protected theorem Within.tunFails {t source readable} (h : Within ps s₀ s) : Within ps s₀ (tunFails s t source readable) := by
  fun_cases tunFails s t source readable
  · exact h
  · exact h.stamp.fenceTun
  · exact (h.stamp.startFault.foldl fun k _ => k.rerunNow).fenceTun

protected theorem Within.portWordLost {p c num} (h : Within ps s₀ s) : Within ps s₀
    (portWordLost s p c num) := h.stamp.startFault.rerunNow.endFault

protected theorem Within.gristWordLost (h : Within ps s₀ s) : Within ps s₀ (gristWordLost s) := h.stamp.startFault.endFault

protected theorem Within.stampRefused (h : Within ps s₀ s) : Within ps s₀ (stampRefused s) := by
  fun_cases stampRefused s
  · exact h.same.stamp.startFailed
  · exact h.same.startSeven
  · exact h.same

protected theorem Within.countSram {corrected} (h : Within ps s₀ s) : Within ps s₀ (countSram s corrected) := by
  fun_cases countSram s corrected <;> exact h.same

protected theorem Within.watchdogFire {group again} (h : Within ps s₀ s) (hrepair : ps .repair = true := by assumption) :
    Within ps s₀ (watchdogFire group again s) := by
  fun_cases watchdogFire group again s
  · exact h.stampRefused
  · exact h
  · exact h.tunFails
  · exact h.stamp.portWatchdog
  · exact h.memWatchdog
  · exact h.deviceTimeout
  · exact h.stamp.cellarWatchdog
  · exact h.stamp.startSeven
  · exact h.stamp.startSeven
  · exact h.stamp.startSeven
  · exact h.stamp.levelSix
  · exact h.stamp.levelSix
  · exact h
  · exact h.stamp.countSram
  · exact h.countSram.tunFails
  · exact h.countSram.portWordLost
  · exact h.countSram.gristWordLost
  · exact h.countSram.stamp.levelSix

protected theorem Within.execWatchdogFire {group again} (h : Within ps s₀ s) (hrepair : ps .repair = true := by assumption) :
    Leads ps s₀ (execWatchdogFire group again s) := h.watchdogFire.next

protected theorem Within.escalateTwo {f} (h : Within ps s₀ s) : Within ps s₀ (escalateTwo s f) := by
  fun_cases escalateTwo s f
  · exact h
  · exact h.stamp.fenceTun
  · exact h.stamp.enterLevel.fenceTun

protected theorem Within.escalateThree {f} (h : Within ps s₀ s) : Within ps s₀ (escalateThree s f) := by
  fun_cases escalateThree s f
  · exact h
  · exact h.stamp.levelFourAll.replayDone

protected theorem Within.stopBlock (h : Within ps s₀ s) (hrepair : ps .repair = true := by assumption) :
    Within ps s₀ (stopBlock s) := by
  fun_cases stopBlock s
  · exact h
  · exact (h.stamp.same.foldl fun k _ => k.setPair).raise

protected theorem Within.budgetExpiry {id} (h : Within ps s₀ s) (hrepair : ps .repair = true := by assumption) :
    Within ps s₀ (budgetExpiry id s) := by
  fun_cases budgetExpiry id s
  · exact h.stopBlock
  · exact h.startSeven
  · exact h
  · exact h
  · exact h
  · exact h.stamp.levelSeven
  · exact h.escalateTwo
  · exact h.escalateThree
  · exact h
  · exact h.stamp.levelSeven
  · exact h
  · exact h.stamp.levelSeven
  · exact h
  · exact h.stamp.levelSeven
  · exact h.stopBlock
  · exact h

protected theorem Within.execBudgetExpiry {fault} (h : Within ps s₀ s) (hrepair : ps .repair = true := by assumption) :
    Leads ps s₀ (execBudgetExpiry fault s) := h.budgetExpiry.next

protected theorem Within.nextScrub (h : Within ps s₀ s) : Within ps s₀ (nextScrub s) := h.same

protected theorem Within.spareRow {die bank row} (h : Within ps s₀ s) (hrepair : ps .repair = true := by assumption) :
    Within ps s₀ (spareRow s die bank row) := by
  fun_cases spareRow s die bank row
  · exact h.same.appendMap
  · exact h.same.logNow.levelFive

protected theorem Within.correctWord {addr} (h : Within ps s₀ s) (hrepair : ps .repair = true := by assumption) :
    Within ps s₀ (correctWord s addr) := by
  fun_cases correctWord s addr
  · exact h.same.spareRow
  · exact h.same

protected theorem Within.uncorrectableWord {addr place} (h : Within ps s₀ s) (hrepair : ps .repair = true := by assumption) :
    Within ps s₀ (uncorrectableWord s addr place) := by
  fun_cases uncorrectableWord s addr place
  · exact h.same.logNow.losePlace.levelFive
  · exact h.same.logNow.losePlace

/-- Only a read that meets errors acts on the repair unit. -/
protected theorem Within.meetErrors {errors event} (hevent : ∀ {t}, Within ps s₀ t → Within ps s₀ (event t)) (h : Within ps s₀ s)
    (hrepair : errors.isEmpty = false → ps .repair = true) : Within ps s₀ (meetErrors errors event s) := by
  have hmet (hevent' : ¬ (errors.isEmpty || (event s).gauger.seq = s.gauger.seq) = true) : ps .repair = true :=
    hrepair (Bool.eq_false_iff.mpr fun he => hevent' (by rw [he]; rfl))
  fun_cases meetErrors errors event s
  · exact hevent h
  · exact hevent (h.stamp.foldl fun k _ => k.correctWord (hmet ‹_›))
  · exact (h.stamp.foldl fun k _ => k.correctWord (hmet ‹_›)).foldl fun k _ => k.uncorrectableWord (hmet ‹_›)

protected theorem Within.execCommitRun {c gyle} (h : Within ps s₀ s) (hrepair : gyle.errors.isEmpty = false → ps .repair = true) :
    Leads ps s₀ (execCommitRun c gyle s) :=
  (h.meetErrors (fun k => k.commitRun) hrepair).next

protected theorem Within.execLazyWriteback {toKiln} (h : Within ps s₀ s) (hrepair : toKiln.errors.isEmpty = false → ps .repair = true) :
    Leads ps s₀ (execLazyWriteback toKiln s) :=
  (h.meetErrors (fun k => k.lazyWriteback) hrepair).next

protected theorem Within.execEvictionWritebackDone {cask} (h : Within ps s₀ s) (hrepair : cask.errors.isEmpty = false → ps .repair = true) :
    Leads ps s₀ (execEvictionWritebackDone cask s) :=
  (h.meetErrors (fun k => k.evictionDone) hrepair).next

protected theorem Within.scrubRead {place result} (h : Within ps s₀ s) (hrepair : ps .repair = true := by assumption) :
    Within ps s₀ (scrubRead place result s) := by
  fun_cases scrubRead place result s
  · exact h
  · exact h.nextScrub
  · exact h.stamp.correctWord.nextScrub
  · exact h.stamp.uncorrectableWord.nextScrub

protected theorem Within.execScrubRead {place result} (h : Within ps s₀ s) (hrepair : ps .repair = true := by assumption) :
    Leads ps s₀ (execScrubRead place result s) := h.scrubRead.next

protected theorem Within.tileReadyEvent {t x read} (h : Within ps s₀ s) (hrepair : ps .repair = true := by assumption) :
    Within ps s₀ (tileReadyEvent t x read s) := by
  fun_cases tileReadyEvent t x read s
  · exact h
  · exact h
  · exact (h.stamp.foldl fun k _ => k.correctWord).tileArrived
  · exact (h.stamp.foldl fun k _ => k.correctWord).slotDelivered.modTun.foldl fun k _ => k.uncorrectableWord

protected theorem Within.execTileReady {t half read} (h : Within ps s₀ s) (hrepair : ps .repair = true := by assumption) :
    Leads ps s₀ (execTileReady t half read s) := h.tileReadyEvent.next

protected theorem Within.nextSlot (h : Within ps s₀ s) : Within ps s₀ (nextSlot s) := by
  fun_cases nextSlot s <;> exact h.same

protected theorem Within.leaveUntested {t} (h : Within ps s₀ s) : Within ps s₀ (leaveUntested s t) := by
  fun_cases leaveUntested s t
  · exact h.modTun.raise
  · exact h.modTun

protected theorem Within.handOverSlot {t p l} (h : Within ps s₀ s) : Within ps s₀
    (handOverSlot s t p l) := h.setTun.setTunState.giveOps.testWhenIdle

protected theorem Within.slotTun {t} (h : Within ps s₀ s) : Within ps s₀ (slotTun s t) := by
  fun_cases slotTun s t
  · exact h.modTun.setTunState
  · exact h
  · exact h.handOverSlot
  · exact h.leaveUntested
  · exact h.leaveUntested
  · exact h

protected theorem Within.finishSlot (h : Within ps s₀ s) : Within ps s₀ (finishSlot s) := by
  unfold finishSlot
  cases s.integrity.selftestTun with
  | none => exact h
  | some n => exact h.testWhenIdle

protected theorem Within.selftestSlot (h : Within ps s₀ s) : Within ps s₀ (selftestSlot s) := by
  fun_cases selftestSlot s
  · exact h
  · exact h.stamp.finishSlot.nextSlot.slotTun
  · exact h.stamp.finishSlot.nextSlot

protected theorem Within.execSelftestSlot (h : Within ps s₀ s) : Leads ps s₀ (execSelftestSlot s) := h.selftestSlot.next

/-! ### Pace -/

protected theorem Within.powerCapSet {v} (h : Within ps s₀ s) (hregs : ps .regs = true := by assumption)
    (hpace : ps .pace = true := by assumption) :
    Within ps s₀ (powerCapSet v s) := h.storeReg.capEvent

protected theorem Within.execPowerCapWrite {value role} (h : Within ps s₀ s) (hregs : ps .regs = true := by assumption)
    (hpace : ps .pace = true := by assumption) :
    Leads ps s₀ (execPowerCapWrite value role s) :=
  (h.busWrite (fun k => k.powerCapSet)).next

protected theorem Within.capUnmet (h : Within ps s₀ s) (hpace : ps .pace = true := by assumption) :
    Within ps s₀ (capUnmet s) := h.pace_put.raise

protected theorem Within.portCapChange {w} (h : Within ps s₀ s) (hpace : ps .pace = true := by assumption) :
    Within ps s₀ (portCapChange w s) := by
  unfold portCapChange
  extract_lets _ _ s1
  have h1 : Within ps s₀ s1 := h.stamp.pace_put
  exact (h1.capUnmet.ite h1).capEvent

protected theorem Within.execPortCapChange {watts} (h : Within ps s₀ s) (hpace : ps .pace = true := by assumption) :
    Leads ps s₀ (execPortCapChange watts s) :=
  (h.ite h.portCapChange).next

protected theorem Within.execDerateChange {asserted} (h : Within ps s₀ s) (hpace : ps .pace = true := by assumption) :
    Leads ps s₀ (execDerateChange asserted s) :=
  (h.ite h.stamp.pace_put.capEvent).next

protected theorem Within.telemetry {x} (h : Within ps s₀ s) (hpace : ps .pace = true := by assumption) :
    Within ps s₀ (telemetry x s) := h.stamp.pace_put.setGate

protected theorem Within.execTelemetrySample {sample} (h : Within ps s₀ s) (hpace : ps .pace = true := by assumption) :
    Leads ps s₀ (execTelemetrySample sample s) :=
  (h.telemetry.ite h).next

protected theorem Within.windowEnd {avg settled} (h : Within ps s₀ s) (hpace : ps .pace = true := by assumption) :
    Within ps s₀ (windowEnd avg settled s) := by
  fun_cases windowEnd avg settled s
  · exact h.stamp.pace_put.capUnmet
  · exact h.stamp.pace_put

protected theorem Within.execCapWindowEnd {averageDw settled} (h : Within ps s₀ s) (hpace : ps .pace = true := by assumption) :
    Leads ps s₀ (execCapWindowEnd averageDw settled s) :=
  h.windowEnd.next

protected theorem Within.sense {tj warn} (h : Within ps s₀ s) (hpace : ps .pace = true := by assumption) :
    Within ps s₀ (sense s tj warn) := h.pace_put

protected theorem Within.thermStart {tj warn} (h : Within ps s₀ s) (hpace : ps .pace = true := by assumption) :
    Within ps s₀ (thermStart tj warn s) := h.stamp.sense.pace_put.capEvent

protected theorem Within.execThermalCapStart {tj chipWarn} (h : Within ps s₀ s) (hpace : ps .pace = true := by assumption) :
    Leads ps s₀ (execThermalCapStart tj chipWarn s) :=
  (Within.ite h (h.sense.ite h.thermStart)).next

protected theorem Within.thermStep {tj warn} (h : Within ps s₀ s) (hpace : ps .pace = true := by assumption) :
    Within ps s₀ (thermStep tj warn s) := h.stamp.sense.pace_put.capEvent

protected theorem Within.execThermalCapStep {tj chipWarn} (h : Within ps s₀ s) (hpace : ps .pace = true := by assumption) :
    Leads ps s₀ (execThermalCapStep tj chipWarn s) :=
  (h.thermStep.ite h).next

protected theorem Within.thermHalt {sensor tj} (h : Within ps s₀ s) (hpace : ps .pace = true := by assumption) :
    Within ps s₀ (thermHalt sensor tj s) := h.stamp.sense.pace_put.raise.settleBlocked

protected theorem Within.execThermHalt {sensor tj} (h : Within ps s₀ s) (hpace : ps .pace = true := by assumption) :
    Leads ps s₀ (execThermHalt sensor tj s) := (h.ite h.thermHalt).next

protected theorem Within.thermResume {tj} (h : Within ps s₀ s) (hpace : ps .pace = true := by assumption) :
    Within ps s₀ (thermResume tj s) := h.stamp.sense.pace_put.raise

protected theorem Within.execThermResumed {tj} (h : Within ps s₀ s) (hpace : ps .pace = true := by assumption) :
    Leads ps s₀ (execThermResumed tj s) := (h.ite h.thermResume).next

protected theorem Within.setSag {i x} (h : Within ps s₀ s) (hpace : ps .pace = true := by assumption) :
    Within ps s₀ (setSag s i x) := h.pace_put

protected theorem Within.sagRise {i tenth} (h : Within ps s₀ s) (hpace : ps .pace = true := by assumption) :
    Within ps s₀ (sagRise i tenth s) := h.stamp.setSag

protected theorem Within.execSagRise {sensor tenthPercent} (h : Within ps s₀ s) (hpace : ps .pace = true := by assumption) :
    Leads ps s₀ (execSagRise sensor tenthPercent s) :=
  (h.ite h.sagRise).next

protected theorem Within.sagDown {i} (h : Within ps s₀ s) (hpace : ps .pace = true := by assumption) :
    Within ps s₀ (sagDown i s) := h.stamp.setSag

protected theorem Within.execSagStepDown {sensor} (h : Within ps s₀ s) (hpace : ps .pace = true := by assumption) :
    Leads ps s₀ (execSagStepDown sensor s) := (h.ite h.sagDown).next

protected theorem Within.sagLasts {i} (h : Within ps s₀ s) (hpace : ps .pace = true := by assumption) :
    Within ps s₀ (sagLasts i s) := h.stampRaise.setSag.logNow

protected theorem Within.execSagPersist {sensor} (h : Within ps s₀ s) (hpace : ps .pace = true := by assumption) :
    Leads ps s₀ (execSagPersist sensor s) := (h.ite h.sagLasts).next

protected theorem Within.endGyle {g} (h : Within ps s₀ s) : Within ps s₀ (endGyle s g) := by
  fun_cases endGyle s g
  · exact h.clearWork.releaseGyle
  · exact h.tearGyle.dropXfers.stamp.postRecord.afterCmd
  · exact h.tearGyle.dropXfers

protected theorem Within.endGyles {p} (h : Within ps s₀ s) : Within ps s₀ (endGyles s p) := h.foldl fun k _ => k.endGyle

protected theorem Within.pfwHalt (h : Within ps s₀ s) (hpace : ps .pace = true := by assumption) :
    Within ps s₀ (pfwHalt s) := h.pace_put.endGyles

protected theorem Within.dropCommit {x} (h : Within ps s₀ s) : Within ps s₀ (dropCommit s x) := by
  fun_cases dropCommit s x
  · exact h.dropCmd.stamp.completeLater
  · exact h

protected theorem Within.pfwRow {x key} (h : Within ps s₀ s) : Within ps s₀ (pfwRow x s key) := by
  fun_cases pfwRow x s key
  · exact h
  · exact h.secondChoice
  · exact h

protected theorem Within.pfwLate (h : Within ps s₀ s) : Within ps s₀ (pfwLate s) := h.foldl fun k _ => k.foldl fun k2 _ => k2.pfwRow

protected theorem Within.pfwStart (h : Within ps s₀ s) (hpace : ps .pace = true := by assumption) :
    Within ps s₀ (pfwStart s) := by
  fun_cases pfwStart s
  case case1 s1 _ s2 _ _ _ =>
    have h1 : Within ps s₀ s1 := h.stampRaise.pace_put
    have h2 : Within ps s₀ s2 := by
      unfold s2
      split
      · exact Within.ite (h1.foldl fun k _ => k.dropCommit).cancelRack (h1.foldl fun k _ => k.dropCommit)
      · exact h1.foldl fun k _ => k.dropCommit
    exact h2.pfwLate.endGyles.pfwHalt
  case case2 s1 _ s2 _ _ _ =>
    have h1 : Within ps s₀ s1 := h.stampRaise.pace_put
    have h2 : Within ps s₀ s2 := by
      unfold s2
      split
      · exact Within.ite (h1.foldl fun k _ => k.dropCommit).cancelRack (h1.foldl fun k _ => k.dropCommit)
      · exact h1.foldl fun k _ => k.dropCommit
    exact h2.pfwLate.endGyles

protected theorem Within.execPfwAssert (h : Within ps s₀ s) (hpace : ps .pace = true := by assumption) :
    Leads ps s₀ (execPfwAssert s) := (Within.ite h (h.pace_put.ite h.pfwStart)).next

protected theorem Within.execPfwSettleExpiry (h : Within ps s₀ s) (hpace : ps .pace = true := by assumption) :
    Leads ps s₀ (execPfwSettleExpiry s) := (h.stamp.pfwHalt.ite h).next

protected theorem Within.pfwClose (h : Within ps s₀ s) (hpace : ps .pace = true := by assumption) :
    Within ps s₀ (pfwClose s) := by
  fun_cases pfwClose s
  · exact (h.stamp.closeKiln.ite h.stamp).pace_put.askVoltage
  · exact (h.stamp.closeKiln.ite h.stamp).pace_put.askVoltage.raise

protected theorem Within.execPfwWritebackDone (h : Within ps s₀ s) (hpace : ps .pace = true := by assumption) :
    Leads ps s₀ (execPfwWritebackDone s) := (h.pfwClose.ite h).next

protected theorem Within.pfwWithdrawn (h : Within ps s₀ s) (hpace : ps .pace = true := by assumption) :
    Within ps s₀ (pfwWithdrawn s) := by
  fun_cases pfwWithdrawn s
  · exact h.stamp.pace_put.raise
  · exact h.stamp.pace_put

protected theorem Within.execPfwCleared (h : Within ps s₀ s) (hpace : ps .pace = true := by assumption) :
    Leads ps s₀ (execPfwCleared s) := (h.pfwWithdrawn.ite h).next

/-! ### Keys -/

protected theorem Within.tenantLoadEffect {t} (h : Within ps s₀ s) : Within ps s₀ (tenantLoadEffect t s) := h.same

theorem fld_tenantSelWord (op word : Nat) (tenant : Fin 4096) (hword : word < 256) (hop : op < 4) :
    fld (tenantSelWord op word tenant) 24 2 = op := by
  have htenant := tenant.isLt
  simp only [fld, tenantSelWord, BitVec.toNat_ofNat]
  omega

/-- A write of `TENANT_SEL` stores a record only with the operation that stores one. -/
protected theorem Within.tenantSelWrite {v role} (h : Within ps s₀ s) (htenants : fld v 24 2 = 2 → ps .tenantRecs = true)
    (hregs : ps .regs = true := by assumption) : Within ps s₀ (tenantSelWrite v role s) := by
  fun_cases tenantSelWrite v role s
  · exact h.storeReg.tenantLoadEffect
  · exact h.storeReg.tenantStore (htenants ‹_›)
  · exact h.storeReg

protected theorem Within.tenantDataWrite {v} (h : Within ps s₀ s) : Within ps s₀ (tenantDataWrite v s) := h.same

protected theorem Within.execTenantLoad {tenant word role} (h : Within ps s₀ s) (hregs : ps .regs = true := by assumption) :
    Leads ps s₀ (execTenantLoad tenant word role s) :=
  (h.busWrite fun k => k.tenantSelWrite fun hop => by
    rw [fld_tenantSelWord _ _ _ (by omega) (by decide)] at hop
    exact absurd hop (by decide)).next

protected theorem Within.execTenantStore {tenant word role} (h : Within ps s₀ s) (hregs : ps .regs = true := by assumption)
    (htenants : ps .tenantRecs = true := by assumption) : Leads ps s₀ (execTenantStore tenant word role s) :=
  (h.busWrite fun k => k.tenantSelWrite fun _ => htenants).next

protected theorem Within.saltStore {v} (h : Within ps s₀ s) (hsalts : ps .salts = true := by assumption) :
    Within ps s₀ (saltStore v s) := h.trans { salts := listed hsalts }

protected theorem Within.execSaltHiWrite {value role} (h : Within ps s₀ s) (hsalts : ps .salts = true := by assumption) :
    Leads ps s₀ (execSaltHiWrite value role s) :=
  (h.busWrite (fun k => k.saltStore)).next

protected theorem Within.saltLoStore {v} (h : Within ps s₀ s) : Within ps s₀ (saltLoStore v s) := h.same

protected theorem Within.keyInStore {n v} (h : Within ps s₀ s) : Within ps s₀ (keyInStore n v s) := h.same

protected theorem Within.keyCmdWrite {v} (h : Within ps s₀ s) (hregs : ps .regs = true := by assumption) :
    Within ps s₀ (keyCmdWrite v s) := by
  fun_cases keyCmdWrite v s
  · exact h.storeReg
  · exact h.storeReg.same
  · exact h.storeReg.same

protected theorem Within.keyCmd {v role} (h : Within ps s₀ s) (hregs : ps .regs = true := by assumption) :
    Within ps s₀ (keyCmd v role s) := by
  fun_cases keyCmd v role s
  · exact h
  · exact (Within.ite (h.busWrite (fun k => k.keyCmdWrite)).same (h.busWrite (fun k => k.keyCmdWrite))).same
  · exact Within.ite (h.busWrite (fun k => k.keyCmdWrite)).same (h.busWrite (fun k => k.keyCmdWrite))

protected theorem Within.execKeyLoadSlot {peer receive role} (h : Within ps s₀ s) (hregs : ps .regs = true := by assumption) :
    Leads ps s₀ (execKeyLoadSlot peer receive role s) :=
  h.keyCmd.next

protected theorem Within.execKeyRotate {tenant role} (h : Within ps s₀ s) (hregs : ps .regs = true := by assumption) :
    Leads ps s₀ (execKeyRotate tenant role s) := h.keyCmd.next

protected theorem Within.execKeyRenewLoadPair {role} (h : Within ps s₀ s) (hregs : ps .regs = true := by assumption) :
    Leads ps s₀ (execKeyRenewLoadPair role s) := h.keyCmd.next

protected theorem Within.keyDone (h : Within ps s₀ s) : Within ps s₀ (keyDone s) := by
  fun_cases keyDone s
  · exact h.stamp.same.raise
  · exact h.stamp.same.raise
  · exact h

protected theorem Within.execKeyDone (h : Within ps s₀ s) : Leads ps s₀ (execKeyDone s) := h.keyDone.next

/-! ### Boundary -/

protected theorem Within.timerRecal (h : Within ps s₀ s) : Within ps s₀ (timerRecal s) := by
  fun_cases timerRecal s
  · exact h.stamp.same.bumpFree.logNow.raise
  · exact h.stamp.same.bumpFree

protected theorem Within.execTimerRecal (h : Within ps s₀ s) : Leads ps s₀ (execTimerRecal s) := (h.timerRecal.ite h).next

protected theorem Within.calLost (h : Within ps s₀ s) : Within ps s₀ (calLost s) := by
  unfold calLost
  extract_lets _ _ s1
  have h1 : Within ps s₀ s1 := h.stamp.same
  exact h1.logNow.raise

protected theorem Within.execCalLost (h : Within ps s₀ s) : Leads ps s₀ (execCalLost s) := (h.ite h.calLost).next

protected theorem Within.setDomain {d ok} (h : Within ps s₀ s) : Within ps s₀ (setDomain s d ok) := h.same

protected theorem Within.domainEffects {d} (h : Within ps s₀ s) : Within ps s₀ (domainEffects d s) := by
  fun_cases domainEffects d s
  · exact h.same
  · exact h.foldl fun k _ => k.peerDown
  · exact h

protected theorem Within.domainLost {d} (h : Within ps s₀ s) : Within ps s₀ (domainLost d s) := by
  unfold domainLost
  extract_lets _ _ s1
  have h1 : Within ps s₀ s1 := h.stamp.setDomain.same
  exact h1.raise.domainEffects

protected theorem Within.execDomainLost {d} (h : Within ps s₀ s) : Leads ps s₀ (execDomainLost d s) := (h.domainLost.ite h).next

protected theorem Within.domainRegained {d} (h : Within ps s₀ s) : Within ps s₀ (domainRegained d s) := by
  fun_cases domainRegained d s
  · exact h.stamp.setDomain.raise.same
  · exact h.stamp.setDomain.raise.retryWaiting
  · exact h.stamp.setDomain.raise

protected theorem Within.execDomainRegained {d} (h : Within ps s₀ s) : Leads ps s₀ (execDomainRegained d s) := (h.ite h.domainRegained).next

/-! ### Rings -/

protected theorem Within.doorbellEffect {c v} (h : Within ps s₀ s) : Within ps s₀ (doorbellEffect c v s) := h.modCtx.pump

protected theorem Within.cqHeadEffect {c v} (h : Within ps s₀ s) : Within ps s₀ (cqHeadEffect c v s) := h.modCtx.pump

protected theorem Within.execDoorbell {c value role} (h : Within ps s₀ s) : Leads ps s₀ (execDoorbell c value role s) :=
  (h.busWrite (fun k => k.doorbellEffect)).next

protected theorem Within.execCqHeadWrite {c value role} (h : Within ps s₀ s) : Leads ps s₀ (execCqHeadWrite c value role s) :=
  (h.busWrite (fun k => k.cqHeadEffect)).next

protected theorem Within.ctxEnableEffect {c} (h : Within ps s₀ s) : Within ps s₀ (ctxEnableEffect c s) := h.setCtxState

protected theorem Within.execCtxEnable {c role} (h : Within ps s₀ s) : Leads ps s₀ (execCtxEnable c role s) :=
  (h.busWrite (fun k => k.ctxEnableEffect)).next

protected theorem Within.ringConfigEffect {c off v} (h : Within ps s₀ s) (hregs : ps .regs = true := by assumption) :
    Within ps s₀ (ringConfigEffect c off v s) := h.storeReg.modCtx

protected theorem Within.execRingConfigWrite {c offset value role} (h : Within ps s₀ s) (hregs : ps .regs = true := by assumption) :
    Leads ps s₀ (execRingConfigWrite c offset value role s) :=
  (Within.ite (h.busWrite (fun k => k.ringConfigEffect)) h).next

protected theorem Within.tenantBindEffect {c v} (h : Within ps s₀ s) : Within ps s₀ (tenantBindEffect c v s) := h.modCtx

protected theorem Within.execTenantBindChange {c value role} (h : Within ps s₀ s) : Leads ps s₀ (execTenantBindChange c value role s) :=
  (h.busWrite (fun k => k.tenantBindEffect)).next

protected theorem Within.ctxRoleEffect {c v} (h : Within ps s₀ s) : Within ps s₀ (ctxRoleEffect c v s) := h.same

protected theorem Within.eventAckEffect {page v} (h : Within ps s₀ s) : Within ps s₀ (eventAckEffect page v s) := h.same

protected theorem Within.execEventAckWrite {page value role} (h : Within ps s₀ s) : Leads ps s₀ (execEventAckWrite page value role s) :=
  (h.busWrite (fun k => k.eventAckEffect)).next

protected theorem Within.eventMaskEffect {page v} (h : Within ps s₀ s) : Within ps s₀ (eventMaskEffect page v s) := h.same

protected theorem Within.execEventMaskWrite {page value role} (h : Within ps s₀ s) : Leads ps s₀ (execEventMaskWrite page value role s) :=
  (h.busWrite (fun k => k.eventMaskEffect)).next

protected theorem Within.irqHoldoffEnd {c} (h : Within ps s₀ s) : Within ps s₀ (irqHoldoffEnd c s) := by
  fun_cases irqHoldoffEnd c s
  · exact h.stamp.same
  · exact h

protected theorem Within.execIrqHoldoffExpiry {c} (h : Within ps s₀ s) : Leads ps s₀ (execIrqHoldoffExpiry c s) := h.irqHoldoffEnd.next

protected theorem Within.globalHoldoffEnd (h : Within ps s₀ s) : Within ps s₀ (globalHoldoffEnd s) := by
  fun_cases globalHoldoffEnd s
  · exact h.stamp.same
  · exact h

protected theorem Within.execGlobalHoldoffExpiry (h : Within ps s₀ s) : Leads ps s₀ (execGlobalHoldoffExpiry s) := h.globalHoldoffEnd.next

/-! ### View -/

protected theorem Within.countSnap {page v} (h : Within ps s₀ s) : Within ps s₀ (countSnap page v s) := by
  fun_cases countSnap page v s
  · exact h
  · exact h.same

protected theorem Within.execCountSnapWrite {page value role} (h : Within ps s₀ s) : Leads ps s₀ (execCountSnapWrite page value role s) :=
  (h.busWrite (fun k => k.countSnap)).next

protected theorem Within.caskSelect {v} (h : Within ps s₀ s) (hregs : ps .regs = true := by assumption) :
    Within ps s₀ (caskSelect v s) := h.storeReg.same

protected theorem Within.execCaskSelWrite {value role} (h : Within ps s₀ s) (hregs : ps .regs = true := by assumption) :
    Leads ps s₀ (execCaskSelWrite value role s) :=
  (h.busWrite (fun k => k.caskSelect)).next

/-! ### Windows -/

protected theorem Within.setWin {w x} (h : Within ps s₀ s) : Within ps s₀ (setWin s w x) := h.same (hchip := by split <;> rfl)

protected theorem Within.winStart {w op bytes} (h : Within ps s₀ s) (hregs : ps .regs = true := by assumption) :
    Within ps s₀ (winStart w op bytes s) := h.storeReg.setWin

protected theorem Within.winWrite {w op bytes role} (h : Within ps s₀ s) (hregs : ps .regs = true := by assumption) :
    Within ps s₀ (winWrite w op bytes role s) :=
  h.busWrite fun k => k.winStart

protected theorem Within.execWinRead {window bytes role} (h : Within ps s₀ s) (hregs : ps .regs = true := by assumption) :
    Leads ps s₀ (execWinRead window bytes role s) := h.winWrite.next

protected theorem Within.execWinWrite {window bytes role} (h : Within ps s₀ s) (hregs : ps .regs = true := by assumption) :
    Leads ps s₀ (execWinWrite window bytes role s) := h.winWrite.next

protected theorem Within.execWinMove {window bytes role} (h : Within ps s₀ s) (hregs : ps .regs = true := by assumption) :
    Leads ps s₀ (execWinMove window bytes role s) := h.winWrite.next

protected theorem Within.modCells {tier grant f} (h : Within ps s₀ s) (hcellar : ps .cellarBytes = true := by assumption)
    (hwindows : ps .windows = true := by assumption) : Within ps s₀ (modCells s tier grant f) := by
  fun_cases modCells s tier grant f
  · exact h.trans { cellarBytes := listed hcellar }
  · exact h.trans { chipBytes := listed hwindows }
  · exact h.same
  · exact h.trans { kilnBytes := listed hwindows }
  · exact h

protected theorem Within.leaveTier {tier p} (h : Within ps s₀ s) : Within ps s₀ (leaveTier tier s p) := by
  fun_cases leaveTier tier s p
  · exact h.modCask
  · exact h
  · exact h.cutWarm
  · exact h.leaveT4Tensor
  · exact h

protected theorem Within.enterT2 {p} (h : Within ps s₀ s) : Within ps s₀ (enterT2 s p) := by
  fun_cases enterT2 s p
  · exact h.addWarm
  · exact h

protected theorem Within.moveHomes {x} (h : Within ps s₀ s) : Within ps s₀ (moveHomes s x) := by
  fun_cases moveHomes s x
  · exact (h.foldl fun k _ => k.leaveTier).foldl fun k _ => k.enterT2
  · exact h.foldl fun k _ => k.leaveTier

protected theorem Within.winMove {x data} (h : Within ps s₀ s) (hcellar : ps .cellarBytes = true := by assumption)
    (hwindows : ps .windows = true := by assumption) : Within ps s₀ (winMove s x data) := by
  fun_cases winMove s x data
  · exact h.modCells
  case case2 s1 =>
    have h1 : Within ps s₀ s1 := h.moveHomes.modCells.ite h
    exact h1.trans { chipBytes := listed hwindows }

protected theorem Within.winDone {w status data} (h : Within ps s₀ s) (hcellar : ps .cellarBytes = true := by assumption)
    (hwindows : ps .windows = true := by assumption) :
    Within ps s₀ (winDone w status data s) := by
  fun_cases winDone w status data s
  · exact h
  · exact h.stampRaise.setWin.winMove
  · exact h.stampRaise.setWin

protected theorem Within.execWinTransferDone {window status data} (h : Within ps s₀ s)
    (hrepair : data.errors.isEmpty = false → ps .repair = true) (hcellar : ps .cellarBytes = true := by assumption)
    (hwindows : ps .windows = true := by assumption) : Leads ps s₀ (execWinTransferDone window status data s) :=
  (h.meetErrors (fun k => k.winDone) hrepair).next

/-! ### Bus -/

protected theorem Within.partWrite {page off v} (h : Within ps s₀ s) (hregs : ps .regs = true := by assumption) :
    Within ps s₀ (partWrite page off v s) := by
  unfold partWrite
  extract_lets
  exact h.releaseBy fun k => k.storeReg.same.coverGrowth

protected theorem Within.execCellarPartRaise {page offset value role} (h : Within ps s₀ s) (hregs : ps .regs = true := by assumption) :
    Leads ps s₀ (execCellarPartRaise page offset value role s) :=
  (Within.ite (h.busWrite (fun k => k.partWrite)) h).next

protected theorem Within.shardStore {v} (h : Within ps s₀ s) : Within ps s₀ (shardStore v s) := h.same

protected theorem Within.blockReset {v} (h : Within ps s₀ s) : Within ps s₀ (blockReset v s) := by
  fun_cases blockReset v s
  · exact h.requestWarm
  · exact h.requestCold
  · exact h

protected theorem Within.repairWrite {v} (h : Within ps s₀ s) (hregs : ps .regs = true := by assumption)
    (hrepair : ps .repair = true := by assumption) :
    Within ps s₀ (repairWrite v s) := by
  fun_cases repairWrite v s
  · exact h.storeReg.beginRemap
  · exact h.storeReg

protected theorem Within.fwWrite {v} (h : Within ps s₀ s) (hregs : ps .regs = true := by assumption)
    (hrepair : ps .repair = true := by assumption) :
    Within ps s₀ (fwWrite v s) := by
  fun_cases fwWrite v s
  · exact h.fwStageStart
  · exact h.fwActivateStart
  · exact h.storeReg

protected theorem Within.winCtrlWrite {w v} (h : Within ps s₀ s) (hregs : ps .regs = true := by assumption) :
    Within ps s₀ (winCtrlWrite w v s) := by
  fun_cases winCtrlWrite w v s
  · exact h.storeReg
  · exact h.winStart

protected theorem Within.kilnWrite {v} (h : Within ps s₀ s) (hregs : ps .regs = true := by assumption)
    (hrepair : ps .repair = true := by assumption) :
    Within ps s₀ (kilnWrite v s) := by
  fun_cases kilnWrite v s
  · exact h.storeReg.checkpointNow
  · exact h.storeReg.retireDevice
  · exact h.storeReg

protected theorem Within.singleEffect {u page off v role} (h : Within ps s₀ s) (hregs : ps .regs = true := by assumption)
    (hpace : ps .pace = true := by assumption) (hrepair : ps .repair = true := by assumption)
    (htenants : ps .tenantRecs = true := by assumption) (hhp : ps .hyperparams = true := by assumption)
    (hsalts : ps .salts = true := by assumption) :
    Within ps s₀ (singleEffect u page off v role s) := by
  fun_cases singleEffect u page off v role s
  · exact h.blockReset
  · exact h.configDoneSet
  · exact h.tenantSelWrite fun _ => htenants
  · exact h.tenantDataWrite
  · exact h.storeReg.askVoltage
  · exact h.powerCapSet
  · exact h.repairWrite
  · exact h.fwWrite
  · exact h.logSelect
  · exact h.ffClearStart
  · exact h.saltLoStore
  · exact h.saltStore
  · exact h.partWrite
  · exact h.partWrite
  · exact h.partWrite
  · exact h.caskSelect
  · exact h.testHoldSet
  · exact h.winCtrlWrite
  · exact h.winCtrlWrite
  · exact h.shardStore
  · exact h.kilnWrite
  · exact h.hpWrite fun _ => hhp
  · exact h.keyInStore.ite h.storeReg
  · exact h.keyInStore.ite h.storeReg
  · exact h.storeReg

protected theorem Within.ctxCmdEffect {c v} (h : Within ps s₀ s) : Within ps s₀ (ctxCmdEffect c v s) := by
  fun_cases ctxCmdEffect c v s
  · exact h.ctxEnableEffect
  · exact h.resetCtx
  · exact h

protected theorem Within.ctxEffect {c off v} (h : Within ps s₀ s) (hregs : ps .regs = true := by assumption) :
    Within ps s₀ (ctxEffect c off v s) := by
  fun_cases ctxEffect c off v s
  · exact h.ctxCmdEffect
  · exact h.ringConfigEffect
  · exact h.ringConfigEffect
  · exact h.ringConfigEffect
  · exact h.doorbellEffect
  · exact h.cqHeadEffect
  · exact h.tenantBindEffect
  · exact h.storeReg

protected theorem Within.tunEffect {t v} (h : Within ps s₀ s) : Within ps s₀ (tunEffect t v s) := by
  fun_cases tunEffect t v s
  · exact h.fenceTun
  · exact h.resetAndTest
  · exact h

protected theorem Within.headerEffect {page off n v} (h : Within ps s₀ s) : Within ps s₀ (headerEffect page off n v s) := by
  fun_cases headerEffect page off n v s
  · exact h.countSnap
  · exact h.eventAckEffect
  · exact h.eventMaskEffect
  · exact h.ctxRoleEffect
  · exact h

protected theorem Within.regEffect {page off v role} (h : Within ps s₀ s) (hregs : ps .regs = true := by assumption)
    (hpace : ps .pace = true := by assumption) (hrepair : ps .repair = true := by assumption)
    (htenants : ps .tenantRecs = true := by assumption) (hhp : ps .hyperparams = true := by assumption)
    (hsalts : ps .salts = true := by assumption) :
    Within ps s₀ (regEffect page off v role s) := by
  fun_cases regEffect page off v role s
  · exact h
  · exact h.headerEffect
  · exact h.ctxEffect
  · exact h.tunEffect
  · exact h.singleEffect

protected theorem Within.regWrite {page off v role} (h : Within ps s₀ s) (hregs : ps .regs = true := by assumption)
    (hpace : ps .pace = true := by assumption) (hrepair : ps .repair = true := by assumption)
    (htenants : ps .tenantRecs = true := by assumption) (hhp : ps .hyperparams = true := by assumption)
    (hsalts : ps .salts = true := by assumption) :
    Within ps s₀ (regWrite page off v role s) := by
  fun_cases regWrite page off v role s
  · exact h.keyCmd
  · exact h.busWrite fun k => k.regEffect

protected theorem Within.execRegisterWrite {page offset value role} (h : Within ps s₀ s) (hregs : ps .regs = true := by assumption)
    (hpace : ps .pace = true := by assumption) (hrepair : ps .repair = true := by assumption)
    (htenants : ps .tenantRecs = true := by assumption) (hhp : ps .hyperparams = true := by assumption)
    (hsalts : ps .salts = true := by assumption) :
    Leads ps s₀ (execRegisterWrite page offset value role s) :=
  (h.regWrite.ite h).next



/-! ### Commands -/

/-- The parts that a command may change, beside what a reset clears. -/
def actsOn (i : Instr) : Part → Bool
  | .regs => writesRegs i
  | .pace => actsOnPace i
  | .repair => actsOnRepair i
  | .planInForce => match i with
    | .planSwap _ => true
    | _ => false
  | .planStaged => match i with
    | .planSwap _ | .planLoad _ => true
    | _ => false
  | .sortRows => match i with
    | .sortPass2Done .. => true
    | _ => false
  | .tenantRecs => match i with
    | .registerWrite .. => true
    | i => storesTenants i
  | .hyperparams => match i with
    | .registerWrite .. | .hpStore .. => true
    | _ => false
  | .salts => match i with
    | .registerWrite .. | .saltHiWrite .. => true
    | _ => false
  | .wrapGens => match i with
    | .rotationComplete _ => true
    | _ => false
  | .cellarBytes => match i with
    | .winTransferDone .. => true
    | i => fillsCellar i
  | .windows => match i with
    | .winTransferDone .. => true
    | _ => false
  | .portCounts => match i with
    | .readData .. | .writeResponse .. => true
    | _ => false

/-- The parts that a command may change. -/
def writes (i : Instr) (p : Part) : Bool := clearsBlock i && p.cleared || actsOn i p

theorem clears_writes {i : Instr} (hi : clearsBlock i = true) : Clears (writes i) := fun p hp => by
  simp [writes, hi, hp]

theorem writes_of_clearsBlock_eq_false {i : Instr} {p : Part} (hi : clearsBlock i = false) : writes i p = actsOn i p := by
  simp [writes, hi]

theorem writes_windows {i : Instr} : writes i .windows = actsOn i .windows := by simp [writes, Part.cleared]

/-- Every command changes no part but those that `writes` names: each by the rule of its meaning. -/
theorem leads_exec (i : Instr) (s : State) : Leads (writes i) s (exec i s) := by
  have h : Within (writes i) s s := .refl s
  cases i with
  | gyleOpen _ => exact h.execGyleOpen
  | gyleRows _ => exact h.execGyleRows
  | gyleClose _ => exact h.execGyleClose
  | planLoad _ => exact h.execPlanLoad rfl
  | planSwap _ => exact h.execPlanSwap rfl rfl
  | mixBind _ => exact h.execMixBind
  | mixUnbind _ => exact h.execMixUnbind
  | pin _ => exact h.execPin
  | unpin _ => exact h.execUnpin
  | prefetch _ => exact h.execPrefetch
  | trainOpen _ => exact h.execTrainOpen
  | trainCommit _ => exact h.execTrainCommit
  | trainAbort _ => exact h.execTrainAbort
  | publishAdapter _ => exact h.execPublishAdapter
  | publishDirectory _ => exact h.execPublishDirectory
  | purge _ => exact h.execPurge
  | epochStage _ => exact h.execEpochStage
  | epochSwitch _ => exact h.execEpochSwitch
  | rack _ => exact h.execRack
  | lendGrant _ => exact h.execLendGrant
  | lendRecall _ => exact h.execLendRecall
  | mark _ => exact h.execMark
  | quiesce _ => exact h.execQuiesce
  | resume _ => exact h.execResume
  | nop _ => exact h.execNop
  | doorbell _ _ _ => exact h.execDoorbell
  | cqHeadWrite _ _ _ => exact h.execCqHeadWrite
  | ctxEnable _ _ => exact h.execCtxEnable
  | ctxReset _ _ => exact h.execCtxReset
  | ringConfigWrite _ _ _ _ => exact h.execRingConfigWrite rfl
  | tenantBindChange _ _ _ => exact h.execTenantBindChange
  | eventAckWrite _ _ _ => exact h.execEventAckWrite
  | eventMaskWrite _ _ _ => exact h.execEventMaskWrite
  | countSnapWrite _ _ _ => exact h.execCountSnapWrite
  | registerWrite _ _ _ _ => exact h.execRegisterWrite rfl rfl rfl rfl rfl rfl
  | tunFenceCmd _ _ => exact h.execTunFenceCmd
  | tunReadmit _ _ => exact h.execTunReadmit
  | tunBistDone _ _ => exact h.execTunBistDone rfl
  | kilnCheckpointCmd _ => exact h.execKilnCheckpointCmd rfl
  | kilnRetireCmd _ _ => exact h.execKilnRetireCmd rfl rfl
  | keyLoadSlot _ _ _ => exact h.execKeyLoadSlot rfl
  | keyRotate _ _ => exact h.execKeyRotate rfl
  | keyRenewLoadPair _ => exact h.execKeyRenewLoadPair rfl
  | keyDone => exact h.execKeyDone
  | saltHiWrite _ _ => exact h.execSaltHiWrite rfl
  | tenantLoad _ _ _ => exact h.execTenantLoad rfl
  | tenantStore _ _ _ => exact h.execTenantStore rfl rfl
  | hpStore _ _ => exact h.execHpStore rfl rfl
  | hpLoad _ _ => exact h.execHpLoad rfl
  | caskSelWrite _ _ => exact h.execCaskSelWrite rfl
  | cellarPartRaise _ _ _ _ => exact h.execCellarPartRaise rfl
  | logSelWrite _ _ => exact h.execLogSelWrite rfl
  | ffClear _ _ => exact h.execFfClear rfl
  | ffClearDone => exact h.execFfClearDone
  | blockWarmResetCmd _ => exact h.execBlockWarmResetCmd
  | blockColdResetCmd _ => exact h.execBlockColdResetCmd
  | configDoneWrite _ _ => exact h.execConfigDoneWrite rfl
  | testHoldWrite _ _ => exact h.execTestHoldWrite
  | winRead _ _ _ => exact h.execWinRead rfl
  | winWrite _ _ _ => exact h.execWinWrite rfl
  | winMove _ _ _ => exact h.execWinMove rfl
  | winTransferDone _ _ _ => exact h.execWinTransferDone (fun he => congrArg not he) rfl rfl
  | repairRemap _ _ _ => exact h.execRepairRemap rfl rfl
  | regionRemapStepDone _ => exact h.execRegionRemapStepDone rfl
  | fwStage _ _ => exact h.execFwStage rfl rfl
  | fwStageDone _ => exact h.execFwStageDone rfl
  | fwActivate _ _ => exact h.execFwActivate rfl rfl
  | pairRestartDone _ _ => exact h.execPairRestartDone rfl rfl rfl
  | powerCapWrite _ _ => exact h.execPowerCapWrite rfl rfl
  | logbookRead _ _ => exact h.execLogbookRead
  | rowResolve _ _ => exact h.execRowResolve
  | sortPass2Done _ _ => exact h.execSortPass2Done rfl
  | activationCreditGrant _ => exact h.execActivationCreditGrant
  | creditPortionGrant _ => exact h.execCreditPortionGrant
  | baseCreditGrant _ => exact h.execBaseCreditGrant
  | inboundBeat _ _ _ _ => exact h.execInboundBeat
  | scatterWrite _ _ => exact h.execScatterWrite
  | tileRequest _ => exact h.execTileRequest
  | tileReady _ _ _ => exact h.execTileReady rfl
  | opIssue _ => exact h.execOpIssue
  | fillSwap _ _ => exact h.execFillSwap
  | partSendStart _ => exact h.execPartSendStart
  | outboundNak _ _ => exact h.execOutboundNak
  | partLeft _ => exact h.execPartLeft
  | batchWindowExpiry _ => exact h.execBatchWindowExpiry
  | cutoffExpiry _ _ => exact h.execCutoffExpiry
  | lateGraceExpiry _ _ _ _ => exact h.execLateGraceExpiry
  | fetchStreamStart _ => exact h.execFetchStreamStart
  | tensorPresent _ _ => exact h.execTensorPresent rfl
  | lazyWriteback _ => exact h.execLazyWriteback fun he => congrArg not he
  | evictionWritebackDone _ => exact h.execEvictionWritebackDone fun he => congrArg not he
  | commitRun _ _ => exact h.execCommitRun fun he => congrArg not he
  | commitPublish _ _ => exact h.execCommitPublish
  | publishPublication _ => exact h.execPublishPublication
  | epochStaged => exact h.execEpochStaged
  | purgeComplete _ => exact h.execPurgeComplete
  | rotationStart _ => exact h.execRotationStart
  | rotationComplete _ => exact h.execRotationComplete rfl
  | quiesceComplete _ => exact h.execQuiesceComplete
  | ctxResetDone _ => exact h.execCtxResetDone rfl
  | readData _ _ _ _ => exact h.execReadData rfl
  | writeResponse _ _ _ => exact h.execWriteResponse rfl
  | mLookup _ _ => exact h.execMLookup
  | mLookupAns _ _ => exact h.execMLookupAns rfl
  | mLeaseRenew _ _ => exact h.execMLeaseRenew
  | mLeaseAns _ _ => exact h.execMLeaseAns
  | mRevoke _ _ _ => exact h.execMRevoke
  | mRevokeAck _ => exact h.execMRevokeAck
  | mHoldRelease _ _ => exact h.execMHoldRelease
  | mFetchReq _ _ _ _ => exact h.execMFetchReq
  | mFetchData _ _ _ => exact h.execMFetchData rfl
  | mFetchEnd _ => exact h.execMFetchEnd
  | mFarOpen _ _ _ _ => exact h.execMFarOpen
  | mFarOpenAns _ => exact h.execMFarOpenAns
  | mFarRows _ _ _ _ => exact h.execMFarRows
  | mFarSum _ _ _ => exact h.execMFarSum
  | mFarLate _ _ _ => exact h.execMFarLate
  | mFarClose _ _ => exact h.execMFarClose
  | mFarCancel _ _ => exact h.execMFarCancel
  | mRackOpen _ _ _ _ => exact h.execMRackOpen
  | mRackOpenAns _ => exact h.execMRackOpenAns
  | mRackData _ _ _ => exact h.execMRackData
  | rackRoundDone => exact h.execRackRoundDone
  | mRackPrepare _ _ _ _ => exact h.execMRackPrepare
  | mRackReady _ _ => exact h.execMRackReady
  | rackFreezeTimeout => exact h.execRackFreezeTimeout
  | mRackAbort _ => exact h.execMRackAbort
  | mHomeChange _ _ _ => exact h.execMHomeChange
  | mHomeAck _ => exact h.execMHomeAck
  | mDirUpdate _ _ => exact h.execMDirUpdate
  | mDirAck _ => exact h.execMDirAck
  | mPublishFwd _ _ _ => exact h.execMPublishFwd
  | mPublishAns _ _ => exact h.execMPublishAns
  | mEpochRelease _ => exact h.execMEpochRelease
  | mLend _ _ _ => exact h.execMLend
  | mLendAck _ _ => exact h.execMLendAck
  | mRecall _ _ => exact h.execMRecall
  | recallReadsDrained _ _ => exact h.execRecallReadsDrained
  | mRecallAns _ _ => exact h.execMRecallAns
  | recallTimeout _ _ => exact h.execRecallTimeout
  | mT3Read _ _ _ _ => exact h.execMT3Read
  | mT3Data _ _ _ => exact h.execMT3Data rfl
  | mT3Write _ _ _ _ => exact h.execMT3Write
  | t3ReadTimeout _ => exact h.execT3ReadTimeout
  | linkUp _ _ => exact h.execLinkUp
  | linkDown _ _ => exact h.execLinkDown
  | peerRequestRetry _ => exact h.execPeerRequestRetry rfl
  | requestGiveUp _ => exact h.execRequestGiveUp rfl
  | answerExpiry _ _ => exact h.execAnswerExpiry
  | leaseRenewDue _ => exact h.execLeaseRenewDue
  | leaseWaitExpiry _ _ _ => exact h.execLeaseWaitExpiry
  | peerHoldsTimeout _ => exact h.execPeerHoldsTimeout
  | loadHalving => exact h.execLoadHalving
  | freqHalving => exact h.execFreqHalving
  | scrubRead _ _ => exact h.execScrubRead rfl
  | kilnPageRead _ _ _ _ => exact h.execKilnPageRead
  | kilnJournalHeld => exact h.execKilnJournalHeld
  | checkpointValid => exact h.execCheckpointValid
  | kilnFold => exact h.execKilnFold
  | wearLevelling => exact h.execWearLevelling
  | disturbRelocate _ => exact h.execDisturbRelocate
  | kilnDeviceTimeout _ => exact h.execKilnDeviceTimeout rfl
  | kilnRebuildDone => exact h.execKilnRebuildDone
  | zqShortCalibration => exact h.execZqShortCalibration
  | logAppend _ _ => exact h.execLogAppend
  | watchdogFire _ _ => exact h.execWatchdogFire rfl
  | budgetExpiry _ => exact h.execBudgetExpiry rfl
  | tunFaultCountExpiry _ => exact h.execTunFaultCountExpiry
  | selftestSlot => exact h.execSelftestSlot
  | ageMonitorMeasure _ _ => exact h.execAgeMonitorMeasure rfl
  | timerRecal => exact h.execTimerRecal
  | calLost => exact h.execCalLost
  | irqHoldoffExpiry _ => exact h.execIrqHoldoffExpiry
  | globalHoldoffExpiry => exact h.execGlobalHoldoffExpiry
  | domainLost _ => exact h.execDomainLost
  | domainRegained _ => exact h.execDomainRegained
  | telemetrySample _ => exact h.execTelemetrySample rfl
  | portCapChange _ => exact h.execPortCapChange rfl
  | derateChange _ => exact h.execDerateChange rfl
  | capWindowEnd _ _ => exact h.execCapWindowEnd rfl
  | thermalCapStart _ _ => exact h.execThermalCapStart rfl
  | thermalCapStep _ _ => exact h.execThermalCapStep rfl
  | thermHalt _ _ => exact h.execThermHalt rfl
  | thermResumed _ => exact h.execThermResumed rfl
  | sagRise _ _ => exact h.execSagRise rfl
  | sagStepDown _ => exact h.execSagStepDown rfl
  | sagPersist _ => exact h.execSagPersist rfl
  | pfwAssert => exact h.execPfwAssert rfl
  | pfwSettleExpiry => exact h.execPfwSettleExpiry rfl
  | pfwWritebackDone => exact h.execPfwWritebackDone rfl
  | pfwCleared => exact h.execPfwCleared rfl
  | pwrGoodRise => exact h.execPwrGoodRise
  | pwrGoodFall => exact h.execPwrGoodFall (clears_writes rfl)
  | rstColdRelease => exact h.execRstColdRelease
  | rstWarmRequest => exact h.execRstWarmRequest
  | coldStart => exact h.execColdStart (clears_writes rfl)
  | startStepComplete _ => exact h.execStartStepComplete rfl rfl
  | startupTimeout => exact h.execStartupTimeout
  | warmReset => exact h.execWarmReset
  | warmStepComplete _ => exact h.execWarmStepComplete (clears_writes rfl)
  | leaseLapsed _ => exact h.execLeaseLapsed
  | programEraseFailure _ => exact h.execProgramEraseFailure rfl
  | rstColdAssert => exact h.execRstColdAssert (clears_writes rfl)

/-- What a command does not act on stands: the parts of `KeepsOf` by those of `Part`. -/
theorem Within.keepsOf {i : Instr} (h : Within (writes i) s t) : KeepsOf i s t := by
  have stands {p : Part} (hc : clearsBlock i = false) (hp : actsOn i p = false) : writes i p = false :=
    (writes_of_clearsBlock_eq_false hc).trans hp
  refine ⟨h.fuses, h.pending, fun hc => ⟨?regs, ?pace, ?repair, ?plans, ?rows, fun hreg => ⟨?tenants, ?hp, ?salts⟩, ?wrap⟩,
    fun hwin a => ?bytes⟩
  case regs => exact fun hi => h.regs (stands hc hi)
  case pace => exact fun hi => h.pace (stands hc hi)
  case repair => exact fun hi => h.repair (stands hc hi)
  case plans =>
    exact fun hs => ⟨h.planInForce (stands hc (by simp only [actsOn])), fun hl => h.planStaged (stands hc (by simp only [actsOn]))⟩
  case rows => exact fun hi => h.sortRows (stands hc (by simp only [actsOn]))
  case tenants => exact fun hi => h.tenantRecs (stands hc (by simp only [actsOn, hi]))
  case hp => exact fun hi => h.hyperparams (stands hc (by simp only [actsOn]))
  case salts => exact fun hi => h.salts (stands hc (by simp only [actsOn]))
  case wrap => exact fun hi => h.wrapGens (stands hc (by simp only [actsOn]))
  case bytes =>
    have hw : writes i .windows = false := writes_windows.trans (by simp only [actsOn])
    refine ⟨by rw [h.kilnBytes hw], h.chipBytes hw a, fun hc hi => ?_⟩
    rw [h.cellarBytes (stands hc (by simp only [actsOn, hi]))]

end Sys2Proof.Machine
end

open Sys2Proof Sys2Proof.Machine in
/-- Settles O58: every command leads within the parts that `writes` names, and what those leave out is what `KeepsOf` keeps. -/
theorem partsChangeOnlyByTheirCommands : Obligations.PartsChangeOnlyByTheirCommands := by
  unfold Obligations.PartsChangeOnlyByTheirCommands
  exact fun i s t ht => (leads_exec i s t ht).keepsOf

section
/-! PROOFS. Why `Obligations.GristEventsComplete` fails: it speaks of any table of rows, and a table that lists a row a second time, past a
greater one, hands the second's data to the first where the end of pass 1 marks far-applied components (R73, R218). No run builds such a
table: rows are put in key order. -/
namespace Sys2Proof.Machine

/-- A row of which adapter 8, homed on block 1, is the one component. -/
def remoteRow : Row := { comps := [{ adapter := 8, version := 1 }] }

/-- Context 0's gyle whose last entry names no model; its rows list row 0 behind row 1 before it is resolved. -/
def twiceListed : Gyle :=
  { key := ownGyle 0 0, closed := true, rowsGiven := 1, entries := [List.replicate 16 0], rows := [(1, {}), (0, remoteRow)] }

/-- The gyle alone on its block, with adapter 8's version in the catalogue. -/
def twiceListedState : State :=
  { cat := { adapters := [(8, { current := 1, versions := [slotVersion 8] })], exceptions := [(8, 2)] }
    pace := { gate := 16 }
    gyles := [twiceListed] }

/-- The entry names a model that the plan lacks: a default row of cause 0x9 (R65). -/
theorem twiceListed_resolves : ∃ r, r.cause = 0x9 ∧
    let g := { twiceListed with entries := [], resolved := 1, parkedEntries := tput 0 (List.replicate 16 0) [] }
    resolveEntry (setGyle (stamp twiceListedState) g) g (rowEntry (List.replicate 16 0)) = .row r :=
  ⟨{ cause := 0x9, comps := [{}], passes := false }, rfl, by decide⟩

/-- The end of pass 1 marks the second row 0 far-applied and writes it over the first, which has no cause. -/
theorem twiceListed_cause : ∀ g, (rowResolve 0 0 twiceListedState).gyle (ownGyle 0 0) = some g → (tget {} g.rows 0).cause = 0 := by
  decide

end Sys2Proof.Machine
end

open Sys2Proof Sys2Proof.Machine in
/-- Refutes O46: a gyle whose table of rows lists the row resolved last a second time, past a greater row. The row is placed with cause
0x9, and the far-apply marks of its double, of cause 0, then replace it. -/
theorem not_gristEventsComplete : ¬ Obligations.GristEventsComplete := by
  unfold Obligations.GristEventsComplete
  rintro ⟨h, -⟩
  obtain ⟨hpass1, -⟩ := h 0 0 twiceListedState twiceListed rfl (by decide) (by decide)
  obtain ⟨t, g, ht, hg, -, -, -, hrow, -⟩ := hpass1 (List.replicate 16 0) [] rfl
  obtain ⟨r, hr, hresolved⟩ := twiceListed_resolves
  obtain rfl : rowResolve 0 0 twiceListedState = t := Host.Outcome.next.inj ht
  obtain ⟨hcause, -⟩ := hrow r hresolved
  rw [show twiceListed.resolved = 0 from rfl, twiceListed_cause g hg, hr] at hcause
  exact absurd hcause (by decide)

section
/-! PROOFS. What stands while gyles are released, commands end and a context is torn down (`Obligations.MemoryResponsesComplete`): gyles that
are gone stay gone, a faulted context stays faulted with its cause, and no command begins to wait under R215. -/
namespace Sys2Proof.Machine

-- Each proof waits for the one before it: all at once would each hold a thread.
set_option Elab.async false

/-- Between `s` and `t` work ends and none begins: no gyle comes, no faulted context leaves its state, and of the commands that wait under
R215 some end or lose their context. -/
structure EndsWork (s t : State) : Prop where
  gone : ∀ k, s.gyle k = none → t.gyle k = none := by exact fun _ h => h
  faulted : ∀ c, (s.ctx c).st = .faulted → (t.ctx c).st = .faulted ∧ (t.ctx c).faultCause = (s.ctx c).faultCause := by
    exact fun _ h => ⟨h, rfl⟩
  waits : ∀ w ∈ t.homes.supersedes, w.ctx = none ∨ w ∈ s.homes.supersedes := by exact fun _ h => .inr h

variable {s₀ s t : State}

protected theorem EndsWork.refl (s : State) : EndsWork s s := {}

protected theorem EndsWork.trans {u : State} (h : EndsWork s t) (k : EndsWork t u) : EndsWork s u where
  gone g hg := k.gone g (h.gone g hg)
  faulted c hc := by
    obtain ⟨ht, hcause⟩ := h.faulted c hc
    obtain ⟨hu, hcause'⟩ := k.faulted c ht
    exact ⟨hu, hcause'.trans hcause⟩
  waits w hw := by
    rcases k.waits w hw with hnone | ht
    · exact .inl hnone
    · exact h.waits w ht

/-- An update of other parts of the state. -/
protected theorem EndsWork.same {gauger log pages catStaged staging cat catRetiring dir dirOld handles tuns heldGroups orphans ports
      spillUsed cellar tiers train homes kiln integrity boundary outs freeCtr} (h : EndsWork s₀ s)
    (hwaits : homes.supersedes = s.homes.supersedes := by with_reducible rfl) :
    EndsWork s₀ { s with
      gauger, log, pages, catStaged, staging, cat, catRetiring, dir, dirOld, handles, tuns, heldGroups, orphans, ports, spillUsed, cellar,
      tiers, train, homes, kiln, integrity, boundary, outs, freeCtr } :=
  h.trans { waits := fun w hw => .inr (hwaits ▸ hw) }

protected theorem EndsWork.foldl {α : Type} {g : State → α → State} {l : List α} (h : EndsWork s₀ s)
    (hg : ∀ {t}, EndsWork s₀ t → ∀ a, EndsWork s₀ (g t a)) : EndsWork s₀ (l.foldl g s) := by
  induction l generalizing s with
  | nil => exact h
  | cons a l ih => exact ih (hg h a)

protected theorem EndsWork.ite {c : Prop} [Decidable c] (hs : EndsWork s₀ s) (ht : EndsWork s₀ t) : EndsWork s₀ (if c then s else t) := by
  split
  · exact hs
  · exact ht

/-- The work of the tiers and casks ends none of this. -/
theorem EndsWork.work (h : EndsWork s₀ s) (k : CellarWork s t) : EndsWork s₀ t := by
  induction k with
  | refl => exact h
  | other _ ih => exact ih.same
  | @t4Gone t _ epoch a v gone ih => fun_cases modVerOf t epoch a v fun y => { y with t4Gone := gone y } <;> exact ih.same

protected theorem EndsWork.stamp (h : EndsWork s₀ s) : EndsWork s₀ (stamp s) := h.work CellarWork.refl.stamp

protected theorem EndsWork.sendMsg {m} (h : EndsWork s₀ s) : EndsWork s₀ (sendMsg s m) := h.work CellarWork.refl.sendMsg

protected theorem EndsWork.emit {o} (h : EndsWork s₀ s) : EndsWork s₀ (emit s o) := h.same

protected theorem EndsWork.raise {page cls} (h : EndsWork s₀ s) : EndsWork s₀ (raise s page cls) := h.same

protected theorem EndsWork.bumpFree (h : EndsWork s₀ s) : EndsWork s₀ (bumpFree s) := h.same

protected theorem EndsWork.modPort {p f} (h : EndsWork s₀ s) : EndsWork s₀ (modPort s p f) := h.same

protected theorem EndsWork.modTun {n f} (h : EndsWork s₀ s) : EndsWork s₀ (modTun s n f) := h.same

/-! ### Contexts -/

/-- A change of a context that leaves it faulted with its cause, where it is. -/
protected theorem EndsWork.setCtx {c x} (h : EndsWork s₀ s)
    (hx : (s.ctx c).st = .faulted → x.st = .faulted ∧ x.faultCause = (s.ctx c).faultCause) : EndsWork s₀ (setCtx s c x) :=
  h.trans
    { faulted := fun d hd => by
        by_cases hdc : d = c
        · subst hdc
          simpa using hx hd
        · rw [setCtx_ctx_ne _ _ hdc]
          exact ⟨hd, rfl⟩ }

protected theorem EndsWork.modCtx {c f} (h : EndsWork s₀ s)
    (hf : ∀ x : Ctx, (f x).st = x.st ∧ (f x).faultCause = x.faultCause := by exact fun _ => ⟨rfl, rfl⟩) : EndsWork s₀ (modCtx s c f) :=
  h.setCtx fun hc => ⟨(hf _).1.trans hc, (hf _).2⟩

/-- A context that is not faulted may take another state. -/
protected theorem EndsWork.setCtxState {c st} (h : EndsWork s₀ s) (hc : (s.ctx c).st ≠ .faulted) : EndsWork s₀ (setCtxState s c st) := by
  fun_cases setCtxState s c st
  · exact h
  · exact (h.setCtx fun hf => absurd hf hc).stamp.raise

protected theorem EndsWork.issueReq {r} (h : EndsWork s₀ s) : EndsWork s₀ (issueReq s r) := by
  fun_cases issueReq s r <;> exact h.same

protected theorem EndsWork.startXfer {use write addr bytes data} (h : EndsWork s₀ s) :
    EndsWork s₀ (startXfer s use write addr bytes data) := by
  unfold startXfer
  extract_lets _ _ _ s1
  have h1 : EndsWork s₀ s1 := h.same
  exact h1.foldl fun k _ => k.issueReq

protected theorem EndsWork.retryWaiting (h : EndsWork s₀ s) : EndsWork s₀ (retryWaiting s) := h.same.foldl fun k _ => k.issueReq

protected theorem EndsWork.dropXfers {p} (h : EndsWork s₀ s) : EndsWork s₀ (dropXfers s p) := h.same

protected theorem EndsWork.settle {c} (h : EndsWork s₀ s) : EndsWork s₀ (settle s c) := by
  unfold settle
  split
  · rename_i hrun
    exact h.setCtxState fun hf => by simp [hf] at hrun
  · exact h

/-- A descriptor is taken only where the context is not faulted. -/
protected theorem EndsWork.pump {c} (h : EndsWork s₀ s) : EndsWork s₀ (pump s c) := by
  unfold pump
  split
  · rename_i htake
    have hst : (s.ctx c).st ≠ .faulted := fun hf => by simp [mayTake, hf] at htake
    extract_lets x addr s1 s2
    have h1 : EndsWork s₀ s1 := h.setCtx fun hf => absurd hf hst
    have hst1 : (s1.ctx c).st ≠ .faulted := by simpa [s1] using hst
    exact ((h1.setCtxState hst1).ite h1).startXfer
  · exact h

protected theorem EndsWork.afterCmd {c} (h : EndsWork s₀ s) : EndsWork s₀ (afterCmd s c) := h.settle.pump

protected theorem EndsWork.postRecord {c opcode status cflags sqIndex gyle result done} (h : EndsWork s₀ s) :
    EndsWork s₀ (postRecord s c opcode status cflags sqIndex gyle result done) := by
  unfold postRecord
  extract_lets x
  split
  · exact h.setCtx fun hf => ⟨hf, rfl⟩
  · rename_i s1 _
    have h1 : EndsWork s₀ s1 := h.setCtx fun hf => ⟨hf, rfl⟩
    exact h1.startXfer

protected theorem EndsWork.completeLater {c cmd status cflags result} (h : EndsWork s₀ s) :
    EndsWork s₀ (completeLater s c cmd status cflags result) :=
  h.modCtx.postRecord.afterCmd

/-! ### Gyles -/

/-- Where no gyle of a name is, none comes by a change of gyles of other names. -/
theorem modGyle_gyle_none {k j : GyleKey} {f : Gyle → Gyle} (h : s.gyle j = none) : (modGyle s k f).gyle j = none := by
  by_cases hj : j = k
  · subst hj
    simp [modGyle, h]
  · rw [modGyle_gyle_ne _ _ hj]
    exact h

protected theorem EndsWork.modGyle {k f} (h : EndsWork s₀ s) : EndsWork s₀ (modGyle s k f) :=
  h.trans
    { gone := fun _ hj => modGyle_gyle_none hj
      faulted := fun c hc => by
        rw [ctx_of_ctxs (modGyle_ctxs ..)]
        exact ⟨hc, rfl⟩
      waits := fun w hw => .inr (by simpa using hw) }

theorem dropGyle_gyle_none {k j : GyleKey} (h : s.gyle j = none) : (dropGyle s k).gyle j = none := by
  simp only [State.gyle, dropGyle, List.find?_eq_none, List.mem_filter] at h ⊢
  exact fun g hg => h g hg.1

protected theorem EndsWork.dropGyle {k} (h : EndsWork s₀ s) : EndsWork s₀ (dropGyle s k) := h.trans { gone := fun _ => dropGyle_gyle_none }

protected theorem EndsWork.releaseHolds {g} (h : EndsWork s₀ s) : EndsWork s₀ (releaseHolds s g) := (h.foldl fun k _ => k.sendMsg).same

protected theorem EndsWork.unbindGyle {k} (h : EndsWork s₀ s) : EndsWork s₀ (unbindGyle s k) := h.work CellarWork.refl.unbindGyle

protected theorem EndsWork.pruneVersions (h : EndsWork s₀ s) : EndsWork s₀ (pruneVersions s) := by
  unfold pruneVersions
  extract_lets _ _ s1 _
  have h1 : EndsWork s₀ s1 := h.same
  exact h1.same

protected theorem EndsWork.freeHandles (h : EndsWork s₀ s) : EndsWork s₀ (freeHandles s) := h.same

protected theorem EndsWork.settleDirectory (h : EndsWork s₀ s) : EndsWork s₀ (settleDirectory s) := h.same

protected theorem EndsWork.keepStreams {keep} (h : EndsWork s₀ s) : EndsWork s₀ (keepStreams s keep) := h.same

protected theorem EndsWork.endOldPrefetches {epoch} (h : EndsWork s₀ s) : EndsWork s₀ (endOldPrefetches s epoch) :=
  h.foldl fun k _ => k.foldl fun k2 _ => k2.stamp.completeLater.ite k2

protected theorem EndsWork.releaseBy {f} (h : EndsWork s₀ s) (hf : ∀ {t}, EndsWork s₀ t → EndsWork s₀ (f t)) :
    EndsWork s₀ (releaseBy s f) :=
  (hf h).work CellarWork.refl.releaseFrom

protected theorem EndsWork.dropEpoch {epoch} (h : EndsWork s₀ s) : EndsWork s₀ (dropEpoch s epoch) :=
  h.releaseBy fun k => k.same.keepStreams.endOldPrefetches

protected theorem EndsWork.releaseEpoch (h : EndsWork s₀ s) : EndsWork s₀ (releaseEpoch s) := by
  fun_cases releaseEpoch s
  · exact h
  · exact h
  · exact (h.ite (h.same.foldl fun k _ => k.sendMsg)).dropEpoch
  · exact h.ite (h.same.foldl fun k _ => k.sendMsg)

protected theorem EndsWork.releaseGyle {k} (h : EndsWork s₀ s) : EndsWork s₀ (releaseGyle s k) := by
  fun_cases releaseGyle s k
  · exact h
  · exact h.releaseHolds.dropGyle.same.unbindGyle.pruneVersions.freeHandles.settleDirectory.releaseEpoch

/-- A gyle that is released is gone. -/
theorem releaseGyle_gyle (s : State) (k : GyleKey) : (releaseGyle s k).gyle k = none := by
  fun_cases releaseGyle s k with
  | case1 h => exact h
  | case2 g hg s1 s2 s3 s4 =>
    have h3 : s3.gyle k = none := dropGyle_gyle_self s1 k
    exact ((EndsWork.refl s3).unbindGyle.pruneVersions.freeHandles.settleDirectory.releaseEpoch).gone k h3

/-! ### Teardown -/

protected theorem EndsWork.measureFreeze {r} (h : EndsWork s₀ s) : EndsWork s₀ (measureFreeze s r) := by
  fun_cases measureFreeze s r
  · exact h.same.bumpFree
  · exact h

protected theorem EndsWork.withdrawWords {c} (h : EndsWork s₀ s) : EndsWork s₀ (withdrawWords s c) := h.foldl fun k _ => k.emit.ite k

protected theorem EndsWork.farCancel {g} (h : EndsWork s₀ s) : EndsWork s₀ (farCancel s g) := h.foldl fun k _ => k.sendMsg

protected theorem EndsWork.freeResv {k slot row} (h : EndsWork s₀ s) : EndsWork s₀ (freeResv s k slot row) := by
  fun_cases freeResv s k slot row
  · exact h
  · exact h
  · exact (h.same.ite h.modPort).modGyle

protected theorem EndsWork.freeAllResv {k} (h : EndsWork s₀ s) : EndsWork s₀ (freeAllResv s k) := by
  fun_cases freeAllResv s k
  · exact h
  · exact h.foldl fun k _ => k.freeResv

protected theorem EndsWork.clearHeld {k} (h : EndsWork s₀ s) : EndsWork s₀ (clearHeld s k) := h.same

protected theorem EndsWork.clearWork {k} (h : EndsWork s₀ s) : EndsWork s₀ (clearWork s k) :=
  ((h.freeAllResv.foldl fun k _ => k.modPort).foldl fun k _ => k.modTun).clearHeld.same

protected theorem EndsWork.forgetCredit {k} (h : EndsWork s₀ s) : EndsWork s₀ (forgetCredit s k) := h.foldl fun k _ => k.modPort

protected theorem EndsWork.tearGyle {g} (h : EndsWork s₀ s) : EndsWork s₀ (tearGyle s g) := h.farCancel.clearWork.releaseGyle.forgetCredit

protected theorem EndsWork.dropRack {r tell} (h : EndsWork s₀ s) : EndsWork s₀ (dropRack s r tell) := by
  fun_cases dropRack s r tell
  · exact h.same.sendMsg
  · exact h.same

/-- A waiting command that loses its context waits for none. -/
theorem EndsWork.forgetCtx {homes : Homes} {f : Supersede → Supersede} (h : EndsWork s₀ s)
    (hwaits : homes.supersedes = s.homes.supersedes.map f) (hf : ∀ w, (f w).ctx = none ∨ f w = w) : EndsWork s₀ { s with homes } :=
  h.trans
    { waits := fun w hw => by
        obtain ⟨v, hv, rfl⟩ := List.mem_map.mp (hwaits ▸ hw)
        rcases hf v with hnone | hv'
        · exact .inl hnone
        · exact .inr (hv'.symm ▸ hv) }

protected theorem EndsWork.dropCmd {c m} (h : EndsWork s₀ s) : EndsWork s₀ (dropCmd c s m) := by
  fun_cases dropCmd c s m
  · exact h.same.releaseGyle
  · exact h.same.modGyle
  · refine h.forgetCtx rfl fun w => ?_
    split
    · exact .inl rfl
    · exact .inr rfl
  · exact h.same
  · exact h.same
  · exact h
  · exact h.dropRack
  · exact h.same
  · exact h
  · exact h
  · exact h.same
  · exact h.same
  · exact h

protected theorem EndsWork.postEnding {c e} (h : EndsWork s₀ s) : EndsWork s₀ (postEnding c s e) := h.stamp.postRecord

protected theorem EndsWork.teardown {c} (h : EndsWork s₀ s) : EndsWork s₀ (teardown s c) := by
  unfold teardown
  extract_lets _ s1 _ _ _ _ _ _ _ _ _
  have h1 : EndsWork s₀ s1 := by
    unfold s1
    split
    · exact h.modCtx.measureFreeze.ite h.modCtx
    · exact h.modCtx
  exact (((h1.withdrawWords.foldl fun k _ => k.tearGyle).foldl fun k _ => k.dropCmd).dropXfers.modCtx.foldl fun k _ => k.postEnding).modCtx

/-! ### Commands that waited for lease holders -/

protected theorem EndsWork.reply {to_ type status args data} (h : EndsWork s₀ s) : EndsWork s₀ (reply s to_ type status args data) :=
  h.sendMsg.same

protected theorem EndsWork.endSupersede {w} (h : EndsWork s₀ s) : EndsWork s₀ (endSupersede s w) := by
  unfold endSupersede
  extract_lets s1 s2
  have h2 : EndsWork s₀ s2 := by
    unfold s2
    split
    · exact h.stamp.reply
    · exact h.stamp
  clear_value s2
  split
  · exact h2
  · extract_lets s3 k
    have h3 : EndsWork s₀ s3 := by
      unfold s3
      split
      · exact h2.completeLater
      · exact h2
    clear_value s3
    exact .ite h3.same.releaseGyle h3

/-- A command whose wait is over is ended, and the others wait on. -/
protected theorem EndsWork.endSupersedes (h : EndsWork s₀ s) : EndsWork s₀ (endSupersedes s) := by
  have hleft : EndsWork s₀ { s with homes := { s.homes with
      supersedes := s.homes.supersedes.filter fun w => !(w.waiting.isEmpty && w.ready) } } :=
    h.trans { waits := fun w hw => .inr (List.mem_filter.mp hw).1 }
  exact hleft.foldl fun k _ => k.endSupersede

end Sys2Proof.Machine
end

section
/-! PROOFS. What a response of a memory port does (`Obligations.MemoryResponsesComplete`). A response that passes its check takes its request
from the table, counts its bytes and adds a chunk to its transfer; a transfer without chunks left serves its use in the state
`arrived`. -/
namespace Sys2Proof.Machine

-- Each proof waits for the one before it: all at once would each hold a thread.
set_option Elab.async false

/-! ### Transfers -/

@[simp] theorem issueReq_xfers (s : State) (r : MemReq) : (issueReq s r).boundary.xfers = s.boundary.xfers := by
  fun_cases issueReq s r <;> rfl

@[simp] theorem retryWaiting_xfers (s : State) : (retryWaiting s).boundary.xfers = s.boundary.xfers :=
  foldl_field (·.boundary.xfers) issueReq issueReq_xfers s.boundary.memWaiting _

@[simp] theorem retryWaiting_ctx (s : State) (c : Nat) : (retryWaiting s).ctx c = s.ctx c := ctx_of_ctxs (by simp) c

@[simp] theorem retryWaiting_gyle (s : State) (k : GyleKey) : (retryWaiting s).gyle k = s.gyle k := gyle_of_gyles (by simp) k

theorem startXfer_xfers (s : State) (use : MemUse) (write : Bool) (addr bytes : Nat) (data : List Byte) :
    (startXfer s use write addr bytes data).boundary.xfers =
      s.boundary.xfers ++ [{ id := s.boundary.nextXfer, use, write, left := (chunks (bytes / 4096 + 2) 0 addr bytes).length }] :=
  foldl_field (·.boundary.xfers) _ (fun _ _ => issueReq_xfers ..) _ _

/-- A transfer stands in the table under the number that was next. -/
theorem mem_startXfer (s : State) (use : MemUse) (write : Bool) (addr bytes : Nat) (data : List Byte) :
    ∃ z ∈ (startXfer s use write addr bytes data).boundary.xfers, z.id = s.boundary.nextXfer ∧ z.use = use := by
  rw [startXfer_xfers]
  exact ⟨_, List.mem_append_right _ (List.mem_singleton_self _), rfl, rfl⟩

/-! ### Sequences and pages -/

theorem stamp_seq (s : State) :
    (stamp s).gauger.seq = if (s.gauger.seq + 1) % 2 ^ 32 = 0 then s.gauger.seq + 2 else s.gauger.seq + 1 := by
  unfold stamp
  extract_lets n
  split <;> rfl

/-- The sequence of a stamp depends on the sequence before it alone. -/
theorem stamp_seq_congr {s t : State} (h : t.gauger.seq = s.gauger.seq) : (stamp t).gauger.seq = (stamp s).gauger.seq := by
  simp only [stamp_seq, h]

theorem isCtxPage_pgCtx (c : Fin 64) : isCtxPage (pgCtx c) = true := by
  have := c.isLt
  rw [isCtxPage, pgCtx, Bool.and_eq_true, decide_eq_true_iff, decide_eq_true_iff]
  omega

/-- A class of a page raises nothing on another page, `GLOBAL` apart. -/
theorem raiseAt_page_ne {s : State} {page cls p : Nat} {q : Seq} (hp : p ≠ page) (hg : p ≠ pgGlobal) :
    (raiseAt s page cls q).page p = s.page p := by
  simp only [State.page, raiseAt, drivePage]
  split
  · rw [tget_tmod_ne _ _ _ hp, tget_tmod_ne _ _ _ hp]
  · rw [tget_tmod_ne _ _ _ hg, tget_tmod_ne _ _ _ hp]

theorem raiseAt_page_ctx (s : State) (c : Fin 64) (cls : Nat) (q : Seq) :
    (raiseAt s (pgCtx c) cls q).page (pgCtx c) =
      { s.page (pgCtx c) with classSeq := tset 0 (s.page (pgCtx c)).classSeq cls (max q (tget 0 (s.page (pgCtx c)).classSeq cls)) }.drive
        (PageHdr.active { s.page (pgCtx c) with
          classSeq := tset 0 (s.page (pgCtx c)).classSeq cls (max q (tget 0 (s.page (pgCtx c)).classSeq cls)) })
        (regFld s (pgCtx c) 0x0A0 16 16) := by
  simp [State.page, raiseAt, drivePage, isCtxPage_pgCtx]

/-- Class `k` of a context's page after a class of the page is raised (R316). -/
theorem raiseAt_classSeq (s : State) (c : Fin 64) (cls k : Nat) (q : Seq) :
    tget 0 ((raiseAt s (pgCtx c) cls q).page (pgCtx c)).classSeq k =
      if k = cls then max q (tget 0 (s.page (pgCtx c)).classSeq cls) else tget 0 (s.page (pgCtx c)).classSeq k := by
  rw [raiseAt_page_ctx]
  simp only [PageHdr.drive]
  split
  · rename_i hk
    rw [hk, tget_tset_self]
  · rename_i hk
    rw [tget_tset_ne _ _ _ hk]

theorem pgCtx_ne_logbook (c : Fin 64) : pgCtx c ≠ pgLogbook := by simp [pgCtx, pgLogbook]; omega

theorem pgCtx_ne_global (c : Fin 64) : pgCtx c ≠ pgGlobal := by simp [pgCtx, pgGlobal]

theorem reserveBlock_page_ctx (s : State) (b : Nat) (c : Fin 64) : (reserveBlock s b).page (pgCtx c) = s.page (pgCtx c) := by
  unfold reserveBlock
  extract_lets r lb lb' t
  split
  · exact raiseAt_page_ne (pgCtx_ne_logbook c) (pgCtx_ne_global c)
  · rfl

/-- A stamp raises nothing on a context's page. -/
theorem stamp_page_ctx (s : State) (c : Fin 64) : (stamp s).page (pgCtx c) = s.page (pgCtx c) := by
  unfold stamp
  extract_lets n
  split
  · exact reserveBlock_page_ctx s (n / 2 ^ 32) c
  · rfl

/-! ### After a command -/

/-- What the end of a command leaves of its context's ring and of the class `COMPLETION`. -/
theorem setCtxState_classSeq (s : State) (c : Fin 64) (st : CtxState) :
    tget 0 ((setCtxState s c st).page (pgCtx c)).classSeq 0 = tget 0 (s.page (pgCtx c)).classSeq 0 := by
  fun_cases setCtxState s c st
  · rfl
  · unfold stampRaise raise
    rw [raiseAt_classSeq, if_neg (by decide), stamp_page_ctx]
    rfl

theorem setCtxState_cqTail (s : State) (c d : Nat) (st : CtxState) : ((setCtxState s c st).ctx d).cqTail = (s.ctx d).cqTail := by
  fun_cases setCtxState s c st
  · rfl
  · rw [ctx_of_ctxs (stampRaise_ctxs ..)]
    by_cases hd : d = c
    · subst hd; simp
    · rw [modCtx_ctx_ne _ _ hd]

theorem settle_classSeq (s : State) (c : Fin 64) :
    tget 0 ((settle s c).page (pgCtx c)).classSeq 0 = tget 0 (s.page (pgCtx c)).classSeq 0 := by
  unfold settle
  split
  · exact setCtxState_classSeq ..
  · rfl

theorem settle_cqTail (s : State) (c d : Nat) : ((settle s c).ctx d).cqTail = (s.ctx d).cqTail := by
  unfold settle
  split
  · exact setCtxState_cqTail ..
  · rfl

theorem startXfer_page (s : State) (use : MemUse) (write : Bool) (addr bytes : Nat) (data : List Byte) (n : Nat) :
    (startXfer s use write addr bytes data).page n = s.page n := by
  simp [State.page]

theorem pump_classSeq (s : State) (c : Fin 64) :
    tget 0 ((pump s c).page (pgCtx c)).classSeq 0 = tget 0 (s.page (pgCtx c)).classSeq 0 := by
  unfold pump
  split
  · extract_lets x addr s1 s2
    rw [startXfer_page]
    unfold s2
    split
    · exact setCtxState_classSeq ..
    · rfl
  · rfl

theorem pump_cqTail (s : State) (c d : Nat) : ((pump s c).ctx d).cqTail = (s.ctx d).cqTail := by
  unfold pump
  split
  · extract_lets x addr s1 s2
    have h1 : (s1.ctx d).cqTail = (s.ctx d).cqTail := by
      by_cases hd : d = c
      · subst hd; simp [s1, x]
      · simp [s1, setCtx_ctx_ne _ _ hd]
    rw [startXfer_ctx, ← h1]
    unfold s2
    split
    · exact setCtxState_cqTail ..
    · rfl
  · rfl

theorem afterCmd_classSeq (s : State) (c : Fin 64) :
    tget 0 ((afterCmd s c).page (pgCtx c)).classSeq 0 = tget 0 (s.page (pgCtx c)).classSeq 0 :=
  (pump_classSeq _ c).trans (settle_classSeq s c)

theorem afterCmd_cqTail (s : State) (c d : Nat) : ((afterCmd s c).ctx d).cqTail = (s.ctx d).cqTail :=
  (pump_cqTail _ c d).trans (settle_cqTail s c d)

/-- A completion record is posted, unless a completion write has failed (R270, R273). -/
theorem postRecord_posted {s : State} {c o st f i g : Nat} {res : List Byte} {dn : Option Nat} (h : (s.ctx c).faultCause ≠ 0x03) :
    ((postRecord s c o st f i g res dn).ctx c).posted =
      (s.ctx c).posted ++ [{ xfer := s.boundary.nextXfer, cmpSeq := s.gauger.seq, gyle := dn }] := by
  obtain ⟨hp, -⟩ := postRecord_posts s c o st f i g res dn h
  exact hp

/-! ### The request -/

/-- The state after a response that passes its check has taken its request from the table of its port and counted its bytes. -/
def responded (s : State) (p i : Nat) (r : MemReq) : State :=
  let t := dropReq (stamp s) p i
  countBytes (if 0 < r.retries then endPortFault t p else t) p r

/-- The state in which the last chunk of a transfer has arrived, and its use is served. -/
def arrived (s : State) (p i : Nat) (r : MemReq) : State := dropXfer (responded s p i r) r.xfer

/-- A level 1 fault ends in the integrity unit alone. -/
theorem endPortFault_only (s : State) (p : Nat) : ∃ integrity, endPortFault s p = { s with integrity } := by
  fun_cases endPortFault s p
  · exact ⟨_, rfl⟩
  · exact ⟨_, rfl⟩

/-- What is counted and freed stands in the boundary and, with the end of a level 1 fault, in the integrity unit. -/
theorem responded_only (s : State) (p i : Nat) (r : MemReq) : ∃ t integrity mem, t = stamp s ∧
    responded s p i r = { t with integrity, boundary := { t.boundary with mem } } := by
  unfold responded
  split
  · obtain ⟨integrity, h⟩ := endPortFault_only (dropReq (stamp s) p i) p
    refine ⟨stamp s, integrity, (countBytes (dropReq (stamp s) p i) p r).boundary.mem, rfl, ?_⟩
    dsimp only
    rw [h]
    rfl
  · exact ⟨stamp s, _, _, rfl, rfl⟩

variable {s : State} {p i : Nat} {r : MemReq} {x : Xfer}

theorem responded_ctxs : (responded s p i r).ctxs = s.ctxs := by
  obtain ⟨t, _, _, rfl, h⟩ := responded_only s p i r
  simp [h]

theorem responded_xfers : (responded s p i r).boundary.xfers = s.boundary.xfers := by
  obtain ⟨t, _, _, rfl, h⟩ := responded_only s p i r
  simp [h]

@[simp] theorem arrived_ctx (c : Nat) : (arrived s p i r).ctx c = s.ctx c := ctx_of_ctxs responded_ctxs c

@[simp] theorem arrived_gyle (k : GyleKey) : (arrived s p i r).gyle k = s.gyle k := by
  obtain ⟨t, _, _, rfl, h⟩ := responded_only s p i r
  exact gyle_of_gyles (by simp [arrived, dropXfer, h]) k

@[simp] theorem arrived_nextXfer : (arrived s p i r).boundary.nextXfer = s.boundary.nextXfer := by
  obtain ⟨t, _, _, rfl, h⟩ := responded_only s p i r
  simp [arrived, dropXfer, h]

@[simp] theorem arrived_rackSize : rackSize (arrived s p i r) = rackSize s := by
  obtain ⟨t, _, _, rfl, h⟩ := responded_only s p i r
  simp [rackSize, regFld, reg, arrived, dropXfer, h]

theorem arrived_seq : (arrived s p i r).gauger.seq = (stamp s).gauger.seq := by
  obtain ⟨t, _, _, rfl, h⟩ := responded_only s p i r
  simp [arrived, dropXfer, h]

theorem arrived_page (c : Fin 64) : (arrived s p i r).page (pgCtx c) = s.page (pgCtx c) := by
  obtain ⟨t, _, _, rfl, h⟩ := responded_only s p i r
  rw [← stamp_page_ctx s c]
  simp [State.page, arrived, dropXfer, h]

end Sys2Proof.Machine
end

section
/-! PROOFS. The responses of the memory ports, use by use (`Obligations.MemoryResponsesComplete`). -/
namespace Sys2Proof.Machine

-- Each proof waits for the one before it: all at once would each hold a thread.
set_option Elab.async false

variable {s t : State} {p i : Nat} {r : MemReq} {x : Xfer} {w : Bool} {data bs : List Byte} {c : Fin 64}

/-! ### The transfer of a response -/

/-- The bytes of a read once the request's chunk has joined them. -/
def readBytes (x : Xfer) (r : MemReq) (data : List Byte) : List Byte := (tput r.chunk (padTo r.bytes data) x.got).flatMap (·.2)

theorem findReq_write (h : findReq s p i w = some r) : r.write = w := by
  have := List.find?_some h
  simp only [Bool.and_eq_true, decide_eq_true_eq] at this
  exact this.2

theorem findReq_mem (h : findReq s p i w = some r) : r ∈ (tget {} s.boundary.mem p : MemPort).outstanding := List.mem_of_find?_eq_some h

theorem memResponse_ok (hp : domainPresent s (128 + p) = true) (hr : findReq s p i w = some r) :
    memResponse p i w data .ok s = retryWaiting (chunkDone (responded s p i r) r data) := by
  simp [memResponse, hr, hp, noteParity, responded]

/-- More chunks of the transfer are to come. -/
theorem chunkDone_more (hx : t.boundary.xfers.find? (fun y => y.id = r.xfer) = some x) (hl : 1 < x.left) :
    chunkDone t r data = { t with boundary := { t.boundary with xfers := t.boundary.xfers.map fun y => if y.id = r.xfer then
      { x with left := x.left - 1, got := if x.write then x.got else tput r.chunk (padTo r.bytes data) x.got } else y } } := by
  have : x.left - 1 ≠ 0 := by omega
  simp [chunkDone, hx, this]

theorem chunkDone_read (hx : t.boundary.xfers.find? (fun y => y.id = r.xfer) = some x) (hl : x.left = 1) (hw : x.write = false) :
    chunkDone t r data = readDone (dropXfer t r.xfer) x.use (readBytes x r data) := by
  simp [chunkDone, hx, hl, hw, dropXfer, readBytes]

theorem chunkDone_write (hx : t.boundary.xfers.find? (fun y => y.id = r.xfer) = some x) (hl : x.left = 1) (hw : x.write = true) :
    chunkDone t r data = writeDone (dropXfer t r.xfer) x.id x.use := by
  simp [chunkDone, hx, hl, hw, dropXfer]

/-- The last chunk of a read serves the read's use. -/
theorem memResponse_read (hp : domainPresent s (128 + p) = true) (hr : findReq s p i false = some r)
    (hx : s.boundary.xfers.find? (fun y => y.id = r.xfer) = some x) (hl : x.left = 1) (hw : x.write = false) :
    memResponse p i false data .ok s = retryWaiting (readDone (arrived s p i r) x.use (readBytes x r data)) := by
  rw [memResponse_ok hp hr, chunkDone_read (by rwa [responded_xfers]) hl hw, arrived]

/-- The last chunk of a write serves the write's use. -/
theorem memResponse_write (hp : domainPresent s (128 + p) = true) (hr : findReq s p i true = some r)
    (hx : s.boundary.xfers.find? (fun y => y.id = r.xfer) = some x) (hl : x.left = 1) (hw : x.write = true) :
    memResponse p i true data .ok s = retryWaiting (writeDone (arrived s p i r) x.id x.use) := by
  rw [memResponse_ok hp hr, chunkDone_write (by rwa [responded_xfers]) hl hw, arrived]

/-! ### Counts -/

theorem endPortFault_mem (s : State) (p : Nat) : (endPortFault s p).boundary.mem = s.boundary.mem := by
  obtain ⟨_, h⟩ := endPortFault_only s p
  rw [h]

theorem responded_readBytes (hw : r.write = false) :
    (tget {} (responded s p i r).boundary.mem p).readBytes = sat 64 ((tget {} s.boundary.mem p).readBytes + r.bytes) := by
  unfold responded
  extract_lets t
  split <;> simp [countBytes, hw, endPortFault_mem, t, dropReq]

theorem responded_writeBytes (hw : r.write = true) :
    (tget {} (responded s p i r).boundary.mem p).writeBytes = sat 64 ((tget {} s.boundary.mem p).writeBytes + r.bytes) := by
  unfold responded
  extract_lets t
  split <;> simp [countBytes, hw, endPortFault_mem, t, dropReq]

/-- Nothing that follows a response counts on its port. -/
theorem chunkDone_counts (t : State) (r : MemReq) (data : List Byte) (p : Nat) :
    (tget {} (retryWaiting (chunkDone t r data)).boundary.mem p : MemPort).counts = (tget {} t.boundary.mem p : MemPort).counts :=
  ((Within.refl (ps := fun _ => false) t).chunkDone.retryWaiting).portCounts rfl p

theorem memResponse_readBytes (hp : domainPresent s (128 + p) = true) (hr : findReq s p i false = some r) :
    (tget {} (memResponse p i false data .ok s).boundary.mem p).readBytes =
      sat 64 ((tget {} s.boundary.mem p).readBytes + r.bytes) := by
  rw [memResponse_ok hp hr, ← responded_readBytes (i := i) (findReq_write hr)]
  exact congrArg (·.1) (chunkDone_counts ..)

theorem memResponse_writeBytes (hp : domainPresent s (128 + p) = true) (hr : findReq s p i true = some r) :
    (tget {} (memResponse p i true data .ok s).boundary.mem p).writeBytes =
      sat 64 ((tget {} s.boundary.mem p).writeBytes + r.bytes) := by
  rw [memResponse_ok hp hr, ← responded_writeBytes (i := i) (findReq_write hr)]
  exact congrArg (·.2.1) (chunkDone_counts ..)

/-! ### Read data -/

/-- A chunk that is not the last joins its transfer, and nothing else is served. -/
theorem memResponse_more (hp : domainPresent s (128 + p) = true) (hr : findReq s p i false = some r)
    (hx : s.boundary.xfers.find? (fun y => y.id = r.xfer) = some x) (hl : 1 < x.left) (hw : x.write = false) :
    { x with left := x.left - 1, got := tput r.chunk (padTo r.bytes data) x.got } ∈ (memResponse p i false data .ok s).boundary.xfers ∧
      (memResponse p i false data .ok s).ctxs = s.ctxs := by
  have hid : x.id = r.xfer := by simpa using List.find?_some hx
  rw [memResponse_ok hp hr, chunkDone_more (by rwa [responded_xfers]) hl]
  refine ⟨?_, by simp [responded_ctxs]⟩
  rw [retryWaiting_xfers]
  exact List.mem_map.mpr ⟨x, by rw [responded_xfers]; exact List.mem_of_find?_eq_some hx, by simp [hid, hw]⟩

theorem readOn_whole {fr : Front} {d : Desc} (h : nextPart d fr.got = none) :
    ((readOn s c fr d).ctx c).front = some { fr with image := some fr.got } := by
  simp [readOn, h]

/-- The next part of a structure is read under the number that was next. -/
theorem readOn_next {fr : Front} {d : Desc} {y : Nat × Nat} (h : nextPart d fr.got = some y) :
    ((readOn s c fr d).ctx c).front = some fr ∧
      ∃ z ∈ (readOn s c fr d).boundary.xfers, z.id = s.boundary.nextXfer ∧ z.use = .image c := by
  simp only [readOn, h]
  exact ⟨by simp, mem_startXfer ..⟩

/-- What the arrival of a structure's part leaves at the front of its context: the structure, or the read of its next part. -/
def FrontReads (s t : State) (c : Nat) (fr : Front) (d : Desc) : Prop :=
  (nextPart d fr.got = none → (t.ctx c).front = some { fr with image := some fr.got }) ∧
  (∀ y, nextPart d fr.got = some y → (t.ctx c).front = some fr ∧
    ∃ z ∈ t.boundary.xfers, z.id = s.boundary.nextXfer ∧ z.use = .image c)

theorem frontReads_readOn {fr : Front} {d : Desc} : FrontReads s (retryWaiting (readOn (arrived s p i r) c fr d)) c fr d := by
  constructor
  · intro h
    rw [retryWaiting_ctx, readOn_whole h]
  · intro y h
    obtain ⟨hfront, hz⟩ := readOn_next (s := arrived s p i r) (c := c) h
    rw [retryWaiting_ctx, retryWaiting_xfers]
    rw [arrived_nextXfer] at hz
    exact ⟨hfront, hz⟩

theorem descriptor_decoded {fr : Front} {d : Desc} (hfront : (s.ctx c).front = some fr) (hd : decodeDesc (rackSize s) bs = .ok d) :
    FrontReads s (retryWaiting (readDone (arrived s p i r) (.descriptor c) bs)) c { fr with desc := some d } d := by
  have : readDone (arrived s p i r) (.descriptor c) bs = readOn (arrived s p i r) c { fr with desc := some d } d := by
    simp [readDone, descArrived, hfront, hd]
  rw [this]
  exact frontReads_readOn

theorem image_read {fr : Front} {d : Desc} (hfront : (s.ctx c).front = some fr) (hd : fr.desc = some d) :
    FrontReads s (retryWaiting (readDone (arrived s p i r) (.image c) bs)) c { fr with got := fr.got ++ bs } d := by
  have : readDone (arrived s p i r) (.image c) bs = readOn (arrived s p i r) c { fr with got := fr.got ++ bs } d := by
    simp [readDone, imageArrived, hfront, hd]
  rw [this]
  exact frontReads_readOn

/-- A refused command posts its record at an event of its own. -/
theorem refuseCmd_posted {fr : Front} {o g : Nat} {b : Bad} (h : (s.ctx c).faultCause ≠ 0x03) :
    ((refuseCmd s c fr o g b).ctx c).posted =
      (s.ctx c).posted ++ [{ xfer := s.boundary.nextXfer, cmpSeq := (stamp s).gauger.seq }] := by
  unfold refuseCmd
  extract_lets s1 s2
  rw [afterCmd_posted]
  have h1 : (s1.ctx c).faultCause ≠ 0x03 := by simpa [s1] using h
  have h2 : (s2.ctx c).posted = _ := postRecord_posted h1
  simp [clearFront, h2, s1]

theorem descriptor_refused {fr : Front} {b : Bad} (hfront : (s.ctx c).front = some fr) (hd : decodeDesc (rackSize s) bs = .error b)
    (hcause : (s.ctx c).faultCause ≠ 0x03) :
    ((retryWaiting (readDone (arrived s p i r) (.descriptor c) bs)).ctx c).posted =
      (s.ctx c).posted ++ [{ xfer := s.boundary.nextXfer, cmpSeq := (stamp (stamp s)).gauger.seq }] := by
  have : readDone (arrived s p i r) (.descriptor c) bs = refuseCmd (arrived s p i r) c fr (le bs 0 1) (le bs 4 2) b := by
    simp [readDone, descArrived, hfront, hd]
  rw [this, retryWaiting_ctx, refuseCmd_posted (by simpa using hcause), arrived_ctx, arrived_nextXfer, stamp_seq_congr arrived_seq]

theorem takeMaps_key (g : Gyle) : (takeMaps g).key = g.key := by
  unfold takeMaps
  generalize g.maps = l
  induction l generalizing g with
  | nil => rfl
  | cons e l ih =>
    rw [List.foldl_cons, ih]
    split <;> rfl

/-- A change that keeps the name of a gyle is what stands under the name. -/
theorem modGyle_gyle_of_key {k : GyleKey} {g : Gyle} {f : Gyle → Gyle} (hg : s.gyle k = some g) (hf : (f g).key = g.key) :
    (modGyle s k f).gyle k = some (f g) := by
  rw [modGyle_gyle_self f hg, ← gyle_key hg, ← hf]

theorem rowMap_read {n first c : Nat} {g : Gyle} (hg : s.gyle (ownGyle c n) = some g) :
    (retryWaiting (readDone (arrived s p i r) (.rowMap c n first) bs)).gyle (ownGyle c n) =
      some (takeMaps { g with maps := tput first bs g.maps }) := by
  have hg' : (arrived s p i r).gyle (ownGyle c n) = some g := by rw [arrived_gyle, hg]
  rw [retryWaiting_gyle]
  exact modGyle_gyle_of_key hg' (takeMaps_key _)

end Sys2Proof.Machine
end

section
/-! PROOFS. The writes of the memory ports and their error responses, and `Obligations.MemoryResponsesComplete`. -/
namespace Sys2Proof.Machine

-- Each proof waits for the one before it: all at once would each hold a thread.
set_option Elab.async false

variable {s t : State} {p i : Nat} {r : MemReq} {x : Xfer} {w : Bool} {data : List Byte} {c : Fin 64} {e : Posted} {rest : List Posted}

/-! ### Completion records -/

/-- The record of a transfer is marked as written. -/
def markWritten (s : State) (c id : Nat) : State :=
  modCtx s c fun x => { x with posted := x.posted.map fun q => if q.xfer = id then { q with done := true } else q }

/-- `CQ_TAIL` passes the record `e`, after which `rest` are posted. -/
def passRecord (s : State) (c : Nat) (e : Posted) (rest : List Posted) : State :=
  let s := modCtx s c fun x => { x with cqTail := (x.cqTail + 1) % 2 ^ 32, cqResv := x.cqResv - 1, posted := rest }
  raiseAt s (pgCtx c) 0 (if (s.page (pgCtx c)).ack < e.cmpSeq then e.cmpSeq else s.gauger.seq)

theorem passRecords_of_not_done {c : Nat} {l : List Posted} (h : ∀ q ∈ l, q.done = false) : passRecords c l s = s := by
  cases l with
  | nil => rfl
  | cons q l => simp [passRecords, h]

/-- Of the records posted the first is written, and completes no gyle. -/
theorem passRecords_first {c : Nat} (hrest : ∀ q ∈ rest, q.done = false) (hg : e.gyle = none) :
    passRecords c ({ e with done := true } :: rest) s = passRecord s c e rest := by
  simp [passRecords, hg, passRecords_of_not_done hrest, passRecord]

/-- Of the records posted the first is written, and completes gyle `n`. -/
theorem passRecords_gyle {c n : Nat} (hrest : ∀ q ∈ rest, q.done = false) (hg : e.gyle = some n) :
    passRecords c ({ e with done := true } :: rest) s = completeGyle (passRecord s c e rest) (ownGyle c n) := by
  simp [passRecords, hg, passRecords_of_not_done hrest, passRecord]

theorem markWritten_posted {c : Nat} (hposted : (s.ctx c).posted = e :: rest) (hrest : ∀ q ∈ rest, q.xfer ≠ e.xfer) :
    ((markWritten s c e.xfer).ctx c).posted = { e with done := true } :: rest := by
  have hmap : rest.map (fun q => if q.xfer = e.xfer then { q with done := true } else q) = rest :=
    (List.map_congr_left fun q hq => if_neg (hrest q hq)).trans (List.map_id' rest)
  simp [markWritten, hposted, hmap]

/-- The answer of a record's write passes it, with the first records written. -/
theorem recordWritten_first {c : Nat} (hposted : (s.ctx c).posted = e :: rest) (hrest : ∀ q ∈ rest, q.done = false ∧ q.xfer ≠ e.xfer)
    (hg : e.gyle = none) :
    recordWritten s c e.xfer = afterCmd (noteTeardown (passRecord (markWritten s c e.xfer) c e rest) c) c := by
  have hmark := markWritten_posted hposted fun q hq => (hrest q hq).2
  rw [← passRecords_first (fun q hq => (hrest q hq).1) hg, ← hmark]
  rfl

theorem recordWritten_gyle {c n : Nat} (hposted : (s.ctx c).posted = e :: rest) (hrest : ∀ q ∈ rest, q.done = false ∧ q.xfer ≠ e.xfer)
    (hg : e.gyle = some n) : recordWritten s c e.xfer =
      afterCmd (noteTeardown (completeGyle (passRecord (markWritten s c e.xfer) c e rest) (ownGyle c n)) c) c := by
  have hmark := markWritten_posted hposted fun q hq => (hrest q hq).2
  rw [← passRecords_gyle (fun q hq => (hrest q hq).1) hg, ← hmark]
  rfl

/-- Where a record is passed: the others stay posted, `CQ_TAIL` is one further, and `COMPLETION` is raised at its sequence, or at this
event where that one is acknowledged (R270; log entry 14). -/
theorem record_passed (hposted : (s.ctx c).posted = e :: rest) (hrest : ∀ q ∈ rest, q.done = false ∧ q.xfer ≠ e.xfer)
    (hg : e.gyle = none) :
    ((recordWritten s c e.xfer).ctx c).posted = rest ∧
      ((recordWritten s c e.xfer).ctx c).cqTail = ((s.ctx c).cqTail + 1) % 2 ^ 32 ∧
      tget 0 ((recordWritten s c e.xfer).page (pgCtx c)).classSeq 0 =
        max (if (s.page (pgCtx c)).ack < e.cmpSeq then e.cmpSeq else s.gauger.seq) (tget 0 (s.page (pgCtx c)).classSeq 0) := by
  rw [recordWritten_first hposted hrest hg]
  have hctx : ∀ t : State, ((noteTeardown t c).ctx c).posted = (t.ctx c).posted ∧ ((noteTeardown t c).ctx c).cqTail = (t.ctx c).cqTail :=
    fun t => by simp [noteTeardown]
  have hpass : (passRecord (markWritten s c e.xfer) c e rest).ctx c = { (markWritten s c e.xfer).ctx c with
      cqTail := (((markWritten s c e.xfer).ctx c).cqTail + 1) % 2 ^ 32, cqResv := ((markWritten s c e.xfer).ctx c).cqResv - 1
      posted := rest } :=
    (ctx_of_ctxs (raiseAt_ctxs ..) c).trans (modCtx_ctx_self ..)
  refine ⟨?_, ?_, ?_⟩
  · rw [afterCmd_posted, (hctx _).1, hpass]
  · rw [afterCmd_cqTail, (hctx _).2, hpass]
    simp [markWritten]
  · rw [afterCmd_classSeq]
    exact (raiseAt_classSeq ..).trans (if_pos rfl)

/-! ### Gyles that complete -/

theorem CellarWork.gyles {s t : State} (h : CellarWork s t) : t.gyles = s.gyles := by
  induction h with
  | refl => rfl
  | other _ ih => exact ih
  | @t4Gone t _ epoch a v gone ih =>
    rw [← ih]
    fun_cases modVerOf t epoch a v fun y => { y with t4Gone := gone y } <;> rfl

theorem endOldPrefetches_gyles (s : State) (epoch : Nat) : (endOldPrefetches s epoch).gyles = s.gyles := by
  unfold endOldPrefetches
  refine foldl_field (·.gyles) _ (fun t e => foldl_field (·.gyles) _ (fun u cmd => ?_) _ _) _ _
  split
  · simp
  · rfl

theorem releaseBy_gyles {f : State → State} (hf : ∀ t, (f t).gyles = t.gyles) : (releaseBy s f).gyles = s.gyles :=
  CellarWork.refl.releaseFrom.gyles.trans (hf s)

theorem dropEpoch_gyles (s : State) (epoch : Nat) : (dropEpoch s epoch).gyles = s.gyles :=
  releaseBy_gyles fun _ => endOldPrefetches_gyles ..

theorem sendMsg_gyles (s : State) (m : Msg) : (sendMsg s m).gyles = s.gyles := (CellarWork.refl.sendMsg).gyles

/-- An epoch that is released takes no gyle with it. -/
theorem releaseEpoch_gyles (s : State) : (releaseEpoch s).gyles = s.gyles := by
  have hite : ∀ {b : Prop} [Decidable b] {t : State}, t.gyles = s.gyles → (if b then s else t).gyles = s.gyles := by
    intro b _ t ht
    split
    · rfl
    · exact ht
  fun_cases releaseEpoch s
  · rfl
  · rfl
  · exact (dropEpoch_gyles ..).trans (hite (foldl_field (·.gyles) _ (fun _ _ => sendMsg_gyles ..) _ _))
  · exact hite (foldl_field (·.gyles) _ (fun _ _ => sendMsg_gyles ..) _ _)

theorem completeGyle_serving {k : GyleKey} {g : Gyle} (hg : s.gyle k = some g) (hk : g.kind = .serving) :
    (completeGyle s k).gyle k = none := by
  simp only [completeGyle, hg, hk, reduceCtorEq, if_false]
  exact releaseGyle_gyle ..

/-- A training gyle is held (R153). -/
theorem completeGyle_training {k : GyleKey} {g : Gyle} (hg : s.gyle k = some g) (hk : g.kind = .training) :
    (completeGyle s k).gyle k = some { g with st := .complete, completing := false, held := true, areaBytes := 0 } := by
  simp only [completeGyle, hg, hk, if_true]
  rw [gyle_of_gyles (releaseEpoch_gyles _), ← gyle_key hg]
  simp only [← hk]
  exact setGyle_gyle_self ..

theorem passRecord_gyle (s : State) (c : Nat) (e : Posted) (rest : List Posted) (k : GyleKey) :
    (passRecord s c e rest).gyle k = s.gyle k := rfl

theorem markWritten_gyle (s : State) (c id : Nat) (k : GyleKey) : (markWritten s c id).gyle k = s.gyle k := rfl

/-- What a gyle's completion makes of it stands after its record is passed. -/
theorem record_completes {c n : Nat} (hposted : (s.ctx c).posted = e :: rest) (hrest : ∀ q ∈ rest, q.done = false ∧ q.xfer ≠ e.xfer)
    (hg : e.gyle = some n) : (recordWritten s c e.xfer).gyle (ownGyle c n) =
      (completeGyle (passRecord (markWritten s c e.xfer) c e rest) (ownGyle c n)).gyle (ownGyle c n) := by
  rw [recordWritten_gyle hposted hrest hg]
  exact gyle_of_gyles (by simp [noteTeardown]) _

/-! ### Accounts and reports -/

theorem postGyle_posted {k : GyleKey} {g : Gyle} {sq : Nat} (hg : s.gyle k = some g) (hsq : g.closeSq = some sq)
    (hcause : (s.ctx k.owner).faultCause ≠ 0x03) :
    ((postGyle s k).ctx k.owner).posted =
      (s.ctx k.owner).posted ++ [{ xfer := s.boundary.nextXfer, cmpSeq := s.gauger.seq, gyle := some k.num }] := by
  simp only [postGyle, hg, hsq]
  exact postRecord_posted hcause

/-- The record of a gyle is posted once its account is written (R291). -/
theorem account_written {c n : Nat} {g : Gyle} {sq : Nat} (hg : s.gyle (ownGyle c n) = some g) (hsq : g.closeSq = some sq)
    (hcause : (s.ctx c).faultCause ≠ 0x03) :
    ((retryWaiting (writeDone (arrived s p i r) x.id (.account c n))).ctx c).posted =
      (s.ctx c).posted ++ [{ xfer := s.boundary.nextXfer, cmpSeq := (stamp (stamp s)).gauger.seq, gyle := some n }] := by
  have hg' : (stamp (arrived s p i r)).gyle (ownGyle c n) = some g := by
    rw [gyle_of_gyles (stamp_gyles _), arrived_gyle, hg]
  have hcause' : ((stamp (arrived s p i r)).ctx c).faultCause ≠ 0x03 := by simpa using hcause
  have h := postGyle_posted (k := ownGyle c n) hg' hsq hcause'
  simpa [ownGyle, writeDone, stamp_seq_congr arrived_seq] using h

/-- The commands that wait for a report may complete once it is written (R157). -/
theorem report_written {c n : Nat} {v : Supersede} (hv : v ∈ (retryWaiting (writeDone s x.id (.report c n))).homes.supersedes)
    (hctx : v.ctx = some c) (hgyle : v.gyle = n) (hop : v.opcode = 0x21) : v.ready = true := by
  rw [retryWaiting_homes] at hv
  rcases (EndsWork.refl _).endSupersedes.waits v hv with hnone | hmem
  · rw [hctx] at hnone
    cases hnone
  · obtain ⟨u, -, hu⟩ := List.mem_map.mp hmem
    split at hu
    · rw [← hu]
    · rename_i hmine
      simp [hu, hctx, hgyle, hop] at hmine

end Sys2Proof.Machine
end

section
/-! PROOFS. The error responses of the memory ports, and `Obligations.MemoryResponsesComplete`. -/
namespace Sys2Proof.Machine

-- Each proof waits for the one before it: all at once would each hold a thread.
set_option Elab.async false

variable {s t : State} {p i : Nat} {r : MemReq} {x : Xfer} {w : Bool} {data : List Byte} {check : LinkCheck}

/-! ### The count of an error -/

/-- An error response is raised and counted on its port. -/
def errorCounted (s : State) (p : Nat) : State :=
  let t := raise s (pgMem p) 1
  { t with boundary := { t.boundary with mem := tmod {} t.boundary.mem p fun m => { m with errors := sat 32 (m.errors + 1) } } }

/-- The state in which an error response begins its repetition or its end. -/
def errorMet (s : State) (p : Nat) (check : LinkCheck) : State := errorCounted (noteParity (stamp s) check) p

theorem memResponse_bad (hp : domainPresent s (128 + p) = true) (hr : findReq s p i w = some r) (hc : check ≠ .ok) :
    memResponse p i w data check s = memError (noteParity (stamp s) check) p r := by
  simp [memResponse, hr, hp, hc]

theorem noteParity_mem (s : State) (check : LinkCheck) : (noteParity s check).boundary.mem = s.boundary.mem := by
  cases check <;> rfl

theorem noteParity_xfers (s : State) (check : LinkCheck) : (noteParity s check).boundary.xfers = s.boundary.xfers := by
  cases check <;> rfl

theorem errorMet_ctxs : (errorMet s p check).ctxs = s.ctxs := by simp [errorMet, errorCounted]

theorem errorMet_xfers : (errorMet s p check).boundary.xfers = s.boundary.xfers := by
  simp [errorMet, errorCounted, noteParity_xfers]

theorem errorMet_outstanding :
    (tget {} (errorMet s p check).boundary.mem p : MemPort).outstanding = (tget {} s.boundary.mem p : MemPort).outstanding := by
  simp [errorMet, errorCounted, noteParity_mem]

theorem errorMet_errors :
    (tget {} (errorMet s p check).boundary.mem p : MemPort).errors = sat 32 ((tget {} s.boundary.mem p : MemPort).errors + 1) := by
  simp [errorMet, errorCounted, noteParity_mem]

theorem errorMet_pfw : (errorMet s p check).pace.pfw = s.pace.pfw := by simp [errorMet, errorCounted]

theorem errorMet_retryLimit : retryLimit (startFault (errorMet s p check) (.port (pgMem p)) 0x0A 1 []) = retryLimit s := by
  simp [retryLimit, regFld, reg, errorMet, errorCounted]

theorem errorMet_writesRecord : writesRecord (errorMet s p check) r = writesRecord s r := by
  simp [writesRecord, errorMet_xfers]

/-- What keeps the counts of the ports keeps the error counted. -/
theorem Within.errors {ps : Part → Bool} (h : Within ps (errorMet s p check) t) (hps : ps .portCounts = false) :
    (tget {} t.boundary.mem p : MemPort).errors = sat 32 ((tget {} s.boundary.mem p : MemPort).errors + 1) := by
  rw [← errorMet_errors (check := check)]
  exact congrArg (·.2.2) (h.portCounts hps p)

/-! ### What an error response does -/

/-- While a power-failure warning is handled, the write of a record is dropped (R376; log entry 51). -/
theorem memError_dropped (hpfw : s.pace.pfw = true) (hrec : writesRecord s r = true) :
    memError (noteParity (stamp s) check) p r =
      retryWaiting (dropXfer (endPortFault (dropReq (errorMet s p check) p r.id) p) r.xfer) := by
  have h : ((errorMet s p check).pace.pfw && writesRecord (errorMet s p check) r) = true := by
    rw [errorMet_pfw, errorMet_writesRecord, hpfw, hrec, Bool.and_self]
  exact if_pos h

/-- Level 1 repeats the request (R336). -/
def repeatReq (s : State) (p : Nat) (r : MemReq) : State :=
  { s with boundary := { s.boundary with mem := tmod {} s.boundary.mem p fun m => { m with
    retries := sat 32 (m.retries + 1)
    outstanding := m.outstanding.map fun x => if x.id = r.id then { x with retries := x.retries + 1 } else x } } }

protected theorem Within.repeatReq {ps : Part → Bool} {s₀ : State} (h : Within ps s₀ s) : Within ps s₀ (repeatReq s p r) := h.modMem

theorem handled_eq_false (h : s.pace.pfw = false ∨ writesRecord s r = false) :
    ((errorMet s p check).pace.pfw && writesRecord (errorMet s p check) r) = false := by
  rw [errorMet_pfw, errorMet_writesRecord, Bool.and_eq_false_iff]
  exact h

theorem memError_repeated (h : s.pace.pfw = false ∨ writesRecord s r = false) (hlim : r.retries < retryLimit s) :
    memError (noteParity (stamp s) check) p r = repeatReq (startFault (errorMet s p check) (.port (pgMem p)) 0x0A 1 []) p r := by
  have hlim' : r.retries < retryLimit (startFault (errorMet s p check) (.port (pgMem p)) 0x0A 1 []) := by rwa [errorMet_retryLimit]
  exact (if_neg (Bool.eq_false_iff.mp (handled_eq_false h))).trans (if_pos hlim')

/-- The state in which the transfer of an exhausted request is given up. -/
def exhausted (s : State) (p : Nat) (r : MemReq) (check : LinkCheck) : State :=
  endPortFault (dropReq (startFault (errorMet s p check) (.port (pgMem p)) 0x0A 1 []) p r.id) p

theorem memError_exhausted (h : s.pace.pfw = false ∨ writesRecord s r = false) (hlim : retryLimit s ≤ r.retries) :
    ∃ esc, memError (noteParity (stamp s) check) p r = retryWaiting (xferFailed (exhausted s p r check) r esc) := by
  have hlim' : ¬ r.retries < retryLimit (startFault (errorMet s p check) (.port (pgMem p)) 0x0A 1 []) := by
    rw [errorMet_retryLimit]; omega
  exact ⟨_, (if_neg (Bool.eq_false_iff.mp (handled_eq_false h))).trans (if_neg hlim')⟩

theorem dropReq_ctxs (s : State) (p i : Nat) : (dropReq s p i).ctxs = s.ctxs := rfl

theorem dropXfer_ctxs (s : State) (id : Nat) : (dropXfer s id).ctxs = s.ctxs := rfl

theorem endPortFault_ctxs (s : State) (p : Nat) : (endPortFault s p).ctxs = s.ctxs := by
  obtain ⟨_, h⟩ := endPortFault_only s p
  rw [h]

theorem exhausted_ctxs : (exhausted s p r check).ctxs = s.ctxs := by
  rw [exhausted, endPortFault_ctxs, dropReq_ctxs, startFault_ctxs, errorMet_ctxs]

theorem exhausted_xfers : (exhausted s p r check).boundary.xfers = s.boundary.xfers := by
  obtain ⟨_, h⟩ := endPortFault_only (dropReq (startFault (errorMet s p check) (.port (pgMem p)) 0x0A 1 []) p r.id) p
  rw [exhausted, h]
  exact (congrArg (·.xfers) (startFault_boundary ..)).trans errorMet_xfers

/-- A context that serves enters `FAULTED` with the cause of its fault, and its teardown leaves both (R272, R273). -/
theorem faultCtx_faulted {c cause source : Nat} {esc : Option Seq}
    (hst : (s.ctx c).st = .ready ∨ (s.ctx c).st = .running ∨ (s.ctx c).st = .quiesced) :
    ((faultCtx s c cause source esc).ctx c).st = .faulted ∧ ((faultCtx s c cause source esc).ctx c).faultCause = cause := by
  unfold faultCtx
  extract_lets s1 fid s2 s3
  have hfaulted : ∀ u : State, (u.ctx c).st = .faulted → (u.ctx c).faultCause = cause →
      ((teardown u c).ctx c).st = .faulted ∧ ((teardown u c).ctx c).faultCause = cause := by
    intro u hu hcause
    obtain ⟨ht, hcause'⟩ := (EndsWork.refl u).teardown (c := c) |>.faulted c hu
    exact ⟨ht, hcause'.trans hcause⟩
  have hctx : (raise (setCtxNow s3 c .faulted) (pgCtx c) 2).ctx c = { s3.ctx c with st := .faulted } :=
    (ctx_of_ctxs (raise_ctxs ..) c).trans ((ctx_of_ctxs (raise_ctxs ..) c).trans (modCtx_ctx_self ..))
  have h3 : (s3.ctx c).faultCause = cause := by
    rw [show s3.ctx c = s2.ctx c from ctx_of_ctxs (logNow_ctxs ..) c]
    simp [s2]
  rcases hst with hst | hst | hst <;> simp only [hst] <;> exact hfaulted _ (by rw [hctx]) (by rw [hctx, h3])

/-! ### The responses -/

section
variable (hp : domainPresent s (128 + p) = true) (hr : findReq s p i w = some r) (hc : check ≠ .ok)
include hp hr hc

/-- A request that may be repeated stands with one more retry, and the error is counted; no context sees it. -/
theorem memResponse_repeats (h : s.pace.pfw = false ∨ writesRecord s r = false) (hlim : r.retries < retryLimit s) :
    { r with retries := r.retries + 1 } ∈ (tget {} (memResponse p i w data check s).boundary.mem p : MemPort).outstanding ∧
      (tget {} (memResponse p i w data check s).boundary.mem p : MemPort).errors =
        sat 32 ((tget {} s.boundary.mem p : MemPort).errors + 1) ∧
      (memResponse p i w data check s).ctxs = s.ctxs := by
  rw [memResponse_bad hp hr hc, memError_repeated h hlim]
  refine ⟨?_, ?_, (startFault_ctxs ..).trans errorMet_ctxs⟩
  · simp only [repeatReq, tget_tmod_self, startFault_boundary, errorMet_outstanding]
    exact List.mem_map.mpr ⟨r, findReq_mem hr, if_pos rfl⟩
  · exact ((Within.refl (ps := fun _ => false) (errorMet s p check)).startFault.repeatReq).errors rfl

/-- A request that is exhausted faults its transfer's context, and the error is counted. -/
theorem memResponse_faults (hx : s.boundary.xfers.find? (fun y => y.id = r.xfer) = some x)
    (h : s.pace.pfw = false ∨ writesRecord s r = false) (hlim : retryLimit s ≤ r.retries)
    (hst : (s.ctx (xferCause x.use).1).st = .ready ∨ (s.ctx (xferCause x.use).1).st = .running ∨
      (s.ctx (xferCause x.use).1).st = .quiesced) :
    ((memResponse p i w data check s).ctx (xferCause x.use).1).st = .faulted ∧
      ((memResponse p i w data check s).ctx (xferCause x.use).1).faultCause = (xferCause x.use).2 ∧
      (tget {} (memResponse p i w data check s).boundary.mem p : MemPort).errors =
        sat 32 ((tget {} s.boundary.mem p : MemPort).errors + 1) := by
  obtain ⟨esc, herr⟩ := memError_exhausted (check := check) (p := p) h hlim
  rw [memResponse_bad hp hr hc, herr]
  have hfailed : xferFailed (exhausted s p r check) r esc =
      faultCtx (dropXfer (exhausted s p r check) r.xfer) (xferCause x.use).1 (xferCause x.use).2 0x0A esc := by
    simp [xferFailed, exhausted_xfers, hx]
  have hctx : ∀ c, (dropXfer (exhausted s p r check) r.xfer).ctx c = s.ctx c := ctx_of_ctxs ((dropXfer_ctxs ..).trans exhausted_ctxs)
  obtain ⟨hfaulted, hcause⟩ := faultCtx_faulted (s := dropXfer (exhausted s p r check) r.xfer) (c := (xferCause x.use).1)
    (cause := (xferCause x.use).2) (source := 0x0A) (esc := esc) (by rwa [hctx])
  refine ⟨?_, ?_, ?_⟩
  · rw [retryWaiting_ctx, hfailed, hfaulted]
  · rw [retryWaiting_ctx, hfailed, hcause]
  · exact ((Within.refl (ps := fun _ => false) (errorMet s p check)).startFault.dropReq.endPortFault.xferFailed.retryWaiting).errors rfl

/-- While a power-failure warning is handled, the transfer of a record that fails is gone, and no context sees it. -/
theorem memResponse_drops (hpfw : s.pace.pfw = true) (hrec : writesRecord s r = true) :
    (tget {} (memResponse p i w data check s).boundary.mem p : MemPort).errors =
        sat 32 ((tget {} s.boundary.mem p : MemPort).errors + 1) ∧
      (memResponse p i w data check s).ctxs = s.ctxs ∧ ∀ y ∈ (memResponse p i w data check s).boundary.xfers, y.id ≠ r.xfer := by
  rw [memResponse_bad hp hr hc, memError_dropped hpfw hrec]
  refine ⟨?_, ?_, ?_⟩
  · exact ((Within.refl (ps := fun _ => false) (errorMet s p check)).dropReq.endPortFault.dropXfer.retryWaiting).errors rfl
  · rw [retryWaiting_ctxs, dropXfer_ctxs, endPortFault_ctxs, dropReq_ctxs, errorMet_ctxs]
  · rw [retryWaiting_xfers]
    exact fun y hy => by simpa using (List.mem_filter.mp hy).2

end

end Sys2Proof.Machine
end

open Sys2Proof Sys2Proof.Machine in
/-- Settles O45: what the last chunk of a transfer serves, use by use, what keeps the counts of the ports, and what a teardown leaves of
the context that faults. -/
theorem memoryResponsesComplete : Obligations.MemoryResponsesComplete := by
  unfold Obligations.MemoryResponsesComplete
  intro p i s r x hp hx
  refine ⟨fun data hr hw => ⟨?counted, ?more, ?descriptor, ?image, ?rowMap⟩,
    fun hr hw => ⟨?written, ?completion, ?account, ?report⟩, fun w check data hr hc => ?error⟩
  case counted => exact ⟨_, rfl, memResponse_readBytes hp hr⟩
  case more => exact fun hl => ⟨_, rfl, memResponse_more hp hr hx hl hw⟩
  case descriptor =>
    intro c fr hl huse hfront
    have h := memResponse_read (data := data) hp hr hx hl hw
    rw [huse] at h
    constructor
    · intro d hd
      obtain ⟨hwhole, hnext⟩ := descriptor_decoded (p := p) (i := i) (r := r) hfront hd
      exact ⟨_, rfl, h ▸ hwhole, h ▸ hnext⟩
    · intro b hb hcause
      exact ⟨_, rfl, h ▸ descriptor_refused hfront hb hcause⟩
  case image =>
    intro c fr d hl huse hfront hd
    have h := memResponse_read (data := data) hp hr hx hl hw
    rw [huse] at h
    obtain ⟨hwhole, hnext⟩ := image_read (p := p) (i := i) (r := r) (bs := readBytes x r data) hfront hd
    exact ⟨_, rfl, h ▸ hwhole, h ▸ hnext⟩
  case rowMap =>
    intro c n first g hl huse hg
    have h := memResponse_read (data := data) hp hr hx hl hw
    rw [huse] at h
    exact ⟨_, rfl, h ▸ rowMap_read hg⟩
  case written => exact ⟨_, rfl, memResponse_writeBytes hp hr⟩
  case completion =>
    intro c e rest hl huse hposted hxfer hrest
    have h := memResponse_write (data := []) hp hr hx hl hw
    rw [huse, writeDone, ← hxfer] at h
    rw [← hxfer] at hrest
    have hposted' : ((arrived s p i r).ctx c).posted = e :: rest := by rwa [arrived_ctx]
    constructor
    · intro hg
      obtain ⟨hrest', htail, hseq⟩ := record_passed hposted' hrest hg
      refine ⟨_, rfl, ?_, ?_, ?_⟩
      · rw [h, retryWaiting_ctx, hrest']
      · rw [h, retryWaiting_ctx, htail, arrived_ctx]
      · rw [h, State.page, retryWaiting_pages]
        rw [arrived_page, arrived_seq] at hseq
        exact hseq
    · intro n g hn hg
      have hpass : (passRecord (markWritten (arrived s p i r) c e.xfer) c e rest).gyle (ownGyle c n) = some g := by
        rw [passRecord_gyle, markWritten_gyle, arrived_gyle, hg]
      have hgyle : (memResponse p i true [] .ok s).gyle (ownGyle c n) =
          (completeGyle (passRecord (markWritten (arrived s p i r) c e.xfer) c e rest) (ownGyle c n)).gyle (ownGyle c n) := by
        rw [h, retryWaiting_gyle, record_completes hposted' hrest hn]
      exact ⟨_, rfl, fun hk => hgyle.trans (completeGyle_serving hpass hk),
        fun hk => ⟨_, hgyle.trans (completeGyle_training hpass hk), rfl, rfl⟩⟩
  case account =>
    intro c n g sq hl huse hg hsq hcause
    have h := memResponse_write (data := []) hp hr hx hl hw
    rw [huse] at h
    exact ⟨_, rfl, h ▸ account_written hg hsq hcause⟩
  case report =>
    intro c n hl huse
    have h := memResponse_write (data := []) hp hr hx hl hw
    rw [huse] at h
    exact ⟨_, rfl, fun v hv => report_written (h ▸ hv)⟩
  case error =>
    have hexec : exec (if w then .writeResponse p i check else .readData p i data check) s =
        .next (memResponse p i w (if w then [] else data) check s) := by
      cases w <;> rfl
    refine ⟨fun h => ⟨fun hlim => ⟨_, hexec, memResponse_repeats hp hr hc h hlim⟩,
      fun hlim hst => ⟨_, hexec, memResponse_faults hp hr hc hx h hlim hst⟩⟩,
      fun hpfw hrec => ⟨_, hexec, memResponse_drops hp hr hc hpfw hrec⟩⟩

section
/-! PROOFS. What a tun keeps while the work of gyles comes and goes: its state and index, the halves of its factor buffer, its counters,
its lanes and its test. Queues and issued operations, accumulator sets, feeders and waiting rank values change with the work (R90 to R112);
the rest changes with events of the tun alone. The rules stand in the order of the definitions. -/
namespace Sys2Proof.Machine

-- Each proof waits for the one before it: all at once would each hold a thread.
set_option Elab.async false

/-- A tun without its work. -/
def Tun.standing (x : Tun) : Tun := { x with queue := [], issued := [], sets := [], feeders := [], rankWaits := [] }

/-- Every tun stands as it did, but for its work. -/
structure TunsStand (s t : State) : Prop where
  tun : ∀ n, (t.tun n).standing = (s.tun n).standing := by exact fun _ => rfl

variable {s₀ s t : State}

protected theorem TunsStand.refl (s : State) : TunsStand s s := {}

protected theorem TunsStand.trans {u : State} (h : TunsStand s t) (k : TunsStand t u) : TunsStand s u :=
  ⟨fun n => (k.tun n).trans (h.tun n)⟩

/-- What stands of a tun is a function of what it keeps. -/
theorem TunsStand.field {α : Type} (h : TunsStand s t) (f : Tun → α) (hf : ∀ x : Tun, f x.standing = f x) (n : Nat) :
    f (t.tun n) = f (s.tun n) := by
  rw [← hf, h.tun n, hf]

theorem TunsStand.st (h : TunsStand s t) (n : Nat) : (t.tun n).st = (s.tun n).st := h.field (·.st) (fun _ => rfl) n

theorem TunsStand.half (h : TunsStand s t) (n k : Nat) : (t.tun n).half k = (s.tun n).half k := h.field (·.half k) (fun _ => rfl) n

theorem TunsStand.of_tuns (h : TunsStand s₀ s) (ht : t.tuns = s.tuns) : TunsStand s₀ t :=
  h.trans ⟨fun n => by rw [State.tun, ht, State.tun]⟩

/-- An update of other parts of the state. -/
protected theorem TunsStand.same {gauger log pages regs ctxs planInForce planStaged cat catStaged staging catRetiring dir dirStaged dirOld
      handles tenantRecs gyles heldGroups orphans nextHold sortRows ports spillUsed cellar tiers train homes kiln integrity repair pace keys
      boundary fuses glob outs freeCtr pending} (h : TunsStand s₀ s) :
    TunsStand s₀ { s with
      gauger, log, pages, regs, ctxs, planInForce, planStaged, cat, catStaged, staging, catRetiring, dir, dirStaged, dirOld, handles,
      tenantRecs, gyles, heldGroups, orphans, nextHold, sortRows, ports, spillUsed, cellar, tiers, train, homes, kiln, integrity, repair,
      pace, keys, boundary, fuses, glob, outs, freeCtr, pending } :=
  h.of_tuns rfl

/-- The work of the tiers and casks concerns no tun. -/
theorem TunsStand.work (h : TunsStand s₀ s) (k : CellarWork s t) : TunsStand s₀ t := by
  induction k with
  | refl => exact h
  | other _ ih => exact ih.same
  | @t4Gone t _ epoch a v gone ih => fun_cases modVerOf t epoch a v fun y => { y with t4Gone := gone y } <;> exact ih.same

protected theorem TunsStand.foldl {α : Type} {g : State → α → State} {l : List α} (h : TunsStand s₀ s)
    (hg : ∀ {t}, TunsStand s₀ t → ∀ a, TunsStand s₀ (g t a)) : TunsStand s₀ (l.foldl g s) := by
  induction l generalizing s with
  | nil => exact h
  | cons a l ih => exact ih (hg h a)

protected theorem TunsStand.ite {c : Prop} [Decidable c] (hs : TunsStand s₀ s) (ht : TunsStand s₀ t) :
    TunsStand s₀ (if c then s else t) := by
  split
  · exact hs
  · exact ht

/-! ### Shared operations -/

/-- A change of the work of a tun. -/
protected theorem TunsStand.modTun {m f} (h : TunsStand s₀ s) (hf : ∀ x : Tun, (f x).standing = x.standing := by exact fun _ => rfl) :
    TunsStand s₀ (modTun s m f) :=
  h.trans
    { tun := fun n => by
        by_cases hn : n = m
        · rw [hn, modTun_tun_self, hf]
        · rw [modTun_tun_ne _ _ hn] }

protected theorem TunsStand.stamp (h : TunsStand s₀ s) : TunsStand s₀ (stamp s) := h.of_tuns (stamp_tuns s)

protected theorem TunsStand.raise {page cls} (h : TunsStand s₀ s) : TunsStand s₀ (raise s page cls) := h.same

protected theorem TunsStand.logNow {page code tenant submitter fid payload} (h : TunsStand s₀ s) :
    TunsStand s₀ (logNow s page code tenant submitter fid payload) := h.of_tuns (logNow_tuns ..)

protected theorem TunsStand.bumpFree (h : TunsStand s₀ s) : TunsStand s₀ (bumpFree s) := h.same

protected theorem TunsStand.modPort {p f} (h : TunsStand s₀ s) : TunsStand s₀ (modPort s p f) := h.same

protected theorem TunsStand.modCask {i f} (h : TunsStand s₀ s) : TunsStand s₀ (modCask s i f) := h.same

protected theorem TunsStand.modGyle {k f} (h : TunsStand s₀ s) : TunsStand s₀ (modGyle s k f) := h.of_tuns (modGyle_tuns ..)

protected theorem TunsStand.dropGyle {k} (h : TunsStand s₀ s) : TunsStand s₀ (dropGyle s k) := h.same

protected theorem TunsStand.startFault {o source level detail} (h : TunsStand s₀ s) : TunsStand s₀ (startFault s o source level detail) :=
  h.of_tuns (startFault_tuns ..)

protected theorem TunsStand.endFault {o} (h : TunsStand s₀ s) : TunsStand s₀ (endFault s o) := h.same

protected theorem TunsStand.startXfer {use write addr bytes data} (h : TunsStand s₀ s) :
    TunsStand s₀ (startXfer s use write addr bytes data) := h.of_tuns (startXfer_tuns ..)

protected theorem TunsStand.dropXfers {p} (h : TunsStand s₀ s) : TunsStand s₀ (dropXfers s p) := h.same

protected theorem TunsStand.postRecord {c opcode status cflags sqIndex gyle result done} (h : TunsStand s₀ s) :
    TunsStand s₀ (postRecord s c opcode status cflags sqIndex gyle result done) := h.of_tuns (postRecord_tuns ..)

protected theorem TunsStand.afterCmd {c} (h : TunsStand s₀ s) : TunsStand s₀ (afterCmd s c) := h.of_tuns (afterCmd_tuns ..)

protected theorem TunsStand.completeLater {c cmd status cflags result} (h : TunsStand s₀ s) :
    TunsStand s₀ (completeLater s c cmd status cflags result) := h.of_tuns (completeLater_tuns ..)

protected theorem TunsStand.sendMsg {m} (h : TunsStand s₀ s) : TunsStand s₀ (sendMsg s m) := h.work CellarWork.refl.sendMsg

protected theorem TunsStand.sendReq {m gk} (h : TunsStand s₀ s) : TunsStand s₀ (sendReq s m gk) := h.sendMsg.same

protected theorem TunsStand.reply {to_ type status args data} (h : TunsStand s₀ s) : TunsStand s₀ (reply s to_ type status args data) :=
  h.sendMsg.same

protected theorem TunsStand.modVerOf {epoch a v f} (h : TunsStand s₀ s) : TunsStand s₀ (modVerOf s epoch a v f) := by
  fun_cases modVerOf s epoch a v f <;> exact h.same

protected theorem TunsStand.enterShared {epoch v} (h : TunsStand s₀ s) : TunsStand s₀ (enterShared s epoch v) := by
  fun_cases enterShared s epoch v
  · exact h.stamp.work CellarWork.refl.journalPut
  · exact h

protected theorem TunsStand.releaseBy {f} (h : TunsStand s₀ s) (hf : ∀ {t}, TunsStand s₀ t → TunsStand s₀ (f t)) :
    TunsStand s₀ (releaseBy s f) :=
  (hf h).work CellarWork.refl.releaseFrom

/-! ### Release -/

protected theorem TunsStand.freeResv {k slot row} (h : TunsStand s₀ s) : TunsStand s₀ (freeResv s k slot row) := by
  fun_cases freeResv s k slot row
  · exact h
  · exact h
  · exact (h.same.ite h.modPort).modGyle

protected theorem TunsStand.freeAllResv {k} (h : TunsStand s₀ s) : TunsStand s₀ (freeAllResv s k) := by
  fun_cases freeAllResv s k
  · exact h
  · exact h.foldl fun k _ => k.freeResv

protected theorem TunsStand.clearHeld {k} (h : TunsStand s₀ s) : TunsStand s₀ (clearHeld s k) := h.same

protected theorem TunsStand.clearWork {k} (h : TunsStand s₀ s) : TunsStand s₀ (clearWork s k) :=
  ((h.freeAllResv.foldl fun k _ => k.modPort).foldl fun k _ => k.modTun).clearHeld.same

protected theorem TunsStand.farCancel {g} (h : TunsStand s₀ s) : TunsStand s₀ (farCancel s g) := h.foldl fun k _ => k.sendMsg

protected theorem TunsStand.pruneVersions (h : TunsStand s₀ s) : TunsStand s₀ (pruneVersions s) := by
  unfold pruneVersions
  extract_lets _ _ s1 _
  have h1 : TunsStand s₀ s1 := h.same
  exact h1.same

protected theorem TunsStand.freeHandles (h : TunsStand s₀ s) : TunsStand s₀ (freeHandles s) := h.same

protected theorem TunsStand.settleDirectory (h : TunsStand s₀ s) : TunsStand s₀ (settleDirectory s) := h.same

protected theorem TunsStand.keepStreams {keep} (h : TunsStand s₀ s) : TunsStand s₀ (keepStreams s keep) := h.same

protected theorem TunsStand.endOldPrefetches {epoch} (h : TunsStand s₀ s) : TunsStand s₀ (endOldPrefetches s epoch) :=
  h.foldl fun k _ => k.foldl fun k2 _ => k2.stamp.completeLater.ite k2

protected theorem TunsStand.dropEpoch {epoch} (h : TunsStand s₀ s) : TunsStand s₀ (dropEpoch s epoch) :=
  h.releaseBy fun k => k.same.keepStreams.endOldPrefetches

protected theorem TunsStand.releaseEpoch (h : TunsStand s₀ s) : TunsStand s₀ (releaseEpoch s) := by
  fun_cases releaseEpoch s
  · exact h
  · exact h
  · exact (h.ite (h.same.foldl fun k _ => k.sendMsg)).dropEpoch
  · exact h.ite (h.same.foldl fun k _ => k.sendMsg)

protected theorem TunsStand.releaseHolds {g} (h : TunsStand s₀ s) : TunsStand s₀ (releaseHolds s g) := (h.foldl fun k _ => k.sendMsg).same

protected theorem TunsStand.unbindGyle {k} (h : TunsStand s₀ s) : TunsStand s₀ (unbindGyle s k) := h.work CellarWork.refl.unbindGyle

protected theorem TunsStand.releaseGyle {k} (h : TunsStand s₀ s) : TunsStand s₀ (releaseGyle s k) := by
  fun_cases releaseGyle s k
  · exact h
  · exact h.releaseHolds.dropGyle.same.unbindGyle.pruneVersions.freeHandles.settleDirectory.releaseEpoch

protected theorem TunsStand.forgetCredit {k} (h : TunsStand s₀ s) : TunsStand s₀ (forgetCredit s k) := h.foldl fun k _ => k.modPort

protected theorem TunsStand.tearGyle {g} (h : TunsStand s₀ s) : TunsStand s₀ (tearGyle s g) :=
  h.farCancel.clearWork.releaseGyle.forgetCredit

protected theorem TunsStand.endTraining {g} (h : TunsStand s₀ s) : TunsStand s₀ (endTraining s g) := by
  fun_cases endTraining s g
  · exact h.dropXfers.tearGyle
  · exact h.dropXfers.tearGyle.stamp.postRecord.afterCmd
  · exact h.dropXfers.tearGyle

/-! ### New versions -/

protected theorem TunsStand.revoke {a v purge} (h : TunsStand s₀ s) : TunsStand s₀ (revoke s a v purge).1 :=
  h.foldl fun k _ => k.stamp.sendReq

protected theorem TunsStand.revokeAll {olds} (h : TunsStand s₀ s) : TunsStand s₀ (revokeAll s olds).1 := by
  have hall : ∀ acc : State × List (Nat × AdapterId × Nat × Nat), TunsStand s₀ acc.1 → TunsStand s₀ (olds.foldl (fun acc p =>
      ((revoke acc.1 p.1 p.2 false).1, acc.2 ++ (revoke acc.1 p.1 p.2 false).2)) acc).1 := by
    induction olds with
    | nil => exact fun _ hacc => hacc
    | cons p olds ih => exact fun _ hacc => ih _ hacc.revoke
  exact ((hall (s, []) h).work CellarWork.refl.refreshHolds).pruneVersions

protected theorem TunsStand.syncDirty {a} (h : TunsStand s₀ s) : TunsStand s₀ (syncDirty s a) := h.work CellarWork.refl.syncDirty

protected theorem TunsStand.addDirty {v written dirty} (h : TunsStand s₀ s) : TunsStand s₀ (addDirty s v written dirty) := by
  fun_cases addDirty s v written dirty
  · unfold markDirty
    exact h.same.ite h.same.syncDirty
  · exact h.same.syncDirty

protected theorem TunsStand.noteDelta {v idx} (h : TunsStand s₀ s) : TunsStand s₀ (noteDelta s v idx) := by
  fun_cases noteDelta s v idx
  · exact h.same
  · exact h
  · exact h

protected theorem TunsStand.installVersion {v written commit dirty} (h : TunsStand s₀ s) :
    TunsStand s₀ (installVersion s v written commit dirty) := by
  have hcurrent : TunsStand s₀ (makeCurrent s v.hdr.id v) := h.same
  exact (hcurrent.work CellarWork.refl.installCask).addDirty.noteDelta.same

protected theorem TunsStand.publishVersion {v written commit dirty} (h : TunsStand s₀ s) :
    TunsStand s₀ (publishVersion s v written commit dirty).1 := h.installVersion.revokeAll

/-! ### Lane groups and late rows -/

protected theorem TunsStand.enqueue {k slot n ops rows} (h : TunsStand s₀ s) : TunsStand s₀ (enqueue s k slot n ops rows) :=
  h.modTun.modGyle

protected theorem TunsStand.holdLanes {k slot p rows} (h : TunsStand s₀ s) : TunsStand s₀ (holdLanes s k slot p rows) :=
  h.foldl fun k _ => by
    split
    · exact k
    · exact k.modGyle.ite k

protected theorem TunsStand.notePlaced {k} (h : TunsStand s₀ s) : TunsStand s₀ (notePlaced s k) := h.modGyle

protected theorem TunsStand.placeSegment {k row slot} (h : TunsStand s₀ s) : TunsStand s₀ (placeSegment s k row slot) := by
  fun_cases placeSegment s k row slot
  · exact h
  · exact h
  · exact h.modGyle
  · exact (h.modGyle.notePlaced.foldl fun k _ => k.foldl fun k2 _ => k2.enqueue).holdLanes
  · exact h

protected theorem TunsStand.reserve {k slot row head} (h : TunsStand s₀ s) (ht : reserve s k slot row head = some t) : TunsStand s₀ t := by
  revert ht
  fun_cases reserve s k slot row head <;> rintro ⟨⟩
  · exact h
  · exact h.modPort.modGyle
  · exact h.same.modPort.modGyle

protected theorem TunsStand.dropRow {k slot row} (h : TunsStand s₀ s) : TunsStand s₀ (dropRow s k slot row) :=
  (h.foldl fun k _ => k.modTun).same

protected theorem TunsStand.substitute {k slot row wantFallback} (h : TunsStand s₀ s) :
    TunsStand s₀ (substitute s k slot row wantFallback) := by
  fun_cases substitute s k slot row wantFallback
  · exact h
  · exact h
  · exact h.dropRow.modGyle
  · exact h.dropRow.modGyle.modGyle
  · exact h.dropRow.modGyle.enqueue.notePlaced
  · exact h.dropRow.modGyle

protected theorem TunsStand.secondChoice {k slot row} (h : TunsStand s₀ s) : TunsStand s₀ (secondChoice s k slot row) := by
  fun_cases secondChoice s k slot row
  · exact h
  · exact h.modGyle
  · exact h.substitute

protected theorem TunsStand.markLate {k slot row} (h : TunsStand s₀ s) : TunsStand s₀ (markLate s k slot row) := by
  fun_cases markLate s k slot row
  · exact h
  · exact h
  · exact (h.modGyle.ite h).secondChoice
  · exact (h.modGyle.ite h).modGyle

/-! ### Fills -/

protected theorem TunsStand.runFeeder {n lane ran ahead} (h : TunsStand s₀ s) : TunsStand s₀ (runFeeder s n lane ran ahead) := by
  unfold runFeeder
  extract_lets
  exact h.modTun

protected theorem TunsStand.settleRanks {n} (h : TunsStand s₀ s) : TunsStand s₀ (settleRanks s n) := by
  unfold settleRanks
  extract_lets
  exact h.modTun

protected theorem TunsStand.passFeeders {n fill} (h : TunsStand s₀ s) : TunsStand s₀ (passFeeders s n fill) := by
  unfold passFeeders
  extract_lets
  exact h.modTun

protected theorem TunsStand.writeRanks {n fill} (h : TunsStand s₀ s) : TunsStand s₀ (writeRanks s n fill) := h.modTun.settleRanks

protected theorem TunsStand.runFill {n o} (h : TunsStand s₀ s) : TunsStand s₀ (runFill s n o) := h.modTun.bumpFree

protected theorem TunsStand.drainGrads {n o a x} (h : TunsStand s₀ s) : TunsStand s₀ (drainGrads s n o a x) := by
  fun_cases drainGrads s n o a x
  case case5 => exact h.same
  all_goals exact h

protected theorem TunsStand.drainOp {o a} (h : TunsStand s₀ s) : TunsStand s₀ (drainOp s o a) := by
  fun_cases drainOp s o a
  · exact h
  · exact h
  · exact h.foldl fun k _ => k.foldl fun k2 _ => by
      split
      · exact k2
      · exact k2.modGyle

protected theorem TunsStand.sendFarRow {k slot row} (h : TunsStand s₀ s) : TunsStand s₀ (sendFarRow s k slot row) := by
  fun_cases sendFarRow s k slot row
  case case5 s1 hs1 n s2 s3 s4 =>
    have h2 : TunsStand s₀ s2 := (h.reserve hs1).foldl fun k _ => k.stamp.sendReq
    have h4 : TunsStand s₀ s4 := h2.same
    exact h4.modGyle
  all_goals exact h

protected theorem TunsStand.sendFarRows (h : TunsStand s₀ s) : TunsStand s₀ (sendFarRows s) :=
  h.foldl fun k _ => k.foldl fun k2 _ => k2.ite k2.sendFarRow

/-! ### Lost tensors and purges -/

protected theorem TunsStand.loseInGyle {a v at_ g} (h : TunsStand s₀ s) : TunsStand s₀ (loseInGyle a v at_ s g) := by
  fun_cases loseInGyle a v at_ s g
  · exact h.endTraining
  · exact h
  · exact h.foldl fun k _ => k.substitute
  · exact h

protected theorem TunsStand.updateLost {a} (h : TunsStand s₀ s) : TunsStand s₀ (updateLost s a) := by
  fun_cases updateLost s a
  · exact (h.same.logNow.raise.releaseBy fun k => k.work CellarWork.refl.staleCask).publishVersion.enterShared
  · exact h

protected theorem TunsStand.tensorLost {epoch a v idx} (h : TunsStand s₀ s) : TunsStand s₀ (tensorLost s epoch a v idx) := by
  fun_cases tensorLost s epoch a v idx
  · exact h
  · exact h
  · exact (h.modVerOf.same.logNow.raise.foldl fun k _ => k.loseInGyle).updateLost
  · exact h.modVerOf.same.logNow.raise.foldl fun k _ => k.loseInGyle

protected theorem TunsStand.freePurged (h : TunsStand s₀ s) : TunsStand s₀ (freePurged s) :=
  h.foldl fun k _ => (k.work CellarWork.refl.freeCask).ite k

protected theorem TunsStand.answerPurges (h : TunsStand s₀ s) : TunsStand s₀ (answerPurges s) := by
  unfold answerPurges
  extract_lets _ _ s1
  have h1 : TunsStand s₀ s1 := h.same
  exact h1.foldl fun k _ => k.reply

protected theorem TunsStand.purgeTick (h : TunsStand s₀ s) : TunsStand s₀ (purgeTick s) := by
  fun_cases purgeTick s
  · exact h
  · exact ((h.freePurged.releaseBy fun k => k).ite h.freePurged).answerPurges

/-! ### Work that moves between tuns -/

protected theorem TunsStand.endTunFault {n} (h : TunsStand s₀ s) : TunsStand s₀ (endTunFault s n) := by
  fun_cases endTunFault s n
  · exact h.endFault
  · exact h
  · exact h

protected theorem TunsStand.replayDone {id} (h : TunsStand s₀ s) : TunsStand s₀ (replayDone s id) := by
  fun_cases replayDone s id
  · exact h
  · exact TunsStand.foldl h.same fun k _ => by
      split
      · exact k.endTunFault
      · exact k

protected theorem TunsStand.moveRows {n ops} (h : TunsStand s₀ s) : TunsStand s₀ (moveRows s n ops) := h.foldl fun k _ => k.modGyle

protected theorem TunsStand.giveOps {n head ops} (h : TunsStand s₀ s) : TunsStand s₀ (giveOps s n head ops) := h.modTun.moveRows

protected theorem TunsStand.noteReplay {k} (h : TunsStand s₀ s) : TunsStand s₀ (noteReplay s k) := h.modGyle

protected theorem TunsStand.freeRanks {ops} (h : TunsStand s₀ s) : TunsStand s₀ (freeRanks s ops) := h.foldl fun k _ => k.modGyle

protected theorem TunsStand.placeWaiting (h : TunsStand s₀ s) : TunsStand s₀ (placeWaiting s) :=
  h.foldl fun k _ => k.ite (k.foldl fun k2 _ => TunsStand.ite k2.placeSegment k2)

end Sys2Proof.Machine
end

section
/-! PROOFS. Which tuns work, and where operations go when a tun is fenced (R83, R104, R110): work enters active tuns alone, so that a
fenced tun stays empty, and an operation that a tun had not issued enters another queue or waits for a tun. -/
namespace Sys2Proof.Machine

set_option Elab.async false

variable {s t : State} {n m : Nat} {x : Tun} {o : Op}

/-! ### Sorted lists and tables with rising keys -/

theorem insertBy_perm {α : Type} (lt : α → α → Bool) (a : α) (l : List α) : (insertBy lt a l).Perm (a :: l) := by
  induction l with
  | nil => exact .refl _
  | cons b l ih =>
    unfold insertBy
    split
    · exact .refl _
    · exact (ih.cons b).trans (.swap a b l)

theorem sortBy_perm {α : Type} (lt : α → α → Bool) (l : List α) : (sortBy lt l).Perm l := by
  induction l with
  | nil => exact .refl _
  | cons a l ih => exact (insertBy_perm lt a _).trans (ih.cons a)

/-- A table whose keys rise reads back each of its entries. -/
theorem tget_of_mem {α : Type} {d : α} {l : Tab α} (hrise : keysRise l = true) {e : Nat × α} (he : e ∈ l) : tget d l e.1 = e.2 := by
  induction l with
  | nil => cases he
  | cons a l ih =>
    obtain ⟨hfrom, hrise⟩ := (keysRise_cons a l).mp hrise
    rcases List.mem_cons.mp he with rfl | he
    · simp [tget]
    · have hlt := hfrom e he
      rw [tget, if_neg (by omega), ih hrise he]

theorem keysRise_setTun (h : keysRise s.tuns = true) : keysRise (setTun s m x).tuns = true := keysRise_tset h

/-- Where one element of a list brings something about and every element keeps it, the fold brings it about. -/
theorem foldl_brings {α β : Type} {p : β → Prop} {g : β → α → β} {l : List α} {a : α} (ha : a ∈ l) (hbring : ∀ b, p (g b a))
    (hkeep : ∀ b c, p b → p (g b c)) (b : β) : p (l.foldl g b) := by
  obtain ⟨before, after, rfl⟩ := List.append_of_mem ha
  rw [List.foldl_append, List.foldl_cons]
  exact List.foldlRecOn after g (hbring _) fun b hb c _ => hkeep b c hb

/-! ### Tuns that work -/

/-- The tun is active under a logical index (R109). -/
def Works (s : State) (m : Nat) : Prop := (s.tun m).st = .active ∧ (s.tun m).logical.isSome = true

theorem mem_tuns (h : s.tun m ≠ {}) : (m, s.tun m) ∈ s.tuns := mem_of_tget_ne h

theorem Works.mem_tuns (h : Works s m) : (m, s.tun m) ∈ s.tuns :=
  Machine.mem_tuns fun hdefault => by simp [Works, hdefault] at h

theorem mem_activeTuns {l : Nat} : (l, m) ∈ activeTuns s ↔ ∃ x, (m, x) ∈ s.tuns ∧ x.st = .active ∧ x.logical = some l := by
  rw [activeTuns, (sortBy_perm _ _).mem_iff, List.mem_filterMap]
  constructor
  · rintro ⟨⟨k, x⟩, hx, hsome⟩
    split at hsome
    · rename_i hst hl
      cases hsome
      exact ⟨x, hx, hst, hl⟩
    · cases hsome
  · rintro ⟨x, hx, hst, hl⟩
    exact ⟨(m, x), hx, by simp only [hst, hl]⟩

theorem Works.tunCount_ne_zero (h : Works s m) : tunCount s ≠ 0 := by
  obtain ⟨l, hl⟩ := Option.isSome_iff_exists.mp h.2
  exact (List.length_pos_of_mem (mem_activeTuns.mpr ⟨_, h.mem_tuns, h.1, hl⟩)).ne'

theorem mem_tunsByBacklog : m ∈ tunsByBacklog s ↔ ∃ l, (l, m) ∈ activeTuns s := by
  rw [tunsByBacklog, List.mem_map]
  constructor
  · rintro ⟨⟨l, _⟩, h, rfl⟩
    exact ⟨l, (sortBy_perm _ _).mem_iff.mp h⟩
  · rintro ⟨l, h⟩
    exact ⟨(l, m), (sortBy_perm _ _).mem_iff.mpr h, rfl⟩

/-- Work goes to active tuns alone. -/
theorem active_of_mem_tunsByBacklog (hrise : keysRise s.tuns = true) (h : m ∈ tunsByBacklog s) : (s.tun m).st = .active := by
  obtain ⟨l, hl⟩ := mem_tunsByBacklog.mp h
  obtain ⟨x, hx, hst, -⟩ := mem_activeTuns.mp hl
  rw [State.tun, tget_of_mem hrise hx]
  exact hst

theorem spare_of_freeSpare (hrise : keysRise s.tuns = true) (h : freeSpare s = some m) : (s.tun m).st = .spare := by
  obtain ⟨e, he, rfl⟩ := Option.map_eq_some_iff.mp h
  rw [State.tun, tget_of_mem hrise (List.mem_of_find?_eq_some he)]
  simpa using List.find?_some he

/-- Of two entries of a table that a function takes up, one bears another key than a given one. -/
theorem exists_ne_of_filterMap {α β : Type} {f : Nat × α → Option β} {l : Tab α} (hrise : keysRise l = true)
    (hcount : 1 < (l.filterMap f).length) (n : Nat) : ∃ e ∈ l, e.1 ≠ n ∧ (f e).isSome = true := by
  induction l with
  | nil => simp at hcount
  | cons a l ih =>
    obtain ⟨hfrom, hrise⟩ := (keysRise_cons a l).mp hrise
    by_cases ha : a.1 = n
    · have hrest : 0 < (l.filterMap f).length := by
        rw [List.filterMap_cons] at hcount
        split at hcount
        · omega
        · exact Nat.lt_of_succ_lt_succ hcount
      obtain ⟨b, hb⟩ := List.exists_mem_of_length_pos hrest
      obtain ⟨e, he, hfe⟩ := List.mem_filterMap.mp hb
      have hlt := hfrom e he
      exact ⟨e, List.mem_cons_of_mem a he, by omega, by rw [hfe]; rfl⟩
    · by_cases hf : (f a).isSome = true
      · exact ⟨a, List.mem_cons_self, ha, hf⟩
      · rw [List.filterMap_cons_none (Option.not_isSome_iff_eq_none.mp hf)] at hcount
        obtain ⟨e, he, hne⟩ := ih hrise hcount
        exact ⟨e, List.mem_cons_of_mem a he, hne⟩

/-- Of two tuns that count for T one is another than a given one. -/
theorem exists_works_ne (hrise : keysRise s.tuns = true) (hcount : 1 < tunCount s) (n : Nat) : ∃ m, m ≠ n ∧ Works s m := by
  rw [tunCount, activeTuns, (sortBy_perm _ _).length_eq] at hcount
  obtain ⟨e, he, hne, hsome⟩ := exists_ne_of_filterMap hrise hcount n
  refine ⟨e.1, hne, ?_⟩
  rw [Works, State.tun, tget_of_mem hrise he]
  split at hsome
  · rename_i hst hl
    exact ⟨hst, by rw [hl]; rfl⟩
  · cases hsome

/-! ### A fenced tun stays empty -/

/-- A tun as its fence leaves it: without work and without its index; its counters, lanes and spares stand (R110). -/
def Tun.fenced (x : Tun) : Tun :=
  { x with
    st := .fenced, logical := none, queue := [], issued := [], sets := [], feeders := [], rankWaits := [], half0 := none, half1 := none
    readmitStep := 0, selfTest := false }

/-- Tun `n`, which was `x`, stands as its fence left it. -/
structure RestsFenced (n : Nat) (x : Tun) (s : State) : Prop where
  keys : keysRise s.tuns = true
  tun : s.tun n = x.fenced

protected theorem RestsFenced.of_tuns (h : RestsFenced n x s) (ht : t.tuns = s.tuns) : RestsFenced n x t :=
  ⟨ht ▸ h.keys, by rw [State.tun, ht]; exact h.tun⟩

protected theorem RestsFenced.foldl {α : Type} {g : State → α → State} {l : List α} (h : RestsFenced n x s)
    (hg : ∀ {t}, RestsFenced n x t → ∀ a, RestsFenced n x (g t a)) : RestsFenced n x (l.foldl g s) := by
  induction l generalizing s with
  | nil => exact h
  | cons a l ih => exact ih (hg h a)

protected theorem RestsFenced.modGyle {k f} (h : RestsFenced n x s) : RestsFenced n x (modGyle s k f) := h.of_tuns (modGyle_tuns ..)

/-- Another tun changes. -/
protected theorem RestsFenced.modTun_ne {f} (h : RestsFenced n x s) (hm : m ≠ n) : RestsFenced n x (modTun s m f) :=
  ⟨keysRise_setTun h.keys, (modTun_tun_ne _ _ hm.symm).trans h.tun⟩

/-- A change of the operations of a tun that leaves none where there is none. -/
protected theorem RestsFenced.modTun {f : Tun → Tun} (h : RestsFenced n x s) (hf : f x.fenced = x.fenced) :
    RestsFenced n x (modTun s m f) := by
  by_cases hm : m = n
  · subst hm
    exact ⟨keysRise_setTun h.keys, by rw [modTun_tun_self, h.tun, hf]⟩
  · exact h.modTun_ne hm

theorem RestsFenced.ne_of_active (h : RestsFenced n x s) (hm : (s.tun m).st = .active) : m ≠ n := by
  rintro rfl
  rw [h.tun] at hm
  cases hm

theorem RestsFenced.ne_of_spare (h : RestsFenced n x s) (hm : (s.tun m).st = .spare) : m ≠ n := by
  rintro rfl
  rw [h.tun] at hm
  cases hm

theorem RestsFenced.ne_of_mem (h : RestsFenced n x s) (hm : m ∈ tunsByBacklog s) : m ≠ n :=
  h.ne_of_active (active_of_mem_tunsByBacklog h.keys hm)

protected theorem RestsFenced.raise {page cls} (h : RestsFenced n x s) : RestsFenced n x (raise s page cls) := h.of_tuns rfl

protected theorem RestsFenced.setTunState {st logical} (h : RestsFenced n x s) (hm : m ≠ n) :
    RestsFenced n x (setTunState s m st logical) := by
  have hset : RestsFenced n x (setTun s m { s.tun m with st, logical }) := h.modTun_ne (f := fun _ => { s.tun m with st, logical }) hm
  fun_cases setTunState s m st logical
  · exact hset
  · exact hset.raise

protected theorem RestsFenced.giveOps {head ops} (h : RestsFenced n x s) (hm : m ≠ n) : RestsFenced n x (giveOps s m head ops) :=
  (h.modTun_ne hm).foldl fun k _ => k.modGyle

protected theorem RestsFenced.rePlace {ops} (h : RestsFenced n x s) : RestsFenced n x (rePlace s ops) :=
  h.foldl fun k _ => by
    split
    · rename_i hts
      exact k.giveOps (k.ne_of_mem (hts ▸ List.mem_cons_self))
    · exact k.of_tuns rfl

protected theorem RestsFenced.noteReplay {k} (h : RestsFenced n x s) : RestsFenced n x (noteReplay s k) := h.modGyle

protected theorem RestsFenced.freeRanks {ops} (h : RestsFenced n x s) : RestsFenced n x (freeRanks s ops) := h.foldl fun k _ => k.modGyle

/-- Work enters the active tun with the least backlog. -/
theorem RestsFenced.enqueue_first {k slot ops rows ts} (h : RestsFenced n x s) (hts : tunsByBacklog s = m :: ts) :
    RestsFenced n x (enqueue s k slot m ops rows) := (h.modTun_ne (h.ne_of_mem (hts ▸ List.mem_cons_self))).modGyle

protected theorem RestsFenced.dropRow {k slot row} (h : RestsFenced n x s) : RestsFenced n x (dropRow s k slot row) := by
  unfold dropRow
  extract_lets cut s1
  have h1 : RestsFenced n x s1 := h.foldl fun k _ => k.modTun rfl
  exact h1.of_tuns rfl

protected theorem RestsFenced.substitute {k slot row wantFallback} (h : RestsFenced n x s) :
    RestsFenced n x (substitute s k slot row wantFallback) := by
  fun_cases substitute s k slot row wantFallback
  case case5 hts => exact (h.dropRow.modGyle.enqueue_first hts).modGyle
  case case4 => exact h.dropRow.modGyle.modGyle
  case case3 | case6 => exact h.dropRow.modGyle
  all_goals exact h

protected theorem RestsFenced.secondChoice {k slot row} (h : RestsFenced n x s) : RestsFenced n x (secondChoice s k slot row) := by
  fun_cases secondChoice s k slot row
  · exact h
  · exact h.modGyle
  · exact h.substitute

protected theorem RestsFenced.settleBlocked (h : RestsFenced n x s) : RestsFenced n x (settleBlocked s) := by
  fun_cases settleBlocked s
  · exact h
  · exact h.foldl fun k _ => k.foldl fun k2 _ => by
      split
      · exact k2
      · split
        · exact k2.secondChoice
        · exact k2

/-- The end of replays is a matter of the fault records alone. -/
theorem replayDone_field {α : Type} (p : State → α) (hp : ∀ s integrity, p { s with integrity } = p s) (s : State) (id : Seq) :
    p (replayDone s id) = p s := by
  fun_cases replayDone s id
  · rfl
  · refine (foldl_field p _ (fun t f => ?_) _ _).trans (hp s _)
    split
    · rename_i n _
      fun_cases endTunFault t n
      · exact hp t _
      · rfl
      · rfl
    · rfl

protected theorem RestsFenced.replayDone {id} (h : RestsFenced n x s) : RestsFenced n x (replayDone s id) :=
  h.of_tuns (replayDone_field (·.tuns) (fun _ _ => rfl) s id)

theorem restsFenced_setTunState (hrise : keysRise s.tuns = true) (hx : { s.tun n with st := .fenced, logical := none } = x.fenced) :
    RestsFenced n x (setTunState s n .fenced none) := by
  have hset : RestsFenced n x (setTun s n { s.tun n with st := .fenced, logical := none }) :=
    ⟨keysRise_setTun hrise, (setTun_tun_self ..).trans hx⟩
  fun_cases setTunState s n .fenced none
  · exact hset
  · exact hset.raise

/-- A tun that is fenced rests so (R110). -/
theorem restsFenced_fenceTun {source : Nat} (hrise : keysRise s.tuns = true) : RestsFenced n (s.tun n) (fenceTun s n source) := by
  unfold fenceTun
  extract_lets s1 x id live ops s2 s3 s4 s5 s6
  have hx : x = s.tun n := by
    rw [show x = s1.tun n from rfl, State.tun, startFault_tuns, State.tun]
  have h3 : RestsFenced n (s.tun n) s3 := by
    have hrise1 : keysRise s1.tuns = true := by
      rw [startFault_tuns]
      exact hrise
    exact restsFenced_setTunState (keysRise_setTun hrise1) (by rw [setTun_tun_self, hx]; rfl)
  have h4 : RestsFenced n (s.tun n) s4 := h3.freeRanks.foldl fun k _ => k.noteReplay
  have h5 : RestsFenced n (s.tun n) s5 := h4.foldl fun k _ => k.modGyle
  have h6 : RestsFenced n (s.tun n) s6 := by
    unfold s6
    split
    · exact h5.rePlace
    · refine RestsFenced.raise ?_
      split
      · rename_i p hp
        have hne := h5.ne_of_spare (spare_of_freeSpare h5.keys hp)
        exact (h5.setTunState hne).giveOps hne
      · exact h5.rePlace
  exact h6.replayDone.settleBlocked

/-- A tun is fenced without its work, and keeps the rest (R110). -/
theorem fenceTun_tun {source : Nat} (hrise : keysRise s.tuns = true) : (fenceTun s n source).tun n = (s.tun n).fenced :=
  (restsFenced_fenceTun hrise).tun

end Sys2Proof.Machine
end

section
/-! PROOFS. The fence, the readmission and the BIST of a tun (`Obligations.TunMaintenanceCompletes`). -/
namespace Sys2Proof.Machine

set_option Elab.async false

variable {s₀ s t : State} {n m : Nat} {o : Op}

/-! ### Operations that a fence moves -/

/-- The operation stands in a tun's queue or waits for a tun. -/
def Queued (s : State) (o : Op) : Prop := (∃ m, o ∈ (s.tun m).queue) ∨ o ∈ s.orphans

theorem mem_allOps_of_queue (h : o ∈ (s.tun m).queue) : o ∈ allOps s := by
  have htun : (m, s.tun m) ∈ s.tuns := mem_tuns fun hdefault => by simp [hdefault] at h
  exact List.mem_append_left _ (List.mem_append_left _ (List.mem_flatMap.mpr ⟨_, htun, List.mem_append_left _ h⟩))

theorem Queued.mem_allOps (h : Queued s o) : o ∈ allOps s := by
  rcases h with ⟨m, hm⟩ | h
  · exact mem_allOps_of_queue hm
  · exact List.mem_append_right _ h

theorem Queued.of_tuns (h : Queued s o) (ht : t.tuns = s.tuns) (ho : t.orphans = s.orphans) : Queued t o := by
  simpa only [Queued, State.tun, ht, ho] using h

/-- A change of a tun that keeps its queue. -/
theorem Queued.modTun {f : Tun → Tun} (h : Queued s o) (hf : o ∈ (s.tun m).queue → o ∈ (f (s.tun m)).queue) : Queued (modTun s m f) o := by
  rcases h with ⟨k, hk⟩ | h
  · refine .inl ⟨k, ?_⟩
    by_cases hkm : k = m
    · subst hkm
      rw [modTun_tun_self]
      exact hf hk
    · rwa [modTun_tun_ne _ _ hkm]
  · exact .inr h

theorem Queued.raise {page cls} (h : Queued s o) : Queued (raise s page cls) o := h.of_tuns rfl rfl

theorem Queued.setTunState {st logical} (h : Queued s o) : Queued (setTunState s m st logical) o := by
  have hset : Queued (setTun s m { s.tun m with st, logical }) o := h.modTun (f := fun _ => { s.tun m with st, logical }) id
  fun_cases Machine.setTunState s m st logical
  · exact hset
  · exact hset.raise

@[simp] theorem moveRows_tuns (s : State) (m : Nat) (ops : List Op) : (moveRows s m ops).tuns = s.tuns :=
  foldl_field (·.tuns) _ (fun _ _ => modGyle_tuns ..) _ _

@[simp] theorem moveRows_orphans (s : State) (m : Nat) (ops : List Op) : (moveRows s m ops).orphans = s.orphans :=
  foldl_field (·.orphans) _ (fun _ _ => modGyle_orphans ..) _ _

@[simp] theorem moveRows_heldGroups (s : State) (m : Nat) (ops : List Op) : (moveRows s m ops).heldGroups = s.heldGroups :=
  foldl_field (·.heldGroups) _ (fun _ _ => modGyle_heldGroups ..) _ _

theorem giveOps_tun_self (s : State) (m : Nat) (head : Bool) (ops : List Op) : (giveOps s m head ops).tun m =
    { s.tun m with queue := if head then ops ++ (s.tun m).queue else (s.tun m).queue ++ ops } := by
  rw [State.tun, giveOps, moveRows_tuns]
  exact modTun_tun_self ..

theorem Queued.giveOps {head ops} (h : Queued s o) : Queued (giveOps s m head ops) o := by
  refine (h.modTun fun ho => ?_).of_tuns (moveRows_tuns ..) (moveRows_orphans ..)
  dsimp only
  split
  · exact List.mem_append_right _ ho
  · exact List.mem_append_left _ ho

theorem queued_giveOps {head : Bool} {ops : List Op} (ho : o ∈ ops) : Queued (giveOps s m head ops) o := by
  refine .inl ⟨m, ?_⟩
  rw [giveOps_tun_self]
  dsimp only
  split
  · exact List.mem_append_left _ ho
  · exact List.mem_append_right _ ho

/-- Every slice that is placed again enters a queue or waits, and the operations of the others stand where they are (R110). -/
theorem queued_rePlace {ops : List Op} (ho : o ∈ ops) : Queued (rePlace s ops) o := by
  have hslice : (o.gk, o.slot, o.segment) ∈ (ops.map fun o => (o.gk, o.slot, o.segment)).eraseDups :=
    List.mem_eraseDups.mpr (List.mem_map.mpr ⟨o, ho, rfl⟩)
  unfold rePlace
  refine foldl_brings (p := (Queued · o)) hslice (fun u => ?_) (fun u k hu => ?_) s
  · have hmine : o ∈ ops.filter fun q => (q.gk, q.slot, q.segment) = (o.gk, o.slot, o.segment) := by simp [ho]
    dsimp only
    split
    · exact queued_giveOps hmine
    · exact .inr (List.mem_append_right _ hmine)
  · dsimp only
    split
    · exact hu.giveOps
    · exact hu.imp_right (List.mem_append_left _)

/-! ### Issue and active tuns while work moves -/

/-- What halts issue stands as it did. -/
structure IssueStands (s t : State) : Prop where
  glob : t.glob = s.glob := by rfl
  pace : t.pace = s.pace := by rfl

protected theorem IssueStands.refl (s : State) : IssueStands s s := {}

protected theorem IssueStands.trans {u : State} (h : IssueStands s t) (k : IssueStands t u) : IssueStands s u :=
  ⟨k.glob.trans h.glob, k.pace.trans h.pace⟩

theorem IssueStands.issueHalted (h : IssueStands s t) : issueHalted t = issueHalted s := by
  rw [Machine.issueHalted, h.glob, h.pace, Machine.issueHalted]

protected theorem IssueStands.foldl {α : Type} {g : State → α → State} {l : List α} (h : IssueStands s₀ s)
    (hg : ∀ {t}, IssueStands s₀ t → ∀ a, IssueStands s₀ (g t a)) : IssueStands s₀ (l.foldl g s) := by
  induction l generalizing s with
  | nil => exact h
  | cons a l ih => exact ih (hg h a)

protected theorem IssueStands.modGyle {k f} (h : IssueStands s₀ s) : IssueStands s₀ (modGyle s k f) :=
  h.trans ⟨modGyle_glob .., modGyle_pace ..⟩

protected theorem IssueStands.setTun {x} (h : IssueStands s₀ s) : IssueStands s₀ (setTun s m x) := h.trans {}

protected theorem IssueStands.raise {page cls} (h : IssueStands s₀ s) : IssueStands s₀ (raise s page cls) := h.trans {}

protected theorem IssueStands.setTunState {st logical} (h : IssueStands s₀ s) : IssueStands s₀ (setTunState s m st logical) := by
  fun_cases Machine.setTunState s m st logical
  · exact h.setTun
  · exact h.setTun.raise

protected theorem IssueStands.giveOps {head ops} (h : IssueStands s₀ s) : IssueStands s₀ (giveOps s m head ops) :=
  h.setTun.foldl fun k _ => k.modGyle

protected theorem IssueStands.noteReplay {k} (h : IssueStands s₀ s) : IssueStands s₀ (noteReplay s k) := h.modGyle

protected theorem IssueStands.freeRanks {ops} (h : IssueStands s₀ s) : IssueStands s₀ (freeRanks s ops) := h.foldl fun k _ => k.modGyle

protected theorem IssueStands.rePlace {ops} (h : IssueStands s₀ s) : IssueStands s₀ (rePlace s ops) :=
  h.foldl fun k _ => by
    split
    · exact k.giveOps
    · exact k.trans {}

theorem Works.of_tun (h : Works s m) (ht : t.tun m = s.tun m) : Works t m := by
  rwa [Works, ht]

theorem Works.stand (h : Works s m) (k : TunsStand s t) : Works t m :=
  ⟨(k.st m).trans h.1, (k.field (·.logical) (fun _ => rfl) m) ▸ h.2⟩

theorem setTunState_tun_self (s : State) (m : Nat) (st : TunState) (logical : Option Nat) :
    (setTunState s m st logical).tun m = { s.tun m with st, logical } := by
  fun_cases setTunState s m st logical <;> exact setTun_tun_self ..

theorem setTunState_tun_ne (s : State) {m n : Nat} (st : TunState) (logical : Option Nat) (h : n ≠ m) :
    (setTunState s m st logical).tun n = s.tun n := by
  fun_cases setTunState s m st logical <;> exact setTun_tun_ne _ _ h

/-- A tun that enters service leaves those that work at work. -/
theorem Works.setTunState_active {l : Nat} (h : Works s m) : Works (setTunState s n .active (some l)) m := by
  by_cases hm : m = n
  · subst hm
    rw [Works, setTunState_tun_self]
    exact ⟨rfl, rfl⟩
  · exact h.of_tun (setTunState_tun_ne _ _ _ hm)

protected theorem TunsStand.rePlace {ops} (h : TunsStand s₀ s) : TunsStand s₀ (rePlace s ops) :=
  h.foldl fun k _ => by
    split
    · exact k.giveOps
    · exact k.same

theorem settleBlocked_of_works (hworks : Works s m) (hissue : issueHalted s = false) : settleBlocked s = s := by
  rw [settleBlocked, if_pos (by simp [hworks.tunCount_ne_zero, hissue])]

/-- While another tun works and issue is not halted, what a tun had not issued stands with other tuns after its fence (R110). -/
theorem mem_allOps_fenceTun {source : Nat} (hrise : keysRise s.tuns = true) (hcount : 1 < tunCount s) (hissue : issueHalted s = false)
    (ho : o ∈ (s.tun n).queue) : o ∈ allOps (fenceTun s n source) := by
  obtain ⟨m, hmn, hm⟩ := exists_works_ne hrise hcount n
  unfold fenceTun
  extract_lets s1 x id live ops s2 s3 s4 s5 s6
  have hs1 : ∀ k, s1.tun k = s.tun k := fun k => by rw [State.tun, startFault_tuns, State.tun]
  have hops : o ∈ ops := List.mem_append_right _ (by rw [show x = s1.tun n from rfl, hs1]; exact ho)
  have hi5 : IssueStands s s5 := by
    have h1 : IssueStands s s1 := ⟨startFault_glob .., startFault_pace ..⟩
    have h4 : IssueStands s s4 := h1.setTun.setTunState.freeRanks.foldl fun k _ => k.noteReplay
    exact h4.foldl fun k _ => k.modGyle
  have hm5 : Works s5 m := by
    have h3 : Works s3 m := hm.of_tun (by rw [setTunState_tun_ne _ _ _ hmn, setTun_tun_ne _ _ hmn, hs1])
    exact h3.stand (((TunsStand.refl s3).freeRanks.foldl fun k _ => k.noteReplay).foldl fun k _ => k.modGyle)
  have h6 : IssueStands s s6 ∧ Works s6 m ∧ Queued s6 o := by
    have hplaced : IssueStands s (rePlace s5 ops) ∧ Works (rePlace s5 ops) m ∧ Queued (rePlace s5 ops) o :=
      ⟨hi5.rePlace, hm5.stand (TunsStand.refl s5).rePlace, queued_rePlace hops⟩
    unfold s6
    split
    · exact hplaced
    · rename_i l _
      split
      · rename_i p _
        exact ⟨hi5.setTunState.giveOps.raise, hm5.setTunState_active.stand (TunsStand.refl _).giveOps.raise, (queued_giveOps hops).raise⟩
      · exact ⟨hplaced.1.raise, hplaced.2.1.stand (TunsStand.refl _).raise, hplaced.2.2.raise⟩
  obtain ⟨hi6, hm6, hq6⟩ := h6
  have hi7 : issueHalted (replayDone s6 id) = false :=
    (replayDone_field issueHalted (fun _ _ => rfl) s6 id).trans (hi6.issueHalted.trans hissue)
  rw [settleBlocked_of_works (hm6.stand (TunsStand.refl s6).replayDone) hi7]
  exact (hq6.of_tuns (replayDone_field (·.tuns) (fun _ _ => rfl) s6 id) (replayDone_field (·.orphans) (fun _ _ => rfl) s6 id)).mem_allOps

/-! ### Writes of `TUN_CMD` -/

/-- A write that no rule refuses acts at its stamped event and is answered `DONE` (R419). -/
theorem busWrite_accepted {page off : Nat} {v : Word64} {role : Role} {check : State → Option Nat} {effect : State → State}
    (h : Accessible s page off v role) (hcheck : check (stamp s) = none) :
    busWrite page off v role check effect s = emit (effect (stamp s)) (.response 0 stDone) := by
  obtain ⟨hserves, hstatic⟩ := h
  simp [busWrite, hserves, hstatic, hcheck]

@[simp] theorem stamp_tun (s : State) (n : Nat) : (stamp s).tun n = s.tun n := by rw [State.tun, stamp_tuns, State.tun]

@[simp] theorem emit_tun (s : State) (o : Output) (n : Nat) : (emit s o).tun n = s.tun n := rfl

theorem allOps_emit (s : State) (out : Output) : allOps (emit s out) = allOps s := rfl

theorem inBlockReset_stamp (s : State) : inBlockReset (stamp s) = inBlockReset s := by simp [inBlockReset]

theorem issueHalted_stamp (s : State) : issueHalted (stamp s) = issueHalted s := by simp [issueHalted]

theorem tunCount_stamp (s : State) : tunCount (stamp s) = tunCount s := by simp [tunCount, activeTuns]

theorem fenceCheck_none (hfenced : (s.tun n).st ≠ .fenced) (hretired : (s.tun n).st ≠ .retired) (hdown : (s.tun n).st ≠ .down)
    (hreset : inBlockReset s = false) : fenceCheck n s = none := by
  simp [fenceCheck, hfenced, hretired, hdown, hreset]

theorem readmitCheck_none (hfenced : (s.tun n).st = .fenced) (hreset : inBlockReset s = false) : readmitCheck n s = none := by
  simp [readmitCheck, hfenced, hreset]

theorem applyTun_st (s : State) (n : Nat) (x : Tun) : (applyTun s n x).st = x.st := rfl

/-- A tun that is reset locally is in its BIST at the given step (R351). -/
theorem resetAndTest_tun (s : State) (n step : Nat) : ((resetAndTest s n step).tun n).st = .bist ∧
    ((resetAndTest s n step).tun n).readmitStep = step ∧ ((resetAndTest s n step).tun n).selfTest = false := by
  unfold resetAndTest
  extract_lets u v
  have hbist : (v.tun n).st = .bist := by rw [setTunState_tun_self]
  rw [modTun_tun_self]
  clear_value v
  dsimp only
  rw [applyTun_st]
  exact ⟨hbist, rfl, rfl⟩

/-! ### The end of a BIST -/

theorem stayFenced_st (s : State) (n : Nat) : ((stayFenced s n).tun n).st = .fenced := by
  rw [stayFenced, setTunState_tun_self]

/-- A tun that becomes free serves, or stands ready to (R111). -/
theorem enterSpare_st (s : State) (n : Nat) : ((enterSpare s n).tun n).st = .active ∨ ((enterSpare s n).tun n).st = .spare := by
  by_cases hroom : tunCount s < 64
  · left
    rw [enterSpare, if_pos hroom]
    extract_lets ops s1 s2
    have hactive : (s1.tun n).st = .active := by rw [setTunState_tun_self]
    clear_value s1
    exact ((TunsStand.of_tuns (t := { s1 with orphans := [] }) (.refl s1) rfl).giveOps.raise.placeWaiting.st n).trans hactive
  · right
    rw [enterSpare, if_neg hroom, setTunState_tun_self]

theorem passTun_st (s : State) (n : Nat) : ((passTun s n).tun n).st = .active ∨ ((passTun s n).tun n).st = .spare := by
  unfold passTun
  extract_lets u
  have hu : (u.tun n).st = .active ∨ (u.tun n).st = .spare := enterSpare_st ..
  split
  · exact hu
  · rwa [(TunsStand.refl u).raise.st]

theorem tunRetired_stamp (s : State) (n : Nat) : tunRetired (stamp s) n = tunRetired s n := by
  simp [tunRetired, mapData, mapInForce]

section

variable {found : BistResult}

/-- A tun whose diagnosis finds something beyond repair stays fenced, retired from now on or before (Table 17.4, step 4). -/
theorem diagnose_unrepairable (hother : found.other = true) : ((diagnose s n found).tun n).st = .fenced := by
  unfold diagnose
  extract_lets x bad lost spares
  rw [if_pos (show (bad.contains 34 || found.other || spares.length < lost.length) = true by simp [hother])]
  split <;> exact stayFenced_st ..

/-- A tun whose diagnosis finds nothing passes (Table 17.4, step 4). -/
theorem diagnose_clean (hclean : newFailures (s.tun n) found = []) (hother : found.other = false) (hretired : tunRetired s n = false) :
    diagnose s n found = passTun s n := by
  simp [diagnose, hclean, hother, hretired]

/-- A tun that the spare lanes can repair is reset and tested again (Table 17.4, steps 4 to 6). -/
theorem diagnose_repairable (hbad : newFailures (s.tun n) found ≠ []) (hother : found.other = false) (hretired : tunRetired s n = false)
    (hchecksum : 34 ∉ newFailures (s.tun n) found)
    (hspares : ((newFailures (s.tun n) found).filterMap (laneServed (s.tun n))).length ≤
      (openSpares (s.tun n) (newFailures (s.tun n) found)).length) :
    ∃ u, diagnose s n found = resetAndTest u n 6 := by
  unfold diagnose
  extract_lets x bad lost spares
  have hrepair : (bad.contains 34 || found.other || spares.length < lost.length) = false := by simpa [hother] using ⟨hchecksum, hspares⟩
  rw [hretired, hrepair, if_neg Bool.false_ne_true, if_neg Bool.false_ne_true, if_neg (by simpa using hbad)]
  exact ⟨_, rfl⟩

variable (hbist : (s.tun n).st = .bist)

include hbist

/-- A BIST that finds nothing: a self-test slot that ends, or a readmission at either of its tests (R332, R355). -/
theorem bistDone_clean (hclean : newFailures (s.tun n) found = []) (hother : found.other = false)
    (hretired : (s.tun n).selfTest = false → (s.tun n).readmitStep = 3 → tunRetired s n = false) :
    bistDone n found s = passTun (stamp s) n := by
  by_cases hself : (s.tun n).selfTest = true
  · simp [bistDone, hbist, hclean, hother, hself]
  · by_cases hstep : (s.tun n).readmitStep = 3
    · have hdiagnose := diagnose_clean (s := stamp s) (n := n) (found := found) (by rwa [stamp_tun]) hother
        (by rw [tunRetired_stamp]; exact hretired (by simpa using hself) hstep)
      simp [bistDone, hbist, hself, hstep, hdiagnose]
    · simp [bistDone, hbist, hclean, hother, hself, hstep]

/-- A BIST that finds something beyond repair leaves its tun fenced (R332, R355). -/
theorem bistDone_unrepairable (hother : found.other = true) (hrise : keysRise s.tuns = true) :
    ((bistDone n found s).tun n).st = .fenced := by
  by_cases hself : (s.tun n).selfTest = true
  · have hfence : bistDone n found s = fenceTun (stamp s) n 0x08 := by simp [bistDone, hbist, hother, hself]
    rw [hfence, fenceTun_tun (by rwa [stamp_tuns])]
    rfl
  · by_cases hstep : (s.tun n).readmitStep = 3
    · have hdiagnose : bistDone n found s = diagnose (stamp s) n found := by simp [bistDone, hbist, hself, hstep]
      rw [hdiagnose]
      exact diagnose_unrepairable hother
    · have hstay : bistDone n found s = stayFenced (stamp s) n := by simp [bistDone, hbist, hother, hself, hstep]
      rw [hstay]
      exact stayFenced_st ..

/-- A diagnosis that the spare lanes can repair is followed by the test of step 6 (Table 17.4). -/
theorem bistDone_repairable (hbad : newFailures (s.tun n) found ≠ []) (hother : found.other = false) (hself : (s.tun n).selfTest = false)
    (hstep : (s.tun n).readmitStep = 3) (hretired : tunRetired s n = false) (hchecksum : 34 ∉ newFailures (s.tun n) found)
    (hspares : ((newFailures (s.tun n) found).filterMap (laneServed (s.tun n))).length ≤
      (openSpares (s.tun n) (newFailures (s.tun n) found)).length) :
    ((bistDone n found s).tun n).st = .bist ∧ ((bistDone n found s).tun n).readmitStep = 6 := by
  have hdiagnose : bistDone n found s = diagnose (stamp s) n found := by simp [bistDone, hbist, hself, hstep]
  obtain ⟨u, hu⟩ := diagnose_repairable (s := stamp s) (n := n) (found := found) (by rwa [stamp_tun]) hother (by rwa [tunRetired_stamp])
    (by rwa [stamp_tun]) (by rwa [stamp_tun])
  obtain ⟨hst, hreadmit, -⟩ := resetAndTest_tun u n 6
  rw [hdiagnose, hu]
  exact ⟨hst, hreadmit⟩

end

end Sys2Proof.Machine
end

open Sys2Proof Sys2Proof.Machine in
/-- Settles O27: an accepted fence takes what the tun had not issued to the tuns that still work; a readmission resets it and tests it;
the end of a BIST follows the diagnosis of Table 17.4. -/
theorem tunMaintenanceCompletes : Obligations.TunMaintenanceCompletes := by
  unfold Obligations.TunMaintenanceCompletes
  intro n role s
  refine ⟨fun hinv hacc hfenced hretired hdown hreset => ?_, fun hacc hfenced hreset => ?_, fun found hbist => ⟨?_, ?_, ?_⟩⟩
  · obtain ⟨-, -, -, hrise, -⟩ := hinv
    have hwrite := busWrite_accepted (check := fenceCheck n) (effect := fun s => fenceTun s n 0x0B) hacc
      (fenceCheck_none (by rwa [stamp_tun]) (by rwa [stamp_tun]) (by rwa [stamp_tun]) (by rwa [inBlockReset_stamp]))
    have htun : (emit (fenceTun (stamp s) n 0x0B) (.response 0 stDone)).tun n = (s.tun n).fenced := by
      rw [emit_tun, fenceTun_tun (by rwa [stamp_tuns]), stamp_tun]
    refine ⟨emit (fenceTun (stamp s) n 0x0B) (.response 0 stDone), congrArg Host.Outcome.next hwrite, congrArg Tun.st htun,
      congrArg Tun.logical htun, congrArg Tun.queue htun, congrArg Tun.issued htun, fun hcount hissue o ho => ?_, rfl⟩
    rw [allOps_emit]
    exact mem_allOps_fenceTun (by rwa [stamp_tuns]) (by rwa [tunCount_stamp]) (by rwa [issueHalted_stamp])
      (by rwa [stamp_tun])
  · have hwrite := busWrite_accepted (check := readmitCheck n) (effect := fun s => resetAndTest s n 3) hacc
      (readmitCheck_none (by rwa [stamp_tun]) (by rwa [inBlockReset_stamp]))
    obtain ⟨hst, hstep, hself⟩ := resetAndTest_tun (stamp s) n 3
    refine ⟨emit (resetAndTest (stamp s) n 3) (.response 0 stDone), congrArg Host.Outcome.next hwrite, ?_⟩
    rw [emit_tun]
    exact ⟨hst, hstep, hself, rfl⟩
  · intro hclean hother hretired
    exact ⟨_, rfl, bistDone_clean hbist hclean hother hretired ▸ passTun_st ..⟩
  · intro hother hinv
    obtain ⟨-, -, -, hrise, -⟩ := hinv
    exact ⟨_, rfl, bistDone_unrepairable hbist hother hrise⟩
  · intro hbad hother hself hstep hretired hchecksum hspares
    exact ⟨_, rfl, bistDone_repairable hbist hbad hother hself hstep hretired hchecksum hspares⟩

section
/-! PROOFS. Tiles of a tun: their requests, their arrivals, and the codewords that a read of one meets (R96, R107, R164, R326). -/
namespace Sys2Proof.Machine

set_option Elab.async false

variable {s₀ s t : State} {n h : Nat} {o : Op} {b : TileBuf}

/-! ### The halves of a factor buffer -/

theorem Tun.setHalf_half_self (x : Tun) (h : Nat) (b : Option TileBuf) : (x.setHalf h b).half h = b := by
  by_cases hh : h = 0 <;> simp [Tun.setHalf, Tun.half, hh]

theorem Tun.setHalf_half_other (x : Tun) (h : Nat) (b : Option TileBuf) : (x.setHalf h b).half (1 - h) = x.half (1 - h) := by
  by_cases hh : h = 0
  · simp [Tun.setHalf, Tun.half, hh]
  · have hother : 1 - h = 0 := by omega
    simp [Tun.setHalf, Tun.half, hh, hother]

theorem Tun.setHalf_tagMismatches (x : Tun) (h : Nat) (b : Option TileBuf) : (x.setHalf h b).tagMismatches = x.tagMismatches := by
  unfold Tun.setHalf
  split <;> rfl

/-! ### Requests -/

@[simp] theorem takeSlot_tun (s : State) (m : Nat) (o : Op) (n : Nat) : (takeSlot s m o).tun n = s.tun n := rfl

/-- A tile that may be requested is taken up by the half that the tun chose, and the other half stays (R107). -/
theorem tileRequest_tun (hnext : nextTile s n = some (o, h)) (hslot : slotFor s n o = true) :
    (tileRequest n s).tun n = (s.tun n).setHalf h (some (tileOf o)) := by
  simp only [tileRequest, hnext, hslot, if_true]
  rw [modTun_tun_self, takeSlot_tun, stamp_tun]

/-! ### What the tags of a tile depend on -/

/-- What the tag of a tile and the limit of its retries depend on stands as it did. -/
structure TagsStand (s t : State) : Prop where
  tuns : t.tuns = s.tuns := by rfl
  gyles : t.gyles = s.gyles := by rfl
  cat : t.cat = s.cat := by rfl
  regs : t.regs = s.regs := by rfl
  casks : t.cellar.casks = s.cellar.casks := by rfl

protected theorem TagsStand.refl (s : State) : TagsStand s s := {}

protected theorem TagsStand.trans {u : State} (h : TagsStand s t) (k : TagsStand t u) : TagsStand s u :=
  ⟨k.tuns.trans h.tuns, k.gyles.trans h.gyles, k.cat.trans h.cat, k.regs.trans h.regs, k.casks.trans h.casks⟩

/-- An update of the units of faults, repair, reset and time. -/
protected theorem TagsStand.same {gauger log pages repair integrity glob} (h : TagsStand s₀ s) :
    TagsStand s₀ { s with gauger, log, pages, repair, integrity, glob } := h.trans {}

/-- Codewords that the code corrected. -/
protected theorem TagsStand.corrections {corrected scrubHits} (h : TagsStand s₀ s) :
    TagsStand s₀ { s with cellar := { s.cellar with corrected, scrubHits } } := h.trans {}

protected theorem TagsStand.foldl {α : Type} {g : State → α → State} {l : List α} (h : TagsStand s₀ s)
    (hg : ∀ {t}, TagsStand s₀ t → ∀ a, TagsStand s₀ (g t a)) : TagsStand s₀ (l.foldl g s) := by
  induction l generalizing s with
  | nil => exact h
  | cons a l ih => exact ih (hg h a)

protected theorem TagsStand.stamp (h : TagsStand s₀ s) : TagsStand s₀ (stamp s) := by
  rw [stamp_only]
  exact h.same

protected theorem TagsStand.logNow {page code tenant submitter fid payload} (h : TagsStand s₀ s) :
    TagsStand s₀ (logNow s page code tenant submitter fid payload) :=
  h.trans ⟨logNow_tuns .., logNow_gyles .., logNow_cat .., logNow_regs .., congrArg (·.casks) (logNow_cellar ..)⟩

protected theorem TagsStand.enterLevel {id o source first level} (h : TagsStand s₀ s) :
    TagsStand s₀ (enterLevel s id o source first level) :=
  h.trans ⟨enterLevel_tuns .., enterLevel_gyles .., enterLevel_cat .., enterLevel_regs .., congrArg (·.casks) (enterLevel_cellar ..)⟩

protected theorem TagsStand.startFault {o source level detail} (h : TagsStand s₀ s) : TagsStand s₀ (startFault s o source level detail) :=
  h.trans ⟨startFault_tuns .., startFault_gyles .., startFault_cat .., startFault_regs .., congrArg (·.casks) (startFault_cellar ..)⟩

protected theorem TagsStand.raise {page cls} (h : TagsStand s₀ s) : TagsStand s₀ (raise s page cls) := h.trans {}

protected theorem TagsStand.appendMap {kind object data} (h : TagsStand s₀ s) : TagsStand s₀ (appendMap s kind object data) := by
  fun_cases Machine.appendMap s kind object data
  · exact h.same.raise
  · exact h.same

protected theorem TagsStand.levelSeven {id source first} (h : TagsStand s₀ s) : TagsStand s₀ (levelSeven s id source first) := by
  unfold Machine.levelSeven
  extract_lets u
  fun_cases requestWarm u 6
  · exact h.enterLevel
  · exact h.enterLevel.same

protected theorem TagsStand.beginRemap {die region fault} (h : TagsStand s₀ s) : TagsStand s₀ (beginRemap s die region fault) := by
  fun_cases Machine.beginRemap s die region fault
  · exact h.same
  · exact h.same
  · exact h

protected theorem TagsStand.levelFive {die region source} (h : TagsStand s₀ s) : TagsStand s₀ (levelFive s die region source) := by
  fun_cases Machine.levelFive s die region source
  · exact h
  · exact h.startFault.levelSeven
  · exact h.startFault.beginRemap

protected theorem TagsStand.spareRow {die bank row} (h : TagsStand s₀ s) : TagsStand s₀ (spareRow s die bank row) := by
  fun_cases Machine.spareRow s die bank row
  · exact h.corrections.appendMap
  · exact h.corrections.logNow.levelFive

protected theorem TagsStand.correctWord {addr} (h : TagsStand s₀ s) : TagsStand s₀ (correctWord s addr) := by
  fun_cases Machine.correctWord s addr
  · exact h.corrections.spareRow
  · exact h.corrections

theorem TagsStand.tun (h : TagsStand s t) (n : Nat) : t.tun n = s.tun n := by
  rw [State.tun, h.tuns, State.tun]

theorem TagsStand.gyle (h : TagsStand s t) (k : GyleKey) : t.gyle k = s.gyle k := by
  rw [State.gyle, h.gyles, State.gyle]

theorem TagsStand.tileEpoch (h : TagsStand s t) (x : Tun) (b : TileBuf) : tileEpoch t x b = tileEpoch s x b := by
  simp only [Machine.tileEpoch, h.gyle, h.cat]

theorem TagsStand.partCask (h : TagsStand s t) (epoch : Nat) (p : TilePart) : partCask t epoch p = partCask s epoch p := by
  have hcask : t.cask = s.cask := funext fun i => by rw [State.cask, h.casks, State.cask]
  simp only [Machine.partCask, caskOf, caskList, hcask, h.casks]

theorem TagsStand.storedTag (h : TagsStand s t) (epoch : Nat) (tile : List TilePart) : storedTag t epoch tile = storedTag s epoch tile := by
  simp only [Machine.storedTag, h.partCask]

theorem TagsStand.expectedTag (h : TagsStand s t) (epoch : Nat) (tile : List TilePart) :
    expectedTag t epoch tile = expectedTag s epoch tile := by
  simp only [Machine.expectedTag, h.partCask]

theorem TagsStand.retryLimit (h : TagsStand s t) : retryLimit t = retryLimit s := by
  simp only [Machine.retryLimit, regFld, reg, h.regs]

/-! ### Tuns while a tile is checked and its data is lost -/

protected theorem TunsStand.setFaultLevel {id level} (h : TunsStand s₀ s) : TunsStand s₀ (setFaultLevel s id level) := h.same

protected theorem TunsStand.streamAgain {i idx} (h : TunsStand s₀ s) : TunsStand s₀ (streamAgain s i idx) := h.same

protected theorem TunsStand.refetchTensor {epoch p} (h : TunsStand s₀ s) : TunsStand s₀ (refetchTensor s epoch p) := by
  fun_cases Machine.refetchTensor s epoch p
  · exact h
  · exact h.modCask.tensorLost
  · exact h.modCask.same

protected theorem TunsStand.fetchAgain {i idx} (h : TunsStand s₀ s) : TunsStand s₀ (fetchAgain s i idx) := by
  fun_cases Machine.fetchAgain s i idx
  · exact h
  · exact h.modCask.modCask.tensorLost
  · exact h.modCask.streamAgain

theorem TagsStand.tunsStand (h : TagsStand s t) : TunsStand s t := (TunsStand.refl s).of_tuns h.tuns

protected theorem TunsStand.levelFive {die region source} (h : TunsStand s₀ s) : TunsStand s₀ (levelFive s die region source) :=
  h.trans (TagsStand.refl s).levelFive.tunsStand

/-- A codeword beyond correction that a tile's read meets takes a tensor from its cask; the tuns stand (R164). -/
protected theorem TunsStand.uncorrectableWord {addr epoch e u} (h : TunsStand s₀ s) :
    TunsStand s₀ (uncorrectableWord s addr (errorPlace u epoch b e)) := by
  have hlose : ∀ {v}, TunsStand s₀ v → TunsStand s₀ (losePlace v (errorPlace u epoch b e)) := by
    intro v hv
    fun_cases errorPlace u epoch b e
    · exact hv.fetchAgain
    · exact hv
    · exact hv
  fun_cases Machine.uncorrectableWord s addr (errorPlace u epoch b e)
  · exact (hlose h.same.logNow).levelFive
  · exact hlose h.same.logNow

/-! ### Arrivals -/

/-- A tile whose tag matches is ready (R96). -/
theorem tileMatches_half : ((tileMatches s n h b).tun n).half h = some { b with ready := true, retries := 0 } := by
  unfold tileMatches
  extract_lets x late waited epoch s1 s2 s3
  have h2 : (s2.tun n).half h = some { b with ready := true, retries := 0 } := by
    rw [setTun_tun_self, Tun.setHalf_half_self]
  have h3 : TunsStand s2 s3 := (TunsStand.refl s2).foldl fun k _ => by
    split
    · exact k.modCask
    · exact k
  clear_value s3
  split
  · exact ((h3.endFault.ite (h3.setFaultLevel.ite h3)).half n h).trans h2
  · exact (h3.half n h).trans h2

/-- A tile whose tag mismatches is read again up to `RETRY_LIMIT` times, and the mismatch is counted (R326). -/
theorem tileMismatch_tun :
    ((tileMismatch s n h b).tun n).half h =
        (if b.retries + 1 < retryLimit s then some { b with retries := b.retries + 1 } else none) ∧
      ((tileMismatch s n h b).tun n).tagMismatches = sat 16 ((s.tun n).tagMismatches + 1) := by
  unfold tileMismatch
  extract_lets epoch s1 s2 s3 ts
  have hlimit : retryLimit s2 = retryLimit s := (TagsStand.refl s1).startFault.retryLimit
  have hcount : (s2.tun n).tagMismatches = sat 16 ((s.tun n).tagMismatches + 1) := by
    rw [((TunsStand.refl s1).startFault).field (·.tagMismatches) (fun _ => rfl), modTun_tun_self]
  clear_value s2
  rw [hlimit]
  split
  · rw [modTun_tun_self, Tun.setHalf_half_self, Tun.setHalf_tagMismatches]
    exact ⟨rfl, hcount⟩
  · have hfetch : TunsStand s3 (ts.foldl (fun s p => refetchTensor s epoch p) s3) := (TunsStand.refl s3).foldl fun k _ => k.refetchTensor
    rw [hfetch.half, hfetch.field (·.tagMismatches) fun _ => rfl, modTun_tun_self, Tun.setHalf_half_self, Tun.setHalf_tagMismatches]
    exact ⟨rfl, hcount⟩

section

variable {read : TileRead} (hhalf : (s.tun n).half h = some b) (hready : b.ready = false)

include hhalf hready

/-- A read that the code corrects gives the tile to its check, and what the tags depend on stands (R96, R164). -/
theorem tileReadyEvent_corrected (hcorrected : read.errors.all (·.corrected) = true) :
    ∃ u, TagsStand s u ∧ tileReadyEvent n h read s = tileArrived u n h read.upset.toNat b := by
  have hbad : read.errors.filter (fun e => !e.corrected) = [] := by simpa using hcorrected
  unfold tileReadyEvent
  rw [hhalf]
  dsimp only
  rw [hready, if_neg Bool.false_ne_true, hbad]
  exact ⟨_, (TagsStand.refl s).stamp.foldl fun k _ => k.correctWord, rfl⟩

/-- A tile with a codeword beyond correction is not delivered (R164). -/
theorem tileReadyEvent_uncorrectable (hcorrected : read.errors.all (·.corrected) = false) :
    ((tileReadyEvent n h read s).tun n).half h = none := by
  have hbad : (read.errors.filter fun e => !e.corrected).isEmpty = false := by
    simpa [List.all_eq_false] using hcorrected
  unfold tileReadyEvent
  rw [hhalf]
  dsimp only
  rw [hready, if_neg Bool.false_ne_true, hbad, if_neg Bool.false_ne_true]
  rw [((TunsStand.refl _).foldl fun k _ => k.uncorrectableWord).half, modTun_tun_self, Tun.setHalf_half_self]

/-- A tile that arrives with the expected tag is ready (R326). -/
theorem tileReadyEvent_matches (hcorrected : read.errors.all (·.corrected) = true)
    (hright : storedTag s (tileEpoch s (s.tun n) b) b.tile ^^^ read.upset.toNat = expectedTag s (tileEpoch s (s.tun n) b) b.tile) :
    ((tileReadyEvent n h read s).tun n).half h = some { b with ready := true, retries := 0 } := by
  obtain ⟨u, hu, hevent⟩ := tileReadyEvent_corrected hhalf hready hcorrected
  rw [hevent, tileArrived, if_pos (by rwa [hu.tun, hu.tileEpoch, hu.storedTag, hu.expectedTag]), tileMatches_half]

/-- A tile that arrives with another tag is counted, and read again up to `RETRY_LIMIT` times (R326). -/
theorem tileReadyEvent_mismatches (hcorrected : read.errors.all (·.corrected) = true)
    (hwrong : ¬ storedTag s (tileEpoch s (s.tun n) b) b.tile ^^^ read.upset.toNat = expectedTag s (tileEpoch s (s.tun n) b) b.tile) :
    ((tileReadyEvent n h read s).tun n).half h =
        (if b.retries + 1 < retryLimit s then some { b with retries := b.retries + 1 } else none) ∧
      ((tileReadyEvent n h read s).tun n).tagMismatches = sat 16 ((s.tun n).tagMismatches + 1) := by
  obtain ⟨u, hu, hevent⟩ := tileReadyEvent_corrected hhalf hready hcorrected
  rw [hevent, tileArrived, if_neg (by rwa [hu.tun, hu.tileEpoch, hu.storedTag, hu.expectedTag]), ← hu.retryLimit, ← hu.tun]
  exact tileMismatch_tun

end

end Sys2Proof.Machine
end

section
/-! PROOFS. The issue of operations and the batch windows (R85, R86, R101, R103): an operation that issues leaves the queue and fills its
accumulator set; a lane group that is held stands in a held group until its members wait no more. -/
namespace Sys2Proof.Machine

set_option Elab.async false

variable {s t : State} {n : Nat} {o q : Op}

@[simp] theorem bumpFree_tun (s : State) (n : Nat) : (bumpFree s).tun n = s.tun n := rfl

/-! ### Accumulator sets -/

/-- The fill that an accumulator set stands for. -/
def AccSet.place (a : AccSet) : (GyleKey × Nat × Nat × Nat) × List Nat := ((a.gk, a.slot, a.segment, a.group), a.fill)

/-- A sum over a list keeps the place of a set that each of its steps keeps. -/
theorem AccSet.place_foldl {α : Type} {g : AccSet → α → AccSet} (hg : ∀ a x, (g a x).place = a.place) (l : List α) (a : AccSet) :
    (l.foldl g a).place = a.place :=
  List.foldlRecOn (motive := fun b => b.place = a.place) l g rfl fun b hb x _ => (hg b x).trans hb

theorem AccSet.place_add (ctr e : Nat) (a : AccSet) (lane j : Nat) (xs ys : List Num) (v : Option F32) :
    (a.add ctr e lane j xs ys v).place = a.place := rfl

theorem runComp_place (s : State) (g : Gyle) (p : PlanSlot) (o : Op) (a : AccSet) (x : Nat × List Nat) :
    (runComp s g p o a x).place = a.place := by
  unfold runComp
  split
  · rfl
  · exact AccSet.place_foldl (fun a n => AccSet.place_foldl (fun a l => AccSet.place_add ..) ..) ..

theorem gradLane_place (p : PlanSlot) (o : Op) (a : AccSet) (l : Nat × CompAt × RowSlot) : (gradLane p o a l).place = a.place := by
  unfold gradLane
  refine AccSet.place_foldl (fun a i => ?_) ..
  rfl

theorem runGrads_place (s : State) (g : Gyle) (p : PlanSlot) (o : Op) (a : AccSet) (x : Nat × List Nat) :
    (runGrads s g p o a x).place = a.place := by
  unfold runGrads
  extract_lets ls b
  exact (AccSet.place_foldl (fun a i => AccSet.place_add ..) ..).trans (AccSet.place_foldl (gradLane_place p o) ..)

theorem accSetOf_isSome_iff {x : Tun} : (accSetOf x o).isSome = true ↔ ∃ a ∈ x.sets, a.place = (groupOf o, o.fillKey) := by
  simp [accSetOf, AccSet.place, List.find?_isSome]

theorem accSetOf_of_openSet {x : Tun} {a : AccSet} (h : openSet x o = some a) : accSetOf x o = some a := by
  unfold openSet at h
  split at h
  · cases h
  · exact h

/-- The set of an operation, or a new one, is the operation's. -/
theorem openSet_getD_place (x : Tun) (o : Op) :
    ((openSet x o).getD { gk := o.gk, slot := o.slot, segment := o.segment, group := o.group, fill := o.fillKey }).place =
      (groupOf o, o.fillKey) := by
  cases hopen : openSet x o with
  | none => rfl
  | some a => simpa [accSetOf, AccSet.place] using List.find?_some (accSetOf_of_openSet hopen)

/-- An operation whose handshakes have run has its accumulator set (R92). -/
theorem runFill_accSetOf (s : State) (n : Nat) (o : Op) : (accSetOf ((runFill s n o).tun n) o).isSome = true := by
  unfold runFill
  extract_lets fresh old new
  have hold : (old.getD fresh).place = (groupOf o, o.fillKey) := openSet_getD_place ..
  have hnew : new.place = (groupOf o, o.fillKey) := by
    unfold new
    split
    · exact hold
    · split
      · exact hold
      · split
        · exact hold
        · refine (AccSet.place_foldl (fun a x => ?_) ..).trans hold
          split
          · exact runGrads_place ..
          · exact runComp_place ..
  have hopen : openSet (s.tun n) o = old := rfl
  rw [accSetOf_isSome_iff, bumpFree_tun, modTun_tun_self]
  clear_value new old
  cases old with
  | some a => exact ⟨new, List.mem_map.mpr ⟨a, List.mem_of_find?_eq_some (accSetOf_of_openSet hopen), if_pos rfl⟩, hnew⟩
  | none => exact ⟨new, List.mem_append_right _ (List.mem_singleton.mpr rfl), hnew⟩

/-! ### Feeders and issue -/

/-- A feeder's queue concerns no other part of its tun. -/
theorem feedTun_tun (s : State) (m n : Nat) : ∃ fs, (feedTun s m).tun n = { s.tun n with feeders := fs } := by
  refine List.foldlRecOn (motive := fun u => ∃ fs, State.tun u n = { s.tun n with feeders := fs }) _ _ ⟨_, rfl⟩ fun u hu l _ => ?_
  obtain ⟨fs, hu⟩ := hu
  unfold runFeeder
  extract_lets rs f used read chunks
  by_cases hn : n = m
  · subst hn
    rw [modTun_tun_self, hu]
    exact ⟨_, rfl⟩
  · rw [modTun_tun_ne _ _ hn]
    exact ⟨fs, hu⟩

/-- The tun of an operation that fills a set keeps the rest. -/
theorem runFill_tun (s : State) (n : Nat) (o : Op) : ∃ sets, (runFill s n o).tun n = { s.tun n with sets } := by
  unfold runFill
  extract_lets fresh old new
  rw [bumpFree_tun, modTun_tun_self]
  exact ⟨_, rfl⟩

/-- An operation that issues leaves the queue and fills its accumulator set (R92, R101). -/
theorem issueOp_tun (s : State) (n : Nat) (before after : List Op) (o : Op) :
    ((issueOp s n before after o).tun n).queue = before ++ after ∧
      ((issueOp s n before after o).tun n).issued = (s.tun n).issued ++ [o] ∧
      ((issueOp s n before after o).tun n).partialIssues = (s.tun n).partialIssues ∧
      (accSetOf ((issueOp s n before after o).tun n) o).isSome = true := by
  unfold issueOp
  generalize hv : (modTun s n fun x => { x with queue := before ++ after, issued := x.issued ++ [o] }) = v
  have hset := runFill_accSetOf v n o
  obtain ⟨sets, hsets⟩ := runFill_tun v n o
  obtain ⟨fs, hfs⟩ := feedTun_tun (runFill v n o) n n
  rw [hsets] at hset hfs
  rw [hfs, ← hv, modTun_tun_self]
  exact ⟨rfl, rfl, rfl, hset⟩

/-! ### Held groups -/

@[simp] theorem giveOps_heldGroups (s : State) (m : Nat) (head : Bool) (ops : List Op) :
    (giveOps s m head ops).heldGroups = s.heldGroups := moveRows_heldGroups ..

@[simp] theorem notePlaced_heldGroups (s : State) (k : GyleKey) : (notePlaced s k).heldGroups = s.heldGroups := modGyle_heldGroups ..

/-- The members of a held group that issues wait no more (R86). -/
theorem mem_allOps_releaseHold {h : HeldGroup} {m : Nat × Op} (hm : m ∈ h.members) :
    ∃ q ∈ allOps (releaseHold s h), groupOf q = groupOf m.2 ∧ q.waited = true := by
  unfold releaseHold
  extract_lets u v first ops
  obtain ⟨q, hq, hgroup, hwaited⟩ : ∃ q ∈ ops, groupOf q = groupOf m.2 ∧ q.waited = true := ⟨_, List.mem_map_of_mem hm, rfl, rfl⟩
  refine ⟨q, Queued.mem_allOps ?_, hgroup, hwaited⟩
  split
  · exact queued_giveOps hq
  · exact .inr (List.mem_append_right _ hq)

/-- A held group that issues holds no more (R86). -/
theorem releaseHold_heldGroups (s : State) (h : HeldGroup) :
    (releaseHold s h).heldGroups = s.heldGroups.filter fun x => x.id ≠ h.id := by
  unfold releaseHold
  extract_lets u v first ops
  have hv : v.heldGroups = s.heldGroups.filter fun x => x.id ≠ h.id := foldl_field (·.heldGroups) _ notePlaced_heldGroups ..
  split
  · rw [giveOps_heldGroups, hv]
  · exact hv

/-- A lane group that is held stands in a held group, or it issues with the group that it completes (R85). -/
theorem holdGroup_holds {g : Gyle} {r : Run} (hq : q ∈ queuedGroup (s.tun n) o) :
    (∃ h ∈ (holdGroup s n g r o).heldGroups, (n, q) ∈ h.members) ∨
      ∃ q' ∈ allOps (holdGroup s n g r o), groupOf q' = groupOf o ∧ q'.waited = true := by
  have hgroup : groupOf q = groupOf o := by simpa using (List.mem_filter.mp hq).2
  unfold holdGroup
  extract_lets ops rows u fresh begin_ later
  have hmember : (n, q) ∈ ops := List.mem_map_of_mem hq
  have hbegin : ∀ v : State, ∃ h ∈ (begin_ v).heldGroups, (n, q) ∈ h.members :=
    fun v => ⟨fresh, List.mem_append_right _ (List.mem_singleton.mpr rfl), hmember⟩
  split
  · exact .inl (hbegin u)
  next h hfound =>
    split
    · refine .inl ⟨_, List.mem_map_of_mem (List.mem_of_find?_eq_some hfound), ?_⟩
      rw [if_pos rfl]
      exact List.mem_append_right _ hmember
    · split
      · right
        rw [← hgroup]
        exact mem_allOps_releaseHold (h := { h with members := h.members ++ ops }) (List.mem_append_right _ hmember)
      · exact .inl (hbegin _)

/-! ### The events -/

section

variable (hactive : (s.tun n).st = .active) (hissue : issueHalted s = false) (hgate : tunGate s n ≠ 0)

include hactive hissue hgate

variable {l s' : State} {before after : List Op} (hl : settleRanks (feedTun (lateOps s n) n) n = l)

include hl

/-- The first operation that may issue leaves the queue and fills its accumulator set (R101). -/
theorem opIssue_issues (hfirst : firstIssue l n [] (l.tun n).queue = some (before, o, after, s')) (hholds : holds l (l.tun n) o = none) :
    ((opIssue n s).tun n).queue = before ++ after ∧ ((opIssue n s).tun n).issued = (s'.tun n).issued ++ [o] ∧
      (accSetOf ((opIssue n s).tun n) o).isSome = true := by
  have hissues : opIssue n s = issueOp (stamp s') n before after o := by simp [opIssue, hactive, hissue, hgate, hl, hfirst, hholds]
  obtain ⟨hqueue, hissued, -, hset⟩ := issueOp_tun (stamp s') n before after o
  rw [hissues, ← stamp_tun s']
  exact ⟨hqueue, hissued, hset⟩

/-- Where R85 holds it, its lane group stands in a held group or issues with the one that it completes. -/
theorem opIssue_holds (hfirst : firstIssue l n [] (l.tun n).queue = some (before, o, after, s'))
    (hholds : (holds l (l.tun n) o).isSome = true) (hq : q ∈ queuedGroup (l.tun n) o) :
    (∃ h ∈ (opIssue n s).heldGroups, (n, q) ∈ h.members) ∨
      ∃ q' ∈ allOps (opIssue n s), groupOf q' = groupOf o ∧ q'.waited = true := by
  obtain ⟨⟨g, r⟩, hgroup⟩ := Option.isSome_iff_exists.mp hholds
  have hhold : opIssue n s = holdGroup (stamp l) n g r o := by simp [opIssue, hactive, hissue, hgate, hl, hfirst, hgroup]
  rw [hhold]
  exact holdGroup_holds (by rwa [stamp_tun])

/-- Where no whole operation may issue, a partial one does while a row waits for lane room (R103). -/
theorem opIssue_partial {rest : Op} (hfirst : firstIssue l n [] (l.tun n).queue = none) (hrow : rowHeldBack l n = true)
    (hsplit : splitOp l (l.tun n) [] (l.tun n).queue = some (before, o, rest, after)) (hroom : takeRoom l n o = some s') :
    ((opIssue n s).tun n).queue = before ++ rest :: after ∧ ((opIssue n s).tun n).issued = (s'.tun n).issued ++ [o] ∧
      ((opIssue n s).tun n).partialIssues = sat 32 ((s'.tun n).partialIssues + 1) := by
  have hpart : opIssue n s =
      modTun (issueOp (stamp s') n before (rest :: after) o) n fun x => { x with partialIssues := sat 32 (x.partialIssues + 1) } := by
    simp [opIssue, hactive, hissue, hgate, hl, hfirst, partialIssue, hrow, hsplit, hroom]
  obtain ⟨hqueue, hissued, hpartial, -⟩ := issueOp_tun (stamp s') n before (rest :: after) o
  rw [stamp_tun] at hissued hpartial
  rw [hpart, ← hqueue, ← hissued, ← hpartial]
  generalize issueOp (stamp s') n before (rest :: after) o = u
  rw [modTun_tun_self]
  exact ⟨rfl, rfl, rfl⟩

end

/-- A batch window that ends lets its group issue (R86). -/
theorem batchExpiry_releases {h : HeldGroup} (hfound : s.heldGroups.find? (fun x => x.id = h.id) = some h) :
    batchExpiry h.id s = releaseHold (stamp s) h := by
  simp only [batchExpiry, hfound]

end Sys2Proof.Machine
end

section
/-! PROOFS. The choices of a late row-slot (R194, R195): its gyle's cut-off takes the second one, the end of its grace the first. -/
namespace Sys2Proof.Machine

set_option Elab.async false

variable {s₀ s t : State} {k : GyleKey} {g g' : Gyle} {slot row : Nat}

/-! ### Gyles that keep their cut-off and their choices -/

/-- The gyle's cut-off and what serves each of its row-slots stand. -/
structure Gyle.ChoiceStands (g g' : Gyle) : Prop where
  cutoff : g'.cutoffPassed = g.cutoffPassed := by rfl
  served : ∀ slot row, (g'.rowSlot slot row).served = (g.rowSlot slot row).served := by exact fun _ _ => rfl

theorem Gyle.ChoiceStands.modSlot {h : Gyle} {f : RowSlot → RowSlot} (hg : g.ChoiceStands h) (hf : ∀ x, (f x).served = x.served) :
    g.ChoiceStands (h.modSlot slot row f) where
  cutoff := hg.cutoff
  served i r := by
    rw [← hg.served i r]
    by_cases hkey : slotKey i r = slotKey slot row
    · rw [Gyle.rowSlot, Gyle.rowSlot, hkey]
      exact (congrArg RowSlot.served (tget_tmod_self ..)).trans (hf _)
    · exact congrArg RowSlot.served (tget_tmod_ne _ _ _ hkey)

theorem Gyle.ChoiceStands.foldl {α : Type} {f : Gyle → α → Gyle} {l : List α} {h : Gyle} (hg : g.ChoiceStands h)
    (hf : ∀ {h}, g.ChoiceStands h → ∀ a, g.ChoiceStands (f h a)) : g.ChoiceStands (l.foldl f h) :=
  List.foldlRecOn l f hg fun _ hh a _ => hf hh a

/-- Gyle `k` stays, and its choices stand. -/
def ChoicesStand (k : GyleKey) (s t : State) : Prop := ∀ g, s.gyle k = some g → ∃ g', t.gyle k = some g' ∧ g.ChoiceStands g'

protected theorem ChoicesStand.refl (s : State) : ChoicesStand k s s := fun g hg => ⟨g, hg, {}⟩

theorem ChoicesStand.of_gyles (h : ChoicesStand k s₀ s) (ht : t.gyles = s.gyles) : ChoicesStand k s₀ t := fun g hg => by
  rw [gyle_of_gyles ht]
  exact h g hg

protected theorem ChoicesStand.modGyle {j : GyleKey} {f : Gyle → Gyle} (h : ChoicesStand k s₀ s)
    (hf : ∀ {g h : Gyle}, g.ChoiceStands h → g.ChoiceStands (f h)) : ChoicesStand k s₀ (modGyle s j f) := by
  intro g hg
  obtain ⟨g', hg', hstands⟩ := h g hg
  by_cases hj : k = j
  · subst hj
    exact ⟨_, modGyle_gyle_self f hg', (hf hstands).cutoff, (hf hstands).served⟩
  · rw [modGyle_gyle_ne _ _ hj]
    exact ⟨g', hg', hstands⟩

protected theorem ChoicesStand.foldl {α : Type} {f : State → α → State} {l : List α} (h : ChoicesStand k s₀ s)
    (hf : ∀ {t}, ChoicesStand k s₀ t → ∀ a, ChoicesStand k s₀ (f t a)) : ChoicesStand k s₀ (l.foldl f s) :=
  List.foldlRecOn l f h fun _ ht a _ => hf ht a

protected theorem ChoicesStand.notePlaced {j} (h : ChoicesStand k s₀ s) : ChoicesStand k s₀ (notePlaced s j) :=
  h.modGyle fun hg => ⟨hg.cutoff, hg.served⟩

protected theorem ChoicesStand.modTun {m f} (h : ChoicesStand k s₀ s) : ChoicesStand k s₀ (modTun s m f) := h.of_gyles rfl

protected theorem ChoicesStand.giveOps {m head ops} (h : ChoicesStand k s₀ s) : ChoicesStand k s₀ (giveOps s m head ops) :=
  h.modTun.foldl fun hs _ => hs.modGyle fun hg => hg.foldl fun hh _ => hh.modSlot fun _ => by rfl

protected theorem ChoicesStand.enqueue {j slot m ops rows} (h : ChoicesStand k s₀ s) : ChoicesStand k s₀ (enqueue s j slot m ops rows) :=
  h.modTun.modGyle fun hg => hg.foldl fun hh _ => hh.modSlot fun _ => by rfl

protected theorem ChoicesStand.releaseHold {h : HeldGroup} (hs : ChoicesStand k s₀ s) : ChoicesStand k s₀ (releaseHold s h) := by
  unfold Machine.releaseHold
  extract_lets u v first ops
  have hu : ChoicesStand k s₀ u := hs.of_gyles rfl
  have hv : ChoicesStand k s₀ v := hu.foldl fun ht _ => ht.notePlaced
  split
  · exact hv.giveOps
  · exact hv.of_gyles rfl

theorem dropRow_gyles (s : State) (k : GyleKey) (slot row : Nat) : (dropRow s k slot row).gyles = s.gyles := by
  unfold dropRow
  extract_lets cut u
  have hu : u.gyles = s.gyles := foldl_field (·.gyles) _ (fun t e => by rfl) _ _
  exact hu

/-! ### Substitution -/

/-- What a substitution of the row-slot takes: the fallback where it is wanted and can be had, base-only otherwise (R195, R308). -/
def substitution (s : State) (g : Gyle) (row : Nat) (wantFallback : Bool) : Served :=
  if wantFallback = true ∧ tunCount s ≠ 0 ∧ issueHalted s = false ∧ (fallbackComp s g (tget {} g.rows row)).isSome then .fallback
  else .baseOnly

theorem countLate_cutoffPassed (g : Gyle) (slot row : Nat) (sv : Served) : (countLate g slot row sv).cutoffPassed = g.cutoffPassed := by
  unfold countLate
  split <;> rfl

theorem modSlot_rowSlot_self (g : Gyle) (slot row : Nat) (f : RowSlot → RowSlot) : (g.modSlot slot row f).rowSlot slot row =
    f (g.rowSlot slot row) := tget_tmod_self ..

/-- A row-slot that is substituted is served as R195 says; its gyle keeps its cut-off. -/
theorem substitute_served {want : Bool} (hg : s.gyle k = some g) (hslot : slot < g.plan.slots.length) :
    ∃ g', (substitute s k slot row want).gyle k = some g' ∧ g'.cutoffPassed = g.cutoffPassed ∧
      (g'.rowSlot slot row).served = substitution s g row want := by
  unfold substitute
  split
  next hnone => simp [hg] at hnone
  next g₀ hg₀ =>
    obtain rfl : g = g₀ := Option.some.inj (hg.symm.trans hg₀)
    split
    next hnone => exact absurd (List.getElem?_eq_none_iff.mp hnone) (by omega)
    next p hp =>
      extract_lets r fb sv u v
      have hsv : sv = substitution s g row want := by
        simp only [sv, fb, r, substitution]
        split <;> simp_all
      have hdrop : u.gyle k = some g := (gyle_of_gyles (dropRow_gyles ..) k).trans hg
      have hchosen : (((countLate g slot row sv).modSlot slot row fun x => x.substituted sv).rowSlot slot row).served = sv := by
        rw [modSlot_rowSlot_self]
        rfl
      obtain ⟨g', hg', hcutoff, hserved⟩ :
          ∃ g', v.gyle k = some g' ∧ g'.cutoffPassed = g.cutoffPassed ∧ (g'.rowSlot slot row).served = sv :=
        ⟨_, modGyle_gyle_self _ hdrop, countLate_cutoffPassed .., hchosen⟩
      rw [← hsv]
      have hrest : ∀ t, ChoicesStand k v t →
          ∃ g', t.gyle k = some g' ∧ g'.cutoffPassed = g.cutoffPassed ∧ (g'.rowSlot slot row).served = sv := by
        intro t ht
        obtain ⟨h, hh, hstands⟩ := ht g' hg'
        exact ⟨h, hh, hstands.cutoff.trans hcutoff, (hstands.served ..).trans hserved⟩
      clear_value v u sv fb
      cases fb with
      | none => exact hrest v (.refl v)
      | some c =>
        dsimp only
        split
        · exact hrest _ ((ChoicesStand.refl v).modGyle fun hh => hh.modSlot fun _ => by rfl)
        · split
          · exact hrest _ (ChoicesStand.refl v).enqueue.notePlaced
          · exact hrest v (.refl v)

/-! ### What a choice depends on -/

theorem stillWaits_stamp (s : State) (g : Gyle) (slot row : Nat) : stillWaits (stamp s) g slot row = stillWaits s g slot row := by
  rw [stamp_only]
  rfl

theorem substitution_stamp (s : State) (g : Gyle) (row : Nat) (want : Bool) :
    substitution (stamp s) g row want = substitution s g row want := by
  rw [stamp_only]
  rfl

/-- The gyle as its cut-off leaves it (R194). -/
def Gyle.pastCutoff (g : Gyle) : Gyle := { g with cutoffPassed := true }

theorem modGyle_only (s : State) (k : GyleKey) (f : Gyle → Gyle) : modGyle s k f = { s with gyles := (modGyle s k f).gyles } := by
  unfold modGyle
  split <;> rfl

theorem pastCutoff_gyle (hg : s.gyle k = some g) (j : GyleKey) :
    (modGyle s k Gyle.pastCutoff).gyle j = s.gyle j ∨
      ∃ h, s.gyle j = some h ∧ (modGyle s k Gyle.pastCutoff).gyle j = some h.pastCutoff := by
  by_cases hj : j = k
  · subst hj
    exact .inr ⟨g, hg, modGyle_gyle_of_key hg rfl⟩
  · exact .inl (modGyle_gyle_ne _ _ hj)

/-- A cut-off brings no tensor. -/
theorem tensorsHere_pastCutoff (hg : s.gyle k = some g) (o : Op) : tensorsHere (modGyle s k Gyle.pastCutoff) o = tensorsHere s o := by
  have hgyle := pastCutoff_gyle hg o.gk
  rw [modGyle_only] at hgyle ⊢
  generalize (modGyle s k Gyle.pastCutoff).gyles = ys at hgyle ⊢
  unfold tensorsHere tileHere
  rcases hgyle with h | ⟨h, hs, ht⟩
  · rw [h]
    rfl
  · rw [hs, ht]
    rfl

theorem stillWaits_pastCutoff (hg : s.gyle k = some g) (slot row : Nat) :
    stillWaits (modGyle s k Gyle.pastCutoff) g.pastCutoff slot row = stillWaits s g slot row := by
  have hops : opsOfRow (modGyle s k Gyle.pastCutoff) g.key slot row = opsOfRow s g.key slot row := by
    rw [modGyle_only]
    rfl
  simp only [stillWaits, tensorsHere_pastCutoff hg]
  rw [show g.pastCutoff.key = g.key from rfl, hops]
  rfl

theorem substitution_pastCutoff (s : State) (k : GyleKey) (g : Gyle) (row : Nat) (want : Bool) :
    substitution (modGyle s k Gyle.pastCutoff) g.pastCutoff row want = substitution s g row want := by
  rw [modGyle_only]
  rfl

/-! ### Cut-offs -/

/-- Gyle `k` is past its cut-off (R194). -/
def PastCutoff (k : GyleKey) (s : State) : Prop := ∃ g, s.gyle k = some g ∧ g.cutoffPassed = true

theorem PastCutoff.stand (h : PastCutoff k s) (hs : ChoicesStand k s t) : PastCutoff k t := by
  obtain ⟨g, hg, hpast⟩ := h
  obtain ⟨g', hg', hstands⟩ := hs g hg
  exact ⟨g', hg', hstands.cutoff.trans hpast⟩

theorem PastCutoff.substitute {want} (h : PastCutoff k s) : PastCutoff k (substitute s k slot row want) := by
  obtain ⟨g, hg, hpast⟩ := h
  by_cases hslot : slot < g.plan.slots.length
  · obtain ⟨g', hg', hcutoff, -⟩ := substitute_served (row := row) (want := want) hg hslot
    exact ⟨g', hg', hcutoff.trans hpast⟩
  · have hkeep : Machine.substitute s k slot row want = s := by
      simp [Machine.substitute, hg, List.getElem?_eq_none_iff.mpr (Nat.le_of_not_lt hslot)]
    rw [hkeep]
    exact ⟨g, hg, hpast⟩

theorem PastCutoff.secondChoice (h : PastCutoff k s) : PastCutoff k (secondChoice s k slot row) := by
  obtain ⟨g, hg, hpast⟩ := h
  unfold Machine.secondChoice
  rw [hg]
  dsimp only
  split
  · exact ⟨_, modGyle_gyle_self _ hg, (countLate_cutoffPassed ..).trans hpast⟩
  · exact PastCutoff.substitute ⟨g, hg, hpast⟩

theorem PastCutoff.cutRow {key} (h : PastCutoff k s) : PastCutoff k (cutRow k s key) := by
  fun_cases Machine.cutRow k s key
  · exact h
  · exact h.secondChoice
  · exact h

/-- A gyle whose cut-off passes is past it (R194). -/
theorem passCutoff_cutoffPassed (hg : s.gyle k = some g) : PastCutoff k (passCutoff s g) := by
  obtain rfl := gyle_key hg
  have hpast : PastCutoff g.key (modGyle s g.key Gyle.pastCutoff) := ⟨_, modGyle_gyle_self _ hg, rfl⟩
  have hholds : PastCutoff g.key (releaseGyleHolds (modGyle s g.key Gyle.pastCutoff) g.key) :=
    hpast.stand ((ChoicesStand.refl _).foldl fun ht _ => ht.releaseHold)
  exact List.foldlRecOn (motive := PastCutoff g.key) _ _ hholds fun _ ht _ _ => ht.cutRow

theorem slotKey_div (slot : Nat) (hrow : row < 2 ^ 20) : slotKey slot row / 2 ^ 20 = slot := by
  unfold slotKey
  omega

theorem slotKey_mod (slot : Nat) (hrow : row < 2 ^ 20) : slotKey slot row % 2 ^ 20 = row := by
  unfold slotKey
  omega

theorem cutRow_late (hg : s.gyle k = some g) (hrow : row < 2 ^ 20) (hlate : (g.rowSlot slot row).late = true)
    (hwaits : stillWaits s g slot row = true) : cutRow k s (slotKey slot row) = secondChoice s k slot row := by
  unfold cutRow
  rw [hg]
  dsimp only
  rw [slotKey_div slot hrow, slotKey_mod slot hrow, hlate, hwaits]
  rfl

theorem secondChoice_substitutes (hg : s.gyle k = some g) (hsecond : g.lateSecond ≠ 0) :
    secondChoice s k slot row = substitute s k slot row (g.lateSecond = 1) := by
  simp [secondChoice, hg, hsecond]

/-- At its cut-off the late row-slot of a gyle that has no other takes its second choice (R194, R195). -/
theorem passCutoff_served {x : RowSlot} (hg : s.gyle k = some g) (hslots : g.slots = [(slotKey slot row, x)]) (hrow : row < 2 ^ 20)
    (hheld : s.heldGroups = []) (hlate : x.late = true) (hwaits : stillWaits s g slot row = true) (hslot : slot < g.plan.slots.length)
    (hsecond : g.lateSecond ≠ 0) :
    ∃ g', (passCutoff s g).gyle k = some g' ∧ (g'.rowSlot slot row).served = substitution s g row (g.lateSecond = 1) := by
  obtain rfl := gyle_key hg
  have hgyle : (modGyle s g.key Gyle.pastCutoff).gyle g.key = some g.pastCutoff := modGyle_gyle_of_key hg rfl
  have hlate' : (g.pastCutoff.rowSlot slot row).late = true := by
    simpa [Gyle.rowSlot, Gyle.pastCutoff, hslots, tget] using hlate
  have hreleased : releaseGyleHolds (modGyle s g.key Gyle.pastCutoff) g.key = modGyle s g.key Gyle.pastCutoff := by
    rw [releaseGyleHolds, modGyle_heldGroups, hheld]
    rfl
  have hcut : passCutoff s g = substitute (modGyle s g.key Gyle.pastCutoff) g.key slot row (g.lateSecond = 1) :=
    calc passCutoff s g = cutRow g.key (releaseGyleHolds (modGyle s g.key Gyle.pastCutoff) g.key) (slotKey slot row) := by
          rw [passCutoff, hslots]
          rfl
      _ = secondChoice (modGyle s g.key Gyle.pastCutoff) g.key slot row := by
          rw [hreleased]
          exact cutRow_late hgyle hrow hlate' ((stillWaits_pastCutoff hg ..).trans hwaits)
      _ = _ := secondChoice_substitutes hgyle hsecond
  obtain ⟨g', hg', -, hserved⟩ := substitute_served (row := row) (want := g.lateSecond = 1) hgyle hslot
  rw [substitution_pastCutoff] at hserved
  exact ⟨g', hcut ▸ hg', hserved⟩

/-! ### The events -/

theorem stamp_gyle (s : State) (k : GyleKey) : (stamp s).gyle k = s.gyle k := gyle_of_gyles (stamp_gyles s) k

/-- A gyle whose cut-off passes is past it, and its late row-slot takes its second choice (R194, R195). -/
theorem cutoffExpiry_passes {c num : Nat} (hg : s.gyle (ownGyle c num) = some g) (hpassed : g.cutoffPassed = false) (hcut : g.cutoffUs ≠ 0)
    (hkind : g.kind = .serving) (hdrained : g.st ≠ .drained) (hcomplete : g.st ≠ .complete) :
    ∃ g', (cutoffExpiry c num s).gyle (ownGyle c num) = some g' ∧ g'.cutoffPassed = true ∧
      ∀ slot row x, g.slots = [(slotKey slot row, x)] → row < 2 ^ 20 → s.heldGroups = [] → x.late = true →
        stillWaits s g slot row = true → slot < g.plan.slots.length → g.lateSecond ≠ 0 →
        (g'.rowSlot slot row).served = substitution s g row (g.lateSecond = 1) := by
  have hpasses : cutoffExpiry c num s = passCutoff (stamp s) g := by
    simp [cutoffExpiry, hg, hpassed, hcut, hkind, hdrained, hcomplete]
  have hstamped : (stamp s).gyle (ownGyle c num) = some g := (stamp_gyle ..).trans hg
  obtain ⟨g', hgyle, hpast⟩ := passCutoff_cutoffPassed hstamped
  refine ⟨g', hpasses ▸ hgyle, hpast, fun slot row x hslots hrow hheld hlate hwaits hslot hsecond => ?_⟩
  obtain ⟨h, hh, hserved⟩ := passCutoff_served hstamped hslots hrow ((stamp_heldGroups s).trans hheld) hlate
    ((stillWaits_stamp ..).trans hwaits) hslot hsecond
  obtain rfl : g' = h := Option.some.inj (hgyle.symm.trans hh)
  rw [hserved, substitution_stamp]

/-- After its grace a late row-slot takes its first choice (R194, R195). -/
theorem graceExpiry_served {c num : Nat} (hg : s.gyle (ownGyle c num) = some g) (hpassed : g.cutoffPassed = false) (hcut : g.cutoffUs ≠ 0)
    (hlate : (g.rowSlot slot row).late = true) (hfirst : g.lateFirst ≠ 0) (hwaits : stillWaits s g slot row = true)
    (hslot : slot < g.plan.slots.length) :
    ∃ g', (graceExpiry c num slot row s).gyle (ownGyle c num) = some g' ∧
      (g'.rowSlot slot row).served = substitution s g row (g.lateFirst = 1) := by
  have hgrace : graceExpiry c num slot row s = substitute (stamp s) (ownGyle c num) slot row (g.lateFirst = 1) := by
    simp [graceExpiry, hg, hpassed, hcut, hlate, hfirst, hwaits, gyle_key hg]
  obtain ⟨g', hg', -, hserved⟩ := substitute_served (row := row) (want := g.lateFirst = 1) ((stamp_gyle ..).trans hg) hslot
  rw [substitution_stamp] at hserved
  exact ⟨g', hgrace ▸ hg', hserved⟩

end Sys2Proof.Machine
end

section
/-! PROOFS. The swap of a fill (R92, R106, R328): what passes its comparison counts its handshakes, what fails counts a mismatch, and its
lane group is replayed, or the tun is fenced at `FENCE_THRESHOLD` mismatches. -/
namespace Sys2Proof.Machine

set_option Elab.async false

variable {s₀ s t : State} {n : Nat} {o q : Op} {fill : List Op}

/-! ### Tuns while the results of a fill leave -/

protected theorem TunsStand.spillDrain {o} (h : TunsStand s₀ s) : TunsStand s₀ (spillDrain s o) := by
  fun_cases Machine.spillDrain s o
  · exact h
  · exact h
  · exact h.foldl fun k _ => k.startXfer

protected theorem TunsStand.combinePartials {x segment slot} (h : TunsStand s₀ s) : TunsStand s₀ (combinePartials s x segment slot) := by
  fun_cases Machine.combinePartials s x segment slot
  · exact h
  · exact h
  · exact h.same.bumpFree

protected theorem TunsStand.endCancelled {x} (h : TunsStand s₀ s) : TunsStand s₀ (endCancelled s x) := by
  fun_cases Machine.endCancelled s x
  · exact h.tearGyle
  · exact h
  · exact h

protected theorem TunsStand.answerFar {x} (h : TunsStand s₀ s) : TunsStand s₀ (answerFar s x) := by
  fun_cases Machine.answerFar s x
  · exact h
  · exact (h.modGyle.foldl fun k _ => k.reply).endCancelled

protected theorem TunsStand.endRow {o row} (h : TunsStand s₀ s) : TunsStand s₀ (endRow s o row) := by
  fun_cases Machine.endRow s o row
  · exact h
  · exact h.modGyle.markLate
  · exact h.modGyle

protected theorem TunsStand.passOp {m a o} (h : TunsStand s₀ s) : TunsStand s₀ (passOp m a s o) := by
  unfold Machine.passOp
  split
  · exact h
  · extract_lets drained graded ended combined
    have hdrained : TunsStand s₀ drained := h.drainOp.spillDrain
    have hgraded : TunsStand s₀ graded := (hdrained.foldl fun k _ => k.drainGrads).bumpFree.ite hdrained
    have hcombined : TunsStand s₀ combined := (hgraded.foldl fun k _ => k.endRow).combinePartials
    exact hcombined.answerFar.ite hcombined

/-! ### The counters of a swap -/

theorem TunsStand.checksumMismatches (h : TunsStand s t) (n : Nat) : (t.tun n).checksumMismatches = (s.tun n).checksumMismatches :=
  h.field (·.checksumMismatches) (fun _ => rfl) n

theorem TunsStand.handshakesRun (h : TunsStand s t) (n : Nat) : (t.tun n).handshakesRun = (s.tun n).handshakesRun :=
  h.field (·.handshakesRun) (fun _ => rfl) n

/-- The swap of a fill counts its handshakes (R92). -/
theorem endFill_counters (s : State) (n : Nat) (fill : List Op) :
    ((endFill s n fill).tun n).handshakesRun = sat 64 ((s.tun n).handshakesRun + fillWork fill) ∧
      ((endFill s n fill).tun n).checksumMismatches = (s.tun n).checksumMismatches := by
  unfold endFill
  extract_lets more next a u
  have hend : TunsStand u (more.foldl (fun s o => runFill s n (next o)) u) := (TunsStand.refl u).foldl fun k _ => k.runFill
  have hpass : TunsStand s (passFeeders s n fill) := (TunsStand.refl s).passFeeders
  rw [hend.handshakesRun, hend.checksumMismatches, modTun_tun_self]
  dsimp only
  rw [hpass.handshakesRun, hpass.checksumMismatches]
  exact ⟨rfl, rfl⟩

/-- A fill whose comparison passed counts its handshakes and no mismatch (R106). -/
theorem passFill_counters (s : State) (n : Nat) (a : AccSet) (fill : List Op) :
    ((passFill s n a fill).tun n).handshakesRun = sat 64 ((s.tun n).handshakesRun + fillWork fill) ∧
      ((passFill s n a fill).tun n).checksumMismatches = (s.tun n).checksumMismatches := by
  have hafter : TunsStand (endFill s n fill) (passFill s n a fill) :=
    (((TunsStand.refl _).writeRanks.foldl fun k _ => k.passOp).foldl fun k _ => k.replayDone).sendFarRows.purgeTick
  rw [hafter.handshakesRun, hafter.checksumMismatches]
  exact endFill_counters ..

/-! ### Failures -/

/-- A tun that changes in its work alone. -/
protected theorem TunsStand.setTun {m x} (h : TunsStand s₀ s) (hx : x.standing = (s.tun m).standing) : TunsStand s₀ (setTun s m x) :=
  h.trans ⟨fun k => by
    by_cases hk : k = m
    · rw [hk, setTun_tun_self, hx]
    · rw [setTun_tun_ne _ _ hk]⟩

protected theorem TunsStand.replayGroup {m o} (h : TunsStand s₀ s) : TunsStand s₀ (replayGroup s m o) := by
  unfold Machine.replayGroup
  extract_lets faulted id x mine dropped
  have hdropped : TunsStand s₀ dropped := h.startFault.setTun rfl
  exact hdropped.freeRanks.same.noteReplay.giveOps

/-- What of a lane group had not passed goes to the head of another tun's queue, as a replay (R328). -/
theorem mem_queue_replayGroup (hq : q ∈ (s.tun n).issued ++ (s.tun n).queue) (hgroup : groupOf q = groupOf o) (hlive : q.discard = false) :
    ∃ m id, { q with replayOf := id } ∈ ((replayGroup s n o).tun m).queue := by
  unfold replayGroup
  extract_lets faulted id x mine dropped freed train cleared
  have hx : x = s.tun n := by rw [show x = faulted.tun n from rfl, State.tun, startFault_tuns, State.tun]
  have hmine : q ∈ mine := List.mem_filter.mpr ⟨hx ▸ hq, by simp [hgroup, hlive]⟩
  refine ⟨otherTun cleared n, id, ?_⟩
  rw [giveOps_tun_self]
  exact List.mem_append_left _ (List.mem_map_of_mem hmine)

section

variable (hrise : keysRise s.tuns = true)

include hrise

/-- A fill whose comparison failed counts a mismatch, whatever follows (R328). -/
theorem failFill_checksumMismatches (n : Nat) (fill : List Op) :
    ((failFill s n fill).tun n).checksumMismatches = sat 32 ((s.tun n).checksumMismatches + 1) := by
  unfold failFill
  extract_lets ran u
  have hu : (u.tun n).checksumMismatches = sat 32 ((s.tun n).checksumMismatches + 1) := by rw [modTun_tun_self]
  have hrise' : keysRise u.tuns = true := keysRise_setTun hrise
  clear_value u
  split
  · rw [fenceTun_tun hrise', ← hu]
    rfl
  · split
    · rw [(TunsStand.refl u).replayGroup.checksumMismatches, hu]
    · rw [(TunsStand.refl (endFill u n fill)).startFault.replayDone.checksumMismatches, (endFill_counters ..).2, hu]

theorem failFill_fences (hthreshold : regFld s pgIntegrity 0x098 8 8 ≤ (s.tun n).faultCount + 1) : ((failFill s n fill).tun n).st = .fenced := by
  unfold failFill
  extract_lets ran u
  have hcount : (u.tun n).faultCount = (s.tun n).faultCount + 1 := by rw [modTun_tun_self]
  have hrise' : keysRise u.tuns = true := keysRise_setTun hrise
  have hlimit : regFld u pgIntegrity 0x098 8 8 = regFld s pgIntegrity 0x098 8 8 := rfl
  clear_value u
  rw [if_pos (by rwa [hlimit, hcount]), fenceTun_tun hrise']
  rfl

end

/-- Below `FENCE_THRESHOLD` mismatches the lane group of a fill that failed is replayed (R328). -/
theorem mem_queue_failFill (hbelow : (s.tun n).faultCount + 1 < regFld s pgIntegrity 0x098 8 8) (hfind : fill.find? (fun o => !o.discard) = some o)
    (hq : q ∈ (s.tun n).issued ++ (s.tun n).queue) (hgroup : groupOf q = groupOf o) (hlive : q.discard = false) :
    ∃ m id, { q with replayOf := id } ∈ ((failFill s n fill).tun m).queue := by
  unfold failFill
  extract_lets ran u
  have hcount : (u.tun n).faultCount = (s.tun n).faultCount + 1 := by rw [modTun_tun_self]
  have hwork : (u.tun n).issued ++ (u.tun n).queue = (s.tun n).issued ++ (s.tun n).queue := by rw [modTun_tun_self]
  have hlimit : regFld u pgIntegrity 0x098 8 8 = regFld s pgIntegrity 0x098 8 8 := rfl
  clear_value u
  rw [if_neg (by rw [hlimit, hcount]; omega), hfind]
  exact mem_queue_replayGroup (hwork ▸ hq) hgroup hlive

/-! ### The self-test that follows -/

theorem testWhenIdle_fenced (h : (s.tun n).st = .fenced) : testWhenIdle s n = s := by
  simp [testWhenIdle, h]

/-- A tun that enters its self-test slot keeps its queue and its counters, and so do the others (R332). -/
theorem testWhenIdle_tun (s : State) (n m : Nat) : ((testWhenIdle s n).tun m).queue = (s.tun m).queue ∧
    ((testWhenIdle s n).tun m).handshakesRun = (s.tun m).handshakesRun ∧
    ((testWhenIdle s n).tun m).checksumMismatches = (s.tun m).checksumMismatches := by
  unfold testWhenIdle
  extract_lets x
  split
  · by_cases hm : m = n
    · subst hm
      rw [setTunState_tun_self, modTun_tun_self]
      exact ⟨rfl, rfl, rfl⟩
    · rw [setTunState_tun_ne _ _ _ hm, modTun_tun_ne _ _ hm]
      exact ⟨rfl, rfl, rfl⟩
  · exact ⟨rfl, rfl, rfl⟩

/-! ### The event -/

theorem regFld_stamp (s : State) (page off lo len : Nat) : regFld (stamp s) page off lo len = regFld s page off lo len := by
  simp [regFld, reg]

section

variable {us : List Upset} (hfill : fillOf (s.tun n) ≠ []) (htherm : s.pace.thermHalted = false) (hgate : tunGate s n ≠ 0)

include hfill htherm hgate

theorem fillSwap_passes (hpass : (fillChecks s (s.tun n) us).any checkFails = false) :
    fillSwap n us s =
      testWhenIdle (passFill (stamp s) n ((fillSetOf (s.tun n) (fillOf (s.tun n))).upset us) (fillOf (s.tun n))) n := by
  simp [fillSwap, hfill, htherm, hgate, hpass]

theorem fillSwap_fails (hfail : (fillChecks s (s.tun n) us).any checkFails = true) :
    fillSwap n us s = testWhenIdle (failFill (stamp s) n (fillOf (s.tun n))) n := by
  simp [fillSwap, hfill, htherm, hgate, hfail]

/-- A fill that passes its comparison counts its handshakes (R106). -/
theorem fillSwap_passed (hpass : (fillChecks s (s.tun n) us).any checkFails = false) :
    ((fillSwap n us s).tun n).handshakesRun = sat 64 ((s.tun n).handshakesRun + fillWork (fillOf (s.tun n))) ∧
      ((fillSwap n us s).tun n).checksumMismatches = (s.tun n).checksumMismatches := by
  rw [fillSwap_passes hfill htherm hgate hpass]
  obtain ⟨-, hrun, hmismatches⟩ := testWhenIdle_tun
    (passFill (stamp s) n ((fillSetOf (s.tun n) (fillOf (s.tun n))).upset us) (fillOf (s.tun n))) n n
  obtain ⟨hrun', hmismatches'⟩ := passFill_counters (stamp s) n ((fillSetOf (s.tun n) (fillOf (s.tun n))).upset us) (fillOf (s.tun n))
  rw [stamp_tun] at hrun' hmismatches'
  exact ⟨hrun.trans hrun', hmismatches.trans hmismatches'⟩

variable (hfail : (fillChecks s (s.tun n) us).any checkFails = true)

include hfail

theorem fillSwap_mismatches (hrise : keysRise s.tuns = true) :
    ((fillSwap n us s).tun n).checksumMismatches = sat 32 ((s.tun n).checksumMismatches + 1) := by
  rw [fillSwap_fails hfill htherm hgate hfail]
  obtain ⟨-, -, hmismatches⟩ := testWhenIdle_tun (failFill (stamp s) n (fillOf (s.tun n))) n n
  have hcount := failFill_checksumMismatches (s := stamp s) (by rwa [stamp_tuns]) n (fillOf (s.tun n))
  rw [stamp_tun] at hcount
  exact hmismatches.trans hcount

/-- At `FENCE_THRESHOLD` mismatches the tun is fenced (R328). -/
theorem fillSwap_fences (hrise : keysRise s.tuns = true) (hthreshold : regFld s pgIntegrity 0x098 8 8 ≤ (s.tun n).faultCount + 1) :
    ((fillSwap n us s).tun n).st = .fenced := by
  have hfenced : ((failFill (stamp s) n (fillOf (s.tun n))).tun n).st = .fenced :=
    failFill_fences (by rwa [stamp_tuns]) (by rwa [regFld_stamp, stamp_tun])
  rw [fillSwap_fails hfill htherm hgate hfail, testWhenIdle_fenced hfenced, hfenced]

/-- Below it, the lane group is replayed (R328). -/
theorem fillSwap_replays (hbelow : (s.tun n).faultCount + 1 < regFld s pgIntegrity 0x098 8 8)
    (hfind : (fillOf (s.tun n)).find? (fun o => !o.discard) = some o) (hq : q ∈ (s.tun n).issued ++ (s.tun n).queue)
    (hgroup : groupOf q = groupOf o) (hlive : q.discard = false) :
    ∃ m id, { q with replayOf := id } ∈ ((fillSwap n us s).tun m).queue := by
  obtain ⟨m, id, hmem⟩ := mem_queue_failFill (s := stamp s) (by rwa [regFld_stamp, stamp_tun]) hfind (by rwa [stamp_tun]) hgroup hlive
  refine ⟨m, id, ?_⟩
  rw [fillSwap_fails hfill htherm hgate hfail, (testWhenIdle_tun ..).1]
  exact hmem

end

end Sys2Proof.Machine
end

open Sys2Proof Sys2Proof.Machine in
/-- Settles O48: one part per event, each by what the event leaves of its tun, its held group or its gyle. -/
theorem tunEventsComplete : Obligations.TunEventsComplete := by
  unfold Obligations.TunEventsComplete
  intro s
  refine ⟨?request, ?issue, ?swap, ?arrival, ?window, ?choices⟩
  case request =>
    intro n o h hnext hslot
    refine ⟨tileRequest n s, rfl, ?_, ?_⟩
    · rw [tileRequest_tun hnext hslot, Tun.setHalf_half_self]
    · rw [tileRequest_tun hnext hslot, Tun.setHalf_half_other]
  case issue =>
    intro n hactive hissue hgate l
    refine ⟨fun before o after s' hfirst => ⟨fun hholds => ?_, fun hholds => ?_⟩, fun before o rest after s' hfirst hrow hsplit hroom => ?_⟩
    · exact ⟨opIssue n s, rfl, opIssue_issues hactive hissue hgate rfl hfirst hholds⟩
    · exact ⟨opIssue n s, rfl, fun q => opIssue_holds hactive hissue hgate rfl hfirst hholds⟩
    · exact ⟨opIssue n s, rfl, opIssue_partial hactive hissue hgate rfl hfirst hrow hsplit hroom⟩
  case swap =>
    intro n us hfill htherm hgate
    refine ⟨fun hpass => ⟨fillSwap n us s, rfl, fillSwap_passed hfill htherm hgate hpass⟩, fun hfail hinv => ?_⟩
    obtain ⟨-, -, -, hrise, -⟩ := hinv
    exact ⟨fillSwap n us s, rfl, fillSwap_mismatches hfill htherm hgate hfail hrise, fillSwap_fences hfill htherm hgate hfail hrise,
      fun o hbelow hfind q => fillSwap_replays hfill htherm hgate hfail hbelow hfind⟩
  case arrival =>
    intro n h read b hhalf hready epoch right mismatched
    refine ⟨fun hcorrected hright => ?_, fun hcorrected hwrong hlimit => ?_, fun hcorrected hwrong hlimit => ?_, fun hcorrected => ?_⟩
    · exact ⟨tileReadyEvent n h read s, rfl, tileReadyEvent_matches hhalf hready hcorrected hright⟩
    · obtain ⟨hagain, hcount⟩ := tileReadyEvent_mismatches hhalf hready hcorrected hwrong
      exact ⟨tileReadyEvent n h read s, rfl, hagain.trans (if_pos hlimit), hcount⟩
    · obtain ⟨hagain, hcount⟩ := tileReadyEvent_mismatches hhalf hready hcorrected hwrong
      exact ⟨tileReadyEvent n h read s, rfl, hagain.trans (if_neg (Nat.not_lt.mpr hlimit)), hcount⟩
    · exact ⟨tileReadyEvent n h read s, rfl, tileReadyEvent_uncorrectable hhalf hready hcorrected⟩
  case window =>
    intro h hfound
    have hreleases := batchExpiry_releases hfound
    refine ⟨batchExpiry h.id s, rfl, fun x hx => ?_, fun m hm => hreleases ▸ mem_allOps_releaseHold hm⟩
    rw [hreleases, releaseHold_heldGroups] at hx
    simpa using (List.mem_filter.mp hx).2
  case choices =>
    intro c num g hg hpassed hcut
    refine ⟨fun hkind hdrained hcomplete => ?_, fun slot row hlate hfirst hwaits hslot => ?_⟩
    · obtain ⟨g', hgyle, hpast, hserved⟩ := cutoffExpiry_passes hg hpassed hcut hkind hdrained hcomplete
      refine ⟨cutoffExpiry c num.toNat s, g', rfl, hgyle, hpast, fun slot row x hslots hrow hheld hlate hwaits hslot hsecond => ?_⟩
      simpa [substitution] using hserved slot row x hslots hrow hheld hlate hwaits hslot hsecond
    · obtain ⟨g', hgyle, hserved⟩ := graceExpiry_served hg hpassed hcut hlate hfirst hwaits hslot
      exact ⟨graceExpiry c num.toNat slot row s, g', rfl, hgyle, by simpa [substitution] using hserved⟩

section
/-! PROOFS. `PLAN_LOAD` and `PLAN_SWAP` (`Obligations.PlanCommands`): each is decided by its first failing check; a refusal touches the ring
and its context alone, and an acceptance changes the plans before its record is posted. -/
namespace Sys2Proof.Machine

variable {s₀ s u : State} {c : Nat} {fr : Front} {d : Desc} {img : List Byte}

/-! ### Refusals and acceptances -/

/-- An update of the gauger, the log book, the pages, the contexts and the memory ports. -/
protected theorem OnlyContexts.same {gauger log pages ctxs boundary} (h : OnlyContexts s₀ s) :
    OnlyContexts s₀ { s with gauger, log, pages, ctxs, boundary } := by
  rw [OnlyContexts] at h ⊢
  rw [h]

protected theorem OnlyContexts.stamp (h : OnlyContexts s₀ s) : OnlyContexts s₀ (stamp s) := by
  rw [stamp_only]
  exact h.same

protected theorem OnlyContexts.issueReq {r} (h : OnlyContexts s₀ s) : OnlyContexts s₀ (issueReq s r) := by
  fun_cases issueReq s r <;> exact h.same

protected theorem OnlyContexts.startXfer {use write addr bytes data} (h : OnlyContexts s₀ s) :
    OnlyContexts s₀ (startXfer s use write addr bytes data) :=
  List.foldlRecOn _ _ h.same fun _ ht _ _ => ht.issueReq

protected theorem OnlyContexts.setCtxState {st} (h : OnlyContexts s₀ s) : OnlyContexts s₀ (setCtxState s c st) := by
  fun_cases setCtxState s c st
  · exact h
  · exact h.same.stamp.same

protected theorem OnlyContexts.afterCmd (h : OnlyContexts s₀ s) : OnlyContexts s₀ (afterCmd s c) := by
  have hsettle : OnlyContexts s₀ (settle s c) := by
    fun_cases settle s c
    · exact h.setCtxState
    · exact h
  rw [afterCmd]
  fun_cases pump (settle s c) c with
  | case1 _ x addr s1 s2 =>
    have h1 : OnlyContexts s₀ s1 := hsettle.same
    have h2 : OnlyContexts s₀ s2 := by
      unfold s2
      split
      · exact h1.setCtxState
      · exact h1
    exact h2.startXfer
  | case2 => exact hsettle

protected theorem OnlyContexts.postRecord {opcode status cflags sqIndex gyle result done} (h : OnlyContexts s₀ s) :
    OnlyContexts s₀ (postRecord s c opcode status cflags sqIndex gyle result done) := by
  fun_cases postRecord s c opcode status cflags sqIndex gyle result done with
  | case1 => exact h.same
  | case2 x _ k addr s1 =>
    have h1 : OnlyContexts s₀ s1 := h.same
    exact h1.startXfer

protected theorem OnlyContexts.refuseCmd {opcode gyle b} (h : OnlyContexts s₀ s) : OnlyContexts s₀ (refuseCmd s c fr opcode gyle b) :=
  h.stamp.postRecord.same.afterCmd

theorem refuseCmd_refuses (fr : Front) (d : Desc) (b : Bad) (hcause : (s.ctx c).faultCause ≠ 0x03) :
    OnlyContexts s (refuseCmd s c fr d.opcode d.gyle b) ∧ Posts s (refuseCmd s c fr d.opcode d.gyle b) c fr d b.status b.result :=
  ⟨OnlyContexts.refuseCmd rfl, refuseCmd_posts _ _ _ _ _ hcause⟩

/-- A command that is accepted at the event after `s` posts its record there, whatever else it has changed by then. -/
theorem doneCmd_posts_stamped {r : List Byte} (hctxs : u.ctxs = s.ctxs) (hboundary : u.boundary = s.boundary)
    (hgauger : u.gauger = (stamp s).gauger) (hcause : (s.ctx c).faultCause ≠ 0x03) : Posts s (doneCmd u c fr d r) c fr d stDone r := by
  have hctx : u.ctx c = s.ctx c := ctx_of_ctxs hctxs c
  have hposts := doneCmd_posts u c fr d r (by rwa [hctx])
  rwa [hctx, hboundary, hgauger] at hposts

/-! ### `PLAN_LOAD` -/

/-- The state in which a plan has been staged at the event after `s`. -/
def stagePlan (s : State) (p : Plan) : State := { stamp s with planStaged := some p }

section
variable (h : Taken s c 0x04 fr d img) (himg : firstImageCheck 0 (planChecks (s.planInForce.map (·.id)) img) = none)
include h himg

theorem planLoad_accepted (hstate : stateStatus s c d.opcode = none) (howner : planOwner s c = true) :
    planLoad c s = doneCmd (stagePlan s (planFields img)) c fr d (leBytes 8 (planFields img).id.toNat) := by
  rw [planLoad, onFront_of_taken h]
  simp [himg, hstate, howner, firstBad, need, decideCmd, stagePlan]

theorem planLoad_notOwner (howner : planOwner s c = false) :
    planLoad c s = refuseCmd s c fr d.opcode d.gyle { status := stNoPermission } := by
  rw [planLoad, onFront_of_taken h]
  simp [himg, howner, firstBad, need, decideCmd]

end

/-! ### `PLAN_SWAP` -/

/-- The swap puts the staged plan in force and leaves the contexts, the ports of chip memory and the gauger as they are. -/
theorem swapPlan_staged {p : Plan} (hstaged : s.planStaged = some p) : (swapPlan s).planInForce = some p ∧ (swapPlan s).planStaged = none ∧
    (swapPlan s).ctxs = s.ctxs ∧ (swapPlan s).boundary = s.boundary ∧ (swapPlan s).gauger = s.gauger := by
  have hfold {β : Type} (f : State → β) (hf : ∀ t i (g : Cask → Cask), f (modCask t i g) = f t) :
      f (swapPlan s) = f { s with planInForce := some p, planStaged := none } := by
    unfold swapPlan
    simp only [hstaged]
    refine foldl_field f _ (fun t e => ?_) _ _
    split
    · rfl
    · exact hf ..
  exact ⟨hfold (·.planInForce) modCask_planInForce, hfold (·.planStaged) modCask_planStaged, hfold (·.ctxs) modCask_ctxs,
    hfold (·.boundary) modCask_boundary, hfold (·.gauger) modCask_gauger⟩

/-- A context whose state refuses the opcode refuses it `BAD_STATE` too. -/
theorem stateStatus_badState (s : State) (c opcode : Nat) : stateStatus s c opcode = none ∨ stateStatus s c opcode = some { status := stBadState } := by
  unfold stateStatus
  split
  · exact .inr rfl
  · split
    · exact .inr rfl
    · split
      · exact .inr rfl
      · exact .inl rfl

section
variable (h : Taken s c 0x05 fr d img)
include h

theorem planSwap_accepted {p : Plan} (hstate : stateStatus s c d.opcode = none) (howner : planOwner s c = true)
    (hstaged : s.planStaged = some p) (hid : p.id = d.planId) (huse : planInUse s = false) :
    planSwap c s = doneCmd (swapPlan (stamp s)) c fr d (leBytes 8 d.planId.toNat) := by
  rw [planSwap, onFront_of_taken h]
  simp [hstate, howner, hstaged, hid, huse, firstBad, need, needState, decideCmd]

theorem planSwap_notOwner (howner : planOwner s c = false) :
    planSwap c s = refuseCmd s c fr d.opcode d.gyle { status := stNoPermission } := by
  rw [planSwap, onFront_of_taken h]
  simp [howner, firstBad, need, decideCmd]

theorem planSwap_badState (howner : planOwner s c = true) (hbad : s.planStaged = none ∨ planInUse s = true) :
    planSwap c s = refuseCmd s c fr d.opcode d.gyle { status := stBadState } := by
  rw [planSwap, onFront_of_taken h]
  rcases stateStatus_badState s c d.opcode with hstate | hstate
  · rcases hbad with hnone | huse
    · simp [howner, hstate, hnone, firstBad, need, needState, decideCmd]
    · by_cases hid : s.planStaged.map (·.id) = some d.planId <;> simp [howner, hstate, hid, huse, firstBad, need, needState, decideCmd]
  · simp [howner, hstate, firstBad, need, decideCmd]

end

end Sys2Proof.Machine
end

open Sys2Proof Sys2Proof.Machine in
/-- Settles O4: an accepted command changes the plans at its event and posts its record there; a refused one leaves them, by the first of
its checks that fails. -/
theorem planCommands : Obligations.PlanCommands := by
  unfold Obligations.PlanCommands
  intro c s fr d img hcause
  refine ⟨fun h hstate howner himg => ?load, fun p h hstate howner hstaged hid huse => ?swap, fun h howner himg => ?loadNotOwner,
    fun h howner => ?swapNotOwner, fun h howner hbad => ?swapBadState⟩
  case load =>
    refine ⟨_, congrArg Host.Outcome.next (planLoad_accepted h himg hstate howner), by simp [stagePlan], by simp [stagePlan], ?_⟩
    exact doneCmd_posts_stamped (stamp_ctxs s) (stamp_boundary s) rfl hcause
  case swap =>
    obtain ⟨hforce, hnone, hctxs, hboundary, hgauger⟩ := swapPlan_staged (s := stamp s) ((stamp_planStaged s).trans hstaged)
    refine ⟨_, congrArg Host.Outcome.next (planSwap_accepted h hstate howner hstaged hid huse), ?_, ?_, ?_⟩
    · rw [doneCmd_planInForce, hforce]
    · rw [doneCmd_planStaged, hnone]
    · exact doneCmd_posts_stamped (hctxs.trans (stamp_ctxs s)) (hboundary.trans (stamp_boundary s)) hgauger hcause
  case loadNotOwner => exact ⟨_, congrArg Host.Outcome.next (planLoad_notOwner h himg howner), refuseCmd_refuses fr d _ hcause⟩
  case swapNotOwner => exact ⟨_, congrArg Host.Outcome.next (planSwap_notOwner h howner), refuseCmd_refuses fr d _ hcause⟩
  case swapBadState => exact ⟨_, congrArg Host.Outcome.next (planSwap_badState h howner hbad), refuseCmd_refuses fr d _ hcause⟩

section
/-! PROOFS. What stands while the work of a context ends (`Obligations.SplicePortsComplete`): what a splice port has counted, and a context
that is being reset stays so. -/
namespace Sys2Proof.Machine

-- Each proof waits for the one before it: all at once would each hold a thread.
set_option Elab.async false

variable {s₀ s t : State} {c : Nat}

theorem port_of_ports (h : t.ports = s.ports) (n : Nat) : t.port n = s.port n := by simp only [State.port, h]

theorem stamp_port (s : State) (n : Nat) : (stamp s).port n = s.port n := port_of_ports (stamp_ports s) n

/-- What a splice port counts inbound: its beats, and those that Table 6.6 refused. -/
def Port.counts (q : Port) : Nat × Nat := (q.beatsIn, q.tagErrors)

/-- Between `s` and `t` no splice port counts a beat, and no context leaves its reset. -/
structure EndsTraffic (s t : State) : Prop where
  counts : ∀ p, (t.port p).counts = (s.port p).counts := by exact fun _ => rfl
  resetting : ∀ c, (s.ctx c).st = .resetting → (t.ctx c).st = .resetting := by exact fun _ h => h

protected theorem EndsTraffic.refl (s : State) : EndsTraffic s s := {}

protected theorem EndsTraffic.trans {u : State} (h : EndsTraffic s t) (k : EndsTraffic t u) : EndsTraffic s u where
  counts p := (k.counts p).trans (h.counts p)
  resetting c hc := k.resetting c (h.resetting c hc)

theorem EndsTraffic.of_eq (h : EndsTraffic s₀ s) (hports : t.ports = s.ports) (hctxs : t.ctxs = s.ctxs) : EndsTraffic s₀ t :=
  h.trans
    { counts := fun p => congrArg Port.counts (port_of_ports hports p)
      resetting := fun c hc => by rwa [ctx_of_ctxs hctxs] }

/-- An update of other parts of the state. -/
protected theorem EndsTraffic.same {gauger log pages catStaged staging cat catRetiring dir dirOld handles gyles tuns heldGroups orphans
      spillUsed cellar tiers train homes kiln integrity boundary outs freeCtr} (h : EndsTraffic s₀ s) :
    EndsTraffic s₀ { s with
      gauger, log, pages, catStaged, staging, cat, catRetiring, dir, dirOld, handles, gyles, tuns, heldGroups, orphans, spillUsed, cellar,
      tiers, train, homes, kiln, integrity, boundary, outs, freeCtr } :=
  h.of_eq rfl rfl

protected theorem EndsTraffic.foldl {α : Type} {g : State → α → State} {l : List α} (h : EndsTraffic s₀ s)
    (hg : ∀ {t}, EndsTraffic s₀ t → ∀ a, EndsTraffic s₀ (g t a)) : EndsTraffic s₀ (l.foldl g s) :=
  List.foldlRecOn l g h fun _ ht a _ => hg ht a

protected theorem EndsTraffic.ite {p : Prop} [Decidable p] (hs : EndsTraffic s₀ s) (ht : EndsTraffic s₀ t) :
    EndsTraffic s₀ (if p then s else t) := by
  split
  · exact hs
  · exact ht

/-- The work of the tiers and casks ends none of this. -/
theorem EndsTraffic.work (h : EndsTraffic s₀ s) (k : CellarWork s t) : EndsTraffic s₀ t := by
  induction k with
  | refl => exact h
  | other _ ih => exact ih.same
  | @t4Gone t _ epoch a v gone ih => fun_cases modVerOf t epoch a v fun y => { y with t4Gone := gone y } <;> exact ih.same

protected theorem EndsTraffic.stamp (h : EndsTraffic s₀ s) : EndsTraffic s₀ (stamp s) := h.work CellarWork.refl.stamp

protected theorem EndsTraffic.sendMsg {m} (h : EndsTraffic s₀ s) : EndsTraffic s₀ (sendMsg s m) := h.work CellarWork.refl.sendMsg

protected theorem EndsTraffic.logNow {page code tenant submitter fid payload} (h : EndsTraffic s₀ s) :
    EndsTraffic s₀ (logNow s page code tenant submitter fid payload) := h.of_eq (logNow_ports ..) (logNow_ctxs ..)

protected theorem EndsTraffic.enterLevel {id o source first level} (h : EndsTraffic s₀ s) :
    EndsTraffic s₀ (enterLevel s id o source first level) := h.of_eq (enterLevel_ports ..) (enterLevel_ctxs ..)

protected theorem EndsTraffic.startXfer {use write addr bytes data} (h : EndsTraffic s₀ s) :
    EndsTraffic s₀ (startXfer s use write addr bytes data) := h.of_eq (startXfer_ports ..) (startXfer_ctxs ..)

/-- A port that is changed counts what it did. -/
protected theorem EndsTraffic.modPort {p f} (h : EndsTraffic s₀ s) (hf : ∀ q : Port, (f q).counts = q.counts := by exact fun _ => rfl) :
    EndsTraffic s₀ (modPort s p f) :=
  h.trans
    { counts := fun n => by
        by_cases hn : n = p
        · rw [hn, modPort_port_self]
          exact hf _
        · rw [modPort_port_ne _ _ hn] }

protected theorem EndsTraffic.modGyle {k f} (h : EndsTraffic s₀ s) : EndsTraffic s₀ (modGyle s k f) :=
  h.of_eq (modGyle_ports ..) (modGyle_ctxs ..)

/-! ### Contexts -/

/-- A change of a context that leaves it in its reset, where it is. -/
protected theorem EndsTraffic.setCtx {x} (h : EndsTraffic s₀ s) (hx : (s.ctx c).st = .resetting → x.st = .resetting) :
    EndsTraffic s₀ (setCtx s c x) :=
  h.trans
    { resetting := fun d hd => by
        by_cases hdc : d = c
        · subst hdc
          simpa using hx hd
        · rwa [setCtx_ctx_ne _ _ hdc] }

protected theorem EndsTraffic.modCtx {f} (h : EndsTraffic s₀ s) (hf : ∀ x : Ctx, (f x).st = x.st := by exact fun _ => rfl) :
    EndsTraffic s₀ (modCtx s c f) :=
  h.setCtx fun hc => (hf _).trans hc

protected theorem EndsTraffic.setCtxState {st} (h : EndsTraffic s₀ s) (hc : (s.ctx c).st ≠ .resetting) :
    EndsTraffic s₀ (setCtxState s c st) := by
  fun_cases setCtxState s c st
  · exact h
  · exact (h.setCtx fun hr => absurd hr hc).stamp.same

protected theorem EndsTraffic.settle (h : EndsTraffic s₀ s) : EndsTraffic s₀ (settle s c) := by
  unfold settle
  split
  · rename_i hrun
    exact h.setCtxState fun hr => by simp [hr] at hrun
  · exact h

/-- A descriptor is taken only where the context is not in its reset. -/
protected theorem EndsTraffic.pump (h : EndsTraffic s₀ s) : EndsTraffic s₀ (pump s c) := by
  unfold pump
  split
  · rename_i htake
    have hst : (s.ctx c).st ≠ .resetting := fun hr => by simp [mayTake, hr] at htake
    extract_lets x addr s1 s2
    have h1 : EndsTraffic s₀ s1 := h.setCtx fun hr => absurd hr hst
    have hst1 : (s1.ctx c).st ≠ .resetting := by simpa [s1] using hst
    exact ((h1.setCtxState hst1).ite h1).startXfer
  · exact h

protected theorem EndsTraffic.postRecord {opcode status cflags sqIndex gyle result done} (h : EndsTraffic s₀ s) :
    EndsTraffic s₀ (postRecord s c opcode status cflags sqIndex gyle result done) := by
  fun_cases postRecord s c opcode status cflags sqIndex gyle result done with
  | case1 => exact h.setCtx fun hr => hr
  | case2 x _ k addr s1 =>
    have h1 : EndsTraffic s₀ s1 := h.setCtx fun hr => hr
    exact h1.startXfer

protected theorem EndsTraffic.completeLater {cmd status cflags result} (h : EndsTraffic s₀ s) :
    EndsTraffic s₀ (completeLater s c cmd status cflags result) :=
  h.modCtx.postRecord.settle.pump

/-! ### Gyles -/

protected theorem EndsTraffic.pruneVersions (h : EndsTraffic s₀ s) : EndsTraffic s₀ (pruneVersions s) := by
  unfold pruneVersions
  extract_lets _ _ s1 _
  have h1 : EndsTraffic s₀ s1 := h.same
  exact h1.same

protected theorem EndsTraffic.freeHandles (h : EndsTraffic s₀ s) : EndsTraffic s₀ (freeHandles s) := h.same

protected theorem EndsTraffic.settleDirectory (h : EndsTraffic s₀ s) : EndsTraffic s₀ (settleDirectory s) := h.same

protected theorem EndsTraffic.endOldPrefetches {epoch} (h : EndsTraffic s₀ s) : EndsTraffic s₀ (endOldPrefetches s epoch) :=
  h.foldl fun k _ => k.foldl fun k2 _ => k2.stamp.completeLater.ite k2

protected theorem EndsTraffic.releaseBy {f} (h : EndsTraffic s₀ s) (hf : ∀ {t}, EndsTraffic s₀ t → EndsTraffic s₀ (f t)) :
    EndsTraffic s₀ (releaseBy s f) :=
  (hf h).work CellarWork.refl.releaseFrom

protected theorem EndsTraffic.dropEpoch {epoch} (h : EndsTraffic s₀ s) : EndsTraffic s₀ (dropEpoch s epoch) :=
  h.releaseBy fun k => (k.same.work CellarWork.refl.keepStreams).endOldPrefetches

protected theorem EndsTraffic.releaseEpoch (h : EndsTraffic s₀ s) : EndsTraffic s₀ (releaseEpoch s) := by
  fun_cases releaseEpoch s
  · exact h
  · exact h
  · exact (h.ite (h.same.foldl fun k _ => k.sendMsg)).dropEpoch
  · exact h.ite (h.same.foldl fun k _ => k.sendMsg)

protected theorem EndsTraffic.releaseHolds {g} (h : EndsTraffic s₀ s) : EndsTraffic s₀ (releaseHolds s g) :=
  (h.foldl fun k _ => k.sendMsg).same

protected theorem EndsTraffic.releaseGyle {k} (h : EndsTraffic s₀ s) : EndsTraffic s₀ (releaseGyle s k) := by
  fun_cases releaseGyle s k with
  | case1 => exact h
  | case2 g _ s1 s2 s3 s4 =>
    have h3 : EndsTraffic s₀ s3 := h.releaseHolds.same
    have h4 : EndsTraffic s₀ s4 := h3.work CellarWork.refl.unbindGyle
    exact h4.pruneVersions.freeHandles.settleDirectory.releaseEpoch

protected theorem EndsTraffic.freeResv {k slot row} (h : EndsTraffic s₀ s) : EndsTraffic s₀ (freeResv s k slot row) := by
  fun_cases freeResv s k slot row
  · exact h
  · exact h
  · exact (h.same.ite h.modPort).modGyle

protected theorem EndsTraffic.clearWork {k} (h : EndsTraffic s₀ s) : EndsTraffic s₀ (clearWork s k) := by
  have hresv : EndsTraffic s₀ (freeAllResv s k) := by
    fun_cases freeAllResv s k
    · exact h
    · exact h.foldl fun k _ => k.freeResv
  exact ((hresv.foldl fun k _ => k.modPort).foldl fun k _ => k.same).same

protected theorem EndsTraffic.forgetCredit {k} (h : EndsTraffic s₀ s) : EndsTraffic s₀ (forgetCredit s k) := h.foldl fun k _ => k.modPort

protected theorem EndsTraffic.tearGyle {g} (h : EndsTraffic s₀ s) : EndsTraffic s₀ (tearGyle s g) :=
  (h.foldl fun k _ => k.sendMsg).clearWork.releaseGyle.forgetCredit

/-! ### Teardown and reset -/

protected theorem EndsTraffic.dropRack {r tell} (h : EndsTraffic s₀ s) : EndsTraffic s₀ (dropRack s r tell) := by
  fun_cases dropRack s r tell
  · exact h.same.sendMsg
  · exact h.same

protected theorem EndsTraffic.dropCmd {m} (h : EndsTraffic s₀ s) : EndsTraffic s₀ (dropCmd c s m) := by
  fun_cases dropCmd c s m
  case case1 => exact h.same.releaseGyle
  case case2 => exact h.same.modGyle
  case case7 => exact h.dropRack
  all_goals exact h.same

protected theorem EndsTraffic.measureFreeze {r} (h : EndsTraffic s₀ s) : EndsTraffic s₀ (measureFreeze s r) := by
  fun_cases measureFreeze s r
  · exact h.same
  · exact h

protected theorem EndsTraffic.teardown (h : EndsTraffic s₀ s) : EndsTraffic s₀ (teardown s c) := by
  unfold teardown
  extract_lets _ s1 _ _ _ s2 _ _ _ _ _
  have h1 : EndsTraffic s₀ s1 := by
    unfold s1
    split
    · exact h.modCtx.measureFreeze.ite h.modCtx
    · exact h.modCtx
  have h2 : EndsTraffic s₀ s2 := h1.foldl fun k _ => k.same.ite k
  exact (((h2.foldl fun k _ => k.tearGyle).foldl fun k _ => k.dropCmd).same.modCtx.foldl fun k _ => k.stamp.postRecord).modCtx

protected theorem EndsTraffic.cancelStreams (h : EndsTraffic s₀ s) : EndsTraffic s₀ (cancelStreams s c) := by
  have hend (u : State) (st : Stream) : CellarWork u (endStream u st) := by
    fun_cases endStream u st
    · exact CellarWork.refl.keepStreams.freeCask
    · exact CellarWork.refl.keepStreams
  unfold cancelStreams
  exact (h.foldl fun k _ => k.work (hend ..)).same

/-- The reset of a context, from the event on at which the context enters it. -/
protected theorem EndsTraffic.resetCtx (h : EndsTraffic s₀ (setCtxNow s c .resetting)) : EndsTraffic s₀ (resetCtx s c) := by
  unfold resetCtx
  extract_lets s1 held s2 cellar s3
  have h2 : EndsTraffic s₀ s2 := h.teardown.foldl fun k _ => k.releaseGyle.forgetCredit
  have h3 : EndsTraffic s₀ s3 := h2.same
  exact h3.freeHandles.cancelStreams.work CellarWork.refl.releaseFrom

theorem setCtxNow_ctx (s : State) (c : Nat) (st : CtxState) : (setCtxNow s c st).ctx c = { s.ctx c with st } :=
  (ctx_of_ctxs (raise_ctxs ..) c).trans (modCtx_ctx_self ..)

theorem resetCtx_resets (s : State) (c : Nat) : ((resetCtx s c).ctx c).st = .resetting :=
  (EndsTraffic.refl (setCtxNow s c .resetting)).resetCtx.resetting c (by rw [setCtxNow_ctx])

theorem resetCtx_counts (s : State) (c p : Nat) : ((resetCtx s c).port p).counts = (s.port p).counts :=
  (EndsTraffic.refl (setCtxNow s c .resetting)).resetCtx.counts p

/-! ### Faults of a context and level 4 -/

/-- A fault of a context counts no beat on a splice port. -/
theorem faultCtx_counts (s : State) (c cause source : Nat) (esc : Option Seq) (p : Nat) :
    ((faultCtx s c cause source esc).port p).counts = (s.port p).counts := by
  have hopen : EndsTraffic s (openCtxFault s c source esc) := by
    fun_cases openCtxFault s c source esc
    · exact .refl s
    · exact (EndsTraffic.refl s).same
    · exact (EndsTraffic.refl s).of_eq (newFaultNow_ports ..) (newFaultNow_ctxs ..)
  fun_cases faultCtx s c cause source esc with
  | case1 | case2 | case3 => exact (EndsTraffic.refl s).logNow.counts p
  | case4 s1 fid s2 s3 =>
    have h3 : EndsTraffic s s3 := hopen.modCtx.logNow
    exact ((EndsTraffic.refl _).teardown.counts p).trans (h3.counts p)

/-- Level 4 brings a context that is not `DOWN` into its reset, and counts no beat on a splice port (Table 16.5). -/
theorem levelFour_resets {id : Seq} {source first : Nat} (hdown : (s.ctx c).st ≠ .down) :
    ((levelFour s c id source first).ctx c).st = .resetting ∧
      ∀ p, ((levelFour s c id source first).port p).counts = (s.port p).counts := by
  fun_cases levelFour s c id source first with
  | case1 h => exact absurd h hdown
  | case2 h => exact ⟨(EndsTraffic.refl s).logNow.resetting c h, (EndsTraffic.refl s).logNow.counts⟩
  | case3 s1 _ _ _ =>
    have h1 : EndsTraffic s s1 := (EndsTraffic.refl s).enterLevel.stamp
    exact ⟨resetCtx_resets .., fun p => (resetCtx_counts ..).trans (h1.counts p)⟩
  | case4 s1 _ s2 s3 _ _ =>
    have h3 : EndsTraffic s s3 := (EndsTraffic.refl s).enterLevel.stamp.modCtx.logNow
    have hfaulted (p : Nat) : ((stamp (raise (setCtxNow s3 c .faulted) (pgCtx c) 2)).port p).counts = (s3.port p).counts := by
      rw [port_of_ports ((stamp_ports _).trans ((raise_ports ..).trans (setCtxNow_ports ..)))]
    exact ⟨resetCtx_resets .., fun p => (resetCtx_counts ..).trans ((hfaulted p).trans (h3.counts p))⟩

end Sys2Proof.Machine
end

section
/-! PROOFS. What stands of splice traffic while a beat or a departure sets work going (`Obligations.SplicePortsComplete`): rows are placed,
substituted and sent to their homes, and no part loses a byte by it or leaves. -/
namespace Sys2Proof.Machine

-- Each proof waits for the one before it: all at once would each hold a thread.
set_option Elab.async false

variable {s₀ s t : State} {k : GyleKey} {g h : Gyle} {p : PlanSlot} {slot row : Nat}

/-- What has come in of a row-slot's parts, and how far its outbound part has gone. -/
def RowSlot.traffic (x : RowSlot) : List Byte × List Byte × List Byte × OutState := (x.act, x.grad, x.base, x.out)

/-- What a port counts inbound, and the parts that it has sent. -/
def Port.traffic (q : Port) : (Nat × Nat) × List PartOut := (q.counts, q.sending)

/-- The gyle's state stands, and the traffic of its row-slots. -/
structure Gyle.TrafficStands (g g' : Gyle) : Prop where
  st : g'.st = g.st := by rfl
  slots : ∀ n, (tget {} g'.slots n : RowSlot).traffic = (tget {} g.slots n : RowSlot).traffic := by exact fun _ => rfl

theorem Gyle.TrafficStands.rowSlot (hg : g.TrafficStands h) (slot row : Nat) : (h.rowSlot slot row).traffic = (g.rowSlot slot row).traffic :=
  hg.slots (slotKey slot row)

/-- What a change of a row-slot leaves of it, it leaves of every row-slot. -/
theorem modSlot_view {α : Type} (v : RowSlot → α) {f : RowSlot → RowSlot} (hf : ∀ x, v (f x) = v x) (g : Gyle) (slot row n : Nat) :
    v (tget {} (g.modSlot slot row f).slots n) = v (tget {} g.slots n) := by
  by_cases hn : n = slotKey slot row
  · rw [hn, Gyle.modSlot, tget_tmod_self]
    exact hf _
  · rw [Gyle.modSlot, tget_tmod_ne _ _ _ hn]

theorem Gyle.TrafficStands.modSlot {f : RowSlot → RowSlot} (hg : g.TrafficStands h)
    (hf : ∀ x : RowSlot, (f x).traffic = x.traffic := by exact fun _ => rfl) : g.TrafficStands (h.modSlot slot row f) :=
  ⟨hg.st, fun n => (modSlot_view _ hf ..).trans (hg.slots n)⟩

theorem Gyle.TrafficStands.countLate {sv} (hg : g.TrafficStands h) : g.TrafficStands (countLate h slot row sv) := by
  unfold Machine.countLate
  split
  · exact hg
  · exact ⟨hg.st, hg.slots⟩

/-- Between `s` and `t` the traffic of every splice port and of every gyle stands. -/
structure TrafficStands (s t : State) : Prop where
  port : ∀ n, (t.port n).traffic = (s.port n).traffic := by exact fun _ => rfl
  gyle : ∀ k g, s.gyle k = some g → ∃ g', t.gyle k = some g' ∧ g.TrafficStands g' := by exact fun _ g hg => ⟨g, hg, {}⟩

protected theorem TrafficStands.refl (s : State) : TrafficStands s s := {}

protected theorem TrafficStands.trans {u : State} (h : TrafficStands s t) (k : TrafficStands t u) : TrafficStands s u where
  port n := (k.port n).trans (h.port n)
  gyle j g hg := by
    obtain ⟨g1, hg1, h1⟩ := h.gyle j g hg
    obtain ⟨g2, hg2, h2⟩ := k.gyle j g1 hg1
    exact ⟨g2, hg2, h2.st.trans h1.st, fun n => (h2.slots n).trans (h1.slots n)⟩

theorem TrafficStands.of_eq (h : TrafficStands s₀ s) (hports : t.ports = s.ports) (hgyles : t.gyles = s.gyles) : TrafficStands s₀ t :=
  h.trans
    { port := fun n => congrArg Port.traffic (port_of_ports hports n)
      gyle := fun j g hg => ⟨g, (gyle_of_gyles hgyles j).trans hg, {}⟩ }

/-- An update of other parts of the state. -/
protected theorem TrafficStands.same {tuns spillUsed homes integrity} (h : TrafficStands s₀ s) :
    TrafficStands s₀ { s with tuns, spillUsed, homes, integrity } := h.of_eq rfl rfl

protected theorem TrafficStands.foldl {α : Type} {f : State → α → State} {l : List α} (h : TrafficStands s₀ s)
    (hf : ∀ {t}, TrafficStands s₀ t → ∀ a, TrafficStands s₀ (f t a)) : TrafficStands s₀ (l.foldl f s) :=
  List.foldlRecOn l f h fun _ ht a _ => hf ht a

protected theorem TrafficStands.stamp (h : TrafficStands s₀ s) : TrafficStands s₀ (stamp s) := h.of_eq (stamp_ports s) (stamp_gyles s)

protected theorem TrafficStands.modPort {n f} (h : TrafficStands s₀ s) (hf : ∀ q : Port, (f q).traffic = q.traffic := by exact fun _ => rfl) :
    TrafficStands s₀ (modPort s n f) :=
  h.trans
    { port := fun m => by
        by_cases hm : m = n
        · rw [hm, modPort_port_self]
          exact hf _
        · rw [modPort_port_ne _ _ hm] }

protected theorem TrafficStands.modGyle {f} (h : TrafficStands s₀ s) (hf : ∀ g : Gyle, g.TrafficStands (f g)) :
    TrafficStands s₀ (modGyle s k f) :=
  h.trans
    { port := fun n => congrArg Port.traffic (port_of_ports (modGyle_ports ..) n)
      gyle := fun j g hg => by
        by_cases hj : j = k
        · subst hj
          exact ⟨_, modGyle_gyle_self f hg, (hf g).st, (hf g).slots⟩
        · exact ⟨g, (modGyle_gyle_ne _ _ hj).trans hg, {}⟩ }

/-! ### Placement and substitution -/

protected theorem TrafficStands.notePlaced (h : TrafficStands s₀ s) : TrafficStands s₀ (notePlaced s k) := h.modGyle fun _ => {}

protected theorem TrafficStands.enqueue {n ops rows} (h : TrafficStands s₀ s) : TrafficStands s₀ (enqueue s k slot n ops rows) :=
  h.same.modGyle fun g =>
    List.foldlRecOn rows _ (motive := fun h => g.TrafficStands h) {} fun _ hh _ _ => hh.modSlot

protected theorem TrafficStands.holdLanes {rows} (h : TrafficStands s₀ s) : TrafficStands s₀ (holdLanes s k slot p rows) :=
  h.foldl fun {t} ht r => by
    split
    · exact ht
    · dsimp only
      split
      · exact ht.modGyle fun _ => Gyle.TrafficStands.modSlot {}
      · exact ht

protected theorem TrafficStands.placeSegment (h : TrafficStands s₀ s) : TrafficStands s₀ (placeSegment s k row slot) := by
  fun_cases placeSegment s k row slot
  case case3 => exact h.modGyle fun _ => {}
  case case4 => exact ((h.modGyle fun _ => {}).notePlaced.foldl fun ht _ => ht.foldl fun hu _ => hu.enqueue).holdLanes
  all_goals exact h

theorem dropRow_ports (s : State) (k : GyleKey) (slot row : Nat) : (dropRow s k slot row).ports = s.ports := by
  unfold dropRow
  extract_lets cut u
  have hu : u.ports = s.ports := foldl_field (·.ports) _ (fun t e => by rfl) _ _
  exact hu

protected theorem TrafficStands.substitute {want} (h : TrafficStands s₀ s) : TrafficStands s₀ (substitute s k slot row want) := by
  have hcut (sv : Served) : TrafficStands s₀
      (modGyle (dropRow s k slot row) k fun g => (countLate g slot row sv).modSlot slot row fun x => x.substituted sv) :=
    (h.of_eq (dropRow_ports ..) (dropRow_gyles ..)).modGyle fun _ => (Gyle.TrafficStands.countLate {}).modSlot
  fun_cases substitute s k slot row want with
  | case1 | case2 => exact h
  | case3 => exact hcut _
  | case4 => exact (hcut _).modGyle fun _ => Gyle.TrafficStands.modSlot {}
  | case5 => exact (hcut _).enqueue.notePlaced
  | case6 => exact hcut _

protected theorem TrafficStands.secondChoice (h : TrafficStands s₀ s) : TrafficStands s₀ (secondChoice s k slot row) := by
  fun_cases secondChoice s k slot row
  · exact h
  · exact h.modGyle fun _ => (Gyle.TrafficStands.countLate {}).modSlot
  · exact h.substitute

protected theorem TrafficStands.settleBlocked (h : TrafficStands s₀ s) : TrafficStands s₀ (settleBlocked s) := by
  unfold Machine.settleBlocked
  split
  · exact h
  · refine h.foldl fun ht g => ht.foldl fun hu key => ?_
    split
    · exact hu
    · split
      · exact hu.secondChoice
      · exact hu

/-! ### Beats -/

protected theorem TrafficStands.beginRow (h : TrafficStands s₀ s) : TrafficStands s₀ (beginRow s g p slot row) := by
  unfold Machine.beginRow
  extract_lets r s1 s2
  have h2 : TrafficStands s₀ s2 := (h.modGyle fun _ => Gyle.TrafficStands.modSlot {}).placeSegment
  split
  · exact h2.substitute.settleBlocked
  · exact h2.settleBlocked

protected theorem TrafficStands.stageBeat {port tag index} (h : TrafficStands s₀ s) : TrafficStands s₀ (stageBeat s g p port tag index) := by
  fun_cases stageBeat s g p port tag index
  · exact h
  · exact h.modPort

protected theorem TrafficStands.reserve {head} (h : TrafficStands s₀ s) (ht : reserve s k slot row head = some t) : TrafficStands s₀ t := by
  revert ht
  fun_cases reserve s k slot row head <;> rintro ⟨⟩
  · exact h
  · exact h.modPort.modGyle fun _ => Gyle.TrafficStands.modSlot {}
  · exact h.same.modPort.modGyle fun _ => Gyle.TrafficStands.modSlot {}

theorem sendMsg_ports (s : State) (m : Msg) : (sendMsg s m).ports = s.ports := by fun_cases sendMsg s m <;> rfl

theorem farRowsTo_ports (s : State) (g : Gyle) (p : PlanSlot) (row home : Nat) (x : RowSlot) :
    (farRowsTo s g p row home x).ports = s.ports := sendMsg_ports ..

theorem farRowsTo_gyles (s : State) (g : Gyle) (p : PlanSlot) (row home : Nat) (x : RowSlot) :
    (farRowsTo s g p row home x).gyles = s.gyles := sendMsg_gyles ..

theorem tget_map {α : Type} {d : α} {f : α → α} (hf : f d = d) (l : Tab α) (n : Nat) :
    tget d (l.map fun e => (e.1, f e.2)) n = f (tget d l n) := by
  induction l with
  | nil => exact hf.symm
  | cons e l ih =>
    by_cases hn : e.1 = n
    · simp [tget, hn]
    · simpa [tget, hn] using ih

/-- A row that is sent to its homes gives back staging beats alone. -/
protected theorem TrafficStands.freeFar (h : TrafficStands s₀ s) : TrafficStands s₀ (freeFar s k slot row) :=
  h.trans
    { port := fun n => (congrArg Port.traffic (tget_map (f := fun q : Port => { q with
        staged := (q.staged.map fun b => if b.gk = k && b.slot = slot && b.row = row then { b with far := false } else b).filter fun b =>
          b.lane || b.far }) rfl s.ports n)).trans rfl }

protected theorem TrafficStands.sendFarRow (h : TrafficStands s₀ s) : TrafficStands s₀ (sendFarRow s k slot row) := by
  fun_cases sendFarRow s k slot row
  case case5 s1 hs1 n s2 s3 s4 =>
    have h1 : TrafficStands s₀ s1 := h.reserve hs1
    have h2 : TrafficStands s₀ s2 := h1.foldl fun ht _ => ht.stamp.of_eq (farRowsTo_ports ..) (farRowsTo_gyles ..)
    have h3 : TrafficStands s₀ s3 := h2.same
    refine h3.freeFar.modGyle fun g => ?_
    split
    · exact Gyle.TrafficStands.modSlot ⟨rfl, fun _ => rfl⟩
    · exact Gyle.TrafficStands.modSlot {}
  all_goals exact h

protected theorem TrafficStands.sendFarRows (h : TrafficStands s₀ s) : TrafficStands s₀ (sendFarRows s) :=
  h.foldl fun ht _ => ht.foldl fun hu _ => by
    split
    · exact hu
    · exact hu.sendFarRow

theorem endSpliceFault_only (s : State) (port : Nat) : ∃ integrity, endSpliceFault s port = { s with integrity } := by
  fun_cases endSpliceFault s port
  · exact ⟨_, rfl⟩
  · exact ⟨_, rfl⟩

protected theorem TrafficStands.endSpliceFault {port} (h : TrafficStands s₀ s) : TrafficStands s₀ (endSpliceFault s port) := by
  obtain ⟨integrity, heq⟩ := endSpliceFault_only s port
  rw [heq]
  exact h.same

end Sys2Proof.Machine
end

section
/-! PROOFS. The beats that come in on a splice port (`Obligations.SplicePortsComplete`; R121, R296, R436). -/
namespace Sys2Proof.Machine

-- Each proof waits for the one before it: all at once would each hold a thread.
set_option Elab.async false

variable {s₀ s t : State} {k : GyleKey} {g : Gyle} {p : PlanSlot} {port slot row : Nat} {tag : BeatTag} {data : List Byte}
  {check : LinkCheck} {bs : List Byte × List Byte × List Byte}

/-! ### Beats that leave -/

/-- What has come in of a row-slot's parts. -/
def RowSlot.bytes (x : RowSlot) : List Byte × List Byte × List Byte := (x.act, x.grad, x.base)

/-- The gyle once the beats up to `hi` of the `n` of a row's outbound part are sent. -/
def sentBeats (p : PlanSlot) (slot row hi n : Nat) (g : Gyle) : Gyle :=
  let g := g.modSlot slot row fun z => { z with out := .sending, outBeats := hi }
  if hi < n then g else countSent g p slot row

theorem sentBeats_st (p : PlanSlot) (slot row hi n : Nat) (g : Gyle) : (sentBeats p slot row hi n g).st = g.st := by
  unfold sentBeats
  extract_lets
  split <;> rfl

theorem sentBeats_bytes (p : PlanSlot) (slot row hi n : Nat) (g : Gyle) (i : Nat) :
    (tget {} (sentBeats p slot row hi n g).slots i : RowSlot).bytes = (tget {} g.slots i : RowSlot).bytes := by
  unfold sentBeats
  extract_lets g1
  have h1 : (tget {} g1.slots i : RowSlot).bytes = (tget {} g.slots i : RowSlot).bytes := modSlot_view _ (by exact fun _ => rfl) ..
  split
  · exact h1
  · exact (modSlot_view RowSlot.bytes (by exact fun _ => rfl) ..).trans h1

theorem sentBeats_out (p : PlanSlot) (slot row hi n : Nat) (g : Gyle) :
    ((sentBeats p slot row hi n g).rowSlot slot row).out = if hi < n then .sending else .sent := by
  unfold sentBeats
  split
  · rw [modSlot_rowSlot_self]
  · rw [countSent, modSlot_rowSlot_self]

theorem sendBeats_gyle (hg : s.gyle g.key = some g) : ∃ g', (sendBeats s port g p slot row).gyle g.key = some g' ∧
    g'.slots = (sentBeats p slot row (outReady g p (g.rowSlot slot row)) (outTotal g p) g).slots ∧ g'.st = g.st :=
  ⟨_, modGyle_gyle_self _ hg, rfl, sentBeats_st ..⟩

/-! ### A beat that is accepted -/

/-- From `s` to `t` no port counts a beat, and gyle `k` runs with these bytes at a row-slot. -/
structure TakesPart (k : GyleKey) (slot row : Nat) (bs : List Byte × List Byte × List Byte) (s t : State) : Prop where
  counts : ∀ n, (t.port n).counts = (s.port n).counts
  gyle : ∃ g, t.gyle k = some g ∧ g.st = .running ∧ (g.rowSlot slot row).bytes = bs

theorem TakesPart.stand (h : TakesPart k slot row bs s₀ s) (ht : TrafficStands s t) : TakesPart k slot row bs s₀ t where
  counts n := (congrArg Prod.fst (ht.port n)).trans (h.counts n)
  gyle := by
    obtain ⟨g, hg, hst, hbytes⟩ := h.gyle
    obtain ⟨g', hg', hstands⟩ := ht.gyle k g hg
    have hrow := congrArg (fun x : List Byte × List Byte × List Byte × OutState => (x.1, x.2.1, x.2.2.1)) (hstands.rowSlot slot row)
    exact ⟨g', hg', hstands.st.trans hst, hrow.trans hbytes⟩

theorem sendBeats_counts (n : Nat) : ((sendBeats s port g p slot row).port n).counts = (s.port n).counts := by
  have hemit : EndsTraffic s (emitAll s (outBeats port g p slot row (g.rowSlot slot row).outBeats (outReady g p (g.rowSlot slot row))
      (g.rowSlot slot row))) := (EndsTraffic.refl s).same
  exact hemit.modPort.modGyle.counts n

/-- The sums that leave at once take no byte from what has come in. -/
theorem TakesPart.sumBeat (h : TakesPart k slot row bs s₀ s) : TakesPart k slot row bs s₀ (sumBeat s port k slot row) := by
  fun_cases Machine.sumBeat s port k slot row with
  | case1 | case2 | case3 => exact h
  | case4 _ g hg p hp =>
    obtain ⟨g1, hg1, hst, hbytes⟩ := h.gyle
    obtain rfl : g1 = g := Option.some.inj (hg1.symm.trans hg)
    obtain rfl := gyle_key hg
    obtain ⟨g2, hg2, hslots, hst2⟩ := sendBeats_gyle (port := port) (p := p) (slot := slot) (row := row) hg
    refine ⟨fun n => (sendBeats_counts n).trans (h.counts n), g2, hg2, hst2.trans hst, ?_⟩
    rw [Gyle.rowSlot, hslots, sentBeats_bytes]
    exact hbytes

/-- The first beat of a gyle brings it to `RUNNING` (R9). -/
theorem startRunning_gyle (hg : s.gyle g.key = some g) (hst : g.st = .sorted ∨ g.st = .running) :
    (startRunning s g).gyle g.key = some { g with st := .running } := by
  fun_cases startRunning s g with
  | case1 => exact modGyle_gyle_self _ hg
  | case2 hsorted =>
    obtain hrun := hst.resolve_left hsorted
    rw [hg, ← hrun]

theorem takesPart_acceptBeat (hg : s.gyle g.key = some g) (hst : g.st = .sorted ∨ g.st = .running) :
    TakesPart g.key tag.slot tag.row ((g.rowSlot tag.slot tag.row).takeBeat port (partSize g p tag.kind) tag.kind data).bytes s
      (acceptBeat s g p port tag data) := by
  unfold acceptBeat
  extract_lets size x first index cr s1 s2 got s3 s4 s5 whole s6
  have h1 : EndsTraffic s s1 := by
    unfold s1 startRunning
    split
    · exact (EndsTraffic.refl s).modGyle
    · exact .refl s
  have h2 : TakesPart g.key tag.slot tag.row (x.takeBeat port size tag.kind data).bytes s s2 :=
    ⟨h1.modGyle.counts, _, modGyle_gyle_of_key (startRunning_gyle hg hst) rfl, rfl, congrArg RowSlot.bytes (modSlot_rowSlot_self ..)⟩
  have h3 : TrafficStands s2 s3 := (TrafficStands.refl s2).modPort
  have h4 : TrafficStands s2 s4 := by
    unfold s4
    split
    · exact h3.beginRow
    · exact h3
  have h6 : TrafficStands s2 s6 := by
    unfold s6
    split
    · exact h4.stageBeat.modPort
    · exact h4.stageBeat
  split
  · exact (h2.stand h6).sumBeat
  · split
    · exact h2.stand h6.sendFarRow
    · exact h2.stand h6

/-- The bytes of a beat join the part of its kind. -/
theorem joins_of_takeBeat {x y : RowSlot} {size kind : Nat} (h : y.bytes = (x.takeBeat port size kind data).bytes) :
    let bs := padTo (min 128 (size - partGot x kind)) data
    (kind = 0 → y.act = x.act ++ bs) ∧ (kind = 4 → y.grad = x.grad ++ bs) ∧ (kind ≠ 0 → kind ≠ 4 → y.base = x.base ++ bs) := by
  obtain ⟨hact, hrest⟩ := Prod.mk.inj h
  obtain ⟨hgrad, hbase⟩ := Prod.mk.inj hrest
  refine ⟨fun hk => hact.trans ?_, fun hk => hgrad.trans ?_, fun h0 h4 => hbase.trans ?_⟩
  · simp [RowSlot.takeBeat, hk]
  · simp [RowSlot.takeBeat, hk]
  · simp [RowSlot.takeBeat, h0, h4]

end Sys2Proof.Machine
end

section
/-! PROOFS. The inbound beats of a splice port, case by case (`Obligations.SplicePortsComplete`; R121, R296, R436). -/
namespace Sys2Proof.Machine

-- Each proof waits for the one before it: all at once would each hold a thread.
set_option Elab.async false

variable {s t : State} {g : Gyle} {q : PlanSlot} {p : Nat} {b : BeatTag} {data : List Byte} {check : LinkCheck}

/-! ### A beat that is counted -/

/-- The state in which a beat has been counted on a port, at its event. -/
def countedBeat (s : State) (p : Nat) (check : LinkCheck) : State :=
  modPort (noteParity (stamp s) check) p fun q => { q with beatsIn := sat 64 (q.beatsIn + 1) }

theorem countedBeat_port : (countedBeat s p check).port p = { s.port p with beatsIn := sat 64 ((s.port p).beatsIn + 1) } := by
  rw [countedBeat, modPort_port_self, port_of_ports ((noteParity_ports ..).trans (stamp_ports s))]

theorem countedBeat_gyles : (countedBeat s p check).gyles = s.gyles := by simp [countedBeat]

theorem countedBeat_gyle (k : GyleKey) : (countedBeat s p check).gyle k = s.gyle k := gyle_of_gyles countedBeat_gyles k

theorem countedBeat_ctxs : (countedBeat s p check).ctxs = s.ctxs := by simp [countedBeat]

theorem countedBeat_ctx (c : Nat) : (countedBeat s p check).ctx c = s.ctx c := ctx_of_ctxs countedBeat_ctxs c

theorem countedBeat_counts : ((countedBeat s p check).port p).counts = (sat 64 ((s.port p).beatsIn + 1), (s.port p).tagErrors) := by
  rw [countedBeat_port]
  rfl

theorem beatGyle_countedBeat (b : BeatTag) : beatGyle (countedBeat s p check) b = beatGyle s b := by
  unfold beatGyle
  rw [countedBeat_gyle, show (countedBeat s p check).planInForce = s.planInForce by simp [countedBeat]]

theorem beatOutOfTurn_countedBeat : beatOutOfTurn (countedBeat s p check) g q p b = beatOutOfTurn s g q p b := by
  simp only [beatOutOfTurn, countedBeat_port]

/-- A gyle that takes beats is the one that the tag names, in `SORTED` or `RUNNING` (Table 6.6). -/
theorem gyle_of_beatGyle (h : beatGyle s b = some g) : s.gyle (tagKey b) = some g ∧ (g.st = .sorted ∨ g.st = .running) := by
  unfold beatGyle at h
  split at h
  · rename_i g' hg
    split at h
    · rename_i htakes
      obtain rfl := Option.some.inj h
      simp only [Bool.and_eq_true, Bool.or_eq_true, decide_eq_true_eq] at htakes
      exact ⟨hg, htakes.1.1⟩
    · cases h
  · cases h

/-! ### The cases of a beat -/

/-- The beat rests on credit that has been withdrawn, and on none that stands (R296). -/
def onWithdrawn (q : Port) (b : BeatTag) : Bool := (creditFor b q.credits).isNone && (creditFor b q.withdrawn).isSome

/-- A beat is counted; then it is dropped with the part as first sent, judged by Table 6.6, or asked for again. -/
theorem inboundBeat_eq (hp : domainPresent s p = true) : inboundBeat p b data check s =
    if dropping (s.port p) then modPort (countedBeat s p check) p dropBeat
    else if check = .ok then goodBeat (countedBeat s p check) p b data else checkFailed (countedBeat s p check) p b := by
  have hdrop : dropping ((countedBeat s p check).port p) = dropping (s.port p) := by
    rw [countedBeat_port]
    rfl
  rw [inboundBeat, hp, ← hdrop]
  rfl

theorem credit_of_inTurn (h : beatOutOfTurn s g q p b = false) : (creditFor b (s.port p).credits).isNone = false := by
  simp only [beatOutOfTurn, Bool.or_eq_false_iff] at h
  obtain ⟨⟨⟨⟨⟨-, hcredit⟩, -⟩, -⟩, -⟩, -⟩ := h
  exact hcredit

/-- A beat that Table 6.6 refuses is counted as such on its port. -/
theorem badBeat_counts (s : State) (p : Nat) (b : BeatTag) (row : Nat) (tenant : Option Nat) :
    ((badBeat s p b row tenant).port p).counts = ((s.port p).beatsIn, sat 32 ((s.port p).tagErrors + 1)) := by
  have hlog (page code : Nat) (submitter : Option Nat) (payload : List Byte) :
      ((logNow (modPort s p fun q => { q with tagErrors := sat 32 (q.tagErrors + 1) }) page code tenant submitter 0 payload).port p).counts =
        ((s.port p).beatsIn, sat 32 ((s.port p).tagErrors + 1)) := by
    rw [port_of_ports (logNow_ports ..), modPort_port_self]
    rfl
  unfold badBeat
  extract_lets s1 s2
  split
  · exact hlog ..
  · exact (faultCtx_counts ..).trans (hlog ..)

theorem badBeat_first (s : State) (p : Nat) (b : BeatTag) (tenant : Option Nat) :
    (badBeat s p b 1 tenant).gyles = s.gyles ∧ (badBeat s p b 1 tenant).ctxs = s.ctxs := by
  simp [badBeat]

/-- By the second and third rows of Table 6.6 the beat faults its context too. -/
theorem badBeat_faults {row : Nat} {tenant : Option Nat} (hrow : row ≠ 1)
    (hst : (s.ctx b.submitter).st = .ready ∨ (s.ctx b.submitter).st = .running ∨ (s.ctx b.submitter).st = .quiesced) :
    ((badBeat s p b row tenant).ctx b.submitter).st = .faulted ∧ ((badBeat s p b row tenant).ctx b.submitter).faultCause = 0x01 := by
  unfold badBeat
  extract_lets s1 s2
  rw [if_neg hrow]
  have hctx : s2.ctx b.submitter = s.ctx b.submitter := ctx_of_ctxs ((logNow_ctxs ..).trans (modPort_ctxs ..)) _
  exact faultCtx_faulted (by rwa [hctx])

/-! ### Beats that run their gyle, and beats that are discarded -/

section
variable (hp : domainPresent s p = true)
include hp

theorem inboundBeat_dropped (hdrop : dropping (s.port p) = true) :
    ((inboundBeat p b data check s).port p).counts = (sat 64 ((s.port p).beatsIn + 1), (s.port p).tagErrors) ∧
      (inboundBeat p b data check s).gyles = s.gyles ∧ (inboundBeat p b data check s).ctxs = s.ctxs := by
  rw [inboundBeat_eq hp, if_pos hdrop]
  refine ⟨?_, (modPort_gyles ..).trans countedBeat_gyles, (modPort_ctxs ..).trans countedBeat_ctxs⟩
  rw [modPort_port_self]
  exact countedBeat_counts

variable (hdrop : dropping (s.port p) = false)
include hdrop

theorem inboundBeat_good : inboundBeat p b data .ok s = goodBeat (countedBeat s p .ok) p b data := by
  rw [inboundBeat_eq hp, hdrop]
  rfl

theorem inboundBeat_accepted (hg : beatGyle s b = some g) (hplace : beatMisplaced g p b = false) (hq : g.plan.slots[b.slot]? = some q)
    (hturn : beatOutOfTurn s g q p b = false) :
    TakesPart (tagKey b) b.slot b.row ((g.rowSlot b.slot b.row).takeBeat p (partSize g q b.kind) b.kind data).bytes (countedBeat s p .ok)
      (inboundBeat p b data .ok s) := by
  obtain ⟨hgyle, hst⟩ := gyle_of_beatGyle hg
  have hgood : goodBeat (countedBeat s p .ok) p b data = endSpliceFault (acceptBeat (countedBeat s p .ok) g q p b data) p := by
    simp [goodBeat, countedBeat_port, credit_of_inTurn hturn, beatGyle_countedBeat, hg, hplace, hq, beatOutOfTurn_countedBeat, hturn]
  have hkey := gyle_key hgyle
  rw [inboundBeat_good hp hdrop, hgood, ← hkey]
  exact (takesPart_acceptBeat ((countedBeat_gyle _).trans (hkey ▸ hgyle)) hst).stand (TrafficStands.refl _).endSpliceFault

theorem inboundBeat_withdrawn (hwithdrawn : onWithdrawn (s.port p) b = true) :
    ((inboundBeat p b data .ok s).port p).counts = (sat 64 ((s.port p).beatsIn + 1), (s.port p).tagErrors) ∧
      (inboundBeat p b data .ok s).gyles = s.gyles ∧ (inboundBeat p b data .ok s).ctxs = s.ctxs := by
  have hgood : goodBeat (countedBeat s p .ok) p b data =
      modPort (countedBeat s p .ok) p fun q => { q with withdrawn := takeCredit b q.withdrawn } := by
    unfold goodBeat
    rw [countedBeat_port]
    exact if_pos hwithdrawn
  rw [inboundBeat_good hp hdrop, hgood]
  refine ⟨?_, (modPort_gyles ..).trans countedBeat_gyles, (modPort_ctxs ..).trans countedBeat_ctxs⟩
  rw [modPort_port_self]
  exact countedBeat_counts

variable (hwithdrawn : onWithdrawn (s.port p) b = false)
include hwithdrawn

/-- The first row of Table 6.6: no gyle takes the beat. -/
theorem inboundBeat_stray (hg : beatGyle s b = none) :
    ((inboundBeat p b data .ok s).port p).counts = (sat 64 ((s.port p).beatsIn + 1), sat 32 ((s.port p).tagErrors + 1)) ∧
      (inboundBeat p b data .ok s).gyles = s.gyles ∧ (inboundBeat p b data .ok s).ctxs = s.ctxs := by
  have hgood : goodBeat (countedBeat s p .ok) p b data = badBeat (countedBeat s p .ok) p b 1 none := by
    unfold goodBeat
    rw [countedBeat_port, beatGyle_countedBeat, hg]
    exact if_neg (by simpa [onWithdrawn] using hwithdrawn)
  obtain ⟨hgyles, hctxs⟩ := badBeat_first (countedBeat s p .ok) p b none
  rw [inboundBeat_good hp hdrop, hgood]
  refine ⟨?_, hgyles.trans countedBeat_gyles, hctxs.trans countedBeat_ctxs⟩
  rw [badBeat_counts, countedBeat_port]

/-- The second and third rows of Table 6.6: the gyle does not take the beat there, or not now. -/
theorem inboundBeat_refused (hg : beatGyle s b = some g)
    (hbad : beatMisplaced g p b = true ∨ ∃ q, g.plan.slots[b.slot]? = some q ∧ beatOutOfTurn s g q p b = true) :
    ((inboundBeat p b data .ok s).port p).counts = (sat 64 ((s.port p).beatsIn + 1), sat 32 ((s.port p).tagErrors + 1)) ∧
      (((s.ctx b.submitter).st = .ready ∨ (s.ctx b.submitter).st = .running ∨ (s.ctx b.submitter).st = .quiesced) →
        ((inboundBeat p b data .ok s).ctx b.submitter).st = .faulted ∧ ((inboundBeat p b data .ok s).ctx b.submitter).faultCause = 0x01) := by
  have hgood : ∃ row tenant, row ≠ 1 ∧ goodBeat (countedBeat s p .ok) p b data = badBeat (countedBeat s p .ok) p b row tenant := by
    unfold goodBeat
    rw [countedBeat_port, beatGyle_countedBeat, hg]
    simp only [beatOutOfTurn_countedBeat]
    rw [if_neg (by simpa [onWithdrawn] using hwithdrawn)]
    by_cases hplace : beatMisplaced g p b = true
    · rw [if_pos hplace]
      exact ⟨2, _, by decide, rfl⟩
    · obtain ⟨q, hq, hturn⟩ := hbad.resolve_left hplace
      rw [if_neg hplace, hq]
      exact ⟨3, _, by decide, if_pos hturn⟩
  obtain ⟨row, tenant, hrow, hbeat⟩ := hgood
  rw [inboundBeat_good hp hdrop, hbeat]
  refine ⟨?_, fun hst => badBeat_faults hrow (by rwa [countedBeat_ctx])⟩
  rw [badBeat_counts, countedBeat_port]

end

/-! ### Beats whose check fails -/

/-- The state in which a failed beat is a fault of its port (R436). -/
def failedBeat (s : State) (p : Nat) (check : LinkCheck) : State := startFault (countedBeat s p check) (.port (pgPort p)) 0x0A 1 []

theorem failedBeat_ports : (failedBeat s p check).ports = (countedBeat s p check).ports := startFault_ports ..

theorem failedBeat_gyle (k : GyleKey) : (failedBeat s p check).gyle k = s.gyle k :=
  (gyle_of_gyles (startFault_gyles ..) k).trans (countedBeat_gyle k)

theorem failedBeat_outs : (failedBeat s p check).outs = s.outs := by simp [failedBeat, countedBeat]

theorem failedBeat_retryLimit : retryLimit (failedBeat s p check) = retryLimit s := by
  simp [failedBeat, countedBeat, retryLimit, regFld, reg]

theorem failedBeat_ctx (c : Nat) : (failedBeat s p check).ctx c = s.ctx c := (ctx_of_ctxs (startFault_ctxs ..) c).trans (countedBeat_ctx c)

theorem failedBeat_counts : ((failedBeat s p check).port p).counts = (sat 64 ((s.port p).beatsIn + 1), (s.port p).tagErrors) := by
  rw [port_of_ports failedBeat_ports, countedBeat_counts]

theorem resend_naks (x : RowSlot) (kind : Nat) : (x.resend kind).naks = x.naks + 1 := by
  unfold RowSlot.resend
  split <;> rfl

theorem resendCredit_counts (g : Gyle) (q : PlanSlot) (b : BeatTag) (x : Port) : (resendCredit g q b x).counts = x.counts := by
  unfold resendCredit
  extract_lets
  split
  · rfl
  · split <;> rfl

/-- A row-slot whose part is asked for again on a port. -/
def askedRow (p : Nat) (b : BeatTag) (x : RowSlot) : RowSlot :=
  { x.resend b.kind with credited := x.credited || b.kind = 0, port := if x.credited then x.port else p }

/-- A port that asks for a part again and drops the `run` beats that still come of it. -/
def askingPort (g : Gyle) (q : PlanSlot) (b : BeatTag) (run : Nat) (x : Port) : Port :=
  { resendCredit g q b x with
    partIn := if run = 0 then none
      else some { gk := tagKey b, slot := b.slot, row := b.row, kind := b.kind, beatsLeft := run, drop := true } }

theorem askedRow_naks (p : Nat) (b : BeatTag) (x : RowSlot) : (askedRow p b x).naks = x.naks + 1 := resend_naks ..

theorem askingPort_counts (g : Gyle) (q : PlanSlot) (b : BeatTag) (run : Nat) (x : Port) : (askingPort g q b run x).counts = x.counts :=
  resendCredit_counts ..

section
variable {b₀ : BeatTag} (hp : domainPresent s p = true) (hdrop : dropping (s.port p) = false) (hcheck : check ≠ .ok)
  (hb : failedTag (s.port p) b₀ = b) (hg : beatGyle s b = some g) (hq : g.plan.slots[b.slot]? = some q)
  (hplace : beatMisplaced g p b = false) (hcredit : (creditFor b (s.port p).credits).isSome = true)
include hp hdrop hcheck hb hg hq hplace hcredit

/-- A failed beat of a part that the port takes: the part is asked for again, or level 4 follows. -/
theorem inboundBeat_failed : ∃ fid run, inboundBeat p b₀ data check s =
    if retryLimit s ≤ (g.rowSlot b.slot b.row).naks then levelFour (endFault (failedBeat s p check) (.port (pgPort p))) b.submitter fid 0x0A 1
    else emit (modPort (modGyle (failedBeat s p check) g.key fun g => g.modSlot b.slot b.row (askedRow p b)) p (askingPort g q b run))
      (.creditWord p (creditWord (tagKey b) b.slot b.row 3 0)) := by
  have htag : failedTag ((countedBeat s p check).port p) b₀ = b := by
    rw [countedBeat_port, ← hb]
    rfl
  have hnone : (creditFor b ((countedBeat s p check).port p).credits).isNone = false := by
    rw [countedBeat_port, ← Option.not_isSome, hcredit]
    rfl
  rw [inboundBeat_eq hp, hdrop]
  simp only [Bool.false_eq_true, if_false, if_neg hcheck, checkFailed, htag, beatGyle_countedBeat, hg, hq, hplace, hnone, Bool.or_self,
    ← failedBeat_retryLimit (s := s) (p := p) (check := check)]
  exact ⟨_, _, rfl⟩

/-- The part is asked for again: its row-slot counts one more resend, and the credit word says so. -/
theorem inboundBeat_resends (hlim : (g.rowSlot b.slot b.row).naks < retryLimit s) :
    ((inboundBeat p b₀ data check s).port p).counts = (sat 64 ((s.port p).beatsIn + 1), (s.port p).tagErrors) ∧
      (inboundBeat p b₀ data check s).outs = .creditWord p (creditWord (tagKey b) b.slot b.row 3 0) :: s.outs ∧
      ∃ g', (inboundBeat p b₀ data check s).gyle (tagKey b) = some g' ∧ (g'.rowSlot b.slot b.row).naks = (g.rowSlot b.slot b.row).naks + 1 := by
  obtain ⟨fid, run, hfailed⟩ := inboundBeat_failed (data := data) hp hdrop hcheck hb hg hq hplace hcredit
  obtain ⟨hgyle, -⟩ := gyle_of_beatGyle hg
  have hkey := gyle_key hgyle
  rw [hfailed, if_neg (Nat.not_le.mpr hlim)]
  refine ⟨?_, ?_, ?_⟩
  · rw [port_of_ports (emit_ports ..), modPort_port_self, askingPort_counts, port_of_ports (modGyle_ports ..), failedBeat_counts]
  · rw [emit, modPort_outs, modGyle_outs, failedBeat_outs]
  · have hfound : (failedBeat s p check).gyle g.key = some g := (failedBeat_gyle _).trans (hkey.symm ▸ hgyle)
    rw [← hkey]
    refine ⟨_, (gyle_of_gyles ((emit_gyles ..).trans (modPort_gyles ..)) _).trans (modGyle_gyle_of_key hfound rfl), ?_⟩
    rw [modSlot_rowSlot_self, askedRow_naks]

/-- The last resend has failed: level 4 for the context (R436). -/
theorem inboundBeat_exhausted (hlim : retryLimit s ≤ (g.rowSlot b.slot b.row).naks) (hdown : (s.ctx b.submitter).st ≠ .down) :
    ((inboundBeat p b₀ data check s).port p).counts = (sat 64 ((s.port p).beatsIn + 1), (s.port p).tagErrors) ∧
      ((inboundBeat p b₀ data check s).ctx b.submitter).st = .resetting := by
  obtain ⟨fid, run, hfailed⟩ := inboundBeat_failed (data := data) hp hdrop hcheck hb hg hq hplace hcredit
  have hctx : (endFault (failedBeat s p check) (.port (pgPort p))).ctx b.submitter = s.ctx b.submitter := failedBeat_ctx _
  obtain ⟨hreset, hcounts⟩ := levelFour_resets (id := fid) (source := 0x0A) (first := 1) (hctx.symm ▸ hdown)
  rw [hfailed, if_pos hlim]
  exact ⟨(hcounts p).trans failedBeat_counts, hreset⟩

end

end Sys2Proof.Machine
end

section
/-! PROOFS. The credit that a splice port grants (`Obligations.SplicePortsComplete`; R123, R125). -/
namespace Sys2Proof.Machine

-- Each proof waits for the one before it: all at once would each hold a thread.
set_option Elab.async false

variable {s t : State} {g : Gyle} {p : Nat} {c : Credit} {row kind beats : Nat} {x : StreamAt} {e : GyleKey × Nat × Nat × Nat} {r : Nat}

theorem grant_credits : ((grant s p c row kind beats).port p).credits = (s.port p).credits ++ [c] := by
  rw [grant, port_of_ports (emit_ports ..), modPort_port_self]

theorem grant_outs : (grant s p c row kind beats).outs = .creditWord p (creditWord c.gk c.slot row kind beats) :: s.outs := rfl

theorem grant_gyle (k : GyleKey) : (grant s p c row kind beats).gyle k = s.gyle k :=
  gyle_of_gyles ((emit_gyles ..).trans (modPort_gyles ..)) k

/-- A part that the staging area holds whole is granted in one credit (R123). -/
theorem activationGrant_whole (hp : domainPresent s p = true) (hx : (creditPlaces s p).find? (canGrant s p) = some x)
    (hn : creditBeats x.g x.p ≤ actStage) :
    activationGrant p s = grant (stamp s) p { gk := x.g.key, slot := x.slot, kind := 0, beats := creditBeats x.g x.p } 0 0 0 := by
  simp only [activationGrant, hp, hx, if_pos hn, Bool.not_true, Bool.false_eq_true, if_false]

/-- Of a larger part a first portion is granted, of what the staging area has free (R123). -/
theorem activationGrant_portion (hp : domainPresent s p = true) (hx : (creditPlaces s p).find? (canGrant s p) = some x)
    (hn : actStage < creditBeats x.g x.p) :
    activationGrant p s =
      grant (stamp s) p { gk := x.g.key, slot := x.slot, kind := 4, beats := freeStage (s.port p) } 0 0 (freeStage (s.port p)) := by
  simp only [activationGrant, hp, hx, if_neg (Nat.not_le.mpr hn), Bool.not_true, Bool.false_eq_true, if_false, stamp_port]

theorem portionTotal_stamp : portionTotal (stamp s) e = portionTotal s e := by rw [portionTotal, stamp_gyle, portionTotal]

/-- The portions of a port once `n` beats more of one are granted. -/
def addPortion (e : GyleKey × Nat × Nat × Nat) (n : Nat) (q : Port) : Port :=
  { q with portions := q.portions.map fun x => if x = e then (e.1, e.2.1, e.2.2.1, e.2.2.2 + n) else x }

theorem portionGrant_eq (hp : domainPresent s p = true) (hfree : freeStage (s.port p) ≠ 0)
    (he : (s.port p).portions.find? (fun e => e.2.2.2 < portionTotal s e) = some e) :
    portionGrant p s =
      let n := min (freeStage (s.port p)) (portionTotal s e - e.2.2.2)
      grant (modPort (stamp s) p (addPortion e n)) p { gk := e.1, slot := e.2.1, row := some e.2.2.1, kind := 4, beats := n } e.2.2.1 4 n := by
  simp only [portionGrant, hp, hfree, he, portionTotal_stamp, Bool.not_true, Bool.false_or, decide_false, Bool.false_eq_true, if_false]
  rfl

/-- The beats of a base part that are still to be credited, as far as the base staging area has room (R125). -/
def baseBeats (s : State) (p : Nat) (x : StreamAt) (r : Nat) : Nat :=
  min (freeBase s p) (beatsOf (basePart x.g x.p) - (x.g.rowSlot x.slot r).baseCredited)

theorem baseGrant_eq (hp : domainPresent s p = true) (hfree : freeBase s p ≠ 0)
    (hx : (((streamsOn s p).find? fun x => basePartial x p).or ((streamsOn s p).find? fun x => (baseDue x p).isSome)) = some x)
    (hr : baseDue x p = some r) :
    baseGrant p s =
      grant (modGyle (stamp s) x.g.key fun g => g.modSlot x.slot r fun y => { y with baseCredited := y.baseCredited + baseBeats s p x r }) p
        { gk := x.g.key, slot := x.slot, row := some r, kind := 1, beats := baseBeats s p x r } r 1 (baseBeats s p x r) := by
  simp only [baseGrant, hp, hfree, hx, hr, Bool.not_true, Bool.false_or, decide_false, Bool.false_eq_true, if_false]
  rfl

theorem activationGrant_grants (hp : domainPresent s p = true) (hx : (creditPlaces s p).find? (canGrant s p) = some x) :
    ∃ c, ((activationGrant p s).port p).credits = (s.port p).credits ++ [c] ∧ c.gk = x.g.key ∧ c.slot = x.slot ∧ c.row = none ∧
      (creditBeats x.g x.p ≤ actStage → c.kind = 0 ∧ c.beats = creditBeats x.g x.p ∧
        (activationGrant p s).outs = .creditWord p (creditWord c.gk c.slot 0 0 0) :: s.outs) ∧
      (actStage < creditBeats x.g x.p → c.kind = 4 ∧ c.beats = freeStage (s.port p) ∧
        (activationGrant p s).outs = .creditWord p (creditWord c.gk c.slot 0 0 c.beats) :: s.outs) := by
  rcases Nat.lt_or_ge actStage (creditBeats x.g x.p) with hn | hn
  · rw [activationGrant_portion hp hx hn, grant_credits, grant_outs, stamp_port, stamp_outs]
    exact ⟨_, rfl, rfl, rfl, rfl, fun h => absurd hn (Nat.not_lt.mpr h), fun _ => ⟨rfl, rfl, rfl⟩⟩
  · rw [activationGrant_whole hp hx hn, grant_credits, grant_outs, stamp_port, stamp_outs]
    exact ⟨_, rfl, rfl, rfl, rfl, fun _ => ⟨rfl, rfl, rfl⟩, fun h => absurd h (Nat.not_lt.mpr hn)⟩

theorem portionGrant_grants (hp : domainPresent s p = true) (hfree : freeStage (s.port p) ≠ 0)
    (he : (s.port p).portions.find? (fun e => e.2.2.2 < portionTotal s e) = some e) :
    ∃ c, ((portionGrant p s).port p).credits = (s.port p).credits ++ [c] ∧
      c = { gk := e.1, slot := e.2.1, row := some e.2.2.1, kind := 4, beats := min (freeStage (s.port p)) (portionTotal s e - e.2.2.2) } ∧
      (portionGrant p s).outs = .creditWord p (creditWord c.gk c.slot e.2.2.1 4 c.beats) :: s.outs := by
  rw [portionGrant_eq hp hfree he, grant_credits, grant_outs, modPort_port_self, stamp_port, modPort_outs, stamp_outs]
  exact ⟨_, rfl, rfl, rfl⟩

theorem baseGrant_grants (hp : domainPresent s p = true) (hfree : freeBase s p ≠ 0)
    (hx : (((streamsOn s p).find? fun x => basePartial x p).or ((streamsOn s p).find? fun x => (baseDue x p).isSome)) = some x)
    (hr : baseDue x p = some r) (hg : s.gyle x.g.key = some x.g) :
    ∃ c g', ((baseGrant p s).port p).credits = (s.port p).credits ++ [c] ∧
      c = { gk := x.g.key, slot := x.slot, row := some r, kind := 1, beats := baseBeats s p x r } ∧
      (baseGrant p s).outs = .creditWord p (creditWord c.gk c.slot r 1 c.beats) :: s.outs ∧
      (baseGrant p s).gyle x.g.key = some g' ∧ (g'.rowSlot x.slot r).baseCredited = (x.g.rowSlot x.slot r).baseCredited + c.beats := by
  rw [baseGrant_eq hp hfree hx hr, grant_credits, grant_outs, grant_gyle, modGyle_outs, stamp_outs,
    port_of_ports ((modGyle_ports ..).trans (stamp_ports s)), modGyle_gyle_of_key ((stamp_gyle s _).trans hg) rfl]
  exact ⟨_, _, rfl, rfl, rfl, rfl, congrArg RowSlot.baseCredited (modSlot_rowSlot_self ..)⟩

end Sys2Proof.Machine
end

section
/-! PROOFS. The scatter of the oldest staged beat (`Obligations.SplicePortsComplete`; R100, R124). -/
namespace Sys2Proof.Machine

-- Each proof waits for the one before it: all at once would each hold a thread.
set_option Elab.async false

variable {s : State} {g : Gyle} {q : PlanSlot} {p : Nat} {b : Staged} {f : Feeder} {k : GyleKey} {slot row n : Nat}

theorem enqueue_ports (s : State) (k : GyleKey) (slot n : Nat) (ops : List Op) (rows : List Nat) : (enqueue s k slot n ops rows).ports = s.ports :=
  modGyle_ports ..

theorem holdLanes_ports (s : State) (k : GyleKey) (slot : Nat) (q : PlanSlot) (rows : List Nat) : (holdLanes s k slot q rows).ports = s.ports :=
  foldl_field (·.ports) _ (fun t r => by
    split
    · rfl
    · dsimp only
      split
      · exact modGyle_ports ..
      · rfl) _ _

/-- Placing a segment takes no beat off a port. -/
theorem placeSegment_ports (s : State) (k : GyleKey) (row slot : Nat) : (placeSegment s k row slot).ports = s.ports := by
  fun_cases placeSegment s k row slot
  case case3 => exact modGyle_ports ..
  case case4 =>
    refine (holdLanes_ports ..).trans ((foldl_field (·.ports) _ (fun t x => ?_) _ _).trans ((modGyle_ports ..).trans (modGyle_ports ..)))
    exact foldl_field (·.ports) _ (fun u grp => enqueue_ports ..) _ _
  all_goals rfl

/-- A lane's feeder reads ahead, and drained rank values go where banks have come free: both in the lane's tun. -/
theorem settleRanks_runFeeder (s : State) (n lane ran ahead : Nat) :
    (settleRanks (runFeeder s n lane ran ahead) n).gyles = s.gyles ∧ (settleRanks (runFeeder s n lane ran ahead) n).ports = s.ports := ⟨rfl, rfl⟩

/-- What a scatter does where the row's gyle and slot are there: the beat is written or held (R100, R124). -/
theorem scatterWrite_eq (hb : scatterHead (s.port p) = some b) (hg : (placeSegment (stamp s) b.gk b.row b.slot).gyle b.gk = some g)
    (hq : g.plan.slots[b.slot]? = some q) :
    let s1 := placeSegment (stamp s) b.gk b.row b.slot
    let x := g.rowSlot b.slot b.row
    let s2 := settleRanks (runFeeder s1 x.tun (laneOf g b.row) f.ran f.ahead.val) x.tun
    scatterWrite p f s =
      if x.localDone then writeBeat s1 p b
      else if bankBusy s2 x.tun (laneOf g b.row) (beatBank x.tun (laneOf g b.row) b) || !laneRoom s2 g q b.slot b.row then holdBeat s2 p b
      else writeBeat s2 p b := by
  simp only [scatterWrite, hb, hg, hq]

/-- A beat that is unstaged waits for its lane no longer. -/
theorem unstage_staged {y : Staged} (hy : y ∈ ((unstage s p b).port p).staged) (hlane : y.lane = true) : y ≠ b := by
  rw [unstage, modPort_port_self] at hy
  obtain ⟨x, -, rfl⟩ := List.mem_map.mp (List.mem_of_mem_filter hy)
  split at hlane
  · exact absurd hlane Bool.false_ne_true
  · rwa [if_neg ‹_›]

/-- A beat that is written leaves the staging area and is one more of its row-slot (R124). -/
theorem writeBeat_writes (hg : s.gyle b.gk = some g) :
    (∀ y ∈ ((writeBeat s p b).port p).staged, y.lane = true → y ≠ b) ∧
      ∃ g', (writeBeat s p b).gyle b.gk = some g' ∧ (g'.rowSlot b.slot b.row).written = (g.rowSlot b.slot b.row).written + 1 ∧
        (g'.rowSlot b.slot b.row).present = ((g.rowSlot b.slot b.row).present || b.last) := by
  have hfound : (unstage s p b).gyle b.gk = some g := (gyle_of_gyles (modPort_gyles ..) _).trans hg
  refine ⟨fun y hy => ?_, _, modGyle_gyle_of_key hfound rfl, ?_, ?_⟩
  · rw [writeBeat, port_of_ports (modGyle_ports ..)] at hy
    exact unstage_staged hy
  · rw [modSlot_rowSlot_self]
  · rw [modSlot_rowSlot_self]

/-- A beat that is held stays staged, and is counted the first time (R124). -/
theorem holdBeat_holds (hb : b ∈ (s.port p).staged) :
    { b with held := true } ∈ ((holdBeat s p b).port p).staged ∧ (holdBeat s p b).gyles = s.gyles ∧
      ((holdBeat s p b).port p).creditHolds = if b.held then (s.port p).creditHolds else sat 32 ((s.port p).creditHolds + 1) := by
  unfold holdBeat
  by_cases hheld : b.held = true
  · have hsame : { b with held := true } = b := by rw [← hheld]
    rw [if_pos hheld, if_pos hheld, hsame]
    exact ⟨hb, rfl, rfl⟩
  · rw [if_neg hheld, if_neg hheld, modPort_port_self]
    exact ⟨List.mem_map.mpr ⟨b, hb, if_pos rfl⟩, modPort_gyles .., rfl⟩

section
variable (hb : scatterHead (s.port p) = some b) (hg : (placeSegment (stamp s) b.gk b.row b.slot).gyle b.gk = some g)
  (hq : g.plan.slots[b.slot]? = some q)
include hb hg hq

/-- The beat is written: its row needs its lane no longer, or nothing keeps it. -/
theorem scatterWrite_writes :
    let s1 := placeSegment (stamp s) b.gk b.row b.slot
    let x := g.rowSlot b.slot b.row
    let s2 := settleRanks (runFeeder s1 x.tun (laneOf g b.row) f.ran f.ahead.val) x.tun
    x.localDone = true ∨ ¬ (bankBusy s2 x.tun (laneOf g b.row) (beatBank x.tun (laneOf g b.row) b) = true ∨ laneRoom s2 g q b.slot b.row = false) →
    (∀ y ∈ ((scatterWrite p f s).port p).staged, y.lane = true → y ≠ b) ∧
      ∃ g', (scatterWrite p f s).gyle b.gk = some g' ∧ (g'.rowSlot b.slot b.row).written = x.written + 1 ∧
        (g'.rowSlot b.slot b.row).present = (x.present || b.last) := by
  intro s1 x s2 hwrite
  have hg2 : s2.gyle b.gk = some g := (gyle_of_gyles (settleRanks_runFeeder ..).1 _).trans hg
  have heq := scatterWrite_eq (f := f) hb hg hq
  by_cases hdone : x.localDone = true
  · rw [heq, if_pos hdone]
    exact writeBeat_writes hg
  · have hfree := hwrite.resolve_left hdone
    rw [heq, if_neg hdone, if_neg (by simpa using hfree)]
    exact writeBeat_writes hg2

/-- The beat is held: its lane's next read is to its bank, or the lane has no room. -/
theorem scatterWrite_holds :
    let s1 := placeSegment (stamp s) b.gk b.row b.slot
    let x := g.rowSlot b.slot b.row
    let s2 := settleRanks (runFeeder s1 x.tun (laneOf g b.row) f.ran f.ahead.val) x.tun
    x.localDone = false → bankBusy s2 x.tun (laneOf g b.row) (beatBank x.tun (laneOf g b.row) b) = true ∨ laneRoom s2 g q b.slot b.row = false →
    { b with held := true } ∈ ((scatterWrite p f s).port p).staged ∧ (scatterWrite p f s).gyles = s1.gyles ∧
      ((scatterWrite p f s).port p).creditHolds = if b.held then (s.port p).creditHolds else sat 32 ((s.port p).creditHolds + 1) := by
  intro s1 x s2 hdone hwaits
  have hports : s2.ports = s.ports := ((settleRanks_runFeeder ..).2.trans (placeSegment_ports ..)).trans (stamp_ports s)
  have hstaged : b ∈ (s2.port p).staged := by
    rw [port_of_ports hports]
    exact List.mem_of_find?_eq_some hb
  have heq := scatterWrite_eq (f := f) hb hg hq
  have hbusy : (bankBusy s2 x.tun (laneOf g b.row) (beatBank x.tun (laneOf g b.row) b) || !laneRoom s2 g q b.slot b.row) = true := by
    simpa using hwaits
  rw [heq, if_neg (Bool.eq_false_iff.mp hdone), if_pos hbusy, ← port_of_ports hports]
  obtain ⟨hheld, hgyles, hcount⟩ := holdBeat_holds hstaged
  exact ⟨hheld, hgyles.trans (settleRanks_runFeeder ..).1, hcount⟩

end

end Sys2Proof.Machine
end

section
/-! PROOFS. The parts that a splice port sends (`Obligations.SplicePortsComplete`; R126 to R128, R438). -/
namespace Sys2Proof.Machine

-- Each proof waits for the one before it: all at once would each hold a thread.
set_option Elab.async false

variable {s t : State} {g : Gyle} {q : PlanSlot} {p slot row : Nat} {x : StreamAt} {y : PartOut} {b : BeatTag} {r : Nat}

/-! ### A part that is started -/

theorem sendBeats_outs : (sendBeats s p g q slot row).outs =
    (outBeats p g q slot row (g.rowSlot slot row).outBeats (outReady g q (g.rowSlot slot row)) (g.rowSlot slot row)).reverse ++ s.outs := by
  unfold sendBeats
  rw [modGyle_outs, modPort_outs, emitAll]

theorem sendBeats_openOut : ((sendBeats s p g q slot row).port p).openOut =
    if outReady g q (g.rowSlot slot row) < outTotal g q then some (g.key, slot, row) else none := by
  unfold sendBeats
  rw [port_of_ports (modGyle_ports ..), modPort_port_self]

/-- What a port sends of a part: the beats that are ready; the port stays with the part until its last beat. -/
theorem sendBeats_sends (hg : s.gyle g.key = some g) :
    let x := g.rowSlot slot row
    (sendBeats s p g q slot row).outs = (outBeats p g q slot row x.outBeats (outReady g q x) x).reverse ++ s.outs ∧
      (∃ g', (sendBeats s p g q slot row).gyle g.key = some g' ∧
        (g'.rowSlot slot row).out = if outReady g q x < outTotal g q then .sending else .sent) ∧
      ((sendBeats s p g q slot row).port p).openOut = if outReady g q x < outTotal g q then some (g.key, slot, row) else none := by
  obtain ⟨g', hg', hslots, -⟩ := sendBeats_gyle (port := p) (p := q) (slot := slot) (row := row) hg
  refine ⟨sendBeats_outs, ⟨g', hg', ?_⟩, sendBeats_openOut⟩
  rw [Gyle.rowSlot, hslots, ← sentBeats_out]
  rfl

theorem partSend_eq (hp : domainPresent s p = true) (hopen : (s.port p).openOut = none)
    (hx : (streamsOn s p).find? (fun x => (readyPart x p).isSome) = some x) (hr : readyPart x p = some r) :
    partSend p s = sendPart (stamp s) p x r := by
  simp only [partSend, hp, hopen, hx, hr, Bool.not_true, Option.isSome_none, Bool.or_self, Bool.false_eq_true, if_false]

/-- Reading a part from the spill area emits nothing and changes no gyle. -/
theorem sendPart_eq : ∃ t, t.outs = s.outs ∧ t.gyles = s.gyles ∧ sendPart s p x r = sendBeats t p x.g x.p x.slot r := by
  unfold sendPart
  split
  · exact ⟨_, startXfer_outs .., startXfer_gyles .., rfl⟩
  · exact ⟨s, rfl, rfl, rfl⟩

theorem partSend_sends (hp : domainPresent s p = true) (hopen : (s.port p).openOut = none)
    (hx : (streamsOn s p).find? (fun x => (readyPart x p).isSome) = some x) (hr : readyPart x p = some r) (hg : s.gyle x.g.key = some x.g) :
    let y := x.g.rowSlot x.slot r
    (partSend p s).outs = (outBeats p x.g x.p x.slot r y.outBeats (outReady x.g x.p y) y).reverse ++ s.outs ∧
      (∃ g', (partSend p s).gyle x.g.key = some g' ∧
        (g'.rowSlot x.slot r).out = if outReady x.g x.p y < outTotal x.g x.p then .sending else .sent) ∧
      ((partSend p s).port p).openOut = if outReady x.g x.p y < outTotal x.g x.p then some (x.g.key, x.slot, r) else none := by
  obtain ⟨t, houts, hgyles, heq⟩ := sendPart_eq (s := stamp s) (p := p) (x := x) (r := r)
  have hfound : t.gyle x.g.key = some x.g := (gyle_of_gyles (hgyles.trans (stamp_gyles s)) _).trans hg
  rw [partSend_eq hp hopen hx hr, heq, ← stamp_outs s, ← houts]
  exact sendBeats_sends hfound

/-! ### A part that is rejected -/

/-- The state in which the rejection of a part has opened its fault, at its event. -/
def rejectedPart (s : State) (p : Nat) : State := startFault (stamp s) (.port (pgPort p)) 0x0A 1 []

theorem rejectedPart_outs : (rejectedPart s p).outs = s.outs := (startFault_outs ..).trans (stamp_outs s)

theorem rejectedPart_ctx (c : Nat) : (rejectedPart s p).ctx c = s.ctx c := ctx_of_ctxs ((startFault_ctxs ..).trans (stamp_ctxs s)) c

theorem rejectedPart_retryLimit : retryLimit (rejectedPart s p) = retryLimit s := by simp [rejectedPart, retryLimit, regFld, reg]

section
variable (hy : (s.port p).sending.find? (·.named b) = some y) (hg : s.gyle y.gk = some g) (hq : g.plan.slots[y.slot]? = some q)
include hy hg hq

theorem outboundNak_eq : ∃ fid, outboundNak p b s =
    if retryLimit s ≤ y.naks then levelFour (endFault (rejectedPart s p) (.port (pgPort p))) y.gk.owner fid 0x0A 1
    else emitAll
      (modPort (rejectedPart s p) p fun z => { z with
        beatsOut := sat 64 (z.beatsOut + y.beats)
        sending := (z.sending.filter fun w => !w.named b) ++ [{ y with naks := y.naks + 1 }] })
      (outBeats p g q y.slot y.row 0 y.beats (g.rowSlot y.slot y.row)) := by
  rw [← rejectedPart_retryLimit (s := s) (p := p)]
  simp only [outboundNak, hy, hg, hq]
  exact ⟨_, rfl⟩

/-- The whole part is sent again, and counts one more rejection (R438). -/
theorem outboundNak_repeats (hlim : y.naks < retryLimit s) :
    { y with naks := y.naks + 1 } ∈ ((outboundNak p b s).port p).sending ∧
      (outboundNak p b s).outs = (outBeats p g q y.slot y.row 0 y.beats (g.rowSlot y.slot y.row)).reverse ++ s.outs := by
  obtain ⟨fid, heq⟩ := outboundNak_eq hy hg hq
  rw [heq, if_neg (Nat.not_le.mpr hlim)]
  constructor
  · rw [show ∀ u os, (emitAll u os).port p = u.port p from fun _ _ => rfl, modPort_port_self]
    exact List.mem_append_right _ (List.mem_singleton.mpr rfl)
  · rw [emitAll, modPort_outs, rejectedPart_outs]

/-- The last repetition is rejected: level 4 for the context (R438). -/
theorem outboundNak_exhausted (hlim : retryLimit s ≤ y.naks) (hdown : (s.ctx y.gk.owner).st ≠ .down) :
    ((outboundNak p b s).ctx y.gk.owner).st = .resetting := by
  obtain ⟨fid, heq⟩ := outboundNak_eq hy hg hq
  have hctx : (endFault (rejectedPart s p) (.port (pgPort p))).ctx y.gk.owner = s.ctx y.gk.owner := rejectedPart_ctx _
  rw [heq, if_pos hlim]
  exact (levelFour_resets (hctx.symm ▸ hdown)).1

end

end Sys2Proof.Machine
end

section
/-! PROOFS. The end of a part that a splice port has sent (`Obligations.SplicePortsComplete`; R126, R129, R438). -/
namespace Sys2Proof.Machine

-- Each proof waits for the one before it: all at once would each hold a thread.
set_option Elab.async false

variable {s₀ s t : State} {k j : GyleKey} {g : Gyle} {p slot row a r : Nat} {x : PartOut} {rest : List PartOut}

/-! ### Departure space stays released -/

/-- A row-slot of a gyle has nothing left to send to a home, and no departure space. -/
def RowIdle (k : GyleKey) (slot row : Nat) (s : State) : Prop :=
  ∃ g, s.gyle k = some g ∧ (g.rowSlot slot row).farUnsent = [] ∧ (g.rowSlot slot row).reserved = false

theorem RowIdle.of_gyles (h : RowIdle k slot row s) (hgyles : t.gyles = s.gyles) : RowIdle k slot row t := by
  rwa [RowIdle, gyle_of_gyles hgyles]

protected theorem RowIdle.modGyle {f} (h : RowIdle k slot row s) (hf : j = k → ∀ g : Gyle, (f g).rowSlot slot row = g.rowSlot slot row) :
    RowIdle k slot row (modGyle s j f) := by
  obtain ⟨g, hg, hunsent, hreserved⟩ := h
  by_cases hj : k = j
  · subst hj
    have hrow := hf rfl g
    exact ⟨_, modGyle_gyle_self f hg, (congrArg RowSlot.farUnsent hrow).trans hunsent, (congrArg RowSlot.reserved hrow).trans hreserved⟩
  · exact ⟨g, (modGyle_gyle_ne _ _ hj).trans hg, hunsent, hreserved⟩

theorem modSlot_rowSlot_ne {f : RowSlot → RowSlot} (hne : slotKey a r ≠ slotKey slot row) (g : Gyle) :
    (g.modSlot a r f).rowSlot slot row = g.rowSlot slot row := tget_tmod_ne _ _ _ hne.symm

/-- Another row-slot reserves departure space. -/
protected theorem RowIdle.reserve {head} (h : RowIdle k slot row s) (hne : j = k → slotKey a r ≠ slotKey slot row)
    (ht : reserve s j a r head = some t) : RowIdle k slot row t := by
  revert ht
  fun_cases reserve s j a r head <;> rintro ⟨⟩
  · exact h
  · refine RowIdle.modGyle ?_ fun hj => modSlot_rowSlot_ne (hne hj)
    exact h.of_gyles rfl
  · refine RowIdle.modGyle ?_ fun hj => modSlot_rowSlot_ne (hne hj)
    exact h.of_gyles rfl

/-- Only a row-slot with homes still to be sent to reserves space for it. -/
protected theorem RowIdle.sendFarRow (h : RowIdle k slot row s) : RowIdle k slot row (sendFarRow s j a r) := by
  fun_cases sendFarRow s j a r
  case case5 g hg q hq x hunsent s1 hs1 n s2 s3 s4 =>
    have hne : j = k → slotKey a r ≠ slotKey slot row := by
      rintro rfl hkey
      obtain ⟨g1, hg1, hidle, -⟩ := h
      obtain rfl : g1 = g := Option.some.inj (hg1.symm.trans hg)
      simp [x, Gyle.rowSlot, hkey] at hunsent
      exact absurd hidle hunsent.1
    have h2 : RowIdle k slot row s2 :=
      List.foldlRecOn _ _ (motive := fun u => RowIdle k slot row u) (h.reserve hne hs1) fun u hu _ _ =>
        hu.of_gyles ((farRowsTo_gyles ..).trans (stamp_gyles u))
    have h4 : RowIdle k slot row s4 := h2.of_gyles rfl
    refine h4.modGyle fun hj g => (modSlot_rowSlot_ne (hne hj) _).trans ?_
    split <;> rfl
  all_goals exact h

protected theorem RowIdle.sendFarRows (h : RowIdle k slot row s) : RowIdle k slot row (sendFarRows s) :=
  List.foldlRecOn _ _ (motive := fun u => RowIdle k slot row u) h fun _ hu g _ =>
    List.foldlRecOn g.slots _ (motive := fun u => RowIdle k slot row u) hu fun _ hv _ _ => by
      split
      · exact hv
      · exact hv.sendFarRow

/-! ### A gyle that drains -/

theorem farClose_gyles (s : State) (g : Gyle) : (farClose s g).gyles = s.gyles :=
  foldl_field (·.gyles) _ (fun _ _ => sendMsg_gyles ..) _ _

theorem farClose_ports (s : State) (g : Gyle) : (farClose s g).ports = s.ports :=
  foldl_field (·.ports) _ (fun _ _ => sendMsg_ports ..) _ _

theorem setGyle_gyle_of_key {g' : Gyle} (hk : g'.key = k) : (setGyle s g').gyle k = some g' := by rw [← hk, setGyle_gyle_self]

theorem postGyle_ports (s : State) (k : GyleKey) : (postGyle s k).ports = s.ports := by
  fun_cases postGyle s k
  · rfl
  · rfl
  · exact postRecord_ports ..

theorem postGyle_gyle (hg : s.gyle k = some g) : ∃ g', (postGyle s k).gyle k = some g' ∧ g'.st = g.st ∧ g'.slots = g.slots := by
  have hk := gyle_key hg
  cases hsq : g.closeSq with
  | none =>
    simp only [postGyle, hg, hsq]
    exact ⟨g, rfl, rfl, rfl⟩
  | some sq =>
    simp only [postGyle, hg, hsq]
    exact ⟨_, (gyle_of_gyles (postRecord_gyles ..) k).trans (setGyle_gyle_of_key hk), rfl, rfl⟩

theorem drainGyle_ports (s : State) (k : GyleKey) : (drainGyle s k).ports = s.ports := by
  fun_cases drainGyle s k with
  | case1 => rfl
  | case2 => exact (postGyle_ports ..).trans ((stamp_ports _).trans ((farClose_ports ..).trans (stamp_ports s)))
  | case3 => exact (startXfer_ports ..).trans ((farClose_ports ..).trans (stamp_ports s))

/-- The gyle as it drains, in the state of its draining event. -/
def Gyle.drain (g : Gyle) (s : State) : Gyle := { g with st := .drained, drainedSeq := s.gauger.seq }

theorem drainGyle_eq (hg : s.gyle k = some g) : drainGyle s k =
    let g' := g.drain (stamp s)
    let t := farClose (setGyle (stamp s) g') g'
    if g'.accountAddr = 0 then postGyle (stamp t) k
    else startXfer t (.account k.owner k.num) true g'.accountAddr (128 + 16 * (planLayers g'.plan).length) (accountBytes g') := by
  rw [drainGyle, hg]
  rfl

/-- A gyle that drains keeps its row-slots. -/
theorem drainGyle_gyle (hg : s.gyle k = some g) : ∃ g', (drainGyle s k).gyle k = some g' ∧ g'.st = .drained ∧ g'.slots = g.slots := by
  have hkey := gyle_key hg
  have hk : (g.drain (stamp s)).key = k := hkey
  have hclosed : (farClose (setGyle (stamp s) (g.drain (stamp s))) (g.drain (stamp s))).gyle k = some (g.drain (stamp s)) :=
    (gyle_of_gyles (farClose_gyles ..) k).trans (setGyle_gyle_of_key hk)
  rw [drainGyle_eq hg]
  extract_lets g1 t
  split
  · exact postGyle_gyle ((stamp_gyle t k).trans hclosed)
  · exact ⟨g1, (gyle_of_gyles (startXfer_gyles ..) k).trans hclosed, rfl, rfl⟩

/-! ### A part that has left -/

protected theorem TrafficStands.freeResv (h : TrafficStands s₀ s) : TrafficStands s₀ (freeResv s k slot row) := by
  fun_cases freeResv s k slot row
  · exact h
  · exact h
  next s1 =>
    have h1 : TrafficStands s₀ s1 := by
      unfold s1
      split
      · exact h.same
      · exact h.modPort
    exact h1.modGyle fun _ => Gyle.TrafficStands.modSlot {}

/-- A row-slot whose departure space is released has none; what it has still to send to its homes stands. -/
theorem freeResv_gyle (hg : s.gyle k = some g) : ∃ g', (freeResv s k slot row).gyle k = some g' ∧ g'.st = g.st ∧
    (g'.rowSlot slot row).reserved = false ∧ (g'.rowSlot slot row).farUnsent = (g.rowSlot slot row).farUnsent := by
  by_cases hreserved : (g.rowSlot slot row).reserved = true
  · simp only [freeResv, hg, hreserved, Bool.not_true, Bool.false_eq_true, if_false]
    refine ⟨_, modGyle_gyle_of_key (g := g) ?_ rfl, rfl, ?_, ?_⟩
    · split
      · exact hg
      · exact (gyle_of_gyles (modPort_gyles ..) k).trans hg
    · rw [modSlot_rowSlot_self]
    · rw [modSlot_rowSlot_self]
  · rw [Bool.not_eq_true] at hreserved
    simp only [freeResv, hg, hreserved, Bool.not_false, if_true]
    exact ⟨g, rfl, rfl, hreserved, rfl⟩

/-- The state in which the part `x` is off its port, its space is released, and its row-slot has left. -/
def partGone (s : State) (p : Nat) (x : PartOut) (rest : List PartOut) : State :=
  modGyle (freeResv (modPort (stamp s) p fun q => { q with sending := rest }) x.gk x.slot x.row) x.gk fun g =>
    g.modSlot x.slot x.row fun y => { y with out := .left, laneHeld := false, rankRoom := 0, backRoom := 0 }

theorem partGone_sending : ((partGone s p x rest).port p).sending = rest := by
  have hstands := (TrafficStands.refl (modPort (stamp s) p fun q => { q with sending := rest })).freeResv (k := x.gk) (slot := x.slot) (row := x.row)
  rw [partGone, port_of_ports (modGyle_ports ..)]
  exact (congrArg Prod.snd (hstands.port p)).trans (congrArg Port.sending (modPort_port_self ..))

theorem partGone_gyle (hg : s.gyle x.gk = some g) : ∃ g', (partGone s p x rest).gyle x.gk = some g' ∧ g'.st = g.st ∧
    (g'.rowSlot x.slot x.row).out = .left ∧ (g'.rowSlot x.slot x.row).reserved = false ∧
    (g'.rowSlot x.slot x.row).farUnsent = (g.rowSlot x.slot x.row).farUnsent := by
  have hfound : (modPort (stamp s) p fun q => { q with sending := rest }).gyle x.gk = some g :=
    (gyle_of_gyles ((modPort_gyles ..).trans (stamp_gyles s)) _).trans hg
  obtain ⟨g1, hg1, hst, hreserved, hunsent⟩ := freeResv_gyle (slot := x.slot) (row := x.row) hfound
  refine ⟨_, modGyle_gyle_of_key hg1 rfl, hst, ?_⟩
  rw [modSlot_rowSlot_self]
  exact ⟨rfl, hreserved, hunsent⟩

/-- The state in which the far rows that waited for departure space have tried again. -/
def farRetried (s : State) (p : Nat) (x : PartOut) (rest : List PartOut) : State := sendFarRows (endSpliceFault (partGone s p x rest) p)

theorem farRetried_stands : TrafficStands (partGone s p x rest) (farRetried s p x rest) := (TrafficStands.refl _).endSpliceFault.sendFarRows

theorem farRetried_idle (h : RowIdle k slot row (partGone s p x rest)) : RowIdle k slot row (farRetried s p x rest) := by
  obtain ⟨integrity, heq⟩ := endSpliceFault_only (partGone s p x rest) p
  have hgyles : (endSpliceFault (partGone s p x rest) p).gyles = (partGone s p x rest).gyles := by rw [heq]
  exact (h.of_gyles hgyles).sendFarRows

theorem farRetried_gyle (hg : s.gyle x.gk = some g) : ∃ g', (farRetried s p x rest).gyle x.gk = some g' ∧ g'.st = g.st ∧
    (g'.rowSlot x.slot x.row).out = .left ∧ ((g.rowSlot x.slot x.row).farUnsent = [] → (g'.rowSlot x.slot x.row).reserved = false) := by
  obtain ⟨g1, hg1, hst, hout, hreserved, hunsent⟩ := partGone_gyle (p := p) (rest := rest) hg
  obtain ⟨g2, hg2, hstands⟩ := farRetried_stands.gyle _ _ hg1
  have hout2 : (g2.rowSlot x.slot x.row).out = (g1.rowSlot x.slot x.row).out :=
    congrArg (fun y : List Byte × List Byte × List Byte × OutState => y.2.2.2) (hstands.rowSlot x.slot x.row)
  refine ⟨g2, hg2, hstands.st.trans hst, hout2.trans hout, fun hempty => ?_⟩
  obtain ⟨g3, hg3, -, hreleased⟩ := farRetried_idle ⟨g1, hg1, hunsent.trans hempty, hreserved⟩
  obtain rfl : g3 = g2 := Option.some.inj (hg3.symm.trans hg2)
  exact hreleased

theorem partLeft_eq (hx : (s.port p).sending = x :: rest) (hg : (farRetried s p x rest).gyle x.gk = some g) :
    partLeft p s = if g.st = .running && allLeft g then drainGyle (farRetried s p x rest) x.gk else farRetried s p x rest := by
  unfold farRetried partGone at *
  simp only [partLeft, hx, hg]

/-- The oldest sent part has left; the gyle drains with its last one. -/
theorem partLeft_leaves (hx : (s.port p).sending = x :: rest) (hg : s.gyle x.gk = some g) : ((partLeft p s).port p).sending = rest ∧
    ∃ g', (partLeft p s).gyle x.gk = some g' ∧ (g'.rowSlot x.slot x.row).out = .left ∧
      ((g.rowSlot x.slot x.row).farUnsent = [] → (g'.rowSlot x.slot x.row).reserved = false) ∧
      (g.st = .running → allLeft g' = true → g'.st = .drained) := by
  obtain ⟨g1, hg1, hst, hout, hreserved⟩ := farRetried_gyle (p := p) (rest := rest) hg
  have hsending : ((farRetried s p x rest).port p).sending = rest := (congrArg Prod.snd (farRetried_stands.port p)).trans partGone_sending
  rw [partLeft_eq hx hg1]
  split
  next hlast =>
    obtain ⟨g2, hg2, hdrained, hslots⟩ := drainGyle_gyle hg1
    have hrow : g2.rowSlot x.slot x.row = g1.rowSlot x.slot x.row := by rw [Gyle.rowSlot, hslots, Gyle.rowSlot]
    rw [port_of_ports (drainGyle_ports ..)]
    exact ⟨hsending, g2, hg2, hrow ▸ hout, fun h => hrow ▸ hreserved h, fun _ _ => hdrained⟩
  next hmore => exact ⟨hsending, g1, hg1, hout, hreserved, fun hrun hall => absurd (by simp [hst, hrun, hall]) hmore⟩

end Sys2Proof.Machine
end

open Sys2Proof Sys2Proof.Machine in
/-- Settles O47: each event of a port is taken apart by the cases of its definition; what follows a beat or a departure in the same step
(placement, substitution, far rows, teardown) leaves the counts, the bytes that have come in and the outbound states alone. -/
theorem splicePortsComplete : Obligations.SplicePortsComplete := by
  unfold Obligations.SplicePortsComplete
  intro p s
  refine ⟨?activation, ?portion, ?base, ?inbound, ?scatter, ?send, ?rejected, ?left⟩
  case activation =>
    intro x hp hx
    obtain ⟨c, hgrant⟩ := activationGrant_grants hp hx
    exact ⟨activationGrant p s, c, rfl, hgrant⟩
  case portion =>
    intro e hp hfree he
    obtain ⟨c, hgrant⟩ := portionGrant_grants hp hfree he
    exact ⟨portionGrant p s, c, rfl, hgrant⟩
  case base =>
    intro x r hp hfree hx hr hg
    obtain ⟨c, g', hgrant⟩ := baseGrant_grants hp hfree hx hr hg
    exact ⟨baseGrant p s, c, g', rfl, hgrant⟩
  case inbound =>
    intro b data hp
    refine ⟨?accepted, ?stray, ?refused, ?withdrawn, ?dropped, ?failed⟩
    case accepted =>
      intro g q hdrop hg hplace hq hturn
      obtain ⟨hcounts, g', hg', hst, hbytes⟩ := inboundBeat_accepted (data := data) hp hdrop hg hplace hq hturn
      obtain ⟨hin, herrors⟩ := Prod.mk.inj ((hcounts p).trans countedBeat_counts)
      exact ⟨inboundBeat p b data .ok s, g', rfl, hin, herrors, hg', hst, joins_of_takeBeat hbytes⟩
    case stray =>
      intro hdrop hwithdrawn hg
      obtain ⟨hcounts, hstand⟩ := inboundBeat_stray (data := data) hp hdrop hwithdrawn hg
      obtain ⟨hin, herrors⟩ := Prod.mk.inj hcounts
      exact ⟨inboundBeat p b data .ok s, rfl, hin, herrors, hstand⟩
    case refused =>
      intro g hdrop hwithdrawn hg hbad
      obtain ⟨hcounts, hfaults⟩ := inboundBeat_refused (data := data) hp hdrop hwithdrawn hg hbad
      obtain ⟨hin, herrors⟩ := Prod.mk.inj hcounts
      exact ⟨inboundBeat p b data .ok s, rfl, hin, herrors, hfaults⟩
    case withdrawn =>
      intro hdrop hwithdrawn
      obtain ⟨hcounts, hstand⟩ := inboundBeat_withdrawn (data := data) hp hdrop hwithdrawn
      obtain ⟨hin, herrors⟩ := Prod.mk.inj hcounts
      exact ⟨inboundBeat p b data .ok s, rfl, hin, herrors, hstand⟩
    case dropped =>
      intro check hdrop
      obtain ⟨hcounts, hstand⟩ := inboundBeat_dropped (b := b) (data := data) (check := check) hp hdrop
      obtain ⟨hin, herrors⟩ := Prod.mk.inj hcounts
      exact ⟨inboundBeat p b data check s, rfl, hin, herrors, hstand⟩
    case failed =>
      intro check g q hcheck hdrop b' hg hq hplace hcredit
      refine ⟨fun hlim => ?_, fun hlim hdown => ?_⟩
      · obtain ⟨hcounts, houts, g', hg', hnaks⟩ := inboundBeat_resends (data := data) hp hdrop hcheck rfl hg hq hplace hcredit hlim
        exact ⟨inboundBeat p b data check s, g', rfl, congrArg Prod.fst hcounts, houts, hg', hnaks⟩
      · obtain ⟨hcounts, hreset⟩ := inboundBeat_exhausted (data := data) hp hdrop hcheck rfl hg hq hplace hcredit hlim hdown
        exact ⟨inboundBeat p b data check s, rfl, congrArg Prod.fst hcounts, hreset⟩
  case scatter =>
    intro f b g q hb hg hq s1 x lane s2 waits
    refine ⟨fun hwrite => ?_, fun hdone hwaits => ?_⟩
    · obtain ⟨hgone, g', hg', hrow⟩ := scatterWrite_writes (f := f) hb hg hq hwrite
      exact ⟨scatterWrite p f s, g', rfl, hgone, hg', hrow⟩
    · exact ⟨scatterWrite p f s, rfl, scatterWrite_holds (f := f) hb hg hq hdone hwaits⟩
  case send =>
    intro x r hp hopen hx hr hg y
    obtain ⟨houts, ⟨g', hg', hout⟩, hport⟩ := partSend_sends hp hopen hx hr hg
    exact ⟨partSend p s, g', rfl, houts, hg', hout, hport⟩
  case rejected =>
    intro b x g q hx hg hq
    refine ⟨fun hlim => ?_, fun hlim hdown => ?_⟩
    · exact ⟨outboundNak p b s, rfl, outboundNak_repeats hx hg hq hlim⟩
    · exact ⟨outboundNak p b s, rfl, outboundNak_exhausted hx hg hq hlim hdown⟩
  case left =>
    intro x rest g hx hg
    obtain ⟨hsending, g', hleft⟩ := partLeft_leaves hx hg
    exact ⟨partLeft p s, g', rfl, hsending, hleft⟩

section
/-! PROOFS. Why `Obligations.TrainingEndsComplete` fails: `TRAIN_COMMIT` reserves its cask indices before its commit is recorded, and a
victim that gives one may first send the only copy of a tensor back to T4, at an event of its own. -/
namespace Sys2Proof.Machine

/-- The work of the tiers and casks leaves the training state. -/
theorem CellarWork.train {s t : State} (h : CellarWork s t) : t.train = s.train := by
  induction h with
  | refl => rfl
  | other _ ih => exact ih
  | t4Gone _ ih =>
    rw [modVerOf_places]
    exact ih

/-! ### A commit whose index comes from the only copy of a tensor -/

/-- A `TRAIN_COMMIT` of gyle 3. -/
def lastIndexCommit : Desc := { opcode := 0x21, gyle := 3 }

/-- A held training gyle that has touched one adapter. -/
def heldTraining : Gyle := { key := ownGyle 0 3, kind := .training, held := true, touched := [7] }

/-- An accepted commit of another gyle, which holds every cask index but one for its adapters. -/
def indexCommit : Commit := { gk := ownGyle 1 0, indices := 4095 }

/-- A block in the single-home regime without a T2 region: the last cask index is that of an unheld cask which is the only home of a
tensor, and `TRAIN_COMMIT` is at the front of context 0. -/
def lastIndex : State :=
  let s : State := {
    cat := { adapters := [(8, { current := 1, versions := [soleVersion] })] }
    gyles := [heldTraining]
    train := { commits := [indexCommit] }
    cellar := { casks := [(0, soleCask)] }
    tiers := { singleHome := true } }
  setCtx s 0 { st := .running, cqResv := 1, front := some { desc := some lastIndexCommit, image := some [] } }

theorem lastIndex_taken : Taken lastIndex 0 0x21 { desc := some lastIndexCommit, image := some [] } lastIndexCommit [] := by decide

/-- The state in which the commit takes its index. -/
def lastIndexTaken : State := setGyle (stamp lastIndex) { heldTraining with commitAccepted := true }

theorem makeIndices_lastIndex : makeIndices lastIndexTaken 1 [7] = refreshHolds (evictRaw lastIndexTaken 0) := by
  unfold makeIndices
  have hvictims : (indexVictims lastIndexTaken [7]).take
      (lastIndexTaken.cellar.casks.length + indicesHeld lastIndexTaken + 1 - 4096 - comingIndices lastIndexTaken) = [0] := by decide
  rw [hvictims]
  rfl

theorem seq_lt_makeIndices_lastIndex : (stamp lastIndex).gauger.seq < (makeIndices lastIndexTaken 1 [7]).gauger.seq := by
  have hevict : lastIndexTaken.gauger.seq < (evictRaw lastIndexTaken 0).gauger.seq :=
    seq_lt_evictRaw (ver := soleVersion) (by decide) (by decide) (by decide) (by decide) (by decide) (by decide) (by decide)
  have hs : SeqReserved lastIndexTaken := by decide
  rw [makeIndices_lastIndex]
  exact hevict.trans_le (((Keeps.refl _).refreshHolds).seq (((Keeps.refl _).evictRaw.seq hs).1)).2

theorem trainCommit_lastIndex : trainCommit 0 lastIndex =
    acceptCommit 0 { desc := some lastIndexCommit, image := some [] } lastIndexCommit (stamp lastIndex) := by
  rw [trainCommit, onFront_of_taken lastIndex_taken]
  rfl

/-- The commit that joins the one before it bears the sequence at which its index was there. -/
theorem trainCommit_lastIndex_commits : ∀ x ∈ (trainCommit 0 lastIndex).train.commits,
    x.gk = ownGyle 0 3 → x.seq = (makeIndices lastIndexTaken 1 [7]).gauger.seq := by
  have htrain : (makeIndices lastIndexTaken 1 [7]).train = lastIndexTaken.train := CellarWork.refl.evictAll.train
  have hgyle : (stamp lastIndex).gyle (ownGyle 0 lastIndexCommit.gyle) = some heldTraining := by decide
  rw [trainCommit_lastIndex]
  intro x hx hk
  simp only [acceptCommit, hgyle, acceptLater_train] at hx
  rcases List.mem_append.mp hx with hx | hx
  · replace hx : x ∈ lastIndexTaken.train.commits := htrain ▸ hx
    rw [show x = indexCommit from List.mem_singleton.mp hx] at hk
    exact absurd hk (by decide)
  · rw [List.mem_singleton.mp hx]
    rfl

end Sys2Proof.Machine
end

open Sys2Proof Sys2Proof.Machine in
/-- Refutes O10: a `TRAIN_COMMIT` whose cask index comes of a victim that sends the only copy of a tensor back to T4 is recorded after that
event, so that its commit does not stand under the acceptance sequence. -/
theorem not_trainingEndsComplete : ¬ Obligations.TrainingEndsComplete := by
  unfold Obligations.TrainingEndsComplete
  intro h
  obtain ⟨hcommit, -⟩ := h 0 lastIndex _ lastIndexCommit [] heldTraining (by decide) (by decide) (by decide) (by decide) (by decide)
  obtain ⟨t, ht, -, ⟨x, hx, hk, -, -, hseq, -⟩, -⟩ := hcommit lastIndex_taken (by decide) (by decide)
  obtain rfl : trainCommit 0 lastIndex = t := Host.Outcome.next.inj ht
  exact seq_lt_makeIndices_lastIndex.ne' ((trainCommit_lastIndex_commits x hx hk).symm.trans hseq)

section
/-! PROOFS. A commit's run and its publication (`Obligations.CommitsRunAndPublish`): the run decides one outcome for each touched adapter;
the publication makes the versions that stand current one by one, and what follows it ends commits and gradient holds but begins none. -/
namespace Sys2Proof.Machine

/-! ### The run -/

/-- Each adapter of a run has its outcome (R154). -/
theorem runAdapter_outcomes (s : State) (g : Gyle) (acc : RunAcc) (hold : GradHold) :
    (runAdapter s g acc hold).outcomes.map (·.1) = acc.outcomes.map (·.1) ++ [hold.adapter] := by
  fun_cases runAdapter s g acc hold <;> simp

theorem foldl_runAdapter_outcomes (s : State) (g : Gyle) (holds : List GradHold) (acc : RunAcc) :
    (holds.foldl (runAdapter s g) acc).outcomes.map (·.1) = acc.outcomes.map (·.1) ++ holds.map (·.adapter) := by
  induction holds generalizing acc with
  | nil => simp
  | cons hold holds ih => rw [List.foldl_cons, ih, runAdapter_outcomes, List.append_assoc, List.map_cons, List.singleton_append]

/-- The holds of a gyle's touched adapters stand in ascending adapter ID (R154). -/
theorem holdsOf_adapters (s : State) (g : Gyle) : (holdsOf s g).map (·.adapter) = sortBy (fun (a b : Nat) => a < b) g.touched := by
  rw [holdsOf, List.map_map]
  refine (List.map_congr_left fun a _ => ?_).trans (List.map_id _)
  cases hfind : s.train.hold.find? fun h => h.gk = g.key && h.adapter = a with
  | none => simp [hfind]
  | some h =>
    have hh := List.find?_some hfind
    simp only [Bool.and_eq_true, decide_eq_true_eq] at hh
    simp [hfind, hh.2]

/-- The outcomes and versions that a run gathers. -/
def decidedRun (s : State) (g : Gyle) : RunAcc := (holdsOf s g).foldl (runAdapter s g) ⟨[], [], Rng.seed g.trainSeed⟩

theorem decidedRun_outcomes (s : State) (g : Gyle) : (decidedRun s g).outcomes.map (·.1) = sortBy (fun (a b : Nat) => a < b) g.touched :=
  (foldl_runAdapter_outcomes ..).trans (holdsOf_adapters s g)

theorem startThrough_cat (s : State) (k : GyleKey) (l : List (AdapterId × Ver)) : (startThrough s k l).cat = s.cat := rfl

theorem startThrough_gauger (s : State) (k : GyleKey) (l : List (AdapterId × Ver)) : (startThrough s k l).gauger = s.gauger := rfl

/-- A change of a gyle's commit that leaves its name. -/
theorem commitOf_modCommit {s : State} {k : GyleKey} {x : Commit} {f : Commit → Commit} (hx : commitOf s k = some x)
    (hf : ∀ y, (f y).gk = y.gk) : commitOf (modCommit s k f) k = some (f x) := by
  have hk : x.gk = k := by simpa using List.find?_some hx
  have hfind : (s.train.commits.map fun y => if y.gk = k then f y else y).find? (fun y => y.gk = k) =
      (s.train.commits.find? fun y => y.gk = k).map fun y => if y.gk = k then f y else y := by
    rw [List.find?_map]
    congr 2
    funext y
    simp only [Function.comp_apply]
    split <;> simp_all
  rw [commitOf] at hx
  rw [commitOf, modCommit, hfind, hx, Option.map_some, if_pos hk]

/-- A commit that has run: its outcomes and prepared versions stand with it. -/
def recordRun (s : State) (k : GyleKey) (g : Gyle) : State :=
  modCommit (bumpFree s) k fun y =>
    { y with ran := true, outcomes := (decidedRun s g).outcomes, prepared := (decidedRun s g).prepared }

theorem recordRun_cat (s : State) (k : GyleKey) (g : Gyle) : (recordRun s k g).cat = s.cat := rfl

theorem recordRun_gauger (s : State) (k : GyleKey) (g : Gyle) : (recordRun s k g).gauger = s.gauger := rfl

theorem commitOf_recordRun {s : State} {k : GyleKey} {g : Gyle} {x : Commit} (hx : commitOf s k = some x) :
    commitOf (recordRun s k g) k =
      some { x with ran := true, outcomes := (decidedRun s g).outcomes, prepared := (decidedRun s g).prepared } :=
  commitOf_modCommit (s := bumpFree s) hx fun _ => rfl

section

variable {s : State} {c num : Nat} {g : Gyle} {x : Commit} (hg : s.gyle (ownGyle c num) = some g)
  (hx : commitOf s (ownGyle c num) = some x) (hran : x.ran = false) (hwaits : commitWaits s g x = false)
  (hheld : interiorHeld s = false) (haway : pairAway s 3 = false)

include hg hx hran hwaits hheld haway

/-- A run that nothing holds back (R154, R156). -/
theorem commitRun_runs : commitRun c num s =
    if x.through || dirtyCap (recordRun (stamp s) (ownGyle c num) g) = 0 then
      startThrough (recordRun (stamp s) (ownGyle c num) g) (ownGyle c num) (decidedRun (stamp s) g).prepared
    else recordRun (stamp s) (ownGyle c num) g := by
  unfold commitRun
  simp only [hg, hx, hran, hwaits, hheld, haway, Bool.or_self, Bool.false_eq_true, if_false]
  rfl

/-- The run decides the outcomes at an event of its own and leaves the catalogue. -/
theorem commitRun_decides : ∃ y, commitOf (commitRun c num s) (ownGyle c num) = some y ∧ y.ran = true ∧
    y.outcomes = (decidedRun (stamp s) g).outcomes ∧ (commitRun c num s).cat = s.cat ∧
    s.gauger.seq < (commitRun c num s).gauger.seq := by
  have ht := commitOf_recordRun (g := g) (s := stamp s) (k := ownGyle c num) (x := x) (by rw [commitOf, stamp_train]; exact hx)
  have hcat : (recordRun (stamp s) (ownGyle c num) g).cat = s.cat := (recordRun_cat ..).trans (stamp_cat s)
  have hseq : s.gauger.seq < (recordRun (stamp s) (ownGyle c num) g).gauger.seq := by
    rw [recordRun_gauger]
    exact seq_lt_stamp s
  rw [commitRun_runs hg hx hran hwaits hheld haway]
  split
  · rw [startThrough_cat, startThrough_gauger]
    exact ⟨_, commitOf_modCommit ht fun _ => rfl, rfl, rfl, hcat, hseq⟩
  · exact ⟨_, ht, rfl, rfl, hcat, hseq⟩

end

/-! ### What ends commits and gradient holds -/

/-- Between `s` and `t` no gradient hold and no commit begins. -/
structure TrainingEnds (s t : State) : Prop where
  hold : ∀ h ∈ t.train.hold, h ∈ s.train.hold := by exact fun _ h => h
  commits : ∀ x ∈ t.train.commits, x ∈ s.train.commits := by exact fun _ h => h

variable {s₀ s t : State}

protected theorem TrainingEnds.refl (s : State) : TrainingEnds s s := {}

protected theorem TrainingEnds.trans {u : State} (h : TrainingEnds s t) (k : TrainingEnds t u) : TrainingEnds s u :=
  ⟨fun x hx => h.hold x (k.hold x hx), fun x hx => h.commits x (k.commits x hx)⟩

/-- Where the training state stands, nothing of it begins. -/
protected theorem TrainingEnds.of_train (h : TrainingEnds s₀ s) (htrain : t.train = s.train) : TrainingEnds s₀ t :=
  h.trans ⟨fun _ hx => htrain ▸ hx, fun _ hx => htrain ▸ hx⟩

/-- An update of other parts of the state. -/
protected theorem TrainingEnds.same
    {gauger log pages cat catRetiring dir dirOld handles gyles cellar tiers homes kiln boundary outs freeCtr}
    (h : TrainingEnds s₀ s) :
    TrainingEnds s₀ { s with
      gauger, log, pages, cat, catRetiring, dir, dirOld, handles, gyles, cellar, tiers, homes, kiln, boundary, outs, freeCtr } :=
  h.trans {}

protected theorem TrainingEnds.foldl {α : Type} {g : State → α → State} {l : List α} (h : TrainingEnds s₀ s)
    (hg : ∀ {t}, TrainingEnds s₀ t → ∀ a, TrainingEnds s₀ (g t a)) : TrainingEnds s₀ (l.foldl g s) := by
  induction l generalizing s with
  | nil => exact h
  | cons a l ih => exact ih (hg h a)

protected theorem TrainingEnds.ite {c : Prop} [Decidable c] (hs : TrainingEnds s₀ s) (ht : TrainingEnds s₀ t) :
    TrainingEnds s₀ (if c then s else t) := by
  split
  · exact hs
  · exact ht

/-- The work of the tiers and casks leaves the training state. -/
theorem TrainingEnds.work (h : TrainingEnds s₀ s) (k : CellarWork s t) : TrainingEnds s₀ t := h.of_train k.train

protected theorem TrainingEnds.stamp (h : TrainingEnds s₀ s) : TrainingEnds s₀ (stamp s) := h.work CellarWork.refl.stamp

protected theorem TrainingEnds.sendMsg {m} (h : TrainingEnds s₀ s) : TrainingEnds s₀ (sendMsg s m) := h.work CellarWork.refl.sendMsg

protected theorem TrainingEnds.reply {to_ type status args data} (h : TrainingEnds s₀ s) :
    TrainingEnds s₀ (reply s to_ type status args data) := h.sendMsg.same

protected theorem TrainingEnds.completeLater {c cmd status cflags result} (h : TrainingEnds s₀ s) :
    TrainingEnds s₀ (completeLater s c cmd status cflags result) := h.of_train (completeLater_train ..)

protected theorem TrainingEnds.startXfer {use write addr bytes data} (h : TrainingEnds s₀ s) :
    TrainingEnds s₀ (startXfer s use write addr bytes data) := h.of_train (startXfer_train ..)

/-! ### Gyles and epochs that are freed -/

protected theorem TrainingEnds.pruneVersions (h : TrainingEnds s₀ s) : TrainingEnds s₀ (pruneVersions s) := h.of_train rfl

protected theorem TrainingEnds.keepStreams {keep} (h : TrainingEnds s₀ s) : TrainingEnds s₀ (keepStreams s keep) := h.same

protected theorem TrainingEnds.endOldPrefetches {epoch} (h : TrainingEnds s₀ s) : TrainingEnds s₀ (endOldPrefetches s epoch) :=
  h.foldl fun k _ => k.foldl fun k2 _ => k2.stamp.completeLater.ite k2

protected theorem TrainingEnds.releaseBy {f} (h : TrainingEnds s₀ s) (hf : ∀ {t}, TrainingEnds s₀ t → TrainingEnds s₀ (f t)) :
    TrainingEnds s₀ (releaseBy s f) :=
  (hf h).work CellarWork.refl.releaseFrom

protected theorem TrainingEnds.dropEpoch {epoch} (h : TrainingEnds s₀ s) : TrainingEnds s₀ (dropEpoch s epoch) :=
  h.releaseBy fun k => k.same.keepStreams.endOldPrefetches

protected theorem TrainingEnds.releaseEpoch (h : TrainingEnds s₀ s) : TrainingEnds s₀ (releaseEpoch s) := by
  fun_cases releaseEpoch s
  · exact h
  · exact h
  · exact (h.ite (h.same.foldl fun k _ => k.sendMsg)).dropEpoch
  · exact h.ite (h.same.foldl fun k _ => k.sendMsg)

protected theorem TrainingEnds.releaseHolds {g} (h : TrainingEnds s₀ s) : TrainingEnds s₀ (releaseHolds s g) :=
  (h.foldl fun k _ => k.sendMsg).same

protected theorem TrainingEnds.dropGyle {k} (h : TrainingEnds s₀ s) : TrainingEnds s₀ (dropGyle s k) := h.same

/-- The gradient holds of a gyle end with it (R146). -/
protected theorem TrainingEnds.endGradientHolds {k : GyleKey} (h : TrainingEnds s₀ s) :
    TrainingEnds s₀ { s with train := { s.train with hold := s.train.hold.filter (·.gk ≠ k) } } :=
  h.trans { hold := fun _ hx => (List.mem_filter.mp hx).1 }

protected theorem TrainingEnds.unbindGyle {k} (h : TrainingEnds s₀ s) : TrainingEnds s₀ (unbindGyle s k) :=
  h.work CellarWork.refl.unbindGyle

protected theorem TrainingEnds.freeHandles (h : TrainingEnds s₀ s) : TrainingEnds s₀ (freeHandles s) := h.same

protected theorem TrainingEnds.settleDirectory (h : TrainingEnds s₀ s) : TrainingEnds s₀ (settleDirectory s) := h.same

protected theorem TrainingEnds.releaseGyle {k} (h : TrainingEnds s₀ s) : TrainingEnds s₀ (releaseGyle s k) := by
  fun_cases releaseGyle s k
  · exact h
  · exact h.releaseHolds.dropGyle.endGradientHolds.unbindGyle.pruneVersions.freeHandles.settleDirectory.releaseEpoch

/-! ### Commands that waited for lease holders -/

protected theorem TrainingEnds.endSupersede {w} (h : TrainingEnds s₀ s) : TrainingEnds s₀ (endSupersede s w) := by
  unfold endSupersede
  extract_lets s1 s2
  have h2 : TrainingEnds s₀ s2 := by
    unfold s2
    split
    · exact h.stamp.reply
    · exact h.stamp
  clear_value s2
  split
  · exact h2
  · extract_lets s3 k
    have h3 : TrainingEnds s₀ s3 := by
      unfold s3
      split
      · exact h2.completeLater
      · exact h2
    clear_value s3
    have h4 : TrainingEnds s₀ { s3 with train := { s3.train with commits := s3.train.commits.filter fun x => x.gk ≠ k } } :=
      h3.trans { commits := fun _ hx => (List.mem_filter.mp hx).1 }
    exact h4.releaseGyle.ite h3

protected theorem TrainingEnds.endSupersedes (h : TrainingEnds s₀ s) : TrainingEnds s₀ (endSupersedes s) :=
  h.same.foldl fun k _ => k.endSupersede

/-! ### New versions -/

protected theorem TrainingEnds.sendReq {m gk} (h : TrainingEnds s₀ s) : TrainingEnds s₀ (sendReq s m gk) := h.sendMsg.same

protected theorem TrainingEnds.revoke {a v purge} (h : TrainingEnds s₀ s) : TrainingEnds s₀ (revoke s a v purge).1 :=
  h.foldl fun k _ => k.stamp.sendReq

/-- The revocation of several leases is that of each in turn. -/
theorem revokeAll_state (s : State) (olds : List (AdapterId × Nat)) :
    (revokeAll s olds).1 = pruneVersions (refreshHolds (olds.foldl (fun t p => (revoke t p.1 p.2 false).1) s)) := by
  have hfold (acc : State × List (Nat × AdapterId × Nat × Nat)) :
      (olds.foldl (fun acc p => let x := revoke acc.1 p.1 p.2 false; (x.1, acc.2 ++ x.2)) acc).1 =
        olds.foldl (fun t p => (revoke t p.1 p.2 false).1) acc.1 := by
    induction olds generalizing acc with
    | nil => rfl
    | cons p olds ih => exact ih _
  exact congrArg (fun t => pruneVersions (refreshHolds t)) (hfold (s, []))

protected theorem TrainingEnds.revokeAll {olds} (h : TrainingEnds s₀ s) : TrainingEnds s₀ (revokeAll s olds).1 := by
  rw [revokeAll_state]
  exact ((h.foldl fun k _ => k.revoke).work CellarWork.refl.refreshHolds).pruneVersions

protected theorem CurrentStand.revokeAll {olds} (h : CurrentStand s₀ s) : CurrentStand s₀ (revokeAll s olds).1 := by
  rw [revokeAll_state]
  exact ((h.foldl fun k _ => k.revoke).work CellarWork.refl.refreshHolds).pruneVersions

/-- Dirty records stand beside commits and gradient holds. -/
protected theorem TrainingEnds.markDirty {a v idx} (h : TrainingEnds s₀ s) : TrainingEnds s₀ (markDirty s a v idx) := by
  fun_cases markDirty s a v idx
  · exact h
  · exact TrainingEnds.work (h.trans {}) CellarWork.refl.syncDirty

protected theorem TrainingEnds.addDirty {v written dirty} (h : TrainingEnds s₀ s) : TrainingEnds s₀ (addDirty s v written dirty) := by
  fun_cases addDirty s v written dirty
  · exact TrainingEnds.markDirty (h.trans {})
  · exact TrainingEnds.work (h.trans {}) CellarWork.refl.syncDirty

protected theorem TrainingEnds.noteDelta {v idx} (h : TrainingEnds s₀ s) : TrainingEnds s₀ (noteDelta s v idx) := by
  fun_cases noteDelta s v idx
  · exact h.same
  · exact h
  · exact h

protected theorem TrainingEnds.installVersion {v written commit dirty} (h : TrainingEnds s₀ s) :
    TrainingEnds s₀ (installVersion s v written commit dirty) := by
  have hcurrent : TrainingEnds s₀ (makeCurrent s v.hdr.id v) := h.same
  exact (hcurrent.work CellarWork.refl.installCask).addDirty.noteDelta.same

protected theorem TrainingEnds.modVer {a v f} (h : TrainingEnds s₀ s) : TrainingEnds s₀ (modVer s a v f) := h.same

protected theorem TrainingEnds.publishStep {g through p} (h : TrainingEnds s₀ s) : TrainingEnds s₀ (publishStep g through s p) :=
  h.installVersion.modVer

protected theorem TrainingEnds.noteNonfinite {g o} (h : TrainingEnds s₀ s) : TrainingEnds s₀ (noteNonfinite g s o) := by
  fun_cases noteNonfinite g s o
  · exact h.modVer
  · exact h

/-! ### What a publication makes current -/

/-- A changed version is not another version. -/
protected theorem CurrentStand.modVer {a v f} (h : CurrentStand s₀ s) : CurrentStand s₀ (modVer s a v f) :=
  h.trans
    { current := fun b => by
        simp only [Machine.modVer, modAdapter, Catalogue.adapter]
        by_cases hb : b = a
        · rw [hb, tget_tmod_self]
        · rw [tget_tmod_ne _ _ _ hb] }

protected theorem CurrentStand.noteNonfinite {g o} (h : CurrentStand s₀ s) : CurrentStand s₀ (noteNonfinite g s o) := by
  fun_cases noteNonfinite g s o
  · exact h.modVer
  · exact h

protected theorem CurrentStand.startXfer {use write addr bytes data} (h : CurrentStand s₀ s) :
    CurrentStand s₀ (startXfer s use write addr bytes data) := h.trans ⟨by simp, by simp⟩

theorem makeCurrent_current_ne (s : State) {a b : AdapterId} (v : Ver) (h : b ≠ a) :
    ((makeCurrent s a v).cat.adapter b).current = (s.cat.adapter b).current := by
  simp only [makeCurrent, modAdapter, Catalogue.adapter, tget_tmod_ne _ _ _ h]

/-- A version as its publication leaves it: with write-through T4 and T2 hold it (R161). -/
def asPublished (through : Bool) (v : Ver) : Ver := if through then { v with inT4 := true, inT2 := true } else v

theorem asPublished_id (through : Bool) (v : Ver) : (asPublished through v).hdr.id = v.hdr.id := by
  unfold asPublished
  split <;> rfl

theorem asPublished_version (through : Bool) (v : Ver) : (asPublished through v).version = v.version := by
  unfold asPublished
  split <;> rfl

/-- After a version has been installed, its publication leaves what is current. -/
theorem currentStand_publishStep (g : Gyle) (through : Bool) (s : State) (p : AdapterId × Ver) :
    CurrentStand (makeCurrent s p.2.hdr.id (asPublished through p.2)) (publishStep g through s p) := by
  rw [← asPublished_id through p.2]
  exact (currentStand_installVersion s (asPublished through p.2) _ true _).modVer

/-- The published version is its adapter's current one, and the other adapters keep theirs (R155). -/
theorem publishStep_current (g : Gyle) (through : Bool) (s : State) {p : AdapterId × Ver} (hid : p.2.hdr.id = p.1) (a : AdapterId) :
    ((publishStep g through s p).cat.adapter a).current = if a = p.1 then p.2.version else (s.cat.adapter a).current := by
  rw [(currentStand_publishStep g through s p).current, hid]
  by_cases ha : a = p.1
  · rw [if_pos ha, ha, makeCurrent_current, asPublished_version]
  · rw [if_neg ha, makeCurrent_current_ne s _ ha]

/-- Of versions that each follow the one before them by one, each is current once all are published. -/
theorem foldl_publishStep_current {g : Gyle} {through : Bool} {next : AdapterId → Nat} {l : List (AdapterId × Ver)}
    (hl : ∀ p ∈ l, p.2.hdr.id = p.1 ∧ p.2.version = next p.1) {s : State} {a : AdapterId}
    (ha : (s.cat.adapter a).current = next a ∨ ∃ p ∈ l, p.1 = a) :
    ((l.foldl (publishStep g through) s).cat.adapter a).current = next a := by
  induction l generalizing s with
  | nil => simpa using ha
  | cons p l ih =>
    obtain ⟨⟨hid, hversion⟩, hl'⟩ := List.forall_mem_cons.mp hl
    refine ih hl' ?_
    rw [publishStep_current g through s hid]
    by_cases hp : a = p.1
    · exact .inl (by rw [if_pos hp, hversion, hp])
    · rw [if_neg hp]
      simpa [Ne.symm hp] using ha

/-! ### The publication -/

/-- The prepared versions that stand at the publication (R156). -/
def standingVersions (s : State) (g : Gyle) (x : Commit) : List (AdapterId × Ver) :=
  x.prepared.filter fun p => latePublish s g p = 0

/-- The commit is published: its reservations are given back, its outcomes are final. -/
def markPublished (s : State) (k : GyleKey) (os : List (AdapterId × Nat × Nat)) : State :=
  modCommit s k fun x => { x with published := true, ullage := 0, dirtyReserved := 0, indices := 0, outcomes := os, prepared := [] }

/-- The versions that stand, published at one sequence. -/
def publishAll (s : State) (k : GyleKey) (g : Gyle) (x : Commit) : State :=
  (standingVersions s g x).foldl (publishStep g x.through) (markPublished s k (finalOutcomes s g x))

/-- The gradient holds of a gyle end, and its commit's outcomes are counted. -/
def endGradientHold (s : State) (k : GyleKey) (os : List (AdapterId × Nat × Nat)) : State :=
  { s with train := { s.train with
    hold := s.train.hold.filter (·.gk ≠ k)
    applied := sat 32 (s.train.applied + countOutcomes os [0x0])
    dropped := sat 32 (s.train.dropped + countOutcomes os [0x2, 0x3, 0x4, 0x5, 0x6, 0x7, 0x8]) } }

/-- The report of a publication is written where one is asked for, and the completion waits for the lease holders (R157, R215). -/
def reportCommit (s : State) (c num : Nat) (x : Commit) (os : List (AdapterId × Nat × Nat))
    (waiting : List (Nat × AdapterId × Nat × Nat)) : State :=
  let s := { s with homes := { s.homes with supersedes := s.homes.supersedes ++
    [{ waiting, ready := x.report = 0 || os.isEmpty, ctx := some c, sqIndex := x.sqIndex, status := stDone, opcode := 0x21
       cflags := commitFlags os, gyle := num, result := commitResult os }] } }
  let s := if x.report = 0 || os.isEmpty then s
    else startXfer s (.report c num) true x.report (16 * os.length) (reportBytes os)
  endSupersedes s

/-- A publication at the event in which nothing holds it back. -/
def publishCommit (s : State) (c num : Nat) (g : Gyle) (x : Commit) : State :=
  let os := finalOutcomes s g x
  let olds := (standingVersions s g x).map fun p => (p.1, ((markPublished s (ownGyle c num) os).cat.adapter p.1).current)
  let r := revokeAll (publishAll s (ownGyle c num) g x) olds
  reportCommit (endGradientHold (os.foldl (noteNonfinite g) r.1) (ownGyle c num) os) c num x os r.2

protected theorem TrainingEnds.reportCommit {c num x os waiting} (h : TrainingEnds s₀ s) :
    TrainingEnds s₀ (reportCommit s c num x os waiting) := by
  unfold reportCommit
  extract_lets _ s1 s2
  have h1 : TrainingEnds s₀ s1 := h.same
  exact (h1.ite h1.startXfer).endSupersedes

protected theorem CurrentStand.reportCommit {c num x os waiting} (h : CurrentStand s₀ s) :
    CurrentStand s₀ (reportCommit s c num x os waiting) := by
  unfold reportCommit
  extract_lets _ s1 s2
  have h1 : CurrentStand s₀ s1 := h.same
  exact (h1.ite h1.startXfer).endSupersedes

theorem mem_endGradientHold {k : GyleKey} {os : List (AdapterId × Nat × Nat)} {h : GradHold}
    (hh : h ∈ (endGradientHold s k os).train.hold) :
    h ∈ s.train.hold ∧ h.gk ≠ k := by
  simpa [endGradientHold] using hh

theorem publishCommit_hold (s : State) (c num : Nat) (g : Gyle) (x : Commit) :
    ∀ h ∈ (publishCommit s c num g x).train.hold, h.gk ≠ ownGyle c num :=
  fun h hh => (mem_endGradientHold ((TrainingEnds.refl _).reportCommit.hold h hh)).2

theorem publishCommit_published {s : State} {c num : Nat} {g : Gyle} {x y : Commit}
    (hy : commitOf (publishCommit s c num g x) (ownGyle c num) = some y) : y.published = true := by
  have hends : TrainingEnds (markPublished s (ownGyle c num) (finalOutcomes s g x)) (publishCommit s c num g x) := by
    have hall : TrainingEnds (markPublished s (ownGyle c num) (finalOutcomes s g x)) (publishAll s (ownGyle c num) g x) :=
      (TrainingEnds.refl _).foldl fun k _ => k.publishStep
    have hhold {u k os} (h : TrainingEnds (markPublished s (ownGyle c num) (finalOutcomes s g x)) u) :
        TrainingEnds (markPublished s (ownGyle c num) (finalOutcomes s g x)) (endGradientHold u k os) :=
      h.trans { hold := fun _ hx => (mem_endGradientHold hx).1 }
    exact (hhold (hall.revokeAll.foldl fun k _ => k.noteNonfinite)).reportCommit
  have hk : y.gk = ownGyle c num := by simpa using List.find?_some hy
  obtain ⟨z, -, hz⟩ := List.mem_map.mp (hends.commits y (List.mem_of_find?_eq_some hy))
  by_cases hzk : z.gk = ownGyle c num
  · rw [if_pos hzk] at hz
    rw [← hz]
  · rw [if_neg hzk] at hz
    exact absurd (hz ▸ hk) hzk

/-- A prepared version that still stands follows its adapter's current one (R156). -/
theorem version_of_standing {s : State} {g : Gyle} {p : AdapterId × Ver} (h : latePublish s g p = 0) :
    p.2.version = (s.cat.adapter p.1).current + 1 := by
  revert h
  fun_cases latePublish s g p with
  | case5 _ _ _ _ hnext => exact fun _ => (not_not.mp hnext).symm
  | _ => exact fun h => absurd h (by decide)

theorem publishCommit_current {s : State} {c num : Nat} {g : Gyle} {x : Commit} (hid : ∀ p ∈ x.prepared, p.2.hdr.id = p.1)
    {p : AdapterId × Ver} (hp : p ∈ x.prepared) (hlate : latePublish s g p = 0) :
    ((publishCommit s c num g x).cat.adapter p.1).current = p.2.version := by
  have hstand : CurrentStand (publishAll s (ownGyle c num) g x) (publishCommit s c num g x) :=
    ((CurrentStand.refl _).revokeAll.foldl fun k _ => k.noteNonfinite).same.reportCommit
  have hall : ∀ q ∈ standingVersions s g x, q.2.hdr.id = q.1 ∧ q.2.version = (s.cat.adapter q.1).current + 1 := by
    intro q hq
    obtain ⟨hq, hlate⟩ := List.mem_filter.mp hq
    exact ⟨hid q hq, version_of_standing (by simpa using hlate)⟩
  rw [hstand.current, version_of_standing hlate]
  exact foldl_publishStep_current (next := fun a => (s.cat.adapter a).current + 1) hall
    (.inr ⟨p, List.mem_filter.mpr ⟨hp, by simpa using hlate⟩, rfl⟩)

theorem latePublish_stamp (s : State) (g : Gyle) (p : AdapterId × Ver) : latePublish (stamp s) g p = latePublish s g p := by
  rw [stamp_only]
  rfl

/-- A publication that nothing holds back takes place at its stamped event (R155, R161). -/
theorem commitPublish_publishes {s : State} {c num : Nat} {g : Gyle} {x : Commit} (hg : s.gyle (ownGyle c num) = some g)
    (hx : commitOf s (ownGyle c num) = some x) (hran : x.ran = true) (hpublished : x.published = false)
    (hfrozen : touchesFrozen s g = false) (hheld : x.through = true → throughHeld s x = true)
    (hcap : x.through = false → dirtyCap s ≠ 0 ∨ x.prepared = []) (hroom : s.cellar.casks.length + x.prepared.length ≤ 4096) :
    commitPublish c num s = publishCommit (stamp s) c num g x := by
  have hn : (x.prepared.filter fun p => latePublish s g p = 0).length ≤ x.prepared.length := List.length_filter_le ..
  have hlazy : (!x.through && dirtyCap s = 0 && !x.prepared.isEmpty) = false := by
    cases hthrough : x.through with
    | true => rfl
    | false => rcases hcap hthrough with h | h <;> simp [h]
  have hwritten : (x.through && !throughHeld s x) = false := by
    cases hthrough : x.through with
    | true => simp [hheld hthrough]
    | false => rfl
  unfold commitPublish
  extract_lets k s1
  split
  · rename_i g' x' hg' hx'
    obtain rfl : g' = g := Option.some.inj (hg'.symm.trans hg)
    obtain rfl : x' = x := Option.some.inj (hx'.symm.trans hx)
    rw [if_neg (by simp [hran, hpublished, hfrozen]), if_neg (by simpa using hlazy), if_neg (by simpa using hwritten),
      if_neg (by omega)]
    rfl
  · rename_i hnone
    exact absurd hx (hnone g x hg)

end Sys2Proof.Machine
end

open Sys2Proof.Machine in
/-- Settles O11: the run maps the touched adapters to their outcomes one by one; at the publication each version that stands follows its
adapter's current one, so that it is current once all are published, and nothing after that names another. -/
theorem commitsRunAndPublish : Obligations.CommitsRunAndPublish := by
  unfold Obligations.CommitsRunAndPublish
  intro c n s g x hg hx
  refine ⟨fun hran hwaits hheld haway => ?_, fun hran hpublished hfrozen hthrough hcap hroom hid => ?_⟩
  · obtain ⟨y, hy, hyran, houtcomes, hcat, hseq⟩ := commitRun_decides hg hx hran hwaits hheld haway
    exact ⟨commitRun c n.toNat s, y, rfl, hy, hyran, houtcomes ▸ decidedRun_outcomes (stamp s) g, hcat, hseq⟩
  · have hpublish := commitPublish_publishes hg hx hran hpublished hfrozen hthrough hcap hroom
    refine ⟨_, congrArg Host.Outcome.next hpublish, publishCommit_hold _ _ _ _ _, fun y hy => publishCommit_published hy,
      fun p hp hlate => ?_⟩
    exact publishCommit_current hid hp ((latePublish_stamp s g p).trans hlate)

section
/-! PROOFS. Tenant records, training records and salts (`Obligations.TenantRegistersComplete`): what a register reads after another one is
written, what a refused write leaves, and that the staging buffer gives back the bytes that were put into it. -/
namespace Sys2Proof.Machine

variable {s : State} {page off : Nat} {v : Word64} {role : Role}

/-! ### Registers -/

/-- A read at another place does not see a write, whatever value each place has by default. -/
theorem tget_tset_place_ne {α : Type} [DecidableEq α] (d e v : α) {j k : Nat} (t : Tab α) (h : j ≠ k) :
    tget d (tset e t k v) j = tget d t j := by
  unfold tset
  split
  · exact tget_tdel_ne d t h
  · exact tget_tput_ne d v t h

@[simp] theorem reg_setReg_self (s : State) (page off : Nat) (v : Word64) : reg (setReg s page off v) page off = v := tget_tset_self ..

theorem reg_setReg_ne {p o : Nat} (h : regAddr p o ≠ regAddr page off) : reg (setReg s page off v) p o = reg s p o :=
  tget_tset_place_ne _ _ _ _ h

/-- A stored register changes the registers alone. -/
theorem storeReg_only (s : State) (page off : Nat) (v : Word64) :
    storeReg page off v s = { s with regs := (storeReg page off v s).regs } := by
  fun_cases storeReg page off v s <;> rfl

@[simp] theorem storeReg_tenantRecs (s : State) (page off : Nat) (v : Word64) : (storeReg page off v s).tenantRecs = s.tenantRecs := by
  rw [storeReg_only]

@[simp] theorem storeReg_train (s : State) (page off : Nat) (v : Word64) : (storeReg page off v s).train = s.train := by
  rw [storeReg_only]

@[simp] theorem storeReg_homes (s : State) (page off : Nat) (v : Word64) : (storeReg page off v s).homes = s.homes := by
  rw [storeReg_only]

theorem reg_emit (s : State) (o : Output) (page off : Nat) : reg (emit s o) page off = reg s page off := rfl

theorem reg_storeReg_ne {p o : Nat} (h : regAddr p o ≠ regAddr page off) : reg (storeReg page off v s) p o = reg s p o := by
  fun_cases storeReg page off v s
  · exact reg_setReg_ne h
  · rfl
  · rfl

theorem reg_stamp (s : State) (page off : Nat) : reg (stamp s) page off = reg s page off := by simp [reg]

/-! ### Refused writes -/

/-- A refused write touches the page's error fields and its event, and the response leaves (R419). -/
theorem refuseWrite_only (s : State) (page off : Nat) (role : Role) (status : Nat) : refuseWrite s page off role status =
    { s with pages := (refuseWrite s page off role status).pages, outs := (refuseWrite s page off role status).outs } := by
  unfold refuseWrite
  extract_lets home code s1 s2
  have h2 : s2 = { s with pages := s2.pages } := by
    unfold s2
    split
    · split <;> rfl
    · rfl
  rw [h2]
  rfl

/-- A write that a register's own check refuses is answered with its status at its stamped event (R419). -/
theorem busWrite_refused {check : State → Option Nat} {effect : State → State} {st : Nat} (h : Accessible s page off v role)
    (hcheck : check (stamp s) = some st) : busWrite page off v role check effect s = refuseWrite (stamp s) page off role st := by
  obtain ⟨hserves, hstatic⟩ := h
  simp [busWrite, hserves, hstatic, hcheck]

theorem refuseWrite_stamp_onlyEventsAndPorts (s : State) (page off : Nat) (role : Role) (status : Nat) :
    OnlyEventsAndPorts s (refuseWrite (stamp s) page off role status) := by
  rw [OnlyEventsAndPorts, refuseWrite_only, stamp_only]

/-! ### Staged bytes -/

theorem leNat_lt (bs : List Byte) : leNat bs < 256 ^ bs.length := by
  induction bs with
  | nil => exact Nat.one_pos
  | cons b bs ih =>
    have hb := b.isLt
    simp only [leNat, List.length_cons, Nat.pow_succ]
    omega

/-- The bytes of the number that bytes give are these bytes (R6). -/
theorem leBytes_leNat {n : Nat} {bs : List Byte} (h : bs.length = n) : leBytes n (leNat bs) = bs := by
  induction bs generalizing n with
  | nil =>
    subst h
    rfl
  | cons b bs ih =>
    subst h
    have hb := b.isLt
    have hlow : BitVec.ofNat 8 (leNat (b :: bs)) = b := by
      apply BitVec.eq_of_toNat_eq
      simp only [leNat, BitVec.toNat_ofNat]
      omega
    have hhigh : leNat (b :: bs) / 256 = leNat bs := by
      simp only [leNat]
      omega
    rw [List.length_cons, leBytes, hlow, hhigh, ih rfl]

/-- A register that eight bytes of a structure are put into gives them back. -/
theorem leBytes_le_word {bs : List Byte} {o : Nat} (h : o + 8 ≤ bs.length) :
    leBytes 8 (BitVec.ofNat 64 (le bs o 8)).toNat = (bs.drop o).take 8 := by
  have hlen : ((bs.drop o).take 8).length = 8 := by
    rw [List.length_take, List.length_drop]
    omega
  have hlt : le bs o 8 < 2 ^ 64 := by
    have := leNat_lt ((bs.drop o).take 8)
    rwa [hlen] at this
  rw [BitVec.toNat_ofNat, Nat.mod_eq_of_lt hlt]
  exact leBytes_leNat hlen

/-- Four words of eight bytes are the 32 bytes that they were cut from. -/
theorem flatMap_words {bs : List Byte} (h : bs.length = 32) :
    (List.range 4).flatMap (fun w => (bs.drop (8 * w)).take 8) = bs := by
  have hcut (o : Nat) : bs.drop o = (bs.drop o).take 8 ++ bs.drop (o + 8) := by
    rw [← List.drop_drop, List.take_append_drop]
  have hend : bs.drop 32 = [] := List.drop_eq_nil_of_le h.le
  calc (List.range 4).flatMap (fun w => (bs.drop (8 * w)).take 8)
      = (bs.drop 0).take 8 ++ ((bs.drop 8).take 8 ++ ((bs.drop 16).take 8 ++ ((bs.drop 24).take 8 ++ bs.drop 32))) := by
        rw [hend]
        rfl
    _ = bs.drop 0 := by rw [← hcut 24, ← hcut 16, ← hcut 8, ← hcut 0]
    _ = bs := List.drop_zero

/-! ### Tenant records -/

theorem fld_tenantSelWord_tenant (op word : Nat) (tenant : Fin 4096) : fld (tenantSelWord op word tenant) 0 12 = tenant := by
  have htenant := tenant.isLt
  simp only [fld, tenantSelWord, BitVec.toNat_ofNat]
  omega

theorem tenantRec_bytes_length (r : TenantRec) : r.bytes.length = 32 := by simp [TenantRec.bytes, leBytes_length]

/-- A table that is written word by word reads each word as it was written. -/
theorem tget_foldl_tset {α : Type} [DecidableEq α] (d : α) (f : Nat → α) (t : Tab α) {n k : Nat} (h : k < n) :
    tget d ((List.range n).foldl (fun b w => tset d b w (f w)) t) k = f k := by
  induction n with
  | zero => exact absurd h (Nat.not_lt_zero k)
  | succ n ih =>
    rw [List.range_succ, List.foldl_append, List.foldl_cons, List.foldl_nil]
    rcases Nat.lt_succ_iff_lt_or_eq.mp h with hlt | rfl
    · rw [tget_tset_ne _ _ _ hlt.ne, ih hlt]
    · exact tget_tset_self ..

/-- The buffer that a tenant's record was put into holds its bytes (R429). -/
theorem stagedTenant_tenantLoadEffect (t : Nat) (s : State) :
    stagedTenant (tenantLoadEffect t s) = TenantRec.bytes (tget {} s.tenantRecs t) := by
  have hlen := tenantRec_bytes_length (tget {} s.tenantRecs t)
  have hword : ∀ w ∈ List.range 4, leBytes 8 (tget 0 (tenantLoadEffect t s).glob.tenantBuf w).toNat =
      ((TenantRec.bytes (tget {} s.tenantRecs t)).drop (8 * w)).take 8 := by
    intro w hw
    have hw4 : w < 4 := List.mem_range.mp hw
    rw [← leBytes_le_word (by omega), tenantLoadEffect, tget_foldl_tset _ _ _ hw4]
  exact (List.flatMap_congr hword).trans (flatMap_words hlen)

/-- What is asked of a store does not read the register that commands it. -/
theorem tenantWaits_storeReg (n : Nat) (bs : List Byte) : tenantWaits (storeReg pgGlobal 0x0C0 v s) n bs = tenantWaits s n bs := by
  have hself : selfPeer (storeReg pgGlobal 0x0C0 v s) = selfPeer s := congrArg (fld · 0 7) (reg_storeReg_ne (by decide))
  have hknown (a : AdapterId) : knownIn (storeReg pgGlobal 0x0C0 v s) s.cat a = knownIn s s.cat a := by
    unfold knownIn
    rw [hself, storeReg_only]
  rw [storeReg_only] at hknown ⊢
  simp only [tenantWaits, tenantUnseen, unseen, unseenIn, hknown]

/-- The new record alone enters the table; what holds and admits its fallback leaves the table (R404). -/
theorem tenantStoreEffect_tenantRecs (n : Nat) (bs : List Byte) (s : State) :
    (tenantStoreEffect n bs s).tenantRecs = tset {} s.tenantRecs n (tenantOfBytes bs) := by
  have hstand : Within (fun _ => false) { s with tenantRecs := tset {} s.tenantRecs n (tenantOfBytes bs) } (tenantStoreEffect n bs s) := by
    fun_cases tenantStoreEffect n bs s
    · exact (Within.refl _).refreshHolds
    · exact (Within.refl _).refreshHolds.needCasks.refreshHolds
    · exact (Within.refl _).refreshHolds
  exact hstand.tenantRecs rfl

@[simp] theorem askHome_tenantWaits (s : State) (epoch home submitter : Nat) (a : AdapterId) :
    (askHome s epoch home submitter a).homes.tenantWaits = s.homes.tenantWaits := by
  have hsend (u : State) (m : Msg) : (sendMsg u m).homes.tenantWaits = u.homes.tenantWaits := by
    fun_cases sendMsg u m <;> rfl
  exact (hsend (stamp s) _).trans (congrArg (·.tenantWaits) (stamp_homes s))

/-- Look-ups leave the stores that wait (R213). -/
theorem askAll_tenantWaits (s : State) (cat : Catalogue) (submitter : Nat) (asked : Tab Nat) (ids : List AdapterId) :
    (askAll s cat submitter asked ids).1.homes.tenantWaits = s.homes.tenantWaits := by
  unfold askAll
  generalize ids.filter (fun a => tget 0 asked a = 0) = l
  induction l generalizing s asked with
  | nil => rfl
  | cons a l ih => rw [List.foldl_cons, ih, askHome_tenantWaits]

theorem stagedTenant_stamp (s : State) : stagedTenant (stamp s) = stagedTenant s := by
  rw [stamp_only]
  rfl

theorem stagedTenant_storeReg (s : State) (page off : Nat) (v : Word64) : stagedTenant (storeReg page off v s) = stagedTenant s := by
  rw [storeReg_only]
  rfl

theorem stagedTenant_emit (s : State) (o : Output) : stagedTenant (emit s o) = stagedTenant s := rfl

theorem tenantLoadEffect_tenantRecs (t : Nat) (s : State) : (tenantLoadEffect t s).tenantRecs = s.tenantRecs := rfl

theorem tenantWaits_stamp (n : Nat) (bs : List Byte) (s : State) : tenantWaits (stamp s) n bs = tenantWaits s n bs := by
  rw [stamp_only]
  rfl

theorem tenantStoreCheck_stamp (n : Nat) (bs : List Byte) (s : State) : tenantStoreCheck n bs (stamp s) = tenantStoreCheck n bs s := by
  rw [stamp_only]
  rfl

section

variable (n : Fin 4096) (w : Fin 4) (role : Role) (s : State)

/-- A write that stores a record is checked unless the store waits (R403; log entry 57). -/
theorem tenantSelCheck_store : tenantSelCheck (tenantSelWord 2 w n) (stamp s) =
    if tenantWaits s n (stagedTenant s) then none else tenantStoreCheck n (stagedTenant s) s := by
  rw [tenantSelCheck, fld_tenantSelWord _ _ _ (by omega) (by decide), fld_tenantSelWord_tenant, stagedTenant_stamp, tenantWaits_stamp,
    tenantStoreCheck_stamp]
  cases tenantWaits s n (stagedTenant s) <;> rfl

theorem tenantSelWrite_store : tenantSelWrite (tenantSelWord 2 w n) role s =
    tenantStore n (tenantSelWord 2 w n) role (stagedTenant s) (storeReg pgGlobal 0x0C0 (tenantSelWord 2 w n) s) := by
  rw [tenantSelWrite, fld_tenantSelWord _ _ _ (by omega) (by decide), fld_tenantSelWord_tenant, stagedTenant_storeReg]
  rfl

theorem tenantSelCheck_load : tenantSelCheck (tenantSelWord 1 w n) s = none := by
  rw [tenantSelCheck, fld_tenantSelWord _ _ _ (by omega) (by decide)]
  rfl

theorem tenantSelWrite_load : tenantSelWrite (tenantSelWord 1 w n) role s =
    tenantLoadEffect n (storeReg pgGlobal 0x0C0 (tenantSelWord 1 w n) s) := by
  rw [tenantSelWrite, fld_tenantSelWord _ _ _ (by omega) (by decide), fld_tenantSelWord_tenant]
  rfl

variable {n w role s}

/-- A store that waits stands behind the earlier ones, and the table stands (R213; log entry 57). -/
theorem tenantStore_waits {v : Word64} {bs : List Byte} (h : tenantWaits s n bs = true) :
    (tenantStore n v role bs s).tenantRecs = s.tenantRecs ∧
      ∃ x, (tenantStore n v role bs s).homes.tenantWaits = s.homes.tenantWaits ++ [x] ∧ x.tenant = n.val ∧ x.bytes = bs := by
  have hrecs : (askAll s s.cat 0 [] (tenantUnseen s [] bs)).1.tenantRecs = s.tenantRecs :=
    ((Within.refl (ps := fun _ => false) s).askAll).tenantRecs rfl
  rw [tenantStore, if_pos h]
  exact ⟨hrecs, _, congrArg (· ++ _) (askAll_tenantWaits ..), rfl, rfl⟩

theorem tenantStore_stores {v : Word64} {bs : List Byte} (h : tenantWaits s n bs = false) :
    (tenantStore n v role bs s).tenantRecs = tset {} s.tenantRecs n (tenantOfBytes bs) := by
  rw [tenantStore, h]
  exact tenantStoreEffect_tenantRecs ..

end

/-! ### Training records (R150, R162) -/

theorem fld_hpWord_tenant (op : Nat) (tenant : Fin 4096) : fld (hpWord op tenant) 0 12 = tenant := by
  have htenant := tenant.isLt
  simp only [fld, hpWord, BitVec.toNat_ofNat]
  omega

theorem stagedHp_stamp (s : State) : stagedHp (stamp s) = stagedHp s := by simp only [stagedHp, reg_stamp]

/-- The staged record stands in other registers than the index. -/
theorem stagedHp_storeReg (v : Word64) (s : State) : stagedHp (storeReg pgTrain 0x0A0 v s) = stagedHp s := by
  have hreg (off : Nat) (h : regAddr pgTrain off ≠ regAddr pgTrain 0x0A0) :
      reg (storeReg pgTrain 0x0A0 v s) pgTrain off = reg s pgTrain off :=
    reg_storeReg_ne h
  simp only [stagedHp, List.flatMap_cons, List.flatMap_nil, hreg 0x0A8 (by decide), hreg 0x0B0 (by decide), hreg 0x0B8 (by decide),
    hreg 0x0C0 (by decide)]

theorem hpWrite_store (n : Fin 4096) (s : State) :
    hpWrite (hpWord 1 n) s = hpStoreEffect n (storeReg pgTrain 0x0A0 (hpWord 1 n) s) := by
  rw [hpWrite, fld_hpWord _ _ (by decide), fld_hpWord_tenant]
  rfl

theorem hpWrite_load (n : Fin 4096) (s : State) :
    hpWrite (hpWord 2 n) s = hpLoadEffect n (storeReg pgTrain 0x0A0 (hpWord 2 n) s) := by
  rw [hpWrite, fld_hpWord _ _ (by decide), fld_hpWord_tenant]
  rfl

theorem hpCheck_store {n : Fin 4096} {s : State} (h : (stagedHp s).ok = true) : hpCheck (hpWord 1 n) s = none := by
  rw [hpCheck, fld_hpWord _ _ (by decide), hpStoreCheck, h]
  rfl

theorem hpCheck_load (n : Fin 4096) (s : State) : hpCheck (hpWord 2 n) s = none := by
  rw [hpCheck, fld_hpWord _ _ (by decide)]
  rfl

theorem regAddr_inj {page o p : Nat} (h : regAddr page o = regAddr page p) : o = p := Nat.add_left_cancel h

/-- Registers of a page that are written one after the other each read as they were written. -/
theorem reg_foldl_setReg {f : Nat × Nat → Word64} {l : List (Nat × Nat)} (hl : (l.map (·.1)).Nodup) (s : State) :
    ∀ x ∈ l, reg (l.foldl (fun t y => setReg t page y.1 (f y)) s) page x.1 = f x := by
  induction l generalizing s with
  | nil => exact fun _ hx => absurd hx List.not_mem_nil
  | cons y l ih =>
    obtain ⟨hy, hl'⟩ := List.nodup_cons.mp hl
    intro x hx
    rcases List.mem_cons.mp hx with rfl | hx
    · have hstand : ∀ t, reg (l.foldl (fun t y => setReg t page y.1 (f y)) t) page x.1 = reg t page x.1 := fun t =>
        List.foldlRecOn l _ (motive := fun u => reg u page x.1 = reg t page x.1) rfl fun u hu y hyl =>
          (reg_setReg_ne fun h => hy (List.mem_map.mpr ⟨y, hyl, (regAddr_inj h).symm⟩)).trans hu
      exact (hstand _).trans (reg_setReg_self ..)
    · exact ih hl' _ x hx

/-- The bytes of a tenant's record that the staging registers take, with their offsets (Table 7.13). -/
def hpPlaces : List (Nat × Nat) := [(0x0A8, 0), (0x0B0, 8), (0x0B8, 16), (0x0C0, 24)]

/-- The eight bytes of a record from a place, as a register's value. -/
def hpWordAt (h : HpRec) (x : Nat × Nat) : Word64 := BitVec.ofNat 64 (le h.bytes x.2 8)

theorem hpLoadEffect_eq (n : Nat) (s : State) : hpLoadEffect n s =
    hpPlaces.foldl (fun t x => setReg t pgTrain x.1 (hpWordAt (tget {} s.train.hp n) x)) s := rfl

theorem hpLoadEffect_train (n : Nat) (s : State) : (hpLoadEffect n s).train = s.train := by
  rw [hpLoadEffect_eq]
  exact foldl_field (·.train) _ (fun t x => setReg_train t ..) hpPlaces s

/-- Each staging register takes its eight bytes of the tenant's record. -/
theorem reg_hpLoadEffect (n : Nat) (s : State) : ∀ x ∈ hpPlaces,
    reg (hpLoadEffect n s) pgTrain x.1 = hpWordAt (tget {} s.train.hp n) x := by
  rw [hpLoadEffect_eq]
  exact reg_foldl_setReg (by decide) s

/-- The staged record enters the table alone (R162). -/
theorem hpStoreEffect_hp (n : Nat) (s : State) : (hpStoreEffect n s).train.hp = tset {} s.train.hp n (stagedHp s) := rfl

/-! ### Salts (R405) -/

theorem saltStore_salts (v : Word64) (s : State) : (saltStore v (stamp s)).keys.salts =
    tset (0, 0) s.keys.salts (regFld s pgKeys 0x190 0 12) (s.keys.saltLo, v) := by
  rw [saltStore, regFld_stamp, stamp_keys]

end Sys2Proof.Machine
end

open Sys2Proof.Machine in
/-- Settles O31: each accepted write acts at its stamped event, and the register that commands it holds nothing of what it stores or
loads. -/
theorem tenantRegistersComplete : Obligations.TenantRegistersComplete := by
  unfold Obligations.TenantRegistersComplete
  intro n w v role s
  refine ⟨fun hacc => ⟨fun hwaits hcheck => ?stored, fun st hwaits hcheck => ?refused, fun hwaits => ?waits⟩, fun hacc => ?loaded,
    fun hacc hok => ?hpStored, fun hacc => ?hpLoaded, fun hacc => ?salt⟩
  case stored =>
    have hcheck' : tenantSelCheck (tenantSelWord 2 w n) (stamp s) = none := by
      rw [tenantSelCheck_store, hwaits, if_neg Bool.false_ne_true, hcheck]
    have hrecs : (tenantSelWrite (tenantSelWord 2 w n) role (stamp s)).tenantRecs =
        tset {} s.tenantRecs n (tenantOfBytes (stagedTenant s)) := by
      rw [tenantSelWrite_store, tenantStore_stores, storeReg_tenantRecs, stamp_tenantRecs, stagedTenant_stamp]
      rw [tenantWaits_storeReg, tenantWaits_stamp, stagedTenant_stamp, hwaits]
    refine ⟨_, congrArg Host.Outcome.next (busWrite_accepted hacc hcheck'), ?_, fun m hm => ?_, rfl⟩
    · rw [emit_tenantRecs, hrecs, tget_tset_self]
    · rw [emit_tenantRecs, hrecs, tget_tset_ne _ _ _ hm]
  case refused =>
    have hcheck' : tenantSelCheck (tenantSelWord 2 w n) (stamp s) = some st := by
      rw [tenantSelCheck_store, hwaits, if_neg Bool.false_ne_true, hcheck]
    exact ⟨_, congrArg Host.Outcome.next (busWrite_refused hacc hcheck'), refuseWrite_stamp_onlyEventsAndPorts .., rfl⟩
  case waits =>
    have hcheck' : tenantSelCheck (tenantSelWord 2 w n) (stamp s) = none := by
      rw [tenantSelCheck_store, hwaits, if_pos rfl]
    have hwaits' : tenantWaits (storeReg pgGlobal 0x0C0 (tenantSelWord 2 w n) (stamp s)) n (stagedTenant s) = true := by
      rw [tenantWaits_storeReg, tenantWaits_stamp, hwaits]
    obtain ⟨hrecs, x, hx, htenant, hbytes⟩ := tenantStore_waits (v := tenantSelWord 2 w n) (role := role) hwaits'
    refine ⟨_, congrArg Host.Outcome.next (busWrite_accepted hacc hcheck'), ?_, rfl, x, ?_, htenant, hbytes⟩
    · rw [emit_tenantRecs, tenantSelWrite_store, stagedTenant_stamp, hrecs, storeReg_tenantRecs, stamp_tenantRecs]
    · rw [emit_homes, tenantSelWrite_store, stagedTenant_stamp, hx, storeReg_homes, stamp_homes]
  case loaded =>
    refine ⟨_, congrArg Host.Outcome.next (busWrite_accepted hacc (tenantSelCheck_load ..)), ?_, ?_, rfl⟩
    · rw [stagedTenant_emit, tenantSelWrite_load, stagedTenant_tenantLoadEffect, storeReg_tenantRecs, stamp_tenantRecs]
    · rw [emit_tenantRecs, tenantSelWrite_load, tenantLoadEffect_tenantRecs, storeReg_tenantRecs, stamp_tenantRecs]
  case hpStored =>
    have hcheck : hpCheck (hpWord 1 n) (stamp s) = none := hpCheck_store (by rw [stagedHp_stamp, hok])
    have hhp : (hpWrite (hpWord 1 n) (stamp s)).train.hp = tset {} s.train.hp n (stagedHp s) := by
      rw [hpWrite_store, hpStoreEffect_hp, stagedHp_storeReg, stagedHp_stamp, storeReg_train, stamp_train]
    refine ⟨_, congrArg Host.Outcome.next (busWrite_accepted hacc hcheck), ?_, fun m hm => ?_, rfl⟩
    · rw [emit_train, hhp, tget_tset_self]
    · rw [emit_train, hhp, tget_tset_ne _ _ _ hm]
  case hpLoaded =>
    refine ⟨_, congrArg Host.Outcome.next (busWrite_accepted hacc (hpCheck_load ..)), ?_, fun x hx => ?_, rfl⟩
    · rw [emit_train, hpWrite_load, hpLoadEffect_train, storeReg_train, stamp_train]
    · rw [reg_emit, hpWrite_load, reg_hpLoadEffect _ _ x hx, storeReg_train, stamp_train, hpWordAt]
  case salt =>
    refine ⟨_, congrArg Host.Outcome.next (busWrite_accepted hacc rfl), ?_, fun m hm => ?_, rfl⟩
    · rw [emit_keys, saltStore_salts, tget_tset_self]
    · rw [emit_keys, saltStore_salts, tget_tset_ne _ _ _ hm]

section
/-! PROOFS. The registers of the cellar (`Obligations.CellarRegistersComplete`): the copy of a descriptor does not read the register that
selects it, and a part that a register sets shows what was written. -/
namespace Sys2Proof.Machine

variable {s t : State} {page off : Nat} {v : Word64}

/-- The work of the tiers and casks writes no register. -/
theorem CellarWork.regs (h : CellarWork s t) : t.regs = s.regs := by
  induction h with
  | refl => rfl
  | other _ ih => exact ih
  | t4Gone _ ih =>
    rw [modVerOf_places]
    exact ih

/-! ### The copy of a descriptor (R183) -/

theorem caskDesc_stamp (s : State) (i : Nat) : caskDesc (stamp s) i = caskDesc s i := by
  rw [stamp_only]
  rfl

theorem caskDesc_storeReg (page off : Nat) (v : Word64) (s : State) (i : Nat) : caskDesc (storeReg page off v s) i = caskDesc s i := by
  rw [storeReg_only]
  rfl

/-- The copy alone changes in the cellar. -/
theorem caskSelect_stamp_cellar (v : Word64) (s : State) :
    (caskSelect v (stamp s)).cellar = { s.cellar with descCopy := caskDesc s (fld v 0 12) } := by
  have hcellar : (storeReg pgCellar 0x0C8 v (stamp s)).cellar = s.cellar := by rw [storeReg_only, stamp_only]
  have hdesc := (caskDesc_storeReg pgCellar 0x0C8 v (stamp s) (fld v 0 12)).trans (caskDesc_stamp s _)
  calc (caskSelect v (stamp s)).cellar
      = { (storeReg pgCellar 0x0C8 v (stamp s)).cellar with
          descCopy := caskDesc (storeReg pgCellar 0x0C8 v (stamp s)) (fld v 0 12) } := rfl
    _ = { s.cellar with descCopy := caskDesc s (fld v 0 12) } := by rw [hcellar, hdesc]

/-! ### The parts of the cellar (R163) -/

/-- The check of a raise reads the cellar, the casks and the gyles: not the clock. -/
theorem partCheck_stamp (page : Nat) (v : Word64) (s : State) : partCheck page v (stamp s) = partCheck page v s := by
  rw [stamp_only]
  rfl

theorem partNow_of_regs (h : t.regs = s.regs) (page : Nat) : partNow t page = partNow s page := by
  simp only [partNow, dirCellarMib, scratchMib, ullageMib, regFld, reg, h]

theorem regFld_storeReg_self {u : PageUnit} {n : Nat} {r : RegSpec} (hu : pageUnit page = some (u, n)) (hr : regSpec u off = some r)
    (lo len : Nat) : regFld (storeReg page off v s) page off lo len = fld (r.stored v) lo len := by
  simp [storeReg, hu, hr, regFld]

theorem partNow_grist (s : State) : partNow s pgGrist = regFld s pgGrist 0x090 0 10 := if_pos rfl

theorem partNow_train (s : State) : partNow s pgTrain = regFld s pgTrain 0x098 0 12 := by
  rw [partNow, if_neg (by decide), if_pos rfl, scratchMib]

theorem partNow_cellar (s : State) : partNow s pgCellar = regFld s pgCellar 0x080 0 12 := by
  rw [partNow, if_neg (by decide), if_neg (by decide), ullageMib]

/-- The register of a part that a write stores shows the written size. -/
theorem partNow_storeReg (h : isPart page off = true) : partNow (storeReg page off v s) page = partMib page v := by
  simp only [isPart, Bool.or_eq_true, Bool.and_eq_true, decide_eq_true_eq] at h
  obtain (⟨rfl, rfl⟩ | ⟨rfl, rfl⟩) | ⟨rfl, rfl⟩ := h
  · rw [partNow_grist, regFld_storeReg_self (u := .grist) rfl rfl, partMib, if_pos rfl]
    simp [RegSpec.stored, packFields, atBit, fld]
  · rw [partNow_train, regFld_storeReg_self (u := .train) rfl rfl, partMib, if_neg (by decide)]
    simp [RegSpec.stored, packFields, atBit, fld]
  · rw [partNow_cellar, regFld_storeReg_self (u := .cellar) rfl rfl, partMib, if_neg (by decide)]
    simp only [fld, RegSpec.stored, packFields, atBit, Bool.or_eq_true, ite_mul, zero_mul, List.foldl_cons, Bool.false_eq_true,
      or_self, ↓reduceIte, Nat.reducePow, zero_add, pow_zero, Nat.div_one, mul_one, List.foldl_nil, BitVec.toNat_ofNat,
      Nat.reduceDvd, Nat.mod_mod_of_dvd, Nat.add_mod_mod]
    omega

/-- What a raise does beside its register is work of the casks. -/
theorem partWrite_regs (page off : Nat) (v : Word64) (s : State) : (partWrite page off v s).regs = (storeReg page off v s).regs := by
  unfold partWrite releaseBy
  exact (CellarWork.releaseFrom (.coverGrowth (.cellar .refl))).regs

/-- A raise shows the written size at once, while its bytes still free. -/
theorem partNow_partWrite (h : isPart page off = true) : partNow (partWrite page off v s) page = partMib page v := by
  rw [partNow_of_regs (partWrite_regs page off v s), partNow_storeReg h]

theorem partNow_emit (s : State) (o : Output) (page : Nat) : partNow (emit s o) page = partNow s page := partNow_of_regs rfl page

theorem refuseWrite_stamp_regs (s : State) (page off : Nat) (role : Role) (status : Nat) :
    (refuseWrite (stamp s) page off role status).regs = s.regs := by
  rw [refuseWrite_only, stamp_only]

/-- A raise of a part is a write of its register. -/
theorem execCellarPartRaise_raises {page off : BitVec 12} {role : Role} (hpart : isPart page.toNat off.toNat = true)
    (hraise : partNow s page.toNat < partMib page.toNat v) : execCellarPartRaise page off v role s =
      .next (busWrite page.toNat off.toNat v role (partCheck page.toNat v) (partWrite page.toNat off.toNat v) s) := by
  simp [execCellarPartRaise, hpart, hraise]

end Sys2Proof.Machine
end

open Sys2Proof.Machine in
/-- Settles O33: an accepted write stores its register before the casks serve it, and a refused one reaches no register. -/
theorem cellarRegistersComplete : Obligations.CellarRegistersComplete := by
  unfold Obligations.CellarRegistersComplete
  intro v role s
  refine ⟨fun hacc => ?selected, fun page off hpart hraise hacc hcheck => ?raised, fun page off hpart hraise hacc st hcheck => ?refused⟩
  case selected => exact ⟨_, congrArg Host.Outcome.next (busWrite_accepted hacc rfl), caskSelect_stamp_cellar .., rfl⟩
  case raised =>
    have hcheck' : partCheck page.toNat v (stamp s) = none := by rw [partCheck_stamp, hcheck]
    exact ⟨_, (execCellarPartRaise_raises hpart hraise).trans (congrArg Host.Outcome.next (busWrite_accepted hacc hcheck')),
      (partNow_emit ..).trans (partNow_partWrite hpart), rfl⟩
  case refused =>
    have hcheck' : partCheck page.toNat v (stamp s) = some st := by rw [partCheck_stamp, hcheck]
    exact ⟨_, (execCellarPartRaise_raises hpart hraise).trans (congrArg Host.Outcome.next (busWrite_refused hacc hcheck')),
      partNow_of_regs (refuseWrite_stamp_regs ..) _, refuseWrite_stamp_onlyEventsAndPorts .., rfl⟩

section
/-! PROOFS. What the work on casks, copies, gyles, tuns and contexts leaves: it counts nothing in the cellar and no SRAM word, and takes no
context down. Pins change by `PIN`, `UNPIN`, a purge, a publication and a context's reset alone (R170), the cellar's counts by reads of the
cellar (R164). -/
namespace Sys2Proof.Machine

-- Each proof waits for the one before it: all at once would each hold a thread.
set_option Elab.async false

/-- What the cellar counts for hosts: the pin records, and the scrub's place and errors. -/
abbrev Cellar.counts (x : Cellar) : List PinRec × Nat × Nat × Nat := (x.pins, x.scrubAddr, x.corrected, x.uncorrectable)

/-- Between `s` and `t` the counts of the cellar and of SRAM words stand, and no context goes `DOWN`. -/
structure CountsStand (s t : State) : Prop where
  counts : t.cellar.counts = s.cellar.counts := by with_reducible rfl
  sram : t.integrity.sramUncorrectable = s.integrity.sramUncorrectable := by with_reducible rfl
  up : ∀ c, (s.ctx c).st ≠ .down → (t.ctx c).st ≠ .down := by exact fun _ h => h

variable {s₀ s t : State} {c : Nat}

protected theorem CountsStand.refl (s : State) : CountsStand s s := {}

protected theorem CountsStand.trans {u : State} (h : CountsStand s t) (k : CountsStand t u) : CountsStand s u where
  counts := k.counts.trans h.counts
  sram := k.sram.trans h.sram
  up c hc := k.up c (h.up c hc)

theorem CountsStand.pins (h : CountsStand s t) : t.cellar.pins = s.cellar.pins := congrArg (·.1) h.counts

theorem CountsStand.scrubAddr (h : CountsStand s t) : t.cellar.scrubAddr = s.cellar.scrubAddr := congrArg (·.2.1) h.counts

theorem CountsStand.corrected (h : CountsStand s t) : t.cellar.corrected = s.cellar.corrected := congrArg (·.2.2.1) h.counts

theorem CountsStand.uncorrectable (h : CountsStand s t) : t.cellar.uncorrectable = s.cellar.uncorrectable := congrArg (·.2.2.2) h.counts

/-- An update of other parts of the state. -/
protected theorem CountsStand.same {gauger log pages cat catStaged staging catRetiring dir dirStaged dirOld handles gyles tuns heldGroups
      orphans nextHold ports spillUsed cellar tiers train homes kiln integrity repair boundary glob outs freeCtr} (h : CountsStand s₀ s)
    (hcounts : cellar.counts = s.cellar.counts := by with_reducible rfl)
    (hsram : integrity.sramUncorrectable = s.integrity.sramUncorrectable := by with_reducible rfl) :
    CountsStand s₀ { s with
      gauger, log, pages, cat, catStaged, staging, catRetiring, dir, dirStaged, dirOld, handles, gyles, tuns, heldGroups, orphans,
      nextHold, ports, spillUsed, cellar, tiers, train, homes, kiln, integrity, repair, boundary, glob, outs, freeCtr } :=
  h.trans { counts := hcounts, sram := hsram }

protected theorem CountsStand.foldl {α : Type} {g : State → α → State} {l : List α} (h : CountsStand s₀ s)
    (hg : ∀ {t}, CountsStand s₀ t → ∀ a, CountsStand s₀ (g t a)) : CountsStand s₀ (l.foldl g s) :=
  List.foldlRecOn l g h fun _ ht a _ => hg ht a

protected theorem CountsStand.foldl_fst {α β : Type} {g : State × β → α → State × β} {l : List α} {p : State × β}
    (h : CountsStand s₀ p.1) (hg : ∀ {q}, CountsStand s₀ q.1 → ∀ a, CountsStand s₀ (g q a).1) : CountsStand s₀ (l.foldl g p).1 :=
  List.foldlRecOn l g (motive := fun q => CountsStand s₀ q.1) h fun _ hq a _ => hg hq a

protected theorem CountsStand.ite {p : Prop} [Decidable p] (hs : CountsStand s₀ s) (ht : CountsStand s₀ t) :
    CountsStand s₀ (if p then s else t) := by
  split
  · exact hs
  · exact ht

/-! ### Events, records and faults -/

protected theorem CountsStand.stamp (h : CountsStand s₀ s) : CountsStand s₀ (stamp s) := by
  rw [stamp_only]
  exact h.same

protected theorem CountsStand.bumpFree (h : CountsStand s₀ s) : CountsStand s₀ (bumpFree s) := h.same

protected theorem CountsStand.raiseAt {page cls seq} (h : CountsStand s₀ s) : CountsStand s₀ (raiseAt s page cls seq) := h.same

protected theorem CountsStand.raise {page cls} (h : CountsStand s₀ s) : CountsStand s₀ (raise s page cls) := h.raiseAt

protected theorem CountsStand.logNow {page code tenant submitter fid payload} (h : CountsStand s₀ s) :
    CountsStand s₀ (logNow s page code tenant submitter fid payload) := by
  have hlog {seq} : CountsStand s₀ (logAt s seq page code tenant submitter fid payload) := by
    fun_cases logAt s seq page code tenant submitter fid payload
    · exact h.same
    · exact h.same.raiseAt
  exact hlog

protected theorem CountsStand.emit {o} (h : CountsStand s₀ s) : CountsStand s₀ (emit s o) := h.same

protected theorem CountsStand.emitAll {os} (h : CountsStand s₀ s) : CountsStand s₀ (emitAll s os) := h.same

protected theorem CountsStand.sendMsg {m} (h : CountsStand s₀ s) : CountsStand s₀ (sendMsg s m) := by
  fun_cases sendMsg s m
  · exact h
  · exact h.same.emit

protected theorem CountsStand.sendReq {m gk} (h : CountsStand s₀ s) : CountsStand s₀ (sendReq s m gk) := h.sendMsg.same

protected theorem CountsStand.newFaultNow {o source first detail} (h : CountsStand s₀ s) :
    CountsStand s₀ (newFaultNow s o source first detail) := by
  unfold newFaultNow
  extract_lets _ _ s1 _
  have h1 : CountsStand s₀ s1 := h.same
  exact h1.logNow.raise

protected theorem CountsStand.newFault {o source first detail} (h : CountsStand s₀ s) : CountsStand s₀ (newFault s o source first detail) :=
  h.stamp.newFaultNow

theorem countLevel_sramUncorrectable (i : Integrity) (level : Nat) : (countLevel i level).sramUncorrectable = i.sramUncorrectable := by
  fun_cases countLevel i level <;> rfl

protected theorem CountsStand.enterLevel {id o source first level} (h : CountsStand s₀ s) :
    CountsStand s₀ (enterLevel s id o source first level) := by
  unfold enterLevel
  extract_lets prev s1 epoch i s2 s3
  have h2 : CountsStand s₀ s2 := h.stamp.same (hsram := countLevel_sramUncorrectable ..)
  have h3 : CountsStand s₀ s3 := h2.logNow
  exact h3.raise.ite h3

protected theorem CountsStand.startFault {o source level detail} (h : CountsStand s₀ s) : CountsStand s₀ (startFault s o source level detail) := by
  fun_cases startFault s o source level detail
  · exact h.enterLevel
  · exact h
  · exact h.newFault.enterLevel

protected theorem CountsStand.setFaultLevel {id level} (h : CountsStand s₀ s) : CountsStand s₀ (setFaultLevel s id level) := h.same

protected theorem CountsStand.repeatFault {c cause fid} (h : CountsStand s₀ s) : CountsStand s₀ (repeatFault s c cause fid) := h.logNow

protected theorem CountsStand.endFault {o} (h : CountsStand s₀ s) : CountsStand s₀ (endFault s o) := h.same

/-! ### Parts of the state -/

protected theorem CountsStand.setTun {n x} (h : CountsStand s₀ s) : CountsStand s₀ (setTun s n x) := h.same

protected theorem CountsStand.modTun {n f} (h : CountsStand s₀ s) : CountsStand s₀ (modTun s n f) := h.setTun

protected theorem CountsStand.modPort {p f} (h : CountsStand s₀ s) : CountsStand s₀ (modPort s p f) := h.same

protected theorem CountsStand.modCask {i f} (h : CountsStand s₀ s) : CountsStand s₀ (modCask s i f) := h.same

protected theorem CountsStand.modGyle {k f} (h : CountsStand s₀ s) : CountsStand s₀ (modGyle s k f) := by
  rw [modGyle_only]
  exact h.same

protected theorem CountsStand.modAdapter {a f} (h : CountsStand s₀ s) : CountsStand s₀ (modAdapter s a f) := h.same

protected theorem CountsStand.issueReq {r} (h : CountsStand s₀ s) : CountsStand s₀ (issueReq s r) := by
  fun_cases issueReq s r <;> exact h.same

protected theorem CountsStand.startXfer {use write addr bytes data} (h : CountsStand s₀ s) :
    CountsStand s₀ (startXfer s use write addr bytes data) := by
  unfold startXfer
  extract_lets _ _ _ s1
  have h1 : CountsStand s₀ s1 := h.same
  exact h1.foldl fun k _ => k.issueReq

protected theorem CountsStand.dropXfers {p} (h : CountsStand s₀ s) : CountsStand s₀ (dropXfers s p) := h.same

/-! ### Contexts and commands -/

/-- A change of a context that leaves it up. -/
protected theorem CountsStand.setCtx {x} (h : CountsStand s₀ s) (hx : (s.ctx c).st ≠ .down → x.st ≠ .down) :
    CountsStand s₀ (setCtx s c x) :=
  h.trans
    { counts := rfl
      sram := rfl
      up := fun d hd => by
        by_cases hdc : d = c
        · subst hdc
          simpa using hx hd
        · rwa [setCtx_ctx_ne _ _ hdc] }

protected theorem CountsStand.modCtx {f} (h : CountsStand s₀ s) (hf : ∀ x : Ctx, (f x).st = x.st := by exact fun _ => rfl) :
    CountsStand s₀ (modCtx s c f) :=
  h.setCtx fun hc => (hf _).symm ▸ hc

protected theorem CountsStand.setCtxNow {st} (h : CountsStand s₀ s) (hst : st ≠ .down) : CountsStand s₀ (setCtxNow s c st) :=
  (h.setCtx fun _ => hst).raise

protected theorem CountsStand.setCtxState {st} (h : CountsStand s₀ s) (hst : st ≠ .down) : CountsStand s₀ (setCtxState s c st) := by
  fun_cases setCtxState s c st
  · exact h
  · exact (h.setCtx fun _ => hst).stamp.raise

protected theorem CountsStand.settle (h : CountsStand s₀ s) : CountsStand s₀ (settle s c) := by
  fun_cases settle s c
  · exact h.setCtxState (by decide)
  · exact h

protected theorem CountsStand.pump (h : CountsStand s₀ s) : CountsStand s₀ (pump s c) := by
  fun_cases pump s c with
  | case1 _ x addr s1 =>
    have h1 : CountsStand s₀ s1 := h.setCtx fun hc => hc
    exact ((h1.setCtxState (by decide)).ite h1).startXfer
  | case2 => exact h

protected theorem CountsStand.afterCmd (h : CountsStand s₀ s) : CountsStand s₀ (afterCmd s c) := h.settle.pump

protected theorem CountsStand.postRecord {opcode status cflags sqIndex gyle result done} (h : CountsStand s₀ s) :
    CountsStand s₀ (postRecord s c opcode status cflags sqIndex gyle result done) := by
  fun_cases postRecord s c opcode status cflags sqIndex gyle result done with
  | case1 => exact h.setCtx fun hc => hc
  | case2 x _ k addr s1 =>
    have h1 : CountsStand s₀ s1 := h.setCtx fun hc => hc
    exact h1.startXfer

protected theorem CountsStand.doneCmd {fr d result} (h : CountsStand s₀ s) : CountsStand s₀ (doneCmd s c fr d result) :=
  h.postRecord.modCtx.afterCmd

protected theorem CountsStand.completeLater {cmd status cflags result} (h : CountsStand s₀ s) :
    CountsStand s₀ (completeLater s c cmd status cflags result) :=
  h.modCtx.postRecord.afterCmd

/-! ### The kiln's log and journal -/

protected theorem CountsStand.issueFlash {d cs} (h : CountsStand s₀ s) : CountsStand s₀ (issueFlash s d cs) := h.emitAll

protected theorem CountsStand.modBlock {b f} (h : CountsStand s₀ s) : CountsStand s₀ (modBlock s b f) := h.same

protected theorem CountsStand.openBlock {a b} (h : CountsStand s₀ s) : CountsStand s₀ (openBlock s a b) := by
  fun_cases openBlock s a b
  · exact h.modBlock.same
  · exact h.modBlock.same
  · exact h.modBlock.same
  · exact h.modBlock

protected theorem CountsStand.takePages {a n x} (h : CountsStand s₀ s) (ht : takePages s a n = some x) : CountsStand s₀ x.1 := by
  revert ht
  fun_cases takePages s a n
  · rintro ⟨⟩
    dsimp only
    exact h.modBlock
  · rintro ⟨⟩
  · rintro ⟨⟩
  · rintro ⟨⟩
    dsimp only
    exact (h.ite h.modBlock).openBlock.modBlock

protected theorem CountsStand.issueProgram {slc p} (h : CountsStand s₀ s) : CountsStand s₀ (issueProgram s slc p) := h.issueFlash

protected theorem CountsStand.programPage {slc p page} (h : CountsStand s₀ s) : CountsStand s₀ (programPage s slc p page) := h.same.issueProgram

protected theorem CountsStand.programParity {slc stripe} (h : CountsStand s₀ s) : CountsStand s₀
    (programParity s slc stripe) := h.programPage.programPage

protected theorem CountsStand.programRuns {slc key index runs chunks} (h : CountsStand s₀ s) : CountsStand s₀
    (programRuns s slc key index runs chunks) :=
  (h.foldl fun k _ => k.programPage).foldl fun k _ => k.programParity

protected theorem CountsStand.writePages {a key index ct x} (h : CountsStand s₀ s) (ht : writePages s a key index ct = some x) :
    CountsStand s₀ x.1 := by
  obtain ⟨_, htaken, rfl⟩ := Option.map_eq_some_iff.mp ht
  exact (h.takePages htaken).programRuns

protected theorem CountsStand.startErase {b} (h : CountsStand s₀ s) : CountsStand s₀ (startErase s b) := by
  unfold startErase
  extract_lets _ _ _ _ s1
  have h1 : CountsStand s₀ s1 := h.modBlock.same
  exact h1.foldl fun k _ => k.issueFlash

protected theorem CountsStand.startCheckpoint (h : CountsStand s₀ s) : CountsStand s₀ (startCheckpoint s) := by
  fun_cases startCheckpoint s
  · exact h
  · exact (h.foldl fun k _ => k.startErase).same

protected theorem CountsStand.journalPut {j} (h : CountsStand s₀ s) : CountsStand s₀ (journalPut s j) := by
  unfold journalPut
  extract_lets s1 j1 j2 _ s2
  have h1 : CountsStand s₀ s1 := by
    unfold s1
    split
    · exact (h.takePages ‹_›).foldl fun k _ => k.issueProgram
    · exact h
  have h2 : CountsStand s₀ s2 := h1.same
  exact h2.startCheckpoint.ite h2

protected theorem CountsStand.enterShared {epoch v} (h : CountsStand s₀ s) : CountsStand s₀ (enterShared s epoch v) := by
  fun_cases enterShared s epoch v
  · exact h.stamp.journalPut
  · exact h

protected theorem CountsStand.writeTensor {x epoch v i} (h : CountsStand s₀ s) : CountsStand s₀ (writeTensor s x epoch v i) := by
  fun_cases writeTensor s x epoch v i
  · exact h
  · exact (h.writePages ‹_›).bumpFree.journalPut

/-! ### Copies and casks -/

protected theorem CountsStand.refreshHolds (h : CountsStand s₀ s) : CountsStand s₀ (refreshHolds s) := h.foldl fun k _ => k.modCask

protected theorem CountsStand.countUse {epoch a v} (h : CountsStand s₀ s) : CountsStand s₀ (countUse s epoch a v) := by
  fun_cases countUse s epoch a v
  · exact h.same.modCask
  · exact h.same

protected theorem CountsStand.sendTensor {m v i} (h : CountsStand s₀ s) : CountsStand s₀ (sendTensor s m v i) := h.sendMsg

protected theorem CountsStand.writeT3 {b w} (h : CountsStand s₀ s) : CountsStand s₀ (writeT3 s b w) := by
  unfold writeT3
  extract_lets v s1 n
  have h1 : CountsStand s₀ s1 := h.foldl fun k _ => k.sendTensor
  exact h1.same

protected theorem CountsStand.modVerOf {epoch a v f} (h : CountsStand s₀ s) : CountsStand s₀ (modVerOf s epoch a v f) := by
  fun_cases modVerOf s epoch a v f <;> exact h.same

protected theorem CountsStand.backToT4 {epoch a v idx} (h : CountsStand s₀ s) : CountsStand s₀ (backToT4 s epoch a v idx) := by
  fun_cases backToT4 s epoch a v idx
  · exact h
  · exact (h.foldl fun k _ => k.stamp.writeTensor).modVerOf

protected theorem CountsStand.dropWarm {w} (h : CountsStand s₀ s) : CountsStand s₀ (dropWarm s w) := by
  fun_cases dropWarm s w
  · exact h.same.backToT4.writeT3
  · exact h.same.backToT4

protected theorem CountsStand.makeT2 {need below} (h : CountsStand s₀ s) : CountsStand s₀ (makeT2 s need below) := by
  fun_cases makeT2 s need below
  · exact h
  · exact h
  · exact h.foldl fun k _ => k.ite k.dropWarm

protected theorem CountsStand.addWarm {w idx} (h : CountsStand s₀ s) : CountsStand s₀ (addWarm s w idx) := by
  unfold addWarm
  extract_lets v clear tiers s1 same warm
  have h1 : CountsStand s₀ s1 := by
    unfold s1
    split
    · exact h
    · exact h.same
  exact h1.same

protected theorem CountsStand.placeWarm {w idx} (h : CountsStand s₀ s) : CountsStand s₀ (placeWarm s w idx) := by
  fun_cases placeWarm s w idx
  · exact h.makeT2.addWarm
  · exact h

protected theorem CountsStand.moveDownCask {c} (h : CountsStand s₀ s) : CountsStand s₀ (moveDownCask s c) := by
  fun_cases moveDownCask s c
  · exact h.makeT2.addWarm
  · exact h.backToT4

protected theorem CountsStand.demote {c} (h : CountsStand s₀ s) : CountsStand s₀ (demote s c) := by
  fun_cases demote s c
  · exact h
  · exact h.moveDownCask
  · exact h
  · exact h.placeWarm

protected theorem CountsStand.keepStreams {keep} (h : CountsStand s₀ s) : CountsStand s₀ (keepStreams s keep) := h.same

protected theorem CountsStand.dropCask {i} (h : CountsStand s₀ s) : CountsStand s₀ (dropCask s i) := h.same.keepStreams

protected theorem CountsStand.evictRaw {i} (h : CountsStand s₀ s) : CountsStand s₀ (evictRaw s i) := by
  fun_cases evictRaw s i
  · exact h.same.demote.dropCask
  · exact h.same.modCask

protected theorem CountsStand.moveUllage {i} (h : CountsStand s₀ s) : CountsStand s₀ (moveUllage s i) := by
  fun_cases moveUllage s i
  · exact h
  · exact CountsStand.ite (h.foldl fun k _ => k.evictRaw).modCask (h.foldl fun k _ => k.evictRaw)
  · exact h

protected theorem CountsStand.moveAllUllage (h : CountsStand s₀ s) : CountsStand s₀ (moveAllUllage s) := h.foldl fun k _ => k.moveUllage

protected theorem CountsStand.freeCask {i} (h : CountsStand s₀ s) : CountsStand s₀ (freeCask s i) := h.dropCask.refreshHolds.moveAllUllage

protected theorem CountsStand.evictAll {is} (h : CountsStand s₀ s) : CountsStand s₀ (evictAll s is) := (h.foldl fun k _ => k.evictRaw).refreshHolds

protected theorem CountsStand.freeStale (h : CountsStand s₀ s) : CountsStand s₀ (freeStale s) := h.foldl fun k _ => k.freeCask.ite k

protected theorem CountsStand.coverGrowth (h : CountsStand s₀ s) : CountsStand s₀ (coverGrowth s) := h.evictAll

/-! ### Admissions and releases -/

protected theorem CountsStand.addStream {i r} (h : CountsStand s₀ s) : CountsStand s₀ (addStream s i r) := by
  fun_cases addStream s i r
  · exact h
  · exact h.same

protected theorem CountsStand.placePart {r probation p} (h : CountsStand s₀ s) : CountsStand s₀ (placePart r probation s p) := by
  fun_cases placePart r probation s p
  · exact h.modCask
  · exact h
  · exact h.modCask.addStream

protected theorem CountsStand.placeParts {r probation} (h : CountsStand s₀ s) : CountsStand s₀ (placeParts s r probation) :=
  (h.foldl fun k _ => k.placePart).refreshHolds

protected theorem CountsStand.takeIndices {r probation} (h : CountsStand s₀ s) : CountsStand s₀ (takeIndices s r probation).s := by
  fun_cases takeIndices s r probation
  · exact h
  · exact h.evictAll.placeParts
  · exact h.evictAll

protected theorem CountsStand.evictAndPlace {r vs probation} (h : CountsStand s₀ s) : CountsStand s₀ (evictAndPlace s r vs probation).s := by
  fun_cases evictAndPlace s r vs probation
  · exact h.evictAll
  · exact h.evictAll.takeIndices
  · exact h.evictAll

protected theorem CountsStand.mainStep {r} (h : CountsStand s₀ s) : CountsStand s₀ (mainStep s r).s := by
  fun_cases mainStep s r
  · exact h.evictAndPlace
  · exact h

protected theorem CountsStand.probationStep {r} (h : CountsStand s₀ s) : CountsStand s₀ (probationStep s r).s := by
  fun_cases probationStep s r
  · exact (h.ite h.same).mainStep
  · exact (h.ite h.same).evictAndPlace
  · exact (h.ite h.same).mainStep

protected theorem CountsStand.spaceSteps {r} (h : CountsStand s₀ s) : CountsStand s₀ (spaceSteps s r).s := by
  fun_cases spaceSteps s r
  · exact h.takeIndices
  · exact h
  · exact h.mainStep
  · exact h.probationStep

protected theorem CountsStand.tryAdmit {r} (h : CountsStand s₀ s) : CountsStand s₀ (tryAdmit s r).s := by
  fun_cases tryAdmit s r
  · exact h
  · exact h.evictAll.spaceSteps
  · exact h.evictAll

protected theorem CountsStand.retryOne {r} (h : CountsStand s₀ s) : CountsStand s₀ (retryOne s r).s := by
  fun_cases retryOne s r
  · exact h
  · exact h.takeIndices
  · exact h.tryAdmit
  · exact h
  · exact h.tryAdmit

protected theorem CountsStand.noteNoSpace {r} (h : CountsStand s₀ s) : CountsStand s₀ (noteNoSpace s r).1 := by
  fun_cases noteNoSpace s r
  · exact h
  · exact h.same

protected theorem CountsStand.endAttempt {a} (h : CountsStand s₀ a.s) : CountsStand s₀ (endAttempt a) := by
  fun_cases endAttempt a
  · exact h.moveAllUllage
  · exact h.moveAllUllage.noteNoSpace.same

protected theorem CountsStand.takeIn {r} (h : CountsStand s₀ s) : CountsStand s₀ (takeIn s r) := h.tryAdmit.endAttempt

protected theorem CountsStand.unqueue {r} (h : CountsStand s₀ s) : CountsStand s₀ (unqueue s r) := h.same

protected theorem CountsStand.retryAdmits {l} (h : CountsStand s₀ s) : CountsStand s₀ (retryAdmits l s) := by
  fun_induction retryAdmits l s with
  | case1 => exact h
  | case2 _ _ _ _ _ ih => exact ih (h.unqueue.retryOne).endAttempt
  | case3 _ _ _ _ ih => exact ih h

protected theorem CountsStand.modWaiting {f} (h : CountsStand s₀ s) : CountsStand s₀ (modWaiting s f) := h.same

protected theorem CountsStand.takePromises (h : CountsStand s₀ s) : CountsStand s₀ (takePromises s) := h.evictAll.modWaiting

protected theorem CountsStand.releaseFrom {free0} (h : CountsStand s₀ s) : CountsStand s₀ (releaseFrom free0 s) := by
  unfold releaseFrom
  extract_lets s1 _ s2
  have h1 : CountsStand s₀ s1 := h.refreshHolds.freeStale.moveAllUllage.coverGrowth.takePromises
  have h2 : CountsStand s₀ s2 := h1.same
  exact h2.retryAdmits

protected theorem CountsStand.releaseBy {f} (h : CountsStand s₀ s) (hf : ∀ {t}, CountsStand s₀ t → CountsStand s₀ (f t)) : CountsStand s₀
    (releaseBy s f) :=
  (hf h).releaseFrom

protected theorem CountsStand.release (h : CountsStand s₀ s) : CountsStand s₀ (release s) := h.releaseFrom

protected theorem CountsStand.raiseAdmits {epoch a v} (h : CountsStand s₀ s) : CountsStand s₀ (raiseAdmits s epoch a v) :=
  h.foldl fun k _ => k.unqueue.retryOne.endAttempt

protected theorem CountsStand.noteUser {c epoch vs} (h : CountsStand s₀ s) : CountsStand s₀ (noteUser s c epoch vs) := by
  fun_cases noteUser s c epoch vs
  · exact h
  · exact h.same.modWaiting

protected theorem CountsStand.needCasks {r v basis} (h : CountsStand s₀ s) : CountsStand s₀ (needCasks s r v basis) := by
  fun_cases needCasks s r v basis
  · exact h.noteUser
  · exact h.noteUser.raiseAdmits
  · exact h.noteUser
  · exact h.noteUser
  · exact h.noteUser.takeIn

protected theorem CountsStand.unbindGyle {x} (h : CountsStand s₀ s) : CountsStand s₀
    (unbindGyle s x) := h.releaseBy fun k => k.foldl fun k2 _ => k2.modCask

protected theorem CountsStand.staleCask {epoch a v} (h : CountsStand s₀ s) : CountsStand s₀ (staleCask s epoch a v) := by
  fun_cases staleCask s epoch a v
  · exact h
  · exact h.freeCask
  · exact h.modCask

/-! ### Gyles -/

protected theorem CountsStand.dropGyle {k} (h : CountsStand s₀ s) : CountsStand s₀ (dropGyle s k) := h.same

protected theorem CountsStand.freeResv {x slot row} (h : CountsStand s₀ s) : CountsStand s₀ (freeResv s x slot row) := by
  fun_cases freeResv s x slot row
  · exact h
  · exact h
  · exact (h.same.ite h.modPort).modGyle

protected theorem CountsStand.freeAllResv {x} (h : CountsStand s₀ s) : CountsStand s₀ (freeAllResv s x) := by
  fun_cases freeAllResv s x
  · exact h
  · exact h.foldl fun k _ => k.freeResv

protected theorem CountsStand.clearHeld {x} (h : CountsStand s₀ s) : CountsStand s₀ (clearHeld s x) := h.same

protected theorem CountsStand.clearWork {x} (h : CountsStand s₀ s) : CountsStand s₀ (clearWork s x) :=
  ((h.freeAllResv.foldl fun k _ => k.modPort).foldl fun k _ => k.modTun).clearHeld.same

protected theorem CountsStand.farCancel {g} (h : CountsStand s₀ s) : CountsStand s₀ (farCancel s g) := h.foldl fun k _ => k.sendMsg

protected theorem CountsStand.withdrawWords {c} (h : CountsStand s₀ s) : CountsStand s₀ (withdrawWords s c) := h.foldl fun k _ => k.emit.ite k

protected theorem CountsStand.pruneVersions (h : CountsStand s₀ s) : CountsStand s₀ (pruneVersions s) := by
  unfold pruneVersions
  extract_lets _ _ s1 _
  have h1 : CountsStand s₀ s1 := h.same
  exact h1.same

protected theorem CountsStand.freeHandles (h : CountsStand s₀ s) : CountsStand s₀ (freeHandles s) := h.same

protected theorem CountsStand.settleDirectory (h : CountsStand s₀ s) : CountsStand s₀ (settleDirectory s) := h.same

protected theorem CountsStand.endOldPrefetches {epoch} (h : CountsStand s₀ s) : CountsStand s₀ (endOldPrefetches s epoch) :=
  h.foldl fun k _ => k.foldl fun k2 _ => k2.stamp.completeLater.ite k2

protected theorem CountsStand.dropEpoch {epoch} (h : CountsStand s₀ s) : CountsStand s₀ (dropEpoch s epoch) :=
  h.releaseBy fun k => k.same.keepStreams.endOldPrefetches

protected theorem CountsStand.releaseEpoch (h : CountsStand s₀ s) : CountsStand s₀ (releaseEpoch s) := by
  fun_cases releaseEpoch s
  · exact h
  · exact h
  · exact (CountsStand.ite h (h.same.foldl fun k _ => k.sendMsg)).dropEpoch
  · exact h.ite (h.same.foldl fun k _ => k.sendMsg)

protected theorem CountsStand.releaseHolds {g} (h : CountsStand s₀ s) : CountsStand s₀ (releaseHolds s g) := (h.foldl fun k _ => k.sendMsg).same

protected theorem CountsStand.releaseGyle {x} (h : CountsStand s₀ s) : CountsStand s₀ (releaseGyle s x) := by
  fun_cases releaseGyle s x
  · exact h
  · exact h.releaseHolds.dropGyle.same.unbindGyle.pruneVersions.freeHandles.settleDirectory.releaseEpoch

protected theorem CountsStand.forgetCredit {x} (h : CountsStand s₀ s) : CountsStand s₀ (forgetCredit s x) := h.foldl fun k _ => k.modPort

protected theorem CountsStand.tearGyle {g} (h : CountsStand s₀ s) : CountsStand s₀ (tearGyle s g) := h.farCancel.clearWork.releaseGyle.forgetCredit

protected theorem CountsStand.stopGyle {g} (h : CountsStand s₀ s) : CountsStand s₀ (stopGyle s g) := h.farCancel.clearWork.modGyle

protected theorem CountsStand.openFar {x x'} (h : CountsStand s₀ s) : CountsStand s₀ (openFar s x x') := by
  fun_cases openFar s x x'
  · exact h
  · exact h.stamp.sendReq

protected theorem CountsStand.reopenFar {g} (h : CountsStand s₀ s) : CountsStand s₀ (reopenFar s g) := h.modGyle.foldl fun k _ => k.openFar

protected theorem CountsStand.rerunGyle {g} (h : CountsStand s₀ s) : CountsStand s₀ (rerunGyle s g) := h.modGyle.reopenFar

protected theorem CountsStand.rerunNow {x} (h : CountsStand s₀ s) : CountsStand s₀ (rerunNow s x) := by
  fun_cases rerunNow s x
  · exact h
  · exact h
  · exact h.stopGyle.rerunGyle

protected theorem CountsStand.endTraining {g} (h : CountsStand s₀ s) : CountsStand s₀ (endTraining s g) := by
  fun_cases endTraining s g
  · exact h.dropXfers.tearGyle
  · exact h.dropXfers.tearGyle.stamp.postRecord.afterCmd
  · exact h.dropXfers.tearGyle

/-! ### Publication -/

protected theorem CountsStand.revoke {a v purge} (h : CountsStand s₀ s) : CountsStand s₀ (revoke s a v purge).1 :=
    (h.foldl fun k _ => k.stamp.sendReq)

protected theorem CountsStand.revokeAll {olds} (h : CountsStand s₀ s) : CountsStand s₀ (revokeAll s olds).1 := by
  have h1 := h.foldl_fst (l := olds) (p := (s, ([] : List (Nat × AdapterId × Nat × Nat))))
    (g := fun acc p => ((revoke acc.1 p.1 p.2 false).1, acc.2 ++ (revoke acc.1 p.1 p.2 false).2)) fun k _ => k.revoke
  exact h1.refreshHolds.pruneVersions

protected theorem CountsStand.syncDirty {a} (h : CountsStand s₀ s) : CountsStand s₀ (syncDirty s a) := by
  fun_cases syncDirty s a
  · exact h
  · exact h.modCask

protected theorem CountsStand.markDirty {a v idx} (h : CountsStand s₀ s) : CountsStand s₀ (markDirty s a v idx) := by
  fun_cases markDirty s a v idx
  · exact h
  · exact h.same.syncDirty

protected theorem CountsStand.addDirty {v written dirty} (h : CountsStand s₀ s) : CountsStand s₀ (addDirty s v written dirty) := by
  fun_cases addDirty s v written dirty
  · exact h.same.markDirty
  · exact h.same.syncDirty

protected theorem CountsStand.noteDelta {v idx} (h : CountsStand s₀ s) : CountsStand s₀ (noteDelta s v idx) := by
  fun_cases noteDelta s v idx
  · exact h.same
  · exact h
  · exact h

protected theorem CountsStand.installCask {v old written commit} (h : CountsStand s₀ s) : CountsStand s₀ (installCask s v old written commit) := by
  unfold installCask
  extract_lets _ _ _ _ _ _ s1
  have h1 : CountsStand s₀ s1 := by
    unfold s1
    split
    · exact h
    · exact h.modCask.addStream.ite h.modCask
  exact h1.releaseBy fun k => k.staleCask

protected theorem CountsStand.noteSuperseded {epoch a v} (h : CountsStand s₀ s) :
    CountsStand s₀ (noteSuperseded s epoch a v) := h.same

protected theorem CountsStand.installVersion {v written commit dirty} (h : CountsStand s₀ s) : CountsStand s₀
    (installVersion s v written commit dirty) :=
  h.modAdapter.installCask.addDirty.noteDelta.noteSuperseded

protected theorem CountsStand.publishVersion {v written commit dirty} (h : CountsStand s₀ s) : CountsStand s₀
    (publishVersion s v written commit dirty).1 :=
  h.installVersion.revokeAll

/-! ### Lost data -/

protected theorem CountsStand.enqueue {x slot t ops rows} (h : CountsStand s₀ s) : CountsStand s₀ (enqueue s x slot t ops rows) := h.modTun.modGyle

protected theorem CountsStand.dropRow {x slot row} (h : CountsStand s₀ s) : CountsStand s₀ (dropRow s x slot row) :=
    (h.foldl fun k _ => k.modTun).same

protected theorem CountsStand.notePlaced {x} (h : CountsStand s₀ s) : CountsStand s₀ (notePlaced s x) := h.modGyle

protected theorem CountsStand.substitute {x slot row wantFallback} (h : CountsStand s₀ s) : CountsStand s₀
    (substitute s x slot row wantFallback) := by
  fun_cases substitute s x slot row wantFallback
  · exact h
  · exact h
  · exact h.dropRow.modGyle
  · exact h.dropRow.modGyle.modGyle
  · exact h.dropRow.modGyle.enqueue.notePlaced
  · exact h.dropRow.modGyle

protected theorem CountsStand.secondChoice {x slot row} (h : CountsStand s₀ s) : CountsStand s₀ (secondChoice s x slot row) := by
  fun_cases secondChoice s x slot row
  · exact h
  · exact h.modGyle
  · exact h.substitute

protected theorem CountsStand.settleBlocked (h : CountsStand s₀ s) : CountsStand s₀ (settleBlocked s) := by
  fun_cases settleBlocked s
  · exact h
  · exact h.foldl fun k _ => k.foldl fun k2 _ => by
      split
      · exact k2
      · exact k2.secondChoice.ite k2

protected theorem CountsStand.loseInGyle {a v at_ g} (h : CountsStand s₀ s) : CountsStand s₀ (loseInGyle a v at_ s g) := by
  fun_cases loseInGyle a v at_ s g
  · exact h.endTraining
  · exact h
  · exact h.foldl fun k _ => k.substitute
  · exact h

protected theorem CountsStand.updateLost {a} (h : CountsStand s₀ s) : CountsStand s₀ (updateLost s a) := by
  fun_cases updateLost s a
  · exact (h.same.logNow.raise.releaseBy (fun k => k.staleCask)).publishVersion.enterShared
  · exact h

protected theorem CountsStand.tensorLost {epoch a v idx} (h : CountsStand s₀ s) : CountsStand s₀ (tensorLost s epoch a v idx) := by
  fun_cases tensorLost s epoch a v idx
  · exact h
  · exact h
  · exact (h.modVerOf.same.logNow.raise.foldl fun k _ => k.loseInGyle).updateLost
  · exact h.modVerOf.same.logNow.raise.foldl fun k _ => k.loseInGyle

protected theorem CountsStand.streamAgain {i idx} (h : CountsStand s₀ s) : CountsStand s₀ (streamAgain s i idx) := h.same

protected theorem CountsStand.fetchAgain {i idx} (h : CountsStand s₀ s) : CountsStand s₀ (fetchAgain s i idx) := by
  fun_cases fetchAgain s i idx
  · exact h
  · exact h.modCask.modCask.tensorLost
  · exact h.modCask.streamAgain

protected theorem CountsStand.freeRanks {ops} (h : CountsStand s₀ s) : CountsStand s₀ (freeRanks s ops) := h.foldl fun k _ => k.modGyle

protected theorem CountsStand.noteReplay {x} (h : CountsStand s₀ s) : CountsStand s₀ (noteReplay s x) := h.modGyle

protected theorem CountsStand.replaySlice {x} (h : CountsStand s₀ s) : CountsStand s₀ (replaySlice s x) := by
  fun_cases replaySlice s x
  · exact h
  · exact h.rerunNow
  · exact h.freeRanks.same.noteReplay.setTun

protected theorem CountsStand.replaySlices {qs} (h : CountsStand s₀ s) : CountsStand s₀ (replaySlices s qs) := h.foldl fun k _ => k.replaySlice

protected theorem CountsStand.losePlace {x} (h : CountsStand s₀ s) : CountsStand s₀ (losePlace s x) := by
  fun_cases losePlace s x
  · exact h.fetchAgain
  · exact h.replaySlices
  · exact h
  · exact h

/-! ### Tuns -/

protected theorem CountsStand.setTunState {t st logical} (h : CountsStand s₀ s) : CountsStand s₀ (setTunState s t st logical) := by
  fun_cases setTunState s t st logical
  · exact h.setTun
  · exact h.setTun.raise

protected theorem CountsStand.moveRows {t ops} (h : CountsStand s₀ s) : CountsStand s₀ (moveRows s t ops) := h.foldl fun k _ => k.modGyle

protected theorem CountsStand.giveOps {t head ops} (h : CountsStand s₀ s) : CountsStand s₀ (giveOps s t head ops) := h.modTun.moveRows

protected theorem CountsStand.rePlace {ops} (h : CountsStand s₀ s) : CountsStand s₀ (rePlace s ops) :=
  h.foldl fun k _ => by
    split
    · exact k.giveOps
    · exact k.same

protected theorem CountsStand.endTunFault {t} (h : CountsStand s₀ s) : CountsStand s₀ (endTunFault s t) := by
  fun_cases endTunFault s t
  · exact h.endFault
  · exact h
  · exact h

protected theorem CountsStand.replayDone {id} (h : CountsStand s₀ s) : CountsStand s₀ (replayDone s id) := by
  fun_cases replayDone s id
  · exact h
  · exact h.setFaultLevel.foldl fun k _ => by
      split
      · exact k.endTunFault
      · exact k

protected theorem CountsStand.fenceTun {t source} (h : CountsStand s₀ s) : CountsStand s₀ (fenceTun s t source) := by
  unfold fenceTun
  extract_lets s1 x id live ops s2 s3 s4 s5 s6
  have h4 : CountsStand s₀ s4 := h.startFault.setTun.setTunState.freeRanks.foldl fun k _ => k.noteReplay
  have h5 : CountsStand s₀ s5 := h4.foldl fun k _ => k.modGyle
  have h6 : CountsStand s₀ s6 := by
    unfold s6
    split
    · exact h5.rePlace
    · refine CountsStand.raise ?_
      split
      · exact h5.setTunState.giveOps
      · exact h5.rePlace
  exact h6.replayDone.settleBlocked

/-! ### Remaps and resets -/

protected theorem CountsStand.appendMap {kind object data} (h : CountsStand s₀ s) :
    CountsStand s₀ (appendMap s kind object data) := by
  fun_cases appendMap s kind object data
  · exact h.same.raise
  · exact h.same

protected theorem CountsStand.beginRemap {die region fault} (h : CountsStand s₀ s) :
    CountsStand s₀ (beginRemap s die region fault) := by
  fun_cases beginRemap s die region fault
  · exact h.same
  · exact h.same
  · exact h

protected theorem CountsStand.requestWarm {cause} (h : CountsStand s₀ s) : CountsStand s₀ (requestWarm s cause) := by
  fun_cases requestWarm s cause
  · exact h
  · exact h.same

protected theorem CountsStand.levelSeven {id source first} (h : CountsStand s₀ s) : CountsStand s₀
    (levelSeven s id source first) := h.enterLevel.requestWarm

protected theorem CountsStand.levelFive {die region source} (h : CountsStand s₀ s) :
    CountsStand s₀ (levelFive s die region source) := by
  fun_cases levelFive s die region source
  · exact h
  · exact h.startFault.levelSeven
  · exact h.startFault.beginRemap

/-! ### Teardown and reset of a context -/

protected theorem CountsStand.endStream {st} (h : CountsStand s₀ s) : CountsStand s₀ (endStream s st) := by
  fun_cases endStream s st
  · exact h.keepStreams.freeCask
  · exact h.keepStreams

protected theorem CountsStand.cancelStreams {c} (h : CountsStand s₀ s) : CountsStand s₀ (cancelStreams s c) := (h.foldl fun k _ => k.endStream).same

protected theorem CountsStand.measureFreeze {r} (h : CountsStand s₀ s) : CountsStand s₀ (measureFreeze s r) := by
  fun_cases measureFreeze s r
  · exact h.same.bumpFree
  · exact h

protected theorem CountsStand.dropRack {r tell} (h : CountsStand s₀ s) : CountsStand s₀ (dropRack s r tell) := by
  fun_cases dropRack s r tell
  · exact h.same.sendMsg
  · exact h.same

protected theorem CountsStand.postEnding {c e} (h : CountsStand s₀ s) : CountsStand s₀ (postEnding c s e) := h.stamp.postRecord

protected theorem CountsStand.dropCmd {c m} (h : CountsStand s₀ s) : CountsStand s₀ (dropCmd c s m) := by
  fun_cases dropCmd c s m
  · exact h.same.releaseGyle
  · exact h.same.modGyle
  · exact h.same
  · exact h.same
  · exact h.same
  · exact h
  · exact h.dropRack
  · exact h.same
  · exact h
  · exact h
  · exact h.same
  · exact h.same
  · exact h

protected theorem CountsStand.teardown {c} (h : CountsStand s₀ s) : CountsStand s₀ (teardown s c) := by
  unfold teardown
  extract_lets _ s1 _ _ _ _ _ _ _ _ _
  have h1 : CountsStand s₀ s1 := by
    unfold s1
    split
    · exact h.modCtx.measureFreeze.ite h.modCtx
    · exact h.modCtx
  exact (((h1.withdrawWords.foldl fun k _ => k.tearGyle).foldl fun k _ => k.dropCmd).dropXfers.modCtx.foldl fun k _ => k.postEnding).modCtx

/-- A reset deletes pins of its context, and takes no other one down. -/
theorem resetCtx_up (h : (s.ctx c).st ≠ .down) {c' : Nat} : ((resetCtx s c').ctx c).st ≠ .down := by
  unfold resetCtx
  extract_lets s1 held s2 cellar s3
  have h1 : CountsStand s s1 := ((CountsStand.refl s).setCtxNow (by decide)).teardown
  have h2 : CountsStand s s2 := h1.foldl fun k _ => k.releaseGyle.forgetCredit
  have h4 : CountsStand s3 (release (cancelStreams (freeHandles s3) c')) := (CountsStand.refl s3).freeHandles.cancelStreams.release
  exact h4.up c (h2.up c h)

theorem levelFour_up {id : Seq} {source first c' : Nat} (h : (s.ctx c).st ≠ .down) : ((levelFour s c' id source first).ctx c).st ≠ .down := by
  fun_cases levelFour s c' id source first with
  | case1 | case2 => exact (CountsStand.refl s).repeatFault.up c h
  | case3 => exact resetCtx_up ((CountsStand.refl s).enterLevel.stamp.up c h)
  | case4 s1 _ s2 =>
    have h2 : CountsStand s s2 := (CountsStand.refl s).enterLevel.stamp.modCtx
    exact resetCtx_up ((h2.logNow.setCtxNow (by decide)).raise.stamp.up c h)

end Sys2Proof.Machine
end

section
/-! PROOFS. `PIN` and `UNPIN` (`Obligations.PinCommandsComplete`): the record that a command writes, and that nothing which the command
causes writes another. -/
namespace Sys2Proof.Machine

variable {s t : State} {c : Nat} {fr : Front} {d : Desc} {img : List Byte}

/-! ### Look-ups at a command's turn (R213) -/

/-- A look-up stands among the requests once it is sent. -/
theorem askHome_requests (s : State) (epoch home submitter : Nat) (a : AdapterId) :
    ∃ r : Req, (askHome s epoch home submitter a).homes.requests = s.homes.requests ++ [r] ∧
      r.msg.type = 0x01 ∧ r.msg.dst = home ∧ r.msg.args = [a] := by
  have hsend (u : State) (m : Msg) : (sendMsg u m).homes.requests = u.homes.requests := by fun_cases sendMsg u m <;> rfl
  refine ⟨_, congrArg (· ++ _) ((hsend _ _).trans ?_), rfl, rfl, rfl⟩
  rw [stamp_homes]

/-- What each look-up leaves, they all leave. -/
theorem askAll_field {β : Type} (p : State → β) (hp : ∀ u epoch home submitter a, p (askHome u epoch home submitter a) = p u)
    (s : State) (cat : Catalogue) (submitter : Nat) (asked : Tab Nat) (ids : List AdapterId) :
    p (askAll s cat submitter asked ids).1 = p s :=
  List.foldlRecOn _ _ (motive := fun x : State × Tab Nat => p x.1 = p s) rfl fun _ hx _ _ => (hp ..).trans hx

theorem askAll_cat (s : State) (cat : Catalogue) (submitter : Nat) (asked : Tab Nat) (ids : List AdapterId) :
    (askAll s cat submitter asked ids).1.cat = s.cat :=
  askAll_field (·.cat) (fun u _ _ _ _ => (sendMsg_cat ..).trans (stamp_cat u)) ..

theorem askAll_ctxs (s : State) (cat : Catalogue) (submitter : Nat) (asked : Tab Nat) (ids : List AdapterId) :
    (askAll s cat submitter asked ids).1.ctxs = s.ctxs :=
  askAll_field (·.ctxs) (fun _ _ _ _ _ => (CellarWork.refl.stamp.sendMsg).ctxs) ..

theorem askAll_pins (s : State) (cat : Catalogue) (submitter : Nat) (asked : Tab Nat) (ids : List AdapterId) :
    (askAll s cat submitter asked ids).1.cellar.pins = s.cellar.pins :=
  askAll_field (·.cellar.pins) (fun u _ _ _ _ => ((CountsStand.refl u).stamp.sendReq).pins) ..

/-- Each adapter that was not asked for is asked for at its home. -/
theorem askAll_asks {cat : Catalogue} {submitter : Nat} {asked : Tab Nat} {ids : List AdapterId} :
    ∀ a ∈ ids, tget 0 asked a = 0 → ∃ r ∈ (askAll s cat submitter asked ids).1.homes.requests,
      r.msg.type = 0x01 ∧ r.msg.dst = homeOf cat a ∧ r.msg.args = [a] := by
  intro a ha hasked
  unfold askAll
  have hmem : a ∈ ids.filter fun a => tget 0 asked a = 0 := by simp [ha, hasked]
  generalize ids.filter (fun a => tget 0 asked a = 0) = l at hmem
  clear ha hasked
  induction l generalizing s asked with
  | nil => exact absurd hmem List.not_mem_nil
  | cons b l ih =>
    rcases List.mem_cons.mp hmem with rfl | hl
    · obtain ⟨r, hr, hask⟩ := askHome_requests s cat.epoch (homeOf cat a) submitter a
      have hstays : r ∈ (askHome s cat.epoch (homeOf cat a) submitter a).homes.requests := by simp [hr]
      refine ⟨r, List.foldlRecOn l _ (motive := fun x : State × Tab Nat => r ∈ x.1.homes.requests) hstays fun x hx b _ => ?_, hask⟩
      obtain ⟨r', hr', -⟩ := askHome_requests x.1 cat.epoch (homeOf cat b) submitter b
      exact hr' ▸ List.mem_append_left _ hx
    · exact ih hl

/-- A command whose adapters a look-up must tell of first stands at the front, and its look-ups are sent. -/
theorem lookFirst_looksUp {ids : List AdapterId} {body : State → State} (hfront : (s.ctx c).front = some fr)
    (h : unseen s fr.asked ids ≠ []) : LooksUp s (lookFirst c fr ids body s) c fr ids := by
  have hlooks : (unseen s fr.asked ids).isEmpty = false := List.isEmpty_eq_false_iff.mpr h
  have hctx (n : Nat) : (askAll s s.cat c fr.asked (unseen s fr.asked ids)).1.ctx n = s.ctx n := ctx_of_ctxs (askAll_ctxs ..) n
  simp only [lookFirst, hlooks, Bool.false_eq_true, if_false, LooksUp]
  refine ⟨?_, ?_, askAll_cat .., askAll_asks⟩
  · rw [modCtx_ctx_self, hctx]
  · rw [modCtx_ctx_self, hctx, hfront]
    rfl

theorem lookFirst_pins {ids : List AdapterId} {body : State → State} (h : unseen s fr.asked ids ≠ []) :
    (lookFirst c fr ids body s).cellar.pins = s.cellar.pins := by
  have hlooks : (unseen s fr.asked ids).isEmpty = false := List.isEmpty_eq_false_iff.mpr h
  simp only [lookFirst, hlooks, Bool.false_eq_true, if_false]
  exact askAll_pins ..

theorem lookFirst_known {ids : List AdapterId} {body : State → State} (h : unseen s fr.asked ids = []) :
    lookFirst c fr ids body s = body s := by
  simp [lookFirst, h]

/-! ### Pin records (R170) -/

theorem pinRecord_of_pins (h : t.cellar.pins = s.cellar.pins) (c : Nat) (a : AdapterId) : pinRecord t c a = pinRecord s c a := by
  rw [pinRecord, pinRecord, h]

theorem pinRecord_setPin_self (s : State) (c : Nat) (a : AdapterId) (n : Nat) : pinRecord (setPin s c a n) c a = n := by
  have hgone : (s.cellar.pins.filter fun p => !(p.ctx = c && p.adapter = a)).find? (fun p => p.ctx = c && p.adapter = a) = none := by
    simp only [List.find?_eq_none, List.mem_filter]
    rintro p ⟨-, hp⟩ hp'
    simp [hp'] at hp
  unfold pinRecord setPin
  split
  · simp only [hgone, ‹n = 0›, Option.map_none, Option.getD_none]
  · simp only [List.find?_append, hgone]
    simp

theorem pinRecord_setPin_ne {c' : Nat} {a a' : AdapterId} (n : Nat) (h : (c', a') ≠ (c, a)) :
    pinRecord (setPin s c a n) c' a' = pinRecord s c' a' := by
  have hother {p : PinRec} (hp : (p.ctx = c' && p.adapter = a') = true) : (p.ctx = c && p.adapter = a) = false := by
    simp only [Bool.and_eq_true, decide_eq_true_eq] at hp
    obtain ⟨rfl, rfl⟩ := hp
    simpa using h
  have hrest : (s.cellar.pins.filter fun p => !(p.ctx = c && p.adapter = a)).find? (fun p => p.ctx = c' && p.adapter = a') =
      s.cellar.pins.find? fun p => p.ctx = c' && p.adapter = a' := by
    rw [List.find?_filter]
    refine congrArg (List.find? · _) (funext fun p => ?_)
    cases hp : decide (p.ctx = c') && decide (p.adapter = a') with
    | false => simp
    | true => simp [hother hp]
  unfold pinRecord setPin
  split
  · rw [hrest]
  · rw [List.find?_append, hrest]
    have hnew : [({ ctx := c, adapter := a, count := n } : PinRec)].find? (fun p => p.ctx = c' && p.adapter = a') = none := by
      rw [List.find?_eq_none]
      intro p hp hp'
      exact Bool.false_ne_true ((hother hp').symm.trans (by simp [List.mem_singleton.mp hp]))
    rw [hnew, Option.or_none]

/-- A state in which one record has been written, and the other records are those of `s`. -/
theorem pinRecord_of_setPin {u : State} {a : AdapterId} {n : Nat} (hs : s.cellar.pins = u.cellar.pins)
    (h : CountsStand (setPin u c a n) t) :
    pinRecord t c a = n ∧ ∀ (c' : Nat) (a' : AdapterId), (c', a') ≠ (c, a) → pinRecord t c' a' = pinRecord s c' a' := by
  refine ⟨?_, fun c' a' hne => ?_⟩
  · rw [pinRecord_of_pins h.pins, pinRecord_setPin_self]
  · rw [pinRecord_of_pins h.pins, pinRecord_setPin_ne n hne, pinRecord_of_pins hs.symm]

/-- What a pin causes leaves the records (R170, R172). -/
theorem pinAdapter_setPin (c : Nat) (fr : Front) (d : Desc) (s : State) :
    CountsStand (setPin s c d.adapter (pinRecord s c d.adapter + 1)) (pinAdapter c fr d s) :=
  (CountsStand.refl _).needCasks.countUse.refreshHolds.doneCmd

theorem pin_accepted (h : Taken s c 0x12 fr d img) (hseen : unseen s fr.asked [d.adapter] = []) (hstate : stateStatus s c d.opcode = none)
    (htenant : tenantOk s c d.adapter = true) (hform : (headerOf s d.adapter).hdr.form ≠ .basis ∨ ctxFabric s c = true)
    (hadapter : adapterStatus s d.adapter = none) (hquota : pinQuota s c d.adapter = true)
    (hroom : 0 < pinRecord s c d.adapter ∨ s.cellar.pins.length < 16384) : pin c s = pinAdapter c fr d (stamp s) := by
  rw [pin, onFront_of_taken h, lookFirst_known hseen]
  simp [firstBad, need, decideCmd, hstate, htenant, hform, hadapter, hquota, hroom]

theorem pin_looksUp (h : Taken s c 0x12 fr d img) (hunseen : unseen s fr.asked [d.adapter] ≠ []) :
    LooksUp s (pin c s) c fr [d.adapter] ∧ (pin c s).cellar.pins = s.cellar.pins := by
  rw [pin, onFront_of_taken h]
  exact ⟨lookFirst_looksUp h.1 hunseen, lookFirst_pins hunseen⟩

section
variable (h : Taken s c 0x13 fr d img) (hstate : stateStatus s c d.opcode = none)
include h hstate

theorem unpin_counts (hrecord : 0 < pinRecord s c d.adapter) :
    CountsStand (setPin (stamp s) c d.adapter (pinRecord s c d.adapter - 1)) (unpin c s) := by
  have hstamp : pinRecord (stamp s) c d.adapter = pinRecord s c d.adapter := pinRecord_of_pins (CountsStand.refl s).stamp.pins ..
  rw [unpin, onFront_of_taken h]
  simp only [firstBad, hstate, needState, need, hrecord, decide_true, if_true, decideCmd, hstamp]
  exact (CountsStand.refl _).release.doneCmd

theorem unpin_refused (hrecord : pinRecord s c d.adapter = 0) :
    unpin c s = refuseCmd s c fr d.opcode d.gyle { status := stBadState } := by
  rw [unpin, onFront_of_taken h]
  simp [firstBad, hstate, needState, need, hrecord, decideCmd]

end

end Sys2Proof.Machine
end

open Sys2Proof Sys2Proof.Machine in
/-- Settles O6: an accepted command writes its own record at its event, and the admissions, releases and commands that follow from it write
none. -/
theorem pinCommandsComplete : Obligations.PinCommandsComplete := by
  unfold Obligations.PinCommandsComplete
  intro c s fr d img hcause hstate
  have hstamp : s.cellar.pins = (stamp s).cellar.pins := (CountsStand.refl s).stamp.pins.symm
  have hrecord : pinRecord (stamp s) c d.adapter = pinRecord s c d.adapter := pinRecord_of_pins hstamp.symm ..
  refine ⟨fun h hunseen => ?looksUp, fun h hseen htenant hform hadapter hquota hroom => ?pinned, fun h hcount => ?unpinned,
    fun h hnone => ?refused⟩
  case looksUp => exact ⟨_, rfl, pin_looksUp h hunseen⟩
  case pinned =>
    have hpin := pin_accepted h hseen hstate htenant hform hadapter hquota hroom
    have hcounts := pinAdapter_setPin c fr d (stamp s)
    rw [hrecord] at hcounts
    exact ⟨_, congrArg Host.Outcome.next hpin, pinRecord_of_setPin hstamp hcounts⟩
  case unpinned => exact ⟨_, rfl, pinRecord_of_setPin hstamp (unpin_counts h hstate hcount)⟩
  case refused => exact ⟨_, congrArg Host.Outcome.next (unpin_refused h hstate hnone), refuseCmd_refuses fr d _ hcause⟩

section
/-! PROOFS. The cellar's scrub and errors and the counts of SRAM words (part of `Obligations.IntegrityEventsComplete`). -/
namespace Sys2Proof.Machine

variable {s t : State}

/-! ### Codewords (R164 to R166) -/

protected theorem CountsStand.spareRow {s₀ : State} {die bank row} (h : CountsStand s₀ s) : CountsStand s₀ (spareRow s die bank row) := by
  unfold spareRow
  extract_lets b cellar s1 s2
  have h1 : CountsStand s₀ s1 := h.same
  exact h1.appendMap.ite h1.logNow.levelFive

/-- A corrected codeword is counted, wherever its row then moves. -/
theorem correctWord_counts (s : State) (addr : Nat) : (correctWord s addr).cellar.scrubAddr = s.cellar.scrubAddr ∧
    (correctWord s addr).cellar.corrected = sat 32 (s.cellar.corrected + 1) := by
  unfold correctWord
  extract_lets x again hits cellar s1
  have h : CountsStand s1 (if again then spareRow s1 x.1 x.2.1 x.2.2 else s1) := (CountsStand.refl s1).spareRow.ite (.refl s1)
  exact ⟨h.scrubAddr, h.corrected⟩

/-- A codeword beyond correction is counted, whatever is lost at its place. -/
theorem uncorrectableWord_counted (s : State) (addr : Nat) (place : CellarPlace) :
    ∃ uncorrRows, CountsStand
      { s with cellar := { s.cellar with uncorrectable := sat 16 (s.cellar.uncorrectable + 1), uncorrRows } }
      (uncorrectableWord s addr place) := by
  fun_cases uncorrectableWord s addr place
  · exact ⟨_, (CountsStand.refl _).logNow.losePlace.levelFive⟩
  · exact ⟨_, (CountsStand.refl _).logNow.losePlace⟩

theorem uncorrectableWord_counts (s : State) (addr : Nat) (place : CellarPlace) :
    (uncorrectableWord s addr place).cellar.scrubAddr = s.cellar.scrubAddr ∧
      (uncorrectableWord s addr place).cellar.uncorrectable = sat 16 (s.cellar.uncorrectable + 1) := by
  obtain ⟨rows, h⟩ := uncorrectableWord_counted s addr place
  exact ⟨h.scrubAddr, h.uncorrectable⟩

theorem scrubRead_clean (hready : s.glob.ready = true) (p : CellarPlace) : scrubRead p .clean s = nextScrub s := by
  simp [scrubRead, hready]

theorem scrubRead_corrected (hready : s.glob.ready = true) (p : CellarPlace) :
    scrubRead p .corrected s = nextScrub (correctWord (stamp s) s.cellar.scrubAddr) := by
  simp [scrubRead, hready]

theorem scrubRead_uncorrectable (hready : s.glob.ready = true) (p : CellarPlace) :
    scrubRead p .uncorrectable s = nextScrub (uncorrectableWord (stamp s) s.cellar.scrubAddr p) := by
  simp [scrubRead, hready]

theorem nextScrub_scrubAddr (s : State) : (nextScrub s).cellar.scrubAddr = (s.cellar.scrubAddr + 1) % 2 ^ 28 := rfl

/-- An error beyond correction is counted in place of the event that meets it (log entry 63). -/
theorem meetErrors_uncorrectable {e : CellarError} {event : State → State} (he : e.corrected = false)
    (hdue : (event s).gauger.seq ≠ s.gauger.seq) :
    (meetErrors [e] event s).cellar.uncorrectable = sat 16 (s.cellar.uncorrectable + 1) := by
  have hmet : meetErrors [e] event s = uncorrectableWord (stamp s) e.address.toNat e.place := by
    simp [meetErrors, hdue, he]
  rw [hmet, (uncorrectableWord_counts ..).2, stamp_cellar]

/-! ### SRAM words (R329) -/

/-- The count of SRAM words beyond correction has gone up by one from `s` to `t`. -/
def SramLost (s t : State) : Prop := t.integrity.sramUncorrectable = sat 32 (s.integrity.sramUncorrectable + 1)

theorem CountsStand.sramLost (h : CountsStand (countSram s false) t) : SramLost s t := h.sram

theorem tunFails_counts (s : State) (n source : Nat) (readable : Bool) : CountsStand s (tunFails s n source readable) := by
  fun_cases tunFails s n source readable
  · exact .refl s
  · exact (CountsStand.refl s).stamp.fenceTun
  · exact ((CountsStand.refl s).stamp.startFault.foldl fun k _ => k.rerunNow).fenceTun

theorem portWordLost_counts (s : State) (p c num : Nat) : CountsStand s (portWordLost s p c num) :=
  (CountsStand.refl s).stamp.startFault.rerunNow.endFault

theorem gristWordLost_counts (s : State) : CountsStand s (gristWordLost s) := (CountsStand.refl s).stamp.startFault.endFault

end Sys2Proof.Machine
end

section
/-! PROOFS. What a watchdog or a level that outlasts its budget does to tuns and gyles: fences and reruns (part of
`Obligations.IntegrityEventsComplete`). -/
namespace Sys2Proof.Machine

variable {s t : State} {n : Nat} {k : GyleKey} {g : Gyle}

/-! ### Tuns that are fenced (R110) -/

theorem fenceTun_st {source : Nat} (hrise : keysRise s.tuns = true) : ((fenceTun s n source).tun n).st = .fenced := by
  rw [fenceTun_tun hrise, Tun.fenced]

theorem tunFails_st {source : Nat} {readable : Bool} (hrise : keysRise s.tuns = true) (hst : (s.tun n).st = .active ∨ (s.tun n).st = .bist) :
    ((tunFails s n source readable).tun n).st = .fenced := by
  fun_cases tunFails s n source readable with
  | case1 h =>
    simp only [Bool.and_eq_true, decide_eq_true_eq] at h
    exact absurd hst (not_or.mpr h)
  | case2 => exact fenceTun_st ((Keeps.refl s).stamp.tuns hrise)
  | case3 => exact fenceTun_st (((Keeps.refl s).stamp.startFault.foldl fun k _ => k.rerunNow).tuns hrise)

theorem escalateTwo_st {f : FaultRec} (hrise : keysRise s.tuns = true) (hrun : replayTun s f.id = some n) :
    ((escalateTwo s f).tun n).st = .fenced := by
  unfold escalateTwo
  simp only [hrun]
  split
  · exact fenceTun_st ((Keeps.refl s).stamp.tuns hrise)
  · exact fenceTun_st ((Keeps.refl s).stamp.enterLevel.tuns hrise)

/-! ### Gyles that rerun (R341) -/

/-- The gyle stands before its sort again, and the rerun is counted. -/
def Gyle.Reran (g g' : Gyle) : Prop := g'.st = .sorted ∧ g'.slots = [] ∧ g'.replays = g.replays + 1

/-- Between `s` and `t` the gyle with key `k` stands and counts no rerun, and no other gyle changes. -/
structure Unwinds (k : GyleKey) (s t : State) : Prop where
  replays : (t.gyle k).map (·.replays) = (s.gyle k).map (·.replays)
  others : ∀ j ≠ k, t.gyle j = s.gyle j

protected theorem Unwinds.of_gyles (h : t.gyles = s.gyles) : Unwinds k s t :=
  ⟨by rw [gyle_of_gyles h], fun j _ => gyle_of_gyles h j⟩

protected theorem Unwinds.trans {u : State} (h : Unwinds k s t) (h' : Unwinds k t u) : Unwinds k s u :=
  ⟨h'.replays.trans h.replays, fun j hj => (h'.others j hj).trans (h.others j hj)⟩

protected theorem Unwinds.modGyle {f : Gyle → Gyle} (hf : ∀ g, (f g).replays = g.replays) : Unwinds k s (modGyle s k f) := by
  refine ⟨?_, fun j hj => modGyle_gyle_ne _ _ hj⟩
  cases hg : s.gyle k with
  | none => rw [modGyle_gyle_none hg]
  | some g =>
    rw [modGyle_gyle_self f hg]
    exact congrArg some (hf g)

protected theorem Unwinds.freeResv {slot row : Nat} : Unwinds k s (freeResv s k slot row) := by
  fun_cases freeResv s k slot row with
  | case1 | case2 => exact .of_gyles rfl
  | case3 g _ _ _ _ s1 =>
    have h1 : s1.gyles = s.gyles := by
      unfold s1
      split <;> rfl
    exact (Unwinds.of_gyles h1).trans (.modGyle fun g => rfl)

protected theorem Unwinds.foldl {α : Type} {f : State → α → State} {l : List α} (hf : ∀ u a, Unwinds k u (f u a)) :
    Unwinds k s (l.foldl f s) :=
  List.foldlRecOn l f (.of_gyles rfl) fun _ h a _ => h.trans (hf _ a)

/-- A gyle's work is cleared (R302). -/
theorem clearWork_unwinds (s : State) (k : GyleKey) : Unwinds k s (clearWork s k) := by
  have hresv : Unwinds k s (freeAllResv s k) := by
    fun_cases freeAllResv s k
    · exact .of_gyles rfl
    · exact .foldl fun u e => .freeResv
  have hports (u : State) (l : Tab Port) : (l.foldl (fun t e => modPort t e.1 (clearPort k)) u).gyles = u.gyles :=
    foldl_field (·.gyles) (fun t (e : Nat × Port) => modPort t e.1 (clearPort k)) (fun _ _ => rfl) ..
  have htuns (u : State) (l : Tab Tun) : (l.foldl (fun t e => modTun t e.1 (clearTun k)) u).gyles = u.gyles :=
    foldl_field (·.gyles) (fun t (e : Nat × Tun) => modTun t e.1 (clearTun k)) (fun _ _ => rfl) ..
  exact hresv.trans (.of_gyles ((htuns ..).trans (hports ..)))

theorem farCancel_gyles (s : State) (g : Gyle) : (farCancel s g).gyles = s.gyles :=
  foldl_field (·.gyles) _ (fun _ _ => sendMsg_gyles ..) ..

theorem openFar_gyles (s : State) (k : GyleKey) (h : Nat) : (openFar s k h).gyles = s.gyles := by
  fun_cases openFar s k h
  · rfl
  · exact (sendMsg_gyles ..).trans (stamp_gyles s)

theorem reopenFar_gyles (s : State) (g : Gyle) : (reopenFar s g).gyles = (modGyle s g.key fun g => { g with farCut := false }).gyles :=
  foldl_field (·.gyles) _ (fun _ _ => openFar_gyles ..) ..

theorem stopGyle_unwinds (s : State) (g : Gyle) : Unwinds g.key s (clearWork (farCancel s g) g.key) :=
  (Unwinds.of_gyles (farCancel_gyles s g)).trans (clearWork_unwinds ..)

theorem rerunNow_eq (hg : s.gyle k = some g) (hst : g.st = .running ∨ g.st = .sorted) : rerunNow s k = rerunGyle (stopGyle s g) g := by
  rcases hst with hst | hst <;> simp [rerunNow, hg, hst]

/-- A gyle that is sorted or runs stands before its sort after its rerun. -/
theorem rerunNow_gyle (hg : s.gyle k = some g) (hst : g.st = .running ∨ g.st = .sorted) :
    ∃ g', (rerunNow s k).gyle k = some g' ∧ g.Reran g' := by
  obtain rfl : g.key = k := gyle_key hg
  have hreplays := (stopGyle_unwinds s g).replays
  rw [hg] at hreplays
  obtain ⟨g1, hg1, hkept⟩ := Option.map_eq_some_iff.mp hreplays
  have hstopped := modGyle_gyle_self Gyle.stopped1 hg1
  have hcounted := modGyle_gyle_self (fun g => { g with stopped := false, replayed := true, replays := g.replays + 1 }) hstopped
  rw [rerunNow_eq hg hst]
  exact ⟨_, (gyle_of_gyles (reopenFar_gyles ..) _).trans (modGyle_gyle_self _ hcounted), rfl, rfl, congrArg (· + 1) hkept⟩

/-- A rerun leaves the other gyles. -/
theorem rerunNow_gyle_ne {j : GyleKey} (hj : j ≠ k) : (rerunNow s k).gyle j = s.gyle j := by
  fun_cases rerunNow s k with
  | case1 | case2 => rfl
  | case3 g hg _ s1 =>
    obtain rfl : g.key = k := gyle_key hg
    calc (rerunGyle s1 g).gyle j
        = s1.gyle j := by
          rw [rerunGyle, gyle_of_gyles (reopenFar_gyles ..), modGyle_gyle_ne _ _ hj, modGyle_gyle_ne _ _ hj]
      _ = s.gyle j := (modGyle_gyle_ne _ _ hj).trans ((stopGyle_unwinds s g).others j hj)

/-- Each of some gyles reruns once. -/
theorem foldl_rerunNow_gyle {l : List Gyle} (hkeys : (l.map (·.key)).Nodup)
    (hl : ∀ g ∈ l, s.gyle g.key = some g ∧ (g.st = .running ∨ g.st = .sorted)) :
    ∀ g ∈ l, ∃ g', (l.foldl (fun s g => rerunNow s g.key) s).gyle g.key = some g' ∧ g.Reran g' := by
  induction l generalizing s with
  | nil => exact fun _ hg => absurd hg List.not_mem_nil
  | cons a l ih =>
    obtain ⟨ha, hkeys'⟩ := List.nodup_cons.mp hkeys
    have hne {b : Gyle} (hb : b ∈ l) : b.key ≠ a.key := fun h => ha (List.mem_map.mpr ⟨b, hb, h⟩)
    intro g hg
    rcases List.mem_cons.mp hg with rfl | hgl
    · obtain ⟨hfound, hst⟩ := hl g List.mem_cons_self
      obtain ⟨g', hg', hreran⟩ := rerunNow_gyle hfound hst
      exact ⟨g', List.foldlRecOn l _ (motive := fun u => State.gyle u g.key = some g') hg' fun u hu b hb =>
        (rerunNow_gyle_ne (hne hb).symm).trans hu, hreran⟩
    · refine ih hkeys' (fun b hb => ?_) g hgl
      rw [rerunNow_gyle_ne (hne hb)]
      exact hl b (List.mem_cons_of_mem a hb)

/-- Where keys are distinct, a gyle is found by its key. -/
theorem gyle_of_mem (hkeys : (s.gyles.map (·.key)).Nodup) (hg : g ∈ s.gyles) : s.gyle g.key = some g := by
  unfold State.gyle
  generalize s.gyles = l at hkeys hg
  induction l with
  | nil => exact absurd hg List.not_mem_nil
  | cons a l ih =>
    obtain ⟨ha, hkeys'⟩ := List.nodup_cons.mp hkeys
    rcases List.mem_cons.mp hg with rfl | hgl
    · simp
    · have hne : a.key ≠ g.key := fun h => ha (List.mem_map.mpr ⟨g, hgl, h.symm⟩)
      rw [List.find?_cons_of_neg (by simpa using hne), ih hkeys' hgl]

/-- The gyles that a port's watchdog reruns each rerun. -/
theorem foldl_portGyles_gyle {p : Nat} (hkeys : (s.gyles.map (·.key)).Nodup) (hgyles : t.gyles = s.gyles) :
    ∀ g ∈ portGyles s p, ∃ g', ((portGyles s p).foldl (fun s g => rerunNow s g.key) t).gyle g.key = some g' ∧ g.Reran g' := by
  refine foldl_rerunNow_gyle (hkeys.sublist (List.filter_sublist.map _)) fun g hg => ?_
  simp only [portGyles, List.mem_filter, Bool.and_eq_true, Bool.or_eq_true, decide_eq_true_eq] at hg
  obtain ⟨hmem, ⟨-, hst⟩, -⟩ := hg
  exact ⟨(gyle_of_gyles hgyles _).trans (gyle_of_mem hkeys hmem), hst.symm⟩

theorem portGyles_of_gyles (h : t.gyles = s.gyles) (p : Nat) : portGyles t p = portGyles s p := by rw [portGyles, portGyles, h]

/-- A port's watchdog reruns the gyles with slots on the port (Table 16.3). -/
theorem portWatchdog_reruns {p : Nat} (hkeys : (s.gyles.map (·.key)).Nodup) :
    ∀ g ∈ portGyles s p, ∃ g', (portWatchdog s p false).gyle g.key = some g' ∧ g.Reran g' :=
  foldl_portGyles_gyle hkeys (startFault_gyles ..)

/-- A gyle whose row a port has lost reruns (R329). -/
theorem portWordLost_reruns {p c num : Nat} (hg : s.gyle (ownGyle c num) = some g) (hst : g.st = .running ∨ g.st = .sorted) :
    ∃ g', (portWordLost s p c num).gyle (ownGyle c num) = some g' ∧ g.Reran g' := by
  have hfound : (startFault (stamp s) (.port (pgPort p)) 0x04 1 []).gyle (ownGyle c num) = some g :=
    (gyle_of_gyles ((startFault_gyles ..).trans (stamp_gyles s)) _).trans hg
  exact rerunNow_gyle hfound hst

end Sys2Proof.Machine
end

section
/-! PROOFS. Level 4 for several contexts: each that is not down enters its reset and stays in it (part of
`Obligations.IntegrityEventsComplete`). -/
namespace Sys2Proof.Machine

variable {s t u : State} {c c' p : Nat} {r : MemReq}

theorem setCtxNow_ctx_ne {st : CtxState} (h : c ≠ c') : (setCtxNow s c' st).ctx c = s.ctx c :=
  (ctx_of_ctxs (raise_ctxs ..) c).trans (modCtx_ctx_ne _ _ h)

/-- A reset leaves the contexts that are being reset. -/
theorem resetCtx_keeps (h : (s.ctx c).st = .resetting) : ((resetCtx s c').ctx c).st = .resetting := by
  refine (EndsTraffic.refl (setCtxNow s c' .resetting)).resetCtx.resetting c ?_
  by_cases hc : c = c'
  · rw [hc, setCtxNow_ctx]
  · rwa [setCtxNow_ctx_ne hc]

theorem levelFour_keeps {id : Seq} {source first : Nat} (h : (s.ctx c).st = .resetting) :
    ((levelFour s c' id source first).ctx c).st = .resetting := by
  fun_cases levelFour s c' id source first with
  | case1 | case2 => exact (EndsTraffic.refl s).logNow.resetting c h
  | case3 => exact resetCtx_keeps ((EndsTraffic.refl s).enterLevel.stamp.resetting c h)
  | case4 s1 hnot s2 s3 hdown hresetting =>
    have h3 : EndsTraffic s s3 := (EndsTraffic.refl s).enterLevel.stamp.modCtx.logNow
    have hother : c ≠ c' := fun hc => hresetting (hc ▸ h)
    refine resetCtx_keeps ?_
    rw [stamp_ctx, ctx_of_ctxs (raise_ctxs ..), setCtxNow_ctx_ne hother]
    exact h3.resetting c h

/-- Level 4 for some contexts brings each that is not down into its reset (Table 16.5). -/
theorem levelFourAll_resets {cs : List Nat} {id : Seq} {source first : Nat} (hc : c ∈ cs) (hup : (s.ctx c).st ≠ .down) :
    ((levelFourAll s cs id source first).ctx c).st = .resetting := by
  unfold levelFourAll
  induction cs generalizing s with
  | nil => exact absurd hc List.not_mem_nil
  | cons a cs ih =>
    rcases List.mem_cons.mp hc with rfl | hcs
    · exact List.foldlRecOn cs _ (motive := fun u : State => (u.ctx c).st = .resetting) (levelFour_resets hup).1 fun _ hu _ _ => levelFour_keeps hu
    · exact ih hcs (levelFour_up hup)

theorem mem_owners {gs : List Gyle} {g : Gyle} (h : g ∈ gs) : g.key.owner ∈ (gs.map (·.key.owner)).eraseDups := by
  rw [List.mem_eraseDups]
  exact List.mem_map_of_mem h

/-- The second time, a port's watchdog resets each context with a gyle on the port (Table 16.3). -/
theorem portWatchdog_resets {g : Gyle} (hg : g ∈ portGyles s p) (hup : (s.ctx g.key.owner).st ≠ .down) :
    ((portWatchdog s p true).ctx g.key.owner).st = .resetting := by
  have hup' : ((startFault s (.port (pgPort p)) 0x07 1 []).ctx g.key.owner).st ≠ .down := by
    rwa [ctx_of_ctxs (startFault_ctxs ..)]
  exact levelFourAll_resets (mem_owners hg) hup'

/-- Level 3 outlasts its budget: each context with a replay of the fault that goes on is reset. -/
theorem escalateThree_resets {f : FaultRec} {o : Op} (ho : o ∈ replaysOf s f.id) (hnear : o.gk.far = false)
    (hup : (s.ctx o.gk.owner).st ≠ .down) : ((escalateThree s f).ctx o.gk.owner).st = .resetting := by
  have hsome : (replaysOf s f.id).isEmpty = false := List.isEmpty_eq_false_iff.mpr (List.ne_nil_of_mem ho)
  have hmem : o.gk.owner ∈ (((replaysOf s f.id).filter fun o => !o.gk.far).map (·.gk.owner)).eraseDups := by
    rw [List.mem_eraseDups]
    exact List.mem_map.mpr ⟨o, List.mem_filter.mpr ⟨ho, by simp [hnear]⟩, rfl⟩
  have hctxs (u : State) : (replayDone u f.id).ctxs = u.ctxs := replayDone_field (·.ctxs) (fun _ _ => rfl) u f.id
  simp only [escalateThree, hsome, Bool.false_eq_true, if_false]
  rw [ctx_of_ctxs (hctxs _)]
  exact levelFourAll_resets hmem (by rwa [stamp_ctx])

/-! ### Memory ports -/

/-- A request goes to the port of its address, under a free number of that port, or waits. -/
theorem issueReq_stands (s : State) (r : MemReq) : ∃ i, { r with id := i } ∈ (issueReq s r).boundary.memWaiting ∨
    ∃ q, { r with id := i } ∈ (tget {} (issueReq s r).boundary.mem q : MemPort).outstanding := by
  fun_cases issueReq s r with
  | case1 => exact ⟨r.id, .inl (List.mem_append_right _ (List.mem_singleton_self r))⟩
  | case2 => exact ⟨r.id, .inl (List.mem_append_right _ (List.mem_singleton_self r))⟩
  | case3 q hq i hi =>
    refine ⟨i, .inr ⟨q, ?_⟩⟩
    rw [tmod, tget_tset_self]
    exact List.mem_append_right _ (List.mem_singleton_self _)

/-- The context of an outstanding request is one whose traffic the port carries. -/
theorem mem_portCtxs {x : Xfer} (hr : r ∈ (tget {} s.boundary.mem p : MemPort).outstanding)
    (hx : s.boundary.xfers.find? (fun x => x.id = r.xfer) = some x) : (xferCause x.use).1 ∈ portCtxs s p := by
  rw [portCtxs, List.mem_eraseDups, List.mem_filterMap]
  exact ⟨r, hr, by rw [xferCtx, hx, Option.map_some]⟩

theorem retryLimit_of_regs (h : t.regs = s.regs) : retryLimit t = retryLimit s := by simp only [retryLimit, regFld, reg, h]

section
variable {rest : List MemReq} (h : (tget {} s.boundary.mem p : MemPort).outstanding = r :: rest)
include h

/-- While the limit allows, a memory port's watchdog repeats the port's oldest request (Table 16.3, R440). -/
theorem memWatchdog_retries (hretries : r.retries < retryLimit s) :
    ∃ r', r' = { r with retries := r.retries + 1, id := r'.id } ∧ (r' ∈ (memWatchdog s p).boundary.memWaiting ∨
      ∃ q, r' ∈ (tget {} (memWatchdog s p).boundary.mem q : MemPort).outstanding) := by
  have hlimit : retryLimit (dropReq (startFault (stamp s) (.port (pgMem p)) 0x07 1 []) p r.id) = retryLimit s :=
    retryLimit_of_regs ((startFault_regs ..).trans (stamp_regs s))
  fun_cases memWatchdog s p with
  | case1 hnone => exact absurd (h.symm.trans hnone) (List.cons_ne_nil _ _)
  | case2 r' rest' hr o s1 s2 hlim count s3 =>
    obtain rfl : r = r' := (List.cons.inj (h.symm.trans hr)).1
    obtain ⟨i, hstands⟩ := issueReq_stands s3 { r with retries := r.retries + 1 }
    obtain ⟨integrity, hend⟩ := endPortFault_only (issueReq s3 { r with retries := r.retries + 1 }) p
    rw [hend]
    exact ⟨_, rfl, hstands⟩
  | case3 r' rest' hr o s1 id cs s2 hlim =>
    obtain rfl : r = r' := (List.cons.inj (h.symm.trans hr)).1
    exact absurd hretries (hlimit ▸ hlim)

/-- Past the limit, it resets the contexts whose traffic the port carries. -/
theorem memWatchdog_resets {x : Xfer} (hretries : retryLimit s ≤ r.retries)
    (hx : s.boundary.xfers.find? (fun x => x.id = r.xfer) = some x) (hup : (s.ctx (xferCause x.use).1).st ≠ .down) :
    ((memWatchdog s p).ctx (xferCause x.use).1).st = .resetting := by
  have hlimit : retryLimit (dropReq (startFault (stamp s) (.port (pgMem p)) 0x07 1 []) p r.id) = retryLimit s :=
    retryLimit_of_regs ((startFault_regs ..).trans (stamp_regs s))
  fun_cases memWatchdog s p with
  | case1 hnone => exact absurd (h.symm.trans hnone) (List.cons_ne_nil _ _)
  | case2 r' rest' hr o s1 s2 hlim count s3 =>
    obtain rfl : r = r' := (List.cons.inj (h.symm.trans hr)).1
    exact absurd (hlimit ▸ hlim) (Nat.not_lt.mpr hretries)
  | case3 r' rest' hr o s1 id cs s2 hlim =>
    obtain rfl : r = r' := (List.cons.inj (h.symm.trans hr)).1
    have hboundary : s1.boundary = s.boundary := (startFault_boundary ..).trans (stamp_boundary s)
    have hctxs : s1.ctxs = s.ctxs := (startFault_ctxs ..).trans (stamp_ctxs s)
    have hmem : (xferCause x.use).1 ∈ cs :=
      mem_portCtxs (r := r) (by rw [hboundary, h]; exact List.mem_cons_self) (by rw [hboundary, hx])
    have hup' : ((dropXfer s2 r.xfer).ctx (xferCause x.use).1).st ≠ .down := by
      rwa [ctx_of_ctxs (((dropXfer_ctxs s2 r.xfer).trans (dropReq_ctxs s1 p r.id)).trans hctxs)]
    rw [retryWaiting_ctx, ctx_of_ctxs (endPortFault_ctxs ..)]
    exact levelFourAll_resets hmem hup'

end

end Sys2Proof.Machine
end

section
/-! PROOFS. What stands of faults, core pairs, devices and resets after a watchdog or a budget (part of
`Obligations.IntegrityEventsComplete`). -/
namespace Sys2Proof.Machine

variable {s t : State} {o o' : FaultObject} {id : Seq} {source first level p n : Nat}

/-! ### Open faults -/

theorem openFault_isSome : (openFault s o).isSome = true ↔ ∃ f ∈ s.integrity.faults, f.object = o := by
  simp [openFault, List.find?_isSome]

theorem openFault_of_faults (h : t.integrity.faults = s.integrity.faults) (o : FaultObject) : openFault t o = openFault s o := by
  rw [openFault, openFault, h]

theorem countLevel_faults (i : Integrity) (level : Nat) : (countLevel i level).faults = i.faults := by
  fun_cases countLevel i level <;> rfl

/-- The level that a fault enters stands in its record, in place of the earlier one. -/
theorem enterLevel_faults (s : State) (id : Seq) (o : FaultObject) (source first level : Nat) :
    ∃ f : FaultRec, f.object = o ∧ (enterLevel s id o source first level).integrity.faults =
      (s.integrity.faults.filter fun f => ¬ (f.id = id ∧ f.object = o)) ++ [f] := by
  unfold enterLevel
  extract_lets prev s1 epoch i s2 s3
  have h3 : s3.integrity.faults = (s.integrity.faults.filter fun f => ¬ (f.id = id ∧ f.object = o)) ++
      [{ id, object := o, source, first, level, epoch }] := by
    rw [logNow_integrity]
    simp only [s2, i, countLevel_faults, s1, stamp_integrity]
  refine ⟨_, rfl, Eq.trans ?_ h3⟩
  split <;> rfl

theorem newFaultNow_faults (s : State) (o : FaultObject) (source first : Nat) (detail : List Byte) :
    (newFaultNow s o source first detail).integrity.faults =
      s.integrity.faults ++ [{ id := s.gauger.seq, object := o, source, first, level := 0 }] := by
  unfold newFaultNow
  extract_lets id s1 s2
  rw [raise_integrity, logNow_integrity]

theorem enterLevel_opens : (openFault (enterLevel s id o source first level) o).isSome = true := by
  obtain ⟨f, hf, hfaults⟩ := enterLevel_faults s id o source first level
  exact openFault_isSome.mpr ⟨f, hfaults ▸ List.mem_append_right _ (List.mem_singleton_self f), hf⟩

/-- A fault stays open while another fault, or its own, enters a level. -/
theorem enterLevel_keeps (h : (openFault s o).isSome = true) :
    (openFault (enterLevel s id o' source first level) o).isSome = true := by
  obtain ⟨f, hf, rfl⟩ := openFault_isSome.mp h
  by_cases ho : f.object = o'
  · exact ho ▸ enterLevel_opens
  · obtain ⟨f', -, hfaults⟩ := enterLevel_faults s id o' source first level
    refine openFault_isSome.mpr ⟨f, hfaults ▸ List.mem_append_left _ (List.mem_filter.mpr ⟨hf, ?_⟩), rfl⟩
    simp [ho]

theorem newFault_keeps {detail : List Byte} (h : (openFault s o).isSome = true) :
    (openFault (newFault s o' source first detail) o).isSome = true := by
  obtain ⟨f, hf, ho⟩ := openFault_isSome.mp h
  rw [openFault_isSome, newFault, newFaultNow_faults, stamp_integrity]
  exact ⟨f, List.mem_append_left _ hf, ho⟩

theorem startFault_opens {detail : List Byte} : (openFault (startFault s o source level detail) o).isSome = true := by
  fun_cases startFault s o source level detail with
  | case1 => exact enterLevel_opens
  | case2 f hf => exact Option.isSome_iff_exists.mpr ⟨f, hf⟩
  | case3 => exact enterLevel_opens

theorem startFault_keeps {detail : List Byte} (h : (openFault s o).isSome = true) :
    (openFault (startFault s o' source level detail) o).isSome = true := by
  fun_cases startFault s o' source level detail with
  | case1 => exact enterLevel_keeps h
  | case2 => exact h
  | case3 => exact enterLevel_keeps (newFault_keeps h)

theorem requestWarm_integrity (s : State) (cause : Nat) : (requestWarm s cause).integrity = s.integrity := by
  fun_cases requestWarm s cause <;> rfl

theorem levelSeven_keeps (h : (openFault s o).isSome = true) : (openFault (levelSeven s id source first) o).isSome = true := by
  rw [levelSeven, openFault_of_faults (congrArg (·.faults) (requestWarm_integrity ..))]
  exact enterLevel_keeps h

theorem beginRemap_integrity (s : State) (die region : Nat) (fault : Seq) : (beginRemap s die region fault).integrity = s.integrity := by
  fun_cases beginRemap s die region fault <;> rfl

/-- Level 5 leaves a fault open that was, and opens its region's (Table 16.5). -/
theorem levelFive_keeps {die region : Nat} (h : (openFault s o).isSome = true) :
    (openFault (levelFive s die region source) o).isSome = true := by
  fun_cases levelFive s die region source with
  | case1 => exact h
  | case2 => exact levelSeven_keeps (startFault_keeps h)
  | case3 =>
    rw [openFault_of_faults (congrArg (·.faults) (beginRemap_integrity ..))]
    exact startFault_keeps h

theorem levelFive_opens {die region : Nat} : (openFault (levelFive s die region source) (.region (die * 1024 + region))).isSome = true := by
  fun_cases levelFive s die region source with
  | case1 o f hf => exact Option.isSome_iff_exists.mpr ⟨f, hf⟩
  | case2 => exact levelSeven_keeps startFault_opens
  | case3 =>
    rw [openFault_of_faults (congrArg (·.faults) (beginRemap_integrity ..))]
    exact startFault_opens

/-- A stuck path of a cellar die opens a fault on each region that a stalled read addressed (Table 16.3). -/
theorem cellarWatchdog_opens {die : Nat} {rs : List (Fin 1024)} {r : Fin 1024} (hr : r ∈ rs) :
    (openFault (cellarWatchdog s die rs false) (.region (die * 1024 + r))).isSome = true :=
  foldl_brings (p := fun t => (openFault t (.region (die * 1024 + r))).isSome = true) hr (fun _ => levelFive_opens)
    (fun _ _ => levelFive_keeps) s

/-! ### Block resets (R336, R400) -/

theorem warmStep_of_inBlockReset (h : inBlockReset s = false) : s.glob.warmStep = 0 := by
  simp only [inBlockReset, Bool.or_eq_false_iff] at h
  simpa using h.2

/-- A warm reset is requested where none runs and no cold one is. -/
theorem requestWarm_requests {cause : Nat} (hwarm : s.glob.warmStep = 0) (hcold : coldPending s = false) :
    (requestWarm s cause).glob.resetPending = some cause := by
  simp [requestWarm, hwarm, hcold]

theorem coldPending_of_glob (h : t.glob = s.glob) : coldPending t = coldPending s := by rw [coldPending, coldPending, h]

section
variable (hwarm : s.glob.warmStep = 0) (hcold : coldPending s = false)
include hwarm hcold

theorem levelSeven_requests : (levelSeven s id source first).glob.resetPending = some 6 := by
  have hglob := enterLevel_glob s id .block source first 7
  exact requestWarm_requests (by rwa [hglob]) (by rwa [coldPending_of_glob hglob])

theorem startSeven_requests (hopen : openFault s .block = none) : (startSeven s source).glob.resetPending = some 6 := by
  have hglob := newFault_glob s .block source 7 []
  simp only [startSeven, hopen]
  exact levelSeven_requests (by rwa [hglob]) (by rwa [coldPending_of_glob hglob])

end

/-- The same at the event that a watchdog takes. -/
theorem startSeven_stamp_requests (hreset : inBlockReset s = false) (hopen : openFault s .block = none) (hcold : coldPending s = false) :
    (startSeven (stamp s) source).glob.resetPending = some 6 := by
  refine startSeven_requests ?_ ?_ ?_
  · rw [stamp_glob, warmStep_of_inBlockReset hreset]
  · rw [coldPending_of_glob (stamp_glob s), hcold]
  · rw [openFault_of_faults (congrArg (·.faults) (stamp_integrity s)), hopen]

end Sys2Proof.Machine
end

section
/-! PROOFS. Core pairs, the gauger's comparator, flash channels, and the block's stop (part of `Obligations.IntegrityEventsComplete`). -/
namespace Sys2Proof.Machine

variable {s t : State} {source p d : Nat}

/-! ### Core pairs (Table 16.3) -/

theorem setPair_pair_self (s : State) (p : Nat) (st : PairState) : tget .down (setPair s p st).repair.pairs p = st := by
  fun_cases setPair s p st with
  | case1 h => exact h
  | case2 => exact tget_tset_self ..

theorem setPair_pair_ne (s : State) (st : PairState) {q : Nat} (h : q ≠ p) :
    tget .down (setPair s p st).repair.pairs q = tget .down s.repair.pairs q := by
  fun_cases setPair s p st with
  | case1 => rfl
  | case2 => exact tget_tset_ne _ _ _ h

theorem restartPair_pair (s : State) (p : Nat) (st : PairState) : tget .down (restartPair s p st).repair.pairs p = st :=
  setPair_pair_self s p st

theorem restartPair_integrity (s : State) (p : Nat) (st : PairState) : (restartPair s p st).integrity = s.integrity := by
  have hpair : (setPair s p st).integrity = s.integrity := by rw [setPair_only]
  exact hpair

/-- Level 6 restarts a core pair, and counts no SRAM word. -/
theorem levelSix_restarts (hreset : inBlockReset s = false) (hpair : tget .down s.repair.pairs p ≠ .restarting) :
    tget .down (levelSix s p source).repair.pairs p = .restarting ∧
      (levelSix s p source).integrity.sramUncorrectable = s.integrity.sramUncorrectable := by
  have hfault := (CountsStand.refl s).startFault (o := .pair p) (source := source) (level := 6) (detail := [])
  fun_cases levelSix s p source with
  | case1 h => simp [hreset, hpair] at h
  | case2 _ s1 s2 =>
    have hint : s2.integrity = s1.integrity := by
      unfold s2
      split <;> rfl
    refine ⟨restartPair_pair .., ?_⟩
    rw [restartPair_integrity, hint]
    exact hfault.sram

theorem levelSix_stamp_restarts (hreset : inBlockReset s = false) (hpair : tget .down s.repair.pairs p ≠ .restarting) :
    tget .down (levelSix (stamp s) p source).repair.pairs p = .restarting ∧
      (levelSix (stamp s) p source).integrity.sramUncorrectable = s.integrity.sramUncorrectable := by
  have h := levelSix_restarts (s := stamp s) (p := p) (source := source) (by rwa [inBlockReset_stamp]) (by rwa [stamp_repair])
  rwa [stamp_integrity] at h

/-! ### The gauger's comparator (R315) -/

theorem stamp_compareFaults (s : State) : (stamp s).gauger.compareFaults = s.gauger.compareFaults := by
  have hreserve (b : Nat) : (reserveBlock s b).gauger.compareFaults = s.gauger.compareFaults := by
    fun_cases reserveBlock s b <;> rfl
  fun_cases stamp s
  · exact hreserve _
  · rfl

theorem enterLevel_compareFaults (s : State) (id : Seq) (o : FaultObject) (source first level : Nat) :
    (enterLevel s id o source first level).gauger.compareFaults = s.gauger.compareFaults := by
  unfold enterLevel
  extract_lets prev s1 epoch i s2 s3
  have h3 : s3.gauger.compareFaults = s.gauger.compareFaults := by
    rw [logNow_gauger]
    exact stamp_compareFaults s
  split
  · exact h3
  · exact h3

theorem levelSeven_compareFaults (s : State) (id : Seq) (source first : Nat) :
    (levelSeven s id source first).gauger.compareFaults = s.gauger.compareFaults := by
  have hwarm (u : State) : (requestWarm u 6).gauger = u.gauger := by fun_cases requestWarm u 6 <;> rfl
  rw [levelSeven, hwarm, enterLevel_compareFaults]

theorem startSeven_compareFaults (s : State) (source : Nat) : (startSeven s source).gauger.compareFaults = s.gauger.compareFaults := by
  fun_cases startSeven s source with
  | case1 => exact levelSeven_compareFaults ..
  | case2 => rfl
  | case3 =>
    refine (levelSeven_compareFaults ..).trans ?_
    exact (congrArg (·.compareFaults) (newFaultNow_gauger ..)).trans (stamp_compareFaults s)

/-- The state in which a difference of the gauger's copies has been counted. -/
def comparedOnce (s : State) : State := { s with gauger := { s.gauger with compareFaults := sat 32 (s.gauger.compareFaults + 1) } }

theorem startFailed_gauger (s : State) (code : Nat) : (startFailed s code).gauger = s.gauger := by
  rw [startFailed, raise_gauger, logNow_gauger]

theorem startFailed_startFail (s : State) (code : Nat) : (startFailed s code).glob.startFail = code := by
  rw [startFailed, raise_glob, logNow_glob]

theorem stampRefused_compareFaults (s : State) : (stampRefused s).gauger.compareFaults = sat 32 (s.gauger.compareFaults + 1) := by
  fun_cases stampRefused s with
  | case1 s1 => rw [startFailed_gauger, stamp_compareFaults]
  | case2 s1 => exact startSeven_compareFaults s1 9
  | case3 s1 => rfl

theorem stampRefused_fails (h : coldUnready s = true) : (stampRefused s).glob.startFail = 6 := by
  have hcold : coldUnready (comparedOnce s) = true := h
  have hfails : stampRefused s = startFailed (stamp (comparedOnce s)) 6 := if_pos hcold
  rw [hfails, startFailed_startFail]

theorem stampRefused_requests (hreset : inBlockReset s = false) (hopen : openFault s .block = none) (hcold : coldPending s = false) :
    (stampRefused s).glob.resetPending = some 6 := by
  have hready : s.glob.ready = true := by
    simp only [inBlockReset, Bool.or_eq_false_iff] at hreset
    simpa using hreset.1
  have hunready : coldUnready (comparedOnce s) = false := by simp [coldUnready, comparedOnce, hready]
  have hseven : stampRefused s = startSeven (comparedOnce s) 0x09 := by
    have hready' : (comparedOnce s).glob.ready = true := hready
    rw [stampRefused, ← comparedOnce]
    simp [hunready, hready']
  rw [hseven]
  exact startSeven_requests (s := comparedOnce s) (warmStep_of_inBlockReset hreset) hcold hopen

/-! ### Flash channels (R257) -/

theorem chan_of_channels (h : t.kiln.channels = s.kiln.channels) (d : Nat) : t.chan d = s.chan d := by rw [State.chan, State.chan, h]

/-- A retirement leaves what the device's channel has counted. -/
theorem retireDevice_timeouts (s : State) (d : Nat) : ((retireDevice s d).chan d).timeouts = (s.chan d).timeouts := by
  have happend (u : State) : (appendMap u .kilnRetired d []).kiln = u.kiln := by fun_cases appendMap u .kilnRetired d [] <;> rfl
  have hphase (u : State) (ph : KilnPhase) : (setKilnPhase u ph).kiln.channels = u.kiln.channels := by fun_cases setKilnPhase u ph <;> rfl
  fun_cases retireDevice s d with
  | case1 => rfl
  | case2 _ s1 s2 s3 s4 =>
    have h3 : s3.kiln.channels = s1.kiln.channels :=
      (foldl_field (·.kiln.channels) (fun (t : State) (e : Nat × Superblock) => shutBlock t e.1) (fun _ _ => rfl) _ s2).trans
        (congrArg (·.channels) (happend s1))
    have h4 : s4.kiln.channels = s1.kiln.channels := h3
    rw [chan_of_channels ((hphase ..).trans h4), modChan_chan_self]

theorem deviceTimeout_timeouts (h : (s.chan d).st = .inService) : ((deviceTimeout d s).chan d).timeouts = (s.chan d).timeouts + 1 := by
  have hchan : ((modChan (stamp s) d fun x => { x with timeouts := x.timeouts + 1 }).chan d).timeouts = (s.chan d).timeouts + 1 := by
    rw [modChan_chan_self, chan_of_channels (congrArg (·.channels) (stamp_kiln s))]
  fun_cases deviceTimeout d s with
  | case1 hst => exact absurd h hst
  | case2 => rw [retireDevice_timeouts, hchan]
  | case3 => exact hchan

/-! ### The block's stop (R336) -/

/-- Level 7 past its budget stops the block and its core pairs. -/
theorem stopBlock_stops (hstopped : s.integrity.stopped = false) (hstep : s.glob.warmStep ≠ 0) (hwait : s.glob.warmStep ≠ 2) :
    (stopBlock s).integrity.stopped = true ∧ ∀ p < 4, tget .down (stopBlock s).repair.pairs p = .stopped := by
  have hint (u : State) (l : List Nat) : (l.foldl (fun s p => setPair s p .stopped) u).integrity = u.integrity :=
    foldl_field (·.integrity) _ (fun v p => by rw [setPair_only]) l u
  fun_cases stopBlock s with
  | case1 h => simp [hstopped, hstep, hwait] at h
  | case2 _ s1 s2 =>
    refine ⟨?_, fun p hp => ?_⟩
    · rw [raise_integrity, hint]
    · rw [raise_repair]
      refine foldl_brings (p := fun u : State => tget .down u.repair.pairs p = .stopped) (List.mem_range.mpr hp)
        (fun u => setPair_pair_self u p .stopped) (fun u q hu => ?_) s2
      by_cases hq : p = q
      · exact hq ▸ setPair_pair_self u q .stopped
      · rw [setPair_pair_ne u _ hq, hu]

/-! ### Mismatches that age (R328) -/

theorem endTunFault_tuns (s : State) (n : Nat) : (endTunFault s n).tuns = s.tuns := by
  fun_cases endTunFault s n <;> rfl

/-- A mismatch stops counting, and its tun keeps its state. -/
theorem faultCountExpiry_tun {n : Nat} (h : (s.tun n).faultCount ≠ 0) :
    (faultCountExpiry n s).tun n = { s.tun n with faultCount := (s.tun n).faultCount - 1 } := by
  rw [faultCountExpiry, if_neg h, State.tun, endTunFault_tuns, ← State.tun, modTun_tun_self, stamp_tun]

end Sys2Proof.Machine
end

section
/-! PROOFS. The self-test's slot moves from tun to tun (R332, R333; part of `Obligations.IntegrityEventsComplete`). -/
namespace Sys2Proof.Machine

variable {s t : State} {m n p l : Nat}

/-! ### The spare that is free -/

theorem freeSpare_of_tuns (h : t.tuns = s.tuns) : freeSpare t = freeSpare s := by rw [freeSpare, freeSpare, h]

/-- An entry that a search passes over may be written anew where the search passes over it again. -/
theorem find?_tput {α : Type} {d v : α} {k : Nat} {q : Nat × α → Bool} {l : Tab α} (hold : q (k, tget d l k) = false)
    (hnew : q (k, v) = false) : (tput k v l).find? q = l.find? q := by
  induction l with
  | nil => exact List.find?_cons_of_neg (by simp [hnew])
  | cons e l ih =>
    rw [tput]
    split
    · exact List.find?_cons_of_neg (by simp [hnew])
    · split
      · rename_i hk
        subst hk
        rw [tget, if_pos rfl] at hold
        rw [List.find?_cons_of_neg (by simp [hnew]), List.find?_cons_of_neg (by simp [hold])]
      · rename_i hk
        rw [tget, if_neg (Ne.symm hk)] at hold
        rw [List.find?_cons, List.find?_cons, ih hold]

/-- A tun that is no spare before and after it is changed does not alter which spare is free. -/
theorem freeSpare_setTun {x : Tun} (hx : x ≠ {}) (hst : x.st ≠ .spare) (hold : (s.tun m).st ≠ .spare) :
    freeSpare (setTun s m x) = freeSpare s := by
  rw [freeSpare, setTun, tset, if_neg hx]
  exact congrArg (Option.map (·.1)) (find?_tput (d := ({} : Tun)) (q := fun e => decide (e.2.st = .spare))
    (decide_eq_false hold) (decide_eq_false hst))

theorem setTunState_freeSpare {st : TunState} {logical : Option Nat} (htest : (s.tun m).selfTest = true) (hst : st ≠ .spare)
    (hold : (s.tun m).st ≠ .spare) : freeSpare (setTunState s m st logical) = freeSpare s := by
  have hset : freeSpare (setTun s m { s.tun m with st, logical }) = freeSpare s :=
    freeSpare_setTun (fun h => by simpa [htest] using congrArg Tun.selfTest h) hst hold
  fun_cases setTunState s m st logical
  · exact hset
  · exact hset

/-- A tun that its slot tests once it is idle was no spare. -/
theorem testWhenIdle_freeSpare (s : State) (m : Nat) : freeSpare (testWhenIdle s m) = freeSpare s := by
  fun_cases testWhenIdle s m with
  | case1 x h =>
    simp only [Bool.and_eq_true, decide_eq_true_eq] at h
    obtain ⟨⟨⟨⟨hactive, htest⟩, -⟩, -⟩, -⟩ := h
    have hold : x.st ≠ .spare := fun h => by simp [hactive] at h
    have hmod : freeSpare (modTun s m fun x => { x with half0 := none, half1 := none }) = freeSpare s :=
      freeSpare_setTun (fun h => by simpa [x, htest] using congrArg Tun.selfTest h) hold hold
    rw [setTunState_freeSpare ?_ (by decide) ?_, hmod]
    · rw [modTun_tun_self]
      exact htest
    · rw [modTun_tun_self]
      exact hold
  | case2 => rfl

theorem testWhenIdle_tun_ne (s : State) (h : n ≠ m) : (testWhenIdle s m).tun n = s.tun n := by
  fun_cases testWhenIdle s m
  · rw [setTunState_tun_ne _ _ _ h, modTun_tun_ne _ _ h]
  · rfl

theorem setTunState_integrity (s : State) (m : Nat) (st : TunState) (logical : Option Nat) :
    (setTunState s m st logical).integrity = s.integrity := by
  fun_cases setTunState s m st logical <;> rfl

theorem giveOps_integrity (s : State) (m : Nat) (head : Bool) (ops : List Op) : (giveOps s m head ops).integrity = s.integrity :=
  foldl_field (·.integrity) _ (fun _ _ => modGyle_integrity ..) _ _

theorem testWhenIdle_integrity (s : State) (m : Nat) : (testWhenIdle s m).integrity = s.integrity := by
  fun_cases testWhenIdle s m
  · exact setTunState_integrity ..
  · rfl

/-- A tun that has handed over stays without an index and in its test. -/
theorem testWhenIdle_handedOver (htest : (s.tun n).selfTest = true) (hlogical : (s.tun n).logical = none) :
    ((testWhenIdle s n).tun n).selfTest = true ∧ ((testWhenIdle s n).tun n).logical = none := by
  fun_cases testWhenIdle s n
  · rw [setTunState_tun_self, modTun_tun_self]
    exact ⟨htest, rfl⟩
  · exact ⟨htest, hlogical⟩

/-- An idle tun that has handed over is tested. -/
theorem testWhenIdle_tests (hst : (s.tun n).st = .active) (htest : (s.tun n).selfTest = true) (hlogical : (s.tun n).logical = none)
    (hissued : (s.tun n).issued = []) (hqueue : (s.tun n).queue = []) : ((testWhenIdle s n).tun n).st = .bist := by
  simp [testWhenIdle, hst, htest, hlogical, hissued, hqueue, setTunState_tun_self]

/-! ### The hand-over (R332) -/

theorem giveOps_tun_ne {head : Bool} {ops : List Op} (h : n ≠ m) : (giveOps s m head ops).tun n = s.tun n := by
  rw [State.tun, giveOps, moveRows_tuns]
  exact modTun_tun_ne _ _ h

/-- The tun of the slot keeps what it has begun, and is tested once idle. -/
theorem handOverSlot_tun_self (hst : (s.tun n).st = .active) (hne : p ≠ n) : ((handOverSlot s n p l).tun n).logical = none ∧
    ((handOverSlot s n p l).tun n).queue = (s.tun n).queue.filter (fun o => (openSet (s.tun n) o).isSome) ∧
    ((handOverSlot s n p l).tun n).selfTest = true ∧
    ((s.tun n).issued = [] → (s.tun n).queue.filter (fun o => (openSet (s.tun n) o).isSome) = [] →
      ((handOverSlot s n p l).tun n).st = .bist) := by
  unfold handOverSlot
  extract_lets x begun s1
  set s2 := giveOps (setTunState s1 p .active (some l)) p true (x.queue.filter (!begun ·)) with hs2
  have htun : s2.tun n = { x with logical := none, queue := x.queue.filter begun, selfTest := true, untested := 0 } := by
    rw [hs2, giveOps_tun_ne hne.symm, setTunState_tun_ne _ _ _ hne.symm, setTun_tun_self]
  obtain ⟨htest, hlogical⟩ := testWhenIdle_handedOver (s := s2) (n := n) (by rw [htun]) (by rw [htun])
  refine ⟨hlogical, ?_, htest, fun hissued hqueue => testWhenIdle_tests ?_ ?_ ?_ ?_ ?_⟩
  · rw [(testWhenIdle_tun ..).1, htun]
  all_goals rw [htun]
  · exact hst
  · exact hissued
  · exact hqueue

/-- The spare takes the index, and the rest of the queue ahead of its own. -/
theorem handOverSlot_tun_spare (hne : p ≠ n) : ((handOverSlot s n p l).tun p).st = .active ∧ ((handOverSlot s n p l).tun p).logical = some l ∧
    ((handOverSlot s n p l).tun p).queue = (s.tun n).queue.filter (fun o => !(openSet (s.tun n) o).isSome) ++ (s.tun p).queue := by
  unfold handOverSlot
  extract_lets x begun s1
  rw [testWhenIdle_tun_ne _ hne, giveOps_tun_self, setTunState_tun_self]
  exact ⟨rfl, rfl, congrArg (_ ++ ·) (congrArg Tun.queue (setTun_tun_ne s _ hne))⟩

/-! ### The slot -/

/-- The physical tun of the next slot. -/
def slotAfter : Option Nat → Nat
  | none => 0
  | some m => if m = 67 then 0 else m + 1

theorem nextSlot_selftestTun (s : State) : (nextSlot s).integrity.selftestTun = some (slotAfter s.integrity.selftestTun) := by
  cases h : s.integrity.selftestTun with
  | none => simp [nextSlot, slotAfter, h]
  | some m => by_cases hm : m = 67 <;> simp [nextSlot, slotAfter, h, hm]

theorem nextSlot_only (s : State) : nextSlot s = { s with integrity := (nextSlot s).integrity } := by
  fun_cases nextSlot s <;> rfl

theorem slotAfter_ne (h : s.integrity.selftestTun = some m) : slotAfter s.integrity.selftestTun ≠ m := by
  rw [h, slotAfter]
  split <;> omega

/-- What stands between two slots, of which the second is that of tun `n`: that tun, the queues of all, the free spare, and that self-tests
run. -/
structure SlotPasses (n : Nat) (s t : State) : Prop where
  tun : t.tun n = s.tun n
  queue : ∀ m, (t.tun m).queue = (s.tun m).queue
  spare : freeSpare t = freeSpare s
  keys : keysRise s.tuns = true → keysRise t.tuns = true
  on : selftestOn t = selftestOn s

theorem selftestOn_of_regs (h : t.regs = s.regs) : selftestOn t = selftestOn s := by
  rw [selftestOn, selftestOn, regFld, regFld, reg, reg, h]

theorem testWhenIdle_regs (s : State) (m : Nat) : (testWhenIdle s m).regs = s.regs := by
  have hstate (u : State) (st : TunState) (logical : Option Nat) : (setTunState u m st logical).regs = u.regs := by
    fun_cases setTunState u m st logical <;> rfl
  fun_cases testWhenIdle s m
  · exact hstate ..
  · rfl

theorem SlotPasses.of_tuns (htuns : t.tuns = s.tuns) (hregs : t.regs = s.regs) : SlotPasses n s t where
  tun := by rw [State.tun, State.tun, htuns]
  queue m := by rw [State.tun, State.tun, htuns]
  spare := freeSpare_of_tuns htuns
  keys h := htuns ▸ h
  on := selftestOn_of_regs hregs

theorem SlotPasses.trans {u : State} (h : SlotPasses n s t) (k : SlotPasses n t u) : SlotPasses n s u where
  tun := k.tun.trans h.tun
  queue m := (k.queue m).trans (h.queue m)
  spare := k.spare.trans h.spare
  keys := k.keys ∘ h.keys
  on := k.on.trans h.on

theorem testWhenIdle_passes (s : State) (h : n ≠ m) : SlotPasses n s (testWhenIdle s m) where
  tun := testWhenIdle_tun_ne s h
  queue k := (testWhenIdle_tun s m k).1
  spare := testWhenIdle_freeSpare s m
  keys := (Keeps.refl s).testWhenIdle.tuns
  on := selftestOn_of_regs (testWhenIdle_regs s m)

theorem finishSlot_passes (s : State) : SlotPasses (slotAfter s.integrity.selftestTun) s (finishSlot s) := by
  unfold finishSlot
  cases h : s.integrity.selftestTun with
  | none => exact .of_tuns rfl rfl
  | some m =>
    have hne := slotAfter_ne h
    rw [h] at hne
    exact testWhenIdle_passes s hne

theorem finishSlot_integrity (s : State) : (finishSlot s).integrity = s.integrity := by
  unfold finishSlot
  cases s.integrity.selftestTun with
  | none => rfl
  | some m => exact testWhenIdle_integrity s m

/-- The state in which the next slot acts on its tun. -/
def slotBegun (s : State) : State := nextSlot (finishSlot (stamp s))

/-- The slot that ends tests its tun alone, and the next one is another tun's. -/
theorem slotBegun_passes (s : State) : SlotPasses (slotAfter s.integrity.selftestTun) s (slotBegun s) := by
  have hfinish := finishSlot_passes (stamp s)
  rw [stamp_integrity] at hfinish
  have hnext : SlotPasses (slotAfter s.integrity.selftestTun) (finishSlot (stamp s)) (slotBegun s) := by
    rw [slotBegun, nextSlot_only]
    exact .of_tuns rfl rfl
  exact ((SlotPasses.of_tuns (stamp_tuns s) (stamp_regs s)).trans hfinish).trans hnext

theorem slotBegun_selftestTun (s : State) : (slotBegun s).integrity.selftestTun = some (slotAfter s.integrity.selftestTun) := by
  rw [slotBegun, nextSlot_selftestTun, finishSlot_integrity, stamp_integrity]

/-- The slot acts on its tun where pair 3 sequences it. -/
theorem selftestSlot_acts (hready : s.glob.ready = true) (hpair : pairAway s 3 = false) :
    selftestSlot s = slotTun (slotBegun s) (slotAfter s.integrity.selftestTun) := by
  have hslot := slotBegun_selftestTun s
  rw [slotBegun] at hslot
  simp only [selftestSlot, hready, hpair, Bool.not_true, Bool.or_false, Bool.false_eq_true, if_false, hslot]
  rfl

/-! ### What the slot does to its tun -/

theorem slotTun_integrity (s : State) (n : Nat) : (slotTun s n).integrity = s.integrity := by
  have hleave : (leaveUntested s n).integrity = s.integrity := by
    fun_cases leaveUntested s n <;> rfl
  fun_cases slotTun s n with
  | case1 => exact setTunState_integrity ..
  | case3 x l p =>
    rw [handOverSlot, testWhenIdle_integrity, giveOps_integrity, setTunState_integrity]
    rfl
  | case4 | case5 => exact hleave
  | case2 | case6 => rfl

theorem slotTun_spare (hst : (s.tun n).st = .spare) (hon : selftestOn s = true) :
    ((slotTun s n).tun n).st = .bist ∧ ((slotTun s n).tun n).selfTest = true := by
  simp [slotTun, hst, hon, setTunState_tun_self]

section
variable (hst : (s.tun n).st = .active) (hlogical : (s.tun n).logical = some l)
include hst hlogical

theorem slotTun_handsOver (hon : selftestOn s = true) (hspare : freeSpare s = some p) : slotTun s n = handOverSlot s n p l := by
  simp [slotTun, hst, hlogical, hon, hspare]

theorem slotTun_leaves (h : selftestOn s = false ∨ freeSpare s = none) : slotTun s n = leaveUntested s n := by
  rcases h with h | h
  · simp [slotTun, hst, hlogical, h]
  · simp [slotTun, hst, hlogical, h]

end

/-- An untested tun stays in service, and the slots that it missed are counted. -/
theorem leaveUntested_tun (s : State) (n : Nat) : (leaveUntested s n).tun n = { s.tun n with untested := (s.tun n).untested + 1 } := by
  have hcounted := modTun_tun_self s n fun x => { x with untested := x.untested + 1 }
  fun_cases leaveUntested s n <;> exact hcounted

end Sys2Proof.Machine
end

section
/-! PROOFS. Which group's watchdog, which level's budget (Table 16.3, R336; part of `Obligations.IntegrityEventsComplete`). -/
namespace Sys2Proof.Machine

variable {s t : State} {g : StageGroup} {b : Bool} {id : Seq} {f : FaultRec}

/-! ### Watchdogs -/

/-- A watchdog that is not due changes nothing. -/
theorem watchdogFire_rests (hg : g ≠ .gaugerCompare) (h : inBlockReset s = true ∨ watchdogHeld s g = true) : watchdogFire g b s = s := by
  simp [watchdogFire, hg, h]

theorem watchdogFire_gaugerCompare (s : State) (b : Bool) : watchdogFire .gaugerCompare b s = stampRefused s := if_pos rfl

section
variable (hreset : inBlockReset s = false)
include hreset

theorem watchdogFire_tun {n : Fin 68} {readable : Bool} (hheld : watchdogHeld s (.tun n readable) = false) :
    watchdogFire (.tun n readable) b s = tunFails s n 0x07 readable := by
  simp [watchdogFire, hreset, hheld]

theorem watchdogFire_tunSram {n : Fin 68} {readable : Bool} :
    watchdogFire (.tunSram n readable) b s = tunFails (countSram s false) n 0x04 readable := by
  simp [watchdogFire, watchdogHeld, hreset]

theorem watchdogFire_splicePort {p : Fin 128} : watchdogFire (.splicePort p) b s = portWatchdog (stamp s) p b := by
  simp [watchdogFire, watchdogHeld, hreset]

theorem watchdogFire_memPort {p : Fin 32} : watchdogFire (.memPort p) b s = memWatchdog s p := by
  simp [watchdogFire, watchdogHeld, hreset]

theorem watchdogFire_channel {d : Fin 32} : watchdogFire (.channel d) b s = deviceTimeout d s := by
  simp [watchdogFire, watchdogHeld, hreset]

theorem watchdogFire_cellarPath {die : Fin 4} {rs : List (Fin 1024)} :
    watchdogFire (.cellarPath die rs) b s = cellarWatchdog (stamp s) die rs b := by
  simp [watchdogFire, watchdogHeld, hreset]

/-- The groups whose recovery is the block's reset. -/
theorem watchdogFire_seven (hg : g ∈ [StageGroup.grist, .gauger, .updateEngine]) (hheld : watchdogHeld s g = false) :
    watchdogFire g b s = startSeven (stamp s) 0x07 := by
  simp only [List.mem_cons, List.not_mem_nil, or_false] at hg
  obtain rfl | rfl | rfl := hg
  all_goals simp [watchdogFire, hreset, hheld]

theorem watchdogFire_pair {p : Fin 4} : watchdogFire (.pair p) b s = levelSix (stamp s) p 0x07 := by
  simp [watchdogFire, watchdogHeld, hreset]

theorem watchdogFire_lockstep {p : Fin 4} : watchdogFire (.lockstep p) b s = levelSix (stamp s) p 0x06 := by
  simp [watchdogFire, watchdogHeld, hreset]

theorem watchdogFire_pairSram {p : Fin 4} : watchdogFire (.pairSram p) b s = levelSix (stamp (countSram s false)) p 0x04 := by
  simp [watchdogFire, watchdogHeld, hreset]

theorem watchdogFire_sramCorrected : watchdogFire .sramCorrected b s = countSram (stamp s) true := by
  simp [watchdogFire, watchdogHeld, hreset]

theorem watchdogFire_gristSram : watchdogFire .gristSram b s = gristWordLost (countSram s false) := by
  simp [watchdogFire, watchdogHeld, hreset]

theorem watchdogFire_portSram {p : Fin 128} {c : Fin 64} {n : BitVec 16} :
    watchdogFire (.portSram p c n) b s = portWordLost (countSram s false) p c n.toNat := by
  simp [watchdogFire, watchdogHeld, hreset]

/-- The watchdogs of a core pair restart it, and count what its SRAM has lost. -/
theorem watchdogFire_restarts {p : Fin 4} (hg : g ∈ [StageGroup.pair p, .lockstep p, .pairSram p])
    (hpair : tget .down s.repair.pairs p ≠ .restarting) : tget .down (watchdogFire g b s).repair.pairs p = .restarting ∧
      (watchdogFire g b s).integrity.sramUncorrectable =
        (if g = .pairSram p then sat 32 (s.integrity.sramUncorrectable + 1) else s.integrity.sramUncorrectable) := by
  simp only [List.mem_cons, List.not_mem_nil, or_false] at hg
  obtain rfl | rfl | rfl := hg
  · rw [watchdogFire_pair hreset, if_neg (by simp)]
    exact levelSix_stamp_restarts hreset hpair
  · rw [watchdogFire_lockstep hreset, if_neg (by simp)]
    exact levelSix_stamp_restarts hreset hpair
  · rw [watchdogFire_pairSram hreset, if_pos rfl]
    exact levelSix_stamp_restarts (s := countSram s false) hreset hpair

end

/-! ### Budgets -/

/-- The fault that a budget belongs to bears its ID. -/
theorem budgetFault_id (h : budgetFault s id = some f) : f.id = id := by
  unfold budgetFault at h
  refine List.foldlRecOn (motive := fun o : Option FaultRec => ∀ g, o = some g → g.id = id) _ _ ?_ (fun o ho x hx g hg => ?_) f h
  · rintro g ⟨⟩
  have hxid : x.id = id := by simpa using (List.mem_filter.mp hx).2
  split at hg
  · split at hg <;> obtain rfl := Option.some.inj hg
    · exact hxid
    · exact ho _ rfl
  · obtain rfl := Option.some.inj hg
    exact hxid

section
variable (hid : id ≠ 0) (hf : budgetFault s id = some f)
include hid hf

theorem budgetExpiry_two (hresets : resets s f = false) (hlevel : f.level = 2) : budgetExpiry id s = escalateTwo s f := by
  simp [budgetExpiry, hid, hf, hresets, hlevel]

theorem budgetExpiry_three (hresets : resets s f = false) (hlevel : f.level = 3) : budgetExpiry id s = escalateThree s f := by
  simp [budgetExpiry, hid, hf, hresets, hlevel]

theorem budgetExpiry_seven (hlevel : f.level = 4 ∨ f.level = 5 ∨ f.level = 6) (hreset : inBlockReset s = false) :
    budgetExpiry id s = levelSeven (stamp s) id f.source f.first := by
  obtain hlevel | hlevel | hlevel := hlevel <;> simp [budgetExpiry, hid, hf, hlevel, hreset]

end

theorem budgetExpiry_stops (hf : budgetFault s id = some f) (hlevel : f.level = 7) (hstep : s.glob.warmStep ≠ 0) :
    budgetExpiry id s = stopBlock s := by
  by_cases hid : id = 0
  · simp [budgetExpiry, hid, hstep]
  · simp [budgetExpiry, hid, hf, hlevel]

end Sys2Proof.Machine
end

section
/-! PROOFS. The last steps to `Obligations.IntegrityEventsComplete`: each watchdog from the state at which it fires. -/
namespace Sys2Proof.Machine

variable {s : State} {b : Bool}

/-- A tun whose SRAM has lost a word is fenced, and the word is counted. -/
theorem watchdogFire_tunSram_fences {n : Fin 68} {readable : Bool} (hrise : keysRise s.tuns = true) (hreset : inBlockReset s = false)
    (hst : (s.tun n).st = .active ∨ (s.tun n).st = .bist) : ((watchdogFire (.tunSram n readable) b s).tun n).st = .fenced ∧
      SramLost s (watchdogFire (.tunSram n readable) b s) := by
  rw [watchdogFire_tunSram hreset]
  exact ⟨tunFails_st (s := countSram s false) hrise hst, (tunFails_counts ..).sramLost⟩

/-- The gyle whose row a port has lost reruns, and the word is counted. -/
theorem watchdogFire_portSram_reruns {p : Fin 128} {c : Fin 64} {n : BitVec 16} (hreset : inBlockReset s = false) :
    SramLost s (watchdogFire (.portSram p c n) b s) ∧ ∀ g, s.gyle (ownGyle c n.toNat) = some g → (g.st = .running ∨ g.st = .sorted) →
      ∃ g', (watchdogFire (.portSram p c n) b s).gyle (ownGyle c n.toNat) = some g' ∧ g.Reran g' := by
  rw [watchdogFire_portSram hreset]
  exact ⟨(portWordLost_counts ..).sramLost, fun g hg hst => portWordLost_reruns (s := countSram s false) hg hst⟩

theorem watchdogFire_splicePort_reruns {p : Fin 128} (hkeys : (s.gyles.map (·.key)).Nodup) (hreset : inBlockReset s = false) :
    ∀ g ∈ portGyles s p, ∃ g', (watchdogFire (.splicePort p) false s).gyle g.key = some g' ∧ g.Reran g' := by
  rw [watchdogFire_splicePort hreset, ← portGyles_of_gyles (stamp_gyles s)]
  exact portWatchdog_reruns (by rwa [stamp_gyles])

theorem watchdogFire_splicePort_resets {p : Fin 128} (hreset : inBlockReset s = false) : ∀ g ∈ portGyles s p,
    (s.ctx g.key.owner).st ≠ .down → ((watchdogFire (.splicePort p) true s).ctx g.key.owner).st = .resetting := by
  intro g hg hup
  rw [watchdogFire_splicePort hreset]
  rw [← portGyles_of_gyles (stamp_gyles s)] at hg
  exact portWatchdog_resets hg (by rwa [stamp_ctx])

/-- The slot of a tun, as the obligation asks of it. -/
theorem selftestSlot_tun {n : Nat} (h : SlotPasses n s (slotBegun s)) (t : State) (ht : t = slotTun (slotBegun s) n) :
    ((s.tun n).st = .spare → selftestOn s = true → (t.tun n).st = .bist ∧ (t.tun n).selfTest = true) ∧
    (∀ l p, (s.tun n).st = .active → (s.tun n).logical = some l → selftestOn s = true → freeSpare s = some p → keysRise s.tuns = true →
      let begun := fun (o : Op) => (openSet (s.tun n) o).isSome
      (t.tun n).logical = none ∧ (t.tun n).queue = (s.tun n).queue.filter begun ∧ (t.tun n).selfTest = true ∧
      ((s.tun n).issued = [] → (s.tun n).queue.filter begun = [] → (t.tun n).st = .bist) ∧
      (t.tun p).st = .active ∧ (t.tun p).logical = some l ∧ (t.tun p).queue = (s.tun n).queue.filter (!begun ·) ++ (s.tun p).queue) ∧
    (∀ l, (s.tun n).st = .active → (s.tun n).logical = some l → (selftestOn s = false ∨ freeSpare s = none) →
      (t.tun n).st = .active ∧ (t.tun n).untested = (s.tun n).untested + 1) := by
  subst ht
  rw [← h.tun, ← h.on, ← h.spare]
  refine ⟨slotTun_spare, fun l p hst hlogical hon hspare hrise => ?_, fun l hst hlogical hnone => ?_⟩
  · have hne : p ≠ n := fun hp => by
      have hp' := spare_of_freeSpare (h.keys hrise) hspare
      rw [hp, hst] at hp'
      cases hp'
    rw [slotTun_handsOver hst hlogical hon hspare, ← h.queue p]
    obtain ⟨hlog, hqueue, htest, hbist⟩ := handOverSlot_tun_self (l := l) hst hne
    exact ⟨hlog, hqueue, htest, hbist, handOverSlot_tun_spare hne⟩
  · rw [slotTun_leaves hst hlogical hnone, leaveUntested_tun]
    exact ⟨hst, rfl⟩

end Sys2Proof.Machine
end

open Sys2Proof Sys2Proof.Machine in
/-- Settles O44: a part for each kind of event, from what the group, the level or the slot does when it is due. -/
theorem integrityEventsComplete : Obligations.IntegrityEventsComplete := by
  unfold Obligations.IntegrityEventsComplete
  intro s
  refine ⟨fun hready => ⟨fun p => ?clean, fun p => ?corrected, fun p => ?uncorrectable⟩, fun e he => ?errors,
    fun n readable b hinv hreset hst => ⟨fun hheld => ?tun, ?tunSram⟩, fun p hinv hreset => ⟨?reruns, ?splice⟩,
    fun p b r rest hreset hout => ⟨fun hretries => ?retries, fun x hretries hx hup => ?memPort⟩, fun die rs hreset => ?regions,
    fun p b g hg hreset hpair => ?pairs, fun g hg b hreset hheld hopen hcold => ?units, fun die rs hreset hopen hcold => ?paths,
    fun b => ?compare, fun d b hreset hst => ?channel, fun b hreset => ?sramCorrected, fun b hreset => ?grist,
    fun p c n b hreset => ?portSram, fun g b hg hrests => ?rests, fun id f n hid hf hresets hlevel hrun hinv => ?two,
    fun id f hid hf hresets hlevel => ?three, fun id f hid hf hlevel hreset hcold => ?seven,
    fun id f hf hlevel hstopped hstep hwait => ?stops, fun hready hpair => ?slot, fun n hcount => ?ages⟩
  case clean => exact ⟨_, congrArg Host.Outcome.next (scrubRead_clean hready p), rfl, rfl, rfl⟩
  case corrected =>
    obtain ⟨haddr, hcount⟩ := correctWord_counts (stamp s) s.cellar.scrubAddr
    rw [stamp_cellar] at haddr hcount
    exact ⟨_, congrArg Host.Outcome.next (scrubRead_corrected hready p), by rw [nextScrub_scrubAddr, haddr], hcount⟩
  case uncorrectable =>
    obtain ⟨haddr, hcount⟩ := uncorrectableWord_counts (stamp s) s.cellar.scrubAddr p
    rw [stamp_cellar] at haddr hcount
    exact ⟨_, congrArg Host.Outcome.next (scrubRead_uncorrectable hready p), by rw [nextScrub_scrubAddr, haddr], hcount⟩
  case errors =>
    exact ⟨fun c n hdue => ⟨_, rfl, meetErrors_uncorrectable he hdue⟩, fun toKiln hdue => ⟨_, rfl, meetErrors_uncorrectable he hdue⟩,
      fun k hdue => ⟨_, rfl, meetErrors_uncorrectable he hdue⟩⟩
  case tun =>
    obtain ⟨-, -, -, hrise, -⟩ := hinv
    exact ⟨_, congrArg Host.Outcome.next (watchdogFire_tun hreset hheld), tunFails_st hrise hst⟩
  case tunSram =>
    obtain ⟨-, -, -, hrise, -⟩ := hinv
    exact ⟨_, rfl, watchdogFire_tunSram_fences hrise hreset hst⟩
  case reruns =>
    obtain ⟨-, hkeys, -⟩ := hinv
    exact ⟨_, rfl, watchdogFire_splicePort_reruns hkeys hreset⟩
  case splice => exact ⟨_, rfl, watchdogFire_splicePort_resets hreset⟩
  case retries =>
    obtain ⟨r', hr', hstands⟩ := memWatchdog_retries hout hretries
    exact ⟨_, r', congrArg Host.Outcome.next (watchdogFire_memPort hreset), hr', hstands⟩
  case memPort => exact ⟨_, congrArg Host.Outcome.next (watchdogFire_memPort hreset), memWatchdog_resets hout hretries hx hup⟩
  case regions => exact ⟨_, congrArg Host.Outcome.next (watchdogFire_cellarPath hreset), fun r hr => cellarWatchdog_opens hr⟩
  case pairs => exact ⟨_, rfl, watchdogFire_restarts hreset hg hpair⟩
  case units =>
    exact ⟨_, congrArg Host.Outcome.next (watchdogFire_seven hreset hg hheld), startSeven_stamp_requests hreset hopen hcold⟩
  case paths => exact ⟨_, congrArg Host.Outcome.next (watchdogFire_cellarPath hreset), startSeven_stamp_requests hreset hopen hcold⟩
  case compare =>
    exact ⟨_, congrArg Host.Outcome.next (watchdogFire_gaugerCompare s b), stampRefused_compareFaults s, stampRefused_fails,
      stampRefused_requests⟩
  case channel => exact ⟨_, congrArg Host.Outcome.next (watchdogFire_channel hreset), deviceTimeout_timeouts hst⟩
  case sramCorrected =>
    refine ⟨_, congrArg Host.Outcome.next (watchdogFire_sramCorrected hreset), ?_⟩
    rw [countSram, if_pos rfl, stamp_integrity]
  case grist => exact ⟨_, congrArg Host.Outcome.next (watchdogFire_gristSram hreset), (gristWordLost_counts ..).sramLost⟩
  case portSram => exact ⟨_, rfl, watchdogFire_portSram_reruns hreset⟩
  case rests => exact congrArg Host.Outcome.next (watchdogFire_rests hg hrests)
  case two =>
    obtain ⟨-, -, -, hrise, -⟩ := hinv
    rw [← budgetFault_id hf] at hrun
    exact ⟨_, congrArg Host.Outcome.next (budgetExpiry_two hid hf hresets hlevel), escalateTwo_st hrise hrun⟩
  case three =>
    refine ⟨_, congrArg Host.Outcome.next (budgetExpiry_three hid hf hresets hlevel), fun o ho hnear hup => ?_⟩
    rw [← budgetFault_id hf] at ho
    exact escalateThree_resets ho hnear hup
  case seven =>
    have hwarm : (stamp s).glob.warmStep = 0 := by rw [stamp_glob, warmStep_of_inBlockReset hreset]
    have hcold' : coldPending (stamp s) = false := by rw [coldPending_of_glob (stamp_glob s), hcold]
    exact ⟨_, congrArg Host.Outcome.next (budgetExpiry_seven hid hf hlevel hreset), levelSeven_requests hwarm hcold'⟩
  case stops => exact ⟨_, congrArg Host.Outcome.next (budgetExpiry_stops hf hlevel hstep), stopBlock_stops hstopped hstep hwait⟩
  case slot =>
    refine ⟨_, slotAfter s.integrity.selftestTun, congrArg Host.Outcome.next (selftestSlot_acts hready hpair), ?_, rfl,
      selftestSlot_tun (slotBegun_passes s) _ rfl⟩
    rw [slotTun_integrity, slotBegun_selftestTun]
  case ages =>
    have htun := faultCountExpiry_tun hcount
    exact ⟨_, rfl, by rw [htun], by rw [htun]⟩
